-- ==== Sys2Proof/Word.lean ====
section
/-! DEFINITION. The words the NL4716 is made of: bytes, 32-bit register words, the two host ports,
and the agents of the register bus. -/

namespace Sys2Proof

/-- One byte of a frame, a line or a block. -/
abbrev Byte := BitVec 8

/-- One 32-bit register or data word (R88, R152). -/
abbrev Word := BitVec 32

/-- The two host ports, of equal rights. -/
inductive Port where
  | a
  | b
  deriving DecidableEq, Repr

/-- The other port. -/
def Port.other : Port → Port
  | .a => .b
  | .b => .a

/-- The requesters of the register bus (R99). -/
inductive Agent where
  /-- A host port, or a Wilone command made on its behalf. -/
  | port (p : Port)
  /-- The command core on its own account (R202). -/
  | core
  /-- The event engine (R202). -/
  | event
  deriving DecidableEq, Repr

end Sys2Proof
end

