-- ==== Sys2Proof/Syntax.lean ====
section
/-! DEFINITION. The commands the NL4716 takes, one constructor per row of spec/opcode_table.json, and the types of
their operands. An operand is what comes from OUTSIDE the block at that step: the bits of a frame, the text of a line, the
modulator samples of an element, the level of a pin, the answer of a worker on a Flue bus, the outcome of a physical test.
Everything the manual lets the block compute is computed from these and from the state.
Log entry 132 (DEDUCED, unsafe). -/

namespace Sys2Proof

/-- The access kind that address bits [15:14] select (R89). -/
inductive AccessKind where
  | direct
  | setBits
  | clearBits
  | toggleBits
  deriving DecidableEq, Repr

/-- What a binary frame brings beside its own fields. `since`: how many ticks ago x_SEL fell for it (R208). `abyte`: the address
byte of addressed mode (used only there, R188). `crc`: the CRC byte the host drives (used only while x_CTRL.CRC is 1). Clocked:
`sckHigh`, the level of x_SCK as x_SEL falls (R150), and how many rising and falling edges x_SCK makes until x_SEL rises, turnaround
and the NL4716's part included (R153); `turnNs`, how long the turnaround lasts, in ns. Async: `selHigh`, x_SEL is High while the
frame comes (R79); `bits`, how many bits of the frame's bytes pass before a gap or the rise of x_SEL ends it (R195); `collide`, the
bit of the frame that reads back different from what the NL4716 drives, if one does (R198).
Log entry 1 (DESIGN CHOICE, safe). -/
structure FrameEnv where
  since : Nat
  abyte : Byte
  crc : Byte
  sckHigh : Bool
  rises : Nat
  falls : Nat
  turnNs : Nat
  selHigh : Bool
  bits : Nat
  collide : Option Nat
  deriving DecidableEq, Repr

/-- What a text frame brings beside its bytes: how many ticks ago x_SEL fell for it, or its first byte began (R208), the address byte
of addressed mode, the bits of a partial byte at the rise of x_SEL (0: none, R171), and, async, how many FOSC cycles the five bit
times of a CR measured (R191) and whether x_SEL is High (R79, R190).
Log entry 1 (DESIGN CHOICE, safe). -/
structure TextEnv where
  since : Nat
  abyte : Byte
  partialBits : Nat
  fiveBitTicks : Nat
  selHigh : Bool
  deriving DecidableEq, Repr

/-- The read-back of a row after a persistent write (R712): good, moved once to a spare row, failed there too. -/
inductive RowCheck where
  | good
  | failed
  | failedAgain
  deriving DecidableEq, Repr

/-- The filter-chain groups of R301. -/
inductive Group where
  | acf
  | ach
  | gyr
  | tmp
  | aux (n : Fin 8)
  /-- The three ACF resampler chains (R302). -/
  | resampler
  deriving DecidableEq, Repr

/-- One modulator sample (motion, TMP): its value in modulator units, and whether it was at the element's full-scale
limit (R264).
Log entries 1 (DESIGN CHOICE, safe), 57 (DESIGN CHOICE, unsafe). -/
structure Sample where
  v : Int
  full : Bool
  deriving DecidableEq, Repr

/-- What the servo measures on one ACF axis over a hold interval (R272): the sum and the number of residual modulator
samples, and whether any of them stood at the positive or the negative window limit. -/
structure AxisInterval where
  sum : Int
  n : Nat
  clipPos : Bool
  clipNeg : Bool
  deriving DecidableEq, Repr

/-- The measurements of one hold interval: the three ACF axes, the sums of the ACH outputs of the same axes in units of
2^-7 g over `achN` samples, and the GYR Z rate as a sum in modulator units over `gyrN` samples with its clip.
Log entries 1 (DESIGN CHOICE, safe), 57 (DESIGN CHOICE, unsafe). -/
structure HoldInput where
  x : AxisInterval
  y : AxisInterval
  z : AxisInterval
  achX : Int
  achY : Int
  achZ : Int
  achN : Nat
  gyrSum : Int
  gyrN : Nat
  gyrClip : Bool
  deriving DecidableEq, Repr

/-- One aux conversion's input (R393): the voltage between AINnP and AINnN and the voltage between REFP and REFN, in nV.
Log entry 1 (DESIGN CHOICE, safe). -/
structure AuxInput where
  vin : Int
  vref : Int
  deriving DecidableEq, Repr

/-- Four modulator samples in turn: the inputs of one decimated sample of the guard path (R480). -/
structure Quad where
  a : Sample
  b : Sample
  c : Sample
  d : Sample
  deriving DecidableEq, Repr

/-- The modulator samples of ACH X, Y and Z, at the element's full capacity, and of GYR Z that a decimator period of the guard path
takes (R480, R481).
Log entries 1 (DESIGN CHOICE, safe), 57 (DESIGN CHOICE, unsafe). -/
structure GuardInput where
  x : Quad
  y : Quad
  z : Quad
  g : Quad
  deriving DecidableEq, Repr

/-- What is wrong in one guard chain in a period, for R490 to find: what its decimator adds to a sum, whether its comparators and
its test vectors answer the other way, and what an upset adds to its copies of the thresholds. A sound chain has none.
Log entry 1 (DESIGN CHOICE, safe). -/
structure GuardUpset where
  x : Int
  y : Int
  z : Int
  g : Int
  cmp : Bool
  vec : Bool
  thrImp : Int
  thrOsp : Int
  deriving DecidableEq, Repr

/-- What is wrong in the two guard chains in a period.
Log entry 1 (DESIGN CHOICE, safe). -/
structure GuardUpsets where
  a : GuardUpset
  b : GuardUpset
  deriving DecidableEq, Repr

/-- What the break comparator of an aux channel finds (R401): the difference of the inputs in µV, and for how many FOSC cycles it has
stood on its side of 2.40 V.
Log entry 1 (DESIGN CHOICE, safe). -/
structure BreakInput where
  diffUv : Int
  ticks : Nat
  deriving DecidableEq, Repr

/-- The device certificate without the serial number and the public key that the part itself fixes (R9, R637): the bytes before the
one and after the other.
Log entries 1 (DESIGN CHOICE, safe), 9 (DESIGN CHOICE, safe). -/
structure CertFrame where
  head : List Byte
  tail : List Byte
  deriving DecidableEq, Repr

/-- What a manager reads at one worker number during a scan or attach (R610, R611): `ident` the six identity words (none:
0xFF, no answer), whether 3 successive reads had a CRC mismatch, the worker's FLUE_WSTATE before the load, the status of
the 3-word load frame, and FLUE_WSTATE after the mark.
Log entries 1 (DESIGN CHOICE, safe), 109 (DEDUCED, unsafe). -/
structure ScanAnswer where
  w : Fin 32
  ident : Option (List Word)
  crcFails : Bool
  wstate : Option Word
  loadStatus : Nat
  wstateAfter : Option Word
  deriving DecidableEq, Repr

/-- What a pull of one block reads from a worker (R619): the queue served, whether any frame was answered, Qn_FILL, whether
a STREAM_READ was NOT_READY or refused because the queue is not assigned to port B, the block's 1,024 words in each reading of
it (R620), of each frame how many times it came with a CRC mismatch or CRC_FAIL, whether the COMMIT was refused, and the
worker's read sequence then (R622).
Log entries 1 (DESIGN CHOICE, safe), 110 (DEDUCED, unsafe). -/
structure PullAnswer where
  queue : Fin 4
  answered : Bool
  fill : Word
  notReady : Bool
  unassigned : Bool
  blocks : List (List Word)
  crcErrors : List Nat
  commitRefused : Bool
  rdSeq : Nat
  deriving DecidableEq, Repr

/-- A worker's reply to a line of a forwarding (R627). -/
inductive ForwardReply where
  | ok
  | err
  deriving DecidableEq, Repr

/-- How one block's test came out (R701): the signature obtained, whether it matches the boot ROM's, the steps executed,
the first failing sub-test, the unit it failed on (axis, channel, engine or buffer unit), and which buffer unit taken
failed. `spareBad`: the spare of the kind failed its own test (R707).
Log entry 1 (DESIGN CHOICE, safe). -/
structure TestOutcome where
  sig : Word
  sigOk : Bool
  steps : Nat
  sub : Nat
  unit : Nat
  spareBad : Bool
  deriving DecidableEq, Repr

/-- The levels of A_CFG, B_CFG and TEST at the release of internal reset (R51, R54). An open pin reads Low (R52).
Log entries 1 (DESIGN CHOICE, safe), 117 (DEDUCED, unsafe). -/
structure Straps where
  aCfg : Bool
  bCfg : Bool
  test : Bool
  deriving DecidableEq, Repr

/-- The levels present on the VIO-domain inputs when VIO returns (R57).
Log entry 1 (DESIGN CHOICE, safe). -/
structure VioLevels where
  key : Bool
  damper : Bool
  sync : Bool
  deriving DecidableEq, Repr

/-- An ECC finding in a word read (R511): its place in the words read, and whether it is uncorrectable.
Log entry 1 (DESIGN CHOICE, safe). -/
structure EccFinding where
  word : Nat
  uncorrectable : Bool
  deriving DecidableEq, Repr

/-- The commands: one constructor per row of spec/opcode_table.json, in the table's order.
Log entries 1 (DESIGN CHOICE, safe), 131 (DEDUCED, unsafe). -/
inductive Instr where
  /-- TEXT_INPUT (R171): A text input frame or async text byte is appended to the port's line buffer; a terminator ends the line. -/
  | textInput (p : Port) (e : TextEnv) (bytes : List Byte)
  /-- REG_READ (R145): A binary register read frame returns a status byte and up to 256 words after the turnaround. -/
  | regRead (p : Port) (e : FrameEnv) (addr : BitVec 16) (count : Byte)
  /-- REG_WRITE (R165): A binary register write frame for registers without a row of their own is checked at its header and applied word by word. -/
  | regWrite (p : Port) (e : FrameEnv) (addr : BitVec 16) (count : Byte) (words : List Word)
  /-- STREAM_READ (R178): A frame reads words of a queue from a filled frame store without moving the read pointer and starts the next fill. -/
  | streamRead (p : Port) (e : FrameEnv) (queue : Byte) (offset : BitVec 24) (count : Byte)
  /-- TEXT_READ (R173): A frame delivers waiting reply bytes, padded to the count, and removes them from the reply buffer. -/
  | textRead (p : Port) (e : FrameEnv) (count : Byte)
  /-- PORT_STATUS (R183): A frame returns the port status word without side effect. -/
  | portStatus (p : Port) (e : FrameEnv)
  /-- COMMIT (R181): A frame advances a queue's read pointer by whole blocks, subject to R539. -/
  | commit (p : Port) (e : FrameEnv) (queue : Byte) (blocks : BitVec 16)
  /-- SESSION_RESET (R185): A frame with 0xA5 empties the port's buffers, ends authentication, releases semaphores and restores session defaults. -/
  | sessionReset (p : Port) (e : FrameEnv) (confirm : Byte)
  /-- UNNAMED_FRAME (R163): A frame whose byte 0 names no frame type is ignored and counted in x_FRAMES. -/
  | unnamedFrame (p : Port) (e : FrameEnv) (byte0 : Byte)
  /-- ASYNC_FRAME_GAP (R195): More than 20 bit times between host bytes of an async binary frame discards the frame. -/
  | asyncFrameGap (p : Port) (byte0 : Byte)
  /-- BREAK (R192): SDIO held low for a break restarts baud detection. -/
  | breakLow (p : Port) (lowTicks : Nat)
  /-- REPLY_BYTE_SEND (R197): In the async personality a reply byte is sent once SDIO has been idle for 2 bit times. -/
  | replyByteSend (p : Port) (idleTicks : Nat) (readBack : Byte)
  /-- SEL_WAKE (R208): A falling edge of A_SEL or B_SEL wakes D5 or the device, or aborts a test of a port under test. -/
  | selWake (p : Port) (lowTicks : Nat)
  /-- LEASE_EXPIRY (R204): A port's semaphore lease runs out and its semaphores not held by a command are released. -/
  | leaseExpiry (p : Port)
  /-- SEM_CLAIM (R199): A write claims the named semaphores for the writing port, or is refused with SEM_HELD. -/
  | semClaim (ag : Agent) (kind : AccessKind) (w : Word)
  /-- SEM_RELEASE (R200): A write releases the named semaphores that the writing port holds. -/
  | semRelease (ag : Agent) (kind : AccessKind) (w : Word)
  /-- INTSRC_SEQ_INCREMENT (R207): 7.6 µs after the last increment, one pending SEQ increment of x_INTSRC is made. -/
  | intsrcSeqIncrement (p : Port)
  /-- STATUS_CLEAR (R111): A SEQ write-back clears the marked SQ bits of a status register, or is refused on a SEQ mismatch or a pending increment. -/
  | statusClear (ag : Agent) (addr : BitVec 16) (w : Word)
  /-- COUNTER_CLEAR (R116): A SEQ write-back sets a counter's COUNT to 0, or is refused on a SEQ mismatch. -/
  | counterClear (ag : Agent) (addr : BitVec 16) (w : Word)
  /-- WINDOW_SEQ_INCREMENT (R721): At the end of a window in which events set SQ bits, the register's SEQ increments once. -/
  | windowSeqIncrement (addr : BitVec 16)
  /-- DATA_WINDOW_ACCESS (R140): A word read or written through a data register accesses the memory at the index and advances the index. -/
  | dataWindowAccess (ag : Agent) (addr : BitVec 16) (write : Option Word)
  /-- GATED_WRITE_APPLY (R133): A write held by the port for a clock-gated block is applied within 1.0 µs. -/
  | gatedWriteApply (p : Port)
  /-- CLOCK_GATE (R131): A block not accessed for at least 100 µs may gate its clock. -/
  | clockGate (block : Fin 15)
  /-- PERSIST_WRITE_DONE (R118): The posted-write controller marks the new row valid, or moves it to a spare row, and BUSY clears. -/
  | persistWriteDone (readBack : RowCheck)
  /-- GET (R245): The get verb replies with one line per named field. -/
  | getVerb (p : Port)
  /-- SET (R247): The set verb checks the whole line and then writes each named field in order. -/
  | setVerb (p : Port)
  /-- READ (R250): The read verb acts as one REG_READ frame and shows every word. -/
  | readVerb (p : Port)
  /-- WRITE (R250): The write verb acts as one REG_WRITE frame with its CRC correct. -/
  | writeVerb (p : Port)
  /-- MODE (R252): The mode verb starts an entry into Run, Watch or Ember, or names the refuser. -/
  | modeVerb (p : Port)
  /-- STREAM (R251): The stream verb reads words of a queue as STREAM_READ does. -/
  | streamVerb (p : Port)
  /-- COMMIT_VERB (R251): The commit verb advances a queue's read pointer as COMMIT does. -/
  | commitVerb (p : Port)
  /-- SEAL (R658): The seal verb closes open blocks and replies with the sequence of the seal that follows. -/
  | sealVerb (p : Port)
  /-- AUTH_BEGIN (R647): Opens a challenge with a nonce and an ephemeral key pair. -/
  | authBegin (p : Port)
  /-- AUTH_PUB (R647): Takes the owner public key for the open challenge and checks it against the owner digest. -/
  | authPub (p : Port)
  /-- AUTH_RESPOND (R649): Verifies the signature over M; success authenticates the port and starts an owner epoch, failure counts it. -/
  | authRespond (p : Port)
  /-- AUTH_END (R650): Ends the port's authentication and discards any open challenge. -/
  | authEnd (p : Port)
  /-- AUTH_STATUS (R647): Replies with the authentication state and lifecycle state. -/
  | authStatus (p : Port)
  /-- KEY_PUB (R636): Returns the device public key. -/
  | keyPub (p : Port)
  /-- KEY_CERT (R639): Returns the device and CA certificates. -/
  | keyCert (p : Port)
  /-- KEY_ENROL (R642): Stores the owner digest and OWNED, ends authentication, starts an open epoch and requests a LIFE seal. -/
  | keyEnrol (p : Port)
  /-- KEY_RETIRE (R643): Closes blocks, writes a RETIRE seal, destroys the private key and stores RETIRED. -/
  | keyRetire (p : Port)
  /-- ENGINE_START (R259): The engine start verb writes ENG_START with its mask. -/
  | engineStart (p : Port)
  /-- ENGINE_STOP (R259): The engine stop verb writes ENG_STOP with its mask. -/
  | engineStop (p : Port)
  /-- ENGINE_RESUME (R259): The engine resume verb writes ENG_RESUME with its mask. -/
  | engineResume (p : Port)
  /-- ENGINE_LOAD (R592): Copies a signed engine image from the library into an engine's program memory. -/
  | engineLoad (p : Port)
  /-- ENGINE_STATUS (R245): Replies with the state and program counter of each engine. -/
  | engineStatus (p : Port)
  /-- EVENT_START (R259): The event start verb writes EVT_SMSTART with its mask. -/
  | eventStart (p : Port)
  /-- EVENT_STOP (R259): The event stop verb writes EVT_SMSTOP with its mask. -/
  | eventStop (p : Port)
  /-- EVENT_LOAD (R474): Copies a signed event image from the library into program memory and machine registers. -/
  | eventLoad (p : Port)
  /-- EVENT_STATUS (R245): Replies with the state and program counter of each machine. -/
  | eventStatus (p : Port)
  /-- FLUE_LIST (R245): Replies with one line per worker. -/
  | flueList (p : Port)
  /-- FLUE_SCAN (R610): The manager reads the identity of every address of its enabled buses. -/
  | flueScan (p : Port) (answers : List ScanAnswer)
  /-- FLUE_AWAY (R624): Makes an ACTIVE worker AWAY by command. -/
  | flueAway (p : Port)
  /-- FLUE_BACK (R624): Lets an AWAY worker return by attach. -/
  | flueBack (p : Port)
  /-- FLUE_UPGRADE (R626): Starts forwarding the running firmware image to a worker. -/
  | flueUpgrade (p : Port)
  /-- TEST_RUN (R260): Isolates and tests the named blocks and replies with their results. -/
  | testRun (p : Port)
  /-- TEST_SHOW (R245): Replies with the stored result of each block. -/
  | testShow (p : Port)
  /-- SPARE_SHOW (R245): Replies with remaining and used spares and the state of each kind. -/
  | spareShow (p : Port)
  /-- SPARE_USE (R709): The spare use verb brings in a spare for a unit. -/
  | spareUse (p : Port)
  /-- UPGRADE_BEGIN (R257): Opens an upgrade of firmware, an engine image or an event image of a given size. -/
  | upgradeBegin (p : Port)
  /-- UPGRADE_DATA (R257): Places up to 48 bytes at an offset of the open image. -/
  | upgradeData (p : Port)
  /-- UPGRADE_COMMIT (R257): Checks the image for completeness and signature and writes it, making a firmware slot TRY and NEXT. -/
  | upgradeCommit (p : Port) (rows : RowCheck)
  /-- UPGRADE_ABORT (R258): Ends an open upgrade without effect. -/
  | upgradeAbort (p : Port)
  /-- UPGRADE_STATUS (R245): Replies with the open upgrade or idle. -/
  | upgradeStatus (p : Port)
  /-- LOCK (R249): Writes LK fields, one write per register, locking every LK field of each register. -/
  | lockVerb (p : Port)
  /-- WHO (R245): Replies with part, serial, firmware, port, lifecycle, authentication and held semaphores. -/
  | whoVerb (p : Port)
  /-- HELP (R245): Replies with the verbs or the grammar of one verb. -/
  | helpVerb (p : Port)
  /-- REPLY_LOST_TIMEOUT (R236): A data line that has waited 1 s for room causes the rest of the reply's data lines to be discarded with a lost line. -/
  | replyLostTimeout (p : Port)
  /-- SOURCE_START (R321): The first input after an element's start time, D3 switching ON or a channel start restarts its chains with zero history. -/
  | sourceStart (g : Group)
  /-- HOLD_UPDATE (R272): At every multiple of 131,072 ticks the servo computes the held value H of each ACF axis. -/
  | holdUpdate (m : HoldInput)
  /-- FILTER_OUTPUT (R315): At each output instant a chain forms an output with its flags and passes it to queues, event engine and resampler. -/
  | filterOutput (g : Group) (inputs : List (List Sample))
  /-- CASTLE_REQUEST (R337): A write of 1 to a REQ bit of FLT_CASTLE requests or pends castling, or is refused with CASTLE_BUSY. -/
  | castleRequest (ag : Agent) (kind : AccessKind) (w : Word)
  /-- SYNC_ARM (R329): A write of 1 to FLT_SYNC.ARM arms a synchronising reset. -/
  | syncArm (ag : Agent) (kind : AccessKind) (w : Word)
  /-- SYNCHRONISING_RESET (R331): At the selected instant every chain restarts with zero history and the reset instant is recorded. -/
  | synchronisingReset
  /-- COEF_LOAD (R347): FLT_CLIB GO with DIR load starts loading a library entry into a FIR bank. -/
  | coefLoad (ag : Agent) (kind : AccessKind) (w : Word)
  /-- COEF_SAVE (R347): FLT_CLIB GO with DIR save starts saving a FIR bank into a library entry. -/
  | coefSave (ag : Agent) (kind : AccessKind) (w : Word)
  /-- COEF_TRANSFER_DONE (R347): A library load or save ends, RESULT is set and GO clears. -/
  | coefTransferDone (rowFailed : Bool)
  /-- ANGLE_RATE_OUTPUT (R355): At each angle rate decimator output θ advances with scale and pending correction. -/
  | angleRateOutput (inputs : List Sample)
  /-- REFERENCE_INSTANT (R362): An accepted KEY edge or gravity instant is accepted, ignored or starts tracking, and the phase loop runs. -/
  | referenceInstant (instant : Nat)
  /-- KEY_MISS (R362): 1.5 rev pass without an accepted reference instant and the resampler enters HOLDOVER. -/
  | keyMiss
  /-- SPIN_LOW (R357): ω stays below f_min for 1/f_min s and the resampler enters SEARCH. -/
  | spinLow
  /-- REVOLUTION_END (R375): θ crosses an integer and the revolution marker, order record and angle steps are written into Q1 and passed to the event engine. -/
  | revolutionEnd
  /-- KEY_EDGE (R75): An accepted KEY edge is timestamped as a reference instant, revolution instant or wake source. -/
  | keyEdge (level : Bool) (ticks : Nat)
  /-- AUX_CONVERSION (R387): At a conversion instant a channel's linearised value is delivered to its chain. -/
  | auxConversion (n : Fin 8) (m : AuxInput)
  /-- CHECK_SLOT (R400): A check slot applies the burn-out current and reads the break comparator at its end. -/
  | checkSlot (n : Fin 8)
  /-- BREAK_COMPARATOR (R401): A channel's break comparator trips or releases. -/
  | breakComparator (n : Fin 8) (v : BreakInput)
  /-- EXCITATION_CHANGE (R397): At the next frame start an excitation change applies, skipping conversions and restarting the affected chains. -/
  | excitationChange
  /-- EXC_FAULT (R398): VEXC load current above the limit for 1 ms switches VEXC off and sets EXCFLT. -/
  | excFault (ticks : Nat)
  /-- LEAD_CAL (R412): A write of AUX_LCAL with GO starts a lead calibration of a channel. -/
  | leadCal (ag : Agent) (kind : AccessKind) (w : Word)
  /-- LEAD_CAL_DONE (R412): After 16 usable conversions R_lead is written persistently, GO clears and LCALDONE is set. -/
  | leadCalDone
  /-- LEAD_CAL_TIMEOUT (R412): 16 usable conversions do not arrive within 10 s, GO clears and LCALFAIL is set. -/
  | leadCalTimeout
  /-- DAMPER_EDGE (R417): An accepted DAMPER edge asserts or releases blanking, or acts as a wake source. -/
  | damperEdge (level : Bool) (ticks : Nat)
  /-- DAMPER_STUCK (R425): DAMPER asserted for 100 ms sets DAMPER_STUCK and may count as a release. -/
  | damperStuck
  /-- HELD_RECORDS_WRITE (R28): When D4 and D7 are next both ON, pending buffer records and held event records are written into Q3 in order. -/
  | heldRecordsWrite
  /-- SM_TIMER_EXPIRY (R464): A machine timer expires, ending a TIME wait or timing out a wait with C = 0. -/
  | smTimerExpiry (n : Fin 16) (timer : Fin 2)
  /-- SM_STOP (R461): The STOP instruction puts the machine in STOPPED. -/
  | smStop (n : Fin 16)
  /-- SM_WAITC (R462): The WAITC instruction begins waiting on the machine's source. -/
  | smWaitc (n : Fin 16)
  /-- SM_WAITE (R463): The WAITE instruction begins waiting for a recogniser decision or guard record. -/
  | smWaite (n : Fin 16)
  /-- SM_TIME (R464): The TIME instruction starts, stops or waits for a timer. -/
  | smTime (n : Fin 16)
  /-- SM_CNT (R461): The CNT instruction loads, increments or decrements a counter. -/
  | smCnt (n : Fin 16)
  /-- SM_JMP (R461): The JMP instruction jumps to its target. -/
  | smJmp (n : Fin 16)
  /-- SM_JIF (R461): The JIF instruction jumps on a flag, C, counter or timer condition. -/
  | smJif (n : Fin 16)
  /-- SM_EMIT (R465): The EMIT instruction writes a machine record with the reference instant. -/
  | smEmit (n : Fin 16)
  /-- SM_OUT (R466): The OUT instruction routes a decision to ports, raises an engine interrupt or writes TXD. -/
  | smOut (n : Fin 16)
  /-- SM_CAPT (R465): The CAPT instruction triggers the named queues that are in CAPTURE policy. -/
  | smCapt (n : Fin 16)
  /-- SM_SETF (R469): The SETF instruction sets shared flags. -/
  | smSetf (n : Fin 16)
  /-- SM_CLRF (R469): The CLRF instruction clears shared flags. -/
  | smClrf (n : Fin 16)
  /-- EVT_SMSTART (R459): A write starts the named machines at their start addresses. -/
  | evtSmstart (ag : Agent) (kind : AccessKind) (w : Word)
  /-- EVT_SMSTOP (R459): A write stops the named machines after their current instruction. -/
  | evtSmstop (ag : Agent) (kind : AccessKind) (w : Word)
  /-- EVT_FLAGSET (R469): A write sets shared flags. -/
  | evtFlagset (ag : Agent) (kind : AccessKind) (w : Word)
  /-- EVT_FLAGCLR (R469): A write clears shared flags. -/
  | evtFlagclr (ag : Agent) (kind : AccessKind) (w : Word)
  /-- GUARD_PERIOD (R483): At each decimator period both guard chains compare quantities and test vectors and update persistence and state. -/
  | guardPeriod (ins : GuardInput) (u : GuardUpsets)
  /-- GUARD_ARM (R494): A write of 1 to GRD_LOCK.ARM locks the guard configuration and starts arming. -/
  | guardArm (ag : Agent) (kind : AccessKind) (w : Word)
  /-- GUARD_ACK (R496): A write of 1 to GRD_ACK.ACK requests acknowledgment. -/
  | guardAck (ag : Agent) (kind : AccessKind) (w : Word)
  /-- GUARD_PIN_FAULT (R493): A GUARD pin sensed at the wrong level for 1 ms puts the guard path in FAULT. -/
  | guardPinFault (second : Bool) (high : Bool) (ticks : Nat)
  /-- GUARD_SHORT_RELEASE (R72): A GUARD pin under its short-circuit limit for more than 1 ms is released. -/
  | guardShortRelease (second : Bool) (ticks : Nat)
  /-- FAULT_PULSE (R486): In FAULT with FPULSE, both pins are driven low for 20 µs at every multiple of 2^16 ticks. -/
  | faultPulse
  /-- BLOCK_TIMEOUT (R528): An open block whose age reaches Qn_CFG.TMO closes. -/
  | blockTimeout (q : Fin 4)
  /-- BLOCK_READABLE (R18): The security engine writes digest, MAC and CRC-32 and the block becomes readable. -/
  | blockReadable (q : Fin 4)
  /-- SEAL_TIMER (R529): 10 s after the last seal composition a periodic seal is due. -/
  | sealTimer
  /-- SEAL_COMPOSE (R657): The command core composes a seal block serving every waiting reason. -/
  | sealCompose
  /-- SEAL_SIGNED (R655): The ECDSA signature of a seal completes and the seal block closes into Q3. -/
  | sealSigned
  /-- APPLY (R531): A write of 1 to BUF_CTRL.APPLY applies the bank allocation or is refused. -/
  | apply (ag : Agent) (kind : AccessKind) (w : Word)
  /-- QUEUE_POLICY_WRITE (R538): A write of POLICY changes a queue's policy and state in the cycle of the write. -/
  | queuePolicyWrite (ag : Agent) (kind : AccessKind) (q : Fin 5) (w : Word)
  /-- TRIG (R535): A capture trigger reaches an ARMED queue, which enters CAPTURING. -/
  | trig (ag : Agent) (kind : AccessKind) (q : Fin 5) (w : Word)
  /-- REARM (R537): A write of 1 to Qn_CTRL.REARM discards unread blocks and re-enters ARMED. -/
  | rearm (ag : Agent) (kind : AccessKind) (q : Fin 5) (w : Word)
  /-- OVERWRITE_RUN_END (R547): An OVERWRITE run ends, or reaches 1 s, and its gap record is written. -/
  | overwriteRunEnd (q : Fin 5)
  /-- ENGINE_TICK (R560): At each tick the context whose turn it is executes at most one instruction. -/
  | engineTick (n : Fin 4) (levels : BitVec 16)
  /-- ENG_JMP (R572): The JMP instruction jumps when its condition holds. -/
  | engJmp (n : Fin 4) (c : Fin 8) (levels : BitVec 16)
  /-- DJNZ (R572): The DJNZ instruction decrements CA or CB and jumps when not 0. -/
  | djnz (n : Fin 4) (c : Fin 8) (levels : BitVec 16)
  /-- ENG_SET (R572): The SET instruction changes pin latches, a count register or shared flags. -/
  | engSet (n : Fin 4) (c : Fin 8) (levels : BitVec 16)
  /-- DELAY (R574): The DELAY instruction starts a delay of COUNT ticks. -/
  | delay (n : Fin 4) (c : Fin 8) (levels : BitVec 16)
  /-- DELAY_END (R574): A delay ends COUNT ticks after it began. -/
  | delayEnd (n : Fin 4) (c : Fin 8) (levels : BitVec 16)
  /-- WAITPIN (R574): The WAITPIN instruction waits until pins match or differ from a value. -/
  | waitpin (n : Fin 4) (c : Fin 8) (levels : BitVec 16)
  /-- WAITFLAG (R574): The WAITFLAG instruction waits for a shared flag level. -/
  | waitflag (n : Fin 4) (c : Fin 8) (levels : BitVec 16)
  /-- WAITIRQ (R579): The WAITIRQ instruction waits for and consumes the engine's interrupt latch. -/
  | waitirq (n : Fin 4) (c : Fin 8) (levels : BitVec 16)
  /-- SHIFTOUT (R573): The SHIFTOUT instruction starts shifting N bits of SH out on a data pin. -/
  | shiftout (n : Fin 4) (c : Fin 8) (levels : BitVec 16)
  /-- SHIFTIN (R573): The SHIFTIN instruction starts shifting N bits from a data pin into SH. -/
  | shiftin (n : Fin 4) (c : Fin 8) (levels : BitVec 16)
  /-- SHIFT_END (R573): A shift ends after its N bits. -/
  | shiftEnd (n : Fin 4) (c : Fin 8) (levels : BitVec 16)
  /-- PULL (R576): The PULL instruction copies TXD into its destination and clears TXF, or waits. -/
  | pull (n : Fin 4) (c : Fin 8) (levels : BitVec 16)
  /-- PUSH (R577): The PUSH instruction copies its source into RXD and sets RXF, or waits. -/
  | push (n : Fin 4) (c : Fin 8) (levels : BitVec 16)
  /-- IRQ (R579): The IRQ instruction sets interrupt latches of named engines and optionally the host IRQ bit. -/
  | irq (n : Fin 4) (c : Fin 8) (levels : BitVec 16)
  /-- ENG_START (R582): A write starts the named engines on the next FOSC edge. -/
  | engStart (ag : Agent) (kind : AccessKind) (w : Word)
  /-- ENG_STOP (R583): A write stops the named engines at their next tick. -/
  | engStop (ag : Agent) (kind : AccessKind) (w : Word)
  /-- ENG_RESUME (R584): A write resumes the named engines, or is refused when RESOK is 0. -/
  | engResume (ag : Agent) (kind : AccessKind) (w : Word)
  /-- ENG_IRQ (R579): A write sets the named engines' interrupt latches. -/
  | engIrq (ag : Agent) (kind : AccessKind) (w : Word)
  /-- ENG_RXACK (R578): A write clears RXF of the named contexts. -/
  | engRxack (ag : Agent) (kind : AccessKind) (w : Word)
  /-- TXD (R575): A write to a context's TXD stores the word and sets TXF, or is refused while TXF is 1. -/
  | txd (ag : Agent) (kind : AccessKind) (n : Fin 4) (c : Fin 8) (w : Word)
  /-- ENG_PIN (R567): A write to ENG_PINp sets the pin's owner and mode and loads its latches. -/
  | engPin (ag : Agent) (kind : AccessKind) (pin : Fin 16) (w : Word)
  /-- SYNC_PULSE_OUT (R605): A manager drives a SYNC pulse or frame mark at each millisecond of its timestamp. -/
  | syncPulseOut
  /-- SYNC_PULSE_IN (R606): A worker accepts a SYNC pulse, classifies it and updates its SYNC state and timestamp load. -/
  | syncPulseIn (lowTicks highTicks : Nat)
  /-- SYNC_HOLDOVER (R607): No accepted SYNC pulse for 3 ms takes a LOCKED worker to HOLDOVER. -/
  | syncHoldover
  /-- FLUE_TLOAD (R613): A write of 1 to FLUE_TLOAD.LOAD arms a timestamp load at the next frame mark. -/
  | flueTload (ag : Agent) (kind : AccessKind) (w : Word)
  /-- SCAN_TIMER (R610): Every 1 s the manager reads the identity of each address that is not ACTIVE and attempts attach. -/
  | scanTimer (answers : List ScanAnswer)
  /-- FLUE_PULL (R619): When credit and Q4 room allow, the manager pulls, checks, stores and commits one worker block. -/
  | fluePull (w : Fin 32) (m : PullAnswer)
  /-- FORWARD_LINE (R627): After taking the worker's reply, the manager sends the next upgrade line of a forwarding. -/
  | forwardLine (reply : ForwardReply)
  /-- AWAY_SATURATION (R625): An absence reaching the saturation of the duration field is recorded and continued in a new AWAY record. -/
  | awaySaturation (w : Fin 32)
  /-- CHALLENGE_EXPIRY (R650): A challenge expires 60 s after its auth begin. -/
  | challengeExpiry (p : Port)
  /-- AUTH_LOCKOUT_END (R649): 10 s after the eighth failure, auth begin is accepted again on the port. -/
  | authLockoutEnd (p : Port)
  /-- PWR_DOM_WRITE (R670): A write to PWR_DOM switches the changed domains in Run, or is refused. -/
  | pwrDomWrite (ag : Agent) (kind : AccessKind) (w : Word)
  /-- PWR_MODE_ENTER (R671): A write of ENTER with TARGET starts a mode entry, checking refusers and closing blocks. -/
  | pwrModeEnter (ag : Agent) (kind : AccessKind) (w : Word)
  /-- SELF_TEST_END (R701): A block's test ends with a result, the block is re-initialised and the next test starts. -/
  | selfTestEnd (o : TestOutcome)
  /-- ENTRY_SWITCH_OFF (R672): Phase 5 switches domains to their Watch or Ember states, D5 last after the reply is taken or 50 ms. -/
  | entrySwitchOff
  /-- WAKE_TIMER (R680): The Hearth wake timer expires and wakes the device. -/
  | wakeTimer
  /-- POWER_ON_RELEASE (R683): VSUP rises above the power-on release and a cold start begins. -/
  | powerOnRelease (straps : Straps)
  /-- RESET_N (R719): An accepted RESET_N pulse gives the whole reset and a cold start on its rise. -/
  | resetN (lowNs : Nat) (straps : Straps)
  /-- VHOLD_ARMED (R67): VHOLD reaches its armed level, allowing a waiting start to complete into Run. -/
  | vholdArmed
  /-- START_COMPLETE (R685): A start reaches Run after its sequence, self-test and VHOLD arming. -/
  | startComplete
  /-- FIRMWARE_ACTIVATION (R688): After the upgrade commit reply is taken or 50 ms, the device commits and cold starts into the new slot. -/
  | firmwareActivation (straps : Straps)
  /-- SLOT_GOOD (R688): A TRY slot becomes GOOD after 10 s of Run without a cold start. -/
  | slotGood
  /-- POWER_FAIL (R690): VSUP falls through the power-fail threshold; domains switch off and the commit runs from VHOLD. -/
  | powerFail (lowNs : Nat)
  /-- COMMIT_DONE (R690): The power-fail commit writes its validity mark, and a start follows if VSUP has returned. -/
  | commitDone (rowFailed : Bool)
  /-- VIO_LOSS (R57): VIO falls below 1.5 V and every VIO-domain pin goes high impedance and inputs are ignored. -/
  | vioLoss
  /-- VIO_RETURN (R57): VIO rises above 1.5 V and the VIO-domain pins return to their levels within 10 µs. -/
  | vioReturn (levels : VioLevels)
  /-- BIST_RUN (R715): A write of BIST_RUN runs the named tests in order. -/
  | bistRun (ag : Agent) (kind : AccessKind) (w : Word)
  /-- SPARE_USE_GO (R709): A write of SPARE_USE with GO brings in a spare of a kind for a unit. -/
  | spareUseGo (ag : Agent) (kind : AccessKind) (w : Word)
  /-- SPARE_COPY_DONE (R708): The copy of a row or bank into its spare completes and the unit is remapped. -/
  | spareCopyDone
  /-- REGISTER_WRITE (R100): A write to a register without a row of its own applies all its fields in one FOSC cycle. -/
  | registerWrite (ag : Agent) (addr : BitVec 16) (w : Word)
  /-- STORE_FILL_DONE (R176): A stream reader's frame store finishes filling 186.92 µs after its fill began, fixing the words it holds from the readable region as it then stands. -/
  | storeFillDone (p : Port) (ecc : List EccFinding)
  /-- ENTRY_COMMIT_POINT (R672): When phase 2 of a mode entry has closed its blocks, the refusers are checked again and the entry aborts, or goes on to phase 4 (Ember) or phase 5 (Watch). -/
  | entryCommitPoint
  /-- RETENTION_DIP (R550): A bank's retention supply dips below its retention level while D4 is in RETAIN, and its retention monitor latches. -/
  | retentionDip (bank : Fin 128)
  /-- VHOLD_ABSENT (R58): With VSUP gone, VHOLD runs down, so a commit in progress is left without its mark and D0 and every pin lose power. -/
  | vholdAbsent
  /-- KEY_GENERATION (R641): At Abaent manufacture the device key pair is generated and the certificate loaded, moving the lifecycle from MANUFACTURED to OPEN. -/
  | keyGeneration (cert : CertFrame) (caCert : List Byte)
  /-- PULSED_VEXC (R395): In pulsed mode VEXC switches on t_s before a scheduled window of an excited channel and off at the window end, bridging gaps under 20 µs. -/
  | pulsedVexc (on : Bool)
  deriving DecidableEq, Repr

end Sys2Proof
end

