-- ==== Sys2Proof/Config.lean ====
section
/-! DEFINITION. What the manual leaves to the device, to Abaent, to the random generator or to chance: opaque constants
without a body. A statement that holds of the model holds whatever they are. -/

namespace Sys2Proof

/-- A free bit at a counter value: the manual leaves open which of two things happens.
Log entry 8 (DESIGN CHOICE, safe). -/
opaque Config.freeBit : Nat → Bool

/-- A free number at a counter value: the manual states no result.
Log entry 8 (DESIGN CHOICE, safe). -/
opaque Config.freeNat : Nat → Nat

/-- The random generator of R634: 256 bits at a counter value.
Log entry 10 (DESIGN CHOICE, safe). -/
opaque Config.random : Nat → BitVec 256

/-- `Qn_RDSEQ` of a queue whose closed blocks are all released, by its next sequence: no block stands at the read pointer.
Log entry 9 (DESIGN CHOICE, safe). -/
opaque Config.emptyReadSeq : Nat → Nat

/-- The context of an engine whose program counter `engine status` shows: the manual shows one per engine and does not say whose
(R245).
Log entries 9 (DESIGN CHOICE, safe), 54 (DESIGN CHOICE, safe). -/
opaque Config.statusContext : Nat → Nat

/-- The device serial (R9).
Log entry 9 (DESIGN CHOICE, safe). -/
opaque Config.serial : BitVec 64

/-- Taps 0 to 30 of the standard Correspondence filter in units of 2^-22 (R335): the manual gives its symmetry, its sum and
its last tap, not its coefficients.
Log entries 9 (DESIGN CHOICE, safe), 65 (DESIGN CHOICE, safe). -/
opaque Config.stdTap : Nat → BitVec 24

/-- The thermoelectric voltage of a thermocouple type (16 to 23) at a temperature in 2^-10 °C, in pV, by IEC 60584-1 (R414): the
manual names the standard and does not repeat its tables.
Log entries 9 (DESIGN CHOICE, safe), 72 (DEDUCED, safe). -/
opaque Config.tcEmf : Nat → Int → Int

/-- The inverse of `tcEmf`: the temperature in 2^-20 °C at a voltage in pV (R414).
Log entries 9 (DESIGN CHOICE, safe), 72 (DEDUCED, safe). -/
opaque Config.tcInverse : Nat → Int → Int

/-- The lowest and the highest temperature of a type in IEC 60584-1, in 2^-10 °C (R413).
Log entries 9 (DESIGN CHOICE, safe), 72 (DEDUCED, safe). -/
opaque Config.tcRange : Nat → Int × Int

/-- The device's private key (R636): generated at manufacture, read by no path.
Log entry 9 (DESIGN CHOICE, safe). -/
opaque Config.deviceKey : Nat

/-- The device certificate up to the serialNumber attribute of its subject (R637, R638).
Log entry 9 (DESIGN CHOICE, safe). -/
opaque Config.certHead : List (BitVec 8)

/-- The device certificate after its subjectPublicKeyInfo (R637, R638).
Log entry 9 (DESIGN CHOICE, safe). -/
opaque Config.certTail : List (BitVec 8)

/-- The certificate of the Abaent Nolinis Device CA (R637).
Log entry 9 (DESIGN CHOICE, safe). -/
opaque Config.caCert : List (BitVec 8)

/-- The Abaent image key fixed in the boot ROM (R661).
Log entry 9 (DESIGN CHOICE, safe). -/
opaque Config.imageKey : Nat × Nat

/-- The minor version and patch of the firmware a part is shipped with (R1, R10).
Log entry 9 (DESIGN CHOICE, safe). -/
opaque Config.shippedVersion : BitVec 16

/-- The code and trailer of the firmware image a part is shipped with (R662).
Log entry 9 (DESIGN CHOICE, safe). -/
opaque Config.shippedCode : List (BitVec 8)

end Sys2Proof
end

