-- ==== Sys2Proof/Machine/Bits.lean ====
section
/-! DEFINITION. Bit fields, signed numbers, bytes and the plain integer functions the block computes with. -/

namespace Sys2Proof.Machine

/-- Bits `[lo + width - 1 : lo]` of a word, as a number. -/
def bitsAt (w : Word) (lo width : Nat) : Nat := (w.toNat >>> lo) % 2 ^ width

/-- One bit of a word. -/
def bitAt (w : Word) (i : Nat) : Bool := w.getLsbD i

/-- A word from a number, keeping its low 32 bits. -/
def word (n : Nat) : Word := BitVec.ofNat 32 n

/-- The word with one bit set. -/
def bitMask (i : Nat) : Word := word (2 ^ i)

/-- The word with 1 in bit `i` when `b` holds, else 0. -/
def bitIf (b : Bool) (i : Nat) : Word := if b then bitMask i else 0

/-- The word with a field at `lo`, its other bits as they were. -/
def setBits (w : Word) (lo width v : Nat) : Word :=
  (w &&& ~~~(word ((2 ^ width - 1) <<< lo))) ||| word ((v % 2 ^ width) <<< lo)

/-- The two's complement value of the low `width` bits of a number. -/
def signed (width n : Nat) : Int :=
  let v := n % 2 ^ width
  if v < 2 ^ (width - 1) then (v : Int) else (v : Int) - (2 ^ width : Nat)

/-- The low `width` bits of an integer in two's complement. -/
def unsignedOf (width : Nat) (i : Int) : Nat := (i % ((2 ^ width : Nat) : Int)).toNat

/-- A word holding an integer in two's complement. -/
def wordOfInt (i : Int) : Word := BitVec.ofInt 32 i

/-- The numbers of the bits of a word that are set, lowest first, below `n`. -/
def setBitsOf (n : Nat) (w : Word) : List Nat := (List.range n).filter (fun i => w.getLsbD i)

/-- Limited to a closed range. -/
def clampInt (lo hi i : Int) : Int := if i < lo then lo else if hi < i then hi else i

/-- The nearest integer to `a / b` for positive `b`, halves upwards. -/
def divRound (a : Int) (b : Nat) : Int := (2 * a + (b : Int)).fdiv (2 * (b : Int))

/-- The nearest integer to `a / b` for positive `b`, halves away from zero. -/
def divRoundAway (a : Int) (b : Nat) : Int :=
  if 0 ≤ a then divRound a b else -(divRound (-a) b)

/-- One step of the bitwise square root, at bit `i`. -/
def isqrtStep (n r i : Nat) : Nat :=
  let t := r + 2 ^ i
  if t * t ≤ n then t else r

/-- The integer square root (rounded down) of a number below 2^128. -/
def isqrt (n : Nat) : Nat := (List.range 64).foldl (fun r k => isqrtStep n r (63 - k)) 0

/-- The square root rounded to nearest. -/
def isqrtRound (n : Nat) : Nat :=
  let r := isqrt n
  if r * r + r < n then r + 1 else r

/-- The four bytes of a word, most significant first (R152, R521). -/
def wordBytes (w : Word) : List Byte :=
  [w.extractLsb' 24 8, w.extractLsb' 16 8, w.extractLsb' 8 8, w.extractLsb' 0 8]

/-- The bytes of a list of words, each most significant first. -/
def wordsBytes (ws : List Word) : List Byte := ws.flatMap wordBytes

/-- `n` bytes of a number, most significant first. -/
def natBytes (n v : Nat) : List Byte :=
  (List.range n).map (fun i => BitVec.ofNat 8 (v >>> (8 * (n - 1 - i))))

/-- The number that bytes spell, most significant first. -/
def bytesNat (bs : List Byte) : Nat := bs.foldl (fun a b => 256 * a + b.toNat) 0

/-- The words that bytes spell, four at a time, most significant first; a short rest is filled with zeros. -/
def bytesWords : List Byte → List Word
  | a :: b :: c :: d :: rest => word (bytesNat [a, b, c, d]) :: bytesWords rest
  | [] => []
  | [a] => [word (bytesNat [a, 0, 0, 0])]
  | [a, b] => [word (bytesNat [a, b, 0, 0])]
  | [a, b, c] => [word (bytesNat [a, b, c, 0])]

/-- The upper and lower words of a 64-bit number. -/
def hiWord (n : Nat) : Word := word (n >>> 32)

/-- The lower word of a number. -/
def loWord (n : Nat) : Word := word n

/-- A list with element `i` replaced by a function of it (unchanged where there is none). -/
def listUpd {α : Type} (l : List α) (i : Nat) (f : α → α) : List α :=
  match l, i with
  | [], _ => []
  | x :: xs, 0 => f x :: xs
  | x :: xs, i + 1 => x :: listUpd xs i f

/-- A list with element `i` replaced (unchanged where there is none). -/
def listSet {α : Type} (l : List α) (i : Nat) (v : α) : List α := listUpd l i (fun _ => v)

/-! ### Sparse memories

A memory is a list of (address, word) pairs in one canonical form: addresses strictly rising, and no entry equal to what an
unlisted address reads as, which the function `d` gives. -/

/-- A word of a sparse memory.
Log entry 14 (DESIGN CHOICE, unsafe). -/
def cellGet (d : Nat → Word) : List (Nat × Word) → Nat → Word
  | [], a => d a
  | (b, w) :: rest, a => if a = b then w else cellGet d rest a

/-- The memory without an entry for `a`. -/
def cellDrop (a : Nat) : List (Nat × Word) → List (Nat × Word)
  | [] => []
  | (b, w) :: rest => if a = b then rest else if a < b then (b, w) :: rest else (b, w) :: cellDrop a rest

/-- The memory with an entry for `a`. -/
def cellPut (a : Nat) (v : Word) : List (Nat × Word) → List (Nat × Word)
  | [] => [(a, v)]
  | (b, w) :: rest =>
    if a = b then (a, v) :: rest
    else if a < b then (a, v) :: (b, w) :: rest
    else (b, w) :: cellPut a v rest

/-- A write of one word: writing what an unlisted address reads as removes the entry. -/
def cellSet (d : Nat → Word) (m : List (Nat × Word)) (a : Nat) (v : Word) : List (Nat × Word) :=
  if v = d a then cellDrop a m else cellPut a v m

/-- The canonical form, above a lower bound for the addresses. -/
def cellsFrom (d : Nat → Word) : Nat → List (Nat × Word) → Bool
  | _, [] => true
  | lo, (a, w) :: rest => decide (lo ≤ a) && decide (w ≠ d a) && cellsFrom d (a + 1) rest

/-- The canonical form of a sparse memory. -/
def Memory.wf (d : Nat → Word) (m : List (Nat × Word)) : Bool := cellsFrom d 0 m

end Sys2Proof.Machine
end

