-- ==== Sys2Proof/Machine/RegTable.lean ====
section
/-! DEFINITION. The register map: the blocks of R92, and for each register its class, the bits each field type covers, its
reset value and the ranges of its fields. Replicated registers are found by address arithmetic. -/

namespace Sys2Proof.Machine

/-- The register classes (R96). -/
inductive RegCls where
  | control
  | status
  | counter
  | readOnly
  deriving DecidableEq, Repr

/-- The values a field accepts (R101, R720): where it stands, and the closed ranges it takes. -/
structure FieldRange where
  lo : Nat
  width : Nat
  ok : List (Nat × Nat)
  deriving DecidableEq, Repr

/-- A register: its class, the bits of each field type, its reset value, its field ranges. -/
structure RegDef where
  cls : RegCls
  rw : Word
  go : Word
  pp : Word
  lk : Word
  ro : Word
  sq : Word
  reset : Word
  ranges : List FieldRange
  deriving DecidableEq, Repr

/-- A control register: RW, GO, P, LK and RO bits, reset value, ranges. -/
def RegDef.control (rw go pp lk ro reset : Word) (ranges : List FieldRange) : RegDef :=
  ⟨.control, rw, go, pp, lk, ro, 0, reset, ranges⟩

/-- A status register: its SQ bits and its RO bits in [23:0]. -/
def RegDef.status (sq ro : Word) : RegDef := ⟨.status, 0, 0, 0, 0, ro, sq, 0, []⟩

/-- A counter register (R115). -/
def RegDef.counter : RegDef := ⟨.counter, 0, 0, 0, 0, 0, 0, 0, []⟩

/-- A read-only register: its implemented bits and its reset value. -/
def RegDef.readOnly (ro reset : Word) : RegDef := ⟨.readOnly, 0, 0, 0, 0, ro, 0, reset, []⟩

/-- The identity block (R7); serial and firmware words are overlaid at the read. -/
def regsIdentity : List (Nat × RegDef) := [
  (0, RegDef.readOnly 0xFFFFFFFF 0x4E4C4716),
  (4, RegDef.readOnly 0xFFFF 0x101),
  (8, RegDef.readOnly 0xFFFFFFFF 0),
  (0xC, RegDef.readOnly 0xFFFFFFFF 0),
  (0x10, RegDef.readOnly 0xFFFFFFFF 0),
  (0x14, RegDef.readOnly 1 0)]

/-- The registers of port A at 0x0400, of port B at 0x0420 (R211). -/
def regsPort : List (Nat × RegDef) := [
  (0, RegDef.control 0x13F3F03 0 0 0 0 0x800 [⟨16, 6, [(0, 60)]⟩, ⟨8, 6, [(2, 32)]⟩]),
  (4, RegDef.control 0xFFFFFF 0 0 0 0 0 [⟨0, 24, [(0, 0), (9600, 6000000)]⟩]),
  (8, RegDef.readOnly 0xFFFFFF 0),
  (0xC, RegDef.readOnly 0xFFFFFF9F 0),
  (0x10, RegDef.status 0x3FFF 0),
  (0x14, RegDef.control 0xFFFFFF 0 0 0 0 0 []),
  (0x18, RegDef.counter),
  (0x1C, RegDef.counter)]

/-- Semaphores and access fault registers (R211, R148); offsets from 0x0400. -/
def regsSem : List (Nat × RegDef) := [
  (0x40, RegDef.control 0 0xFFFF 0 0 0 0 []),
  (0x44, RegDef.control 0 0xFFFF 0 0 0 0 []),
  (0x48, RegDef.readOnly 0xFFFFFFFF 0),
  (0x4C, RegDef.readOnly 0xFFFF 0),
  (0x80, RegDef.readOnly 0xFFFF00FF 0),
  (0x84, RegDef.readOnly 0xFFFF00FF 0),
  (0x88, RegDef.counter),
  (0x8C, RegDef.counter)]

/-- The power block but for PWR_REFCNTc and the log (R694). -/
def regsPower : List (Nat × RegDef) := [
  (0, RegDef.control 3 0x10 0 0 0x100 0 [⟨0, 2, [(0, 2)]⟩]),
  (4, RegDef.control 1 0 0 0 0 1 []),
  (8, RegDef.control 0 0 1 0 0 0 []),
  (0xC, RegDef.control 0xDE 0 0 0 0x20 0xFE []),
  (0x10, RegDef.readOnly 0xFFFF 0x5555),
  (0x14, RegDef.control 3 0 0 0 0 0 []),
  (0x18, RegDef.control 0x1007F 0 0 0 0 3 []),
  (0x1C, RegDef.control 0xFFFFFFFF 0 0 0 0 0 []),
  (0x20, RegDef.status 0x3F 0x700)]

/-- One log entry (R694). -/
def regsLog : List (Nat × RegDef) := [
  (0, RegDef.readOnly 0x39F 0),
  (4, RegDef.readOnly 0xFFFFFFFF 0),
  (8, RegDef.readOnly 0xFFFFFFFF 0)]

/-- The last words of the power block (R694); offsets from 0x0800. -/
def regsBoot : List (Nat × RegDef) := [
  (0xE0, RegDef.readOnly 0x10F 2),
  (0xE4, RegDef.readOnly 0xFFFFFFFF 0),
  (0xE8, RegDef.readOnly 0x3FF 0)]

/-- The motion block (R297). -/
def regsMotion : List (Nat × RegDef) := [
  (0, RegDef.control 0xC0F 0 0 0 0 0xF [⟨10, 2, [(0, 2)]⟩]),
  (4, RegDef.control 0x37F000F 0 0 0 0 0xA0006 [⟨16, 7, [(1, 100)]⟩, ⟨0, 4, [(0, 12)]⟩]),
  (8, RegDef.control 0xFF3F 0 0 0 0 0x2015 [⟨8, 8, [(8, 128)]⟩]),
  (0xC, RegDef.control 0xFFFFFF 0 0 0 0 0 []),
  (0x10, RegDef.control 0xFFFFFF 0 0 0 0 0 []),
  (0x14, RegDef.control 0xFFFFFF 0 0 0 0 0 []),
  (0x18, RegDef.readOnly 0xFFFFFFFF 0),
  (0x1C, RegDef.readOnly 0xFFFFFFFF 0),
  (0x20, RegDef.readOnly 0xFFFFFFFF 0),
  (0x24, RegDef.control 0x300000F 0 0 0 0 0x2000006 [⟨24, 2, [(0, 2)]⟩, ⟨0, 4, [(0, 10)]⟩]),
  (0x28, RegDef.control 0x100000F 0 0 0 0 6 [⟨0, 4, [(0, 10)]⟩]),
  (0x2C, RegDef.control 7 0 0 0 0 0 [⟨0, 3, [(0, 6)]⟩]),
  (0x30, RegDef.control 0 0 0x1FFFFF 0 0 0 [⟨0, 21, [(0, 2000000)]⟩]),
  (0x34, RegDef.control 0 0 0xFFFF 0 0 0 []),
  (0x38, RegDef.control 0 0 7 0 0 0 []),
  (0x3C, RegDef.status 0x1FFFF 0x7E0000),
  (0x40, RegDef.counter),
  (0x44, RegDef.readOnly 0xFFFFFFFF 0)]

/-- One group of the filter block (R348). -/
def regsGroup : List (Nat × RegDef) := [
  (0, RegDef.control 0xF7FF7F37 0 0 0 0 0x7C02 [⟨28, 4, [(0, 8)]⟩, ⟨16, 11, [(0, 1024)]⟩, ⟨0, 3, [(0, 5)]⟩]),
  (4, RegDef.control 0x1FFFF 0 0 0 0 0x10 [⟨0, 17, [(2, 65536)]⟩]),
  (8, RegDef.control 0xFFFFFFFF 0 0 0 0 0x80000000 []),
  (0xC, RegDef.status 0xC00000 0x3F7FF7)]

/-- The rest of the filter block (R348). -/
def regsFilter : List (Nat × RegDef) := [
  (0xC0, RegDef.control 0 0xFFF 0 0 0 0 []),
  (0xC4, RegDef.control 0x10 1 0 0 0 0 []),
  (0xC8, RegDef.readOnly 0xFFFFFFFF 0),
  (0xCC, RegDef.readOnly 0xFFFFFFFF 0),
  (0xD0, RegDef.control 0x11F0F100 1 0 0 0xC0000000 0 [⟨12, 4, [(0, 11)]⟩]),
  (0x300, RegDef.control 0x7FF 0 0 0 0 0 []),
  (0x304, RegDef.control 0xFFFFFF 0 0 0 0 0 [])]

/-- The angle block (R383). -/
def regsAngle : List (Nat × RegDef) := [
  (0, RegDef.control 0x771F1 0 0 0 0 0x34000 [⟨16, 3, [(1, 6)]⟩, ⟨12, 3, [(0, 6)]⟩, ⟨4, 2, [(0, 2)]⟩]),
  (4, RegDef.control 0 0 0xFFFF 0 0 0 []),
  (8, RegDef.control 0xFF0FFF 0 0 0 0 0x80410 [⟨16, 8, [(1, 255)]⟩, ⟨8, 4, [(1, 15)]⟩, ⟨0, 8, [(1, 255)]⟩]),
  (0xC, RegDef.control 0x7FF 0 0 0 0 0x40 [⟨0, 11, [(16, 1024)]⟩]),
  (0x10, RegDef.readOnly 0xFFFFFF73 0),
  (0x14, RegDef.readOnly 0xFFFFFF 0),
  (0x18, RegDef.readOnly 0xFFFFFFFF 0),
  (0x1C, RegDef.readOnly 0xFFFFFFFF 0),
  (0x20, RegDef.readOnly 0xFFFFFFFF 0),
  (0x24, RegDef.readOnly 0xFFFFFFFF 0),
  (0x28, RegDef.status 0x7FF 0),
  (0x2C, RegDef.counter),
  (0x30, RegDef.counter),
  (0x34, RegDef.counter)]

/-- One channel of the aux block (R428). -/
def regsChan : List (Nat × RegDef) := [
  (0, RegDef.control 0x8F3F1C70 0 0 0 0 0x5000000 [⟨16, 6, [(0, 3), (8, 9), (16, 23), (32, 32)]⟩, ⟨10, 2, [(0, 1)]⟩]),
  (4, RegDef.control 0x30300FF 0 0 0 0 0x10001 [⟨24, 2, [(0, 2)]⟩, ⟨16, 2, [(0, 2)]⟩, ⟨0, 8, [(1, 255)]⟩]),
  (8, RegDef.control 0xF0303 0 0 0 0 0x80000 [⟨16, 4, [(0, 8)]⟩, ⟨8, 2, [(0, 2)]⟩, ⟨0, 2, [(0, 2)]⟩]),
  (0xC, RegDef.control 0xFFFFFFFF 0 0 0 0 0 []),
  (0x10, RegDef.control 0xFFFFFFFF 0 0 0 0 0 []),
  (0x14, RegDef.control 0xFFFFFFFF 0 0 0 0 0 []),
  (0x18, RegDef.control 0xFFFFFFFF 0 0 0 0 0 []),
  (0x1C, RegDef.control 0 0 0xFFFFFFFF 0 0 0 []),
  (0x20, RegDef.status 0xF00000 0x100),
  (0x24, RegDef.readOnly 0xFFFFFFFF 0),
  (0x28, RegDef.readOnly 0xFFFFFFFF 0)]

/-- The rest of the aux block (R428). -/
def regsAux : List (Nat × RegDef) := [
  (0x200, RegDef.control 0x30303FF 0 0 0 0 0xA [⟨24, 2, [(0, 2)]⟩, ⟨16, 2, [(0, 2)]⟩, ⟨0, 10, [(1, 1000)]⟩]),
  (0x204, RegDef.control 0x3FF0077 0 0 0 0 0 [⟨16, 10, [(0, 1000)]⟩]),
  (0x208, RegDef.status 0xF80000 3),
  (0x20C, RegDef.control 7 0x100 0 0 0 0 []),
  (0x210, RegDef.counter),
  (0x214, RegDef.counter)]

/-- The buffer block but for the queues (R555). -/
def regsBuffer : List (Nat × RegDef) := [
  (0, RegDef.control 0 1 0 0 0 0 []),
  (4, RegDef.status 0xF 0),
  (8, RegDef.readOnly 0x300007F 0),
  (0xC, RegDef.counter),
  (0x10, RegDef.counter),
  (0x20, RegDef.control 0xFFFFFFFF 0 0 0 0 0xFFFFFFFF [])]

/-- One queue of the buffer block (R555). -/
def regsQueue : List (Nat × RegDef) := [
  (0, RegDef.control 0xFF0033FF 0 0 0 0 0xA003000 [⟨8, 2, [(0, 2)]⟩, ⟨0, 8, [(0, 128)]⟩]),
  (4, RegDef.control 0xFFF0FFF 0 0 0 0 0x100010 [⟨16, 12, [(0, 4094)]⟩, ⟨0, 12, [(0, 4094)]⟩]),
  (8, RegDef.control 0x1FFF 0 0 0 0 0 [⟨0, 13, [(0, 4096)]⟩]),
  (0xC, RegDef.control 0 3 0 0 0 0 []),
  (0x10, RegDef.readOnly 0xFF0E1FFF 0),
  (0x14, RegDef.readOnly 0xFFFFFFFF 0),
  (0x18, RegDef.readOnly 0xFFFF 0),
  (0x1C, RegDef.status 0x7F 0)]

/-- The event block but for the machines (R476). -/
def regsEvent : List (Nat × RegDef) := [
  (0, RegDef.control 0 0xFFFF 0 0 0 0 []),
  (4, RegDef.control 0 0xFFFF 0 0 0 0 []),
  (8, RegDef.readOnly 0xFFFF 0),
  (0xC, RegDef.control 0 0xFFFF 0 0 0 0 []),
  (0x10, RegDef.control 0 0xFFFF 0 0 0 0 []),
  (0x14, RegDef.status 0x7FFFFF 0),
  (0x18, RegDef.status 0x7FFFFF 0),
  (0x1C, RegDef.status 0x1FFFF 0),
  (0x20, RegDef.readOnly 0x7F 0),
  (0x24, RegDef.counter),
  (0x40, RegDef.control 0xFF0F0003 0 0 0 0 0 []),
  (0x44, RegDef.control 0xFFFFFFFF 0 0 0 0 0xA00320 [⟨0, 16, [(1, 65535)]⟩]),
  (0x48, RegDef.control 0xFFFF 0 0 0 0 0x64 [⟨0, 16, [(1, 65535)]⟩]),
  (0x50, RegDef.control 0xFFFFFFFF 0 0 0 0 0xC8 [⟨1, 23, [(1, 65535)]⟩]),
  (0x54, RegDef.control 0xFFFFFFFF 0 0 0 0 0x1000133 []),
  (0x60, RegDef.control 0xFF00FF0F 0 0 0 0 0x100 [⟨2, 2, [(0, 1)]⟩]),
  (0x64, RegDef.control 0xFFFF0000 0 0 0 0 0x1000000 []),
  (0x70, RegDef.control 0xFF0F0001 0 0 0 0 0 []),
  (0x74, RegDef.control 0xFFFFFFFF 0 0 0 0 0x403000 []),
  (0x78, RegDef.control 0xFF0F0001 0 0 0 0 0 []),
  (0x7C, RegDef.control 0xFFFFFFFF 0 0 0 0 0x400040 []),
  (0x80, RegDef.control 0xFF07FF03 0 0 0 0 0x30802 [⟨8, 8, [(1, 255)]⟩]),
  (0x84, RegDef.control 0xFFFFFFFF 0 0 0 0 0x1001000 []),
  (0x90, RegDef.control 0xFF01FFFF 0 0 0 0 0xFA0 []),
  (0x94, RegDef.control 0xFFFFFFFF 0 0 0 0 0x800080 [])]

/-- One machine of the event block (R476). -/
def regsSm : List (Nat × RegDef) := [
  (0, RegDef.control 0xBF0003FF 0 0 0 0 0 [⟨24, 6, [(0, 20), (32, 39)]⟩]),
  (4, RegDef.readOnly 0xFFFF03FF 0),
  (8, RegDef.control 0xFFFFFF 0 0 0 0 0 []),
  (0xC, RegDef.control 0xFFFFFF 0 0 0 0 0 []),
  (0x10, RegDef.control 0xFFFFFF 0 0 0 0 0 []),
  (0x14, RegDef.control 0xFFFFFF 0 0 0 0 0 []),
  (0x18, RegDef.readOnly 0xFFFFFFFF 0),
  (0x1C, RegDef.readOnly 0xFFFFFFFF 0)]

/-- One context of the engine block (R594). -/
def regsCtx : List (Nat × RegDef) := [
  (0, RegDef.control 0xFF 0 0 0 0xF83FFF00 0 []),
  (4, RegDef.readOnly 0xFFFFFFFF 0),
  (8, RegDef.readOnly 0xFFFFFFFF 0),
  (0xC, RegDef.readOnly 0xFFFFFFFF 0)]

/-- The engine block from 0x2708 on but for DIV and the pins (R594); offsets from 0x2400. -/
def regsEngine : List (Nat × RegDef) := [
  (0x308, RegDef.control 0 0xF 0 0 0 0 []),
  (0x30C, RegDef.control 0 0xF 0 0 0 0 []),
  (0x310, RegDef.control 0 0xF 0 0 0 0 []),
  (0x314, RegDef.control 0 0xF 0 0 0 0 []),
  (0x318, RegDef.control 0xFFFFFFFF 0 0 0 0 0 []),
  (0x31C, RegDef.control 0 0xFFFFFFFF 0 0 0 0 []),
  (0x320, RegDef.readOnly 0x7FFFF 0),
  (0x324, RegDef.status 0x1F0F 0),
  (0x328, RegDef.readOnly 0x77FF77FF 0),
  (0x32C, RegDef.readOnly 0x77FF77FF 0)]

/-- The Flue block but for the workers (R631). -/
def regsFlue : List (Nat × RegDef) := [
  (0, RegDef.control 0xFF0330 0 0 0 0 0x80000 [⟨16, 8, [(1, 255)]⟩]),
  (4, RegDef.control 0 0 0xF03 0 0 0 [⟨0, 2, [(0, 2)]⟩]),
  (8, RegDef.control 0 0 0xFF 0 0 0 []),
  (0xC, RegDef.readOnly 0x37 0),
  (0x10, RegDef.control 0xFFFFFFFF 0 0 0 0 0 []),
  (0x14, RegDef.control 0xFFFFFFFF 0 0 0 0 0 []),
  (0x18, RegDef.control 0 1 0 0 0 0 []),
  (0x1C, RegDef.status 0xFF 0),
  (0x20, RegDef.readOnly 0xFF1FFF 0xFF0000),
  (0x24, RegDef.readOnly 0xFFFF 0)]

/-- The guard block (R507). -/
def regsGuard : List (Nat × RegDef) := [
  (0, RegDef.control 0 0 0 0xFF007 0 0 []),
  (4, RegDef.control 0 0 0 0xFF0FFF 0 0x800C8 [⟨0, 12, [(16, 4000)]⟩]),
  (8, RegDef.control 0 0 0 0xFFFFFFFF 0 0x402000 [⟨0, 16, [(64, 14222)]⟩]),
  (0xC, RegDef.control 0 0 0 1 0 0 []),
  (0x10, RegDef.control 0 1 0 0 0 0 []),
  (0x14, RegDef.readOnly 0x30F37 0),
  (0x18, RegDef.status 0x3F 0),
  (0x1C, RegDef.counter),
  (0x20, RegDef.readOnly 0xFFFFFFFF 0)]

/-- The security block (R665). -/
def regsSecurity : List (Nat × RegDef) := [
  (0, RegDef.readOnly 0x303 0x101),
  (4, RegDef.readOnly 0xFFFFFFFF 0),
  (8, RegDef.readOnly 0xFFFFFFFF 0),
  (0xC, RegDef.readOnly 0xFFFF 0),
  (0x10, RegDef.status 0x3F 0),
  (0x14, RegDef.counter),
  (0x18, RegDef.counter),
  (0x1C, RegDef.counter)]

/-- The self-test block but for the results (R715). -/
def regsBist : List (Nat × RegDef) := [
  (0, RegDef.control 0 0x7F 0 0 0 0 []),
  (4, RegDef.status 0xF 0),
  (8, RegDef.readOnly 0xE00000FF 0)]

/-- The results of one test (R715). -/
def regsResult : List (Nat × RegDef) := [
  (0, RegDef.readOnly 0xFFFFFFFF 0),
  (4, RegDef.readOnly 0xFFFFFF 0),
  (8, RegDef.readOnly 0xFFFFFFFF 0)]

/-- The spare registers (R715); offsets from 0x3400. -/
def regsSpare : List (Nat × RegDef) := [
  (0x80, RegDef.readOnly 0x731FFFF 0),
  (0x84, RegDef.readOnly 0xFFFFFFFF 0),
  (0x88, RegDef.readOnly 0xFFFFFFFF 0),
  (0x8C, RegDef.readOnly 0x7FF07FF 0x440),
  (0x90, RegDef.readOnly 0xFFFFFFF 0),
  (0x94, RegDef.readOnly 0x7F 0),
  (0x98, RegDef.control 0xFF 0 0 0 0 0 [⟨0, 8, [(0, 135)]⟩]),
  (0x9C, RegDef.readOnly 0xFF00FFFF 0x8000000),
  (0xA0, RegDef.control 0x7FFFF 0x80000000 0 0 0 0 [⟨16, 3, [(0, 6)]⟩])]

/-- The persistent store block (R716). -/
def regsStore : List (Nat × RegDef) := [
  (0, RegDef.control 0xFFFF 0 0 0 0 0 []),
  (4, RegDef.readOnly 0xE00FFFFF 0xC0000000),
  (8, RegDef.status 0xF 0),
  (0xC, RegDef.readOnly 0x3FFFF 0),
  (0x10, RegDef.counter)]

/-- The entry of a block's list at an offset. -/
def lookupReg : List (Nat × RegDef) → Nat → Option RegDef
  | [], _ => none
  | (o, d) :: rest, a => if a = o then some d else lookupReg rest a

/-- The definition with another reset value. -/
def RegDef.withReset (d : RegDef) (w : Word) : RegDef := { d with reset := w }

/-- The registers of the host ports block (R211, R148); `ADDRM` exists only in `PB_CTRL`. -/
def regHost (o : Nat) : Option RegDef :=
  if o < 0x20 then lookupReg regsPort o
  else if o < 0x40 then
    if o = 0x20 then (lookupReg regsPort 0).map (fun d => { d with pp := 0x04000000 }) else lookupReg regsPort (o - 0x20)
  else lookupReg regsSem o

/-- The registers of the power block (R694). -/
def regPower (o : Nat) : Option RegDef :=
  if o < 0x24 then lookupReg regsPower o
  else if o < 0x4C then some RegDef.counter
  else if o < 0x80 then none
  else if o < 0xE0 then lookupReg regsLog ((o - 0x80) % 12)
  else lookupReg regsBoot o

/-- The registers of the filter block (R348): twelve groups, `DIV` in the aux groups only, and the reset value of L. -/
def regFilter (o : Nat) : Option RegDef :=
  if o < 0xC0 then
    let g := o / 16
    (lookupReg regsGroup (o % 16)).map (fun d =>
      if o % 16 = 0 ∧ g < 4 then
        { d with rw := d.rw &&& 0x0FFFFFFF, ranges := d.ranges.filter (fun r => r.lo != 28) }
      else if o % 16 = 4 ∧ g = 3 then d.withReset 64
      else if o % 16 = 4 ∧ 4 ≤ g then d.withReset 2
      else d)
  else lookupReg regsFilter o

/-- The registers of the aux block (R428). -/
def regAux (o : Nat) : Option RegDef := if o < 0x200 then lookupReg regsChan (o % 64) else lookupReg regsAux o

/-- The reset value of `Qn_CFG`: the reset allocation of R555, timeout 10 s, both drains, STOP. -/
def queueCfgReset (q : Nat) : Word :=
  word (0x0A003000 + (match q with
    | 0 => 80
    | 1 => 24
    | 2 => 8
    | 3 => 16
    | _ => 0))

/-- The registers of the buffer block (R555); Q4 accepts only STOP (R538). -/
def regBuffer (o : Nat) : Option RegDef :=
  if o < 0x24 then lookupReg regsBuffer o
  else if o < 0x30 then (if o % 4 = 0 then lookupReg regsBuffer 0x20 else none)
  else if o < 0x40 then none
  else if o < 0xE0 then
    let q := (o - 0x40) / 32
    (lookupReg regsQueue ((o - 0x40) % 32)).map (fun d =>
      if (o - 0x40) % 32 = 0 then
        if q = 4 then
          { d with reset := queueCfgReset q, ranges := ⟨8, 2, [(0, 0)]⟩ :: d.ranges }
        else d.withReset (queueCfgReset q)
      else d)
  else if 0x100 ≤ o ∧ o < 0x114 ∧ o % 4 = 0 then some RegDef.counter
  else none

/-- The registers of the event block (R476), with its program window (R139). -/
def regEvent (o : Nat) : Option RegDef :=
  if o < 0x100 then lookupReg regsEvent o
  else if o < 0x300 then lookupReg regsSm ((o - 0x100) % 32)
  else if o = 0x300 then some (RegDef.control 0x3FF 0 0 0 0 0 [])
  else if o = 0x304 then some (RegDef.control 0xFFFFFFFF 0 0 0 0 0 [])
  else none

/-- The registers of the engine block (R594), with its program window (R139). -/
def regEngine (o : Nat) : Option RegDef :=
  if o < 0x200 then lookupReg regsCtx (o % 16)
  else if o < 0x280 then none
  else if o < 0x300 then (if o % 4 = 0 then some (RegDef.control 0xFFFFFFFF 0 0 0 0 0 []) else none)
  else if o = 0x300 then some (RegDef.control 0x3FF 0 0 0 0 0 [])
  else if o = 0x304 then some (RegDef.control 0xFFFFFFFF 0 0 0 0 0 [])
  else if o < 0x330 then lookupReg regsEngine o
  else if o < 0x340 then
    (if o % 4 = 0 then some (RegDef.control 0xFFFFFF 0 0 0 0 0x100 [⟨8, 16, [(1, 65535)]⟩]) else none)
  else if o < 0x380 then
    (if o % 4 = 0 then some (RegDef.control 0x70337 0 0 0 0x3000000 4
      [⟨16, 3, [(0, 4)]⟩, ⟨8, 2, [(0, 2)]⟩, ⟨4, 2, [(0, 2)]⟩]) else none)
  else if o % 4 = 0 then some (RegDef.readOnly 0xFFFFFFFF 0)
  else none

/-- The registers of the Flue block (R631). -/
def regFlue (o : Nat) : Option RegDef :=
  if o < 0x28 then lookupReg regsFlue o
  else if o < 0x40 then none
  else if o < 0xC0 then (if o % 4 = 0 then some (RegDef.control 0xFFF 0 0 0 0xF8FF0000 0xF10 []) else none)
  else if o = 0xC0 ∨ o = 0xC4 then some RegDef.counter
  else none

/-- The registers of the security block (R665), with the certificate window (R139). -/
def regSecurity (o : Nat) : Option RegDef :=
  if o < 0x20 then lookupReg regsSecurity o
  else if o < 0x40 then (if o % 4 = 0 then some (RegDef.readOnly 0xFFFFFFFF 0) else none)
  else if o = 0x300 then some (RegDef.control 0x7FF 0 0 0 0 0 [])
  else if o = 0x304 then some (RegDef.readOnly 0xFFFFFFFF 0)
  else none

/-- The registers of the self-test and spare block (R715). -/
def regBist (o : Nat) : Option RegDef :=
  if o < 0x10 then lookupReg regsBist o
  else if o < 0x80 then lookupReg regsResult ((o - 0x10) % 16)
  else lookupReg regsSpare o

/-- The block of an address below 0x4000 (R92): blocks are numbered from the base 0x0000 in steps of 0x400. -/
def blockOf (a : Nat) : Nat := a / 0x400

/-- The last implemented word address of a block (R94), counted from its base; block 15 has none. -/
def blockLast (b : Nat) : Option Nat :=
  match b with
  | 0 => some 0x14
  | 1 => some 0x8C
  | 2 => some 0xE8
  | 3 => some 0x44
  | 4 => some 0x304
  | 5 => some 0x34
  | 6 => some 0x214
  | 7 => some 0x110
  | 8 => some 0x304
  | 9 => some 0x3FC
  | 10 => some 0xC4
  | 11 => some 0x20
  | 12 => some 0x304
  | 13 => some 0xA0
  | 14 => some 0x10
  | _ => none

/-- Whether a word address (below 0x4000) lies in its block's implemented range (R93, R94). -/
def implemented (a : Nat) : Bool :=
  match blockLast (blockOf a) with
  | some l => decide (a % 0x400 ≤ l)
  | none => false

/-- The register at a direct word address; none at a reserved word (R93) and beyond LAST (R94). -/
def regDef (a : Nat) : Option RegDef :=
  let o := a % 0x400
  match a / 0x400 with
  | 0 => lookupReg regsIdentity o
  | 1 => regHost o
  | 2 => regPower o
  | 3 => lookupReg regsMotion o
  | 4 => regFilter o
  | 5 => lookupReg regsAngle o
  | 6 => regAux o
  | 7 => regBuffer o
  | 8 => regEvent o
  | 9 => regEngine o
  | 10 => regFlue o
  | 11 => lookupReg regsGuard o
  | 12 => regSecurity o
  | 13 => regBist o
  | 14 => lookupReg regsStore o
  | _ => none

/-- The reset value of a register's stored word (R127); 0 where there is no register. -/
def regReset (a : Nat) : Word :=
  match regDef a with
  | some d => d.reset
  | none => 0

/-- Every implemented bit of a register: the others read 0 (R95). -/
def RegDef.bits (d : RegDef) : Word :=
  match d.cls with
  | .status => 0xFF000000 ||| d.sq ||| d.ro
  | .counter => 0xFFFFFFFF
  | _ => d.rw ||| d.go ||| d.pp ||| d.lk ||| d.ro

/-- Whether a field's value lies in one of its ranges. -/
def FieldRange.accepts (r : FieldRange) (w : Word) : Bool :=
  r.ok.any (fun p => decide (p.1 ≤ bitsAt w r.lo r.width) && decide (bitsAt w r.lo r.width ≤ p.2))

/-- Whether every field of a word lies in its range (R101, R720). -/
def RegDef.inRange (d : RegDef) (w : Word) : Bool := d.ranges.all (fun r => r.accepts w)

/-- The windows of R139: the index register, the data register and the number of words. -/
def windowOf (a : Nat) : Option (Nat × Nat) :=
  if a = 0x2304 then some (0x2300, 1024)
  else if a = 0x2704 then some (0x2700, 1024)
  else if a = 0x1304 then some (0x1300, 1536)
  else if a = 0x3304 then some (0x3300, 2048)
  else none

/-- The latched pairs (R108): the upper register of a pair by its lower one (FLT_SYNCT, ANG_ANGLE, Qn_RDSEQ, SEC_LASTSEAL,
PWR_LOGn_T). -/
def pairUpper (a : Nat) : Option Nat :=
  if a = 0x10C8 ∨ a = 0x1420 ∨ a = 0x3008 then some (a + 4)
  else if 0x1C40 ≤ a ∧ a < 0x1CE0 ∧ (a - 0x1C40) % 32 = 0x14 then some (a + 4)
  else if 0x880 ≤ a ∧ a < 0x8E0 ∧ (a - 0x880) % 12 = 4 then some (a + 4)
  else none

end Sys2Proof.Machine
end

