-- ==== Sys2Proof/Machine/Crypto.lean ====
section
/-! DEFINITION. The checksums of R160 and R523 and the algorithms of R634: SHA-256, HMAC, HKDF, ECDSA and ECDH over P-256. -/

namespace Sys2Proof.Machine

/-! ### CRC-8 (R160) and CRC-32 (R523) -/

/-- One bit of the CRC-8 of R160: polynomial 0x2F, no reflection. -/
def crc8Bit (c : Nat) : Nat := if 128 ≤ c then ((c * 2) % 256) ^^^ 0x2F else c * 2

/-- One byte into the CRC-8. -/
def crc8Byte (c : Nat) (b : Byte) : Nat := (List.range 8).foldl (fun c _ => crc8Bit c) (c ^^^ b.toNat)

/-- The CRC-8 of R160: initial value 0xFF, final XOR with 0xFF. -/
def crc8 (bs : List Byte) : Byte := BitVec.ofNat 8 (bs.foldl crc8Byte 0xFF ^^^ 0xFF)

/-- One bit of the CRC-32 of R523, reflected. -/
def crc32Bit (c : Nat) : Nat := if c % 2 = 1 then (c / 2) ^^^ 0xEDB88320 else c / 2

/-- One byte into the CRC-32. -/
def crc32Byte (c : Nat) (b : Byte) : Nat := (List.range 8).foldl (fun c _ => crc32Bit c) (c ^^^ b.toNat)

/-- The CRC-32 of R523. -/
def crc32 (bs : List Byte) : Word := word (bs.foldl crc32Byte 0xFFFFFFFF ^^^ 0xFFFFFFFF)

/-! ### SHA-256 -/

/-- The round constants of SHA-256, four words a line. -/
def shaK : List Word :=
  [0x428A2F98, 0x71374491, 0xB5C0FBCF, 0xE9B5DBA5,
   0x3956C25B, 0x59F111F1, 0x923F82A4, 0xAB1C5ED5,
   0xD807AA98, 0x12835B01, 0x243185BE, 0x550C7DC3,
   0x72BE5D74, 0x80DEB1FE, 0x9BDC06A7, 0xC19BF174,
   0xE49B69C1, 0xEFBE4786, 0x0FC19DC6, 0x240CA1CC,
   0x2DE92C6F, 0x4A7484AA, 0x5CB0A9DC, 0x76F988DA,
   0x983E5152, 0xA831C66D, 0xB00327C8, 0xBF597FC7,
   0xC6E00BF3, 0xD5A79147, 0x06CA6351, 0x14292967] ++
  [0x27B70A85, 0x2E1B2138, 0x4D2C6DFC, 0x53380D13,
   0x650A7354, 0x766A0ABB, 0x81C2C92E, 0x92722C85,
   0xA2BFE8A1, 0xA81A664B, 0xC24B8B70, 0xC76C51A3,
   0xD192E819, 0xD6990624, 0xF40E3585, 0x106AA070,
   0x19A4C116, 0x1E376C08, 0x2748774C, 0x34B0BCB5,
   0x391C0CB3, 0x4ED8AA4A, 0x5B9CCA4F, 0x682E6FF3,
   0x748F82EE, 0x78A5636F, 0x84C87814, 0x8CC70208,
   0x90BEFFFA, 0xA4506CEB, 0xBEF9A3F7, 0xC67178F2]

/-- The initial state of SHA-256. -/
def shaInit : List Word :=
  [0x6A09E667, 0xBB67AE85, 0x3C6EF372, 0xA54FF53A,
   0x510E527F, 0x9B05688C, 0x1F83D9AB, 0x5BE0CD19]

/-- Rotation to the right. -/
def rotr (w : Word) (n : Nat) : Word := w.rotateRight n

/-- One word of the message schedule from the sixteen before it, oldest first. -/
def shaNext (w : List Word) : Word :=
  let a := w.getD 1 0
  let b := w.getD 14 0
  let s0 := rotr a 7 ^^^ rotr a 18 ^^^ (a >>> 3)
  let s1 := rotr b 17 ^^^ rotr b 19 ^^^ (b >>> 10)
  w.getD 0 0 + s0 + w.getD 9 0 + s1

/-- One round. -/
def shaRound (st : List Word) (k w : Word) : List Word :=
  match st with
  | [a, b, c, d, e, f, g, h] =>
    let s1 := rotr e 6 ^^^ rotr e 11 ^^^ rotr e 25
    let ch := (e &&& f) ^^^ (~~~e &&& g)
    let t1 := h + s1 + ch + k + w
    let s0 := rotr a 2 ^^^ rotr a 13 ^^^ rotr a 22
    let maj := (a &&& b) ^^^ (a &&& c) ^^^ (b &&& c)
    [t1 + (s0 + maj), a, b, c, d + t1, e, f, g]
  | s => s

/-- The rounds over one block; `w` holds the sixteen schedule words from the present one on. -/
def shaRounds : List Word → List Word → List Word → List Word
  | [], _, st => st
  | k :: ks, w, st => shaRounds ks (w.drop 1 ++ [shaNext w]) (shaRound st k (w.getD 0 0))

/-- One block of sixteen words into the state. -/
def shaBlock (st ws : List Word) : List Word := List.zipWith (· + ·) st (shaRounds shaK ws st)

/-- The words of a padded message, sixteen at a time; `n` bounds the number of blocks. -/
def shaBlocks : Nat → List Word → List Word → List Word
  | 0, st, _ => st
  | n + 1, st, ws => if ws.isEmpty then st else shaBlocks n (shaBlock st (ws.take 16)) (ws.drop 16)

/-- The padding of a message of `n` bytes. -/
def shaPad (n : Nat) : List Byte :=
  0x80 :: (List.replicate ((119 - n % 64) % 64) 0 ++ natBytes 8 (8 * n))

/-- SHA-256. -/
def sha256 (bs : List Byte) : BitVec 256 :=
  let ws := bytesWords (bs ++ shaPad bs.length)
  BitVec.ofNat 256 ((shaBlocks (ws.length / 16 + 1) shaInit ws).foldl (fun a w => a * 2 ^ 32 + w.toNat) 0)

/-- The 32 bytes of a digest. -/
def digestBytes (d : BitVec 256) : List Byte := natBytes 32 d.toNat

/-- The first 16 bytes of a digest. -/
def firstHalf (d : BitVec 256) : BitVec 128 := d.extractLsb' 128 128

/-- The 64 bytes of an HMAC pad: the key, zero-filled, XORed with a byte. -/
def hmacPad (x : Byte) (key : List Byte) : List Byte :=
  (key ++ List.replicate (64 - key.length) 0).map (fun b => b ^^^ x)

/-- HMAC-SHA-256 with a key of at most 64 bytes. -/
def hmac (key msg : List Byte) : BitVec 256 :=
  sha256 (hmacPad 0x5C key ++ digestBytes (sha256 (hmacPad 0x36 key ++ msg)))

/-- HKDF-SHA-256 with a 32-byte output: one expansion block. -/
def hkdf (ikm salt info : List Byte) : BitVec 256 :=
  hmac (digestBytes (hmac salt ikm)) (info ++ [1])

/-! ### P-256 -/

/-- The prime of P-256. -/
def p256P : Nat := 2 ^ 256 - 2 ^ 224 + 2 ^ 192 + 2 ^ 96 - 1

/-- The order of P-256's group. -/
def p256N : Nat := 0xFFFFFFFF00000000FFFFFFFFFFFFFFFFBCE6FAADA7179E84F3B9CAC2FC632551

/-- The coefficient b of P-256. -/
def p256B : Nat := 0x5AC635D8AA3A93E7B3EBBD55769886BC651D06B0CC53B0F63BCE3C3E27D2604B

/-- The base point of P-256. -/
def p256G : Nat × Nat :=
  (0x6B17D1F2E12C4247F8BCE6E563A440F277037D812DEB33A0F4A13945D898C296,
   0x4FE342E2FE1A7F9B8EE7EB4A7C0F9E162BCE33576B315ECECBB6406837BF51F5)

/-- Modular power, over the low `n` bits of the exponent, most significant first. -/
def powMod (md b e : Nat) : Nat → Nat
  | 0 => 1 % md
  | n + 1 =>
    let r := powMod md b (e / 2) n
    if e % 2 = 1 then r * r % md * b % md else r * r % md

/-- The inverse modulo a prime below 2^256. -/
def invMod (md a : Nat) : Nat := powMod md (a % md) (md - 2) 256

/-- A point, none being the point at infinity. -/
abbrev EcPoint := Option (Nat × Nat)

/-- The chord or tangent's third point, from its slope. -/
def ecChord (l x1 y1 x2 : Nat) : EcPoint :=
  let x3 := (l * l + 2 * p256P - x1 - x2) % p256P
  some (x3, (l * (x1 + p256P - x3) + p256P - y1) % p256P)

/-- Addition of points. -/
def ecAdd : EcPoint → EcPoint → EcPoint
  | none, q => q
  | some p, none => some p
  | some (x1, y1), some (x2, y2) =>
    if x1 = x2 then
      if (y1 + y2) % p256P = 0 then none
      else ecChord ((3 * (x1 * x1) + p256P - 3) * invMod p256P (2 * y1) % p256P) x1 y1 x2
    else ecChord ((y2 + p256P - y1) * invMod p256P (x2 + p256P - x1) % p256P) x1 y1 x2

/-- Multiplication of a point by a number of `n` bits, most significant first. -/
def ecMulBits (q : EcPoint) (k : Nat) : Nat → EcPoint
  | 0 => none
  | n + 1 =>
    let r := ecMulBits q (k / 2) n
    let r := ecAdd r r
    if k % 2 = 1 then ecAdd r q else r

/-- Multiplication of a point by a number below 2^256. -/
def ecMul (k : Nat) (q : EcPoint) : EcPoint := ecMulBits q k 256

/-- The public key of a private key. -/
def ecPublic (d : Nat) : Nat × Nat := (ecMul d (some p256G)).getD (0, 0)

/-- A public key lies on P-256 (R635); coordinates of 64 bytes name no point at infinity. -/
def ecOnCurve (q : Nat × Nat) : Bool :=
  decide (q.1 < p256P) && decide (q.2 < p256P) &&
    decide ((q.2 * q.2) % p256P = (q.1 * q.1 * q.1 + (p256P - 3) * q.1 + p256B) % p256P)

/-- ECDSA verification of a signature (r, s) of a digest. -/
def ecdsaVerify (q : Nat × Nat) (digest : BitVec 256) (r s : Nat) : Bool :=
  if r = 0 || s = 0 || decide (p256N ≤ r) || decide (p256N ≤ s) then false
  else
    let w := invMod p256N s
    match ecAdd (ecMul (digest.toNat % p256N * w % p256N) (some p256G)) (ecMul (r * w % p256N) (some q)) with
    | none => false
    | some (x, _) => decide (x % p256N = r)

/-- A private scalar from a random number: 1 to n − 1.
Log entry 10 (DESIGN CHOICE, safe). -/
def scalarOf (r : BitVec 256) : Nat := r.toNat % (p256N - 1) + 1

/-- An ECDSA signature with the secret scalar `k`; none when a value is 0 and another scalar is needed. -/
def ecdsaSignWith (d k : Nat) (digest : BitVec 256) : Option (Nat × Nat) :=
  match ecMul k (some p256G) with
  | none => none
  | some (x, _) =>
    let r := x % p256N
    let s := invMod p256N k * (digest.toNat + r * d) % p256N
    if r = 0 || s = 0 then none else some (r, s)

/-- An ECDSA signature with random scalars drawn from counter `c` on; the scalar is drawn again while a value is 0.
Log entry 10 (DESIGN CHOICE, safe). -/
def ecdsaSign (d : Nat) (digest : BitVec 256) : Nat → Nat → Nat × Nat
  | c, 0 => (ecdsaSignWith d (scalarOf (Config.random c)) digest).getD (1, 1)
  | c, n + 1 =>
    match ecdsaSignWith d (scalarOf (Config.random c)) digest with
    | some rs => rs
    | none => ecdsaSign d digest (c + 1) n

/-- The ECDH secret: the 32 bytes of the x-coordinate (R634). -/
def ecdh (d : Nat) (q : Nat × Nat) : List Byte := natBytes 32 ((ecMul d (some q)).getD (0, 0)).1

/-- The 64 bytes of a public key (R634). -/
def keyBytes (q : Nat × Nat) : List Byte := natBytes 32 q.1 ++ natBytes 32 q.2

/-- The public key that 64 bytes spell. -/
def bytesKey (bs : List Byte) : Nat × Nat := (bytesNat (bs.take 32), bytesNat (bs.drop 32))

/-- A string's ASCII bytes. -/
def ascii (s : String) : List Byte := s.toList.map (fun c => BitVec.ofNat 8 c.toNat)

/-- The device serial's 8 bytes. -/
def serialBytes : List Byte := natBytes 8 Config.serial.toNat

/-- The device serial as 16 upper-case hexadecimal digits (R9). -/
def serialHex : List Byte :=
  (natBytes 16 0).zipIdx.map (fun x =>
    let d := Config.serial.toNat / 16 ^ (15 - x.2) % 16
    BitVec.ofNat 8 (if d < 10 then 0x30 + d else 0x37 + d))

/-- The DER of the subject's serialNumber attribute, of object identifier 2.5.4.5 (R9, R638). -/
def serialAttribute : List Byte := [0x31, 0x19, 0x30, 0x17, 0x06, 0x03, 0x55, 0x04, 0x05, 0x13, 0x10] ++ serialHex

/-- The DER of a subjectPublicKeyInfo of id-ecPublicKey, prime256v1 and an uncompressed point (R638). -/
def publicKeyInfo (q : Nat × Nat) : List Byte :=
  [0x30, 0x59, 0x30, 0x13, 0x06, 0x07, 0x2A, 0x86, 0x48, 0xCE, 0x3D, 0x02, 0x01] ++
    [0x06, 0x08, 0x2A, 0x86, 0x48, 0xCE, 0x3D, 0x03, 0x01, 0x07, 0x03, 0x42, 0x00, 0x04] ++ keyBytes q

/-- A device certificate (R637, R638): the subject ends with the device serial (R9), the device public key follows it; what stands
before and after them is the issuer's. -/
def certificate (q : Nat × Nat) (head tail : List Byte) : List Byte := head ++ serialAttribute ++ publicKeyInfo q ++ tail

/-- The key of an open epoch (R651). -/
def openKey : BitVec 256 := hkdf serialBytes (List.replicate 32 0) (ascii "NL4716 MAC open")

end Sys2Proof.Machine
end

