-- ==== Sys2Proof/Machine/State.lean ====
section
/-! DEFINITION. The state of the NL4716: everything the manual gives the block, as plain data, and the queue of the
commands that wait. `State.reset` is the part at power-on release. -/

namespace Sys2Proof.Machine

/-! ### Clocks and modes -/

/-- The state of a power domain (R25). RETAIN is a state of D4 alone. -/
inductive Dom where
  | off
  | on
  | retain
  deriving DecidableEq, Repr

/-- The power modes (R668). -/
inductive Mode where
  | run
  | watch
  | ember
  deriving DecidableEq, Repr

/-- The states of the eight domains; D0 is on while VSUP or VHOLD is present (R26). -/
structure Domains where
  d0 : Bool
  d1 : Dom
  d2 : Dom
  d3 : Dom
  d4 : Dom
  d5 : Dom
  d6 : Dom
  d7 : Dom
  deriving DecidableEq, Repr

/-- Whether and why no port answers: before power-on release or with every supply gone (R58), held in reset by TEST (R54),
no startable slot (R688); otherwise the part is up. -/
inductive Life where
  | unpowered
  | heldInReset
  | noSlot
  | up
  deriving DecidableEq, Repr

/-- A start in progress (R683): cold or from Ember, quick or full (R684), when it began, the mode it leads to, and the bits
PFAIL and ROLLBACK that its end sets in `PWR_STATUS`. -/
structure Start where
  cold : Bool
  full : Bool
  since : Nat
  target : Mode
  pfail : Bool
  rollback : Bool
  deriving DecidableEq, Repr

/-- The phases of a mode entry that a state can stand in (R672): closing blocks up to the commit point, the shutdown
self-test, switching off. -/
inductive Phase where
  | close
  | selfTest
  | switchOff
  deriving DecidableEq, Repr

/-- A mode entry in progress: its target, its phase, since when, and the port whose `mode` verb or write asked for it; `mixed`: another command of that port has begun since, so that
its reply bytes are no longer those of the entering command alone (R673).
Log entry 114 (DEDUCED, unsafe). -/
structure Entry where
  target : Mode
  phase : Phase
  since : Nat
  byPort : Option Port
  byVerb : Bool
  mixed : Bool
  deriving DecidableEq, Repr

/-- Clocks, supplies, modes and domains. `now` is elapsed time in ticks of 2^-26 s, `ts` the timestamp (R35), `hearthStop`
the Hearth cycles counted since FOSC stopped (R37). `modeSince`: when the present mode was reached (R680); `powerPending`: a completed entry whose POWER is still to be set when
D5 next switches ON (R679); `keyLevel`: KEY's level as its filter accepted it last (R74, R76).
Log entries 5 (DESIGN CHOICE, unsafe), 115 (DEDUCED, unsafe). -/
structure Clocks where
  now : Nat
  ts : BitVec 64
  hearthStop : Nat
  life : Life
  mode : Mode
  modeSince : Nat
  dom : Domains
  d1Since : Nat
  d2Since : Nat
  d3Since : Nat
  achSince : Nat
  start : Option Start
  entry : Option Entry
  latchedWake : Option Nat
  wokeAt : Option Nat
  wakeTimerFired : Bool
  vsup : Bool
  vholdArmed : Bool
  vio : Bool
  powerPending : Bool
  runSince : Nat
  keyLevel : Bool
  deriving DecidableEq, Repr

/-! ### Registers -/

/-- A latched-pair holding register of one requesting agent (R108): the upper register's address and its copy.
Log entry 23 (DEDUCED, unsafe). -/
structure PairHold where
  addr : Nat
  value : Word
  deriving DecidableEq, Repr

/-- A clear write-back that succeeded (R111, R116): the port it was made for, the register, its word before, when; `undone`: a
hardware event of the same FOSC cycle has come before it, so that it was refused (R112, R116). -/
structure Cleared where
  byPort : Option Port
  addr : Nat
  old : Word
  at_ : Nat
  undone : Bool
  deriving DecidableEq, Repr

/-- A write of 1 to GO fields whose operation was in progress (R103): who wrote what where, and when (R105). -/
structure Absorbed where
  byPort : Option Port
  addr : Nat
  word : Word
  at_ : Nat
  deriving DecidableEq, Repr

/-- The register file. `words`: (address, word) pairs in canonical form, addresses rising, none equal to the register's reset
value; `locked`: the registers whose LK fields are locked (R124); `pendingSeq`: the windowed status registers with a pending
SEQ increment and the timestamp at which their window ends (R721); `gated` and `lastAccess`: per block of R92, whether its
clock is gated and when it was last accessed (R131); the holding registers of latched pairs (R108); for the rules on one FOSC
cycle, the clears made in it (R112, R116) and the writes to GO fields absorbed in it (R105).
Log entry 7 (DESIGN CHOICE, unsafe). -/
structure Regs where
  words : List (Nat × Word)
  locked : List Nat
  pendingSeq : List (Nat × Nat)
  gated : List Nat
  lastAccess : List (Nat × Nat)
  holdA : Option PairHold
  holdB : Option PairHold
  holdCore : Option PairHold
  cleared : List Cleared
  absorbed : List Absorbed
  deriving DecidableEq, Repr

/-- One persistent register of the store (R710): its stored word, its write count, whether it was moved to a spare row and
whether it is worn by a second row failure (R712). -/
structure PReg where
  addr : Nat
  value : Word
  count : Nat
  moved : Bool
  dead : Bool
  deriving DecidableEq, Repr

/-- A persistent write in flight (R117 to R119): the register, its old and new words, and the port that asked, none where no port
did (a lead calibration, R412). -/
structure PWrite where
  addr : Nat
  old : Word
  new : Word
  byPort : Option Port
  deriving DecidableEq, Repr

/-! ### Host ports -/

/-- One frame store of a stream reader (R176): the queue and, in order, its words with their absolute positions.
Log entry 32 (DEDUCED, unsafe). -/
structure StreamStore where
  queue : Nat
  words : List (Nat × Word)
  deriving DecidableEq, Repr

/-- A fill in progress (R177): which store it fills, the queue, the absolute position of its first word, when it began.
Log entry 32 (DEDUCED, unsafe). -/
structure Fill where
  second : Bool
  queue : Nat
  start : Nat
  since : Nat
  deriving DecidableEq, Repr

/-- A terminated Wilone line that has not begun to execute (R218): its characters, whether it was over-long (R216), when
its terminator arrived, and whether a reset of the session has discarded its reply (R186).
Log entry 44 (DEDUCED, unsafe). -/
structure WaitingLine where
  chars : List Byte
  tooLong : Bool
  since : Nat
  deriving DecidableEq, Repr

/-- An open challenge (R647): the nonce, the ephemeral key pair, the owner key given for it, when it was opened. -/
structure Challenge where
  nonce : BitVec 256
  dA : Nat
  qA : Nat × Nat
  qO : Option (Nat × Nat)
  since : Nat
  deriving DecidableEq, Repr

/-- What a command that has begun to execute still waits for (R121, R236, R643, R653, R658): the reply's lines that wait
for room, its final line, and why it has not ended. -/
inductive Busy where
  /-- Data lines or the final line wait for room in the reply buffer; `since`: when the first of them last found no room. -/
  | room (since : Nat)
  /-- The next persistent write waits for BUSY to clear (R121). -/
  | persist
  /-- The `seal` verb waits for its seal (R658). -/
  | sealing
  /-- `test run` waits for its run to end (R260). -/
  | testing
  deriving DecidableEq, Repr

/-- A write that a line has still to make: the fields of one register (mask and word, with the name that
an `at` line shows: R244), the words of one frame (R250), or a setting of the session (R237); each with the columns of its tokens
(R233). -/
inductive WriteItem where
  | field (addr : Nat) (mask word : Word) (name : List Byte) (col : Nat)
  | frame (addr : Nat) (words : List Word) (cols : List Nat)
  | echo (on : Bool)
  | prompt (on : Bool)
  | respond (h : List Byte)
  | enrol (h : List Byte) (col : Nat)
  | retired
  deriving DecidableEq, Repr

/-- A Wilone command that is executing (R241, R243): why it has not ended, the writes still to make, the reply lines not yet in
the buffer and the final line, each complete with its end, and whether the checksum suffix is owed on every line (R231). -/
structure Executing where
  why : Busy
  todo : List WriteItem
  lines : List (List Byte)
  final : List Byte
  checksum : Bool
  deriving DecidableEq, Repr

/-- One host port: strap (R51), line buffer (R171, R212), waiting line (R218), reply buffer (R172), the command executing,
session settings (R237), authentication (R647), since when the lease runs (R204; none: run out), INTSRC pacing (R207), stream stores (R176), the writes held
for a gated block (R133), the status word's own fields (R169), the bytes last driven on SDIO, and, for each queue, whether
a policy or a lost bank has moved the read pointer since this port's last served STREAM_READ (R539). `finalLeft`: reply
bytes up to and including the last final line's last byte (R240). `readyAt`: the port takes every frame whose x_SEL edge comes
from then on, and none whose edge came up to `wokenAt` (R208). `lastAt`: the FOSC cycle of the write that LAST tells of, if it
tells of one (R112). `int`: whether the INT pin is active in this FOSC cycle (R205). `baudOff`:
nothing has been received since D5 was OFF, so that `x_BAUD_DET` still reads 0 (R187).
Log entries 21 (DEDUCED, unsafe), 27 (DEDUCED, unsafe), 30 (DEDUCED, unsafe), 31 (DEDUCED, unsafe), 34 (DEDUCED, unsafe), 130
(DEDUCED, unsafe). -/
structure PortState where
  async : Bool
  line : List Byte
  tooLong : Bool
  lastCR : Bool
  waiting : Option WaitingLine
  reply : List Byte
  finalLeft : Nat
  executing : Option Executing
  dropReply : Bool
  echo : Bool
  prompt : Bool
  auth : Bool
  challenge : Option Challenge
  authFails : Nat
  lockUntil : Option Nat
  sems : BitVec 16
  semsCmd : BitVec 16
  leaseSince : Option Nat
  lastInc : Nat
  incPending : Bool
  store0 : Option StreamStore
  store1 : Option StreamStore
  storeLast : Bool
  fill : Option Fill
  held : List (Nat × Word)
  wcnt : Byte
  last : Nat
  sdio : List Byte
  baudSeen : Bool
  moved : BitVec 5
  evtRequest : Bool
  readyAt : Nat
  wokenAt : Nat
  lastAt : Option Nat
  int : Bool
  baudOff : Bool
  deriving DecidableEq, Repr

/-! ### Motion sense -/

/-- One ACF axis of the load-hold servo (R268, R272): H in 2^-14 g, the source in force, whether the next update that finds
ACH running is its acquisition, whether the previous interval was clipped, the last prediction M (2^-46 g) and whether it was usable,
and the four status bits of its last update. -/
structure ServoAxis where
  h : Int
  src : Nat
  acquire : Bool
  prevClip : Bool
  mPrev : Int
  mValid : Bool
  achref : Bool
  satNow : Bool
  slew : Bool
  deriving DecidableEq, Repr

/-- The motion block: the three servo axes, the window in force (R277), the held values from each instant on, newest first
(R270), the words of the last hold record and the axes' sources in it, the hold records that wait for their ACF output
(update instant, words: R283), the sequence of the Q0 block that holds a whole record for the last update (R282), whether
the ACF element's start time is over (R274), the instant of the last hold update (R269), and the axis maps from each instant on,
newest first (R290, R322).
Log entry 59 (DEDUCED, unsafe). -/
structure Motion where
  x : ServoAxis
  y : ServoAxis
  z : ServoAxis
  window : Nat
  hist : List (Nat × Int × Int × Int)
  record : List Word
  due : List (Nat × List Word)
  heldIn : Option Nat
  ready : Bool
  upd : Nat
  maps : List (Nat × Nat)
  deriving DecidableEq, Repr

/-! ### Filter chains -/

/-- The configuration a group's chains run in (R309): K, the cascade length L, the FIR taps in use (none: no FIR stage), and
whether GAIN scales it (custom mode, R306). -/
structure ChainCfg where
  k : Nat
  l : Nat
  taps : Option Nat
  custom : Bool
  deriving DecidableEq, Repr

/-- One pre-FIR value of the FIR's delay line with the flags of its inputs, and the H it is relative to (R270, R307, R308). -/
structure PreFir where
  y : Int
  h : Int
  clp : Bool
  blk : Bool
  deriving DecidableEq, Repr

/-- One chain (R303, R304): its integrators and combs in 88 bits; the same for the held value H, relative to the H at the last
zeroing restart (R270, R322); the delay line of pre-FIR values, newest first; how many inputs have come in since the last
full-scale one and since the last one inside a blanking span; its last output; the inputs that the next outputs still reach
back to, with their H, newest first; whether a DAMPER hold has frozen it since its last input (R321, R421).
Log entry 62 (DEDUCED, unsafe). -/
structure Chain where
  integ : List (BitVec 88)
  comb : List (BitVec 88)
  hInteg : List Int
  hComb : List Int
  hRef : Int
  line : List PreFir
  sinceFull : Option Nat
  sinceBlk : Option Nat
  last : Int
  recent : List (Int × Int)
  frozen : Bool
  deriving DecidableEq, Repr

/-- A cross-fade in progress (R338): outputs made, its length F.
Log entry 64 (DEDUCED, unsafe). -/
structure Fade where
  j : Nat
  f : Nat
  deriving DecidableEq, Repr

/-- One group of chains: the configuration in force, a preset change that waits for the next output of the old grid
(R321), its chains, whether they have started, the instant of the first input they take, the outputs still to be flagged UNS
(R323), the active bank (R334), the fade in progress and the castling pending after it (R338, R340), the reason of the timing
record owed before its next output (R518), its output period (in ticks; conversions per output in the aux groups), the
instant of its next output (R315), and the aux conversions since its last output; the instant of its last restart (R325) and the
events of its status register since its last output instant (R349); whether a castling has been requested again in the FOSC cycle
of its execution (R342), and whether a preset change that has yet to restart the chains has taken the FIR stage out of use (R344). -/
structure GroupState where
  cfg : ChainCfg
  nextCfg : Option ChainCfg
  chains : List Chain
  started : Bool
  start : Nat
  unsLeft : Nat
  bankB : Bool
  fade : Option Fade
  castlePend : Bool
  timing : Option Nat
  period : Nat
  nextOut : Nat
  convCount : Nat
  restartAt : Option Nat
  events : Nat
  reqAgain : Bool
  firLeft : Bool
  deriving DecidableEq, Repr

/-- An armed library transfer (R347): whether it saves, entry, group, bank, the coefficients of a save.
Log entry 66 (DEDUCED, unsafe). -/
structure LibTransfer where
  save : Bool
  entry : Nat
  group : Nat
  bankB : Bool
  taps : List Word
  deriving DecidableEq, Repr

/-- One entry of the coefficient library that a save has written (R346): its number and its bytes, which end before the digest where
the save was cut off (R347).
Log entry 66 (DEDUCED, unsafe). -/
structure LibEntry where
  entry : Nat
  bytes : List Byte
  deriving DecidableEq, Repr

/-- The filter block: the thirteen groups (R301), the transfer in progress, and since when (tick and timestamp) a synchronising
reset is armed (R329). -/
structure Filters where
  groups : List GroupState
  transfer : Option LibTransfer
  arm : Option (Nat × Nat)
  deriving DecidableEq, Repr

/-! ### Angle domain -/

/-- The lock states (R364). -/
inductive Lock where
  | search
  | track
  | lock
  | holdover
  deriving DecidableEq, Repr

/-- A rate output: its physical instant and θ there in 2^-32 rev (R355). -/
structure RatePoint where
  t : Int
  theta : Int
  deriving DecidableEq, Repr

/-- An output of the ACF resampler chains at its physical instant (R351), with the flags BLK, CLP and UNS of X, of Y and of Z (R372), and
the H and the window that it is relative to (R377). -/
structure AcfPoint where
  t : Int
  x : Int
  y : Int
  z : Int
  flags : BitVec 9
  hx : Int
  hy : Int
  hz : Int
  window : Nat
  deriving DecidableEq, Repr

/-- The angle resampler: its decimator, whether it runs, the instant of its next output and how many outputs are still
discarded (R352); θ (R355), the scale s − 1 in 2^-44 (R356), the pending correction in 2^-37 rev and the outputs it is spread
over (R363); lock state, the state before HOLDOVER, good count, θ at the last accepted instant (R362), the instants accepted and
the lock states since the revolution began, newest first; the period of the last completed revolution, c of N in use, whether no
revolution has ended since SEARCH (R368); `HOLDN` as the last reference instant found it (R366); the revolution count and the revolution in progress (instant and θ of its start);
revolutions ended in HOLDOVER; since when ω is below f_min (R357); the latest rate; the rate outputs and source points still
needed, newest first; the reference instants not handled yet. -/
structure Angle where
  deci : Chain
  run : Bool
  nextRate : Nat
  discard : Nat
  theta : Int
  scale : Int
  corrLeft : Int
  corrParts : Nat
  lock : Lock
  before : Lock
  good : Nat
  accTheta : Int
  accs : List Int
  states : List (Int × Lock)
  pLast : Nat
  nCode : Nat
  first : Bool
  holdN : Nat
  revCount : Nat
  rev : Option (Int × Int)
  holdRevs : Nat
  lowSince : Option Nat
  omega : Int
  rates : List RatePoint
  acf : List AcfPoint
  refs : List Int
  deriving DecidableEq, Repr

/-! ### Aux front end and Damper -/

/-- The configuration of an aux channel in force: its `CFG`, `BO`, `LIN`, `P1` to `P4` and `LEAD` words (R390); whether it runs as
the companion of the channel below it, and then that channel's `RATE` and `EXC` (R408). -/
structure AuxCfg where
  cfg : Word
  bo : Word
  lin : Word
  p1 : Word
  p2 : Word
  p3 : Word
  p4 : Word
  lead : Word
  comp : Bool
  hostCfg : Word
  deriving DecidableEq, Repr

/-- A change of an aux channel's configuration that waits for its slot (R390): the tick from which a slot takes it, the
configuration, and whether the first conversion under it is a source start. -/
structure AuxChange where
  from_ : Nat
  cfg : AuxCfg
  restart : Bool
  deriving DecidableEq, Repr

/-- One aux channel: the configuration in force; the changes of it that wait for a slot, in order (R390); whether its next
conversion is a source start, whether it ends a DAMPER hold, and from which window start one follows an excitation change (R321,
R397, R426); its comparator, and the timestamp of its last release (R401); the result of its last check and the conversions since;
the frame of its latest check slot, and whether the comparator is still to be read in it (R400, R402); the last valid cold junction temperature (R416); of its latest conversion the code, the clip flag, the gain and the instant, and as a companion the
last code without a flag, with its gain (R409); the latest temperature with its flag (R416); whether its last conversion was
flagged as broken (R403). -/
structure AuxChan where
  cfg : AuxCfg
  changes : List AuxChange
  fresh : Bool
  damped : Bool
  excAt : Option Nat
  tripped : Bool
  releasedAt : Nat
  checkBroken : Bool
  sinceCheck : Nat
  checkFrame : Option Nat
  checkDue : Bool
  tcj : Option Int
  code : Int
  codeFlag : Bool
  codeGain : Nat
  codeAt : Nat
  goodCode : Option (Int × Nat)
  temp : Option (Int × Bool)
  latestAt : Nat
  wasBroken : Bool
  deriving DecidableEq, Repr

/-- A span of DAMPER (R417, R420): its assertion instant, its release instant once released, and, once `AUX_DAMP.EN` has gone to 0
after it, the instant of that, from which nothing is blanked; as timestamps. -/
structure DampSpan where
  start : Nat
  stop : Option Nat
  off : Option Nat
  deriving DecidableEq, Repr

/-- A lead calibration (R412): channel, sum of R in 2^-64 Ω over the conversions taken, their number, when it started, whether its
write has been posted. -/
structure LeadCal where
  ch : Nat
  sum : Int
  n : Nat
  since : Nat
  posted : Bool
  deriving DecidableEq, Repr

/-- The aux block: channels; VEXC's mode, level and settle delay in force, whether it is on, its fault (R394, R395, R398); the excitation change that waits
for frame start F, and the windows skipped since the last one (R397); DAMPER's level as accepted, whether it is asserted, ignored
until its released level (R425), its stuck event seen, its spans, newest first, whether an aux channel was enabled during the
assertion (R423); the lead calibration. -/
structure Aux where
  chans : List AuxChan
  excMode : Nat
  excLevel : Nat
  settle : Nat
  vexc : Bool
  excFault : Bool
  excChange : Option Nat
  skipFrom : Nat
  skipUntil : Nat
  damperLevel : Bool
  asserted : Bool
  ignoreDamper : Bool
  stuckSeen : Bool
  spans : List DampSpan
  auxDuring : Bool
  lcal : Option LeadCal
  deriving DecidableEq, Repr

/-! ### Event engine -/

/-- An event record or a unit of one (R448): timestamp, code, source, instance, value. -/
structure Rec where
  ts : Nat
  code : Nat
  source : Nat
  inst : Nat
  value : Word
  deriving DecidableEq, Repr

/-- The state of a threshold recogniser (IMPACT, OVERSPEED, UNDERSPEED): persistence counts towards the decision and
towards the end, whether in episode, IMPACT's history (R441, R444), and whether Watch has been left with no output evaluated since
(R470). -/
structure Recog where
  count : Nat
  endCount : Nat
  episode : Bool
  lastInstant : Option Int
  lastDouble : Bool
  peak : Nat
  outputs : Nat
  resumed : Bool
  deriving DecidableEq, Repr

/-- The state of FREEFALL or STILL: the deciding instant of the first output of the interval, the total there, whether in
episode and since when (R442, R444). -/
structure Dwell where
  since : Option Int
  base : Int
  episode : Bool
  epStart : Int
  deriving DecidableEq, Repr

/-- The state of REVOLUTION (R440, R446): instants counted towards a record, the previous instant, and the gravity detector:
armed, whether a crossing has opened a revolution, the outputs of the last 2^26 ticks before the first instant (instant,
total), the sum and number of totals since the previous instant, the extremes since the previous crossing, the last output. -/
structure RevState where
  every : Nat
  prev : Option Int
  gprev : Option Int
  armed : Bool
  opened : Bool
  hist : List (Int × Int)
  sum : Int
  n : Nat
  maxv : Int
  minv : Int
  last : Option (Int × Int)
  deriving DecidableEq, Repr

/-- The states of a machine (R458). -/
inductive SmRun where
  | stopped
  | run
  | wait
  | paused
  | fault
  deriving DecidableEq, Repr

/-- What a machine in WAIT waits for (R462 to R464): a WAITC with its word, whether it is armed and its persistence count; a
WAITE with its word; the expiry of a timer; its turn, the wait having ended (R458), or having timed out in cycle `at_`, whose outputs
still win (R464). -/
inductive SmWait where
  | idle
  | waitc (w : Word) (armed : Bool) (count : Nat)
  | waite (w : Word)
  | time (second : Bool)
  | ended
  | expired (at_ : Nat) (was : SmWait)
  deriving DecidableEq, Repr

/-- A machine timer (R464): running until `expiry`, expired, or stopped; `left` while the machine is PAUSED (R471). -/
structure SmTimer where
  running : Bool
  expired : Bool
  expiry : Nat
  left : Nat
  deriving DecidableEq, Repr

/-- One state machine (R456): its state, the one a pause took it from (R471), the next address, C, counters, timers, last
value, reference instant, wait, fault cause, and instructions executed since it last entered WAIT (R467). -/
structure Sm where
  run : SmRun
  resume : SmRun
  pc : Nat
  c : Bool
  cnt0 : Nat
  cnt1 : Nat
  t0 : SmTimer
  t1 : SmTimer
  last : Word
  ref : Nat
  wait : SmWait
  cause : Nat
  streak : Nat
  deriving DecidableEq, Repr

/-- The event engine: recognisers, machines, the event records held while Q3 takes none (R28), the D0 copy of the newest event
records with the sequence of the Q3 block that holds each (R691), whether a watch-capable event asks for a
wake (R472), and the last FOSC cycle in which a machine was served (R457).
Log entry 79 (DEDUCED, unsafe). -/
structure Events where
  impact : Recog
  freefall : Dwell
  rev : RevState
  ospd : Recog
  uspd : Recog
  imbX : Recog
  imbY : Recog
  imbZ : Recog
  still : Dwell
  machines : List Sm
  held : List Rec
  staged : List (Rec × Option Nat)
  wakeReq : Bool
  turnAt : Option Nat
  deriving DecidableEq, Repr

/-! ### Guard path -/

/-- The states of the guard path (R486). -/
inductive Grd where
  | off
  | arming
  | healthy
  | trip
  | fault
  deriving DecidableEq, Repr

/-- The decimated samples of a guard chain (R480, R481), and whether a GYR Z modulator sample in it was at full scale (R482). -/
structure GrdSample where
  x : Int
  y : Int
  z : Int
  gz : Int
  gzFull : Bool
  deriving DecidableEq, Repr

/-- One guard chain: its decimated samples, its copies of the converted thresholds (R479), its persistence counts (R484) and whether
its pin's driver sinks. -/
structure GrdChain where
  dec : GrdSample
  impThr : Nat
  ospThr : Nat
  imp : Nat
  osp : Nat
  driven : Bool
  deriving DecidableEq, Repr

/-- The guard path: state, the timestamp at which it began ARMING and the whole decimator periods since, both chains, the crossings found in ARMING (record value and timestamp:
R487), the functions in TRIPSRC, the first fault cause (R492), an acknowledgment that waits for the end of the next period
(R496), the peaks (R507) and those since the trip (R500), the GYR range in force (R485), the last period compared and the one
of the last status event (R508), the levels sensed at the pins, and the tick at which a FAULT pulse ends (R486).
Log entries 85 (DEDUCED, safe), 86 (DEDUCED, unsafe), 88 (DEDUCED, unsafe), 89 (DEDUCED, unsafe). -/
structure Guard where
  st : Grd
  armAt : Nat
  periods : Nat
  a : GrdChain
  b : GrdChain
  armImp : Option (Nat × Nat)
  armOsp : Option (Nat × Nat)
  tripImp : Bool
  tripOsp : Bool
  fcause : Nat
  ack : Bool
  peakImp : Nat
  peakOsp : Nat
  tpkImp : Nat
  tpkOsp : Nat
  zrange : Bool
  lastPeriod : Option Nat
  statAt : Option Nat
  sense1 : Bool
  sense2 : Bool
  pulseUntil : Nat
  deriving DecidableEq, Repr

/-! ### Deep buffer -/

/-- The states of a queue (R533, R555). -/
inductive QRun where
  | noBanks
  | run
  | full
  | armed
  | capturing
  | frozen
  deriving DecidableEq, Repr

/-- A block that has closed (R521): its block number (R39), its sequence, its absolute position in the queue's block order
(R175), its 1,024 words, whether the security engine has made it readable (R18), and when it closed. In Q4, `worker` is the
worker it came from.
Log entry 90 (DEDUCED, unsafe). -/
structure Block where
  blockNo : Nat
  seq : Nat
  absPos : Nat
  data : List Word
  readable : Bool
  closedAt : Nat
  worker : Nat
  deriving DecidableEq, Repr

/-- The open block of a queue: its payload, newest word first, the timestamp of its first word (R526), and its part in a
capture (R522, R536).
Log entry 91 (DEDUCED, unsafe). -/
structure OpenBlock where
  words : List Word
  firstTs : Nat
  capt : Bool
  trig : Bool
  deriving DecidableEq, Repr

/-- A buffer record (R545, R548): its kind (R546; 0x100 is CAPTURED), queue, timestamp, COUNT, FIRST and DETAIL. -/
structure GapRec where
  kind : Nat
  queue : Nat
  ts : Nat
  count : Nat
  first : Nat
  detail : Nat
  deriving DecidableEq, Repr

/-- The words a FULL or FROZEN queue has discarded since it stopped writing (R533, R537): how many, from which tick on. -/
structure Discarded where
  count : Nat
  ts : Nat
  deriving DecidableEq, Repr

/-- A run of policy discards (R547), or the blocks discarded while ARMED (R534): how many, the first one's sequence, when. -/
structure DiscRun where
  count : Nat
  first : Nat
  since : Nat
  ts : Nat
  deriving DecidableEq, Repr

/-- One queue: the banks in effect (the first one and their number) and those of them that are retired (R707), its state (R555), the ring position of its open block,
its closed unread blocks oldest first, its open block, the absolute position of the next block to close (R175), the next
sequence and the chain head (R523, R527), whether its next close carries START (R522), what its policy has discarded and not
yet declared, the capture in progress (R535, R536), and the counts that the next seal reports (R656). -/
structure Queue where
  bank0 : Nat
  banks : Nat
  skip : List Nat
  run : QRun
  ringPos : Nat
  unread : List Block
  openBlk : Option OpenBlock
  absNext : Nat
  nextSeq : Nat
  head : Option (BitVec 128)
  startFlag : Bool
  discarded : Option Discarded
  discRun : Option DiscRun
  pretrim : Option DiscRun
  trigAt : Option Nat
  postLeft : Nat
  captBlocks : Bool
  sealClosed : Nat
  countClosed : Nat
  sealGaps : Nat
  sealDisc : Nat
  lastSeq : Option Nat
  lastHash : BitVec 256
  deriving DecidableEq, Repr

/-- One buffer unit of R699 (units 0 to 127 the banks, 128 to 135 the tiles' spare banks): corrected errors (R715), spare
rows left, retention losses of cause 2 or 3, whether its retention monitor has latched (R550), whether it was unpowered in
Ember, whether its tile's spare serves it, and whether it is retired or failed. -/
structure BufUnit where
  corr : Nat
  rows : Nat
  retLoss : Nat
  dipped : Bool
  unpowered : Bool
  served : Bool
  bad : Bool
  deriving DecidableEq, Repr

/-- The deep buffer: the five queues, the buffer records that wait in D0 (R28), the 136 units (R699), the rows with recent
corrected errors (unit, row, instants: R706), the rows that a spare row serves (512 × bank + row: R709), and the worker blocks
stored into Q4 since the last seal (R655).
Log entry 124 (DEDUCED, unsafe). -/
structure Buffer where
  queues : List Queue
  pendingGaps : List GapRec
  units : List BufUnit
  rowErrors : List (Nat × Nat × List Nat)
  rowMap : List Nat
  q4Seal : Nat
  q3Tail : Nat × Nat
  deriving DecidableEq, Repr

/-! ### I/O engines -/

/-- The states of an engine (R581). -/
inductive EngRun where
  | stopped
  | running
  | stalled
  deriving DecidableEq, Repr

/-- What a context is doing (R561, R562): its next instruction; a wait that is executed again in each turn; a shift, with
its word, the tick at which the bit in progress began, how many bits are complete, and SH as it was when that bit began
(R585); a delay until a tick. -/
inductive CtxOp where
  | ready
  | waitPin
  | waitFlag
  | waitIrq
  | dataWait
  | shift (out : Bool) (word : Word) (bitStart : Nat) (bit : Nat) (before : Word)
  | delay (endTick : Nat)
  deriving DecidableEq, Repr

/-- One context (R558). `txAt`, `rxAt`: the FOSC cycle in which TXF and RXF last changed, for the rules on two events in one
cycle (R576, R578).
Log entry 106 (DEDUCED, unsafe). -/
structure Ctx where
  pc : Nat
  ca : Word
  cb : Word
  sh : Word
  txd : Word
  txf : Bool
  txAt : Option Nat
  rxd : Word
  rxf : Bool
  rxAt : Option Nat
  op : CtxOp
  deriving DecidableEq, Repr

/-- What a stall recorded over, for a START of the same FOSC cycle (R587): the cycle, the fault before, `ENG_STATUS` before and
whether an increment of it was pending. -/
structure StallUndo where
  at_ : Nat
  cause : Nat
  ctx : Nat
  pc : Nat
  status : Word
  pending : Bool
  deriving DecidableEq, Repr

/-- One engine: state, whether a STOP waits for its next tick and the FOSC cycle of its write (R583, R587), the FOSC cycle of its tick 0 and the tick it takes next
(R559), the context that tick 0 served (R585), RESOK (R584), the interrupt latch, the cycle in which it was last set with its
value before (R579), its last fault, what its last stall recorded over, its contexts.
Log entries 105 (DEDUCED, unsafe), 106 (DEDUCED, unsafe). -/
structure Eng where
  run : EngRun
  stopping : Bool
  stopAt : Nat
  edge : Nat
  tick : Nat
  turnBase : Nat
  resok : Bool
  irq : Bool
  irqAt : Option (Nat × Bool)
  fcause : Nat
  fctx : Nat
  fpc : Nat
  undo : Option StallUndo
  ctxs : List Ctx
  deriving DecidableEq, Repr

/-- The engine block: four engines, the output and drive latches of
the EP pins (R566), the external levels last seen, the shared flags (R468, held in D0), and the FOSC cycle in which they last changed,
with the flags at its start and those set in it (R469). -/
structure Engines where
  engs : List Eng
  out : BitVec 16
  drive : BitVec 16
  levels : BitVec 16
  flags : BitVec 16
  flagsAt : Option (Nat × BitVec 16 × BitVec 16)
  deriving DecidableEq, Repr

/-! ### Flue -/

/-- The SYNC state of a worker (R607). -/
inductive SyncSt where
  | free
  | acquire
  | locked
  | holdover
  deriving DecidableEq, Repr

/-- What a manager holds of one worker (R611, R617, R621, R624): state, AWAY reason, protocol level, serial, the last sequence
stored from each of its queues, successive failed turns, blocks taken in this turn, the queue its next turn begins with,
whether an absence is open, since which tick and timestamp (R625), and whether a command keeps it AWAY. -/
structure Worker where
  st : Nat
  reason : Nat
  pl : Nat
  serial : BitVec 64
  lastSeq : List (Option Nat)
  missed : Nat
  turnBlocks : Nat
  nextQueue : Nat
  absent : Bool
  awaySince : Nat
  awayTs : Nat
  commanded : Bool
  deriving DecidableEq, Repr

/-- A forwarding in progress (R627): the worker, the lines acknowledged, `upgrade begin` first, and the number of
`upgrade data` lines.
Log entry 112 (DEDUCED, unsafe). -/
structure Forward where
  w : Nat
  acked : Nat
  lines : Nat
  deriving DecidableEq, Repr

/-- The Flue block: role in effect (R597), SYNC state, last accepted pulse (tick and timestamp), good intervals, ATT, the last
errors in ticks, newest first, an armed timestamp load (when its write applied), the last frame mark driven or received
(tick and instant: R330), the end of the pulse a manager drives, workers, whose turn each bus has come to, forwarding, the
last scan (none: one is due). -/
structure Flue where
  role : Nat
  sync : SyncSt
  lastPulse : Option (Nat × Int)
  goodIntervals : Nat
  att : Bool
  errs : List Int
  loadAt : Option Nat
  mark : Option (Nat × Nat)
  pulseHighUntil : Option Nat
  workers : List Worker
  busTurn0 : Nat
  busTurn1 : Nat
  forward : Option Forward
  lastScan : Option Nat
  deriving DecidableEq, Repr

/-! ### Security -/

/-- A MAC epoch (R651, R652): number, kind, N, Q_a and the key K. -/
structure Epoch where
  num : Nat
  owner : Bool
  nonce : BitVec 256
  qA : Nat × Nat
  key : BitVec 256
  deriving DecidableEq, Repr

/-- A seal that is being signed (R655, R657): its payload words up to the signature, the key that MACs it (R653), whether it
declares a new epoch, whether it is a retire seal, the ports whose `seal` verbs it answers. -/
structure SealJob where
  payload : List Word
  key : BitVec 256
  declares : Bool
  retire : Bool
  verbs : List Port
  deriving DecidableEq, Repr

/-- The security record as it stands in the non-volatile store (R118, R652). -/
structure SecRecord where
  life : Nat
  owner : Option (BitVec 256)
  made : Epoch
  deriving DecidableEq, Repr

/-- Lifecycle (R640), keys (R636), certificates (R637), owner digest, the epoch made last and the one in force (R652, R653), the
record as stored, which a write in flight has not replaced (R118), the reasons that wait for a seal (R657), the ports whose `seal` verbs wait, the
port whose `key retire` runs (R643), the seal being signed, the last composition, the previous seal's sequence, and the
sequence of the last seal written. -/
structure Security where
  life : Nat
  priv : Option Nat
  pub : Nat × Nat
  cert : List Byte
  caCert : List Byte
  owner : Option (BitVec 256)
  made : Epoch
  inForce : Epoch
  stored : SecRecord
  reasons : BitVec 16
  verbs : List Port
  retiring : Option Port
  sealing : Option SealJob
  lastCompose : Nat
  prevSeal : Option Nat
  lastSeal : Nat
  deriving DecidableEq, Repr

/-! ### Persistent store, firmware, power failure, self-test -/

/-- The states of a firmware slot (R688). -/
inductive SlotSt where
  | empty
  | try_
  | good
  | bad
  deriving DecidableEq, Repr

/-- A firmware slot: state, image, cached digest.
Log entry 103 (DEDUCED, unsafe). -/
structure Slot where
  st : SlotSt
  image : List Byte
  digest : Option (BitVec 256)
  deriving DecidableEq, Repr

/-- The kinds of image an upgrade carries (R257). -/
inductive UpKind where
  | fw
  | engine
  | event
  deriving DecidableEq, Repr

/-- An open upgrade (R257): who opened it, kind, library entry, SIZE, the pieces received (offset, bytes). -/
structure Upgrade where
  port : Port
  kind : UpKind
  entry : Nat
  size : Nat
  pieces : List (Nat × List Byte)
  deriving DecidableEq, Repr

/-- What a power-fail commit record holds (R690): next sequences and heads of Q0 to Q3, B, the self-test results, and the
snapshot (R691). `marked`: the validity mark was written; `used`: it was read by a start. -/
structure CommitRec where
  seqs : List Nat
  heads : List (Option (BitVec 128))
  boundary : Nat
  results : List (Nat × Word)
  snapshot : List Rec
  threshold : BitVec 64
  starts : Nat
  marked : Bool
  used : Bool
  age : Nat
  deriving DecidableEq, Repr

/-- The non-volatile store: persistent registers, the write in flight, slots, which slot runs and which is next, the
activation that waits (with the port whose line is not known to be taken, and since when), libraries, the open upgrade, start count, the stored boundary, the two commit areas, the rotation
pointer, failed-spare marks and spare maps, and the spare rows left in each area (R712).
Log entries 22 (DEDUCED, unsafe), 99 (DEDUCED, unsafe), 123 (DEDUCED, unsafe). -/
structure Nv where
  pregs : List PReg
  write : Option PWrite
  slotA : Slot
  slotB : Slot
  runB : Bool
  nextB : Bool
  activation : Option (Option Port × Nat)
  images : List (Nat × List Byte)
  coefLib : List LibEntry
  upgrade : Option Upgrade
  starts : Nat
  boundary : Nat
  areaA : Option CommitRec
  areaB : Option CommitRec
  areaNextB : Bool
  committing : Option CommitRec
  commitStart : Option Straps
  rot : Nat
  nvRows : List Nat
  engSpare : Nat
  acfSpare : Nat
  gyrzSpare : Bool
  burn0 : Option Nat
  burn1 : Option Nat
  failed : Byte
  deriving DecidableEq, Repr

/-- The kinds of self-test run (R715): shutdown, start, command. -/
inductive RunKind where
  | shutdown
  | start
  | command
  deriving DecidableEq, Repr

/-- A self-test run in progress (R697): its kind, the tests still to run (the first runs now) and those that have ended, the
port that asked, whether by a Wilone line, whether it is part of a cold start, the buffer units its buffer test takes (R699),
whether every test so far gave PASS, and the bits of `BIST_STATUS` that it has had an event for (R717). -/
structure TestRun where
  kind : RunKind
  todo : List Nat
  ran : List Nat
  byPort : Option Port
  byVerb : Bool
  cold : Bool
  units : List Nat
  allPass : Bool
  seen : Word
  deriving DecidableEq, Repr

/-- A spare copy in progress (R708): a bank's or a row's, the unit, and whether `SPARE_USE.GO` stands for it. -/
structure SpareCopy where
  bank : Bool
  unit : Nat
  go : Bool
  deriving DecidableEq, Repr

/-- Self-test and spares: the run in progress, the copies in progress, oldest first, QUICK (R705) and the last run's kind. -/
structure SelfTest where
  run : Option TestRun
  copies : List SpareCopy
  quick : Bool
  lastRun : Nat
  deriving DecidableEq, Repr

/-! ### The whole -/

/-- The memories behind the data windows (R139), each a sparse memory in canonical form: event programs, I/O engine programs
(256 words an engine), FIR coefficients (128 words a group, bank A first).
Log entry 14 (DESIGN CHOICE, unsafe). -/
structure Mems where
  evtProg : List (Nat × Word)
  engProg : List (Nat × Word)
  coefs : List (Nat × Word)
  deriving DecidableEq, Repr

/-- The NL4716 itself: every register, buffer, counter, mode and pin. `free` counts the free values drawn (the model's own
field: an undefined or unstated value is an opaque constant of `Config` applied to it). -/
structure Mach where
  clk : Clocks
  regs : Regs
  pa : PortState
  pb : PortState
  mot : Motion
  flt : Filters
  ang : Angle
  aux : Aux
  evt : Events
  grd : Guard
  buf : Buffer
  eng : Engines
  flue : Flue
  sec : Security
  nv : Nv
  bist : SelfTest
  mem : Mems
  free : Nat
  deriving DecidableEq, Repr

/-- The state of the model: the block, and the queue of the commands that wait, first in, first out.
Log entry 2 (DESIGN CHOICE, unsafe). -/
structure State where
  m : Mach
  pending : List Instr
  deriving DecidableEq, Repr

/-- How a step can stop with a fault. No row of the table is a fault of the NL4716: every refusal the manual gives is a
status code the block goes on from. The type has no constructor, so no step faults.
Log entry 11 (DEDUCED, safe). -/
inductive Fault where
  deriving DecidableEq, Repr

/-- How a step can be turned away.
Log entry 11 (DEDUCED, safe). -/
inductive Refusal where
  /-- A command that has no meaning in this model yet; raised by the dispatcher alone. Safe: nothing is claimed of it. -/
  | notModelled (mnemonic : String)
  deriving DecidableEq, Repr

/-! ### The block at rest

Each part as it is when its domain is OFF or has just switched ON, before anything has happened to it. -/

/-- A queue of a part that has no such queue; never reached for the indexes 0 to 4. -/
def Queue.none : Queue :=
  ⟨0, 0, [], .noBanks, 0, [], Option.none, 0, 0, Option.none, false, Option.none, Option.none, Option.none, Option.none, 0, false,
    0, 0, 0, 0, Option.none, 0⟩

/-- A group of chains, or one that delivers nothing. -/
def GroupState.idle : GroupState :=
  ⟨⟨1, 1, .none, false⟩, .none, [], false, 0, 0, false, .none, false, .none, 64, 0, 0, .none, 0, false, false⟩

/-- A context as it is when D6 switches ON. -/
def Ctx.fresh : Ctx := ⟨0, 0, 0, 0, 0, false, none, 0, false, none, .ready⟩

/-- An engine as it is when D6 switches ON (R581). -/
def Eng.fresh : Eng := ⟨.stopped, false, 0, 0, 0, 0, false, false, none, 0, 0, 0, none, List.replicate 8 Ctx.fresh⟩

/-- A dwell recogniser as after its reset. -/
def Dwell.fresh : Dwell := ⟨none, 0, false, 0⟩

/-- REVOLUTION as after its reset. -/
def RevState.fresh : RevState := ⟨0, none, none, false, false, [], 0, 0, 0, 0, none⟩

/-- A servo axis as after D1 switches ON (R274): H 0, its acquisition still to come. -/
def ServoAxis.fresh : ServoAxis := ⟨0, 0, true, false, 0, false, false, false, false⟩

/-- A worker a manager knows nothing of. -/
def Worker.fresh : Worker := ⟨0, 0, 0, 0, [none, none, none, none], 0, 0, 0, false, 0, 0, false⟩

/-- A channel that has no configuration and no history. -/
def AuxChan.empty : AuxChan :=
  ⟨⟨0, 0, 0, 0, 0, 0, 0, 0, false, 0⟩, [], true, false, none, false, 0, false, 0, none, false, none, 0, false, 0, 0, none, none, 0,
    false⟩

/-- A chain of `k` integrators with zero history and H 0. -/
def Chain.still (k : Nat) : Chain :=
  ⟨List.replicate k 0, List.replicate k 0, List.replicate k 0, List.replicate k 0, 0, List.replicate 64 ⟨0, 0, false, false⟩,
    none, none, 0, [], false⟩

/-- The resampler as D3 switches ON: no angle, no history, SEARCH, scale 1 (R356, R364, R128). -/
def Angle.fresh : Angle :=
  { deci := Chain.still 3, run := false, nextRate := 0, discard := 3, theta := 0, scale := 0, corrLeft := 0, corrParts := 0,
    lock := .search, before := .search, good := 0, accTheta := 0, accs := [], states := [], pLast := 0, nCode := 0, first := true, holdN := 8,
    revCount := 0, rev := none, holdRevs := 0, lowSince := none, omega := 0, rates := [], acf := [], refs := [] }

/-- Every domain OFF. -/
def Domains.rest : Domains := ⟨true, .off, .off, .off, .off, .off, .off, .off⟩

/-- The clocks before a start. The model's own count of elapsed ticks begins at 512, so that no INTSRC pacing (R207) stands
over from before power-on.
Log entry 5 (DESIGN CHOICE, unsafe). -/
def Clocks.rest : Clocks :=
  { now := 512, ts := 0, hearthStop := 0, life := .unpowered, mode := .run, modeSince := 512, dom := Domains.rest, d1Since := 0,
    d2Since := 0, d3Since := 0, achSince := 0, start := none, entry := none, latchedWake := none, wokeAt := none, wakeTimerFired := false,
    vsup := false, vholdArmed := false, vio := true, powerPending := false, runSince := 512, keyLevel := false }

/-- A port as D5 switches ON (R187, R237), clocked or async (R51). -/
def PortState.fresh (async : Bool) : PortState :=
  { async := async, line := [], tooLong := false, lastCR := false, waiting := none, reply := [], finalLeft := 0, executing := none,
    dropReply := false, echo := false, prompt := false, auth := false, challenge := none, authFails := 0, lockUntil := none,
    sems := 0, semsCmd := 0, leaseSince := none, lastInc := 0, incPending := false, store0 := none, store1 := none,
    storeLast := false, fill := none, held := [], wcnt := 0, last := 0, sdio := [], baudSeen := false, moved := 0,
    evtRequest := false, readyAt := 0, wokenAt := 0, lastAt := none, int := false, baudOff := false }

/-- The motion block at rest. -/
def Motion.rest : Motion := ⟨.fresh, .fresh, .fresh, 0, [], [], [], none, false, 0, []⟩

/-- The motion block as D1 switches ON with the registers at their reset values: every axis AUTO, H 0, and the hold record that says
so (R282, R284, R297). -/
def Motion.reset : Motion :=
  let axis : ServoAxis := { ServoAxis.fresh with src := 1 }
  { Motion.rest with x := axis, y := axis, z := axis, record := [0x0154001C, 28, 28, 28], maps := [(0, 0)] }

/-- The aux block at rest. -/
def Aux.rest : Aux :=
  { chans := List.replicate 8 AuxChan.empty, excMode := 0, excLevel := 0, settle := 10, vexc := false, excFault := false, excChange := none, skipFrom := 0,
    skipUntil := 0, damperLevel := false, asserted := false, ignoreDamper := false, stuckSeen := false, spans := [],
    auxDuring := false, lcal := none }

/-- A threshold recogniser as after its reset. -/
def Recog.fresh : Recog := ⟨0, 0, false, none, false, 0, 0, false⟩

/-- A state machine that is STOPPED (R460). -/
def Sm.fresh : Sm :=
  ⟨.stopped, .stopped, 0, false, 0, 0, ⟨false, false, 0, 0⟩, ⟨false, false, 0, 0⟩, 0, 0, .idle, 0, 0⟩

/-- The event engine at rest. -/
def Events.rest : Events :=
  ⟨.fresh, .fresh, .fresh, .fresh, .fresh, .fresh, .fresh, .fresh, .fresh, List.replicate 16 Sm.fresh, [], [], false, none⟩

/-- A guard chain with no sample and no threshold yet. -/
def GrdChain.rest : GrdChain := ⟨⟨0, 0, 0, 0, false⟩, 0, 0, 0, 0, false⟩

/-- The guard path OFF with no latch (R487, R505). -/
def Guard.rest : Guard :=
  ⟨.off, 0, 0, GrdChain.rest, GrdChain.rest, none, none, false, false, 0, false, 0, 0, 0, 0, false, none, none, false, false, 0⟩

/-- A queue that has closed no block, with its banks, from a next sequence on (R552, R689). -/
def Queue.fresh (bank0 banks nextSeq : Nat) (st : QRun) (head : Option (BitVec 128)) : Queue :=
  { Queue.none with bank0 := bank0, banks := banks, run := st, nextSeq := nextSeq, head := head, startFlag := true }

/-- The queues with the banks of the reset values of their registers (R555). -/
def startQueues (nextSeq : Nat) (heads : List (Option (BitVec 128))) : List Queue :=
  [Queue.fresh 0 80 nextSeq .run (heads.getD 0 none), Queue.fresh 80 24 nextSeq .run (heads.getD 1 none),
   Queue.fresh 104 8 nextSeq .run (heads.getD 2 none), Queue.fresh 112 16 nextSeq .run (heads.getD 3 none),
   Queue.fresh 128 0 0 .noBanks none]

/-- A buffer unit that has never failed. -/
def BufUnit.fresh : BufUnit := ⟨0, 8, 0, false, false, false, false⟩

/-- The deep buffer at rest. -/
def Buffer.rest : Buffer := ⟨startQueues 0 [], [], List.replicate 136 BufUnit.fresh, [], [], 0, (0, 0)⟩

/-- The engine block as D6 switches ON. -/
def Engines.rest : Engines := ⟨List.replicate 4 Eng.fresh, 0, 0, 0, 0, none⟩

/-- The Flue block at rest, without a role. -/
def Flue.rest : Flue := ⟨0, .free, none, 0, false, [], none, none, none, List.replicate 32 Worker.fresh, 0, 0, none, none⟩

/-- The epoch set at manufacture (R652). -/
def Epoch.first : Epoch := ⟨0, false, 0, (0, 0), openKey⟩

/-- The security block of a part as shipped: key and certificates loaded, OPEN (R641). -/
def Security.shipped : Security :=
  { life := 1, priv := some Config.deviceKey, pub := ecPublic Config.deviceKey, cert := certificate (ecPublic Config.deviceKey) Config.certHead Config.certTail,
    caCert := Config.caCert, owner := none, made := Epoch.first, inForce := Epoch.first, stored := ⟨1, none, Epoch.first⟩, reasons := 0, verbs := [],
    retiring := none, sealing := none, lastCompose := 512, prevSeal := none, lastSeal := 0 }

/-- The firmware image that a part is shipped with (R662). -/
def shippedImage : List Byte :=
  [0x4E, 0x4C, 0x46, 0x57, 1, 0, 0, 0, 1, 1] ++ natBytes 2 Config.shippedVersion.toNat ++
    natBytes 4 (Config.shippedCode.length - 132) ++ Config.shippedCode

/-- The non-volatile store of a part as shipped (R694, R712, R715). -/
def Nv.shipped : Nv :=
  { pregs := [], write := none, slotA := ⟨.good, shippedImage, some (sha256 shippedImage)⟩, slotB := ⟨.empty, [], none⟩,
    runB := false, nextB := false, activation := none, images := [], coefLib := [], upgrade := none, starts := 0, boundary := 0,
    areaA := none, areaB := none, areaNextB := false, committing := none, commitStart := none, rot := 0,
    nvRows := [8, 8, 8, 2, 4, 2, 4], engSpare := 0, acfSpare := 0, gyrzSpare := false, burn0 := none, burn1 := none, failed := 0 }

/-- The part as shipped, without power.
Log entry 6 (DEDUCED, unsafe). -/
def Mach.shipped : Mach :=
  { clk := Clocks.rest, regs := ⟨[], [], [], [], [], none, none, none, [], []⟩, pa := .fresh false, pb := .fresh false, mot := .rest,
    flt := ⟨List.replicate 13 GroupState.idle, none, none⟩, ang := .fresh, aux := .rest, evt := .rest, grd := .rest, buf := .rest,
    eng := .rest, flue := .rest, sec := .shipped, nv := .shipped, bist := ⟨none, [], false, 0⟩, mem := ⟨[], [], []⟩, free := 0 }

/-! ### Reset

The part as shipped at its power-on release (R64, R683): the cold start stands at 3.5 ms with its self-test running (R685). -/

/-- The domains as `PWR_DOM` gives them at reset: all ON (R668). -/
def Domains.reset : Domains := ⟨true, .on, .on, .on, .on, .on, .on, .on⟩

/-- The clocks: timestamp 0 (R36), a full cold start to Run in progress (R684, R685), VHOLD not yet armed (R67).
Log entry 6 (DEDUCED, unsafe). -/
def Clocks.reset : Clocks :=
  { Clocks.rest with life := .up, dom := Domains.reset, d1Since := 512, d2Since := 512, d3Since := 512, achSince := 512,
                     start := some ⟨true, true, 512, .run, false, false⟩, vsup := true }

/-- The registers: all at their reset values, but that RESTART is set in both `x_INTSRC`, with SEQ 1 (R127, R207).
Log entry 6 (DEDUCED, unsafe). -/
def Regs.reset : Regs := ⟨[(0x410, 0x01000040), (0x430, 0x01000040)], [], [], [], [], none, none, none, [], []⟩

/-- A port after D5 has switched ON: its one INTSRC event was at tick 512 of the model's count. -/
def PortState.reset : PortState := { PortState.fresh false with lastInc := 512 }

/-- The groups: no source delivers yet, and each but the resampler's owes the timing record of a start (R518). -/
def Filters.reset : Filters :=
  ⟨List.replicate 12 { GroupState.idle with timing := some 0 } ++ [GroupState.idle], none, none⟩

/-- The aux block: every channel at the reset values of its registers (R429). -/
def Aux.reset : Aux :=
  { Aux.rest with chans := List.replicate 8 { AuxChan.empty with cfg := ⟨0x05000000, 0x00010001, 0x00080000, 0, 0, 0, 0, 0, false, 0⟩ } }

/-- The start self-test that runs: the motion test stands first (R697).
Log entry 6 (DEDUCED, unsafe). -/
def SelfTest.reset : SelfTest := ⟨some ⟨.start, [0, 1, 3, 4, 5, 6], [], none, false, true, [], true, 0⟩, [], false, 2⟩

/-- The block at reset: the first start is counted, the stored boundary is one reservation on (R689), a START seal is due (R657), and
the EP latches are at INIT and INITOE (R567).
Log entry 6 (DEDUCED, unsafe). -/
def Mach.reset : Mach :=
  { Mach.shipped with
    clk := Clocks.reset, regs := Regs.reset, pa := PortState.reset, pb := PortState.reset, mot := Motion.reset, flt := Filters.reset,
    aux := Aux.reset, eng := { Engines.rest with drive := 0xFFFF }, sec := { Security.shipped with reasons := 0x20 },
    nv := { Nv.shipped with starts := 1, boundary := 4096 }, bist := SelfTest.reset }

/-- The machine right after reset: no command waits.
Log entry 6 (DEDUCED, unsafe). -/
def State.reset : State := ⟨Mach.reset, []⟩

end Sys2Proof.Machine
end

