-- ==== Sys2Proof/Machine/Ops.lean ====
section
/-! DEFINITION. The named operations over the register file, the ports and the clocks that every command is built from. -/

namespace Sys2Proof.Machine

/-! ### Register file -/

/-- The stored word of a register.
Log entry 7 (DESIGN CHOICE, unsafe). -/
def Mach.reg (m : Mach) (a : Nat) : Word := cellGet regReset m.regs.words a

/-- A register's stored word replaced.
Log entry 7 (DESIGN CHOICE, unsafe). -/
def Mach.setReg (m : Mach) (a : Nat) (w : Word) : Mach :=
  { m with regs := { m.regs with words := cellSet regReset m.regs.words a w } }

/-- A field of a stored register. -/
def Mach.fld (m : Mach) (a lo width : Nat) : Nat := bitsAt (m.reg a) lo width

/-- One bit of a stored register. -/
def Mach.flag (m : Mach) (a i : Nat) : Bool := bitAt (m.reg a) i

/-- A field of a stored register replaced. -/
def Mach.setFld (m : Mach) (a lo width v : Nat) : Mach := m.setReg a (setBits (m.reg a) lo width v)

/-- The registers at the addresses of a list take their reset values (R127, R128). -/
def Mach.resetRegs (m : Mach) (as : List Nat) : Mach := as.foldl (fun m a => m.setReg a (regReset a)) m

/-! ### Time -/

/-- The timestamp as a number (R35). -/
def Mach.ts (m : Mach) : Nat := m.clk.ts.toNat

/-- Ticks in a second (R35). -/
def second : Nat := 2 ^ 26

/-- Ticks in `n` milliseconds, rounded down. -/
def millis (n : Nat) : Nat := n * second / 1000

/-- Ticks in `n` microseconds, rounded down. -/
def micros (n : Nat) : Nat := n * second / 1000000

/-- The first tick that is `n` milliseconds or more on. -/
def millisUp (n : Nat) : Nat := (n * second + 999) / 1000

/-- The first tick that is `n` microseconds or more on. -/
def microsUp (n : Nat) : Nat := (n * second + 999999) / 1000000

/-- The index of the 1 ms window that holds a timestamp (R721, R386).
Log entry 15 (DEDUCED, unsafe). -/
def frameOf (ts : Nat) : Nat := ((ts + 1) * 1000 - 1) / second

/-- The timestamp at which frame `k` begins (R386, R721).
Log entry 15 (DEDUCED, unsafe). -/
def frameStart (k : Nat) : Nat := k * second / 1000

/-- A free bit: one that nothing fixes.
Log entry 8 (DESIGN CHOICE, safe). -/
def Mach.drawBit (m : Mach) : Bool × Mach := (Config.freeBit m.free, { m with free := m.free + 1 })

/-- A free number: one that nothing fixes.
Log entry 8 (DESIGN CHOICE, safe). -/
def Mach.drawNat (m : Mach) : Nat × Mach := (Config.freeNat m.free, { m with free := m.free + 1 })

/-! ### Domains (R25) -/

/-- The state of domain `k`; D0 is ON while the part is powered. -/
def Mach.dom (m : Mach) (k : Nat) : Dom :=
  match k with
  | 0 => if m.clk.dom.d0 then .on else .off
  | 1 => m.clk.dom.d1
  | 2 => m.clk.dom.d2
  | 3 => m.clk.dom.d3
  | 4 => m.clk.dom.d4
  | 5 => m.clk.dom.d5
  | 6 => m.clk.dom.d6
  | _ => m.clk.dom.d7

/-- Whether domain `k` is ON. -/
def Mach.on (m : Mach) (k : Nat) : Bool := decide (m.dom k = .on)

/-- The state of domain `k` replaced. -/
def Mach.setDom (m : Mach) (k : Nat) (d : Dom) : Mach :=
  let c := m.clk.dom
  let c := match k with
    | 1 => { c with d1 := d }
    | 2 => { c with d2 := d }
    | 3 => { c with d3 := d }
    | 4 => { c with d4 := d }
    | 5 => { c with d5 := d }
    | 6 => { c with d6 := d }
    | 7 => { c with d7 := d }
    | _ => c
  { m with clk := { m.clk with dom := c } }

/-- The domain of a block (R92). -/
def blockDomain (b : Nat) : Nat :=
  match b with
  | 1 => 5
  | 3 => 1
  | 4 => 3
  | 5 => 3
  | 6 => 2
  | 7 => 4
  | 8 => 3
  | 9 => 6
  | 10 => 6
  | 11 => 1
  | 12 => 7
  | _ => 0

/-- FOSC runs while any of D1 to D7 is ON (R32). -/
def Mach.fosc (m : Mach) : Bool := [1, 2, 3, 4, 5, 6, 7].any (fun k => m.on k)

/-- Blocks close, and records enter Q3, only while D4 and D7 are ON (R28). -/
def Mach.canWrite (m : Mach) : Bool := m.on 4 && m.on 7

/-- The test that runs now, if one does (R697): its number. -/
def Mach.testNow (m : Mach) : Option Nat :=
  match m.bist.run with
  | some r => r.todo.head?
  | none => none

/-- Whether test `b` runs now, so that its block is isolated (R700).
Log entry 121 (DEDUCED, unsafe). -/
def Mach.testing (m : Mach) (b : Nat) : Bool := decide (m.testNow = some b)

/-- The buffer takes words: D4 and D7 ON (R26, R28) and neither of their blocks isolated for its test (R700).
Log entry 121 (DEDUCED, unsafe). -/
def Mach.taking (m : Mach) : Bool := m.canWrite && !m.testing 6 && !m.testing 3

/-! ### Ports -/

/-- A port's state. -/
def Mach.port (m : Mach) (p : Port) : PortState :=
  match p with
  | .a => m.pa
  | .b => m.pb

/-- A port's state changed. -/
def Mach.updPort (m : Mach) (p : Port) (f : PortState → PortState) : Mach :=
  match p with
  | .a => { m with pa := f m.pa }
  | .b => { m with pb := f m.pb }

/-- The base address of a port's registers (R211). -/
def portBase (p : Port) : Nat :=
  match p with
  | .a => 0x400
  | .b => 0x420

/-- The address of `ACC_x_LAST` (R148). -/
def accLast (p : Port) : Nat :=
  match p with
  | .a => 0x480
  | .b => 0x484

/-- The address of `ACC_x_LOCKED` (R148). -/
def accLocked (p : Port) : Nat :=
  match p with
  | .a => 0x488
  | .b => 0x48C

/-- The address of `x_INTSRC`. -/
def intsrc (p : Port) : Nat := portBase p + 0x10

/-- The port of an agent. -/
def portOf (ag : Agent) : Option Port :=
  match ag with
  | .port p => some p
  | _ => none

/-! ### Status and counter registers (R109 to R116, R721) -/

/-- The status registers that collect events over 1 ms windows (R384, R429, R556, R595, R632). -/
def windowed1ms (a : Nat) : Bool :=
  a = 0x1428 || a = 0x1A08 || a = 0x1C04 || a = 0x2724 || a = 0x281C ||
  (decide (0x1800 ≤ a) && decide (a < 0x1A00) && a % 64 = 0x20) ||
  (decide (0x1C40 ≤ a) && decide (a < 0x1CE0) && a % 32 = 0x1C)

/-- The timestamp at which the window that holds `ts` ends, for a windowed status register: hold updates bound those of
`MOT_STATUS` (R298, R269), milliseconds the others (R721).
Log entry 15 (DEDUCED, unsafe). -/
def seqWindowEnd (a ts : Nat) : Option Nat :=
  if a = 0x0C3C then some ((ts / 131072 + 1) * 131072)
  else if windowed1ms a then some (frameStart (frameOf ts + 1))
  else none

/-- A word with its SEQ one higher, modulo 256 (R109). -/
def bumpSeq (w : Word) : Word := setBits w 24 8 (bitsAt w 24 8 + 1)

/-- The end of the window in which a status register's increment is pending, if one is. -/
def Mach.seqPending (m : Mach) (a : Nat) : Option Nat := (m.regs.pendingSeq.find? (fun p => p.1 == a)).map Prod.snd

/-- The increment of a window that has ended (R721).
Log entries 7 (DESIGN CHOICE, unsafe), 15 (DEDUCED, unsafe). -/
def Mach.flushSeq (m : Mach) (a : Nat) : Mach :=
  match m.seqPending a with
  | some e =>
    if e ≤ m.ts then
      { m with regs := { m.regs with pendingSeq := m.regs.pendingSeq.filter (fun p => p.1 != a) } }.setReg a (bumpSeq (m.reg a))
    else m
  | none => m

/-- A clear that succeeded is kept for its FOSC cycle (R112, R116); older ones go, but for a refused one whose port still shows its
status. -/
def Mach.noteClear (m : Mach) (byPort : Option Port) (a : Nat) : Mach :=
  let shown := fun (c : Cleared) => c.undone && (match c.byPort with
    | some p => decide ((m.port p).lastAt = some c.at_)
    | none => false)
  let old := m.regs.cleared.filter (fun c => c.at_ == m.clk.now || shown c)
  { m with regs := { m.regs with cleared := ⟨byPort, a, m.reg a, m.clk.now, false⟩ :: old } }

/-- A hardware event comes before a clear of its register in the same FOSC cycle (R112, R116): the word is as before the clear, which
is refused with 18. -/
def Mach.unclear (m : Mach) (a : Nat) : Mach :=
  let this := fun (c : Cleared) => c.addr == a && c.at_ == m.clk.now && !c.undone
  match m.regs.cleared.find? this with
  | none => m
  | some c =>
    let cs := m.regs.cleared.map (fun x => if this x then { x with undone := true } else x)
    let m := { m with regs := { m.regs with cleared := cs } }.setReg a c.old
    match c.byPort with
    | some p => m.setReg (accLast p) (word (a * 2 ^ 16 + 18))
    | none => m

/-- `x_STATUS.LAST` (R169): 18 where the write it tells of was a clear that a hardware event of its cycle came before (R112). -/
def Mach.lastCode (m : Mach) (p : Port) : Nat :=
  let s := m.port p
  if m.regs.cleared.any (fun c => c.undone && decide (c.byPort = some p) && decide (s.lastAt = some c.at_)) then 18 else s.last

/-- An event that sets SQ bits of a status register: the bits in its cycle, SEQ with it or at the end of its window
(R109, R721). Hardware of a domain that is not ON takes no event (R128).
Log entry 19 (DEDUCED, unsafe). -/
def Mach.sqEvent (m : Mach) (a : Nat) (mask : Word) : Mach :=
  if mask = 0 || !m.on (blockDomain (blockOf a)) then m
  else
    let m := (m.flushSeq a).unclear a
    match seqWindowEnd a m.ts with
    | some e =>
      let m := m.setReg a (m.reg a ||| mask)
      if (m.seqPending a).isSome then m
      else { m with regs := { m.regs with pendingSeq := m.regs.pendingSeq ++ [(a, e)] } }
    | none => m.setReg a (bumpSeq (m.reg a ||| mask))

/-- One event that sets one SQ bit. -/
def Mach.sqBit (m : Mach) (a i : Nat) : Mach := m.sqEvent a (bitMask i)

/-- `n` increment events of a counter register (R115).
Log entry 19 (DEDUCED, unsafe). -/
def Mach.countN (m : Mach) (a n : Nat) : Mach :=
  if n = 0 || !m.on (blockDomain (blockOf a)) then m
  else
    let m := m.unclear a
    let w := m.reg a
    m.setReg a (setBits (word (min 0xFFFFFF (bitsAt w 0 24 + n))) 24 8 (bitsAt w 24 8 + n))

/-- One increment event of a counter register (R115). -/
def Mach.count (m : Mach) (a : Nat) : Mach := m.countN a 1

/-- One increment of `x_INTSRC` once 512 FOSC cycles have passed since the last (R207).
Log entries 5 (DESIGN CHOICE, unsafe), 7 (DESIGN CHOICE, unsafe), 15 (DEDUCED, unsafe). -/
def Mach.flushInt (m : Mach) (p : Port) : Mach :=
  let ps := m.port p
  if ps.incPending && decide (ps.lastInc + 512 ≤ m.clk.now) then
    (m.setReg (intsrc p) (bumpSeq (m.reg (intsrc p)))).updPort p (fun s =>
      { s with incPending := false, lastInc := s.lastInc + 512 })
  else m

/-- An event that sets bits of `x_INTSRC` (R207): SEQ is paced at one increment per 512 FOSC cycles.
Log entry 5 (DESIGN CHOICE, unsafe). -/
def Mach.intEvent (m : Mach) (p : Port) (mask : Word) : Mach :=
  let m := m.flushInt p
  let m := if m.on 5 then m.unclear (intsrc p) else m
  let m := if m.on 5 then m.setReg (intsrc p) (m.reg (intsrc p) ||| mask) else m
  let ps := m.port p
  if ps.incPending || !m.on 5 then m
  else if decide (m.clk.now < ps.lastInc + 512) then m.updPort p (fun s => { s with incPending := true })
  else (m.setReg (intsrc p) (bumpSeq (m.reg (intsrc p)))).updPort p (fun s => { s with lastInc := m.clk.now })

/-- An event that sets one bit of `x_INTSRC`. -/
def Mach.intBit (m : Mach) (p : Port) (i : Nat) : Mach := m.intEvent p (bitMask i)

/-- An event that sets one bit of both ports' INTSRC. -/
def Mach.intBoth (m : Mach) (i : Nat) : Mach := (m.intBit .a i).intBit .b i

/-- A port's interrupt request is active (R205, R206). -/
def Mach.intActive (m : Mach) (p : Port) : Bool :=
  m.on 5 && decide ((m.reg (intsrc p) &&& m.reg (portBase p + 0x14) &&& 0x00FFFFFF) ≠ 0)

/-- A port's INT pin is active (R205, R206). -/
def Mach.intNow (m : Mach) (p : Port) : Bool := m.on 5 && (m.port p).int

/-- What a VIO-domain output shows: a level, or high impedance. -/
inductive PinState where
  | high
  | low
  | hiZ
  deriving DecidableEq, Repr

/-- The VIO-domain outputs are driven: VIO is there (R57), and VSUP or VHOLD (R58). -/
def Mach.pinsUp (m : Mach) : Bool := m.clk.vio && (m.clk.vsup || m.clk.dom.d0)

/-- A port's INT pin (R57, R58, R205, R206): active or not as in the FOSC cycle before, by `x_CTRL.INTPOL`.
Log entry 130 (DEDUCED, unsafe). -/
def Mach.intPin (m : Mach) (p : Port) : PinState :=
  if !m.pinsUp then .hiZ else if m.intNow p != m.flag (portBase p) 24 then .high else .low

/-- The INT pins take what the cycle that ends has left in `x_INTSRC` (R205). -/
def Mach.intPins (m : Mach) : Mach :=
  { m with pa := { m.pa with int := m.intActive .a }, pb := { m.pb with int := m.intActive .b } }

/-- A clear write-back to a status register (R111, R114, R721) or `x_INTSRC` (R207); 18 is REFUSED.
Log entry 129 (DEDUCED, unsafe). -/
def Mach.statusClear (m : Mach) (byPort : Option Port) (a : Nat) (sq w : Word) : Nat × Mach :=
  let m := m.flushSeq a
  let m := if a = intsrc .a then m.flushInt .a else if a = intsrc .b then m.flushInt .b else m
  let pend := (m.seqPending a).isSome || (a = intsrc .a && m.pa.incPending) || (a = intsrc .b && m.pb.incPending)
  if pend || bitsAt w 24 8 != bitsAt (m.reg a) 24 8 then (18, m)
  else (0, (m.noteClear byPort a).setReg a (m.reg a &&& ~~~(w &&& sq &&& 0x00FFFFFF)))

/-- A clear write-back to a counter register (R116).
Log entry 129 (DEDUCED, unsafe). -/
def Mach.counterClear (m : Mach) (byPort : Option Port) (a : Nat) (w : Word) : Nat × Mach :=
  if bitsAt w 24 8 != bitsAt (m.reg a) 24 8 then (18, m)
  else (0, (m.noteClear byPort a).setReg a (m.reg a &&& 0xFF000000))

/-! ### Persistent store -/

/-- The bits that an access kind makes of a field: written, set, cleared, inverted (R89). -/
def aliasWord (k : AccessKind) (old w : Word) : Word :=
  match k with
  | .direct => w
  | .setBits => old ||| w
  | .clearBits => old &&& ~~~w
  | .toggleBits => old ^^^ w

/-- The stored word of a register after a write: its RW and P fields by the access kind, its LK fields by a direct write (R98).
Log entry 128 (DESIGN CHOICE, unsafe). -/
def RegDef.written (d : RegDef) (k : AccessKind) (old w : Word) : Word :=
  let wr := d.rw ||| d.pp ||| (match k with
    | .direct => d.lk
    | _ => 0)
  (old &&& ~~~wr) ||| (aliasWord k old w &&& wr)

/-- The access kind of a 16-bit address (R89).
Log entry 16 (DEDUCED, unsafe). -/
def kindOf (addr : Nat) : AccessKind :=
  match addr / 0x4000 with
  | 0 => .direct
  | 1 => .setBits
  | 2 => .clearBits
  | _ => .toggleBits

/-- The P bits of a register; 0 where it has none. -/
def persistMask (a : Nat) : Word :=
  match regDef a with
  | some d => d.pp
  | none => 0

/-- A register holds a P field. -/
def holdsP (a : Nat) : Bool := persistMask a ≠ 0

/-- A port holds an accepted word for a gated block that will change a P field (R117, R133). -/
def Mach.heldPersist (m : Mach) (p : Port) : Bool :=
  (m.port p).held.any (fun h =>
    match regDef (h.1 % 0x4000) with
    | some d =>
      let old := m.reg (h.1 % 0x4000)
      decide ((d.written (kindOf h.1) old h.2 ^^^ old) &&& d.pp ≠ 0)
    | none => false)

/-- The controller holds a persistent write of a port or of a Wilone command, from its acceptance on (R119).
Log entry 22 (DEDUCED, unsafe). -/
def Mach.busy (m : Mach) : Bool := m.nv.write.isSome || m.heldPersist .a || m.heldPersist .b

/-! ### Blocks that answer (R130 to R134) -/

/-- The test that isolates a block (R697, R700). -/
def blockTest (b : Nat) : Option Nat :=
  match b with
  | 3 => some 0
  | 11 => some 0
  | 6 => some 1
  | 12 => some 3
  | 4 => some 4
  | 5 => some 4
  | 8 => some 4
  | 9 => some 5
  | 7 => some 6
  | _ => none

/-- A block does not answer: 1 DOMAIN_OFF (R130), 14 SELFTEST (R134).
Log entry 49 (DEDUCED, unsafe). -/
def Mach.blockCode (m : Mach) (b : Nat) : Nat :=
  if !m.on (blockDomain b) then 1
  else match blockTest b with
    | some t => if m.testing t then 14 else 0
    | none => 0

/-- The ports under test (R698). -/
def portsTested (r : TestRun) : List Port :=
  match r.byPort with
  | some p => [p.other]
  | none => [.a, .b]

/-- A port is under test now (R698). -/
def Mach.portTested (m : Mach) (p : Port) : Bool :=
  match m.bist.run with
  | some r => m.testing 2 && (portsTested r).contains p
  | none => false

/-- The registers of a port's own (R148, R211). -/
def portRegs (p : Port) (a : Nat) : Bool :=
  (decide (portBase p ≤ a) && decide (a < portBase p + 0x20)) || a = accLast p || a = accLocked p

/-- An access does not answer: its block does not, or it names a register of a port under test (R134, R698, R700).
Log entry 49 (DEDUCED, unsafe). -/
def Mach.accessCode (m : Mach) (b : Nat) (as : List Nat) : Nat :=
  if m.blockCode b ≠ 0 then m.blockCode b
  else if [Port.a, Port.b].any (fun p => m.portTested p && as.any (portRegs p)) then 14
  else 0

/-- `ACC_x_LAST` of a port's access that completed with a code other than OK (R148).
Log entry 24 (DEDUCED, unsafe). -/
def Mach.noteAccess (m : Mach) (ag : Agent) (code addr : Nat) : Mach :=
  match ag with
  | .port p => if code = 0 then m else m.setReg (accLast p) (word (addr * 2 ^ 16 + code))
  | _ => m

/-- An access restarts a block's clock (R131).
Log entry 20 (DEDUCED, unsafe). -/
def Mach.touch (m : Mach) (b : Nat) : Mach :=
  { m with regs := { m.regs with gated := m.regs.gated.filter (fun x => x != b)
                                 lastAccess := m.regs.lastAccess.filter (fun p => p.1 != b) ++ [(b, m.clk.now)] } }

/-- A block's clock is gated (R131).
Log entry 20 (DEDUCED, unsafe). -/
def Mach.isGated (m : Mach) (b : Nat) : Bool := m.regs.gated.contains b

/-! ### The running firmware (R10, R11) -/

/-- The image of the running slot. -/
def Mach.running (m : Mach) : Slot := if m.nv.runB then m.nv.slotB else m.nv.slotA

/-- `ID_FW` (R10, R662): the version in the running image. -/
def Mach.idFw (m : Mach) : Word := word (bytesNat ((m.running.image.drop 8).take 4))

/-- The protocol level of the running firmware (R10): that of the blocks the part writes and of its fleet (R11). -/
def Mach.ownLevel (m : Mach) : Nat := bitsAt m.idFw 24 8

/-! ### Semaphores (R199 to R204) -/

/-- The semaphore that binds a block (R198's table); none for a block that none binds. -/
def blockSem (b : Nat) : Option Nat :=
  match b with
  | 2 => some 10
  | 3 => some 0
  | 4 => some 1
  | 5 => some 2
  | 6 => some 3
  | 7 => some 4
  | 8 => some 5
  | 9 => some 6
  | 10 => some 7
  | 11 => some 8
  | 12 => some 9
  | _ => none

/-- The semaphores a port holds, those of its executing command included. -/
def Mach.semsOf (m : Mach) (p : Port) : BitVec 16 := (m.port p).sems ||| (m.port p).semsCmd

/-- Whether the port other than `p` holds semaphore `n`. -/
def Mach.semOther (m : Mach) (p : Port) (n : Nat) : Bool := (m.semsOf p.other).getLsbD n

/-- A claim of semaphores for a port (R199): refused as a whole when the other port holds one of them; one that the port holds
already, be it for its executing command, stays as it is. -/
def Mach.semClaim (m : Mach) (p : Port) (bits : BitVec 16) : Nat × Mach :=
  if bits &&& m.semsOf p.other ≠ 0 then (5, m)
  else (0, m.updPort p (fun s => { s with sems := s.sems ||| (bits &&& ~~~s.semsCmd) }))

/-- A release of semaphores that a port holds (R200). -/
def Mach.semRelease (m : Mach) (p : Port) (bits : BitVec 16) : Mach :=
  m.updPort p (fun s => { s with sems := s.sems &&& ~~~bits, semsCmd := s.semsCmd &&& ~~~bits })

/-! ### Ends of a step -/

/-- A command that goes on: the block in its new state, the waiting commands as they were.
Log entry 11 (DEDUCED, safe). -/
def goOn (s : State) (m : Mach) : Host.Outcome State Fault Refusal := .next { s with m := m }

end Sys2Proof.Machine
end

