-- ==== Sys2Proof/Machine/Queue.lean ====
section
/-! DEFINITION. The deep buffer: words, blocks, queues, their policies and their records in Q3 (R510 to R557). -/

namespace Sys2Proof.Machine

/-! ### Queues and their registers -/

/-- Queue `q`. -/
def Mach.q (m : Mach) (q : Nat) : Queue := m.buf.queues.getD q Queue.none

/-- Queue `q` changed. -/
def Mach.updQ (m : Mach) (q : Nat) (f : Queue → Queue) : Mach :=
  { m with buf := { m.buf with queues := listUpd m.buf.queues q f } }

/-- The address of `Qn_CFG` (R555). -/
def qBase (q : Nat) : Nat := 0x1C40 + 32 * q

/-- `Qn_CFG.POLICY`: 0 STOP, 1 OVERWRITE, 2 CAPTURE. -/
def Mach.qPolicy (m : Mach) (q : Nat) : Nat := m.fld (qBase q) 8 2

/-- `Qn_CAP.PRE`. -/
def Mach.qPre (m : Mach) (q : Nat) : Nat := m.fld (qBase q + 4) 0 12

/-- `Qn_CAP.POST`. -/
def Mach.qPost (m : Mach) (q : Nat) : Nat := m.fld (qBase q + 4) 16 12

/-- The blocks of a queue's ring; retired banks are not counted (R707). -/
def Queue.ring (q : Queue) : Nat := 32 * (q.banks - q.skip.length)

/-- A ring position, or the next one after it that lies in no retired bank; `k` bounds the banks passed. -/
def Queue.settle (s : Queue) (p : Nat) : Nat → Nat
  | 0 => p
  | k + 1 => if s.skip.contains (p / 32) then s.settle (32 * (p / 32 + 1) % (32 * s.banks)) k else p

/-- The ring position after the open block's. -/
def Queue.advance (s : Queue) : Nat := s.settle ((s.ringPos + 1) % (32 * s.banks)) s.banks

/-- The block number of the queue's open block (R39). -/
def Queue.openNo (q : Queue) : Nat := 32 * q.bank0 + q.ringPos

/-- The next place in the ring holds a closed unread block. -/
def Queue.blocked (q : Queue) : Bool := q.unread.any (fun b => b.blockNo == q.openNo)

/-- A queue's drain is assigned to a port (R541). -/
def Mach.qDrain (m : Mach) (q : Nat) (p : Port) : Bool :=
  m.flag (qBase q) (match p with
    | .a => 12
    | .b => 13)

/-- A status event of a queue. -/
def Mach.qStat (m : Mach) (q i : Nat) : Mach := m.sqBit (qBase q + 0x1C) i

/-- A bit of `x_INTSRC` on the ports a queue is assigned to. -/
def Mach.intDrains (m : Mach) (q i : Nat) : Mach :=
  let m := if m.qDrain q .a then m.intBit .a i else m
  if m.qDrain q .b then m.intBit .b i else m

/-! ### Timing records (R517, R518) -/

/-- Group `g` (12: the ACF resampler chains). -/
def Mach.grp (m : Mach) (g : Nat) : GroupState := m.flt.groups.getD g GroupState.idle

/-- Group `g` changed. -/
def Mach.updGrp (m : Mach) (g : Nat) (f : GroupState → GroupState) : Mach :=
  { m with flt := { m.flt with groups := listUpd m.flt.groups g f } }

/-- The first channel code of a group (R513, R517). -/
def groupCode (g : Nat) : Nat := if g < 4 then 3 * g else g + 6

/-- The group of a channel code (R513). -/
def codeGroup (c : Nat) : Nat := if c < 9 then c / 3 else if c = 9 then 3 else c - 6

/-- The queue of a group: Q0 the motion groups, Q2 TMP and the aux groups (R513). -/
def groupQueue (g : Nat) : Nat := if g < 3 then 0 else 2

/-- Aux channel `n` runs as the companion of the channel below it (R408).
Log entry 75 (DEDUCED, unsafe). -/
def Mach.companion (m : Mach) : Nat → Bool
  | 0 => false
  | n + 1 => m.flag (0x1800 + 64 * n) 31 && m.fld (0x1808 + 64 * n) 0 2 == 2 && !m.companion n

/-- The configuration in force of aux channel `n` (R390), or one of no channel. -/
def Mach.auxCfg (m : Mach) (n : Nat) : AuxCfg := (m.aux.chans.getD n AuxChan.empty).cfg

/-- A configuration under which a channel converts: enabled, or a companion (R390, R408). -/
def AuxCfg.active (c : AuxCfg) : Bool := bitAt c.cfg 31 || c.comp

/-- A configuration in companion mode (R407). -/
def AuxCfg.hosts (c : AuxCfg) : Bool := bitAt c.cfg 31 && bitsAt c.lin 0 2 == 2 && !c.comp

/-- The word whose `RATE` and `EXC` hold: a companion takes those of the channel below it (R408). -/
def AuxCfg.timing (c : AuxCfg) : Word := if c.comp then c.hostCfg else c.cfg

/-- A channel converts: enabled, or a companion (R390, R408). -/
def Mach.auxActive (m : Mach) (n : Nat) : Bool := (m.auxCfg n).active

/-- A group's outputs are delivered: the enable bit of a motion group (R267); an aux channel that is enabled or a companion by the
configuration in force (R390, R408); the ACF resampler chains always. -/
def Mach.grpEnabled (m : Mach) (g : Nat) : Bool :=
  if g < 4 then m.flag 0x0C00 g
  else if g < 12 then m.auxActive (g - 4)
  else true

/-- A group's chain is delivering to its queue. -/
def Mach.grpDelivers (m : Mach) (g : Nat) : Bool :=
  (m.grp g).started && m.grpEnabled g && m.on 3 && m.on (if g < 4 then 1 else 2)

/-- A timing record is owed before a group's next output; the lowest reason that holds counts (R518).
Log entry 67 (DEDUCED, unsafe). -/
def Mach.oweTiming (m : Mach) (g r : Nat) : Mach :=
  m.updGrp g (fun s => { s with timing := some (match s.timing with
    | some k => min k r
    | .none => r) })

/-- The four words of a group's timing record (R517).
Log entry 67 (DEDUCED, unsafe). -/
def Mach.timingWords (m : Mach) (g r : Nat) : List Word :=
  let s := m.grp g
  [word (0x04000000 + groupCode g * 2 ^ 19 + r * 2 ^ 16 + 28),
   (if g < 4 then word ((s.period / 64) % 2 ^ 24 * 256 + 28)
    else word (bitsAt (m.auxCfg (g - 4)).timing 24 4 * 2 ^ 28 + (s.period - 1) % 2 ^ 16 * 256 + 28)),
   word (s.nextOut / 2 ^ 24 % 2 ^ 24 * 256 + 30),
   word (s.nextOut % 2 ^ 24 * 256 + 32 + 30)]

/-- The groups that deliver to a queue. -/
def Mach.delivering (m : Mach) (q : Nat) : List Nat :=
  (List.range 12).filter (fun g => groupQueue g = q && m.grpDelivers g)

/-- The timing records at the start of a block whose sequence is a multiple of 256 (R518). -/
def Mach.startTiming (m : Mach) (q : Nat) : List Word :=
  (m.delivering q).flatMap (fun g => m.timingWords g ((m.grp g).timing.getD 3))

/-! ### Blocks (R521 to R527) -/

/-- The flags of a block that its words give (R522): UNS, CLP and BLK of codes 0 to 20 and 27. -/
def wordFlags (ws : List Word) : Nat :=
  let s := ws.filter (fun w => decide (bitsAt w 0 5 ≤ 20) || decide (bitsAt w 0 5 = 27))
  (if s.any (fun w => bitAt w 7) then 16 else 0) + (if s.any (fun w => bitAt w 6) then 32 else 0) +
    (if s.any (fun w => bitAt w 5) then 64 else 0)

/-- The channel map of a block (R521). -/
def channelMap (ws : List Word) : Word :=
  ws.foldl (fun a w => if bitsAt w 0 5 = 31 then a else a ||| bitMask (bitsAt w 0 5)) 0

/-- The four words of a 128-bit value. -/
def words128 (d : BitVec 128) : List Word :=
  [d.extractLsb' 96 32, d.extractLsb' 64 32, d.extractLsb' 32 32, d.extractLsb' 0 32]

/-- The header and payload of a block, filled with filler words (R521, R525): bytes 0 to 4,063.
`pl`: the protocol level, which is the format version (R11).
Log entry 90 (DEDUCED, unsafe). -/
def blockHead (pl : Nat) (isSeal : Bool) (q seq firstTs flags : Nat) (prev : BitVec 128) (map : Word) (payload : List Word) : List Word :=
  [word (0x4E4C0000 + pl * 256 + (if isSeal then 16 else 0) + q), Config.serial.extractLsb' 32 32, Config.serial.extractLsb' 0 32,
   hiWord seq, loWord seq, hiWord firstTs, loWord firstTs, word (payload.length * 65536 + flags)] ++
  words128 prev ++ [map, 0, 0, 0] ++ payload ++ List.replicate (1000 - payload.length) 0x0000001F

/-- The block with its MAC and CRC-32 (R523). -/
def sealWords (key : BitVec 256) (ws : List Word) : List Word :=
  let ws := ws ++ words128 (firstHalf (hmac (digestBytes key) (wordsBytes ws)))
  ws ++ [crc32 (wordsBytes ws), 0, 0, 0]

/-! ### Buffer records (R545 to R548) -/

/-- The four words of a record unit (R448, R514). -/
def unitWords (ts code source inst : Nat) (value : Word) : List Word :=
  [hiWord ts, loWord ts, word (code * 65536 + source * 256 + inst), value]

/-- The words of a gap record or CAPTURED record. -/
def GapRec.toWords (g : GapRec) : List Word :=
  if g.kind = 0x100 then unitWords g.ts 0x8201 0xF0 g.queue (loWord g.first)
  else unitWords g.ts (0x8100 + g.kind) 0xF0 g.queue (word (min g.count 0xFFFFFFFF)) ++
    [hiWord (g.first % 2 ^ 48), loWord g.first, word (0x81FFF000 + g.queue), word g.detail]

/-- Whether a further loss adds to a pending record: the same kind and queue, and for LOST the same bank (R28). -/
def GapRec.sameAs (g h : GapRec) : Bool :=
  g.kind == h.kind && g.queue == h.queue && (g.kind != 3 || g.detail % 128 == h.detail % 128)

/-- A pending record with a further loss (R28). -/
def GapRec.add (g h : GapRec) : GapRec :=
  { g with count := g.count + h.count, detail := if g.kind = 4 then min 0xFFFFFFFF (g.detail + h.detail) else g.detail }

/-- The pending records with one more (R28).
Log entry 80 (DEDUCED, unsafe). -/
def addPending (l : List GapRec) (h : GapRec) : List GapRec :=
  if l.any (fun g => g.sameAs h) then l.map (fun g => if g.sameAs h then g.add h else g) else l ++ [h]

/-! ### Moves of the read pointer -/

/-- The absolute word position of a queue's read pointer (R175). -/
def Queue.readPos (q : Queue) : Nat :=
  1024 * (match q.unread with
    | b :: _ => b.absPos
    | [] => q.absNext)

/-- A port's stores without those a predicate on (queue, position) condemns (R180). -/
def PortState.dropStores (f : Nat → Nat → Bool) (s : PortState) : PortState :=
  let keep := fun (o : Option StreamStore) => match o with
    | some st => if st.words.any (fun w => f st.queue w.1) then Option.none else some st
    | .none => .none
  { s with store0 := keep s.store0, store1 := keep s.store1 }

/-- Both ports' stores without those condemned.
Log entry 32 (DEDUCED, unsafe). -/
def Mach.dropStores (m : Mach) (f : Nat → Nat → Bool) : Mach :=
  { m with pa := m.pa.dropStores f, pb := m.pb.dropStores f }

/-- Both stores of both ports are discarded, and fills stop, when D4 leaves ON (R180). -/
def Mach.emptyStores (m : Mach) : Mach :=
  let drop := fun (s : PortState) => { s with store0 := .none, store1 := .none, fill := .none }
  { m with pa := drop m.pa, pb := drop m.pb }

/-- Stores that hold a word the read pointer of `q` has passed are discarded (R180). -/
def Mach.passStores (m : Mach) (q : Nat) : Mach :=
  m.dropStores (fun k pos => k == q && decide (pos < (m.q q).readPos))

/-- A policy or a lost bank has moved the read pointer of `q` (R539): POLMOVE, and COMMITs are refused until a port has a
STREAM_READ served.
Log entry 34 (DEDUCED, unsafe). -/
def Mach.movedBy (m : Mach) (q : Nat) : Mach :=
  let set := fun (s : PortState) => { s with moved := s.moved ||| BitVec.ofNat 5 (2 ^ q) }
  (((m.updPort .a set).updPort .b set).passStores q).qStat q 6

/-- One more block in a run of discards (R534, R547). -/
def DiscRun.more (r : Option DiscRun) (seq now ts : Nat) : DiscRun :=
  match r with
  | some d => { d with count := d.count + 1 }
  | .none => ⟨1, seq, now, ts⟩

/-- The oldest closed unread block is discarded by OVERWRITE (R533) or, while ARMED, by the pre-trigger limit (R534).
Log entry 93 (DEDUCED, unsafe). -/
def Mach.discardOldest (m : Mach) (q : Nat) (armed : Bool) : Mach :=
  match (m.q q).unread with
  | [] => m
  | b :: _ =>
    let m := m.updQ q (fun s =>
      if armed then { s with unread := s.unread.tail, pretrim := some (DiscRun.more s.pretrim b.seq m.clk.now m.ts) }
      else { s with unread := s.unread.tail, discRun := some (DiscRun.more s.discRun b.seq m.clk.now m.ts) })
    (m.movedBy q).qStat q 2

/-- Discards of the oldest blocks until at most `n` are left; `k` bounds their number. -/
def Mach.discardDown (m : Mach) (q n : Nat) : Nat → Mach
  | 0 => m
  | k + 1 => if n < (m.q q).unread.length then (m.discardOldest q true).discardDown q n k else m

/-! ### Closing a block (R521 to R529, R689) -/

/-- The reservation boundary advances when a next sequence reaches B − 2,048 (R689).
Log entries 91 (DEDUCED, unsafe), 93 (DEDUCED, unsafe). -/
def Mach.reserve (m : Mach) (q : Nat) : Mach :=
  if q < 4 && decide (m.nv.boundary ≤ (m.q q).nextSeq + 2048) then
    { m with nv := { m.nv with boundary := m.nv.boundary + 4096 } }
  else m

/-- The blocks of Q3 that event records may not fill under STOP (R543).
Log entry 93 (DEDUCED, unsafe). -/
def reserveBlocks (q : Nat) : Nat := if q = 3 then 2 else 0

/-- A queue under STOP is full: its ring, or for Q3 all but the reserve, holds closed unread blocks (R533, R543).
Log entry 92 (DEDUCED, unsafe). -/
def Queue.stopFull (s : Queue) (q : Nat) : Bool :=
  s.blocked || decide (s.ring ≤ s.unread.length + reserveBlocks q)

/-- The queue enters FULL (R533).
Log entry 92 (DEDUCED, unsafe). -/
def Mach.enterFull (m : Mach) (q : Nat) : Mach :=
  (m.updQ q (fun s => { s with run := .full })).qStat q 1

/-- What a close does to a capture (R536): the POST blocks after the trigger block carry CAPT, then FROZEN.
Log entry 96 (DEDUCED, unsafe). -/
def Mach.captureClose (m : Mach) (q : Nat) (trig capt isSeal : Bool) : Mach :=
  let s := m.q q
  if s.run = .capturing && capt && !isSeal then
    if trig then
      if s.postLeft = 0 then (m.updQ q (fun s => { s with run := .frozen })).qStat q 4
      else m.updQ q (fun s => { s with captBlocks := true })
    else if s.postLeft ≤ 1 then
      (m.updQ q (fun s => { s with run := .frozen, postLeft := 0, captBlocks := false })).qStat q 4
    else m.updQ q (fun s => { s with postLeft := s.postLeft - 1 })
  else m

/-- The watermark is reached when the closed unread blocks rise to `Qn_WM` (R542). -/
def Mach.watermark (m : Mach) (q before : Nat) : Mach :=
  let w := m.fld (qBase q + 8) 0 13
  if w ≠ 0 && decide (before < w) && decide (w ≤ (m.q q).unread.length) then (m.qStat q 0).intDrains q (8 + q) else m

/-- A block of `q` closes: its sequence, flags, digest, MAC and CRC-32 (R521 to R527); what follows for the policy, the
watermark, the reservation and the COUNT seal. `filled`: its 1,000th word was written.
Log entries 90 (DEDUCED, unsafe), 99 (DEDUCED, unsafe). -/
def Mach.closeWith (m : Mach) (q : Nat) (isSeal : Bool) (firstTs : Nat) (trig capt filled : Bool) (payload : List Word) : Mach :=
  let s := m.q q
  let before := s.unread.length
  let flags := (if payload.length < 1000 then 1 else 0) + (if capt then 2 else 0) + (if trig then 4 else 0) +
    (if s.startFlag then 8 else 0) + (if q < 3 then wordFlags payload else 0)
  let head := blockHead m.ownLevel isSeal q s.nextSeq firstTs flags (s.head.getD 0) (if q < 3 then channelMap payload else 0) payload
  let data := sealWords m.sec.inForce.key head
  let hash := sha256 (wordsBytes data)
  let b : Block := ⟨s.openNo, s.nextSeq, s.absNext, data, false, m.clk.now, 0⟩
  let m := m.updQ q (fun s =>
    { s with unread := s.unread ++ [b], ringPos := s.advance, absNext := s.absNext + 1,
             nextSeq := s.nextSeq + 1, head := some (firstHalf hash), lastHash := hash, lastSeq := some b.seq,
             startFlag := false, sealClosed := s.sealClosed + (if isSeal then 0 else 1), countClosed := s.countClosed + 1 })
  let m := m.reserve q
  let m := m.captureClose q trig capt isSeal
  let m := if (m.q q).run = .armed then m.discardDown q (m.qPre q) (before + 1) else m
  let m := m.watermark q before
  let m :=
    if (m.q q).run = .run then
      if m.qPolicy q = 0 then
        if (filled || q = 3) && (m.q q).stopFull q then m.enterFull q else m
      else if filled && (m.q q).blocked then m.discardOldest q false else m
    else m
  if 256 ≤ (m.q q).countClosed then { m with sec := { m.sec with reasons := m.sec.reasons ||| 1 } } else m

/-- The open block of `q` closes; an empty one does not exist (R526). -/
def Mach.closeOpen (m : Mach) (q : Nat) (filled : Bool) : Mach :=
  match (m.q q).openBlk with
  | .none => m
  | some o =>
    (m.updQ q (fun s => { s with openBlk := .none })).closeWith q false o.firstTs o.trig o.capt filled o.words.reverse

/-- The open blocks of Q0 to Q3 close (R528). -/
def Mach.closeAll (m : Mach) : Mach := [0, 1, 2, 3].foldl (fun m q => m.closeOpen q false) m

/-! ### Words into a queue -/

/-- A block opens with its first word still to come (R526); it carries CAPT in a capture's POST blocks (R536). -/
def Mach.openBlock (m : Mach) (q : Nat) : Mach :=
  match (m.q q).openBlk with
  | some _ => m
  | .none =>
    let per := if (q = 0 || q = 2) && (m.q q).nextSeq % 256 = 0 then m.startTiming q else []
    let m := if per.isEmpty then m
      else (m.delivering q).foldl (fun m g => m.updGrp g (fun s => { s with timing := .none })) m
    m.updQ q (fun s => { s with openBlk := some ⟨per.reverse, m.ts, s.captBlocks && s.run = .capturing, false⟩ })

/-- One word at the end of the open block, which closes on its 1,000th (R528). The first word after the FOSC cycle of a trigger fixes the
trigger block and gives the CAPTURED record still to be written (R535). -/
def Mach.writeWord (m : Mach) (q : Nat) (w : Word) : Mach × List GapRec :=
  let m := m.openBlock q
  let s := m.q q
  let caps := match s.trigAt with
    | some t => if t = m.ts then [] else [⟨0x100, q, t, 0, s.nextSeq, 0⟩]
    | .none => []
  let m := m.updQ q (fun s =>
    { s with trigAt := (if caps.isEmpty then s.trigAt else .none), openBlk := s.openBlk.map (fun o =>
        { o with words := w :: o.words, trig := o.trig || !caps.isEmpty, capt := o.capt || !caps.isEmpty }) })
  match (m.q q).openBlk with
  | some o => if 1000 ≤ o.words.length then (m.closeOpen q true, caps) else (m, caps)
  | .none => (m, caps)

/-- An open block closes when its age has reached `TMO`, a number of seconds other than 0: at the moment, or at a write of `TMO` that
sets it to no more than that age (R528). -/
def Mach.blockTimeout (m : Mach) (q : Nat) : Mach :=
  let tmo := m.fld (qBase q) 24 8
  match (m.q q).openBlk with
  | some o => if m.taking && tmo ≠ 0 && decide (o.firstTs + tmo * second ≤ m.ts) then m.closeOpen q false else m
  | .none => m

/-- `n` words are counted in `Qn_DISCCNT`, and for the next seal (R656); outside D4 ON nothing is counted (R669). -/
def Mach.discCount (m : Mach) (q n : Nat) : Mach :=
  if m.on 4 then (m.countN (0x1D00 + 4 * q) n).updQ q (fun s => { s with sealDisc := s.sealDisc + n }) else m

/-- `n` words are discarded by a FULL or FROZEN queue (R533): counted, and kept for the gap record. -/
def Mach.discardWords (m : Mach) (q n : Nat) : Mach :=
  let m := m.updQ q (fun s => { s with
    discarded := some (match s.discarded with
      | some d => if d.count = 0 then ⟨n, m.ts⟩ else ⟨d.count + n, d.ts⟩
      | .none => ⟨n, m.ts⟩)
  })
  (m.discCount q n).qStat q 2

/-- The place for a new block is taken: what the policy does before the next word (R533).
Log entry 93 (DEDUCED, unsafe). -/
def Mach.makeRoom (m : Mach) (q : Nat) : Mach :=
  if (m.q q).openBlk.isNone && (m.q q).blocked then
    if m.qPolicy q = 0 then m.enterFull q else m.discardOldest q false
  else m

/-- One word offered to Q0, Q1 or Q2 (R532, R533). While the buffer takes no words it is not written. -/
def Mach.offerWord (m : Mach) (q : Nat) (w : Word) : Mach × List GapRec :=
  let owe := fun (m : Mach) => if bitsAt w 0 5 ≤ 17 then m.oweTiming (codeGroup (bitsAt w 0 5)) 2 else m
  if (m.q q).banks = 0 then (m.discCount q 1, [])
  else if !m.taking then (owe m, [])
  else
    let m := match (m.q q).run with
      | .run => m.makeRoom q
      | .armed => m.makeRoom q
      | .capturing => m.makeRoom q
      | _ => m
    match (m.q q).run with
    | .run => m.writeWord q w
    | .armed => m.writeWord q w
    | .capturing => m.writeWord q w
    | _ => (owe (m.discardWords q 1), [])

/-- Words offered in order, with the CAPTURED records they give. -/
def Mach.offerList (m : Mach) (q : Nat) : List Word → Mach × List GapRec
  | [] => (m, [])
  | w :: ws =>
    let (m, c) := m.offerWord q w
    let (m, cs) := m.offerList q ws
    (m, c ++ cs)

/-! ### Records into Q3 (R516, R543) -/

/-- Words written at the end of Q3's open block, one by one. -/
def Mach.writeList (m : Mach) : List Word → Mach × List GapRec
  | [] => (m, [])
  | w :: ws =>
    let (m, c) := m.writeWord 3 w
    let (m, cs) := m.writeList ws
    (m, c ++ cs)

/-- The open Q3 block closes short when the record does not fit (R516). -/
def Mach.fitRecord (m : Mach) (n : Nat) : Mach :=
  match (m.q 3).openBlk with
  | some o => if 1000 < o.words.length + n then m.closeOpen 3 false else m
  | .none => m

/-- Q3 takes a record now: an event record needs more than the reserve, a buffer record any block (R543). -/
def Queue.takesRecord (s : Queue) (policy : Nat) (event : Bool) : Bool :=
  match s.run with
  | .noBanks => false
  | .frozen => false
  | .full => !event && !s.blocked && decide (s.unread.length < s.ring)
  | _ =>
    if policy = 0 then
      !s.blocked && decide (s.unread.length + (if event then 2 else 0) < s.ring)
    else true

/-- The source byte of the unit that stands last in a payload, newest word first (R448). -/
def tailSource (ws : List Word) : Nat := bitsAt (ws.getD 1 0) 8 8

/-- The units at the end of a payload, newest word first, whose source byte is above `src`, at most `n` of them: their words. -/
def tailAbove (src : Nat) : Nat → List Word → Nat
  | 0, _ => 0
  | n + 1, ws => if 4 ≤ ws.length && decide (src < tailSource ws) then 4 + tailAbove src n (ws.drop 4) else 0

/-- The units of this FOSC cycle at the end of Q3's open block (R451). -/
def Mach.q3Now (m : Mach) : Nat :=
  if m.buf.q3Tail.1 = m.clk.now && (m.q 3).openBlk.isSome then m.buf.q3Tail.2 else 0

/-- Records of one FOSC cycle stand in source-byte order (R451): those of the cycle that must follow the record with these words leave
the open block. -/
def Mach.takeAfter (m : Mach) (ws : List Word) : Mach × List Word :=
  match (m.q 3).openBlk with
  | some o =>
    let k := tailAbove (bitsAt (ws.getD 2 0) 8 8) m.q3Now o.words
    (m.updQ 3 (fun s => { s with openBlk := some { o with words := o.words.drop k } }), (o.words.take k).reverse)
  | .none => (m, [])

/-- Records written before now do not move any more (R451). -/
def Mach.q3Fix (m : Mach) : Mach := { m with buf := { m.buf with q3Tail := (m.clk.now, 0) } }

/-- A record for Q3: written whole into one block, or discarded (R516, R543), among those of its FOSC cycle in source-byte order
(R451). The Bool says whether it was written. -/
def Mach.recordQ3 (m : Mach) (event : Bool) (ws : List Word) : Mach × Bool × List GapRec :=
  let m := m.fitRecord ws.length
  let m := if m.qPolicy 3 = 0 || (m.q 3).run = .frozen then m else m.makeRoom 3
  if (m.q 3).takesRecord (m.qPolicy 3) event then
    let n := m.q3Now
    let (m, after) := m.takeAfter ws
    let (m, c) := m.writeList (ws ++ after)
    ({ m with buf := { m.buf with q3Tail := (m.clk.now, n + ws.length / 4) } }, true, c)
  else if event then
    let m := if (m.q 3).run = .run then m.enterFull 3 else m
    (m.discardWords 3 ws.length, false, [])
  else
    let m := if (m.q 3).run = .frozen then m else m.sqBit 0x1C04 2
    (((m.discCount 3 ws.length).qStat 3 2), false, [])

/-- A gap record written is counted for the next seal (R656). -/
def Mach.gapWritten (m : Mach) (g : GapRec) : Mach :=
  if g.kind = 0x100 then m else m.updQ g.queue (fun s => { s with sealGaps := s.sealGaps + 1 })

/-- A buffer record written into Q3 now. -/
def Mach.writeGap (m : Mach) (g : GapRec) : Mach :=
  let (m, ok, cs) := m.recordQ3 false g.toWords
  let m := if ok then m.gapWritten g else m
  cs.foldl (fun m c => (m.recordQ3 false c.toWords).1) m

/-- The buffer records that waited in D0, in the order in which they were raised (R28). -/
def Mach.flushGaps (m : Mach) : Mach :=
  if m.taking then
    let gs := m.buf.pendingGaps
    let m := gs.foldl Mach.writeGap { m with buf := { m.buf with pendingGaps := [] } }
    if gs.isEmpty then m else m.q3Fix
  else m

/-- A buffer record into Q3, after those that waited; while the buffer takes no words it waits in D0 (R28). -/
def Mach.putGap (m : Mach) (g : GapRec) : Mach :=
  if m.taking then m.flushGaps.writeGap g
  else { m with buf := { m.buf with pendingGaps := addPending m.buf.pendingGaps g } }

/-- Several buffer records, in order. -/
def Mach.putGaps (m : Mach) (gs : List GapRec) : Mach := gs.foldl Mach.putGap m

/-- Queue `q` writes the words it is offered (R533). -/
def Mach.accepts (m : Mach) (q : Nat) : Bool :=
  m.taking && (match (m.q q).run with
    | .run => true
    | .armed => true
    | .capturing => true
    | _ => false)

/-- Words offered to Q0, Q1 or Q2, and the CAPTURED records that follow.
Log entry 67 (DEDUCED, unsafe). -/
def Mach.offer (m : Mach) (q : Nat) (ws : List Word) : Mach :=
  let (m, cs) := m.offerList q ws
  m.putGaps cs

/-! ### Ends of a loss -/

/-- The gap record for the words a queue discarded, when words are written again (R533, R537, R543): STOPPED, and for Q3
DROP with its count of records. With none discarded the instant at which the loss began is open.
Log entry 94 (DEDUCED, safe). -/
def Mach.gapStopped (m : Mach) (q : Nat) : Mach :=
  let s := m.q q
  let (t0, m) := match s.discarded with
    | some d => if d.count = 0 then
        let (x, m) := m.drawNat
        (x % 2 ^ 64, m) else (d.ts, m)
    | .none =>
      let (x, m) := m.drawNat
      (x % 2 ^ 64, m)
  let n := match s.discarded with
    | some d => d.count
    | .none => 0
  let m := m.updQ q (fun s => { s with discarded := .none })
  if q = 3 then m.putGap ⟨5, 3, t0, n / 4, (m.q 3).nextSeq, 0⟩
  else m.putGap ⟨4, q, t0, n, (m.q q).nextSeq, if n = 0 then 0 else min 0xFFFFFFFF ((m.ts - t0) / 1024)⟩

/-- The groups that deliver to a queue owe a timing record (R518).
Log entry 67 (DEDUCED, unsafe). -/
def Mach.oweAll (m : Mach) (q r : Nat) : Mach := (m.delivering q).foldl (fun m g => m.oweTiming g r) m

/-- A queue starts taking words: every group of it owes a timing record before its first output (R518). -/
def Mach.oweStart (m : Mach) (q : Nat) : Mach :=
  ((List.range 12).filter (fun g => groupQueue g = q)).foldl (fun m g => m.oweTiming g 0) m

/-- A FULL queue returns to RUN when a block is free again (R533, R543).
Log entry 92 (DEDUCED, unsafe). -/
def Mach.resume (m : Mach) (q : Nat) : Mach :=
  if (m.q q).run = .full && !(m.q q).stopFull q then
    ((m.updQ q (fun s => { s with run := .run })).gapStopped q).oweAll q 2
  else m

/-- The OVERWRITE record of a run of discards (R547).
Log entry 93 (DEDUCED, unsafe). -/
def Mach.endRun (m : Mach) (q : Nat) : Mach :=
  match (m.q q).discRun with
  | .none => m
  | some d => (m.updQ q (fun s => { s with discRun := .none })).putGap ⟨1, q, d.ts, d.count, d.first, 0⟩

/-- The PRETRIM record, written when a queue leaves ARMED (R534); its instant is open when nothing was discarded.
Log entry 94 (DEDUCED, safe). -/
def Mach.gapPretrim (m : Mach) (q : Nat) : Mach :=
  match (m.q q).pretrim with
  | some d => (m.updQ q (fun s => { s with pretrim := .none })).putGap ⟨2, q, d.ts, d.count, d.first, 0⟩
  | .none =>
    let (x, m) := m.drawNat
    m.putGap ⟨2, q, x % 2 ^ 64, 0, (m.q q).nextSeq, 0⟩

/-! ### Captures (R535 to R538) -/

/-- A capture trigger reaches a queue (R535): ARMED enters CAPTURING, CAPTURING and FROZEN ignore it.
Log entry 96 (DEDUCED, unsafe). -/
def Mach.trigger (m : Mach) (q : Nat) : Mach :=
  match (m.q q).run with
  | .armed =>
    let m := m.updQ q (fun s =>
      { s with run := .capturing, trigAt := some m.ts, postLeft := m.qPost q, captBlocks := false })
    (m.qStat q 3).gapPretrim q
  | .capturing => if (m.q q).trigAt = some m.ts then m else m.qStat q 5
  | .frozen => m.qStat q 5
  | _ => m

/-- REARM (R537): every unread block is discarded and the queue is ARMED; outside CAPTURE it has no effect.
Log entry 96 (DEDUCED, unsafe). -/
def Mach.rearm (m : Mach) (q : Nat) : Mach :=
  let s := m.q q
  if m.qPolicy q = 2 && s.run ≠ .noBanks then
    let n := s.unread.length
    let first := match s.unread with
      | b :: _ => b.seq
      | [] => s.nextSeq
    let m := if n = 0 then m
      else ((m.updQ q (fun s => { s with unread := [] })).movedBy q).qStat q 2
    let m := if n = 0 then m else m.putGap ⟨1, q, m.ts, n, first, 0⟩
    let m := if s.run = .frozen then (m.gapStopped q).oweAll q 2 else m
    m.updQ q (fun s => { s with run := .armed, trigAt := .none, postLeft := 0, captBlocks := false })
  else m

/-- A change of POLICY (R538): `old` the policy before, the register already holding the new one. -/
def Mach.policyChange (m : Mach) (q old : Nat) : Mach :=
  let new := m.qPolicy q
  let was := (m.q q).run
  if new = old || was = .noBanks then m
  else
    let full := new = 0 && (m.q q).stopFull q && (m.q q).openBlk.isNone
    let m := if was = .armed then m.gapPretrim q else m
    let m := m.updQ q (fun s =>
      { s with run := if new = 2 then .armed else if full then .full else .run, trigAt := .none, postLeft := 0,
               captBlocks := false, pretrim := .none })
    if (was = .full || was = .frozen) && !full then (m.gapStopped q).oweAll q 2 else m

/-! ### COMMIT (R181, R533, R539) -/

/-- The closed blocks of the readable region (R175): those before the first that is not readable yet.
Log entry 90 (DEDUCED, unsafe). -/
def Queue.readable (s : Queue) : List Block := s.unread.takeWhile (fun b => b.readable)

/-- A COMMIT of Q3 releases the newest event records of the blocks it passes (R691). -/
def Mach.releaseStaged (m : Mach) (seq : Nat) : Mach :=
  { m with evt := { m.evt with staged := m.evt.staged.filter (fun r => match r.2 with
      | some k => decide (seq < k)
      | .none => true) } }

/-- A COMMIT takes effect (R181): the read pointer advances by `n` blocks. -/
def Mach.commitBlocks (m : Mach) (q n : Nat) : Mach :=
  let m := match ((m.q q).unread.take n).getLast? with
    | some b => if q = 3 then m.releaseStaged b.seq else m
    | .none => m
  let m := (m.updQ q (fun s => { s with unread := s.unread.drop n })).passStores q
  (m.endRun q).resume q

/-! ### Allocation (R531) -/

/-- The banks that the `BANKS` fields ask for: the first bank and the number, by queue. -/
def Mach.allocation (m : Mach) (q : Nat) : Nat × Nat :=
  (((List.range q).map (fun k => m.fld (qBase k) 0 8)).sum, m.fld (qBase q) 0 8)

/-- A queue in CAPTURE keeps R536 in a ring of `n` banks.
Log entry 95 (DEDUCED, unsafe). -/
def Mach.capFits (m : Mach) (q n : Nat) : Bool := decide (m.qPre q + m.qPost q + 2 ≤ 32 * n)

/-- The status of a write of 1 to APPLY (R531): 17 is RANGE.
Log entry 95 (DEDUCED, unsafe). -/
def Mach.applyCheck (m : Mach) : Nat :=
  let bs := (List.range 5).map (fun q => (m.allocation q).2)
  if 128 < bs.sum || bs.getD 3 0 = 0 ||
      (List.range 5).any (fun q => m.qPolicy q = 2 && !m.capFits q (bs.getD q 0)) then 17 else 0

/-- The state of a queue with new banks: its policy's first state.
Log entry 95 (DEDUCED, unsafe). -/
def freshRun (banks policy : Nat) : QRun := if banks = 0 then .noBanks else if policy = 2 then .armed else .run

/-- A bank is retired in place (R707). -/
def Mach.bankRetired (m : Mach) (b : Nat) : Bool :=
  match m.buf.units[b]? with
  | some u => u.bad
  | .none => false

/-- A queue takes its new banks (R531), losing content, read pointer and open block.
Log entry 95 (DEDUCED, unsafe). -/
def Mach.realloc (m : Mach) (q : Nat) : Mach :=
  let (b0, n) := m.allocation q
  let skip := (List.range n).filter (fun k => m.bankRetired (b0 + k))
  m.updQ q (fun s =>
    { s with bank0 := b0, banks := n, skip := skip, run := freshRun n (m.qPolicy q), ringPos := ({ s with skip := skip, banks := n } : Queue).settle 0 n, unread := [],
             openBlk := .none,
             discarded := .none, discRun := .none, pretrim := .none, trigAt := .none, postLeft := 0, captBlocks := false })

/-- APPLY (R531): every queue whose banks change loses its content, and a REALLOC record each declares it.
Log entries 94 (DEDUCED, safe), 95 (DEDUCED, unsafe). -/
def Mach.applyAlloc (m : Mach) : Mach :=
  let ch := (List.range 5).filter (fun q => m.allocation q ≠ ((m.q q).bank0, (m.q q).banks))
  let old := ch.map (fun q => m.q q)
  let m := ch.foldl (fun m q => (m.realloc q).oweStart q) m
  let m := m.dropStores (fun k _ => ch.contains k)
  let m := (List.zip ch old).foldl (fun m (q, s) =>
    let m := match s.discRun with
      | some d => m.putGap ⟨1, q, d.ts, d.count, d.first, 0⟩
      | .none => m
    let m := match s.pretrim with
      | some d => m.putGap ⟨2, q, d.ts, d.count, d.first, 0⟩
      | .none => m
    let (first, m) := match s.unread with
      | b :: _ => (b.seq, m)
      | [] =>
        let (x, m) := m.drawNat
        (x % 2 ^ 48, m)
    let m := m.putGap ⟨6, q, m.ts, s.unread.length, first, 0⟩
    match s.discarded with
    | some d =>
      if q = 3 then m.putGap ⟨5, 3, d.ts, d.count / 4, (m.q 3).nextSeq, 0⟩
      else m.putGap ⟨4, q, d.ts, d.count, (m.q q).nextSeq, min 0xFFFFFFFF ((m.ts - d.ts) / 1024)⟩
    | .none => m) m
  m.sqBit 0x1C04 1

/-! ### Lost banks (R550) -/

/-- The queue that owns a bank. -/
def Mach.bankQueue (m : Mach) (bank : Nat) : Option Nat :=
  (List.range 5).find? (fun q => decide ((m.q q).bank0 ≤ bank) && decide (bank < (m.q q).bank0 + (m.q q).banks))

/-- The write pointer skips a bank of the queue.
Log entry 97 (DEDUCED, unsafe). -/
def Queue.skipBank (s : Queue) (bank : Nat) : Queue :=
  if s.openNo / 32 = bank then
    { s with openBlk := .none, ringPos := s.settle (32 * (s.ringPos / 32 + 1) % (32 * s.banks)) s.banks }
  else s

/-- A bank is LOST (R550): its closed unread blocks and an open block in it are discarded, the pointers skip it, and stores that
hold words of it are discarded. With the state come how many blocks and the first sequence.
Log entry 97 (DEDUCED, unsafe). -/
def Mach.discardBank (m : Mach) (bank : Nat) : Nat × Nat × Mach :=
  match m.bankQueue bank with
  | .none => (0, 0, m)
  | some q =>
    let s := m.q q
    let gone := s.unread.filter (fun b => b.blockNo / 32 == bank)
    let first := match gone with
      | b :: _ => b.seq
      | [] => s.nextSeq
    let headGone := match s.unread with
      | b :: _ => b.blockNo / 32 == bank
      | [] => false
    let m := m.updQ q (fun s =>
      ({ s with unread := s.unread.filter (fun b => b.blockNo / 32 != bank) }).skipBank bank)
    let m := m.dropStores (fun k pos => k == q && gone.any (fun b => b.absPos == pos / 1024))
    let m := if headGone then m.movedBy q else m
    (gone.length, first, if gone.isEmpty then m else m.qStat q 2)

/-- A LOST bank is recorded (R550) with a cause: 1 not retained, 2 retention dip, 3 uncorrectable word.
Log entry 97 (DEDUCED, unsafe). -/
def Mach.recordLost (m : Mach) (bank cause blocks first : Nat) : Mach :=
  match m.bankQueue bank with
  | .none => m
  | some q =>
    let m := m.setReg 0x1C08 (word (cause * 2 ^ 24 + bank))
    let m := m.putGap ⟨3, q, m.ts, blocks, first, cause * 2 ^ 24 + bank⟩
    let m := if cause = 1 then m
      else (((m.sqBit 0x1C04 0).count 0x1C10).intDrains q 13)
    let m := if cause = 1 then m
      else { m with buf := { m.buf with units := listUpd m.buf.units bank (fun u => { u with retLoss := u.retLoss + 1 }) } }
    m.resume q

/-! ### Registers that show the buffer (R555) -/

/-- The code of a queue's state in `Qn_FILL.STATE`. -/
def QRun.code : QRun → Nat
  | .noBanks => 0
  | .run => 1
  | .full => 2
  | .armed => 3
  | .capturing => 4
  | .frozen => 5

/-- `Qn_FILL`. -/
def Queue.fillWord (s : Queue) : Word :=
  word ((s.banks - s.skip.length) * 2 ^ 24 + (if s.banks = 0 then 0 else s.run.code) * 2 ^ 17 + s.unread.length)

/-- The sequence at the read pointer (R555): 0 while the queue has closed no block (its reset value); with blocks closed and
all of them released there is none, and the value is open. -/
def Queue.readSeq (s : Queue) : Nat :=
  match s.unread with
  | b :: _ => b.seq
  | [] => if s.absNext = 0 then 0 else Config.emptyReadSeq s.nextSeq % 2 ^ 48

end Sys2Proof.Machine
end

