-- ==== Sys2Proof/Machine/Events.lean ====
section
/-! DEFINITION. The event engine (R431 to R478): records, decisions, recognisers, and the sixteen state machines. -/

namespace Sys2Proof.Machine

/-! ### Engine inputs the event engine reaches (R466, R575, R579) -/

/-- Engine `n`. -/
def Mach.engine (m : Mach) (n : Nat) : Eng := m.eng.engs.getD n Eng.fresh

/-- Engine `n` changed. -/
def Mach.updEng (m : Mach) (n : Nat) (f : Eng → Eng) : Mach := { m with eng := { m.eng with engs := listUpd m.eng.engs n f } }

/-- Context `c` of engine `n`. -/
def Mach.ctx (m : Mach) (n c : Nat) : Ctx := (m.engine n).ctxs.getD c Ctx.fresh

/-- Context `c` of engine `n` changed. -/
def Mach.updCtx (m : Mach) (n c : Nat) (f : Ctx → Ctx) : Mach := m.updEng n (fun e => { e with ctxs := listUpd e.ctxs c f })

/-- A flag at the start of the FOSC cycle `now`, by its present value and the cycle of its last change (R576, R578).
Log entry 106 (DEDUCED, unsafe). -/
def atCycleStart (flag : Bool) (changed : Option Nat) (now : Nat) : Bool := if changed = some now then !flag else flag

/-- A write to a TXD register (R575): 18 is REFUSED, when TXF is 1 at the start of the cycle.
Log entry 83 (DEDUCED, unsafe). -/
def Mach.txdWrite (m : Mach) (n c : Nat) (w : Word) : Nat × Mach :=
  let x := m.ctx n c
  if x.txf || atCycleStart x.txf x.txAt m.clk.now then (18, m)
  else (0, m.updCtx n c (fun x => { x with txd := w, txf := true, txAt := some m.clk.now }))

/-- The interrupt latches of the engines named by a mask are set (R579). -/
def Mach.irqSet (m : Mach) (mask : Nat) : Mach :=
  { m with eng := { m.eng with engs := m.eng.engs.zipIdx.map (fun e =>
    if mask.testBit e.2 then
      { e.1 with irq := true, irqAt := some (m.clk.now, match e.1.irqAt with
        | some (t, b) => if t = m.clk.now then b else e.1.irq
        | none => e.1.irq) }
    else e.1) } }

/-! ### Event records (R448 to R451, R28, R29) -/

/-- The four payload words of an event record (R448). -/
def Rec.toWords (r : Rec) : List Word := unitWords (r.ts % 2 ^ 64) r.code r.source r.inst r.value

/-- An event record written into Q3 now: the sequence of the block that holds it, if it was written.
Log entry 79 (DEDUCED, unsafe). -/
def Mach.writeRec (m : Mach) (r : Rec) : Mach × Option Nat :=
  let (m, ok, cs) := m.recordQ3 true r.toWords
  let seq := if ok then some (if (m.q 3).openBlk.isSome then (m.q 3).nextSeq else (m.q 3).nextSeq - 1) else none
  (cs.foldl (fun m c => (m.recordQ3 false c.toWords).1) m, seq)

/-- The D0 copy keeps the newest 510 event records (R691). -/
def stage (l : List (Rec × Option Nat)) (r : Rec) (seq : Option Nat) : List (Rec × Option Nat) :=
  let l := l ++ [(r, seq)]
  l.drop (l.length - 510)

/-- A held record, now written, in the D0 copy. -/
def restage (l : List (Rec × Option Nat)) (r : Rec) (seq : Option Nat) : List (Rec × Option Nat) :=
  match l with
  | [] => []
  | (x, s) :: rest => if x = r ∧ s = none then (x, seq) :: rest else (x, s) :: restage rest r seq

/-- One held record enters Q3, in the order in which it was decided (R451). -/
def Mach.writeHeld (m : Mach) (r : Rec) : Mach :=
  let (m, seq) := m.q3Fix.writeRec r
  { m.q3Fix with evt := { m.evt with staged := restage m.evt.staged r seq } }

/-- What waited while Q3 took no record enters it: the buffer records, then the held event records (R28).
Log entry 80 (DEDUCED, unsafe). -/
def Mach.flushHeld (m : Mach) : Mach :=
  if m.taking then
    let m := m.flushGaps
    let rs := m.evt.held
    rs.foldl Mach.writeHeld { m with evt := { m.evt with held := [] } }
  else m

/-- An event record for Q3 (R448): counted; written, held in the sixteen places of the holding store, or not held and then
declared by a DROP record (R28, R29). The overflow is one event of `EVT_STATUS` until the DROP record is written (R478).
Log entries 79 (DEDUCED, unsafe), 80 (DEDUCED, unsafe). -/
def Mach.putRec (m : Mach) (r : Rec) : Mach :=
  if !m.on 3 then m
  else
    let m := m.count 0x2024
    if m.taking then
      let (m, seq) := m.flushHeld.writeRec r
      { m with evt := { m.evt with staged := stage m.evt.staged r seq } }
    else
      let m := { m with evt := { m.evt with staged := stage m.evt.staged r none } }
      if m.evt.held.length < 16 then { m with evt := { m.evt with held := m.evt.held ++ [r] } }
      else
        let first := !m.buf.pendingGaps.any (fun g => g.kind == 5 && g.queue == 3)
        let m := if first then m.sqBit 0x201C 16 else m
        m.putGap ⟨5, 3, m.ts, 1, (m.q 3).nextSeq, 0⟩

/-! ### Routing (R437, R452) -/

/-- A port's `EVT` bit of INTSRC; while D5 is OFF the request is kept (R452). -/
def Mach.evtInt (m : Mach) (p : Port) : Mach :=
  if m.on 5 then m.intBit p 4 else m.updPort p (fun s => { s with evtRequest := true })

/-- A decision routed to a port: the latch bit of its source, and `EVT` (R452). -/
def Mach.routeTo (m : Mach) (p : Port) (bit : Nat) : Mach :=
  (m.sqBit (match p with
    | .a => 0x2014
    | .b => 0x2018) bit).evtInt p

/-! ### Machines: waits that end -/

/-- Machine `n`, or one that does not exist. -/
def Mach.sm (m : Mach) (n : Nat) : Sm :=
  m.evt.machines.getD n Sm.fresh

/-- Machine `n` changed. -/
def Mach.updSm (m : Mach) (n : Nat) (f : Sm → Sm) : Mach :=
  { m with evt := { m.evt with machines := listUpd m.evt.machines n f } }

/-- Every machine changed, each with its number. -/
def Mach.mapSm (m : Mach) (f : Nat → Sm → Sm) : Mach :=
  { m with evt := { m.evt with machines := m.evt.machines.zipIdx.map (fun x => f x.2 x.1) } }

/-- A wait ends with C, last value and reference instant (R462 to R465); the machine runs again from its turn on (R458). -/
def Sm.endWait (s : Sm) (c : Bool) (last : Word) (ref : Nat) : Sm :=
  { s with wait := .ended, c := c, last := last, ref := ref }

/-- A wait times out in cycle `now` (R464, R465): an output of the same cycle that ends it still wins. -/
def Sm.timeOut (s : Sm) (now ref : Nat) : Sm := { s with wait := .expired now s.wait, c := false, ref := ref }

/-- A WAITE is ended by a decision (R463): `src` 0 to 7, and the record's kind. -/
def waiteEnds (w : Word) (src kind : Nat) : Bool :=
  decide (bitsAt w 23 4 = src) && (decide (bitsAt w 15 8 = 0) || decide (bitsAt w 15 8 = kind))

/-- A recogniser decision or guard record ends the WAITEs that name it (R463, R464). -/
def Mach.endWaite (m : Mach) (src kind : Nat) (value : Word) (ts : Nat) : Mach :=
  m.mapSm (fun _ s =>
    match s.run, s.wait with
    | .wait, .waite w => if waiteEnds w src kind then s.endWait true value ts else s
    | .wait, .expired t (.waite w) => if t = m.clk.now && waiteEnds w src kind then s.endWait true value ts else s
    | _, _ => s)

/-- The turn of the machine served in this FOSC cycle ends its wait (R458).
Log entry 82 (DEDUCED, unsafe). -/
def Mach.waitTurn (m : Mach) : Mach :=
  if m.on 3 then
    m.mapSm (fun n s =>
      if n = m.clk.now % 16 then
        match s.run, s.wait with
        | .wait, .ended => { s with run := .run, wait := .idle }
        | .wait, .expired _ _ => { s with run := .run, wait := .idle }
        | _, _ => s
      else s)
  else m

/-! ### Recognisers (R437 to R447) -/

/-- The configuration register of a recogniser, in the order IMPACT, FREEFALL, REVOLUTION, OVERSPEED, UNDERSPEED,
IMBALANCE, STILL. -/
def recCfg (i : Nat) : Nat :=
  match i with
  | 0 => 0x2040
  | 1 => 0x2050
  | 2 => 0x2060
  | 3 => 0x2070
  | 4 => 0x2078
  | 5 => 0x2080
  | _ => 0x2090

/-- The threshold register of a recogniser. -/
def recThr (i : Nat) : Nat :=
  match i with
  | 0 => 0x2044
  | 1 => 0x2054
  | 2 => 0x2064
  | 3 => 0x2074
  | 4 => 0x207C
  | 5 => 0x2084
  | _ => 0x2094

/-- In Watch only FREEFALL and STILL run (R470). -/
def Mach.inWatch (m : Mach) : Bool := decide (m.clk.mode = .watch)

/-- A recogniser runs: enabled, with D3 ON, and in Watch only FREEFALL and STILL. -/
def Mach.recRuns (m : Mach) (i : Nat) : Bool :=
  m.flag (recCfg i) 0 && m.on 3 && (!m.inWatch || i = 1 || i = 6)

/-- A record of recogniser `i` (R449): its source is 0x20 + i, its code 0x100 (i + 1) + kind. -/
def recOf (i kind inst : Nat) (value : Word) (ts : Nat) : Rec := ⟨ts, 0x100 * (i + 1) + kind, 0x20 + i, inst, value⟩

/-- An instant as a timestamp. -/
def tsOf (t : Int) : Nat := (t % ((2 ^ 64 : Nat) : Int)).toNat

/-- A recogniser decides (R437): routes, captures, record, WAITEs; in Watch a routed FREEFALL or STILL asks for a wake
(R472). -/
def Mach.decision (m : Mach) (i kind inst : Nat) (value : Word) (t : Int) : Mach :=
  let cfg := m.reg (recCfg i)
  let m := if bitAt cfg 31 then m.routeTo .a (16 + i) else m
  let m := if bitAt cfg 30 then m.routeTo .b (16 + i) else m
  let m := (List.range 5).foldl (fun m q => if bitAt cfg (24 + q) then m.trigger q else m) m
  let m := if bitAt cfg 29 then m.putRec (recOf i kind inst value (tsOf t)) else m
  let m := m.endWaite i kind value (tsOf t)
  if m.inWatch && (bitAt cfg 31 || bitAt cfg 30) then { m with evt := { m.evt with wakeReq := true } } else m

/-- An episode ends: its end record goes to Q3 when REC is 1 (R437). -/
def Mach.episodeEnd (m : Mach) (i kind inst : Nat) (value : Word) (t : Int) : Mach :=
  if m.flag (recCfg i) 29 then m.putRec (recOf i kind inst value (tsOf t)) else m

/-- One output of an evaluation source as it reaches the event engine (R432, R434, R435). -/
structure EvIn where
  src : Nat
  v : Int
  t : Int
  uns : Bool
  clp : Bool
  blk : Bool
  deriving DecidableEq, Repr

/-- The output is skipped unless an instruction says otherwise (R434).
Log entry 81 (DEDUCED, unsafe). -/
def EvIn.skipped (o : EvIn) : Bool := o.uns || o.blk

/-- The ACH range in g: 256, 1,024 or 4,096. -/
def Mach.achRange (m : Mach) : Nat := 2 ^ (8 + 2 * m.fld 0x0C24 24 2)

/-- The GYR Z range in dps (R287). -/
def Mach.gyrzRange (m : Mach) : Nat := if m.flag 0x0C28 24 then 80000 else 20000

/-- A threshold in 2^-4 g in ACH units (R439). -/
def Mach.achLsb (m : Mach) (x : Nat) : Int := divRound ((x * 2 ^ 19 : Nat) : Int) m.achRange

/-- An ACH magnitude in 2^-4 g, rounded to nearest and saturating (R444). -/
def Mach.achG16 (m : Mach) (v : Nat) : Nat :=
  min 0xFFFF (divRound ((v * m.achRange : Nat) : Int) (2 ^ 19)).toNat

/-- A spin rate in 2^-6 rev/s in GYR Z units (R439). -/
def Mach.gyrzLsb (m : Mach) (x : Nat) : Int := divRound ((x * 360 * 2 ^ 17 : Nat) : Int) m.gyrzRange

/-- A GYR Z magnitude in 2^-6 rev/s, rounded to nearest and saturating. -/
def Mach.gyrzRev (m : Mach) (v : Nat) : Nat :=
  min 0xFFFF (divRound ((v * m.gyrzRange : Nat) : Int) (360 * 2 ^ 17)).toNat

/-- A threshold recogniser as after its reset (R438); IMPACT's previous decision is kept for R441. -/
def Recog.reset (r : Recog) : Recog :=
  { r with count := 0, endCount := 0, episode := false, peak := 0, outputs := 0, resumed := false }

/-- Recogniser `i` is reset (R438). -/
def Mach.recReset (m : Mach) (i : Nat) : Mach :=
  { m with evt := match i with
    | 0 => { m.evt with impact := m.evt.impact.reset }
    | 1 => { m.evt with freefall := Dwell.fresh }
    | 2 => { m.evt with rev := RevState.fresh }
    | 3 => { m.evt with ospd := m.evt.ospd.reset }
    | 4 => { m.evt with uspd := m.evt.uspd.reset }
    | 5 => { m.evt with imbX := m.evt.imbX.reset, imbY := m.evt.imbY.reset, imbZ := m.evt.imbZ.reset }
    | _ => { m.evt with still := Dwell.fresh } }

/-- Every recogniser is reset (R460). -/
def Mach.recResetAll (m : Mach) : Mach := (List.range 7).foldl Mach.recReset m

/-- The recognisers of a source group are reset at its range change (R438): ACF, ACH, GYR. REVOLUTION has a source group with
`SRC` = gravity only. -/
def Mach.recResetGroup (m : Mach) (g : Nat) : Mach :=
  match g with
  | 0 =>
    let m := (m.recReset 1).recReset 6
    if m.flag 0x2060 1 then m.recReset 2 else m
  | 1 => m.recReset 0
  | 2 => ((m.recReset 3).recReset 4).recReset 6
  | _ => m

/-- IMPACT at an ACH magnitude (R440, R441, R444).
Log entry 81 (DEDUCED, unsafe). -/
def Mach.impactAt (m : Mach) (o : EvIn) : Mach :=
  let r := m.evt.impact
  let v := o.v.toNat
  let thr := m.achLsb (m.fld 0x2044 0 16)
  let hys := m.achLsb (m.fld 0x2044 16 16)
  if r.episode then
    let r := { r with outputs := r.outputs + 1 }
    if o.skipped then { m with evt := { m.evt with impact := r } }
    else
      let r := { r with peak := max r.peak v }
      if o.v ≤ thr - hys then
        let value := word (m.achG16 r.peak * 65536 + min 0xFFFF r.outputs)
        ({ m with evt := { m.evt with impact := { r with episode := false, count := 0 } } }).episodeEnd 0 3 0 value o.t
      else { m with evt := { m.evt with impact := r } }
  else if o.skipped then m
  else if thr ≤ o.v then
    if r.count + 1 < m.fld 0x2040 16 4 + 1 then { m with evt := { m.evt with impact := { r with count := r.count + 1 } } }
    else
      let dbl := m.flag 0x2040 1 && !r.lastDouble && (match r.lastInstant with
        | some t => decide ((o.t - t) * 1000 < (m.fld 0x2048 0 16 * second : Nat))
        | none => false)
      let r := { r with count := 0, episode := true, lastInstant := some o.t, lastDouble := dbl, peak := v, outputs := 0 }
      ({ m with evt := { m.evt with impact := r } }).decision 0 (if dbl then 2 else 1) 0 (word (m.achG16 v * 65536)) o.t
  else { m with evt := { m.evt with impact := { r with count := 0 } } }

/-- One step of OVERSPEED or UNDERSPEED (R440): whether it decides, whether its episode ends, and its next state. The first output
after Watch ends an episode by itself (R470). -/
def Recog.speed (r : Recog) (n : Nat) (hit back : Bool) : Recog × Bool × Bool :=
  let n := if r.episode && r.resumed then 1 else n
  let r := { r with resumed := false }
  if r.episode then
    if !back then ({ r with endCount := 0 }, false, false)
    else if r.endCount + 1 < n then ({ r with endCount := r.endCount + 1 }, false, false)
    else ({ r with endCount := 0, count := 0, episode := false }, false, true)
  else if !hit then ({ r with count := 0 }, false, false)
  else if r.count + 1 < n then ({ r with count := r.count + 1 }, false, false)
  else ({ r with count := 0, endCount := 0, episode := true }, true, false)

/-- OVERSPEED at the magnitude of a GYR Z output.
Log entry 81 (DEDUCED, unsafe). -/
def Mach.ospdAt (m : Mach) (o : EvIn) : Mach :=
  if o.skipped then m
  else
    let thr := m.gyrzLsb (m.fld 0x2074 0 16)
    let hys := m.gyrzLsb (m.fld 0x2074 16 16)
    let (r, hit, ends) := m.evt.ospd.speed (m.fld 0x2070 16 4 + 1) (decide (thr ≤ o.v)) (decide (o.v ≤ thr - hys))
    let m := { m with evt := { m.evt with ospd := r } }
    let value := word (m.gyrzRev o.v.toNat * 65536)
    let m := if hit then m.decision 3 1 0 value o.t else m
    if ends then m.episodeEnd 3 2 0 value o.t else m

/-- UNDERSPEED at the magnitude of a GYR Z output. -/
def Mach.uspdAt (m : Mach) (o : EvIn) : Mach :=
  if o.skipped then m
  else
    let thr := m.gyrzLsb (m.fld 0x207C 0 16)
    let hys := m.gyrzLsb (m.fld 0x207C 16 16)
    let (r, hit, ends) := m.evt.uspd.speed (m.fld 0x2078 16 4 + 1) (decide (o.v ≤ thr)) (decide (thr + hys ≤ o.v))
    let m := { m with evt := { m.evt with uspd := r } }
    let value := word (m.gyrzRev o.v.toNat * 65536)
    let m := if hit then m.decision 4 1 0 value o.t else m
    if ends then m.episodeEnd 4 2 0 value o.t else m

/-- A span of ticks in ms, rounded down, saturating. -/
def spanMs (top : Nat) (t : Int) : Nat := min top (t.toNat * 1000 / second)

/-- DUR has been reached ends a span (R442).
Log entry 81 (DEDUCED, unsafe). -/
def durReached (span : Int) (dur : Nat) : Bool := decide (((dur * second : Nat) : Int) ≤ span * 1000)

/-- FREEFALL at an ACF total magnitude (R440, R442, R444).
Log entry 81 (DEDUCED, unsafe). -/
def Mach.freefallAt (m : Mach) (o : EvIn) : Mach :=
  if o.skipped then m
  else
    let d := m.evt.freefall
    let thr : Int := (m.fld 0x2054 0 16 : Nat)
    let hys : Int := (m.fld 0x2054 16 16 : Nat)
    if d.episode then
      if o.clp || decide (thr + hys ≤ o.v) then
        ({ m with evt := { m.evt with freefall := Dwell.fresh } }).episodeEnd 1 2 0 (word (spanMs 0xFFFFFFFF (o.t - d.epStart))) o.t
      else m
    else if o.clp || decide (thr < o.v) then { m with evt := { m.evt with freefall := Dwell.fresh } }
    else
      let start := d.since.getD o.t
      if durReached (o.t - start) (m.fld 0x2050 1 16) then
        ({ m with evt := { m.evt with freefall := { d with since := some start, episode := true, epStart := o.t } } }).decision
          1 1 0 (word (spanMs 0xFFFF (o.t - start))) o.t
      else { m with evt := { m.evt with freefall := { d with since := some start } } }

/-- STILL's interval or episode is broken at an output (R440): the next interval starts at `next`, if given. -/
def Mach.stillBreak (m : Mach) (t : Int) (next : Option Int) : Mach :=
  let d := m.evt.still
  let fresh : Dwell := ⟨next.map (fun _ => t), next.getD 0, false, 0⟩
  let m := { m with evt := { m.evt with still := fresh } }
  if d.episode then m.episodeEnd 6 2 0 (word (spanMs 0xFFFFFFFF (t - d.epStart))) t else m

/-- STILL at an ACF total magnitude.
Log entry 81 (DEDUCED, unsafe). -/
def Mach.stillAt (m : Mach) (o : EvIn) : Mach :=
  if o.skipped then m
  else
    let d := m.evt.still
    let athr := divRound ((m.fld 0x2094 0 16 : Nat) : Int) 4
    match d.since with
    | none => if o.clp then m else m.stillBreak o.t (some o.v)
    | some start =>
      if o.clp then m.stillBreak o.t none
      else if athr < o.v - d.base ∨ athr < d.base - o.v then m.stillBreak o.t (some o.v)
      else if !d.episode && durReached (o.t - start) (m.fld 0x2090 1 16) then
        ({ m with evt := { m.evt with still := { d with episode := true, epStart := o.t } } }).decision
          6 1 0 (word (spanMs 0xFFFF (o.t - start))) o.t
      else m

/-- STILL at a GYR magnitude; in Watch it ignores it (R470). -/
def Mach.stillGyr (m : Mach) (o : EvIn) : Mach :=
  if o.skipped || m.inWatch then m
  else if o.clp || decide (((m.fld 0x2094 16 16 : Nat) : Int) < o.v) then
    if m.evt.still.since.isSome then m.stillBreak o.t none else m
  else m

/-- IMBALANCE on one axis at a counted revolution (R440, R443, R444): the amplitude in 2^-18 g, the 1× phase.
Log entry 81 (DEDUCED, unsafe). -/
def Mach.imbAt (m : Mach) (axis : Nat) (amp phase : Nat) (t : Int) : Mach :=
  let r := match axis with
    | 0 => m.evt.imbX
    | 1 => m.evt.imbY
    | _ => m.evt.imbZ
  let thr : Int := (m.fld 0x2084 0 16 * 64 : Nat)
  let hys : Int := (m.fld 0x2084 16 16 * 64 : Nat)
  let (r, hit, ends) := r.speed (m.fld 0x2080 8 8) (decide (thr ≤ (amp : Int))) (decide ((amp : Int) ≤ thr - hys))
  let m := { m with evt := match axis with
    | 0 => { m.evt with imbX := r }
    | 1 => { m.evt with imbY := r }
    | _ => { m.evt with imbZ := r } }
  let value := word (min 0xFFFF (divRound (amp : Int) 64).toNat * 65536 + phase % 65536)
  let m := if hit then m.decision 5 1 axis value t else m
  if ends then m.episodeEnd 5 2 axis value t else m

/-- A revolution instant (R440, R444, R445): a decision at every M-th. With no instant before it, the time is open.
Log entries 70 (DEDUCED, unsafe), 81 (DEDUCED, unsafe). -/
def Mach.revInstant (m : Mach) (t : Int) : Mach :=
  let r := m.evt.rev
  let every := m.fld 0x2060 8 8
  let n := r.every + 1
  let dec := every ≠ 0 && decide (every ≤ n)
  let m := { m with evt := { m.evt with rev := { r with every := if dec then 0 else n, prev := some t } } }
  if dec then
    match r.prev with
    | some p => m.decision 2 1 0 (word (min 0xFFFFFFFF ((t - p).toNat / 16))) t
    | none =>
      let (x, m) := m.drawNat
      m.decision 2 1 0 (word x) t
  else m

/-- The total H + residual of an ACF axis in 2^-22 g, from H in 2^-14 g, the output value and the window code (R263). -/
def acfTotal (h v : Int) (window : Nat) : Int := h * 256 + v * (2 ^ window : Nat)

/-- A mean level: sum and number. -/
def RevState.level (r : RevState) : Int × Nat :=
  match r.gprev with
  | some _ => (r.sum, r.n)
  | none => ((r.hist.map Prod.snd).sum, r.hist.length)

/-- The gravity detector at an evaluated ACF output with total `v` (R446): the next state, and the crossing that is a
revolution instant. -/
def RevState.gravity (r : RevState) (t v hys : Int) : RevState × Option Int :=
  let r := match r.gprev with
    | some _ => { r with sum := r.sum + v, n := r.n + 1 }
    | none => { r with hist := (r.hist.filter (fun (p : Int × Int) => decide (t - (second : Nat) < p.1))) ++ [(t, v)] }
  let r := { r with maxv := max r.maxv v, minv := min r.minv v }
  let (s, n) := r.level
  if r.armed && decide (s ≤ v * (n : Int)) then
    let c := match r.last with
      | some (tp, vp) =>
        let den := (v - vp) * (n : Int)
        if 0 < den then tp + divRound ((s - vp * (n : Int)) * (t - tp)) den.toNat else t
      | none => t
    let pp := r.maxv - r.minv
    let inst := r.opened && decide ((2 ^ 22 : Nat) ≤ pp) && decide (pp ≤ (3 * 2 ^ 22 : Nat))
    let r := { r with armed := false, opened := true, maxv := v, minv := v, last := some (t, v) }
    if inst then ({ r with gprev := some c, sum := v, n := 1, hist := [] }, some c) else (r, none)
  else if decide ((v + hys) * (n : Int) ≤ s) then ({ r with armed := true, last := some (t, v) }, none)
  else ({ r with last := some (t, v) }, none)

/-- REVOLUTION from gravity at an ACF output instant: the totals of x′ and y′ (R446, R447). A gravity instant is also a
reference instant of the angle resampler (R359, R447). -/
def Mach.revGravity (m : Mach) (x y : Int) (o : EvIn) : Mach :=
  if o.skipped then m
  else
    let v := if m.fld 0x2060 2 2 = 0 then x else y
    let r := m.evt.rev
    let r := if r.last.isNone then { r with maxv := v, minv := v } else r
    let (r, c) := r.gravity o.t v ((m.fld 0x2064 16 16 * 4096 : Nat) : Int)
    let m := { m with evt := { m.evt with rev := r } }
    match c with
    | none => m
    | some t =>
      let m := if m.flag 0x1400 0 && m.fld 0x1400 4 2 = 1 then { m with ang := { m.ang with refs := m.ang.refs ++ [t] } } else m
      m.revInstant t

/-! ### WAITC (R462) -/

/-- The relation of a WAITC: 0 v ≥ T, 1 v ≤ T, 2 |v| ≥ T, 3 |v| ≤ T. -/
def relHolds (rel : Nat) (v thr : Int) : Bool :=
  match rel with
  | 0 => decide (thr ≤ v)
  | 1 => decide (v ≤ thr)
  | 2 => decide (thr ≤ |v|)
  | _ => decide (|v| ≤ thr)

/-- The far side of the relation, beyond T by at least H. -/
def relFar (rel : Nat) (v thr hys : Int) : Bool :=
  match rel with
  | 0 => decide (v ≤ thr - hys)
  | 1 => decide (thr + hys ≤ v)
  | 2 => decide (|v| ≤ thr - hys)
  | _ => decide (thr + hys ≤ |v|)

/-- The base of a machine's registers (R476). -/
def smBase (n : Nat) : Nat := 0x2100 + 32 * n

/-- One output of a machine's source at its WAITC (R462): whether it is armed then and its count, or none where the wait ends. -/
def Mach.waitcNext (m : Mach) (n : Nat) (w : Word) (armed : Bool) (count : Nat) (o : EvIn) : Option (Bool × Nat) :=
  if m.fld (smBase n) 24 6 ≠ o.src || (o.uns && !bitAt w 15) || (o.blk && !bitAt w 14) then some (armed, count)
  else
    let e := bitsAt w 26 1
    let thr := signed 24 (m.fld (smBase n + 8 + 4 * e) 0 24)
    let hys : Int := (m.fld (smBase n + 16 + 4 * e) 0 24 : Nat)
    let rel := bitsAt w 24 2
    if !armed then some (relFar rel o.v thr hys, 0)
    else if !relHolds rel o.v thr then some (true, 0)
    else if count + 1 < bitsAt w 16 7 + 1 then some (true, count + 1)
    else none

/-- One output of a machine's source at its WAITC; one in the cycle of a timeout still ends it (R464). -/
def Mach.waitcAt (m : Mach) (n : Nat) (s : Sm) (o : EvIn) : Sm :=
  match s.run, s.wait with
  | .wait, .waitc w armed count =>
    match m.waitcNext n w armed count o with
    | some (armed, count) => { s with wait := .waitc w armed count }
    | none => s.endWait true (wordOfInt o.v) (tsOf o.t)
  | .wait, .expired t (.waitc w armed count) =>
    if t = m.clk.now && (m.waitcNext n w armed count o).isNone then s.endWait true (wordOfInt o.v) (tsOf o.t) else s
  | _, _ => s

/-- One output reaches the machines.
Log entry 82 (DEDUCED, unsafe). -/
def Mach.machinesAt (m : Mach) (o : EvIn) : Mach := if m.on 3 then m.mapSm (fun n s => m.waitcAt n s o) else m

/-- A change of a machine's source restarts its WAITC (R462).
Log entry 82 (DEDUCED, unsafe). -/
def Sm.rearmWait (s : Sm) : Sm :=
  match s.wait with
  | .waitc w _ _ => { s with wait := .waitc w (!bitAt w 23) 0 }
  | _ => s

/-- One output reaches the machines and the recognisers that take its source (R440). -/
def Mach.evtOutput (m : Mach) (o : EvIn) : Mach :=
  let m := m.machinesAt o
  let m := if o.src = 34 && m.recRuns 0 then m.impactAt o else m
  let m := if o.src = 33 && m.recRuns 1 then m.freefallAt o else m
  let m := if o.src = 8 && m.recRuns 3 then m.ospdAt { o with v := |o.v| } else m
  let m := if o.src = 8 && m.recRuns 4 then m.uspdAt { o with v := |o.v| } else m
  let m := if o.src = 35 && m.recRuns 6 then m.stillGyr o else m
  if o.src = 33 && m.recRuns 6 then m.stillAt o else m

/-- A guard record (R499, R500): written when D3 is ON, and it ends WAITEs with SRC = 7.
Log entry 79 (DEDUCED, unsafe). -/
def Mach.guardRec (m : Mach) (code : Nat) (value : Word) (ts : Nat) : Mach :=
  if m.on 3 then (m.putRec ⟨ts, code, 0x27, 0, value⟩).endWaite 7 (code % 256) value ts else m

/-! ### Machines: instructions (R456 to R467) -/

/-- The word of event program memory at an address.
Log entry 14 (DESIGN CHOICE, unsafe). -/
def Mach.evtWord (m : Mach) (a : Nat) : Word := cellGet (fun _ => 0) m.mem.evtProg (a % 1024)

/-- Opcode of a machine instruction. -/
def smOp (w : Word) : Nat := bitsAt w 27 5

/-- A machine instruction with a reserved field, or an undefined field value, not 0 (R461, R467). -/
def smBadFields (w : Word) : Bool :=
  match smOp w with
  | 0 => bitsAt w 0 27 ≠ 0
  | 1 => bitsAt w 0 12 ≠ 0 || bitsAt w 12 2 = 3
  | 2 => bitsAt w 0 12 ≠ 0 || bitAt w 14 || bitsAt w 12 2 = 3 || decide (7 < bitsAt w 23 4)
  | 3 => false
  | 4 => bitsAt w 16 8 ≠ 0 || bitsAt w 24 2 = 3
  | 5 => bitsAt w 10 17 ≠ 0
  | 6 => bitsAt w 10 11 ≠ 0 || decide (20 < bitsAt w 22 5)
  | 7 => decide (5 < bitsAt w 24 3)
  | 8 =>
    match bitsAt w 25 2 with
    | 0 => bitsAt w 2 23 ≠ 0
    | 1 => bitsAt w 4 21 ≠ 0
    | 2 => bitAt w 3 || bitsAt w 6 16 ≠ 0 || decide (5 < bitsAt w 22 3)
    | _ => true
  | 9 => bitsAt w 5 22 ≠ 0
  | 10 => bitsAt w 16 11 ≠ 0
  | 11 => bitsAt w 16 11 ≠ 0
  | _ => true

/-- A machine's timer.
Log entry 82 (DEDUCED, unsafe). -/
def Sm.timer (s : Sm) (second : Bool) : SmTimer := if second then s.t1 else s.t0

/-- A machine's timer replaced. -/
def Sm.setTimer (s : Sm) (second : Bool) (t : SmTimer) : Sm := if second then { s with t1 := t } else { s with t0 := t }

/-- Units of 1,024 ticks that a timer has left, rounded down; 0 when it does not run. -/
def SmTimer.unitsLeft (t : SmTimer) (ts : Nat) : Nat := if t.running then (t.expiry - ts) / 1024 else 0

/-- The value a VSRC field names (R461). -/
def Sm.vsrc (s : Sm) (k ts : Nat) : Word :=
  match k with
  | 0 => s.last
  | 1 => word s.cnt0
  | 2 => word s.cnt1
  | 3 => word (s.t0.unitsLeft ts)
  | 4 => word (s.t1.unitsLeft ts)
  | _ => 0

/-- A machine enters FAULT (R467): its status bit and its record. -/
def Mach.smFault (m : Mach) (n cause op addr : Nat) : Mach :=
  let m := m.updSm n (fun s => { s with run := .fault, wait := .idle, cause := cause })
  (m.sqBit 0x201C n).putRec ⟨(m.sm n).ref, 0x0F01, n, 0, word (cause * 2 ^ 24 + op * 2 ^ 16 + addr)⟩

/-- A wait with TMO begins, or ends at once when its timer has already expired (R464). -/
def Sm.beginWait (s : Sm) (w : Word) (wait : SmWait) : Sm :=
  let tmo := bitsAt w 12 2
  let t := s.timer (tmo = 2)
  let s := { s with streak := 0 }
  if tmo ≠ 0 && t.expired then { s with c := false, ref := t.expiry }
  else { s with run := .wait, wait := wait }

/-- TIME (R464): start, wait for expiry, stop, start and wait. -/
def Sm.timeOp (s : Sm) (w : Word) (ts : Nat) : Sm :=
  let k := bitAt w 26
  let s := match bitsAt w 24 2 with
    | 0 => s.setTimer k ⟨true, false, ts + bitsAt w 0 24 * 1024, 0⟩
    | 3 => s.setTimer k ⟨true, false, ts + bitsAt w 0 24 * 1024, 0⟩
    | 2 => s.setTimer k { s.timer k with running := false }
    | _ => s
  match bitsAt w 24 2 with
  | 1 =>
    if (s.timer k).expired then { s with ref := (s.timer k).expiry, streak := 0 }
    else { s with run := .wait, wait := .time k, streak := 0 }
  | 3 => { s with run := .wait, wait := .time k, streak := 0 }
  | _ => s

/-- CNT (R461): load, increment saturating, decrement saturating. -/
def Sm.cntOp (s : Sm) (w : Word) : Sm :=
  let v := if bitAt w 26 then s.cnt1 else s.cnt0
  let v := match bitsAt w 24 2 with
    | 0 => bitsAt w 0 16
    | 1 => min 65535 (v + 1)
    | _ => v - 1
  if bitAt w 26 then { s with cnt1 := v } else { s with cnt0 := v }

/-- The condition of JIF (R461). -/
def Sm.cond (s : Sm) (flags : BitVec 16) (k : Nat) : Bool :=
  if k < 16 then flags.getLsbD k
  else match k with
  | 16 => s.c
  | 17 => s.cnt0 = 0
  | 18 => s.cnt1 = 0
  | 19 => s.t0.expired
  | _ => s.t1.expired

/-- OUT (R466): a routed decision of the machine, engine interrupts, or a TXD write, which is discarded when TXF is 1.
Log entry 83 (DEDUCED, unsafe). -/
def Mach.smOutOp (m : Mach) (n : Nat) (w : Word) : Mach :=
  match bitsAt w 25 2 with
  | 0 =>
    let m := if bitAt w 0 then m.routeTo .a n else m
    let m := if bitAt w 1 then m.routeTo .b n else m
    if m.inWatch && m.flag (smBase n) 31 then { m with evt := { m.evt with wakeReq := true } } else m
  | 1 => if m.on 6 && !m.testing 5 then m.irqSet (bitsAt w 0 4) else m
  | _ =>
    if !m.on 6 || m.testing 5 then m
    else
      let m := m.touch 9
      let (code, m') := m.txdWrite (bitsAt w 4 2) (bitsAt w 0 3) ((m.sm n).vsrc (bitsAt w 22 3) m.ts)
      if code = 0 then m' else m.sqBit 0x2724 12

/-- The shared flags as the instructions of this FOSC cycle see them: at its start (R469). -/
def Mach.flagsSeen (m : Mach) : BitVec 16 :=
  match m.eng.flagsAt with
  | some (t, start, _) => if t = m.clk.now then start else m.eng.flags
  | none => m.eng.flags

/-- The flags set so far in this FOSC cycle (R469). -/
def Mach.flagsSet (m : Mach) : BitVec 16 :=
  match m.eng.flagsAt with
  | some (t, _, sets) => if t = m.clk.now then sets else 0
  | none => 0

/-- The shared flags set and cleared by masks (R468, R469): a flag set in a FOSC cycle is set, whatever else asks for its clear in it. -/
def Mach.setFlags (m : Mach) (set clr : Nat) : Mach :=
  let sets := m.flagsSet ||| BitVec.ofNat 16 set
  { m with eng := { m.eng with flags := (m.eng.flags &&& ~~~(BitVec.ofNat 16 clr)) ||| sets
                               flagsAt := some (m.clk.now, m.flagsSeen, sets) } }

/-- The effect of a valid instruction of machine `n`, its program counter already at the next address. -/
def Mach.smEffect (m : Mach) (n : Nat) (w : Word) : Mach :=
  match smOp w with
  | 0 => m.updSm n (fun s => { s with run := .stopped, wait := .idle })
  | 1 => m.updSm n (fun s => s.beginWait w (.waitc w (!bitAt w 23) 0))
  | 2 => m.updSm n (fun s => s.beginWait w (.waite w))
  | 3 => m.updSm n (fun s => s.timeOp w m.ts)
  | 4 => m.updSm n (fun s => s.cntOp w)
  | 5 => m.updSm n (fun s => { s with pc := bitsAt w 0 10 })
  | 6 => m.updSm n (fun s =>
      if s.cond m.flagsSeen (bitsAt w 22 5) != bitAt w 21 then { s with pc := bitsAt w 0 10 } else s)
  | 7 => m.putRec ⟨(m.sm n).ref, bitsAt w 0 16, n, bitsAt w 16 8, (m.sm n).vsrc (bitsAt w 24 3) m.ts⟩
  | 8 => m.smOutOp n w
  | 9 => (List.range 5).foldl (fun m q => if bitAt w q && m.qPolicy q = 2 then m.trigger q else m) m
  | 10 => m.setFlags (bitsAt w 0 16) 0
  | _ => m.setFlags 0 (bitsAt w 0 16)

/-- One instruction of machine `n` (R457, R467): FAULT on a bad encoding or EMIT code, else its effect, and FAULT at the
65,536th instruction without a wait.
Log entry 82 (DEDUCED, unsafe). -/
def Mach.smExec (m : Mach) (n : Nat) (w : Word) : Mach :=
  let pc := (m.sm n).pc
  if smBadFields w then m.smFault n 1 (smOp w) pc
  else if smOp w = 7 && (decide (bitsAt w 0 16 < 0x1000) || decide (0x7FFF < bitsAt w 0 16)) then m.smFault n 2 (smOp w) pc
  else
    let k := (m.sm n).streak + 1
    let m := (m.updSm n (fun s => { s with pc := (pc + 1) % 1024, streak := k })).smEffect n w
    if 65536 ≤ k && (m.sm n).run = .run && (m.sm n).streak = k then m.smFault n 3 (smOp w) pc else m

/-- The turn of machine `n` (R457): the machines are served round-robin, one in each FOSC cycle, each once in its turn. SM0 has the
cycles whose number is a multiple of 16.
Log entry 139 (DESIGN CHOICE, unsafe). -/
def Mach.smServed (m : Mach) (n : Nat) : Bool := decide (m.clk.now % 16 = n) && decide (m.evt.turnAt ≠ some m.clk.now)

/-- Machine `n` is served (R457): it executes one instruction when it is in RUN, D3 is ON, and its next word has opcode `op`
or an opcode the manual does not define.
Log entry 139 (DESIGN CHOICE, unsafe). -/
def Mach.smTurn (m : Mach) (n op : Nat) : Mach :=
  let w := m.evtWord (m.sm n).pc
  if m.on 3 && (m.sm n).run = .run && !m.testing 4 && m.smServed n && (smOp w = op || decide (11 < smOp w)) then
    { m with evt := { m.evt with turnAt := some m.clk.now } }.smExec n w
  else m

/-- A machine timer expires at its expiry timestamp (R464, R465). -/
def Mach.smExpire (m : Mach) (n : Nat) (second : Bool) : Mach :=
  let s := m.sm n
  let t := s.timer second
  if m.on 3 && t.running && s.run ≠ .paused && decide (t.expiry ≤ m.ts) then
    m.updSm n (fun s =>
      let s := s.setTimer second { t with running := false, expired := true }
      let k := if second then 2 else 1
      match s.run, s.wait with
      | .wait, .waitc w _ _ => if bitsAt w 12 2 = k then s.timeOut m.clk.now t.expiry else s
      | .wait, .waite w => if bitsAt w 12 2 = k then s.timeOut m.clk.now t.expiry else s
      | .wait, .time b => if b = second then s.endWait s.c s.last t.expiry else s
      | _, _ => s)
  else m

/-- A machine started at its start address (R459); it executes nothing more in this FOSC cycle, so that a STOP in it does not count. -/
def Mach.smStart (m : Mach) (n : Nat) : Mach :=
  let m := if m.clk.now % 16 = n then { m with evt := { m.evt with turnAt := some m.clk.now } } else m
  m.updSm n (fun _ => { Sm.fresh with run := .run, pc := m.fld (smBase n) 0 10, ref := m.ts })

/-- A machine stopped (R459). -/
def Mach.smStop (m : Mach) (n : Nat) : Mach := m.updSm n (fun s => { s with run := .stopped, wait := .idle })

/-- Every machine stopped, with its registers at their reset values (R128, R476), and every recogniser reset (R460). -/
def Mach.evtReset (m : Mach) : Mach := (m.mapSm (fun _ _ => Sm.fresh)).recResetAll

/-- Some machine is RUN, WAIT or PAUSED (R473). -/
def Mach.smBusy (m : Mach) : Bool :=
  m.evt.machines.any (fun s => s.run = .run || s.run = .wait || s.run = .paused)

/-! ### Watch (R470, R471) -/

/-- Entry into Watch: machines without WATCH are PAUSED, the suspended recognisers lose their persistence counts, the gravity detector
all it has gathered. -/
def Mach.evtEnterWatch (m : Mach) : Mach :=
  let stop := fun (t : SmTimer) => if t.running then { t with left := t.expiry - m.ts } else t
  let m := m.mapSm (fun n s =>
    if !m.flag (smBase n) 31 && (s.run = .run || s.run = .wait) then
      { s with run := .paused, resume := s.run, t0 := stop s.t0, t1 := stop s.t1 }
    else s)
  let z := fun (r : Recog) => { r with count := 0, endCount := 0 }
  let m := { m with evt := { m.evt with rev := { RevState.fresh with every := m.evt.rev.every, prev := m.evt.rev.prev } } }
  { m with evt := { m.evt with impact := z m.evt.impact, ospd := z m.evt.ospd, uspd := z m.evt.uspd,
                               imbX := z m.evt.imbX, imbY := z m.evt.imbY, imbZ := z m.evt.imbZ } }

/-- Exit from Watch: PAUSED machines go on where they paused; a WAITC restarts its arming and persistence; the suspended recognisers
evaluate afresh. -/
def Mach.evtExitWatch (m : Mach) : Mach :=
  let z := fun (r : Recog) => { r with resumed := true }
  let m := { m with evt := { m.evt with ospd := z m.evt.ospd, uspd := z m.evt.uspd, imbX := z m.evt.imbX, imbY := z m.evt.imbY,
                                        imbZ := z m.evt.imbZ } }
  let go := fun (t : SmTimer) => if t.running then { t with expiry := m.ts + t.left } else t
  m.mapSm (fun _ s =>
    if s.run = .paused then ({ s with run := s.resume, t0 := go s.t0, t1 := go s.t1 }).rearmWait else s)

/-! ### Registers that show the event engine (R476) -/

/-- The code of a machine's state in `SM_n_STATE`. -/
def SmRun.code : SmRun → Nat
  | .stopped => 0
  | .run => 1
  | .wait => 2
  | .paused => 3
  | .fault => 4

/-- `SM_n_STATE`. -/
def Sm.stateWord (s : Sm) : Word :=
  word (s.run.code * 2 ^ 29 + s.cause * 2 ^ 16 + s.pc) ||| bitIf s.c 28 ||| bitIf s.t1.expired 27 |||
    bitIf s.t0.expired 26 ||| bitIf s.t1.running 25 ||| bitIf s.t0.running 24

/-- `EVT_RSTATE`. -/
def Events.rstate (e : Events) : Word :=
  bitIf e.impact.episode 0 ||| bitIf e.freefall.episode 1 ||| bitIf e.ospd.episode 3 ||| bitIf e.uspd.episode 4 |||
    bitIf (e.imbX.episode || e.imbY.episode || e.imbZ.episode) 5 ||| bitIf e.still.episode 6

end Sys2Proof.Machine
end

