-- ==== Sys2Proof/Machine/Filter.lean ====
section
/-! DEFINITION. The filter chains (R301 to R350): arithmetic, restarts, output instants, delivery, castling, the coefficient
library and the synchronising reset. -/

namespace Sys2Proof.Machine

/-! ### Groups (R301) -/

/-- The number of a group: 0 ACF, 1 ACH, 2 GYR, 3 TMP, 4 to 11 the aux channels, 12 the ACF resampler chains. -/
def grpNo : Group → Nat
  | .acf => 0
  | .ach => 1
  | .gyr => 2
  | .tmp => 3
  | .aux n => 4 + n.val
  | .resampler => 12

/-- A group of an aux channel. -/
def isAux (g : Nat) : Bool := decide (4 ≤ g) && decide (g < 12)

/-- The input period in ticks (R301); an aux group counts conversions. -/
def inPeriod (g : Nat) : Nat :=
  match g with
  | 0 => 64
  | 12 => 64
  | 1 => 256
  | 2 => 256
  | 3 => 1024
  | _ => 1

/-- The input rate of a motion or TMP group is 2 to this power (R301). -/
def inRateLog (g : Nat) : Nat :=
  match g with
  | 0 => 20
  | 12 => 20
  | 1 => 18
  | 2 => 18
  | _ => 16

/-- The front-end delay in ticks (R265, R389). -/
def frontDelay (g : Nat) : Nat :=
  match g with
  | 0 => 256
  | 12 => 256
  | 1 => 512
  | 2 => 768
  | 3 => 4096
  | _ => 24576

/-- The number of chains of a group (R301). -/
def chainsOf (g : Nat) : Nat := if g < 3 ∨ g = 12 then 3 else 1

/-- The base of a group's registers (R348). -/
def fltBase (g : Nat) : Nat := 0x1000 + 16 * g

/-- The rate field of a motion group or TMP: its register (R301). -/
def rateReg (g : Nat) : Nat :=
  match g with
  | 0 => 0x0C04
  | 1 => 0x0C24
  | 2 => 0x0C28
  | _ => 0x0C2C

/-- The n of a group's rate 16 × 2^n; in Watch the ACF group runs at `WATCH_RATE` (R278, R313). -/
def Mach.rateN (m : Mach) (g : Nat) : Nat :=
  if g = 0 && m.inWatch then m.fld 0x0C00 10 2
  else if g = 3 then m.fld 0x0C2C 0 3
  else m.fld (rateReg g) 0 4

/-- The chain configuration that the registers ask for (R302, R309, R311, R312, R313). -/
def Mach.wantCfg (m : Mach) (g : Nat) : ChainCfg :=
  if g = 12 then ⟨3, 16, none, false⟩
  else
    let c := m.reg (fltBase g)
    let p := if g = 0 && m.inWatch && bitsAt c 0 3 = 5 then 3 else bitsAt c 0 3
    let l := if isAux g then 2 ^ bitsAt c 28 4 else 2 ^ (inRateLog g - 4 - m.rateN g)
    if p = 5 then ⟨bitsAt c 4 2 + 1, m.fld (fltBase g + 4) 0 17, if bitAt c 8 then some (bitsAt c 9 6 + 1) else none, true⟩
    else if p = 4 then ⟨4, l / 2, some 63, false⟩
    else ⟨p + 1, l, none, false⟩

/-- Inputs per output (R303). -/
def ChainCfg.perOut (c : ChainCfg) : Nat := if c.taps.isSome then 2 * c.l else c.l

/-- The output period: ticks, or conversions in an aux group (R315, R316). -/
def ChainCfg.period (c : ChainCfg) (g : Nat) : Nat := c.perOut * inPeriod g

/-- U, the outputs flagged after a restart (R323). -/
def ChainCfg.uns (c : ChainCfg) : Nat :=
  match c.taps with
  | none => c.k
  | some t => (c.k + t) / 2

/-- Twice the group delay in input periods (R318). -/
def ChainCfg.delay2 (c : ChainCfg) : Nat :=
  c.k * (c.l - 1) + (match c.taps with
    | none => 0
    | some t => (t - 1) * c.l)

/-- The frame divisors of R388. -/
def rateDivisor (r : Nat) : Nat := [1, 2, 4, 5, 8, 10, 20, 25, 40, 50, 100, 125, 200, 250, 500, 1000].getD r 1

/-- The start of the slot of position `p` (0 to 3) in frame `j`, frames counted from timestamp 0 (R386). -/
def slotStart (j p : Nat) : Nat := j / 1000 * second + (4 * (j % 1000) + p) * second / 4000

/-- The last frame whose slot of position `p` starts at or before `x` (R386). -/
def lastFrame (p x : Nat) : Nat :=
  let j := x * 1000 / second + 1
  if slotStart j p ≤ x then j else if slotStart (j - 1) p ≤ x then j - 1 else j - 2

/-- Channel `n` runs as a companion under the configuration in force (R408). -/
def Mach.isComp (m : Mach) (n : Nat) : Bool := (m.auxCfg n).comp

/-- The frame divisor of aux channel `n` (R388); a companion converts in the frames of the channel below it (R408). -/
def Mach.auxDivisor (m : Mach) (n : Nat) : Nat := rateDivisor (bitsAt (m.auxCfg n).timing 24 4)

/-- The instant `k` conversions of channel `n` after one at `t` (R387, R388). -/
def Mach.auxAhead (m : Mach) (n t k : Nat) : Nat :=
  let j := lastFrame (n % 4) (t - 33152)
  slotStart (j + k * m.auxDivisor n) (n % 4) + (t - slotStart j (n % 4))

/-- Group delay and front-end delay of a group in ticks, for an output at `t` (R318, R389); in companion mode the instant is that
of the companion's slot where it is the later one (R411). -/
def Mach.totalDelay (m : Mach) (g t : Nat) : Int :=
  let d := (m.grp g).cfg.delay2
  if isAux g then
    let n := g - 4
    let p := n % 4
    let j := lastFrame p (t - 33152)
    let late := if (m.auxCfg n).hosts && p < 3 then slotStart j (p + 1) - slotStart j p else 0
    divRound ((d * m.auxDivisor n * second : Nat) : Int) 2000 + ((frontDelay g + late : Nat) : Int)
  else ((d * inPeriod g / 2 + frontDelay g : Nat) : Int)

/-! ### Held value (R268 to R270) -/

/-- The held values in force at an instant, from the history, newest first; before the first update H is 0 (R274). -/
def heldAt : List (Nat × Int × Int × Int) → Nat → Int × Int × Int
  | [], _ => (0, 0, 0)
  | (u, h) :: rest, t => if u ≤ t then h else heldAt rest t

/-- One axis of a triple. -/
def axisOf (v : Int × Int × Int) (i : Nat) : Int :=
  match i with
  | 0 => v.1
  | 1 => v.2.1
  | _ => v.2.2

/-- H of axis `i` in force at an instant, for a chain of group `g`: 0 but for ACF. -/
def Mach.heldFor (m : Mach) (g i t : Nat) : Int := if g = 0 ∨ g = 12 then axisOf (heldAt m.mot.hist t) i else 0

/-! ### Chain arithmetic (R303 to R308) -/

/-- Integrators: each adds the one before it, the first the input (R303, R304).
Log entry 62 (DEDUCED, unsafe). -/
def integrate {α : Type} [Add α] : List α → α → List α
  | [], _ => []
  | x :: xs, v => (x + v) :: integrate xs (x + v)

/-- Combs with a differential delay of one: the result and the next state (R303).
Log entry 62 (DEDUCED, unsafe). -/
def combs {α : Type} [Sub α] : List α → α → α × List α
  | [], v => (v, [])
  | x :: xs, v =>
    let (r, rest) := combs xs (v - x)
    (r, v :: rest)

/-- E of R306: the least whole number with L^K ≤ 2^E. -/
def ceilLog (n : Nat) : Nat := ((List.range 66).find? (fun e => decide (n ≤ 2 ^ e))).getD 66

/-- Limited to 24 bits, with whether it was outside (R264, R308). -/
def limit24 (v : Int) : Int × Bool :=
  (clampInt (-(2 ^ 23 : Nat)) (2 ^ 23 - 1 : Nat) v, decide (v < -(2 ^ 23 : Nat)) || decide (((2 ^ 23 - 1 : Nat) : Int) < v))

/-- The scaling stage: S × A / L^K, in custom mode S × A × GAIN / 2^(31 + E) (R305, R306).
Log entry 62 (DEDUCED, unsafe). -/
def scaleY (c : ChainCfg) (a gain : Nat) (s : Int) : Int :=
  if c.custom then divRound (s * (a * gain : Nat)) (2 ^ (31 + ceilLog (c.l ^ c.k)))
  else divRound (s * (a : Nat)) (c.l ^ c.k)

/-- A of R305. -/
def scaleA (g : Nat) : Nat := if isAux g then 1 else 16

/-- GAIN of a group (R306). -/
def Mach.gainOf (m : Mach) (g : Nat) : Nat := m.fld (fltBase g + 8) 0 32

/-- A chain with zero history (R322): every input before was 0, relative to the H `h` of the restart instant, `w` the window
code (R270). -/
def freshChain (c : ChainCfg) (a gain w : Nat) (h : Int) : Chain :=
  let unit := ((2 ^ (4 - w) : Nat) : Int)
  let y := (limit24 (scaleY c a gain (h * unit * ((c.l ^ c.k : Nat) : Int)) - h * 16 * unit)).1
  ⟨List.replicate c.k 0, List.replicate c.k 0, List.replicate c.k 0, List.replicate c.k 0, h,
    List.replicate 64 ⟨y, h, false, false⟩, none, none, 0, [], false⟩

/-- One input into a chain: its value, the H in force, its flags (R303, R308, R420). -/
def Chain.input (x : Chain) (v h : Int) (full blk : Bool) : Chain :=
  { x with
    integ := integrate x.integ (BitVec.ofInt 88 v)
    hInteg := integrate x.hInteg (h - x.hRef)
    sinceFull := if full then some 0 else x.sinceFull.map (· + 1)
    sinceBlk := if blk then some 0 else x.sinceBlk.map (· + 1) }

/-- An age lies within the impulse response of the cascade, of K × (L − 1) + 1 inputs (R303). -/
def ChainCfg.reaches (c : ChainCfg) (age : Option Nat) : Bool :=
  match age with
  | some k => decide (k ≤ c.k * (c.l - 1))
  | none => false

/-- The decimator and combs: one pre-FIR value enters the delay line (R303 to R308).
Log entry 62 (DEDUCED, unsafe). -/
def Chain.decimate (x : Chain) (c : ChainCfg) (a gain w : Nat) (h : Int) : Chain :=
  let (s, comb) := combs x.comb (x.integ.getLastD 0)
  let (sh, hComb) := combs x.hComb (x.hInteg.getLastD 0)
  let unit := ((2 ^ (4 - w) : Nat) : Int)
  let total := s.toInt + (sh + x.hRef * ((c.l ^ c.k : Nat) : Int)) * unit
  let (y, clip) := limit24 (scaleY c a gain total - h * 16 * unit)
  { x with
    comb := comb
    hComb := hComb
    line := ⟨y, h, clip || c.reaches x.sinceFull, c.reaches x.sinceBlk⟩ :: x.line.take 63
    recent := x.recent.take (c.k * (c.l - 1)) }

/-- An older input enters the cascade again, and the combs with it at a multiple of L inputs (R303): `phase` is its place in the
grid of the decimator. -/
def Chain.again (x : Chain) (c : ChainCfg) (phase : Nat) (v h : Int) : Chain :=
  let x := { x with integ := integrate x.integ (BitVec.ofInt 88 v), hInteg := integrate x.hInteg (h - x.hRef) }
  if phase % c.l = 0 then
    { x with comb := (combs x.comb (x.integ.getLastD 0)).2, hComb := (combs x.hComb (x.hInteg.getLastD 0)).2 }
  else x

/-- The first input after a DAMPER hold comes (R321, R322, R421): the inputs taken before the hold stay in the history as they were
taken, next to it, so the cascade stands as if they had come just before it; `n` is its place in the grid of inputs.
Log entry 137 (DEDUCED, unsafe). -/
def Chain.thaw (x : Chain) (c : ChainCfg) (n : Nat) : Chain :=
  let zero := { x with integ := x.integ.map (fun _ => 0), comb := x.comb.map (fun _ => 0), hInteg := x.hInteg.map (fun _ => 0),
                       hComb := x.hComb.map (fun _ => 0), frozen := false }
  x.recent.zipIdx.reverse.foldl (fun x p => x.again c (n + (c.l - 1) * (p.2 + 1)) p.1.1 p.1.2) zero

/-- The FIR sum Σ c_i × y_(q−i) over the taps given, each pre-FIR value with the H it is relative to (R270, R307).
Log entry 62 (DEDUCED, unsafe). -/
def firSum (taps : List Int) (line : List PreFir) (unit : Int) : Int :=
  ((List.zipWith (fun c p => c * (p.y + p.h * unit)) taps line)).sum

/-- The FIR result of one bank, before its limits (R307). -/
def firZ (taps : List Int) (line : List PreFir) (unit h : Int) : Int :=
  divRound (firSum taps line unit) (2 ^ 22) - h * unit

/-! ### Coefficients (R334 to R336, R346) -/

/-- The centre tap that the free side taps leave for a sum of 2^22 (R335).
Log entry 65 (DESIGN CHOICE, safe). -/
def stdRest : Int := 2 ^ 22 - 2 * ((List.range 31).map (fun k => (Config.stdTap k).toInt)).sum

/-- The free side taps leave a centre tap of 24 bits, as those of the standard filter do (R144, R335).
Log entry 65 (DESIGN CHOICE, safe). -/
def stdFits : Bool := decide (-(2 ^ 23 : Int) ≤ stdRest) && decide (stdRest < 2 ^ 23)

/-- A side tap of the standard filter; taps that leave no centre tap are no standard filter, and 0 stands for them.
Log entry 65 (DESIGN CHOICE, safe). -/
def stdSide (i : Nat) : Int := if stdFits then (Config.stdTap i).toInt else 0

/-- The centre tap of the standard filter (R335). -/
def stdCentre : Int := if stdFits then stdRest else 2 ^ 22

/-- A standard coefficient as a number in units of 2^-22: symmetric about tap 31, 0 in tap 63, with the sum 2^22 (R335).
Log entry 65 (DESIGN CHOICE, safe). -/
def stdCoef (i : Nat) : Word :=
  if i = 31 then word (unsignedOf 24 stdCentre)
  else if i < 31 then word (unsignedOf 24 (stdSide i))
  else if i < 63 then word (unsignedOf 24 (stdSide (62 - i)))
  else 0

/-- What an address of the coefficient memory reads as before it is written: the standard filter (R335).
Log entries 14 (DESIGN CHOICE, unsafe), 65 (DESIGN CHOICE, safe). -/
def coefReset (a : Nat) : Word := stdCoef (a % 64)

/-- A coefficient word: group, bank B, tap.
Log entry 14 (DESIGN CHOICE, unsafe). -/
def Mach.coef (m : Mach) (g : Nat) (bankB : Bool) (tap : Nat) : Word :=
  cellGet coefReset m.mem.coefs (128 * g + (if bankB then 64 else 0) + tap)

/-- The first `n` taps of a bank as numbers. -/
def Mach.taps (m : Mach) (g : Nat) (bankB : Bool) (n : Nat) : List Int :=
  (List.range n).map (fun i => signed 24 (m.coef g bankB i).toNat)

/-- A bank replaced, tap by tap. -/
def Mach.setBank (m : Mach) (g : Nat) (bankB : Bool) (ws : List Word) : Mach :=
  ws.zipIdx.foldl (fun m p =>
    { m with mem := { m.mem with
        coefs := cellSet coefReset m.mem.coefs (128 * g + (if bankB then 64 else 0) + p.2) (p.1 &&& 0xFFFFFF) } }) m

/-- The castling request bit of a group.
Log entry 64 (DEDUCED, unsafe). -/
def Mach.castleReq (m : Mach) (g : Nat) : Bool := m.flag 0x10C0 g

/-- A write through `FLT_CDATA` to a bank is refused (R336). -/
def Mach.bankBusy (m : Mach) (g : Nat) (bankB : Bool) : Bool :=
  let s := m.grp g
  s.bankB == bankB || s.fade.isSome || s.castlePend || m.castleReq g

/-! ### Restarts (R321 to R325) -/

/-- Fresh chains for a group's configuration at an instant (R322). -/
def Mach.freshChains (m : Mach) (g t : Nat) (c : ChainCfg) : List Chain :=
  (List.range (chainsOf g)).map (fun i => freshChain c (scaleA g) (m.gainOf g) m.mot.window (m.heldFor g i t))

/-- The first multiple of `p` at or after `t`. -/
def nextMultiple (p t : Nat) : Nat := (t + p - 1) / p * p

/-- An event of a group's status register (R348). A third one within an output period of a running group joins the second: the
register takes at most two (R349).
Log entry 138 (DESIGN CHOICE, unsafe). -/
def Mach.fltEvent (m : Mach) (g i : Nat) : Mach :=
  let a := fltBase g + 12
  if (m.grp g).started && decide (2 ≤ (m.grp g).events) then m.setReg a (m.reg a ||| bitMask i)
  else (m.sqBit a i).updGrp g (fun s => { s with events := s.events + 1 })

/-- The marks of a restart at an instant: UNS outputs, RESTART, and a timing record (R323, R324, R518). Restarts of one FOSC cycle
count as one (R325).
Log entry 63 (DEDUCED, unsafe). -/
def Mach.restartMarks (m : Mach) (g t : Nat) : Mach :=
  let again := decide ((m.grp g).restartAt = some t)
  let m := m.updGrp g (fun s => { s with unsLeft := s.cfg.uns, restartAt := some t })
  if again || decide (12 ≤ g) then m else (m.fltEvent g 22).oweTiming g 1

/-- A restart with kept history at an instant: a range change, an excitation change, the end of a DAMPER hold (R321).
Log entry 63 (DEDUCED, unsafe). -/
def Mach.restartKept (m : Mach) (g t : Nat) : Mach := if (m.grp g).started then m.restartMarks g t else m

/-- A restart with zero history whose first input is the first at or after `t` (R321, R322).
Log entry 63 (DEDUCED, unsafe). -/
def Mach.restartZero (m : Mach) (g t : Nat) : Mach :=
  let s := m.grp g
  let m := m.updGrp g (fun s => { s with chains := m.freshChains g t s.cfg, start := t, convCount := 0 })
  if s.started then m.restartMarks g t else m

/-- A source start (R321): the configuration the registers ask for, zero history, the first input the first at or after `t`.
Log entry 63 (DEDUCED, unsafe). -/
def Mach.startSource (m : Mach) (g t : Nat) : Mach :=
  let c := m.wantCfg g
  let t := nextMultiple (inPeriod g) t
  let p := c.period g
  let m := m.updGrp g (fun s =>
    { s with cfg := c, nextCfg := none, chains := m.freshChains g t c, started := true, start := t, period := p,
             nextOut := if isAux g then s.nextOut else nextMultiple p t, convCount := 0, events := 0 })
  m.restartMarks g t

/-- A group's source or D3 switches OFF: it delivers nothing and keeps nothing (R27, R326). -/
def Mach.stopSource (m : Mach) (g : Nat) : Mach :=
  m.updGrp g (fun s => { s with started := false, nextCfg := none, chains := [], unsLeft := 0, fade := none, castlePend := false,
                                restartAt := none, events := 0, reqAgain := false, firLeft := false })

/-- A preset change reaches a running group after the next output of its old grid (R321).
Log entry 63 (DEDUCED, unsafe). -/
def Mach.presetChange (m : Mach) (g : Nat) : Mach :=
  let c := m.wantCfg g
  if (m.grp g).started then m.updGrp g (fun s => { s with nextCfg := some c }) else m.updGrp g (fun s => { s with cfg := c })

/-! ### Castling (R337 to R345) -/

/-- `CASTLED` of a group. -/
def Mach.castled (m : Mach) (g : Nat) : Mach := m.fltEvent g 23

/-- `REQ` of a group written by hardware. -/
def Mach.setReq (m : Mach) (g : Nat) (b : Bool) : Mach := m.setFld 0x10C0 g 1 (if b then 1 else 0)

/-- The castling executes without a fade (R343). -/
def Mach.castleNow (m : Mach) (g : Nat) : Mach :=
  ((m.updGrp g (fun s => { s with bankB := !s.bankB, castlePend := false })).setReq g false).castled g

/-- A group's castling executes in this FOSC cycle: its output instant has come (R337). -/
def Mach.castlingNow (m : Mach) (g : Nat) : Bool :=
  let s := m.grp g
  m.castleReq g && s.started && s.cfg.taps.isSome && s.fade.isNone && decide (s.nextOut = m.ts)

/-- A request made in the FOSC cycle of the execution that clears it wins (R342): it is pending over the fade that has begun, or
waits for the next output instant. -/
def Mach.castleAgain (m : Mach) (g : Nat) : Mach :=
  if (m.grp g).reqAgain then
    (m.setReq g true).updGrp g (fun s => { s with reqAgain := false, castlePend := s.fade.isSome })
  else m

/-- At an output instant of a group with the FIR stage: a requested castling executes, and a fade in progress makes its next
output (R337, R338, R340).
Log entry 64 (DEDUCED, unsafe). -/
def Mach.castleStep (m : Mach) (g : Nat) : Mach :=
  match (m.grp g).fade with
  | some f => m.updGrp g (fun s => { s with fade := some { f with j := f.j + 1 } })
  | none =>
    if m.castleReq g then
      let n := m.fld (fltBase g) 16 11
      if n = 0 then (m.castleNow g).castleAgain g
      else ((m.updGrp g (fun s => { s with bankB := !s.bankB, castlePend := false, fade := some ⟨1, n⟩ })).setReq g false).castleAgain g
    else m

/-- After an output: the last cross-fade output ends the fade (R339).
Log entry 64 (DEDUCED, unsafe). -/
def Mach.castleEnd (m : Mach) (g : Nat) : Mach :=
  match (m.grp g).fade with
  | some f => if f.f ≤ f.j then (m.updGrp g (fun s => { s with fade := none })).castled g else m
  | none => m

/-- The restart instant of a preset change that has taken the FIR stage out of use (R344): a fade ends and a pending castling
executes. -/
def Mach.firLeaves (m : Mach) (g : Nat) : Mach :=
  let m := m.updGrp g (fun s => { s with firLeft := false })
  let m := if (m.grp g).fade.isSome then (m.updGrp g (fun s => { s with fade := none })).castled g else m
  if m.castleReq g then m.castleNow g else m

/-- The groups, none of the aux channels', whose restart instant of R344 has come. -/
def Mach.firsLeave (m : Mach) : Mach :=
  (List.range 4).foldl (fun (m : Mach) g => if (m.grp g).firLeft && decide ((m.grp g).start ≤ m.ts) then m.firLeaves g else m) m

/-- A preset change takes effect after the last output of the old grid, at `t` (R321, R322, R344). -/
def Mach.applyPreset (m : Mach) (g t : Nat) : Mach :=
  match (m.grp g).nextCfg with
  | none => m
  | some c =>
    let had := (m.grp g).cfg.taps.isSome
    let t' := t + inPeriod g
    let p := c.period g
    let m := m.updGrp g (fun s =>
      { s with cfg := c, nextCfg := none, chains := m.freshChains g t' c, start := t', period := p,
               nextOut := if isAux g then m.auxAhead (g - 4) t p else (t / p + 1) * p, convCount := 0 })
    let m := m.restartMarks g t'
    if had && c.taps.isNone && ((m.grp g).fade.isSome || m.castleReq g) then m.updGrp g (fun s => { s with firLeft := true }) else m

/-- The FIR value of a chain with the fade in force (R307, R338). -/
def Mach.firOut (m : Mach) (g n : Nat) (line : List PreFir) (unit h : Int) : Int :=
  let s := m.grp g
  let z := fun (b : Bool) => firZ (m.taps g b n) line unit h
  match s.fade with
  | none => z s.bankB
  | some f =>
    divRound ((((f.f + 1 - f.j : Nat) : Int)) * z (!s.bankB) + (f.j : Int) * z s.bankB) (f.f + 1)

/-- A chain's output: its value and its CLP and BLK flags (R303 to R308). -/
def Mach.chainOut (m : Mach) (g i t : Nat) (x : Chain) : Int × Bool × Bool :=
  match (m.grp g).cfg.taps with
  | none =>
    match x.line with
    | p :: _ => (p.y, p.clp, p.blk)
    | [] => (0, false, false)
  | some n =>
    let unit := if g = 0 ∨ g = 12 then ((2 ^ (8 - m.mot.window) : Nat) : Int) else 1
    let (v, clip) := limit24 (m.firOut g n x.line unit (m.heldFor g i t))
    (v, clip || (x.line.take n).any (fun p => p.clp), (x.line.take n).any (fun p => p.blk))

/-! ### DAMPER and the chains (R417 to R422) -/

/-- A motion group holds under DAMPER (R419); the ACF resampler chains follow the ACF group (R422). -/
def Mach.damperHold (m : Mach) (g : Nat) : Bool :=
  match g with
  | 0 => m.flag 0x1A04 4
  | 12 => m.flag 0x1A04 4
  | 1 => m.flag 0x1A04 5
  | 2 => m.flag 0x1A04 6
  | _ => false

/-- An instant lies in a DAMPER assertion (R421). -/
def Mach.inDamper (m : Mach) (t : Nat) : Bool :=
  m.aux.spans.any (fun s => decide (s.start ≤ t) && (match s.stop with
    | some e => decide (t < e)
    | none => true))

/-- An instant lies in a DAMPER assertion or its tail (R420). -/
def Mach.blanked (m : Mach) (t : Nat) : Bool :=
  let tail := m.fld 0x1A04 16 10 * second / 100000
  m.aux.spans.any (fun s => decide (s.start ≤ t) && (match s.stop with
    | some e => decide (t ≤ e + tail)
    | none => true) && (match s.off with
    | some o => decide (t < o)
    | none => true))

/-- Group `g` takes no input at an instant. -/
def Mach.heldOff (m : Mach) (g t : Nat) : Bool := m.damperHold g && m.inDamper t

/-! ### Inputs (R290, R301) -/

/-- A sample of an axis with the other sign. -/
def negSample (s : Sample) : Sample := { s with v := -s.v }

/-- Package axes to output axes (R290).
Log entry 57 (DESIGN CHOICE, unsafe). -/
def mapAxes {α : Type} (k : Nat) (neg : α → α) (x y z : α) : α × α × α :=
  match k with
  | 1 => (y, neg x, z)
  | 2 => (neg x, neg y, z)
  | 3 => (neg y, x, z)
  | 4 => (x, neg y, neg z)
  | 5 => (neg y, neg x, neg z)
  | 6 => (neg x, y, neg z)
  | 7 => (y, x, neg z)
  | _ => (x, y, z)

/-- `MNT_AXMAP`. -/
def Mach.axmap (m : Mach) : Nat := m.fld 0x0C38 0 3

/-- A history, newest first, back to what was in force at an instant. -/
def keepSince {α : Type} (t : Nat) : List (Nat × α) → List (Nat × α)
  | [] => []
  | x :: rest => if x.1 ≤ t then [x] else x :: keepSince t rest

/-- The axis map in force at an instant, from the history, newest first. -/
def mapAt : List (Nat × Nat) → Nat → Nat
  | [], _ => 0
  | (u, k) :: rest, t => if u ≤ t then k else mapAt rest t

/-- The samples of chain `i` of a group up to the one at `t`: package axes mapped to output axes as when each was taken (R290, R322),
or TMP's own.
Log entry 57 (DESIGN CHOICE, unsafe). -/
def Mach.samplesOf (m : Mach) (g i t : Nat) (ins : List (List Sample)) : List Sample :=
  if g = 3 then ins.getD 0 []
  else
    let v := (ins.getD 0 []).zip ((ins.getD 1 []).zip (ins.getD 2 []))
    v.zipIdx.map (fun s =>
      let k := mapAt m.mot.maps (t - (v.length - 1 - s.2) * inPeriod g)
      let (x, y, z) := mapAxes k negSample s.1.1 s.1.2.1 s.1.2.2
      match i with
      | 0 => x
      | 1 => y
      | _ => z)

/-- One input of a chain, at `u`: one before the first input or already taken is left out, one inside a hold freezes the chain (R421);
the decimator keeps each multiple of its period (R303, R315). -/
def Mach.feedOne (m : Mach) (g i u : Nat) (x : Chain) (s : Sample) : Chain :=
  let p := inPeriod g
  let c := (m.grp g).cfg
  let h := m.heldFor g i u
  if u < (m.grp g).start then x
  else if m.heldOff g u then { x with frozen := true }
  else
    let x := if x.frozen then x.thaw c (u / p) else x
    let x := x.input s.v h s.full (g ≠ 3 && m.blanked u)
    let x := if g = 3 then x else { x with recent := (s.v, h) :: x.recent }
    if u % (c.l * p) = 0 then x.decimate c (scaleA g) (m.gainOf g) m.mot.window h else x

/-- The inputs of one chain up to the output at `t`, the last of them at `t` itself. -/
def Mach.feed (m : Mach) (g i t : Nat) (x : Chain) : List Sample → Chain
  | [] => x
  | s :: rest => m.feed g i t (m.feedOne g i (t - rest.length * inPeriod g) x s) rest

/-! ### Outputs (R315 to R327) -/

/-- A sample word (R263, R512). -/
def sampleWord (v : Int) (uns clp blk : Bool) (code : Nat) : Word :=
  word (unsignedOf 24 v * 256 + code) ||| bitIf uns 7 ||| bitIf clp 6 ||| bitIf blk 5

/-- One output of one chain. -/
structure OutVal where
  v : Int
  uns : Bool
  clp : Bool
  blk : Bool
  deriving DecidableEq, Repr

/-- The bits of the three axes, X lowest. -/
def axisBits (x y z : Bool) : Nat := (if x then 1 else 0) + (if y then 2 else 0) + (if z then 4 else 0)

/-- The four words of a hold record (R284). -/
def Motion.words (s : Motion) (acq : Bool) : List Word :=
  [word (0x01000000 + s.z.src * 2 ^ 22 + s.y.src * 2 ^ 20 + s.x.src * 2 ^ 18 +
      axisBits s.x.satNow s.y.satNow s.z.satNow * 2 ^ 15 + axisBits s.x.slew s.y.slew s.z.slew * 2 ^ 12 +
      axisBits s.x.achref s.y.achref s.z.achref * 2 ^ 9 + (if acq then 256 else 0) + 28),
   word (unsignedOf 24 s.x.h * 256 + 28), word (unsignedOf 24 s.y.h * 256 + 28), word (unsignedOf 24 s.z.h * 256 + 28)]

/-- The open Q0 block holds a whole hold record for the last update (R282). -/
def Mach.holdHere (m : Mach) : Bool := (m.q 0).openBlk.isSome && decide (m.mot.heldIn = some (m.q 0).nextSeq)

/-- A hold record enters Q0; it counts for the block in which it lies whole.
Log entry 59 (DEDUCED, unsafe). -/
def Mach.putHold (m : Mach) (ws : List Word) : Mach :=
  if m.accepts 0 then
    let seq := (m.q 0).nextSeq
    let m := m.offer 0 ws
    let whole := (m.q 0).nextSeq = seq && (m.q 0).openBlk.isSome
    { m with mot := { m.mot with heldIn := if whole then some seq else none } }
  else m

/-- A whole hold record stands in the block before the next ACF output (R282); `n` bounds the attempts. -/
def Mach.ensureHold (m : Mach) : Nat → Mach
  | 0 => m
  | n + 1 => if m.holdHere || !m.accepts 0 then m else (m.putHold m.mot.record).ensureHold n

/-- The hold records of updates at or before an ACF output's instant (R283).
Log entry 59 (DEDUCED, unsafe). -/
def Mach.dueHolds (m : Mach) (t : Nat) : Mach :=
  let ds := m.mot.due.filter (fun d => decide (d.1 ≤ t))
  let m := { m with mot := { m.mot with due := m.mot.due.filter (fun d => decide (t < d.1)) } }
  ds.foldl (fun m d => m.putHold d.2) m

/-- The timing record that a group owes (R518). -/
def Mach.putTiming (m : Mach) (g : Nat) : Mach :=
  match (m.grp g).timing with
  | none => m
  | some r => (m.updGrp g (fun s => { s with timing := none })).offer (groupQueue g) (m.timingWords g r)

/-- The words of an output instant enter the group's queue, with what stands before them (R283, R515, R518).
Log entry 59 (DEDUCED, unsafe). -/
def Mach.deliverWords (m : Mach) (g t : Nat) (ws : List Word) : Mach :=
  let q := groupQueue g
  if !m.accepts q then m.offer q ws
  else
    let m := if g = 0 then (m.dueHolds t).ensureHold 2 else m
    let m := m.putTiming g
    ws.foldl (fun m w => (if g = 0 then m.ensureHold 2 else m).offer q [w]) m

/-- Sum of the squares of three numbers. -/
def sumSq (x y z : Int) : Nat := (x * x + y * y + z * z).toNat

/-- The square root of `n` in units of 2^`s`, rounded to nearest and limited to 2^23 − 1 (R433). -/
def magnitude (n s : Nat) : Nat :=
  let k := n >>> (2 * s)
  let r := isqrt k
  let up := if s = 0 then decide (r * r + r < n) else decide ((2 * r + 1) ^ 2 * 2 ^ (2 * s - 2) ≤ n)
  min (2 ^ 23 - 1) (if up then r + 1 else r)

/-- The magnitudes of a motion group's output instant, as evaluation sources (R432, R433). -/
def Mach.magnitudes (m : Mach) (g t : Nat) (x y z : Int) : List (Nat × Nat) :=
  match g with
  | 0 =>
    let tot := fun i v => acfTotal (m.heldFor 0 i t) v m.mot.window
    [(32, magnitude (sumSq x y z) 0), (33, magnitude (sumSq (tot 0 x) (tot 1 y) (tot 2 z)) 12)]
  | 1 => [(34, magnitude (sumSq x y z) 0)]
  | 2 => [(35, magnitude (sumSq (4000 * x) (4000 * y) (m.gyrzRange * z)) 17)]
  | _ => []

/-- The outputs of an instant reach the event engine (R431 to R435, R446). -/
def Mach.deliverEvents (m : Mach) (g t : Nat) (os : List OutVal) : Mach :=
  let phys : Int := (t : Int) - m.totalDelay g t
  let m := os.zipIdx.foldl (fun m o =>
    m.evtOutput ⟨groupCode g + o.2, o.1.v, phys, o.1.uns, o.1.clp, o.1.blk⟩) m
  match os with
  | [x, y, z] =>
    let uns := x.uns || y.uns || z.uns
    let clp := x.clp || y.clp || z.clp
    let blk := x.blk || y.blk || z.blk
    let m := (m.magnitudes g t x.v y.v z.v).foldl (fun m s => m.evtOutput ⟨s.1, (s.2 : Int), phys, uns, clp, blk⟩) m
    if g = 0 && m.recRuns 2 && m.flag 0x2060 1 then
      m.revGravity (acfTotal (m.heldFor 0 0 t) x.v m.mot.window) (acfTotal (m.heldFor 0 1 t) y.v m.mot.window)
        ⟨33, 0, phys, uns, clp, blk⟩
    else m
  | _ => m

/-- The status bits and counts of CLP outputs, and `TMP_VALUE` (R264, R289, R297).
Log entry 56 (DEDUCED, unsafe). -/
def Mach.outputStatus (m : Mach) (g : Nat) (os : List OutVal) : Mach :=
  let base := match g with
    | 0 => 0
    | 1 => 9
    | 2 => 12
    | _ => 15
  if g < 4 then
    let m := os.zipIdx.foldl (fun m o => if o.1.clp then m.sqBit 0x0C3C (base + o.2) else m) m
    let m := if g = 0 then m.countN 0x0C40 (os.countP (fun o => o.clp)) else m
    if g = 3 then m.setReg 0x0C44 (wordOfInt (os.head?.map (fun o => o.v) |>.getD 0)) else m
  else m

/-- The outputs of the ACF resampler chains at their physical instant, for the angle resampler (R302, R351). -/
def Mach.toResampler (m : Mach) (t : Nat) (os : List OutVal) : Mach :=
  let v := fun i => (os[i]?.map (fun (o : OutVal) => o.v)).getD 0
  let fl := BitVec.ofNat 9 ((os.zipIdx.map (fun o => axisBits o.1.blk o.1.clp o.1.uns * 8 ^ o.2)).sum)
  let p : AcfPoint := ⟨(t : Int) - 1696, v 0, v 1, v 2, fl, m.heldFor 12 0 t, m.heldFor 12 1 t, m.heldFor 12 2 t, m.mot.window⟩
  { m with ang := { m.ang with acf := p :: (if m.ang.rev.isSome then m.ang.acf else m.ang.acf.take 60) } }

/-- The outputs of an instant go to status, queue and event engine, or to the angle resampler (R327).
Log entry 60 (DEDUCED, unsafe). -/
def Mach.deliver (m : Mach) (g t : Nat) (os : List OutVal) : Mach :=
  if g = 12 then m.toResampler t os
  else
    let m := m.outputStatus g os
    if m.grpEnabled g then
      (m.deliverWords g t (os.zipIdx.map (fun o => sampleWord o.1.v o.1.uns o.1.clp o.1.blk (groupCode g + o.2)))).deliverEvents g t os
    else m

/-- The output instant of a group begins: a new output period (R349), and the castling of R337 where the FIR stage is in use. -/
def Mach.beginOutput (m : Mach) (g : Nat) : Mach :=
  let m := m.updGrp g (fun s => { s with events := 0 })
  if (m.grp g).cfg.taps.isSome then m.castleStep g else m

/-- What follows an output instant: the counts of UNS, the fade, the next output instant, a preset change. -/
def Mach.afterOutput (m : Mach) (g t : Nat) : Mach :=
  let m := m.updGrp g (fun s =>
    { s with unsLeft := s.unsLeft - 1, start := t + inPeriod g,
             nextOut := if isAux g then m.auxAhead (g - 4) t s.period else t + s.period, convCount := 0 })
  let m := m.castleEnd g
  m.applyPreset g t

/-- The output of a group at its output instant `t`, from chains that have taken their inputs.
Log entry 56 (DEDUCED, unsafe). -/
def Mach.formOutput (m : Mach) (g t : Nat) : Mach :=
  let m := m.beginOutput g
  let uns := decide (0 < (m.grp g).unsLeft)
  let os := (m.grp g).chains.zipIdx.map (fun x =>
    let (v, clp, blk) := m.chainOut g x.2 t x.1
    (⟨v, uns, clp, blk⟩ : OutVal))
  let m := m.updGrp g (fun s => { s with chains := List.zipWith (fun (x : Chain) (o : OutVal) => { x with last := o.v }) s.chains os })
  (m.deliver g t os).afterOutput g t

/-- An output instant inside a DAMPER hold (R421, R422): a held motion group delivers nothing, and castlings and fades go on with its
grid (R337, R338); the ACF resampler chains repeat their last output with BLK. -/
def Mach.heldOutput (m : Mach) (g t : Nat) : Mach :=
  if g = 12 then
    (m.toResampler t ((m.grp g).chains.map (fun x => (⟨x.last, false, false, true⟩ : OutVal)))).updGrp g (fun s =>
      { s with nextOut := t + s.period, start := t + inPeriod g })
  else
    (((m.beginOutput g).castleEnd g).oweTiming g 2).updGrp g (fun s => { s with nextOut := t + s.period, start := t + inPeriod g })

/-- The filter chains run: D3 is ON, and for a motion group D1, for an aux group D2, none of them under test (R27, R326).
Log entry 4 (DESIGN CHOICE, unsafe). -/
def Mach.chainRuns (m : Mach) (g : Nat) : Bool := (m.grp g).started && m.on 3 && m.on (if isAux g then 2 else 1)

/-- FILTER_OUTPUT of a group: at its output instant, the inputs since the last one enter the chains and the output goes
out (R315). Before the output instant, or while the group delivers nothing, nothing happens. -/
def Mach.filterOutput (m : Mach) (g : Nat) (ins : List (List Sample)) : Mach :=
  if !m.chainRuns g then m
  else
    let s := m.grp g
    let t := s.nextOut
    if isAux g then (if s.period ≤ s.convCount && 0 < s.convCount then m.formOutput g t else m)
    else if m.ts < t then m
    else
      let n := s.period / inPeriod g
      let m := m.updGrp g (fun s => { s with chains := s.chains.zipIdx.map (fun x =>
        let xs := m.samplesOf g x.2 t ins
        m.feed g x.2 t x.1 (xs.drop (xs.length - n))) })
      if m.heldOff g t then m.heldOutput g t else m.formOutput g t

/-- One aux conversion enters its chain (R316): every L-th gives a pre-FIR value. `t` is its instant. -/
def Mach.feedAux (m : Mach) (g t : Nat) (v : Int) (clp : Bool) : Mach :=
  let m := if (m.grp g).firLeft then m.firLeaves g else m
  let s := m.grp g
  let k := if s.period ≤ s.convCount then 1 else s.convCount + 1
  m.updGrp g (fun s =>
    { s with
      convCount := k
      nextOut := m.auxAhead (g - 4) t (s.period - k)
      chains := s.chains.map (fun x =>
        let x := x.input v 0 clp false
        if k % s.cfg.l = 0 then x.decimate s.cfg 1 (m.gainOf g) 0 0 else x) })

/-- SOURCE_START of a group (R265, R321, R326): its element's start time is over; its chains start where D3 is ON. In Watch only ACF
runs (R278, R668). -/
def Mach.sourceStart (m : Mach) (g : Nat) : Mach :=
  if isAux g || !m.on 1 || (m.inWatch && (g = 1 || g = 2 || g = 3)) then m
  else
    let m := if g = 0 then { m with mot := { m.mot with ready := true } } else m
    if (m.grp g).started || !m.on 3 then m
    else
      let m := m.startSource g m.ts
      if g = 0 && !(m.grp 12).started then m.startSource 12 m.ts else m

/-! ### Synchronising reset (R329 to R333) -/

/-- Every chain restarts with zero history at an instant; the aux chains count anew (R331). -/
def Mach.syncChains (m : Mach) (t : Nat) : Mach := (List.range 13).foldl (fun m g => m.restartZero g t) m

/-- A synchronising reset at an instant (R331, R332).
Log entry 63 (DEDUCED, unsafe). -/
def Mach.syncReset (m : Mach) (t : Nat) : Mach :=
  let m := { m with flt := { m.flt with arm := none } }
  ((((m.syncChains t).setFld 0x10C4 0 1 0).setReg 0x10C8 (loWord t)).setReg 0x10CC (hiWord t))

/-- A synchronising reset is armed, or an armed one waits anew (R329, R330). -/
def Mach.syncArm (m : Mach) : Mach :=
  { m.setFld 0x10C4 0 1 1 with flt := { m.flt with arm := some (m.clk.now, m.ts) } }

/-- SYNCHRONISING_RESET (R330): the instant that `SRC` selects has come since the arming: a multiple of 2^26 ticks, or a frame
mark where one can come. `bus`: a manager has an enabled bus. -/
def Mach.syncDue (m : Mach) (bus : Bool) : Mach :=
  match m.flt.arm with
  | none => m
  | some (t0, ts0) =>
    if !m.on 3 || !m.flag 0x10C4 0 then m
    else if m.flag 0x10C4 4 && (m.flue.role = 1 || bus) then
      match m.flue.mark with
      | some (t, i) => if t0 < t then m.syncReset i else m
      | none => m
    else
      let i := (ts0 / 2 ^ 26 + 1) * 2 ^ 26
      if i ≤ m.ts then m.syncReset i else m

/-! ### Coefficient library (R346, R347) -/

/-- The first 272 bytes of a library entry (R346): magic, protocol level, kind, save count, taps. -/
def libHead (taps : List Word) (saves : Nat) : List Byte :=
  [0x4E, 0x4C, 0x43, 0x46, 1, 3, 0, 0] ++ natBytes 4 saves ++ [0, 0, 0, 0] ++ wordsBytes taps

/-- The bytes of a library entry whose save has ended (R346). -/
def libBytes (taps : List Word) (saves : Nat) : List Byte :=
  libHead taps saves ++ digestBytes (sha256 (libHead taps saves)) ++ List.replicate 208 0

/-- An entry is valid: its magic and its digest (R346). -/
def LibEntry.valid (e : LibEntry) : Bool :=
  e.bytes.take 4 == [0x4E, 0x4C, 0x43, 0x46] && (e.bytes.drop 272).take 32 == digestBytes (sha256 (e.bytes.take 272))

/-- The taps that an entry holds. -/
def LibEntry.taps (e : LibEntry) : List Word := bytesWords ((e.bytes.drop 16).take 256)

/-- An entry of the library as it was last written. -/
def Mach.libEntry (m : Mach) (e : Nat) : Option LibEntry := m.nv.coefLib.find? (fun x => x.entry == e)

/-- The taps of a valid library entry; entry 0 is the standard filter (R346).
Log entry 66 (DEDUCED, unsafe). -/
def Mach.libTaps (m : Mach) (e : Nat) : Option (List Word) :=
  if e = 0 then some ((List.range 64).map stdCoef)
  else (m.libEntry e).bind (fun x => if x.valid then some x.taps else none)

/-- The save count that the next save into an entry writes (R346). -/
def Mach.nextSave (m : Mach) (e : Nat) : Nat :=
  match m.libEntry e with
  | some x => bytesNat ((x.bytes.drop 8).take 4) + 1
  | none => 1

/-- The bytes of a library entry replaced. -/
def Mach.putLib (m : Mach) (e : Nat) (bytes : List Byte) : Mach :=
  { m with nv := { m.nv with coefLib := m.nv.coefLib.filter (fun x => x.entry != e) ++ [⟨e, bytes⟩] } }

/-- A save that is cut off leaves its entry without a digest (R347).
Log entry 66 (DEDUCED, unsafe). -/
def Mach.saveCut (m : Mach) : Mach :=
  match m.flt.transfer with
  | some t =>
    let m := { m with flt := { m.flt with transfer := none } }
    if t.save then m.putLib t.entry (libHead t.taps (m.nextSave t.entry)) else m
  | none => m

/-! ### Registers that show the filter block (R348) -/

/-- The read-only bits of `FLT_g_STAT`. -/
def GroupState.statBits (s : GroupState) (req : Bool) : Word :=
  word (s.unsLeft * 2 ^ 16) ||| (match s.fade with
    | some f => word ((f.f - f.j) * 16) ||| bitMask 1 ||| bitIf req 2
    | none => bitIf s.castlePend 2) ||| bitIf s.bankB 0

end Sys2Proof.Machine
end

