-- ==== Sys2Proof/Machine/Trig.lean ====
section
/-! DEFINITION. Angles, sines and square roots in fixed point, with 96 bits after the point: wherever the manual's formula
gives a real number that is then rounded to a coarser grid (R272, R275, R380). -/

namespace Sys2Proof.Machine

/-- One in fixed point.
Log entry 62 (DEDUCED, unsafe). -/
def fixOne : Int := (2 ^ 96 : Nat)

/-- π in fixed point. -/
def fixPi : Int := 248902613312231085230521944622

/-- A sum of Taylor terms: `t` the term in hand, `k` its degree, `x2` the square of the argument. -/
def taylor (x2 : Int) : Nat → Nat → Int → Int
  | 0, _, _ => 0
  | n + 1, k, t => t + taylor x2 n (k + 2) (-((t * x2).fdiv (fixOne * (((k + 1) * (k + 2) : Nat) : Int))))

/-- The argument of `a / b` revolutions, in fixed point. -/
def turnArg (a b : Nat) : Int := (2 * fixPi * ((a % b : Nat) : Int)).fdiv (b : Int)

/-- cos of `a / b` revolutions in fixed point.
Log entry 62 (DEDUCED, unsafe). -/
def cosTurn (a b : Nat) : Int :=
  let x := turnArg a b
  taylor ((x * x).fdiv fixOne) 44 0 fixOne

/-- sin of `a / b` revolutions in fixed point. -/
def sinTurn (a b : Nat) : Int :=
  let x := turnArg a b
  taylor ((x * x).fdiv fixOne) 44 1 x

/-- The integer square root of a number below 2^(2 bits). -/
def isqrtBits (bits n : Nat) : Nat := (List.range bits).foldl (fun r k => isqrtStep n r (bits - 1 - k)) 0

/-- Whether the angle of (u, v), in the first quadrant, is at least `a / b` revolutions. -/
def angleAtLeast (u v : Int) (a b : Nat) : Bool := decide (u * sinTurn a b ≤ v * cosTurn a b)

/-- The angle of (u, v), with 0 < u or 0 < v and neither negative, in units of 2^-24 rev, rounded to nearest. -/
def quadrantAngle (u v : Int) : Nat :=
  (List.range 23).foldl (fun r k =>
    let c := r + 2 ^ (22 - k)
    if c ≤ 2 ^ 22 && angleAtLeast u v (2 * c - 1) (2 ^ 25) then c else r) 0

/-- The angle of (re, im), not both 0, in units of 2^-24 rev, in [0, 2^24). -/
def angle24 (re im : Int) : Nat :=
  (if 0 < re && 0 ≤ im then quadrantAngle re im
   else if re ≤ 0 && 0 < im then 2 ^ 22 + quadrantAngle im (-re)
   else if re < 0 then 2 ^ 23 + quadrantAngle (-re) (-im)
   else 3 * 2 ^ 22 + quadrantAngle (-im) re) % 2 ^ 24

/-- A rational rounded to the nearest integer, ties away from zero. -/
def roundAway (q : Rat) : Int := if 0 ≤ q then (q + 1 / 2).floor else -((-q + 1 / 2).floor)

/-- A rational rounded to the nearest integer, ties upwards (R305). -/
def roundUp (q : Rat) : Int := (q + 1 / 2).floor

/-- A fixed-point number as a rational. -/
def fixRat (i : Int) : Rat := (i : Rat) / (fixOne : Rat)

end Sys2Proof.Machine
end

