-- ==== Sys2Proof/Machine/AuxFrontEnd.lean ====
section
/-! DEFINITION. The auxiliary sensor front end (R386 to R430): conversions, excitation, wire break, linearisation, and the Damper. -/

namespace Sys2Proof.Machine

/-! ### Channels -/

/-- Aux channel `n`. -/
def Mach.chan (m : Mach) (n : Nat) : AuxChan := m.aux.chans.getD n AuxChan.empty

/-- Aux channel `n` changed. -/
def Mach.updChan (m : Mach) (n : Nat) (f : AuxChan → AuxChan) : Mach :=
  { m with aux := { m.aux with chans := listUpd m.aux.chans n f } }

/-- The base of a channel's registers (R428). -/
def auxBase (n : Nat) : Nat := 0x1800 + 64 * n

/-- The configuration that a channel's registers ask for (R390, R408). -/
def Mach.auxRegs (m : Mach) (n : Nat) : AuxCfg :=
  let r := fun k => m.reg (auxBase n + 4 * k)
  let comp := m.companion n
  ⟨r 0, r 1, r 2, r 3, r 4, r 5, r 6, r 7, comp, if comp then m.reg (auxBase (n - 1)) &&& 0x0F001000 else 0⟩

/-- The configuration that a channel takes from its registers: the word that a lead calibration writes counts once its write has
completed (R412). -/
def Mach.auxEff (m : Mach) (n : Nat) : AuxCfg :=
  let c := m.auxRegs n
  match m.nv.write with
  | some w => if w.addr = auxBase n + 0x1C && w.byPort.isNone then { c with lead := w.old } else c
  | none => c

/-- A channel uses VEXC (R397, R408). -/
def Mach.auxExc (m : Mach) (n : Nat) : Bool := m.auxActive n && bitAt (m.auxCfg n).timing 12

/-- A channel runs in companion mode (R407, R411). -/
def Mach.auxPaired (m : Mach) (n : Nat) : Bool := (m.auxCfg n).hosts

/-- A settle delay t_s in ticks (R395). -/
def settleTicks (n : Nat) : Nat := n * second / 100000

/-- The settle delay in force, in ticks (R395, R397). -/
def Mach.settleNow (m : Mach) : Nat := settleTicks m.aux.settle

/-- The conversion instant of channel `n` in frame `j` (R387, R411).
Log entry 71 (DEDUCED, unsafe). -/
def Mach.convInstant (m : Mach) (n j : Nat) : Nat :=
  let c := slotStart j (n % 4) + 33152
  if m.auxPaired n then max c (slotStart j ((n + 1) % 4) + 33152) else c

/-- A slot that started at timestamp `s`, on the clock of elapsed ticks.
Log entry 71 (DEDUCED, unsafe). -/
def Mach.slotNow (m : Mach) (s : Nat) : Int := (m.clk.now : Int) - ((m.ts : Int) - (s : Int))

/-- A channel takes the changes of its configuration that have come by a slot (R390): the next conversion is a source start, and
the count of conversions to the next check begins anew.
Log entries 71 (DEDUCED, unsafe), 73 (DEDUCED, unsafe). -/
def AuxChan.adopt (c : AuxChan) (now : Int) : AuxChan :=
  let due := c.changes.filter (fun x => decide ((x.from_ : Int) ≤ now))
  match due.getLast? with
  | none => c
  | some x =>
    let c := { c with cfg := x.cfg, changes := c.changes.filter (fun x => decide (now < (x.from_ : Int))) }
    if due.any (fun x => x.restart) then
      { c with fresh := true, tcj := none, sinceCheck := 0, checkFrame := none, checkDue := false }
    else c

/-- A slot of channel `n` starts at `s`: it takes the changes written 10 µs before it, and a channel they disable delivers nothing
from then (R326, R390).
Log entry 71 (DEDUCED, unsafe). -/
def Mach.auxAdopt (m : Mach) (n s : Nat) : Mach :=
  if (m.chan n).changes.isEmpty then m
  else
    let was := m.auxActive n
    let m := m.updChan n (fun c => c.adopt (m.slotNow s))
    if was && !m.auxActive n then m.stopSource (4 + n) else m

/-- Every channel whose slot has started takes its changes (R390). -/
def Mach.auxTick (m : Mach) : Mach :=
  (List.range 8).foldl (fun (m : Mach) n => m.auxAdopt n (slotStart (lastFrame (n % 4) m.ts) (n % 4))) m

/-- A change of channel `n`'s configuration from the tick `t` (R390).
Log entry 75 (DEDUCED, unsafe). -/
def Mach.auxChange (m : Mach) (n t : Nat) (c : AuxCfg) (restart : Bool) : Mach :=
  m.updChan n (fun x => { x with changes := x.changes ++ [⟨t, c, restart⟩] })

/-- Some aux channel is enabled, or a companion, by its registers or by its configuration in force (R423). -/
def Mach.anyAux (m : Mach) : Bool := (List.range 8).any (fun n => m.auxActive n || (m.auxRegs n).active)

/-- What a write has changed in the configuration of each channel that is, or was, enabled or a companion (R390, R408): `old` gives
the configurations before it. A change of the `RATE` and `EXC` that a companion follows starts no source.
Log entry 75 (DEDUCED, unsafe). -/
def Mach.auxChanges (m : Mach) (old : Nat → AuxCfg) : Mach :=
  let m := (List.range 8).foldl (fun (m : Mach) n =>
    let a := old n
    let b := m.auxEff n
    if a ≠ b && (a.active || b.active) then
      m.auxChange n (m.clk.now + microsUp 10) b (decide ({ b with hostCfg := a.hostCfg } ≠ a))
    else m) m
  if m.aux.asserted && m.anyAux then { m with aux := { m.aux with auxDuring := true } } else m

/-! ### Conversion (R392, R393) -/

/-- The raw code of a conversion and whether it was limited (R393); a reference of 0 V gives no code, and it is open.
Log entry 71 (DEDUCED, unsafe). -/
def Mach.rawCode (m : Mach) (gain vin vref : Int) : Int × Bool × Mach :=
  if vref = 0 then
    let (x, m) := m.drawNat
    (signed 24 x, true, m)
  else
    let (v, clip) := limit24 (divRound ((2 ^ 23 : Nat) * gain * vin * vref.sign) vref.natAbs)
    (v, clip, m)

/-- The ratio x of a code (R393). -/
def ratioOf (c : Int) (g : Nat) : Rat := (c : Rat) / 2 ^ (23 + g)

/-! ### Linearisation (R413, R414) -/

/-- What a curve gives: the values in the unit delivered that lie within the linearisation error of the formula's (R427), from the
least to the greatest; below or above its valid range; or no value at all. -/
inductive Curve where
  | within (lo hi : Int)
  | low
  | high
  | unstated
  deriving DecidableEq, Repr

/-- The whole numbers no further than `slack` from a value. -/
def around (v slack : Rat) : Curve := .within (v - slack).ceil (v + slack).floor

/-- The linearisation error of curves 1, 2, 3, 8 and 9 in steps of 2^-10 °C: 0.005 °C (R427). -/
def sensorSlack : Rat := 512 / 100

/-- The linearisation error of curves 16 to 23 in steps of 2^-10 °C: 0.02 °C (R427). -/
def coupleSlack : Rat := 2048 / 100

/-- The resistance of an RTD at `t` °C (R414). -/
def rtdOhms (r0 t : Rat) : Rat :=
  let a : Rat := 39083 / 10000000
  let b : Rat := -5775 / 10000000000
  let c : Rat := -4183 / 1000000000000000
  if 0 ≤ t then r0 * (1 + a * t + b * t ^ 2) else r0 * (1 + a * t + b * t ^ 2 + c * (t - 100) * t ^ 3)

/-- The greatest temperature in 2^-10 °C at which an RTD curve moved by `off` steps still lies at or under a resistance, or below it
where `strict`; the search goes 8 steps beyond the curve's range. -/
def rtdFind (r0 r off : Rat) (strict : Bool) : Int :=
  (List.range 21).foldl (fun t k =>
    let c := t + ((2 ^ (20 - k) : Nat) : Int)
    let y := rtdOhms r0 (((c : Rat) + off) / 1024)
    if c ≤ 870408 ∧ (if strict then y < r else y ≤ r) then c else t) (-204808)

/-- The temperature of an RTD in 2^-10 °C (R414, R427): the steps whose curve, moved by the error, meets the resistance.
Log entry 72 (DEDUCED, safe). -/
def rtdTemp (r0 r : Rat) : Curve :=
  if r < rtdOhms r0 (-200) then .low
  else if rtdOhms r0 850 < r then .high
  else .within (rtdFind r0 r sensorSlack true + 1) (rtdFind r0 r (-sensorSlack) false)

/-- ln 2 in fixed point. -/
def fixLn2 : Int := 54916777467707473351141471128

/-- Σ z^(2k+1) / (2k+1) in fixed point: `t` the odd power in hand, `k` its exponent. -/
def oddSeries (z2 : Int) : Nat → Nat → Int → Int
  | 0, _, _ => 0
  | n + 1, k, t => t.fdiv (k : Int) + oddSeries z2 n (k + 2) ((t * z2).fdiv fixOne)

/-- ln (num / den) in fixed point, for positive numbers. -/
def fixLn (num den : Nat) : Int :=
  let e : Int := (Nat.log2 num : Int) - (Nat.log2 den : Int)
  let x : Int := (((num * 2 ^ Nat.log2 den * 2 ^ 96 / (den * 2 ^ Nat.log2 num) : Nat)) : Int)
  let z := ((x - fixOne) * fixOne).fdiv (x + fixOne)
  e * fixLn2 + 2 * oddSeries ((z * z).fdiv fixOne) 40 1 z

/-- ln of a positive rational. -/
def lnRat (q : Rat) : Rat := fixRat (fixLn q.num.toNat q.den)

/-- An IEEE 754 single as a rational; none for infinities and NaN (R428). -/
def singleRat (w : Word) : Option Rat :=
  let e := bitsAt w 23 8
  let f := bitsAt w 0 23
  let s : Rat := if bitAt w 31 then -1 else 1
  if e = 255 then none
  else if e = 0 then some (s * (f : Rat) / 2 ^ 149)
  else if 150 ≤ e then some (s * ((2 ^ 23 + f : Nat) : Rat) * 2 ^ (e - 150))
  else some (s * ((2 ^ 23 + f : Nat) : Rat) / 2 ^ (150 - e))

/-- A temperature in kelvin, given its inverse, as a value of an NTC curve (R413, R414). -/
def ntcTemp (inv : Rat) : Curve :=
  if inv = 0 then .unstated
  else
    let t := 1 / inv - 27315 / 100
    if t < -80 then .low else if 250 < t then .high else around (t * 1024) sensorSlack

/-- The NTC β model (R414).
Log entry 72 (DEDUCED, safe). -/
def ntcBeta (r r25 beta : Rat) : Curve :=
  if r ≤ 0 ∨ r25 ≤ 0 ∨ beta = 0 then .unstated else ntcTemp (1 / (29815 / 100) + lnRat (r / r25) / beta)

/-- The Steinhart–Hart model (R414).
Log entry 72 (DEDUCED, safe). -/
def ntcSh (r : Rat) (a b c : Option Rat) : Curve :=
  match a, b, c with
  | some a, some b, some c =>
    if r ≤ 0 then .unstated
    else
      let l := lnRat r
      ntcTemp (a + b * l + c * l ^ 3)
  | _, _, _ => .unstated

/-- A strain bridge: `u` = x − x0, the gauge factor, quarter, half or full (R414); in 2^-6 µε. -/
def strain (u gf : Rat) (bridge : Nat) : Curve :=
  let d := match bridge with
    | 0 => gf * (1 - 2 * u)
    | _ => gf
  if d = 0 then .unstated
  else
    let n := match bridge with
      | 0 => 4 * u
      | 1 => 2 * u
      | _ => u
    let e := n / d * 64000000
    if e < -8388608 then .low else if 8388608 < e then .high else .within (min 8388607 (roundUp e)) (min 8388607 (roundUp e))

/-- A thermocouple (R414): the voltage E in pV; the result in 2^-10 °C.
Log entry 72 (DEDUCED, safe). -/
def thermocouple (ty : Nat) (e : Int) : Curve :=
  let t : Rat := (Config.tcInverse ty e : Rat) / 1024
  let (lo, hi) := Config.tcRange ty
  if t < lo then .low else if hi < t then .high else around t coupleSlack

/-- The limits of a curve's valid range in the unit delivered (R413). -/
def curveRange (c : Nat) : Int × Int :=
  if c = 1 ∨ c = 2 ∨ c = 3 then (-204800, 870400)
  else if c = 8 ∨ c = 9 then (-81920, 256000)
  else if c = 32 then (-8388608, 8388607)
  else Config.tcRange c

/-- A curve's result delivered (R415, R427): limited with CLP outside its range, else a value within the linearisation error; where
the formula gives no value, an open one in the valid range. The Bool is CLP and RNG.
Log entry 72 (DEDUCED, safe). -/
def Mach.curveOut (m : Mach) (c : Nat) (r : Curve) : Int × Bool × Mach :=
  let (lo, hi) := curveRange c
  match r with
  | .low => (lo, true, m)
  | .high => (hi, true, m)
  | .unstated =>
    let (x, m) := m.drawNat
    (lo + ((x : Int) % (hi - lo + 1)), false, m)
  | .within a b =>
    if a = b then (a, false, m)
    else
      let (x, m) := m.drawNat
      (clampInt lo hi (a + ((x : Int) % (b - a + 1))), false, m)

/-- The companion's code and gain for a conversion at frame `j`, and whether it leaves the conversion unflagged (R407, R409).
Log entry 75 (DEDUCED, unsafe). -/
def Mach.companionCode (m : Mach) (n j : Nat) : Option (Int × Nat) × Bool :=
  let c := m.chan (n + 1)
  let sameFrame := decide (lastFrame ((n + 1) % 4) (c.codeAt - 33152) = j) && c.codeAt ≠ 0
  if sameFrame && !c.codeFlag then (some (c.code, c.codeGain), true) else (c.goodCode, false)

/-- The sensor resistance of curves 1, 2, 3, 8 and 9 (R405 to R407), none where the formula divides by zero or has no companion
ratio; the Bool says that the companion flags the conversion. -/
def Mach.sensorOhms (m : Mach) (n j : Nat) (x : Rat) : Option Rat × Bool :=
  let cfg := m.auxCfg n
  let rs : Rat := (cfg.p1.toNat : Rat) / 4096
  match bitsAt cfg.lin 0 2 with
  | 0 => (if x = 1 then none else some (rs * x / (1 - x)), false)
  | 1 => (if x = 1 then none else some (rs * x / (1 - x) - (cfg.lead.toNat : Rat) / 65536), false)
  | _ =>
    let (y, ok) := m.companionCode n j
    (match y with
      | some (c, g) =>
        let y := ratioOf c g
        if x + y = 1 then none else some (rs * (x - y) / (1 - x - y))
      | none => none, !ok)

/-- The cold-junction temperature of a channel in 2^-10 °C and whether its source is valid (R416).
Log entry 75 (DEDUCED, unsafe). -/
def Mach.coldJunction (m : Mach) (n : Nat) : Int × Bool :=
  let s := bitsAt (m.auxCfg n).lin 16 4
  let src : Option Int :=
    if s = 8 then (if (m.grp 3).started && m.on 1 && m.on 3 then some (signed 24 (m.fld 0x0C44 0 24)) else none)
    else
      let cv := bitsAt (m.auxCfg s).cfg 16 6
      if bitAt (m.auxCfg s).cfg 31 && !m.isComp s && [1, 2, 3, 8, 9].contains cv then
        match (m.chan s).temp with
        | some (v, false) => some v
        | _ => none
      else none
  match src with
  | some v => (v, true)
  | none => (((m.chan n).tcj).getD 25600, false)

/-- What a conversion delivers: value, CLP, RNG, CJERR. -/
structure AuxOut where
  v : Int
  clp : Bool
  rng : Bool
  cjerr : Bool
  deriving DecidableEq, Repr

/-- Linearisation of a conversion that is not broken (R413 to R416); `c` its code, `g` its gain code. -/
def Mach.linearise (m : Mach) (n j : Nat) (c : Int) (g : Nat) : AuxOut × Mach :=
  let cfg := m.auxCfg n
  let cv := if m.isComp n then 0 else bitsAt cfg.cfg 16 6
  let internal := !m.isComp n && bitsAt cfg.cfg 10 2 = 0
  let x := ratioOf c g
  if cv = 0 then
    (⟨if internal then divRound (c * 2500) 4096 else c, false, false, false⟩, m)
  else if cv = 32 then
    let u := x - ((cfg.p3.toInt : Rat) / 2 ^ 31)
    let (v, rng, m) := m.curveOut cv (strain u ((cfg.p2.toNat : Rat) / 2 ^ 24) (bitsAt cfg.lin 8 2))
    (⟨v, rng, rng, false⟩, m)
  else if 16 ≤ cv then
    let (t, ok) := m.coldJunction n
    let m := if ok then m.updChan n (fun ch => { ch with tcj := some t }) else m
    let vin : Int := (x * 2500000000000).floor
    let (v, rng, m) := m.curveOut cv (thermocouple cv (vin + Config.tcEmf cv t))
    (⟨v, rng || !ok, rng, !ok⟩, m)
  else
    let (r, flagged) := m.sensorOhms n j x
    let res : Curve := match r with
      | none => .unstated
      | some r =>
        match cv with
        | 8 => ntcBeta r ((cfg.p2.toNat : Rat) / 4096) ((cfg.p3.toNat : Rat) / 256)
        | 9 => ntcSh r (singleRat cfg.p2) (singleRat cfg.p3) (singleRat cfg.p4)
        | 2 => rtdTemp 500 r
        | 3 => rtdTemp 1000 r
        | _ => rtdTemp 100 r
    let (v, rng, m) := m.curveOut cv res
    (⟨v, rng || flagged, rng, false⟩, m)

/-! ### Lead calibration (R412) -/

/-- A usable conversion enters the lead calibration of its channel.
Log entry 76 (DEDUCED, unsafe). -/
def Mach.leadSample (m : Mach) (n : Nat) (x : Rat) (flagged : Bool) : Mach :=
  match m.aux.lcal with
  | some l =>
    if l.ch = n && l.n < 16 && !l.posted && !flagged && x ≠ 1 then
      let r : Rat := ((m.auxCfg n).p1.toNat : Rat) / 4096 * x / (1 - x)
      { m with aux := { m.aux with lcal := some { l with sum := l.sum + (r * 2 ^ 64).floor, n := l.n + 1 } } }
    else m
  | none => m

/-- The calibrated lead resistance in 2^-16 Ω, as the register takes it (R412). -/
def LeadCal.result (l : LeadCal) : Word := word (max 0 (divRound l.sum (16 * 2 ^ 48))).toNat

/-- A channel qualifies for a lead calibration (R412). -/
def Mach.leadQualifies (m : Mach) (n : Nat) : Bool :=
  let c := m.auxRegs n
  bitAt c.cfg 31 && bitsAt c.lin 0 2 = 1 && [1, 2, 3, 8, 9].contains (bitsAt c.cfg 16 6)

/-- A lead calibration ends without a write: GO clears, LCALFAIL (R412).
Log entry 76 (DEDUCED, unsafe). -/
def Mach.leadFail (m : Mach) : Mach := (({ m with aux := { m.aux with lcal := none } }).setFld 0x1A0C 8 1 0).sqBit 0x1A08 19

/-- LEAD_CAL_TIMEOUT (R412): 16 usable conversions have not come within 10 s. -/
def Mach.leadTimeout (m : Mach) : Mach :=
  match m.aux.lcal with
  | some l => if l.n < 16 && decide (l.since + 10 * second ≤ m.clk.now) then m.leadFail else m
  | none => m

/-! ### The conversion (R387 to R416) -/

/-- A conversion flagged as broken (R402).
Log entry 73 (DEDUCED, unsafe). -/
def Mach.isBroken (m : Mach) (n w : Nat) : Bool :=
  let c := m.chan n
  match bitsAt c.cfg.bo 24 2 with
  | 1 => c.tripped || decide (w < c.releasedAt)
  | 2 => c.checkBroken
  | _ => false

/-- DAMPER discards a conversion: an assertion between its window's start and its instant (R418). -/
def Mach.damperDiscards (m : Mach) (w t : Nat) : Bool :=
  m.aux.spans.any (fun s => decide (w ≤ s.start) && decide (s.start < t))

/-- DAMPER keeps a conversion from being made (R418): its slot, starting at `s`, starts while DAMPER is asserted, or its window,
starting at `w`, starts in an assertion begun before or earlier than t_s after the release where VEXC is pulsed.
Log entry 77 (DEDUCED, unsafe). -/
def Mach.damperBlocks (m : Mach) (n s w : Nat) : Bool :=
  let extra := if m.auxExc n && m.aux.excMode = 2 then m.settleNow else 0
  m.aux.spans.any (fun d => decide (d.start < w) && (match d.stop with
    | none => true
    | some e => (decide (d.start ≤ s) && decide (s < e)) || (decide (w < e + extra) && (match d.off with
      | some o => decide (w < o)
      | none => true))))

/-- A scheduled conversion of channel `n` in frame `j` falls in a check slot, in which none is made (R400). -/
def Mach.inCheck (m : Mach) (n j : Nat) : Bool :=
  bitsAt (m.chan n).cfg.bo 24 2 == 2 && (m.chan n).checkFrame == some j

/-- A made conversion counts towards the check (R400): after every `CHKN`-th the next frame's slot is a check slot.
Log entry 73 (DEDUCED, unsafe). -/
def AuxChan.countCheck (c : AuxChan) (j : Nat) : AuxChan :=
  if bitsAt c.cfg.bo 24 2 = 2 && decide (bitsAt c.cfg.bo 0 8 ≤ c.sinceCheck + 1) then
    { c with sinceCheck := 0, checkFrame := some (j + 1), checkDue := true }
  else { c with sinceCheck := c.sinceCheck + 1 }

/-- The conversion of channel `n` in frame `j`, made: code, flags, value, registers, chain (R393 to R416). -/
def Mach.makeConversion (m : Mach) (n j t w : Nat) (i : AuxInput) : Mach :=
  let cfg := m.auxCfg n
  let g := bitsAt cfg.cfg 4 3
  let internal := !m.isComp n && bitsAt cfg.cfg 10 2 = 0
  let (c, clip, m) := m.rawCode ((2 ^ g : Nat) : Int) i.vin (if internal then 2500000000 else i.vref)
  let noExc := m.auxExc n && (m.aux.excMode = 0 || m.aux.excFault)
  let broken := m.isBroken n w
  let (o, m) : AuxOut × Mach := if broken then (⟨2 ^ 23 - 1, true, false, false⟩, m) else m.linearise n j c g
  let clp := o.clp || clip || noExc
  let m := m.setReg (auxBase n + 0x28) (wordOfInt c)
  let m := m.setReg (auxBase n + 0x24) (sampleWord o.v false clp false (10 + n))
  let first := broken && !(m.chan n).wasBroken
  let m := m.sqEvent (auxBase n + 0x20) (bitIf first 23 ||| bitIf o.cjerr 22 ||| bitIf o.rng 21)
  let m := if first then m.count 0x1A14 else m
  let m := m.leadSample n (ratioOf c g) clp
  let temp := !m.isComp n && [1, 2, 3, 8, 9].contains (bitsAt cfg.cfg 16 6)
  let start := (m.chan n).fresh || !(m.grp (4 + n)).started
  let kept := (m.chan n).damped || (match (m.chan n).excAt with
    | some f => decide (f ≤ w)
    | none => false)
  let m := m.updChan n (fun ch =>
    let ch := ch.countCheck j
    { ch with wasBroken := broken, code := c, codeFlag := clp, codeGain := g, codeAt := t,
              goodCode := if clp then ch.goodCode else some (c, g),
              temp := if temp then some (o.v, clp) else ch.temp })
  if !m.on 3 then m
  else
    let m := m.updChan n (fun ch => { ch with
      fresh := false, damped := false, excAt := ch.excAt.filter (fun f => decide (w < f)) })
    let m := if start then m.startSource (4 + n) t else if kept then m.restartKept (4 + n) t else m
    m.feedAux (4 + n) t o.v clp

/-- AUX_CONVERSION (R387): the conversion of channel `n` whose instant has come. A slot before 2 ms after D2 switched ON is not
used (R390), a check slot makes none (R400), a window after an excitation change is skipped (R397), DAMPER discards and blocks
(R418). -/
def Mach.auxConversion (m : Mach) (n : Nat) (i : AuxInput) : Mach :=
  let p := n % 4
  if m.ts < 33152 || !m.on 2 then m
  else
    let j0 := lastFrame p (m.ts - 33152)
    let m := m.auxAdopt n (slotStart j0 p)
    let j := j0 - j0 % m.auxDivisor n
    let s := slotStart j p
    let w := s + 384
    let t := m.convInstant n j
    if !m.auxActive n || decide (m.ts < t) || decide (t ≤ (m.chan n).latestAt) ||
        decide (m.slotNow s < ((m.clk.d2Since + millisUp 2 : Nat) : Int)) then m
    else
      let m := m.updChan n (fun c => { c with latestAt := t })
      if m.inCheck n j then m
      else if m.auxExc n && decide (m.aux.skipFrom ≤ w) && decide (w < m.aux.skipUntil) then m
      else if m.damperDiscards w t then m.sqBit (auxBase n + 0x20) 20
      else if m.damperBlocks n s w then m
      else m.makeConversion n j t w i

/-! ### Wire break (R399 to R402) -/

/-- CHECK_SLOT (R400, R402): in the frame after every `CHKN`-th conversion the comparator is read at S + 16,768.
Log entry 73 (DEDUCED, unsafe). -/
def Mach.checkSlot (m : Mach) (n : Nat) : Mach :=
  let c := m.chan n
  match c.checkFrame with
  | some j =>
    if m.on 2 && m.auxActive n && c.checkDue && bitsAt c.cfg.bo 24 2 = 2 && decide (slotStart j (n % 4) + 16768 ≤ m.ts) then
      m.updChan n (fun c => { c with checkBroken := c.tripped, checkDue := false })
    else m
  | none => m

/-- BREAK_COMPARATOR (R401): the difference of the inputs, in µV, has stood on its side of 2.40 V for `ticks`. The comparator trips
after 2 µs at or above it and releases when the difference falls below.
Log entry 73 (DEDUCED, unsafe). -/
def Mach.breakComparator (m : Mach) (n : Nat) (diffUv : Int) (ticks : Nat) : Mach :=
  if !m.on 2 then m
  else if 2400000 ≤ diffUv then
    (if microsUp 2 ≤ ticks then m.updChan n (fun c => { c with tripped := true }) else m)
  else m.updChan n (fun c => { c with tripped := false, releasedAt := if c.tripped then m.ts else c.releasedAt })

/-- The burn-out current of channel `n` now, in nA (R399, R400): at all times in continuous mode, in check mode in the check slot
up to S + 16,768. -/
def Mach.burnCurrent (m : Mach) (n : Nat) : Nat :=
  let c := m.chan n
  let amount := [200, 1000, 4000].getD (bitsAt c.cfg.bo 16 2) 0
  if !(m.on 2 && m.auxActive n) then 0
  else
    match bitsAt c.cfg.bo 24 2, c.checkFrame with
    | 1, _ => amount
    | 2, some j =>
      if slotStart j (n % 4) ≤ m.ts && decide (m.ts ≤ slotStart j (n % 4) + 16768) then amount else 0
    | _, _ => 0

/-- `BRKNOW` (R401, R402).
Log entry 73 (DEDUCED, unsafe). -/
def AuxChan.brkNow (c : AuxChan) : Bool :=
  match bitsAt c.cfg.bo 24 2 with
  | 1 => c.tripped
  | 2 => c.checkBroken
  | _ => false

/-! ### Excitation (R394 to R398) -/

/-- An excitation change is asked for: it applies at the start of the next frame (R397).
Log entry 74 (DEDUCED, unsafe). -/
def Mach.excAsk (m : Mach) : Mach :=
  { m with aux := { m.aux with excChange := some (m.aux.excChange.getD (frameStart (frameOf m.ts + 1))) } }

/-- `AUX_EXC` comes into force (R394): off switches VEXC off, constant switches it on, pulsed leaves it to the windows. -/
def Mach.excForce (m : Mach) : Mach :=
  let mode := m.fld 0x1A00 24 2
  { m with aux := { m.aux with
    excMode := mode, excLevel := m.fld 0x1A00 16 2, settle := m.fld 0x1A00 0 10, excFault := false,
    vexc := if mode = 1 then true else if mode = 0 then false else m.aux.vexc } }

/-- The voltage of VEXC in mV (R394). -/
def Aux.vexcMv (a : Aux) : Nat := if a.vexc then [1000, 1800, 2500].getD a.excLevel 0 else 0

/-- EXCITATION_CHANGE (R397): at frame start F the change applies; windows in [F, F + t_s) are skipped, and the first conversion
after them restarts its chain with kept history. Spans of skipped windows that meet become one.
Log entry 74 (DEDUCED, unsafe). -/
def Mach.excApply (m : Mach) : Mach :=
  match m.aux.excChange with
  | none => m
  | some f =>
    if m.ts < f || !m.on 2 then m
    else
      let m := m.excForce
      let u := f + m.settleNow
      let m := { m with aux := { m.aux with
        excChange := none
        skipFrom := if f ≤ m.aux.skipUntil then m.aux.skipFrom else f
        skipUntil := max u (if f ≤ m.aux.skipUntil then m.aux.skipUntil else 0) } }
      (List.range 8).foldl (fun m n => if m.auxExc n then m.updChan n (fun c => { c with excAt := some u }) else m) m

/-- EXC_FAULT (R398): the load current has been above the limit for `ticks`; more than 1 ms switches VEXC off.
Log entry 74 (DEDUCED, unsafe). -/
def Mach.excFaultAt (m : Mach) (ticks : Nat) : Mach :=
  if m.on 2 && m.aux.vexc && decide (second < 1000 * ticks) then
    ({ m with aux := { m.aux with vexc := false, excFault := true } }).sqBit 0x1A08 21
  else m

/-- A window that starts at `w` is skipped by the excitation change in force or by the one that waits for its frame (R397). -/
def Mach.excSkipped (m : Mach) (w : Nat) : Bool :=
  (decide (m.aux.skipFrom ≤ w) && decide (w < m.aux.skipUntil)) || (match m.aux.excChange with
    | some f => decide (f ≤ w) && decide (w < f + settleTicks (m.fld 0x1A00 0 10))
    | none => false)

/-- The intervals [W_start − t_s, W_end] of the scheduled conversions of channel `n` around the present instant (R395): check slots
and skipped conversions have none.
Log entry 74 (DEDUCED, unsafe). -/
def Mach.excSpans (m : Mach) (n : Nat) : List (Int × Int) :=
  let p := n % 4
  let j := m.ts * 1000 / second
  let js := (List.range 16).filterMap (fun i => if 2 ≤ j + i then some (j + i - 2) else none)
  let js := js.filter (fun j => decide (j % m.auxDivisor n = 0) && !m.inCheck n j && !m.excSkipped (slotStart j p + 384) &&
    decide (((m.clk.d2Since + millisUp 2 : Nat) : Int) ≤ m.slotNow (slotStart j p)))
  js.map (fun j => (((slotStart j p + 384 : Nat) : Int) - (m.settleNow : Int), ((slotStart j p + 16768 : Nat) : Int)))

/-- VEXC is wanted on at the present instant in pulsed mode (R395): inside an interval, or in a gap of less than 20 µs. -/
def Mach.excWanted (m : Mach) : Bool :=
  let es := ((List.range 8).filter (fun n => m.auxExc n)).flatMap m.excSpans
  let t : Int := (m.ts : Int)
  es.any (fun e => decide (e.1 ≤ t) && decide (t < e.2)) ||
    es.any (fun a => decide (a.2 ≤ t) && es.any (fun b => decide (t < b.1) && decide ((b.1 - a.2) * 1000000 < 20 * (second : Int))))

/-- PULSED_VEXC (R395): VEXC follows the scheduled windows.
Log entry 74 (DEDUCED, unsafe). -/
def Mach.pulsedVexc (m : Mach) (want : Bool) : Mach :=
  if m.on 2 && m.aux.excMode = 2 && !m.aux.excFault && m.excWanted == want then { m with aux := { m.aux with vexc := want } } else m

/-! ### Damper (R417 to R425) -/

/-- The marker of a released blanking (R424); `group` 0 ACF, 1 ACH, 2 GYR, 3 AUX. -/
def blankMarker (ticks group : Nat) (stuck : Bool) : Word :=
  word (min 0xFFFFFF (ticks / 64) * 256 + group * 64 + 29) ||| bitIf stuck 5

/-- The instant at which the present assertion began. -/
def Mach.damperSince (m : Mach) : Nat :=
  match m.aux.spans with
  | s :: _ => s.start
  | [] => m.ts

/-- DAMPER is asserted at an accepted edge (R417). Spans older than every output period are forgotten (R420). -/
def Mach.damperAssert (m : Mach) : Mach :=
  let keep := m.aux.spans.filter (fun s => match s.stop with
    | some e => decide (m.ts < e + 2 ^ 27)
    | none => true)
  let m := { m with aux := { m.aux with asserted := true, stuckSeen := false, spans := ⟨m.ts, none, none⟩ :: keep, auxDuring := m.anyAux } }
  (m.sqBit 0x1A08 22).count 0x1A10

/-- DAMPER is released at instant `r` (R418, R421, R423, R424): markers, and the end of the holds. -/
def Mach.damperRelease (m : Mach) (r : Nat) (stuck : Bool) : Mach :=
  let d := r - m.damperSince
  let anyOn := m.aux.auxDuring || m.anyAux
  let m := { m with aux := { m.aux with
    asserted := false
    spans := listUpd m.aux.spans 0 (fun s => { s with stop := some r })
    chans := m.aux.chans.map (fun (c : AuxChan) => { c with damped := true }) } }
  let m := [0, 1, 2].foldl (fun m g =>
    if m.damperHold g then (m.offer 0 [blankMarker d g stuck]).restartKept g (nextMultiple (inPeriod g) r) else m) m
  let m := if m.damperHold 0 then m.restartKept 12 (nextMultiple 64 r) else m
  if anyOn then m.offer 2 [blankMarker d 3 stuck] else m

/-- The level of DAMPER that is asserted (R417). -/
def Mach.damperActive (m : Mach) (level : Bool) : Bool := level != m.flag 0x1A04 1

/-- An accepted edge of DAMPER, while D2 is ON (R417, R425).
Log entry 77 (DEDUCED, unsafe). -/
def Mach.damperEdge (m : Mach) (level : Bool) : Mach :=
  let act := m.damperActive level
  let m := { m with aux := { m.aux with damperLevel := level, ignoreDamper := m.aux.ignoreDamper && act } }
  if !m.on 2 || m.aux.ignoreDamper then m
  else if m.aux.asserted then (if act then m else m.damperRelease m.ts false)
  else if m.flag 0x1A04 0 && act then m.damperAssert
  else m

/-- DAMPER_STUCK (R425): asserted for 100 ms without a break; with `STUCKEND` that moment is the release instant. -/
def Mach.damperStuck (m : Mach) : Mach :=
  if m.aux.asserted && !m.aux.stuckSeen && decide (m.damperSince + millisUp 100 ≤ m.ts) then
    let m := ({ m with aux := { m.aux with stuckSeen := true } }).sqBit 0x1A08 23
    if m.flag 0x1A04 2 then
      let m := m.damperRelease (m.damperSince + millisUp 100) true
      { m with aux := { m.aux with ignoreDamper := true } }
    else m
  else m

/-- Blanking ends when `EN` becomes 0 or D2 switches OFF, and nothing of an earlier assertion blanks from then on (R417).
Log entry 77 (DEDUCED, unsafe). -/
def Mach.damperOff (m : Mach) : Mach :=
  let m := if m.aux.asserted then m.damperRelease m.ts false else m
  { m with aux := { m.aux with spans := m.aux.spans.map (fun s => { s with off := some (s.off.getD m.ts) }) } }

/-! ### Writes and checks (R390, R391) -/

/-- A channel's registers after a write allow it to be enabled (R391). -/
def auxAllowed (n : Nat) (c : AuxCfg) : Bool :=
  let cv := bitsAt c.cfg 16 6
  let ref := bitsAt c.cfg 10 2
  let exc := bitAt c.cfg 12
  let lead := bitsAt c.lin 0 2
  (if cv = 0 then lead = 0
   else if [1, 2, 3, 8, 9].contains cv then ref = 1 && exc && (lead ≠ 2 || n ≤ 6)
   else if 16 ≤ cv && cv ≤ 23 then ref = 0 && lead = 0 && (bitsAt c.lin 16 4 = 8 || (bitsAt c.lin 16 4 < 8 && bitsAt c.lin 16 4 ≠ n))
   else ref = 1 && exc && lead = 0) &&
  (bitsAt c.bo 24 2 ≠ 2 || decide (2 ≤ rateDivisor (bitsAt c.cfg 24 4)))

/-- The read-only bits of `AUX_STATUS` (R428). -/
def Aux.statBits (a : Aux) : Word := bitIf a.vexc 1 ||| bitIf a.asserted 0

end Sys2Proof.Machine
end

