-- ==== Sys2Proof/Machine/Motion.lean ====
section
/-! DEFINITION. The motion block (R263 to R300): the load-hold servo and its hold records. -/

namespace Sys2Proof.Machine

/-- The servo as after D1 switches ON (R274), with the window, the sources and the axis map that the registers ask for, and the hold
record that says so (R282); the instant of the last update is kept. -/
def Mach.servoReset (m : Mach) : Mach :=
  let axis := fun (a : Nat) => ({ ServoAxis.fresh with src := m.fld 0x0C08 (2 * a) 2 } : ServoAxis)
  let mot := { Motion.rest with x := axis 0, y := axis 1, z := axis 2, window := m.fld 0x0C04 24 2, upd := m.mot.upd,
                                maps := [(0, m.axmap)] }
  { m with mot := { mot with record := mot.words false } }

/-- Every axis makes an acquisition update at the next update (R291). -/
def Mach.acquireAll (m : Mach) : Mach :=
  { m with mot := { m.mot with x := { m.mot.x with acquire := true }, y := { m.mot.y with acquire := true },
                               z := { m.mot.z with acquire := true } } }

/-- A unit of 2^-14 g in g. -/
def holdUnit : Rat := 1 / 16384

/-- Standard gravity, m/s². -/
def gravity : Rat := 980665 / 100000

/-- ω² in rad²/s² from the mean GYR Z rate in dps (R273, R275). -/
def omegaSq (dps : Rat) : Rat := (dps * fixRat fixPi / 180) ^ 2

/-- The position of the ACF element relative to the package centre in output axes, in metres (R47, R290). -/
def acfOffset (k : Nat) : Rat × Rat × Rat := mapAxes k (fun (q : Rat) => -q) (-12 / 10000) (9 / 10000) 0

/-- p_ACF − p_ACH in output axes, in metres (R47, R273). -/
def acfFromAch (k : Nat) : Rat × Rat × Rat := mapAxes k (fun (q : Rat) => -q) 0 (7 / 10000) 0

/-- An axis of a triple of rationals. -/
def ratAxis (v : Rat × Rat × Rat) (i : Nat) : Rat :=
  match i with
  | 0 => v.1
  | 1 => v.2.1
  | _ => v.2.2

/-- What an update measures for one axis, in output axes: e in g, clipped and on which side, the mean ACH output in g. -/
structure AxisMeas where
  e : Rat
  clipPos : Bool
  clipNeg : Bool
  ach : Option Rat
  deriving Repr

/-- An interval of a package axis seen from an output axis of the other sense. -/
def intervalNeg (a : AxisInterval) : AxisInterval := ⟨-a.sum, a.n, a.clipNeg, a.clipPos⟩

/-- The intervals of the three output axes (R290). -/
def holdAxes (i : HoldInput) (k : Nat) : AxisInterval × AxisInterval × AxisInterval := mapAxes k intervalNeg i.x i.y i.z

/-- The ACH sums of the three output axes. -/
def holdAch (i : HoldInput) (k : Nat) : Int × Int × Int := mapAxes k (fun (q : Int) => -q) i.achX i.achY i.achZ

/-- The measurement of output axis `a`, in the window code `w` (R272, R273). -/
def holdMeas (i : HoldInput) (k a w : Nat) (watch : Bool) : AxisMeas :=
  let t := holdAxes i k
  let v := match a with
    | 0 => t.1
    | 1 => t.2.1
    | _ => t.2.2
  ⟨if v.n = 0 then 0 else (v.sum : Rat) * 2 ^ (w + 1) / (2 ^ 19 * (v.n : Rat)), v.clipPos, v.clipNeg,
    if watch || i.achN = 0 then none else some ((axisOf (holdAch i k) a : Rat) / (128 * (i.achN : Rat)))⟩

/-- The mean GYR Z rate over the interval in dps, when GYR Z runs (R273); it is not running in Watch (R278). -/
def Mach.meanRate (m : Mach) (i : HoldInput) : Option Rat :=
  if m.inWatch || i.gyrN = 0 then none
  else
    let s := if 4 ≤ m.axmap then -i.gyrSum else i.gyrSum
    some ((s : Rat) * m.gyrzRange / (2 ^ 19 * (i.gyrN : Rat)))

/-- REF of an axis in g (R273): without ACH, H + 512 g or H − 512 g by the limit the clip was at; a clip at both limits
leaves it open.
Log entry 58 (DEDUCED, unsafe). -/
def Mach.refOf (m : Mach) (i : HoldInput) (a : Nat) (h : Int) (q : AxisMeas) : Rat × Mach :=
  match q.ach with
  | some r =>
    match m.meanRate i with
    | some d => (r - omegaSq d * ratAxis (acfFromAch m.axmap) a / gravity, m)
    | none => (r, m)
  | none =>
    if q.clipPos && q.clipNeg then
      let (b, m) := m.drawBit
      ((h : Rat) * holdUnit + (if b then 512 else -512), m)
    else if q.clipPos then ((h : Rat) * holdUnit + 512, m)
    else if q.clipNeg then ((h : Rat) * holdUnit - 512, m)
    else ((h : Rat) * holdUnit, m)

/-- M of an axis in units of 2^-46 g (R275), when it is usable (R276): a known radius, GYR Z over the whole interval, its mean
not clipped.
Log entry 58 (DEDUCED, unsafe). -/
def Mach.modelOf (m : Mach) (i : HoldInput) (a : Nat) : Option Int :=
  let radius := m.fld 0x0C30 0 21
  if radius = 0 || i.gyrClip || decide (i.gyrN < 512) then none
  else
    match m.meanRate i with
    | none => none
    | some d =>
      let th := m.fld 0x0C34 0 16
      let r : Rat := (radius : Rat) / 1000000
      let p := match a with
        | 0 => r * fixRat (cosTurn th 65536) + (acfOffset m.axmap).1
        | 1 => r * fixRat (sinTurn th 65536) + (acfOffset m.axmap).2.1
        | _ => 0
      some (-(omegaSq d * p / gravity * 2 ^ 46)).floor

/-- The largest step of an update in g (R272): 2,000 g/s over 1/512 s.
Log entry 58 (DEDUCED, unsafe). -/
def slewLimit : Rat := 2000 / 512

/-- H from a real value in g: rounded to 2^-14 g, ties away from zero, and limited (R268, R272).
Log entry 58 (DEDUCED, unsafe). -/
def holdRound (q : Rat) : Int := clampInt (-(2 ^ 23 : Nat)) (2 ^ 23 - 1 : Nat) (roundAway (q * 16384))

/-- H at its limit (R268). -/
def holdAtLimit (h : Int) : Bool := decide (h ≤ -(2 ^ 23 : Nat)) || decide (((2 ^ 23 - 1 : Nat) : Int) ≤ h)

/-- The fixed value of an axis (R297). -/
def Mach.fixOf (m : Mach) (a : Nat) : Int := signed 24 (m.fld (0x0C0C + 4 * a) 0 24)

/-- An axis takes a step (R272): limited by SLEW, added, rounded and limited; `ref`: the step came from REF.
Log entry 58 (DEDUCED, unsafe). -/
def ServoAxis.step (x : ServoAxis) (q : Rat) (ref : Bool) : ServoAxis :=
  let s := if slewLimit < q then slewLimit else if q < -slewLimit then -slewLimit else q
  let h := holdRound ((x.h : Rat) * holdUnit + s)
  { x with h := h, slew := s ≠ q, achref := ref, satNow := holdAtLimit h }

/-- An axis takes a value at once: OFF, or an acquisition. -/
def ServoAxis.jump (x : ServoAxis) (h : Int) (ref : Bool) : ServoAxis :=
  { x with h := h, slew := false, achref := ref, satNow := holdAtLimit h }

/-- The servo law of R272 for output axis `a`; the Bools say that this was its acquisition update and that NOGYR is due (R276). At an
acquisition update H comes from REF without a step; ACHREF is set there too.
Log entries 58 (DEDUCED, unsafe), 135 (DESIGN CHOICE, unsafe). -/
def Mach.servoAxis (m : Mach) (i : HoldInput) (a : Nat) (x : ServoAxis) : ServoAxis × Bool × Bool × Mach :=
  let src := m.fld 0x0C08 (2 * a) 2
  let q := holdMeas i m.axmap a m.mot.window m.inWatch
  let clip := q.clipPos || q.clipNeg
  let acquire := x.acquire || ((x.src = 0 || x.src = 3) && (src = 1 || src = 2))
  let mNow := if m.inWatch then none else m.modelOf i a
  let prevClip := x.prevClip
  let mPrev := x.mPrev
  let mValid := x.mValid
  let x := { x with src := src, prevClip := clip, mPrev := mNow.getD 0, mValid := mNow.isSome }
  match src with
  | 0 => ({ x with acquire := false }.jump 0 false, false, false, m)
  | 3 => ({ x with acquire := false }.step ((m.fixOf a - x.h : Int) * holdUnit) false, false, false, m)
  | _ =>
    let (ref, m) := m.refOf i a x.h q
    let nogyr := decide (src = 2) && mNow.isNone && !m.inWatch
    if acquire && q.ach.isSome then ({ x with acquire := false }.jump (holdRound ref) true, true, nogyr, m)
    else
      let db : Rat := (m.fld 0x0C08 8 8 : Rat) * 2 ^ (m.mot.window + 1) / 256
      let (s, fromRef) : Rat × Bool :=
        if clip && prevClip then (ref - (x.h : Rat) * holdUnit, true)
        else if clip then (0, false)
        else if db < q.e ∨ q.e < -db then (fixRat fixPi * (m.fld 0x0C04 16 7 : Rat) / 2560 * q.e, false)
        else (0, false)
      let d : Rat := match mNow with
        | some v => if src = 2 && mValid then ((v - mPrev : Int) : Rat) / 2 ^ 46 else 0
        | none => 0
      ({ x with acquire := acquire }.step (s + d) fromRef, false, nogyr, m)

/-- The status events of an update (R297, R298): SAT at every update whose H stands at its limit.
Log entry 136 (DESIGN CHOICE, unsafe). -/
def Mach.holdStatus (m : Mach) (nogyr : Bool) : Mach :=
  let s := m.mot
  m.sqEvent 0x0C3C (word (axisBits s.x.satNow s.y.satNow s.z.satNow * 8 + axisBits s.x.slew s.y.slew s.z.slew * 64) |||
    bitIf nogyr 16)

/-- A window change takes effect at the update of instant `u` (R277): a range change of ACF (R266, R321, R438). -/
def Mach.windowChange (m : Mach) (u : Nat) : Mach :=
  let w := m.fld 0x0C04 24 2
  if w = m.mot.window then m
  else ((({ m with mot := { m.mot with window := w } }).restartKept 0 u).restartKept 12 u).recResetGroup 0

/-- The newest of the held values: enough for the longest output period.
Log entry 58 (DEDUCED, unsafe). -/
def keepHist (l : List (Nat × Int × Int × Int)) : List (Nat × Int × Int × Int) := l.take 70

/-- The update of the three axes and what follows it: status, hold record (R272, R282, R298). `u` is its instant.
Log entry 58 (DEDUCED, unsafe). -/
def Mach.servoUpdate (m : Mach) (i : HoldInput) (u : Nat) : Mach :=
  let (x, ax, nx, m) := m.servoAxis i 0 m.mot.x
  let (y, ay, ny, m) := m.servoAxis i 1 m.mot.y
  let (z, az, nz, m) := m.servoAxis i 2 m.mot.z
  let acq := ax || ay || az
  let changed := x.h ≠ m.mot.x.h ∨ y.h ≠ m.mot.y.h ∨ z.h ≠ m.mot.z.h
  let m := { m with mot := { m.mot with x := x, y := y, z := z, hist := keepHist ((u, x.h, y.h, z.h) :: m.mot.hist) } }
  let m := m.holdStatus (nx || ny || nz)
  if acq ∨ changed then
    let ws := m.mot.words acq
    if m.grpDelivers 0 then { m with mot := { m.mot with record := ws, due := m.mot.due ++ [(u, ws)] } }
    else { m with mot := { m.mot with record := ws, due := [], heldIn := none } }
  else { m with mot := { m.mot with record := m.mot.words false } }

/-- An axis at an update that a DAMPER hold skips (R272, R422): H stays; the next update still finds whether this interval was clipped,
and the prediction for it.
Log entry 58 (DEDUCED, unsafe). -/
def Mach.servoHeld (m : Mach) (i : HoldInput) (a : Nat) (x : ServoAxis) : ServoAxis :=
  let q := holdMeas i m.axmap a m.mot.window m.inWatch
  let mNow := if m.inWatch then none else m.modelOf i a
  { x with prevClip := q.clipPos || q.clipNeg, mPrev := mNow.getD 0, mValid := mNow.isSome }

/-- The update of the three axes in a DAMPER hold. -/
def Mach.servoSkip (m : Mach) (i : HoldInput) : Mach :=
  { m with mot := { m.mot with x := m.servoHeld i 0 m.mot.x, y := m.servoHeld i 1 m.mot.y, z := m.servoHeld i 2 m.mot.z } }

/-- The ACF element's start time is over at an instant (R265, R274): its source has started, or the longest start time has passed. -/
def Mach.acfReady (m : Mach) (u : Nat) : Bool :=
  m.mot.ready || decide (m.clk.d1Since + millisUp 3 + (m.ts - u) ≤ m.clk.now)

/-- HOLD_UPDATE (R269, R272 to R278): due at the first multiple of 131,072 ticks since the last update, while D1 is ON. Before
the ACF element's start time no update changes H (R274), and none while DAMPER holds the ACF group (R422).
Log entry 4 (DESIGN CHOICE, unsafe). -/
def Mach.holdUpdate (m : Mach) (i : HoldInput) : Mach :=
  let u := m.ts / 131072 * 131072
  if u ≤ m.mot.upd then m
  else
    let m := { m with mot := { m.mot with upd := u } }
    if !m.on 1 then m
    else
      let m := m.flushSeq 0x0C3C
      if !m.acfReady u then m.windowChange u
      else if m.heldOff 0 u then (m.servoSkip i).windowChange u
      else (m.servoUpdate i u).windowChange u

/-- The first input of a group that is taken from now on: the restart instant of a range change (R321). -/
def Mach.nextInput (m : Mach) (g : Nat) : Nat := nextMultiple (inPeriod g) m.ts

/-- A range change of a motion group made by a register write: it takes effect with the next input (R266, R321, R438). -/
def Mach.rangeChange (m : Mach) (g : Nat) : Mach := (m.restartKept g (m.nextInput g)).recResetGroup g

/-- A write of `MNT_AXMAP`, stored, also one of the value it held (R291): a range change of ACF, ACH and GYR, and acquisition updates.
The inputs taken from now on are mapped by the new value (R322).
Log entry 61 (DEDUCED, unsafe). -/
def Mach.axmapChange (m : Mach) : Mach :=
  let m := { m with mot := { m.mot with maps := (m.ts, m.axmap) :: keepSince (m.ts - 2 ^ 26) m.mot.maps } }
  ((((m.rangeChange 0).rangeChange 1).rangeChange 2).restartKept 12 (m.nextInput 12)).acquireAll

/-- `HOLD_x`: H in force, sign extended (R299). -/
def Mach.holdWord (m : Mach) (a : Nat) : Word :=
  wordOfInt (match a with
    | 0 => m.mot.x.h
    | 1 => m.mot.y.h
    | _ => m.mot.z.h)

/-- The read-only bits of `MOT_STATUS` (R297). -/
def Mach.motBits (m : Mach) : Word :=
  let s := m.mot
  word (axisBits s.x.achref s.y.achref s.z.achref * 2 ^ 20 + axisBits s.x.satNow s.y.satNow s.z.satNow * 2 ^ 17)

end Sys2Proof.Machine
end

