-- ==== Sys2Proof/Machine/Angle.lean ====
section
/-! DEFINITION. The angle domain (R351 to R385): shaft angle, phase loop, lock states, and what a revolution delivers. -/

namespace Sys2Proof.Machine

/-- One revolution in the units of θ. -/
def oneRev : Int := (2 ^ 32 : Nat)

/-- `ANG_CTRL.REF`. -/
def Mach.angRef (m : Mach) : Nat := m.fld 0x1400 4 2

/-- `ANG_KEYOFS` in the units of θ. -/
def Mach.keyOfs (m : Mach) : Int := ((m.fld 0x1404 0 16 * 65536 : Nat) : Int)

/-- The lock state replaced from an instant on, with the status bits of what is entered and left (R364, R383).
Log entry 68 (DEDUCED, unsafe). -/
def Mach.setLock (m : Mach) (l : Lock) (t : Int) : Mach :=
  let old := m.ang.lock
  if old = l then m
  else
    let m := { m with ang := { m.ang with lock := l, states := (t, l) :: m.ang.states } }
    let m := if old = .lock then m.sqBit 0x1428 1 else m
    match l with
    | .search => m.sqBit 0x1428 3
    | .lock => m.sqBit 0x1428 0
    | .holdover => m.sqEvent 0x1428 (bitMask 2 ||| bitMask 4)
    | .track => m

/-- SEARCH is entered (R364, R365): the revolution in progress is discarded. -/
def Mach.enterSearch (m : Mach) : Mach :=
  let t := match m.ang.rates with
    | p :: _ => p.t
    | [] => (m.ts : Int)
  ({ m with ang := { m.ang with rev := none, corrLeft := 0, corrParts := 0, good := 0, holdRevs := 0, first := true,
                                lowSince := none } }).setLock .search t

/-- The angle rate decimator as it starts (R302, R352). -/
def deciFresh : Chain := freshChain ⟨3, 16, none, false⟩ 16 0 0 0

/-- The resampler starts to run: SEARCH, the decimator with zero history, its first three outputs discarded (R352). -/
def Mach.angStart (m : Mach) : Mach :=
  let m := m.enterSearch
  { m with ang := { m.ang with deci := deciFresh, run := true, nextRate := nextMultiple 4096 (m.ts + 1), discard := 3,
                               rates := [], states := [], accs := [] } }

/-- The resampler can run: enabled, D1 and D3 ON, GYR past its start time and running (R351). -/
def Mach.angRuns (m : Mach) : Bool :=
  m.flag 0x1400 0 && m.on 1 && m.on 3 && (m.grp 2).started && !m.inWatch

/-- The resampler starts to run as soon as it can (R351, R352). -/
def Mach.angJoin (m : Mach) : Mach := if m.angRuns && !m.ang.run then m.angStart else m

/-- `EN` written from 0 to 1: SEARCH, and the scale is 1 again (R356, R364). -/
def Mach.angEnable (m : Mach) : Mach := ({ m.enterSearch with ang := { m.enterSearch.ang with scale := 0, run := false } }).angJoin

/-! ### Rate outputs (R351 to R358) -/

/-- The GYR Z samples in the selected sense, in units of 20,000 dps / 2^19 (R353, R354). -/
def Mach.rateInput (m : Mach) (v : Int) : Int :=
  let v := if m.flag 0x0C28 24 then 4 * v else v
  let v := if 4 ≤ m.axmap then -v else v
  if m.flag 0x1400 6 then -v else v

/-- Sixteen inputs into the decimator, and S (R303, R351).
Log entry 68 (DEDUCED, unsafe). -/
def Mach.rateSum (m : Mach) (ins : List Sample) : Chain × Int :=
  let x := ins.foldl (fun x s => x.input (m.rateInput s.v) 0 false false) m.ang.deci
  let (s, comb) := combs x.comb (x.integ.getLastD 0)
  ({ x with comb := comb }, s.toInt)

/-- The rate S is at or above f_min (R357): S × 20,000 / 2^31 dps against MIN / 64 rev/s. -/
def Mach.fastEnough (m : Mach) (s : Int) : Bool :=
  decide (((m.fld 0x140C 0 11 * 360 * 2 ^ 31 : Nat) : Int) ≤ s * 20000 * 64)

/-- The rate S is at the limit of the GYR Z range (R358): the value of full-scale modulator samples throughout. -/
def Mach.rateAtLimit (m : Mach) (s : Int) : Bool :=
  let top := ((if m.flag 0x0C28 24 then 4 else 1) * (2 ^ 19 - 1) * 4096 : Nat)
  decide ((top : Int) ≤ s) || decide (s ≤ -(top : Int))

/-- Δθ of a rate output without the correction (R355).
Log entry 68 (DEDUCED, unsafe). -/
def Angle.advance (a : Angle) (s : Int) : Int :=
  divRound (((2 ^ 44 : Nat) + a.scale) * s * 20000) (360 * 2 ^ 57)

/-- A rate output's share of the pending correction, in 2^-32 rev, and what is left of it (R363). -/
def Angle.share (a : Angle) : Int × Angle :=
  if a.corrParts = 0 then (0, a)
  else
    let c := divRound a.corrLeft a.corrParts
    (divRound c 32, { a with corrLeft := a.corrLeft - c, corrParts := a.corrParts - 1 })

/-- The points from the one before `t` on; older ones are needed no more. -/
def trimRates (t : Int) : List RatePoint → List RatePoint
  | [] => []
  | p :: rest => if p.t ≤ t then [p] else p :: trimRates t rest

/-- N at the start of a revolution (R368): the register's, or in auto mode halved and doubled from the last one; `p` is P_last,
`s` the latest rate. The Bool says that N changed. -/
def Mach.nextN (m : Mach) : Nat × Bool :=
  let a := m.ang
  let top := m.fld 0x1400 12 3
  if !m.flag 0x1400 8 then (top, false)
  else
    let c0 := if a.first then top else min a.nCode top
    let above := fun (c lim : Nat) =>
      if a.first then decide (((lim * 360 * 2 ^ 31 : Nat) : Int) < ((64 * 2 ^ c : Nat) : Int) * a.omega * 20000)
      else decide (lim * a.pLast < 64 * 2 ^ c * second)
    let c1 := (List.range 6).foldl (fun c _ => if 0 < c && above c 15872 then c - 1 else c) c0
    let c2 := if c1 = c0 && c1 < top && !above (c1 + 1) 14336 then c1 + 1 else c1
    (c2, c2 != c0)

/-- The changes of lock state from the one in force at `t` on. -/
def trimStates (t : Int) : List (Int × Lock) → List (Int × Lock)
  | [] => []
  | p :: rest => if p.1 ≤ t then [p] else p :: trimStates t rest

/-- A revolution begins at an instant, with θ there a whole number of revolutions (R368, R375). -/
def Mach.revBegin (m : Mach) (t base : Int) : Mach :=
  let (c, changed) := m.nextN
  let m := { m with ang := { m.ang with rev := some (t, base), nCode := c, rates := trimRates t m.ang.rates,
                                        states := trimStates t m.ang.states,
                                        accs := m.ang.accs.filter (fun x => decide (t ≤ x)) } }
  if changed then m.sqBit 0x1428 8 else m

/-- The instant at which θ reaches a value between two rate outputs, as a rational (R355). -/
def crossTime (a b : RatePoint) (target : Int) : Rat :=
  if b.theta ≤ a.theta then (b.t : Rat)
  else (a.t : Rat) + ((target - a.theta : Int) : Rat) * ((b.t - a.t : Int) : Rat) / ((b.theta - a.theta : Int) : Rat)

/-- The first whole revolution that θ reaches, from a list of points, oldest first. -/
def firstWhole : List RatePoint → Option (Int × Int)
  | a :: b :: rest =>
    let k := b.theta.fdiv oneRev
    if a.theta < k * oneRev ∧ k * oneRev ≤ b.theta then some (roundUp (crossTime a b (k * oneRev)), k * oneRev)
    else firstWhole (b :: rest)
  | _ => none

/-- Outside SEARCH with no revolution in progress, the next whole revolution of θ begins one. -/
def Mach.revSeek (m : Mach) : Mach :=
  if m.ang.lock = .search || m.ang.rev.isSome then m
  else
    match firstWhole m.ang.rates.reverse with
    | some (t, base) => m.revBegin t base
    | none => { m with ang := { m.ang with rates := m.ang.rates.take 2 } }

/-- With REF = 2 the resampler leaves SEARCH at the first rate output with ω ≥ f_min (R362). -/
def Mach.freeRun (m : Mach) (t : Int) : Mach :=
  let m := { m with ang := { m.ang with theta := 0, revCount := 0, holdRevs := 0, before := .search, first := true,
                                        rates := [⟨t, 0⟩] } }
  (m.setLock .holdover t).revBegin t 0

/-- ANGLE_RATE_OUTPUT (R355): at the decimator's output instant θ advances by the scaled rate and its share of the pending
correction. -/
def Mach.angleRate (m : Mach) (ins : List Sample) : Mach :=
  if !m.angRuns then { m with ang := { m.ang with run := false } }
  else
    let m := m.angJoin
    let o := m.ang.nextRate
    if m.ts < o then m
    else
      let (x, s) := m.rateSum ins
      let m := { m with ang := { m.ang with deci := x, nextRate := o + 4096 } }
      if 0 < m.ang.discard then { m with ang := { m.ang with discard := m.ang.discard - 1 } }
      else
        let t := (o : Int) - 6528
        let (c, a) := m.ang.share
        let th := a.theta + a.advance s + c
        let fast := m.fastEnough s
        let m := { m with ang := { a with
          omega := s, theta := th, rates := ⟨t, th⟩ :: a.rates,
          lowSince := if fast then none else some (a.lowSince.getD o) } }
        if m.rateAtLimit s then (if m.ang.lock = .search then m else (m.sqBit 0x1428 9).enterSearch)
        else if m.ang.lock = .search then
          if m.angRef = 2 && fast then m.freeRun t
          else { m with ang := { m.ang with rates := m.ang.rates.take 8 } }
        else m.revSeek

/-- SPIN_LOW (R357): ω has stayed below f_min for 1 / f_min seconds. -/
def Mach.spinLow (m : Mach) : Mach :=
  match m.ang.lowSince with
  | some t => if m.angRuns && decide (t * m.fld 0x140C 0 11 + 64 * second ≤ m.ts * m.fld 0x140C 0 11) then m.enterSearch else m
  | none => m

/-! ### References (R359 to R366) -/

/-- θ at an instant, linearly interpolated between two rate outputs (R355), from points newest first. -/
def thetaAt : List RatePoint → Int → Option Int
  | b :: a :: rest, t =>
    if a.t ≤ t ∧ t ≤ b.t then
      if b.t = a.t then some b.theta
      else some (a.theta + divRound ((b.theta - a.theta) * (t - a.t)) (b.t - a.t).toNat)
    else thetaAt (a :: rest) t
  | _, _ => none

/-- Every point from an instant on, and θ itself, moved by a correction.
Log entry 69 (DEDUCED, unsafe). -/
def Mach.shiftTheta (m : Mach) (t d : Int) : Mach :=
  { m with ang := { m.ang with theta := m.ang.theta + d,
                               rates := m.ang.rates.map (fun p => if t ≤ p.t then { p with theta := p.theta + d } else p) } }

/-- θ at an instant set: the points before it are dropped. -/
def Mach.setTheta (m : Mach) (t now want : Int) : Mach :=
  let m := m.shiftTheta t (want - now)
  { m with ang := { m.ang with rates := (m.ang.rates.filter (fun p => decide (t < p.t))) ++ [⟨t, want⟩] } }

/-- The registers of the last phase error and of the scale (R383). -/
def Mach.loopRegs (m : Mach) (e : Int) : Mach :=
  (m.setReg 0x1418 (wordOfInt e)).setReg 0x141C (wordOfInt (divRound m.ang.scale (2 ^ 14)))

/-- A revolution that begins at an instant with θ there a whole number. -/
def Mach.beginIfWhole (m : Mach) (t th : Int) : Mach := if th % oneRev = 0 then m.revBegin t th else m.revSeek

/-- The phase error reduced to −0.5 rev < e ≤ +0.5 rev (R363). -/
def phaseError (d : Int) : Int :=
  let r := d % oneRev
  if oneRev < 2 * r then r - oneRev else r

/-- The state rules after the phase loop (R364).
Log entry 69 (DEDUCED, unsafe). -/
def Mach.stateRules (m : Mach) (t e : Int) : Mach :=
  let tol : Int := ((m.fld 0x1408 0 8 * 2 ^ 20 : Nat) : Int)
  match m.ang.lock with
  | .track =>
    if |e| < tol then
      let n := m.ang.good + 1
      let m := { m with ang := { m.ang with good := n } }
      if m.fld 0x1408 8 4 ≤ n then m.setLock .lock t else m
    else { m with ang := { m.ang with good := 0 } }
  | .lock =>
    if 4 * tol ≤ |e| then ({ m with ang := { m.ang with good := 0 } }).setLock .track t else m
  | .holdover =>
    if |e| < 4 * tol ∧ m.ang.before = .lock then m.setLock .lock t
    else ({ m with ang := { m.ang with good := 0 } }).setLock .track t
  | .search => m

/-- The phase loop at an accepted instant outside SEARCH (R363); `th` is θ there.
Log entry 69 (DEDUCED, unsafe). -/
def Mach.phaseLoop (m : Mach) (t th : Int) : Mach :=
  let left := divRound m.ang.corrLeft 32
  let m := if left = 0 then m else m.shiftTheta t left
  let th := th + left
  let m := { m with ang := { m.ang with corrLeft := 0, corrParts := 0, accs := t :: m.ang.accs, holdRevs := 0 } }
  let e := phaseError (th - m.keyOfs)
  if (2 ^ 29 : Int) ≤ |e| then
    let m := ({ m with ang := { m.ang with rev := none, good := 0, accTheta := th - e } }).setTheta t th (th - e)
    ((((m.loopRegs e).sqBit 0x1428 10).setLock .track t)).beginIfWhole t (th - e)
  else
    let k := m.fld 0x1400 16 3
    let lim := ((2 ^ 44 / 100 : Nat) : Int)
    let sc := clampInt (-lim) lim (m.ang.scale - divRound (e * 2 ^ 12) (2 ^ (2 * k)))
    let m := { m with ang := { m.ang with
      scale := sc, corrLeft := -(divRound (e * 64) (2 ^ k)), corrParts := max 1 (m.ang.pLast / 8192), accTheta := th } }
    (m.loopRegs e).stateRules t e

/-- A reference instant in SEARCH (R362): accepted when ω ≥ f_min.
Log entry 69 (DEDUCED, unsafe). -/
def Mach.refSearch (m : Mach) (t th : Int) : Mach :=
  if !m.fastEnough m.ang.omega then m
  else
    let k := m.keyOfs
    let m := { m with ang := { m.ang with revCount := 0, good := 0, accTheta := k, accs := [t], holdRevs := 0, first := true } }
    ((m.setTheta t th k).setLock .track t).beginIfWhole t k

/-- REFERENCE_INSTANT (R362): a reference instant that waits, once the rate outputs around it are there.
Log entry 69 (DEDUCED, unsafe). -/
def Mach.reference (m : Mach) (t : Int) : Mach :=
  if !m.angRuns || !m.ang.refs.contains t || (match m.ang.rates with
      | p :: _ => decide (p.t < t)
      | [] => true) then m
  else
    let m := { m with ang := { m.ang with refs := m.ang.refs.filter (fun x => decide (t < x)), holdN := m.fld 0x1408 16 8 } }
    match thetaAt m.ang.rates t with
    | none => m
    | some th =>
      match m.ang.lock with
      | .search => m.refSearch t th
      | .holdover => m.phaseLoop t th
      | _ =>
        if 2 * (th - m.ang.accTheta) < oneRev then (m.count 0x1430).sqBit 0x1428 5
        else if 2 * (th - m.ang.accTheta) ≤ 3 * oneRev then m.phaseLoop t th
        else m

/-- KEY_MISS (R362): 1.5 rev travelled in TRACK or LOCK with no accepted instant. -/
def Mach.keyMiss (m : Mach) : Mach :=
  if m.angRuns && (m.ang.lock = .track || m.ang.lock = .lock) && decide (3 * oneRev ≤ 2 * (m.ang.theta - m.ang.accTheta)) then
    let t := match m.ang.rates with
      | p :: _ => p.t
      | [] => (m.ts : Int)
    let m := { m with ang := { m.ang with before := m.ang.lock, holdRevs := 0 } }
    ((m.setLock .holdover t).count 0x142C).sqBit 0x1428 6
  else m

/-! ### Angle steps (R367 to R373) -/

/-- The points from the pair between which θ reaches a value, oldest first. -/
def seekTheta (target : Int) : List RatePoint → List RatePoint
  | a :: b :: rest => if target ≤ b.theta then a :: b :: rest else seekTheta target (b :: rest)
  | l => l

/-- The instants of the angle steps `k` to N − 1 of a revolution (R367), from the points, oldest first; `j` counts them down. -/
def stepTimes (base : Int) (n : Nat) : Nat → List RatePoint → List Rat
  | 0, _ => []
  | j + 1, pts =>
    let target := base + (((n - (j + 1)) * 2 ^ 32 / n : Nat) : Int)
    let pts := seekTheta target pts
    let t : Rat := match pts with
      | a :: b :: _ => crossTime a b target
      | [a] => (a.t : Rat)
      | [] => 0
    t :: stepTimes base n j pts

/-- The source points from the second one before an instant on, oldest first. -/
def seekAcf (t : Rat) : List AcfPoint → List AcfPoint
  | a :: b :: c :: rest => if t ≤ (c.t : Rat) then a :: b :: c :: rest else seekAcf t (b :: c :: rest)
  | l => l

/-- Four-point cubic Lagrange interpolation, at `u` source periods after the second of four values (R371).
Log entry 70 (DEDUCED, unsafe). -/
def lagrange (u v0 v1 v2 v3 : Rat) : Rat :=
  -(u * (u - 1) * (u - 2)) / 6 * v0 + (u + 1) * (u - 1) * (u - 2) / 2 * v1 - (u + 1) * u * (u - 2) / 2 * v2 +
    (u + 1) * u * (u - 1) / 6 * v3

/-- One angle step: its instant, the three values, each with its flags, the window code, and H at its instant. -/
structure Step where
  t : Rat
  x : OutVal
  y : OutVal
  z : OutVal
  window : Nat
  h : Int × Int × Int
  deriving Repr

/-- H at an instant, from the source points, newest first: each carries the H at its output instant, 1,696 ticks later.
Log entry 70 (DEDUCED, unsafe). -/
def heldAtPoint : List AcfPoint → Rat → Int × Int × Int
  | [], _ => (0, 0, 0)
  | [p], _ => (p.hx, p.hy, p.hz)
  | p :: rest, t => if (p.t : Rat) + 1696 ≤ t then (p.hx, p.hy, p.hz) else heldAtPoint rest t

/-- The residual of an axis in a source point. -/
def AcfPoint.res (p : AcfPoint) (a : Nat) : Int := axisOf (p.x, p.y, p.z) a

/-- H + residual of an axis in a source point, in 2^-22 g (R380). -/
def AcfPoint.total (p : AcfPoint) (a : Nat) : Int := acfTotal (axisOf (p.hx, p.hy, p.hz) a) (p.res a) p.window

/-- One axis of an angle step, `u` source periods after the second of its four source points: the interpolated total less the H at
the step's instant, in the window of the source outputs (R371, R377), with the flags of the axis in the four (R372).
Log entry 70 (DEDUCED, unsafe). -/
def stepAxis (p q r s : AcfPoint) (u : Rat) (h : Int × Int × Int) (a : Nat) : OutVal :=
  let v := lagrange u (p.total a) (q.total a) (r.total a) (s.total a) - ((axisOf h a * 256 : Int) : Rat)
  let (v, clip) := limit24 (roundUp (v / (2 ^ r.window : Nat)))
  let fl := p.flags ||| q.flags ||| r.flags ||| s.flags
  ⟨v, fl.getLsbD (3 * a + 2), fl.getLsbD (3 * a + 1) || clip, fl.getLsbD (3 * a)⟩

/-- The angle step at an instant, from the four source points around it (R371, R372, R377).
Log entry 70 (DEDUCED, unsafe). -/
def stepAt (pts : List AcfPoint) (newest : List AcfPoint) (t : Rat) : Step :=
  let h := heldAtPoint newest t
  match pts with
  | p :: q :: r :: s :: _ =>
    let u := (t - (q.t : Rat)) / ((r.t - q.t : Int) : Rat)
    ⟨t, stepAxis p q r s u h 0, stepAxis p q r s u h 1, stepAxis p q r s u h 2, r.window, h⟩
  | _ => ⟨t, ⟨0, true, false, false⟩, ⟨0, true, false, false⟩, ⟨0, true, false, false⟩, 0, h⟩

/-- The outputs of the three axes. -/
def Step.axes (s : Step) : List OutVal := [s.x, s.y, s.z]

/-- The angle steps at a list of instants.
Log entry 70 (DEDUCED, unsafe). -/
def stepsAt (newest : List AcfPoint) : List AcfPoint → List Rat → List Step
  | _, [] => []
  | pts, t :: ts =>
    let pts := seekAcf t pts
    stepAt pts newest t :: stepsAt newest pts ts

/-! ### Order record (R378 to R380) -/

/-- The lock state in force at an instant, from the changes, newest first. -/
def stateAt (now : Lock) : List (Int × Lock) → Rat → Lock
  | [], _ => now
  | [(_, l)], _ => l
  | (u, l) :: rest, t => if (u : Rat) ≤ t then l else stateAt now rest t

/-- The code of a lock state (R383). -/
def Lock.code : Lock → Nat
  | .search => 0
  | .track => 1
  | .lock => 2
  | .holdover => 3

/-- v_k of R380 in 2^-22 g: the residual and the change of H since step 0. -/
def Step.total (s : Step) (h0 : Int × Int × Int) (a : Nat) : Int :=
  axisOf (s.x.v, s.y.v, s.z.v) a * ((2 ^ s.window : Nat) : Int) + (axisOf s.h a - axisOf h0 a) * 256

/-- Σ v_k e^(−j2πk/N) in fixed point (R380). -/
def dftOne (vs : List Int) : Int × Int :=
  let n := vs.length
  vs.zipIdx.foldl (fun s v => (s.1 + v.1 * cosTurn v.2 n, s.2 - v.1 * sinTurn v.2 n)) (0, 0)

/-- The 1× amplitude in 2^-18 g, rounded to nearest, before saturation (R380). -/
def amplitudeOf (n : Nat) (re im : Int) : Nat :=
  (divRound (2 * (isqrtBits 160 (re * re + im * im).toNat : Int)) (n * 2 ^ 100)).toNat

/-- A sum that is 0 but for the fixed-point error of its terms. -/
def dftZero (re im : Int) : Bool := decide (|re| ≤ (2 ^ 51 : Nat)) && decide (|im| ≤ (2 ^ 51 : Nat))

/-- Amplitude and phase of one axis; the phase of a sum that is 0 is open (R380). -/
def Mach.oneTimes (m : Mach) (vs : List Int) : Nat × Nat × Mach :=
  let (re, im) := dftOne vs
  if dftZero re im then
    let (x, m) := m.drawNat
    (0, x % 2 ^ 24, m)
  else (amplitudeOf vs.length re im, angle24 re im, m)

/-- A record word of code 28 (R379). -/
def recWord (v : Nat) : Word := word (v % 2 ^ 24 * 256 + 28)

/-- What one axis gives to the order record: amplitude (not yet saturated) and phase. -/
structure OneTimes where
  amp : Nat
  phase : Nat
  deriving DecidableEq, Repr

/-- The amplitude as the record has it. -/
def OneTimes.sat (o : OneTimes) : Nat := min (2 ^ 24 - 1) o.amp

/-- The amplitude saturated. -/
def OneTimes.isSat (o : OneTimes) : Bool := decide (2 ^ 24 ≤ o.amp)

/-- The order record (R379). -/
def Mach.orderRecord (m : Mach) (st : Lock) (t0 : Int) (nokey ovr hstep : Bool) (x y z : OneTimes) : List Word :=
  [word (0x02000000 + st.code * 2 ^ 22 + m.angRef * 2 ^ 20 + m.ang.nCode * 2 ^ 17 + (if nokey then 2 ^ 16 else 0) +
      (if ovr then 2 ^ 15 else 0) + (if hstep then 2 ^ 14 else 0) + axisBits x.isSat y.isSat z.isSat * 2 ^ 11 + 28),
   recWord (m.ang.revCount % 2 ^ 24), recWord t0.toNat, recWord (t0.toNat / 2 ^ 24),
   recWord x.sat, recWord x.phase, recWord y.sat, recWord y.phase, recWord z.sat, recWord z.phase]

/-- The period field of a revolution marker, in units of 16 ticks (R378). -/
def periodField (period : Nat) : Nat := min 0xFFFFFF ((period + 8) / 16)

/-- The revolution marker (R378). -/
def markerWord (period : Nat) (uns clp blk : Bool) : Word :=
  word (periodField period * 256 + 27) ||| bitIf uns 7 ||| bitIf clp 6 ||| bitIf blk 5

/-- The angle steps of a revolution as words and as outputs for the event engine (R375, R435). -/
def Mach.stepsOut (m : Mach) (uns : Bool) (ss : List Step) : Mach :=
  ss.foldl (fun m s => s.axes.zipIdx.foldl (fun m o =>
    m.evtOutput ⟨18 + o.2, o.1.v, roundUp s.t, uns || o.1.uns, o.1.clp, o.1.blk⟩) m) m

/-- The event engine takes a revolution's own values: source 36, from the marker's period field in 16 ticks, sources 37 to 39 and
IMBALANCE (R432, R433, R443). -/
def Mach.revEvents (m : Mach) (st : Lock) (t : Int) (period : Nat) (uns clp blk : Bool) (os : List OneTimes) : Mach :=
  let out := fun (src v : Nat) => (⟨src, (v : Int), t, uns, clp, blk⟩ : EvIn)
  let m := m.evtOutput (out 36 ((2 ^ 33 + periodField period) / (2 * max 1 (periodField period))))
  let m := os.zipIdx.foldl (fun m o => m.evtOutput (out (37 + o.2) o.1.sat)) m
  if m.recRuns 5 && !uns && !blk && (!m.flag 0x2080 1 || st = .lock) then
    os.zipIdx.foldl (fun m o => if m.flag 0x2080 (16 + o.2) then m.imbAt o.2 o.1.sat ((o.1.phase + 128) / 256) t else m) m
  else m

/-- A revolution that is not over-rate is delivered: marker, order record, angle steps (R375 to R380). -/
def Mach.deliverRev (m : Mach) (t0 t1 : Int) (period : Nat) (st : Lock) (track nokey : Bool) (ss : List Step) : Mach :=
  let h0 := (ss.head?.map (fun s => s.h)).getD (0, 0, 0)
  let hstep := m.ang.acf.any (fun p => decide (t0 < p.t + 1696) && decide (p.t + 1696 ≤ t1) && decide ((p.hx, p.hy, p.hz) ≠ h0))
  let (ax, px, m) := m.oneTimes (ss.map (fun s => s.total h0 0))
  let (ay, py, m) := m.oneTimes (ss.map (fun s => s.total h0 1))
  let (az, pz, m) := m.oneTimes (ss.map (fun s => s.total h0 2))
  let os := ss.flatMap Step.axes
  let uns := track || os.any (fun o => o.uns)
  let clp := os.any (fun o => o.clp)
  let blk := os.any (fun o => o.blk)
  let ws := ss.flatMap (fun s => s.axes.zipIdx.map (fun o => sampleWord o.1.v (track || o.1.uns) o.1.clp o.1.blk (18 + o.2)))
  let m := m.offer 1 (markerWord period uns clp blk :: m.orderRecord st t0 nokey false hstep ⟨ax, px⟩ ⟨ay, py⟩ ⟨az, pz⟩ ++ ws)
  (m.stepsOut track ss).revEvents st t1 period uns clp blk [⟨ax, px⟩, ⟨ay, py⟩, ⟨az, pz⟩]

/-- An over-rate revolution (R369): marker and order record only. -/
def Mach.deliverOver (m : Mach) (t0 t1 : Int) (period : Nat) (st : Lock) (nokey : Bool) : Mach :=
  let h0 := heldAtPoint m.ang.acf t0
  let hstep := m.ang.acf.any (fun p => decide (t0 < p.t + 1696) && decide (p.t + 1696 ≤ t1) && decide ((p.hx, p.hy, p.hz) ≠ h0))
  let z : OneTimes := ⟨0, 0⟩
  ((m.offer 1 (markerWord period false false false :: m.orderRecord st t0 nokey true hstep z z z)).count 0x1434).sqBit 0x1428 7

/-- The points still needed once a revolution has begun at an instant. -/
def trimAcf (t : Int) : List AcfPoint → List AcfPoint
  | [] => []
  | p :: rest => if p.t ≤ t - 8192 then [p] else p :: trimAcf t rest

/-- A revolution has ended at an instant: count, period, HOLDOVER's revolutions, the next revolution (R364, R368). -/
def Mach.revNext (m : Mach) (t1 base : Int) (period : Nat) (accepted : Bool) : Mach :=
  let m := m.setReg 0x1414 (word (periodField period))
  let h := if m.ang.lock = .holdover && !accepted then m.ang.holdRevs + 1 else 0
  let m := { m with ang := { m.ang with pLast := period, first := false, revCount := (m.ang.revCount + 1) % 2 ^ 24, holdRevs := h,
                                        acf := trimAcf t1 m.ang.acf } }
  if m.ang.lock = .holdover && m.angRef ≠ 2 && decide (m.ang.holdN ≤ h) then m.enterSearch
  else m.revBegin t1 base

/-- REVOLUTION_END (R375): θ has crossed the next integer, and the source outputs around the last angle step are there. -/
def Mach.revolutionEnd (m : Mach) : Mach :=
  match m.ang.rev with
  | none => m
  | some (t0, base) =>
    let target := base + oneRev
    if !m.angRuns || m.ang.lock = .search || decide (m.ang.theta < target) then m
    else
      let pts := m.ang.rates.reverse
      let n := 64 * 2 ^ m.ang.nCode
      let t1 := match seekTheta target pts with
        | a :: b :: _ => roundUp (crossTime a b target)
        | [a] => a.t
        | [] => t0
      let period := (t1 - t0).toNat
      let times := stepTimes base n n pts
      let last := times.getLastD 0
      let fast := decide (period < n * 4096)
      if !fast && (match m.ang.acf with
          | _ :: p :: _ => decide ((p.t : Rat) < last)
          | _ => true) then m
      else
        let st := stateAt m.ang.lock m.ang.states last
        let accepted := m.ang.accs.any (fun t => decide (t0 ≤ t) && decide (t < t1))
        let track := times.any (fun t => decide (stateAt m.ang.lock m.ang.states t = .track))
        let m := if fast then m.deliverOver t0 t1 period st (!accepted)
          else m.deliverRev t0 t1 period st track (!accepted) (stepsAt m.ang.acf m.ang.acf.reverse times)
        m.revNext t1 target period accepted

/-! ### KEY (R75, R359, R445) -/

/-- An accepted KEY edge of the polarity in force, at its timestamp: a reference instant with REF = 0, a revolution instant
with REVOLUTION on KEY (R359, R445).
Log entry 77 (DEDUCED, unsafe). -/
def Mach.keyInstant (m : Mach) (t : Int) : Mach :=
  let m := if m.angRef = 0 && m.angRuns then { m with ang := { m.ang with refs := m.ang.refs ++ [t] } } else m
  if m.recRuns 2 && !m.flag 0x2060 1 then m.revInstant t else m

/-- `ANG_STATE` (R383). -/
def Angle.stateWord (a : Angle) : Word := word (a.revCount % 2 ^ 24 * 256 + a.nCode * 16 + a.lock.code)

end Sys2Proof.Machine
end

