-- ==== Sys2Proof/Machine/Engine.lean ====
section
/-! DEFINITION. The programmable I/O engines: ticks, instructions, shifts, start, stop and resume (R558 to R590). -/

namespace Sys2Proof.Machine

/-! ### Pins (R565 to R569) -/

/-- The address of `ENG_PINp`. -/
def pinAddr (p : Nat) : Nat := 0x2740 + 4 * p

/-- A pin is owned by engine `n` (R565). -/
def Mach.pinOwned (m : Mach) (n p : Nat) : Bool := m.fld (pinAddr p) 16 3 == n + 1

/-- The external levels of the EP pins at a tick; without VIO they are ignored, and those last taken stand (R57).
Log entry 127 (DEDUCED, unsafe). -/
def Mach.atPins (m : Mach) (levels : BitVec 16) : Mach :=
  if m.clk.vio then { m with eng := { m.eng with levels := levels } } else m

/-- The level an engine reads at a pin: 0 with INEN at 0 (R565). -/
def Mach.pinRead (m : Mach) (p : Nat) : Bool := m.flag (pinAddr p) 0 && m.eng.levels.getLsbD p

/-- One latch word with one pin's bit set to a value. -/
def latchBit (l : BitVec 16) (p : Nat) (v : Bool) : BitVec 16 :=
  if v then l ||| BitVec.ofNat 16 (2 ^ p) else l &&& ~~~(BitVec.ofNat 16 (2 ^ p))

/-- A pin's output latch set.
Log entry 107 (DEDUCED, unsafe). -/
def Mach.pinOut (m : Mach) (p : Nat) (v : Bool) : Mach := { m with eng := { m.eng with out := latchBit m.eng.out p v } }

/-- A pin's drive latch set. -/
def Mach.pinDrive (m : Mach) (p : Nat) (v : Bool) : Mach := { m with eng := { m.eng with drive := latchBit m.eng.drive p v } }

/-- The latches of a pin take INIT and INITOE (R567). -/
def Mach.pinInit (m : Mach) (p : Nat) : Mach := (m.pinOut p (m.flag (pinAddr p) 1)).pinDrive p (m.flag (pinAddr p) 2)

/-- The level a pin is driven to, if it is driven (R57, R58, R566). -/
def Mach.pinDriven (m : Mach) (p : Nat) : Option Bool :=
  if !m.on 6 || !m.pinsUp || m.fld (pinAddr p) 16 3 = 0 || !m.eng.drive.getLsbD p then none
  else
    match m.fld (pinAddr p) 8 2 with
    | 1 => some (m.eng.out.getLsbD p)
    | 2 => if m.eng.out.getLsbD p then none else some false
    | _ => none

/-- `ENG_PINp.LEVEL`: the driven level, else the level last seen, through the input buffer.
Log entry 130 (DEDUCED, unsafe). -/
def Mach.pinLevel (m : Mach) (p : Nat) : Bool :=
  m.flag (pinAddr p) 0 && (match m.pinDriven p with
    | some v => v
    | none => m.eng.levels.getLsbD p)

/-- The pins b + i of a mask with their bits of a value (R570). -/
def maskPins (w : Word) : List (Nat × Bool) :=
  ((List.range 4).filter (fun i => bitAt w (16 + i))).map (fun i => (bitsAt w 20 4 + i, bitAt w (12 + i)))

/-! ### Instruction words (R570, R571) -/

/-- The bits an instruction may have set, by its opcode and, in SET, its DEST. -/
def engAllowed (w : Word) : Nat :=
  match bitsAt w 28 4 with
  | 0 => 0x0F0F00FF
  | 1 => 0x010000FF
  | 2 => if bitsAt w 24 4 ≤ 1 then 0x0FFFF000 else if bitsAt w 24 4 ≤ 3 then 0x0FFFFFFF else 0x0F00FFFF
  | 3 => 0x00FFFFFF
  | 4 => 0x01FFF000
  | 5 => 0x001F0000
  | 6 => 0
  | 7 => 0x0FFD1F3F
  | 8 => 0x0FFF1F3F
  | 9 => 0x03800000
  | 10 => 0x03800000
  | _ => 0x1F

/-- Fault cause 1: an undefined word (R571). -/
def engUndefined (w : Word) : Bool :=
  let op := bitsAt w 28 4
  decide (12 ≤ op) || (op = 0 && decide (10 ≤ bitsAt w 24 4)) || (op = 2 && decide (6 ≤ bitsAt w 24 4)) ||
    (op = 9 && bitsAt w 24 2 = 3)

/-- Fault cause 2: a field value (R571). -/
def engBadField (w : Word) : Bool :=
  let op := bitsAt w 28 4
  let pins := op = 4 || (op = 2 && decide (bitsAt w 24 4 ≤ 1))
  decide (w &&& ~~~(word (0xF0000000 + engAllowed w)) ≠ 0) || (op = 3 && bitsAt w 0 24 = 0) ||
    ((op = 7 || op = 8) && bitsAt w 0 6 = 0) || (op = 4 && bitsAt w 16 4 = 0) ||
    (pins && (maskPins w).any (fun p => decide (15 < p.1)))

/-- Fault cause 3: a pin that the engine does not own (R571). -/
def Mach.engNotOwned (m : Mach) (n : Nat) (w : Word) : Bool :=
  let op := bitsAt w 28 4
  (op = 2 && decide (bitsAt w 24 4 ≤ 1) && (maskPins w).any (fun p => !m.pinOwned n p.1)) ||
    (op = 7 && !m.pinOwned n (bitsAt w 24 4)) || ((op = 7 || op = 8) && bitAt w 19 && !m.pinOwned n (bitsAt w 20 4))

/-- The fault cause of a word that engine `n` executes; 0: none.
Log entry 105 (DEDUCED, unsafe). -/
def Mach.engCause (m : Mach) (n : Nat) (w : Word) : Nat :=
  if engUndefined w then 1 else if engBadField w then 2 else if m.engNotOwned n w then 3 else 0

/-- A word of program memory (R558).
Log entry 14 (DESIGN CHOICE, unsafe). -/
def Mach.engWord (m : Mach) (n a : Nat) : Word := cellGet (fun _ => 0) m.mem.engProg (n % 4 * 256 + a % 256)

/-- An engine stalls (R586).
Log entry 105 (DEDUCED, unsafe). -/
def Mach.engStall (m : Mach) (n c cause : Nat) : Mach :=
  (m.updEng n (fun e => { e with
    run := .stalled, resok := false, fcause := cause, fctx := c, fpc := (e.ctxs.getD c Ctx.fresh).pc,
    undo := some ⟨m.clk.now, e.fcause, e.fctx, e.fpc, m.reg 0x2724, (m.seqPending 0x2724).isSome⟩ })).sqBit 0x2724 n

/-- A START and a stall in one FOSC cycle: the stall is not recorded (R587). -/
def Mach.engUnstall (m : Mach) (n : Nat) : Mach :=
  match (m.engine n).undo with
  | some u =>
    if u.at_ ≠ m.clk.now then m
    else
      let w := setBits (m.reg 0x2724) n 1 (bitsAt u.status n 1)
      let m := (m.updEng n (fun e => { e with fcause := u.cause, fctx := u.ctx, fpc := u.pc, undo := none })).setReg 0x2724 w
      if w = u.status && !u.pending then
        { m with regs := { m.regs with pendingSeq := m.regs.pendingSeq.filter (fun p => p.1 != 0x2724) } }
      else m
  | none => m

/-- The program counter advances; past 0xFF the engine stalls with cause 4 (R564). -/
def Mach.engAdvance (m : Mach) (n c : Nat) : Mach :=
  if (m.ctx n c).pc = 255 then (m.updCtx n c (fun x => { x with op := .ready })).engStall n c 4
  else m.updCtx n c (fun x => { x with pc := x.pc + 1, op := .ready })

/-- A jump. -/
def Mach.engJump (m : Mach) (n c target : Nat) : Mach := m.updCtx n c (fun x => { x with pc := target, op := .ready })

/-- A wait that goes on. -/
def Mach.engWait (m : Mach) (n c : Nat) (op : CtxOp) : Mach := m.updCtx n c (fun x => { x with op := op })

/-! ### Shifts (R573) -/

/-- The clock pin of a shift set to a level, where one is used. -/
def Mach.shiftClock (m : Mach) (w : Word) (v : Bool) : Mach := if bitAt w 19 then m.pinOut (bitsAt w 20 4) v else m

/-- The start of a bit: the clock idle; SHIFTOUT sets the data pin and shifts SH. -/
def Mach.shiftBit (m : Mach) (n c : Nat) (out : Bool) (w : Word) : Mach :=
  let m := m.shiftClock w (bitAt w 18)
  if out then
    let sh := (m.ctx n c).sh
    let lsb := bitAt w 16
    (m.pinOut (bitsAt w 24 4) (if lsb then bitAt sh 0 else bitAt sh 31)).updCtx n c (fun x =>
      { x with sh := if lsb then sh >>> 1 else sh <<< 1 })
  else m

/-- A sample of the data pin into SH. -/
def Mach.shiftSample (m : Mach) (n c : Nat) (w : Word) : Mach :=
  let b := m.pinRead (bitsAt w 24 4)
  m.updCtx n c (fun x =>
    { x with sh := if bitAt w 16 then (x.sh >>> 1) ||| bitIf b 31 else (x.sh <<< 1) ||| bitIf b 0 })

/-- A shift begins at a tick: bit 0. -/
def Mach.shiftBegin (m : Mach) (n c : Nat) (out : Bool) (w : Word) (t : Nat) : Mach :=
  (m.updCtx n c (fun x => { x with op := .shift out w t 0 x.sh })).shiftBit n c out w

/-- The end of a bit: the sample of SAMP = 1, the clock back at CPOL, and the next bit or the end of the shift. -/
def Mach.shiftBitEnd (m : Mach) (n c : Nat) (out : Bool) (w : Word) (bit t : Nat) : Mach :=
  let m := if !out && bitAt w 17 then m.shiftSample n c w else m
  let m := m.shiftClock w (bitAt w 18)
  if bit = bitsAt w 8 5 then m.engAdvance n c
  else
    (m.updCtx n c (fun x => { x with op := .shift out w t (bit + 1) x.sh })).shiftBit n c out w

/-- What a running shift or delay of a context does at a tick (R562, R573, R574). A bit that a resume repeats begins at it. -/
def Mach.opTick (m : Mach) (n c t : Nat) : Mach :=
  match (m.ctx n c).op with
  | .shift out w bs bit _ =>
    let h := bitsAt w 0 6
    if t = bs then m.shiftBit n c out w
    else if t = bs + h then
      let m := m.shiftClock w (!bitAt w 18)
      if !out && !bitAt w 17 then m.shiftSample n c w else m
    else if t = bs + 2 * h then m.shiftBitEnd n c out w bit t
    else m
  | .delay e => if e ≤ t then m.engAdvance n c else m
  | _ => m

/-! ### Instructions (R572 to R580) -/

/-- A JMP's condition; bit 9 reads the interrupt latch without consuming it. -/
def Mach.engCond (m : Mach) (n c : Nat) (w : Word) : Bool :=
  let p := bitsAt w 16 4
  let x := m.ctx n c
  match bitsAt w 24 4 with
  | 0 => true
  | 1 => m.pinRead p
  | 2 => !m.pinRead p
  | 3 => bitAt x.sh 31
  | 4 => bitAt x.sh 0
  | 5 => m.flagsSeen.getLsbD p
  | 6 => !m.flagsSeen.getLsbD p
  | 7 => x.txf
  | 8 => !x.rxf
  | _ => (m.engine n).irq

/-- JMP (R572). -/
def Mach.engJmpOp (m : Mach) (n c : Nat) (w : Word) : Mach :=
  if m.engCond n c w then m.engJump n c (bitsAt w 0 8) else m.engAdvance n c

/-- DJNZ (R572). -/
def Mach.engDjnzOp (m : Mach) (n c : Nat) (w : Word) : Mach :=
  let x := m.ctx n c
  let v := (if bitAt w 24 then x.cb else x.ca) - 1
  let m := m.updCtx n c (fun x => if bitAt w 24 then { x with cb := v } else { x with ca := v })
  if v = 0 then m.engAdvance n c else m.engJump n c (bitsAt w 0 8)

/-- SET (R572). -/
def Mach.engSetOp (m : Mach) (n c : Nat) (w : Word) : Mach :=
  let imm := wordOfInt (signed 24 (bitsAt w 0 24))
  let m := match bitsAt w 24 4 with
    | 0 => (maskPins w).foldl (fun (m : Mach) (p : Nat × Bool) => m.pinOut p.1 p.2) m
    | 1 => (maskPins w).foldl (fun (m : Mach) (p : Nat × Bool) => m.pinDrive p.1 p.2) m
    | 2 => m.updCtx n c (fun x => { x with ca := imm })
    | 3 => m.updCtx n c (fun x => { x with cb := imm })
    | 4 => m.setFlags (bitsAt w 0 16) 0
    | _ => m.setFlags 0 (bitsAt w 0 16)
  m.engAdvance n c

/-- DELAY (R574) executed at a tick. -/
def Mach.engDelayOp (m : Mach) (n c : Nat) (w : Word) (t : Nat) : Mach := m.engWait n c (.delay (t + bitsAt w 0 24))

/-- WAITPIN (R574). -/
def Mach.engWaitpinOp (m : Mach) (n c : Nat) (w : Word) : Mach :=
  let hit := (maskPins w).all (fun p => m.pinRead p.1 == p.2)
  if hit != bitAt w 24 then m.engAdvance n c else m.engWait n c .waitPin

/-- WAITFLAG (R574). -/
def Mach.engWaitflagOp (m : Mach) (n c : Nat) (w : Word) : Mach :=
  if m.flagsSeen.getLsbD (bitsAt w 16 4) == bitAt w 20 then m.engAdvance n c else m.engWait n c .waitFlag

/-- WAITIRQ (R579): the latch as at the start of the cycle; a set in the same cycle leaves it 1. -/
def Mach.engWaitirqOp (m : Mach) (n c : Nat) : Mach :=
  let e := m.engine n
  match e.irqAt with
  | some (t, before) =>
    if t = m.clk.now then if before then m.engAdvance n c else m.engWait n c .waitIrq
    else if e.irq then (m.updEng n (fun e => { e with irq := false })).engAdvance n c else m.engWait n c .waitIrq
  | none => if e.irq then (m.updEng n (fun e => { e with irq := false })).engAdvance n c else m.engWait n c .waitIrq

/-- PULL (R576). -/
def Mach.engPullOp (m : Mach) (n c : Nat) (w : Word) : Mach :=
  let x := m.ctx n c
  if x.txf && atCycleStart x.txf x.txAt m.clk.now then
    (m.updCtx n c (fun x =>
      let x := { x with txf := false, txAt := some m.clk.now }
      match bitsAt w 24 2 with
      | 0 => { x with sh := x.txd }
      | 1 => { x with ca := x.txd }
      | _ => { x with cb := x.txd })).engAdvance n c
  else if bitAt w 23 then m.engAdvance n c
  else m.engWait n c .dataWait

/-- PUSH (R577, R578). -/
def Mach.engPushOp (m : Mach) (n c : Nat) (w : Word) : Mach :=
  let x := m.ctx n c
  let full := x.rxf || atCycleStart x.rxf x.rxAt m.clk.now
  if full && !bitAt w 23 then m.engWait n c .dataWait
  else
    let v := match bitsAt w 24 2 with
      | 0 => x.sh
      | 1 => x.ca
      | 2 => x.cb
      | _ => word (bitsAt x.cb 0 16 * 65536 + bitsAt x.ca 0 16)
    (m.updCtx n c (fun x =>
      { x with rxd := v, rxf := true, rxAt := if x.rxf then x.rxAt else some m.clk.now,
               sh := if bitsAt w 24 2 = 0 then 0 else x.sh })).engAdvance n c

/-- IRQ (R579, R580). -/
def Mach.engIrqOp (m : Mach) (n c : Nat) (w : Word) : Mach :=
  let m := m.irqSet (bitsAt w 0 4)
  (if bitAt w 4 then m.sqBit 0x2724 (8 + n) else m).engAdvance n c

/-- An instruction that a context executes in its turn at tick `t`. -/
def Mach.engExec (m : Mach) (n c : Nat) (w : Word) (t : Nat) : Mach :=
  match bitsAt w 28 4 with
  | 0 => m.engJmpOp n c w
  | 1 => m.engDjnzOp n c w
  | 2 => m.engSetOp n c w
  | 3 => m.engDelayOp n c w t
  | 4 => m.engWaitpinOp n c w
  | 5 => m.engWaitflagOp n c w
  | 6 => m.engWaitirqOp n c
  | 7 => m.shiftBegin n c true w t
  | 8 => m.shiftBegin n c false w t
  | 9 => m.engPullOp n c w
  | 10 => m.engPushOp n c w
  | _ => m.engIrqOp n c w

/-! ### Ticks (R559 to R563) -/

/-- The context whose turn a tick is. -/
def Eng.turn (e : Eng) : Nat := (e.turnBase + e.tick) % 8

/-- The FOSC cycle of the engine's next tick: its start edge plus the floor of m times D (R559). -/
def Mach.tickAt (m : Mach) (n : Nat) : Nat :=
  let e := m.engine n
  e.edge + e.tick * bitsAt (m.reg (0x2730 + 4 * n)) 0 24 / 256

/-- Context `c` of engine `n` is enabled. -/
def Mach.ctxOn (m : Mach) (n c : Nat) : Bool := m.flag 0x2718 (8 * n + c)

/-- A shift or a delay is in progress. -/
def CtxOp.long : CtxOp → Bool
  | .shift _ _ _ _ _ => true
  | .delay _ => true
  | _ => false

/-- The turn of a context: at most one instruction (R560, R561). -/
def Mach.engTurn (m : Mach) (n c t : Nat) : Mach :=
  if !m.ctxOn n c || (m.ctx n c).op.long then m
  else
    let w := m.engWord n (m.ctx n c).pc
    match m.engCause n w with
    | 0 => m.engExec n c w t
    | k => m.engStall n c k

/-- The engine serves an enabled Flue bus, so that it is reserved (R589, R602).
Log entry 104 (DEDUCED, unsafe). -/
def Mach.engReserved (m : Mach) (n : Nat) : Bool :=
  decide (n < 2) && decide (m.flue.role = 2) && m.flag 0x2800 (4 + n)

/-- The engine's tick is due and takes place (D6 ON, no engines test).
Log entries 4 (DESIGN CHOICE, unsafe), 104 (DEDUCED, unsafe). -/
def Mach.tickDue (m : Mach) (n : Nat) : Bool :=
  m.on 6 && !m.testing 5 && !m.engReserved n && decide ((m.engine n).run ≠ .stopped) && decide (m.tickAt n ≤ m.clk.now)

/-- A STOP takes effect at the engine's next tick: one that falls in a FOSC cycle after that of its write (R583, R587). -/
def Mach.stopDue (m : Mach) (n : Nat) : Bool := (m.engine n).stopping && decide ((m.engine n).stopAt < m.tickAt n)

/-- ENGINE_TICK (R560): what runs on by itself in every context, then the turn; an instruction's value of a pin is applied over
a shift's (R569). A STOP takes effect here (R583); a stalled engine executes nothing.
Log entry 104 (DEDUCED, unsafe). -/
def Mach.engineTick (m : Mach) (n : Nat) (levels : BitVec 16) : Mach :=
  let m := m.atPins levels
  if !m.tickDue n then m
  else
    let e := m.engine n
    if m.stopDue n then m.updEng n (fun e => { e with run := .stopped, stopping := false, resok := decide (e.run = .running) })
    else if e.run = .stalled then m.updEng n (fun e => { e with tick := e.tick + 1 })
    else
      let m := (List.range 8).foldl (fun (m : Mach) c =>
        if (m.engine n).run = .running && m.ctxOn n c then m.opTick n c e.tick else m) m
      let m := if (m.engine n).run = .running then m.engTurn n e.turn e.tick else m
      m.updEng n (fun e => { e with tick := e.tick + 1 })

/-- The next tick is a turn of context `c` in which an instruction with one opcode executes.
Log entry 104 (DEDUCED, unsafe). -/
def Mach.turnIs (m : Mach) (n c op : Nat) : Bool :=
  let e := m.engine n
  m.tickDue n && decide (e.run = .running) && !m.stopDue n && e.turn == c && m.ctxOn n c &&
    (match e.ctxs[c]? with
      | some x => !x.op.long && bitsAt (m.engWord n x.pc) 28 4 == op
      | none => false)

/-- A row named for one opcode: the engine's tick, when it is a turn of context `c` that executes that opcode. -/
def Mach.turnOf (m : Mach) (n c op : Nat) (levels : BitVec 16) : Mach :=
  if m.turnIs n c op then m.engineTick n levels else m.atPins levels

/-- The next tick ends the shift, or the delay, of context `c` (R573, R574). -/
def Mach.endsAt (m : Mach) (n c : Nat) (shift : Bool) : Bool :=
  let e := m.engine n
  m.tickDue n && decide (e.run = .running) && !m.stopDue n && m.ctxOn n c &&
    (match (m.ctx n c).op with
      | .shift _ w bs bit _ => shift && bit == bitsAt w 8 5 && e.tick == bs + 2 * bitsAt w 0 6
      | .delay t => !shift && decide (t ≤ e.tick)
      | _ => false)

/-- SHIFT_END and DELAY_END: the engine's tick, when it ends the operation.
Log entry 104 (DEDUCED, unsafe). -/
def Mach.opEnd (m : Mach) (n c : Nat) (shift : Bool) (levels : BitVec 16) : Mach :=
  if m.endsAt n c shift then m.engineTick n levels else m.atPins levels

/-! ### Start, stop, resume (R581 to R587) -/

/-- A context as a START begins it (R582). -/
def Ctx.begin (x : Ctx) (start : Nat) : Ctx := { x with pc := start, sh := 0, ca := 0, cb := 0, op := .ready }

/-- START of one engine (R582, R567): tick 0 on the next FOSC edge; it wins over a stall of its cycle (R587). -/
def Mach.engStartOne (m : Mach) (n : Nat) : Mach :=
  let m := (m.engUnstall n).updEng n (fun e =>
    { e with run := .running, stopping := false, edge := m.clk.now + 1, tick := 0, turnBase := 0, resok := false,
             ctxs := e.ctxs.zipIdx.map (fun x =>
               if m.ctxOn n x.2 then x.1.begin (m.fld (0x2400 + 0x80 * n + 0x10 * x.2) 0 8)
               else { x.1 with op := .ready }) })
  ((List.range 16).filter (fun p => m.pinOwned n p)).foldl Mach.pinInit m

/-- STOP of one engine: at its next tick after the cycle of the write (R583, R587).
Log entry 105 (DEDUCED, unsafe). -/
def Mach.engStopOne (m : Mach) (n : Nat) : Mach :=
  m.updEng n (fun e => if e.run = .stopped then e else { e with stopping := true, stopAt := m.clk.now })

/-- A context's operation as a resume continues it: ticks count anew from the resume (R585).
Log entry 105 (DEDUCED, unsafe). -/
def Ctx.resume (x : Ctx) (tick : Nat) : Ctx :=
  match x.op with
  | .shift out w _ bit before => { x with sh := before, op := .shift out w 0 bit before }
  | .delay e => { x with op := .delay (e - tick) }
  | _ => x

/-- RESUME of one engine (R585).
Log entry 105 (DEDUCED, unsafe). -/
def Mach.engResumeOne (m : Mach) (n : Nat) : Mach :=
  m.updEng n (fun e =>
    { e with run := .running, resok := false, edge := m.clk.now + 1, turnBase := e.turn, tick := 0,
             ctxs := e.ctxs.map (fun x => x.resume e.tick) })

/-- The engines named by a mask. -/
def engsOf (mask : Nat) : List Nat := (List.range 4).filter (fun n => mask.testBit n)

/-- `ENG_RXACK` (R578). -/
def Mach.rxAck (m : Mach) (w : Word) : Mach :=
  (setBitsOf 32 w).foldl (fun (m : Mach) i => m.updCtx (i / 8) (i % 8) (fun x =>
    if x.rxf then { x with rxf := false, rxAt := some m.clk.now } else x)) m

/-- The program memory of an engine was written: it cannot be resumed (R584). -/
def Mach.engSpoil (m : Mach) (n : Nat) : Mach := m.updEng n (fun e => { e with resok := false })

/-- The engines when D6 goes OFF: stopped, the read-only fields of their registers at reset (R128, R581); TXD is kept. -/
def Mach.engOff (m : Mach) : Mach :=
  { m with eng := { m.eng with engs := m.eng.engs.map (fun e =>
      { Eng.fresh with ctxs := e.ctxs.map (fun x => { Ctx.fresh with txd := x.txd }) }), levels := 0 } }

/-- D6 switches ON: every engine stopped, the latches of every pin at INIT and INITOE (R567, R581). -/
def Mach.engOn (m : Mach) : Mach := (List.range 16).foldl Mach.pinInit m.engOff

/-! ### Registers (R594) -/

/-- A context's STATE field. -/
def CtxOp.code : CtxOp → Nat
  | .ready => 1
  | .waitPin => 2
  | .waitFlag => 3
  | .waitIrq => 4
  | .shift _ _ _ _ _ => 5
  | .delay _ => 6
  | .dataWait => 7

/-- Bits of the shift not yet completed. -/
def CtxOp.bitCount : CtxOp → Nat
  | .shift _ w _ bit _ => bitsAt w 8 5 + 1 - bit
  | _ => 0

/-- The read-only bits of `ENG_n_Cc_CTL`. -/
def Mach.ctxBits (m : Mach) (n c : Nat) : Word :=
  let x := m.ctx n c
  let st := if (m.engine n).run = .stopped || !m.ctxOn n c then 0 else x.op.code
  word (st * 2 ^ 29 + x.txf.toNat * 2 ^ 28 + x.rxf.toNat * 2 ^ 27 + x.op.bitCount * 65536 + x.pc % 256 * 256)

/-- A state's code in `ENG_STATE`. -/
def EngRun.code : EngRun → Nat
  | .stopped => 0
  | .running => 1
  | .stalled => 2

/-- `ENG_STATE`. -/
def Mach.engStateWord (m : Mach) : Word :=
  word ((List.range 4).foldl (fun a n =>
    let e := m.engine n
    a + e.irq.toNat * 2 ^ (12 + n) + e.resok.toNat * 2 ^ (8 + n) + e.run.code * 4 ^ n) (m.nv.engSpare * 65536))

/-- One engine's half of `ENG_FAULT01` or `ENG_FAULT23`. -/
def Eng.faultBits (e : Eng) : Nat := e.fcause * 4096 + e.fctx * 256 + e.fpc % 256

/-- `ENG_FAULT01` (k = 0) and `ENG_FAULT23` (k = 1). -/
def Mach.engFaultWord (m : Mach) (k : Nat) : Word :=
  word ((m.engine (2 * k + 1)).faultBits * 65536 + (m.engine (2 * k)).faultBits)

end Sys2Proof.Machine
end

