-- ==== Sys2Proof/Machine/Fleet.lean ====
section
/-! DEFINITION. The Flue link: SYNC and fleet time, scan and attach, pulls, absences, forwarding (R597 to R632). -/

namespace Sys2Proof.Machine

/-! ### Roles, workers and status -/

/-- The role in effect is manager. -/
def Mach.manager (m : Mach) : Bool := decide (m.flue.role = 2)

/-- A bus is enabled (R602). -/
def Mach.busOn (m : Mach) (b : Nat) : Bool := m.flag 0x2800 (4 + b)

/-- The Flue service of a manager runs: D6 ON and some bus enabled. -/
def Mach.fleet (m : Mach) : Bool := m.manager && m.on 6 && !m.testing 5 && (m.busOn 0 || m.busOn 1)

/-- Worker `w`. -/
def Mach.worker (m : Mach) (w : Nat) : Worker := m.flue.workers.getD w Worker.fresh

/-- Worker `w` changed. -/
def Mach.updWorker (m : Mach) (w : Nat) (f : Worker → Worker) : Mach :=
  { m with flue := { m.flue with workers := listUpd m.flue.workers w f } }

/-- The address of `FLUE_Wn`. -/
def workerReg (w : Nat) : Nat := 0x2840 + 4 * w

/-- A bit of `FLUE_STATUS`. -/
def Mach.flueStat (m : Mach) (i : Nat) : Mach := m.sqBit 0x281C i

/-- A worker takes a state; `WCHG` when it is another one. -/
def Mach.workerState (m : Mach) (w st reason : Nat) : Mach :=
  let old := (m.worker w).st
  let m := m.updWorker w (fun x => { x with st := st, reason := reason, turnBlocks := 0, missed := 0 })
  if old = st then m else m.flueStat 4

/-- The AWAY gap record of an absence (R546, R625): duration in units of 2^16 ticks, saturating.
Log entry 111 (DEDUCED, unsafe). -/
def Mach.awayRecord (m : Mach) (w : Nat) : Mach :=
  let x := m.worker w
  m.putGap ⟨8, 4, x.awayTs, 0, 0, min 0xFFFFFF ((m.clk.now - x.awaySince) / 65536) * 256 + w⟩

/-- A worker becomes AWAY (R624): 1 by command, 2 with no answer, 3 for an upgrade.
Log entry 111 (DEDUCED, unsafe). -/
def Mach.away (m : Mach) (w reason : Nat) : Mach :=
  (m.workerState w 2 reason).updWorker w (fun x =>
    { x with absent := true, awaySince := m.clk.now, awayTs := m.ts, commanded := reason == 1 })

/-- AWAY_SATURATION (R625): the absence is recorded, and a new one continues it.
Log entry 111 (DEDUCED, unsafe). -/
def Mach.awaySaturation (m : Mach) (w : Nat) : Mach :=
  let x := m.worker w
  if m.fleet && x.absent && decide (x.awaySince + 0xFFFFFF * 65536 ≤ m.clk.now) then
    (m.awayRecord w).updWorker w (fun x => { x with awaySince := m.clk.now, awayTs := m.ts })
  else m

/-! ### SYNC (R605 to R608) -/

/-- SYNC_PULSE_OUT (R605): at a millisecond of its timestamp a manager drives SYNC High, for 192 ticks at a frame mark. -/
def Mach.syncPulseOut (m : Mach) : Mach :=
  if m.fleet && m.clk.vio && frameStart (frameOf m.ts) = m.ts then
    let mark := frameOf m.ts % 1000 = 0
    { m with flue := { m.flue with pulseHighUntil := some (m.clk.now + (if mark then 192 else 64)),
                                   mark := if mark then some (m.clk.now, m.ts) else m.flue.mark } }
  else m

/-- The grid instant nearest to a measured one (R605, R607).
Log entry 108 (DEDUCED, unsafe). -/
def gridNear (t : Int) : Int :=
  let k := divRound (t * 1000) second
  (k * (second : Int)).fdiv 1000

/-- A pulse interval is within 20 ns of 67,108.864 ticks (R607).
Log entry 108 (DEDUCED, unsafe). -/
def goodInterval (d : Int) : Bool := decide (|d * 1000 - 67108864| ≤ 1342)

/-- The state and count after an accepted pulse with error `e` and interval `d` (R607).
Log entry 108 (DEDUCED, unsafe). -/
def Mach.syncPulse (m : Mach) (e : Int) (d : Option Int) : Mach :=
  let f := m.flue
  match f.sync with
  | .free => { m with flue := { f with sync := .acquire, goodIntervals := 0 } }
  | .acquire =>
    let n := match d with
      | some d => if goodInterval d then f.goodIntervals + 1 else 0
      | none => 0
    if 64 ≤ n then { m with flue := { f with sync := .locked, goodIntervals := n } }.flueStat 0
    else { m with flue := { f with goodIntervals := n } }
  | .locked => m
  | .holdover =>
    if f.att && decide (|e| ≤ 134) then { m with flue := { f with sync := .locked } }.flueStat 0
    else { m with flue := { f with sync := .acquire, goodIntervals := 0, att := false } }.flueStat 3

/-- The timestamp is replaced (R38, R614): every chain makes a synchronising reset at its first input under the new one (R333),
the resampler enters SEARCH (R364), and what the block counts on the grid of the timestamp goes on from the new one.
Log entry 108 (DEDUCED, unsafe). -/
def Mach.replaceTs (m : Mach) (t : Nat) : Mach :=
  let shift := (t : Int) - (m.ts : Int)
  let move := fun (x : Nat) => ((x : Int) + shift).toNat
  let m := { m with
    clk := { m.clk with ts := BitVec.ofNat 64 t }
    regs := { m.regs with pendingSeq := m.regs.pendingSeq.map (fun p => (p.1, (seqWindowEnd p.1 t).getD t)) }
    grd := { m.grd with armAt := move m.grd.armAt }
    mot := { m.mot with upd := t / 131072 * 131072, hist := [(0, m.mot.x.h, m.mot.y.h, m.mot.z.h)] }
    ang := { m.ang with rates := [], states := [], accs := [], nextRate := nextMultiple 4096 (t + 1), lowSince := none }
    aux := { m.aux with excChange := m.aux.excChange.map (fun _ => frameStart (frameOf t + 1)),
                        skipFrom := move m.aux.skipFrom, skipUntil := move m.aux.skipUntil,
                        spans := m.aux.spans.map (fun x => ⟨move x.start, x.stop.map move, x.off.map move⟩),
                        chans := m.aux.chans.map (fun c => { c with
                          releasedAt := move c.releasedAt, latestAt := move c.latestAt, codeAt := move c.codeAt,
                          excAt := c.excAt.map move, checkFrame := c.checkFrame.map (fun _ => frameOf t + 1) }) } }
  let m := (List.range 13).foldl (fun (m : Mach) g =>
    m.updGrp g (fun s => { s with nextOut := if isAux g then move s.nextOut else nextMultiple s.period (t + 1) })) m
  (m.syncReset t).enterSearch

/-- The load of R613 at an accepted frame mark: the mark's measured instant becomes `FLUE_TSET`. -/
def Mach.loadTs (m : Mach) : Mach :=
  let v : Int := (((m.reg 0x2814).toNat * 2 ^ 32 + (m.reg 0x2810).toNat : Nat) : Int)
  let m := m.replaceTs ((v + 4 - (m.fld 0x2808 0 8 : Int)) % ((2 ^ 64 : Nat) : Int)).toNat
  let m := m.setFld 0x2818 0 1 0
  { m with flue := { m.flue with loadAt := none, att := true, errs := [] } }.flueStat 2

/-- An accepted SYNC pulse of a worker, in the cycle in which the filter accepted its rising edge (R75, R606, R607, R613).
Log entry 108 (DEDUCED, unsafe). -/
def Mach.syncAccepted (m : Mach) (highTicks : Nat) : Mach :=
  let t : Int := (m.ts : Int) - 4 + (m.fld 0x2808 0 8 : Int)
  let d := m.flue.lastPulse.map (fun p => t - p.2)
  let e := t - gridNear t
  let mark := decide (128 ≤ highTicks)
  let m := m.syncPulse e d
  let m := { m with flue := { m.flue with lastPulse := some (m.clk.now, t), errs := (e :: m.flue.errs).take 16 } }
  let m := if mark then { m with flue := { m.flue with mark := some (m.clk.now, t.toNat) } } else m
  match m.flue.loadAt with
  | some w =>
    if mark && decide (w + millis 1 < m.clk.now) then
      let m := m.loadTs
      { m with flue := { m.flue with lastPulse := some (m.clk.now, (m.ts : Int) - 4 + (m.fld 0x2808 0 8 : Int)) } }
    else m
  | none => m

/-- A level that lasts: accepted from 4 cycles on, rejected up to 2, free at 3 (R74).
Log entry 78 (DEDUCED, unsafe). -/
def Mach.syncFilter (m : Mach) (ticks : Nat) : Bool × Mach :=
  if 4 ≤ ticks then (true, m) else if ticks ≤ 2 then (false, m) else m.drawBit

/-- SYNC_PULSE_IN on the pulse itself: whether its rising edge was accepted, and the worker's response to it. -/
def Mach.syncPulseIn (m : Mach) (lowTicks highTicks : Nat) : Bool × Mach :=
  let (a, m) := m.syncFilter lowTicks
  let (b, m) := m.syncFilter highTicks
  if !(a && b) || !m.clk.vio then (false, m)
  else if m.flue.role = 1 && m.on 6 && m.fosc then (true, m.syncAccepted highTicks)
  else (true, m)

/-- SYNC_HOLDOVER (R607): no accepted pulse for 3 ms. -/
def Mach.syncHoldover (m : Mach) : Mach :=
  match m.flue.sync, m.flue.lastPulse with
  | .locked, some (t, _) =>
    if decide (t + millis 3 < m.clk.now) then { m with flue := { m.flue with sync := .holdover } }.flueStat 1 else m
  | _, _ => m

/-- `FLUE_TLOAD.LOAD` written 1 (R613). -/
def Mach.tload (m : Mach) : Nat × Mach :=
  if m.flue.sync ≠ .locked then (18, m)
  else if m.flag 0x2818 0 then (0, m)
  else (0, { m.setFld 0x2818 0 1 1 with flue := { m.flue with loadAt := some m.clk.now } })

/-! ### Scan and attach (R610 to R612) -/

/-- The state a failed attach step leaves (R611).
Log entry 109 (DEDUCED, unsafe). -/
def Mach.attachFail (m : Mach) (w st : Nat) : Mach := m.workerState w st 0

/-- An attach that succeeds: ACTIVE at the worker's level; an absence ends with its record (R611, R625). -/
def Mach.attached (m : Mach) (w pl : Nat) (serial : BitVec 64) : Mach :=
  let m := if (m.worker w).absent then m.awayRecord w else m
  let keep := decide ((m.worker w).serial = serial)
  (m.workerState w 1 0).updWorker w (fun x =>
    { x with pl := pl, serial := serial, absent := false, commanded := false, nextQueue := 0,
             lastSeq := if keep then x.lastSeq else [none, none, none, none] })

/-- One address's answers taken through the attach steps (R600, R611). An address that gives no answer stays as it is.
Log entry 109 (DEDUCED, unsafe). -/
def Mach.attach (m : Mach) (a : ScanAnswer) : Mach :=
  let w := a.w.val
  if !m.busOn (w / 16) || (m.worker w).st = 1 || (m.worker w).commanded then m
  else if a.crcFails then m.attachFail w 4
  else
    match a.ident with
    | none => m
    | some id =>
      let pl := bitsAt (id.getD 4 0) 24 8
      if id.getD 0 0 ≠ 0x4E4C4716 then m.attachFail w 4
      else if m.ownLevel < pl then (m.attachFail w 3).updWorker w (fun x => { x with pl := pl })
      else if (a.wstate.map (fun v => bitsAt v 0 2)) ≠ some 2 then m.attachFail w 0
      else if a.loadStatus ≠ 0 then m.attachFail w 0
      else if (a.wstateAfter.map (fun v => bitAt v 2)) ≠ some true then m.attachFail w 0
      else m.attached w pl (id.getD 3 0 ++ id.getD 2 0)

/-- The addresses that answered a scan, each taken through the attach.
Log entry 109 (DEDUCED, unsafe). -/
def Mach.scan (m : Mach) (answers : List ScanAnswer) : Mach :=
  let m := { m with flue := { m.flue with lastScan := some m.clk.now } }
  answers.foldl Mach.attach m

/-- SCAN_TIMER (R610): at the enabling of a bus and then every 1 s. -/
def Mach.scanTimer (m : Mach) (answers : List ScanAnswer) : Mach :=
  let due := match m.flue.lastScan with
    | some t => decide (t + second ≤ m.clk.now)
    | none => true
  if m.fleet && due then m.scan answers else m

/-! ### Pulls (R617 to R623) -/

/-- The unread blocks of a worker in Q4. -/
def Mach.held4 (m : Mach) (w : Nat) : Nat := ((m.q 4).unread.filter (fun b => b.worker == w)).length

/-- A pull from a worker may be issued (R617, R544). -/
def Mach.mayPull (m : Mach) (w : Nat) : Bool :=
  m.fleet && m.busOn (w / 16) && m.taking && (m.worker w).st == 1 && decide (m.held4 w < m.fld (workerReg w) 0 8) &&
    decide ((m.q 4).unread.length < (m.q 4).ring) && decide (m.fld (workerReg w) 8 4 ≠ 0)

/-- The worker whose turn a bus has come to (R618): the first one that may be pulled, from the bus's turn on. -/
def Mach.turnWorker (m : Mach) (b : Nat) : Option Nat :=
  let t := if b = 0 then m.flue.busTurn0 else m.flue.busTurn1
  ((List.range 16).map (fun i => 16 * b + (t + i) % 16)).find? (fun w => m.mayPull w)

/-- The queue a worker's turn serves: the first selected one from its pointer on. -/
def Mach.turnQueue (m : Mach) (w : Nat) : Option Nat :=
  ((List.range 4).map (fun i => ((m.worker w).nextQueue + i) % 4)).find? (fun q => m.flag (workerReg w) (8 + q))

/-- The end of a worker's turn: the bus goes to the next worker, this one's next turn serves the queue `next` or the first
selected one after it.
Log entry 110 (DEDUCED, unsafe). -/
def Mach.endTurn (m : Mach) (w next : Nat) : Mach :=
  let m := m.updWorker w (fun x => { x with turnBlocks := 0, nextQueue := next % 4 })
  let t := (w % 16 + 1) % 16
  { m with flue := if w < 16 then { m.flue with busTurn0 := t } else { m.flue with busTurn1 := t } }

/-- A turn that failed or found no answer; `FLUE_CFG.MISSN` of them in succession make the worker AWAY (R624).
Log entry 110 (DEDUCED, unsafe). -/
def Mach.missTurn (m : Mach) (w q : Nat) : Mach :=
  let n := (m.worker w).missed + 1
  let m := (m.updWorker w (fun x => { x with missed := n })).endTurn w (q + 1)
  if m.fld 0x2800 16 8 ≤ n then m.away w 2 else m

/-- The check of a block (R619): magic, serial, queue and CRC-32.
Log entry 110 (DEDUCED, unsafe). -/
def blockGood (serial : BitVec 64) (q : Nat) (ws : List Word) : Bool :=
  ws.length == 1024 && bitsAt (ws.getD 0 0) 16 16 == 0x4E4C && bitsAt (ws.getD 0 0) 0 4 == q &&
    decide (ws.getD 1 0 ++ ws.getD 2 0 = serial) && decide (crc32 (wordsBytes (ws.take 1020)) = ws.getD 1020 0)

/-- A checked block stored into the reserved Q4 block, exactly as it was read (R530, R623). -/
def Mach.store4 (m : Mach) (w : Nat) (ws : List Word) : Mach :=
  let s := m.q 4
  let seq := (ws.getD 3 0).toNat * 2 ^ 32 + (ws.getD 4 0).toNat
  let b : Block := ⟨s.openNo, seq, s.absNext, ws, true, m.clk.now, w⟩
  let m := m.updQ 4 (fun s => { s with unread := s.unread ++ [b], ringPos := s.advance, absNext := s.absNext + 1 })
  let m := { m with buf := { m.buf with q4Seal := m.buf.q4Seal + 1 } }
  let m := (m.watermark 4 s.unread.length).count 0x28C0
  if (m.q 4).ring ≤ (m.q 4).unread.length then m.enterFull 4 else m

/-- A good block of a worker's queue: stored when its sequence is new (R621), committed in either case; up to 4 blocks in a
turn (R618).
Log entry 110 (DEDUCED, unsafe). -/
def Mach.takeBlock (m : Mach) (w q : Nat) (ws : List Word) : Mach :=
  let seq := (ws.getD 3 0).toNat * 2 ^ 32 + (ws.getD 4 0).toNat
  let old := (m.worker w).lastSeq.getD q none
  let fresh := match old with
    | some o => decide (o < seq)
    | none => true
  let m := if fresh then (m.store4 w ws).updWorker w (fun x => { x with lastSeq := listSet x.lastSeq q (some seq) }) else m
  let m := m.updWorker w (fun x => { x with missed := 0, turnBlocks := x.turnBlocks + 1 })
  if 4 ≤ (m.worker w).turnBlocks then m.endTurn w (q + 1) else m

/-- A turn that ends without a failure, the worker having answered. -/
def Mach.passTurn (m : Mach) (w next : Nat) : Mach := (m.updWorker w (fun x => { x with missed := 0 })).endTurn w next

/-- FLUE_PULL (R617 to R622): one pull, when it is the worker's turn on its bus and the queue the turn serves. A frame is
repeated up to 3 times and a block read again up to 3 times; after NOT_READY the worker's next turn repeats the frame.
Log entry 110 (DEDUCED, unsafe). -/
def Mach.fluePull (m : Mach) (w : Nat) (p : PullAnswer) : Mach :=
  let q := p.queue.val
  if m.turnWorker (w / 16) ≠ some w || m.turnQueue w ≠ some q then m
  else if !p.answered then m.missTurn w q
  else
    let m := m.countN 0x28C4 (p.crcErrors.map (fun k => min k 4)).sum
    if p.crcErrors.any (fun k => decide (4 ≤ k)) then (m.flueStat 7).missTurn w q
    else if p.unassigned then (m.flueStat 7).passTurn w (q + 1)
    else if bitsAt p.fill 0 13 = 0 then m.passTurn w (q + 1)
    else if p.notReady then m.passTurn w q
    else
      let good := fun (ws : List Word) => blockGood (m.worker w).serial q ws
      let m := m.countN 0x28C4 ((p.blocks.take 4).takeWhile (fun ws => !good ws)).length
      match (p.blocks.take 4).find? good with
      | some ws => m.takeBlock w q ws
      | none => (m.flueStat 7).missTurn w q

/-! ### Forwarding (R626 to R628) -/

/-- FORWARD_LINE (R627, R628): a reply has been taken; the next line goes out, or the forwarding ends.
Log entry 112 (DEDUCED, unsafe). -/
def Mach.forwardLine (m : Mach) (r : ForwardReply) : Mach :=
  match m.flue.forward with
  | none => m
  | some f =>
    if !m.fleet then m
    else
      match r with
      | .err => { m with flue := { m.flue with forward := none } }.flueStat 6
      | .ok =>
        if f.acked + 1 = f.lines + 2 then
          ({ m with flue := { m.flue with forward := none } }.away f.w 3).flueStat 5
        else { m with flue := { m.flue with forward := some { f with acked := f.acked + 1 } } }

/-! ### Buses, starts and domains -/

/-- The EP pins of a bus: SCK, SDIO, SEL (R602). -/
def busPins (b : Nat) : List (Nat × Nat) := [(12 * b, 1), (12 * b + 1, 0), (12 * b + 2, 1)]

/-- The service sets the registers of a bus's pins when it is enabled, and releases them when it is disabled (R602). SEL
idles High; SDIO, an input while the manager does not drive, is one between the exchanges, each of which is one row. -/
def Mach.busSwitch (m : Mach) (b : Nat) (on : Bool) : Mach :=
  let m := (busPins b).foldl (fun (m : Mach) (p : Nat × Nat) =>
    if on then
      let init := if p.1 % 4 = 2 then 2 else 0
      (m.setReg (pinAddr p.1) (word ((b + 1) * 65536 + p.2 * 256 + 4 + init + 1))).pinInit p.1
    else (m.setReg (pinAddr p.1) (regReset (pinAddr p.1))).pinInit p.1) m
  if on then { m with flue := { m.flue with lastScan := none } } else m

/-- The Flue block as a start or D6 switching OFF leaves it (R607, R128); the role in effect stays.
Log entry 111 (DEDUCED, unsafe). -/
def Mach.flueReset (m : Mach) : Mach :=
  { m with flue := { m.flue with sync := .free, lastPulse := none, goodIntervals := 0, att := false, errs := [], loadAt := none,
                                 mark := none, pulseHighUntil := none } }

/-- What a manager keeps of a worker while D6 is OFF (R128): its state reads NONE; an absence stays open (R625), and the last
sequences and the serial stand (R621).
Log entry 111 (DEDUCED, unsafe). -/
def Worker.forget (x : Worker) : Worker :=
  { Worker.fresh with serial := x.serial, lastSeq := x.lastSeq, absent := x.absent, awaySince := x.awaySince, awayTs := x.awayTs }

/-- D6 switches OFF or ON: the read-only fields of the block at reset (R128), no forwarding, a scan due. -/
def Mach.flueOff (m : Mach) : Mach :=
  let m := m.flueReset
  { m with flue := { m.flue with workers := m.flue.workers.map Worker.forget, forward := none, lastScan := none } }

/-- A start (R597, R607, R616): the role of `FLUE_ID` takes effect; a manager knows no worker. -/
def Mach.flueStart (m : Mach) : Mach :=
  let m := m.flueReset
  { m with flue := { m.flue with role := m.fld 0x2804 0 2, workers := List.replicate 32 Worker.fresh, busTurn0 := 0,
                                 busTurn1 := 0, forward := none, lastScan := none } }

/-! ### Registers (R631) -/

/-- A SYNC state's code. -/
def SyncSt.code : SyncSt → Nat
  | .free => 0
  | .acquire => 1
  | .locked => 2
  | .holdover => 3

/-- `FLUE_WSTATE`. -/
def Mach.wstateWord (m : Mach) : Word := word (m.flue.role * 16 + m.flue.att.toNat * 4 + m.flue.sync.code)

/-- `FLUE_UPG`. -/
def Mach.upgWord (m : Mach) : Word :=
  match m.flue.forward with
  | some f => word (f.w * 65536 + min f.lines (f.acked - 1))
  | none => 0x00FF0000

/-- `FLUE_PHASE`: the mean error of the last 16 pulses in 2^-4 tick (R631). -/
def Mach.phaseWord (m : Mach) : Word :=
  let n := m.flue.errs.length
  if n = 0 then 0 else word (unsignedOf 16 (divRound (16 * m.flue.errs.sum) n))

/-- The read-only bits of `FLUE_Wn`. -/
def Mach.workerBits (m : Mach) (w : Nat) : Word :=
  let x := m.worker w
  word (x.st * 2 ^ 29 + x.reason * 2 ^ 27 + x.pl % 256 * 65536)

end Sys2Proof.Machine
end

