-- ==== Sys2Proof/Machine/Guard.lean ====
section
/-! DEFINITION. The guard path: two chains over one sensor, states, pins, acknowledgment and records (R479 to R509). -/

namespace Sys2Proof.Machine

/-! ### Thresholds and quantities (R481, R482, R507) -/

/-- The impact threshold less `off` g, in decimated ACH units of 2^-9 g. -/
def Mach.grdImpThr (m : Mach) (off : Nat) : Nat := (m.fld 0x2C04 0 12 - off) * 512

/-- The overspeed threshold less `off` 2^-6 rev/s, in decimated GYR Z units of the range in force (R485). -/
def Mach.grdOspThr (m : Mach) (off : Nat) : Nat :=
  (divRound (((m.fld 0x2C08 0 16 - off) * 360 * 2 ^ 21 : Nat) : Int) (64 * m.gyrzRange)).toNat

/-- A decimated sample (R480): the sum of four modulator samples, in 22 bits. -/
def sinc1 (q : Quad) (err : Int) : Int := clampInt (-(2 ^ 21)) (2 ^ 21 - 1) (q.a.v + q.b.v + q.c.v + q.d.v + err)

/-- The decimated samples of a chain (R480); `u`: what is wrong in it. -/
def decimated (ins : GuardInput) (u : GuardUpset) : GrdSample :=
  ⟨sinc1 ins.x u.x, sinc1 ins.y u.y, sinc1 ins.z u.z, sinc1 ins.g u.g,
    ins.g.a.full || ins.g.b.full || ins.g.c.full || ins.g.d.full⟩

/-- The impact quantity. -/
def guardImpact (s : GrdSample) : Nat := (s.x * s.x + s.y * s.y + s.z * s.z).toNat

/-- A GYR Z sample beyond any threshold: at the limit of its range, or formed from a full-scale sample (R482).
Log entry 84 (DEDUCED, unsafe). -/
def guardBeyond (s : GrdSample) : Bool :=
  s.gzFull || decide (s.gz ≤ -(2 ^ 21)) || decide ((2 ^ 21 : Int) - 1 ≤ s.gz)

/-- The impact magnitude in 2^-4 g, rounded to nearest and saturating (R500, R507). -/
def guardImpMag (s : GrdSample) : Nat := min 0xFFFF ((isqrt (4 * guardImpact s) + 32) / 64)

/-- The spin rate in 2^-6 rev/s, rounded to nearest and saturating. -/
def Mach.spinMag (m : Mach) (s : GrdSample) : Nat :=
  min 0xFFFF (divRound ((s.gz.natAbs * m.gyrzRange * 64 : Nat) : Int) (360 * 2 ^ 21)).toNat

/-- The impact quantity is at or above a threshold in LSB (R482).
Log entry 84 (DEDUCED, unsafe). -/
def impAbove (s : GrdSample) (thr : Nat) : Bool := decide (thr ^ 2 ≤ guardImpact s)

/-- The overspeed quantity is at or above a threshold in LSB (R482).
Log entry 84 (DEDUCED, unsafe). -/
def ospAbove (s : GrdSample) (thr : Nat) : Bool := guardBeyond s || decide (thr ≤ s.gz.natAbs)

/-- Both chains take their copy of the overspeed threshold, converted to the LSB of the range in force (R479, R485). -/
def Mach.copyOsp (m : Mach) : Mach :=
  let t := m.grdOspThr 0
  { m with grd := { m.grd with a := { m.grd.a with ospThr := t }, b := { m.grd.b with ospThr := t } } }

/-- Both chains take their copies of the thresholds (R479). -/
def Mach.copyThr (m : Mach) : Mach :=
  let t := m.grdImpThr 0
  { m with grd := { m.grd with a := { m.grd.a with impThr := t }, b := { m.grd.b with impThr := t } } }.copyOsp

/-! ### Status, records and interrupts -/

/-- Bits of `GRD_STATUS`; one event per decimator period (R508).
Log entry 86 (DEDUCED, unsafe). -/
def Mach.grdStatus (m : Mach) (mask : Word) : Mach :=
  if m.grd.statAt = some (m.ts / 1024) then m.setReg 0x2C18 (m.reg 0x2C18 ||| mask)
  else { m.sqEvent 0x2C18 mask with grd := { m.grd with statAt := some (m.ts / 1024) } }

/-- The signal of R499: `GUARD` in both ports' INTSRC and the guard record in the event engine (R23, R500). -/
def Mach.grdSignal (m : Mach) (code : Nat) (value : Word) (ts : Nat) : Mach := (m.intBoth 5).guardRec code value ts

/-! ### States and pins (R486, R487) -/

/-- Both pins driven low or released. A released pin's level is the outside's: free until a sense says it (R493).
Log entry 85 (DEDUCED, safe). -/
def Mach.grdDrive (m : Mach) (low : Bool) : Mach :=
  let g := m.grd
  let (f1, m) := if !low && g.a.driven then m.drawBit else (g.sense1, m)
  let (f2, m) := if !low && g.b.driven then m.drawBit else (g.sense2, m)
  { m with grd := { m.grd with a := { m.grd.a with driven := low }, b := { m.grd.b with driven := low },
                               sense1 := if low then false else f1, sense2 := if low then false else f2 } }

/-- A state with its pin levels (R486). -/
def Mach.grdEnter (m : Mach) (st : Grd) : Mach :=
  let m := { m with grd := { m.grd with st := st } }
  m.grdDrive (decide (st = .healthy))

/-- The persistence counts restart from 0. -/
def GrdChain.clear (c : GrdChain) : GrdChain := { c with imp := 0, osp := 0 }

/-- The guard path goes to OFF and releases both pins (R487, R502, R504, R505). -/
def Mach.grdOff (m : Mach) : Mach :=
  let m := m.grdEnter .off
  { m with grd := { m.grd with a := m.grd.a.clear, b := m.grd.b.clear, tripImp := false, tripOsp := false, ack := false,
                               armImp := none, armOsp := none } }

/-- D1 OFF, power-on or RESET_N: OFF, and no latch is kept (R128, R487, R505). -/
def Mach.grdReset (m : Mach) : Mach :=
  let m := m.grdOff
  { m with grd := { m.grd with fcause := 0, peakImp := 0, peakOsp := 0, tpkImp := 0, tpkOsp := 0,
                               lastPeriod := none, statAt := none } }

/-- The ACH and GYR start times have passed (R265, R487): their chains have started, or the longest time is over.
Log entry 88 (DEDUCED, unsafe). -/
def Mach.grdReady (m : Mach) : Bool :=
  decide (m.clk.achSince + millisUp 6 ≤ m.clk.now) || (m.on 3 && (m.grp 1).started && (m.grp 2).started)

/-- Phase 4 or 5 of a mode entry has begun (R487, R504). -/
def Mach.leaving (m : Mach) : Bool :=
  match m.clk.entry with
  | some e => decide (e.phase ≠ .close)
  | none => false

/-- OFF to ARMING (R487): ARM, D1 ON, Run, and the start times passed. The thresholds are locked by then (R494).
Log entry 88 (DEDUCED, unsafe). -/
def Mach.grdTryArm (m : Mach) : Mach :=
  if m.grd.st = .off && m.flag 0x2C0C 0 && m.on 1 && decide (m.clk.mode = .run) && m.clk.start.isNone && !m.leaving && !m.testing 0 && m.grdReady then
    let m := m.grdEnter .arming
    { m with grd := { m.grd with armAt := m.ts, periods := 0, a := m.grd.a.clear, b := m.grd.b.clear, armImp := none,
                                 armOsp := none, zrange := m.flag 0x0C28 24 } }.copyThr
  else m

/-- A function crosses in both chains: TRIP, or a further function in TRIP (R487, R499 to R501). `osp`: overspeed.
Log entry 84 (DEDUCED, unsafe). -/
def Mach.grdTrip (m : Mach) (osp : Bool) (value ts : Nat) : Mach :=
  if (if osp then m.grd.tripOsp else m.grd.tripImp) then m
  else
    let m := if m.grd.st = .trip then m else { m.grdEnter .trip with grd :=
      { (m.grdEnter .trip).grd with tpkImp := 0, tpkOsp := 0 } }
    let m := { m with grd := if osp then { m.grd with tripOsp := true } else { m.grd with tripImp := true } }
    let m := (m.grdStatus (bitMask (if osp then 1 else 0))).count 0x2C1C
    m.grdSignal (if osp then 0x0802 else 0x0801) (word (value * 65536)) ts

/-- FAULT with a cause; the first cause latches (R487, R492). -/
def Mach.grdFault (m : Mach) (cause : Nat) : Mach :=
  let m := m.grdEnter .fault
  let m := { m with grd := { m.grd with fcause := if m.grd.fcause = 0 then cause else m.grd.fcause } }
  (m.grdStatus (bitMask 2)).grdSignal (0x0810 + cause) (word cause) m.ts

/-! ### A decimator period (R480 to R491) -/

/-- A persistence count after a period (R484): it stays at its limit while the function stays crossed. -/
def persist (n c : Nat) (above : Bool) : Nat := if above then min n (c + 1) else 0

/-- A chain after its comparisons of a period; a function that is not enabled counts nothing. -/
def Mach.chainCount (m : Mach) (c : GrdChain) (u : GuardUpset) : GrdChain :=
  let imp := m.flag 0x2C00 0 && (impAbove c.dec c.impThr != u.cmp)
  let osp := m.flag 0x2C00 1 && (ospAbove c.dec c.ospThr != u.cmp)
  { c with imp := persist (m.fld 0x2C00 12 4 + 1) c.imp imp, osp := persist (m.fld 0x2C00 16 4 + 1) c.osp osp }

/-- The period reaches a chain: its decimated samples, and what an upset does to its thresholds. -/
def GrdChain.take (c : GrdChain) (ins : GuardInput) (u : GuardUpset) : GrdChain :=
  { c with dec := decimated ins u, impThr := ((c.impThr : Int) + u.thrImp).toNat, ospThr := ((c.ospThr : Int) + u.thrOsp).toNat }

/-- Test vector `v`, the vectors counted through the periods (R483, R491): impact and overspeed by turns, and for each the threshold
plus 1 LSB and minus 1 LSB by turns. Whether the chain's own comparison of it gives what it must.
Log entry 84 (DEDUCED, unsafe). -/
def Mach.vectorOk (m : Mach) (c : GrdChain) (upset : Bool) (v : Nat) : Bool :=
  let plus := v / 2 % 2 = 0
  let thr := if v % 2 = 0 then m.grdImpThr 0 else m.grdOspThr 0
  let copy := if v % 2 = 0 then c.impThr else c.ospThr
  let x := if plus then thr + 1 else thr - 1
  let above := if v % 2 = 0 then decide (copy ^ 2 ≤ x ^ 2) else decide (copy ≤ x)
  (above != upset) == decide plus

/-- The seven test vectors of the period that ends at `t` (R483, slots 3 to 15). -/
def Mach.vectorsOk (m : Mach) (c : GrdChain) (u : GuardUpset) (t : Nat) : Bool :=
  (List.range 7).all (fun k => m.vectorOk c u.vec (7 * (t / 1024) + k))

/-- The first mismatch of a period in slot order (R483, R490): decimator, compare, threshold copy, then test vectors.
Log entry 84 (DEDUCED, unsafe). -/
def Mach.mismatch (m : Mach) (a b : GrdChain) (ua ub : GuardUpset) : Option Nat :=
  if a.dec ≠ b.dec then some 1
  else if ua.cmp != ub.cmp || a.imp != b.imp || a.osp != b.osp then some 2
  else if a.impThr ≠ b.impThr || a.ospThr ≠ b.ospThr then some 6
  else if !m.vectorsOk a ua m.ts || !m.vectorsOk b ub m.ts then some 3
  else none

/-- The peaks with a period's quantities (R500, R507).
Log entry 86 (DEDUCED, unsafe). -/
def Mach.grdPeaks (m : Mach) (s : GrdSample) : Mach :=
  let g := m.grd
  let i := guardImpMag s
  let o := m.spinMag s
  { m with grd := { g with peakImp := max g.peakImp i, peakOsp := max g.peakOsp o,
                           tpkImp := max g.tpkImp i, tpkOsp := max g.tpkOsp o } }

/-- The crossings of a period that both chains find: TRIP and their records. -/
def Mach.grdCross (m : Mach) (imp osp : Option (Nat × Nat)) : Mach :=
  let m := match imp with
    | some (v, t) => m.grdTrip false v t
    | none => m
  match osp with
  | some (v, t) => m.grdTrip true v t
  | none => m

/-- What a period's counts do to the state (R487 to R489). -/
def Mach.grdState (m : Mach) (imp osp : Option (Nat × Nat)) (mis : Option Nat) : Mach :=
  if m.grd.st = .arming then
    let m := { m with grd := { m.grd with periods := m.grd.periods + 1, armImp := m.grd.armImp.or imp,
                                          armOsp := m.grd.armOsp.or osp } }
    match mis with
    | some c => (m.grdCross imp osp).grdFault c
    | none =>
      if m.grd.periods < 4 then m
      else if m.grd.armImp.isSome || m.grd.armOsp.isSome then m.grdCross m.grd.armImp m.grd.armOsp
      else ((m.grdEnter .healthy).grdStatus (bitMask 5)).grdSignal 0x0804 0 m.ts
  else
    let m := m.grdCross imp osp
    match mis with
    | some c => m.grdFault c
    | none => m

/-- The test of an acknowledgment at the end of a period (R496, R497).
Log entry 88 (DEDUCED, unsafe). -/
def Mach.grdAckTest (m : Mach) : Mach :=
  if !m.grd.ack then m
  else
    let m := { m with grd := { m.grd with ack := false } }
    if m.grd.st ≠ .trip then m
    else
      let hi := m.fld 0x2C04 16 8
      let ho := m.fld 0x2C08 16 16
      let a := m.grd.a.dec
      let b := m.grd.b.dec
      let far := (m.grd.tripImp && (impAbove a (m.grdImpThr hi) || impAbove b (m.grdImpThr hi))) ||
        (m.grd.tripOsp && (ospAbove a (m.grdOspThr ho) || ospAbove b (m.grdOspThr ho)))
      if far then m.grdStatus (bitMask 4)
      else
        let value := word (m.grd.tpkImp * 65536 + m.grd.tpkOsp)
        let m := m.grdEnter .healthy
        let m := { m with grd := { m.grd with a := m.grd.a.clear, b := m.grd.b.clear, tripImp := false, tripOsp := false,
                                              peakImp := 0, peakOsp := 0, tpkImp := 0, tpkOsp := 0 } }
        (m.grdStatus (bitMask 3)).grdSignal 0x0803 value m.ts

/-- The comparisons of a period in ARMING, HEALTHY or TRIP, its samples in the chains. -/
def Mach.grdCompare (m : Mach) (ua ub : GuardUpset) : Mach :=
  let m := if m.flag 0x0C28 24 = m.grd.zrange then m
    else { m with grd := { m.grd with zrange := m.flag 0x0C28 24, a := { m.grd.a with osp := 0 }, b := { m.grd.b with osp := 0 } } }.copyOsp
  let n := m.fld 0x2C00 12 4 + 1
  let o := m.fld 0x2C00 16 4 + 1
  let ca := m.chainCount m.grd.a ua
  let cb := m.chainCount m.grd.b ub
  let imp := if ca.imp = n && cb.imp = n && (m.grd.a.imp < n || m.grd.b.imp < n)
    then some (guardImpMag ca.dec, tsOf ((m.ts : Int) - 896)) else none
  let osp := if ca.osp = o && cb.osp = o && (m.grd.a.osp < o || m.grd.b.osp < o)
    then some (m.spinMag ca.dec, tsOf ((m.ts : Int) - 1152)) else none
  let m := { m with grd := { m.grd with a := ca, b := cb } }
  ((m.grdState imp osp (m.mismatch ca cb ua ub)).grdPeaks ca.dec).grdAckTest

/-- GUARD_PERIOD (R480, R483): at a timestamp that is a multiple of 1,024 ticks, while D1 is ON, once per period. A period that was
not wholly in ARMING is none of its four (R487, R506).
Log entry 84 (DEDUCED, unsafe). -/
def Mach.guardPeriod (m : Mach) (ins : GuardInput) (ua ub : GuardUpset) : Mach :=
  if !m.on 1 || m.ts % 1024 ≠ 0 || m.grd.lastPeriod = some m.ts then m
  else
    let m := { m with grd := { m.grd with lastPeriod := some m.ts } }.grdTryArm
    let m := { m with grd := { m.grd with a := m.grd.a.take ins ua, b := m.grd.b.take ins ub } }
    match m.grd.st with
    | .arming => if m.grd.armAt + 1024 ≤ m.ts then m.grdCompare ua ub else { m with grd := { m.grd with ack := false } }
    | .healthy => m.grdCompare ua ub
    | .trip => m.grdCompare ua ub
    | .off => { m with grd := { m.grd with ack := false } }
    | .fault => { m with grd := { m.grd with ack := false } }

/-! ### Pins (R72, R486, R493) -/

/-- A level sensed at a pin (R493).
Log entry 85 (DEDUCED, safe). -/
def Mach.grdSense (m : Mach) (second high : Bool) : Mach :=
  { m with grd := if second then { m.grd with sense2 := high } else { m.grd with sense1 := high } }

/-- The pin's driver sinks. -/
def Guard.sinks (g : Guard) (second : Bool) : Bool := if second then g.b.driven else g.a.driven

/-- GUARD_PIN_FAULT (R493): the level has stood without a break for a number of ticks. In HEALTHY a pin is commanded low,
also one released under R72. -/
def Mach.guardPinFault (m : Mach) (second high : Bool) (ticks : Nat) : Mach :=
  if !m.on 1 then m
  else
    let m := m.grdSense second high
    let bad := (m.grd.st = .healthy && high) || (m.grd.st = .trip && !high)
    if bad && decide (2 ^ 26 ≤ ticks * 1000) then m.grdFault (if second then 5 else 4) else m

/-- GUARD_SHORT_RELEASE (R72): the short-circuit limit has acted for more than 1 ms. -/
def Mach.guardShortRelease (m : Mach) (second : Bool) (ticks : Nat) : Mach :=
  if m.grd.sinks second && decide (2 ^ 26 < ticks * 1000) then
    (if second then { m with grd := { m.grd with b := { m.grd.b with driven := false } } }
    else { m with grd := { m.grd with a := { m.grd.a with driven := false } } }).grdSense second true
  else m

/-- FAULT_PULSE (R486): in FAULT with FPULSE, at a multiple of 2^16 ticks, both pins are low for 20 µs.
Log entry 89 (DEDUCED, unsafe). -/
def Mach.faultPulse (m : Mach) : Mach :=
  if m.grd.st = .fault && m.flag 0x2C00 2 && m.ts % 65536 = 0 then
    let m := m.grdDrive true
    { m with grd := { m.grd with pulseUntil := m.clk.now + micros 20 } }
  else m

/-- The end of a FAULT pulse.
Log entries 3 (DESIGN CHOICE, unsafe), 89 (DEDUCED, unsafe). -/
def Mach.pulseEnd (m : Mach) : Mach :=
  if m.grd.st = .fault && m.grd.a.driven && decide (m.grd.pulseUntil ≤ m.clk.now) then m.grdDrive false else m

/-! ### Registers (R494 to R497, R507) -/

/-- `GRD_STATE`. -/
def Mach.grdStateWord (m : Mach) : Word :=
  let g := m.grd
  let st := match g.st with
    | .off => 0
    | .arming => 1
    | .healthy => 2
    | .trip => 3
    | .fault => 4
  word (g.sense2.toNat * 2 ^ 17 + g.sense1.toNat * 2 ^ 16 + g.fcause * 256 + g.tripOsp.toNat * 32 + g.tripImp.toNat * 16 + st)

/-- `GRD_PEAK`. -/
def Mach.grdPeakWord (m : Mach) : Word := word (m.grd.peakImp * 65536 + m.grd.peakOsp)

end Sys2Proof.Machine
end

