-- ==== Sys2Proof/Machine/Security.lean ====
section
/-! DEFINITION. Identity, sealing and trust: epochs, authenticated sessions, lifecycle, seals, signed images (R634 to R663). -/

namespace Sys2Proof.Machine

/-! ### Keys and epochs (R634 to R636, R651, R652) -/

/-- 256 random bits (R634).
Log entry 10 (DESIGN CHOICE, safe). -/
def Mach.random (m : Mach) : BitVec 256 × Mach := (Config.random m.free, { m with free := m.free + 1 })

/-- The key of an owner epoch (R651). -/
def ownerKey (dA : Nat) (qO : Nat × Nat) (nonce : BitVec 256) (num : Nat) : BitVec 256 :=
  hkdf (ecdh dA qO) (digestBytes nonce) (ascii "NL4716 MAC" ++ serialBytes ++ natBytes 4 num)

/-- An open epoch. -/
def openEpoch (num : Nat) : Epoch := ⟨num, false, 0, (0, 0), openKey⟩

/-- The public key that 64 bytes spell, when it lies on the curve (R635). -/
def publicKey (bs : List Byte) : Option (Nat × Nat) :=
  let q := bytesKey bs
  if bs.length = 64 && ecOnCurve q then some q else none

/-- A persistent write of the security record (R652), by a port's command. The stored record stands until it completes (R118).
Log entries 22 (DEDUCED, unsafe), 101 (DEDUCED, unsafe). -/
def Mach.secWrite (m : Mach) (p : Port) (life : Nat) (owner : Option (BitVec 256)) (made : Epoch) : Mach :=
  { m with sec := { m.sec with life := life, owner := owner, made := made }
           nv := { m.nv with write := some ⟨0x3000, 0, 0, some p⟩ } }

/-- The security record's write has completed.
Log entry 101 (DEDUCED, unsafe). -/
def Mach.secWritten (m : Mach) : Mach :=
  { m with sec := { m.sec with stored := ⟨m.sec.life, m.sec.owner, m.sec.made⟩ } }

/-- The security record's write did not complete: the stored record, whole (R118).
Log entry 102 (DEDUCED, unsafe). -/
def Mach.secRevert (m : Mach) : Mach :=
  let r := m.sec.stored
  { m with sec := { m.sec with life := r.life, owner := r.owner, made := r.made } }

/-- A reason for a seal (R655, R657). -/
def Mach.sealReason (m : Mach) (i : Nat) : Mach :=
  { m with sec := { m.sec with reasons := m.sec.reasons ||| BitVec.ofNat 16 (2 ^ i) } }

/-! ### Authenticated sessions (R647 to R650) -/

/-- A port's authentication ends. -/
def Mach.authOff (m : Mach) (p : Port) : Mach := m.updPort p (fun s => { s with auth := false })

/-- A port's authentication and its open challenge end. -/
def Mach.authClear (m : Mach) (p : Port) : Mach := m.updPort p (fun s => { s with auth := false, challenge := none })

/-- The owner's port is locked out of `auth begin` (R649).
Log entry 101 (DEDUCED, unsafe). -/
def Mach.lockedOut (m : Mach) (p : Port) : Bool :=
  match (m.port p).lockUntil with
  | some t => decide (m.clk.now < t)
  | none => false

/-- `auth begin` (R647). -/
def Mach.authBegin (m : Mach) (p : Port) : Nat × Mach :=
  if m.sec.life ≠ 2 || m.lockedOut p then (18, m)
  else
    let (n, m) := m.random
    let (d, m) := m.random
    let d := scalarOf d
    (0, m.updPort p (fun s => { s with auth := false, challenge := some ⟨n, d, ecPublic d, none, m.clk.now⟩ }))

/-- `auth pub` (R647): RANGE for a key off the curve, REFUSED for one that is not the owner's. -/
def Mach.authPub (m : Mach) (p : Port) (h : List Byte) : Nat × Mach :=
  match (m.port p).challenge with
  | none => (18, m)
  | some c =>
    if c.qO.isSome then (18, m)
    else
      match publicKey h with
      | none => (17, m)
      | some q =>
        if some (sha256 h) = m.sec.owner then (0, m.updPort p (fun s => { s with challenge := some { c with qO := some q } }))
        else (18, m)

/-- A port's letter in ASCII. -/
def portLetter (p : Port) : Byte :=
  match p with
  | .a => 0x41
  | .b => 0x42

/-- M of R648. -/
def authMessage (p : Port) (c : Challenge) : List Byte :=
  ascii "NL4716 AUTH" ++ serialBytes ++ [portLetter p] ++ digestBytes c.nonce ++ keyBytes c.qA

/-- A respond that fails (R649).
Log entry 101 (DEDUCED, unsafe). -/
def Mach.authFailed (m : Mach) (p : Port) : Mach :=
  let m := m.updPort p (fun s =>
    { s with challenge := none, authFails := s.authFails + 1,
             lockUntil := if s.authFails + 1 = 8 then some (m.clk.now + 10 * second) else s.lockUntil })
  (m.count 0x3018).sqBit 0x3010 3

/-- `auth respond` (R647, R649, R651).
Log entry 101 (DEDUCED, unsafe). -/
def Mach.authRespond (m : Mach) (p : Port) (h : List Byte) : Nat × Mach :=
  match (m.port p).challenge with
  | none => (18, m)
  | some c =>
    match c.qO with
    | none => (18, m)
    | some q =>
      if ecdsaVerify q (sha256 (authMessage p c)) (bytesNat (h.take 32)) (bytesNat (h.drop 32)) then
        let num := m.sec.made.num + 1
        let m := m.secWrite p m.sec.life m.sec.owner ⟨num, true, c.nonce, c.qA, ownerKey c.dA q c.nonce num⟩
        (0, (m.updPort p (fun s => { s with auth := true, authFails := 0, challenge := none })).sealReason 3)
      else (18, m.authFailed p)

/-- CHALLENGE_EXPIRY (R650).
Log entry 101 (DEDUCED, unsafe). -/
def Mach.challengeExpiry (m : Mach) (p : Port) : Mach :=
  match (m.port p).challenge with
  | some c => if c.since + 60 * second ≤ m.clk.now then m.updPort p (fun s => { s with challenge := none }) else m
  | none => m

/-- AUTH_LOCKOUT_END (R649). The failures count anew from here.
Log entry 101 (DEDUCED, unsafe). -/
def Mach.authLockoutEnd (m : Mach) (p : Port) : Mach :=
  match (m.port p).lockUntil with
  | some t => if t ≤ m.clk.now then m.updPort p (fun s => { s with lockUntil := none, authFails := 0 }) else m
  | none => m

/-! ### Lifecycle (R640 to R643) -/

/-- Both ports' authentication ends with a lifecycle transition (R650), and `SEC_STATUS.LIFE` is set. -/
def Mach.lifeChange (m : Mach) : Mach := ((m.authOff .a).authOff .b).sqBit 0x3010 4

/-- KEY_GENERATION (R9, R636, R641).
Log entry 102 (DEDUCED, unsafe). -/
def Mach.keyGeneration (m : Mach) (head tail ca : List Byte) : Mach :=
  if m.sec.life ≠ 0 then m
  else
    let (r, m) := m.random
    let d := scalarOf r
    { m with sec := { m.sec with life := 1, priv := some d, pub := ecPublic d, cert := certificate (ecPublic d) head tail,
                                 caCert := ca, stored := { m.sec.stored with life := 1 } } }.lifeChange

/-- `key enrol` (R641, R642). -/
def Mach.keyEnrol (m : Mach) (p : Port) (h : List Byte) : Nat × Mach :=
  if m.sec.life ≠ 1 && m.sec.life ≠ 2 then (18, m)
  else
    match publicKey h with
    | none => (17, m)
    | some _ =>
      (0, ((m.secWrite p 2 (some (sha256 h)) (openEpoch (m.sec.made.num + 1))).lifeChange).sealReason 4)

/-- Q3 has room for a seal (R543, R643). -/
def Mach.sealRoom (m : Mach) : Bool := (m.q 3).takesRecord (m.qPolicy 3) false

/-- `key retire` begins (R643): the open epoch its seal declares, and the seal it waits for. -/
def Mach.keyRetire (m : Mach) (p : Port) : Nat × Mach :=
  if m.sec.life ≠ 1 && m.sec.life ≠ 2 then (18, m)
  else if !m.canWrite || !m.sealRoom then (18, m)
  else
    let m := { m with sec := { m.sec with made := openEpoch (m.sec.made.num + 1), retiring := some p } }
    (0, m.sealReason 6)

/-- The end of `key retire` (R643): the private key overwritten, RETIRED and the open epoch stored, authentication ended. -/
def Mach.keyRetired (m : Mach) (p : Port) : Mach :=
  let m := { m with sec := { m.sec with priv := none, retiring := none } }
  (m.secWrite p 3 m.sec.owner m.sec.made).lifeChange

/-! ### Seals (R655 to R659) -/

/-- A number's words, most significant first. -/
def wordsOf (n v : Nat) : List Word := bytesWords (natBytes (4 * n) v)

/-- The record of a queue in a seal (R656): 16 words. -/
def Mach.sealQueue (m : Mach) (q : Nat) : List Word :=
  let s := m.q q
  let last := match s.lastSeq with
    | some n => wordsOf 2 n ++ wordsOf 8 s.lastHash.toNat
    | none => [0xFFFFFFFF, 0xFFFFFFFF] ++ List.replicate 8 0
  last ++ [word s.sealClosed, word s.sealGaps, word s.sealDisc, 0, 0, 0]

/-- The payload of a seal up to its signature (R655): 984 words.
Log entry 100 (DEDUCED, unsafe). -/
def Mach.sealPayload (m : Mach) (reasons : BitVec 16) (e : Epoch) (retire : Bool) : List Word :=
  let s := m.sec
  [word 0x4E4C534C, word (0x01000000 + (if retire then 3 else s.life) * 65536 + reasons.toNat)] ++ wordsOf 2 m.ts ++
  [word e.num, bitIf e.owner 24] ++ wordsOf 8 e.nonce.toNat ++ wordsOf 8 e.qA.1 ++ wordsOf 8 e.qA.2 ++
  wordsOf 8 ((s.owner.getD 0).toNat) ++ [0, 1, 2, 3].flatMap m.sealQueue ++
  wordsOf 2 m.buf.q4Seal ++ wordsOf 2 m.nv.boundary ++ [word m.nv.starts, m.idFw, word 0x101, bitIf m.nv.runB 0] ++
  wordsOf 8 ((m.running.digest.getD (sha256 m.running.image)).toNat) ++
  (match s.prevSeal with
    | some n => wordsOf 2 n
    | none => [0xFFFFFFFF, 0xFFFFFFFF]) ++ List.replicate 864 0

/-- SEAL_COMPOSE (R653, R657): one seal serves every reason that holds, while D4 and D7 are ON and none is being signed. The
verb closes the open blocks first (R528, R643).
Log entry 100 (DEDUCED, unsafe). -/
def Mach.sealCompose (m : Mach) : Mach :=
  let s := m.sec
  if !m.taking || m.testing 3 || s.sealing.isSome || s.reasons = 0 || (s.life ≠ 1 && s.life ≠ 2) then m
  else
    let retire := s.reasons.getLsbD 6
    let m := if s.reasons.getLsbD 2 || retire then m.closeAll else m
    let reasons := m.sec.reasons
    let job : SealJob := ⟨m.sealPayload reasons s.made retire, s.inForce.key, decide (s.made.num ≠ s.inForce.num), retire, s.verbs⟩
    let m := { m with sec := { m.sec with reasons := 0, verbs := [], sealing := some job, inForce := s.made, lastCompose := m.clk.now } }
    { m with buf := { m.buf with q4Seal := 0, queues := m.buf.queues.map (fun q =>
        { q with sealClosed := 0, countClosed := 0, sealGaps := 0, sealDisc := 0 }) } }

/-- SEAL_TIMER (R529): 10 s after the last composition a seal is due.
Log entry 4 (DESIGN CHOICE, unsafe). -/
def Mach.sealTimer (m : Mach) : Mach :=
  if (m.sec.life = 1 || m.sec.life = 2) && decide (m.sec.lastCompose + 10 * second ≤ m.clk.now) then m.sealReason 1 else m

/-- A seal that finds no room in Q3 is discarded (R543, R658). -/
def Mach.sealLost (m : Mach) : Mach := ((m.sqBit 0x1C04 2).count 0x301C).sqBit 0x3010 1

/-- The words of a seal block with its signature over bytes 0 to 3,999 (R655), as `closeWith` lays its header out.
Log entry 100 (DEDUCED, unsafe). -/
def Mach.sealSign (m : Mach) (payload : List Word) : List Word × Mach :=
  let s := m.q 3
  let flags := if s.startFlag then 8 else 0
  let head := blockHead m.ownLevel true 3 s.nextSeq m.ts flags (s.head.getD 0) 0 (payload ++ List.replicate 16 0)
  let (r, t) := ecdsaSign (m.sec.priv.getD 1) (sha256 (wordsBytes (head.take 1000))) m.free 8
  (payload ++ wordsOf 8 r ++ wordsOf 8 t, { m with free := m.free + 9 })

/-- A seal block closes into Q3 under its own epoch's key (R653, R665).
Log entries 96 (DEDUCED, unsafe), 100 (DEDUCED, unsafe). -/
def Mach.sealClose (m : Mach) (j : SealJob) : Mach :=
  let seq := (m.q 3).nextSeq
  let e := m.sec.inForce
  let (ws, m) := m.sealSign j.payload
  let m := { m with sec := { m.sec with inForce := { e with key := j.key } } }
  let m := m.closeWith 3 true m.ts false false true ws
  let m := { m with sec := { m.sec with inForce := e, prevSeal := some seq, lastSeal := seq } }
  (m.count 0x3014).sqEvent 0x3010 (1 ||| bitIf j.declares 2)

/-- SEAL_SIGNED (R655, R658): the seal closes, or is discarded for want of room. With it the sequence, or none, and the ports
whose verbs it answers. -/
def Mach.sealSigned (m : Mach) : Mach × Option Nat × List Port :=
  match m.sec.sealing with
  | none => (m, none, [])
  | some j =>
    if !m.taking then (m, none, [])
    else
    let m := { m with sec := { m.sec with sealing := none } }
    let m := if m.qPolicy 3 = 0 then m else m.makeRoom 3
    if m.sealRoom then
      let seq := (m.q 3).nextSeq
      (m.sealClose j, some seq, j.verbs)
    else (m.sealLost, none, j.verbs)

/-- A seal being signed is lost with the buffer at a power failure (R657).
Log entry 100 (DEDUCED, unsafe). -/
def Mach.sealAbandon (m : Mach) : Mach := { m with sec := { m.sec with sealing := none, verbs := [], retiring := none } }

/-! ### Signed images (R660 to R662) -/

/-- The body of an image, without its trailer, and the trailer. -/
def imageParts (img : List Byte) : List Byte × List Byte := (img.take (img.length - 132), img.drop (img.length - 132))

/-- An image verifies (R661), but for the fixed fields of its kind. -/
def Mach.imageSigned (m : Mach) (fw : Bool) (img : List Byte) : Bool :=
  let (body, tr) := imageParts img
  let key := (tr.drop 4).take 64
  let digest := sha256 (body ++ tr.take 68)
  let sig := tr.drop 68
  let ok := fun (q : Nat × Nat) => ecdsaVerify q digest (bytesNat (sig.take 32)) (bytesNat (sig.drop 32))
  decide (132 ≤ img.length) && decide (m.sec.life ≠ 3) && decide ((tr.drop 1).take 3 = [1, 0, 0]) &&
    (match tr.head? with
      | some b =>
        if b = 1 then key.all (fun x => x = 0) && ok Config.imageKey
        else if b = 2 && !fw then
          (match publicKey key with
            | some q => (m.sec.life ≠ 2 || decide (some (sha256 key) = m.sec.owner)) && ok q
            | none => false)
        else false
      | none => false)

/-- The fixed fields of a firmware image (R662). -/
def fwLayout (img : List Byte) : Bool :=
  decide (img.take 8 = [0x4E, 0x4C, 0x46, 0x57, 1, 0, 0, 0]) && bytesNat ((img.drop 12).take 4) + 148 == img.length

/-- A firmware image verifies.
Log entry 103 (DEDUCED, unsafe). -/
def Mach.fwVerifies (m : Mach) (img : List Byte) : Bool := fwLayout img && m.imageSigned true img

/-- An image that does not verify sets IMGFAIL (R661). -/
def Mach.imageFail (m : Mach) : Mach := m.sqBit 0x3010 5

/-! ### Registers and the certificate store (R637, R665) -/

/-- The certificate store's bytes. -/
def Security.store (s : Security) : List Byte :=
  natBytes 2 s.cert.length ++ natBytes 2 s.caCert.length ++ List.replicate 12 0 ++ s.cert ++
    List.replicate ((4 - s.cert.length % 4) % 4) 0 ++ s.caCert

/-- Word `k` of the certificate store. -/
def Security.certWord (s : Security) (k : Nat) : Word :=
  let bs := (s.store.drop (4 * k)).take 4
  word (bytesNat (bs ++ List.replicate (4 - bs.length) 0))

/-- `SEC_LIFE`. -/
def Security.lifeWord (s : Security) : Word := word (s.owner.isSome.toNat * 512 + s.priv.isSome.toNat * 256 + s.life)

/-- `SEC_OWNERk`. -/
def Security.ownerWord (s : Security) (k : Nat) : Word := (wordsOf 8 ((s.owner.getD 0).toNat)).getD k 0

end Sys2Proof.Machine
end

