-- ==== Sys2Proof/Machine/Domain.lean ====
section
/-! DEFINITION. Power domains: what switching one OFF and ON does to its blocks (R25 to R30, R128, R129), the end of a session
(R185, R187), and the loss of banks on the way (R550, R707). -/

namespace Sys2Proof.Machine

/-! ### Registers of a domain (R128) -/

/-- A register's word after its domain has been OFF: RW, P and LK fields keep their values, the others are at reset.
Log entry 19 (DEDUCED, unsafe). -/
def RegDef.afterOff (d : RegDef) (w : Word) : Word :=
  match d.cls with
  | .control => (w &&& (d.rw ||| d.pp ||| d.lk)) ||| (d.reset &&& ~~~(d.rw ||| d.pp ||| d.lk))
  | _ => d.reset

/-- The registers of the blocks a predicate names after their domain has been OFF (R128).
Log entry 19 (DEDUCED, unsafe). -/
def Mach.blocksOff (m : Mach) (f : Nat → Bool) : Mach :=
  let m := { m with regs := { m.regs with pendingSeq := m.regs.pendingSeq.filter (fun p => !f (blockOf p.1)) } }
  m.regs.words.foldl (fun (m : Mach) (c : Nat × Word) =>
    if f (blockOf c.1) then
      match regDef c.1 with
      | some d => m.setReg c.1 (d.afterOff c.2)
      | none => m
    else m) m

/-! ### Blocks -/

/-- The chains of a set of groups stop (R27). -/
def Mach.stopGroups (m : Mach) (gs : List Nat) : Mach := gs.foldl Mach.stopSource m

/-- The motion block without power: its chains stop, the guard path is OFF with no latch (R505), the resampler stands still. -/
def Mach.motionOff (m : Mach) : Mach :=
  let m := ((m.stopGroups [0, 1, 2, 3, 12]).grdReset)
  { m with mot := { m.mot with ready := false }, ang := { m.ang with run := false } }.enterSearch

/-- The motion block as D1 switches ON: the servo starts afresh (R274), SEARCH (R364), the start times count (R265). -/
def Mach.motionOn (m : Mach) : Mach :=
  let m := m.servoReset
  { m.enterSearch with clk := { m.clk with d1Since := m.clk.now, achSince := m.clk.now } }

/-- The aux block without power: blanking ends (R417), VEXC is off, the chains stop, a lead calibration ends. -/
def Mach.auxOff (m : Mach) : Mach :=
  let m := m.damperOff.stopGroups [4, 5, 6, 7, 8, 9, 10, 11]
  { m with aux := { m.aux with vexc := false, excMode := 0, excFault := false, excChange := none, lcal := none,
                               ignoreDamper := false, stuckSeen := false } }

/-- The aux block as D2 switches ON: every channel and the excitation at their registers (R394); no window is skipped (R397). -/
def Mach.auxOn (m : Mach) : Mach :=
  let m := { m with clk := { m.clk with d2Since := m.clk.now }
                    aux := { m.aux with chans := (List.range 8).map (fun n => { AuxChan.empty with cfg := m.auxEff n }),
                                        skipFrom := 0, skipUntil := 0 } }
  m.excForce

/-- The signal domain without power: every chain stops, machines and recognisers too; held event records stay (R28). -/
def Mach.signalOff (m : Mach) : Mach :=
  let m := ((m.saveCut).stopGroups (List.range 13)).evtReset
  { m with ang := Angle.fresh, flt := { m.flt with transfer := none, arm := none } }

/-- The signal domain as D3 switches ON: standard filters in every bank, bank A active (R335), machines stopped, recognisers
reset (R460), the resampler fresh. -/
def Mach.signalOn (m : Mach) : Mach :=
  let m := m.signalOff
  let m := { m with mem := { m.mem with coefs := [] }, clk := { m.clk with d3Since := m.clk.now } }
  (List.range 13).foldl (fun (m : Mach) g => m.updGrp g (fun s => { s with bankB := false, castlePend := false, fade := none })) m

/-- D4 is about to leave ON, or D7 to switch OFF (R528): open blocks close. -/
def Mach.beforeBufferOff (m : Mach) : Mach := if m.canWrite then m.closeAll else m

/-- The buffer without power: every block is gone, and no store holds words of one.
Log entry 113 (DEDUCED, unsafe). -/
def Mach.bufferOff (m : Mach) : Mach :=
  let m := m.emptyStores
  { m with buf := { m.buf with queues := m.buf.queues.map (fun q => { q with unread := [], openBlk := none }) } }

/-- The buffer as D4 switches ON from OFF (R128): the banks in effect and the state of each queue are those of reset, whatever its
`BANKS` and its policy; what it had discarded and not declared is declared now (R554).
Log entry 113 (DEDUCED, unsafe). -/
def Mach.bufferOn (m : Mach) : Mach :=
  let qs := (startQueues 0 []).zip m.buf.queues |>.map (fun (r, q) =>
    let skip := (List.range r.banks).filter (fun k => m.bankRetired (r.bank0 + k))
    let q := { q with bank0 := r.bank0, banks := r.banks, skip := skip, run := r.run, trigAt := none, postLeft := 0,
                      captBlocks := false }
    { q with ringPos := q.settle 0 q.banks })
  (List.range 5).foldl (fun (m : Mach) q =>
    let m := m.endRun q
    let m := if (m.q q).pretrim.isSome then m.gapPretrim q else m
    if (m.q q).discarded.isSome then m.gapStopped q else m) { m with buf := { m.buf with queues := qs } }

/-- D4 goes to RETAIN (R549): the banks that are not retained are unpowered. In Watch every bank of a queue is. -/
def Mach.bufferRetain (m : Mach) (ember : Bool) : Mach :=
  { m with buf := { m.buf with units := m.buf.units.zipIdx.map (fun u =>
      { u.1 with unpowered := ember && decide (u.2 < 128) && !m.flag (0x1C20 + 4 * (u.2 / 32)) (u.2 % 32) }) } }

/-! ### Banks (R550, R706, R707) -/

/-- A tile's spare bank is free for use. -/
def Mach.spareBankFree (m : Mach) (tile : Nat) : Bool :=
  match m.buf.units[128 + tile]? with
  | some u => !u.served && !u.bad
  | none => false

/-- One buffer unit changed. -/
def Mach.updUnit (m : Mach) (u : Nat) (f : BufUnit → BufUnit) : Mach :=
  { m with buf := { m.buf with units := listUpd m.buf.units u f } }

/-- The kinds that are DEGRADED (R706, R715). -/
def Mach.degradedNow (m : Mach) : List Bool :=
  let us := m.buf.units
  let failed := fun (i : Nat) => m.nv.failed.getLsbD i
  [(us.take 128).any (fun u => u.rows = 0 && !u.bad), (us.drop 128).any (fun u => u.served || u.bad), m.nv.nvRows.any (fun n => n = 0),
   m.nv.engSpare ≠ 0 || failed 3, m.nv.acfSpare ≠ 0 || failed 4, m.nv.gyrzSpare || failed 5,
   (m.nv.burn0.isSome || failed 6) && (m.nv.burn1.isSome || failed 7)]

/-- `SPARE_STATE`. -/
def Mach.degradedWord (m : Mach) : Word := word ((m.degradedNow.zipIdx.map (fun b => b.1.toNat * 2 ^ b.2)).sum)

/-- An event of `BIST_STATUS`; in a run of tests each bit takes one event (R717). -/
def Mach.bistEvent (m : Mach) (mask : Word) : Mach :=
  match m.bist.run with
  | none => m.sqEvent 0x3404 mask
  | some r =>
    { m with bist := { m.bist with run := some { r with seen := r.seen ||| mask } } }.sqEvent 0x3404 (mask &&& ~~~r.seen)

/-- A spare was brought in or failed: SPARED, and DEGRADED when a kind became so (R715). -/
def Mach.spareEvents (m before : Mach) (spared : Bool) : Mach :=
  let new := m.degradedWord &&& ~~~before.degradedWord
  m.bistEvent (bitIf spared 2 ||| bitIf (decide (new ≠ 0)) 3)

/-- A bank is retired in place (R707): its queue's pointers skip it. -/
def Mach.retireBank (m : Mach) (bank : Nat) : Mach :=
  let m := m.updUnit bank (fun u => { u with bad := true })
  match m.bankQueue bank with
  | none => m
  | some q => m.updQ q (fun s => ({ s with skip := s.skip ++ [bank - s.bank0] }).skipBank bank)

/-- A tile's spare bank takes the number of a bank (R40, R551); the bank replaced takes the spare's place in the list of units,
with the spare rows it has left. -/
def Mach.serveBank (m : Mach) (bank : Nat) : Mach :=
  let left := match m.buf.units[bank]? with
    | some u => u.rows
    | none => 0
  let spare := match m.buf.units[128 + bank / 16]? with
    | some u => u.rows
    | none => 0
  let m := m.updUnit bank (fun u => { u with served := true, retLoss := 0, rows := spare, corr := 0 })
  let m := m.updUnit (128 + bank / 16) (fun u => { u with served := true, rows := left })
  { m with buf := { m.buf with rowMap := m.buf.rowMap.filter (fun r => r / 512 != bank) } }

/-- A bank fails: its tile's spare takes its place, empty (R551), or it is retired (R706, R707). -/
def Mach.replaceBank (m : Mach) (bank : Nat) : Mach :=
  if m.spareBankFree (bank / 16) then (m.serveBank bank).spareEvents m true
  else (m.retireBank bank).spareEvents m false

/-- What follows the discard of a bank's blocks (R550); its third retention loss of cause 2 or 3 brings in the spare or retires it
(R706).
Log entry 92 (DEDUCED, unsafe). -/
def Mach.afterLoss (m : Mach) (bank cause blocks first : Nat) : Mach :=
  let m := m.recordLost bank cause blocks first
  match m.buf.units[bank]? with
  | some u => if cause ≠ 1 && u.retLoss = 3 then m.replaceBank bank else m
  | none => m

/-- A bank is lost (R550).
Log entry 97 (DEDUCED, unsafe). -/
def Mach.loseBank (m : Mach) (bank cause : Nat) : Mach :=
  let (n, first, m) := m.discardBank bank
  m.afterLoss bank cause n first

/-- Banks lost at one instant: all their blocks are discarded before the gap records are written, so that no record of one stands
in another.
Log entry 97 (DEDUCED, unsafe). -/
def Mach.loseBanks (m : Mach) : List (Nat × Nat) → Mach
  | [] => m
  | (b, c) :: l =>
    let (n, first, m) := m.discardBank b
    (m.loseBanks l).afterLoss b c n first

/-- The banks that hold closed unread blocks are examined when D4 switches ON after RETAIN (R550). -/
def Mach.examineBanks (m : Mach) : Mach :=
  let lost := (List.range 128).filterMap (fun b =>
    match m.buf.units[b]?, m.bankQueue b with
    | some u, some q =>
      if (m.q q).unread.any (fun x => x.blockNo / 32 == b) then
        if u.unpowered then some (b, 1) else if u.dipped then some (b, 2) else none
      else none
    | _, _ => none)
  let m := m.loseBanks lost.reverse
  { m with buf := { m.buf with units := m.buf.units.map (fun u => { u with unpowered := false, dipped := false }) } }

/-- RETENTION_DIP (R550): in RETAIN a retained bank's monitor latches. -/
def Mach.retentionDip (m : Mach) (bank : Nat) : Mach :=
  if m.dom 4 = .retain then m.updUnit bank (fun u => { u with dipped := true }) else m

/-! ### Sessions (R184 to R187) -/

/-- A port's session ends (R185): its buffers empty, its settings at their defaults, its semaphores released; a command that
executes goes on with its reply discarded and the semaphores it claimed (R186). -/
def PortState.endSession (s : PortState) : PortState :=
  { s with line := [], tooLong := false, lastCR := false, waiting := none, reply := [], finalLeft := 0,
           dropReply := s.executing.isSome, echo := false, prompt := false, auth := false, challenge := none,
           sems := 0, baudSeen := false, last := 0, lastAt := none }

/-- An upgrade that a port has open ends without effect (R258). -/
def Mach.endUpgrade (m : Mach) (p : Port) : Mach :=
  match m.nv.upgrade with
  | some u => if u.port = p then { m with nv := { m.nv with upgrade := none } } else m
  | none => m

/-- A port when D5 switches OFF (R187): its session ends, and nothing of it goes on. -/
def Mach.portOff (m : Mach) (p : Port) : Mach :=
  (m.endUpgrade p).updPort p (fun s =>
    { s.endSession with waiting := none, executing := none, dropReply := false, semsCmd := 0, store0 := none, store1 := none,
                        fill := none, held := [], wcnt := 0, leaseSince := none, incPending := false, sdio := [], moved := 0,
                        baudOff := true })

/-! ### Domains -/

/-- What a domain's blocks do as it switches OFF. -/
def Mach.domainLeave (m : Mach) (k : Nat) : Mach :=
  match k with
  | 1 => m.motionOff
  | 2 => m.auxOff
  | 3 => m.signalOff
  | 4 => m.bufferOff
  | 5 => (m.portOff .a).portOff .b
  | 6 => m.engOff.flueOff
  | 7 => m.sealAbandon
  | _ => m

/-- What a domain's blocks do as it switches ON: registers per R128, and their own fresh state. -/
def Mach.domainJoin (m : Mach) (k : Nat) : Mach :=
  let m := if k = 0 then m else m.blocksOff (fun b => blockDomain b == k)
  match k with
  | 1 => m.motionOn
  | 2 => m.auxOn
  | 3 => m.signalOn
  | 5 =>
    let m := m.intBoth 6
    let m := if m.clk.powerPending then { m.intBoth 7 with clk := { m.clk with powerPending := false } } else m
    let m := if m.pa.evtRequest then (m.intBit .a 4).updPort .a (fun s => { s with evtRequest := false }) else m
    if m.pb.evtRequest then (m.intBit .b 4).updPort .b (fun s => { s with evtRequest := false }) else m
  | 6 => m.engOn.flueOff
  | 7 => { m with sec := { m.sec with lastSeal := 0 } }
  | _ => m

/-- FOSC restarts when the first of D1 to D7 switches ON: the timestamp takes the time of the stop (R37). -/
def Mach.foscRestart (m : Mach) : Mach :=
  { m with clk := { m.clk with ts := m.clk.ts + BitVec.ofNat 64 (2048 * m.clk.hearthStop), hearthStop := 0 } }

/-- A domain takes a state (R25, R128). `ember`: for RETAIN, whether the mode is Ember (R549). D4 switches ON from RETAIN as from OFF:
the RO, SQ, CN and GO words of its block take their reset values; its queues go on as they are.
Log entries 19 (DEDUCED, unsafe), 113 (DEDUCED, unsafe). -/
def Mach.switchDom (m : Mach) (k : Nat) (d : Dom) (ember : Bool) : Mach :=
  let old := m.dom k
  if old = d then m
  else
    match d with
    | .on =>
      let m := if m.fosc then m else m.foscRestart
      let m := (m.setDom k .on).domainJoin k
      let m := if k = 4 && old = .off then m.bufferOn else m
      let m := { m with regs := { m.regs with lastAccess := m.regs.lastAccess.filter (fun p => blockDomain p.1 != k) } }
      let m := if (k = 4 || k = 7) && m.canWrite then (m.oweStart 0).oweStart 2 else m
      if k = 4 && old = .retain then m.examineBanks else m
    | .off =>
      let m := if k = 4 || k = 7 then m.beforeBufferOff else m
      (m.domainLeave k).setDom k .off
    | .retain => (m.beforeBufferOff.emptyStores.bufferRetain ember).setDom k .retain

/-- A block isolated for its test (R700): its outputs stop. Before the buffer or the security engine is isolated the open
blocks close (R528).
Log entries 35 (DEDUCED, unsafe), 121 (DEDUCED, unsafe). -/
def Mach.isolate (m : Mach) (b : Nat) : Mach :=
  match b with
  | 0 => m.motionOff
  | 1 => m.auxOff
  | 3 => m.beforeBufferOff
  | 4 => m.signalOff
  | 5 => m.engOff
  | 6 => m.beforeBufferOff
  | _ => m

/-- The domain that a test's block stands in. -/
def testDomain (b : Nat) : Nat :=
  match b with
  | 0 => 1
  | 1 => 2
  | 2 => 5
  | 3 => 7
  | 4 => 3
  | 5 => 6
  | _ => 4

/-- A port re-initialised after its test: its registers and its session as after D5 OFF and ON (R187, R700).
Log entry 35 (DEDUCED, unsafe). -/
def Mach.reinitPort (m : Mach) (p : Port) : Mach :=
  [0, 4, 8, 0xC, 0x10, 0x14, 0x18, 0x1C].foldl (fun (m : Mach) o =>
    match regDef (portBase p + o) with
    | some d => m.setReg (portBase p + o) (d.afterOff (m.reg (portBase p + o)))
    | none => m) (m.portOff p)

/-- A block re-initialised after its test (R129, R700): for the block and its consumers as if its domain switched OFF and ON.
Log entries 113 (DEDUCED, unsafe), 121 (DEDUCED, unsafe). -/
def Mach.reinit (m : Mach) (b : Nat) : Mach :=
  if !m.on (testDomain b) then m
  else
    match b with
    | 0 => ((m.motionOff.blocksOff (fun k => k == 3 || k == 11)).motionOn).grdTryArm
    | 1 => (m.auxOff.blocksOff (fun k => k == 6)).auxOn
    | 4 => (m.signalOff.blocksOff (fun k => k == 4 || k == 5 || k == 8)).signalOn
    | 5 => (m.engOff.blocksOff (fun k => k == 9)).engOn
    | 6 => ((m.blocksOff (fun k => k == 7)).oweStart 0).oweStart 2
    | 3 => ((m.blocksOff (fun k => k == 12)).oweStart 0).oweStart 2
    | _ => m

end Sys2Proof.Machine
end

