-- ==== Sys2Proof/Machine/SelfTest.lean ====
section
/-! DEFINITION. Persistent registers and their writes (R117 to R121, R710 to R713), spares (R706 to R709), the runs of the
self-test (R697 to R705), and ECC findings (R511). -/

namespace Sys2Proof.Machine

/-! ### Persistent registers (R710 to R712) -/

/-- A register's entry in the persistent store. -/
def Mach.preg (m : Mach) (a : Nat) : Option PReg := m.nv.pregs.find? (fun p => p.addr == a)

/-- The write count of a register. -/
def Mach.pcount (m : Mach) (a : Nat) : Nat :=
  match m.preg a with
  | some p => p.count
  | none => 0

/-- A register takes no further persistent write (R711, R712). -/
def Mach.worn (m : Mach) (a : Nat) : Bool :=
  match m.preg a with
  | some p => p.dead || decide (1000000 ≤ p.count)
  | none => false

/-- A register's entry in the store replaced. -/
def Mach.putPreg (m : Mach) (p : PReg) : Mach :=
  { m with nv := { m.nv with pregs := m.nv.pregs.filter (fun x => x.addr != p.addr) ++ [p] } }

/-- A write of a register would change its P field. -/
def Mach.persistChanges (m : Mach) (a : Nat) (new : Word) : Bool := decide ((new ^^^ m.reg a) &&& persistMask a ≠ 0)

/-- `PST_LAST`: an event of a register. -/
def Mach.pstLast (m : Mach) (event a : Nat) : Mach := m.setReg 0x380C (word (event * 2 ^ 16 + a))

/-- A write refused with WORN (R711). -/
def Mach.wornEvent (m : Mach) (a : Nat) : Mach := (((m.sqBit 0x3808 1).count 0x3810).pstLast 3 a)

/-- A word written to a register with a P field whose other checks have passed (R117, R710, R711): 10 is WORN.
Log entry 22 (DEDUCED, unsafe). -/
def Mach.persistWrite (m : Mach) (a : Nat) (new : Word) (by_ : Option Port) : Nat × Mach :=
  if !m.persistChanges a new then (0, m.setReg a new)
  else if m.worn a then (10, m.wornEvent a)
  else (0, { m with nv := { m.nv with write := some ⟨a, m.reg a, new, by_⟩ } }.setReg a new)

/-- The P bits of a register return to an older word. -/
def Mach.persistBack (m : Mach) (w : PWrite) : Mach :=
  m.setReg w.addr ((m.reg w.addr &&& ~~~persistMask w.addr) ||| (w.old &&& persistMask w.addr))

/-- The outcome of a row's check (R712), given whether the register has moved before and spare rows are left: written; moved
and written; failed. -/
def rowOutcome (c : RowCheck) (moved : Bool) (rows : Nat) : Nat :=
  match c with
  | .good => 0
  | .failed => if moved || rows = 0 then 2 else 1
  | .failedAgain => 2

/-- One spare row of area `k` taken (R712). -/
def Mach.takeNvRow (m : Mach) (k : Nat) : Mach :=
  let n := { m with nv := { m.nv with nvRows := listUpd m.nv.nvRows k (fun x => x - 1) } }
  n.spareEvents m true

/-- The end of a library transfer (R347): 1 done, 2 entry empty, 3 save failed: its row failed with no spare row left (R712).
Log entry 66 (DEDUCED, unsafe). -/
def Mach.transferDone (m : Mach) (rowFailed : Bool) : Mach :=
  match m.flt.transfer with
  | none => m
  | some t =>
    let n := ({ m with flt := { m.flt with transfer := none } }).setFld 0x10D0 0 1 0
    if t.save then
      if rowFailed && m.nv.nvRows.getD 5 0 = 0 then (n.putLib t.entry (libHead t.taps (n.nextSave t.entry))).setFld 0x10D0 30 2 3
      else
        let n := if rowFailed then n.takeNvRow 5 else n
        (n.putLib t.entry (libBytes t.taps (n.nextSave t.entry))).setFld 0x10D0 30 2 1
    else
      match n.libTaps t.entry with
      | some ws => (n.setBank t.group t.bankB ws).setFld 0x10D0 30 2 1
      | none => n.setFld 0x10D0 30 2 2

/-- A lead calibration has written R_lead (R412): GO clears, LCALDONE is set, and the new R_lead applies from the channel's next slot.
Log entry 76 (DEDUCED, unsafe). -/
def Mach.leadEnd (m : Mach) (n : Nat) : Mach :=
  let m := (({ m with aux := { m.aux with lcal := none } }).setFld 0x1A0C 8 1 0).sqBit 0x1A08 20
  if (m.auxRegs n).active && m.auxEff n ≠ (((m.chan n).changes.getLast?.map (fun x => x.cfg)).getD (m.auxCfg n)) then
    m.auxChange n m.clk.now (m.auxEff n) true
  else m

/-- The write in flight has ended: that of a lead calibration is done, or failed with the register left as it was (R412); any other
that failed puts an aux channel's R_lead back (R390). `old`: the channels' configurations before.
Log entry 76 (DEDUCED, unsafe). -/
def Mach.leadWritten (m : Mach) (w : PWrite) (old : Nat → AuxCfg) (done : Bool) : Mach :=
  match m.aux.lcal with
  | some l =>
    if l.posted && w.addr = auxBase l.ch + 0x1C then (if done then m.leadEnd l.ch else m.leadFail) else m.auxChanges old
  | none => m.auxChanges old

/-- PERSIST_WRITE_DONE (R118, R710 to R712): the write in flight completes, or its register is worn and keeps its old value.
Log entry 125 (DEDUCED, unsafe). -/
def Mach.persistDone (m : Mach) (c : RowCheck) : Mach :=
  match m.nv.write with
  | none => m
  | some w =>
    let old := m.auxEff
    let m := { m with nv := { m.nv with write := none } }
    let rows := m.nv.nvRows.getD 2 0
    let o := rowOutcome c ((m.preg w.addr).map (fun p => p.moved) |>.getD false) rows
    let m := if w.addr = 0x3000 then
        match rowOutcome c false rows with
        | 0 => m.secWritten
        | 1 => (m.takeNvRow 2).secWritten
        | _ => m.secRevert
      else
        let reg := (m.preg w.addr).getD ⟨w.addr, regReset w.addr &&& persistMask w.addr, 0, false, false⟩
        if o = 2 then
          (((m.putPreg { reg with dead := true }).persistBack w).sqBit 0x3808 3).pstLast 3 w.addr
        else
          let n := reg.count + 1
          let m := if o = 1 then m.takeNvRow 2 else m
          let m := m.putPreg { reg with value := w.new &&& persistMask w.addr, count := n, moved := reg.moved || o = 1 }
          let m := m.sqEvent 0x3808 (bitIf (decide (n = 900000)) 0 ||| bitIf (decide (o = 1)) 2)
          let m := if o = 1 then m.pstLast 2 w.addr else m
          if n = 900000 then m.pstLast 1 w.addr else m
    (m.leadWritten w old (o ≠ 2)).intBoth 1

/-- LEAD_CAL_DONE (R412): after 16 usable conversions the command core writes R_lead once BUSY is 0, and waits for the write to end;
an unchanged value writes nothing (R710) and is done at once; a worn register ends the calibration without a result.
Log entries 22 (DEDUCED, unsafe), 76 (DEDUCED, unsafe). -/
def Mach.leadDone (m : Mach) : Mach :=
  match m.aux.lcal with
  | some l =>
    if l.n < 16 || l.posted || m.busy then m
    else
      let a := auxBase l.ch + 0x1C
      let (code, n) := m.persistWrite a ((m.reg a &&& ~~~persistMask a) ||| (l.result &&& persistMask a)) none
      if code ≠ 0 then n.leadFail
      else if n.busy then { n with aux := { n.aux with lcal := some { l with posted := true } } }
      else n.leadEnd l.ch
  | none => m

/-- `PST_QCOUNT` for the address in `PST_QADDR` (R716). -/
def Mach.pstWord (m : Mach) : Word :=
  let q := m.fld 0x3800 0 16 % 0x4000
  if persistMask q = 0 || q % 4 ≠ 0 then word (3 * 2 ^ 30)
  else
    let moved := match m.preg q with
      | some p => p.moved
      | none => false
    let state := if m.worn q then 2 else if 900000 ≤ m.pcount q then 1 else 0
    word (state * 2 ^ 30 + moved.toNat * 2 ^ 29 + min 1000000 (m.pcount q))

/-! ### Spares (R706 to R709) -/

/-- A unit is served by a spare. A copy in progress counts. -/
def Mach.spareServes (m : Mach) (kind unit : Nat) : Bool :=
  match kind with
  | 0 => m.buf.rowMap.contains unit || m.bist.copies.any (fun c => !c.bank && c.unit == unit)
  | 1 => (match m.buf.units[unit]? with
      | some u => u.served
      | none => false) || m.bist.copies.any (fun c => c.bank && c.unit == unit)
  | 3 => m.nv.engSpare == unit + 1
  | 4 => m.nv.acfSpare == unit + 1
  | 5 => m.nv.gyrzSpare
  | 6 => m.nv.burn0 == some unit || m.nv.burn1 == some unit
  | _ => false

/-- A spare of a kind is available for a unit (R706). -/
def Mach.spareLeft (m : Mach) (kind unit : Nat) : Bool :=
  let failed := fun (i : Nat) => m.nv.failed.getLsbD i
  match kind with
  | 0 => (match m.buf.units[unit / 512]? with
      | some u => decide ((m.bist.copies.filter (fun c => !c.bank && c.unit / 512 == unit / 512)).length < u.rows)
      | none => false)
  | 1 => m.spareBankFree (unit / 16) && !m.bist.copies.any (fun c => c.bank && c.unit / 16 == unit / 16) &&
      !m.bankRetired unit
  | 3 => m.nv.engSpare == 0 && !failed 3
  | 4 => m.nv.acfSpare == 0 && !failed 4
  | 5 => !m.nv.gyrzSpare && !failed 5
  | 6 => (m.nv.burn0.isNone && !failed 6) || (m.nv.burn1.isNone && !failed 7)
  | _ => false

/-- A spare of kinds 3 to 6 takes the place of a unit. -/
def Mach.spareIn (m : Mach) (kind unit : Nat) : Mach :=
  let nv := m.nv
  let nv := match kind with
    | 3 => { nv with engSpare := unit + 1 }
    | 4 => { nv with acfSpare := unit + 1 }
    | 5 => { nv with gyrzSpare := true }
    | 6 => if nv.burn0.isNone && !nv.failed.getLsbD 6 then { nv with burn0 := some unit } else { nv with burn1 := some unit }
    | _ => nv
  let n := if kind = 3 then m.engSpoil unit else m
  { n with nv := nv }.spareEvents m true

/-- A row or bank copy begins (R708).
Log entry 124 (DEDUCED, unsafe). -/
def Mach.copyStart (m : Mach) (bank : Bool) (unit : Nat) (go : Bool) : Mach :=
  { m with bist := { m.bist with copies := m.bist.copies ++ [⟨bank, unit, go⟩] } }

/-- SPARE_COPY_DONE (R708): the oldest copy ends and its unit is remapped, with its content; stores that hold words of a bank
so replaced are discarded.
Log entry 124 (DEDUCED, unsafe). -/
def Mach.copyDone (m : Mach) : Mach :=
  match m.bist.copies with
  | [] => m
  | c :: rest =>
    let m := { m with bist := { m.bist with copies := rest } }
    let m := if c.go then m.setFld 0x34A0 31 1 0 else m
    if c.bank then
      let m := match m.bankQueue c.unit with
        | some q =>
          let gone := (m.q q).unread.filter (fun (b : Block) => b.blockNo / 32 == c.unit)
          m.dropStores (fun k pos => k == q && gone.any (fun (b : Block) => b.absPos == pos / 1024))
        | none => m
      (m.serveBank c.unit).spareEvents m true
    else
      let n := m.updUnit (c.unit / 512) (fun u => { u with rows := u.rows - 1 })
      { n with buf := { n.buf with rowMap := n.buf.rowMap ++ [c.unit] } }.spareEvents m true

/-- The number of units of a spare kind (R709). -/
def spareUnits (kind : Nat) : Nat :=
  match kind with
  | 0 => 65536
  | 1 => 128
  | 3 => 4
  | 4 => 3
  | 5 => 1
  | 6 => 8
  | _ => 0

/-- The semaphore of a spare kind (R709). -/
def spareSem (kind : Nat) : Option Nat :=
  match kind with
  | 0 => some 4
  | 1 => some 4
  | 3 => some 6
  | 4 => some 0
  | 5 => some 0
  | 6 => some 3
  | _ => none

/-- The status of `spare use` for a unit (R709), semaphores apart; 17 for a unit that does not exist.
Log entry 125 (DEDUCED, unsafe). -/
def Mach.spareCheck (m : Mach) (kind unit : Nat) : Nat :=
  if kind = 7 then 17
  else if kind = 2 then 18
  else if spareUnits kind ≤ unit then 17
  else if kind = 3 && decide ((m.engine unit).run ≠ .stopped) then 6
  else if (kind = 4 || kind = 5) && decide (m.grd.st ≠ .off) then 18
  else if m.spareServes kind unit || !m.spareLeft kind unit then 18
  else 0

/-- A spare is brought in by command (R709). `go`: by the register.
Log entry 125 (DEDUCED, unsafe). -/
def Mach.spareUse (m : Mach) (kind unit : Nat) (go : Bool) : Mach :=
  match kind with
  | 0 => m.copyStart false unit go
  | 1 => m.copyStart true unit go
  | 4 => (m.spareIn 4 unit).stopSource 0
  | 5 => (m.spareIn 5 unit).stopSource 2
  | k => m.spareIn k unit

/-! ### ECC (R511, R706) -/

/-- The buffer rows that have given corrected errors: one more in a row, now; those older than 2^36 ticks no longer count. With
them the number of errors of the row.
Log entry 124 (DEDUCED, unsafe). -/
def rowError (l : List (Nat × Nat × List Nat)) (unit row now : Nat) : Nat × List (Nat × Nat × List Nat) :=
  let old := match l.find? (fun e => e.1 == unit && e.2.1 == row) with
    | some e => e.2.2.filter (fun t => decide (now < t + 2 ^ 36))
    | none => []
  (old.length + 1, (l.filter (fun e => !(e.1 == unit && e.2.1 == row))) ++ [(unit, row, old ++ [now])])

/-- A corrected error in a row of a bank; its fourth within 2^36 ticks brings in a spare row (R706).
Log entry 124 (DEDUCED, unsafe). -/
def Mach.eccCorrected (m : Mach) (bank row : Nat) : Mach :=
  let m := (m.count 0x1C0C).updUnit bank (fun u => { u with corr := min 65535 (u.corr + 1) })
  let (n, es) := rowError m.buf.rowErrors bank row m.clk.now
  let m := { m with buf := { m.buf with rowErrors := es } }
  if 4 ≤ n && m.spareLeft 0 (512 * bank + row) && !m.spareServes 0 (512 * bank + row) then
    { m with buf := { m.buf with rowErrors := m.buf.rowErrors.filter (fun e => !(e.1 == bank && e.2.1 == row)) } }.copyStart
      false (512 * bank + row) false
  else m

/-- An ECC finding in a word of a block (R511): 64 words to a row.
Log entry 33 (DEDUCED, unsafe). -/
def Mach.eccFinding (m : Mach) (blockNo w : Nat) (uncorrectable : Bool) : Mach :=
  if uncorrectable then m.loseBank (blockNo / 32) 3
  else m.eccCorrected (blockNo / 32) (blockNo % 32 * 16 + w / 64)

/-! ### Test runs (R697 to R705) -/

/-- A run kind's code in `RUN`. -/
def RunKind.code : RunKind → Nat
  | .shutdown => 1
  | .start => 2
  | .command => 3

/-- A bank holds unread data, closed or open (R551).
Log entry 123 (DEDUCED, unsafe). -/
def Mach.bankHolds (m : Mach) (bank : Nat) : Bool :=
  match m.bankQueue bank with
  | none => false
  | some q =>
    let s := m.q q
    s.unread.any (fun (b : Block) => b.blockNo / 32 == bank) || (s.openBlk.isSome && decide (s.openNo / 32 = bank))

/-- A buffer unit is eligible for a run's buffer test (R699, R551).
Log entry 123 (DEDUCED, unsafe). -/
def Mach.unitEligible (m : Mach) (r : TestRun) (u : Nat) : Bool :=
  if 128 ≤ u then m.spareBankFree (u - 128)
  else
    !m.bankRetired u && !m.bankHolds u &&
      (match r.kind with
        | .command => (m.bankQueue u).isNone
        | .shutdown => !m.flag (0x1C20 + 4 * (u / 32)) (u % 32)
        | .start => r.cold || !m.flag (0x1C20 + 4 * (u / 32)) (u % 32))

/-- The rotation (R699): up to `want` eligible units from ROT on, among at most `k` examined; with them the new ROT.
Log entry 123 (DEDUCED, unsafe). -/
def Mach.rotation (m : Mach) (r : TestRun) (rot want : Nat) : Nat → List Nat × Nat
  | 0 => ([], rot)
  | k + 1 =>
    if want = 0 then ([], rot)
    else if m.unitEligible r rot then
      let (us, e) := m.rotation r ((rot + 1) % 136) (want - 1) k
      (rot :: us, e)
    else m.rotation r ((rot + 1) % 136) want k

/-- The test that stands first begins: its block is isolated, a buffer test takes its units.
Log entry 121 (DEDUCED, unsafe). -/
def Mach.testBegin (m : Mach) : Mach :=
  match m.bist.run with
  | none => m
  | some r =>
    match r.todo with
    | [] => m
    | b :: _ =>
      let m := m.isolate b
      if b = 6 then
        let (us, rot) := m.rotation r m.nv.rot (if r.kind = .start then 8 else 2) 136
        { m with nv := { m.nv with rot := rot }, bist := { m.bist with run := some { r with units := us } } }
      else m

/-- A run of tests begins (R697).
Log entry 122 (DEDUCED, unsafe). -/
def Mach.runStart (m : Mach) (kind : RunKind) (tests : List Nat) (p : Option Port) (verb cold : Bool) : Mach :=
  ({ m with bist := { m.bist with run := some ⟨kind, tests, [], p, verb, cold, [], true, 0⟩, lastRun := kind.code } }).testBegin

/-- The steps that a test expects (R697).
Log entry 122 (DEDUCED, unsafe). -/
def testSteps (r : TestRun) (b : Nat) : Nat :=
  match b with
  | 0 => 1184
  | 1 => 600
  | 2 => 1024 * (portsTested r).length
  | 3 => 24
  | 4 => 1048576
  | 5 => 327680
  | _ => 163840 * r.units.length

/-- The address of `BIST_b_RES`. -/
def bistRes (b : Nat) : Nat := 0x3410 + 16 * b

/-- A result written (R701, R704, R715).
Log entry 122 (DEDUCED, unsafe). -/
def Mach.putResult (m : Mach) (r : TestRun) (b result sub steps expected : Nat) (sig : Word) : Mach :=
  ((m.setReg (bistRes b) (word (result * 2 ^ 29 + r.kind.code * 2 ^ 27 + sub % 8 * 2 ^ 24 + steps % 2 ^ 24))).setReg
    (bistRes b + 4) (word (expected % 2 ^ 24))).setReg (bistRes b + 8) sig

/-- The kind's spare is marked failed (R707). -/
def Mach.spareFails (m : Mach) (bit : Nat) : Mach :=
  { m with nv := { m.nv with failed := m.nv.failed ||| BitVec.ofNat 8 (2 ^ bit) } }.spareEvents m false

/-- A spare of kinds 3 to 6 is brought in for a unit that failed, when one is left (R706, R707). -/
def Mach.spareFor (m : Mach) (kind unit : Nat) : Mach :=
  if m.spareServes kind unit || !m.spareLeft kind unit then m else m.spareIn kind unit

/-- What a failed test brings in (R706, R707). The unit of the outcome is, for the motion test, the axis (0 to 2 ACF, 3 to 5 ACH,
6 to 8 GYR), for the aux test the channel or, from 8 on, the spare source, for the buffer test the unit of R699. -/
def Mach.testFailed (m : Mach) (r : TestRun) (b : Nat) (o : TestOutcome) : Mach :=
  match b with
  | 0 =>
    if (o.sub = 1 || o.sub = 4) && o.unit < 3 then
      let m := if o.spareBad then m.spareFails 4 else m
      m.spareFor 4 o.unit
    else if (o.sub = 3 || o.sub = 4) && o.unit = 8 then
      let m := if o.spareBad then m.spareFails 5 else m
      m.spareFor 5 0
    else m
  | 1 =>
    if o.sub = 3 then
      if o.unit < 8 then
        let m := if o.spareBad then m.spareFails (if m.nv.burn0.isNone && !m.nv.failed.getLsbD 6 then 6 else 7) else m
        m.spareFor 6 o.unit
      else if o.unit = 8 then m.spareFails 6
      else m.spareFails 7
    else m
  | 5 =>
    if o.sub = 5 then m.spareFails 3
    else if 1 ≤ o.sub && o.sub ≤ 4 then
      let m := if o.spareBad then m.spareFails 3 else m
      m.spareFor 3 (o.sub - 1)
    else m
  | 6 =>
    if !r.units.contains o.unit then m
    else if 128 ≤ o.unit then m.updUnit o.unit (fun u => { u with bad := true }) |>.spareEvents m false
    else
      let m := if o.spareBad && r.units.contains (128 + o.unit / 16) then
          (m.updUnit (128 + o.unit / 16) (fun u => { u with bad := true })).spareEvents m false
        else m
      m.replaceBank o.unit
  | _ => m

/-- A run has ended: DONE; a shutdown run sets or clears QUICK and its entry goes on to phase 5 (R705, R672). With it the port and
the tests of a `test run` line that is to be answered. -/
def Mach.runEnd (m : Mach) (r : TestRun) (aborted : Bool) : Mach × Option (Port × List Nat) :=
  let m := m.bistEvent 1
  let quick := if r.kind = .shutdown then r.allPass && !aborted else m.bist.quick
  let m := { m with bist := { m.bist with run := none, quick := quick } }
  let m := if r.kind = .command then m.setReg 0x3400 0 else m
  match r.kind, m.clk.entry with
  | .shutdown, some e =>
    (if aborted then m else { m with clk := { m.clk with entry := some { e with phase := .switchOff } } }, none)
  | .command, _ => (m, if r.byVerb then r.byPort.map (fun p => (p, r.ran)) else none)
  | _, _ => (m, none)

/-- SELF_TEST_END (R701): the result of the test that runs, the spares it brings in, its block re-initialised, and the next test,
or the end of the run. -/
def Mach.selfTestEnd (m : Mach) (o : TestOutcome) : Mach × Option (Port × List Nat) :=
  match m.bist.run with
  | none => (m, none)
  | some r =>
    match r.todo with
    | [] => (m, none)
    | b :: rest =>
      let expected := testSteps r b
      let empty := b = 6 && r.units.isEmpty
      let steps := if empty then 0 else o.steps
      let result := if empty then 1 else if !o.sigOk then 2 else if steps ≠ expected then 3 else 1
      let m := m.putResult r b result (if result = 2 then o.sub else 0) steps expected o.sig
      let m := if result = 1 then m else m.bistEvent 2
      let m := if result = 2 then m.testFailed r b o else m
      let seen := match m.bist.run with
        | some x => x.seen
        | none => r.seen
      let r := { r with todo := rest, ran := r.ran ++ [b], allPass := r.allPass && decide (result = 1), seen := seen, units := [] }
      let ports := portsTested r
      let m := { m with bist := { m.bist with run := some r } }
      let m := if b = 2 then ports.foldl Mach.reinitPort m else m.reinit b
      if rest.isEmpty then m.runEnd r false else (m.testBegin, none)

/-- The tests after an aborted one read SKIPPED (R703); the manual states no expected steps and no signature for them.
Log entry 122 (DEDUCED, unsafe). -/
def Mach.skipTests (m : Mach) (r : TestRun) : List Nat → Mach
  | [] => m
  | b :: rest =>
    let (e, m) := m.drawNat
    let (s, m) := m.drawNat
    (m.putResult r b 5 0 0 e (word s)).skipTests r rest

/-- The test that runs is aborted (R702, R703): it reads ABORTED, with steps and a signature that the manual does not state, the
tests after it read SKIPPED, and with `serve` its block is re-initialised.
Log entries 122 (DEDUCED, unsafe), 126 (DEDUCED, unsafe). -/
def Mach.testAbort (m : Mach) (serve : Bool) : Mach × Option (Port × List Nat) :=
  match m.bist.run with
  | none => (m, none)
  | some r =>
    match r.todo with
    | [] => (m, none)
    | b :: rest =>
      let (n, m) := m.drawNat
      let (s, m) := m.drawNat
      let m := (m.putResult r b 4 0 (n % (testSteps r b + 1)) (testSteps r b) (word s)).skipTests r rest
      let m := m.bistEvent 2
      let seen := match m.bist.run with
        | some x => x.seen
        | none => r.seen
      let r := { r with todo := [], ran := r.ran ++ b :: rest, allPass := false, seen := seen }
      let m := { m with bist := { m.bist with run := some r } }
      let m := if !serve then m else if b = 2 then (portsTested r).foldl Mach.reinitPort m else m.reinit b
      m.runEnd r true

/-- The status of a write of 1 to bits of `BIST_RUN`, and of `test run` but for its reply (R504, R715). -/
def Mach.testCheck (m : Mach) (tests : List Nat) : Nat :=
  let entering := match m.clk.entry with
    | some _ => true
    | none => false
  if m.bist.run.isSome || entering then 18
  else if tests.contains 0 && decide (m.grd.st ≠ .off) then 18
  else 0

/-! ### Registers (R715) -/

/-- `BIST_LAST`. -/
def Mach.bistLast (m : Mach) : Word := word (m.bist.lastRun * 2 ^ 30 + m.bist.quick.toNat * 2 ^ 29 + m.nv.rot)

/-- `SPARE_MAP`. -/
def Mach.spareMap (m : Mach) : Word :=
  let nv := m.nv
  word (nv.engSpare * 2 ^ 24 + nv.acfSpare * 2 ^ 20 + nv.gyrzSpare.toNat * 2 ^ 16 + nv.burn1.isSome.toNat * 2 ^ 15 +
    (nv.burn1.getD 0) * 2 ^ 12 + nv.burn0.isSome.toNat * 2 ^ 11 + (nv.burn0.getD 0) * 2 ^ 8 + nv.failed.toNat)

/-- The byte of a tile in `SPARE_BANKk`. -/
def Mach.tileByte (m : Mach) (t : Nat) : Nat :=
  let bad := match m.buf.units[128 + t]? with
    | some u => u.bad
    | none => false
  match (List.range 16).find? (fun i => match m.buf.units[16 * t + i]? with
    | some u => u.served
    | none => false) with
  | some i => 128 + bad.toNat * 64 + i
  | none => bad.toNat * 64

/-- `SPARE_BANK0` and `SPARE_BANK1`. -/
def Mach.spareBank (m : Mach) (k : Nat) : Word :=
  word (((List.range 4).map (fun t => m.tileByte (4 * k + t) * 2 ^ (8 * t))).sum)

/-- Buffer spare rows left. -/
def Mach.rowsLeft (m : Mach) : Nat := (m.buf.units.map BufUnit.rows).sum

/-- `SPARE_ROWS`. -/
def Mach.spareRows (m : Mach) : Word := word ((1088 - m.rowsLeft) * 2 ^ 16 + m.rowsLeft)

/-- `SPARE_NV`. -/
def Mach.spareNv (m : Mach) : Word := word ((m.nv.nvRows.zipIdx.map (fun r => r.1 * 2 ^ (4 * r.2))).sum)

/-- `SPARE_QINFO` for the unit in `SPARE_QBANK`. -/
def Mach.spareInfo (m : Mach) : Word :=
  let k := m.fld 0x3498 0 8
  match m.buf.units[k]? with
  | none => 0
  | some u =>
    let st := if u.served then 1 else if u.bad then 2 else 0
    word (st * 2 ^ 30 + min 3 u.retLoss * 2 ^ 28 + u.rows * 2 ^ 24 + u.corr)

end Sys2Proof.Machine
end

