-- ==== Sys2Proof/Machine/Power.lean ====
section
/-! DEFINITION. Power modes, wake and start-up (R668 to R696), reset and the supplies (R51 to R67, R719). -/

namespace Sys2Proof.Machine

/-! ### Modes and domains (R668, R670) -/

/-- A mode's code. -/
def Mode.code : Mode → Nat
  | .run => 0
  | .watch => 1
  | .ember => 2

/-- The state that `PWR_DOM` gives a domain in Run. -/
def Mach.runState (m : Mach) (k : Nat) : Dom := if k = 5 || m.flag 0x80C k then .on else .off

/-- Domains take their Run states, in order. -/
def Mach.toRun (m : Mach) (ks : List Nat) : Mach := ks.foldl (fun (n : Mach) k => n.switchDom k (m.runState k) false) m

/-- The status of a write of `PWR_DOM` (R670): 18 is REFUSED. -/
def Mach.domCheck (m : Mach) (new : Word) : Nat :=
  let off := fun (k : Nat) => m.flag 0x80C k && !bitAt new k
  if off 4 && m.buf.queues.any (fun q => !q.unread.isEmpty || q.openBlk.isSome) then 18
  else if (off 4 || off 7) && m.sec.sealing.isSome then 18
  else 0

/-- A write of `PWR_DOM` in Run takes effect (R670): the changed domains switch OFF, then those to be ON switch ON.
Log entry 113 (DEDUCED, unsafe). -/
def Mach.domWrite (m : Mach) (new : Word) : Mach :=
  let m := m.setReg 0x80C ((m.reg 0x80C &&& 0x20) ||| (new &&& 0xDE))
  let off := fun (k : Nat) => decide (m.runState k = .off)
  m.toRun ([6, 2, 1, 3, 7, 4].filter off ++ [7, 4, 3, 1, 2, 6].filter (fun k => !off k))

/-- The domains take their states of Watch (R668); D5 is last. -/
def Mach.watchDomains (m : Mach) : Mach :=
  let m := m.grdOff.stopGroups [1, 2, 3]
  let m := { m with clk := { m.clk with mode := .watch } }
  let m := [(6, Dom.off), (2, .off), (7, .off), (4, .retain), (1, .on), (3, .on)].foldl
    (fun (m : Mach) (p : Nat × Dom) => m.switchDom p.1 p.2 false) m
  let m := ((m.presetChange 0).evtEnterWatch).enterSearch
  let m := { m with ang := { m.ang with run := false } }
  m.switchDom 5 .off false

/-- The domains take their states of Ember (R672). -/
def Mach.emberDomains (m : Mach) : Mach :=
  let m := { m with clk := { m.clk with mode := .ember } }
  [(6, Dom.off), (2, .off), (1, .off), (3, .off), (7, .off), (4, .retain), (5, .off)].foldl
    (fun (m : Mach) (p : Nat × Dom) => m.switchDom p.1 p.2 true) m

/-! ### Refusers (R673 to R676) -/

/-- What holds PORTx_STAYAWAKE for port `p` (R673). `own`: the reply bytes there are those of the entering command alone.
Log entry 114 (DEDUCED, unsafe). -/
def Mach.portHolds (m : Mach) (p : Port) (own : Bool) : Bool :=
  let s := m.port p
  m.flag 0x814 (match p with
    | .a => 0
    | .b => 1) || !s.line.isEmpty || s.waiting.isSome || (!own && !s.reply.isEmpty)

/-- The refusers that hold for an entry asked for by a port, by verb or by write (R673); `own`: the bytes in that port's reply
buffer are the entering command's.
Log entry 48 (DEDUCED, unsafe). -/
def Mach.refusers (m : Mach) (byPort : Option Port) (byVerb own : Bool) : List Nat :=
  let mine := fun (p : Port) => byVerb && own && decide (byPort = some p)
  ([(1, m.portHolds .a (mine .a)), (2, m.portHolds .b (mine .b)),
    (3, m.flag 0x804 0 && m.buf.queues.any (fun q => !q.unread.isEmpty)),
    (4, m.busy || (match m.flt.transfer with
      | some t => t.save
      | none => false)),
    (5, (List.range 4).any (fun n => !m.engReserved n && decide ((m.engine n).run = .running))),
    (6, m.manager && (m.busOn 0 || m.busOn 1)),
    (7, m.sec.sealing.isSome || m.nv.upgrade.isSome),
    (8, (List.range 12).any (fun g => m.castleReq g || (m.grp g).castlePend || (m.grp g).fade.isSome)),
    (9, decide (m.grd.st = .trip) || decide (m.grd.st = .fault))] : List (Nat × Bool)).filterMap
    (fun r => if r.2 then some r.1 else none)

/-- A new entry 0 of the refusal log; entry 7 is pushed out (R676). -/
def Mach.logPush (m : Mach) (code target : Nat) (abort : Bool) : Mach :=
  let old := (List.range 21).map (fun k => m.reg (0x880 + 4 * k))
  let new := [word (target * 256 + abort.toNat * 128 + code), loWord m.ts, hiWord m.ts] ++ old
  new.zipIdx.foldl (fun (m : Mach) (w : Word × Nat) => m.setReg (0x880 + 4 * w.2) w.1) m

/-- An entry is refused or aborted (R674, R679): counters, log, POWER, `PWR_STATUS`; ENTER clears. -/
def Mach.entryFails (m : Mach) (codes : List Nat) (target : Mode) (abort : Bool) : Mach :=
  let m := codes.foldl (fun (m : Mach) c => m.count (0x820 + 4 * c)) m
  let m := m.logPush (codes.headD 0) target.code abort
  let m := (m.sqBit 0x820 (if abort then 2 else 1)).intBoth 7
  { m.setFld 0x800 4 1 0 with clk := { m.clk with entry := none } }

/-! ### Entry (R671, R672) -/

/-- A request for a mode (R671, R674): 0 when the entry has started, or Run was asked for; else the code of the refuser named.
Log entries 48 (DEDUCED, unsafe), 114 (DEDUCED, unsafe). -/
def Mach.enterMode (m : Mach) (target : Mode) (byPort : Option Port) (byVerb own : Bool) : Nat × Mach :=
  if m.clk.entry.isSome then (0, m)
  else if target = .run then (0, m.setFld 0x800 4 1 0)
  else
    match m.refusers byPort byVerb own with
    | c :: cs => (c, m.entryFails (c :: cs) target false)
    | [] =>
      let m := m.closeAll
      (0, { m.setFld 0x800 4 1 1 with clk := { m.clk with entry := some ⟨target, .close, m.clk.now, byPort, byVerb, false⟩,
                                                          latchedWake := none } })

/-- ENTRY_COMMIT_POINT (R672): the refusers are checked again; an Ember entry goes on to its self-test with the guard path OFF, a
Watch entry to switching off. -/
def Mach.entryCommit (m : Mach) : Mach :=
  match m.clk.entry with
  | some e =>
    if e.phase ≠ .close then m
    else
      match m.refusers e.byPort e.byVerb (!e.mixed) with
      | c :: cs => (m.entryFails (c :: cs) e.target true).grdTryArm
      | [] =>
        if e.target = .ember then
          let m := { m.grdOff with clk := { m.clk with entry := some { e with phase := .selfTest } } }
          m.runStart .shutdown [0, 1, 2, 3, 4, 5, 6] e.byPort e.byVerb false
        else { m with clk := { m.clk with entry := some { e with phase := .switchOff } } }
  | none => m

/-- The end of the reply of a line that ended at `since` (R240, R253, R688): taken, or 50 ms old; no port: the line is known to be
taken, or there was none. -/
def Mach.lineTaken (m : Mach) (p : Option Port) (since : Nat) : Bool :=
  match p with
  | some p => ((m.port p).finalLeft = 0 && (m.port p).executing.isNone) || decide (since + millisUp 50 ≤ m.clk.now)
  | none => true

/-! ### Wake (R680 to R682) -/

/-- The wake is recorded (R681). -/
def Mach.wakeSrc (m : Mach) (src : Nat) : Mach :=
  { m.setReg 0x820 (setBits (m.reg 0x820) 8 3 src) with clk := { m.clk with wokeAt := some m.clk.now } }

/-- The mode an Ember start leads to (R681). -/
def Mach.wakeTarget (m : Mach) (src : Nat) : Mode := if src ≤ 2 || !m.flag 0x818 16 then .run else .watch

/-- A further source fires in the FOSC cycle of a wake: the one highest in the table is recorded (R681).
Log entry 115 (DEDUCED, unsafe). -/
def Mach.wakeAgain (m : Mach) (src : Nat) : Mach :=
  if m.clk.wokeAt = some m.clk.now && decide (src < m.fld 0x820 8 3) then
    let m := m.wakeSrc src
    { m with clk := { m.clk with start := m.clk.start.map (fun s => if s.cold then s else { s with target := m.wakeTarget src }) } }
  else m

/-- A wake from Watch (R682): D5, then D7, D4, D2 and D6; ACH, GYR and TMP start, ACF restarts in its Run configuration. -/
def Mach.watchExit (m : Mach) (src : Nat) : Mach :=
  let m := m.wakeSrc src
  let m := { m with clk := { m.clk with mode := .run, modeSince := m.clk.now, runSince := m.clk.now,
                                        achSince := m.clk.now, wakeTimerFired := false } }
  let m := m.toRun [5, 7, 4, 2, 6, 1, 3]
  let m := ((m.presetChange 0).evtExitWatch).grdTryArm
  { m with evt := { m.evt with wakeReq := false } }

/-- The slot that runs (R688). -/
def Mach.slot (m : Mach) (b : Bool) : Slot := if b then m.nv.slotB else m.nv.slotA

/-- A slot changed. -/
def Mach.updSlot (m : Mach) (b : Bool) (f : Slot → Slot) : Mach :=
  { m with nv := if b then { m.nv with slotB := f m.nv.slotB } else { m.nv with slotA := f m.nv.slotA } }

/-- The tests of a start self-test (R697). -/
def startTests : List Nat := [0, 1, 3, 4, 5, 6]

/-- A start is quick (R684). -/
def Mach.quickStart (m : Mach) (b : Bool) : Bool :=
  m.bist.quick && decide ((m.slot b).st = .good) && (m.slot b).digest.isSome

/-- An Ember start (R686): timestamp, configuration, sequences and heads continue; D5 first; the banks are examined as D4 switches
ON; FLUE_ID.ROLE takes effect (R597).
Log entry 116 (DEDUCED, unsafe). -/
def Mach.emberStart (m : Mach) (src : Nat) : Mach :=
  let full := !m.quickStart m.nv.runB
  let m := m.wakeSrc src
  let m := { m with clk := { m.clk with mode := .run, start := some ⟨false, full, m.clk.now, m.wakeTarget src, false, false⟩,
                                        wakeTimerFired := false } }
  let m := (m.toRun [5, 7, 4, 3, 1, 2, 6]).flueStart
  if full then m.runStart .start startTests none false false else m

/-- Both ports accept frames at most 150 µs from now; one whose `x_SEL` edge came up to now is ignored (R208). -/
def Mach.portsWake (m : Mach) : Mach :=
  let wake := fun (s : PortState) => { s with readyAt := m.clk.now + microsUp 150, wokenAt := m.clk.now }
  (m.updPort .a wake).updPort .b wake

/-- An enabled wake source acts in the mode that stands (R680, R681); D5 is on within 150 µs of the wake (R682, R686). -/
def Mach.wakeNow (m : Mach) (src : Nat) : Mach :=
  match m.clk.mode with
  | .run => m.wakeAgain src
  | .watch => (m.watchExit src).portsWake
  | .ember => if src = 6 then m else (m.emberStart src).portsWake

/-- The self-test of an Ember entry is aborted (R677). -/
def Mach.testWake (m : Mach) : Mach × Option (Port × List Nat) :=
  let e := m.clk.entry
  let (m, r) := m.testAbort true
  match e with
  | some e => if e.phase = .selfTest then ((m.entryFails [10] e.target true).grdTryArm, r) else (m, r)
  | none => (m, r)

/-- A wake source fires (R677, R678, R680): not enabled, nothing; in phase 4 the entry is aborted; in another phase of an entry
it is latched, the highest in the table of those latched.
Log entry 115 (DEDUCED, unsafe). -/
def Mach.wake (m : Mach) (src : Nat) : Mach :=
  if !m.flag 0x818 (src - 1) then m
  else
    match m.clk.entry with
    | some e =>
      if e.phase = .selfTest then m.testWake.1
      else { m with clk := { m.clk with latchedWake := some (min (m.clk.latchedWake.getD src) src) } }
    | none => m.wakeNow src

/-- ENTRY_SWITCH_OFF (R672, R678, R679): once the reply of a `mode` verb is taken, the domains switch and the mode is reached; a
latched wake acts at once. -/
def Mach.entryOff (m : Mach) : Mach :=
  match m.clk.entry with
  | some e =>
    if e.phase ≠ .switchOff || !(m.lineTaken (if e.byVerb && !e.mixed then e.byPort else none) e.since) then m
    else
      let w := m.clk.latchedWake
      let m := { m with clk := { m.clk with entry := none, latchedWake := none } }
      let m := m.setFld 0x800 4 1 0
      let m := if e.target = .watch then m.watchDomains else m.emberDomains
      let m := m.sqBit 0x820 0
      let m := { m with clk := { m.clk with modeSince := m.clk.now, wakeTimerFired := false, powerPending := true } }
      match w with
      | some src => m.wakeNow src
      | none => m
  | none => m

/-- A level accepted by an edge detector of D0 (R680): at least 200 ns, 13.4 ticks; whether a shorter one is taken is open.
Log entry 115 (DEDUCED, unsafe). -/
def Mach.wakeLevel (m : Mach) (ticks : Nat) : Bool × Mach :=
  if !m.clk.vio || ticks = 0 then (false, m)
  else if 14 ≤ ticks then (true, m)
  else m.drawBit

/-- An edge at a wake input whose level lasts some ticks (R680). -/
def Mach.wakeEdge (m : Mach) (src ticks : Nat) : Mach :=
  let (ok, m) := m.wakeLevel ticks
  if ok then m.wake src else m

/-- SEL_WAKE (R208, R680, R702): a falling edge of a port's SEL. A port under test has its test aborted, whatever is enabled. With it
a `test run` line to be answered.
Log entry 126 (DEDUCED, unsafe). -/
def Mach.selWake (m : Mach) (p : Port) (lowTicks : Nat) : Mach × Option (Port × List Nat) :=
  let (ok, m) := m.wakeLevel lowTicks
  if !ok || m.clk.life ≠ .up then (m, none)
  else if m.portTested p then
    let (m, r) := m.testWake
    (m.updPort p (fun s => { s with readyAt := m.clk.now + microsUp 1500, wokenAt := m.clk.now }), r)
  else
    (m.wake (match p with
      | .a => 1
      | .b => 2), none)

/-- WAKE_TIMER (R680): `PWR_TIMER` × 32 Hearth cycles after the mode was reached; 0 never. -/
def Mach.wakeTimer (m : Mach) : Mach :=
  let n := (m.reg 0x81C).toNat
  if n = 0 || m.clk.mode = .run || m.clk.start.isSome || m.clk.wakeTimerFired || m.clk.life ≠ .up ||
      decide (m.clk.now < m.clk.modeSince + n * 32 * 2048) then m
  else ({ m with clk := { m.clk with wakeTimerFired := true } }).wake 5

/-- A watch-capable event asks for a wake (R472, R680). -/
def Mach.eventWake (m : Mach) : Mach :=
  if m.evt.wakeReq then ({ m with evt := { m.evt with wakeReq := false } }).wake 6 else m

/-- The filter of KEY and DAMPER accepts a level that lasts so many FOSC cycles (R74, R76): only one of 14 or more.
Log entry 77 (DEDUCED, unsafe). -/
def Mach.slowFilter (m : Mach) (ticks : Nat) : Bool := m.clk.vio && decide (14 ≤ ticks)

/-- KEY_EDGE (R75, R76, R359, R445, R680): a level accepted that differs from the one accepted before is an edge; one of the polarity in
force is an instant, 14 ticks before its acceptance; an edge of either direction is a wake source, the return from a pulse that was not accepted is none. -/
def Mach.keyEdge (m : Mach) (level : Bool) (ticks : Nat) : Mach :=
  if m.clk.life ≠ .up then m
  else
    let ok := m.slowFilter ticks
    let edge := ok && m.fosc && level != m.clk.keyLevel && level != m.flag 0x1400 7
    let same := level == m.clk.keyLevel
    let m := if ok then { m with clk := { m.clk with keyLevel := level } } else m
    let m := if edge then m.keyInstant ((m.ts : Int) - 14) else m
    if same then m else m.wakeEdge 3 ticks

/-- DAMPER_EDGE (R417, R680): an accepted edge asserts or releases; an edge into the level that is asserted is a wake source. -/
def Mach.damperInput (m : Mach) (level : Bool) (ticks : Nat) : Mach :=
  if m.clk.life ≠ .up then m
  else
    let same := level == m.aux.damperLevel
    let m := if m.slowFilter ticks then m.damperEdge level else m
    if m.damperActive level && !same then m.wakeEdge 4 ticks else m

/-- SYNC_PULSE_IN (R606, R680): the pulse, and its rising edge as a wake source of a worker. -/
def Mach.syncInput (m : Mach) (lowTicks highTicks : Nat) : Mach :=
  if m.clk.life ≠ .up then m
  else
    let m := (m.syncPulseIn lowTicks highTicks).2
    if m.flue.role = 1 then m.wakeEdge 7 highTicks else m

/-! ### Cold starts (R683 to R692) -/

/-- A TRY slot whose trial a foreign cold start ends, or whose signature fails, becomes BAD (R688).
Log entry 118 (DEDUCED, unsafe). -/
def Mach.slotBad (m : Mach) (b : Bool) : Mach :=
  let m := m.updSlot b (fun s => { s with st := .bad })
  { m with nv := { m.nv with nextB := !b } }

/-- The choice of a slot at a cold start (R688): the slot, and whether one became BAD. A GOOD slot's cached digest matches its
image. `own`: the start is an activation; any other start ends the trial of every TRY slot.
Log entries 103 (DEDUCED, unsafe), 118 (DEDUCED, unsafe). -/
def Mach.chooseSlot (m : Mach) (own : Bool) : Option Bool × Bool × Mach :=
  let trial := fun (m : Mach) (b : Bool) => !own && (m.slot b).st = .try_
  let bad := trial m false || trial m true
  let m := if trial m false then m.slotBad false else m
  let m := if trial m true then m.slotBad true else m
  let b := m.nv.nextB
  let other := fun (m : Mach) => if (m.slot (!b)).st = .good then some (!b) else none
  match (m.slot b).st with
  | .good => (some b, bad, m)
  | .try_ =>
    if m.fwVerifies (m.slot b).image then
      (some b, bad, m.updSlot b (fun s => { s with digest := some (sha256 s.image) }))
    else
      let m := m.slotBad b
      (other m, true, m)
  | _ => (other m, bad, m)

/-- The commit record that a cold start uses (R690): the latest marked one that no start has used.
Log entry 119 (DEDUCED, unsafe). -/
def Mach.latestCommit (m : Mach) : Option CommitRec :=
  let ok := fun (c : CommitRec) => c.marked && !c.used
  match m.nv.areaA, m.nv.areaB with
  | some a, some b =>
    if ok a && ok b then some (if b.age ≤ a.age then a else b) else if ok a then some a else if ok b then some b else none
  | some a, none => if ok a then some a else none
  | none, some b => if ok b then some b else none
  | none, none => none

/-- Every commit record that stands is marked used: the one read, and the older ones before it (R690).
Log entry 119 (DEDUCED, unsafe). -/
def Mach.commitsUsed (m : Mach) : Mach :=
  let use := fun (c : Option CommitRec) => c.map (fun c => { c with used := true })
  { m with nv := { m.nv with areaA := use m.nv.areaA, areaB := use m.nv.areaB } }

/-- The block after the whole reset (R127): what the non-volatile store holds, everything else as at rest, P fields at their stored
values. -/
def Mach.bare (m : Mach) (straps : Straps) : Mach :=
  let s := m.sec
  let b : Mach := Mach.shipped
  let n : Mach :=
    { b with
      clk := { b.clk with now := m.clk.now, vsup := m.clk.vsup, vholdArmed := m.clk.vholdArmed, vio := m.clk.vio, keyLevel := m.clk.keyLevel,
                          modeSince := m.clk.now, runSince := m.clk.now }
      pa := PortState.fresh straps.aCfg
      pb := PortState.fresh straps.bCfg
      buf := { b.buf with units := m.buf.units.map (fun u => { u with corr := 0, dipped := false, unpowered := false }),
                          rowMap := m.buf.rowMap }
      sec := { b.sec with life := s.stored.life, priv := s.priv, pub := s.pub, cert := s.cert, caCert := s.caCert,
                          owner := s.stored.owner, made := s.stored.made, inForce := s.stored.made, stored := s.stored,
                          lastCompose := m.clk.now }
      nv := { m.nv with write := none, upgrade := none, activation := none, committing := none, commitStart := none }
      aux := { b.aux with damperLevel := m.aux.damperLevel }
      free := m.free }
  n.nv.pregs.foldl (fun (n : Mach) p =>
    n.setReg p.addr ((n.reg p.addr &&& ~~~persistMask p.addr) ||| (p.value &&& persistMask p.addr))) n

/-- The stored self-test results (R703): `BIST_LAST` and the registers of the seven tests. -/
def Mach.results (m : Mach) : List (Nat × Word) :=
  (0x3408, m.bistLast) :: (List.range 7).flatMap (fun b => [0, 4, 8].map (fun o => (bistRes b + o, m.reg (bistRes b + o))))

/-- The self-test results loaded; `BIST_LAST` gives RUN and QUICK (R703). -/
def Mach.loadResults (m : Mach) (rs : List (Nat × Word)) : Mach :=
  rs.foldl (fun (m : Mach) (r : Nat × Word) =>
    if r.1 = 0x3408 then { m with bist := { m.bist with lastRun := bitsAt r.2 30 2, quick := bitAt r.2 29 } }
    else m.setReg r.1 r.2) m

/-- Sequences, heads and the boundary at a cold start (R689): every queue's next sequence is the stored B, which then advances.
Log entry 99 (DEDUCED, unsafe). -/
def Mach.setSequences (m : Mach) (c : Option CommitRec) : Mach :=
  let b := m.nv.boundary
  let heads := match c with
    | some c => c.heads
    | none => []
  let qs := (startQueues b heads).map (fun q =>
    let skip := (List.range q.banks).filter (fun k => m.bankRetired (q.bank0 + k))
    let q := { q with skip := skip }
    { q with ringPos := q.settle 0 q.banks })
  { m with buf := { m.buf with queues := qs }, nv := { m.nv with boundary := b + 4096 } }

/-- What a cold start with a commit record writes into Q3 (R689, R692): a RESTART gap record for each queue that had a chain head,
then the snapshot's event records.
Log entry 98 (DEDUCED, unsafe). -/
def Mach.replay (m : Mach) (c : CommitRec) (b : Nat) : Mach :=
  let m := (List.range 4).foldl (fun (m : Mach) q =>
    if ((c.heads.getD q none).isSome) then m.putGap ⟨7, q, m.ts, b - c.seqs.getD q 0, c.seqs.getD q 0, 0⟩ else m) m
  let m := c.snapshot.foldl (fun (m : Mach) r =>
    let (m, seq) := m.writeRec r
    { m with evt := { m.evt with staged := stage m.evt.staged r seq } }) m
  m.setReg 0x8E8 (word c.snapshot.length)

/-- A cold start (R683, R685), its steps up to 3.5 ms at once. `own`: a firmware activation; `pin`: by RESET_N, which returns the
self-test results to none (R703). A trial image that does not verify sets IMGFAIL (R661).
Log entries 116 (DEDUCED, unsafe), 118 (DEDUCED, unsafe). -/
def Mach.coldStart (m : Mach) (straps : Straps) (own pin : Bool) : Mach :=
  if straps.test then { m.bare straps with clk := { (m.bare straps).clk with life := .heldInReset } }
  else
    let failed := own && (m.slot m.nv.nextB).st = .try_ && !m.fwVerifies (m.slot m.nv.nextB).image
    let (slot, rolled, m) := m.chooseSlot own
    let m := m.bare straps
    let c := m.latestCommit
    let m := m.commitsUsed
    let m := { m with nv := { m.nv with starts := m.nv.starts + 1 } }
    match slot with
    | none => { m with clk := { m.clk with life := .noSlot } }
    | some b =>
      let m := { m with nv := { m.nv with runB := b } }
      let m := if pin then m
        else match c with
          | some c => m.loadResults c.results
          | none => m
      let full := own || rolled || !m.quickStart b
      let base := m.nv.boundary
      let m := { m with clk := { m.clk with life := .up, start := some ⟨true, full, m.clk.now, .run, c.isSome, rolled⟩ } }
      let m := m.switchDom 5 .on false
      let m := m.setSequences c
      let m := (m.switchDom 7 .on false).switchDom 4 .on false
      let m := match c with
        | some c => m.replay c base
        | none => m
      let m := m.toRun [3, 1, 2, 6]
      let m := (m.flueStart).sealReason 5
      let m := if failed then m.imageFail else m
      if full then m.runStart .start startTests none false true else m

/-- START_COMPLETE (R67, R685, R687): Run is reached once the self-test has ended and VHOLD is armed; `PWR_STATUS` takes the start's
one event; an Ember start may end in Watch, and a cold start with `PWR_PON.MODE` = Ember goes on into an entry.
Log entries 4 (DESIGN CHOICE, unsafe), 116 (DEDUCED, unsafe). -/
def Mach.startComplete (m : Mach) : Mach :=
  match m.clk.start with
  | none => m
  | some s =>
    if !m.clk.vholdArmed || m.bist.run.isSome || m.clk.life ≠ .up then m
    else
      let m := { m with clk := { m.clk with start := none, modeSince := m.clk.now, runSince := m.clk.now } }
      let m := m.sqEvent 0x820 (bitIf s.full 5 ||| bitIf s.pfail 3 ||| bitIf s.rollback 4)
      if s.target = .watch then m.watchDomains
      else
        let m := m.grdTryArm
        if s.cold && m.flag 0x808 0 then
          let m := m.closeAll
          { m.setFld 0x800 4 1 1 with clk := { m.clk with entry := some ⟨.ember, .close, m.clk.now, none, false, false⟩,
                                                          latchedWake := none } }
        else m

/-! ### Supplies, reset and power failure (R57, R58, R64 to R67, R690, R691, R719) -/

/-- A persistent write in flight is abandoned (R118): the next start loads the value before it. -/
def Mach.writeAbandon (m : Mach) : Mach :=
  let m := m.saveCut
  match m.nv.write with
  | none => m
  | some w =>
    let m := if w.addr = 0x3000 then m.secRevert else m.persistBack w
    { m with nv := { m.nv with write := none } }

/-- The commit record of a power failure (R690, R691). -/
def Mach.commitNow (m : Mach) : CommitRec :=
  let qs := m.buf.queues.take 4
  let age := Nat.max ((m.nv.areaA.map CommitRec.age).getD 0) ((m.nv.areaB.map CommitRec.age).getD 0)
  { seqs := qs.map Queue.nextSeq, heads := qs.map Queue.head, boundary := m.nv.boundary, results := m.results,
    snapshot := (m.evt.staged.map Prod.fst).filter (fun r => decide (r.source ≤ 0x27)), threshold := m.clk.ts,
    starts := m.nv.starts, marked := false, used := false, age := age + 1 }

/-- POWER_FAIL (R65, R66, R68, R690, R552): a dip of at most 2 µs is rejected. Writes and tests are abandoned, D1 to D6 lose power with
every block not committed, and the commit runs, if VHOLD is armed.
Log entry 119 (DEDUCED, unsafe). -/
def Mach.powerFail (m : Mach) (lowNs : Nat) : Mach :=
  if lowNs ≤ 2000 || !m.clk.vsup then m
  else if m.clk.life ≠ .up then
    { m with clk := { m.clk with vsup := false, vholdArmed := false, life := .unpowered }, nv := { m.nv with commitStart := none } }
  else
    let m := (m.writeAbandon.testAbort false).1
    let m := [1, 2, 3, 4, 5, 6].foldl (fun (m : Mach) k => if m.dom k = .off then m else (m.domainLeave k).setDom k .off) m
    let m := m.sealAbandon
    let c := if m.clk.vholdArmed then some m.commitNow else none
    let m := if c.isSome then m else m.setDom 7 .off
    { m with clk := { m.clk with vsup := false, vholdArmed := false, life := .unpowered, start := none, entry := none,
                                 latchedWake := none }
             nv := { m.nv with committing := c, commitStart := none, activation := none } }

/-- A commit record stored in the alternate area (R690). -/
def Mach.storeCommit (m : Mach) (c : CommitRec) : Mach :=
  let nv := m.nv
  { m with nv := if nv.areaNextB then { nv with areaB := some c, areaNextB := false, committing := none }
                 else { nv with areaA := some c, areaNextB := true, committing := none } }

/-- COMMIT_DONE (R690, R66, R712): the validity mark is written, unless the row failed with no spare row left; a start follows when
VSUP has returned.
Log entry 119 (DEDUCED, unsafe). -/
def Mach.commitDone (m : Mach) (rowFailed : Bool) : Mach :=
  match m.nv.committing with
  | none => m
  | some c =>
    let left := decide (0 < m.nv.nvRows.getD 4 0)
    let m := if rowFailed && left then m.takeNvRow 4 else m
    let m := m.storeCommit { c with marked := !rowFailed || left }
    match m.nv.commitStart with
    | some st => m.coldStart st false false
    | none => m.setDom 7 .off

/-- VHOLD_ABSENT (R58, R690): a commit that still runs leaves its area without the mark, and nothing has power. -/
def Mach.vholdAbsent (m : Mach) : Mach :=
  if m.clk.vsup then m
  else
    let m := match m.nv.committing with
      | some c => m.storeCommit c
      | none => m
    let m := m.setDom 7 .off
    { m with clk := { m.clk with dom := { m.clk.dom with d0 := false }, life := .unpowered } }

/-- POWER_ON_RELEASE (R64, R66, R683): a cold start, or, during a commit, one that follows it. -/
def Mach.powerOn (m : Mach) (straps : Straps) : Mach :=
  if m.clk.vsup then m
  else
    let m := { m with clk := { m.clk with vsup := true } }
    if m.nv.committing.isSome then { m with nv := { m.nv with commitStart := some straps } }
    else m.coldStart straps false false

/-- RESET_N (R719): the whole reset and a cold start; between 100 ns and 1 µs it is open whether the pulse is accepted.
Log entry 120 (DEDUCED, unsafe). -/
def Mach.resetN (m : Mach) (lowNs : Nat) (straps : Straps) : Mach :=
  if lowNs ≤ 100 || !m.clk.vsup || !m.clk.vio || m.nv.committing.isSome then m
  else
    let (ok, m) := if 1000 ≤ lowNs then (true, m) else m.drawBit
    if ok then m.writeAbandon.coldStart straps false true else m

/-- VHOLD_ARMED (R67). -/
def Mach.vholdUp (m : Mach) : Mach :=
  if m.clk.vsup then { m with clk := { m.clk with vholdArmed := true } } else m

/-- FIRMWARE_ACTIVATION (R688): once the line of `upgrade commit` is taken or 50 ms old, the power-fail commit and a cold start into
the new slot.
Log entry 117 (DEDUCED, unsafe). -/
def Mach.activate (m : Mach) (straps : Straps) : Mach :=
  match m.nv.activation with
  | none => m
  | some (p, t) =>
    if !m.lineTaken p t || m.clk.life ≠ .up then m
    else
      let m := (m.writeAbandon.testAbort false).1
      let c := m.commitNow
      (m.storeCommit { c with marked := true }).coldStart straps true false

/-- SLOT_GOOD (R688): a TRY slot after 10 s of Run.
Log entry 118 (DEDUCED, unsafe). -/
def Mach.slotGood (m : Mach) : Mach :=
  if m.running.st = .try_ && m.clk.life = .up && m.clk.mode = .run && m.clk.start.isNone &&
      decide (m.clk.runSince + 10 * second ≤ m.clk.now) then
    m.updSlot m.nv.runB (fun s => { s with st := .good })
  else m

/-- VIO_LOSS (R57): every VIO-domain output is released, a SYNC pulse with them, and no input is taken.
Log entry 127 (DEDUCED, unsafe). -/
def Mach.vioLoss (m : Mach) : Mach :=
  { m with clk := { m.clk with vio := false }, flue := { m.flue with pulseHighUntil := none } }

/-- VIO_RETURN (R57): the levels present are the starting levels.
Log entry 127 (DEDUCED, unsafe). -/
def Mach.vioReturn (m : Mach) (l : VioLevels) : Mach :=
  if m.clk.vio then m
  else { m with clk := { m.clk with vio := true, keyLevel := l.key }, aux := { m.aux with damperLevel := l.damper } }

/-! ### Registers (R694, R7) -/

/-- `PWR_DOMST`. -/
def Mach.domWord (m : Mach) : Word :=
  word (((List.range 8).map (fun k => (match m.dom k with
    | .off => 0
    | .on => 1
    | .retain => 2) * 2 ^ (2 * k))).sum)

/-- A slot state's code. -/
def SlotSt.code : SlotSt → Nat
  | .empty => 0
  | .try_ => 1
  | .good => 2
  | .bad => 3

/-- `PWR_BOOT`. -/
def Mach.bootWord (m : Mach) : Word :=
  word (m.nv.nextB.toNat * 256 + m.nv.slotB.st.code * 4 + m.nv.slotA.st.code)

end Sys2Proof.Machine
end

