-- ==== Sys2Proof/Machine/RegRead.lean ====
section
/-! DEFINITION. What a register reads as (R90, R95, R107): the fields that show the state of a block, the data windows (R139 to
R142) and the latched pairs (R108). -/

namespace Sys2Proof.Machine

/-! ### Fields that show a block's state -/

/-- The identity block (R7 to R10). -/
def Mach.liveIdentity (m : Mach) (a : Nat) : Word :=
  if a = 8 then Config.serial.extractLsb' 0 32
  else if a = 0xC then Config.serial.extractLsb' 32 32
  else if a = 0x10 then m.idFw
  else if a = 0x14 then bitIf m.nv.runB 0
  else m.reg a

/-- The rate in use (R191, R193); 0 while none is detected and in the clocked personality.
Log entry 29 (DEDUCED, unsafe). -/
def Mach.baudRate (m : Mach) (p : Port) : Nat :=
  let s := m.port p
  let rate := m.fld (portBase p + 4) 0 24
  if !s.async then 0 else if rate ≠ 0 then rate else if s.baudSeen then m.fld (portBase p + 8) 0 24 else 0

/-- `x_BAUD_DET` (R187, R211).
Log entry 29 (DEDUCED, unsafe). -/
def Mach.baudDet (m : Mach) (p : Port) : Nat := if (m.port p).baudOff then 0 else m.baudRate p

/-- `x_STATUS` (R169, R211). -/
def Mach.statusWord (m : Mach) (p : Port) : Word :=
  let s := m.port p
  word (s.wcnt.toNat * 2 ^ 24 + min 2048 s.reply.length * 2 ^ 12 + m.lastCode p % 32) ||| bitIf s.executing.isSome 11 |||
    bitIf (!s.line.isEmpty) 10 ||| bitIf (m.intNow p) 9 ||| bitIf m.busy 8 ||| bitIf s.auth 7

/-- `SEM_OWNER` (R211). -/
def Mach.ownerWord (m : Mach) : Word :=
  word (((List.range 16).map (fun n =>
    (if (m.semsOf .a).getLsbD n then 1 else if (m.semsOf .b).getLsbD n then 2 else 0) * 4 ^ n)).sum)

/-- The host ports block. -/
def Mach.liveHost (m : Mach) (a : Nat) : Word :=
  if a = 0x408 then word (m.baudDet .a)
  else if a = 0x428 then word (m.baudDet .b)
  else if a = 0x40C then m.statusWord .a
  else if a = 0x42C then m.statusWord .b
  else if a = 0x410 then (m.flushInt .a).reg 0x410
  else if a = 0x430 then (m.flushInt .b).reg 0x430
  else if a = 0x448 then m.ownerWord
  else if a = 0x44C then word (m.pa.semsCmd ||| m.pb.semsCmd).toNat
  else m.reg a

/-- The power block. -/
def Mach.livePower (m : Mach) (a : Nat) : Word :=
  if a = 0x800 then m.reg a ||| bitIf m.clk.entry.isSome 8
  else if a = 0x810 then m.domWord
  else if a = 0x8E0 then m.bootWord
  else if a = 0x8E4 then word m.nv.starts
  else m.reg a

/-- The motion block.
Log entry 60 (DEDUCED, unsafe). -/
def Mach.liveMotion (m : Mach) (a : Nat) : Word :=
  if a = 0xC18 then m.holdWord 0
  else if a = 0xC1C then m.holdWord 1
  else if a = 0xC20 then m.holdWord 2
  else if a = 0xC3C then m.reg a ||| m.motBits
  else m.reg a

/-- The filter block. -/
def Mach.liveFilter (m : Mach) (a : Nat) : Word :=
  if a < 0x10C0 ∧ a % 16 = 12 then
    let g := (a - 0x1000) / 16
    m.reg a ||| (m.grp g).statBits (m.castleReq g)
  else m.reg a

/-- The angle block; S is rounded towards minus infinity.
Log entry 68 (DEDUCED, unsafe). -/
def Mach.liveAngle (m : Mach) (a : Nat) : Word :=
  if a = 0x1410 then m.ang.stateWord
  else if a = 0x141C then wordOfInt (m.ang.scale.fdiv ((2 ^ 14 : Nat) : Int))
  else if a = 0x1420 then word (unsignedOf 32 m.ang.theta)
  else if a = 0x1424 then word (unsignedOf 32 (m.ang.theta.fdiv oneRev))
  else m.reg a

/-- The aux block. -/
def Mach.liveAux (m : Mach) (a : Nat) : Word :=
  if a = 0x1A08 then m.reg a ||| m.aux.statBits
  else if a < 0x1A00 ∧ a % 64 = 0x20 then m.reg a ||| bitIf (m.chan ((a - 0x1800) / 64)).brkNow 8
  else m.reg a

/-- The buffer block. -/
def Mach.liveBuffer (m : Mach) (a : Nat) : Word :=
  if 0x1C40 ≤ a ∧ a < 0x1CE0 then
    let q := m.q ((a - 0x1C40) / 32)
    match (a - 0x1C40) % 32 with
    | 0x10 => q.fillWord
    | 0x14 => loWord q.readSeq
    | 0x18 => hiWord q.readSeq
    | _ => m.reg a
  else m.reg a

/-- The event block. -/
def Mach.liveEvent (m : Mach) (a : Nat) : Word :=
  if a = 0x2008 then word m.eng.flags.toNat
  else if a = 0x2020 then m.evt.rstate
  else if 0x2100 ≤ a ∧ a < 0x2300 then
    let s := m.sm ((a - 0x2100) / 32)
    match a % 32 with
    | 4 => s.stateWord
    | 0x18 => word (s.cnt1 * 2 ^ 16 + s.cnt0)
    | 0x1C => s.last
    | _ => m.reg a
  else m.reg a

/-- The engine block. -/
def Mach.liveEngine (m : Mach) (a : Nat) : Word :=
  let o := a - 0x2400
  if o < 0x200 then
    let n := o / 128
    let c := o % 128 / 16
    match o % 16 with
    | 0 => m.reg a ||| m.ctxBits n c
    | 4 => (m.ctx n c).ca
    | 8 => (m.ctx n c).cb
    | _ => (m.ctx n c).sh
  else if 0x280 ≤ o ∧ o < 0x300 then (m.ctx ((o - 0x280) / 32) (o % 32 / 4)).txd
  else if o = 0x320 then m.engStateWord
  else if o = 0x328 then m.engFaultWord 0
  else if o = 0x32C then m.engFaultWord 1
  else if 0x340 ≤ o ∧ o < 0x380 then
    let p := (o - 0x340) / 4
    m.reg a ||| bitIf (m.eng.out.getLsbD p) 25 ||| bitIf (m.pinLevel p) 24
  else if 0x380 ≤ o then (m.ctx ((o - 0x380) / 32) (o % 32 / 4)).rxd
  else m.reg a

/-- The Flue block. -/
def Mach.liveFlue (m : Mach) (a : Nat) : Word :=
  if a = 0x280C then m.wstateWord
  else if a = 0x2820 then m.upgWord
  else if a = 0x2824 then m.phaseWord
  else if 0x2840 ≤ a ∧ a < 0x28C0 then m.reg a ||| m.workerBits ((a - 0x2840) / 4)
  else m.reg a

/-- The guard block. -/
def Mach.liveGuard (m : Mach) (a : Nat) : Word :=
  if a = 0x2C10 then bitIf m.grd.ack 0
  else if a = 0x2C14 then m.grdStateWord
  else if a = 0x2C20 then m.grdPeakWord
  else m.reg a

/-- The security block. -/
def Mach.liveSecurity (m : Mach) (a : Nat) : Word :=
  if a = 0x3000 then m.sec.lifeWord
  else if a = 0x3004 then word m.sec.made.num
  else if a = 0x3008 then loWord m.sec.lastSeal
  else if a = 0x300C then hiWord m.sec.lastSeal
  else if 0x3020 ≤ a ∧ a < 0x3040 then m.sec.ownerWord ((a - 0x3020) / 4) else m.reg a

/-- The self-test and spare block. -/
def Mach.liveBist (m : Mach) (a : Nat) : Word :=
  if a = 0x3408 then m.bistLast
  else if a = 0x3480 then m.spareMap
  else if a = 0x3484 then m.spareBank 0
  else if a = 0x3488 then m.spareBank 1
  else if a = 0x348C then m.spareRows
  else if a = 0x3490 then m.spareNv
  else if a = 0x3494 then m.degradedWord
  else if a = 0x349C then m.spareInfo
  else m.reg a

/-- A register's word, every field as it stands (R107).
Log entry 7 (DESIGN CHOICE, unsafe). -/
def Mach.live (m : Mach) (a : Nat) : Word :=
  match blockOf a with
  | 0 => m.liveIdentity a
  | 1 => m.liveHost a
  | 2 => m.livePower a
  | 3 => m.liveMotion a
  | 4 => m.liveFilter a
  | 5 => m.liveAngle a
  | 6 => m.liveAux a
  | 7 => m.liveBuffer a
  | 8 => m.liveEvent a
  | 9 => m.liveEngine a
  | 10 => m.liveFlue a
  | 11 => m.liveGuard a
  | 12 => m.liveSecurity a
  | 13 => m.liveBist a
  | 14 => if a = 0x3804 then m.pstWord else m.reg a
  | _ => 0

/-- What a read of a direct word address gives, windows apart: 0 at a reserved word (R93), reserved bits 0 (R95), the increment of
a window that has ended made (R721).
Log entry 7 (DESIGN CHOICE, unsafe). -/
def Mach.peek (m : Mach) (a : Nat) : Word :=
  match regDef a with
  | some d => (m.flushSeq a).live a &&& d.bits
  | none => 0

/-! ### Windows and latched pairs -/

/-- The word of a window at an index (R139).
Log entry 18 (DEDUCED, unsafe). -/
def Mach.windowWord (m : Mach) (a i : Nat) : Word :=
  if a = 0x2304 then m.evtWord i
  else if a = 0x2704 then m.engWord (i / 256) i
  else if a = 0x1304 then cellGet coefReset m.mem.coefs i &&& 0x00FFFFFF
  else m.sec.certWord i

/-- The index of a window stands at the end of its memory (R142). -/
def Mach.windowEnd (m : Mach) (ix n : Nat) : Bool := decide (n ≤ (m.reg ix).toNat)

/-- The index of a window moves on by one (R141).
Log entry 18 (DEDUCED, unsafe). -/
def Mach.windowStep (m : Mach) (ix : Nat) : Mach := m.setReg ix (m.reg ix + 1)

/-- The holding register of a requesting agent (R108).
Log entry 23 (DEDUCED, unsafe). -/
def Mach.hold (m : Mach) (ag : Agent) : Option PairHold :=
  match ag with
  | .port .a => m.regs.holdA
  | .port .b => m.regs.holdB
  | _ => m.regs.holdCore

/-- The holding register of a requesting agent replaced. -/
def Mach.setHold (m : Mach) (ag : Agent) (h : Option PairHold) : Mach :=
  match ag with
  | .port .a => { m with regs := { m.regs with holdA := h } }
  | .port .b => { m with regs := { m.regs with holdB := h } }
  | _ => { m with regs := { m.regs with holdCore := h } }

/-- A latched pair (R108): the lower word's read copies the upper one, which the agent's next read of it returns.
Log entry 23 (DEDUCED, unsafe). -/
def Mach.pairRead (m : Mach) (ag : Agent) (a : Nat) : Word × Mach :=
  match pairUpper a with
  | some u => (m.peek a, m.setHold ag (some ⟨u, m.peek u⟩))
  | none =>
    match m.hold ag with
    | some h => if h.addr = a then (h.value, m.setHold ag none) else (m.peek a, m)
    | none => (m.peek a, m)

/-- One word read by an agent: its value, and whether a window stood at its end (R138, R142). -/
def Mach.readWord (m : Mach) (ag : Agent) (a : Nat) : Word × Bool × Mach :=
  match windowOf a with
  | some (ix, n) =>
    if m.windowEnd ix n then (0, true, m) else (m.windowWord a (m.reg ix).toNat, false, m.windowStep ix)
  | none =>
    let (w, m) := m.pairRead ag a
    (w, false, m)

/-- `k` words read from an address on: past LAST they read 0 (R136); a frame that starts at a data register stays there (R140).
The Bool says whether the range or a window ended. -/
def Mach.readRun (m : Mach) (ag : Agent) (stay : Bool) (last a : Nat) : Nat → List Word × Bool × Mach
  | 0 => ([], false, m)
  | k + 1 =>
    let (w, e, m) := if a ≤ last then m.readWord ag a else (0, true, m)
    let (ws, f, m) := m.readRun ag stay last (if stay then a else a + 4) k
    (w :: ws, e || f, m)

end Sys2Proof.Machine
end

