-- ==== Sys2Proof/Machine/RegEffect.lean ====
section
/-! DEFINITION. What a word written to a control register does in its block, register by register: the range checks that need more
than one field, the refusals that the block defines, and the effect. `old` is the word as it reads before, `new` the stored word
after, `go` the GO bits that the word writes 1 to. -/

namespace Sys2Proof.Machine

/-- A field of two words differs.
Log entry 61 (DEDUCED, unsafe). -/
def changed (old new : Word) (lo width : Nat) : Bool := bitsAt old lo width != bitsAt new lo width

/-! ### Ranges that need more than one field -/

/-- A group's CFG and L words break R310 or R312. -/
def chainRangeBad (g : Nat) (cfg l : Word) : Bool :=
  let fir := bitAt cfg 8
  let least := if g < 3 then (if fir then 8 else 16) else if g = 3 then (if fir then 32 else 64) else 2
  (bitsAt cfg 0 3 = 5 && decide (bitsAt l 0 17 < least)) || (4 ≤ g && bitsAt cfg 0 3 = 4 && bitsAt cfg 28 4 = 0)

/-- A channel's registers with one of them replaced. -/
def AuxCfg.put (c : AuxCfg) (o : Nat) (w : Word) : AuxCfg :=
  match o with
  | 0 => { c with cfg := w }
  | 4 => { c with bo := w }
  | 8 => { c with lin := w }
  | 0xC => { c with p1 := w }
  | 0x10 => { c with p2 := w }
  | 0x14 => { c with p3 := w }
  | 0x18 => { c with p4 := w }
  | _ => { c with lead := w }

/-- The whole word is out of range for a reason that spans fields or registers: R310, R312, R391, R428 (`CJCH` names this
channel), R495, R536, R715 (a unit of the kind). -/
def Mach.rangeBad (m : Mach) (a : Nat) (new : Word) : Bool :=
  if 0x1000 ≤ a ∧ a < 0x10C0 then
    let g := (a - 0x1000) / 16
    if a % 16 = 0 then chainRangeBad g new (m.reg (a + 4))
    else if a % 16 = 4 then chainRangeBad g (m.reg (a - 4)) new
    else false
  else if 0x1800 ≤ a ∧ a < 0x1A00 then
    let n := (a - 0x1800) / 64
    let c := (m.auxRegs n).put (a % 64) new
    (a % 64 = 8 && bitsAt new 16 4 = n) || (bitAt c.cfg 31 && !auxAllowed n c)
  else if 0x1C40 ≤ a ∧ a < 0x1CE0 then
    let q := (a - 0x1C40) / 32
    let n := (m.q q).banks
    let pre := fun (cap : Word) => bitsAt cap 0 12 + bitsAt cap 16 12 + 2
    if a % 32 = 0 then bitsAt new 8 2 = 2 && m.qPolicy q ≠ 2 && decide (32 * n < pre (m.reg (a + 4)))
    else if a % 32 = 4 then m.qPolicy q = 2 && decide (32 * n < pre new)
    else false
  else if a = 0x2C04 then decide (bitsAt new 0 12 ≤ bitsAt new 16 8)
  else if a = 0x2C08 then decide (bitsAt new 0 16 ≤ bitsAt new 16 16)
  else if a = 0x34A0 then bitsAt new 16 3 ≠ 2 && decide (spareUnits (bitsAt new 16 3) ≤ bitsAt new 0 16)
  else false

/-! ### Refusals a block defines (row 15 of R145), and ENGINE_RUNNING -/

/-- An engine is RUNNING or STALLED. -/
def Mach.engActive (m : Mach) (n : Nat) : Bool := decide ((m.engine n).run ≠ .stopped)

/-- The engines that a word of `ENG_CTXEN` changes.
Log entry 107 (DEDUCED, unsafe). -/
def ctxChanged (old new : Word) : List Nat := (List.range 4).filter (fun n => changed old new (8 * n) 8)

/-- An engine named by an owner field is active.
Log entry 107 (DEDUCED, unsafe). -/
def Mach.ownerActive (m : Mach) (w : Word) : Bool := bitsAt w 16 3 ≠ 0 && m.engActive (bitsAt w 16 3 - 1)

/-- The refusals of the engine block (R568, R575, R584, R588, R589).
Log entry 107 (DEDUCED, unsafe). -/
def Mach.refuseEngine (m : Mach) (a : Nat) (old new go : Word) : Nat :=
  let named := engsOf go.toNat
  if a = 0x2708 ∨ a = 0x270C then (if named.any (fun n => m.engReserved n) then 18 else 0)
  else if a = 0x2710 then
    (if named.any (fun n => m.engReserved n || !(m.engine n).resok || decide ((m.engine n).run = .running)) then 18 else 0)
  else if a = 0x2718 then
    (if (ctxChanged old new).any (fun n => m.engActive n) then 6
     else if (ctxChanged old new).any (fun n => m.engReserved n) then 18 else 0)
  else if 0x2730 ≤ a ∧ a < 0x2740 then
    (if m.engActive ((a - 0x2730) / 4) then 6 else if m.engReserved ((a - 0x2730) / 4) then 18 else 0)
  else if 0x2740 ≤ a ∧ a < 0x2780 then
    (if (old ^^^ new) &&& 0x70337 ≠ 0 && (m.ownerActive old || m.ownerActive new) then 6
     else if bitsAt old 16 3 ≠ 0 && m.engReserved (bitsAt old 16 3 - 1) then 18 else 0)
  else if 0x2680 ≤ a ∧ a < 0x2700 then (m.txdWrite ((a - 0x2680) / 32) (a % 32 / 4) new).1
  else 0

/-- No SYNC frame mark can come (R330). -/
def Mach.noMark (m : Mach) : Bool := m.flue.role = 0 || (m.flue.role = 2 && !(m.busOn 0 || m.busOn 1))

/-- The refusals of the filter block (R330, R341, R347). -/
def Mach.refuseFilter (m : Mach) (a : Nat) (new go : Word) : Nat :=
  if a = 0x10C0 then
    let gs := setBitsOf 12 go
    if gs.any (fun g => m.castleReq g && !m.castlingNow g) then 15
    else match m.flt.transfer with
      | some t => if !t.save && gs.contains t.group then 18 else 0
      | none => 0
  else if a = 0x10C4 then (if bitAt new 4 && (bitAt go 0 || m.flag a 0) && m.noMark then 18 else 0)
  else if a = 0x10D0 && bitAt go 0 && !m.flag a 0 then
    (if bitAt new 28 then (if bitsAt new 20 5 = 0 then 18 else 0)
     else if m.bankBusy (bitsAt new 12 4) (bitAt new 8) then 18 else 0)
  else 0

/-- The refusal of a write to `SPARE_USE` (R709): the other port's semaphore, and what the kind asks for. -/
def Mach.refuseSpare (m : Mach) (ag : Agent) (kind unit : Nat) : Nat :=
  let held := match portOf ag, spareSem kind with
    | some p, some n => m.semOther p n
    | _, _ => false
  if held then 5 else m.spareCheck kind unit

/-- The refusal that a block defines for a word; 0: none.
Log entry 114 (DEDUCED, unsafe). -/
def Mach.regRefuse (m : Mach) (ag : Agent) (a : Nat) (old new go : Word) : Nat :=
  if a = 0x440 then (match ag with
    | .port p => (m.semClaim p (BitVec.ofNat 16 go.toNat)).1
    | _ => 0)
  else if a = 0x800 then (if bitAt go 4 && m.clk.start.isSome then 18 else 0)
  else if a = 0x80C then (if m.clk.mode = .run && m.clk.start.isNone then m.domCheck new else 0)
  else if blockOf a = 4 then m.refuseFilter a new go
  else if a = 0x1C00 then (if bitAt go 0 then m.applyCheck else 0)
  else if blockOf a = 9 then m.refuseEngine a old new go
  else if a = 0x2818 then (if bitAt go 0 then m.tload.1 else 0)
  else if a = 0x3400 then (if go = 0 then 0 else m.testCheck (setBitsOf 7 go))
  else if a = 0x34A0 then
    (if bitAt go 31 && !m.flag a 31 then m.refuseSpare ag (bitsAt new 16 3) (bitsAt new 0 16) else 0)
  else 0

/-! ### Effects -/

/-- A write of `PWR_MODE` (R671, R674); `TARGET` is written in any case (R100).
Log entry 114 (DEDUCED, unsafe). -/
def Mach.doneMode (m : Mach) (ag : Agent) (new go : Word) : Nat × Mach :=
  let m := m.setReg 0x800 new
  if !bitAt go 4 || m.clk.entry.isSome then (0, m)
  else
    let t := match bitsAt new 0 2 with
      | 1 => Mode.watch
      | 2 => Mode.ember
      | _ => Mode.run
    let (c, m) := m.enterMode t (portOf ag) false false
    (if c = 0 then 0 else 18, m)

/-- The power block. -/
def Mach.donePower (m : Mach) (ag : Agent) (a : Nat) (new go : Word) : Nat × Mach :=
  if a = 0x800 then m.doneMode ag new go
  else if a = 0x80C then (0, if m.clk.mode = .run && m.clk.start.isNone then m.domWrite new else m.setReg a new)
  else if a = 0x814 then
    (0, m.setReg a (match portOf ag with
      | some .a => (new &&& 1) ||| (m.reg a &&& 2)
      | some .b => (new &&& 2) ||| (m.reg a &&& 1)
      | none => new))
  else (0, m.setReg a new)

/-- The motion block (R266, R291), its register stored.
Log entry 61 (DEDUCED, unsafe). -/
def Mach.doneMotion (m : Mach) (a : Nat) (old new : Word) : Mach :=
  if a = 0xC04 then (if changed old new 0 4 then m.presetChange 0 else m)
  else if a = 0xC24 then
    let m := if changed old new 0 4 then m.presetChange 1 else m
    if changed old new 24 2 then m.rangeChange 1 else m
  else if a = 0xC28 then
    let m := if changed old new 0 4 then m.presetChange 2 else m
    if changed old new 24 1 then m.rangeChange 2 else m
  else if a = 0xC2C then (if changed old new 0 3 then m.presetChange 3 else m)
  else if a = 0xC38 then m.axmapChange.enterSearch
  else m

/-- A group's source and D3 are ON, so that it delivers outputs or will (R343). -/
def Mach.sourceOn (m : Mach) (g : Nat) : Bool :=
  m.on 3 && (if g < 4 then m.on 1 && !(m.inWatch && g ≠ 0) else m.on 2 && m.grpEnabled g)

/-- A castling request for one group (R337, R340, R343); one that stands is in its cycle of execution (R342).
Log entry 64 (DEDUCED, unsafe). -/
def Mach.castleAsk (m : Mach) (g : Nat) : Mach :=
  let s := m.grp g
  let fir := if s.started then s.cfg.taps.isSome || s.firLeft else (m.wantCfg g).taps.isSome
  if m.castleReq g then m.updGrp g (fun x => { x with reqAgain := true })
  else if !fir || !m.sourceOn g then m.castleNow g
  else if s.fade.isSome then (m.setReq g true).updGrp g (fun x => { x with castlePend := true })
  else m.setReq g true

/-- A library transfer starts (R347).
Log entries 17 (DEDUCED, unsafe), 66 (DEDUCED, unsafe). -/
def Mach.clibStart (m : Mach) (new : Word) : Mach :=
  let g := bitsAt new 12 4
  let b := bitAt new 8
  let ws := (List.range 64).map (fun i => m.coef g b i &&& 0x00FFFFFF)
  let t : LibTransfer := ⟨bitAt new 28, bitsAt new 20 5, g, b, if bitAt new 28 then ws else []⟩
  { m.setFld 0x10D0 0 1 1 with flt := { m.flt with transfer := some t } }

/-- The filter block, its register stored. -/
def Mach.doneFilter (m : Mach) (a : Nat) (old new go : Word) : Mach :=
  if a < 0x10C0 then
    let g := (a - 0x1000) / 16
    if a % 16 = 0 then (if (old ^^^ new) &&& 0xF0007F37 ≠ 0 then m.presetChange g else m)
    else if a % 16 = 4 then (if changed old new 0 17 && m.fld (a - 4) 0 3 = 5 then m.presetChange g else m)
    else m
  else if a = 0x10C0 then (setBitsOf 12 go).foldl Mach.castleAsk m
  else if a = 0x10C4 then
    (if bitAt go 0 && !bitAt old 0 then m.syncArm
     else if bitAt old 0 && changed old new 4 1 then m.syncArm else m)
  else if a = 0x10D0 then (if bitAt go 0 && !bitAt old 0 then m.clibStart new else m)
  else m

/-- The angle block, its register stored (R356, R364).
Log entry 61 (DEDUCED, unsafe). -/
def Mach.doneAngle (m : Mach) (a : Nat) (old new : Word) : Mach :=
  if a = 0x1400 then
    let m := if bitAt new 0 && !bitAt old 0 then m.angEnable
      else if bitAt old 0 && !bitAt new 0 then { m with ang := { m.ang with run := false } } else m
    if (old ^^^ new) &&& 0xF0 ≠ 0 then m.enterSearch else m
  else m

/-- The aux block. -/
def Mach.doneAux (m : Mach) (a : Nat) (old new go : Word) : Mach :=
  if a < 0x1A00 then (m.setReg a new).auxChanges m.auxEff
  else if a = 0x1A00 then
    (if old ≠ new || m.aux.excFault then (m.setReg a new).excAsk else m.setReg a new)
  else if a = 0x1A04 then
    (if bitAt old 0 && !bitAt new 0 then m.damperOff.setReg a new else m.setReg a new)
  else if a = 0x1A0C then
    let m := m.setReg a new
    if !bitAt go 8 || bitAt old 8 then m
    else if m.leadQualifies (bitsAt new 0 3) then
      { m.setFld a 8 1 1 with aux := { m.aux with lcal := some ⟨bitsAt new 0 3, 0, 0, m.clk.now, false⟩ } }
    else m.leadFail
  else m.setReg a new

/-- The buffer block, its register stored. TRIG acts before REARM.
Log entry 96 (DEDUCED, unsafe). -/
def Mach.doneBuffer (m : Mach) (a : Nat) (old go : Word) : Mach :=
  if a = 0x1C00 then (if bitAt go 0 then m.applyAlloc else m)
  else if 0x1C40 ≤ a ∧ a < 0x1CE0 then
    let q := (a - 0x1C40) / 32
    if a % 32 = 0 then
      let m := m.policyChange q (bitsAt old 8 2)
      if q < 4 then m.blockTimeout q else m
    else if a % 32 = 0xC then
      let m := if bitAt go 1 && m.qPolicy q = 2 then m.trigger q else m
      if bitAt go 0 then m.rearm q else m
    else m
  else m

/-- The event block, its register stored. -/
def Mach.doneEvent (m : Mach) (a : Nat) (old new go : Word) : Mach :=
  if a = 0x2000 then (setBitsOf 16 go).foldl Mach.smStart m
  else if a = 0x2004 then (setBitsOf 16 go).foldl Mach.smStop m
  else if a = 0x200C then m.setFlags go.toNat 0
  else if a = 0x2010 then m.setFlags 0 go.toNat
  else if a < 0x2100 then
    (List.range 7).foldl (fun (m : Mach) i =>
      if (a = recCfg i && (old ^^^ new) &&& 0x00FFFFFF ≠ 0) || (i ≠ 2 && a = recThr i && old ≠ new) then m.recReset i else m) m
  else if a < 0x2300 && a % 32 = 0 then m.updSm ((a - 0x2100) / 32) Sm.rearmWait
  else m

/-- The engine block. -/
def Mach.doneEngine (m : Mach) (a : Nat) (new go : Word) : Mach :=
  if a = 0x2708 then (engsOf go.toNat).foldl Mach.engStartOne m
  else if a = 0x270C then (engsOf go.toNat).foldl Mach.engStopOne m
  else if a = 0x2710 then (engsOf go.toNat).foldl Mach.engResumeOne m
  else if a = 0x2714 then m.irqSet go.toNat
  else if a = 0x271C then m.rxAck go
  else if 0x2740 ≤ a ∧ a < 0x2780 then (m.setReg a new).pinInit ((a - 0x2740) / 4)
  else if 0x2680 ≤ a ∧ a < 0x2700 then (m.txdWrite ((a - 0x2680) / 32) (a % 32 / 4) new).2
  else m.setReg a new

/-- The Flue block, its register stored (R330, R602, R613). -/
def Mach.doneFlue (m : Mach) (a : Nat) (old new go : Word) : Mach :=
  if a = 0x2800 then
    if !m.manager then m
    else
      let m := if changed old new 4 1 then m.busSwitch 0 (bitAt new 4) else m
      let m := if changed old new 5 1 then m.busSwitch 1 (bitAt new 5) else m
      if m.noMark && m.flag 0x10C4 0 && m.flag 0x10C4 4 then m.syncArm else m
  else if a = 0x2818 && bitAt go 0 then m.tload.2
  else m

/-- A guard register is locked (R124).
Log entry 87 (DEDUCED, unsafe). -/
def Mach.lockReg (m : Mach) (a : Nat) : Mach :=
  if m.regs.locked.contains a then m else { m with regs := { m.regs with locked := m.regs.locked ++ [a] } }

/-- The guard block, its register stored (R124, R494, R496).
Log entry 87 (DEDUCED, unsafe). -/
def Mach.doneGuard (m : Mach) (a : Nat) (go : Word) : Mach :=
  if a = 0x2C10 then (if bitAt go 0 then { m with grd := { m.grd with ack := true } } else m)
  else if a = 0x2C0C then ([0x2C00, 0x2C04, 0x2C08, 0x2C0C].foldl Mach.lockReg m).grdTryArm
  else m.lockReg a

/-- The self-test and spare block, its register stored. -/
def Mach.doneBist (m : Mach) (ag : Agent) (a : Nat) (old new go : Word) : Mach :=
  if a = 0x3400 then
    if go = 0 then m
    else (m.setReg a go).runStart .command (setBitsOf 7 go) (portOf ag) false false
  else if a = 0x34A0 && bitAt go 31 && !bitAt old 31 then
    let k := bitsAt new 16 3
    (if k ≤ 1 then m.setFld a 31 1 1 else m).spareUse k (bitsAt new 0 16) true
  else m

/-- A word that passed its checks takes effect, all its fields in one cycle (R100); a refusal is left only to `PWR_MODE`. -/
def Mach.regDone (m : Mach) (ag : Agent) (a : Nat) (old new go : Word) : Nat × Mach :=
  match blockOf a with
  | 1 =>
    (0, match ag with
      | .port p =>
        if a = 0x440 then (m.semClaim p (BitVec.ofNat 16 go.toNat)).2
        else if a = 0x444 then m.semRelease p (BitVec.ofNat 16 go.toNat)
        else m.setReg a new
      | _ => if a = 0x440 ∨ a = 0x444 then m else m.setReg a new)
  | 2 => m.donePower ag a new go
  | 3 => (0, (m.setReg a new).doneMotion a old new)
  | 4 => (0, (m.setReg a new).doneFilter a old new go)
  | 5 => (0, (m.setReg a new).doneAngle a old new)
  | 6 => (0, m.doneAux a old new go)
  | 7 => (0, (m.setReg a new).doneBuffer a old go)
  | 8 => (0, (m.setReg a new).doneEvent a old new go)
  | 9 => (0, m.doneEngine a new go)
  | 10 => (0, (m.setReg a new).doneFlue a old new go)
  | 11 => (0, (m.setReg a new).doneGuard a go)
  | 13 => (0, (m.setReg a new).doneBist ag a old new go)
  | _ => (0, m.setReg a new)

end Sys2Proof.Machine
end

