-- ==== Sys2Proof/Machine/RegBus.lean ====
section
/-! DEFINITION. The register bus: a word written under its access kind (R89, R97 to R126, R140 to R143), the header checks and the
status of a frame of words (R145 to R148), block clocks (R131, R133), and the accesses of the agents. -/

namespace Sys2Proof.Machine

/-! ### One word -/

/-- The GO bits that a word starts (R103, R104). -/
def goWord (k : AccessKind) (w : Word) : Word :=
  match k with
  | .clearBits => 0
  | _ => w

/-- The register is a TXD register (R575). -/
def isTxd (a : Nat) : Bool := decide (0x2680 ≤ a) && decide (a < 0x2700)

/-- The register is the index register of a window (R139).
Log entry 18 (DEDUCED, unsafe). -/
def isIndex (a : Nat) : Bool := a = 0x2300 || a = 0x2700 || a = 0x1300 || a = 0x3300

/-- A LOCKED refusal is counted for the port on whose behalf the write was made (R125, R148). -/
def Mach.lockedCount (m : Mach) (ag : Agent) : Mach :=
  match ag with
  | .port p => m.count (accLocked p)
  | _ => m

/-- GO fields written 1 while their operation is in progress (R103) are kept for their FOSC cycle (R105). -/
def Mach.noteAbsorbed (m : Mach) (ag : Agent) (a : Nat) (go : Word) : Mach :=
  if go = 0 then m
  else
    let now := m.regs.absorbed.filter (fun x => x.at_ == m.clk.now)
    { m with regs := { m.regs with absorbed := now ++ [⟨portOf ag, a, go, m.clk.now⟩] } }

/-- A write to a control register: RANGE, LOCKED, WORN, ENGINE_RUNNING and the block's own refusal in the order of R145, else its
effect. A write of 0 to `GRD_LOCK` does nothing (R494).
Log entry 129 (DEDUCED, unsafe). -/
def Mach.controlWrite (m : Mach) (ag : Agent) (a : Nat) (d : RegDef) (k : AccessKind) (w : Word) : Nat × Mach :=
  let old := if isTxd a then m.live a else m.reg a
  let new := d.written k (if isIndex a then old &&& d.rw else old) w
  let new := if isIndex a then new &&& d.rw else new
  let go := goWord k w &&& d.go
  if a = 0x2C0C && !bitAt w 0 then (0, m)
  else if !d.inRange new || m.rangeBad a new then (17, m)
  else if d.lk ≠ 0 && m.regs.locked.contains a then (3, m.lockedCount ag)
  else if d.pp ≠ 0 then
    let (c, n) := m.persistWrite a new (portOf ag)
    if c = 0 then n.regDone ag a old new go else (c, n)
  else
    match m.regRefuse ag a old new go with
    | 0 => (m.noteAbsorbed ag a (m.reg a &&& go)).regDone ag a old new go
    | c => (c, if isTxd a && ag = .event then m.sqBit 0x2724 12 else m)

/-- The lifecycle state is OWNED (R640). -/
def Mach.owned (m : Mach) : Bool := decide (m.sec.life = 2)

/-- A write through the data register of a window (R140 to R143, R336, R473, R589, R593): 8 where the index is at its end and no
refusal that does not depend on the index comes first (R145). The certificate store is read only: no word is applied, so the index stays.
Log entry 128 (DESIGN CHOICE, unsafe). -/
def Mach.windowWrite (m : Mach) (k : AccessKind) (a ix n : Nat) (w : Word) : Nat × Mach :=
  let end_ := m.windowEnd ix n
  if (a = 0x2304 && (m.smBusy || m.owned)) || (a = 0x2704 && end_ && m.owned) then (18, m)
  else if end_ then (8, m)
  else
    let i := (m.reg ix).toNat
    let new := aliasWord k (m.windowWord a i) w
    if a = 0x2304 then
      (0, { m with mem := { m.mem with evtProg := cellSet (fun _ => 0) m.mem.evtProg i new } }.windowStep ix)
    else if a = 0x2704 then
      if m.engActive (i / 256) then (6, m)
      else if m.engReserved (i / 256) || m.owned then (18, m)
      else (0, ({ m with mem := { m.mem with engProg := cellSet (fun _ => 0) m.mem.engProg i new } }.engSpoil
        (i / 256)).windowStep ix)
    else if a = 0x1304 then
      if m.bankBusy (i / 128) (decide (64 ≤ i % 128)) then (18, m)
      else (0, { m with mem := { m.mem with coefs := cellSet coefReset m.mem.coefs i (new &&& 0x00FFFFFF) } }.windowStep ix)
    else (0, m)

/-- One word written by an agent: its code; 0 at a reserved word (R93). -/
def Mach.busWrite (m : Mach) (ag : Agent) (k : AccessKind) (a : Nat) (w : Word) : Nat × Mach :=
  match windowOf a with
  | some (ix, n) => m.windowWrite k a ix n w
  | none =>
    match regDef a with
    | none => (0, m)
    | some d =>
      match d.cls with
      | .status => m.statusClear (portOf ag) a d.sq w
      | .counter => m.counterClear (portOf ag) a w
      | .readOnly => (0, m)
      | .control => m.controlWrite ag a d k w

/-! ### The header (rows 2 to 8 of R145) -/

/-- The address bits [15:14] of an access kind. -/
def kindBits (k : AccessKind) : Nat :=
  match k with
  | .direct => 0
  | .setBits => 0x4000
  | .clearBits => 0x8000
  | .toggleBits => 0xC000

/-- The last implemented word of an address's block. -/
def lastOf (a : Nat) : Nat := blockOf a * 0x400 + (blockLast (blockOf a)).getD 0

/-- The word addresses that a frame covers (R135, R137, R140). -/
def spanOf (a n : Nat) : List Nat :=
  if (windowOf a).isSome then [a]
  else ((List.range n).map (fun i => a + 4 * i)).filter (fun x => decide (x ≤ lastOf a))

/-- A register accepts alias writes (R97); a reserved word takes any write (R93).
Log entry 87 (DEDUCED, unsafe). -/
def aliasOk (a : Nat) : Bool :=
  match regDef a with
  | some d => d.cls == .control && d.rw ||| d.go ||| d.pp != 0
  | none => true

/-- Port B is in addressed mode (R188). -/
def Mach.addressed (m : Mach) (p : Port) : Bool := p == .b && !m.pb.async && m.flag 0x420 26

/-- Port B is reachable on a Flue bus (R598). -/
def Mach.onBus (m : Mach) (p : Port) : Bool := m.addressed p && m.flue.role == 1

/-- The timestamp load registers of a worker, through addressed port B (R615). -/
def Mach.tsetExempt (m : Mach) (p : Port) (a : Nat) : Bool := m.onBus p && (a = 0x2810 || a = 0x2814 || a = 0x2818)

/-- A write that needs no authentication in OWNED (R645). `PB_CTRL` holds `ADDRM`. -/
def Mach.authExempt (m : Mach) (p : Port) (a : Nat) : Bool :=
  (blockOf a = 1 && a ≠ 0x420) || isIndex a || isTxd a || a = 0x271C || m.tsetExempt p a ||
    (match regDef a with
      | some d => d.cls == .status || d.cls == .counter
      | none => false)

/-- A write needs an authenticated session that the port lacks (R645). -/
def Mach.authLacks (m : Mach) (p : Port) (as : List Nat) : Bool :=
  m.owned && !(m.port p).auth && !as.all (fun a => m.authExempt p a)

/-- The other port's semaphore refuses a write into a block (R201, R615). -/
def Mach.semRefuses (m : Mach) (p : Port) (as : List Nat) : Bool :=
  match as with
  | [] => false
  | a :: _ => (match blockSem (blockOf a) with
      | some n => m.semOther p n
      | none => false) && !as.all (fun a => m.tsetExempt p a)

/-- The header checks of a frame of `n` words at a 16-bit address, NOT_READY apart; 0: it is served. -/
def Mach.regHeader (m : Mach) (ag : Agent) (write : Bool) (addr n : Nat) : Nat :=
  let a := addr % 0x4000
  let as := spanOf a n
  if addr % 4 ≠ 0 || !implemented a then 7
  else if write && kindOf addr ≠ .direct && !as.all aliasOk then 13
  else if write && (match ag with
      | .port p => m.authLacks p as
      | _ => false) then 9
  else if write && (match ag with
      | .port p => m.semRefuses p as
      | _ => false) then 5
  else if m.accessCode (blockOf a) as ≠ 0 then m.accessCode (blockOf a) as
  else if write && as.any holdsP && (m.busy || decide (1 < (as.filter holdsP).length)) then 4
  else 0

/-- A GO field written 1 in the FOSC cycle whose hardware clear ended its operation reads 1 again, and a new operation starts (R105). -/
def Mach.goAgain (m : Mach) (x : Absorbed) : Mach :=
  let ag := match x.byPort with
    | some p => Agent.port p
    | none => .core
  let w := m.reg x.addr
  if x.at_ ≠ m.clk.now || w &&& x.word ≠ 0 || m.regRefuse ag x.addr w w x.word ≠ 0 then m
  else (m.regDone ag x.addr w w x.word).2

/-- The end of a FOSC cycle: the operations that R105 starts anew. -/
def Mach.goesAgain (m : Mach) : Mach :=
  m.regs.absorbed.foldl Mach.goAgain { m with regs := { m.regs with absorbed := [] } }

/-! ### Frames of words -/

/-- The words of a write frame in address order: the first refused word with its code, and whether the range or a window ended
(R137, R140 to R142, R147). -/
def Mach.writeRun (m : Mach) (ag : Agent) (k : AccessKind) (stay : Bool) (last a : Nat) :
    List Word → Option (Nat × Nat) × Bool × Mach
  | [] => (none, false, m)
  | w :: ws =>
    let (c, n) := if a ≤ last then m.busWrite ag k a w else (8, m)
    let (r, e, o) := n.writeRun ag k stay last (if stay then a else a + 4) ws
    (if c = 0 ∨ c = 8 then r else some (c, a + kindBits k), decide (c = 8) || e, o)

/-- The status of a frame whose header passed, and the address that `ACC_x_LAST` shows (R147, R148). -/
def runCode (start : Nat) (r : Option (Nat × Nat)) (e : Bool) : Nat × Nat :=
  match r with
  | some (c, a) => (c, a)
  | none => (if e then 8 else 0, start)

/-- CLOCK_GATE (R131): a block of an ON domain gates its clock, at least 100 µs after its last access.
Log entry 20 (DEDUCED, unsafe). -/
def Mach.clockGate (m : Mach) (b : Nat) : Mach :=
  let held := match m.regs.lastAccess.find? (fun p => p.1 == b) with
    | some (_, t) => decide (m.clk.now < t + microsUp 100)
    | none => false
  if held || m.isGated b || !m.on (blockDomain b) then m
  else { m with regs := { m.regs with gated := m.regs.gated ++ [b] } }

/-- A read of `n` words by an agent (R136, R138, R145): the code and the words. -/
def Mach.regRead (m : Mach) (ag : Agent) (addr n : Nat) : Nat × List Word × Mach :=
  let a := addr % 0x4000
  let c := m.regHeader ag false addr n
  if c ≠ 0 then (c, List.replicate n 0, m.noteAccess ag c addr)
  else
    let (ws, e, m) := (m.touch (blockOf a)).readRun ag (windowOf a).isSome (lastOf a) a n
    let c := if e then 8 else 0
    (c, ws, m.noteAccess ag c addr)

/-- The words of a write whose header passed, and its status. -/
def Mach.regApply (m : Mach) (ag : Agent) (addr : Nat) (ws : List Word) : Nat × Mach :=
  let a := addr % 0x4000
  let (r, e, m) := (m.touch (blockOf a)).writeRun ag (kindOf addr) (windowOf a).isSome (lastOf a) a ws
  let (c, at_) := runCode addr r e
  (c, m.noteAccess ag c at_)

/-- A write of words by an agent (R137, R145 to R148): the code. -/
def Mach.regWrite (m : Mach) (ag : Agent) (addr : Nat) (ws : List Word) : Nat × Mach :=
  match m.regHeader ag true addr ws.length with
  | 0 => m.regApply ag addr ws
  | c => (c, m.noteAccess ag c addr)

/-- A port answers: the part is up, D5 is ON, its pins have their supply (R57) and it is not under test (R698).
Log entries 11 (DEDUCED, safe), 35 (DEDUCED, unsafe). -/
def Mach.portUp (m : Mach) (p : Port) : Bool := m.clk.life == .up && m.on 5 && m.clk.vio && !m.portTested p

/-! ### Writes from a port -/

/-- A word that a port held for a gated block is applied (R133): its code. A condition of rows 5 to 8 of R145 that has arisen since
its frame's header refuses it (R166).
Log entry 16 (DEDUCED, unsafe). -/
def Mach.applyWord (m : Mach) (p : Port) (h : Nat × Word) : Nat × Mach :=
  let a := h.1 % 0x4000
  if m.semRefuses p [a] then (5, m)
  else if m.accessCode (blockOf a) [a] ≠ 0 then (m.accessCode (blockOf a) [a], m)
  else if holdsP a && m.busy then (4, m)
  else (m.touch (blockOf a)).busWrite (.port p) (kindOf h.1) a h.2

/-- Held words applied in order: the first refused one with its code. -/
def Mach.applyWords (m : Mach) (p : Port) : List (Nat × Word) → Option (Nat × Nat) × Mach
  | [] => (none, m)
  | h :: hs =>
    let (c, n) := m.applyWord p h
    let (r, o) := n.applyWords p hs
    (if c = 0 ∨ c = 8 then r else some (c, h.1), o)

/-- The words that a port holds for a gated block are applied, in order (R133). A refusal is noted as its frame's (R147, R148, R166).
Log entry 21 (DEDUCED, unsafe). -/
def Mach.applyHeld (m : Mach) (p : Port) : Mach :=
  match (m.port p).held with
  | [] => m
  | hs =>
    match (m.updPort p (fun s => { s with held := [] })).applyWords p hs with
    | (none, m) => m
    | (some (c, a), m) => (m.noteAccess (.port p) c a).updPort p (fun s => { s with last := c })

/-- A write to a gated block, whose header passed: the port holds its words, and the frame's status is what they would give now
(R133).
Log entry 21 (DEDUCED, unsafe). -/
def Mach.regHold (m : Mach) (p : Port) (addr : Nat) (ws : List Word) : Nat × Mach :=
  let a := addr % 0x4000
  let (r, e, _) := m.writeRun (.port p) (kindOf addr) (windowOf a).isSome (lastOf a) a ws
  let (c, at_) := runCode addr r e
  let as := if (windowOf a).isSome then ws.map (fun w => (addr, w))
    else (ws.zipIdx.map (fun x => (addr + 4 * x.2, x.1))).filter (fun x => decide (x.1 % 0x4000 ≤ lastOf a))
  (c, (m.updPort p (fun s => { s with held := as })).noteAccess (.port p) c at_)

/-- A write frame of a port past its framing (R133, R137, R145 to R148): the code.
Log entry 16 (DEDUCED, unsafe). -/
def Mach.portWrite (m : Mach) (p : Port) (addr : Nat) (ws : List Word) : Nat × Mach :=
  match m.regHeader (.port p) true addr ws.length with
  | 0 => if m.isGated (blockOf (addr % 0x4000)) then m.regHold p addr ws else m.regApply (.port p) addr ws
  | c => (c, m.noteAccess (.port p) c addr)

/-- The status of a write-class frame (R169), and the lease restarted (R204).
Log entry 24 (DEDUCED, unsafe). -/
def Mach.frameDone (m : Mach) (p : Port) (code : Nat) : Mach :=
  m.updPort p (fun s => { s with last := code, lastAt := some m.clk.now, wcnt := s.wcnt + 1, leaseSince := some m.clk.now, baudOff := false })

/-- A command that names one register word: from a port a write frame of one word, from the command core or the event engine a
write of its own (R202).
Log entry 16 (DEDUCED, unsafe). -/
def Mach.oneWrite (m : Mach) (ag : Agent) (k : AccessKind) (a : Nat) (w : Word) : Mach :=
  match ag with
  | .port p =>
    if m.portUp p then
      let (c, n) := (m.applyHeld p).portWrite p (a + kindBits k) [w]
      n.frameDone p c
    else m
  | _ => if m.clk.life == .up then (m.regWrite ag (a + kindBits k) [w]).2 else m

end Sys2Proof.Machine
end

