-- ==== Sys2Proof/Machine/Reply.lean ====
section
/-! DEFINITION. The reply buffer of a port (R172, R231 to R240): lines that enter it, wait for room, or are lost, and the end of a
command. -/

namespace Sys2Proof.Machine

/-! ### Text -/

/-- The decimal digits of a number, before those already found; the first argument bounds their number. -/
def decDigits : Nat → Nat → List Byte → List Byte
  | 0, _, ds => ds
  | k + 1, n, ds =>
    let ds := BitVec.ofNat 8 (48 + n % 10) :: ds
    if n < 10 then ds else decDigits k (n / 10) ds

/-- A number below 10^40 in decimal. -/
def decText (n : Nat) : List Byte := decDigits 40 n []

/-- One hexadecimal digit, upper case. -/
def hexDigit (d : Nat) : Byte := BitVec.ofNat 8 (if d < 10 then 48 + d else 55 + d)

/-- The low `n` hexadecimal digits of a number. -/
def hexText (n v : Nat) : List Byte := (List.range n).map (fun i => hexDigit (v / 16 ^ (n - 1 - i) % 16))

/-- A code's name (R149). -/
def codeName (c : Nat) : String :=
  (["OK", "DOMAIN_OFF", "NOT_READY", "LOCKED", "BUSY", "SEM_HELD", "ENGINE_RUNNING", "NO_REGISTER", "END", "AUTH_REQUIRED", "WORN",
    "CRC_FAIL", "FRAME", "ALIAS_NOT_ALLOWED", "SELFTEST", "CASTLE_BUSY", "SYNTAX", "RANGE", "REFUSED"] : List String).getD c ""

/-- A final line (R232). -/
def finalText (c : Nat) : List Byte :=
  if c = 0 then ascii "ok" else ascii "err " ++ decText c ++ ascii " " ++ ascii (codeName c)

/-- A reply line as it enters the buffer: the checksum suffix of R231 where it is owed, and CR LF (R232). -/
def replyLine (checksum : Bool) (text : List Byte) : List Byte :=
  text ++ (if checksum then ascii " *" ++ hexText 2 (crc8 text).toNat else []) ++ [13, 10]

/-! ### The buffer -/

/-- The bytes of the reply buffer that anything but a final or `lost` line may use (R235).
Log entry 55 (DEDUCED, unsafe). -/
def dataRoom : Nat := 2000

/-- The size of the reply buffer (R172).
Log entry 55 (DEDUCED, unsafe). -/
def replyRoom : Nat := 2048

/-- The data lines that find room, in order, and those that wait (R235). -/
def fillReply (buf : List Byte) : List (List Byte) → List Byte × List (List Byte)
  | [] => (buf, [])
  | l :: ls => if buf.length + l.length ≤ dataRoom then fillReply (buf ++ l) ls else (buf, l :: ls)

/-- Echo and prompt bytes (R237 to R239): sent in the async personality alone; they leave the 48 bytes
of R235 free, and a buffer without room for them takes none.
Log entry 37 (DEDUCED, unsafe). -/
def PortState.typed (s : PortState) (on : Bool) (bs : List Byte) : PortState :=
  if s.async && on && decide (s.reply.length + bs.length ≤ dataRoom) then { s with reply := s.reply ++ bs } else s

/-- A command ends: its final line enters the buffer and `REPLY` is set (R211), or its reply is discarded (R186); its
semaphores are released (R203); the prompt follows (R237).
Log entry 31 (DEDUCED, unsafe). -/
def Mach.endCommand (m : Mach) (p : Port) (final : List Byte) : Mach :=
  let dropped := (m.port p).dropReply
  let m := m.updPort p (fun s =>
    let s := { s with executing := none, semsCmd := 0, dropReply := false }
    if dropped then s
    else
      let s := { s with reply := s.reply ++ final, finalLeft := s.reply.length + final.length }
      s.typed s.prompt (ascii "> "))
  if dropped then m else m.intBit p 0

/-- A command whose action is over: its reply's lines enter the buffer as they find room, then its final line (R172, R235, R236).
Log entry 55 (DEDUCED, unsafe). -/
def Mach.pump (m : Mach) (p : Port) : Mach :=
  let s := m.port p
  match s.executing with
  | some x =>
    match x.why with
    | .room since =>
      if s.dropReply then m.endCommand p []
      else
        let (buf, rest) := fillReply s.reply x.lines
        let m := m.updPort p (fun s => { s with reply := buf })
        if rest.isEmpty && decide (buf.length + x.final.length ≤ replyRoom) then m.endCommand p x.final
        else
          let t := if rest.length = x.lines.length then since else m.clk.now
          m.updPort p (fun s => { s with executing := some { x with why := .room t, lines := rest } })
    | _ => m
  | none => m

/-- A command's action is over with these data lines and this final line. -/
def Mach.answer (m : Mach) (p : Port) (checksum : Bool) (data : List (List Byte)) (final : List Byte) : Mach :=
  let x : Executing := ⟨.room m.clk.now, [], data.map (replyLine checksum), replyLine checksum final, checksum⟩
  (m.updPort p (fun s => { s with executing := some x })).pump p

/-- A command that waits for an event of the block ends with these data lines and this code. -/
def Mach.conclude (m : Mach) (p : Port) (data : List (List Byte)) (code : Nat) : Mach :=
  match (m.port p).executing with
  | some x =>
    match x.why with
    | .room _ => m
    | _ => m.answer p x.checksum data (finalText code)
  | none => m

/-- REPLY_LOST_TIMEOUT (R236): the data lines that have waited 1 s without one entering are discarded; `lost B` and the final line
follow.
Log entry 55 (DEDUCED, unsafe). -/
def Mach.replyLost (m : Mach) (p : Port) : Mach :=
  match (m.port p).executing with
  | some x =>
    match x.why with
    | .room since =>
      if x.lines.isEmpty || decide (m.clk.now < since + second) then m
      else
        let lost := replyLine x.checksum (ascii "lost " ++ decText (x.lines.map List.length).sum)
        (m.updPort p (fun s => { s with executing := some { x with lines := [], final := lost ++ x.final } })).pump p
    | _ => m
  | none => m

/-- Reply bytes taken by the host (R172, R240), and the lines that find room then.
Log entry 36 (DEDUCED, unsafe). -/
def Mach.takeReply (m : Mach) (p : Port) (n : Nat) : Mach :=
  (m.updPort p (fun s => { s with reply := s.reply.drop n, finalLeft := s.finalLeft - n })).pump p

end Sys2Proof.Machine
end

