-- ==== Sys2Proof/Machine/HostPort.lean ====
section
/-! DEFINITION. The host ports: frames (R150 to R170), streaming (R174 to R182, R722), text input (R171, R212 to R218), sessions
(R183 to R187), addressed mode (R188, R189), the async personality (R190 to R198), leases (R204). -/

namespace Sys2Proof.Machine

/-! ### Frames -/

/-- A frame or byte counted in `x_FRAMES` (R163, R164), with FRAMEERR (R211). -/
def Mach.frameErr (m : Mach) (p : Port) : Mach := (m.count (portBase p + 0x18)).intBit p 3

/-- A frame counted in `x_CRCERR` (R162, R165), with FRAMEERR (R211). -/
def Mach.crcErr (m : Mach) (p : Port) : Mach := (m.count (portBase p + 0x1C)).intBit p 3

/-- CRC-8 is on (R160, R598). -/
def Mach.crcOn (m : Mach) (p : Port) : Bool := m.onBus p || m.flag (portBase p) 1

/-- The turnaround in bits (R159, R598); none in the async personality (R195). -/
def Mach.turnBits (m : Mach) (p : Port) : Nat :=
  if (m.port p).async then 0 else if m.onBus p then 25 else m.fld (portBase p) 8 6

/-- The port was ready for an x_SEL edge `since` ticks ago (R208): not for the edge that woke it; for one that comes 150 µs later, or
later than an edge it was ready for; between these it is open when it becomes ready.
Log entry 27 (DEDUCED, unsafe). -/
def Mach.edgeTaken (m : Mach) (p : Port) (since : Nat) : Bool × Mach :=
  let s := m.port p
  let edge := m.clk.now - since
  if s.readyAt ≤ edge then (true, m)
  else if edge ≤ s.wokenAt then (false, m)
  else
    let (ok, m) := m.drawBit
    (ok, m.updPort p (fun s => if ok then { s with readyAt := edge } else { s with wokenAt := edge }))

/-- A port takes a frame: it is up and ready (R208), async with x_SEL Low (R79) and its rate known (R191), and addressed mode selects
it (R189): its own address, or 0xFF for `broadcast` frames.
Log entries 27 (DEDUCED, unsafe), 28 (DESIGN CHOICE, unsafe). -/
def Mach.takesFrame (m : Mach) (p : Port) (since : Nat) (selHigh : Bool) (abyte : Byte) (broadcast : Bool) : Bool × Mach :=
  let named := !m.addressed p || abyte.toNat = m.fld 0x2804 8 4 || (broadcast && abyte = 0xFF)
  let listens := !(m.port p).async || (m.baudRate p ≠ 0 && !selHigh)
  if !m.portUp p || !named || !listens then (false, m) else m.edgeTaken p since

/-- The bits counted in a frame (R150, R151, R153): clocked, the edges of x_SCK of the direction that CPOL and CPHA make the sampling
edge; async, the bits of its bytes (R195). -/
def Mach.bitsOf (m : Mach) (p : Port) (e : FrameEnv) : Nat :=
  if (m.port p).async then e.bits else if e.sckHigh = m.flag (portBase p) 0 then e.rises else e.falls

/-- The bytes a host drives before a frame's data, CRC aside (R155, R188). -/
def Mach.headBytes (m : Mach) (p : Port) (e : FrameEnv) (h : List Byte) : List Byte :=
  if m.addressed p then e.abyte :: h else h

/-- The bits of a header whose CRC follows it directly (R155, R164). -/
def Mach.headBits (m : Mach) (p : Port) (e : FrameEnv) (h : List Byte) : Nat :=
  8 * ((m.headBytes p e h).length + (m.crcOn p).toNat)

/-- A bit of the NL4716's part of an async frame reads back different (R198): which bit of the frame. -/
def Mach.collision (m : Mach) (p : Port) (e : FrameEnv) (h : List Byte) : Option Nat :=
  if (m.port p).async then e.collide.filter (fun c => decide (m.headBits p e h ≤ c) && decide (c < e.bits)) else none

/-- The bits of a frame up to where the NL4716 releases x_SDIO (R198), or to its end. -/
def Mach.bitsOut (m : Mach) (p : Port) (e : FrameEnv) (h : List Byte) : Nat := (m.collision p e h).getD (m.bitsOf p e)

/-- The lease restarts (R204).
Log entry 30 (DEDUCED, unsafe). -/
def Mach.leaseRestart (m : Mach) (p : Port) : Mach :=
  m.updPort p (fun s => { s with leaseSince := some m.clk.now, baudOff := false })

/-- A frame that ended before its header was whole (R164, R195): in the async personality a byte received restarts the lease
(R204).
Log entry 30 (DEDUCED, unsafe). -/
def Mach.cutShort (m : Mach) (p : Port) (e : FrameEnv) : Mach :=
  (if (m.port p).async && decide (8 ≤ e.bits) then m.leaseRestart p else m).frameErr p

/-- The status byte of a read-class frame (R158). -/
def Mach.statusByte (m : Mach) (p : Port) (code : Nat) : Byte :=
  BitVec.ofNat 8 ((m.intNow p).toNat * 128 + m.busy.toNat * 64 + (!(m.port p).reply.isEmpty).toNat * 32 + code % 32)

/-- What a port drives in the rest of a read-class frame (R155, R161, R167): status and data, CRC, then 0x5A. Only bytes whose bits
were all counted are driven whole. A collision ends it and is counted (R198). -/
def Mach.drive (m : Mach) (p : Port) (e : FrameEnv) (h : List Byte) (dev : List Byte) : Mach :=
  let dev := dev ++ (if m.crcOn p then [crc8 (m.headBytes p e h ++ dev)] else [])
  let n := (m.bitsOut p e h - (m.headBits p e h + m.turnBits p)) / 8
  let m := m.updPort p (fun s => { s with sdio := dev.take n ++ List.replicate (n - dev.length) 0x5A })
  if (m.collision p e h).isSome then m.frameErr p else m

/-- The words or bytes that leave whole after `skip` bytes of the NL4716's part (R168). -/
def Mach.leaves (m : Mach) (p : Port) (e : FrameEnv) (h : List Byte) (skip width : Nat) : Nat :=
  (m.bitsOut p e h - (m.headBits p e h + m.turnBits p + 8 * skip)) / width

/-- How a frame's header arrived: the port does not take the frame; it was cut before the header's last bit (R164); its CRC is
wrong; it is whole. -/
inductive Arrival where
  | ignored
  | cut
  | badCrc
  | whole
  deriving DecidableEq, Repr

/-- The arrival of a frame whose CRC follows its header directly. Words the port holds are applied first (R133). -/
def Mach.arrival (m : Mach) (p : Port) (e : FrameEnv) (h : List Byte) (write : Bool) : Arrival × Mach :=
  let (ok, m) := m.takesFrame p e.since e.selHigh e.abyte write
  if !ok then (.ignored, m)
  else
    let m := m.applyHeld p
    if m.bitsOf p e < m.headBits p e h then (.cut, m.cutShort p e)
    else
      let m := m.leaseRestart p
      if m.crcOn p && e.crc != crc8 (m.headBytes p e h) then (.badCrc, m.crcErr p) else (.whole, m)

/-- A read-class frame: with a whole header `serve` gives the NL4716's part and the state; a bad CRC gives the status 11 and
`zeros` zero bytes (R162). A frame that ends within its turnaround ends without error (R168): `early`. -/
def Mach.readFrame (m : Mach) (p : Port) (e : FrameEnv) (h : List Byte) (zeros : Nat) (early : Mach → Mach)
    (serve : Mach → List Byte × Mach) : Mach :=
  match m.arrival p e h false with
  | (.ignored, m) => m
  | (.cut, m) => m
  | (.badCrc, m) => m.drive p e h (m.statusByte p 11 :: List.replicate zeros 0)
  | (.whole, m) =>
    if m.bitsOf p e < m.headBits p e h + m.turnBits p then early m
    else
      let (dev, n) := serve m
      n.drive p e h dev

/-- A frame's count: 0 stands for 256 (R156). -/
def countOf (c : Byte) : Nat := if c = 0 then 256 else c.toNat

/-- The two bytes of an address. -/
def addrBytes (a : BitVec 16) : List Byte := natBytes 2 a.toNat

/-! ### Register frames -/

/-- The first word is ready by the end of the turnaround (R43, R132, R159, R196): surely so when it lasts 0.6 µs for a running block,
1.0 µs for a gated one; in a shorter one it may be.
Log entry 20 (DEDUCED, unsafe). -/
def Mach.readyInTime (m : Mach) (p : Port) (e : FrameEnv) (block : Nat) : Bool × Mach :=
  let bound := if m.isGated block then 1000 else 600
  if (m.port p).async || decide (bound ≤ e.turnNs) then (true, m) else m.drawBit

/-- A REG_READ past its framing (R136, R138, R145, R146): status and words; the words that did not leave whole have no side
effect (R168). -/
def Mach.serveRead (m : Mach) (p : Port) (e : FrameEnv) (h : List Byte) (addr n : Nat) : List Byte × Mach :=
  let a := addr % 0x4000
  let c := m.regHeader (.port p) false addr n
  if c ≠ 0 then (m.statusByte p c :: List.replicate (4 * n) 0, m.noteAccess (.port p) c addr)
  else
    let (ready, m) := m.readyInTime p e (blockOf a)
    let m := m.touch (blockOf a)
    if !ready then (m.statusByte p 2 :: List.replicate (4 * n) 0, m.noteAccess (.port p) 2 addr)
    else
      let (ws, ended, _) := m.readRun (.port p) (windowOf a).isSome (lastOf a) a n
      let (_, _, o) := m.readRun (.port p) (windowOf a).isSome (lastOf a) a (min n (m.leaves p e h 1 32))
      let c := if ended then 8 else 0
      (m.statusByte p c :: wordsBytes ws, o.noteAccess (.port p) c addr)

/-- REG_READ (R145, R155). -/
def Mach.regReadFrame (m : Mach) (p : Port) (e : FrameEnv) (addr : BitVec 16) (count : Byte) : Mach :=
  let h := 0x80 :: addrBytes addr ++ [count]
  let n := countOf count
  match m.arrival p e h false with
  | (.ignored, m) => m
  | (.cut, m) => m
  | (.badCrc, m) => (m.drive p e h (m.statusByte p 11 :: List.replicate (4 * n) 0)).noteAccess (.port p) 11 addr.toNat
  | (.whole, m) =>
    if m.bitsOf p e < m.headBits p e h + m.turnBits p then
      if m.regHeader (.port p) false addr.toNat n = 0 then m.touch (blockOf (addr.toNat % 0x4000)) else m
    else
      let (dev, n) := m.serveRead p e h addr.toNat n
      n.drive p e h dev

/-- The words of a REG_WRITE frame, and the code that its framing gives: with CRC all or none (R165), without it the whole words
(R166). An async frame that ends early is no such frame (R195).
Log entries 24 (DEDUCED, unsafe), 25 (DEDUCED, unsafe). -/
def Mach.framedWords (m : Mach) (p : Port) (e : FrameEnv) (h : List Byte) (n : Nat) (words : List Word) : Nat × List Word :=
  let head := 8 * (m.headBytes p e h).length
  let ws := words.take n
  if m.crcOn p then
    if m.bitsOf p e < head + 32 * n + 8 || ws.length < n then (12, [])
    else if e.crc != crc8 (m.headBytes p e h ++ wordsBytes ws) then (11, [])
    else (0, ws)
  else
    let k := min ws.length ((m.bitsOf p e - head) / 32)
    (if k < n && decide (head + 32 * k < m.bitsOf p e) then 12 else 0, ws.take k)

/-- A REG_WRITE frame ended before its header was whole (R164), or, in the async personality, before its last bit: then the whole frame
is discarded under R164, its words too (R195).
Log entry 25 (DEDUCED, unsafe). -/
def Mach.writeCut (m : Mach) (p : Port) (e : FrameEnv) (h : List Byte) (n : Nat) (words : List Word) : Bool :=
  let head := 8 * (m.headBytes p e h).length
  decide (m.bitsOf p e < head) || ((m.port p).async &&
    (decide (m.bitsOf p e < head + 32 * n + 8 * (m.crcOn p).toNat) || decide (words.length < n)))

/-- REG_WRITE (R137, R145, R165, R166). Its header ends with the count.
Log entries 24 (DEDUCED, unsafe), 26 (DEDUCED, unsafe). -/
def Mach.regWriteFrame (m : Mach) (p : Port) (e : FrameEnv) (addr : BitVec 16) (count : Byte) (words : List Word) : Mach :=
  let h := 0x81 :: addrBytes addr ++ [count]
  let n := countOf count
  let (ok, m) := m.takesFrame p e.since e.selHigh e.abyte true
  if !ok then m
  else
    let m := m.applyHeld p
    if m.writeCut p e h n words then (m.cutShort p e).updPort p (fun s => { s with last := 12, lastAt := none })
    else
      match m.framedWords p e h n words with
      | (11, _) => ((m.crcErr p).noteAccess (.port p) 11 addr.toNat).frameDone p 11
      | (0, ws) =>
        let c := m.regHeader (.port p) true addr.toNat n
        if c ≠ 0 then (m.noteAccess (.port p) c addr.toNat).frameDone p c
        else
          let (c, m) := m.portWrite p addr.toNat ws
          m.frameDone p c
      | (c, ws) =>
        let m := if ws.isEmpty || m.regHeader (.port p) true addr.toNat n ≠ 0 then m else (m.portWrite p addr.toNat ws).2
        ((m.frameErr p).noteAccess (.port p) c addr.toNat).frameDone p c

/-! ### Streaming -/

/-- The first checks of STREAM_READ and COMMIT (R174, rows 2 to 5 of R722); 0: none applies. -/
def Mach.streamCheck (m : Mach) (p : Port) (q : Nat) : Nat :=
  if 4 < q then 17
  else if !m.on 4 then 1
  else if m.testing 6 then 14
  else if (m.q q).banks = 0 || !m.qDrain q p then 18
  else 0

/-- The absolute word position that an offset from the read pointer names (R175, R179). -/
def Queue.posOf (s : Queue) (o : Nat) : Nat :=
  match s.unread[o / 1024]? with
  | some b => b.absPos * 1024 + o % 1024
  | .none => (s.absNext + (o / 1024 - s.unread.length)) * 1024 + o % 1024

/-- The words of a block with their absolute positions. -/
def Block.placed (b : Block) : List (Nat × Word) := b.data.zipIdx.map (fun x => (b.absPos * 1024 + x.2, x.1))

/-- The readable region's words from an absolute position on, at most `n` (R175, R177).
Log entry 32 (DEDUCED, unsafe). -/
def Queue.wordsFrom (s : Queue) (pos n : Nat) : List (Nat × Word) :=
  (((s.readable.filter (fun b => decide (pos < (b.absPos + 1) * 1024))).take (n / 1024 + 2)).flatMap Block.placed
    |>.filter (fun x => decide (pos ≤ x.1))).take n

/-- The store that is not in use starts filling (R177); what it held is gone.
Log entry 32 (DEDUCED, unsafe). -/
def PortState.startFill (s : PortState) (q pos now : Nat) : PortState :=
  let spare := !s.storeLast
  let s := if spare then { s with store1 := none } else { s with store0 := none }
  { s with fill := some ⟨spare, q, pos, now⟩ }

/-- The words of a store from an absolute position of a queue on; none where it does not hold that position. -/
def StreamStore.serve (st : StreamStore) (q pos : Nat) : Option (List Word) :=
  if st.queue = q then
    match st.words.dropWhile (fun x => x.1 != pos) with
    | [] => none
    | ws => some (ws.map Prod.snd)
  else none

/-- The store that holds a position (R178): which one, and its words from there on. -/
def PortState.storeFor (s : PortState) (q pos : Nat) : Option (Bool × List Word) :=
  match s.store0.bind (fun st => st.serve q pos) with
  | some ws => some (false, ws)
  | none => (s.store1.bind (fun st => st.serve q pos)).map (fun ws => (true, ws))

/-- A STREAM_READ past its framing (R174 to R179, R722): code and words, and the next fill. A served one tells the host where the
read pointer stands (R539).
Log entry 32 (DEDUCED, unsafe). -/
def Mach.serveStream (m : Mach) (p : Port) (q off n : Nat) : Nat × List Word × Mach :=
  let zeros := List.replicate n (0 : Word)
  let c := m.streamCheck p q
  if c ≠ 0 then (c, zeros, m)
  else
    let s := m.q q
    let refill := fun (pos : Nat) => m.updPort p (fun s => s.startFill q pos m.clk.now)
    if s.readable.length * 1024 ≤ off then (8, zeros, refill (s.posOf off))
    else
      match (m.port p).storeFor q (s.posOf off) with
      | none => (2, zeros, refill (s.posOf off))
      | some (which, ws) =>
        let m := m.updPort p (fun t =>
          { t with storeLast := which, moved := t.moved &&& ~~~(BitVec.ofNat 5 (2 ^ q)) }.startFill q (s.posOf (off + n)) m.clk.now)
        (if ws.length < n then 8 else 0, ws.take n ++ List.replicate (n - ws.length) 0, m)

/-- STREAM_READ (R155, R174 to R179, R722). -/
def Mach.streamFrame (m : Mach) (p : Port) (e : FrameEnv) (queue : Byte) (offset : BitVec 24) (count : Byte) : Mach :=
  m.readFrame p e (0x82 :: queue :: natBytes 3 offset.toNat ++ [count]) (4 * countOf count) (fun m => m) (fun m =>
    let (c, ws, n) := m.serveStream p queue.toNat offset.toNat (countOf count)
    (m.statusByte p c :: wordsBytes ws, n))

/-- FOSC cycles that a fill takes (R176). -/
def fillTicks : Nat := 12544

/-- An ECC finding in a word that a fill reads (R511).
Log entry 33 (DEDUCED, unsafe). -/
def Mach.fillFinding (m : Mach) (f : Fill) (x : EccFinding) : Mach :=
  match ((m.q f.queue).wordsFrom f.start 256)[x.word]? with
  | some (pos, _) =>
    match (m.q f.queue).unread.find? (fun b => b.absPos == pos / 1024) with
    | some b => m.eccFinding b.blockNo (pos % 1024) x.uncorrectable
    | none => m
  | none => m

/-- STORE_FILL_DONE (R176, R177, R179, R511): 12,544 cycles after a fill began its store holds what of those words is readable.
Log entries 4 (DESIGN CHOICE, unsafe), 32 (DEDUCED, unsafe), 33 (DEDUCED, unsafe). -/
def Mach.storeFillDone (m : Mach) (p : Port) (ecc : List EccFinding) : Mach :=
  match (m.port p).fill with
  | some f =>
    if m.clk.now < f.since + fillTicks || !m.on 5 then m
    else
      let m := ecc.foldl (fun m x => m.fillFinding f x) m
      let st : StreamStore := ⟨f.queue, (m.q f.queue).wordsFrom f.start 256⟩
      m.updPort p (fun s =>
        let s := { s with fill := none }
        if f.second then { s with store1 := some st } else { s with store0 := some st })
  | none => m

/-- A COMMIT past its framing (R174, R181, R182, R539, R722).
Log entry 34 (DEDUCED, unsafe). -/
def Mach.serveCommit (m : Mach) (p : Port) (q n : Nat) : Nat × Mach :=
  let c := m.streamCheck p q
  if c ≠ 0 then (c, m)
  else if (m.port p).moved.getLsbD q then (18, m)
  else if n = 0 || decide ((m.q q).readable.length < n) then (17, m)
  else (0, m.commitBlocks q n)

/-- A write-class frame without data words (R164 to R166, R169): `apply` gives its status. -/
def Mach.writeFrame (m : Mach) (p : Port) (e : FrameEnv) (h : List Byte) (apply : Mach → Nat × Mach) : Mach :=
  match m.arrival p e h true with
  | (.ignored, m) => m
  | (.cut, m) => m.updPort p (fun s => { s with last := 12, lastAt := none })
  | (.badCrc, m) => m.frameDone p 11
  | (.whole, m) =>
    let (c, m) := apply m
    m.frameDone p c

/-- COMMIT (R155, R181). -/
def Mach.commitFrame (m : Mach) (p : Port) (e : FrameEnv) (queue : Byte) (blocks : BitVec 16) : Mach :=
  m.writeFrame p e (0x85 :: queue :: natBytes 2 blocks.toNat) (fun m => m.serveCommit p queue.toNat blocks.toNat)

/-! ### Text and sessions -/

/-- TEXT_READ (R173, R197): N bytes of the reply, and padding; the bytes that left whole are taken. An N of 256 is sent as 0x00, as a
count of 256 is (R156).
Log entry 133 (DESIGN CHOICE, unsafe). -/
def Mach.textReadFrame (m : Mach) (p : Port) (e : FrameEnv) (count : Byte) : Mach :=
  let h := [0x83, count]
  let k := countOf count
  m.readFrame p e h (1 + k) (fun m => m) (fun m =>
    if (m.port p).async then (m.statusByte p 18 :: List.replicate (1 + k) 0, m)
    else
      let n := min k (m.port p).reply.length
      let dev := m.statusByte p 0 :: BitVec.ofNat 8 n :: (m.port p).reply.take n ++ List.replicate (k - n) 0
      (dev, m.takeReply p (min n (m.leaves p e h 2 8))))

/-- PORT_STATUS (R183). -/
def Mach.portStatusFrame (m : Mach) (p : Port) (e : FrameEnv) : Mach :=
  m.readFrame p e [0x84] 4 (fun m => m) (fun m => (m.statusByte p 0 :: wordBytes (m.statusWord p), m))

/-- The bit of `PWR_STAY` of a port. -/
def stayBit (p : Port) : Nat :=
  match p with
  | .a => 0
  | .b => 1

/-- A session reset (R185, R258, R650, R694): the session ends, an upgrade that the port has open with it, and its stay-awake bit is
0.
Log entry 55 (DEDUCED, unsafe). -/
def Mach.sessionEnd (m : Mach) (p : Port) : Mach :=
  ((m.endUpgrade p).updPort p PortState.endSession).setFld 0x814 (stayBit p) 1 0

/-- SESSION_RESET (R185, R186). -/
def Mach.sessionFrame (m : Mach) (p : Port) (e : FrameEnv) (confirm : Byte) : Mach :=
  m.writeFrame p e [0x86, confirm] (fun m => if confirm = 0xA5 then (0, (m.sessionEnd p).pump p) else (12, m))

/-- UNNAMED_FRAME (R163): byte 0 names no frame; in the async personality the byte is discarded (R194). In addressed mode one for 0xFF
is counted like one for the worker's own address: R189 names write-class and read-class frames only.
Log entry 28 (DESIGN CHOICE, unsafe). -/
def Mach.unnamedFrame (m : Mach) (p : Port) (e : FrameEnv) (_byte0 : Byte) : Mach :=
  let (ok, m) := m.takesFrame p e.since e.selHigh e.abyte true
  if ok then
    let m := m.applyHeld p
    (if (m.port p).async then m.leaseRestart p else m).frameErr p
  else m

/-- Byte 0 names a write-class frame (R154). -/
def writeClass (byte0 : Byte) : Bool := byte0 = 0x81 || byte0 = 0x85 || byte0 = 0x86

/-- ASYNC_FRAME_GAP (R164, R169, R195): more than 20 bit times inside the header of an async frame that `byte0` opened. -/
def Mach.frameGap (m : Mach) (p : Port) (byte0 : Byte) : Mach :=
  let (ok, m) := m.takesFrame p 0 false 0 true
  if ok && (m.port p).async && decide (0x80 ≤ byte0.toNat ∧ byte0.toNat ≤ 0x86) then
    let m := ((m.applyHeld p).leaseRestart p).frameErr p
    if writeClass byte0 then m.updPort p (fun s => { s with last := 12, lastAt := none }) else m
  else m

/-! ### Text input -/

/-- A byte of the text set (R154). -/
def isText (b : Byte) : Bool := (0x20 ≤ b.toNat && b.toNat ≤ 0x7E) || b = 0x0D || b = 0x0A || b = 0x08

/-- A line is blank (R214).
Log entry 37 (DEDUCED, unsafe). -/
def blankLine (cs : List Byte) : Bool :=
  match cs.dropWhile (fun b => b = 0x20) with
  | [] => true
  | c :: _ => c = 0x23

/-- A terminator ends the line (R214, R216, R218); its echo and the prompt of a blank line follow (R237).
Log entry 37 (DEDUCED, unsafe). -/
def PortState.endLine (s : PortState) (cr : Bool) (now : Nat) : PortState :=
  let s := { s with lastCR := cr }.typed s.echo [13, 10]
  let cleared := { s with line := [], tooLong := false }
  if !s.tooLong && blankLine s.line then cleared.typed s.prompt (ascii "> ")
  else { cleared with waiting := some ⟨s.line, s.tooLong, now⟩ }

/-- A byte that is no terminator enters the line buffer (R215, R216, R237).
Log entry 37 (DEDUCED, unsafe). -/
def PortState.lineByte (s : PortState) (b : Byte) : PortState :=
  let s := { s with lastCR := false }
  if s.tooLong then s
  else if b = 8 then
    if s.line.isEmpty then s else { s with line := s.line.dropLast }.typed s.echo [8, 0x20, 8]
  else if s.line.length = 160 then { s with tooLong := true }
  else { s with line := s.line ++ [b] }.typed s.echo [b]

/-- One byte of text (R171, R212 to R218). While a line waits, it is discarded and counted, an LF after the CR apart. -/
def Mach.textByte (m : Mach) (p : Port) (b : Byte) : Mach :=
  let s := m.port p
  if b = 10 && s.lastCR then m.updPort p (fun s => { s with lastCR := false })
  else if s.waiting.isSome then (m.frameErr p).updPort p (fun s => { s with lastCR := false })
  else m.updPort p (fun s => if b = 13 || b = 10 then s.endLine (b = 13) m.clk.now else s.lineByte b)

/-- Five bit times of a CR measured as `ticks` cycles give a rate of R191, to within one cycle.
Log entry 29 (DEDUCED, unsafe). -/
def rateTaken (ticks : Nat) : Bool :=
  decide ((ticks - 1) * 9600 ≤ 5 * second ∧ 5 * second ≤ (ticks + 1) * 6000000 ∧ 0 < ticks)

/-- The rate is detected from a CR (R191). Which of the two whole rates beside an exact quotient is written is free.
Log entry 29 (DEDUCED, unsafe). -/
def Mach.detect (m : Mach) (p : Port) (ticks : Nat) : Mach :=
  let exact := 5 * second / ticks
  let (up, m) := if 5 * second % ticks = 0 then (false, m) else m.drawBit
  let rate := max 9600 (min 6000000 (exact + up.toNat))
  (m.updPort p (fun s => { s with baudSeen := true })).setFld (portBase p + 8) 0 24 rate

/-- A byte received in the async personality (R191, R194, R204): before detection only a CR counts. A discarded byte stands between a
CR and an LF, as in the clocked personality (R213).
Log entry 37 (DEDUCED, unsafe). -/
def Mach.asyncByte (m : Mach) (p : Port) (ticks : Nat) (b : Byte) : Mach :=
  if m.baudRate p = 0 then
    if b = 13 && rateTaken ticks then ((m.detect p ticks).leaseRestart p).textByte p b else m
  else
    let m := m.leaseRestart p
    if isText b then m.textByte p b else (m.frameErr p).updPort p (fun s => { s with lastCR := false })

/-- The bytes of a clocked text frame (R171): a byte outside the text set discards the rest. The Bool: none was. As in the async
personality, a discarded byte stands between a CR and an LF, so that the LF does not follow the CR immediately (R213).
Log entry 37 (DEDUCED, unsafe). -/
def Mach.textBytes (m : Mach) (p : Port) : List Byte → Bool × Mach
  | [] => (true, m)
  | b :: bs => if isText b then (m.textByte p b).textBytes p bs
      else (false, (m.frameErr p).updPort p (fun s => { s with lastCR := false }))

/-- How many bytes the host drives in the binary frame that begins a list (R155), without its CRC, and how many the NL4716 drives after
them, without its own. -/
def frameSpan (bs : List Byte) : Nat × Nat :=
  let at_ := fun (i : Nat) => countOf (bs.getD i 0)
  match (bs.headD 0).toNat with
  | 0x80 => (4, 1 + 4 * at_ 3)
  | 0x81 => (4 + (if bs.length < 4 then 0 else 4 * at_ 3), 0)
  | 0x82 => (6, 1 + 4 * at_ 5)
  | 0x83 => (2, 2 + at_ 1)
  | 0x84 => (1, 5)
  | 0x85 => (4, 0)
  | _ => (2, 0)

/-- The binary frame that async bytes spell, from byte 0 on (R194, R195): `bs` its host bytes, fewer where it is cut.
Log entry 37 (DEDUCED, unsafe). -/
def Mach.asyncFrame (m : Mach) (p : Port) (e : FrameEnv) (bs : List Byte) : Mach :=
  let b := fun (i : Nat) => bs.getD i 0
  let two := fun (i : Nat) => BitVec.ofNat 16 (bytesNat [b i, b (i + 1)])
  match (b 0).toNat with
  | 0x80 => m.regReadFrame p e (two 1) (b 3)
  | 0x81 => m.regWriteFrame p e (two 1) (b 3) (bytesWords (((bs.drop 4).take (4 * countOf (b 3)))))
  | 0x82 => m.streamFrame p e (b 1) (BitVec.ofNat 24 (bytesNat [b 2, b 3, b 4])) (b 5)
  | 0x83 => m.textReadFrame p e (b 1)
  | 0x84 => m.portStatusFrame p e
  | 0x85 => m.commitFrame p e (b 1) (two 2)
  | _ => m.sessionFrame p e (b 1)

/-- Bytes received in the async personality, at most `k` frames and bytes of them (R194): a byte 0x80 to 0x86 opens a binary frame,
which the NL4716 answers at once; the others are text or discarded. -/
def Mach.asyncBytes (m : Mach) (p : Port) (e : TextEnv) : Nat → List Byte → Mach
  | 0, _ => m
  | _, [] => m
  | k + 1, b :: bs =>
    if m.baudRate p ≠ 0 && decide (0x80 ≤ b.toNat ∧ b.toNat ≤ 0x86) then
      let (host, dev) := frameSpan (b :: bs)
      let crc := (m.crcOn p).toNat
      let mine := (b :: bs).take (host + crc)
      let bits := 8 * mine.length + (if mine.length = host + crc && dev ≠ 0 then 8 * (dev + crc) else 0)
      let env : FrameEnv := ⟨0, 0, mine.getD host 0, false, 0, 0, 0, false, bits, none⟩
      (m.asyncFrame p env mine).asyncBytes p e k (bs.drop (host + crc - 1))
    else (m.asyncByte p e.fiveBitTicks b).asyncBytes p e k bs

/-- TEXT_INPUT (R79, R171, R190, R194). In addressed mode only the worker's own address is certain to reach it: what 0xFF does to text
is free. Text that begins before the port is surely ready is taken or not as a frame is (R208).
Log entries 27 (DEDUCED, unsafe), 28 (DESIGN CHOICE, unsafe). -/
def Mach.textInput (m : Mach) (p : Port) (e : TextEnv) (bytes : List Byte) : Mach :=
  if (m.port p).async then
    if m.portUp p && !e.selHigh then
      let (ok, m) := m.edgeTaken p e.since
      if ok then
        let m := m.asyncBytes p e bytes.length bytes
        if e.partialBits = 0 || m.baudRate p = 0 then m else m.frameErr p
      else m
    else m
  else
    let (open_, m) := if m.addressed p && e.abyte = 0xFF then m.drawBit else (true, m)
    let (ok, m) := m.takesFrame p e.since e.selHigh e.abyte open_
    if !ok then m
    else
      let m := m.applyHeld p
      let m := if bytes.isEmpty then m else m.leaseRestart p
      let (clean, m) := m.textBytes p bytes
      if clean && e.partialBits ≠ 0 then m.frameErr p else m

/-! ### The async personality -/

/-- BREAK (R192): SDIO low for 20 bit times, or for 2.5 ms before detection, restarts the detection of the rate. -/
def Mach.breakLow (m : Mach) (p : Port) (ticks : Nat) : Mach :=
  let rate := m.baudRate p
  let long := if rate = 0 then decide (25 * second ≤ ticks * 10000) else decide (20 * second ≤ ticks * rate)
  if m.portUp p && (m.port p).async && long then
    let m := m.updPort p (fun s => { s with baudSeen := false })
    m.setFld (portBase p + 8) 0 24 0
  else m

/-- REPLY_BYTE_SEND (R197, R198): the first reply byte leaves after 2 bit times of idle; one that reads back different stays.
Log entry 36 (DEDUCED, unsafe). -/
def Mach.replySend (m : Mach) (p : Port) (idle : Nat) (readBack : Byte) : Mach :=
  let s := m.port p
  match s.reply with
  | [] => m
  | b :: _ =>
    if !m.portUp p || !s.async || m.baudRate p = 0 || decide (idle * m.baudRate p < 2 * second) then m
    else if readBack = b then (m.updPort p (fun s => { s with sdio := [b] })).takeReply p 1
    else m.frameErr p

/-! ### Leases and pacing -/

/-- LEASE_EXPIRY (R204): the port's lease has run out; an executing command keeps its semaphores.
Log entries 4 (DESIGN CHOICE, unsafe), 30 (DEDUCED, unsafe). -/
def Mach.leaseExpiry (m : Mach) (p : Port) : Mach :=
  let lease := m.fld (portBase p) 16 6
  match (m.port p).leaseSince with
  | some t =>
    if lease = 0 || decide (m.clk.now < t + lease * second) then m
    else (m.updPort p (fun s => { s with sems := 0, leaseSince := none })).intBit p 2
  | none => m

/-- GATED_WRITE_APPLY (R133).
Log entry 21 (DEDUCED, unsafe). -/
def Mach.gatedWriteApply (m : Mach) (p : Port) : Mach := m.applyHeld p

/-! ### Single rows on windows -/

/-- DATA_WINDOW_ACCESS (R140 to R143): a word written, or read, through the data register of a window; a port's read drives the
status and the word. -/
def Mach.windowAccess (m : Mach) (ag : Agent) (addr : Nat) (w : Option Word) : Mach :=
  if (windowOf (addr % 0x4000)).isNone then m
  else match w with
    | some w => m.oneWrite ag (kindOf addr) (addr % 0x4000) w
    | none =>
      match ag with
      | .port p =>
        if m.portUp p then
          let (c, ws, m) := (m.applyHeld p).regRead ag addr 1
          (m.leaseRestart p).updPort p (fun s => { s with sdio := m.statusByte p c :: wordsBytes ws })
        else m
      | _ => if m.clk.life == .up then (m.regRead ag addr 1).2.2 else m

end Sys2Proof.Machine
end

