-- ==== Sys2Proof/Machine/RowsAux.lean ====
section
/-! DEFINITION. The rows of the auxiliary sensor front end and of DAMPER (R386 to R429). Each row's effect is an operation of the block on
the state; the waiting commands stay as they are. -/

namespace Sys2Proof.Machine

/-- AUX_CONVERSION (R387). At a conversion instant a channel's linearised value is delivered to its chain. -/
def execAuxConversion (n : Fin 8) (m : AuxInput) (s : State) : Host.Outcome State Fault Refusal :=
  goOn s (s.m.auxConversion n.val m)

/-- CHECK_SLOT (R400). A check slot applies the burn-out current and reads the break comparator at its end. -/
def execCheckSlot (n : Fin 8) (s : State) : Host.Outcome State Fault Refusal :=
  goOn s (s.m.checkSlot n.val)

/-- BREAK_COMPARATOR (R401). A channel's break comparator trips or releases. -/
def execBreakComparator (n : Fin 8) (v : BreakInput) (s : State) : Host.Outcome State Fault Refusal :=
  goOn s (s.m.breakComparator n.val v.diffUv v.ticks)

/-- EXCITATION_CHANGE (R397). At the next frame start an excitation change applies, skipping conversions and restarting the affected chains. -/
def execExcitationChange (s : State) : Host.Outcome State Fault Refusal :=
  goOn s (s.m.excApply)

/-- EXC_FAULT (R398). VEXC load current above the limit for 1 ms switches VEXC off and sets EXCFLT. -/
def execExcFault (ticks : Nat) (s : State) : Host.Outcome State Fault Refusal :=
  goOn s (s.m.excFaultAt ticks)

/-- LEAD_CAL (R412). A write of AUX_LCAL with GO starts a lead calibration of a channel. -/
def execLeadCal (ag : Agent) (kind : AccessKind) (w : Word) (s : State) : Host.Outcome State Fault Refusal :=
  goOn s (s.m.oneWrite ag kind 0x1A0C w)

/-- LEAD_CAL_DONE (R412). After 16 usable conversions R_lead is written persistently, GO clears and LCALDONE is set. -/
def execLeadCalDone (s : State) : Host.Outcome State Fault Refusal :=
  goOn s (s.m.leadDone)

/-- LEAD_CAL_TIMEOUT (R412). 16 usable conversions do not arrive within 10 s, GO clears and LCALFAIL is set. -/
def execLeadCalTimeout (s : State) : Host.Outcome State Fault Refusal :=
  goOn s (s.m.leadTimeout)

/-- DAMPER_EDGE (R417). An accepted DAMPER edge asserts or releases blanking, or acts as a wake source. -/
def execDamperEdge (level : Bool) (ticks : Nat) (s : State) : Host.Outcome State Fault Refusal :=
  goOn s (s.m.damperInput level ticks)

/-- DAMPER_STUCK (R425). DAMPER asserted for 100 ms sets DAMPER_STUCK and may count as a release. -/
def execDamperStuck (s : State) : Host.Outcome State Fault Refusal :=
  goOn s (s.m.damperStuck)

/-- PULSED_VEXC (R395). In pulsed mode VEXC switches on t_s before a scheduled window of an excited channel and off at the window end, bridging gaps under 20 µs. -/
def execPulsedVexc (on : Bool) (s : State) : Host.Outcome State Fault Refusal :=
  goOn s (s.m.pulsedVexc on)

end Sys2Proof.Machine
end

