-- ==== Sys2Proof/Machine/RowsBuffer.lean ====
section
/-! DEFINITION. The rows of the deep buffer (R510 to R556): closes, policies, captures, banks. Each row's effect is an operation of the block on
the state; the waiting commands stay as they are. -/

namespace Sys2Proof.Machine

/-- The first block of a list that is not readable becomes so. -/
def firstReadable : List Block → List Block
  | [] => []
  | b :: bs => if b.readable then b :: firstReadable bs else { b with readable := true } :: bs

/-- BLOCK_READABLE (R18): the security engine has written digest, MAC and CRC-32 of the oldest closed block without them. -/
def Mach.blockReadable (m : Mach) (q : Nat) : Mach :=
  if m.taking then m.updQ q (fun s => { s with unread := firstReadable s.unread }) else m

/-- OVERWRITE_RUN_END (R547): a run of discards that is 1 s old is declared; one that goes on continues in a new record. -/
def Mach.overwriteEnd (m : Mach) (q : Nat) : Mach :=
  match (m.q q).discRun with
  | some d => if d.since + second ≤ m.clk.now then m.endRun q else m
  | none => m

/-- BLOCK_TIMEOUT (R528). An open block whose age reaches Qn_CFG.TMO closes. -/
def execBlockTimeout (q : Fin 4) (s : State) : Host.Outcome State Fault Refusal :=
  goOn s (s.m.blockTimeout q.val)

/-- BLOCK_READABLE (R18). The security engine writes digest, MAC and CRC-32 and the block becomes readable. -/
def execBlockReadable (q : Fin 4) (s : State) : Host.Outcome State Fault Refusal :=
  goOn s (s.m.blockReadable q.val)

/-- APPLY (R531). A write of 1 to BUF_CTRL.APPLY applies the bank allocation or is refused. -/
def execApply (ag : Agent) (kind : AccessKind) (w : Word) (s : State) : Host.Outcome State Fault Refusal :=
  goOn s (s.m.oneWrite ag kind 0x1C00 w)

/-- QUEUE_POLICY_WRITE (R538). A write of POLICY changes a queue's policy and state in the cycle of the write. -/
def execQueuePolicyWrite (ag : Agent) (kind : AccessKind) (q : Fin 5) (w : Word) (s : State) : Host.Outcome State Fault Refusal :=
  goOn s (s.m.oneWrite ag kind (qBase q.val) w)

/-- TRIG (R535). A capture trigger reaches an ARMED queue, which enters CAPTURING. -/
def execTrig (ag : Agent) (kind : AccessKind) (q : Fin 5) (w : Word) (s : State) : Host.Outcome State Fault Refusal :=
  goOn s (s.m.oneWrite ag kind (qBase q.val + 0xC) w)

/-- REARM (R537). A write of 1 to Qn_CTRL.REARM discards unread blocks and re-enters ARMED. -/
def execRearm (ag : Agent) (kind : AccessKind) (q : Fin 5) (w : Word) (s : State) : Host.Outcome State Fault Refusal :=
  goOn s (s.m.oneWrite ag kind (qBase q.val + 0xC) w)

/-- OVERWRITE_RUN_END (R547). An OVERWRITE run ends, or reaches 1 s, and its gap record is written. -/
def execOverwriteRunEnd (q : Fin 5) (s : State) : Host.Outcome State Fault Refusal :=
  goOn s (s.m.overwriteEnd q.val)

/-- RETENTION_DIP (R550). A bank's retention supply dips below its retention level while D4 is in RETAIN, and its retention monitor latches. -/
def execRetentionDip (bank : Fin 128) (s : State) : Host.Outcome State Fault Refusal :=
  goOn s (s.m.retentionDip bank.val)

end Sys2Proof.Machine
end

