-- ==== Sys2Proof/Machine/RowsEngine.lean ====
section
/-! DEFINITION. The rows of the I/O engines (R558 to R595). Each row's effect is an operation of the block on
the state; the waiting commands stay as they are. -/

namespace Sys2Proof.Machine

/-- ENGINE_TICK (R560). At each tick the context whose turn it is executes at most one instruction. -/
def execEngineTick (n : Fin 4) (levels : BitVec 16) (s : State) : Host.Outcome State Fault Refusal :=
  goOn s (s.m.engineTick n.val levels)

/-- ENG_JMP (R572). The JMP instruction jumps when its condition holds. -/
def execEngJmp (n : Fin 4) (c : Fin 8) (levels : BitVec 16) (s : State) : Host.Outcome State Fault Refusal :=
  goOn s (s.m.turnOf n.val c.val 0 levels)

/-- DJNZ (R572). The DJNZ instruction decrements CA or CB and jumps when not 0. -/
def execDjnz (n : Fin 4) (c : Fin 8) (levels : BitVec 16) (s : State) : Host.Outcome State Fault Refusal :=
  goOn s (s.m.turnOf n.val c.val 1 levels)

/-- ENG_SET (R572). The SET instruction changes pin latches, a count register or shared flags. -/
def execEngSet (n : Fin 4) (c : Fin 8) (levels : BitVec 16) (s : State) : Host.Outcome State Fault Refusal :=
  goOn s (s.m.turnOf n.val c.val 2 levels)

/-- DELAY (R574). The DELAY instruction starts a delay of COUNT ticks. -/
def execDelay (n : Fin 4) (c : Fin 8) (levels : BitVec 16) (s : State) : Host.Outcome State Fault Refusal :=
  goOn s (s.m.turnOf n.val c.val 3 levels)

/-- WAITPIN (R574). The WAITPIN instruction waits until pins match or differ from a value. -/
def execWaitpin (n : Fin 4) (c : Fin 8) (levels : BitVec 16) (s : State) : Host.Outcome State Fault Refusal :=
  goOn s (s.m.turnOf n.val c.val 4 levels)

/-- WAITFLAG (R574). The WAITFLAG instruction waits for a shared flag level. -/
def execWaitflag (n : Fin 4) (c : Fin 8) (levels : BitVec 16) (s : State) : Host.Outcome State Fault Refusal :=
  goOn s (s.m.turnOf n.val c.val 5 levels)

/-- WAITIRQ (R579). The WAITIRQ instruction waits for and consumes the engine's interrupt latch. -/
def execWaitirq (n : Fin 4) (c : Fin 8) (levels : BitVec 16) (s : State) : Host.Outcome State Fault Refusal :=
  goOn s (s.m.turnOf n.val c.val 6 levels)

/-- SHIFTOUT (R573). The SHIFTOUT instruction starts shifting N bits of SH out on a data pin. -/
def execShiftout (n : Fin 4) (c : Fin 8) (levels : BitVec 16) (s : State) : Host.Outcome State Fault Refusal :=
  goOn s (s.m.turnOf n.val c.val 7 levels)

/-- SHIFTIN (R573). The SHIFTIN instruction starts shifting N bits from a data pin into SH. -/
def execShiftin (n : Fin 4) (c : Fin 8) (levels : BitVec 16) (s : State) : Host.Outcome State Fault Refusal :=
  goOn s (s.m.turnOf n.val c.val 8 levels)

/-- PULL (R576). The PULL instruction copies TXD into its destination and clears TXF, or waits. -/
def execPull (n : Fin 4) (c : Fin 8) (levels : BitVec 16) (s : State) : Host.Outcome State Fault Refusal :=
  goOn s (s.m.turnOf n.val c.val 9 levels)

/-- PUSH (R577). The PUSH instruction copies its source into RXD and sets RXF, or waits. -/
def execPush (n : Fin 4) (c : Fin 8) (levels : BitVec 16) (s : State) : Host.Outcome State Fault Refusal :=
  goOn s (s.m.turnOf n.val c.val 10 levels)

/-- IRQ (R579). The IRQ instruction sets interrupt latches of named engines and optionally the host IRQ bit. -/
def execIrq (n : Fin 4) (c : Fin 8) (levels : BitVec 16) (s : State) : Host.Outcome State Fault Refusal :=
  goOn s (s.m.turnOf n.val c.val 11 levels)

/-- DELAY_END (R574). A delay ends COUNT ticks after it began. -/
def execDelayEnd (n : Fin 4) (c : Fin 8) (levels : BitVec 16) (s : State) : Host.Outcome State Fault Refusal :=
  goOn s (s.m.opEnd n.val c.val false levels)

/-- SHIFT_END (R573). A shift ends after its N bits. -/
def execShiftEnd (n : Fin 4) (c : Fin 8) (levels : BitVec 16) (s : State) : Host.Outcome State Fault Refusal :=
  goOn s (s.m.opEnd n.val c.val true levels)

/-- ENG_START (R582). A write starts the named engines on the next FOSC edge. -/
def execEngStart (ag : Agent) (kind : AccessKind) (w : Word) (s : State) : Host.Outcome State Fault Refusal :=
  goOn s (s.m.oneWrite ag kind 0x2708 w)

/-- ENG_STOP (R583). A write stops the named engines at their next tick. -/
def execEngStop (ag : Agent) (kind : AccessKind) (w : Word) (s : State) : Host.Outcome State Fault Refusal :=
  goOn s (s.m.oneWrite ag kind 0x270C w)

/-- ENG_RESUME (R584). A write resumes the named engines, or is refused when RESOK is 0. -/
def execEngResume (ag : Agent) (kind : AccessKind) (w : Word) (s : State) : Host.Outcome State Fault Refusal :=
  goOn s (s.m.oneWrite ag kind 0x2710 w)

/-- ENG_IRQ (R579). A write sets the named engines' interrupt latches. -/
def execEngIrq (ag : Agent) (kind : AccessKind) (w : Word) (s : State) : Host.Outcome State Fault Refusal :=
  goOn s (s.m.oneWrite ag kind 0x2714 w)

/-- ENG_RXACK (R578). A write clears RXF of the named contexts. -/
def execEngRxack (ag : Agent) (kind : AccessKind) (w : Word) (s : State) : Host.Outcome State Fault Refusal :=
  goOn s (s.m.oneWrite ag kind 0x271C w)

/-- TXD (R575). A write to a context's TXD stores the word and sets TXF, or is refused while TXF is 1. -/
def execTxd (ag : Agent) (kind : AccessKind) (n : Fin 4) (c : Fin 8) (w : Word) (s : State) : Host.Outcome State Fault Refusal :=
  goOn s (s.m.oneWrite ag kind (0x2680 + 32 * n.val + 4 * c.val) w)

/-- ENG_PIN (R567). A write to ENG_PINp sets the pin's owner and mode and loads its latches. -/
def execEngPin (ag : Agent) (kind : AccessKind) (pin : Fin 16) (w : Word) (s : State) : Host.Outcome State Fault Refusal :=
  goOn s (s.m.oneWrite ag kind (pinAddr pin.val) w)

end Sys2Proof.Machine
end

