-- ==== Sys2Proof/Machine/RowsEvent.lean ====
section
/-! DEFINITION. The rows of the event engine (R431 to R478) and of the records that wait for Q3 (R28). Each row's effect is an operation of the block on
the state; the waiting commands stay as they are. -/

namespace Sys2Proof.Machine

/-- HELD_RECORDS_WRITE (R28). When D4 and D7 are next both ON, pending buffer records and held event records are written into Q3 in order. -/
def execHeldRecordsWrite (s : State) : Host.Outcome State Fault Refusal :=
  goOn s (s.m.flushHeld)

/-- SM_TIMER_EXPIRY (R464). A machine timer expires, ending a TIME wait or timing out a wait with C = 0. -/
def execSmTimerExpiry (n : Fin 16) (timer : Fin 2) (s : State) : Host.Outcome State Fault Refusal :=
  goOn s ((s.m.smExpire n.val (timer.val = 1)).eventWake)

/-- SM_STOP (R461). The STOP instruction puts the machine in STOPPED. -/
def execSmStop (n : Fin 16) (s : State) : Host.Outcome State Fault Refusal :=
  goOn s ((s.m.smTurn n.val 0).eventWake)

/-- SM_WAITC (R462). The WAITC instruction begins waiting on the machine's source. -/
def execSmWaitc (n : Fin 16) (s : State) : Host.Outcome State Fault Refusal :=
  goOn s ((s.m.smTurn n.val 1).eventWake)

/-- SM_WAITE (R463). The WAITE instruction begins waiting for a recogniser decision or guard record. -/
def execSmWaite (n : Fin 16) (s : State) : Host.Outcome State Fault Refusal :=
  goOn s ((s.m.smTurn n.val 2).eventWake)

/-- SM_TIME (R464). The TIME instruction starts, stops or waits for a timer. -/
def execSmTime (n : Fin 16) (s : State) : Host.Outcome State Fault Refusal :=
  goOn s ((s.m.smTurn n.val 3).eventWake)

/-- SM_CNT (R461). The CNT instruction loads, increments or decrements a counter. -/
def execSmCnt (n : Fin 16) (s : State) : Host.Outcome State Fault Refusal :=
  goOn s ((s.m.smTurn n.val 4).eventWake)

/-- SM_JMP (R461). The JMP instruction jumps to its target. -/
def execSmJmp (n : Fin 16) (s : State) : Host.Outcome State Fault Refusal :=
  goOn s ((s.m.smTurn n.val 5).eventWake)

/-- SM_JIF (R461). The JIF instruction jumps on a flag, C, counter or timer condition. -/
def execSmJif (n : Fin 16) (s : State) : Host.Outcome State Fault Refusal :=
  goOn s ((s.m.smTurn n.val 6).eventWake)

/-- SM_EMIT (R465). The EMIT instruction writes a machine record with the reference instant. -/
def execSmEmit (n : Fin 16) (s : State) : Host.Outcome State Fault Refusal :=
  goOn s ((s.m.smTurn n.val 7).eventWake)

/-- SM_OUT (R466). The OUT instruction routes a decision to ports, raises an engine interrupt or writes TXD. -/
def execSmOut (n : Fin 16) (s : State) : Host.Outcome State Fault Refusal :=
  goOn s ((s.m.smTurn n.val 8).eventWake)

/-- SM_CAPT (R465). The CAPT instruction triggers the named queues that are in CAPTURE policy. -/
def execSmCapt (n : Fin 16) (s : State) : Host.Outcome State Fault Refusal :=
  goOn s ((s.m.smTurn n.val 9).eventWake)

/-- SM_SETF (R469). The SETF instruction sets shared flags. -/
def execSmSetf (n : Fin 16) (s : State) : Host.Outcome State Fault Refusal :=
  goOn s ((s.m.smTurn n.val 10).eventWake)

/-- SM_CLRF (R469). The CLRF instruction clears shared flags. -/
def execSmClrf (n : Fin 16) (s : State) : Host.Outcome State Fault Refusal :=
  goOn s ((s.m.smTurn n.val 11).eventWake)

/-- EVT_SMSTART (R459). A write starts the named machines at their start addresses. -/
def execEvtSmstart (ag : Agent) (kind : AccessKind) (w : Word) (s : State) : Host.Outcome State Fault Refusal :=
  goOn s (s.m.oneWrite ag kind 0x2000 w)

/-- EVT_SMSTOP (R459). A write stops the named machines after their current instruction. -/
def execEvtSmstop (ag : Agent) (kind : AccessKind) (w : Word) (s : State) : Host.Outcome State Fault Refusal :=
  goOn s (s.m.oneWrite ag kind 0x2004 w)

/-- EVT_FLAGSET (R469). A write sets shared flags. -/
def execEvtFlagset (ag : Agent) (kind : AccessKind) (w : Word) (s : State) : Host.Outcome State Fault Refusal :=
  goOn s (s.m.oneWrite ag kind 0x200C w)

/-- EVT_FLAGCLR (R469). A write clears shared flags. -/
def execEvtFlagclr (ag : Agent) (kind : AccessKind) (w : Word) (s : State) : Host.Outcome State Fault Refusal :=
  goOn s (s.m.oneWrite ag kind 0x2010 w)

end Sys2Proof.Machine
end

