-- ==== Sys2Proof/Machine/RowsFlue.lean ====
section
/-! DEFINITION. The rows of the Flue link (R597 to R632). Each row's effect is an operation of the block on
the state; the waiting commands stay as they are. -/

namespace Sys2Proof.Machine

/-- SYNC_PULSE_OUT (R605). A manager drives a SYNC pulse or frame mark at each millisecond of its timestamp. -/
def execSyncPulseOut (s : State) : Host.Outcome State Fault Refusal :=
  goOn s (s.m.syncPulseOut)

/-- SYNC_PULSE_IN (R606). A worker accepts a SYNC pulse, classifies it and updates its SYNC state and timestamp load. -/
def execSyncPulseIn (lowTicks highTicks : Nat) (s : State) : Host.Outcome State Fault Refusal :=
  goOn s (s.m.syncInput lowTicks highTicks)

/-- SYNC_HOLDOVER (R607). No accepted SYNC pulse for 3 ms takes a LOCKED worker to HOLDOVER. -/
def execSyncHoldover (s : State) : Host.Outcome State Fault Refusal :=
  goOn s (s.m.syncHoldover)

/-- FLUE_TLOAD (R613). A write of 1 to FLUE_TLOAD.LOAD arms a timestamp load at the next frame mark. -/
def execFlueTload (ag : Agent) (kind : AccessKind) (w : Word) (s : State) : Host.Outcome State Fault Refusal :=
  goOn s (s.m.oneWrite ag kind 0x2818 w)

/-- SCAN_TIMER (R610). Every 1 s the manager reads the identity of each address that is not ACTIVE and attempts attach. -/
def execScanTimer (answers : List ScanAnswer) (s : State) : Host.Outcome State Fault Refusal :=
  goOn s (s.m.scanTimer answers)

/-- FLUE_PULL (R619). When credit and Q4 room allow, the manager pulls, checks, stores and commits one worker block. -/
def execFluePull (w : Fin 32) (m : PullAnswer) (s : State) : Host.Outcome State Fault Refusal :=
  goOn s (s.m.fluePull w.val m)

/-- FORWARD_LINE (R627). After taking the worker's reply, the manager sends the next upgrade line of a forwarding. -/
def execForwardLine (reply : ForwardReply) (s : State) : Host.Outcome State Fault Refusal :=
  goOn s (s.m.forwardLine reply)

/-- AWAY_SATURATION (R625). An absence reaching the saturation of the duration field is recorded and continued in a new AWAY record. -/
def execAwaySaturation (w : Fin 32) (s : State) : Host.Outcome State Fault Refusal :=
  goOn s (s.m.awaySaturation w.val)

end Sys2Proof.Machine
end

