-- ==== Sys2Proof/Machine/RowsGuard.lean ====
section
/-! DEFINITION. The rows of the guard path (R479 to R508). Each row's effect is an operation of the block on
the state; the waiting commands stay as they are. -/

namespace Sys2Proof.Machine

/-- GUARD_PERIOD (R483). At each decimator period both guard chains compare quantities and test vectors and update persistence and state. -/
def execGuardPeriod (ins : GuardInput) (u : GuardUpsets) (s : State) : Host.Outcome State Fault Refusal :=
  goOn s (s.m.guardPeriod ins u.a u.b)

/-- GUARD_ARM (R494). A write of 1 to GRD_LOCK.ARM locks the guard configuration and starts arming. -/
def execGuardArm (ag : Agent) (kind : AccessKind) (w : Word) (s : State) : Host.Outcome State Fault Refusal :=
  goOn s (s.m.oneWrite ag kind 0x2C0C w)

/-- GUARD_ACK (R496). A write of 1 to GRD_ACK.ACK requests acknowledgment. -/
def execGuardAck (ag : Agent) (kind : AccessKind) (w : Word) (s : State) : Host.Outcome State Fault Refusal :=
  goOn s (s.m.oneWrite ag kind 0x2C10 w)

/-- GUARD_PIN_FAULT (R493). A GUARD pin sensed at the wrong level for 1 ms puts the guard path in FAULT. -/
def execGuardPinFault (second : Bool) (high : Bool) (ticks : Nat) (s : State) : Host.Outcome State Fault Refusal :=
  goOn s (s.m.guardPinFault second high ticks)

/-- GUARD_SHORT_RELEASE (R72). A GUARD pin under its short-circuit limit for more than 1 ms is released. -/
def execGuardShortRelease (second : Bool) (ticks : Nat) (s : State) : Host.Outcome State Fault Refusal :=
  goOn s (s.m.guardShortRelease second ticks)

/-- FAULT_PULSE (R486). In FAULT with FPULSE, both pins are driven low for 20 µs at every multiple of 2^16 ticks. -/
def execFaultPulse (s : State) : Host.Outcome State Fault Refusal :=
  goOn s (s.m.faultPulse)

end Sys2Proof.Machine
end

