-- ==== Sys2Proof/Machine/Names.lean ====
section
/-! DEFINITION. The Wilone names of R237, R300, R350, R385, R430, R477, R509, R557, R596, R633, R667, R696 and R718, block by
block in the order of the register tables (R223), and how the value of each is written (R224 to R228, R234). -/

namespace Sys2Proof.Machine

/-- The unit of a field or of a suffix (R225): the quantity, its scale (times in microseconds), the suffix shown. -/
structure Qty where
  kind : Nat
  scale : Nat
  suffix : String
  deriving DecidableEq, Repr

/-- No unit, or one that has no suffix. -/
def qNone : Qty := ⟨0, 1, ""⟩

/-- Acceleration in g. -/
def qG : Qty := ⟨1, 1, "g"⟩

/-- Angular rate in degrees per second. -/
def qDps : Qty := ⟨2, 1, "dps"⟩

/-- Frequency or rate in Hz. -/
def qHz : Qty := ⟨3, 1, "Hz"⟩

/-- Time in milliseconds. -/
def qMs : Qty := ⟨4, 1000, "ms"⟩

/-- Time in microseconds. -/
def qUs : Qty := ⟨4, 1, "us"⟩

/-- Time in seconds; R225 has no suffix for it. -/
def qS : Qty := ⟨4, 1000000, ""⟩

/-- Angle in revolutions. -/
def qRev : Qty := ⟨5, 1, "rev"⟩

/-- Resistance in ohms. -/
def qOhm : Qty := ⟨6, 1, "ohm"⟩

/-- The units that a suffix may name (R225). -/
def suffixes : List Qty := [qG, qDps, qHz, qMs, qUs, qRev, qOhm]

/-- How a field's value is written and shown. -/
inductive Codec where
  /-- One bit, shown as on or off (R228). -/
  | onoff
  /-- One bit, shown as a number. -/
  | bit
  /-- Names with their field values; a number `v` stands for the field value `v + off`. -/
  | enum (names : List (String × Nat)) (off : Nat)
  /-- The field value indexes listed quantities. -/
  | list (u : Qty) (vals : List Nat)
  /-- `base` times two to the field value. -/
  | pow2 (u : Qty) (base : Nat)
  /-- The field value (two's complement when `sgn`) plus `off`, times `n / d`. -/
  | num (u : Qty) (n d : Nat) (off : Int) (sgn : Bool)
  /-- A whole register word in hexadecimal. -/
  | word
  /-- A register address. -/
  | addr
  /-- A latched pair, shown as one decimal number (R667). -/
  | pair
  /-- Eight words, shown as a hex block (R667). -/
  | digest
  /-- The latest value of an aux channel, in the unit that its curve gives (R413, R430). -/
  | auxValue (n : Nat)
  /-- A channel number, written together with `GO` (R430). -/
  | leadcal
  deriving DecidableEq, Repr

/-- A name and its field: segments, register address, place of the field, codec. The settings of a session stand at addresses
beyond the register space. -/
structure NameField where
  path : List String
  a : Nat
  lo : Nat
  w : Nat
  codec : Codec
  deriving DecidableEq, Repr

/-- An enumeration whose field values count from 0. -/
def enumOf (names : List String) : Codec := .enum names.zipIdx 0

/-- A plain unsigned number. -/
def plain : Codec := .num qNone 1 1 0 false

/-- A number of steps of `1 / d` of a unit. -/
def steps (u : Qty) (d : Nat) : Codec := .num u 1 d 0 false

/-- A number held less one. -/
def lessOne : Codec := .num qNone 1 1 1 false

/-- A decimal index as a segment. -/
def indexSeg (n : Nat) : String :=
  (["0", "1", "2", "3", "4", "5", "6", "7", "8", "9", "10", "11", "12", "13", "14", "15", "16", "17", "18", "19", "20", "21", "22",
    "23", "24", "25", "26", "27", "28", "29", "30", "31"] : List String).getD n ""

/-- The address of the session setting `echo`; `prompt` stands at the next. -/
def sessionBase : Nat := 0x10000

/-- Session settings (R237). -/
def namesSession : List NameField :=
  [⟨["session", "echo"], sessionBase, 0, 1, .onoff⟩, ⟨["session", "prompt"], sessionBase + 1, 0, 1, .onoff⟩]

/-- Power (R696). `stay` is the issuing port's bit.
Log entry 41 (DEDUCED, unsafe). -/
def namesPower (stay : Nat) : List NameField :=
  [⟨["pwr", "drainreq"], 0x804, 0, 1, .onoff⟩, ⟨["pwr", "pon"], 0x808, 0, 1, enumOf ["run", "ember"]⟩] ++
  [(7, "d7"), (6, "d6"), (4, "d4"), (3, "d3"), (2, "d2"), (1, "d1")].map (fun x => ⟨["pwr", "dom", x.2], 0x80C, x.1, 1, .onoff⟩) ++
  [⟨["pwr", "stay"], 0x814, stay, 1, .onoff⟩, ⟨["pwr", "wake", "target"], 0x818, 16, 1, enumOf ["run", "watch"]⟩] ++
  ["sela", "selb", "key", "damper", "timer", "event", "sync"].zipIdx.reverse.map (fun x => ⟨["pwr", "wake", x.1], 0x818, x.2, 1, .onoff⟩) ++
  [⟨["pwr", "timer"], 0x81C, 0, 32, plain⟩,
   ⟨["pwr", "slot", "b"], 0x8E0, 2, 2, enumOf ["empty", "try", "good", "bad"]⟩,
   ⟨["pwr", "slot", "a"], 0x8E0, 0, 2, enumOf ["empty", "try", "good", "bad"]⟩,
   ⟨["pwr", "starts"], 0x8E4, 0, 32, plain⟩]

/-- A held value in 2^-14 g. -/
def heldCodec : Codec := .num qG 1 (2 ^ 14) 0 true

/-- Motion (R300). -/
def namesMotion : List NameField :=
  let src := enumOf ["off", "auto", "model", "fixed"]
  [⟨["motion", "watch", "rate"], 0xC00, 10, 2, .list qHz [16, 32, 64]⟩, ⟨["motion", "tmp"], 0xC00, 3, 1, .onoff⟩,
   ⟨["motion", "gyr"], 0xC00, 2, 1, .onoff⟩, ⟨["motion", "ach"], 0xC00, 1, 1, .onoff⟩, ⟨["motion", "acf"], 0xC00, 0, 1, .onoff⟩,
   ⟨["acf", "window"], 0xC04, 24, 2, .list qG [2, 4, 8, 16]⟩, ⟨["acf", "servo", "bw"], 0xC04, 16, 7, steps qHz 10⟩,
   ⟨["acf", "rate"], 0xC04, 0, 4, .pow2 qHz 16⟩, ⟨["hold", "db"], 0xC08, 8, 8, plain⟩, ⟨["hold", "z", "src"], 0xC08, 4, 2, src⟩,
   ⟨["hold", "y", "src"], 0xC08, 2, 2, src⟩, ⟨["hold", "x", "src"], 0xC08, 0, 2, src⟩] ++
  ["x", "y", "z"].zipIdx.map (fun x => ⟨["hold", x.1, "fix"], 0xC0C + 4 * x.2, 0, 24, heldCodec⟩) ++
  ["x", "y", "z"].zipIdx.map (fun x => ⟨["hold", x.1, "value"], 0xC18 + 4 * x.2, 0, 24, heldCodec⟩) ++
  [⟨["ach", "range"], 0xC24, 24, 2, .list qG [256, 1024, 4096]⟩, ⟨["ach", "rate"], 0xC24, 0, 4, .pow2 qHz 16⟩,
   ⟨["gyr", "z", "range"], 0xC28, 24, 1, .list qDps [20000, 80000]⟩, ⟨["gyr", "rate"], 0xC28, 0, 4, .pow2 qHz 16⟩,
   ⟨["tmp", "rate"], 0xC2C, 0, 3, .pow2 qHz 16⟩, ⟨["mnt", "radius"], 0xC30, 0, 21, plain⟩,
   ⟨["mnt", "angle"], 0xC34, 0, 16, steps qRev (2 ^ 16)⟩, ⟨["mnt", "axmap"], 0xC38, 0, 3, plain⟩,
   ⟨["tmp", "value"], 0xC44, 0, 24, .num qNone 1 (2 ^ 10) 0 true⟩]

/-- The path of group `g` in the filter names. -/
def groupPath (g : Nat) : List String :=
  match g with
  | 0 => ["flt", "acf"]
  | 1 => ["flt", "ach"]
  | 2 => ["flt", "gyr"]
  | 3 => ["flt", "tmp"]
  | g => ["flt", "aux", indexSeg (g - 4)]

/-- One filter group. -/
def namesGroup (g : Nat) : List NameField :=
  let a := 0x1000 + 16 * g
  (if 4 ≤ g then [⟨groupPath g ++ ["div"], a, 28, 4, .pow2 qNone 1⟩] else []) ++
  [⟨groupPath g ++ ["fade"], a, 16, 11, plain⟩, ⟨groupPath g ++ ["taps"], a, 9, 6, lessOne⟩,
   ⟨groupPath g ++ ["fir"], a, 8, 1, .onoff⟩, ⟨groupPath g ++ ["k"], a, 4, 2, lessOne⟩,
   ⟨groupPath g ++ ["preset"], a, 0, 3, enumOf ["bullet", "blitz", "rapid", "classical", "correspondence", "custom"]⟩,
   ⟨groupPath g ++ ["l"], a + 4, 0, 17, plain⟩, ⟨groupPath g ++ ["gain"], a + 8, 0, 32, .word⟩]

/-- Filter chains (R350). -/
def namesFilter : List NameField :=
  (List.range 12).flatMap namesGroup ++
  (List.range 12).map (fun g => ⟨groupPath g ++ ["castle"], 0x10C0, g, 1, .bit⟩) ++
  [⟨["flt", "sync", "src"], 0x10C4, 4, 1, enumOf ["second", "sync"]⟩, ⟨["flt", "sync", "arm"], 0x10C4, 0, 1, .bit⟩,
   ⟨["flt", "lib", "result"], 0x10D0, 30, 2, enumOf ["none", "done", "empty", "failed"]⟩,
   ⟨["flt", "lib", "dir"], 0x10D0, 28, 1, enumOf ["load", "save"]⟩, ⟨["flt", "lib", "entry"], 0x10D0, 20, 5, plain⟩,
   ⟨["flt", "lib", "group"], 0x10D0, 12, 4,
     enumOf ["acf", "ach", "gyr", "tmp", "aux0", "aux1", "aux2", "aux3", "aux4", "aux5", "aux6", "aux7"]⟩,
   ⟨["flt", "lib", "bank"], 0x10D0, 8, 1, enumOf ["a", "b"]⟩, ⟨["flt", "lib", "go"], 0x10D0, 0, 1, .bit⟩]

/-- Angle (R385). -/
def namesAngle : List NameField :=
  [⟨["ang", "loopbw"], 0x1400, 16, 3, plain⟩, ⟨["ang", "n"], 0x1400, 12, 3, .pow2 qNone 64⟩,
   ⟨["ang", "nmode"], 0x1400, 8, 1, enumOf ["fixed", "auto"]⟩, ⟨["ang", "keypol"], 0x1400, 7, 1, enumOf ["rising", "falling"]⟩,
   ⟨["ang", "dir"], 0x1400, 6, 1, enumOf ["pos", "neg"]⟩, ⟨["ang", "ref"], 0x1400, 4, 2, enumOf ["key", "gravity", "none"]⟩,
   ⟨["ang", "en"], 0x1400, 0, 1, .onoff⟩, ⟨["ang", "keyofs"], 0x1404, 0, 16, steps qRev (2 ^ 16)⟩,
   ⟨["ang", "holdn"], 0x1408, 16, 8, plain⟩, ⟨["ang", "lockn"], 0x1408, 8, 4, plain⟩, ⟨["ang", "tol"], 0x1408, 0, 8, plain⟩,
   ⟨["ang", "min"], 0x140C, 0, 11, steps qHz 64⟩, ⟨["ang", "rev"], 0x1410, 8, 24, plain⟩,
   ⟨["ang", "state"], 0x1410, 0, 2, enumOf ["search", "track", "lock", "holdover"]⟩, ⟨["ang", "period"], 0x1414, 0, 24, plain⟩]

/-- The curves of R413 with their codes. -/
def curveNames : List (String × Nat) :=
  [("raw", 0), ("pt100", 1), ("pt500", 2), ("pt1000", 3), ("ntcbeta", 8), ("ntcsh", 9), ("tck", 16), ("tcj", 17), ("tct", 18),
   ("tce", 19), ("tcn", 20), ("tcr", 21), ("tcs", 22), ("tcb", 23), ("strain", 32)]

/-- The cold junctions of channel `n` (R416, R428): the other channels, and TMP. -/
def otherChans (n : Nat) : List (String × Nat) :=
  ((["0", "1", "2", "3", "4", "5", "6", "7", "tmp"] : List String).zipIdx).filter (fun x => x.2 != n)

/-- One aux channel. -/
def namesChan (n : Nat) : List NameField :=
  let a := 0x1800 + 64 * n
  let p := fun (l : List String) => ["aux", indexSeg n] ++ l
  [⟨p ["en"], a, 31, 1, .onoff⟩,
   ⟨p ["rate"], a, 24, 4, .list qHz [1000, 500, 250, 200, 125, 100, 50, 40, 25, 20, 10, 8, 5, 4, 2, 1]⟩,
   ⟨p ["curve"], a, 16, 6, .enum curveNames 0⟩, ⟨p ["exc"], a, 12, 1, .onoff⟩, ⟨p ["ref"], a, 10, 2, enumOf ["internal", "ratio"]⟩,
   ⟨p ["gain"], a, 4, 3, .pow2 qNone 1⟩, ⟨p ["bo", "mode"], a + 4, 24, 2, enumOf ["off", "continuous", "check"]⟩,
   ⟨p ["bo", "current"], a + 4, 16, 2, enumOf ["low", "mid", "high"]⟩, ⟨p ["bo", "checkn"], a + 4, 0, 8, plain⟩,
   ⟨p ["cj"], a + 8, 16, 4, .enum (otherChans n) 0⟩,
   ⟨p ["bridge"], a + 8, 8, 2, enumOf ["quarter", "half", "full"]⟩,
   ⟨p ["lead"], a + 8, 0, 2, enumOf ["off", "stored", "companion"]⟩, ⟨p ["rs"], a + 0xC, 0, 32, steps qOhm (2 ^ 12)⟩,
   ⟨p ["r25"], a + 0x10, 0, 32, steps qOhm (2 ^ 12)⟩, ⟨p ["gf"], a + 0x10, 0, 32, steps qNone (2 ^ 24)⟩,
   ⟨p ["sh", "a"], a + 0x10, 0, 32, .word⟩, ⟨p ["beta"], a + 0x14, 0, 32, steps qNone (2 ^ 8)⟩,
   ⟨p ["zero"], a + 0x14, 0, 32, .num qNone 1 (2 ^ 31) 0 true⟩, ⟨p ["sh", "b"], a + 0x14, 0, 32, .word⟩,
   ⟨p ["sh", "c"], a + 0x18, 0, 32, .word⟩, ⟨p ["leadr"], a + 0x1C, 0, 32, steps qOhm (2 ^ 16)⟩,
   ⟨p ["value"], a + 0x24, 8, 24, .auxValue n⟩]

/-- Aux front end (R430). -/
def namesAux : List NameField :=
  let tens := Codec.num qUs 10 1 0 false
  let react := enumOf ["mark", "hold"]
  (List.range 8).flatMap namesChan ++
  [⟨["aux", "exc", "mode"], 0x1A00, 24, 2, enumOf ["off", "constant", "pulsed"]⟩,
   ⟨["aux", "exc", "level"], 0x1A00, 16, 2, enumOf ["1v0", "1v8", "2v5"]⟩, ⟨["aux", "exc", "settle"], 0x1A00, 0, 10, tens⟩,
   ⟨["aux", "damper", "tail"], 0x1A04, 16, 10, tens⟩, ⟨["aux", "damper", "gyr"], 0x1A04, 6, 1, react⟩,
   ⟨["aux", "damper", "ach"], 0x1A04, 5, 1, react⟩, ⟨["aux", "damper", "acf"], 0x1A04, 4, 1, react⟩,
   ⟨["aux", "damper", "stuckend"], 0x1A04, 2, 1, .onoff⟩, ⟨["aux", "damper", "pol"], 0x1A04, 1, 1, enumOf ["high", "low"]⟩,
   ⟨["aux", "damper", "en"], 0x1A04, 0, 1, .onoff⟩, ⟨["aux", "leadcal"], 0x1A0C, 0, 9, .leadcal⟩]

/-- One queue. -/
def namesQueue (q : Nat) : List NameField :=
  let a := 0x1C40 + 32 * q
  let s := (["q0", "q1", "q2", "q3", "q4"] : List String).getD q ""
  [⟨[s, "tmo"], a, 24, 8, .num qS 1 1 0 false⟩, ⟨[s, "drain"], a, 12, 2, enumOf ["none", "a", "b", "both"]⟩,
   ⟨[s, "policy"], a, 8, 2, enumOf ["stop", "overwrite", "capture"]⟩, ⟨[s, "banks"], a, 0, 8, plain⟩,
   ⟨[s, "post"], a + 4, 16, 12, plain⟩, ⟨[s, "pre"], a + 4, 0, 12, plain⟩, ⟨[s, "wm"], a + 8, 0, 13, plain⟩,
   ⟨[s, "trig"], a + 0xC, 1, 1, .bit⟩, ⟨[s, "rearm"], a + 0xC, 0, 1, .bit⟩,
   ⟨[s, "state"], a + 0x10, 17, 3, enumOf ["nobanks", "run", "full", "armed", "capturing", "frozen"]⟩,
   ⟨[s, "blocks"], a + 0x10, 0, 13, plain⟩]

/-- Deep buffer (R557). -/
def namesBuffer : List NameField :=
  ⟨["buf", "apply"], 0x1C00, 0, 1, .bit⟩ ::
  (List.range 4).map (fun k => ⟨["buf", "retain", indexSeg k], 0x1C20 + 4 * k, 0, 32, .word⟩) ++ (List.range 5).flatMap namesQueue

/-- A recogniser's route bits, what else its register holds, and its enable. -/
def namesRecog (a : Nat) (r : String) (rest : List NameField) : List NameField :=
  [⟨["evt", r, "inta"], a, 31, 1, .onoff⟩, ⟨["evt", r, "intb"], a, 30, 1, .onoff⟩, ⟨["evt", r, "rec"], a, 29, 1, .onoff⟩,
   ⟨["evt", r, "capt"], a, 24, 5, plain⟩] ++ rest ++ [⟨["evt", r, "en"], a, 0, 1, .onoff⟩]

/-- A threshold register: hysteresis above threshold. -/
def namesLevel (a : Nat) (r : String) (c : Codec) : List NameField :=
  [⟨["evt", r, "hys"], a, 16, 16, c⟩, ⟨["evt", r, "thr"], a, 0, 16, c⟩]

/-- One state machine. -/
def namesSm (n : Nat) : List NameField :=
  let a := 0x2100 + 32 * n
  let p := fun (s : String) => ["sm", indexSeg n, s]
  [⟨p "watch", a, 31, 1, .onoff⟩, ⟨p "src", a, 24, 6, plain⟩, ⟨p "start", a, 0, 10, plain⟩,
   ⟨p "cmpa", a + 8, 0, 24, .num qNone 1 1 0 true⟩, ⟨p "cmpb", a + 0xC, 0, 24, .num qNone 1 1 0 true⟩,
   ⟨p "hysa", a + 0x10, 0, 24, plain⟩, ⟨p "hysb", a + 0x14, 0, 24, plain⟩, ⟨p "cnt", a + 0x18, 0, 32, .word⟩,
   ⟨p "last", a + 0x1C, 0, 32, .num qNone 1 1 0 true⟩]

/-- Event engine (R477). -/
def namesEvent : List NameField :=
  let pers := fun (r : String) (a : Nat) => (⟨["evt", r, "pers"], a, 16, 4, lessOne⟩ : NameField)
  let dur := fun (r : String) (a : Nat) => (⟨["evt", r, "dur"], a, 1, 16, .num qMs 1 1 0 false⟩ : NameField)
  ⟨["evt", "flags"], 0x2008, 0, 16, plain⟩ ::
  namesRecog 0x2040 "impact" [pers "impact" 0x2040, ⟨["evt", "impact", "double"], 0x2040, 1, 1, .onoff⟩] ++
  namesLevel 0x2044 "impact" (steps qG 16) ++ [⟨["evt", "impact", "win"], 0x2048, 0, 16, .num qMs 1 1 0 false⟩] ++
  namesRecog 0x2050 "freefall" [dur "freefall" 0x2050] ++ namesLevel 0x2054 "freefall" (steps qG (2 ^ 10)) ++
  namesRecog 0x2060 "rev" [⟨["evt", "rev", "every"], 0x2060, 8, 8, plain⟩,
    ⟨["evt", "rev", "axis"], 0x2060, 2, 2, enumOf ["x", "y"]⟩, ⟨["evt", "rev", "src"], 0x2060, 1, 1, enumOf ["key", "gravity"]⟩] ++
  [⟨["evt", "rev", "hys"], 0x2064, 16, 16, steps qG (2 ^ 10)⟩] ++
  namesRecog 0x2070 "overspeed" [pers "overspeed" 0x2070] ++ namesLevel 0x2074 "overspeed" (steps qHz 64) ++
  namesRecog 0x2078 "underspeed" [pers "underspeed" 0x2078] ++ namesLevel 0x207C "underspeed" (steps qHz 64) ++
  namesRecog 0x2080 "imbalance" [⟨["evt", "imbalance", "axes"], 0x2080, 16, 3, plain⟩,
    ⟨["evt", "imbalance", "revs"], 0x2080, 8, 8, plain⟩, ⟨["evt", "imbalance", "lock"], 0x2080, 1, 1, .onoff⟩] ++
  namesLevel 0x2084 "imbalance" (steps qG (2 ^ 12)) ++
  namesRecog 0x2090 "still" [dur "still" 0x2090] ++
  [⟨["evt", "still", "gthr"], 0x2094, 16, 16, steps qDps 64⟩, ⟨["evt", "still", "athr"], 0x2094, 0, 16, steps qG (2 ^ 12)⟩] ++
  (List.range 16).flatMap namesSm

/-- The pairs of an engine and a context. -/
def contexts : List (Nat × Nat) := (List.range 4).flatMap (fun n => (List.range 8).map (fun c => (n, c)))

/-- Engines (R596). -/
def namesEngine : List NameField :=
  let p := fun (x : Nat × Nat) (s : String) => ["eng", indexSeg x.1, "ctx", indexSeg x.2, s]
  contexts.flatMap (fun x =>
    let a := 0x2400 + 128 * x.1 + 16 * x.2
    [⟨p x "start", a, 0, 8, plain⟩, ⟨p x "ca", a + 4, 0, 32, .word⟩, ⟨p x "cb", a + 8, 0, 32, .word⟩,
     ⟨p x "sh", a + 0xC, 0, 32, .word⟩]) ++
  contexts.map (fun x => ⟨p x "txd", 0x2680 + 32 * x.1 + 4 * x.2, 0, 32, .word⟩) ++
  contexts.map (fun x => ⟨p x "en", 0x2718, 8 * x.1 + x.2, 1, .onoff⟩) ++
  (List.range 4).map (fun n => ⟨["eng", indexSeg n, "div"], 0x2730 + 4 * n, 0, 24, steps qNone 256⟩) ++
  (List.range 16).flatMap (fun k =>
    let a := 0x2740 + 4 * k
    let p := fun (s : String) => ["eng", "pin", indexSeg k, s]
    [⟨p "owner", a, 16, 3, .enum (["none", "0", "1", "2", "3"] : List String).zipIdx 1⟩,
     ⟨p "mode", a, 8, 2, enumOf ["input", "pushpull", "opendrain"]⟩, ⟨p "pull", a, 4, 2, enumOf ["none", "up", "down"]⟩,
     ⟨p "initoe", a, 2, 1, .onoff⟩, ⟨p "init", a, 1, 1, .bit⟩, ⟨p "inen", a, 0, 1, .onoff⟩]) ++
  contexts.map (fun x => ⟨p x "rxd", 0x2780 + 32 * x.1 + 4 * x.2, 0, 32, .word⟩)

/-- Flue (R633). -/
def namesFlue : List NameField :=
  [⟨["flue", "missn"], 0x2800, 16, 8, plain⟩, ⟨["flue", "clk"], 0x2800, 8, 2, plain⟩, ⟨["flue", "bus1"], 0x2800, 5, 1, .onoff⟩,
   ⟨["flue", "bus0"], 0x2800, 4, 1, .onoff⟩, ⟨["flue", "addr"], 0x2804, 8, 4, plain⟩,
   ⟨["flue", "role"], 0x2804, 0, 2, enumOf ["none", "worker", "manager"]⟩, ⟨["flue", "syncdly"], 0x2808, 0, 8, plain⟩,
   ⟨["flue", "att"], 0x280C, 2, 1, .onoff⟩, ⟨["flue", "sync"], 0x280C, 0, 2, enumOf ["free", "acquire", "locked", "holdover"]⟩,
   ⟨["flue", "phase"], 0x2824, 0, 16, .num qNone 1 16 0 true⟩] ++
  (List.range 32).flatMap (fun n =>
    [⟨["flue", "w", indexSeg n, "queues"], 0x2840 + 4 * n, 8, 4, plain⟩, ⟨["flue", "w", indexSeg n, "credit"], 0x2840 + 4 * n, 0, 8, plain⟩])

/-- Guard (R509). -/
def namesGuard : List NameField :=
  [⟨["grd", "overspeed", "pers"], 0x2C00, 16, 4, lessOne⟩, ⟨["grd", "impact", "pers"], 0x2C00, 12, 4, lessOne⟩,
   ⟨["grd", "fpulse"], 0x2C00, 2, 1, .onoff⟩, ⟨["grd", "overspeed", "en"], 0x2C00, 1, 1, .onoff⟩,
   ⟨["grd", "impact", "en"], 0x2C00, 0, 1, .onoff⟩, ⟨["grd", "impact", "hys"], 0x2C04, 16, 8, steps qG 1⟩,
   ⟨["grd", "impact", "thr"], 0x2C04, 0, 12, steps qG 1⟩, ⟨["grd", "overspeed", "hys"], 0x2C08, 16, 16, steps qHz 64⟩,
   ⟨["grd", "overspeed", "thr"], 0x2C08, 0, 16, steps qHz 64⟩, ⟨["grd", "arm"], 0x2C0C, 0, 1, .bit⟩,
   ⟨["grd", "ack"], 0x2C10, 0, 1, .bit⟩,
   ⟨["grd", "state"], 0x2C14, 0, 3, enumOf ["off", "arming", "healthy", "trip", "fault"]⟩,
   ⟨["grd", "peak", "impact"], 0x2C20, 16, 16, steps qG 16⟩, ⟨["grd", "peak", "overspeed"], 0x2C20, 0, 16, steps qHz 64⟩]

/-- Security, self-test, persistent store (R667, R718). -/
def namesOther : List NameField :=
  [⟨["sec", "life"], 0x3000, 0, 2, enumOf ["manufactured", "open", "owned", "retired"]⟩, ⟨["sec", "epoch"], 0x3004, 0, 32, plain⟩,
   ⟨["sec", "lastseal"], 0x3008, 0, 32, .pair⟩, ⟨["sec", "owner"], 0x3020, 0, 32, .digest⟩,
   ⟨["spare", "unit"], 0x3498, 0, 8, plain⟩, ⟨["pst", "addr"], 0x3800, 0, 16, .addr⟩,
   ⟨["pst", "state"], 0x3804, 30, 2, enumOf ["ok", "warn", "worn", "none"]⟩, ⟨["pst", "count"], 0x3804, 0, 20, plain⟩]

/-- Every name, for a line of a port whose bit of `PWR_STAY` is `stay` (R696). -/
def nameFields (stay : Nat) : List NameField :=
  namesSession ++ namesPower stay ++ namesMotion ++ namesFilter ++ namesAngle ++ namesAux ++ namesBuffer ++ namesEvent ++
    namesEngine ++ namesFlue ++ namesGuard ++ namesOther

end Sys2Proof.Machine
end

