-- ==== Sys2Proof/Machine/Show.lean ====
section
/-! DEFINITION. The data lines of the Wilone verbs (R234, R245, R255): how a field's value is shown, and what each verb that only
shows state replies. -/

namespace Sys2Proof.Machine

/-! ### Values (R234) -/

/-- A digit string with a point before its last `k` digits. -/
def pointed (k : Nat) (ds : List Byte) : List Byte :=
  if k = 0 then ds
  else
    let ds := List.replicate (k + 1 - ds.length) 48 ++ ds
    ds.take (ds.length - k) ++ 0x2E :: ds.drop (ds.length - k)

/-- The exact decimal value of `n / d`, whose denominator has no prime factor but 2 and 5. -/
def ratioText (neg : Bool) (n d : Nat) : List Byte :=
  let k := ((List.range 65).find? (fun k => n * 10 ^ k % d == 0)).getD 64
  (if neg && n ≠ 0 then [0x2D] else []) ++ pointed k (decText (n * 10 ^ k / d))

/-- An integer times `n / d`. -/
def stepsText (v : Int) (n d : Nat) : List Byte := ratioText (decide (v < 0)) (v.natAbs * n) d

/-- A register word in the house notation. -/
def wordText (v : Nat) : List Byte := ascii "0x" ++ hexText 4 (v / 65536) ++ ascii "_" ++ hexText 4 v

/-- A register address in the house notation. -/
def addrText (a : Nat) : List Byte := ascii "0x" ++ hexText 4 a

/-- A hex block (R255): groups of 8 digits. -/
def hexBlock (bs : List Byte) : List Byte :=
  (bs.zipIdx.flatMap (fun b => (if b.2 % 4 = 0 && b.2 ≠ 0 then [0x20] else []) ++ hexText 2 b.1.toNat))

/-- The steps of an aux channel's value in its unit (R408, R413): temperature in 2^-10 °C, strain in 2^-6 µε, the ratio code, which
a companion gives always, or 2^-(11+g) mV. -/
def Mach.auxDen (m : Mach) (n : Nat) : Nat :=
  let cfg := (m.auxCfg n).cfg
  let curve := bitsAt cfg 16 6
  if m.isComp n then 1
  else if curve = 32 then 2 ^ 6
  else if curve ≠ 0 then 2 ^ 10
  else if bitsAt cfg 10 2 = 1 then 1
  else 2 ^ (11 + bitsAt cfg 4 3)

/-- A field's value as it is shown (R228, R234), from the words its read gave; `den`: the steps in a unit of an aux value. A value that has no name is shown as its number.
Log entry 39 (DEDUCED, unsafe). -/
def NameField.show (f : NameField) (den : Nat) (ws : List Word) : List Byte :=
  let v := bitsAt (ws.headD 0) f.lo f.w
  match f.codec with
  | .onoff => ascii (if v = 0 then "off" else "on")
  | .bit => decText v
  | .enum names off =>
    match names.find? (fun n => n.2 == v) with
    | some n => ascii n.1
    | none => decText (v - off)
  | .list u vals =>
    match vals[v]? with
    | some x => decText x ++ ascii u.suffix
    | none => decText v
  | .pow2 u base => decText (base * 2 ^ v) ++ ascii u.suffix
  | .num u n d off sgn => stepsText ((if sgn then signed f.w v else (v : Int)) + off) n d ++ ascii u.suffix
  | .word => wordText v
  | .addr => addrText v
  | .pair => decText ((ws.getD 1 0).toNat * 2 ^ 32 + (ws.getD 0 0).toNat)
  | .digest => hexBlock (wordsBytes ws)
  | .auxValue _ => stepsText (signed f.w v) 1 den
  | .leadcal => decText (v % 8)

/-- A field's name in full. -/
def NameField.text (f : NameField) : List Byte := ascii (String.intercalate "." f.path)

/-- Texts with one space between. -/
def spaced (ts : List (List Byte)) : List Byte := (ts.intersperse [0x20]).flatten

/-! ### Rows of words (R245) -/

/-- A list in pieces of `n`, at most `k` of them. -/
def pieces {α : Type} (n : Nat) : Nat → List α → List (List α)
  | 0, _ => []
  | k + 1, l => if l.isEmpty then [] else l.take n :: pieces n k (l.drop n)

/-- The lines of `read`: four words each, behind the address of the first; a data register's address stays.
Log entry 46 (DEDUCED, unsafe). -/
def readLines (addr : Nat) (stay : Bool) (ws : List Word) : List (List Byte) :=
  (pieces 4 64 ws).zipIdx.map (fun r =>
    spaced (addrText (if stay then addr else addr + 16 * r.2) :: r.1.map (fun w => wordText w.toNat)))

/-- A number in six decimal digits, more where it has more. -/
def sixDigits (n : Nat) : List Byte :=
  let ds := decText n
  List.replicate (6 - ds.length) 48 ++ ds

/-- The lines of `stream`: eight words each, behind their offset. -/
def streamLines (off : Nat) (ws : List Word) : List (List Byte) :=
  (pieces 8 125 ws).zipIdx.map (fun r =>
    spaced ((0x2B :: sixDigits (off + 8 * r.2)) :: r.1.map (fun w => wordText w.toNat)))

/-- The lines of `key cert` (R639). -/
def Security.certLines (s : Security) : List (List Byte) :=
  let bs := s.cert ++ s.caCert
  (ascii "cert " ++ decText bs.length) :: (pieces 16 1024 bs).map hexBlock

/-! ### Names of states -/

/-- A lifecycle state (R640). -/
def lifeText (n : Nat) : List Byte := ascii ((["MANUFACTURED", "OPEN", "OWNED", "RETIRED"] : List String).getD n "")

/-- An engine's state (R581). -/
def EngRun.text : EngRun → List Byte
  | .stopped => ascii "STOPPED"
  | .running => ascii "RUNNING"
  | .stalled => ascii "STALLED"

/-- A machine's state (R458). -/
def SmRun.text : SmRun → List Byte
  | .stopped => ascii "STOPPED"
  | .run => ascii "RUN"
  | .wait => ascii "WAIT"
  | .paused => ascii "PAUSED"
  | .fault => ascii "FAULT"

/-- A worker's state (R631). -/
def workerText (st : Nat) : List Byte := ascii ((["NONE", "ACTIVE", "AWAY", "NEWER", "CONFLICT"] : List String).getD st "")

/-- The tested blocks (R718). -/
def testNames : List String := ["motion", "aux", "ports", "security", "signal", "engines", "buffer"]

/-- A test's result (R701). -/
def resultText (r : Nat) : List Byte := ascii ((["", "PASS", "FAIL", "INCOMPLETE", "ABORTED", "SKIPPED"] : List String).getD r "")

/-- The spare kinds in the order of their codes (R706, R718). -/
def kindNames : List String := ["row", "bank", "nvrow", "engine", "acf", "gyrz", "burnout"]

/-- The names of the refusers (R252, R673). -/
def refuserName (c : Nat) : String :=
  (["", "PORTA_STAYAWAKE", "PORTB_STAYAWAKE", "QUEUE_UNDRAINED", "PERSIST_WRITE", "ENGINE_ACTIVE", "FLUE_TRANSFER",
    "SEC_OPERATION", "CASTLE_PENDING", "GUARD_TRIPPED", "WAKE_DURING_TEST"] : List String).getD c ""

/-! ### Status lines -/

/-- `engine status`: whose program counter stands for the engine the manual does not say.
Log entries 49 (DEDUCED, unsafe), 54 (DESIGN CHOICE, safe). -/
def Mach.engineLines (m : Mach) : List (List Byte) :=
  (List.range 4).map (fun n =>
    spaced [ascii "eng." ++ decText n, (m.engine n).run.text, decText (m.ctx n (Config.statusContext n % 8)).pc])

/-- `event status`.
Log entry 49 (DEDUCED, unsafe). -/
def Mach.eventLines (m : Mach) : List (List Byte) :=
  (List.range 16).map (fun n => spaced [ascii "sm." ++ decText n, (m.sm n).run.text, decText (m.sm n).pc])

/-- `flue list`: the workers the manager holds a state of.
Log entry 49 (DEDUCED, unsafe). -/
def Mach.flueLines (m : Mach) : List (List Byte) :=
  ((List.range 32).filter (fun w => decide ((m.worker w).st ≠ 0) || (m.worker w).absent)).map (fun w =>
    spaced [ascii "worker", decText w, workerText (m.worker w).st, ascii "PL" ++ decText (m.worker w).pl,
      decText (m.fld (workerReg w) 0 8)])

/-- The line of a test's result (R245). -/
def Mach.testLine (m : Mach) (b : Nat) : List Byte :=
  spaced [ascii (testNames.getD b ""), resultText (m.fld (bistRes b) 29 3), decText (m.fld (bistRes b) 0 24)]

/-- `test show`: the blocks that have a result.
Log entry 49 (DEDUCED, unsafe). -/
def Mach.testLines (m : Mach) : List (List Byte) :=
  ((List.range 7).filter (fun b => m.fld (bistRes b) 29 3 ≠ 0)).map m.testLine

/-- The spares of a kind that remain, and those used (R706, R712). -/
def Mach.spareCount (m : Mach) (kind : Nat) : Nat × Nat :=
  let nv := m.nv
  let one := fun (used : Bool) (i : Nat) => ((!used && !nv.failed.getLsbD i).toNat, used.toNat)
  match kind with
  | 0 => (m.rowsLeft, 1088 - m.rowsLeft)
  | 1 => (((List.range 8).filter m.spareBankFree).length, ((m.buf.units.take 128).filter (fun u => u.served)).length)
  | 2 => (nv.nvRows.sum, 36 - nv.nvRows.sum)
  | 3 => one (nv.engSpare ≠ 0) 3
  | 4 => one (nv.acfSpare ≠ 0) 4
  | 5 => one nv.gyrzSpare 5
  | _ => ((one nv.burn0.isSome 6).1 + (one nv.burn1.isSome 7).1, nv.burn0.isSome.toNat + nv.burn1.isSome.toNat)

/-- `spare show`.
Log entry 49 (DEDUCED, unsafe). -/
def Mach.spareLines (m : Mach) : List (List Byte) :=
  kindNames.zipIdx.map (fun k =>
    let (left, used) := m.spareCount k.2
    spaced [ascii k.1, decText left, decText used, ascii (if m.degradedNow.getD k.2 false then "DEGRADED" else "OK")])

/-- An image kind's name (R245). -/
def UpKind.text : UpKind → List Byte
  | .fw => ascii "fw"
  | .engine => ascii "engine"
  | .event => ascii "event"

/-- `upgrade status`: the bytes received so far, of SIZE. -/
def Mach.upgradeLine (m : Mach) : List Byte :=
  match m.nv.upgrade with
  | some u => spaced [ascii "upgrade", u.kind.text, decText (u.pieces.map (fun p => p.2.length)).sum, decText u.size]
  | none => ascii "upgrade idle"

/-- The semaphores a port holds, or `none` (R245). Those its own line holds only while it runs are not among them.
Log entry 31 (DEDUCED, unsafe). -/
def Mach.semText (m : Mach) (p : Port) : List Byte :=
  let held := (List.range 16).filter (fun n => (m.port p).sems.getLsbD n)
  if held.isEmpty then ascii "none" else ((held.map decText).intersperse [0x2C]).flatten

/-- `auth on` or `auth off`. -/
def Mach.authLine (m : Mach) (p : Port) : List Byte := ascii (if (m.port p).auth then "auth on" else "auth off")

/-- `life STATE`. -/
def Mach.lifeLine (m : Mach) : List Byte := ascii "life " ++ lifeText m.sec.life

/-- `who` (R13, R245).
Log entry 49 (DEDUCED, unsafe). -/
def Mach.whoLines (m : Mach) (p : Port) : List (List Byte) :=
  let s := Config.serial.toNat
  let group := fun (k : Nat) => hexText 4 (s / 2 ^ k)
  let fw := m.idFw
  let dots := fun (l : List Nat) => ((l.map decText).intersperse [0x2E]).flatten
  [ascii "part NL4716 A1",
   ascii "serial 0x" ++ group 48 ++ ascii "_" ++ group 32 ++ ascii "_" ++ group 16 ++ ascii "_" ++ group 0,
   spaced [ascii "fw", ascii "PL" ++ decText (bitsAt fw 24 8), dots [bitsAt fw 16 8, bitsAt fw 8 8, bitsAt fw 0 8],
     ascii "slot", ascii (if m.nv.runB then "B" else "A")],
   spaced [ascii "port", [portLetter p], ascii (if (m.port p).async then "async" else "clocked"), decText (m.baudRate p)],
   m.lifeLine, m.authLine p, ascii "sem " ++ m.semText p]

end Sys2Proof.Machine
end

