-- ==== Sys2Proof/Machine/Tokens.lean ====
section
/-! DEFINITION. Wilone lines up to check 4 of R242: checksum, tokens, verbs and names, numbers and units, values, hex blocks
(R217 to R230, R255). -/

namespace Sys2Proof.Machine

/-! ### Parsing

A parse carries the column of the leftmost value found out of range so far; it stops with the column of a token that breaks the
syntax, which every line is checked for first (R242). -/

/-- A parse: the column of a RANGE failure in the state, the column of a SYNTAX failure as the error. -/
abbrev Parse := StateT (Option Nat) (Except Nat)

/-- SYNTAX at a column (R233).
Log entry 42 (DEDUCED, unsafe). -/
def synAt {α : Type} (col : Nat) : Parse α := throw col

/-- RANGE at a column (R233); the leftmost one stands.
Log entry 42 (DEDUCED, unsafe). -/
def rangeAt (col : Nat) : Parse Unit :=
  modify (fun b => match b with
    | some c => some (min c col)
    | none => some col)

/-! ### Characters -/

/-- The digit of a decimal character. -/
def decDigit (b : Byte) : Option Nat := if 48 ≤ b.toNat ∧ b.toNat ≤ 57 then some (b.toNat - 48) else none

/-- The digit of a hexadecimal character. -/
def hexValue (b : Byte) : Option Nat :=
  let n := b.toNat
  if 48 ≤ n ∧ n ≤ 57 then some (n - 48)
  else if 65 ≤ n ∧ n ≤ 70 then some (n - 55)
  else if 97 ≤ n ∧ n ≤ 102 then some (n - 87)
  else none

/-- A character in lower case (R219). -/
def lowerByte (b : Byte) : Byte := if 65 ≤ b.toNat ∧ b.toNat ≤ 90 then b + 32 else b

/-- Text in lower case. -/
def lower (cs : List Byte) : List Byte := cs.map lowerByte

/-- The characters of a name, in lower case. -/
def lowerText (s : String) : List Byte := lower (ascii s)

/-! ### Checksum and tokens -/

/-- The checksum of a line and the line before it (R229). -/
def splitChecksum (cs : List Byte) : Option (List Byte × Nat) :=
  match cs.reverse with
  | b :: a :: 0x2A :: 0x20 :: rest =>
    match hexValue a, hexValue b with
    | some h, some l => some (rest.reverse, 16 * h + l)
    | _, _ => none
  | _ => none

/-- A token with its 1-based column (R217, R233). -/
structure Token where
  col : Nat
  text : List Byte
  deriving DecidableEq, Repr

/-- Tokens of the rest of a line that begins at a column; `cur` is the token in progress, reversed, with its column. -/
def tokensFrom (col : Nat) (cur : Option (Nat × List Byte)) : List Byte → List Token
  | [] => match cur with
    | some (c, t) => [⟨c, t.reverse⟩]
    | none => []
  | b :: bs =>
    if b = 0x20 then
      match cur with
      | some (c, t) => ⟨c, t.reverse⟩ :: tokensFrom (col + 1) none bs
      | none => tokensFrom (col + 1) none bs
    else
      match cur with
      | some (c, t) => tokensFrom (col + 1) (some (c, b :: t)) bs
      | none => tokensFrom (col + 1) (some (col, [b])) bs

/-- The tokens of a line (R217). -/
def tokens (cs : List Byte) : List Token := tokensFrom 1 none cs

/-! ### Verbs and names -/

/-- The candidate that a token selects: the one it equals, else the only one it is a prefix of (R219, R220).
Log entry 38 (DEDUCED, unsafe). -/
def pick (t : List Byte) (cands : List String) : Option String :=
  let t := lower t
  match cands.find? (fun c => lowerText c == t) with
  | some c => some c
  | none =>
    match cands.filter (fun c => t.isPrefixOf (lowerText c)) with
    | [c] => some c
    | _ => none

/-- The word of a list that a token equals; forms are not shortened.
Log entry 38 (DEDUCED, unsafe). -/
def exactly (t : List Byte) (words : List String) : Option Nat := words.findIdx? (fun c => lowerText c == lower t)

/-- A list's elements that are not yet `seen`, each once, in the order of their first places. -/
def distinctFrom (seen : List String) : List String → List String
  | [] => []
  | x :: rest => if seen.contains x then distinctFrom seen rest else x :: distinctFrom (x :: seen) rest

/-- A list's elements, each once, in the order of their first places. -/
def distinct (l : List String) : List String := distinctFrom [] l

/-- The segments of a dotted name. -/
def segments (cs : List Byte) : List (List Byte) := cs.splitOn 0x2E

/-- The number that a segment of decimal digits spells. -/
def indexOf (seg : List Byte) : Option Nat :=
  if seg.isEmpty then none else seg.foldl (fun n b => (do some (10 * (← n) + (← decDigit b)))) (some 0)

/-- The segment that a part of a name selects among those that may follow: a number by its value (R221), else R220.
Log entry 38 (DEDUCED, unsafe). -/
def pickSegment (seg : List Byte) (cands : List String) : Option String :=
  match indexOf seg with
  | some n => cands.find? (fun c => indexOf (ascii c) == some n)
  | none => if seg.isEmpty then none else pick seg cands

/-- The fields whose names begin with the segments of a token (R220 to R223), walking down the segments at depth `d`. -/
def narrow (d : Nat) : List (List Byte) → List NameField → Option (List NameField)
  | [], fs => if fs.isEmpty then none else some fs
  | seg :: rest, fs =>
    match pickSegment seg (distinct (fs.filterMap (fun f => f.path[d]?))) with
    | some s => narrow (d + 1) rest (fs.filter (fun f => f.path[d]? == some s))
    | none => none

/-- The fields that a name stands for: one, or every field of a branch (R223); the Bool says that it is a branch.
Log entry 38 (DEDUCED, unsafe). -/
def resolveName (names : List NameField) (t : Token) : Parse (Bool × List NameField) :=
  let segs := segments t.text
  match narrow 0 segs names with
  | some fs =>
    match fs.filter (fun f => f.path.length == segs.length) with
    | f :: _ => pure (false, [f])
    | [] => pure (true, fs)
  | none => synAt t.col

/-! ### Numbers -/

/-- A number as written (R224): `n / d`, negative when `neg`, with its suffix. -/
structure Numeral where
  neg : Bool
  n : Nat
  d : Nat
  unit : Option Qty
  deriving DecidableEq, Repr

/-- Hexadecimal digits with underscores between digits (R224): at most 16, all of the text.
Log entry 40 (DEDUCED, unsafe). -/
def hexNumber (cs : List Byte) : Option Nat :=
  let ds := cs.filter (fun b => b != 0x5F)
  if cs.head? = some 0x5F ∨ cs.getLast? = some 0x5F ∨ ds.isEmpty ∨ 16 < ds.length then none
  else ds.foldl (fun n b => (do some (16 * (← n) + (← hexValue b)))) (some 0)

/-- Decimal digits at the head of a text, and the rest.
Log entry 40 (DEDUCED, unsafe). -/
def digitsOf (cs : List Byte) : List Byte × List Byte := cs.span (fun b => (decDigit b).isSome)

/-- The number that decimal digits spell.
Log entry 40 (DEDUCED, unsafe). -/
def decNumber (ds : List Byte) : Nat := ds.foldl (fun n b => 10 * n + (b.toNat - 48)) 0

/-- A suffix: none, or one of R225. -/
def suffixOf (cs : List Byte) : Option (Option Qty) :=
  if cs.isEmpty then some none else (suffixes.find? (fun q => lowerText q.suffix == lower cs)).map some

/-- A number of R224 with its suffix; none where the text is not one. -/
def numeral (cs : List Byte) : Option Numeral :=
  match cs with
  | 0x30 :: 0x78 :: hs => (hexNumber hs).map (fun n => ⟨false, n, 1, none⟩)
  | _ =>
    let (neg, cs) := match cs with
      | 0x2D :: r => (true, r)
      | r => (false, r)
    let (whole, rest) := digitsOf cs
    if whole.isEmpty then none
    else
      match rest with
      | 0x2E :: r =>
        let (frac, r) := digitsOf r
        if frac.isEmpty then none
        else (suffixOf r).map (fun u => ⟨neg, decNumber (whole ++ frac), 10 ^ frac.length, u⟩)
      | r => (suffixOf r).map (fun u => ⟨neg, decNumber whole, 1, u⟩)

/-- The exact quotient of a number by a step `n / d` of a unit: none where it is not a whole multiple (R227), or its suffix names
another quantity (R226). -/
def Numeral.inSteps (x : Numeral) (u : Qty) (n d : Nat) : Option Int :=
  let scale := match x.unit with
    | some s => if s.kind = u.kind then some s.scale else none
    | none => some u.scale
  match scale with
  | some s =>
    let top := x.n * s * d
    let bot := x.d * u.scale * n
    if bot = 0 ∨ top % bot ≠ 0 then none
    else some (if x.neg then -((top / bot : Nat) : Int) else ((top / bot : Nat) : Int))
  | none => none

/-- A whole number without a suffix in a closed range: a plain operand of a verb. -/
def numberArg (t : Token) (lo hi : Nat) : Parse Nat :=
  match numeral t.text with
  | none => synAt t.col
  | some x =>
    match x.unit, x.inSteps qNone 1 1 with
    | none, some v => if (lo : Int) ≤ v ∧ v ≤ (hi : Int) then pure v.toNat else do
        rangeAt t.col
        pure lo
    | _, _ => do
        rangeAt t.col
        pure lo

/-! ### Values -/

/-- A whole value taken as a field of `w` bits. -/
def fitField (w : Nat) (sgn : Bool) (v : Int) : Option Nat :=
  if sgn then (if -(2 ^ (w - 1) : Nat) ≤ v ∧ v < (2 ^ (w - 1) : Nat) then some (unsignedOf w v) else none)
  else if 0 ≤ v ∧ v < (2 ^ w : Nat) then some v.toNat else none

/-- The exponent of a power of two. -/
def log2Of (v : Nat) : Option Nat := (List.range 64).find? (fun k => 2 ^ k == v)

/-- The field value of a numeral under a codec; `den`: the steps in a unit of an aux value. The value of a field that only `get`
takes is checked like any other (R226, R227); its `set` is refused at execution (R248). -/
def Codec.ofNumeral (c : Codec) (w den : Nat) (x : Numeral) : Option Nat :=
  match c with
  | .onoff => (x.inSteps qNone 1 1).bind (fitField 1 false)
  | .bit => (x.inSteps qNone 1 1).bind (fitField 1 false)
  | .enum names off => (x.inSteps qNone 1 1).bind (fun v =>
      if 0 ≤ v ∧ names.any (fun n => ((n.2 : Nat) : Int) == v + (off : Int)) then some (v.toNat + off) else none)
  | .list u vals => (x.inSteps u 1 1).bind (fun v => if 0 ≤ v then vals.findIdx? (fun n => n == v.toNat) else none)
  | .pow2 u base => (x.inSteps u base 1).bind (fun v => if 0 ≤ v then (log2Of v.toNat).bind (fun k => fitField w false k) else none)
  | .num u n d off sgn => (x.inSteps u n d).bind (fun v => fitField w sgn (v - off))
  | .word => (x.inSteps qNone 1 1).bind (fitField 32 false)
  | .addr => (x.inSteps qNone 1 1).bind (fun v => if 0 ≤ v ∧ v ≤ 0xFFFC then some v.toNat else none)
  | .leadcal => (x.inSteps qNone 1 1).bind (fun v => if 0 ≤ v ∧ v ≤ 7 then some (v.toNat + 256) else none)
  | .pair => (x.inSteps qNone 1 1).bind (fitField 48 false)
  | .digest => (x.inSteps qNone 1 1).bind (fitField 256 false)
  | .auxValue _ => (x.inSteps qNone 1 den).bind (fitField 24 true)

/-- The field value of a named value; a one-bit field of any codec takes `on` and `off` (R228). -/
def Codec.ofName (c : Codec) (w : Nat) (t : List Byte) : Option Nat :=
  match c with
  | .onoff => exactly t ["off", "on"]
  | .bit => exactly t ["off", "on"]
  | .enum names _ =>
    match names.find? (fun n => lowerText n.1 == lower t) with
    | some n => some n.2
    | none => if w = 1 then exactly t ["off", "on"] else none
  | _ => none

/-- A codec whose values have names (R228).
Log entry 39 (DEDUCED, unsafe). -/
def Codec.named (c : Codec) : Bool :=
  match c with
  | .onoff => true
  | .bit => true
  | .enum _ _ => true
  | _ => false

/-- A register field takes a value (R101, R720); a range of more bits than the field's stands for the field with zeros above. -/
def fieldTakes (f : NameField) (v : Nat) : Bool :=
  match regDef f.a with
  | some d => d.ranges.all (fun r =>
      !(r.lo == f.lo && f.w ≤ r.width) || r.ok.any (fun k => decide (k.1 ≤ v) && decide (v ≤ k.2)))
  | none => true

/-- A value token for a field (R224 to R228): SYNTAX or RANGE at its column; `den` as for `Codec.ofNumeral`. -/
def valueArg (f : NameField) (den : Nat) (t : Token) : Parse Nat :=
  let fail : Parse Nat := do
    rangeAt t.col
    pure 0
  match f.codec.ofName f.w t.text with
  | some v => if fieldTakes f v then pure v else fail
  | none =>
    match numeral t.text with
    | none => if f.codec.named then fail else synAt t.col
    | some x =>
      match f.codec.ofNumeral f.w den x with
      | some v => if fieldTakes f v then pure v else fail
      | none => fail

/-! ### Hex blocks -/

/-- The bytes of an even number of hexadecimal digits. -/
def hexBytes : List Byte → Option (List Byte)
  | [] => some []
  | a :: b :: rest => do
    let h ← hexValue a
    let l ← hexValue b
    let bs ← hexBytes rest
    some (BitVec.ofNat 8 (16 * h + l) :: bs)
  | _ => none

/-- A hex block (R255): groups of 8 digits with single spaces between, the last of 2, 4, 6 or 8; `prev` is the column at which the
next group must begin. -/
def hexGroups (prev : Option Nat) : List Token → Parse (List Byte)
  | [] => pure []
  | t :: ts => do
    let n := t.text.length
    let fits := if ts.isEmpty then n = 2 || n = 4 || n = 6 || n = 8 else n = 8
    if !fits || (prev.isSome && prev != some t.col) then synAt t.col
    else
      match hexBytes t.text with
      | none => synAt t.col
      | some bs => do
        let rest ← hexGroups (some (t.col + 9)) ts
        pure (bs ++ rest)

/-- A hex block of between `lo` and `hi` bytes that ends a line; `stop` is the column after the line. A block of another length is
SYNTAX at its first group: the manual names no code for it.
Log entry 134 (DESIGN CHOICE, unsafe). -/
def hexArg (ts : List Token) (lo hi stop : Nat) : Parse (List Byte) :=
  match ts with
  | [] => synAt stop
  | t :: _ => do
    let bs ← hexGroups none ts
    if lo ≤ bs.length ∧ bs.length ≤ hi then pure bs else synAt t.col

end Sys2Proof.Machine
end

