-- ==== Sys2Proof/Machine/Verbs.lean ====
section
/-! DEFINITION. The grammar of the Wilone verbs (R245, R255 to R257): from a line to a command, checks 1 to 4 of R242. -/

namespace Sys2Proof.Machine

/-- The verbs in the order of R245. -/
def verbNames : List String :=
  ["get", "set", "read", "write", "mode", "stream", "commit", "seal", "auth", "key", "engine", "event", "flue", "test", "spare",
   "upgrade", "lock", "who", "help"]

/-- The forms of a verb (R245), as `help VERB` shows them.
Log entry 38 (DEDUCED, unsafe). -/
def verbForms : List (List String) :=
  [["get N [N ...]"], ["set N V [N V ...]"], ["read A [count]"], ["write A W [W ...]"], ["mode run", "mode watch", "mode ember"],
   ["stream Q [offset] [count]"], ["commit Q blocks"], ["seal"],
   ["auth begin", "auth pub H", "auth respond H", "auth end", "auth status"],
   ["key pub", "key cert", "key enrol H", "key retire SERIAL"],
   ["engine start M", "engine stop M", "engine resume M", "engine load ENG L", "engine status"],
   ["event start M", "event stop M", "event load L", "event status"],
   ["flue list", "flue scan", "flue away ADDR", "flue back ADDR", "flue upgrade ADDR"],
   ["test run BLOCK", "test run all", "test show"], ["spare show", "spare use K UNIT"],
   ["upgrade begin fw SIZE", "upgrade begin engine L SIZE", "upgrade begin event L SIZE", "upgrade data OFFSET H",
    "upgrade commit", "upgrade abort", "upgrade status"],
   ["lock N V [N V ...]"], ["who"], ["help", "help VERB"]]

/-- A command: a verb and form with its operands, and the columns of those that execution can find out of range (R233). -/
inductive Cmd where
  | get (fs : List NameField)
  | set (items : List (NameField × Nat × Nat))
  | read (addr n : Nat)
  | write (addr : Nat) (ws : List Word) (cols : List Nat)
  | mode (t : Mode)
  | stream (q off n : Nat)
  | commit (q n col : Nat)
  | sealNow
  | authBegin
  | authPub (h : List Byte) (col : Nat)
  | authRespond (h : List Byte)
  | authEnd
  | authStatus
  | keyPub
  | keyCert
  | keyEnrol (h : List Byte) (col : Nat)
  | keyRetire
  | engineStart (mask : Nat)
  | engineStop (mask : Nat)
  | engineResume (mask : Nat)
  | engineLoad (eng entry col : Nat)
  | engineStatus
  | eventStart (mask : Nat)
  | eventStop (mask : Nat)
  | eventLoad (entry col : Nat)
  | eventStatus
  | flueList
  | flueScan
  | flueAway (w : Nat)
  | flueBack (w : Nat)
  | flueUpgrade (w : Nat)
  | testRun (tests : List Nat)
  | testShow
  | spareShow
  | spareUse (kind unit : Nat)
  | upgradeBegin (kind : UpKind) (entry size : Nat)
  | upgradeData (off : Nat) (bytes : List Byte)
  | upgradeCommit (col : Nat)
  | upgradeAbort
  | upgradeStatus
  | lock (items : List (NameField × Nat × Nat))
  | who
  | help (verb : Option Nat)
  deriving DecidableEq, Repr

/-- The verb of a command, as its place in `verbNames`. -/
def Cmd.verb : Cmd → Nat
  | .get _ => 0
  | .set _ => 1
  | .read _ _ => 2
  | .write _ _ _ => 3
  | .mode _ => 4
  | .stream _ _ _ => 5
  | .commit _ _ _ => 6
  | .sealNow => 7
  | .authBegin => 8
  | .authPub _ _ => 8
  | .authRespond _ => 8
  | .authEnd => 8
  | .authStatus => 8
  | .keyPub => 9
  | .keyCert => 9
  | .keyEnrol _ _ => 9
  | .keyRetire => 9
  | .engineStart _ => 10
  | .engineStop _ => 10
  | .engineResume _ => 10
  | .engineLoad _ _ _ => 10
  | .engineStatus => 10
  | .eventStart _ => 11
  | .eventStop _ => 11
  | .eventLoad _ _ => 11
  | .eventStatus => 11
  | .flueList => 12
  | .flueScan => 12
  | .flueAway _ => 12
  | .flueBack _ => 12
  | .flueUpgrade _ => 12
  | .testRun _ => 13
  | .testShow => 13
  | .spareShow => 14
  | .spareUse _ _ => 14
  | .upgradeBegin _ _ _ => 15
  | .upgradeData _ _ => 15
  | .upgradeCommit _ => 15
  | .upgradeAbort => 15
  | .upgradeStatus => 15
  | .lock _ => 16
  | .who => 17
  | .help _ => 18

/-! ### Operands -/

/-- What the grammar needs from the state: the issuing port's names, the device serial, SIZE of the port's open upgrade, the column
after the line, and the steps in a unit of each aux channel's value (R413). -/
structure Scope where
  names : List NameField
  serial : Nat
  size : Option Nat
  stop : Nat
  auxDens : List Nat

/-- A form without further operands. -/
def noArgs {α : Type} (c : α) : List Token → Parse α
  | [] => pure c
  | t :: _ => synAt t.col

/-- The next token; a missing one is shown at the column after the line. -/
def nextArg {α : Type} (x : Scope) (ts : List Token) (f : Token → List Token → Parse α) : Parse α :=
  match ts with
  | [] => synAt x.stop
  | t :: rest => f t rest

/-- A number operand. -/
def withNumber {α : Type} (x : Scope) (lo hi : Nat) (ts : List Token) (f : Nat → List Token → Parse α) : Parse α :=
  nextArg x ts (fun t rest => do f (← numberArg t lo hi) rest)

/-- A number operand, with its column. -/
def withNumberAt {α : Type} (x : Scope) (lo hi : Nat) (ts : List Token) (f : Nat → Nat → List Token → Parse α) : Parse α :=
  nextArg x ts (fun t rest => do f (← numberArg t lo hi) t.col rest)

/-- A number operand that may be missing. -/
def withOptional {α : Type} (lo hi dflt : Nat) (ts : List Token) (f : Nat → List Token → Parse α) : Parse α :=
  match ts with
  | [] => f dflt []
  | t :: rest => do f (← numberArg t lo hi) rest

/-- A word of a list. -/
def withWord {α : Type} (x : Scope) (words : List String) (ts : List Token) (f : Nat → List Token → Parse α) : Parse α :=
  nextArg x ts (fun t rest =>
    match exactly t.text words with
    | some k => f k rest
    | none => synAt t.col)

/-- The names of a `get` line, branches in full (R223). -/
def nameArgs (x : Scope) : List Token → Parse (List NameField)
  | [] => pure []
  | t :: rest => do
    let (_, fs) ← resolveName x.names t
    let more ← nameArgs x rest
    pure (fs ++ more)

/-- The steps in a unit of a field's aux value; 1 of any other field. -/
def Scope.denOf (x : Scope) (f : NameField) : Nat :=
  match f.codec with
  | .auxValue n => x.auxDens.getD n 1
  | _ => 1

/-- The names and values of a `set` or `lock` line, each value with its column; a branch is SYNTAX (R223). -/
def pairArgs (x : Scope) : List Token → Parse (List (NameField × Nat × Nat))
  | [] => pure []
  | [t] => do
    let (branch, _) ← resolveName x.names t
    synAt (if branch then t.col else x.stop)
  | t :: u :: rest => do
    match ← resolveName x.names t with
    | (false, f :: _) =>
      let v ← valueArg f (x.denOf f) u
      let more ← pairArgs x rest
      pure ((f, v, u.col) :: more)
    | _ => synAt t.col

/-- The words of a `write` line. -/
def wordArgs (x : Scope) : List Token → Parse (List Word)
  | [] => pure []
  | t :: rest => do
    let v ← numberArg t 0 0xFFFFFFFF
    let more ← wordArgs x rest
    pure (word v :: more)

/-- The serial of `key retire` as R256 wants it: 0x and 16 digits, with or without underscores. -/
def serialIs (serial : Nat) (t : List Byte) : Bool :=
  match t with
  | 0x30 :: 0x78 :: hs => (hs.filter (fun b => b != 0x5F)).length = 16 && hexNumber hs = some serial
  | _ => false

/-- The greatest SIZE of an image (R662); for the library, the whole of its area (R712).
Log entry 51 (DESIGN CHOICE, unsafe). -/
def sizeLimit (k : UpKind) : Nat :=
  match k with
  | .fw => 196608
  | .engine => 32768
  | .event => 32768

/-! ### Verbs -/

/-- A list that may not be empty. -/
def someArgs (x : Scope) (ts : List Token) : Parse Unit := if ts.isEmpty then synAt x.stop else pure ()

/-- The column of the first of some tokens. -/
def firstCol (ts : List Token) : Nat := (ts.head?.map (fun t => t.col)).getD 0

/-- `auth`. -/
def parseAuth (x : Scope) (ts : List Token) : Parse Cmd :=
  withWord x ["begin", "pub", "respond", "end", "status"] ts (fun k rest =>
    match k with
    | 0 => noArgs .authBegin rest
    | 1 => do pure (.authPub (← hexArg rest 64 64 x.stop) (firstCol rest))
    | 2 => do pure (.authRespond (← hexArg rest 64 64 x.stop))
    | 3 => noArgs .authEnd rest
    | _ => noArgs .authStatus rest)

/-- `key`; the operand of `key retire` is checked before any change (R256). -/
def parseKey (x : Scope) (ts : List Token) : Parse Cmd :=
  withWord x ["pub", "cert", "enrol", "retire"] ts (fun k rest =>
    match k with
    | 0 => noArgs .keyPub rest
    | 1 => noArgs .keyCert rest
    | 2 => do pure (.keyEnrol (← hexArg rest 64 64 x.stop) (firstCol rest))
    | _ => nextArg x rest (fun t more => do
        if serialIs x.serial t.text then pure () else rangeAt t.col
        noArgs .keyRetire more))

/-- `engine`. A mask with a bit for no engine is out of range.
Log entry 134 (DESIGN CHOICE, unsafe). -/
def parseEngine (x : Scope) (ts : List Token) : Parse Cmd :=
  withWord x ["start", "stop", "resume", "load", "status"] ts (fun k rest =>
    match k with
    | 0 => withNumber x 0 15 rest (fun m => noArgs (.engineStart m))
    | 1 => withNumber x 0 15 rest (fun m => noArgs (.engineStop m))
    | 2 => withNumber x 0 15 rest (fun m => noArgs (.engineResume m))
    | 3 => withNumber x 0 3 rest (fun e rest => withNumberAt x 0 15 rest (fun l c => noArgs (.engineLoad e l c)))
    | _ => noArgs .engineStatus rest)

/-- `event`. A mask with a bit for no machine is out of range.
Log entry 134 (DESIGN CHOICE, unsafe). -/
def parseEvent (x : Scope) (ts : List Token) : Parse Cmd :=
  withWord x ["start", "stop", "load", "status"] ts (fun k rest =>
    match k with
    | 0 => withNumber x 0 0xFFFF rest (fun m => noArgs (.eventStart m))
    | 1 => withNumber x 0 0xFFFF rest (fun m => noArgs (.eventStop m))
    | 2 => withNumberAt x 0 15 rest (fun l c => noArgs (.eventLoad l c))
    | _ => noArgs .eventStatus rest)

/-- `flue`. -/
def parseFlue (x : Scope) (ts : List Token) : Parse Cmd :=
  withWord x ["list", "scan", "away", "back", "upgrade"] ts (fun k rest =>
    match k with
    | 0 => noArgs .flueList rest
    | 1 => noArgs .flueScan rest
    | 2 => withNumber x 0 31 rest (fun w => noArgs (.flueAway w))
    | 3 => withNumber x 0 31 rest (fun w => noArgs (.flueBack w))
    | _ => withNumber x 0 31 rest (fun w => noArgs (.flueUpgrade w)))

/-- `test`: a block, or all of them. -/
def parseTest (x : Scope) (ts : List Token) : Parse Cmd :=
  withWord x ["run", "show"] ts (fun k rest =>
    match k with
    | 0 => withWord x (testNames ++ ["all"]) rest (fun b => noArgs (.testRun (if b = 7 then List.range 7 else [b])))
    | _ => noArgs .testShow rest)

/-- The highest UNIT of a spare kind; any 16-bit number for a kind that has none (R709, R715).
Log entry 125 (DEDUCED, unsafe). -/
def unitLimit (kind : Nat) : Nat :=
  match kind with
  | 0 => 65535
  | 1 => 127
  | 3 => 3
  | 4 => 2
  | 5 => 0
  | 6 => 7
  | _ => 65535

/-- `spare`. -/
def parseSpare (x : Scope) (ts : List Token) : Parse Cmd :=
  withWord x ["show", "use"] ts (fun k rest =>
    match k with
    | 0 => noArgs .spareShow rest
    | _ => withWord x kindNames rest (fun kind rest => withNumber x 0 (unitLimit kind) rest (fun u => noArgs (.spareUse kind u))))

/-- The column of the form of a verb: a range failure of a line without operands is shown there.
Log entry 42 (DEDUCED, unsafe). -/
def formCol (ts : List Token) : Nat := firstCol ts

/-- `upgrade`; OFFSET is a multiple of 48 whose bytes stay within SIZE (R257). -/
def parseUpgrade (x : Scope) (ts : List Token) : Parse Cmd :=
  withWord x ["begin", "data", "commit", "abort", "status"] ts (fun k rest =>
    match k with
    | 0 => withWord x ["fw", "engine", "event"] rest (fun kind rest =>
        match kind with
        | 0 => withNumber x 1 (sizeLimit .fw) rest (fun n => noArgs (.upgradeBegin .fw 0 n))
        | 1 => withNumber x 0 15 rest (fun l rest =>
            withNumber x 1 (sizeLimit .engine) rest (fun n => noArgs (.upgradeBegin .engine l n)))
        | _ => withNumber x 0 15 rest (fun l rest =>
            withNumber x 1 (sizeLimit .event) rest (fun n => noArgs (.upgradeBegin .event l n))))
    | 1 => nextArg x rest (fun t rest => do
        let off ← numberArg t 0 (sizeLimit .fw)
        let bs ← hexArg rest 1 48 x.stop
        if off % 48 = 0 && decide (off + bs.length ≤ x.size.getD (sizeLimit .fw)) then pure (.upgradeData off bs)
        else do
          rangeAt t.col
          pure (.upgradeData off bs))
    | 2 => noArgs (.upgradeCommit (formCol ts)) rest
    | 3 => noArgs .upgradeAbort rest
    | _ => noArgs .upgradeStatus rest)

/-- The queue names. -/
def queueNames : List String := ["q0", "q1", "q2", "q3", "q4"]

/-- `help VERB`; the verb may be shortened (R220). -/
def parseHelp (ts : List Token) : Parse Cmd :=
  match ts with
  | [] => pure (.help none)
  | t :: rest =>
    match pick t.text verbNames with
    | some v => noArgs (.help (verbNames.findIdx? (fun n => n == v))) rest
    | none => synAt t.col

/-- The operands of a verb. The manual bounds the offset of `stream` nowhere: it is any number that fits the largest buffer.
Log entry 134 (DESIGN CHOICE, unsafe). -/
def parseVerb (x : Scope) (verb : Nat) (ts : List Token) : Parse Cmd :=
  match verb with
  | 0 => do
    someArgs x ts
    pure (.get (← nameArgs x ts))
  | 1 => do
    someArgs x ts
    pure (.set (← pairArgs x ts))
  | 2 => withNumber x 0 0xFFFC ts (fun a rest => withOptional 1 256 1 rest (fun n => noArgs (.read a n)))
  | 3 => withNumber x 0 0xFFFC ts (fun a rest => do
      someArgs x rest
      pure (.write a (← wordArgs x rest) (rest.map (fun t => t.col))))
  | 4 => withWord x ["run", "watch", "ember"] ts (fun k =>
      noArgs (.mode (match k with
        | 0 => .run
        | 1 => .watch
        | _ => .ember)))
  | 5 => withWord x queueNames ts (fun q rest => withOptional 0 0xFFFFFF 0 rest (fun off rest =>
      withOptional 1 1000 1000 rest (fun n => noArgs (.stream q off n))))
  | 6 => withWord x queueNames ts (fun q rest => withNumberAt x 1 4096 rest (fun n c => noArgs (.commit q n c)))
  | 7 => noArgs .sealNow ts
  | 8 => parseAuth x ts
  | 9 => parseKey x ts
  | 10 => parseEngine x ts
  | 11 => parseEvent x ts
  | 12 => parseFlue x ts
  | 13 => parseTest x ts
  | 14 => parseSpare x ts
  | 15 => parseUpgrade x ts
  | 16 => do
    someArgs x ts
    pure (.lock (← pairArgs x ts))
  | 17 => noArgs .who ts
  | _ => parseHelp ts

/-! ### Checks 1 to 4 -/

/-- What checks 1 to 4 make of a line: a command; or the verb, when it was found, with the data lines and the code of the reply.
Either with whether the reply carries checksums (R231). -/
inductive LineCheck where
  | runs (checksum : Bool) (c : Cmd)
  | fails (verb : Option Nat) (checksum : Bool) (lines : List (List Byte)) (code : Nat)

/-- The line `col C` (R233).
Log entry 42 (DEDUCED, unsafe). -/
def colLine (c : Nat) : List (List Byte) := [ascii "col " ++ decText c]

/-- The scope of a line that a port issues. -/
def Mach.scope (m : Mach) (p : Port) (stop : Nat) : Scope :=
  ⟨nameFields (stayBit p), Config.serial.toNat,
    m.nv.upgrade.bind (fun u => if u.port = p then some u.size else none), stop, (List.range 8).map m.auxDen⟩

/-- A parse's outcome. -/
def outcomeOf (verb : Nat) (ck : Bool) (r : Except Nat (Cmd × Option Nat)) : LineCheck :=
  match r with
  | .ok (c, none) => .runs ck c
  | .ok (_, some col) => .fails (some verb) ck (colLine col) 17
  | .error col => .fails (some verb) ck (colLine col) 16

/-- Checks 1 to 4 of R242.
Log entry 43 (DEDUCED, unsafe). -/
def Mach.checkLine (m : Mach) (p : Port) (l : WaitingLine) : LineCheck :=
  if l.tooLong then .fails none false (colLine 161) 16
  else
    let (body, ck, good) := match splitChecksum l.chars with
      | some (b, h) => (b, true, (crc8 b).toNat == h)
      | none => (l.chars, false, true)
    if !good then .fails none false [] 11
    else
      match tokens body with
      | [] => .fails none ck (colLine 1) 16
      | t :: ts =>
        match (pick t.text verbNames).bind (fun v => verbNames.findIdx? (fun n => n == v)) with
        | some v => outcomeOf v ck ((parseVerb (m.scope p (body.length + 1)) v ts).run none)
        | none => .fails none ck (colLine t.col) 16

end Sys2Proof.Machine
end

