-- ==== Sys2Proof/Machine/Wilone.lean ====
section
/-! DEFINITION. Wilone commands: when a line begins to execute (R241), checks 5 and 6 of R242, and what each verb does
(R244 to R262). -/

namespace Sys2Proof.Machine

/-! ### Beginning a line (R241, R242, R246) -/

/-- A line of the other port stands before this port's (R241): it was terminated earlier, port A's first within one cycle.
Log entry 44 (DEDUCED, unsafe). -/
def Mach.waitsBehind (m : Mach) (p : Port) (l : WaitingLine) : Bool :=
  match (m.port p.other).waiting with
  | some k => decide (k.since < l.since) || (decide (k.since = l.since) && decide (p = .b))
  | none => false

/-- The line of a port that begins to execute now, if one does (R241).
Log entries 43 (DEDUCED, unsafe), 44 (DEDUCED, unsafe). -/
def Mach.lineDue (m : Mach) (p : Port) : Option WaitingLine :=
  match (m.port p).waiting with
  | some l =>
    if m.clk.life = .up && m.on 5 && m.pa.executing.isNone && m.pb.executing.isNone && (m.port p).finalLeft = 0 &&
        !m.waitsBehind p l then some l
    else none
  | none => none

/-- The semaphore of a register's block, as a mask. -/
def semBit (a : Nat) : BitVec 16 :=
  match blockSem (blockOf a) with
  | some n => BitVec.ofNat 16 (2 ^ n)
  | none => 0

/-- The semaphores of the blocks that a test isolates (R246, R700). -/
def testSems (b : Nat) : BitVec 16 :=
  match b with
  | 0 => 0x101
  | 1 => 0x8
  | 3 => 0x200
  | 4 => 0x26
  | 5 => 0x40
  | 6 => 0x10
  | _ => 0

/-- The semaphore of an image kind (R246).
Log entry 51 (DESIGN CHOICE, unsafe). -/
def upSem (k : UpKind) : BitVec 16 :=
  match k with
  | .fw => 0
  | .engine => 0x40
  | .event => 0x20

/-- The semaphore of the open upgrade's kind. -/
def Mach.openUpSem (m : Mach) : BitVec 16 :=
  match m.nv.upgrade with
  | some u => upSem u.kind
  | none => 0

/-- The fields of a `set` or `lock` line that are register fields. -/
def regItems (items : List (NameField × Nat × Nat)) : List NameField := (items.map Prod.fst).filter (fun f => decide (f.a < sessionBase))

/-- The semaphores that a command claims (R246).
Log entry 31 (DEDUCED, unsafe). -/
def Mach.cmdSems (m : Mach) (c : Cmd) : BitVec 16 :=
  match c with
  | .set items => (regItems items).foldl (fun s f => s ||| semBit f.a) 0
  | .lock items => (regItems items).foldl (fun s f => s ||| semBit f.a) 0
  | .write a _ _ => if implemented (a % 0x4000) then semBit (a % 0x4000) else 0
  | .mode _ => 0x400
  | .keyEnrol _ _ => 0x200
  | .keyRetire => 0x200
  | .engineStart _ => 0x40
  | .engineStop _ => 0x40
  | .engineResume _ => 0x40
  | .engineLoad _ _ _ => 0x40
  | .eventStart _ => 0x20
  | .eventStop _ => 0x20
  | .eventLoad _ _ => 0x20
  | .flueScan => 0x80
  | .flueAway _ => 0x80
  | .flueBack _ => 0x80
  | .flueUpgrade _ => 0x80
  | .testRun bs => bs.foldl (fun s b => s ||| testSems b) 0
  | .spareUse k _ => match spareSem k with
    | some n => BitVec.ofNat 16 (2 ^ n)
    | none => 0
  | .upgradeBegin k _ _ => upSem k
  | .upgradeData _ _ => m.openUpSem
  | .upgradeCommit _ => m.openUpSem
  | .upgradeAbort => m.openUpSem
  | _ => 0

/-- A command needs an authenticated session in OWNED (R246). -/
def Mach.cmdAuth (m : Mach) (p : Port) (c : Cmd) : Bool :=
  match c with
  | .get _ => false
  | .read _ _ => false
  | .stream _ _ _ => false
  | .commit _ _ _ => false
  | .sealNow => false
  | .authBegin => false
  | .authPub _ _ => false
  | .authRespond _ => false
  | .authEnd => false
  | .authStatus => false
  | .keyPub => false
  | .keyCert => false
  | .engineStatus => false
  | .eventStatus => false
  | .flueList => false
  | .testShow => false
  | .spareShow => false
  | .who => false
  | .help _ => false
  | .set items => (regItems items).any (fun f => !m.authExempt p f.a)
  | .write a ws _ => m.regHeader (.port p) true a ws.length = 9
  | _ => true

/-- `x_STATUS` after the frame of a `write` line (R169, R250). -/
def Mach.verbFrame (m : Mach) (p : Port) (code : Nat) : Mach :=
  m.updPort p (fun s => { s with last := code, lastAt := some m.clk.now, wcnt := s.wcnt + 1 })

/-- A waiting line leaves the line buffer. The final line before it has been taken (R241): the reply of a port's mode entry is no
longer alone (R673) and no longer waited for (R253), nor is that of an `upgrade commit` (R688).
Log entry 31 (DEDUCED, unsafe). -/
def Mach.beginLine (m : Mach) (p : Port) : Mach :=
  let m := m.updPort p (fun s => { s with waiting := none })
  let act := m.nv.activation.map (fun a => (if a.1 = some p then none else a.1, a.2))
  let m := { m with nv := { m.nv with activation := act } }
  match m.clk.entry with
  | some e => if e.byPort = some p then { m with clk := { m.clk with entry := some { e with mixed := true } } } else m
  | none => m

/-- A command ends with a code and no data. -/
def Mach.code (m : Mach) (p : Port) (ck : Bool) (c : Nat) : Mach := m.answer p ck [] (finalText c)

/-- The line of a RANGE failure (R233), which an execution finds at the column of a token.
Log entry 42 (DEDUCED, unsafe). -/
def rangeLine (c col : Nat) : List (List Byte) := if c = 17 then colLine col else []

/-- A command ends with a code and no data but the column of a RANGE failure. -/
def Mach.codeAt (m : Mach) (p : Port) (ck : Bool) (col c : Nat) : Mach := m.answer p ck (rangeLine c col) (finalText c)

/-- A command ends with data lines when its code is 0. -/
def Mach.replies (m : Mach) (p : Port) (ck : Bool) (c : Nat) (data : List (List Byte)) : Mach :=
  m.answer p ck (if c = 0 then data else []) (finalText c)

/-- A line that is refused before its execution; a `write` records the refusal, as its frame's status (R148, R169, R250). -/
def Mach.refuseLine (m : Mach) (p : Port) (ck : Bool) (c : Cmd) (code : Nat) : Mach :=
  match c with
  | .write a _ _ => ((m.noteAccess (.port p) code a).verbFrame p code).code p ck code
  | _ => m.code p ck code

/-- One verb's row: the port's line begins to execute, when it is due and its verb and form are this row's (`mine`); a line that
fails a check before its form is known is answered by any row of its verb, or, without a verb, by any row. `act` is the
execution (check 7).
Log entry 43 (DEDUCED, unsafe). -/
def Mach.verbRow (m : Mach) (p : Port) (verb : Nat) (mine : Cmd → Bool) (act : Mach → Bool → Cmd → Mach) : Mach :=
  match m.lineDue p with
  | none => m
  | some l =>
    match m.checkLine p l with
    | .fails v ck data code => if v.getD verb = verb then (m.beginLine p).answer p ck data (finalText code) else m
    | .runs ck c =>
      if c.verb ≠ verb || !mine c then m
      else
        let sems := m.cmdSems c
        let auth := m.cmdAuth p c
        let lacks := m.owned && !(m.port p).auth && auth
        let m := m.beginLine p
        if lacks then m.refuseLine p ck c 9
        else if sems &&& m.semsOf p.other ≠ 0 then m.refuseLine p ck c 5
        else act (m.updPort p (fun s => { s with semsCmd := sems })) ck c

/-! ### Writing: `set`, `write`, `lock` (R247 to R250) -/

/-- A write must wait for BUSY to clear (R121).
Log entry 45 (DEDUCED, unsafe). -/
def writeWaits (x : WriteItem) : Bool :=
  match x with
  | .field a _ _ _ _ => holdsP a
  | .frame a ws _ => (spanOf (a % 0x4000) ws.length).any holdsP
  | .echo _ => false
  | .prompt _ => false
  | .respond _ => true
  | .enrol _ _ => true
  | .retired => true

/-- The word that writes some fields of a register: its other fields at their current values, GO bits 0 (R249). -/
def Mach.fieldWord (m : Mach) (a : Nat) (mask word : Word) : Word :=
  let old := if isTxd a then m.live a else m.reg a
  let go := match regDef a with
    | some d => d.go
    | none => 0
  (old &&& ~~~(mask ||| go)) ||| (word &&& mask)

/-- One write of a line. -/
def Mach.writeItem (m : Mach) (p : Port) (x : WriteItem) : Nat × Mach :=
  match x with
  | .field a mask w _ _ => (m.applyHeld p).regWrite (.port p) a [(m.applyHeld p).fieldWord a mask w]
  | .frame a ws _ =>
    let (c, m) := (m.applyHeld p).regWrite (.port p) a ws
    (c, m.verbFrame p c)
  | .echo on => (0, m.updPort p (fun s => { s with echo := on }))
  | .prompt on => (0, m.updPort p (fun s => { s with prompt := on }))
  | .respond h => m.authRespond p h
  | .enrol h _ => m.keyEnrol p h
  | .retired => (0, m.keyRetired p)

/-- The line `at NAME` of a write that failed (R244). -/
def atLine (x : WriteItem) : List (List Byte) :=
  match x with
  | .field _ _ _ name _ => [ascii "at " ++ name]
  | _ => []

/-- The first word of a write that the block refuses: its place among the words. -/
def Mach.wordAtFault (m : Mach) (p : Port) (addr : Nat) (ws : List Word) : Nat :=
  let a := addr % 0x4000
  ((List.range ws.length).find? (fun i =>
    ((m.touch (blockOf a)).writeRun (.port p) (kindOf addr) (windowOf a).isSome (lastOf a) a (ws.take (i + 1))).1.isSome)).getD 0

/-- The column that a write which failed with RANGE shows (R233). -/
def Mach.writeCol (m : Mach) (p : Port) (x : WriteItem) : Nat :=
  match x with
  | .field _ _ _ _ col => col
  | .frame a ws cols => cols.getD ((m.applyHeld p).wordAtFault p a ws) 0
  | .enrol _ col => col
  | _ => 0

/-- The writes of a line in order: the first that fails ends it, one that must wait suspends it (R121, R244).
Log entries 42 (DEDUCED, unsafe), 45 (DEDUCED, unsafe). -/
def Mach.runWrites (m : Mach) (p : Port) (ck : Bool) : List WriteItem → Mach
  | [] => m.code p ck 0
  | x :: xs =>
    if m.busy && writeWaits x then m.updPort p (fun s => { s with executing := some ⟨.persist, x :: xs, [], [], ck⟩ })
    else
      let col := m.writeCol p x
      let (c, m) := m.writeItem p x
      if c = 0 then m.runWrites p ck xs else m.answer p ck (rangeLine c col ++ atLine x) (finalText c)

/-- A line that waited for BUSY goes on (R121).
Log entry 45 (DEDUCED, unsafe). -/
def Mach.resumeWrites (m : Mach) (p : Port) : Mach :=
  match (m.port p).executing with
  | some x =>
    match x.why with
    | .persist => if m.busy then m else m.runWrites p x.checksum x.todo
    | _ => m
  | none => m

/-- The bits of a field in its register. -/
def NameField.mask (f : NameField) : Word := word ((2 ^ f.w - 1) * 2 ^ f.lo)

/-- The bits that `set` writes (R248): RW, GO and P fields. -/
def settable (a : Nat) : Word :=
  match regDef a with
  | some d => d.rw ||| d.go ||| d.pp
  | none => 0

/-- The bits that `lock` writes (R249). -/
def lockable (a : Nat) : Word :=
  match regDef a with
  | some d => d.lk
  | none => 0

/-- The write of one field or session setting.
Log entry 45 (DEDUCED, unsafe). -/
def setItem (x : NameField × Nat × Nat) : WriteItem :=
  let (f, v, col) := x
  if f.a = sessionBase then .echo (v = 1)
  else if f.a = sessionBase + 1 then .prompt (v = 1)
  else .field f.a f.mask (word (v * 2 ^ f.lo)) f.text col

/-- A line that names a field its verb does not write: REFUSED, behind the first such name (R244, R248, R249). -/
def Mach.refuseField (m : Mach) (p : Port) (ck : Bool) (f : NameField) : Mach :=
  m.answer p ck [ascii "at " ++ f.text] (finalText 18)

/-- `set` does not write the field (R248). `aux.leadcal` spans reserved bits, which it leaves at 0 (R95, R430). -/
def NameField.cannotSet (f : NameField) : Bool :=
  match f.codec with
  | .leadcal => false
  | _ => f.mask &&& ~~~settable f.a ≠ 0

/-- `set` (R247, R248). -/
def Mach.runSet (m : Mach) (p : Port) (ck : Bool) (items : List (NameField × Nat × Nat)) : Mach :=
  match (regItems items).find? NameField.cannotSet with
  | some f => m.refuseField p ck f
  | none => m.runWrites p ck (items.map setItem)

/-- A field joins the write of its register, under the name first given (R249).
Log entry 45 (DEDUCED, unsafe). -/
def lockJoin (l : List WriteItem) (x : NameField × Nat × Nat) : List WriteItem :=
  let (f, v, col) := x
  let w := word (v * 2 ^ f.lo)
  if l.any (fun i => match i with
      | .field a _ _ _ _ => a == f.a
      | _ => false) then
    l.map (fun i => match i with
      | .field a mask old name c =>
        if a = f.a then .field a (mask ||| f.mask) ((old &&& ~~~f.mask) ||| w) name c else .field a mask old name c
      | i => i)
  else l ++ [.field f.a f.mask w f.text col]

/-- `lock` (R249). -/
def Mach.runLock (m : Mach) (p : Port) (ck : Bool) (items : List (NameField × Nat × Nat)) : Mach :=
  match items.find? (fun x => decide (sessionBase ≤ x.1.a) || decide (x.1.mask &&& ~~~lockable x.1.a ≠ 0)) with
  | some x => m.refuseField p ck x.1
  | none => m.runWrites p ck (items.foldl lockJoin [])

/-! ### Reading: `get`, `read`, `stream` (R245, R250, R251) -/

/-- A read that the command core makes for a port: `ACC_x_LAST` is the port's (R148, R250).
Log entry 46 (DEDUCED, unsafe). -/
def Mach.coreRead (m : Mach) (p : Port) (addr n : Nat) : Nat × List Word × Mach :=
  let (c, ws, m) := m.regRead .core addr n
  (c, ws, m.noteAccess (.port p) c addr)

/-- The words a field's value takes. -/
def Codec.span (c : Codec) : Nat :=
  match c with
  | .pair => 2
  | .digest => 8
  | _ => 1

/-- The value of a field on `get`: the code and the text. -/
def Mach.getField (m : Mach) (p : Port) (f : NameField) : Nat × List Byte × Mach :=
  if f.a = sessionBase then (0, ascii (if (m.port p).echo then "on" else "off"), m)
  else if f.a = sessionBase + 1 then (0, ascii (if (m.port p).prompt then "on" else "off"), m)
  else
    let (c, ws, m) := m.coreRead p f.a f.codec.span
    let den := match f.codec with
      | .auxValue n => m.auxDen n
      | _ => 1
    (c, f.show den ws, m)

/-- `get`: the lines up to the first access that fails (R244). -/
def Mach.getLines (m : Mach) (p : Port) (acc : List (List Byte)) : List NameField → Nat × List (List Byte) × Mach
  | [] => (0, acc, m)
  | f :: fs =>
    let (c, t, m) := m.getField p f
    if c ≠ 0 then (c, acc, m) else m.getLines p (acc ++ [spaced [f.text, t]]) fs

/-- `get` (R245). -/
def Mach.runGet (m : Mach) (p : Port) (ck : Bool) (fs : List NameField) : Mach :=
  let (c, ls, m) := m.getLines p [] fs
  m.answer p ck ls (finalText c)

/-- `read` (R250).
Log entry 46 (DEDUCED, unsafe). -/
def Mach.runRead (m : Mach) (p : Port) (ck : Bool) (addr n : Nat) : Mach :=
  let (c, ws, m) := m.coreRead p addr n
  m.answer p ck (readLines addr (windowOf (addr % 0x4000)).isSome ws) (finalText c)

/-- `stream` (R251): words of the readable region from an offset on, zeros beyond it. -/
def Mach.runStream (m : Mach) (p : Port) (ck : Bool) (q off n : Nat) : Mach :=
  let c := m.streamCheck p q
  if c ≠ 0 then m.code p ck c
  else
    let s := m.q q
    let size := s.readable.length * 1024
    let ws := if off < size then (s.wordsFrom (s.posOf off) n).map Prod.snd else []
    m.answer p ck (streamLines off (ws ++ List.replicate (n - ws.length) 0)) (finalText (if size < off + n then 8 else 0))

/-- `commit` (R251). -/
def Mach.runCommit (m : Mach) (p : Port) (ck : Bool) (q n col : Nat) : Mach :=
  let (c, m) := m.serveCommit p q n
  m.codeAt p ck col c

/-! ### Modes, seals, sessions, keys -/

/-- `mode` (R252 to R254, R671, R696), which writes `TARGET`; while a start runs it is refused as a write of `PWR_MODE` is.
Log entry 48 (DEDUCED, unsafe). -/
def Mach.runMode (m : Mach) (p : Port) (ck : Bool) (t : Mode) : Mach :=
  if m.clk.start.isSome then m.code p ck 18
  else
    let (c, m) := (m.setFld 0x800 0 2 t.code).enterMode t (some p) true true
    if c = 0 then m.code p ck 0 else m.answer p ck [ascii "refused " ++ ascii (refuserName c)] (finalText 18)

/-- A command waits for an event of the block. -/
def Mach.suspend (m : Mach) (p : Port) (ck : Bool) (why : Busy) : Mach :=
  m.updPort p (fun s => { s with executing := some ⟨why, [], [], [], ck⟩ })

/-- `seal` (R640, R658): DOMAIN_OFF without D4 or D7; otherwise its reply waits for its seal.
Log entry 47 (DEDUCED, unsafe). -/
def Mach.runSeal (m : Mach) (p : Port) (ck : Bool) : Mach :=
  if m.sec.life ≠ 1 && m.sec.life ≠ 2 then m.code p ck 18
  else if !m.canWrite then m.code p ck 1
  else if m.testing 3 || m.testing 6 then m.code p ck 14
  else (({ m with sec := { m.sec with verbs := m.sec.verbs ++ [p] } }).sealReason 2).suspend p ck .sealing

/-- `auth begin` (R647): 32 bytes of nonce and the ephemeral key.
Log entry 47 (DEDUCED, unsafe). -/
def Mach.runAuthBegin (m : Mach) (p : Port) (ck : Bool) : Mach :=
  let gate := m.blockCode 12
  if m.sec.life ≠ 2 then m.code p ck 18
  else if gate ≠ 0 then m.code p ck gate
  else
    let (c, m) := m.authBegin p
    let h := match (m.port p).challenge with
      | some x => digestBytes x.nonce ++ keyBytes x.qA
      | none => []
    m.replies p ck c [ascii "challenge " ++ hexBlock h]

/-- `auth pub` (R647).
Log entry 47 (DEDUCED, unsafe). -/
def Mach.runAuthPub (m : Mach) (p : Port) (ck : Bool) (h : List Byte) (col : Nat) : Mach :=
  let gate := m.blockCode 12
  if (m.port p).challenge.isNone then m.code p ck 18
  else if gate ≠ 0 then m.code p ck gate
  else
    let (c, m) := m.authPub p h
    m.codeAt p ck col c

/-- `auth respond` (R647, R649): the epoch it starts is a persistent write (R652).
Log entry 47 (DEDUCED, unsafe). -/
def Mach.runAuthRespond (m : Mach) (p : Port) (ck : Bool) (h : List Byte) : Mach :=
  let gate := m.blockCode 12
  if (m.port p).challenge.isNone then m.code p ck 18
  else if gate ≠ 0 then m.code p ck gate
  else m.runWrites p ck [.respond h]

/-- `auth end` (R650). -/
def Mach.runAuthEnd (m : Mach) (p : Port) (ck : Bool) : Mach := (m.authClear p).code p ck 0

/-- `auth status`. -/
def Mach.runAuthStatus (m : Mach) (p : Port) (ck : Bool) : Mach := m.replies p ck 0 [m.authLine p, m.lifeLine]

/-- `key pub` (R636).
Log entry 47 (DEDUCED, unsafe). -/
def Mach.runKeyPub (m : Mach) (p : Port) (ck : Bool) : Mach :=
  m.replies p ck (m.blockCode 12) [ascii "pub " ++ hexBlock (keyBytes m.sec.pub)]

/-- `key cert` (R639).
Log entry 47 (DEDUCED, unsafe). -/
def Mach.runKeyCert (m : Mach) (p : Port) (ck : Bool) : Mach := m.replies p ck (m.blockCode 12) m.sec.certLines

/-- `key enrol` (R642).
Log entry 47 (DEDUCED, unsafe). -/
def Mach.runKeyEnrol (m : Mach) (p : Port) (ck : Bool) (h : List Byte) (col : Nat) : Mach :=
  let gate := m.blockCode 12
  if m.sec.life ≠ 1 && m.sec.life ≠ 2 then m.code p ck 18
  else if gate ≠ 0 then m.code p ck gate
  else m.runWrites p ck [.enrol h col]

/-- `key retire` (R643): its reply waits for the retire seal and the writes after it.
Log entry 47 (DEDUCED, unsafe). -/
def Mach.runKeyRetire (m : Mach) (p : Port) (ck : Bool) : Mach :=
  if m.testing 3 || m.testing 6 then m.code p ck 14
  else
    let (c, m) := m.keyRetire p
    if c = 0 then m.suspend p ck .sealing else m.code p ck c

/-- SEAL_SIGNED (R643, R655, R658): the seal closes into Q3 or is discarded, and the lines that waited for it are answered; after a
retire seal `key retire` goes on. -/
def Mach.sealSignedRow (m : Mach) : Mach :=
  let retire := match m.sec.sealing with
    | some j => j.retire
    | none => false
  let (m, seq, ps) := m.sealSigned
  let m := ps.foldl (fun (m : Mach) p =>
    match seq with
    | some s => m.conclude p [ascii "seal " ++ decText s] 0
    | none => m.conclude p [] 18) m
  if !retire || m.sec.sealing.isSome then m
  else
    match m.sec.retiring, seq with
    | some p, some _ =>
      match (m.port p).executing with
      | some x => m.runWrites p x.checksum [.retired]
      | none => m.keyRetired p
    | some p, none => { m with sec := { m.sec with retiring := none } }.conclude p [] 18
    | none, _ => m

/-! ### Engines, events, Flue -/

/-- A write that a verb makes to a control register of its block (R259). -/
def Mach.runControl (m : Mach) (p : Port) (ck : Bool) (a mask : Nat) : Mach :=
  let (c, m) := m.regWrite (.port p) a [word mask]
  m.code p ck c

/-- A big-endian number in an image. -/
def imageNat (img : List Byte) (off n : Nat) : Nat := bytesNat ((img.drop off).take n)

/-- The fixed fields of an engine or event image (R474, R592): magic, level, kind, reserved bytes. -/
def imageLayout (k : UpKind) (img : List Byte) : Bool :=
  match k with
  | .fw => fwLayout img
  | .engine => decide (img.take 6 = [0x4E, 0x4C, 0x49, 0x50, 1, 1]) && imageNat img 7 1 == 0 && imageNat img 11 5 == 0
  | .event => decide (img.take 6 = [0x4E, 0x4C, 0x45, 0x50, 1, 2]) && imageNat img 12 4 == 0

/-- An image of a kind verifies (R661).
Log entry 52 (DESIGN CHOICE, unsafe). -/
def Mach.imageGood (m : Mach) (k : UpKind) (img : List Byte) : Bool := imageLayout k img && m.imageSigned (k == .fw) img

/-- The image of a kind in a library entry: magic and kind say what it is.
Log entry 52 (DESIGN CHOICE, unsafe). -/
def Mach.libImage (m : Mach) (k : UpKind) (entry : Nat) : Option (List Byte) :=
  match m.nv.images.find? (fun x => x.1 == entry) with
  | some (_, img) => if imageNat img 0 4 = (if k = .engine then 0x4E4C4950 else 0x4E4C4550) then some img else none
  | none => none

/-- The words of an image from an offset on. -/
def imageWords (img : List Byte) (off n : Nat) : List Word := (bytesWords (img.drop off)).take n

/-- The limits of an engine image (R592): load address, word count, the length they give, start bytes outside the mask 0. -/
def engineLimits (img : List Byte) : Bool :=
  let a := imageNat img 6 1
  let n := imageNat img 8 2
  let mask := imageNat img 10 1
  decide (1 ≤ n) && decide (a + n ≤ 256) && img.length == 24 + 4 * n + 132 &&
    (List.range 8).all (fun c => mask.testBit c || imageNat img (16 + c) 1 == 0)

/-- Words placed in a sparse memory from an address on. -/
def placeWords (mem : List (Nat × Word)) (a : Nat) (ws : List Word) : List (Nat × Word) :=
  ws.zipIdx.foldl (fun mem w => cellSet (fun _ => 0) mem (a + w.2) w.1) mem

/-- An engine image takes its place (R592): program words, and the start address and enable bit of each context in its mask. -/
def Mach.placeEngine (m : Mach) (n : Nat) (img : List Byte) : Mach :=
  let ws := imageWords img 24 (imageNat img 8 2)
  let mask := imageNat img 10 1
  let m := { m with mem := { m.mem with engProg := placeWords m.mem.engProg (256 * n + imageNat img 6 1) ws } }.engSpoil n
  ((List.range 8).filter (fun c => mask.testBit c)).foldl (fun (m : Mach) c =>
    (m.setFld (0x2400 + 128 * n + 16 * c) 0 8 (imageNat img (16 + c) 1)).setFld 0x2718 (8 * n + c) 1 1) m

/-- `engine load` (R143, R592).
Log entries 47 (DEDUCED, unsafe), 52 (DESIGN CHOICE, unsafe). -/
def Mach.engineLoad (m : Mach) (n entry : Nat) : Nat × Mach :=
  if m.blockCode 9 ≠ 0 then (m.blockCode 9, m)
  else if m.engActive n then (6, m)
  else if m.engReserved n then (18, m)
  else if m.blockCode 12 ≠ 0 then (m.blockCode 12, m)
  else
    match m.libImage .engine entry with
    | none => (18, m)
    | some img =>
      if !m.imageGood .engine img then (18, m.imageFail)
      else if !engineLimits img then (17, m)
      else (0, m.placeEngine n img)

/-- The machines that an event image names, in ascending order.
Log entry 52 (DESIGN CHOICE, unsafe). -/
def eventMask (img : List Byte) : List Nat := (List.range 16).filter (fun n => (imageNat img 10 2).testBit n)

/-- The registers of a machine that an event image carries, with their words (R474): CFG, CMPA, CMPB, HYSA, HYSB. -/
def eventRegs (img : List Byte) (k n : Nat) : List (Nat × Word) :=
  [0, 8, 0xC, 0x10, 0x14].zipIdx.map (fun o => (smBase n + o.1, word (imageNat img (16 + 24 * k + 4 * o.2) 4)))

/-- Every register that an event image carries. -/
def eventSettings (img : List Byte) : List (Nat × Word) := (eventMask img).zipIdx.flatMap (fun n => eventRegs img n.2 n.1)

/-- A register takes a word (R101).
Log entry 52 (DESIGN CHOICE, unsafe). -/
def takesWord (a : Nat) (w : Word) : Bool :=
  match regDef a with
  | some d => d.inRange w
  | none => false

/-- The limits of an event image (R474, R475). -/
def eventLimits (img : List Byte) : Bool :=
  let a := imageNat img 6 2
  let n := imageNat img 8 2
  let k := (eventMask img).length
  decide (1 ≤ n) && decide (a + n ≤ 1024) && img.length == 16 + 24 * k + 4 * n + 132 &&
    (List.range k).all (fun i => imageNat img (16 + 24 * i + 20) 4 == 0) && (eventSettings img).all (fun r => takesWord r.1 r.2)

/-- An event image takes its place (R475). -/
def Mach.placeEvent (m : Mach) (img : List Byte) : Mach :=
  let ws := imageWords img (16 + 24 * (eventMask img).length) (imageNat img 8 2)
  let m := { m with mem := { m.mem with evtProg := placeWords m.mem.evtProg (imageNat img 6 2) ws } }
  (eventSettings img).foldl (fun (m : Mach) r => m.setReg r.1 (r.2 &&& settable r.1)) m

/-- `event load` (R474, R475).
Log entries 47 (DEDUCED, unsafe), 52 (DESIGN CHOICE, unsafe). -/
def Mach.eventLoad (m : Mach) (entry : Nat) : Nat × Mach :=
  if m.blockCode 8 ≠ 0 then (m.blockCode 8, m)
  else if m.smBusy then (18, m)
  else if m.blockCode 12 ≠ 0 then (m.blockCode 12, m)
  else
    match m.libImage .event entry with
    | none => (18, m)
    | some img =>
      if !m.imageGood .event img then (18, m.imageFail)
      else if !eventLimits img then (17, m)
      else (0, m.placeEvent img)

/-- A code and a state, as a reply without data. -/
def Mach.ends (r : Nat × Mach) (p : Port) (ck : Bool) : Mach := r.2.code p ck r.1

/-- The code of a `flue` form other than `list` (R261): REFUSED on an NL4716 that is not a manager.
Log entry 50 (DEDUCED, unsafe). -/
def Mach.flueCode (m : Mach) : Nat := if !m.manager then 18 else m.blockCode 10

/-- `flue scan` (R245, R610). -/
def Mach.runFlueScan (m : Mach) (p : Port) (ck : Bool) (answers : List ScanAnswer) : Mach :=
  if m.flueCode ≠ 0 then m.code p ck m.flueCode
  else
    let m := m.scan answers
    m.replies p ck 0 m.flueLines

/-- `flue away` (R624): an ACTIVE worker becomes AWAY.
Log entry 50 (DEDUCED, unsafe). -/
def Mach.flueAway (m : Mach) (w : Nat) : Nat × Mach :=
  if m.flueCode ≠ 0 then (m.flueCode, m)
  else if (m.worker w).st ≠ 1 then (18, m)
  else (0, (m.away w 1).updWorker w (fun x => { x with commanded := true }))

/-- `flue back` (R624): the attach may bring an AWAY worker back.
Log entry 50 (DEDUCED, unsafe). -/
def Mach.flueBack (m : Mach) (w : Nat) : Nat × Mach :=
  if m.flueCode ≠ 0 then (m.flueCode, m)
  else if !(m.worker w).commanded then (18, m)
  else (0, m.updWorker w (fun x => { x with commanded := false }))

/-- `flue upgrade` (R626, R627): the running image, in lines of 48 bytes.
Log entries 53 (DESIGN CHOICE, unsafe), 112 (DEDUCED, unsafe). -/
def Mach.flueUpgrade (m : Mach) (w : Nat) : Nat × Mach :=
  if m.flueCode ≠ 0 then (m.flueCode, m)
  else if (m.worker w).st ≠ 1 || m.flue.forward.isSome then (18, m)
  else if !m.fwVerifies m.running.image then (18, m.imageFail)
  else (0, { m with flue := { m.flue with forward := some ⟨w, 0, (m.running.image.length + 47) / 48⟩ } })

/-! ### Tests and spares -/

/-- `test run` (R260, R698, R715): the line waits for its run to end. -/
def Mach.runTests (m : Mach) (p : Port) (ck : Bool) (tests : List Nat) : Mach :=
  let c := m.testCheck tests
  if c ≠ 0 then m.code p ck c else (m.suspend p ck .testing).runStart .command tests (some p) true false

/-- The `test run` line of a run that has ended is answered (R704). -/
def Mach.testReply (r : Mach × Option (Port × List Nat)) : Mach :=
  match r with
  | (m, some (p, bs)) => m.conclude p (bs.map m.testLine) 0
  | (m, none) => m

/-- `spare use` (R709). -/
def Mach.runSpareUse (m : Mach) (p : Port) (ck : Bool) (kind unit : Nat) : Mach :=
  let c := m.spareCheck kind unit
  if c ≠ 0 then m.code p ck c else (m.spareUse kind unit false).code p ck 0

/-! ### Upgrades (R257, R258, R688) -/

/-- The upgrade that a port has open.
Log entry 51 (DESIGN CHOICE, unsafe). -/
def Mach.upgradeOf (m : Mach) (p : Port) : Option Upgrade := m.nv.upgrade.bind (fun u => if u.port = p then some u else none)

/-- In RETIRED `upgrade` is refused (R640).
Log entry 51 (DESIGN CHOICE, unsafe). -/
def Mach.retired (m : Mach) : Bool := decide (m.sec.life = 3)

/-- `upgrade begin`.
Log entry 51 (DESIGN CHOICE, unsafe). -/
def Mach.upgradeBegin (m : Mach) (p : Port) (k : UpKind) (entry size : Nat) : Nat × Mach :=
  if m.retired || m.nv.upgrade.isSome then (18, m)
  else (0, { m with nv := { m.nv with upgrade := some ⟨p, k, entry, size, []⟩ } })

/-- Bytes placed at an offset, over those received there before.
Log entry 51 (DESIGN CHOICE, unsafe). -/
def placePiece (l : List (Nat × List Byte)) (off : Nat) (bs : List Byte) : List (Nat × List Byte) :=
  match l.find? (fun x => x.1 == off) with
  | some (_, old) => l.map (fun x => if x.1 = off then (off, bs ++ old.drop bs.length) else x)
  | none => l ++ [(off, bs)]

/-- `upgrade data`.
Log entry 51 (DESIGN CHOICE, unsafe). -/
def Mach.upgradeData (m : Mach) (p : Port) (off : Nat) (bs : List Byte) : Nat × Mach :=
  match m.upgradeOf p with
  | none => (18, m)
  | some u =>
    if m.retired then (18, m)
    else (0, { m with nv := { m.nv with upgrade := some { u with pieces := placePiece u.pieces off bs } } })

/-- The image that the pieces make, in order of their offsets; none while a byte is missing. -/
def Upgrade.image (u : Upgrade) : Option (List Byte) :=
  (List.range ((u.size + 47) / 48)).foldl (fun acc k =>
    match acc, u.pieces.find? (fun x => x.1 == 48 * k) with
    | some img, some (_, bs) => if bs.length = min 48 (u.size - 48 * k) then some (img ++ bs) else none
    | _, _ => none) (some [])

/-- The non-volatile area of an image (R712).
Log entry 53 (DESIGN CHOICE, unsafe). -/
def Mach.imageArea (m : Mach) (k : UpKind) : Nat := if k ≠ .fw then 6 else if m.nv.runB then 0 else 1

/-- A verified image is written: the slot that does not run becomes TRY and NEXT (R688), or a library entry takes it. `lost`: the
write found no spare row, which leaves an image that fails its check (R712).
Log entry 53 (DESIGN CHOICE, unsafe). -/
def Mach.storeImage (m : Mach) (p : Port) (u : Upgrade) (img : List Byte) (lost : Bool) : Mach :=
  match u.kind with
  | .fw =>
    if lost then m.updSlot (!m.nv.runB) (fun _ => ⟨.bad, [], none⟩)
    else
      let m := m.updSlot (!m.nv.runB) (fun _ => ⟨.try_, img, none⟩)
      { m with nv := { m.nv with nextB := !m.nv.runB, activation := some (some p, m.clk.now) } }
  | _ =>
    let rest := m.nv.images.filter (fun x => x.1 != u.entry)
    { m with nv := { m.nv with images := if lost then rest else rest ++ [(u.entry, img)] } }

/-- `upgrade commit` (R257, R661, R688): the image is complete and verifies, or is discarded.
Log entries 47 (DEDUCED, unsafe), 53 (DESIGN CHOICE, unsafe). -/
def Mach.upgradeCommit (m : Mach) (p : Port) (rows : RowCheck) : Nat × Mach :=
  match m.upgradeOf p with
  | none => (18, m)
  | some u =>
    if m.retired then (18, m)
    else if m.blockCode 12 ≠ 0 then (m.blockCode 12, m)
    else
      let m := { m with nv := { m.nv with upgrade := none } }
      match u.image with
      | none => (17, m)
      | some img =>
        if !m.imageGood u.kind img then (18, m.imageFail)
        else
          let area := m.imageArea u.kind
          match rowOutcome rows false (m.nv.nvRows.getD area 0) with
          | 0 => (0, m.storeImage p u img false)
          | 1 => (0, (m.takeNvRow area).storeImage p u img false)
          | _ => (18, (m.storeImage p u img true).imageFail)

/-- `upgrade abort` (R258).
Log entry 51 (DESIGN CHOICE, unsafe). -/
def Mach.upgradeAbort (m : Mach) (p : Port) : Nat × Mach :=
  match m.upgradeOf p with
  | none => (18, m)
  | some _ => if m.retired then (18, m) else (0, { m with nv := { m.nv with upgrade := none } })

/-! ### `help` (R245, R262) -/

/-- The lines of `help`.
Log entry 49 (DEDUCED, unsafe). -/
def helpLines (verb : Option Nat) : List (List Byte) :=
  match verb with
  | none => [ascii (String.intercalate " " verbNames)]
  | some v => (verbForms.getD v []).map ascii

end Sys2Proof.Machine
end

