-- ==== Sys2Proof/Machine/RowsHost.lean ====
section
/-! DEFINITION. The rows of the host ports (R145 to R211): frames, text, sessions, leases, semaphores. Each row's effect is an operation of the block on
the state; the waiting commands stay as they are. -/

namespace Sys2Proof.Machine

/-- TEXT_INPUT (R171). A text input frame or async text byte is appended to the port's line buffer; a terminator ends the line. -/
def execTextInput (p : Port) (e : TextEnv) (bytes : List Byte) (s : State) : Host.Outcome State Fault Refusal :=
  goOn s (s.m.textInput p e bytes)

/-- REG_READ (R145). A binary register read frame returns a status byte and up to 256 words after the turnaround. -/
def execRegRead (p : Port) (e : FrameEnv) (addr : BitVec 16) (count : Byte) (s : State) : Host.Outcome State Fault Refusal :=
  goOn s (s.m.regReadFrame p e addr count)

/-- REG_WRITE (R165). A binary register write frame for registers without a row of their own is checked at its header and applied word by word. -/
def execRegWrite (p : Port) (e : FrameEnv) (addr : BitVec 16) (count : Byte) (words : List Word) (s : State) : Host.Outcome State Fault Refusal :=
  goOn s (s.m.regWriteFrame p e addr count words)

/-- STREAM_READ (R178). A frame reads words of a queue from a filled frame store without moving the read pointer and starts the next fill. -/
def execStreamRead (p : Port) (e : FrameEnv) (queue : Byte) (offset : BitVec 24) (count : Byte) (s : State) : Host.Outcome State Fault Refusal :=
  goOn s (s.m.streamFrame p e queue offset count)

/-- TEXT_READ (R173). A frame delivers waiting reply bytes, padded to the count, and removes them from the reply buffer. -/
def execTextRead (p : Port) (e : FrameEnv) (count : Byte) (s : State) : Host.Outcome State Fault Refusal :=
  goOn s (s.m.textReadFrame p e count)

/-- PORT_STATUS (R183). A frame returns the port status word without side effect. -/
def execPortStatus (p : Port) (e : FrameEnv) (s : State) : Host.Outcome State Fault Refusal :=
  goOn s (s.m.portStatusFrame p e)

/-- COMMIT (R181). A frame advances a queue's read pointer by whole blocks, subject to R539. -/
def execCommit (p : Port) (e : FrameEnv) (queue : Byte) (blocks : BitVec 16) (s : State) : Host.Outcome State Fault Refusal :=
  goOn s (s.m.commitFrame p e queue blocks)

/-- SESSION_RESET (R185). A frame with 0xA5 empties the port's buffers, ends authentication, releases semaphores and restores session defaults. -/
def execSessionReset (p : Port) (e : FrameEnv) (confirm : Byte) (s : State) : Host.Outcome State Fault Refusal :=
  goOn s (s.m.sessionFrame p e confirm)

/-- UNNAMED_FRAME (R163). A frame whose byte 0 names no frame type is ignored and counted in x_FRAMES. -/
def execUnnamedFrame (p : Port) (e : FrameEnv) (byte0 : Byte) (s : State) : Host.Outcome State Fault Refusal :=
  goOn s (s.m.unnamedFrame p e byte0)

/-- ASYNC_FRAME_GAP (R195). More than 20 bit times between host bytes of an async binary frame discards the frame. -/
def execAsyncFrameGap (p : Port) (byte0 : Byte) (s : State) : Host.Outcome State Fault Refusal :=
  goOn s (s.m.frameGap p byte0)

/-- BREAK (R192). SDIO held low for a break restarts baud detection. -/
def execBreakLow (p : Port) (lowTicks : Nat) (s : State) : Host.Outcome State Fault Refusal :=
  goOn s (s.m.breakLow p lowTicks)

/-- REPLY_BYTE_SEND (R197). In the async personality a reply byte is sent once SDIO has been idle for 2 bit times. -/
def execReplyByteSend (p : Port) (idleTicks : Nat) (readBack : Byte) (s : State) : Host.Outcome State Fault Refusal :=
  goOn s (s.m.replySend p idleTicks readBack)

/-- SEL_WAKE (R208). A falling edge of A_SEL or B_SEL wakes D5 or the device, or aborts a test of a port under test. -/
def execSelWake (p : Port) (lowTicks : Nat) (s : State) : Host.Outcome State Fault Refusal :=
  goOn s (Mach.testReply (s.m.selWake p lowTicks))

/-- LEASE_EXPIRY (R204). A port's semaphore lease runs out and its semaphores not held by a command are released. -/
def execLeaseExpiry (p : Port) (s : State) : Host.Outcome State Fault Refusal :=
  goOn s (s.m.leaseExpiry p)

/-- SEM_CLAIM (R199). A write claims the named semaphores for the writing port, or is refused with SEM_HELD. -/
def execSemClaim (ag : Agent) (kind : AccessKind) (w : Word) (s : State) : Host.Outcome State Fault Refusal :=
  goOn s (s.m.oneWrite ag kind 0x440 w)

/-- SEM_RELEASE (R200). A write releases the named semaphores that the writing port holds. -/
def execSemRelease (ag : Agent) (kind : AccessKind) (w : Word) (s : State) : Host.Outcome State Fault Refusal :=
  goOn s (s.m.oneWrite ag kind 0x444 w)

/-- INTSRC_SEQ_INCREMENT (R207). 7.6 µs after the last increment, one pending SEQ increment of x_INTSRC is made. -/
def execIntsrcSeqIncrement (p : Port) (s : State) : Host.Outcome State Fault Refusal :=
  goOn s (s.m.flushInt p)

/-- REPLY_LOST_TIMEOUT (R236). A data line that has waited 1 s for room causes the rest of the reply's data lines to be discarded with a lost line. -/
def execReplyLostTimeout (p : Port) (s : State) : Host.Outcome State Fault Refusal :=
  goOn s (s.m.replyLost p)

/-- STORE_FILL_DONE (R176). A stream reader's frame store finishes filling 186.92 µs after its fill began, fixing the words it holds from the readable region as it then stands. -/
def execStoreFillDone (p : Port) (ecc : List EccFinding) (s : State) : Host.Outcome State Fault Refusal :=
  goOn s (s.m.storeFillDone p ecc)

end Sys2Proof.Machine
end

