-- ==== Sys2Proof/Machine/RowsPower.lean ====
section
/-! DEFINITION. The rows of modes, starts, supplies, self-tests and spares (R51 to R68, R668 to R719). Each row's effect is an operation of the block on
the state; the waiting commands stay as they are. -/

namespace Sys2Proof.Machine

/-- PWR_DOM_WRITE (R670). A write to PWR_DOM switches the changed domains in Run, or is refused. -/
def execPwrDomWrite (ag : Agent) (kind : AccessKind) (w : Word) (s : State) : Host.Outcome State Fault Refusal :=
  goOn s (s.m.oneWrite ag kind 0x80C w)

/-- PWR_MODE_ENTER (R671). A write of ENTER with TARGET starts a mode entry, checking refusers and closing blocks. -/
def execPwrModeEnter (ag : Agent) (kind : AccessKind) (w : Word) (s : State) : Host.Outcome State Fault Refusal :=
  goOn s (s.m.oneWrite ag kind 0x800 w)

/-- SELF_TEST_END (R701). A block's test ends with a result, the block is re-initialised and the next test starts. -/
def execSelfTestEnd (o : TestOutcome) (s : State) : Host.Outcome State Fault Refusal :=
  goOn s (Mach.testReply (s.m.selfTestEnd o))

/-- ENTRY_SWITCH_OFF (R672). Phase 5 switches domains to their Watch or Ember states, D5 last after the reply is taken or 50 ms. -/
def execEntrySwitchOff (s : State) : Host.Outcome State Fault Refusal :=
  goOn s (s.m.entryOff)

/-- WAKE_TIMER (R680). The Hearth wake timer expires and wakes the device. -/
def execWakeTimer (s : State) : Host.Outcome State Fault Refusal :=
  goOn s (s.m.wakeTimer)

/-- POWER_ON_RELEASE (R683). VSUP rises above the power-on release and a cold start begins. -/
def execPowerOnRelease (straps : Straps) (s : State) : Host.Outcome State Fault Refusal :=
  goOn s (s.m.powerOn straps)

/-- RESET_N (R719). An accepted RESET_N pulse gives the whole reset and a cold start on its rise. -/
def execResetN (lowNs : Nat) (straps : Straps) (s : State) : Host.Outcome State Fault Refusal :=
  goOn s (s.m.resetN lowNs straps)

/-- VHOLD_ARMED (R67). VHOLD reaches its armed level, allowing a waiting start to complete into Run. -/
def execVholdArmed (s : State) : Host.Outcome State Fault Refusal :=
  goOn s (s.m.vholdUp)

/-- START_COMPLETE (R685). A start reaches Run after its sequence, self-test and VHOLD arming. -/
def execStartComplete (s : State) : Host.Outcome State Fault Refusal :=
  goOn s (s.m.startComplete)

/-- FIRMWARE_ACTIVATION (R688). After the upgrade commit reply is taken or 50 ms, the device commits and cold starts into the new slot. -/
def execFirmwareActivation (straps : Straps) (s : State) : Host.Outcome State Fault Refusal :=
  goOn s (s.m.activate straps)

/-- SLOT_GOOD (R688). A TRY slot becomes GOOD after 10 s of Run without a cold start. -/
def execSlotGood (s : State) : Host.Outcome State Fault Refusal :=
  goOn s (s.m.slotGood)

/-- POWER_FAIL (R690). VSUP falls through the power-fail threshold; domains switch off and the commit runs from VHOLD. -/
def execPowerFail (lowNs : Nat) (s : State) : Host.Outcome State Fault Refusal :=
  goOn s (s.m.powerFail lowNs)

/-- COMMIT_DONE (R690). The power-fail commit writes its validity mark, and a start follows if VSUP has returned. -/
def execCommitDone (rowFailed : Bool) (s : State) : Host.Outcome State Fault Refusal :=
  goOn s (s.m.commitDone rowFailed)

/-- VIO_LOSS (R57). VIO falls below 1.5 V and every VIO-domain pin goes high impedance and inputs are ignored. -/
def execVioLoss (s : State) : Host.Outcome State Fault Refusal :=
  goOn s (s.m.vioLoss)

/-- VIO_RETURN (R57). VIO rises above 1.5 V and the VIO-domain pins return to their levels within 10 µs. -/
def execVioReturn (levels : VioLevels) (s : State) : Host.Outcome State Fault Refusal :=
  goOn s (s.m.vioReturn levels)

/-- BIST_RUN (R715). A write of BIST_RUN runs the named tests in order. -/
def execBistRun (ag : Agent) (kind : AccessKind) (w : Word) (s : State) : Host.Outcome State Fault Refusal :=
  goOn s (s.m.oneWrite ag kind 0x3400 w)

/-- SPARE_USE_GO (R709). A write of SPARE_USE with GO brings in a spare of a kind for a unit. -/
def execSpareUseGo (ag : Agent) (kind : AccessKind) (w : Word) (s : State) : Host.Outcome State Fault Refusal :=
  goOn s (s.m.oneWrite ag kind 0x34A0 w)

/-- SPARE_COPY_DONE (R708). The copy of a row or bank into its spare completes and the unit is remapped. -/
def execSpareCopyDone (s : State) : Host.Outcome State Fault Refusal :=
  goOn s (s.m.copyDone)

/-- ENTRY_COMMIT_POINT (R672). When phase 2 of a mode entry has closed its blocks, the refusers are checked again and the entry aborts, or goes on to phase 4 (Ember) or phase 5 (Watch). -/
def execEntryCommitPoint (s : State) : Host.Outcome State Fault Refusal :=
  goOn s (s.m.entryCommit)

/-- VHOLD_ABSENT (R58). With VSUP gone, VHOLD runs down, so a commit in progress is left without its mark and D0 and every pin lose power. -/
def execVholdAbsent (s : State) : Host.Outcome State Fault Refusal :=
  goOn s (s.m.vholdAbsent)

end Sys2Proof.Machine
end

