-- ==== Sys2Proof/Machine/RowsRegister.lean ====
section
/-! DEFINITION. The rows of the register model (R88 to R144, R721): single writes, clears, windows, clocks, persistent writes. Each row's effect is an operation of the block on
the state; the waiting commands stay as they are. -/

namespace Sys2Proof.Machine

/-- STATUS_CLEAR (R111). A SEQ write-back clears the marked SQ bits of a status register, or is refused on a SEQ mismatch or a pending increment. -/
def execStatusClear (ag : Agent) (addr : BitVec 16) (w : Word) (s : State) : Host.Outcome State Fault Refusal :=
  goOn s (s.m.oneWrite ag (kindOf addr.toNat) (addr.toNat % 0x4000) w)

/-- COUNTER_CLEAR (R116). A SEQ write-back sets a counter's COUNT to 0, or is refused on a SEQ mismatch. -/
def execCounterClear (ag : Agent) (addr : BitVec 16) (w : Word) (s : State) : Host.Outcome State Fault Refusal :=
  goOn s (s.m.oneWrite ag (kindOf addr.toNat) (addr.toNat % 0x4000) w)

/-- WINDOW_SEQ_INCREMENT (R721). At the end of a window in which events set SQ bits, the register's SEQ increments once. -/
def execWindowSeqIncrement (addr : BitVec 16) (s : State) : Host.Outcome State Fault Refusal :=
  goOn s (s.m.flushSeq addr.toNat)

/-- DATA_WINDOW_ACCESS (R140). A word read or written through a data register accesses the memory at the index and advances the index. -/
def execDataWindowAccess (ag : Agent) (addr : BitVec 16) (write : Option Word) (s : State) : Host.Outcome State Fault Refusal :=
  goOn s (s.m.windowAccess ag addr.toNat write)

/-- GATED_WRITE_APPLY (R133). A write held by the port for a clock-gated block is applied within 1.0 µs. -/
def execGatedWriteApply (p : Port) (s : State) : Host.Outcome State Fault Refusal :=
  goOn s (s.m.gatedWriteApply p)

/-- CLOCK_GATE (R131). A block not accessed for at least 100 µs may gate its clock. -/
def execClockGate (block : Fin 15) (s : State) : Host.Outcome State Fault Refusal :=
  goOn s (s.m.clockGate block.val)

/-- PERSIST_WRITE_DONE (R118). The posted-write controller marks the new row valid, or moves it to a spare row, and BUSY clears. -/
def execPersistWriteDone (readBack : RowCheck) (s : State) : Host.Outcome State Fault Refusal :=
  goOn s (((s.m.persistDone readBack).resumeWrites .a).resumeWrites .b)

/-- REGISTER_WRITE (R100). A write to a register without a row of its own applies all its fields in one FOSC cycle. -/
def execRegisterWrite (ag : Agent) (addr : BitVec 16) (w : Word) (s : State) : Host.Outcome State Fault Refusal :=
  goOn s (s.m.oneWrite ag (kindOf addr.toNat) (addr.toNat % 0x4000) w)

end Sys2Proof.Machine
end

