-- ==== Sys2Proof/Machine/RowsSecurity.lean ====
section
/-! DEFINITION. The rows of seals, sessions and keys that no line asks for (R641 to R658). Each row's effect is an operation of the block on
the state; the waiting commands stay as they are. -/

namespace Sys2Proof.Machine

/-- SEAL_TIMER (R529). 10 s after the last seal composition a periodic seal is due. -/
def execSealTimer (s : State) : Host.Outcome State Fault Refusal :=
  goOn s (s.m.sealTimer)

/-- SEAL_COMPOSE (R657). The command core composes a seal block serving every waiting reason. -/
def execSealCompose (s : State) : Host.Outcome State Fault Refusal :=
  goOn s (s.m.sealCompose)

/-- SEAL_SIGNED (R655). The ECDSA signature of a seal completes and the seal block closes into Q3. -/
def execSealSigned (s : State) : Host.Outcome State Fault Refusal :=
  goOn s (s.m.sealSignedRow)

/-- CHALLENGE_EXPIRY (R650). A challenge expires 60 s after its auth begin. -/
def execChallengeExpiry (p : Port) (s : State) : Host.Outcome State Fault Refusal :=
  goOn s (s.m.challengeExpiry p)

/-- AUTH_LOCKOUT_END (R649). 10 s after the eighth failure, auth begin is accepted again on the port. -/
def execAuthLockoutEnd (p : Port) (s : State) : Host.Outcome State Fault Refusal :=
  goOn s (s.m.authLockoutEnd p)

/-- KEY_GENERATION (R641). At Abaent manufacture the device key pair is generated and the certificate loaded, moving the lifecycle from MANUFACTURED to OPEN. -/
def execKeyGeneration (cert : CertFrame) (caCert : List Byte) (s : State) : Host.Outcome State Fault Refusal :=
  goOn s (s.m.keyGeneration cert.head cert.tail caCert)

end Sys2Proof.Machine
end

