-- ==== Sys2Proof/Machine/RowsSignal.lean ====
section
/-! DEFINITION. The rows of the motion, filter and angle blocks (R263 to R384): starts, hold updates, outputs, castling, revolutions. Each row's effect is an operation of the block on
the state; the waiting commands stay as they are. -/

namespace Sys2Proof.Machine

/-- The group's number (R301). -/
def groupIndex (g : Group) : Nat :=
  match g with
  | .acf => 0
  | .ach => 1
  | .gyr => 2
  | .tmp => 3
  | .aux n => 4 + n.val
  | .resampler => 12

/-- SOURCE_START (R321, R326): a motion group's element has started; or an aux channel starts, so that its next conversion is a source
start. A block under test starts nothing (R700). -/
def Mach.groupStart (m : Mach) (g : Nat) : Mach :=
  if isAux g then
    (if m.on 2 && m.on 3 && m.auxActive (g - 4) && !m.testing 1 && !m.testing 4 then
      m.updChan (g - 4) (fun c => { c with fresh := true })
    else m)
  else if m.testing 0 || m.testing 4 then m
  else (m.sourceStart g).angJoin

/-- SOURCE_START (R321). The first input after an element's start time, D3 switching ON or a channel start restarts its chains with zero history. -/
def execSourceStart (g : Group) (s : State) : Host.Outcome State Fault Refusal :=
  goOn s (s.m.groupStart (groupIndex g))

/-- HOLD_UPDATE (R272). At every multiple of 131,072 ticks the servo computes the held value H of each ACF axis. -/
def execHoldUpdate (m : HoldInput) (s : State) : Host.Outcome State Fault Refusal :=
  goOn s (s.m.holdUpdate m)

/-- FILTER_OUTPUT (R315). At each output instant a chain forms an output with its flags and passes it to queues, event engine and resampler. -/
def execFilterOutput (g : Group) (inputs : List (List Sample)) (s : State) : Host.Outcome State Fault Refusal :=
  goOn s ((s.m.filterOutput (groupIndex g) inputs).eventWake)

/-- CASTLE_REQUEST (R337). A write of 1 to a REQ bit of FLT_CASTLE requests or pends castling, or is refused with CASTLE_BUSY. -/
def execCastleRequest (ag : Agent) (kind : AccessKind) (w : Word) (s : State) : Host.Outcome State Fault Refusal :=
  goOn s (s.m.oneWrite ag kind 0x10C0 w)

/-- SYNC_ARM (R329). A write of 1 to FLT_SYNC.ARM arms a synchronising reset. -/
def execSyncArm (ag : Agent) (kind : AccessKind) (w : Word) (s : State) : Host.Outcome State Fault Refusal :=
  goOn s (s.m.oneWrite ag kind 0x10C4 w)

/-- SYNCHRONISING_RESET (R331). At the selected instant every chain restarts with zero history and the reset instant is recorded. -/
def execSynchronisingReset (s : State) : Host.Outcome State Fault Refusal :=
  goOn s (s.m.syncDue (s.m.manager && (s.m.busOn 0 || s.m.busOn 1)))

/-- COEF_LOAD (R347). FLT_CLIB GO with DIR load starts loading a library entry into a FIR bank. -/
def execCoefLoad (ag : Agent) (kind : AccessKind) (w : Word) (s : State) : Host.Outcome State Fault Refusal :=
  goOn s (s.m.oneWrite ag kind 0x10D0 w)

/-- COEF_SAVE (R347). FLT_CLIB GO with DIR save starts saving a FIR bank into a library entry. -/
def execCoefSave (ag : Agent) (kind : AccessKind) (w : Word) (s : State) : Host.Outcome State Fault Refusal :=
  goOn s (s.m.oneWrite ag kind 0x10D0 w)

/-- COEF_TRANSFER_DONE (R347). A library load or save ends, RESULT is set and GO clears. -/
def execCoefTransferDone (rowFailed : Bool) (s : State) : Host.Outcome State Fault Refusal :=
  goOn s (s.m.transferDone rowFailed)

/-- ANGLE_RATE_OUTPUT (R355). At each angle rate decimator output θ advances with scale and pending correction. -/
def execAngleRateOutput (inputs : List Sample) (s : State) : Host.Outcome State Fault Refusal :=
  goOn s (s.m.angleRate inputs)

/-- REFERENCE_INSTANT (R362). An accepted KEY edge or gravity instant is accepted, ignored or starts tracking, and the phase loop runs. -/
def execReferenceInstant (instant : Nat) (s : State) : Host.Outcome State Fault Refusal :=
  goOn s (s.m.reference instant)

/-- KEY_MISS (R362). 1.5 rev pass without an accepted reference instant and the resampler enters HOLDOVER. -/
def execKeyMiss (s : State) : Host.Outcome State Fault Refusal :=
  goOn s (s.m.keyMiss)

/-- SPIN_LOW (R357). ω stays below f_min for 1/f_min s and the resampler enters SEARCH. -/
def execSpinLow (s : State) : Host.Outcome State Fault Refusal :=
  goOn s (s.m.spinLow)

/-- REVOLUTION_END (R375). θ crosses an integer and the revolution marker, order record and angle steps are written into Q1 and passed to the event engine. -/
def execRevolutionEnd (s : State) : Host.Outcome State Fault Refusal :=
  goOn s (s.m.revolutionEnd.eventWake)

/-- KEY_EDGE (R75). An accepted KEY edge is timestamped as a reference instant, revolution instant or wake source. -/
def execKeyEdge (level : Bool) (ticks : Nat) (s : State) : Host.Outcome State Fault Refusal :=
  goOn s ((s.m.keyEdge level ticks).eventWake)

end Sys2Proof.Machine
end

