-- ==== Sys2Proof/Machine/RowsWilone.lean ====
section
/-! DEFINITION. The rows of the Wilone verbs (R245 to R262), one per verb and form. Each row's effect is an operation of the block on
the state; the waiting commands stay as they are. -/

namespace Sys2Proof.Machine

/-- GET (R245). The get verb replies with one line per named field. -/
def execGetVerb (p : Port) (s : State) : Host.Outcome State Fault Refusal :=
  goOn s (s.m.verbRow p 0 (fun c => match c with
    | .get _ => true
    | _ => false) (fun m ck c => match c with
    | .get fs => m.runGet p ck fs
    | _ => m))

/-- SET (R247). The set verb checks the whole line and then writes each named field in order. -/
def execSetVerb (p : Port) (s : State) : Host.Outcome State Fault Refusal :=
  goOn s (s.m.verbRow p 1 (fun c => match c with
    | .set _ => true
    | _ => false) (fun m ck c => match c with
    | .set items => m.runSet p ck items
    | _ => m))

/-- READ (R250). The read verb acts as one REG_READ frame and shows every word. -/
def execReadVerb (p : Port) (s : State) : Host.Outcome State Fault Refusal :=
  goOn s (s.m.verbRow p 2 (fun c => match c with
    | .read _ _ => true
    | _ => false) (fun m ck c => match c with
    | .read a n => m.runRead p ck a n
    | _ => m))

/-- WRITE (R250). The write verb acts as one REG_WRITE frame with its CRC correct. -/
def execWriteVerb (p : Port) (s : State) : Host.Outcome State Fault Refusal :=
  goOn s (s.m.verbRow p 3 (fun c => match c with
    | .write _ _ _ => true
    | _ => false) (fun m ck c => match c with
    | .write a ws cols => m.runWrites p ck [.frame a ws cols]
    | _ => m))

/-- MODE (R252). The mode verb starts an entry into Run, Watch or Ember, or names the refuser. -/
def execModeVerb (p : Port) (s : State) : Host.Outcome State Fault Refusal :=
  goOn s (s.m.verbRow p 4 (fun c => match c with
    | .mode _ => true
    | _ => false) (fun m ck c => match c with
    | .mode t => m.runMode p ck t
    | _ => m))

/-- STREAM (R251). The stream verb reads words of a queue as STREAM_READ does. -/
def execStreamVerb (p : Port) (s : State) : Host.Outcome State Fault Refusal :=
  goOn s (s.m.verbRow p 5 (fun c => match c with
    | .stream _ _ _ => true
    | _ => false) (fun m ck c => match c with
    | .stream q off n => m.runStream p ck q off n
    | _ => m))

/-- COMMIT_VERB (R251). The commit verb advances a queue's read pointer as COMMIT does. -/
def execCommitVerb (p : Port) (s : State) : Host.Outcome State Fault Refusal :=
  goOn s (s.m.verbRow p 6 (fun c => match c with
    | .commit _ _ _ => true
    | _ => false) (fun m ck c => match c with
    | .commit q n col => m.runCommit p ck q n col
    | _ => m))

/-- SEAL (R658). The seal verb closes open blocks and replies with the sequence of the seal that follows. -/
def execSealVerb (p : Port) (s : State) : Host.Outcome State Fault Refusal :=
  goOn s (s.m.verbRow p 7 (fun c => match c with
    | .sealNow => true
    | _ => false) (fun m ck c => match c with
    | .sealNow => m.runSeal p ck
    | _ => m))

/-- AUTH_BEGIN (R647). Opens a challenge with a nonce and an ephemeral key pair. -/
def execAuthBegin (p : Port) (s : State) : Host.Outcome State Fault Refusal :=
  goOn s (s.m.verbRow p 8 (fun c => match c with
    | .authBegin => true
    | _ => false) (fun m ck c => match c with
    | .authBegin => m.runAuthBegin p ck
    | _ => m))

/-- AUTH_PUB (R647). Takes the owner public key for the open challenge and checks it against the owner digest. -/
def execAuthPub (p : Port) (s : State) : Host.Outcome State Fault Refusal :=
  goOn s (s.m.verbRow p 8 (fun c => match c with
    | .authPub _ _ => true
    | _ => false) (fun m ck c => match c with
    | .authPub h col => m.runAuthPub p ck h col
    | _ => m))

/-- AUTH_RESPOND (R649). Verifies the signature over M; success authenticates the port and starts an owner epoch, failure counts it. -/
def execAuthRespond (p : Port) (s : State) : Host.Outcome State Fault Refusal :=
  goOn s (s.m.verbRow p 8 (fun c => match c with
    | .authRespond _ => true
    | _ => false) (fun m ck c => match c with
    | .authRespond h => m.runAuthRespond p ck h
    | _ => m))

/-- AUTH_END (R650). Ends the port's authentication and discards any open challenge. -/
def execAuthEnd (p : Port) (s : State) : Host.Outcome State Fault Refusal :=
  goOn s (s.m.verbRow p 8 (fun c => match c with
    | .authEnd => true
    | _ => false) (fun m ck c => match c with
    | .authEnd => m.runAuthEnd p ck
    | _ => m))

/-- AUTH_STATUS (R647). Replies with the authentication state and lifecycle state. -/
def execAuthStatus (p : Port) (s : State) : Host.Outcome State Fault Refusal :=
  goOn s (s.m.verbRow p 8 (fun c => match c with
    | .authStatus => true
    | _ => false) (fun m ck c => match c with
    | .authStatus => m.runAuthStatus p ck
    | _ => m))

/-- KEY_PUB (R636). Returns the device public key. -/
def execKeyPub (p : Port) (s : State) : Host.Outcome State Fault Refusal :=
  goOn s (s.m.verbRow p 9 (fun c => match c with
    | .keyPub => true
    | _ => false) (fun m ck c => match c with
    | .keyPub => m.runKeyPub p ck
    | _ => m))

/-- KEY_CERT (R639). Returns the device and CA certificates. -/
def execKeyCert (p : Port) (s : State) : Host.Outcome State Fault Refusal :=
  goOn s (s.m.verbRow p 9 (fun c => match c with
    | .keyCert => true
    | _ => false) (fun m ck c => match c with
    | .keyCert => m.runKeyCert p ck
    | _ => m))

/-- KEY_ENROL (R642). Stores the owner digest and OWNED, ends authentication, starts an open epoch and requests a LIFE seal. -/
def execKeyEnrol (p : Port) (s : State) : Host.Outcome State Fault Refusal :=
  goOn s (s.m.verbRow p 9 (fun c => match c with
    | .keyEnrol _ _ => true
    | _ => false) (fun m ck c => match c with
    | .keyEnrol h col => m.runKeyEnrol p ck h col
    | _ => m))

/-- KEY_RETIRE (R643). Closes blocks, writes a RETIRE seal, destroys the private key and stores RETIRED. -/
def execKeyRetire (p : Port) (s : State) : Host.Outcome State Fault Refusal :=
  goOn s (s.m.verbRow p 9 (fun c => match c with
    | .keyRetire => true
    | _ => false) (fun m ck c => match c with
    | .keyRetire => m.runKeyRetire p ck
    | _ => m))

/-- ENGINE_START (R259). The engine start verb writes ENG_START with its mask. -/
def execEngineStart (p : Port) (s : State) : Host.Outcome State Fault Refusal :=
  goOn s (s.m.verbRow p 10 (fun c => match c with
    | .engineStart _ => true
    | _ => false) (fun m ck c => match c with
    | .engineStart k => m.runControl p ck 0x2708 k
    | _ => m))

/-- ENGINE_STOP (R259). The engine stop verb writes ENG_STOP with its mask. -/
def execEngineStop (p : Port) (s : State) : Host.Outcome State Fault Refusal :=
  goOn s (s.m.verbRow p 10 (fun c => match c with
    | .engineStop _ => true
    | _ => false) (fun m ck c => match c with
    | .engineStop k => m.runControl p ck 0x270C k
    | _ => m))

/-- ENGINE_RESUME (R259). The engine resume verb writes ENG_RESUME with its mask. -/
def execEngineResume (p : Port) (s : State) : Host.Outcome State Fault Refusal :=
  goOn s (s.m.verbRow p 10 (fun c => match c with
    | .engineResume _ => true
    | _ => false) (fun m ck c => match c with
    | .engineResume k => m.runControl p ck 0x2710 k
    | _ => m))

/-- ENGINE_LOAD (R592). Copies a signed engine image from the library into an engine's program memory. -/
def execEngineLoad (p : Port) (s : State) : Host.Outcome State Fault Refusal :=
  goOn s (s.m.verbRow p 10 (fun c => match c with
    | .engineLoad _ _ _ => true
    | _ => false) (fun m ck c => match c with
    | .engineLoad n l col =>
      let r := m.engineLoad n l
      r.2.codeAt p ck col r.1
    | _ => m))

/-- ENGINE_STATUS (R245). Replies with the state and program counter of each engine. -/
def execEngineStatus (p : Port) (s : State) : Host.Outcome State Fault Refusal :=
  goOn s (s.m.verbRow p 10 (fun c => match c with
    | .engineStatus => true
    | _ => false) (fun m ck c => match c with
    | .engineStatus => m.replies p ck (m.blockCode 9) m.engineLines
    | _ => m))

/-- EVENT_START (R259). The event start verb writes EVT_SMSTART with its mask. -/
def execEventStart (p : Port) (s : State) : Host.Outcome State Fault Refusal :=
  goOn s (s.m.verbRow p 11 (fun c => match c with
    | .eventStart _ => true
    | _ => false) (fun m ck c => match c with
    | .eventStart k => m.runControl p ck 0x2000 k
    | _ => m))

/-- EVENT_STOP (R259). The event stop verb writes EVT_SMSTOP with its mask. -/
def execEventStop (p : Port) (s : State) : Host.Outcome State Fault Refusal :=
  goOn s (s.m.verbRow p 11 (fun c => match c with
    | .eventStop _ => true
    | _ => false) (fun m ck c => match c with
    | .eventStop k => m.runControl p ck 0x2004 k
    | _ => m))

/-- EVENT_LOAD (R474). Copies a signed event image from the library into program memory and machine registers. -/
def execEventLoad (p : Port) (s : State) : Host.Outcome State Fault Refusal :=
  goOn s (s.m.verbRow p 11 (fun c => match c with
    | .eventLoad _ _ => true
    | _ => false) (fun m ck c => match c with
    | .eventLoad l col =>
      let r := m.eventLoad l
      r.2.codeAt p ck col r.1
    | _ => m))

/-- EVENT_STATUS (R245). Replies with the state and program counter of each machine. -/
def execEventStatus (p : Port) (s : State) : Host.Outcome State Fault Refusal :=
  goOn s (s.m.verbRow p 11 (fun c => match c with
    | .eventStatus => true
    | _ => false) (fun m ck c => match c with
    | .eventStatus => m.replies p ck (m.blockCode 8) m.eventLines
    | _ => m))

/-- FLUE_LIST (R245). Replies with one line per worker. -/
def execFlueList (p : Port) (s : State) : Host.Outcome State Fault Refusal :=
  goOn s (s.m.verbRow p 12 (fun c => match c with
    | .flueList => true
    | _ => false) (fun m ck c => match c with
    | .flueList => m.replies p ck (m.blockCode 10) m.flueLines
    | _ => m))

/-- FLUE_SCAN (R610). The manager reads the identity of every address of its enabled buses. -/
def execFlueScan (p : Port) (answers : List ScanAnswer) (s : State) : Host.Outcome State Fault Refusal :=
  goOn s (s.m.verbRow p 12 (fun c => match c with
    | .flueScan => true
    | _ => false) (fun m ck c => match c with
    | .flueScan => m.runFlueScan p ck answers
    | _ => m))

/-- FLUE_AWAY (R624). Makes an ACTIVE worker AWAY by command. -/
def execFlueAway (p : Port) (s : State) : Host.Outcome State Fault Refusal :=
  goOn s (s.m.verbRow p 12 (fun c => match c with
    | .flueAway _ => true
    | _ => false) (fun m ck c => match c with
    | .flueAway w =>
      let r := m.flueAway w
      r.2.code p ck r.1
    | _ => m))

/-- FLUE_BACK (R624). Lets an AWAY worker return by attach. -/
def execFlueBack (p : Port) (s : State) : Host.Outcome State Fault Refusal :=
  goOn s (s.m.verbRow p 12 (fun c => match c with
    | .flueBack _ => true
    | _ => false) (fun m ck c => match c with
    | .flueBack w =>
      let r := m.flueBack w
      r.2.code p ck r.1
    | _ => m))

/-- FLUE_UPGRADE (R626). Starts forwarding the running firmware image to a worker. -/
def execFlueUpgrade (p : Port) (s : State) : Host.Outcome State Fault Refusal :=
  goOn s (s.m.verbRow p 12 (fun c => match c with
    | .flueUpgrade _ => true
    | _ => false) (fun m ck c => match c with
    | .flueUpgrade w =>
      let r := m.flueUpgrade w
      r.2.code p ck r.1
    | _ => m))

/-- TEST_RUN (R260). Isolates and tests the named blocks and replies with their results. -/
def execTestRun (p : Port) (s : State) : Host.Outcome State Fault Refusal :=
  goOn s (s.m.verbRow p 13 (fun c => match c with
    | .testRun _ => true
    | _ => false) (fun m ck c => match c with
    | .testRun bs => m.runTests p ck bs
    | _ => m))

/-- TEST_SHOW (R245). Replies with the stored result of each block. -/
def execTestShow (p : Port) (s : State) : Host.Outcome State Fault Refusal :=
  goOn s (s.m.verbRow p 13 (fun c => match c with
    | .testShow => true
    | _ => false) (fun m ck c => match c with
    | .testShow => m.replies p ck 0 m.testLines
    | _ => m))

/-- SPARE_SHOW (R245). Replies with remaining and used spares and the state of each kind. -/
def execSpareShow (p : Port) (s : State) : Host.Outcome State Fault Refusal :=
  goOn s (s.m.verbRow p 14 (fun c => match c with
    | .spareShow => true
    | _ => false) (fun m ck c => match c with
    | .spareShow => m.replies p ck 0 m.spareLines
    | _ => m))

/-- SPARE_USE (R709). The spare use verb brings in a spare for a unit. -/
def execSpareUse (p : Port) (s : State) : Host.Outcome State Fault Refusal :=
  goOn s (s.m.verbRow p 14 (fun c => match c with
    | .spareUse _ _ => true
    | _ => false) (fun m ck c => match c with
    | .spareUse k u => m.runSpareUse p ck k u
    | _ => m))

/-- UPGRADE_BEGIN (R257). Opens an upgrade of firmware, an engine image or an event image of a given size. -/
def execUpgradeBegin (p : Port) (s : State) : Host.Outcome State Fault Refusal :=
  goOn s (s.m.verbRow p 15 (fun c => match c with
    | .upgradeBegin _ _ _ => true
    | _ => false) (fun m ck c => match c with
    | .upgradeBegin k e n =>
      let r := m.upgradeBegin p k e n
      r.2.code p ck r.1
    | _ => m))

/-- UPGRADE_DATA (R257). Places up to 48 bytes at an offset of the open image. -/
def execUpgradeData (p : Port) (s : State) : Host.Outcome State Fault Refusal :=
  goOn s (s.m.verbRow p 15 (fun c => match c with
    | .upgradeData _ _ => true
    | _ => false) (fun m ck c => match c with
    | .upgradeData off bs =>
      let r := m.upgradeData p off bs
      r.2.code p ck r.1
    | _ => m))

/-- UPGRADE_COMMIT (R257). Checks the image for completeness and signature and writes it, making a firmware slot TRY and NEXT. -/
def execUpgradeCommit (p : Port) (rows : RowCheck) (s : State) : Host.Outcome State Fault Refusal :=
  goOn s (s.m.verbRow p 15 (fun c => match c with
    | .upgradeCommit _ => true
    | _ => false) (fun m ck c => match c with
    | .upgradeCommit col =>
      let r := m.upgradeCommit p rows
      r.2.codeAt p ck col r.1
    | _ => m))

/-- UPGRADE_ABORT (R258). Ends an open upgrade without effect. -/
def execUpgradeAbort (p : Port) (s : State) : Host.Outcome State Fault Refusal :=
  goOn s (s.m.verbRow p 15 (fun c => match c with
    | .upgradeAbort => true
    | _ => false) (fun m ck c => match c with
    | .upgradeAbort =>
      let r := m.upgradeAbort p
      r.2.code p ck r.1
    | _ => m))

/-- UPGRADE_STATUS (R245). Replies with the open upgrade or idle. -/
def execUpgradeStatus (p : Port) (s : State) : Host.Outcome State Fault Refusal :=
  goOn s (s.m.verbRow p 15 (fun c => match c with
    | .upgradeStatus => true
    | _ => false) (fun m ck c => match c with
    | .upgradeStatus => m.replies p ck 0 [m.upgradeLine]
    | _ => m))

/-- LOCK (R249). Writes LK fields, one write per register, locking every LK field of each register. -/
def execLockVerb (p : Port) (s : State) : Host.Outcome State Fault Refusal :=
  goOn s (s.m.verbRow p 16 (fun c => match c with
    | .lock _ => true
    | _ => false) (fun m ck c => match c with
    | .lock items => m.runLock p ck items
    | _ => m))

/-- WHO (R245). Replies with part, serial, firmware, port, lifecycle, authentication and held semaphores. -/
def execWhoVerb (p : Port) (s : State) : Host.Outcome State Fault Refusal :=
  goOn s (s.m.verbRow p 17 (fun c => match c with
    | .who => true
    | _ => false) (fun m ck c => match c with
    | .who => m.replies p ck 0 (m.whoLines p)
    | _ => m))

/-- HELP (R245). Replies with the verbs or the grammar of one verb. -/
def execHelpVerb (p : Port) (s : State) : Host.Outcome State Fault Refusal :=
  goOn s (s.m.verbRow p 18 (fun c => match c with
    | .help _ => true
    | _ => false) (fun m ck c => match c with
    | .help x => m.replies p ck 0 (helpLines x)
    | _ => m))

end Sys2Proof.Machine
end

