-- ==== Sys2Proof/Machine/Dispatch.lean ====
section
/-! DEFINITION. The dispatch of a command to its meaning, one arm per row of spec/opcode_table.json. -/

namespace Sys2Proof.Machine

/-- What a command does (everything but the queue). -/
def exec (i : Instr) (s : State) : Host.Outcome State Fault Refusal :=
  match i with
  | .textInput p e bytes => Sys2Proof.Machine.execTextInput p e bytes s
  | .regRead p e addr count => Sys2Proof.Machine.execRegRead p e addr count s
  | .regWrite p e addr count words => Sys2Proof.Machine.execRegWrite p e addr count words s
  | .streamRead p e queue offset count => Sys2Proof.Machine.execStreamRead p e queue offset count s
  | .textRead p e count => Sys2Proof.Machine.execTextRead p e count s
  | .portStatus p e => Sys2Proof.Machine.execPortStatus p e s
  | .commit p e queue blocks => Sys2Proof.Machine.execCommit p e queue blocks s
  | .sessionReset p e confirm => Sys2Proof.Machine.execSessionReset p e confirm s
  | .unnamedFrame p e byte0 => Sys2Proof.Machine.execUnnamedFrame p e byte0 s
  | .asyncFrameGap p byte0 => Sys2Proof.Machine.execAsyncFrameGap p byte0 s
  | .breakLow p lowTicks => Sys2Proof.Machine.execBreakLow p lowTicks s
  | .replyByteSend p idleTicks readBack => Sys2Proof.Machine.execReplyByteSend p idleTicks readBack s
  | .selWake p lowTicks => Sys2Proof.Machine.execSelWake p lowTicks s
  | .leaseExpiry p => Sys2Proof.Machine.execLeaseExpiry p s
  | .semClaim ag kind w => Sys2Proof.Machine.execSemClaim ag kind w s
  | .semRelease ag kind w => Sys2Proof.Machine.execSemRelease ag kind w s
  | .intsrcSeqIncrement p => Sys2Proof.Machine.execIntsrcSeqIncrement p s
  | .statusClear ag addr w => Sys2Proof.Machine.execStatusClear ag addr w s
  | .counterClear ag addr w => Sys2Proof.Machine.execCounterClear ag addr w s
  | .windowSeqIncrement addr => Sys2Proof.Machine.execWindowSeqIncrement addr s
  | .dataWindowAccess ag addr write => Sys2Proof.Machine.execDataWindowAccess ag addr write s
  | .gatedWriteApply p => Sys2Proof.Machine.execGatedWriteApply p s
  | .clockGate block => Sys2Proof.Machine.execClockGate block s
  | .persistWriteDone readBack => Sys2Proof.Machine.execPersistWriteDone readBack s
  | .getVerb p => Sys2Proof.Machine.execGetVerb p s
  | .setVerb p => Sys2Proof.Machine.execSetVerb p s
  | .readVerb p => Sys2Proof.Machine.execReadVerb p s
  | .writeVerb p => Sys2Proof.Machine.execWriteVerb p s
  | .modeVerb p => Sys2Proof.Machine.execModeVerb p s
  | .streamVerb p => Sys2Proof.Machine.execStreamVerb p s
  | .commitVerb p => Sys2Proof.Machine.execCommitVerb p s
  | .sealVerb p => Sys2Proof.Machine.execSealVerb p s
  | .authBegin p => Sys2Proof.Machine.execAuthBegin p s
  | .authPub p => Sys2Proof.Machine.execAuthPub p s
  | .authRespond p => Sys2Proof.Machine.execAuthRespond p s
  | .authEnd p => Sys2Proof.Machine.execAuthEnd p s
  | .authStatus p => Sys2Proof.Machine.execAuthStatus p s
  | .keyPub p => Sys2Proof.Machine.execKeyPub p s
  | .keyCert p => Sys2Proof.Machine.execKeyCert p s
  | .keyEnrol p => Sys2Proof.Machine.execKeyEnrol p s
  | .keyRetire p => Sys2Proof.Machine.execKeyRetire p s
  | .engineStart p => Sys2Proof.Machine.execEngineStart p s
  | .engineStop p => Sys2Proof.Machine.execEngineStop p s
  | .engineResume p => Sys2Proof.Machine.execEngineResume p s
  | .engineLoad p => Sys2Proof.Machine.execEngineLoad p s
  | .engineStatus p => Sys2Proof.Machine.execEngineStatus p s
  | .eventStart p => Sys2Proof.Machine.execEventStart p s
  | .eventStop p => Sys2Proof.Machine.execEventStop p s
  | .eventLoad p => Sys2Proof.Machine.execEventLoad p s
  | .eventStatus p => Sys2Proof.Machine.execEventStatus p s
  | .flueList p => Sys2Proof.Machine.execFlueList p s
  | .flueScan p answers => Sys2Proof.Machine.execFlueScan p answers s
  | .flueAway p => Sys2Proof.Machine.execFlueAway p s
  | .flueBack p => Sys2Proof.Machine.execFlueBack p s
  | .flueUpgrade p => Sys2Proof.Machine.execFlueUpgrade p s
  | .testRun p => Sys2Proof.Machine.execTestRun p s
  | .testShow p => Sys2Proof.Machine.execTestShow p s
  | .spareShow p => Sys2Proof.Machine.execSpareShow p s
  | .spareUse p => Sys2Proof.Machine.execSpareUse p s
  | .upgradeBegin p => Sys2Proof.Machine.execUpgradeBegin p s
  | .upgradeData p => Sys2Proof.Machine.execUpgradeData p s
  | .upgradeCommit p rows => Sys2Proof.Machine.execUpgradeCommit p rows s
  | .upgradeAbort p => Sys2Proof.Machine.execUpgradeAbort p s
  | .upgradeStatus p => Sys2Proof.Machine.execUpgradeStatus p s
  | .lockVerb p => Sys2Proof.Machine.execLockVerb p s
  | .whoVerb p => Sys2Proof.Machine.execWhoVerb p s
  | .helpVerb p => Sys2Proof.Machine.execHelpVerb p s
  | .replyLostTimeout p => Sys2Proof.Machine.execReplyLostTimeout p s
  | .sourceStart g => Sys2Proof.Machine.execSourceStart g s
  | .holdUpdate m => Sys2Proof.Machine.execHoldUpdate m s
  | .filterOutput g inputs => Sys2Proof.Machine.execFilterOutput g inputs s
  | .castleRequest ag kind w => Sys2Proof.Machine.execCastleRequest ag kind w s
  | .syncArm ag kind w => Sys2Proof.Machine.execSyncArm ag kind w s
  | .synchronisingReset => Sys2Proof.Machine.execSynchronisingReset s
  | .coefLoad ag kind w => Sys2Proof.Machine.execCoefLoad ag kind w s
  | .coefSave ag kind w => Sys2Proof.Machine.execCoefSave ag kind w s
  | .coefTransferDone rowFailed => Sys2Proof.Machine.execCoefTransferDone rowFailed s
  | .angleRateOutput inputs => Sys2Proof.Machine.execAngleRateOutput inputs s
  | .referenceInstant instant => Sys2Proof.Machine.execReferenceInstant instant s
  | .keyMiss => Sys2Proof.Machine.execKeyMiss s
  | .spinLow => Sys2Proof.Machine.execSpinLow s
  | .revolutionEnd => Sys2Proof.Machine.execRevolutionEnd s
  | .keyEdge level ticks => Sys2Proof.Machine.execKeyEdge level ticks s
  | .auxConversion n m => Sys2Proof.Machine.execAuxConversion n m s
  | .checkSlot n => Sys2Proof.Machine.execCheckSlot n s
  | .breakComparator n v => Sys2Proof.Machine.execBreakComparator n v s
  | .excitationChange => Sys2Proof.Machine.execExcitationChange s
  | .excFault ticks => Sys2Proof.Machine.execExcFault ticks s
  | .leadCal ag kind w => Sys2Proof.Machine.execLeadCal ag kind w s
  | .leadCalDone => Sys2Proof.Machine.execLeadCalDone s
  | .leadCalTimeout => Sys2Proof.Machine.execLeadCalTimeout s
  | .damperEdge level ticks => Sys2Proof.Machine.execDamperEdge level ticks s
  | .damperStuck => Sys2Proof.Machine.execDamperStuck s
  | .heldRecordsWrite => Sys2Proof.Machine.execHeldRecordsWrite s
  | .smTimerExpiry n timer => Sys2Proof.Machine.execSmTimerExpiry n timer s
  | .smStop n => Sys2Proof.Machine.execSmStop n s
  | .smWaitc n => Sys2Proof.Machine.execSmWaitc n s
  | .smWaite n => Sys2Proof.Machine.execSmWaite n s
  | .smTime n => Sys2Proof.Machine.execSmTime n s
  | .smCnt n => Sys2Proof.Machine.execSmCnt n s
  | .smJmp n => Sys2Proof.Machine.execSmJmp n s
  | .smJif n => Sys2Proof.Machine.execSmJif n s
  | .smEmit n => Sys2Proof.Machine.execSmEmit n s
  | .smOut n => Sys2Proof.Machine.execSmOut n s
  | .smCapt n => Sys2Proof.Machine.execSmCapt n s
  | .smSetf n => Sys2Proof.Machine.execSmSetf n s
  | .smClrf n => Sys2Proof.Machine.execSmClrf n s
  | .evtSmstart ag kind w => Sys2Proof.Machine.execEvtSmstart ag kind w s
  | .evtSmstop ag kind w => Sys2Proof.Machine.execEvtSmstop ag kind w s
  | .evtFlagset ag kind w => Sys2Proof.Machine.execEvtFlagset ag kind w s
  | .evtFlagclr ag kind w => Sys2Proof.Machine.execEvtFlagclr ag kind w s
  | .guardPeriod ins u => Sys2Proof.Machine.execGuardPeriod ins u s
  | .guardArm ag kind w => Sys2Proof.Machine.execGuardArm ag kind w s
  | .guardAck ag kind w => Sys2Proof.Machine.execGuardAck ag kind w s
  | .guardPinFault second high ticks => Sys2Proof.Machine.execGuardPinFault second high ticks s
  | .guardShortRelease second ticks => Sys2Proof.Machine.execGuardShortRelease second ticks s
  | .faultPulse => Sys2Proof.Machine.execFaultPulse s
  | .blockTimeout q => Sys2Proof.Machine.execBlockTimeout q s
  | .blockReadable q => Sys2Proof.Machine.execBlockReadable q s
  | .sealTimer => Sys2Proof.Machine.execSealTimer s
  | .sealCompose => Sys2Proof.Machine.execSealCompose s
  | .sealSigned => Sys2Proof.Machine.execSealSigned s
  | .apply ag kind w => Sys2Proof.Machine.execApply ag kind w s
  | .queuePolicyWrite ag kind q w => Sys2Proof.Machine.execQueuePolicyWrite ag kind q w s
  | .trig ag kind q w => Sys2Proof.Machine.execTrig ag kind q w s
  | .rearm ag kind q w => Sys2Proof.Machine.execRearm ag kind q w s
  | .overwriteRunEnd q => Sys2Proof.Machine.execOverwriteRunEnd q s
  | .engineTick n levels => Sys2Proof.Machine.execEngineTick n levels s
  | .engJmp n c levels => Sys2Proof.Machine.execEngJmp n c levels s
  | .djnz n c levels => Sys2Proof.Machine.execDjnz n c levels s
  | .engSet n c levels => Sys2Proof.Machine.execEngSet n c levels s
  | .delay n c levels => Sys2Proof.Machine.execDelay n c levels s
  | .delayEnd n c levels => Sys2Proof.Machine.execDelayEnd n c levels s
  | .waitpin n c levels => Sys2Proof.Machine.execWaitpin n c levels s
  | .waitflag n c levels => Sys2Proof.Machine.execWaitflag n c levels s
  | .waitirq n c levels => Sys2Proof.Machine.execWaitirq n c levels s
  | .shiftout n c levels => Sys2Proof.Machine.execShiftout n c levels s
  | .shiftin n c levels => Sys2Proof.Machine.execShiftin n c levels s
  | .shiftEnd n c levels => Sys2Proof.Machine.execShiftEnd n c levels s
  | .pull n c levels => Sys2Proof.Machine.execPull n c levels s
  | .push n c levels => Sys2Proof.Machine.execPush n c levels s
  | .irq n c levels => Sys2Proof.Machine.execIrq n c levels s
  | .engStart ag kind w => Sys2Proof.Machine.execEngStart ag kind w s
  | .engStop ag kind w => Sys2Proof.Machine.execEngStop ag kind w s
  | .engResume ag kind w => Sys2Proof.Machine.execEngResume ag kind w s
  | .engIrq ag kind w => Sys2Proof.Machine.execEngIrq ag kind w s
  | .engRxack ag kind w => Sys2Proof.Machine.execEngRxack ag kind w s
  | .txd ag kind n c w => Sys2Proof.Machine.execTxd ag kind n c w s
  | .engPin ag kind pin w => Sys2Proof.Machine.execEngPin ag kind pin w s
  | .syncPulseOut => Sys2Proof.Machine.execSyncPulseOut s
  | .syncPulseIn lowTicks highTicks => Sys2Proof.Machine.execSyncPulseIn lowTicks highTicks s
  | .syncHoldover => Sys2Proof.Machine.execSyncHoldover s
  | .flueTload ag kind w => Sys2Proof.Machine.execFlueTload ag kind w s
  | .scanTimer answers => Sys2Proof.Machine.execScanTimer answers s
  | .fluePull w m => Sys2Proof.Machine.execFluePull w m s
  | .forwardLine reply => Sys2Proof.Machine.execForwardLine reply s
  | .awaySaturation w => Sys2Proof.Machine.execAwaySaturation w s
  | .challengeExpiry p => Sys2Proof.Machine.execChallengeExpiry p s
  | .authLockoutEnd p => Sys2Proof.Machine.execAuthLockoutEnd p s
  | .pwrDomWrite ag kind w => Sys2Proof.Machine.execPwrDomWrite ag kind w s
  | .pwrModeEnter ag kind w => Sys2Proof.Machine.execPwrModeEnter ag kind w s
  | .selfTestEnd o => Sys2Proof.Machine.execSelfTestEnd o s
  | .entrySwitchOff => Sys2Proof.Machine.execEntrySwitchOff s
  | .wakeTimer => Sys2Proof.Machine.execWakeTimer s
  | .powerOnRelease straps => Sys2Proof.Machine.execPowerOnRelease straps s
  | .resetN lowNs straps => Sys2Proof.Machine.execResetN lowNs straps s
  | .vholdArmed => Sys2Proof.Machine.execVholdArmed s
  | .startComplete => Sys2Proof.Machine.execStartComplete s
  | .firmwareActivation straps => Sys2Proof.Machine.execFirmwareActivation straps s
  | .slotGood => Sys2Proof.Machine.execSlotGood s
  | .powerFail lowNs => Sys2Proof.Machine.execPowerFail lowNs s
  | .commitDone rowFailed => Sys2Proof.Machine.execCommitDone rowFailed s
  | .vioLoss => Sys2Proof.Machine.execVioLoss s
  | .vioReturn levels => Sys2Proof.Machine.execVioReturn levels s
  | .bistRun ag kind w => Sys2Proof.Machine.execBistRun ag kind w s
  | .spareUseGo ag kind w => Sys2Proof.Machine.execSpareUseGo ag kind w s
  | .spareCopyDone => Sys2Proof.Machine.execSpareCopyDone s
  | .registerWrite ag addr w => Sys2Proof.Machine.execRegisterWrite ag addr w s
  | .storeFillDone p ecc => Sys2Proof.Machine.execStoreFillDone p ecc s
  | .entryCommitPoint => Sys2Proof.Machine.execEntryCommitPoint s
  | .retentionDip bank => Sys2Proof.Machine.execRetentionDip bank s
  | .vholdAbsent => Sys2Proof.Machine.execVholdAbsent s
  | .keyGeneration cert caCert => Sys2Proof.Machine.execKeyGeneration cert caCert s
  | .pulsedVexc on => Sys2Proof.Machine.execPulsedVexc on s

end Sys2Proof.Machine
end

