-- ==== Sys2Proof/Machine/Time.lean ====
section
/-! DEFINITION. The passing of time: what a step does while no command waits. -/

namespace Sys2Proof.Machine

/-- The clocks one count on (R32, R35, R37): while FOSC runs one tick passes and the timestamp counts it; while it is stopped one
Hearth cycle of 2,048 ticks passes, counted while D0 has power.
Log entry 3 (DESIGN CHOICE, unsafe). -/
def Clocks.next (c : Clocks) (fosc : Bool) : Clocks :=
  if fosc then { c with now := c.now + 1, ts := c.ts + 1 }
  else { c with now := c.now + 2048, hearthStop := if c.dom.d0 then c.hearthStop + 1 else c.hearthStop }

/-- The FOSC cycle ends: what R344 leaves to a restart instant has come, the aux slots take
their changes (R390), a machine's wait ends in its turn (R458), the operations of R105 start anew, and the INT pins take what it has left (R205). -/
def Mach.cycleEnd (m : Mach) : Mach := m.firsLeave.auxTick.waitTurn.goesAgain.intPins

/-- Time passes (DESIGN CHOICE, log entry 3: the opcode table has no row for a tick): the cycle ends and the next begins. A pulse at
the GUARD pins ends with its time (R486).
Log entry 3 (DESIGN CHOICE, unsafe). -/
def Mach.idle (m : Mach) : Mach :=
  let m := m.cycleEnd
  { m with clk := m.clk.next m.fosc }.pulseEnd

end Sys2Proof.Machine
end

