-- ==== Sys2Proof/Machine/Step.lean ====
section
/-! DEFINITION. One step of the block: the command at the front of the queue, or, while none waits, time. -/

namespace Sys2Proof.Machine

/-- One step.
Log entries 2 (DESIGN CHOICE, unsafe), 3 (DESIGN CHOICE, unsafe), 12 (DESIGN CHOICE, unsafe). -/
def step (s : State) : Host.Outcome State Fault Refusal :=
  match s.pending with
  | c :: rest => exec c { s with pending := rest }
  | [] => .next { s with m := s.m.idle }

/-- A state with the command that a word of the opcode table spells at the front of its queue.
Log entries 12 (DESIGN CHOICE, unsafe), 13 (DEDUCED, safe). -/
def State.withFetchWord (s : State) (nbits w : Nat) : State :=
  match decodeTableWord nbits w with
  | some c => { s with pending := c :: s.pending }
  | none => s

end Sys2Proof.Machine
end

