-- ==== Sys2Proof/Safety.lean ====
section
/-! DEFINITION. The terms that statements are made in: the canonical form that the sparse memories of the block keep, and what a
command leaves unchanged. -/

namespace Sys2Proof.Machine

/-- Every sparse memory of the block is in canonical form: the registers over their reset values, the event and engine programs over
0, the coefficients over the standard filters. -/
def Mach.canonical (m : Mach) : Bool :=
  Memory.wf regReset m.regs.words && Memory.wf (fun _ => 0) m.mem.evtProg && Memory.wf (fun _ => 0) m.mem.engProg &&
    Memory.wf coefReset m.mem.coefs

/-- The block's tables have the sizes that the spec gives them: 13 groups of chains, 8 aux channels, 16 machines, 5 queues, 128 banks
and 8 spare ones, 4 engines of 8 contexts, 32 workers. -/
def Mach.shaped (m : Mach) : Prop :=
  m.flt.groups.length = 13 ∧ m.aux.chans.length = 8 ∧ m.evt.machines.length = 16 ∧ m.buf.queues.length = 5 ∧
    m.buf.units.length = 136 ∧ m.eng.engs.length = 4 ∧ (∀ e ∈ m.eng.engs, e.ctxs.length = 8) ∧ m.flue.workers.length = 32

/-- The parts of the block. -/
inductive Part where
  | clk
  | regs
  | pa
  | pb
  | mot
  | flt
  | ang
  | aux
  | evt
  | grd
  | buf
  | eng
  | flue
  | sec
  | nv
  | bist
  | mem
  | free
  deriving DecidableEq, Repr

/-- Two states of the block agree in a part. -/
def Mach.agrees (m n : Mach) (x : Part) : Prop :=
  match x with
  | .clk => n.clk = m.clk
  | .regs => n.regs = m.regs
  | .pa => n.pa = m.pa
  | .pb => n.pb = m.pb
  | .mot => n.mot = m.mot
  | .flt => n.flt = m.flt
  | .ang => n.ang = m.ang
  | .aux => n.aux = m.aux
  | .evt => n.evt = m.evt
  | .grd => n.grd = m.grd
  | .buf => n.buf = m.buf
  | .eng => n.eng = m.eng
  | .flue => n.flue = m.flue
  | .sec => n.sec = m.sec
  | .nv => n.nv = m.nv
  | .bist => n.bist = m.bist
  | .mem => n.mem = m.mem
  | .free => n.free = m.free

/-- The part that a port's state is. -/
def portPart (p : Port) : Part :=
  match p with
  | .a => .pa
  | .b => .pb

/-- From `m` to `n` nothing changes but the parts listed. -/
def Mach.changesOnly (m n : Mach) (ps : List Part) : Prop := ∀ x, x ∉ ps → m.agrees n x

/-- From `m` to `n` every register reads as before but those at the addresses listed. -/
def Mach.keepsRegs (m n : Mach) (as : List Nat) : Prop := ∀ a, a ∉ as → n.reg a = m.reg a

/-- No clear write-back has succeeded in this FOSC cycle, so that no hardware event of the cycle takes one back (R112, R116). -/
def Mach.noClear (m : Mach) : Prop := ∀ c ∈ m.regs.cleared, c.at_ ≠ m.clk.now

/-- A write of one word by an agent is served at once: nothing turns it away before the register's own checks (R133, R145). -/
def Mach.takesWrite (m : Mach) (ag : Agent) (k : AccessKind) (a : Nat) : Prop :=
  m.regHeader ag true (a + kindBits k) 1 = 0 ∧
  match ag with
  | .port p => m.portUp p = true ∧ (m.port p).held = [] ∧ m.isGated (blockOf a) = false
  | _ => m.clk.life = .up

/-- A port past a frame that reached it: the lease restarts (R204), and `x_BAUD_DET` shows the rate in use again. -/
def Mach.heard (m : Mach) (p : Port) : PortState := { m.port p with leaseSince := some m.clk.now, baudOff := false }

/-- A port past a write-class frame: heard, and counted with its code (R169). -/
def Mach.framed (m : Mach) (p : Port) (code : Nat) : PortState :=
  { m.heard p with last := code, lastAt := some m.clk.now, wcnt := (m.port p).wcnt + 1 }

/-- What an accepted write leaves in the ports: from a port, a frame counted with status OK and the lease restarted (R169, R204);
from another agent, nothing. -/
def Mach.countsWrite (m n : Mach) (ag : Agent) : Prop :=
  match ag with
  | .port p => n.port p = m.framed p 0 ∧ n.port p.other = m.port p.other
  | _ => n.pa = m.pa ∧ n.pb = m.pb

/-- The frame of an accepted one-word write: beside the parts and registers listed, only the write's own count and its block's
clock. -/
def Mach.wroteOnly (m n : Mach) (ag : Agent) (ps : List Part) (as : List Nat) : Prop :=
  m.changesOnly n (.regs :: .pa :: .pb :: ps) ∧ m.keepsRegs n as ∧ m.countsWrite n ag

/-- A port takes the frame that comes, whose `x_SEL` edge fell `since` ticks ago: it is up, it was ready for that edge, x_SEL is Low and
its rate known (async), the address byte is its own (addressed mode), and it holds no word for a gated block (R79, R188, R191,
R208). -/
def Mach.listens (m : Mach) (p : Port) (since : Nat) (selHigh : Bool) (abyte : Byte) : Prop :=
  m.portUp p = true ∧ (m.addressed p = true → abyte.toNat = m.fld 0x2804 8 4) ∧
    ((m.port p).async = true → m.baudRate p ≠ 0 ∧ selHigh = false) ∧
    (m.port p).readyAt ≤ m.clk.now - since ∧ (m.port p).held = []

/-- A frame with header `h` reaches its port whole as far as its header, and the host's CRC over it, where there is one, is right
(R155, R160 to R164). -/
def Mach.arrives (m : Mach) (p : Port) (e : FrameEnv) (h : List Byte) : Prop :=
  m.listens p e.since e.selHigh e.abyte ∧ m.headBits p e h ≤ m.bitsOf p e ∧ (m.crcOn p = true → e.crc = crc8 (m.headBytes p e h))

/-- A read-class frame of `k` bytes from the NL4716 runs to its last bit, and what the NL4716 drives reads back (R198). -/
def Mach.runsOut (m : Mach) (p : Port) (e : FrameEnv) (h : List Byte) (k : Nat) : Prop :=
  m.bitsOf p e = m.headBits p e h + m.turnBits p + 8 * (k + (m.crcOn p).toNat) ∧ m.collision p e h = none

/-- What the NL4716 drives in a frame: its bytes and, with CRC on, its CRC over the header's bytes and its own (R155, R161). -/
def Mach.driven (m : Mach) (p : Port) (e : FrameEnv) (h dev : List Byte) : List Byte :=
  dev ++ (if m.crcOn p then [crc8 (m.headBytes p e h ++ dev)] else [])

/-- A word of a read that a running or a gated block gives within its bound (R43, R132, R196). -/
def Mach.inTime (m : Mach) (p : Port) (e : FrameEnv) (block : Nat) : Prop :=
  (m.port p).async = true ∨ (if m.isGated block then 1000 else 600) ≤ e.turnNs

/-- Registers whose writes do nothing but store their fields: settings of the ports, of power, of motion sense, of a group's gain, of
the angle domain, of the buffer's allocation, of a state machine, of the timestamp load, of the spare and store queries. -/
def plainRegs : List Nat :=
  [0x400, 0x404, 0x414, 0x424, 0x434, 0x804, 0x818, 0x81C, 0xC00, 0xC08, 0xC0C, 0xC10, 0xC14, 0x1008, 0x1408, 0x140C,
    0x1C20, 0x1C24, 0x1C28, 0x1C2C, 0x2108, 0x210C, 0x2110, 0x2114, 0x2810, 0x2814, 0x3498, 0x3800]

/-- Port `p`'s line begins to execute now and is the command `c` (R241, R242): it is due, passes checks 1 to 4, with or without a
checksum, and neither authentication nor a semaphore stands against it. No clear of the cycle is there for its event to take back. -/
def Mach.runsNow (m : Mach) (p : Port) (ck : Bool) (c : Cmd) : Prop :=
  m.noClear ∧ (∃ l, m.lineDue p = some l ∧ m.checkLine p l = .runs ck c) ∧
    (m.owned = true → m.cmdAuth p c = true → (m.port p).auth = true) ∧ m.cmdSems c &&& m.semsOf p.other = 0

/-- The reply lines of a command, each complete (R231, R232). -/
def replyBytes (ck : Bool) (data : List (List Byte)) (final : List Byte) : List Byte :=
  (data.map (replyLine ck)).flatten ++ replyLine ck final

/-- The whole reply of a command finds room at once (R172, R235), and no session reset has discarded it. -/
def Mach.fits (m : Mach) (p : Port) (ck : Bool) (data : List (List Byte)) (final : List Byte) : Prop :=
  (m.port p).dropReply = false ∧ (m.port p).reply.length + ((data.map (replyLine ck)).flatten).length ≤ dataRoom ∧
    (m.port p).reply.length + (replyBytes ck data final).length ≤ replyRoom

/-- The port of a command that has ended: its line is gone, its reply stands behind what waited, its semaphores are released, and
the prompt follows where it is on (R203, R237, R240). -/
def Mach.answered (m : Mach) (p : Port) (ck : Bool) (data : List (List Byte)) (final : List Byte) : PortState :=
  PortState.typed
    { m.port p with
      waiting := none, executing := none, semsCmd := 0, dropReply := false
      reply := (m.port p).reply ++ replyBytes ck data final
      finalLeft := ((m.port p).reply ++ replyBytes ck data final).length }
    (m.port p).prompt (ascii "> ")

/-- The frame of a command that has ended: beside the parts and registers listed, only its port, its port's interrupt sources, and
the marks that a line before it is no longer waited for: a mode entry's reply is not alone (R673), an activation's is taken (R688). -/
def Mach.ranOnly (m n : Mach) (p : Port) (ps : List Part) (as : List Nat) : Prop :=
  m.changesOnly n (.clk :: .regs :: .nv :: portPart p :: ps) ∧ m.keepsRegs n (intsrc p :: as) ∧ n.clk = (m.beginLine p).clk ∧
    (Part.nv ∉ ps → n.nv = (m.beginLine p).nv) ∧ n.flag (intsrc p) 0 = true

/-- Nothing in the event engine waits for an output or a decision: no recogniser is enabled, no machine waits, no wake is asked. -/
def Mach.quietEvents (m : Mach) : Prop :=
  m.evt.wakeReq = false ∧ (∀ i < 7, m.flag (recCfg i) 0 = false) ∧ ∀ n < m.evt.machines.length, (m.sm n).run ≠ .wait

/-- Queue `q` writes words now, and `k` more of them leave its open block open (R528, R532); in Q3 no record of this FOSC cycle has to
follow them (R451). -/
def Mach.roomFor (m : Mach) (q k : Nat) : Prop :=
  m.taking = true ∧ (m.q q).banks ≠ 0 ∧ (m.q q).run = .run ∧ (m.q q).trigAt = none ∧ q < m.buf.queues.length ∧
    (q = 3 → m.buf.q3Tail.1 ≠ m.clk.now) ∧
    ∃ o, (m.q q).openBlk = some o ∧ o.words.length + k < 1000

/-- From `m` to `n` the open block of queue `q` has gained the words listed, and nothing else of the queue has changed. -/
def Mach.gained (m n : Mach) (q : Nat) (ws : List Word) : Prop :=
  ∃ o, (m.q q).openBlk = some o ∧ n.q q = { m.q q with openBlk := some { o with words := ws.reverse ++ o.words } }

/-- Machine `n` executes the word `w` now (R457, R467): the cycle is its turn, it is in RUN, the word's fields are defined, and its run of
instructions without a wait stays below its limit. -/
def Mach.smNext (m : Mach) (n : Nat) (w : Word) : Prop :=
  n < m.evt.machines.length ∧ m.on 3 = true ∧ m.testing 4 = false ∧ (m.sm n).run = .run ∧ m.evtWord (m.sm n).pc = w ∧
    smBadFields w = false ∧ (m.sm n).streak + 1 < 65536 ∧ m.evt.wakeReq = false ∧ m.smServed n = true

/-- Machine `n` past an instruction: at the next address, with one instruction more since its last wait. -/
def Mach.smPast (m : Mach) (n : Nat) : Sm :=
  { m.sm n with pc := ((m.sm n).pc + 1) % 1024, streak := (m.sm n).streak + 1 }

/-- A guard chain in which nothing is wrong (R490). -/
def sound : GuardUpset := ⟨0, 0, 0, 0, false, false, 0, 0⟩

/-- A decimator period ends in which the guard path compares impact alone: D1 and the ports are ON, both chains are alike and hold the
thresholds of the registers, at which every test vector answers right, and the range is the one they were taken for (R479 to R485). -/
def Mach.comparesNow (m : Mach) : Prop :=
  m.on 1 = true ∧ m.on 5 = true ∧ m.ts % 1024 = 0 ∧ m.grd.lastPeriod ≠ some m.ts ∧ m.grd.zrange = m.flag 0xC28 24 ∧
    m.flag 0x2C00 1 = false ∧ m.grd.a = m.grd.b ∧ m.grd.a.impThr = m.grdImpThr 0 ∧ m.grd.a.ospThr = m.grdOspThr 0 ∧
    0 < m.grd.a.impThr ∧ 0 < m.grd.a.ospThr

/-- From `m` to `k` nothing of the event engine changes but machine `n`, which becomes `x`, and that its turn is taken. -/
def Mach.smBecame (m k : Mach) (n : Nat) (x : Sm) : Prop :=
  k.sm n = x ∧ (∀ j, j ≠ n → k.sm j = m.sm j) ∧ k.evt = { m.evt with machines := k.evt.machines, turnAt := some m.clk.now }

/-- From `m` to `k` nothing of the event engine changes but machine `n`, which becomes `x`, whoever's turn it is. -/
def Mach.smKept (m k : Mach) (n : Nat) (x : Sm) : Prop :=
  k.sm n = x ∧ (∀ j, j ≠ n → k.sm j = m.sm j) ∧ k.evt = { m.evt with machines := k.evt.machines }

/-- Context `c` of engine `n` executes the word `w` in the engine's tick that is due (R560, R561): the word is valid, its address is
not the last, and no context shifts or delays. -/
def Mach.engNext (m : Mach) (n c : Nat) (w : Word) : Prop :=
  m.eng.engs.length = 4 ∧ (m.engine n).ctxs.length = 8 ∧ m.tickDue n = true ∧ (m.engine n).run = .running ∧
    m.stopDue n = false ∧ (m.engine n).turn = c ∧ m.ctxOn n c = true ∧ m.engWord n (m.ctx n c).pc = w ∧
    m.engCause n w = 0 ∧ (m.ctx n c).pc < 255 ∧ ∀ k, (m.ctx n k).op.long = false

/-- Context `c` of engine `n` past an instruction. -/
def Mach.ctxPast (m : Mach) (n c : Nat) : Ctx := { m.ctx n c with pc := (m.ctx n c).pc + 1, op := .ready }

/-- From `m` to `k` one tick of engine `n` has passed and its context `c` has become `x`; the other contexts and engines are as they
were. -/
def Mach.ctxBecame (m k : Mach) (n c : Nat) (x : Ctx) : Prop :=
  k.ctx n c = x ∧ (∀ j, j ≠ c → k.ctx n j = m.ctx n j) ∧ (k.engine n).tick = (m.engine n).tick + 1 ∧
    (k.engine n).run = .running ∧ ∀ j, j ≠ n → k.engine j = m.engine j

/-- From `m` to `n` a cold start has begun (R66, R127, R683 to R692): slot `b` runs, the timestamp is 0, D4, D5 and D7 are ON, both
ports are fresh as their straps say, and what the non-volatile store holds continues. `pf`: a commit record is used. -/
def Mach.coldStarted (m n : Mach) (straps : Straps) (b pf : Bool) : Prop :=
  n.clk.life = .up ∧ n.clk.mode = .run ∧ n.clk.vsup = true ∧ n.ts = 0 ∧ n.clk.now = m.clk.now ∧
    (∃ x, n.clk.start = some x ∧ x.cold = true ∧ x.target = .run ∧ x.since = m.clk.now ∧ x.pfail = pf) ∧
    n.on 4 = true ∧ n.on 5 = true ∧ n.on 7 = true ∧ n.pa.async = straps.aCfg ∧ n.pb.async = straps.bCfg ∧ n.nv.runB = b ∧
    n.nv.starts = m.nv.starts + 1 ∧ n.sec.life = m.sec.stored.life ∧ n.sec.priv = m.sec.priv ∧ n.sec.owner = m.sec.stored.owner

/-- The block as port `p`'s command `c` executes: its line gone from the line buffer, its semaphores claimed (R241, R246). -/
def Mach.begun (m : Mach) (p : Port) (c : Cmd) : Mach := (m.beginLine p).updPort p (fun s => { s with semsCmd := m.cmdSems c })

/-- From `m` to `n` a command of port `p` has ended with these reply lines and this code; `f` is what it did to its port, and the parts
and registers listed are what it may have changed elsewhere. -/
def Mach.concluded (m n : Mach) (p : Port) (ck : Bool) (data : List (List Byte)) (code : Nat) (f : PortState → PortState)
    (ps : List Part) (as : List Nat) : Prop :=
  n.port p = { f (m.answered p ck data (finalText code)) with
    incPending := (n.port p).incPending, lastInc := (n.port p).lastInc } ∧ m.ranOnly n p ps as

/-- From `m` to `n` a command of port `p` has begun and waits (R121, R643, R658): nothing of its reply is there yet. -/
def Mach.waitsFor (m n : Mach) (p : Port) (c : Cmd) (x : Executing) : Prop :=
  n.port p = { m.port p with waiting := none, semsCmd := m.cmdSems c, executing := some x }

/-- A pin latch word after a SET of the pins that a word's mask names (R570, R572). -/
def latchesSet (old new : BitVec 16) (w : Word) : Prop :=
  ∀ p < 16, new.getLsbD p = ((maskPins w).find? (fun x => x.1 == p)).elim (old.getLsbD p) (fun x => x.2)

end Sys2Proof.Machine
end

