-- ==== Sys2Proof/Certificates/Slice0/Obligations.lean ====
section
/-! DEFINITION. The statements for the provers, by chapter of the manual: one or more about every family of commands and every kind of
state. -/

open Sys2Proof Sys2Proof.Machine

/-- R459, R469: a write that `EVT_SMSTART`, `EVT_SMSTOP`, `EVT_FLAGSET` or `EVT_FLAGCLR` takes starts the machines its GO bits name at
their start addresses with flags, counters and timers clear, stops them, sets flags, or clears flags but for those set in the same
FOSC cycle; instructions of the cycle see the flags as it began. No other register, machine or flag changes. -/
def Obligations.EventGoRegisters : Prop :=
  ∀ (s : State) (ag : Agent) (k : AccessKind) (w : Word), s.m.canonical = true →
    (s.m.takesWrite ag k 0x2000 → ∃ t, exec (.evtSmstart ag k w) s = .next t ∧ t.pending = s.pending ∧
      (∀ n < s.m.evt.machines.length, t.m.sm n = if n < 16 ∧ (goWord k w).getLsbD n then
        { Sm.fresh with run := .run, resume := .run, pc := s.m.fld (smBase n) 0 10, ref := s.m.ts } else s.m.sm n) ∧
      t.m.evt = { s.m.evt with
        machines := t.m.evt.machines
        turnAt := if (goWord k w).getLsbD (s.m.clk.now % 16) then some s.m.clk.now else s.m.evt.turnAt } ∧
      s.m.wroteOnly t.m ag [.evt] []) ∧
    (s.m.takesWrite ag k 0x2004 → ∃ t, exec (.evtSmstop ag k w) s = .next t ∧ t.pending = s.pending ∧
      (∀ n < s.m.evt.machines.length, t.m.sm n = if n < 16 ∧ (goWord k w).getLsbD n then
        { s.m.sm n with run := .stopped, wait := .idle } else s.m.sm n) ∧
      t.m.evt = { s.m.evt with machines := t.m.evt.machines } ∧ s.m.wroteOnly t.m ag [.evt] []) ∧
    (s.m.takesWrite ag k 0x200C → ∃ t, exec (.evtFlagset ag k w) s = .next t ∧ t.pending = s.pending ∧
      t.m.eng = { s.m.eng with
        flags := s.m.eng.flags ||| (s.m.flagsSet ||| (goWord k w).setWidth 16), flagsAt := t.m.eng.flagsAt } ∧
      t.m.flagsSet = s.m.flagsSet ||| (goWord k w).setWidth 16 ∧ t.m.flagsSeen = s.m.flagsSeen ∧
      s.m.wroteOnly t.m ag [.eng] []) ∧
    (s.m.takesWrite ag k 0x2010 → ∃ t, exec (.evtFlagclr ag k w) s = .next t ∧ t.pending = s.pending ∧
      t.m.eng = { s.m.eng with
        flags := s.m.eng.flags &&& ~~~(goWord k w).setWidth 16 ||| s.m.flagsSet, flagsAt := t.m.eng.flagsAt } ∧
      t.m.flagsSet = s.m.flagsSet ∧ t.m.flagsSeen = s.m.flagsSeen ∧ s.m.wroteOnly t.m ag [.eng] [])

/-- R173, R183: a whole TEXT_READ in the clocked personality delivers as many waiting reply bytes as its count allows, padded with
zeros, and removes them; a whole PORT_STATUS delivers the port status word and changes nothing but the lease. -/
def Obligations.TextReadAndPortStatus : Prop :=
  ∀ (s : State) (p : Port) (e : FrameEnv) (count : Byte),
    (s.m.arrives p e [0x83, count] → s.m.runsOut p e [0x83, count] (2 + countOf count) → (s.m.port p).async = false →
      (s.m.port p).executing = none →
      ∃ t, exec (.textRead p e count) s = .next t ∧ t.pending = s.pending ∧ s.m.changesOnly t.m [portPart p] ∧
        t.m.port p = { s.m.heard p with
          reply := (s.m.port p).reply.drop (countOf count)
          finalLeft := (s.m.port p).finalLeft - min (countOf count) (s.m.port p).reply.length
          sdio := s.m.driven p e [0x83, count]
            (s.m.statusByte p 0 :: BitVec.ofNat 8 (min (countOf count) (s.m.port p).reply.length) ::
              (s.m.port p).reply.take (countOf count) ++
                List.replicate (countOf count - (s.m.port p).reply.length) 0) }) ∧
    (s.m.arrives p e [0x84] → s.m.runsOut p e [0x84] 5 →
      ∃ t, exec (.portStatus p e) s = .next t ∧ t.pending = s.pending ∧ s.m.changesOnly t.m [portPart p] ∧
        t.m.port p = { s.m.heard p with
          sdio := s.m.driven p e [0x84] (s.m.statusByte p 0 :: wordBytes (s.m.statusWord p)) })

/-- R181, R185: a whole COMMIT that nothing refuses moves the queue's read pointer on by its blocks; a whole SESSION_RESET with 0xA5
empties the port's buffers, ends its authentication and its upgrade, releases its semaphores and clears its stay-awake bit. Each
counts as a frame with status OK. Here the queue neither is FULL nor has a run of discards to declare, and no command executes. -/
def Obligations.CommitAndSessionReset : Prop :=
  ∀ (s : State) (p : Port) (e : FrameEnv), s.m.canonical = true →
    (∀ (queue : Byte) (blocks : BitVec 16), s.m.arrives p e (0x85 :: queue :: natBytes 2 blocks.toNat) →
      s.m.streamCheck p queue.toNat = 0 → (s.m.port p).moved.getLsbD queue.toNat = false → blocks ≠ 0 →
      blocks.toNat ≤ (s.m.q queue.toNat).readable.length → (s.m.q queue.toNat).run ≠ .full →
      (s.m.q queue.toNat).discRun = none →
      ∃ t, exec (.commit p e queue blocks) s = .next t ∧ t.pending = s.pending ∧
        (t.m.q queue.toNat).unread = (s.m.q queue.toNat).unread.drop blocks.toNat ∧
        (∀ k, k ≠ queue.toNat → t.m.q k = s.m.q k) ∧ (t.m.port p).last = 0 ∧ (t.m.port p).wcnt = (s.m.port p).wcnt + 1 ∧
        (t.m.port p).reply = (s.m.port p).reply ∧ (t.m.port p).sems = (s.m.port p).sems ∧
        s.m.changesOnly t.m [.pa, .pb, .buf, .evt]) ∧
    (s.m.arrives p e [0x86, 0xA5] → (s.m.port p).executing = none →
      ∃ t, exec (.sessionReset p e 0xA5) s = .next t ∧ t.pending = s.pending ∧
        t.m.port p = { (s.m.port p).endSession with
          wcnt := (s.m.port p).wcnt + 1, last := 0, lastAt := some s.m.clk.now, leaseSince := some s.m.clk.now, baudOff := false } ∧
        (∀ u, t.m.nv.upgrade = some u → u.port ≠ p) ∧ t.m.flag 0x814 (stayBit p) = false ∧
        s.m.changesOnly t.m [portPart p, .regs, .nv] ∧ s.m.keepsRegs t.m [0x814])

/-- R163, R164, R195: a frame of an unknown type, and a binary frame whose host pauses for more than 20 bit times in the async
personality, are discarded; each increments `x_FRAMES` by one event and sets FRAMEERR.
R112, R116: a clear write-back with the counter's SEQ, by any agent, sets its COUNT to 0. An increment in the FOSC cycle of a clear of
its counter comes first: the count is as if the clear had not been, and the clear's port shows 18 for it. -/
def Obligations.DiscardedFramesCount : Prop :=
  ∀ (s : State) (p : Port) (e : FrameEnv) (byte0 : Byte), s.m.canonical = true →
    (s.m.noClear → s.m.listens p e.since e.selHigh e.abyte →
      ∃ t, exec (.unnamedFrame p e byte0) s = .next t ∧ t.pending = s.pending ∧
        bitsAt (t.m.reg (portBase p + 0x18)) 0 24 = min 0xFFFFFF (bitsAt (s.m.reg (portBase p + 0x18)) 0 24 + 1) ∧
        bitsAt (t.m.reg (portBase p + 0x18)) 24 8 = (bitsAt (s.m.reg (portBase p + 0x18)) 24 8 + 1) % 256 ∧
        t.m.flag (intsrc p) 3 = true ∧ s.m.changesOnly t.m [portPart p, .regs] ∧
        s.m.keepsRegs t.m [portBase p + 0x18, intsrc p]) ∧
    (∀ (ag : Agent) (w : Word), s.m.takesWrite ag .direct (portBase p + 0x18) →
      bitsAt w 24 8 = bitsAt (s.m.reg (portBase p + 0x18)) 24 8 →
      ∃ t, exec (.counterClear ag (BitVec.ofNat 16 (portBase p + 0x18)) w) s = .next t ∧ t.pending = s.pending ∧
        bitsAt (t.m.reg (portBase p + 0x18)) 0 24 = 0 ∧
        bitsAt (t.m.reg (portBase p + 0x18)) 24 8 = bitsAt (s.m.reg (portBase p + 0x18)) 24 8 ∧
        s.m.wroteOnly t.m ag [] [portBase p + 0x18]) ∧
    (∀ (by_ : Port) (old : Word), s.m.regs.cleared = [⟨some by_, portBase p + 0x18, old, s.m.clk.now, false⟩] →
      (s.m.port by_).lastAt = some s.m.clk.now → s.m.listens p e.since e.selHigh e.abyte →
      ∃ t, exec (.unnamedFrame p e byte0) s = .next t ∧ t.pending = s.pending ∧
        bitsAt (t.m.reg (portBase p + 0x18)) 0 24 = min 0xFFFFFF (bitsAt old 0 24 + 1) ∧
        bitsAt (t.m.reg (portBase p + 0x18)) 24 8 = (bitsAt old 24 8 + 1) % 256 ∧ t.m.lastCode by_ = 18 ∧
        t.m.reg (accLast by_) = word ((portBase p + 0x18) * 2 ^ 16 + 18) ∧
        s.m.keepsRegs t.m [portBase p + 0x18, intsrc p, accLast by_]) ∧
    (s.m.noClear → s.m.listens p 0 false 0 → (s.m.port p).async = true → 0x80 ≤ byte0.toNat → byte0.toNat ≤ 0x86 →
      ∃ t, exec (.asyncFrameGap p byte0) s = .next t ∧ t.pending = s.pending ∧
        bitsAt (t.m.reg (portBase p + 0x18)) 0 24 = min 0xFFFFFF (bitsAt (s.m.reg (portBase p + 0x18)) 0 24 + 1) ∧
        bitsAt (t.m.reg (portBase p + 0x18)) 24 8 = (bitsAt (s.m.reg (portBase p + 0x18)) 24 8 + 1) % 256 ∧
        (writeClass byte0 = true → (t.m.port p).last = 12) ∧ t.m.flag (intsrc p) 3 = true ∧
        s.m.changesOnly t.m [portPart p, .regs] ∧ s.m.keepsRegs t.m [portBase p + 0x18, intsrc p])

/-- R204, R207, R192: a lease that has run out releases the port's semaphores, those of an executing command apart, and sets LEASE; a
paced INTSRC increment that is due is made; a break in the async personality clears the detected rate.
R111: a clear write-back to `x_INTSRC` with its SEQ, no increment pending, clears the bits it marks. -/
def Obligations.LeasePacingAndBreak : Prop :=
  ∀ (s : State) (p : Port), s.m.canonical = true →
    (∀ since, s.m.noClear → (s.m.port p).leaseSince = some since → s.m.fld (portBase p) 16 6 ≠ 0 →
      since + s.m.fld (portBase p) 16 6 * second ≤ s.m.clk.now → s.m.on 5 = true →
      ∃ t, exec (.leaseExpiry p) s = .next t ∧ t.pending = s.pending ∧ (t.m.port p).sems = 0 ∧ (t.m.port p).leaseSince = none ∧
        (t.m.port p).semsCmd = (s.m.port p).semsCmd ∧ (t.m.port p).reply = (s.m.port p).reply ∧
        (t.m.port p).auth = (s.m.port p).auth ∧ t.m.flag (intsrc p) 2 = true ∧
        s.m.changesOnly t.m [portPart p, .regs] ∧ s.m.keepsRegs t.m [intsrc p]) ∧
    ((s.m.port p).incPending = true → (s.m.port p).lastInc + 512 ≤ s.m.clk.now →
      ∃ t, exec (.intsrcSeqIncrement p) s = .next t ∧ t.pending = s.pending ∧
        bitsAt (t.m.reg (intsrc p)) 24 8 = (bitsAt (s.m.reg (intsrc p)) 24 8 + 1) % 256 ∧
        bitsAt (t.m.reg (intsrc p)) 0 24 = bitsAt (s.m.reg (intsrc p)) 0 24 ∧
        t.m.port p = { s.m.port p with incPending := false, lastInc := (s.m.port p).lastInc + 512 } ∧
        s.m.changesOnly t.m [portPart p, .regs] ∧ s.m.keepsRegs t.m [intsrc p]) ∧
    (∀ (ag : Agent) (w : Word) (d : RegDef), s.m.takesWrite ag .direct (intsrc p) → regDef (intsrc p) = some d →
      (s.m.port p).incPending = false → s.m.seqPending (intsrc p) = none →
      bitsAt w 24 8 = bitsAt (s.m.reg (intsrc p)) 24 8 →
      ∃ t, exec (.statusClear ag (BitVec.ofNat 16 (intsrc p)) w) s = .next t ∧ t.pending = s.pending ∧
        t.m.reg (intsrc p) = s.m.reg (intsrc p) &&& ~~~(w &&& d.sq &&& 0x00FFFFFF) ∧ s.m.wroteOnly t.m ag [] [intsrc p]) ∧
    (∀ low, s.m.portUp p = true → (s.m.port p).async = true → s.m.baudRate p ≠ 0 → 20 * second ≤ low * s.m.baudRate p →
      ∃ t, exec (.breakLow p low) s = .next t ∧ t.pending = s.pending ∧
        t.m.port p = { s.m.port p with baudSeen := false } ∧ bitsAt (t.m.reg (portBase p + 8)) 0 24 = 0 ∧
        s.m.changesOnly t.m [portPart p, .regs] ∧ s.m.keepsRegs t.m [portBase p + 8])

/-- R171, R212 to R218: clocked text that is one line of at most 160 characters and its CR, from an empty line buffer with no line
waiting, waits as that line; a line that is blank or a comment does not.
R197, R236: in the async personality the front reply byte leaves once SDIO has been idle for 2 bit times and it reads back as sent;
a data line that has waited 1 s for room is discarded with the rest, and `lost` and the final line enter the buffer. -/
def Obligations.TextLinesAndReplies : Prop :=
  (∀ (s : State) (p : Port) (e : TextEnv) (line : List Byte), s.m.listens p e.since e.selHigh e.abyte → (s.m.port p).async = false →
     (s.m.addressed p = true → e.abyte ≠ 0xFF) → e.partialBits = 0 → line.length ≤ 160 →
     (∀ b ∈ line, isText b = true ∧ b ≠ 8 ∧ b ≠ 10 ∧ b ≠ 13) →
     (s.m.port p).line = [] → (s.m.port p).tooLong = false → (s.m.port p).waiting = none →
     ∃ t, exec (.textInput p e (line ++ [13])) s = .next t ∧ t.pending = s.pending ∧
       t.m.port p = { s.m.heard p with
         lastCR := true
         waiting := if blankLine line then none else some ⟨line, false, s.m.clk.now⟩ } ∧
       s.m.changesOnly t.m [portPart p]) ∧
  (∀ (s : State) (p : Port), s.m.canonical = true →
     (∀ idle b rest, s.m.portUp p = true → (s.m.port p).async = true → s.m.baudRate p ≠ 0 → 2 * second ≤ idle * s.m.baudRate p →
       (s.m.port p).reply = b :: rest → (s.m.port p).executing = none →
       ∃ t, exec (.replyByteSend p idle b) s = .next t ∧ t.pending = s.pending ∧
         t.m.port p = { s.m.port p with reply := rest, finalLeft := (s.m.port p).finalLeft - 1, sdio := [b] } ∧
         s.m.changesOnly t.m [portPart p]) ∧
     (∀ since todo lines final ck, s.m.noClear → (s.m.port p).executing = some ⟨.room since, todo, lines, final, ck⟩ → lines ≠ [] →
       since + second ≤ s.m.clk.now → (s.m.port p).dropReply = false → (s.m.port p).async = false → s.m.on 5 = true →
       (s.m.port p).reply.length +
         (replyLine ck (ascii "lost " ++ decText (lines.map List.length).sum)).length + final.length ≤ replyRoom →
       ∃ t, exec (.replyLostTimeout p) s = .next t ∧ t.pending = s.pending ∧ (t.m.port p).executing = none ∧
         (t.m.port p).reply =
           (s.m.port p).reply ++ replyLine ck (ascii "lost " ++ decText (lines.map List.length).sum) ++ final ∧
         t.m.flag (intsrc p) 0 = true ∧ s.m.changesOnly t.m [portPart p, .regs] ∧ s.m.keepsRegs t.m [intsrc p]))

/-- R176, R177: a fill that began 12,544 FOSC cycles ago, and whose words no ECC finding touches, ends: its store holds the words of
the readable region from its start, and the other store is as it was.
R178: a whole STREAM_READ whose words the filled store holds delivers them with status OK and starts the next fill behind them; the
read pointer stays where it is. -/
def Obligations.StreamStoresFillAndServe : Prop :=
  (∀ (s : State) (p : Port) (f : Fill), (s.m.port p).fill = some f → f.since + 12544 ≤ s.m.clk.now → s.m.on 5 = true →
     ∃ t, exec (.storeFillDone p []) s = .next t ∧ t.pending = s.pending ∧
       t.m.port p = { s.m.port p with
         fill := none
         store0 := if f.second then (s.m.port p).store0 else some ⟨f.queue, (s.m.q f.queue).wordsFrom f.start 256⟩
         store1 := if f.second then some ⟨f.queue, (s.m.q f.queue).wordsFrom f.start 256⟩ else (s.m.port p).store1 } ∧
       s.m.changesOnly t.m [portPart p]) ∧
  (∀ (s : State) (p : Port) (e : FrameEnv) (queue : Byte) (offset : BitVec 24) (count : Byte) (which : Bool) (ws : List Word),
     s.m.arrives p e (0x82 :: queue :: natBytes 3 offset.toNat ++ [count]) →
     s.m.runsOut p e (0x82 :: queue :: natBytes 3 offset.toNat ++ [count]) (1 + 4 * countOf count) →
     s.m.streamCheck p queue.toNat = 0 → offset.toNat < (s.m.q queue.toNat).readable.length * 1024 →
     (s.m.port p).storeFor queue.toNat ((s.m.q queue.toNat).posOf offset.toNat) = some (which, ws) → countOf count ≤ ws.length →
     ∃ t, exec (.streamRead p e queue offset count) s = .next t ∧ t.pending = s.pending ∧
       (t.m.port p).sdio = s.m.driven p e (0x82 :: queue :: natBytes 3 offset.toNat ++ [count])
         (s.m.statusByte p 0 :: wordsBytes (ws.take (countOf count))) ∧
       (t.m.port p).fill =
         some ⟨!which, queue.toNat, (s.m.q queue.toNat).posOf (offset.toNat + countOf count), s.m.clk.now⟩ ∧
       (t.m.port p).moved = (s.m.port p).moved &&& ~~~(BitVec.ofNat 5 (2 ^ queue.toNat)) ∧
       (t.m.port p).reply = (s.m.port p).reply ∧ s.m.changesOnly t.m [portPart p])

/-- R89, R98, R100, R102: a write to a register whose fields do nothing but hold their values, with every field in its range, stores
them by its access kind; no other register and no other part of the block changes. -/
def Obligations.PlainRegisterWrite : Prop :=
  ∀ (s : State) (ag : Agent) (k : AccessKind) (a : Nat) (d : RegDef) (w : Word), s.m.canonical = true → a ∈ plainRegs →
    regDef a = some d → s.m.takesWrite ag k a → d.inRange (d.written k (s.m.reg a) w) = true →
    ∃ t, exec (.registerWrite ag (BitVec.ofNat 16 (a + kindBits k)) w) s = .next t ∧ t.pending = s.pending ∧
      t.m.reg a = d.written k (s.m.reg a) w ∧ s.m.wroteOnly t.m ag [] [a]

/-- R101, R145 to R148: a one-word write that the header checks refuse, and one that gives a field a value out of its range, change
nothing but `ACC_x_LAST`, which holds the address and the code, and the port's count of write frames with that code. -/
def Obligations.RefusedWritesChangeNothing : Prop :=
  ∀ (s : State) (p : Port) (w : Word), s.m.canonical = true → s.m.portUp p = true → (s.m.port p).held = [] →
    (∀ addr : BitVec 16, s.m.regHeader (.port p) true addr.toNat 1 ≠ 0 →
      ∃ t, exec (.registerWrite (.port p) addr w) s = .next t ∧ t.pending = s.pending ∧
        t.m.reg (accLast p) = word (addr.toNat * 2 ^ 16 + s.m.regHeader (.port p) true addr.toNat 1) ∧
        t.m.port p = s.m.framed p (s.m.regHeader (.port p) true addr.toNat 1) ∧
        s.m.changesOnly t.m [.regs, portPart p] ∧ s.m.keepsRegs t.m [accLast p]) ∧
    (∀ (k : AccessKind) (a : Nat) (d : RegDef), a ∈ plainRegs → regDef a = some d → s.m.takesWrite (.port p) k a →
      d.inRange (d.written k (s.m.reg a) w) = false →
      ∃ t, exec (.registerWrite (.port p) (BitVec.ofNat 16 (a + kindBits k)) w) s = .next t ∧ t.pending = s.pending ∧
        t.m.reg (accLast p) = word ((a + kindBits k) * 2 ^ 16 + 17) ∧ (t.m.port p).last = 17 ∧
        s.m.changesOnly t.m [.regs, portPart p] ∧ s.m.keepsRegs t.m [accLast p])

/-- R111, R116, R721: a SEQ write-back with the register's own SEQ clears the marked SQ bits of a status register in which no
increment is pending, or the COUNT of a counter; with another SEQ it is refused and changes nothing of it. An increment whose window
has ended adds 1 to SEQ and leaves the other bits. -/
def Obligations.SeqWriteBacks : Prop :=
  (∀ (s : State) (ag : Agent) (a : Nat) (d : RegDef) (w : Word), s.m.canonical = true → a < 0x4000 → regDef a = some d →
    s.m.takesWrite ag .direct a →
    (d.cls = .status → s.m.seqPending a = none → (a = intsrc .a → s.m.pa.incPending = false) →
      (a = intsrc .b → s.m.pb.incPending = false) → bitsAt w 24 8 = bitsAt (s.m.reg a) 24 8 →
      ∃ t, exec (.statusClear ag (BitVec.ofNat 16 a) w) s = .next t ∧ t.pending = s.pending ∧
        t.m.reg a = s.m.reg a &&& ~~~(w &&& d.sq &&& 0x00FFFFFF) ∧ s.m.wroteOnly t.m ag [] [a]) ∧
    (d.cls = .counter → bitsAt w 24 8 = bitsAt (s.m.reg a) 24 8 →
      ∃ t, exec (.counterClear ag (BitVec.ofNat 16 a) w) s = .next t ∧ t.pending = s.pending ∧
        t.m.reg a = s.m.reg a &&& 0xFF000000 ∧ s.m.wroteOnly t.m ag [] [a]) ∧
    (∀ p, d.cls = .counter → ag = .port p → bitsAt w 24 8 ≠ bitsAt (s.m.reg a) 24 8 →
      ∃ t, exec (.counterClear ag (BitVec.ofNat 16 a) w) s = .next t ∧ t.pending = s.pending ∧ (t.m.port p).last = 18 ∧
        t.m.reg (accLast p) = word (a * 2 ^ 16 + 18) ∧ s.m.changesOnly t.m [.regs, portPart p] ∧
        s.m.keepsRegs t.m [accLast p])) ∧
  (∀ (s : State) (a : BitVec 16) (until_ : Nat), s.m.canonical = true → s.m.seqPending a.toNat = some until_ → until_ ≤ s.m.ts →
    ∃ t, exec (.windowSeqIncrement a) s = .next t ∧ t.pending = s.pending ∧
      bitsAt (t.m.reg a.toNat) 24 8 = (bitsAt (s.m.reg a.toNat) 24 8 + 1) % 256 ∧
      bitsAt (t.m.reg a.toNat) 0 24 = bitsAt (s.m.reg a.toNat) 0 24 ∧ t.m.seqPending a.toNat = none ∧
      s.m.changesOnly t.m [.regs] ∧ s.m.keepsRegs t.m [a.toNat])

/-- R140, R141, R143, R336, R473, R589: a word written through the data register of the event program, of an engine program or of a
coefficient bank, with the index inside the window and the memory not in use, changes the word at the index and moves the index on.
R139 to R142, R593: a port's read of a data register drives the word at the index and moves the index on; at the end of the window
it drives 0 with code 8 and the index stays. -/
def Obligations.WindowsReadAndWrite : Prop :=
  (∀ (s : State) (ag : Agent) (k : AccessKind) (w : Word) (i : Nat), s.m.canonical = true →
     (s.m.takesWrite ag k 0x2304 → (s.m.reg 0x2300).toNat = i → i < 1024 → s.m.smBusy = false → s.m.owned = false →
       ∃ t, exec (.dataWindowAccess ag (BitVec.ofNat 16 (0x2304 + kindBits k)) (some w)) s = .next t ∧ t.pending = s.pending ∧
         t.m.evtWord i = aliasWord k (s.m.evtWord i) w ∧ (∀ j, j ≠ i → t.m.evtWord j = s.m.evtWord j) ∧
         (t.m.reg 0x2300).toNat = i + 1 ∧ s.m.wroteOnly t.m ag [.mem] [0x2300]) ∧
     (s.m.takesWrite ag k 0x2704 → (s.m.reg 0x2700).toNat = i → i < 1024 → s.m.engActive (i / 256) = false →
       s.m.engReserved (i / 256) = false → s.m.owned = false →
       ∃ t, exec (.dataWindowAccess ag (BitVec.ofNat 16 (0x2704 + kindBits k)) (some w)) s = .next t ∧ t.pending = s.pending ∧
         cellGet (fun _ => 0) t.m.mem.engProg i = aliasWord k (s.m.engWord (i / 256) i) w ∧
         (∀ j, j ≠ i → cellGet (fun _ => 0) t.m.mem.engProg j = cellGet (fun _ => 0) s.m.mem.engProg j) ∧
         (t.m.reg 0x2700).toNat = i + 1 ∧ s.m.wroteOnly t.m ag [.mem, .eng] [0x2700]) ∧
     (s.m.takesWrite ag k 0x1304 → (s.m.reg 0x1300).toNat = i → i < 1536 →
       s.m.bankBusy (i / 128) (decide (64 ≤ i % 128)) = false →
       ∃ t, exec (.dataWindowAccess ag (BitVec.ofNat 16 (0x1304 + kindBits k)) (some w)) s = .next t ∧ t.pending = s.pending ∧
         cellGet coefReset t.m.mem.coefs i =
           aliasWord k (cellGet coefReset s.m.mem.coefs i &&& 0x00FFFFFF) w &&& 0x00FFFFFF ∧
         (∀ j, j ≠ i → cellGet coefReset t.m.mem.coefs j = cellGet coefReset s.m.mem.coefs j) ∧
         (t.m.reg 0x1300).toNat = i + 1 ∧ s.m.wroteOnly t.m ag [.mem] [0x1300])) ∧
  (∀ (s : State) (p : Port) (a ix n : Nat), s.m.canonical = true → windowOf a = some (ix, n) → s.m.portUp p = true →
     (s.m.port p).held = [] → s.m.regHeader (.port p) false a 1 = 0 →
     ((s.m.reg ix).toNat < n →
       ∃ t, exec (.dataWindowAccess (.port p) (BitVec.ofNat 16 a) none) s = .next t ∧ t.pending = s.pending ∧
         (t.m.port p).sdio = s.m.statusByte p 0 :: wordBytes (s.m.windowWord a (s.m.reg ix).toNat) ∧
         t.m.reg ix = s.m.reg ix + 1 ∧ s.m.changesOnly t.m [.regs, portPart p] ∧ s.m.keepsRegs t.m [ix]) ∧
     (n ≤ (s.m.reg ix).toNat →
       ∃ t, exec (.dataWindowAccess (.port p) (BitVec.ofNat 16 a) none) s = .next t ∧ t.pending = s.pending ∧
         (t.m.port p).sdio = s.m.statusByte p 8 :: wordBytes 0 ∧ t.m.reg (accLast p) = word (a * 2 ^ 16 + 8) ∧
         s.m.changesOnly t.m [.regs, portPart p] ∧ s.m.keepsRegs t.m [accLast p]))

/-- R131, R133: a block of an ON domain that no one has accessed for 100 µs gates its clock. A write that a port holds for a gated
block is applied, here to a register that only stores its fields, and the block's clock runs again. -/
def Obligations.GatedClocks : Prop :=
  (∀ (s : State) (block : Fin 15), s.m.on (blockDomain block.val) = true → s.m.isGated block.val = false →
    (∀ at_, s.m.regs.lastAccess.find? (fun x => x.1 == block.val) = some (block.val, at_) → at_ + microsUp 100 ≤ s.m.clk.now) →
    ∃ t, exec (.clockGate block) s = .next t ∧ t.pending = s.pending ∧ t.m.isGated block.val = true ∧
      (∀ b, b ≠ block.val → t.m.isGated b = s.m.isGated b) ∧ s.m.changesOnly t.m [.regs] ∧ s.m.keepsRegs t.m []) ∧
  (∀ (s : State) (p : Port) (k : AccessKind) (a : Nat) (d : RegDef) (w : Word), s.m.canonical = true → a ∈ plainRegs →
    regDef a = some d → (s.m.port p).held = [(a + kindBits k, w)] → s.m.semRefuses p [a] = false →
    s.m.accessCode (blockOf a) [a] = 0 →
    d.inRange (d.written k (s.m.reg a) w) = true →
    ∃ t, exec (.gatedWriteApply p) s = .next t ∧ t.pending = s.pending ∧ t.m.reg a = d.written k (s.m.reg a) w ∧
      t.m.isGated (blockOf a) = false ∧ t.m.port p = { s.m.port p with held := [] } ∧
      s.m.changesOnly t.m [.regs, portPart p] ∧ s.m.keepsRegs t.m [a])

/-- R118, R119, R710 to R712: a persistent write whose row reads back right completes: its value stands in the store, its row's count
goes up by 1, BUSY clears and PERSIST is set for both ports. One that fails twice leaves the register worn and its P bits as they
were. Here no line waits for the controller, and the write is neither of the security record nor of a lead calibration, no word is held for a gated block and no clear is of this cycle. -/
def Obligations.PersistentWritesEnd : Prop :=
  ∀ (s : State) (w : PWrite), s.m.canonical = true → s.m.nv.write = some w → w.addr ≠ 0x3000 → w.addr ≠ 0x3808 → w.addr ≠ 0x380C →
    w.addr < 0x4000 → (w.byPort = none → w.addr < 0x1800 ∨ 0x1A00 ≤ w.addr) → persistMask w.addr ≠ 0 →
    (∀ p, (s.m.port p).executing = none ∧ (s.m.port p).held = []) → s.m.on 5 = true → s.m.noClear →
    (∀ l, s.m.aux.lcal = some l → l.posted = false) →
    (∃ t, exec (.persistWriteDone .good) s = .next t ∧ t.pending = s.pending ∧ t.m.busy = false ∧
      (∃ r, t.m.preg w.addr = some r ∧ r.value = w.new &&& persistMask w.addr ∧
        r.count = ((s.m.preg w.addr).map (fun o => o.count)).getD 0 + 1) ∧
      (∀ p, t.m.flag (intsrc p) 1 = true) ∧ s.m.changesOnly t.m [.regs, .pa, .pb, .nv, .aux] ∧
      (s.m.aux.asserted = false → t.m.aux = s.m.aux) ∧ s.m.keepsRegs t.m [0x3808, 0x380C, intsrc .a, intsrc .b]) ∧
    (∃ t, exec (.persistWriteDone .failedAgain) s = .next t ∧ t.pending = s.pending ∧ t.m.busy = false ∧
      t.m.worn w.addr = true ∧
      t.m.reg w.addr = (s.m.reg w.addr &&& ~~~persistMask w.addr) ||| (w.old &&& persistMask w.addr) ∧
      t.m.reg 0x380C = word (3 * 2 ^ 16 + w.addr) ∧ (∀ p, t.m.flag (intsrc p) 1 = true) ∧
      s.m.changesOnly t.m [.regs, .pa, .pb, .nv, .aux] ∧
      (s.m.aux.asserted = false → w.addr < 0x1800 ∨ 0x1A00 ≤ w.addr → t.m.aux = s.m.aux) ∧
      s.m.keepsRegs t.m [w.addr, 0x3808, 0x380C, intsrc .a, intsrc .b])

/-- R135, R136, R138, R145: a whole REG_READ that no check refuses, inside its block and outside the windows, and whose block answers
in time, delivers the registers' words with status OK and changes no register. One that a check refuses delivers zeros with the code
of the check. -/
def Obligations.RegisterReadFrame : Prop :=
  ∀ (s : State) (p : Port) (e : FrameEnv) (addr : BitVec 16) (count : Byte), s.m.canonical = true →
    s.m.arrives p e (0x80 :: addrBytes addr ++ [count]) →
    s.m.runsOut p e (0x80 :: addrBytes addr ++ [count]) (1 + 4 * countOf count) →
    (s.m.regHeader (.port p) false addr.toNat (countOf count) = 0 → windowOf (addr.toNat % 0x4000) = none →
      addr.toNat % 0x4000 + 4 * countOf count ≤ lastOf (addr.toNat % 0x4000) + 4 →
      s.m.inTime p e (blockOf (addr.toNat % 0x4000)) → s.m.hold (.port p) = none →
      ∃ t, exec (.regRead p e addr count) s = .next t ∧ t.pending = s.pending ∧
        t.m.port p = { s.m.heard p with
          sdio := s.m.driven p e (0x80 :: addrBytes addr ++ [count])
            (s.m.statusByte p 0 ::
              wordsBytes ((List.range (countOf count)).map (fun i => (s.m.leaseRestart p).peek (addr.toNat % 0x4000 + 4 * i)))) } ∧
        s.m.changesOnly t.m [.regs, portPart p] ∧ s.m.keepsRegs t.m []) ∧
    (s.m.regHeader (.port p) false addr.toNat (countOf count) ≠ 0 →
      ∃ t, exec (.regRead p e addr count) s = .next t ∧ t.pending = s.pending ∧
        (t.m.port p).sdio = s.m.driven p e (0x80 :: addrBytes addr ++ [count])
          (s.m.statusByte p (s.m.regHeader (.port p) false addr.toNat (countOf count)) :: List.replicate (4 * countOf count) 0) ∧
        t.m.reg (accLast p) = word (addr.toNat * 2 ^ 16 + s.m.regHeader (.port p) false addr.toNat (countOf count)) ∧
        s.m.changesOnly t.m [.regs, portPart p] ∧ s.m.keepsRegs t.m [accLast p])

/-- R137, R145, R165, R166, R169: a whole REG_WRITE of registers that only store their fields, refused by no check and each word in
range, stores every word by its access kind and counts as a frame with status OK. One whose CRC is wrong changes no register it names
and counts with code 11. -/
def Obligations.RegisterWriteFrame : Prop :=
  ∀ (s : State) (p : Port) (e : FrameEnv) (addr : BitVec 16) (count : Byte) (words : List Word), s.m.canonical = true →
    s.m.listens p e.since e.selHigh e.abyte → words.length = countOf count →
    8 * ((s.m.headBytes p e (0x81 :: addrBytes addr ++ [count])).length + 4 * countOf count + (s.m.crcOn p).toNat) =
      s.m.bitsOf p e →
    (s.m.regHeader (.port p) true addr.toNat (countOf count) = 0 →
      (s.m.crcOn p = true → e.crc = crc8 (s.m.headBytes p e (0x81 :: addrBytes addr ++ [count]) ++ wordsBytes words)) →
      s.m.isGated (blockOf (addr.toNat % 0x4000)) = false →
      (∀ i w, words[i]? = some w → addr.toNat % 0x4000 + 4 * i ∈ plainRegs ∧ ∃ d, regDef (addr.toNat % 0x4000 + 4 * i) = some d ∧
        d.inRange (d.written (kindOf addr.toNat) (s.m.reg (addr.toNat % 0x4000 + 4 * i)) w) = true) →
      ∃ t, exec (.regWrite p e addr count words) s = .next t ∧ t.pending = s.pending ∧
        (∀ i w d, words[i]? = some w → regDef (addr.toNat % 0x4000 + 4 * i) = some d →
          t.m.reg (addr.toNat % 0x4000 + 4 * i) =
            d.written (kindOf addr.toNat) (s.m.reg (addr.toNat % 0x4000 + 4 * i)) w) ∧
        s.m.wroteOnly t.m (.port p) [] ((List.range (countOf count)).map (fun i => addr.toNat % 0x4000 + 4 * i))) ∧
    (s.m.crcOn p = true → e.crc ≠ crc8 (s.m.headBytes p e (0x81 :: addrBytes addr ++ [count]) ++ wordsBytes words) →
      s.m.noClear →
      ∃ t, exec (.regWrite p e addr count words) s = .next t ∧ t.pending = s.pending ∧
        (t.m.port p).last = 11 ∧ (t.m.port p).wcnt = (s.m.port p).wcnt + 1 ∧ t.m.flag (intsrc p) 3 = true ∧
        t.m.reg (accLast p) = word (addr.toNat * 2 ^ 16 + 11) ∧ s.m.changesOnly t.m [.regs, portPart p] ∧
        s.m.keepsRegs t.m [accLast p, portBase p + 0x1C, intsrc p])

/-- R199, R200: a claim that names no semaphore of the other port takes all that it names and the port does not hold; a release gives up all
that it names; no
register, and nothing else of the port, changes. A claim that names one of the other port's is refused whole with code 5. -/
def Obligations.SemaphoreWrites : Prop :=
  ∀ (s : State) (p : Port) (k : AccessKind) (w : Word), s.m.canonical = true →
    (s.m.takesWrite (.port p) k 0x440 → (goWord k w).setWidth 16 &&& s.m.semsOf p.other = 0 →
      ∃ t, exec (.semClaim (.port p) k w) s = .next t ∧ t.pending = s.pending ∧
        t.m.port p = { s.m.framed p 0 with
          sems := (s.m.port p).sems ||| ((goWord k w).setWidth 16 &&& ~~~(s.m.port p).semsCmd) } ∧
        s.m.changesOnly t.m [.regs, portPart p] ∧ s.m.keepsRegs t.m []) ∧
    (s.m.takesWrite (.port p) k 0x440 → (goWord k w).setWidth 16 &&& s.m.semsOf p.other ≠ 0 →
      ∃ t, exec (.semClaim (.port p) k w) s = .next t ∧ t.pending = s.pending ∧ (t.m.port p).sems = (s.m.port p).sems ∧
        (t.m.port p).last = 5 ∧ t.m.reg (accLast p) = word ((0x440 + kindBits k) * 2 ^ 16 + 5) ∧
        s.m.changesOnly t.m [.regs, portPart p] ∧ s.m.keepsRegs t.m [accLast p]) ∧
    (s.m.takesWrite (.port p) k 0x444 →
      ∃ t, exec (.semRelease (.port p) k w) s = .next t ∧ t.pending = s.pending ∧
        t.m.port p = { s.m.framed p 0 with
          sems := (s.m.port p).sems &&& ~~~(goWord k w).setWidth 16
          semsCmd := (s.m.port p).semsCmd &&& ~~~(goWord k w).setWidth 16 } ∧
        s.m.changesOnly t.m [.regs, portPart p] ∧ s.m.keepsRegs t.m [])

/-- R315, R321, R322, R326, R387: the start of a motion source whose domains are ON restarts its chains with zero history at its next
input and declares UNS outputs; with ACF the angle resampler's chains start, and with D3 OFF the load-hold servo still runs on from
it (R26). The start of a running aux channel makes its next conversion a source start. -/
def Obligations.SourcesStart : Prop :=
  ∀ (s : State) (g : Group), s.m.flt.groups.length = 13 → s.m.testing 0 = false → s.m.testing 1 = false → s.m.testing 4 = false →
    s.m.canonical = true → s.m.noClear →
    (groupIndex g < 4 → s.m.on 3 = true → s.m.on 1 = true → s.m.inWatch = false → (s.m.grp (groupIndex g)).started = false →
      ∃ t, exec (.sourceStart g) s = .next t ∧ t.pending = s.pending ∧ (t.m.grp (groupIndex g)).started = true ∧
        (t.m.grp (groupIndex g)).start = nextMultiple (inPeriod (groupIndex g)) s.m.ts ∧
        (t.m.grp (groupIndex g)).chains =
          s.m.freshChains (groupIndex g) (nextMultiple (inPeriod (groupIndex g)) s.m.ts) (s.m.wantCfg (groupIndex g)) ∧
        (t.m.grp (groupIndex g)).unsLeft = (s.m.wantCfg (groupIndex g)).uns ∧
        (groupIndex g = 0 → (t.m.grp 12).started = true ∧ t.m.mot.ready = true) ∧
        (∀ k, k ≠ groupIndex g → k ≠ 12 → t.m.grp k = s.m.grp k) ∧ (groupIndex g ≠ 0 → t.m.grp 12 = s.m.grp 12) ∧
        s.m.changesOnly t.m [.regs, .mot, .flt, .ang] ∧ s.m.keepsRegs t.m [fltBase (groupIndex g) + 12, 0x1428]) ∧
    (g = .acf → s.m.on 1 = true → s.m.on 3 = false →
      ∃ t, exec (.sourceStart g) s = .next t ∧ t.pending = s.pending ∧ t.m.mot = { s.m.mot with ready := true } ∧
        s.m.changesOnly t.m [.mot]) ∧
    (∀ n : Fin 8, g = .aux n → s.m.on 3 = true → s.m.on 2 = true → s.m.auxActive n.val = true → n.val < s.m.aux.chans.length →
      ∃ t, exec (.sourceStart g) s = .next t ∧ t.pending = s.pending ∧ t.m.chan n.val = { s.m.chan n.val with fresh := true } ∧
        (∀ k, k ≠ n.val → t.m.chan k = s.m.chan k) ∧ s.m.changesOnly t.m [.aux])

/-- R269, R272, R274: a hold update that is due gives each axis with its source OFF the value 0, and each axis held at its fixed value
that value, when it lies within one step's slew limit; before the ACF start time, and while DAMPER holds the ACF group (R422), it
changes no held value.
R721: the end of a hold window in which events set bits of `MOT_STATUS` increments its SEQ once. -/
def Obligations.HoldUpdates : Prop :=
  (∀ (s : State) (i : HoldInput), s.m.canonical = true → s.m.mot.upd < s.m.ts / 131072 * 131072 → s.m.on 1 = true →
    s.m.noClear →
    (s.m.acfReady (s.m.ts / 131072 * 131072) = true → s.m.heldOff 0 (s.m.ts / 131072 * 131072) = false →
      ∃ t, exec (.holdUpdate i) s = .next t ∧ t.pending = s.pending ∧ t.m.mot.upd = s.m.ts / 131072 * 131072 ∧
        (s.m.fld 0xC08 0 2 = 0 → t.m.mot.x.h = 0) ∧ (s.m.fld 0xC08 2 2 = 0 → t.m.mot.y.h = 0) ∧
        (s.m.fld 0xC08 4 2 = 0 → t.m.mot.z.h = 0) ∧
        (s.m.fld 0xC08 0 2 = 3 → |s.m.fixOf 0 - s.m.mot.x.h| ≤ 64000 → t.m.mot.x.h = s.m.fixOf 0) ∧
        (s.m.fld 0xC08 2 2 = 3 → |s.m.fixOf 1 - s.m.mot.y.h| ≤ 64000 → t.m.mot.y.h = s.m.fixOf 1) ∧
        (s.m.fld 0xC08 4 2 = 3 → |s.m.fixOf 2 - s.m.mot.z.h| ≤ 64000 → t.m.mot.z.h = s.m.fixOf 2) ∧
        t.m.mot.window = s.m.fld 0xC04 24 2 ∧ s.m.changesOnly t.m [.regs, .mot, .flt, .evt, .free] ∧
        s.m.keepsRegs t.m [0xC3C, 0x100C]) ∧
    (s.m.acfReady (s.m.ts / 131072 * 131072) = false →
      ∃ t, exec (.holdUpdate i) s = .next t ∧ t.pending = s.pending ∧ t.m.mot.upd = s.m.ts / 131072 * 131072 ∧
        t.m.mot.x = s.m.mot.x ∧ t.m.mot.y = s.m.mot.y ∧ t.m.mot.z = s.m.mot.z ∧
        s.m.changesOnly t.m [.regs, .mot, .flt, .evt] ∧ s.m.keepsRegs t.m [0xC3C, 0x100C]) ∧
    (s.m.acfReady (s.m.ts / 131072 * 131072) = true → s.m.heldOff 0 (s.m.ts / 131072 * 131072) = true →
      ∃ t, exec (.holdUpdate i) s = .next t ∧ t.pending = s.pending ∧ t.m.mot.upd = s.m.ts / 131072 * 131072 ∧
        t.m.mot.x.h = s.m.mot.x.h ∧ t.m.mot.y.h = s.m.mot.y.h ∧ t.m.mot.z.h = s.m.mot.z.h ∧ t.m.mot.due = s.m.mot.due ∧
        s.m.changesOnly t.m [.regs, .mot, .flt, .evt] ∧ s.m.keepsRegs t.m [0xC3C, 0x100C])) ∧
  (∀ (s : State) (until_ : Nat), s.m.canonical = true → s.m.seqPending 0xC3C = some until_ → until_ ≤ s.m.ts →
    ∃ t, exec (.windowSeqIncrement 0x0C3C) s = .next t ∧ t.pending = s.pending ∧
      t.m.reg 0xC3C = bumpSeq (s.m.reg 0xC3C) ∧ t.m.seqPending 0xC3C = none ∧ s.m.changesOnly t.m [.regs] ∧
      s.m.keepsRegs t.m [0xC3C])

/-- R302, R315, R317, R512: an output of TMP without its FIR stage, due and enabled, enters Q2's open block with the value that
`TMP_VALUE` then shows. An output of the angle resampler's chains goes to the resampler alone. -/
def Obligations.FilterOutputs : Prop :=
  ∀ (s : State) (inputs : List (List Sample)), s.m.canonical = true → s.m.flt.groups.length = 13 → s.m.quietEvents →
    s.m.noClear →
    (s.m.chainRuns 3 = true → (s.m.grp 3).nextOut ≤ s.m.ts → (s.m.grp 3).cfg.taps = none → (s.m.grp 3).nextCfg = none →
      (s.m.grp 3).fade = none → (s.m.grp 3).timing = none → (s.m.grp 3).chains.length = 1 → s.m.grpEnabled 3 = true →
      s.m.roomFor 2 1 →
      ∃ t v clp blk, exec (.filterOutput .tmp inputs) s = .next t ∧ t.pending = s.pending ∧
        s.m.gained t.m 2 [sampleWord v (decide (0 < (s.m.grp 3).unsLeft)) clp blk 9] ∧ t.m.reg 0xC44 = wordOfInt v ∧
        (t.m.grp 3).chains.map (fun c => c.last) = [v] ∧ (t.m.grp 3).nextOut = (s.m.grp 3).nextOut + (s.m.grp 3).period ∧
        (t.m.grp 3).unsLeft = (s.m.grp 3).unsLeft - 1 ∧ s.m.changesOnly t.m [.regs, .flt, .buf] ∧
        s.m.keepsRegs t.m [0xC3C, 0xC44]) ∧
    (s.m.chainRuns 12 = true → (s.m.grp 12).nextOut ≤ s.m.ts → (s.m.grp 12).nextCfg = none → (s.m.grp 12).fade = none →
      s.m.heldOff 12 (s.m.grp 12).nextOut = false → (s.m.grp 12).cfg.taps = none →
      ∃ t, exec (.filterOutput .resampler inputs) s = .next t ∧ t.pending = s.pending ∧
        (∃ p, t.m.ang.acf.head? = some p ∧ p.t = ((s.m.grp 12).nextOut : Int) - 1696) ∧
        (t.m.grp 12).nextOut = (s.m.grp 12).nextOut + (s.m.grp 12).period ∧
        (t.m.grp 12).unsLeft = (s.m.grp 12).unsLeft - 1 ∧ s.m.changesOnly t.m [.flt, .ang])

/-- R337, R340, R343: a castling request for groups whose FIR stage runs and neither fades nor is being loaded pends each of them. One
for a single group whose FIR stage does not run castles it at once.
R329 to R332: arming records the instant, where the source selected can come; at the multiple of 2^26 ticks that follows, every
chain restarts with zero history from it, `FLT_SYNCT` holds it and ARM clears. -/
def Obligations.CastlingAndSynchronisingResets : Prop :=
  (∀ (s : State) (ag : Agent) (w : Word), s.m.canonical = true → s.m.takesWrite ag .direct 0x10C0 → s.m.flt.transfer = none →
     s.m.flt.groups.length = 13 → s.m.noClear →
     ((∀ g < 12, w.getLsbD g = true → s.m.castleReq g = false ∧ s.m.sourceOn g = true ∧ (s.m.grp g).fade = none ∧
         (s.m.grp g).started = true ∧ (s.m.grp g).cfg.taps ≠ none) →
       ∃ t, exec (.castleRequest ag .direct w) s = .next t ∧ t.pending = s.pending ∧
         (∀ g < 12, t.m.castleReq g = (s.m.castleReq g || w.getLsbD g)) ∧ s.m.wroteOnly t.m ag [] [0x10C0]) ∧
     (∀ g < 12, w = bitMask g → s.m.castleReq g = false → (s.m.grp g).started = true → (s.m.grp g).cfg.taps = none →
       (s.m.grp g).firLeft = false → s.m.on 3 = true →
       ∃ t, exec (.castleRequest ag .direct w) s = .next t ∧ t.pending = s.pending ∧ t.m.castleReq g = false ∧
         t.m.grp g = { s.m.grp g with
           bankB := !(s.m.grp g).bankB, castlePend := false, events := (t.m.grp g).events } ∧
         (∀ k, k ≠ g → t.m.grp k = s.m.grp k) ∧ t.m.flag (fltBase g + 12) 23 = true ∧
         s.m.wroteOnly t.m ag [.flt] [0x10C0, fltBase g + 12])) ∧
  ((∀ (s : State) (ag : Agent) (w : Word), s.m.canonical = true → s.m.takesWrite ag .direct 0x10C4 → bitAt w 0 = true →
     s.m.flag 0x10C4 0 = false → (bitAt w 4 = true → s.m.noMark = false) →
     ∃ t, exec (.syncArm ag .direct w) s = .next t ∧ t.pending = s.pending ∧ t.m.flag 0x10C4 0 = true ∧
       t.m.flag 0x10C4 4 = bitAt w 4 ∧ t.m.flt = { s.m.flt with arm := some (s.m.clk.now, s.m.ts) } ∧
       s.m.wroteOnly t.m ag [.flt] [0x10C4]) ∧
   (∀ (s : State) (t0 ts0 : Nat), s.m.canonical = true → s.m.noClear → s.m.flt.arm = some (t0, ts0) → s.m.on 3 = true →
     s.m.flag 0x10C4 0 = true → s.m.flag 0x10C4 4 = false → (ts0 / 2 ^ 26 + 1) * 2 ^ 26 ≤ s.m.ts → s.m.flt.groups.length = 13 →
     ∃ t, exec .synchronisingReset s = .next t ∧ t.pending = s.pending ∧ t.m.flt.arm = none ∧ t.m.flag 0x10C4 0 = false ∧
       t.m.reg 0x10C8 = loWord ((ts0 / 2 ^ 26 + 1) * 2 ^ 26) ∧ t.m.reg 0x10CC = hiWord ((ts0 / 2 ^ 26 + 1) * 2 ^ 26) ∧
       (∀ g < 13, (t.m.grp g).start = (ts0 / 2 ^ 26 + 1) * 2 ^ 26 ∧
         (t.m.grp g).chains = s.m.freshChains g ((ts0 / 2 ^ 26 + 1) * 2 ^ 26) (s.m.grp g).cfg ∧
         ((s.m.grp g).started = true → (t.m.grp g).unsLeft = (s.m.grp g).cfg.uns)) ∧
       s.m.changesOnly t.m [.regs, .flt] ∧
       s.m.keepsRegs t.m (0x10C4 :: 0x10C8 :: 0x10CC :: (List.range 12).map (fun g => fltBase g + 12))))

/-- R346, R347: `FLT_CLIB` GO starts a load into a bank that is not in use, or a save of the bank's taps into an entry but 0; the end of
a load from a held entry puts its taps into the bank, the end of a save puts them into the entry, with RESULT done and GO 0. -/
def Obligations.CoefficientTransfers : Prop :=
  (∀ (s : State) (ag : Agent) (w : Word), s.m.canonical = true → s.m.takesWrite ag .direct 0x10D0 → bitAt w 0 = true →
    s.m.flag 0x10D0 0 = false → bitsAt w 12 4 ≤ 11 →
    (bitAt w 28 = false → s.m.bankBusy (bitsAt w 12 4) (bitAt w 8) = false →
      ∃ t, exec (.coefLoad ag .direct w) s = .next t ∧ t.pending = s.pending ∧ t.m.flag 0x10D0 0 = true ∧
        t.m.flt = { s.m.flt with transfer := some ⟨false, bitsAt w 20 5, bitsAt w 12 4, bitAt w 8, []⟩ } ∧
        s.m.wroteOnly t.m ag [.flt] [0x10D0]) ∧
    (bitAt w 28 = true → bitsAt w 20 5 ≠ 0 →
      ∃ t, exec (.coefSave ag .direct w) s = .next t ∧ t.pending = s.pending ∧ t.m.flag 0x10D0 0 = true ∧
        t.m.flt = { s.m.flt with
          transfer := some ⟨true, bitsAt w 20 5, bitsAt w 12 4, bitAt w 8,
            (List.range 64).map (fun i => s.m.coef (bitsAt w 12 4) (bitAt w 8) i &&& 0x00FFFFFF)⟩ } ∧
        s.m.wroteOnly t.m ag [.flt] [0x10D0])) ∧
  (∀ (s : State) (x : LibTransfer), s.m.canonical = true → s.m.flt.transfer = some x →
    (∀ ws, x.save = false → s.m.libTaps x.entry = some ws → ws.length = 64 →
      ∃ t, exec (.coefTransferDone false) s = .next t ∧ t.pending = s.pending ∧ t.m.flt = { s.m.flt with transfer := none } ∧
        (∀ i, i < 64 → t.m.coef x.group x.bankB i = ws.getD i 0 &&& 0x00FFFFFF) ∧ t.m.flag 0x10D0 0 = false ∧
        t.m.fld 0x10D0 30 2 = 1 ∧ s.m.changesOnly t.m [.regs, .flt, .mem] ∧ s.m.keepsRegs t.m [0x10D0]) ∧
    (x.save = true → x.entry ≠ 0 → x.taps.length = 64 →
      ∃ t, exec (.coefTransferDone false) s = .next t ∧ t.pending = s.pending ∧ t.m.flt = { s.m.flt with transfer := none } ∧
        t.m.libTaps x.entry = some x.taps ∧ (∀ n, n ≠ x.entry → t.m.libTaps n = s.m.libTaps n) ∧ t.m.flag 0x10D0 0 = false ∧
        t.m.fld 0x10D0 30 2 = 1 ∧ s.m.changesOnly t.m [.regs, .flt, .nv] ∧ s.m.keepsRegs t.m [0x10D0]))

/-- R351, R355, R363: at a rate output that is due, outside SEARCH with a revolution in progress and no correction pending, θ advances
by (1 + scale) times the rate over one output period; the first three outputs after a start are discarded.
R357, R362: a reference instant that waits, with a rate output at or after it, is taken from those that wait, and `HOLDN` is read at it
(R366); 1.5 rev without an accepted one in TRACK or LOCK enter HOLDOVER; a low rate for 1/f_min s enters SEARCH. -/
def Obligations.AngleRateOutputs : Prop :=
  (∀ (s : State) (inputs : List Sample), s.m.angRuns = true → s.m.ang.run = true → s.m.ang.nextRate ≤ s.m.ts →
    (s.m.ang.discard = 0 → s.m.ang.lock ≠ .search → s.m.ang.rev ≠ none → s.m.ang.corrParts = 0 →
      s.m.rateAtLimit (s.m.rateSum inputs).2 = false →
      ∃ t, exec (.angleRateOutput inputs) s = .next t ∧ t.pending = s.pending ∧
        t.m.ang.theta = s.m.ang.theta +
          divRound (((2 ^ 44 : Nat) + s.m.ang.scale) * (s.m.rateSum inputs).2 * 20000) (360 * 2 ^ 57) ∧
        t.m.ang.omega = (s.m.rateSum inputs).2 ∧ t.m.ang.nextRate = s.m.ang.nextRate + 4096 ∧
        t.m.ang.rates.head? = some ⟨(s.m.ang.nextRate : Int) - 6528, t.m.ang.theta⟩ ∧ t.m.ang.lock = s.m.ang.lock ∧
        s.m.changesOnly t.m [.ang]) ∧
    (0 < s.m.ang.discard →
      ∃ t, exec (.angleRateOutput inputs) s = .next t ∧ t.pending = s.pending ∧ t.m.ang.theta = s.m.ang.theta ∧
        t.m.ang.discard = s.m.ang.discard - 1 ∧ t.m.ang.nextRate = s.m.ang.nextRate + 4096 ∧ s.m.changesOnly t.m [.ang])) ∧
  (∀ s : State, s.m.canonical = true → s.m.noClear → s.m.angRuns = true →
    (∀ (instant : Nat) p rest, (instant : Int) ∈ s.m.ang.refs → s.m.ang.rates = p :: rest →
      (instant : Int) ≤ p.t →
      ∃ t, exec (.referenceInstant instant) s = .next t ∧ t.pending = s.pending ∧
        t.m.ang.refs = s.m.ang.refs.filter (fun x => decide ((instant : Int) < x)) ∧ t.m.ang.holdN = s.m.fld 0x1408 16 8 ∧
        s.m.changesOnly t.m [.regs, .ang] ∧ s.m.keepsRegs t.m [0x1418, 0x141C, 0x1428, 0x1430]) ∧
    (s.m.ang.lock = .track ∨ s.m.ang.lock = .lock →
      3 * oneRev ≤ 2 * (s.m.ang.theta - s.m.ang.accTheta) →
      ∃ t, exec .keyMiss s = .next t ∧ t.pending = s.pending ∧ t.m.ang.lock = .holdover ∧ t.m.ang.holdRevs = 0 ∧
        s.m.changesOnly t.m [.regs, .ang] ∧ s.m.keepsRegs t.m [0x1428, 0x142C]) ∧
    (∀ since, s.m.ang.lowSince = some since →
      since * s.m.fld 0x140C 0 11 + 64 * second ≤ s.m.ts * s.m.fld 0x140C 0 11 →
      ∃ t, exec .spinLow s = .next t ∧ t.pending = s.pending ∧ t.m.ang.lock = .search ∧ t.m.ang.lowSince = none ∧
        s.m.changesOnly t.m [.regs, .ang] ∧ s.m.keepsRegs t.m [0x1428]))

/-- R75, R359, R362, R357: an accepted KEY edge of the polarity in force waits as a reference instant; one in TRACK or LOCK less than
half a revolution after the last accepted one is ignored and counted; one in SEARCH with ω at least f_min starts tracking; with no
accepted instant for 1.5 rev the resampler enters HOLDOVER; with ω below f_min for 1/f_min seconds it enters SEARCH.
R368, R369, R375, R378, R379: the end of a revolution too fast for its number of angle steps puts its marker and its order record
into Q1, counts it, shows its period and begins the next revolution. -/
def Obligations.ReferenceInstants : Prop :=
  (∀ (s : State), s.m.canonical = true → s.m.angRuns = true → s.m.noClear →
     (∀ level ticks, s.m.clk.life = .up → s.m.clk.vio = true → 14 ≤ ticks → s.m.clk.mode = .run → s.m.clk.entry = none →
       s.m.clk.wokeAt ≠ some s.m.clk.now → s.m.angRef = 0 → level ≠ s.m.flag 0x1400 7 → level ≠ s.m.clk.keyLevel →
       s.m.quietEvents →
       ∃ t, exec (.keyEdge level ticks) s = .next t ∧ t.pending = s.pending ∧
         t.m.ang = { s.m.ang with refs := s.m.ang.refs ++ [(s.m.ts : Int) - 14] } ∧
         t.m.clk = { s.m.clk with keyLevel := level } ∧ s.m.changesOnly t.m [.ang, .clk]) ∧
     (∀ (instant : Nat) p rest th, (instant : Int) ∈ s.m.ang.refs → s.m.ang.rates = p :: rest → (instant : Int) ≤ p.t →
       thetaAt s.m.ang.rates instant = some th →
       (s.m.ang.lock = .track ∨ s.m.ang.lock = .lock → 2 * (th - s.m.ang.accTheta) < oneRev →
         ∃ t, exec (.referenceInstant instant) s = .next t ∧ t.pending = s.pending ∧
           t.m.ang = { s.m.ang with
             refs := s.m.ang.refs.filter (fun x => decide ((instant : Int) < x)), holdN := s.m.fld 0x1408 16 8 } ∧
           bitsAt (t.m.reg 0x1430) 0 24 = min 0xFFFFFF (bitsAt (s.m.reg 0x1430) 0 24 + 1) ∧ t.m.flag 0x1428 5 = true ∧
           s.m.changesOnly t.m [.regs, .ang] ∧ s.m.keepsRegs t.m [0x1428, 0x1430]) ∧
       (s.m.ang.lock = .search → s.m.fastEnough s.m.ang.omega = true →
         ∃ t, exec (.referenceInstant instant) s = .next t ∧ t.pending = s.pending ∧ t.m.ang.lock = .track ∧
           t.m.ang.accTheta = s.m.keyOfs ∧ t.m.ang.revCount = 0 ∧ t.m.ang.theta = s.m.ang.theta + (s.m.keyOfs - th) ∧
           s.m.changesOnly t.m [.regs, .ang] ∧ s.m.keepsRegs t.m [0x1428])) ∧
     (s.m.ang.lock = .track ∨ s.m.ang.lock = .lock → 3 * oneRev ≤ 2 * (s.m.ang.theta - s.m.ang.accTheta) →
       ∃ t, exec .keyMiss s = .next t ∧ t.pending = s.pending ∧ t.m.ang.lock = .holdover ∧ t.m.ang.before = s.m.ang.lock ∧
         t.m.ang.theta = s.m.ang.theta ∧ bitsAt (t.m.reg 0x142C) 0 24 = min 0xFFFFFF (bitsAt (s.m.reg 0x142C) 0 24 + 1) ∧
         t.m.flag 0x1428 6 = true ∧ s.m.changesOnly t.m [.regs, .ang] ∧ s.m.keepsRegs t.m [0x1428, 0x142C]) ∧
     (∀ since, s.m.ang.lowSince = some since → since * s.m.fld 0x140C 0 11 + 64 * second ≤ s.m.ts * s.m.fld 0x140C 0 11 →
       ∃ t, exec .spinLow s = .next t ∧ t.pending = s.pending ∧ t.m.ang.lock = .search ∧ t.m.ang.rev = none ∧
         t.m.ang.theta = s.m.ang.theta ∧ s.m.changesOnly t.m [.regs, .ang] ∧ s.m.keepsRegs t.m [0x1428])) ∧
  (∀ (s : State) (t0 base t1 : Int), s.m.canonical = true → s.m.noClear → s.m.ang.rev = some (t0, base) → s.m.angRuns = true →
     s.m.ang.lock = .track ∨ s.m.ang.lock = .lock → base + oneRev ≤ s.m.ang.theta →
     (∃ a b rest, seekTheta (base + oneRev) s.m.ang.rates.reverse = a :: b :: rest ∧ t1 = roundUp (crossTime a b (base + oneRev))) →
     (t1 - t0).toNat < 64 * 2 ^ s.m.ang.nCode * 4096 → s.m.roomFor 1 11 → s.m.quietEvents →
     ∃ t record, exec .revolutionEnd s = .next t ∧ t.pending = s.pending ∧ record.length = 10 ∧
       s.m.gained t.m 1 (markerWord (t1 - t0).toNat false false false :: record) ∧
       t.m.ang.revCount = (s.m.ang.revCount + 1) % 2 ^ 24 ∧ t.m.ang.rev = some (t1, base + oneRev) ∧
       t.m.reg 0x1414 = word (min 0xFFFFFF (((t1 - t0).toNat + 8) / 16)) ∧
       bitsAt (t.m.reg 0x1434) 0 24 = min 0xFFFFFF (bitsAt (s.m.reg 0x1434) 0 24 + 1) ∧ t.m.flag 0x1428 7 = true ∧
       s.m.changesOnly t.m [.regs, .ang, .buf] ∧ s.m.keepsRegs t.m [0x1414, 0x1428, 0x1434])

/-- R518, R521, R523, R524, R528: an open block of a queue in RUN whose age has reached `TMO` closes short, with the next sequence, its
words, its MAC and its CRC-32, and is not yet readable; no other queue changes. A write that sets `TMO` to no more than the age closes
the block at once.
R18, R175: the oldest closed block that is not readable becomes so; the other blocks and queues are as they were. -/
def Obligations.BlocksCloseAndBecomeReadable : Prop :=
  (∀ (s : State) (q : Fin 4) (o : OpenBlock), s.m.canonical = true → s.m.noClear → s.m.buf.queues.length = 5 →
     s.m.taking = true → (s.m.q q.val).openBlk = some o → (s.m.q q.val).run = .run → s.m.fld (qBase q.val) 24 8 ≠ 0 →
     o.firstTs + s.m.fld (qBase q.val) 24 8 * second ≤ s.m.ts →
     ∃ t b flags map, exec (.blockTimeout q) s = .next t ∧ t.pending = s.pending ∧
       (t.m.q q.val).unread = (s.m.q q.val).unread ++ [b] ∧ b.seq = (s.m.q q.val).nextSeq ∧ b.blockNo = (s.m.q q.val).openNo ∧
       b.readable = false ∧
       b.data = sealWords s.m.sec.inForce.key
         (blockHead s.m.ownLevel false q.val (s.m.q q.val).nextSeq o.firstTs flags ((s.m.q q.val).head.getD 0) map o.words.reverse) ∧
       (t.m.q q.val).openBlk = none ∧ (t.m.q q.val).nextSeq = (s.m.q q.val).nextSeq + 1 ∧
       (∀ k, k ≠ q.val → t.m.q k = s.m.q k) ∧ s.m.changesOnly t.m [.regs, .pa, .pb, .buf, .sec, .nv] ∧
       s.m.keepsRegs t.m [qBase q.val + 0x1C, intsrc .a, intsrc .b]) ∧
  (∀ (s : State) (ag : Agent) (q : Fin 4) (o : OpenBlock) (d : RegDef) (w new : Word), s.m.canonical = true → s.m.noClear →
     s.m.buf.queues.length = 5 → s.m.taking = true → (s.m.q q.val).openBlk = some o → (s.m.q q.val).run = .run →
     s.m.takesWrite ag .direct (qBase q.val) → regDef (qBase q.val) = some d →
     new = d.written .direct (s.m.reg (qBase q.val)) w → d.inRange new = true → s.m.rangeBad (qBase q.val) new = false →
     bitsAt new 8 2 = s.m.qPolicy q.val → bitsAt new 24 8 ≠ 0 → o.firstTs + bitsAt new 24 8 * second ≤ s.m.ts →
     ∃ t b, exec (.queuePolicyWrite ag .direct ⟨q.val, by omega⟩ w) s = .next t ∧ t.pending = s.pending ∧
       (t.m.q q.val).unread = (s.m.q q.val).unread ++ [b] ∧ b.seq = (s.m.q q.val).nextSeq ∧ (t.m.q q.val).openBlk = none ∧
       t.m.reg (qBase q.val) = new ∧ (∀ k, k ≠ q.val → t.m.q k = s.m.q k) ∧
       s.m.changesOnly t.m [.regs, .pa, .pb, .buf, .sec, .nv] ∧
       s.m.keepsRegs t.m [qBase q.val, qBase q.val + 0x1C, intsrc .a, intsrc .b]) ∧
  (∀ (s : State) (q : Fin 4) (pre post : List Block) (b : Block), s.m.buf.queues.length = 5 → s.m.taking = true →
     (s.m.q q.val).unread = pre ++ b :: post → (∀ x ∈ pre, x.readable = true) → b.readable = false →
     ∃ t, exec (.blockReadable q) s = .next t ∧ t.pending = s.pending ∧
       t.m.q q.val = { s.m.q q.val with unread := pre ++ { b with readable := true } :: post } ∧
       (∀ k, k ≠ q.val → t.m.q k = s.m.q k) ∧ s.m.changesOnly t.m [.buf])

/-- R531: an APPLY that nothing refuses gives each queue the banks that its `BANKS` field asks for; a queue whose banks change loses
its blocks and starts in the first state of its policy, the others but Q3 are as they were; REALLOC is set.
R538: a write that changes the policy of a queue in RUN, and nothing else refuses, puts the queue in ARMED for CAPTURE, in FULL
for STOP with no room, else in RUN, in the cycle of the write; its blocks stay. Here the open block's age does not close it. -/
def Obligations.BufferSettings : Prop :=
  (∀ (s : State) (ag : Agent) (w : Word), s.m.canonical = true → s.m.buf.queues.length = 5 →
     s.m.takesWrite ag .direct 0x1C00 → bitAt w 0 = true → s.m.applyCheck = 0 → s.m.on 4 = true →
     ∃ t, exec (.apply ag .direct w) s = .next t ∧ t.pending = s.pending ∧
       (∀ q < 5, (t.m.q q).bank0 = (s.m.allocation q).1 ∧ (t.m.q q).banks = (s.m.allocation q).2) ∧
       (∀ q < 5, q ≠ 3 → s.m.allocation q ≠ ((s.m.q q).bank0, (s.m.q q).banks) →
         (t.m.q q).unread = [] ∧ (t.m.q q).openBlk = none ∧
         (t.m.q q).run = freshRun (s.m.allocation q).2 (s.m.qPolicy q)) ∧
       (∀ q < 5, q ≠ 3 → s.m.allocation q = ((s.m.q q).bank0, (s.m.q q).banks) → t.m.q q = s.m.q q) ∧
       t.m.flag 0x1C04 1 = true ∧ s.m.changesOnly t.m [.regs, .pa, .pb, .flt, .buf, .sec, .nv, .free]) ∧
  (∀ (s : State) (ag : Agent) (q : Fin 5) (d : RegDef) (w : Word), s.m.canonical = true → s.m.buf.queues.length = 5 →
     s.m.takesWrite ag .direct (qBase q.val) → regDef (qBase q.val) = some d →
     d.inRange (d.written .direct (s.m.reg (qBase q.val)) w) = true →
     s.m.rangeBad (qBase q.val) (d.written .direct (s.m.reg (qBase q.val)) w) = false →
     bitsAt w 8 2 ≠ s.m.qPolicy q.val → (s.m.q q.val).run = .run →
     (∀ o, q.val < 4 → (s.m.q q.val).openBlk = some o → bitsAt w 24 8 ≠ 0 → s.m.taking = true →
       s.m.ts < o.firstTs + bitsAt w 24 8 * second) →
     ∃ t, exec (.queuePolicyWrite ag .direct q w) s = .next t ∧ t.pending = s.pending ∧
       t.m.reg (qBase q.val) = d.written .direct (s.m.reg (qBase q.val)) w ∧
       t.m.q q.val = { s.m.q q.val with
         run := if bitsAt w 8 2 = 2 then .armed
           else if bitsAt w 8 2 = 0 ∧ (s.m.q q.val).stopFull q.val = true ∧ (s.m.q q.val).openBlk = none then .full else .run
         trigAt := none, postLeft := 0, captBlocks := false, pretrim := none } ∧
       (∀ k, k ≠ q.val → t.m.q k = s.m.q k) ∧ s.m.wroteOnly t.m ag [.buf] [qBase q.val])

/-- R535, R537: TRIG written to an ARMED queue puts it in CAPTURING with `POST` blocks to come; REARM written to a CAPTURE queue with
no unread block puts it in ARMED. Here the queue is not Q3, or the buffer takes no words. -/
def Obligations.CapturesStartAndRearm : Prop :=
  ∀ (s : State) (ag : Agent) (q : Fin 5), s.m.canonical = true → s.m.buf.queues.length = 5 →
    s.m.takesWrite ag .direct (qBase q.val + 0xC) → s.m.qPolicy q.val = 2 → q.val ≠ 3 ∨ s.m.taking = false →
    ((s.m.q q.val).run = .armed → s.m.on 4 = true →
      ∃ t, exec (.trig ag .direct q 2) s = .next t ∧ t.pending = s.pending ∧ (t.m.q q.val).run = .capturing ∧
        (t.m.q q.val).trigAt = some s.m.ts ∧ (t.m.q q.val).postLeft = s.m.qPost q.val ∧
        (t.m.q q.val).unread = (s.m.q q.val).unread ∧ (t.m.q q.val).openBlk = (s.m.q q.val).openBlk ∧
        t.m.flag (qBase q.val + 0x1C) 3 = true ∧ s.m.changesOnly t.m [.regs, .pa, .pb, .flt, .buf, .sec, .nv, .free]) ∧
    ((s.m.q q.val).run ≠ .noBanks → (s.m.q q.val).run ≠ .frozen → (s.m.q q.val).unread = [] →
      ∃ t, exec (.rearm ag .direct q 1) s = .next t ∧ t.pending = s.pending ∧
        t.m.q q.val = { s.m.q q.val with run := .armed, trigAt := none, postLeft := 0, captBlocks := false } ∧
        (∀ k, k ≠ q.val → t.m.q k = s.m.q k) ∧ s.m.wroteOnly t.m ag [.buf] [])

/-- R545, R547: a run of discards that is 1 s old ends, and its OVERWRITE record enters Q3; while the buffer takes no words, it waits.
R550: a dip of a bank's retention supply in RETAIN is latched. -/
def Obligations.DiscardRunsAndDips : Prop :=
  (∀ (s : State) (q : Fin 5) (d : DiscRun), s.m.buf.queues.length = 5 → (s.m.q q.val).discRun = some d →
    d.since + second ≤ s.m.clk.now →
    (q.val ≠ 3 → s.m.roomFor 3 8 → s.m.qPolicy 3 = 1 → s.m.buf.pendingGaps = [] →
      ∃ t, exec (.overwriteRunEnd q) s = .next t ∧ t.pending = s.pending ∧
        s.m.gained t.m 3 (GapRec.toWords ⟨1, q.val, d.ts, d.count, d.first, 0⟩) ∧
        t.m.q q.val = { s.m.q q.val with discRun := none, sealGaps := (s.m.q q.val).sealGaps + 1 } ∧
        (∀ k, k ≠ q.val → k ≠ 3 → t.m.q k = s.m.q k) ∧ s.m.changesOnly t.m [.buf]) ∧
    (s.m.taking = false →
      ∃ t, exec (.overwriteRunEnd q) s = .next t ∧ t.pending = s.pending ∧
        t.m.buf.pendingGaps = addPending s.m.buf.pendingGaps ⟨1, q.val, d.ts, d.count, d.first, 0⟩ ∧
        t.m.q q.val = { s.m.q q.val with discRun := none } ∧ (∀ k, k ≠ q.val → t.m.q k = s.m.q k) ∧
        s.m.changesOnly t.m [.buf])) ∧
  (∀ (s : State) (bank : Fin 128) (u : BufUnit), s.m.dom 4 = .retain → s.m.buf.units[bank.val]? = some u →
    ∃ t, exec (.retentionDip bank) s = .next t ∧ t.pending = s.pending ∧
      t.m.buf.units[bank.val]? = some { u with dipped := true } ∧ t.m.buf.queues = s.m.buf.queues ∧
      (∀ k, k ≠ bank.val → t.m.buf.units[k]? = s.m.buf.units[k]?) ∧ s.m.changesOnly t.m [.buf])

/-- R387, R392, R393, R413, R415: a conversion that is due, of a channel with the ratiometric input and no curve, delivers its code: the
limited quotient of 2^23 times the gain and the two voltages. Here nothing skips, blocks or flags it. -/
def Obligations.AuxConversions : Prop :=
  ∀ (s : State) (n : Fin 8) (i : AuxInput) (j : Nat), s.m.canonical = true → s.m.aux.chans.length = 8 →
    s.m.flt.groups.length = 13 → s.m.on 2 = true → s.m.on 3 = true → 33152 ≤ s.m.ts →
    j = lastFrame (n.val % 4) (s.m.ts - 33152) - lastFrame (n.val % 4) (s.m.ts - 33152) % s.m.auxDivisor n.val →
    (s.m.chan n.val).changes = [] → s.m.noClear → s.m.auxActive n.val = true → s.m.isComp n.val = false →
    s.m.convInstant n.val j ≤ s.m.ts → (s.m.chan n.val).latestAt < s.m.convInstant n.val j →
    ((s.m.clk.d2Since + millisUp 2 : Nat) : Int) ≤ s.m.slotNow (slotStart j (n.val % 4)) → s.m.auxExc n.val = false →
    s.m.aux.spans = [] → bitsAt (s.m.chan n.val).cfg.bo 24 2 = 0 → bitsAt (s.m.auxCfg n.val).cfg 10 2 ≠ 0 →
    bitsAt (s.m.auxCfg n.val).cfg 16 6 = 0 → i.vref ≠ 0 → s.m.aux.lcal = none →
    ∃ t v clp, exec (.auxConversion n i) s = .next t ∧ t.pending = s.pending ∧
      (v, clp) = limit24 (divRound ((2 ^ 23 : Nat) * ((2 ^ bitsAt (s.m.auxCfg n.val).cfg 4 3 : Nat) : Int) * i.vin * i.vref.sign)
        i.vref.natAbs) ∧
      t.m.reg (auxBase n.val + 0x28) = wordOfInt v ∧
      t.m.reg (auxBase n.val + 0x24) = sampleWord v false clp false (10 + n.val) ∧
      (t.m.chan n.val).latestAt = s.m.convInstant n.val j ∧ (t.m.chan n.val).code = v ∧
      (∀ k, k ≠ n.val → t.m.chan k = s.m.chan k) ∧ s.m.changesOnly t.m [.regs, .flt, .aux] ∧
      s.m.keepsRegs t.m [auxBase n.val + 0x24, auxBase n.val + 0x28, fltBase (4 + n.val) + 12, 0x10C0]

/-- R399 to R402: at the end of a check slot that is due the channel is broken as its comparator stands, and past it no burn-out current
flows; the comparator trips on 2 µs at 2.40 V or more and releases below it, with the instant of the release. -/
def Obligations.WireBreakChecks : Prop :=
  ∀ (s : State) (n : Fin 8), s.m.aux.chans.length = 8 → s.m.on 2 = true →
    (∀ j, s.m.auxActive n.val = true → bitsAt (s.m.chan n.val).cfg.bo 24 2 = 2 → (s.m.chan n.val).checkFrame = some j →
      (s.m.chan n.val).checkDue = true → slotStart j (n.val % 4) + 16768 ≤ s.m.ts →
      ∃ t, exec (.checkSlot n) s = .next t ∧ t.pending = s.pending ∧
        t.m.chan n.val = { s.m.chan n.val with checkBroken := (s.m.chan n.val).tripped, checkDue := false } ∧
        (slotStart j (n.val % 4) + 16768 < s.m.ts → t.m.burnCurrent n.val = 0) ∧
        (∀ k, k ≠ n.val → t.m.chan k = s.m.chan k) ∧ s.m.changesOnly t.m [.aux]) ∧
    (∀ (uv : Int) ticks, 2400000 ≤ uv → microsUp 2 ≤ ticks →
      ∃ t, exec (.breakComparator n ⟨uv, ticks⟩) s = .next t ∧ t.pending = s.pending ∧
        t.m.chan n.val = { s.m.chan n.val with tripped := true } ∧
        (∀ k, k ≠ n.val → t.m.chan k = s.m.chan k) ∧ s.m.changesOnly t.m [.aux]) ∧
    (∀ (uv : Int) ticks, uv < 2400000 →
      ∃ t, exec (.breakComparator n ⟨uv, ticks⟩) s = .next t ∧ t.pending = s.pending ∧
        t.m.chan n.val = { s.m.chan n.val with
          tripped := false
          releasedAt := if (s.m.chan n.val).tripped = true then s.m.ts else (s.m.chan n.val).releasedAt } ∧
        (∀ k, k ≠ n.val → t.m.chan k = s.m.chan k) ∧ s.m.changesOnly t.m [.aux])

/-- R395, R397, R398: an excitation change whose frame has begun applies, and the windows of the settle delay are skipped; a load
current above its limit for more than 1 ms switches VEXC off and sets EXCFLT; in pulsed mode VEXC follows the scheduled windows. -/
def Obligations.ExcitationChanges : Prop :=
  ∀ (s : State), s.m.canonical = true → s.m.on 2 = true →
    (∀ f, s.m.aux.excChange = some f → f ≤ s.m.ts →
      ∃ t, exec .excitationChange s = .next t ∧ t.pending = s.pending ∧ t.m.aux.excChange = none ∧
        t.m.aux.excMode = s.m.fld 0x1A00 24 2 ∧ t.m.aux.excLevel = s.m.fld 0x1A00 16 2 ∧ t.m.aux.settle = s.m.fld 0x1A00 0 10 ∧
        t.m.aux.excFault = false ∧
        (s.m.aux.skipUntil < f → t.m.aux.skipFrom = f ∧ t.m.aux.skipUntil = f + settleTicks (s.m.fld 0x1A00 0 10)) ∧
        (f ≤ s.m.aux.skipUntil → t.m.aux.skipFrom = s.m.aux.skipFrom ∧
          t.m.aux.skipUntil = max (f + settleTicks (s.m.fld 0x1A00 0 10)) s.m.aux.skipUntil) ∧
        (s.m.fld 0x1A00 24 2 = 0 → t.m.aux.vexc = false) ∧ (s.m.fld 0x1A00 24 2 = 1 → t.m.aux.vexc = true) ∧
        (∀ n < 8, n < s.m.aux.chans.length → s.m.auxExc n = true →
          t.m.chan n = { s.m.chan n with excAt := some (f + settleTicks (s.m.fld 0x1A00 0 10)) }) ∧
        (∀ n, s.m.auxExc n = false → t.m.chan n = s.m.chan n) ∧ t.m.aux.spans = s.m.aux.spans ∧
        t.m.aux.lcal = s.m.aux.lcal ∧ s.m.changesOnly t.m [.aux]) ∧
    (∀ ticks, s.m.noClear → s.m.aux.vexc = true → second < 1000 * ticks →
      ∃ t, exec (.excFault ticks) s = .next t ∧ t.pending = s.pending ∧
        t.m.aux = { s.m.aux with vexc := false, excFault := true } ∧ t.m.flag 0x1A08 21 = true ∧
        s.m.changesOnly t.m [.regs, .aux] ∧ s.m.keepsRegs t.m [0x1A08]) ∧
    (∀ on_, s.m.aux.excMode = 2 → s.m.aux.excFault = false → s.m.excWanted = on_ →
      ∃ t, exec (.pulsedVexc on_) s = .next t ∧ t.pending = s.pending ∧ t.m.aux = { s.m.aux with vexc := on_ } ∧
        s.m.changesOnly t.m [.aux])

/-- R412: GO for a channel that qualifies starts its lead calibration, for another sets LCALFAIL; after 16 conversions R_lead is
written as a persistent write, at whose end LCALDONE is set; at once where the register holds that value (R710); without the
conversions 10 s later LCALFAIL is set. GO then reads 0. -/
def Obligations.LeadCalibrations : Prop :=
  ∀ (s : State), s.m.canonical = true → s.m.on 2 = true → s.m.noClear →
    (∀ ag w, s.m.takesWrite ag .direct 0x1A0C → bitAt w 8 = true → s.m.flag 0x1A0C 8 = false →
      (s.m.leadQualifies (bitsAt w 0 3) = true →
        ∃ t, exec (.leadCal ag .direct w) s = .next t ∧ t.pending = s.pending ∧
          t.m.aux = { s.m.aux with lcal := some ⟨bitsAt w 0 3, 0, 0, s.m.clk.now, false⟩ } ∧ t.m.flag 0x1A0C 8 = true ∧
          t.m.fld 0x1A0C 0 3 = bitsAt w 0 3 ∧ s.m.wroteOnly t.m ag [.aux] [0x1A0C]) ∧
      (s.m.leadQualifies (bitsAt w 0 3) = false →
        ∃ t, exec (.leadCal ag .direct w) s = .next t ∧ t.pending = s.pending ∧ t.m.aux = { s.m.aux with lcal := none } ∧
          t.m.flag 0x1A0C 8 = false ∧ t.m.flag 0x1A08 19 = true ∧ s.m.wroteOnly t.m ag [.aux] [0x1A0C, 0x1A08])) ∧
    (∀ l, s.m.aux.lcal = some l → l.ch < 8 →
      (16 ≤ l.n → l.posted = false → s.m.busy = false →
        (l.result &&& persistMask (auxBase l.ch + 0x1C) ≠
            s.m.reg (auxBase l.ch + 0x1C) &&& persistMask (auxBase l.ch + 0x1C) → s.m.worn (auxBase l.ch + 0x1C) = false →
          ∃ t, exec .leadCalDone s = .next t ∧ t.pending = s.pending ∧
            t.m.aux = { s.m.aux with lcal := some { l with posted := true } } ∧
            t.m.reg (auxBase l.ch + 0x1C) &&& persistMask (auxBase l.ch + 0x1C) =
              l.result &&& persistMask (auxBase l.ch + 0x1C) ∧
            t.m.nv = { s.m.nv with write := some ⟨auxBase l.ch + 0x1C, s.m.reg (auxBase l.ch + 0x1C),
              t.m.reg (auxBase l.ch + 0x1C), none⟩ } ∧
            s.m.changesOnly t.m [.regs, .aux, .nv] ∧ s.m.keepsRegs t.m [auxBase l.ch + 0x1C]) ∧
        (l.result &&& persistMask (auxBase l.ch + 0x1C) =
            s.m.reg (auxBase l.ch + 0x1C) &&& persistMask (auxBase l.ch + 0x1C) →
          ∃ t, exec .leadCalDone s = .next t ∧ t.pending = s.pending ∧ t.m.aux.lcal = none ∧ t.m.flag 0x1A0C 8 = false ∧
            t.m.flag 0x1A08 20 = true ∧ s.m.changesOnly t.m [.regs, .aux] ∧ s.m.keepsRegs t.m [0x1A0C, 0x1A08]) ∧
        (l.result &&& persistMask (auxBase l.ch + 0x1C) ≠
            s.m.reg (auxBase l.ch + 0x1C) &&& persistMask (auxBase l.ch + 0x1C) → s.m.worn (auxBase l.ch + 0x1C) = true →
          ∃ t, exec .leadCalDone s = .next t ∧ t.pending = s.pending ∧ t.m.aux = { s.m.aux with lcal := none } ∧
            t.m.flag 0x1A0C 8 = false ∧ t.m.flag 0x1A08 19 = true ∧
            t.m.reg (auxBase l.ch + 0x1C) = s.m.reg (auxBase l.ch + 0x1C) ∧ s.m.changesOnly t.m [.regs, .aux])) ∧
      (∀ w, l.posted = true → s.m.nv.write = some w → w.addr = auxBase l.ch + 0x1C →
        ∃ t, exec (.persistWriteDone .good) s = .next t ∧ t.pending = s.pending ∧ t.m.aux.lcal = none ∧
          t.m.flag 0x1A0C 8 = false ∧ t.m.flag 0x1A08 20 = true ∧ t.m.reg w.addr = s.m.reg w.addr ∧ t.m.nv.write = none) ∧
      (l.n < 16 → l.since + 10 * second ≤ s.m.clk.now →
        ∃ t, exec .leadCalTimeout s = .next t ∧ t.pending = s.pending ∧ t.m.aux = { s.m.aux with lcal := none } ∧
          t.m.flag 0x1A0C 8 = false ∧ t.m.flag 0x1A08 19 = true ∧ s.m.changesOnly t.m [.regs, .aux] ∧
          s.m.keepsRegs t.m [0x1A0C, 0x1A08]))

/-- R74, R417 to R425: an accepted edge of an enabled DAMPER to its asserted level begins a blanking, counts it and sets DAMPER; the edge
back ends it and writes a marker for each group that it held, here ACF alone; an assertion of 100 ms sets STUCK and, with STUCKEND, ends
there, DAMPER ignored. Here the part is in Run and wakes from nothing. -/
def Obligations.DamperEdges : Prop :=
  ∀ (s : State), s.m.canonical = true → s.m.on 2 = true → s.m.clk.life = .up →
    (∀ level ticks, s.m.noClear → s.m.clk.vio = true → 14 ≤ ticks → s.m.clk.mode = .run → s.m.clk.entry = none →
      s.m.clk.wokeAt ≠ some s.m.clk.now → s.m.aux.ignoreDamper = false →
      (s.m.flag 0x1A04 0 = true → s.m.damperActive level = true → s.m.aux.asserted = false →
        ∃ t, exec (.damperEdge level ticks) s = .next t ∧ t.pending = s.pending ∧ t.m.aux.asserted = true ∧
          t.m.aux.spans.head? = some ⟨s.m.ts, none, none⟩ ∧ t.m.aux.damperLevel = level ∧ t.m.aux.chans = s.m.aux.chans ∧ t.m.flag 0x1A08 22 = true ∧
          bitsAt (t.m.reg 0x1A10) 0 24 = min 0xFFFFFF (bitsAt (s.m.reg 0x1A10) 0 24 + 1) ∧
          s.m.changesOnly t.m [.regs, .aux] ∧ s.m.keepsRegs t.m [0x1A08, 0x1A10]) ∧
      (s.m.damperActive level = false → s.m.aux.asserted = true → s.m.flag 0x1A04 4 = true → s.m.flag 0x1A04 5 = false →
        s.m.flag 0x1A04 6 = false → s.m.aux.auxDuring = false → s.m.anyAux = false → s.m.roomFor 0 1 →
        ∃ t, exec (.damperEdge level ticks) s = .next t ∧ t.pending = s.pending ∧ t.m.aux.asserted = false ∧
          t.m.aux.spans = listUpd s.m.aux.spans 0 (fun x => { x with stop := some s.m.ts }) ∧ t.m.aux.damperLevel = level ∧
          t.m.aux.chans = s.m.aux.chans.map (fun c => { c with damped := true }) ∧
          s.m.gained t.m 0 [blankMarker (s.m.ts - s.m.damperSince) 0 false] ∧ (∀ k, k ≠ 0 → t.m.q k = s.m.q k) ∧
          s.m.changesOnly t.m [.regs, .aux, .flt, .buf] ∧ s.m.keepsRegs t.m [0x100C])) ∧
    (s.m.noClear → s.m.aux.asserted = true → s.m.aux.stuckSeen = false → s.m.damperSince + millisUp 100 ≤ s.m.ts →
      (s.m.flag 0x1A04 2 = false →
        ∃ t, exec .damperStuck s = .next t ∧ t.pending = s.pending ∧ t.m.aux = { s.m.aux with stuckSeen := true } ∧
          t.m.flag 0x1A08 23 = true ∧ s.m.changesOnly t.m [.regs, .aux] ∧ s.m.keepsRegs t.m [0x1A08]) ∧
      (s.m.flag 0x1A04 2 = true → s.m.flag 0x1A04 4 = false → s.m.flag 0x1A04 5 = false → s.m.flag 0x1A04 6 = false →
        s.m.aux.auxDuring = false → s.m.anyAux = false →
        ∃ t, exec .damperStuck s = .next t ∧ t.pending = s.pending ∧ t.m.aux.asserted = false ∧ t.m.aux.ignoreDamper = true ∧
          t.m.aux.spans = listUpd s.m.aux.spans 0 (fun x => { x with stop := some (s.m.damperSince + millisUp 100) }) ∧
          t.m.flag 0x1A08 23 = true ∧ s.m.changesOnly t.m [.regs, .aux] ∧ s.m.keepsRegs t.m [0x1A08]))

/-- R480 to R490, R499 to R501, R508: at a period of HEALTHY in which impact alone is compared, both chains sound and no acknowledgment
waiting: an impact that has stood for its persistence trips the path, releases both pins, counts and sets GUARD; with no function
crossed the state stays. A difference between the chains puts the path in FAULT with its cause: 1 decimated samples, 2 comparisons,
6 threshold copies, 3 test vectors. -/
def Obligations.GuardPeriods : Prop :=
  ∀ (s : State) (ins : GuardInput), s.m.canonical = true → s.m.noClear → s.m.comparesNow → s.m.grd.st = .healthy →
    s.m.grd.ack = false →
    (s.m.flag 0x2C00 0 = true → impAbove (decimated ins sound) s.m.grd.a.impThr = true → s.m.grd.a.imp = s.m.fld 0x2C00 12 4 →
      s.m.grd.tripImp = false →
      ∃ t, exec (.guardPeriod ins ⟨sound, sound⟩) s = .next t ∧ t.pending = s.pending ∧ t.m.grd.st = .trip ∧
        t.m.grd.tripImp = true ∧ t.m.grd.tripOsp = s.m.grd.tripOsp ∧ t.m.grd.a.driven = false ∧ t.m.grd.b.driven = false ∧
        t.m.grd.a.dec = decimated ins sound ∧ t.m.grd.b.dec = decimated ins sound ∧ t.m.grd.lastPeriod = some s.m.ts ∧
        bitsAt (t.m.reg 0x2C1C) 0 24 = min 0xFFFFFF (bitsAt (s.m.reg 0x2C1C) 0 24 + 1) ∧ t.m.flag 0x2C18 0 = true ∧
        (∀ p, t.m.flag (intsrc p) 5 = true) ∧ s.m.changesOnly t.m [.regs, .pa, .pb, .flt, .evt, .grd, .buf, .sec, .nv, .free]) ∧
    (s.m.flag 0x2C00 0 = false ∨ impAbove (decimated ins sound) s.m.grd.a.impThr = false →
      ∃ t, exec (.guardPeriod ins ⟨sound, sound⟩) s = .next t ∧ t.pending = s.pending ∧ t.m.grd.st = .healthy ∧
        t.m.grd.a.imp = 0 ∧ t.m.grd.b.imp = 0 ∧ t.m.grd.peakImp = max s.m.grd.peakImp (guardImpMag (decimated ins sound)) ∧
        t.m.grd.peakOsp = max s.m.grd.peakOsp (s.m.spinMag (decimated ins sound)) ∧ t.m.grd.lastPeriod = some s.m.ts ∧
        s.m.changesOnly t.m [.grd]) ∧
    (∀ (u : GuardUpset) (cause : Nat), s.m.flag 0x2C00 0 = false →
      (cause = 1 ∧ decimated ins sound ≠ decimated ins u) ∨
        (cause = 2 ∧ decimated ins sound = decimated ins u ∧ u.cmp = true) ∨
        (cause = 6 ∧ decimated ins sound = decimated ins u ∧ u.cmp = false ∧ u.thrImp ≠ 0) ∨
        (cause = 3 ∧ decimated ins sound = decimated ins u ∧ u.cmp = false ∧ u.thrImp = 0 ∧ u.thrOsp = 0 ∧ u.vec = true) →
      ∃ t, exec (.guardPeriod ins ⟨sound, u⟩) s = .next t ∧ t.pending = s.pending ∧ t.m.grd.st = .fault ∧
        t.m.grd.fcause = (if s.m.grd.fcause = 0 then cause else s.m.grd.fcause) ∧ t.m.grd.a.driven = false ∧
        t.m.grd.b.driven = false ∧ t.m.flag 0x2C18 2 = true ∧ (∀ p, t.m.flag (intsrc p) 5 = true) ∧
        s.m.changesOnly t.m [.regs, .pa, .pb, .flt, .evt, .grd, .buf, .sec, .nv, .free])

/-- R72, R486, R487, R493: a pin of a HEALTHY path sensed high for 1 ms puts it in FAULT with that pin's cause; a pin under its
short-circuit limit for more than 1 ms is released; in FAULT with FPULSE both pins go low for 20 µs at a multiple of 2^16 ticks. -/
def Obligations.GuardPins : Prop :=
  ∀ (s : State) (second_ : Bool) (ticks : Nat), s.m.canonical = true →
    (s.m.on 1 = true → s.m.on 5 = true → s.m.grd.st = .healthy → 2 ^ 26 ≤ ticks * 1000 →
      ∃ t, exec (.guardPinFault second_ true ticks) s = .next t ∧ t.pending = s.pending ∧ t.m.grd.st = .fault ∧
        t.m.grd.fcause = (if s.m.grd.fcause = 0 then (if second_ then 5 else 4) else s.m.grd.fcause) ∧
        t.m.grd.a.driven = false ∧ t.m.grd.b.driven = false ∧ t.m.flag 0x2C18 2 = true ∧
        (∀ p, t.m.flag (intsrc p) 5 = true) ∧
        s.m.changesOnly t.m [.regs, .pa, .pb, .flt, .evt, .grd, .buf, .sec, .nv, .free]) ∧
    (s.m.grd.sinks second_ = true → 2 ^ 26 < ticks * 1000 →
      ∃ t, exec (.guardShortRelease second_ ticks) s = .next t ∧ t.pending = s.pending ∧ t.m.grd.sinks second_ = false ∧
        t.m.grd.sinks (!second_) = s.m.grd.sinks (!second_) ∧ t.m.grd.st = s.m.grd.st ∧ s.m.changesOnly t.m [.grd]) ∧
    (s.m.grd.st = .fault → s.m.flag 0x2C00 2 = true → s.m.ts % 65536 = 0 →
      ∃ t, exec .faultPulse s = .next t ∧ t.pending = s.pending ∧ t.m.grd.a.driven = true ∧ t.m.grd.b.driven = true ∧
        t.m.grd.pulseUntil = s.m.clk.now + micros 20 ∧ t.m.grd.st = .fault ∧ s.m.changesOnly t.m [.grd])

/-- R124, R487, R494, R496: ARM written to an unlocked `GRD_LOCK` locks the guard registers; a path that is OFF and may arm enters ARMING.
ACK written to `GRD_ACK` waits for the end of a period.
R496, R497, R501: an acknowledgment in TRIP that no mismatch and no new crossing disturbs: with the quantities below the thresholds
less their hysteresis the path returns to HEALTHY with no function tripped; else it stays in TRIP and ACKFAR is set. -/
def Obligations.GuardWritesAndAcknowledges : Prop :=
  (∀ (s : State) (ag : Agent) (w : Word), s.m.canonical = true → bitAt w 0 = true →
     (s.m.takesWrite ag .direct 0x2C0C → s.m.regs.locked = [] → s.m.on 1 = true → s.m.clk.mode = .run → s.m.clk.start = none →
       s.m.leaving = false → s.m.testing 0 = false → s.m.grdReady = true → s.m.grd.st = .off → s.m.grd.a.driven = false →
       s.m.grd.b.driven = false →
       ∃ t, exec (.guardArm ag .direct w) s = .next t ∧ t.pending = s.pending ∧ t.m.grd.st = .arming ∧ t.m.grd.periods = 0 ∧
         t.m.grd.armAt = s.m.ts ∧ t.m.grd.a.impThr = s.m.grdImpThr 0 ∧ t.m.grd.b.impThr = s.m.grdImpThr 0 ∧
         t.m.grd.a.ospThr = s.m.grdOspThr 0 ∧ t.m.grd.b.ospThr = s.m.grdOspThr 0 ∧
         t.m.flag 0x2C0C 0 = true ∧ t.m.regs.locked = [0x2C00, 0x2C04, 0x2C08, 0x2C0C] ∧
         s.m.wroteOnly t.m ag [.grd] [0x2C0C]) ∧
     (s.m.takesWrite ag .direct 0x2C10 →
       ∃ t, exec (.guardAck ag .direct w) s = .next t ∧ t.pending = s.pending ∧ t.m.grd = { s.m.grd with ack := true } ∧
         s.m.wroteOnly t.m ag [.grd] [])) ∧
  (∀ (s : State) (ins : GuardInput), s.m.canonical = true → s.m.noClear → s.m.comparesNow → s.m.grd.st = .trip →
     s.m.grd.ack = true → s.m.grd.tripImp = true → s.m.grd.tripOsp = false →
     (impAbove (decimated ins sound) (s.m.grdImpThr (s.m.fld 0x2C04 16 8)) = false →
       impAbove (decimated ins sound) s.m.grd.a.impThr = false →
       ∃ t, exec (.guardPeriod ins ⟨sound, sound⟩) s = .next t ∧ t.pending = s.pending ∧ t.m.grd.st = .healthy ∧
         t.m.grd.tripImp = false ∧ t.m.grd.tripOsp = false ∧ t.m.grd.ack = false ∧ t.m.grd.a.driven = true ∧
         t.m.grd.b.driven = true ∧ t.m.grd.peakImp = 0 ∧ t.m.grd.peakOsp = 0 ∧ t.m.flag 0x2C18 3 = true ∧
         s.m.changesOnly t.m [.regs, .pa, .pb, .flt, .evt, .grd, .buf, .sec, .nv]) ∧
     (impAbove (decimated ins sound) (s.m.grdImpThr (s.m.fld 0x2C04 16 8)) = true →
       ∃ t, exec (.guardPeriod ins ⟨sound, sound⟩) s = .next t ∧ t.pending = s.pending ∧ t.m.grd.st = .trip ∧
         t.m.grd.tripImp = true ∧ t.m.grd.ack = false ∧ t.m.flag 0x2C18 4 = true ∧ s.m.changesOnly t.m [.regs, .grd] ∧
         s.m.keepsRegs t.m [0x2C18]))

/-- R461 to R464: what the machine instructions STOP, JMP, JIF, CNT, WAITC, WAITE and TIME do to their machine: STOP ends it, JMP and a JIF
whose condition holds set its next address, CNT loads, increments or decrements a counter within its limits, the waits begin (or end at
once, their timer expired), TIME starts and stops its timers. Nothing else of the block changes. -/
def Obligations.MachineControl : Prop :=
  ∀ (s : State) (n : Fin 16) (w : Word), s.m.smNext n.val w →
    (smOp w = 0 → ∃ t, exec (.smStop n) s = .next t ∧ t.pending = s.pending ∧
      s.m.smBecame t.m n.val { s.m.smPast n.val with run := .stopped, wait := .idle } ∧ s.m.changesOnly t.m [.evt]) ∧
    (smOp w = 5 → ∃ t, exec (.smJmp n) s = .next t ∧ t.pending = s.pending ∧
      s.m.smBecame t.m n.val { s.m.smPast n.val with pc := bitsAt w 0 10 } ∧ s.m.changesOnly t.m [.evt]) ∧
    (smOp w = 6 → ∃ t, exec (.smJif n) s = .next t ∧ t.pending = s.pending ∧
      s.m.smBecame t.m n.val
        (if (s.m.sm n.val).cond s.m.flagsSeen (bitsAt w 22 5) ≠ bitAt w 21 then { s.m.smPast n.val with pc := bitsAt w 0 10 }
          else s.m.smPast n.val) ∧ s.m.changesOnly t.m [.evt]) ∧
    (smOp w = 4 → ∃ t v, exec (.smCnt n) s = .next t ∧ t.pending = s.pending ∧
      (v = if bitAt w 26 then (s.m.sm n.val).cnt1 else (s.m.sm n.val).cnt0) ∧
      s.m.smBecame t.m n.val
        (if bitAt w 26 then { s.m.smPast n.val with
            cnt1 := if bitsAt w 24 2 = 0 then bitsAt w 0 16 else if bitsAt w 24 2 = 1 then min 65535 (v + 1) else v - 1 }
          else { s.m.smPast n.val with
            cnt0 := if bitsAt w 24 2 = 0 then bitsAt w 0 16 else if bitsAt w 24 2 = 1 then min 65535 (v + 1) else v - 1 }) ∧
      s.m.changesOnly t.m [.evt]) ∧
    (smOp w = 1 → ∃ t, exec (.smWaitc n) s = .next t ∧ t.pending = s.pending ∧
      s.m.smBecame t.m n.val
        (if bitsAt w 12 2 ≠ 0 ∧ ((s.m.sm n.val).timer (bitsAt w 12 2 = 2)).expired = true then
          { s.m.smPast n.val with streak := 0, c := false, ref := ((s.m.sm n.val).timer (bitsAt w 12 2 = 2)).expiry }
        else { s.m.smPast n.val with streak := 0, run := .wait, wait := .waitc w (!bitAt w 23) 0 }) ∧
      s.m.changesOnly t.m [.evt]) ∧
    (smOp w = 2 → ∃ t, exec (.smWaite n) s = .next t ∧ t.pending = s.pending ∧
      s.m.smBecame t.m n.val
        (if bitsAt w 12 2 ≠ 0 ∧ ((s.m.sm n.val).timer (bitsAt w 12 2 = 2)).expired = true then
          { s.m.smPast n.val with streak := 0, c := false, ref := ((s.m.sm n.val).timer (bitsAt w 12 2 = 2)).expiry }
        else { s.m.smPast n.val with streak := 0, run := .wait, wait := .waite w }) ∧ s.m.changesOnly t.m [.evt]) ∧
    (smOp w = 3 → ∃ t, exec (.smTime n) s = .next t ∧ t.pending = s.pending ∧
      (bitsAt w 24 2 = 0 → s.m.smBecame t.m n.val
        ((s.m.smPast n.val).setTimer (bitAt w 26) ⟨true, false, s.m.ts + bitsAt w 0 24 * 1024, 0⟩)) ∧
      (bitsAt w 24 2 = 1 → s.m.smBecame t.m n.val
        (if ((s.m.sm n.val).timer (bitAt w 26)).expired then
          { s.m.smPast n.val with ref := ((s.m.sm n.val).timer (bitAt w 26)).expiry, streak := 0 }
        else { s.m.smPast n.val with run := .wait, wait := .time (bitAt w 26), streak := 0 })) ∧
      (bitsAt w 24 2 = 2 → s.m.smBecame t.m n.val
        ((s.m.smPast n.val).setTimer (bitAt w 26) { (s.m.sm n.val).timer (bitAt w 26) with running := false })) ∧
      (bitsAt w 24 2 = 3 → s.m.smBecame t.m n.val
        { (s.m.smPast n.val).setTimer (bitAt w 26) ⟨true, false, s.m.ts + bitsAt w 0 24 * 1024, 0⟩ with
          run := .wait, wait := .time (bitAt w 26), streak := 0 }) ∧ s.m.changesOnly t.m [.evt])

/-- R448, R464 to R466, R469, R535: what the machine instructions EMIT, OUT, CAPT, SETF and CLRF do beside going on: EMIT gives a record
with the reference instant to Q3; OUT routes a decision to a port, latches engine interrupts, or writes a TXD register that is free;
CAPT triggers an ARMED queue; SETF and CLRF set and clear flags. -/
def Obligations.MachineEffects : Prop :=
  ∀ (s : State) (n : Fin 16) (w : Word), s.m.canonical = true → s.m.noClear → s.m.smNext n.val w →
    (smOp w = 7 → 0x1000 ≤ bitsAt w 0 16 → bitsAt w 0 16 ≤ 0x7FFF → s.m.roomFor 3 4 → s.m.qPolicy 3 = 1 → s.m.buf.pendingGaps = [] →
      s.m.evt.held = [] → ∃ t, exec (.smEmit n) s = .next t ∧ t.pending = s.pending ∧
        s.m.gained t.m 3 (Rec.toWords ⟨(s.m.sm n.val).ref, bitsAt w 0 16, n.val, bitsAt w 16 8,
          (s.m.sm n.val).vsrc (bitsAt w 24 3) s.m.ts⟩) ∧ t.m.sm n.val = s.m.smPast n.val ∧
        bitsAt (t.m.reg 0x2024) 0 24 = min 0xFFFFFF (bitsAt (s.m.reg 0x2024) 0 24 + 1) ∧
        s.m.changesOnly t.m [.regs, .evt, .buf] ∧ s.m.keepsRegs t.m [0x2024]) ∧
    (smOp w = 8 → bitsAt w 25 2 = 0 → s.m.on 5 = true → s.m.clk.mode = .run →
      ∃ t, exec (.smOut n) s = .next t ∧ t.pending = s.pending ∧ (bitAt w 0 = true → t.m.flag 0x2014 n.val = true ∧
          t.m.flag (intsrc .a) 4 = true) ∧ (bitAt w 1 = true → t.m.flag 0x2018 n.val = true ∧ t.m.flag (intsrc .b) 4 = true) ∧
        s.m.smBecame t.m n.val (s.m.smPast n.val) ∧ s.m.changesOnly t.m [.regs, .pa, .pb, .evt] ∧
        s.m.keepsRegs t.m [0x2014, 0x2018, intsrc .a, intsrc .b]) ∧
    (smOp w = 8 → bitsAt w 25 2 = 1 → s.m.on 6 = true → s.m.testing 5 = false → s.m.eng.engs.length = 4 →
      ∃ t, exec (.smOut n) s = .next t ∧ t.pending = s.pending ∧
        (∀ e < 4, (t.m.engine e).irq = ((s.m.engine e).irq || bitAt w e)) ∧ s.m.smBecame t.m n.val (s.m.smPast n.val) ∧
        s.m.changesOnly t.m [.evt, .eng]) ∧
    (smOp w = 8 → bitsAt w 25 2 = 2 → s.m.on 6 = true → s.m.testing 5 = false → s.m.eng.engs.length = 4 →
      bitsAt w 0 3 < (s.m.engine (bitsAt w 4 2)).ctxs.length → (s.m.ctx (bitsAt w 4 2) (bitsAt w 0 3)).txf = false →
      (s.m.ctx (bitsAt w 4 2) (bitsAt w 0 3)).txAt ≠ some s.m.clk.now →
      ∃ t, exec (.smOut n) s = .next t ∧ t.pending = s.pending ∧
        t.m.ctx (bitsAt w 4 2) (bitsAt w 0 3) = { s.m.ctx (bitsAt w 4 2) (bitsAt w 0 3) with
          txd := (s.m.sm n.val).vsrc (bitsAt w 22 3) s.m.ts, txf := true, txAt := some s.m.clk.now } ∧
        t.m.isGated 9 = false ∧ s.m.smBecame t.m n.val (s.m.smPast n.val) ∧ s.m.changesOnly t.m [.regs, .evt, .eng] ∧
        s.m.keepsRegs t.m []) ∧
    (∀ q, smOp w = 9 → w = bitMask q ||| 0x48000000 → q < 5 → q ≠ 3 → s.m.qPolicy q = 2 → (s.m.q q).run = .armed →
      s.m.buf.queues.length = 5 →
      ∃ t, exec (.smCapt n) s = .next t ∧ t.pending = s.pending ∧ (t.m.q q).run = .capturing ∧ (t.m.q q).trigAt = some s.m.ts ∧
        (t.m.q q).postLeft = s.m.qPost q ∧ s.m.smBecame t.m n.val (s.m.smPast n.val) ∧
        s.m.changesOnly t.m [.regs, .pa, .pb, .flt, .evt, .buf, .sec, .nv, .free]) ∧
    (smOp w = 10 → ∃ t, exec (.smSetf n) s = .next t ∧ t.pending = s.pending ∧
      t.m.eng = { s.m.eng with
        flags := s.m.eng.flags ||| (s.m.flagsSet ||| BitVec.ofNat 16 (bitsAt w 0 16)), flagsAt := t.m.eng.flagsAt } ∧
      t.m.flagsSet = s.m.flagsSet ||| BitVec.ofNat 16 (bitsAt w 0 16) ∧ t.m.flagsSeen = s.m.flagsSeen ∧
      s.m.smBecame t.m n.val (s.m.smPast n.val) ∧ s.m.changesOnly t.m [.evt, .eng]) ∧
    (smOp w = 11 → ∃ t, exec (.smClrf n) s = .next t ∧ t.pending = s.pending ∧
      t.m.eng = { s.m.eng with
        flags := s.m.eng.flags &&& ~~~(BitVec.ofNat 16 (bitsAt w 0 16)) ||| s.m.flagsSet, flagsAt := t.m.eng.flagsAt } ∧
      t.m.flagsSet = s.m.flagsSet ∧ t.m.flagsSeen = s.m.flagsSeen ∧
      s.m.smBecame t.m n.val (s.m.smPast n.val) ∧ s.m.changesOnly t.m [.evt, .eng])

/-- R28, R464: a machine timer that has reached its expiry expires; it ends a wait for it, and one that it times out with C = 0, with the
expiry as reference instant; the event records that were held while Q3 took none are written into it in order. -/
def Obligations.TimersAndHeldRecords : Prop :=
  ∀ (s : State), s.m.on 3 = true →
    (∀ (n : Fin 16) (timer : Fin 2), n.val < s.m.evt.machines.length → s.m.evt.wakeReq = false →
      ((s.m.sm n.val).timer (timer.val = 1)).running = true → ((s.m.sm n.val).timer (timer.val = 1)).expiry ≤ s.m.ts →
      ((s.m.sm n.val).run = .run →
        ∃ t, exec (.smTimerExpiry n timer) s = .next t ∧ t.pending = s.pending ∧
          s.m.smKept t.m n.val ((s.m.sm n.val).setTimer (timer.val = 1)
            { (s.m.sm n.val).timer (timer.val = 1) with running := false, expired := true }) ∧ s.m.changesOnly t.m [.evt]) ∧
      ((s.m.sm n.val).run = .wait → (s.m.sm n.val).wait = .time (timer.val = 1) →
        ∃ t, exec (.smTimerExpiry n timer) s = .next t ∧ t.pending = s.pending ∧
          s.m.smKept t.m n.val { (s.m.sm n.val).setTimer (timer.val = 1)
            { (s.m.sm n.val).timer (timer.val = 1) with running := false, expired := true } with
              wait := .ended, ref := ((s.m.sm n.val).timer (timer.val = 1)).expiry } ∧
          s.m.changesOnly t.m [.evt]) ∧
      (∀ w, (s.m.sm n.val).run = .wait → ((s.m.sm n.val).wait = .waite w ∨ ∃ a k, (s.m.sm n.val).wait = .waitc w a k) →
        bitsAt w 12 2 = timer.val + 1 →
        ∃ t, exec (.smTimerExpiry n timer) s = .next t ∧ t.pending = s.pending ∧
          s.m.smKept t.m n.val { (s.m.sm n.val).setTimer (timer.val = 1)
            { (s.m.sm n.val).timer (timer.val = 1) with running := false, expired := true } with
              c := false, wait := .expired s.m.clk.now (s.m.sm n.val).wait
              ref := ((s.m.sm n.val).timer (timer.val = 1)).expiry } ∧
          s.m.changesOnly t.m [.evt])) ∧
    (s.m.roomFor 3 (4 * s.m.evt.held.length) → s.m.qPolicy 3 = 1 → s.m.buf.pendingGaps = [] →
      ∃ t, exec .heldRecordsWrite s = .next t ∧ t.pending = s.pending ∧ s.m.gained t.m 3 (s.m.evt.held.flatMap Rec.toWords) ∧
        t.m.evt.held = [] ∧ t.m.evt.machines = s.m.evt.machines ∧ (∀ k, k ≠ 3 → t.m.q k = s.m.q k) ∧
        s.m.changesOnly t.m [.evt, .buf])

/-- R565, R570, R572, R579: what the engine instructions JMP, DJNZ, SET and IRQ do in a context's turn: the next address by the condition
or the count, the pin latches, count register or flags that SET names, the interrupt latches and the IRQ bit. -/
def Obligations.EngineFlow : Prop :=
  ∀ (s : State) (n : Fin 4) (c : Fin 8) (levels : BitVec 16) (w : Word), s.m.canonical = true → s.m.engNext n.val c.val w →
    (bitsAt w 28 4 = 0 → ∃ t, exec (.engJmp n c levels) s = .next t ∧ t.pending = s.pending ∧
      s.m.ctxBecame t.m n.val c.val { s.m.ctx n.val c.val with
        pc := if (s.m.atPins levels).engCond n.val c.val w then bitsAt w 0 8 else (s.m.ctx n.val c.val).pc + 1, op := .ready } ∧
      t.m.eng = { s.m.eng with engs := t.m.eng.engs, levels := (s.m.atPins levels).eng.levels } ∧ s.m.changesOnly t.m [.eng]) ∧
    (bitsAt w 28 4 = 1 → ∃ t v, exec (.djnz n c levels) s = .next t ∧ t.pending = s.pending ∧
      v = (if bitAt w 24 then (s.m.ctx n.val c.val).cb else (s.m.ctx n.val c.val).ca) - 1 ∧
      s.m.ctxBecame t.m n.val c.val { s.m.ctx n.val c.val with
        ca := if bitAt w 24 then (s.m.ctx n.val c.val).ca else v
        cb := if bitAt w 24 then v else (s.m.ctx n.val c.val).cb
        pc := if v = 0 then (s.m.ctx n.val c.val).pc + 1 else bitsAt w 0 8, op := .ready } ∧
      t.m.eng = { s.m.eng with engs := t.m.eng.engs, levels := (s.m.atPins levels).eng.levels } ∧ s.m.changesOnly t.m [.eng]) ∧
    (bitsAt w 28 4 = 2 → ∃ t, exec (.engSet n c levels) s = .next t ∧ t.pending = s.pending ∧
      (bitsAt w 24 4 = 0 → latchesSet s.m.eng.out t.m.eng.out w ∧ t.m.eng.drive = s.m.eng.drive ∧
        s.m.ctxBecame t.m n.val c.val (s.m.ctxPast n.val c.val)) ∧
      (bitsAt w 24 4 = 1 → latchesSet s.m.eng.drive t.m.eng.drive w ∧ t.m.eng.out = s.m.eng.out ∧
        s.m.ctxBecame t.m n.val c.val (s.m.ctxPast n.val c.val)) ∧
      (bitsAt w 24 4 = 2 →
        s.m.ctxBecame t.m n.val c.val { s.m.ctxPast n.val c.val with ca := wordOfInt (signed 24 (bitsAt w 0 24)) }) ∧
      (bitsAt w 24 4 = 3 →
        s.m.ctxBecame t.m n.val c.val { s.m.ctxPast n.val c.val with cb := wordOfInt (signed 24 (bitsAt w 0 24)) }) ∧
      (bitsAt w 24 4 = 4 → t.m.eng.flags = s.m.eng.flags ||| (s.m.flagsSet ||| BitVec.ofNat 16 (bitsAt w 0 16)) ∧
        t.m.flagsSeen = s.m.flagsSeen ∧
        s.m.ctxBecame t.m n.val c.val (s.m.ctxPast n.val c.val)) ∧
      (bitsAt w 24 4 = 5 → t.m.eng.flags = s.m.eng.flags &&& ~~~(BitVec.ofNat 16 (bitsAt w 0 16)) ||| s.m.flagsSet ∧
        t.m.flagsSeen = s.m.flagsSeen ∧
        s.m.ctxBecame t.m n.val c.val (s.m.ctxPast n.val c.val)) ∧
      (bitsAt w 24 4 < 4 → t.m.eng.flags = s.m.eng.flags) ∧ s.m.changesOnly t.m [.eng]) ∧
    (bitsAt w 28 4 = 11 → s.m.noClear → ∃ t, exec (.irq n c levels) s = .next t ∧ t.pending = s.pending ∧
      t.m.ctx n.val c.val = s.m.ctxPast n.val c.val ∧ (∀ e < 4, (t.m.engine e).irq = ((s.m.engine e).irq || bitAt w e)) ∧
      (bitAt w 4 = true → t.m.flag 0x2724 (8 + n.val) = true) ∧ s.m.changesOnly t.m [.regs, .eng] ∧
      s.m.keepsRegs t.m [0x2724])

/-- R572 to R574, R576 to R579: what the engine instructions DELAY, WAITPIN, WAITFLAG, WAITIRQ, SHIFTOUT, SHIFTIN, PULL and PUSH do in a
context's turn: the operation or wait begins, or its condition holds and the context goes on with what it brings. -/
def Obligations.EngineWaitsAndData : Prop :=
  ∀ (s : State) (n : Fin 4) (c : Fin 8) (levels : BitVec 16) (w : Word) (x : Ctx), s.m.engNext n.val c.val w →
    x = s.m.ctx n.val c.val →
    (bitsAt w 28 4 = 3 → ∃ t, exec (.delay n c levels) s = .next t ∧ t.pending = s.pending ∧
      s.m.ctxBecame t.m n.val c.val { x with op := .delay ((s.m.engine n.val).tick + bitsAt w 0 24) } ∧
      s.m.changesOnly t.m [.eng]) ∧
    (bitsAt w 28 4 = 4 → ∃ t, exec (.waitpin n c levels) s = .next t ∧ t.pending = s.pending ∧
      s.m.ctxBecame t.m n.val c.val
        (if ((maskPins w).all (fun p => (s.m.atPins levels).pinRead p.1 == p.2)) ≠ bitAt w 24 then s.m.ctxPast n.val c.val
          else { x with op := .waitPin }) ∧ s.m.changesOnly t.m [.eng]) ∧
    (bitsAt w 28 4 = 5 → ∃ t, exec (.waitflag n c levels) s = .next t ∧ t.pending = s.pending ∧
      s.m.ctxBecame t.m n.val c.val
        (if s.m.flagsSeen.getLsbD (bitsAt w 16 4) = bitAt w 20 then s.m.ctxPast n.val c.val else { x with op := .waitFlag }) ∧
      s.m.changesOnly t.m [.eng]) ∧
    (bitsAt w 28 4 = 6 → (∀ u, (s.m.engine n.val).irqAt = some u → u.1 ≠ s.m.clk.now) →
      ∃ t, exec (.waitirq n c levels) s = .next t ∧ t.pending = s.pending ∧
        s.m.ctxBecame t.m n.val c.val
          (if (s.m.engine n.val).irq then s.m.ctxPast n.val c.val else { x with op := .waitIrq }) ∧
        (t.m.engine n.val).irq = false ∧ s.m.changesOnly t.m [.eng]) ∧
    (bitsAt w 28 4 = 7 → ∃ t, exec (.shiftout n c levels) s = .next t ∧ t.pending = s.pending ∧
      s.m.ctxBecame t.m n.val c.val { x with
        op := .shift true w (s.m.engine n.val).tick 0 x.sh, sh := if bitAt w 16 then x.sh >>> 1 else x.sh <<< 1 } ∧
      t.m.eng.out.getLsbD (bitsAt w 24 4) = (if bitAt w 16 then bitAt x.sh 0 else bitAt x.sh 31) ∧
      s.m.changesOnly t.m [.eng]) ∧
    (bitsAt w 28 4 = 8 → ∃ t, exec (.shiftin n c levels) s = .next t ∧ t.pending = s.pending ∧
      s.m.ctxBecame t.m n.val c.val { x with op := .shift false w (s.m.engine n.val).tick 0 x.sh } ∧
      (bitAt w 19 = true → t.m.eng.out.getLsbD (bitsAt w 20 4) = bitAt w 18) ∧ s.m.changesOnly t.m [.eng]) ∧
    (bitsAt w 28 4 = 9 → x.txAt ≠ some s.m.clk.now → ∃ t, exec (.pull n c levels) s = .next t ∧ t.pending = s.pending ∧
      s.m.ctxBecame t.m n.val c.val
        (if x.txf then { s.m.ctxPast n.val c.val with
            txf := false, txAt := some s.m.clk.now
            sh := if bitsAt w 24 2 = 0 then x.txd else x.sh
            ca := if bitsAt w 24 2 = 1 then x.txd else x.ca
            cb := if bitsAt w 24 2 = 2 then x.txd else x.cb }
          else if bitAt w 23 then s.m.ctxPast n.val c.val else { x with op := .dataWait }) ∧ s.m.changesOnly t.m [.eng]) ∧
    (bitsAt w 28 4 = 10 → x.rxf = false → x.rxAt ≠ some s.m.clk.now →
      ∃ t, exec (.push n c levels) s = .next t ∧ t.pending = s.pending ∧
        s.m.ctxBecame t.m n.val c.val { s.m.ctxPast n.val c.val with
          rxd := if bitsAt w 24 2 = 0 then x.sh else if bitsAt w 24 2 = 1 then x.ca else if bitsAt w 24 2 = 2 then x.cb
            else word (bitsAt x.cb 0 16 * 65536 + bitsAt x.ca 0 16)
          rxf := true, rxAt := some s.m.clk.now, sh := if bitsAt w 24 2 = 0 then 0 else x.sh } ∧ s.m.changesOnly t.m [.eng])

/-- R560 to R562, R573, R574, R583, R586: at a tick whose turn is of a context that is not enabled, a delay that has run out, or a shift
after its last bit, lets its context go on to the next address; with no operation in progress only the tick passes; a STOP that waits
takes effect; a word that is not valid stalls its engine. -/
def Obligations.EngineTicks : Prop :=
  ∀ (s : State) (n : Fin 4) (levels : BitVec 16), s.m.canonical = true → s.m.eng.engs.length = 4 →
    (s.m.engine n.val).ctxs.length = 8 → s.m.tickDue n.val = true → (s.m.engine n.val).run = .running →
    (s.m.stopDue n.val = true →
      ∃ t, exec (.engineTick n levels) s = .next t ∧ t.pending = s.pending ∧
        t.m.engine n.val = { s.m.engine n.val with run := .stopped, stopping := false, resok := true } ∧
        (∀ j, j ≠ n.val → t.m.engine j = s.m.engine j) ∧ t.m.eng = { s.m.eng with engs := t.m.eng.engs, levels := (s.m.atPins levels).eng.levels } ∧
        s.m.changesOnly t.m [.eng]) ∧
    (s.m.stopDue n.val = false → s.m.ctxOn n.val (s.m.engine n.val).turn = false →
      ((∀ k, (s.m.ctx n.val k).op.long = false) →
        ∃ t, exec (.engineTick n levels) s = .next t ∧ t.pending = s.pending ∧
          t.m.engine n.val = { s.m.engine n.val with tick := (s.m.engine n.val).tick + 1 } ∧
          (∀ j, j ≠ n.val → t.m.engine j = s.m.engine j) ∧ t.m.eng = { s.m.eng with engs := t.m.eng.engs, levels := (s.m.atPins levels).eng.levels } ∧
          s.m.changesOnly t.m [.eng]) ∧
      (∀ (c : Fin 8) (e : Nat), s.m.ctxOn n.val c.val = true → (s.m.ctx n.val c.val).op = .delay e →
        e ≤ (s.m.engine n.val).tick → (s.m.ctx n.val c.val).pc < 255 →
        (∀ k, k ≠ c.val → (s.m.ctx n.val k).op.long = false) →
        ∃ t, exec (.delayEnd n c levels) s = .next t ∧ t.pending = s.pending ∧
          s.m.ctxBecame t.m n.val c.val (s.m.ctxPast n.val c.val) ∧ s.m.changesOnly t.m [.eng]) ∧
      (∀ (c : Fin 8) (w before : Word) (bs : Nat), s.m.ctxOn n.val c.val = true →
        (s.m.ctx n.val c.val).op = .shift true w bs (bitsAt w 8 5) before → bitsAt w 0 6 ≠ 0 →
        (s.m.engine n.val).tick = bs + 2 * bitsAt w 0 6 → (s.m.ctx n.val c.val).pc < 255 →
        (∀ k, k ≠ c.val → (s.m.ctx n.val k).op.long = false) →
        ∃ t, exec (.shiftEnd n c levels) s = .next t ∧ t.pending = s.pending ∧
          s.m.ctxBecame t.m n.val c.val (s.m.ctxPast n.val c.val) ∧
          (bitAt w 19 = true → t.m.eng.out.getLsbD (bitsAt w 20 4) = bitAt w 18) ∧ s.m.changesOnly t.m [.eng])) ∧
    (∀ (c : Nat) (w : Word), s.m.noClear → s.m.stopDue n.val = false → (s.m.engine n.val).turn = c → s.m.ctxOn n.val c = true →
      (∀ k, (s.m.ctx n.val k).op.long = false) → s.m.engWord n.val (s.m.ctx n.val c).pc = w → s.m.engCause n.val w ≠ 0 →
      ∃ t, exec (.engineTick n levels) s = .next t ∧ t.pending = s.pending ∧ (t.m.engine n.val).run = .stalled ∧
        (t.m.engine n.val).fcause = s.m.engCause n.val w ∧ (t.m.engine n.val).fctx = c ∧
        (t.m.engine n.val).fpc = (s.m.ctx n.val c).pc ∧ (∀ k, t.m.ctx n.val k = s.m.ctx n.val k) ∧
        (∀ j, j ≠ n.val → t.m.engine j = s.m.engine j) ∧ t.m.flag 0x2724 n.val = true ∧
        s.m.changesOnly t.m [.regs, .eng] ∧ s.m.keepsRegs t.m [0x2724])

/-- R575, R578, R579, R582 to R585: what the engine registers' GO bits and the TXD registers do to the engines and contexts they name,
where nothing refuses them: start, stop at the next tick, resume, interrupt latches, RXF cleared, TXD written and TXF set.
R587: a START in the FOSC cycle of a stall comes first: the fault recorded before stands, and the engine's stall bit is as it was. -/
def Obligations.EngineWrites : Prop :=
  ∀ (s : State) (ag : Agent) (w : Word), s.m.eng.engs.length = 4 →
    (s.m.takesWrite ag .direct 0x2708 → (∀ n < 4, w.getLsbD n = true → s.m.engReserved n = false) →
      ∃ t, exec (.engStart ag .direct w) s = .next t ∧ t.pending = s.pending ∧
        (∀ n < 4, w.getLsbD n = false → t.m.engine n = s.m.engine n) ∧
        (∀ n < 4, w.getLsbD n = true → (t.m.engine n).run = .running ∧ (t.m.engine n).stopping = false ∧ (t.m.engine n).edge = s.m.clk.now + 1 ∧
          (t.m.engine n).tick = 0 ∧ (t.m.engine n).turnBase = 0 ∧ (t.m.engine n).resok = false ∧
          (∀ c < (s.m.engine n).ctxs.length, s.m.ctxOn n c = true → t.m.ctx n c = { s.m.ctx n c with
            pc := s.m.fld (0x2400 + 0x80 * n + 0x10 * c) 0 8, sh := 0, ca := 0, cb := 0, op := .ready }) ∧
          ∀ p < 16, s.m.pinOwned n p = true → t.m.eng.out.getLsbD p = s.m.flag (pinAddr p) 1 ∧
            t.m.eng.drive.getLsbD p = s.m.flag (pinAddr p) 2) ∧
        ((∀ n < 4, ∀ u, (s.m.engine n).undo = some u → u.at_ ≠ s.m.clk.now) → s.m.wroteOnly t.m ag [.eng] []) ∧
        (∀ n < 4, ∀ u, w = bitMask n → (s.m.engine n).undo = some u → u.at_ = s.m.clk.now →
          (t.m.engine n).fcause = u.cause ∧ (t.m.engine n).fctx = u.ctx ∧ (t.m.engine n).fpc = u.pc ∧
          t.m.flag 0x2724 n = bitAt u.status n ∧ s.m.wroteOnly t.m ag [.eng] [0x2724])) ∧
    (s.m.takesWrite ag .direct 0x270C → (∀ n < 4, w.getLsbD n = true → s.m.engReserved n = false) →
      ∃ t, exec (.engStop ag .direct w) s = .next t ∧ t.pending = s.pending ∧
        (∀ n < 4, t.m.engine n = if w.getLsbD n ∧ (s.m.engine n).run ≠ .stopped then
            { s.m.engine n with stopping := true, stopAt := s.m.clk.now }
          else s.m.engine n) ∧ t.m.eng = { s.m.eng with engs := t.m.eng.engs } ∧ s.m.wroteOnly t.m ag [.eng] []) ∧
    (s.m.takesWrite ag .direct 0x2710 → (∀ n < 4, w.getLsbD n = true → s.m.engReserved n = false ∧
        (s.m.engine n).resok = true ∧ (s.m.engine n).run = .stopped) →
      ∃ t, exec (.engResume ag .direct w) s = .next t ∧ t.pending = s.pending ∧
        (∀ n < 4, w.getLsbD n = false → t.m.engine n = s.m.engine n) ∧
        (∀ n < 4, w.getLsbD n = true → t.m.engine n = { s.m.engine n with
          run := .running, resok := false, edge := s.m.clk.now + 1, turnBase := (s.m.engine n).turn, tick := 0
          ctxs := (s.m.engine n).ctxs.map (fun x => x.resume (s.m.engine n).tick) }) ∧
        t.m.eng = { s.m.eng with engs := t.m.eng.engs } ∧ s.m.wroteOnly t.m ag [.eng] []) ∧
    (s.m.takesWrite ag .direct 0x2714 →
      ∃ t, exec (.engIrq ag .direct w) s = .next t ∧ t.pending = s.pending ∧
        (∀ n < 4, (t.m.engine n).irq = ((s.m.engine n).irq || w.getLsbD n) ∧ (t.m.engine n).ctxs = (s.m.engine n).ctxs) ∧
        s.m.wroteOnly t.m ag [.eng] []) ∧
    (s.m.takesWrite ag .direct 0x271C → (∀ n < 4, (s.m.engine n).ctxs.length = 8) →
      ∃ t, exec (.engRxack ag .direct w) s = .next t ∧ t.pending = s.pending ∧
        (∀ n < 4, ∀ c < 8, t.m.ctx n c = if w.getLsbD (8 * n + c) ∧ (s.m.ctx n c).rxf = true then
          { s.m.ctx n c with rxf := false, rxAt := some s.m.clk.now } else s.m.ctx n c) ∧ s.m.wroteOnly t.m ag [.eng] []) ∧
    (∀ (n : Fin 4) (c : Fin 8), s.m.takesWrite ag .direct (0x2680 + 32 * n.val + 4 * c.val) →
      c.val < (s.m.engine n.val).ctxs.length → (s.m.ctx n.val c.val).txf = false →
      (s.m.ctx n.val c.val).txAt ≠ some s.m.clk.now →
      ∃ t, exec (.txd ag .direct n c w) s = .next t ∧ t.pending = s.pending ∧
        t.m.ctx n.val c.val = { s.m.ctx n.val c.val with txd := w, txf := true, txAt := some s.m.clk.now } ∧
        (∀ k, k ≠ c.val → t.m.ctx n.val k = s.m.ctx n.val k) ∧ (∀ j, j ≠ n.val → t.m.engine j = s.m.engine j) ∧
        s.m.wroteOnly t.m ag [.eng] [])

/-- R565, R567, R588: a write of an `ENG_PINp` whose old and new owners do not run is stored, and the pin's latches take INIT and INITOE;
the other pins' latches stay. -/
def Obligations.PinWrites : Prop :=
  ∀ (s : State) (ag : Agent) (pin : Fin 16) (d : RegDef) (w : Word), s.m.canonical = true →
    s.m.takesWrite ag .direct (pinAddr pin.val) → regDef (pinAddr pin.val) = some d →
    d.inRange (d.written .direct (s.m.reg (pinAddr pin.val)) w) = true → (∀ n, s.m.engActive n = false) →
    (bitsAt (s.m.reg (pinAddr pin.val)) 16 3 ≠ 0 → s.m.engReserved (bitsAt (s.m.reg (pinAddr pin.val)) 16 3 - 1) = false) →
    ∃ t, exec (.engPin ag .direct pin w) s = .next t ∧ t.pending = s.pending ∧
      t.m.reg (pinAddr pin.val) = d.written .direct (s.m.reg (pinAddr pin.val)) w ∧
      t.m.eng.out.getLsbD pin.val = bitAt w 1 ∧ t.m.eng.drive.getLsbD pin.val = bitAt w 2 ∧
      (∀ p, p ≠ pin.val → t.m.eng.out.getLsbD p = s.m.eng.out.getLsbD p ∧
        t.m.eng.drive.getLsbD p = s.m.eng.drive.getLsbD p) ∧
      t.m.eng.engs = s.m.eng.engs ∧ s.m.wroteOnly t.m ag [.eng] [pinAddr pin.val]

/-- R605, R607, R613: the SYNC rows. A manager's pulse goes High for 64 ticks, 192 at a frame mark. A worker that accepts a pulse keeps
its measured instant and error and moves in its SYNC states; LOCKED without a pulse for 3 ms becomes HOLDOVER; LOAD arms a
timestamp load, which the next frame mark makes. -/
def Obligations.FleetTime : Prop :=
  ∀ (s : State) (low high : Nat) (x : Int), s.m.canonical = true → s.m.noClear → s.m.on 6 = true →
    (s.m.fleet = true → s.m.clk.vio = true → frameStart (frameOf s.m.ts) = s.m.ts →
      ∃ t, exec .syncPulseOut s = .next t ∧ t.pending = s.pending ∧
        t.m.flue = { s.m.flue with
          pulseHighUntil := some (s.m.clk.now + if frameOf s.m.ts % 1000 = 0 then 192 else 64)
          mark := if frameOf s.m.ts % 1000 = 0 then some (s.m.clk.now, s.m.ts) else s.m.flue.mark } ∧
        s.m.changesOnly t.m [.flue]) ∧
    (s.m.flue.sync = .locked → (∀ p, s.m.flue.lastPulse = some p → p.1 + millis 3 < s.m.clk.now) → s.m.flue.lastPulse ≠ none →
      ∃ t, exec .syncHoldover s = .next t ∧ t.pending = s.pending ∧ t.m.flue = { s.m.flue with sync := .holdover } ∧
        t.m.flag 0x281C 1 = true ∧ s.m.changesOnly t.m [.regs, .flue] ∧ s.m.keepsRegs t.m [0x281C]) ∧
    (∀ (ag : Agent) (w : Word), s.m.takesWrite ag .direct 0x2818 → bitAt w 0 = true → s.m.flue.sync = .locked →
      s.m.flag 0x2818 0 = false →
      ∃ t, exec (.flueTload ag .direct w) s = .next t ∧ t.pending = s.pending ∧
        t.m.flue = { s.m.flue with loadAt := some s.m.clk.now } ∧ t.m.flag 0x2818 0 = true ∧
        s.m.wroteOnly t.m ag [.flue] [0x2818]) ∧
    (s.m.clk.life = .up → s.m.clk.vio = true → s.m.flue.role = 1 → s.m.fosc = true → 4 ≤ low → 14 ≤ high → s.m.clk.mode = .run →
      s.m.clk.entry = none → s.m.clk.wokeAt ≠ some s.m.clk.now → x = (s.m.ts : Int) - 4 + (s.m.fld 0x2808 0 8 : Int) →
      (s.m.flue.loadAt = none →
        ∃ t, exec (.syncPulseIn low high) s = .next t ∧ t.pending = s.pending ∧
          t.m.flue.lastPulse = some (s.m.clk.now, x) ∧ t.m.flue.errs = ((x - gridNear x) :: s.m.flue.errs).take 16 ∧
          t.m.flue.mark = (if 128 ≤ high then some (s.m.clk.now, x.toNat) else s.m.flue.mark) ∧
          t.m.flue.workers = s.m.flue.workers ∧ s.m.changesOnly t.m [.regs, .flue] ∧ s.m.keepsRegs t.m [0x281C] ∧
          (s.m.flue.sync = .free → t.m.flue.sync = .acquire ∧ t.m.flue.goodIntervals = 0) ∧
          (s.m.flue.sync = .acquire → ∀ p, s.m.flue.lastPulse = some p →
            t.m.flue.goodIntervals = (if |(x - p.2) * 1000 - 67108864| ≤ 1342 then s.m.flue.goodIntervals + 1 else 0) ∧
            t.m.flue.sync = (if 64 ≤ t.m.flue.goodIntervals then .locked else .acquire) ∧
            (64 ≤ t.m.flue.goodIntervals → t.m.flag 0x281C 0 = true)) ∧
          (s.m.flue.sync = .locked → t.m.flue.sync = .locked ∧ t.m.flue.att = s.m.flue.att) ∧
          (s.m.flue.sync = .holdover → s.m.flue.att = true → |x - gridNear x| ≤ 134 →
            t.m.flue.sync = .locked ∧ t.m.flue.att = true ∧ t.m.flag 0x281C 0 = true) ∧
          (s.m.flue.sync = .holdover → s.m.flue.att = false ∨ 134 < |x - gridNear x| →
            t.m.flue.sync = .acquire ∧ t.m.flue.att = false ∧ t.m.flag 0x281C 3 = true)) ∧
      (∀ u, s.m.flue.loadAt = some u → u + millis 1 < s.m.clk.now → 128 ≤ high → s.m.flue.sync = .locked →
        ∃ t, exec (.syncPulseIn low high) s = .next t ∧ t.pending = s.pending ∧
          t.m.ts = (((s.m.reg 0x2814).toNat * 2 ^ 32 + (s.m.reg 0x2810).toNat + 4 - s.m.fld 0x2808 0 8) % (2 ^ 64 : Int)).toNat ∧
          t.m.clk.now = s.m.clk.now ∧ t.m.flue.sync = .locked ∧ t.m.flue.att = true ∧ t.m.flue.loadAt = none ∧
          t.m.flue.errs = [] ∧ t.m.flag 0x2818 0 = false ∧ t.m.flag 0x281C 2 = true ∧
          s.m.changesOnly t.m [.clk, .regs, .mot, .flt, .ang, .aux, .grd, .flue]))

/-- R610 to R612, R618 to R627: the rows of a manager's fleet. A scan whose address answers every attach step makes it ACTIVE with its
serial and level; a pull's new good block is stored in Q4, after NOT_READY the next turn serves the same queue, and a turn without an answer counts, to AWAY
at MISSN; an upgrade's
reply moves its forwarding on; a saturated absence is recorded and continued. -/
def Obligations.FleetService : Prop :=
  ∀ (s : State) (w : Fin 32), s.m.canonical = true → s.m.noClear → s.m.fleet = true → s.m.flue.workers.length = 32 →
    (∀ (a : ScanAnswer) (id : List Word), (∀ u, s.m.flue.lastScan = some u → u + second ≤ s.m.clk.now) → a.w = w →
      s.m.busOn (w.val / 16) = true → (s.m.worker w.val).st ≠ 1 → (s.m.worker w.val).absent = false →
      (s.m.worker w.val).commanded = false → a.crcFails = false → a.ident = some id → id.getD 0 0 = 0x4E4C4716 →
      bitsAt (id.getD 4 0) 24 8 ≤ s.m.ownLevel → a.wstate.map (fun v => bitsAt v 0 2) = some 2 → a.loadStatus = 0 →
      a.wstateAfter.map (fun v => bitAt v 2) = some true →
      ∃ t, exec (.scanTimer [a]) s = .next t ∧ t.pending = s.pending ∧
        t.m.worker w.val = { s.m.worker w.val with
          st := 1, reason := 0, turnBlocks := 0, missed := 0, pl := bitsAt (id.getD 4 0) 24 8
          serial := id.getD 3 0 ++ id.getD 2 0, nextQueue := 0
          lastSeq := if (s.m.worker w.val).serial = id.getD 3 0 ++ id.getD 2 0 then (s.m.worker w.val).lastSeq
            else [none, none, none, none] } ∧
        t.m.flue = { s.m.flue with lastScan := some s.m.clk.now, workers := t.m.flue.workers } ∧
        (∀ v, v ≠ w.val → t.m.worker v = s.m.worker v) ∧ t.m.flag 0x281C 4 = true ∧ s.m.changesOnly t.m [.regs, .flue] ∧
        s.m.keepsRegs t.m [0x281C]) ∧
    (∀ (a : PullAnswer) (q : Nat), q = a.queue.val → s.m.turnWorker (w.val / 16) = some w.val → s.m.turnQueue w.val = some q →
      (a.answered = false → (s.m.worker w.val).missed + 1 < s.m.fld 0x2800 16 8 →
        ∃ t, exec (.fluePull w a) s = .next t ∧ t.pending = s.pending ∧
          t.m.worker w.val = { s.m.worker w.val with
            missed := (s.m.worker w.val).missed + 1, turnBlocks := 0, nextQueue := (q + 1) % 4 } ∧
          (∀ v, v ≠ w.val → t.m.worker v = s.m.worker v) ∧
          (if w.val < 16 then t.m.flue.busTurn0 else t.m.flue.busTurn1) = (w.val + 1) % 16 ∧ s.m.changesOnly t.m [.flue]) ∧
      (a.answered = false → s.m.fld 0x2800 16 8 ≤ (s.m.worker w.val).missed + 1 →
        ∃ t, exec (.fluePull w a) s = .next t ∧ t.pending = s.pending ∧
          t.m.worker w.val = { s.m.worker w.val with
            st := 2, reason := 2, missed := 0, turnBlocks := 0, nextQueue := (q + 1) % 4, absent := true
            awaySince := s.m.clk.now, awayTs := s.m.ts, commanded := false } ∧
          (∀ v, v ≠ w.val → t.m.worker v = s.m.worker v) ∧ t.m.flag 0x281C 4 = true ∧ s.m.changesOnly t.m [.regs, .flue] ∧
          s.m.keepsRegs t.m [0x281C]) ∧
      (a.answered = true → a.crcErrors = [] → a.unassigned = false → bitsAt a.fill 0 13 ≠ 0 → a.notReady = true →
        ∃ t, exec (.fluePull w a) s = .next t ∧ t.pending = s.pending ∧
          t.m.worker w.val = { s.m.worker w.val with missed := 0, turnBlocks := 0, nextQueue := q } ∧
          (∀ v, v ≠ w.val → t.m.worker v = s.m.worker v) ∧
          (if w.val < 16 then t.m.flue.busTurn0 else t.m.flue.busTurn1) = (w.val + 1) % 16 ∧ s.m.changesOnly t.m [.flue]) ∧
      (∀ seq b, a.answered = true → a.crcErrors = [] → a.unassigned = false → a.notReady = false → bitsAt a.fill 0 13 ≠ 0 →
        a.blocks.head? = some b → blockGood (s.m.worker w.val).serial q b = true →
        seq = (b.getD 3 0).toNat * 2 ^ 32 + (b.getD 4 0).toNat →
        (∀ o, (s.m.worker w.val).lastSeq.getD q none = some o → o < seq) → (s.m.worker w.val).turnBlocks < 3 →
        s.m.buf.queues.length = 5 →
        ∃ t, exec (.fluePull w a) s = .next t ∧ t.pending = s.pending ∧
          t.m.worker w.val = { s.m.worker w.val with
            missed := 0, turnBlocks := (s.m.worker w.val).turnBlocks + 1
            lastSeq := listSet (s.m.worker w.val).lastSeq q (some seq) } ∧
          (∀ v, v ≠ w.val → t.m.worker v = s.m.worker v) ∧
          (t.m.q 4).unread = (s.m.q 4).unread ++
            [⟨(s.m.q 4).openNo, seq, (s.m.q 4).absNext, b, true, s.m.clk.now, w.val⟩] ∧
          (∀ k < 4, t.m.q k = s.m.q k) ∧ t.m.buf.q4Seal = s.m.buf.q4Seal + 1 ∧
          bitsAt (t.m.reg 0x28C0) 0 24 = min 0xFFFFFF (bitsAt (s.m.reg 0x28C0) 0 24 + 1) ∧
          s.m.changesOnly t.m [.regs, .pa, .pb, .buf, .flue] ∧ s.m.keepsRegs t.m [0x28C0, 0x1CDC, 0x410, 0x430])) ∧
    (∀ f, s.m.flue.forward = some f → f.w = w.val →
      (∃ t, exec (.forwardLine .err) s = .next t ∧ t.pending = s.pending ∧ t.m.flue = { s.m.flue with forward := none } ∧
        t.m.flag 0x281C 6 = true ∧ s.m.changesOnly t.m [.regs, .flue] ∧ s.m.keepsRegs t.m [0x281C]) ∧
      (f.acked + 1 < f.lines + 2 →
        ∃ t, exec (.forwardLine .ok) s = .next t ∧ t.pending = s.pending ∧
          t.m.flue = { s.m.flue with forward := some { f with acked := f.acked + 1 } } ∧ s.m.changesOnly t.m [.flue]) ∧
      (f.acked + 1 = f.lines + 2 →
        ∃ t, exec (.forwardLine .ok) s = .next t ∧ t.pending = s.pending ∧ t.m.flue.forward = none ∧
          t.m.worker w.val = { s.m.worker w.val with
            st := 2, reason := 3, turnBlocks := 0, missed := 0, absent := true, awaySince := s.m.clk.now, awayTs := s.m.ts
            commanded := false } ∧
          (∀ v, v ≠ w.val → t.m.worker v = s.m.worker v) ∧ t.m.flag 0x281C 5 = true ∧ s.m.changesOnly t.m [.regs, .flue] ∧
          s.m.keepsRegs t.m [0x281C])) ∧
    ((s.m.worker w.val).absent = true → (s.m.worker w.val).awaySince + 0xFFFFFF * 65536 ≤ s.m.clk.now → s.m.taking = false →
      ∃ t, exec (.awaySaturation w) s = .next t ∧ t.pending = s.pending ∧
        t.m.buf = { s.m.buf with
          pendingGaps := addPending s.m.buf.pendingGaps ⟨8, 4, (s.m.worker w.val).awayTs, 0, 0, 0xFFFFFF * 256 + w.val⟩ } ∧
        t.m.worker w.val = { s.m.worker w.val with awaySince := s.m.clk.now, awayTs := s.m.ts } ∧
        (∀ v, v ≠ w.val → t.m.worker v = s.m.worker v) ∧ s.m.changesOnly t.m [.buf, .flue])

/-- R57, R58, R64 to R68, R690: the supplies. VIO lost and returned, VHOLD armed and run down, a power failure that switches D1 to D6
off with every write and test abandoned and starts the commit from an armed VHOLD, and the commit's end with its validity mark. -/
def Obligations.SupplyChanges : Prop :=
  ∀ (s : State), s.m.nv.write = none → s.m.bist.run = none →
    (∃ t, exec .vioLoss s = .next t ∧ t.pending = s.pending ∧ t.m.clk = { s.m.clk with vio := false } ∧
      t.m.flue = { s.m.flue with pulseHighUntil := none } ∧ s.m.changesOnly t.m [.clk, .flue]) ∧
    (∀ l : VioLevels, s.m.clk.vio = false →
      ∃ t, exec (.vioReturn l) s = .next t ∧ t.pending = s.pending ∧ t.m.clk = { s.m.clk with vio := true, keyLevel := l.key } ∧
        t.m.aux = { s.m.aux with damperLevel := l.damper } ∧ s.m.changesOnly t.m [.clk, .aux]) ∧
    (s.m.clk.vsup = true →
      ∃ t, exec .vholdArmed s = .next t ∧ t.pending = s.pending ∧ t.m.clk = { s.m.clk with vholdArmed := true } ∧
        s.m.changesOnly t.m [.clk]) ∧
    (s.m.clk.vsup = false →
      ∃ t, exec .vholdAbsent s = .next t ∧ t.pending = s.pending ∧
        t.m.clk = { s.m.clk with life := .unpowered, dom := { s.m.clk.dom with d0 := false, d7 := .off } } ∧
        (s.m.nv.committing = none → s.m.changesOnly t.m [.clk]) ∧
        (∀ c, s.m.nv.committing = some c → s.m.changesOnly t.m [.clk, .nv] ∧ t.m.nv.committing = none ∧
          (if s.m.nv.areaNextB then t.m.nv.areaB else t.m.nv.areaA) = some c)) ∧
    (∀ c, s.m.nv.committing = some c → s.m.nv.commitStart = none →
      ∃ t, exec (.commitDone false) s = .next t ∧ t.pending = s.pending ∧
        t.m.nv = { s.m.nv with
          committing := none, areaNextB := !s.m.nv.areaNextB
          areaA := if s.m.nv.areaNextB then s.m.nv.areaA else some { c with marked := true }
          areaB := if s.m.nv.areaNextB then some { c with marked := true } else s.m.nv.areaB } ∧
        t.m.clk = { s.m.clk with dom := { s.m.clk.dom with d7 := .off } } ∧ s.m.changesOnly t.m [.clk, .nv]) ∧
    (∀ lowNs, 2000 < lowNs → s.m.clk.vsup = true → s.m.clk.life ≠ .up →
      ∃ t, exec (.powerFail lowNs) s = .next t ∧ t.pending = s.pending ∧
        t.m.clk = { s.m.clk with vsup := false, vholdArmed := false, life := .unpowered } ∧
        t.m.nv = { s.m.nv with commitStart := none } ∧ s.m.changesOnly t.m [.clk, .nv]) ∧
    (∀ lowNs, 2000 < lowNs → s.m.clk.vsup = true → s.m.clk.life = .up →
      ∃ t, exec (.powerFail lowNs) s = .next t ∧ t.pending = s.pending ∧ t.m.clk.vsup = false ∧ t.m.clk.vholdArmed = false ∧
        t.m.clk.life = .unpowered ∧ t.m.clk.start = none ∧ t.m.clk.entry = none ∧ (∀ k < 6, t.m.dom (k + 1) = .off) ∧
        t.m.dom 7 = (if s.m.clk.vholdArmed then s.m.dom 7 else .off) ∧ t.m.nv.activation = none ∧ t.m.nv.commitStart = none ∧
        t.m.sec.sealing = none ∧
        (s.m.clk.vholdArmed = false → t.m.nv.committing = none) ∧
        (s.m.clk.vholdArmed = true → ∃ c, t.m.nv.committing = some c ∧ c.marked = false ∧ c.used = false ∧
          c.threshold = s.m.clk.ts ∧ c.starts = s.m.nv.starts) ∧
        t.m.clk.ts = s.m.clk.ts ∧ t.m.nv.areaA = s.m.nv.areaA ∧ t.m.nv.areaB = s.m.nv.areaB ∧ t.m.nv.slotA = s.m.nv.slotA ∧
        t.m.nv.slotB = s.m.nv.slotB ∧ t.m.sec.life = s.m.sec.life ∧ s.m.agrees t.m .mem ∧ s.m.agrees t.m .bist)

/-- R66, R67, R127, R683 to R689, R719: the rows that begin and end a start: VSUP's return, an accepted RESET_N pulse and a firmware
activation begin a cold start from the slot chosen, an activation whose image does not verify from the other slot; Run is reached once
the self-test has ended and VHOLD is armed; a TRY slot becomes GOOD after 10 s of Run. -/
def Obligations.StartsBeginAndEnd : Prop :=
  ∀ (s : State) (straps : Straps), straps.test = false →
    (s.m.nv.slotA.st ≠ .try_ → s.m.nv.slotB.st ≠ .try_ → (s.m.slot s.m.nv.nextB).st = .good → s.m.nv.committing = none →
      (s.m.clk.vsup = false →
        ∃ t, exec (.powerOnRelease straps) s = .next t ∧ t.pending = s.pending ∧
          s.m.coldStarted t.m straps s.m.nv.nextB s.m.latestCommit.isSome) ∧
      (∀ lowNs, 1000 ≤ lowNs → s.m.clk.vsup = true → s.m.clk.vio = true → s.m.nv.write = none →
        ∃ t, exec (.resetN lowNs straps) s = .next t ∧ t.pending = s.pending ∧
          s.m.coldStarted t.m straps s.m.nv.nextB s.m.latestCommit.isSome)) ∧
    (∀ c, s.m.nv.committing = some c → s.m.clk.vsup = false →
      ∃ t, exec (.powerOnRelease straps) s = .next t ∧ t.pending = s.pending ∧ t.m.clk = { s.m.clk with vsup := true } ∧
        t.m.nv = { s.m.nv with commitStart := some straps } ∧ s.m.changesOnly t.m [.clk, .nv]) ∧
    (∀ p u, s.m.nv.activation = some (p, u) → (∀ q, p = some q → ((s.m.port q).finalLeft = 0 ∧ (s.m.port q).executing = none) ∨
        u + millisUp 50 ≤ s.m.clk.now) → s.m.clk.life = .up → s.m.clk.vsup = true → s.m.nv.write = none → s.m.bist.run = none →
      (s.m.slot s.m.nv.nextB).st = .try_ →
      ∃ t, exec (.firmwareActivation straps) s = .next t ∧ t.pending = s.pending ∧ t.m.nv.activation = none ∧
        (s.m.fwVerifies (s.m.slot s.m.nv.nextB).image = true →
          s.m.coldStarted t.m straps s.m.nv.nextB true ∧ (t.m.slot s.m.nv.nextB).st = .try_ ∧
            (t.m.slot s.m.nv.nextB).digest = some (sha256 (s.m.slot s.m.nv.nextB).image)) ∧
        (s.m.fwVerifies (s.m.slot s.m.nv.nextB).image = false → (s.m.slot (!s.m.nv.nextB)).st = .good →
          s.m.coldStarted t.m straps (!s.m.nv.nextB) true ∧ (t.m.slot s.m.nv.nextB).st = .bad ∧
            (∃ x, t.m.clk.start = some x ∧ x.rollback = true) ∧ t.m.flag 0x3010 5 = true)) ∧
    (s.m.running.st = .try_ → s.m.clk.life = .up → s.m.clk.mode = .run → s.m.clk.start = none →
      s.m.clk.runSince + 10 * second ≤ s.m.clk.now →
      ∃ t, exec .slotGood s = .next t ∧ t.pending = s.pending ∧ t.m.running = { s.m.running with st := .good } ∧
        (if s.m.nv.runB then t.m.nv.slotA = s.m.nv.slotA else t.m.nv.slotB = s.m.nv.slotB) ∧ s.m.changesOnly t.m [.nv]) ∧
    (∀ x, s.m.canonical = true → s.m.noClear → s.m.clk.start = some x → s.m.clk.vholdArmed = true → s.m.bist.run = none → s.m.clk.life = .up →
      s.m.on 0 = true → x.target = .run → (x.cold = false ∨ s.m.flag 0x808 0 = false) →
      ∃ t, exec .startComplete s = .next t ∧ t.pending = s.pending ∧
        t.m.clk = { s.m.clk with start := none, modeSince := s.m.clk.now, runSince := s.m.clk.now } ∧
        (x.full = true → t.m.flag 0x820 5 = true) ∧ (x.pfail = true → t.m.flag 0x820 3 = true) ∧
        (x.rollback = true → t.m.flag 0x820 4 = true) ∧ s.m.changesOnly t.m [.clk, .regs, .grd, .free] ∧
        s.m.keepsRegs t.m [0x820])

/-- R253, R670 to R682: the rows of the power modes in Run, in an entry and in Watch: the domains written to PWR_DOM switch, a mode entry
begins where nothing refuses it, goes past its commit point or aborts there, and switches the domains off; a SEL edge or the
wake timer is latched during an entry and ends Watch. -/
def Obligations.PowerModesChange : Prop :=
  ∀ (s : State), s.m.canonical = true → s.m.on 0 = true → s.m.clk.life = .up →
    (∀ (ag : Agent) (w : Word), s.m.takesWrite ag .direct 0x80C → s.m.clk.mode = .run → s.m.clk.start = none →
      s.m.domCheck w = 0 →
      ∃ t, exec (.pwrDomWrite ag .direct w) s = .next t ∧ t.pending = s.pending ∧
        (∀ k ∈ [1, 2, 3, 4, 6, 7], t.m.dom k = if bitAt w k then .on else .off) ∧ t.m.dom 5 = s.m.dom 5 ∧
        t.m.clk.mode = s.m.clk.mode ∧ t.m.clk.entry = s.m.clk.entry ∧ t.m.clk.now = s.m.clk.now) ∧
    (∀ (ag : Agent) (w : Word), s.m.takesWrite ag .direct 0x800 → bitAt w 4 = true → (bitsAt w 0 2 = 1 ∨ bitsAt w 0 2 = 2) →
      s.m.clk.start = none → s.m.clk.entry = none → s.m.refusers (portOf ag) false false = [] →
      ∃ t, exec (.pwrModeEnter ag .direct w) s = .next t ∧ t.pending = s.pending ∧
        t.m.clk = { s.m.clk with
          latchedWake := none
          entry := some ⟨if bitsAt w 0 2 = 1 then .watch else .ember, .close, s.m.clk.now, portOf ag, false, false⟩ } ∧
        t.m.flag 0x800 4 = true ∧ (∀ q < 4, (t.m.q q).openBlk = none) ∧
        s.m.changesOnly t.m [.clk, .regs, .pa, .pb, .buf, .sec, .nv]) ∧
    (∀ e, s.m.clk.entry = some e →
      (e.phase = .close → s.m.refusers e.byPort e.byVerb (!e.mixed) = [] → e.target = .watch →
        ∃ t, exec .entryCommitPoint s = .next t ∧ t.pending = s.pending ∧
          t.m.clk = { s.m.clk with entry := some { e with phase := .switchOff } } ∧ s.m.changesOnly t.m [.clk]) ∧
      (e.phase = .close → s.m.refusers e.byPort e.byVerb (!e.mixed) = [] → e.target = .ember →
        ∃ t, exec .entryCommitPoint s = .next t ∧ t.pending = s.pending ∧ t.m.clk.entry = some { e with phase := .selfTest } ∧
          t.m.bist.run = some ⟨.shutdown, [0, 1, 2, 3, 4, 5, 6], [], e.byPort, e.byVerb, false, [], true, 0⟩ ∧
          t.m.clk.dom = s.m.clk.dom ∧ s.m.changesOnly t.m [.clk, .regs, .mot, .flt, .ang, .grd, .bist, .free]) ∧
      (e.phase = .close → s.m.refusers e.byPort e.byVerb (!e.mixed) ≠ [] →
        ∃ t, exec .entryCommitPoint s = .next t ∧ t.pending = s.pending ∧ t.m.clk.entry = none ∧ t.m.clk.mode = s.m.clk.mode ∧
          t.m.clk.dom = s.m.clk.dom ∧ t.m.flag 0x820 2 = true ∧ t.m.flag 0x800 4 = false ∧
          s.m.changesOnly t.m [.clk, .regs, .pa, .pb, .grd, .free]) ∧
      (e.phase = .switchOff → e.byVerb = false → s.m.clk.latchedWake = none →
        ∃ t, exec .entrySwitchOff s = .next t ∧ t.pending = s.pending ∧ t.m.clk.entry = none ∧ t.m.clk.modeSince = s.m.clk.now ∧
          (e.target = .watch → t.m.clk.mode = .watch ∧ t.m.dom 4 = .retain ∧
            (∀ k ∈ [2, 5, 6, 7], t.m.dom k = .off) ∧ ∀ k ∈ [1, 3], t.m.dom k = .on) ∧
          (e.target = .ember → t.m.clk.mode = .ember ∧ t.m.dom 4 = .retain ∧ ∀ k ∈ [1, 2, 3, 5, 6, 7], t.m.dom k = .off) ∧
          t.m.sec.life = s.m.sec.life ∧ t.m.clk.now = s.m.clk.now) ∧
      (∀ (p : Port) (low : Nat), e.phase ≠ .selfTest → s.m.clk.vio = true → 14 ≤ low → s.m.portTested p = false →
        s.m.flag 0x818 (match p with | .a => 0 | .b => 1) = true →
        ∃ t, exec (.selWake p low) s = .next t ∧ t.pending = s.pending ∧
          t.m.clk = { s.m.clk with
            latchedWake := some (min (s.m.clk.latchedWake.getD (match p with | .a => 1 | .b => 2))
              (match p with | .a => 1 | .b => 2)) } ∧
          s.m.changesOnly t.m [.clk])) ∧
    (s.m.clk.mode = .watch → s.m.clk.entry = none → s.m.clk.start = none →
      (∀ (p : Port) (low : Nat), s.m.on 5 = false → s.m.clk.vio = true → 14 ≤ low → s.m.portTested p = false →
        s.m.flag 0x818 (match p with | .a => 0 | .b => 1) = true →
        ∃ t, exec (.selWake p low) s = .next t ∧ t.pending = s.pending ∧ t.m.clk.mode = .run ∧ t.m.on 5 = true ∧
          (∀ q, (t.m.port q).readyAt = s.m.clk.now + microsUp 150 ∧ (t.m.port q).wokenAt = s.m.clk.now) ∧ t.m.clk.runSince = s.m.clk.now ∧
          t.m.clk.modeSince = s.m.clk.now ∧ t.m.clk.wokeAt = some s.m.clk.now) ∧
      (∀ n, n = (s.m.reg 0x81C).toNat → n ≠ 0 → s.m.clk.wakeTimerFired = false →
        s.m.clk.modeSince + n * 65536 ≤ s.m.clk.now →
        (s.m.flag 0x818 4 = true →
          ∃ t, exec .wakeTimer s = .next t ∧ t.pending = s.pending ∧ t.m.clk.mode = .run ∧ t.m.on 5 = true ∧
            (∀ q, (t.m.port q).readyAt = s.m.clk.now + microsUp 150) ∧
            t.m.clk.runSince = s.m.clk.now ∧ t.m.clk.modeSince = s.m.clk.now ∧ t.m.clk.wokeAt = some s.m.clk.now) ∧
        (s.m.flag 0x818 4 = false →
          ∃ t, exec .wakeTimer s = .next t ∧ t.pending = s.pending ∧
            t.m.clk = { s.m.clk with wakeTimerFired := true } ∧ s.m.changesOnly t.m [.clk])))

/-- R697 to R701, R705 to R709, R715: tests and spares. BIST_RUN starts the run of the tests it names; a test's outcome gives its
result and the run goes on to the next or ends; SPARE_USE with GO brings a spare in or starts its copy; a copy's end remaps its
row or bank. -/
def Obligations.TestsAndSpares : Prop :=
  ∀ (s : State), s.m.canonical = true → s.m.noClear → s.m.on 0 = true →
    (∀ (ag : Agent) (w : Word), s.m.takesWrite ag .direct 0x3400 → w &&& 0x7F ≠ 0 →
      s.m.testCheck (setBitsOf 7 (w &&& 0x7F)) = 0 →
      ∃ t r, exec (.bistRun ag .direct w) s = .next t ∧ t.pending = s.pending ∧ t.m.bist.run = some r ∧ r.kind = .command ∧
        r.todo = setBitsOf 7 (w &&& 0x7F) ∧ r.ran = [] ∧ r.byPort = portOf ag ∧ r.byVerb = false ∧ r.allPass = true ∧
        t.m.bist = { s.m.bist with run := some r, lastRun := 3 } ∧ s.m.agrees t.m .flue ∧ s.m.agrees t.m .mem) ∧
    (∀ (r : TestRun) (b : Nat) (rest : List Nat) (o : TestOutcome), s.m.bist.run = some r → r.todo = b :: rest → b < 7 →
      o.sigOk = true → o.steps = testSteps r b → (b = 6 → r.units ≠ []) → r.byVerb = false →
      o.steps < 2 ^ 24 → bitAt r.seen 0 = false →
      (rest ≠ [] →
        ∃ t x, exec (.selfTestEnd o) s = .next t ∧ t.pending = s.pending ∧ t.m.bist.run = some x ∧ x.todo = rest ∧
          x.ran = r.ran ++ [b] ∧ x.kind = r.kind ∧ x.byPort = r.byPort ∧ x.allPass = r.allPass ∧
          t.m.bist = { s.m.bist with run := some x } ∧ s.m.agrees t.m .flue) ∧
      (rest = [] → r.kind ≠ .shutdown →
        ∃ t, exec (.selfTestEnd o) s = .next t ∧ t.pending = s.pending ∧ t.m.bist = { s.m.bist with run := none } ∧
          t.m.flag 0x3404 0 = true ∧ (r.kind = .command → t.m.reg 0x3400 = 0) ∧
          (b ≠ 1 → t.m.reg (bistRes b) = word (2 ^ 29 + r.kind.code * 2 ^ 27 + o.steps) ∧
            t.m.reg (bistRes b + 4) = word o.steps ∧ t.m.reg (bistRes b + 8) = o.sig) ∧ s.m.agrees t.m .flue)) ∧
    (∀ (ag : Agent) (w : Word) (k u : Nat), s.m.takesWrite ag .direct 0x34A0 → bitAt w 31 = true →
      s.m.flag 0x34A0 31 = false → k = bitsAt w 16 3 → u = bitsAt w 0 16 → s.m.refuseSpare ag k u = 0 →
      ∃ t, exec (.spareUseGo ag .direct w) s = .next t ∧ t.pending = s.pending ∧
        (k ≤ 1 → t.m.bist = { s.m.bist with copies := s.m.bist.copies ++ [⟨k == 1, u, true⟩] } ∧ t.m.flag 0x34A0 31 = true ∧
          s.m.wroteOnly t.m ag [.bist] [0x34A0]) ∧
        (2 ≤ k → t.m.bist.copies = s.m.bist.copies ∧ (s.m.bist.run = none → t.m.flag 0x3404 2 = true) ∧
          s.m.wroteOnly t.m ag [.flt, .eng, .nv, .bist] [0x34A0, 0x3404]) ∧
        (k = 3 → t.m.nv = { s.m.nv with engSpare := u + 1 }) ∧ (k = 4 → t.m.nv = { s.m.nv with acfSpare := u + 1 }) ∧
        (k = 5 → t.m.nv = { s.m.nv with gyrzSpare := true }) ∧
        (k = 6 → t.m.nv.burn0 = some u ∧ t.m.nv.burn1 = s.m.nv.burn1 ∨ t.m.nv.burn1 = some u ∧ t.m.nv.burn0 = s.m.nv.burn0)) ∧
    (∀ (c : SpareCopy) (rest : List SpareCopy), s.m.bist.copies = c :: rest → s.m.bist.run = none →
      s.m.buf.units.length = 136 →
      ∃ t, exec .spareCopyDone s = .next t ∧ t.pending = s.pending ∧ t.m.bist = { s.m.bist with copies := rest } ∧
        t.m.flag 0x3404 2 = true ∧ (c.go = true → t.m.flag 0x34A0 31 = false) ∧
        s.m.keepsRegs t.m ([0x3404] ++ if c.go then [0x34A0] else []) ∧
        (c.bank = false → c.unit < 65536 → t.m.buf.rowMap = s.m.buf.rowMap ++ [c.unit] ∧
          (t.m.buf.units.map BufUnit.rows).getD (c.unit / 512) 0 = (s.m.buf.units.map BufUnit.rows).getD (c.unit / 512) 0 - 1 ∧
          t.m.buf.queues = s.m.buf.queues ∧ s.m.changesOnly t.m [.regs, .buf, .bist]) ∧
        (c.bank = true → c.unit < 128 → (t.m.buf.units.map BufUnit.served).getD c.unit false = true ∧
          t.m.buf.queues = s.m.buf.queues ∧ s.m.changesOnly t.m [.regs, .pa, .pb, .buf, .bist]))

/-- R529, R641, R649, R650, R653 to R658: seals are due every 10 s, composed for every reason that waits, and close into Q3 when they
are signed, or are discarded without room; an expired challenge and a lockout end; the key pair is generated at manufacture. -/
def Obligations.SealsKeysAndTheirTimers : Prop :=
  ∀ (s : State), s.m.canonical = true → s.m.noClear →
    (s.m.sec.life = 1 ∨ s.m.sec.life = 2 → s.m.sec.lastCompose + 10 * second ≤ s.m.clk.now →
      ∃ t, exec .sealTimer s = .next t ∧ t.pending = s.pending ∧
        t.m.sec = { s.m.sec with reasons := s.m.sec.reasons ||| 2 } ∧ s.m.changesOnly t.m [.sec]) ∧
    (s.m.taking = true → s.m.testing 3 = false → s.m.sec.sealing = none → s.m.sec.reasons ≠ 0 → (s.m.sec.life = 1 ∨ s.m.sec.life = 2) →
      s.m.sec.reasons.getLsbD 2 = false → s.m.sec.reasons.getLsbD 6 = false →
      ∃ t, exec .sealCompose s = .next t ∧ t.pending = s.pending ∧
        t.m.sec = { s.m.sec with
          reasons := 0, verbs := [], inForce := s.m.sec.made, lastCompose := s.m.clk.now
          sealing := some ⟨s.m.sealPayload s.m.sec.reasons s.m.sec.made false, s.m.sec.inForce.key,
            decide (s.m.sec.made.num ≠ s.m.sec.inForce.num), false, s.m.sec.verbs⟩ } ∧
        t.m.buf = { s.m.buf with
          q4Seal := 0
          queues := s.m.buf.queues.map (fun q => { q with sealClosed := 0, countClosed := 0, sealGaps := 0, sealDisc := 0 }) } ∧
        s.m.changesOnly t.m [.sec, .buf]) ∧
    (∀ j, s.m.sec.sealing = some j → j.retire = false → j.verbs = [] → s.m.taking = true → s.m.qPolicy 3 = 0 →
      s.m.buf.queues.length = 5 → (s.m.q 3).run = .run →
      (s.m.sealRoom = true →
        ∃ t b, exec .sealSigned s = .next t ∧ t.pending = s.pending ∧ t.m.sec.sealing = none ∧
          t.m.sec.prevSeal = some (s.m.q 3).nextSeq ∧ t.m.sec.lastSeal = (s.m.q 3).nextSeq ∧
          t.m.sec.inForce = s.m.sec.inForce ∧ (t.m.q 3).nextSeq = (s.m.q 3).nextSeq + 1 ∧
          (t.m.q 3).unread = (s.m.q 3).unread ++ [b] ∧ b.seq = (s.m.q 3).nextSeq ∧ b.readable = false ∧
          (∀ k, k ≠ 3 → t.m.q k = s.m.q k) ∧ t.m.flag 0x3010 0 = true ∧ (j.declares = true → t.m.flag 0x3010 2 = true) ∧
          bitsAt (t.m.reg 0x3014) 0 24 = min 0xFFFFFF (bitsAt (s.m.reg 0x3014) 0 24 + 1) ∧
          s.m.changesOnly t.m [.regs, .pa, .pb, .buf, .sec, .nv, .free]) ∧
      (s.m.sealRoom = false →
        ∃ t, exec .sealSigned s = .next t ∧ t.pending = s.pending ∧ t.m.sec = { s.m.sec with sealing := none } ∧
          t.m.flag 0x1C04 2 = true ∧ t.m.flag 0x3010 1 = true ∧
          bitsAt (t.m.reg 0x301C) 0 24 = min 0xFFFFFF (bitsAt (s.m.reg 0x301C) 0 24 + 1) ∧
          s.m.changesOnly t.m [.regs, .sec] ∧ s.m.keepsRegs t.m [0x1C04, 0x3010, 0x301C])) ∧
    (∀ p c, (s.m.port p).challenge = some c → c.since + 60 * second ≤ s.m.clk.now →
      ∃ t, exec (.challengeExpiry p) s = .next t ∧ t.pending = s.pending ∧
        t.m.port p = { s.m.port p with challenge := none } ∧ s.m.changesOnly t.m [portPart p]) ∧
    (∀ p u, (s.m.port p).lockUntil = some u → u ≤ s.m.clk.now →
      ∃ t, exec (.authLockoutEnd p) s = .next t ∧ t.pending = s.pending ∧
        t.m.port p = { s.m.port p with lockUntil := none, authFails := 0 } ∧ s.m.changesOnly t.m [portPart p]) ∧
    (∀ head tail ca, s.m.sec.life = 0 → s.m.on 7 = true →
      ∃ t d, exec (.keyGeneration ⟨head, tail⟩ ca) s = .next t ∧ t.pending = s.pending ∧ d = scalarOf (Config.random s.m.free) ∧
        t.m.sec = { s.m.sec with
          life := 1, priv := some d, pub := ecPublic d, cert := certificate (ecPublic d) head tail, caCert := ca
          stored := { s.m.sec.stored with life := 1 } } ∧
        (∀ p, t.m.port p = { s.m.port p with auth := false }) ∧ t.m.flag 0x3010 4 = true ∧
        s.m.changesOnly t.m [.regs, .pa, .pb, .sec, .free] ∧ s.m.keepsRegs t.m [0x3010])

/-- R231, R232, R242, R245, R250, R262, R636, R639, R647: the verbs and forms that only show something, when their line executes: the
reply lines that R245 gives each, its final line, and no change but the port's. `get` of one field shows its value; `read` the
words; `stream` the words of the readable region. -/
def Obligations.ShowVerbs : Prop :=
  ∀ (s : State) (p : Port) (ck : Bool), s.m.canonical = true →
    (∀ d, s.m.runsNow p ck .authStatus → d = [s.m.authLine p, s.m.lifeLine] → s.m.fits p ck d (finalText 0) →
      ∃ t, exec (.authStatus p) s = .next t ∧ t.pending = s.pending ∧ s.m.concluded t.m p ck d 0 id [] []) ∧
    (∀ d k, s.m.runsNow p ck .keyPub → k = s.m.blockCode 12 → (d = if k = 0 then [ascii "pub " ++ hexBlock (keyBytes s.m.sec.pub)] else []) →
      s.m.fits p ck d (finalText k) →
      ∃ t, exec (.keyPub p) s = .next t ∧ t.pending = s.pending ∧ s.m.concluded t.m p ck d k id [] []) ∧
    (∀ d k, s.m.runsNow p ck .keyCert → k = s.m.blockCode 12 → (d = if k = 0 then s.m.sec.certLines else []) →
      s.m.fits p ck d (finalText k) →
      ∃ t, exec (.keyCert p) s = .next t ∧ t.pending = s.pending ∧ s.m.concluded t.m p ck d k id [] []) ∧
    (∀ d k, s.m.runsNow p ck .engineStatus → k = s.m.blockCode 9 → (d = if k = 0 then s.m.engineLines else []) →
      s.m.fits p ck d (finalText k) →
      ∃ t, exec (.engineStatus p) s = .next t ∧ t.pending = s.pending ∧ s.m.concluded t.m p ck d k id [] []) ∧
    (∀ d k, s.m.runsNow p ck .eventStatus → k = s.m.blockCode 8 → (d = if k = 0 then s.m.eventLines else []) →
      s.m.fits p ck d (finalText k) →
      ∃ t, exec (.eventStatus p) s = .next t ∧ t.pending = s.pending ∧ s.m.concluded t.m p ck d k id [] []) ∧
    (∀ d k, s.m.runsNow p ck .flueList → k = s.m.blockCode 10 → (d = if k = 0 then s.m.flueLines else []) →
      s.m.fits p ck d (finalText k) →
      ∃ t, exec (.flueList p) s = .next t ∧ t.pending = s.pending ∧ s.m.concluded t.m p ck d k id [] []) ∧
    (∀ d, s.m.runsNow p ck .testShow → d = s.m.testLines → s.m.fits p ck d (finalText 0) →
      ∃ t, exec (.testShow p) s = .next t ∧ t.pending = s.pending ∧ s.m.concluded t.m p ck d 0 id [] []) ∧
    (∀ d, s.m.runsNow p ck .spareShow → d = s.m.spareLines → s.m.fits p ck d (finalText 0) →
      ∃ t, exec (.spareShow p) s = .next t ∧ t.pending = s.pending ∧ s.m.concluded t.m p ck d 0 id [] []) ∧
    (∀ d, s.m.runsNow p ck .upgradeStatus → d = [s.m.upgradeLine] → s.m.fits p ck d (finalText 0) →
      ∃ t, exec (.upgradeStatus p) s = .next t ∧ t.pending = s.pending ∧ s.m.concluded t.m p ck d 0 id [] []) ∧
    (∀ d, s.m.runsNow p ck .who → d = s.m.whoLines p → s.m.fits p ck d (finalText 0) →
      ∃ t, exec (.whoVerb p) s = .next t ∧ t.pending = s.pending ∧ s.m.concluded t.m p ck d 0 id [] []) ∧
    (∀ v, s.m.runsNow p ck (.help v) → s.m.fits p ck (helpLines v) (finalText 0) →
      ∃ t, exec (.helpVerb p) s = .next t ∧ t.pending = s.pending ∧ s.m.concluded t.m p ck (helpLines v) 0 id [] []) ∧
    (∀ (f : NameField), s.m.runsNow p ck (.get [f]) → f.a < sessionBase → f.codec.span = 1 → windowOf f.a = none → f.a < 0x4000 →
      s.m.regHeader .core false f.a 1 = 0 → s.m.hold .core = none →
      ∀ line, line = spaced [f.text, f.show (match f.codec with | .auxValue n => s.m.auxDen n | _ => 1)
          [(s.m.begun p (.get [f])).peek f.a]] →
        s.m.fits p ck [line] (finalText 0) →
        ∃ t, exec (.getVerb p) s = .next t ∧ t.pending = s.pending ∧ s.m.concluded t.m p ck [line] 0 id [] []) ∧
    (∀ (a n : Nat) (ws : List Word), s.m.runsNow p ck (.read a n) → windowOf (a % 0x4000) = none → 1 ≤ n →
      a % 0x4000 + 4 * n ≤ lastOf (a % 0x4000) + 4 → s.m.regHeader .core false a n = 0 → s.m.hold .core = none →
      ws = (List.range n).map (fun i => (s.m.begun p (.read a n)).peek (a % 0x4000 + 4 * i)) →
      s.m.fits p ck (readLines a false ws) (finalText 0) →
      ∃ t, exec (.readVerb p) s = .next t ∧ t.pending = s.pending ∧ s.m.concluded t.m p ck (readLines a false ws) 0 id [] []) ∧
    (∀ (q off n : Nat) (ws : List Word), s.m.runsNow p ck (.stream q off n) → s.m.streamCheck p q = 0 →
      off + n ≤ (s.m.q q).readable.length * 1024 → 0 < n → ws = ((s.m.q q).wordsFrom ((s.m.q q).posOf off) n).map Prod.snd →
      ws.length = n → s.m.fits p ck (streamLines off ws) (finalText 0) →
      ∃ t, exec (.streamVerb p) s = .next t ∧ t.pending = s.pending ∧ s.m.concluded t.m p ck (streamLines off ws) 0 id [] [])

/-- R97, R124, R244, R246 to R252, R259: the verbs that write, when their line executes and nothing refuses them: `set` and `write`
store plain registers, `lock` stores a guard register and locks it, `engine` and `event` `start`, `stop` and `resume` write their
GO registers, `commit` moves a read pointer on, `mode` begins an entry. Each ends with `ok`. -/
def Obligations.WriteVerbs : Prop :=
  ∀ (s : State) (p : Port) (ck : Bool), s.m.canonical = true → s.m.fits p ck [] (finalText 0) → (s.m.port p).held = [] →
    (∀ (f : NameField) (v col : Nat) (d : RegDef) (w : Word), s.m.runsNow p ck (.set [(f, v, col)]) → f.a ∈ plainRegs →
      regDef f.a = some d → f.cannotSet = false → s.m.regHeader (.port p) true f.a 1 = 0 →
      w = s.m.fieldWord f.a f.mask (word (v * 2 ^ f.lo)) → d.inRange (d.written .direct (s.m.reg f.a) w) = true →
      ∃ t, exec (.setVerb p) s = .next t ∧ t.pending = s.pending ∧ t.m.reg f.a = d.written .direct (s.m.reg f.a) w ∧
        s.m.concluded t.m p ck [] 0 id [] [f.a]) ∧
    (∀ (k : AccessKind) (a col : Nat) (d : RegDef) (w : Word), s.m.runsNow p ck (.write (a + kindBits k) [w] [col]) → a ∈ plainRegs →
      regDef a = some d → s.m.regHeader (.port p) true (a + kindBits k) 1 = 0 →
      d.inRange (d.written k (s.m.reg a) w) = true →
      ∃ t, exec (.writeVerb p) s = .next t ∧ t.pending = s.pending ∧ t.m.reg a = d.written k (s.m.reg a) w ∧
        s.m.concluded t.m p ck [] 0 (fun x => { x with last := 0, lastAt := some s.m.clk.now, wcnt := x.wcnt + 1 }) [] [a]) ∧
    (∀ (f : NameField) (v col : Nat) (d : RegDef) (w : Word), s.m.runsNow p ck (.lock [(f, v, col)]) → f.a ∈ [0x2C00, 0x2C04, 0x2C08] →
      regDef f.a = some d → f.mask &&& ~~~d.lk = 0 → s.m.regs.locked.contains f.a = false →
      s.m.regHeader (.port p) true f.a 1 = 0 → w = s.m.fieldWord f.a f.mask (word (v * 2 ^ f.lo)) →
      d.inRange (d.written .direct (s.m.reg f.a) w) = true →
      (s.m.begun p (.lock [(f, v, col)])).rangeBad f.a (d.written .direct (s.m.reg f.a) w) = false →
      ∃ t, exec (.lockVerb p) s = .next t ∧ t.pending = s.pending ∧ t.m.reg f.a = d.written .direct (s.m.reg f.a) w ∧
        t.m.regs.locked = s.m.regs.locked ++ [f.a] ∧ s.m.concluded t.m p ck [] 0 id [] [f.a]) ∧
    (∀ k : Nat, s.m.runsNow p ck (.engineStart k) → s.m.regHeader (.port p) true 0x2708 1 = 0 → s.m.eng.engs.length = 4 →
      (∀ n < 4, k.testBit n = true → s.m.engReserved n = false) →
      (∀ n < 4, ∀ u, (s.m.engine n).undo = some u → u.at_ ≠ s.m.clk.now) →
      ∃ t, exec (.engineStart p) s = .next t ∧ t.pending = s.pending ∧
        (∀ n < 4, k.testBit n = false → t.m.engine n = s.m.engine n) ∧
        (∀ n < 4, k.testBit n = true → (t.m.engine n).run = .running ∧ (t.m.engine n).tick = 0 ∧
          (t.m.engine n).edge = s.m.clk.now + 1 ∧ (t.m.engine n).resok = false) ∧
        s.m.concluded t.m p ck [] 0 id [.eng] []) ∧
    (∀ k : Nat, s.m.runsNow p ck (.engineStop k) → s.m.regHeader (.port p) true 0x270C 1 = 0 → s.m.eng.engs.length = 4 →
      (∀ n < 4, k.testBit n = true → s.m.engReserved n = false) →
      ∃ t, exec (.engineStop p) s = .next t ∧ t.pending = s.pending ∧
        (∀ n < 4, t.m.engine n = if k.testBit n ∧ (s.m.engine n).run ≠ .stopped then
            { s.m.engine n with stopping := true, stopAt := s.m.clk.now }
          else s.m.engine n) ∧ s.m.concluded t.m p ck [] 0 id [.eng] []) ∧
    (∀ k : Nat, s.m.runsNow p ck (.engineResume k) → s.m.regHeader (.port p) true 0x2710 1 = 0 → s.m.eng.engs.length = 4 →
      (∀ n < 4, k.testBit n = true → s.m.engReserved n = false ∧ (s.m.engine n).resok = true ∧
        (s.m.engine n).run = .stopped) →
      ∃ t, exec (.engineResume p) s = .next t ∧ t.pending = s.pending ∧
        (∀ n < 4, k.testBit n = false → t.m.engine n = s.m.engine n) ∧
        (∀ n < 4, k.testBit n = true → (t.m.engine n).run = .running ∧ (t.m.engine n).edge = s.m.clk.now + 1 ∧
          (t.m.engine n).resok = false) ∧ s.m.concluded t.m p ck [] 0 id [.eng] []) ∧
    (∀ k : Nat, s.m.runsNow p ck (.eventStart k) → s.m.regHeader (.port p) true 0x2000 1 = 0 →
      ∃ t, exec (.eventStart p) s = .next t ∧ t.pending = s.pending ∧
        (∀ n < s.m.evt.machines.length, t.m.sm n = if n < 16 ∧ k.testBit n then
          { Sm.fresh with run := .run, resume := .run, pc := s.m.fld (smBase n) 0 10, ref := s.m.ts } else s.m.sm n) ∧
        s.m.concluded t.m p ck [] 0 id [.evt] []) ∧
    (∀ k : Nat, s.m.runsNow p ck (.eventStop k) → s.m.regHeader (.port p) true 0x2004 1 = 0 →
      ∃ t, exec (.eventStop p) s = .next t ∧ t.pending = s.pending ∧
        (∀ n < s.m.evt.machines.length, t.m.sm n = if n < 16 ∧ k.testBit n then
          { s.m.sm n with run := .stopped, wait := .idle } else s.m.sm n) ∧ s.m.concluded t.m p ck [] 0 id [.evt] []) ∧
    (∀ q n col : Nat, s.m.runsNow p ck (.commit q n col) → s.m.streamCheck p q = 0 → (s.m.port p).moved.getLsbD q = false → 0 < n →
      n ≤ (s.m.q q).readable.length → (s.m.q q).run ≠ .full → (s.m.q q).discRun = none → (s.m.port p).store0 = none →
      (s.m.port p).store1 = none →
      ∃ t, exec (.commitVerb p) s = .next t ∧ t.pending = s.pending ∧ (t.m.q q).unread = (s.m.q q).unread.drop n ∧
        (∀ k, k ≠ q → t.m.q k = s.m.q k) ∧ s.m.concluded t.m p ck [] 0 id [.pa, .pb, .buf, .evt] []) ∧
    (∀ t' : Mode, s.m.runsNow p ck (.mode t') → t' ≠ .run → s.m.clk.start = none → s.m.clk.entry = none →
      (s.m.begun p (.mode t')).refusers (some p) true true = [] →
      ∃ t, exec (.modeVerb p) s = .next t ∧ t.pending = s.pending ∧
        t.m.clk = { s.m.clk with entry := some ⟨t', .close, s.m.clk.now, some p, true, false⟩, latchedWake := none } ∧
        t.m.flag 0x800 4 = true ∧ (∀ q < 4, (t.m.q q).openBlk = none) ∧ (t.m.port p).waiting = none ∧
        (t.m.port p).executing = none ∧ (t.m.port p).semsCmd = 0 ∧
        (t.m.port p).reply = (s.m.answered p ck [] (finalText 0)).reply ∧ t.m.flag (intsrc p) 0 = true ∧
        s.m.changesOnly t.m [.clk, .regs, .pa, .pb, .buf, .sec, .nv])

/-- R640 to R652, R655, R658: the verbs of sessions, keys and seals, when their line executes and nothing refuses them: a challenge with
a fresh nonce and key, the owner's key, a response that authenticates or fails, the end of a session; an owner enrolled; a
retirement and a seal begun, whose lines wait. -/
def Obligations.SessionAndKeyVerbs : Prop :=
  ∀ (s : State) (p : Port) (ck : Bool), s.m.canonical = true →
    (∀ (n : BitVec 256) (d : Nat) (line : List Byte), s.m.runsNow p ck .authBegin → s.m.sec.life = 2 →
      s.m.lockedOut p = false → s.m.blockCode 12 = 0 → n = Config.random s.m.free →
      d = scalarOf (Config.random (s.m.free + 1)) →
      line = ascii "challenge " ++ hexBlock (digestBytes n ++ keyBytes (ecPublic d)) → s.m.fits p ck [line] (finalText 0) →
      ∃ t, exec (.authBegin p) s = .next t ∧ t.pending = s.pending ∧ t.m.free = s.m.free + 2 ∧
        s.m.concluded t.m p ck [line] 0
          (fun x => { x with auth := false, challenge := some ⟨n, d, ecPublic d, none, s.m.clk.now⟩ }) [.free] []) ∧
    (∀ (h : List Byte) (col : Nat) (c : Challenge) (q : Nat × Nat), s.m.runsNow p ck (.authPub h col) → s.m.blockCode 12 = 0 →
      (s.m.port p).challenge = some c → c.qO = none → publicKey h = some q → s.m.sec.owner = some (sha256 h) →
      s.m.fits p ck [] (finalText 0) →
      ∃ t, exec (.authPub p) s = .next t ∧ t.pending = s.pending ∧
        s.m.concluded t.m p ck [] 0 (fun x => { x with challenge := some { c with qO := some q } }) [] []) ∧
    (∀ (h : List Byte) (c : Challenge) (q : Nat × Nat), s.m.runsNow p ck (.authRespond h) → s.m.blockCode 12 = 0 →
      (s.m.port p).challenge = some c → c.qO = some q → s.m.busy = false → s.m.fits p ck [] (finalText 0) →
      s.m.fits p ck [] (finalText 18) →
      ∃ t, exec (.authRespond p) s = .next t ∧ t.pending = s.pending ∧
        (ecdsaVerify q (sha256 (authMessage p c)) (bytesNat (h.take 32)) (bytesNat (h.drop 32)) = true →
          t.m.sec = { s.m.sec with
            made := ⟨s.m.sec.made.num + 1, true, c.nonce, c.qA, ownerKey c.dA q c.nonce (s.m.sec.made.num + 1)⟩
            reasons := s.m.sec.reasons ||| 8 } ∧
          t.m.nv = { (s.m.beginLine p).nv with write := some ⟨0x3000, 0, 0, some p⟩ } ∧
          s.m.concluded t.m p ck [] 0 (fun x => { x with auth := true, authFails := 0, challenge := none }) [.sec, .nv] []) ∧
        (ecdsaVerify q (sha256 (authMessage p c)) (bytesNat (h.take 32)) (bytesNat (h.drop 32)) = false →
          t.m.flag 0x3010 3 = true ∧
          bitsAt (t.m.reg 0x3018) 0 24 = min 0xFFFFFF (bitsAt (s.m.reg 0x3018) 0 24 + 1) ∧
          s.m.concluded t.m p ck [] 18 (fun x => { x with
            challenge := none, authFails := x.authFails + 1
            lockUntil := if x.authFails + 1 = 8 then some (s.m.clk.now + 10 * second) else x.lockUntil })
            [] [0x3010, 0x3018])) ∧
    (s.m.runsNow p ck .authEnd → s.m.fits p ck [] (finalText 0) →
      ∃ t, exec (.authEnd p) s = .next t ∧ t.pending = s.pending ∧
        s.m.concluded t.m p ck [] 0 (fun x => { x with auth := false, challenge := none }) [] []) ∧
    (∀ (h : List Byte) (col : Nat) (q : Nat × Nat), s.m.runsNow p ck (.keyEnrol h col) → s.m.blockCode 12 = 0 →
      (s.m.sec.life = 1 ∨ s.m.sec.life = 2) → publicKey h = some q → s.m.busy = false → s.m.fits p ck [] (finalText 0) →
      ∃ t, exec (.keyEnrol p) s = .next t ∧ t.pending = s.pending ∧
        t.m.sec = { s.m.sec with
          life := 2, owner := some (sha256 h), made := openEpoch (s.m.sec.made.num + 1)
          reasons := s.m.sec.reasons ||| 16 } ∧
        t.m.nv = { (s.m.beginLine p).nv with write := some ⟨0x3000, 0, 0, some p⟩ } ∧
        t.m.port p.other = { s.m.port p.other with auth := false } ∧ t.m.flag 0x3010 4 = true ∧
        s.m.concluded t.m p ck [] 0 (fun x => { x with auth := false }) [.pa, .pb, .sec, .nv] [0x3010]) ∧
    (s.m.runsNow p ck .keyRetire → (s.m.sec.life = 1 ∨ s.m.sec.life = 2) → s.m.canWrite = true → s.m.testing 3 = false →
      s.m.testing 6 = false → s.m.sealRoom = true →
      ∃ t, exec (.keyRetire p) s = .next t ∧ t.pending = s.pending ∧
        t.m.sec = { s.m.sec with
          made := openEpoch (s.m.sec.made.num + 1), retiring := some p, reasons := s.m.sec.reasons ||| 64 } ∧
        s.m.waitsFor t.m p .keyRetire ⟨.sealing, [], [], [], ck⟩ ∧ s.m.changesOnly t.m [.clk, portPart p, .sec, .nv]) ∧
    (s.m.runsNow p ck .sealNow → (s.m.sec.life = 1 ∨ s.m.sec.life = 2) → s.m.canWrite = true → s.m.testing 3 = false →
      s.m.testing 6 = false →
      ∃ t, exec (.sealVerb p) s = .next t ∧ t.pending = s.pending ∧
        t.m.sec = { s.m.sec with verbs := s.m.sec.verbs ++ [p], reasons := s.m.sec.reasons ||| 4 } ∧
        s.m.waitsFor t.m p .sealNow ⟨.sealing, [], [], [], ck⟩ ∧ s.m.changesOnly t.m [.clk, portPart p, .sec, .nv])

/-- R257, R258, R474, R475, R592, R660, R661, R688: the verbs of images, when their line executes and nothing refuses them: an upgrade
opens, takes its pieces, commits a verified image to the slot that does not run or to the library, or is aborted; a library image
is placed in an engine's or the event engine's program memory with its registers. Each ends with `ok`. -/
def Obligations.ImageVerbs : Prop :=
  ∀ (s : State) (p : Port) (ck : Bool), s.m.canonical = true → s.m.fits p ck [] (finalText 0) →
    (∀ k e n, s.m.runsNow p ck (.upgradeBegin k e n) → s.m.retired = false → s.m.nv.upgrade = none →
      ∃ t, exec (.upgradeBegin p) s = .next t ∧ t.pending = s.pending ∧
        t.m.nv = { (s.m.beginLine p).nv with upgrade := some ⟨p, k, e, n, []⟩ } ∧ s.m.concluded t.m p ck [] 0 id [.nv] []) ∧
    (∀ off bs u, s.m.runsNow p ck (.upgradeData off bs) → s.m.retired = false → s.m.nv.upgrade = some u → u.port = p →
      ∃ t v, exec (.upgradeData p) s = .next t ∧ t.pending = s.pending ∧ t.m.nv = { (s.m.beginLine p).nv with upgrade := some v } ∧
        v = { u with pieces := v.pieces } ∧
        (v.pieces.find? (fun x => x.1 == off)).map (fun x => x.2.take bs.length) = some bs ∧
        (∀ o, o ≠ off → v.pieces.find? (fun x => x.1 == o) = u.pieces.find? (fun x => x.1 == o)) ∧
        s.m.concluded t.m p ck [] 0 id [.nv] []) ∧
    (∀ u img col, s.m.runsNow p ck (.upgradeCommit col) → s.m.retired = false → s.m.blockCode 12 = 0 → s.m.nv.upgrade = some u →
      u.port = p → u.image = some img → s.m.imageGood u.kind img = true →
      ∃ t, exec (.upgradeCommit p .good) s = .next t ∧ t.pending = s.pending ∧
        (u.kind = .fw → t.m.slot (!s.m.nv.runB) = ⟨.try_, img, none⟩ ∧ t.m.slot s.m.nv.runB = s.m.slot s.m.nv.runB ∧
          t.m.nv.nextB = !s.m.nv.runB ∧ t.m.nv.activation = some (some p, s.m.clk.now) ∧ t.m.nv.images = s.m.nv.images) ∧
        (u.kind ≠ .fw → t.m.nv = { (s.m.beginLine p).nv with
          upgrade := none, images := s.m.nv.images.filter (fun x => x.1 != u.entry) ++ [(u.entry, img)] }) ∧
        t.m.nv.upgrade = none ∧ s.m.concluded t.m p ck [] 0 id [.nv] []) ∧
    (∀ u, s.m.runsNow p ck .upgradeAbort → s.m.retired = false → s.m.nv.upgrade = some u → u.port = p →
      ∃ t, exec (.upgradeAbort p) s = .next t ∧ t.pending = s.pending ∧ t.m.nv = { (s.m.beginLine p).nv with upgrade := none } ∧
        s.m.concluded t.m p ck [] 0 id [.nv] []) ∧
    (∀ (n : Fin 4) (l col : Nat) (img : List Byte), s.m.runsNow p ck (.engineLoad n.val l col) → s.m.blockCode 9 = 0 →
      s.m.blockCode 12 = 0 → s.m.engActive n.val = false → s.m.engReserved n.val = false →
      s.m.libImage .engine l = some img → s.m.imageGood .engine img = true → engineLimits img = true →
      s.m.eng.engs.length = 4 →
      ∃ t, exec (.engineLoad p) s = .next t ∧ t.pending = s.pending ∧
        (∀ i < imageNat img 8 2, t.m.engWord n.val (imageNat img 6 1 + i) = word (imageNat img (24 + 4 * i) 4)) ∧
        (∀ k < 256, (k < imageNat img 6 1 ∨ imageNat img 6 1 + imageNat img 8 2 ≤ k) →
          t.m.engWord n.val k = s.m.engWord n.val k) ∧
        (∀ k < 4, k ≠ n.val → ∀ i < 256, t.m.engWord k i = s.m.engWord k i) ∧
        (∀ c < 8, (imageNat img 10 1).testBit c = true →
          t.m.fld (0x2400 + 128 * n.val + 16 * c) 0 8 = imageNat img (16 + c) 1 ∧
            t.m.flag 0x2718 (8 * n.val + c) = true) ∧
        (t.m.engine n.val).resok = false ∧
        s.m.concluded t.m p ck [] 0 id [.mem, .eng]
          (0x2718 :: (List.range 8).map (fun c => 0x2400 + 128 * n.val + 16 * c))) ∧
    (∀ (l col : Nat) (img : List Byte), s.m.runsNow p ck (.eventLoad l col) → s.m.blockCode 8 = 0 → s.m.blockCode 12 = 0 →
      s.m.smBusy = false → s.m.libImage .event l = some img → s.m.imageGood .event img = true → eventLimits img = true →
      ∃ t, exec (.eventLoad p) s = .next t ∧ t.pending = s.pending ∧
        (∀ i < imageNat img 8 2, t.m.evtWord (imageNat img 6 2 + i) =
          word (imageNat img (16 + 24 * (eventMask img).length + 4 * i) 4)) ∧
        (∀ k < 1024, (k < imageNat img 6 2 ∨ imageNat img 6 2 + imageNat img 8 2 ≤ k) → t.m.evtWord k = s.m.evtWord k) ∧
        (∀ r ∈ eventSettings img, t.m.reg r.1 = r.2 &&& settable r.1) ∧
        s.m.concluded t.m p ck [] 0 id [.mem] ((eventSettings img).map Prod.fst))

/-- R245, R260, R610, R624 to R627, R698, R709, R715: the verbs of the fleet, of tests and of spares, when their line executes and
nothing refuses them: a scan and its list, an ACTIVE worker made AWAY and let back, a forwarding begun (of an image that verifies), a run of tests whose line
waits, a spare brought in or its copy begun. -/
def Obligations.FleetAndTestVerbs : Prop :=
  ∀ (s : State) (p : Port) (ck : Bool), s.m.canonical = true → s.m.on 0 = true → s.m.flue.workers.length = 32 →
    (s.m.runsNow p ck .flueScan → s.m.flueCode = 0 → s.m.fits p ck s.m.flueLines (finalText 0) →
      ∃ t, exec (.flueScan p []) s = .next t ∧ t.pending = s.pending ∧
        t.m.flue = { s.m.flue with lastScan := some s.m.clk.now } ∧ s.m.concluded t.m p ck s.m.flueLines 0 id [.flue] []) ∧
    (s.m.fits p ck [] (finalText 0) →
      (∀ w : Fin 32, s.m.runsNow p ck (.flueAway w.val) → s.m.flueCode = 0 → (s.m.worker w.val).st = 1 →
        ∃ t, exec (.flueAway p) s = .next t ∧ t.pending = s.pending ∧
          t.m.worker w.val = { s.m.worker w.val with
            st := 2, reason := 1, turnBlocks := 0, missed := 0, absent := true, awaySince := s.m.clk.now, awayTs := s.m.ts
            commanded := true } ∧
          (∀ v, v ≠ w.val → t.m.worker v = s.m.worker v) ∧ t.m.flag 0x281C 4 = true ∧
          s.m.concluded t.m p ck [] 0 id [.flue] [0x281C]) ∧
      (∀ w : Fin 32, s.m.runsNow p ck (.flueBack w.val) → s.m.flueCode = 0 → (s.m.worker w.val).commanded = true →
        ∃ t, exec (.flueBack p) s = .next t ∧ t.pending = s.pending ∧
          t.m.worker w.val = { s.m.worker w.val with commanded := false } ∧
          (∀ v, v ≠ w.val → t.m.worker v = s.m.worker v) ∧ s.m.concluded t.m p ck [] 0 id [.flue] []) ∧
      (∀ w : Fin 32, s.m.runsNow p ck (.flueUpgrade w.val) → s.m.flueCode = 0 → (s.m.worker w.val).st = 1 →
        s.m.flue.forward = none → s.m.fits p ck [] (finalText 18) →
        ∃ t, exec (.flueUpgrade p) s = .next t ∧ t.pending = s.pending ∧
          (s.m.fwVerifies s.m.running.image = true →
            t.m.flue = { s.m.flue with forward := some ⟨w.val, 0, (s.m.running.image.length + 47) / 48⟩ } ∧
              s.m.concluded t.m p ck [] 0 id [.flue] []) ∧
          (s.m.fwVerifies s.m.running.image = false →
            t.m.flag 0x3010 5 = true ∧ s.m.concluded t.m p ck [] 18 id [] [0x3010])) ∧
      (∀ k u : Nat, s.m.runsNow p ck (.spareUse k u) → s.m.spareCheck k u = 0 →
        ∃ t, exec (.spareUse p) s = .next t ∧ t.pending = s.pending ∧
          (k ≤ 1 → t.m.bist = { s.m.bist with copies := s.m.bist.copies ++ [⟨k == 1, u, false⟩] } ∧
            s.m.concluded t.m p ck [] 0 id [.bist] []) ∧
          (k = 3 → t.m.nv = { (s.m.beginLine p).nv with engSpare := u + 1 }) ∧ (k = 4 → t.m.nv = { (s.m.beginLine p).nv with acfSpare := u + 1 }) ∧
          (k = 5 → t.m.nv = { (s.m.beginLine p).nv with gyrzSpare := true }) ∧
          (k = 6 → t.m.nv.burn0 = some u ∧ t.m.nv.burn1 = s.m.nv.burn1 ∨
            t.m.nv.burn1 = some u ∧ t.m.nv.burn0 = s.m.nv.burn0) ∧
          (2 ≤ k → s.m.bist.run = none → t.m.flag 0x3404 2 = true) ∧
          s.m.concluded t.m p ck [] 0 id [.flt, .eng, .nv, .bist] [0x3404])) ∧
    (∀ bs : List Nat, s.m.runsNow p ck (.testRun bs) → bs ≠ [] → s.m.testCheck bs = 0 →
      ∃ t r, exec (.testRun p) s = .next t ∧ t.pending = s.pending ∧ t.m.bist = { s.m.bist with run := some r, lastRun := 3 } ∧
        r.kind = .command ∧ r.todo = bs ∧ r.ran = [] ∧ r.byPort = some p ∧ r.byVerb = true ∧ (t.m.port p).waiting = none ∧
        (t.m.port p).executing = some ⟨.testing, [], [], [], ck⟩ ∧ (t.m.port p).semsCmd = s.m.cmdSems (.testRun bs) ∧
        (t.m.port p).reply = (s.m.port p).reply ∧ s.m.agrees t.m .flue ∧ s.m.agrees t.m .mem)

/-- A step runs the command at the front of the queue on the block with the queue's rest; with no command waiting it is time that passes
(the model's choice, log entry 3): one tick while FOSC runs, one Hearth cycle while it is stopped. The INT pins take what the cycle
has left in `x_INTSRC` (R205), and a wait that has ended lets its machine run from its turn (R458). Here no change of an aux channel,
no operation of R105 and no restart of R344 waits for the cycle's end. -/
def Obligations.StepRunsFrontCommand : Prop :=
  (∀ (c : Instr) (m : Mach) (rest : List Instr), step ⟨m, c :: rest⟩ = exec c ⟨m, rest⟩) ∧
  ∀ m : Mach, m.grd.st ≠ .fault → m.regs.absorbed = [] → (∀ g < 4, (m.grp g).firLeft = false) →
    (∀ c ∈ m.aux.chans, c.changes = []) →
    ∃ t, step ⟨m, []⟩ = .next t ∧ t.pending = [] ∧ m.changesOnly t.m [.clk, .pa, .pb, .evt] ∧
      (∀ p, t.m.port p = { m.port p with int := m.intActive p }) ∧ t.m.evt = { m.evt with machines := t.m.evt.machines } ∧
      (∀ n, n ≠ m.clk.now % 16 → t.m.sm n = m.sm n) ∧
      (∀ n, n = m.clk.now % 16 → n < m.evt.machines.length → m.on 3 = true → (m.sm n).run = .wait →
        ((m.sm n).wait = .ended ∨ ∃ a w, (m.sm n).wait = .expired a w) →
        t.m.sm n = { m.sm n with run := .run, wait := .idle }) ∧
      (m.fosc = true → t.m.clk = { m.clk with now := m.clk.now + 1, ts := m.clk.ts + 1 }) ∧
      (m.fosc = false → m.on 0 = true → t.m.clk = { m.clk with now := m.clk.now + 2048, hearthStop := m.clk.hearthStop + 1 }) ∧
      (m.fosc = false → t.m.ts = m.ts)

/-- Every command answers with a next state, and none of them touches the commands that wait behind it. -/
def Obligations.CommandsAnswerAndLeaveQueue : Prop :=
  ∀ (i : Instr) (m : Mach) (rest : List Instr), ∃ n, exec i ⟨m, rest⟩ = .next ⟨n, rest⟩ ∧
    ∀ rest', exec i ⟨m, rest'⟩ = .next ⟨n, rest'⟩

/-- R31, R36, R51, R109, R111, R127, R531, R597, R635, R640, R651, R668, R685: the block at reset, right after a power-on release of the part
as shipped: timestamp 0, every domain ON, Run, a start in progress with its self-test; the registers at their reset values but for
RESTART in both `x_INTSRC`; both ports clocked, without session; the buffer's banks as R531 allocates them; no worker, no image; the
lifecycle OPEN, as keys are made at manufacture; no command waiting. Its memories are canonical and its tables have their sizes. -/
def Obligations.ResetState : Prop :=
  State.reset.pending = [] ∧ State.reset.m.ts = 0 ∧ State.reset.m.clk.life = .up ∧ State.reset.m.clk.mode = .run ∧
  (∀ k < 8, State.reset.m.dom k = .on) ∧ State.reset.m.clk.vholdArmed = false ∧
  (∃ x, State.reset.m.clk.start = some x ∧ x.cold = true ∧ x.full = true ∧ x.target = .run) ∧
  (∃ r, State.reset.m.bist.run = some r ∧ r.kind = .start ∧ r.todo = [0, 1, 3, 4, 5, 6]) ∧
  (∀ a, a ≠ 0x410 → a ≠ 0x430 → State.reset.m.reg a = regReset a) ∧
  (∀ p, State.reset.m.reg (intsrc p) = 0x01000040 ∧ (State.reset.m.port p).async = false ∧
    (State.reset.m.port p).auth = false ∧ (State.reset.m.port p).sems = 0 ∧ (State.reset.m.port p).reply = []) ∧
  State.reset.m.regs.locked = [] ∧
  State.reset.m.buf.queues.map (fun q => (q.bank0, q.banks)) = [(0, 80), (80, 24), (104, 8), (112, 16), (128, 0)] ∧
  (∀ q < 4, (State.reset.m.q q).run = .run ∧ (State.reset.m.q q).unread = [] ∧ (State.reset.m.q q).openBlk = none) ∧
  State.reset.m.grd.st = .off ∧ State.reset.m.flue.sync = .free ∧ State.reset.m.flue.forward = none ∧
  State.reset.m.sec.life = 1 ∧ State.reset.m.nv.write = none ∧ State.reset.m.nv.upgrade = none ∧ State.reset.m.nv.starts = 1 ∧
  State.reset.m.canonical = true ∧ State.reset.m.shaped

/-- In every state, whether or not a run reaches it: a step from canonical memories leaves canonical memories (no entry twice, none out
of order, none equal to what an unlisted address reads as), whatever command stands in front and with none. -/
def Obligations.StepKeepsCanonical : Prop :=
  ∀ s t : State, s.m.canonical = true → step s = .next t → t.m.canonical = true

/-- R236, R438, R510, R531, R558, R600: in every state, whether or not a run reaches it: a step from tables of the sizes that the spec
gives them (13 groups of chains, 8 aux channels, 16 machines, 5 queues, 136 banks, 4 engines of 8 contexts, 32 workers) leaves
tables of those sizes. -/
def Obligations.StepKeepsSizes : Prop :=
  ∀ s t : State, s.m.shaped → step s = .next t → t.m.shaped
end

