-- ==== Sys2Proof/Laws/Cells.lean ====
section
/-! SUPPORT. The sparse memories: a write leaves every other address alone, reads back in a canonical memory, and keeps the canonical
form. -/

namespace Sys2Proof.Machine

theorem cellGet_cellDrop_ne (d : Nat → Word) (l : List (Nat × Word)) {a x : Nat} (h : x ≠ a) :
    cellGet d (cellDrop a l) x = cellGet d l x := by
  induction l with
  | nil => rfl
  | cons p l ih =>
    obtain ⟨b, w⟩ := p
    simp only [cellDrop]
    split
    · rename_i hb; subst hb; simp [cellGet, h]
    · split
      · rfl
      · simp [cellGet, ih]

theorem cellGet_cellPut_ne (d : Nat → Word) (l : List (Nat × Word)) {a x : Nat} (v : Word) (h : x ≠ a) :
    cellGet d (cellPut a v l) x = cellGet d l x := by
  induction l with
  | nil => simp [cellPut, cellGet, h]
  | cons p l ih =>
    obtain ⟨b, w⟩ := p
    simp only [cellPut]
    split
    · rename_i hb; subst hb; simp [cellGet, h]
    · split
      · simp [cellGet, h]
      · simp [cellGet, ih]

/-- A write leaves every other address alone. -/
theorem cellGet_cellSet_ne (d : Nat → Word) (l : List (Nat × Word)) {a x : Nat} (v : Word) (h : x ≠ a) :
    cellGet d (cellSet d l a v) x = cellGet d l x := by
  unfold cellSet
  split
  · exact cellGet_cellDrop_ne d l h
  · exact cellGet_cellPut_ne d l v h

theorem cellGet_below (d : Nat → Word) (l : List (Nat × Word)) {lo x : Nat} (hw : cellsFrom d lo l = true) (h : x < lo) :
    cellGet d l x = d x := by
  induction l generalizing lo with
  | nil => rfl
  | cons p l ih =>
    obtain ⟨b, w⟩ := p
    simp only [cellsFrom, Bool.and_eq_true, decide_eq_true_eq] at hw
    have : x ≠ b := by omega
    simp [cellGet, this, ih hw.2 (by omega)]

theorem cellGet_cellDrop_self (d : Nat → Word) (l : List (Nat × Word)) {lo : Nat} (a : Nat) (hw : cellsFrom d lo l = true) :
    cellGet d (cellDrop a l) a = d a := by
  induction l generalizing lo with
  | nil => rfl
  | cons p l ih =>
    obtain ⟨b, w⟩ := p
    have hw' := hw
    simp only [cellsFrom, Bool.and_eq_true, decide_eq_true_eq] at hw
    simp only [cellDrop]
    split
    · rename_i hb; exact cellGet_below d l hw.2 (by omega)
    · split
      · rename_i hb hl
        have : a ≠ b := by omega
        simp only [cellGet, this, if_false]
        exact cellGet_below d l hw.2 (by omega)
      · rename_i hb hl
        simp only [cellGet, hb, if_false]
        exact ih hw.2

theorem cellGet_cellPut_self (d : Nat → Word) (l : List (Nat × Word)) (a : Nat) (v : Word) :
    cellGet d (cellPut a v l) a = v := by
  induction l with
  | nil => simp [cellPut, cellGet]
  | cons p l ih =>
    obtain ⟨b, w⟩ := p
    simp only [cellPut]
    split
    · simp [cellGet]
    · split
      · simp [cellGet]
      · rename_i hb _
        simp [cellGet, hb, ih]

/-- A write to a canonical memory reads back. -/
theorem cellGet_cellSet_self (d : Nat → Word) (l : List (Nat × Word)) (a : Nat) (v : Word) (hw : Memory.wf d l = true) :
    cellGet d (cellSet d l a v) a = v := by
  unfold cellSet
  split
  · rename_i h; rw [cellGet_cellDrop_self d l a hw, h]
  · exact cellGet_cellPut_self d l a v

theorem cellsFrom_mono (d : Nat → Word) (l : List (Nat × Word)) {lo lo' : Nat} (h : lo' ≤ lo) (hw : cellsFrom d lo l = true) :
    cellsFrom d lo' l = true := by
  cases l with
  | nil => rfl
  | cons p l =>
    obtain ⟨b, w⟩ := p
    simp only [cellsFrom, Bool.and_eq_true, decide_eq_true_eq] at hw ⊢
    exact ⟨⟨by omega, hw.1.2⟩, hw.2⟩

theorem cellsFrom_cellDrop (d : Nat → Word) (l : List (Nat × Word)) {lo : Nat} (a : Nat) (hw : cellsFrom d lo l = true) :
    cellsFrom d lo (cellDrop a l) = true := by
  induction l generalizing lo with
  | nil => rfl
  | cons p l ih =>
    obtain ⟨b, w⟩ := p
    have hw' := hw
    simp only [cellsFrom, Bool.and_eq_true, decide_eq_true_eq] at hw
    simp only [cellDrop]
    split
    · exact cellsFrom_mono d l (by omega) hw.2
    · split
      · exact hw'
      · simp only [cellsFrom, Bool.and_eq_true, decide_eq_true_eq]
        exact ⟨hw.1, ih hw.2⟩

theorem cellsFrom_cellPut (d : Nat → Word) (l : List (Nat × Word)) {lo a : Nat} {v : Word} (hv : v ≠ d a) (ha : lo ≤ a)
    (hw : cellsFrom d lo l = true) : cellsFrom d lo (cellPut a v l) = true := by
  induction l generalizing lo with
  | nil => simp [cellPut, cellsFrom, ha, hv]
  | cons p l ih =>
    obtain ⟨b, w⟩ := p
    have hw' := hw
    simp only [cellsFrom, Bool.and_eq_true, decide_eq_true_eq] at hw
    simp only [cellPut]
    split
    · rename_i hb; subst hb
      simp only [cellsFrom, Bool.and_eq_true, decide_eq_true_eq]
      exact ⟨⟨ha, hv⟩, hw.2⟩
    · split
      · rename_i hb hl
        simp only [cellsFrom, Bool.and_eq_true, decide_eq_true_eq]
        exact ⟨⟨ha, hv⟩, ⟨by omega, hw.1.2⟩, hw.2⟩
      · rename_i hb hl
        simp only [cellsFrom, Bool.and_eq_true, decide_eq_true_eq]
        exact ⟨hw.1, ih (by omega) hw.2⟩

/-- A write keeps the canonical form. -/
theorem wf_cellSet (d : Nat → Word) (l : List (Nat × Word)) (a : Nat) (v : Word) (hw : Memory.wf d l = true) :
    Memory.wf d (cellSet d l a v) = true := by
  unfold cellSet
  split
  · exact cellsFrom_cellDrop d l a hw
  · rename_i h; exact cellsFrom_cellPut d l h (Nat.zero_le a) hw

end Sys2Proof.Machine
end

