-- ==== Sys2Proof/Laws/State.lean ====
section
/-! SUPPORT. What the named operations leave alone: one lemma per part of the block and operation, so that no proof unfolds a record
update. -/

namespace Sys2Proof.Machine

@[simp] theorem Mach.setReg_clk (m : Mach) (a : Nat) (w : Word) : (m.setReg a w).clk = m.clk := rfl
@[simp] theorem Mach.setReg_pa (m : Mach) (a : Nat) (w : Word) : (m.setReg a w).pa = m.pa := rfl
@[simp] theorem Mach.setReg_pb (m : Mach) (a : Nat) (w : Word) : (m.setReg a w).pb = m.pb := rfl
@[simp] theorem Mach.setReg_mot (m : Mach) (a : Nat) (w : Word) : (m.setReg a w).mot = m.mot := rfl
@[simp] theorem Mach.setReg_flt (m : Mach) (a : Nat) (w : Word) : (m.setReg a w).flt = m.flt := rfl
@[simp] theorem Mach.setReg_ang (m : Mach) (a : Nat) (w : Word) : (m.setReg a w).ang = m.ang := rfl
@[simp] theorem Mach.setReg_aux (m : Mach) (a : Nat) (w : Word) : (m.setReg a w).aux = m.aux := rfl
@[simp] theorem Mach.setReg_evt (m : Mach) (a : Nat) (w : Word) : (m.setReg a w).evt = m.evt := rfl
@[simp] theorem Mach.setReg_grd (m : Mach) (a : Nat) (w : Word) : (m.setReg a w).grd = m.grd := rfl
@[simp] theorem Mach.setReg_buf (m : Mach) (a : Nat) (w : Word) : (m.setReg a w).buf = m.buf := rfl
@[simp] theorem Mach.setReg_eng (m : Mach) (a : Nat) (w : Word) : (m.setReg a w).eng = m.eng := rfl
@[simp] theorem Mach.setReg_flue (m : Mach) (a : Nat) (w : Word) : (m.setReg a w).flue = m.flue := rfl
@[simp] theorem Mach.setReg_sec (m : Mach) (a : Nat) (w : Word) : (m.setReg a w).sec = m.sec := rfl
@[simp] theorem Mach.setReg_nv (m : Mach) (a : Nat) (w : Word) : (m.setReg a w).nv = m.nv := rfl
@[simp] theorem Mach.setReg_bist (m : Mach) (a : Nat) (w : Word) : (m.setReg a w).bist = m.bist := rfl
@[simp] theorem Mach.setReg_mem (m : Mach) (a : Nat) (w : Word) : (m.setReg a w).mem = m.mem := rfl
@[simp] theorem Mach.setReg_free (m : Mach) (a : Nat) (w : Word) : (m.setReg a w).free = m.free := rfl
@[simp] theorem Mach.setFld_clk (m : Mach) (a lo n v : Nat) : (m.setFld a lo n v).clk = m.clk := rfl
@[simp] theorem Mach.setFld_pa (m : Mach) (a lo n v : Nat) : (m.setFld a lo n v).pa = m.pa := rfl
@[simp] theorem Mach.setFld_pb (m : Mach) (a lo n v : Nat) : (m.setFld a lo n v).pb = m.pb := rfl
@[simp] theorem Mach.setFld_mot (m : Mach) (a lo n v : Nat) : (m.setFld a lo n v).mot = m.mot := rfl
@[simp] theorem Mach.setFld_flt (m : Mach) (a lo n v : Nat) : (m.setFld a lo n v).flt = m.flt := rfl
@[simp] theorem Mach.setFld_ang (m : Mach) (a lo n v : Nat) : (m.setFld a lo n v).ang = m.ang := rfl
@[simp] theorem Mach.setFld_aux (m : Mach) (a lo n v : Nat) : (m.setFld a lo n v).aux = m.aux := rfl
@[simp] theorem Mach.setFld_evt (m : Mach) (a lo n v : Nat) : (m.setFld a lo n v).evt = m.evt := rfl
@[simp] theorem Mach.setFld_grd (m : Mach) (a lo n v : Nat) : (m.setFld a lo n v).grd = m.grd := rfl
@[simp] theorem Mach.setFld_buf (m : Mach) (a lo n v : Nat) : (m.setFld a lo n v).buf = m.buf := rfl
@[simp] theorem Mach.setFld_eng (m : Mach) (a lo n v : Nat) : (m.setFld a lo n v).eng = m.eng := rfl
@[simp] theorem Mach.setFld_flue (m : Mach) (a lo n v : Nat) : (m.setFld a lo n v).flue = m.flue := rfl
@[simp] theorem Mach.setFld_sec (m : Mach) (a lo n v : Nat) : (m.setFld a lo n v).sec = m.sec := rfl
@[simp] theorem Mach.setFld_nv (m : Mach) (a lo n v : Nat) : (m.setFld a lo n v).nv = m.nv := rfl
@[simp] theorem Mach.setFld_bist (m : Mach) (a lo n v : Nat) : (m.setFld a lo n v).bist = m.bist := rfl
@[simp] theorem Mach.setFld_mem (m : Mach) (a lo n v : Nat) : (m.setFld a lo n v).mem = m.mem := rfl
@[simp] theorem Mach.setFld_free (m : Mach) (a lo n v : Nat) : (m.setFld a lo n v).free = m.free := rfl
@[simp] theorem Mach.touch_clk (m : Mach) (b : Nat) : (m.touch b).clk = m.clk := rfl
@[simp] theorem Mach.touch_pa (m : Mach) (b : Nat) : (m.touch b).pa = m.pa := rfl
@[simp] theorem Mach.touch_pb (m : Mach) (b : Nat) : (m.touch b).pb = m.pb := rfl
@[simp] theorem Mach.touch_mot (m : Mach) (b : Nat) : (m.touch b).mot = m.mot := rfl
@[simp] theorem Mach.touch_flt (m : Mach) (b : Nat) : (m.touch b).flt = m.flt := rfl
@[simp] theorem Mach.touch_ang (m : Mach) (b : Nat) : (m.touch b).ang = m.ang := rfl
@[simp] theorem Mach.touch_aux (m : Mach) (b : Nat) : (m.touch b).aux = m.aux := rfl
@[simp] theorem Mach.touch_evt (m : Mach) (b : Nat) : (m.touch b).evt = m.evt := rfl
@[simp] theorem Mach.touch_grd (m : Mach) (b : Nat) : (m.touch b).grd = m.grd := rfl
@[simp] theorem Mach.touch_buf (m : Mach) (b : Nat) : (m.touch b).buf = m.buf := rfl
@[simp] theorem Mach.touch_eng (m : Mach) (b : Nat) : (m.touch b).eng = m.eng := rfl
@[simp] theorem Mach.touch_flue (m : Mach) (b : Nat) : (m.touch b).flue = m.flue := rfl
@[simp] theorem Mach.touch_sec (m : Mach) (b : Nat) : (m.touch b).sec = m.sec := rfl
@[simp] theorem Mach.touch_nv (m : Mach) (b : Nat) : (m.touch b).nv = m.nv := rfl
@[simp] theorem Mach.touch_bist (m : Mach) (b : Nat) : (m.touch b).bist = m.bist := rfl
@[simp] theorem Mach.touch_mem (m : Mach) (b : Nat) : (m.touch b).mem = m.mem := rfl
@[simp] theorem Mach.touch_free (m : Mach) (b : Nat) : (m.touch b).free = m.free := rfl
@[simp] theorem Mach.setReg_words (m : Mach) (a : Nat) (w : Word) :
    (m.setReg a w).regs.words = cellSet regReset m.regs.words a w := rfl
@[simp] theorem Mach.setReg_locked (m : Mach) (a : Nat) (w : Word) : (m.setReg a w).regs.locked = m.regs.locked := rfl
@[simp] theorem Mach.touch_words (m : Mach) (b : Nat) : (m.touch b).regs.words = m.regs.words := rfl
@[simp] theorem Mach.touch_locked (m : Mach) (b : Nat) : (m.touch b).regs.locked = m.regs.locked := rfl
@[simp] theorem Mach.touch_pendingSeq (m : Mach) (b : Nat) : (m.touch b).regs.pendingSeq = m.regs.pendingSeq := rfl
@[simp] theorem Mach.touch_reg (m : Mach) (b a : Nat) : (m.touch b).reg a = m.reg a := rfl
@[simp] theorem Mach.updPort_clk (m : Mach) (p : Port) (f : PortState → PortState) : (m.updPort p f).clk = m.clk := by
  cases p <;> rfl
@[simp] theorem Mach.updPort_regs (m : Mach) (p : Port) (f : PortState → PortState) : (m.updPort p f).regs = m.regs := by
  cases p <;> rfl
@[simp] theorem Mach.updPort_a_pb (m : Mach) (f : PortState → PortState) : (m.updPort .a f).pb = m.pb := rfl
@[simp] theorem Mach.updPort_b_pa (m : Mach) (f : PortState → PortState) : (m.updPort .b f).pa = m.pa := rfl
@[simp] theorem Mach.updPort_mot (m : Mach) (p : Port) (f : PortState → PortState) : (m.updPort p f).mot = m.mot := by
  cases p <;> rfl
@[simp] theorem Mach.updPort_flt (m : Mach) (p : Port) (f : PortState → PortState) : (m.updPort p f).flt = m.flt := by
  cases p <;> rfl
@[simp] theorem Mach.updPort_ang (m : Mach) (p : Port) (f : PortState → PortState) : (m.updPort p f).ang = m.ang := by
  cases p <;> rfl
@[simp] theorem Mach.updPort_aux (m : Mach) (p : Port) (f : PortState → PortState) : (m.updPort p f).aux = m.aux := by
  cases p <;> rfl
@[simp] theorem Mach.updPort_evt (m : Mach) (p : Port) (f : PortState → PortState) : (m.updPort p f).evt = m.evt := by
  cases p <;> rfl
@[simp] theorem Mach.updPort_grd (m : Mach) (p : Port) (f : PortState → PortState) : (m.updPort p f).grd = m.grd := by
  cases p <;> rfl
@[simp] theorem Mach.updPort_buf (m : Mach) (p : Port) (f : PortState → PortState) : (m.updPort p f).buf = m.buf := by
  cases p <;> rfl
@[simp] theorem Mach.updPort_eng (m : Mach) (p : Port) (f : PortState → PortState) : (m.updPort p f).eng = m.eng := by
  cases p <;> rfl
@[simp] theorem Mach.updPort_flue (m : Mach) (p : Port) (f : PortState → PortState) : (m.updPort p f).flue = m.flue := by
  cases p <;> rfl
@[simp] theorem Mach.updPort_sec (m : Mach) (p : Port) (f : PortState → PortState) : (m.updPort p f).sec = m.sec := by
  cases p <;> rfl
@[simp] theorem Mach.updPort_nv (m : Mach) (p : Port) (f : PortState → PortState) : (m.updPort p f).nv = m.nv := by
  cases p <;> rfl
@[simp] theorem Mach.updPort_bist (m : Mach) (p : Port) (f : PortState → PortState) : (m.updPort p f).bist = m.bist := by
  cases p <;> rfl
@[simp] theorem Mach.updPort_mem (m : Mach) (p : Port) (f : PortState → PortState) : (m.updPort p f).mem = m.mem := by
  cases p <;> rfl
@[simp] theorem Mach.updPort_free (m : Mach) (p : Port) (f : PortState → PortState) : (m.updPort p f).free = m.free := by
  cases p <;> rfl
@[simp] theorem Mach.updPort_reg (m : Mach) (p : Port) (f : PortState → PortState) (a : Nat) : (m.updPort p f).reg a = m.reg a := by
  cases p <;> rfl
@[simp] theorem Mach.updPort_port (m : Mach) (p : Port) (f : PortState → PortState) : (m.updPort p f).port p = f (m.port p) := by
  cases p <;> rfl
@[simp] theorem Mach.updPort_other (m : Mach) (p : Port) (f : PortState → PortState) :
    (m.updPort p f).port p.other = m.port p.other := by
  cases p <;> rfl
@[simp] theorem Mach.setReg_port (m : Mach) (a : Nat) (w : Word) (p : Port) : (m.setReg a w).port p = m.port p := by
  cases p <;> rfl
@[simp] theorem Mach.touch_port (m : Mach) (b : Nat) (p : Port) : (m.touch b).port p = m.port p := by
  cases p <;> rfl
@[simp] theorem Mach.setReg_ts (m : Mach) (a : Nat) (w : Word) : (m.setReg a w).ts = m.ts := rfl
@[simp] theorem Mach.setReg_on (m : Mach) (a : Nat) (w : Word) (k : Nat) : (m.setReg a w).on k = m.on k := rfl
@[simp] theorem Mach.touch_on (m : Mach) (b k : Nat) : (m.touch b).on k = m.on k := rfl

end Sys2Proof.Machine
end

