-- ==== Sys2Proof/Laws/Bus.lean ====
section
/-! SUPPORT. The register bus: what a one-word write does once it is served, from whichever agent. -/

namespace Sys2Proof.Machine

theorem Mach.reg_setReg_ne (m : Mach) {a x : Nat} (w : Word) (h : x ≠ a) : (m.setReg a w).reg x = m.reg x :=
  cellGet_cellSet_ne regReset m.regs.words w h

theorem Mach.wordsWf (m : Mach) (h : m.canonical = true) : Memory.wf regReset m.regs.words = true := by
  simp only [Mach.canonical, Bool.and_eq_true] at h
  exact h.1.1.1

theorem Mach.reg_setReg_self (m : Mach) (a : Nat) (w : Word) (h : m.canonical = true) : (m.setReg a w).reg a = w :=
  cellGet_cellSet_self regReset m.regs.words a w (m.wordsWf h)

theorem Mach.reg_setReg_same (m : Mach) (a x : Nat) (h : m.canonical = true) : (m.setReg a (m.reg a)).reg x = m.reg x := by
  by_cases hx : x = a
  · subst hx; exact m.reg_setReg_self x _ h
  · exact m.reg_setReg_ne _ hx

theorem kindBits_add_mod {a : Nat} (k : AccessKind) (h : a < 0x4000) : (a + kindBits k) % 0x4000 = a := by
  cases k <;> simp [kindBits] <;> omega

theorem kindOf_add {a : Nat} (k : AccessKind) (h : a < 0x4000) : kindOf (a + kindBits k) = k := by
  cases k
  · have : (a + kindBits .direct) / 0x4000 = 0 := by simp [kindBits]; omega
    simp [kindOf, this]
  · have : (a + kindBits .setBits) / 0x4000 = 1 := by simp [kindBits]; omega
    simp [kindOf, this]
  · have : (a + kindBits .clearBits) / 0x4000 = 2 := by simp [kindBits]; omega
    simp [kindOf, this]
  · have : (a + kindBits .toggleBits) / 0x4000 = 3 := by simp [kindBits]; omega
    simp [kindOf, this]

/-- What follows a served word: its code noted, and from a port the frame counted. -/
def Mach.noted (m : Mach) (ag : Agent) (c addr : Nat) : Mach :=
  match ag with
  | .port p => (m.noteAccess ag c addr).frameDone p c
  | _ => m

theorem updPort_held_nil (m : Mach) (p : Port) (h : (m.port p).held = []) : m.applyHeld p = m := by
  simp only [Mach.applyHeld, h]

theorem Mach.regApply_one (m : Mach) (ag : Agent) (k : AccessKind) (a : Nat) (w : Word) (ha : a < 0x4000) (hl : a ≤ lastOf a)
    {c : Nat} {n : Mach} (hb : (m.touch (blockOf a)).busWrite ag k a w = (c, n)) (hc : c = 0) :
    m.regApply ag (a + kindBits k) [w] = (0, n) := by
  subst hc
  unfold Mach.regApply
  simp only [kindBits_add_mod k ha, kindOf_add k ha, Mach.writeRun, hl, if_true, hb]
  simp [runCode, Mach.noteAccess]
  cases ag <;> rfl

/-- What follows an accepted word: from a port, the frame counted with status OK. -/
def Mach.settled (n : Mach) (ag : Agent) : Mach :=
  match ag with
  | .port p => n.frameDone p 0
  | _ => n

/-- A served one-word write whose register accepts it: the effect of the word on the state with its block's clock restarted, then
the port's count. -/
theorem oneWrite_served (m : Mach) (ag : Agent) (k : AccessKind) (a : Nat) (w : Word) (ha : a < 0x4000) (hl : a ≤ lastOf a)
    (ht : m.takesWrite ag k a) {n : Mach} (hb : (m.touch (blockOf a)).busWrite ag k a w = (0, n)) :
    m.oneWrite ag k a w = n.settled ag := by
  obtain ⟨hh, ht⟩ := ht
  have hr := m.regApply_one ag k a w ha hl hb rfl
  cases ag with
  | port p =>
    obtain ⟨hp, hd, hg⟩ := ht
    simp only [Mach.oneWrite, hp, if_true, updPort_held_nil m p hd, Mach.portWrite, List.length_singleton, hh,
      kindBits_add_mod k ha, hg, Bool.false_eq_true, if_false, hr, Mach.settled]
  | core => simp_all [Mach.oneWrite, Mach.regWrite, Mach.settled]
  | event => simp_all [Mach.oneWrite, Mach.regWrite, Mach.settled]

/-- The frame of an accepted write, from the frame of its effect. -/
theorem settled_wroteOnly (m n : Mach) (ag : Agent) (ps : List Part) (as : List Nat)
    (hx : ∀ x, x ∉ .regs :: ps → m.agrees n x) (ha : n.pa = m.pa) (hb : n.pb = m.pb) (hc : n.clk.now = m.clk.now)
    (hr : m.keepsRegs n as) : m.wroteOnly (n.settled ag) ag ps as := by
  cases ag with
  | port p =>
    refine ⟨fun x h => ?_, fun a h => ?_, ?_⟩
    · have h' := hx x (by simp_all)
      cases p <;> cases x <;> simp_all [Mach.settled, Mach.agrees, Mach.frameDone, Mach.updPort]
    · simp only [Mach.settled, Mach.frameDone, Mach.updPort_reg]; exact hr a h
    · cases p <;> simp_all [Mach.settled, Mach.countsWrite, Mach.framed, Mach.heard, Mach.frameDone, Mach.updPort, Mach.port, Port.other]
  | core => exact ⟨fun x h => hx x (by simp_all), hr, ha, hb⟩
  | event => exact ⟨fun x h => hx x (by simp_all), hr, ha, hb⟩

/-- A settled write leaves the parts but the ports as its effect left them. -/
theorem settled_agrees (n : Mach) (ag : Agent) (x : Part) (h1 : x ≠ .pa) (h2 : x ≠ .pb) : n.agrees (n.settled ag) x := by
  cases ag with
  | port p => cases p <;> cases x <;> simp_all [Mach.settled, Mach.agrees, Mach.frameDone, Mach.updPort]
  | core => cases x <;> rfl
  | event => cases x <;> rfl

@[simp] theorem settled_reg (n : Mach) (ag : Agent) (a : Nat) : (n.settled ag).reg a = n.reg a := by
  cases ag <;> simp [Mach.settled, Mach.frameDone]

/-- A row that writes one word: it answers a next state, with the effect of the word, and leaves the rest alone. -/
theorem oneWrite_effect (s : State) (ag : Agent) (k : AccessKind) (a : Nat) (w : Word) (ha : a < 0x4000) (hl : a ≤ lastOf a)
    (ht : s.m.takesWrite ag k a) (ps : List Part) (as : List Nat) (n : Mach)
    (hb : (s.m.touch (blockOf a)).busWrite ag k a w = (0, n))
    (hx : ∀ x, x ∉ .regs :: ps → s.m.agrees n x) (hpa : n.pa = s.m.pa) (hpb : n.pb = s.m.pb) (hc : n.clk.now = s.m.clk.now)
    (hr : s.m.keepsRegs n as) :
    ∃ t, goOn s (s.m.oneWrite ag k a w) = .next t ∧ t.pending = s.pending ∧ t.m = n.settled ag ∧ s.m.wroteOnly t.m ag ps as := by
  refine ⟨⟨s.m.oneWrite ag k a w, s.pending⟩, rfl, rfl, ?_, ?_⟩
  · exact oneWrite_served s.m ag k a w ha hl ht hb
  · show s.m.wroteOnly (s.m.oneWrite ag k a w) ag ps as
    rw [oneWrite_served s.m ag k a w ha hl ht hb]
    exact settled_wroteOnly s.m n ag ps as hx hpa hpb hc hr

/-- A register that holds GO bits alone keeps its stored word. -/
theorem written_go (d : RegDef) (k : AccessKind) (old w : Word) (h1 : d.rw = 0) (h2 : d.pp = 0) (h3 : d.lk = 0) :
    d.written k old w = old := by
  have h : ∀ x : Word, (old &&& ~~~(0 : Word)) ||| (x &&& 0) = old := by 
    intro x
    have e : ~~~(0 : Word) = BitVec.allOnes 32 := rfl
    rw [e, BitVec.and_allOnes]
    exact (congrArg (old ||| ·) BitVec.and_zero).trans BitVec.or_zero
  cases k <;> simp only [RegDef.written, h1, h2, h3] <;> exact h _

/-- A write to a register that holds GO bits alone, refused by nothing: its GO bits take effect; those whose operation is in progress are
kept for the cycle (R105). -/
theorem busWrite_go (m : Mach) (ag : Agent) (k : AccessKind) (a : Nat) (w go : Word) (hw : windowOf a = none)
    (hd : regDef a = some (RegDef.control 0 go 0 0 0 0 [])) (ht : isTxd a = false) (hi : isIndex a = false) (ha : a ≠ 0x2C0C)
    (hb : ∀ x, m.rangeBad a x = false) (hr : m.regRefuse ag a (m.reg a) (m.reg a) (goWord k w &&& go) = 0) :
    m.busWrite ag k a w = (m.noteAbsorbed ag a (m.reg a &&& (goWord k w &&& go))).regDone ag a (m.reg a) (m.reg a)
      (goWord k w &&& go) := by
  have h := written_go (RegDef.control 0 go 0 0 0 0 []) k (m.reg a) w rfl rfl rfl
  simp only [Mach.busWrite, hw, hd]
  show m.controlWrite ag a (RegDef.control 0 go 0 0 0 0 []) k w = _
  have hz : (a = 0x2C0C && !bitAt w 0) = false := by simp [ha]
  unfold Mach.controlWrite
  simp only [ht, hi, Bool.false_eq_true, if_false, h, hb]
  simp only [hz, RegDef.control, RegDef.inRange, List.all_nil, Bool.not_true, Bool.or_self, Bool.false_eq_true, if_false, ne_eq,
    not_true_eq_false, decide_false, Bool.false_and, hr]

theorem listUpd_length {α : Type} (l : List α) (i : Nat) (f : α → α) : (listUpd l i f).length = l.length := by
  induction l generalizing i with
  | nil => rfl
  | cons x xs ih => cases i <;> simp [listUpd, ih]

theorem listUpd_getD {α : Type} (l : List α) (i : Nat) (f : α → α) (n : Nat) (d : α) :
    (listUpd l i f).getD n d = if n = i ∧ n < l.length then f (l.getD n d) else l.getD n d := by
  induction l generalizing i n with
  | nil => simp [listUpd]
  | cons x xs ih =>
    cases i with
    | zero => cases n <;> simp [listUpd]
    | succ i =>
      cases n with
      | zero => simp [listUpd]
      | succ n =>
        have := ih i n
        simp only [listUpd, List.getD_cons_succ, List.length_cons, Nat.add_lt_add_iff_right, Nat.add_right_cancel_iff]
        exact this

end Sys2Proof.Machine
end

