-- ==== Sys2Proof/Laws/Frames.lean ====
section
/-! SUPPORT. Frames on a host port: what a frame that arrives does before its own part, and what events of `x_INTSRC` and the
counters leave alone. -/

namespace Sys2Proof.Machine

theorem bitMask_bit (i : Nat) (h : i < 32) (w : Word) : bitAt (w ||| bitMask i) i = true := by
  simp only [bitAt, bitMask, word, BitVec.getLsbD_or, BitVec.getLsbD_ofNat, Nat.testBit_two_pow_self]
  simp [h]

theorem bumpSeq_toNat (w : Word) : (bumpSeq w).toNat = w.toNat % 2 ^ 24 + ((w.toNat / 2 ^ 24 + 1) % 256) * 2 ^ 24 := by
  have hw := w.isLt
  simp only [bumpSeq, setBits, bitsAt, word]
  have e : w &&& ~~~(BitVec.ofNat 32 ((2 ^ 8 - 1) <<< 24)) = w &&& BitVec.ofNat 32 (2 ^ 24 - 1) := by
    congr 1
  rw [e]
  simp only [BitVec.toNat_or, BitVec.toNat_and, BitVec.toNat_ofNat]
  rw [show (2 ^ 24 - 1) % 2 ^ 32 = 2 ^ 24 - 1 by rfl, Nat.and_two_pow_sub_one_eq_mod, Nat.or_comm]
  have h2 : (((w.toNat >>> 24) % 2 ^ 8 + 1) % 2 ^ 8) <<< 24 % 2 ^ 32 = ((w.toNat / 2 ^ 24 + 1) % 256) * 2 ^ 24 := by
    rw [Nat.shiftLeft_eq, Nat.shiftRight_eq_div_pow]; omega
  rw [h2, Nat.mul_comm, ← Nat.two_pow_add_eq_or_of_lt (Nat.mod_lt _ (by norm_num))]
  omega

/-- SEQ goes up by one modulo 256. -/
theorem bumpSeq_seq (w : Word) : bitsAt (bumpSeq w) 24 8 = (bitsAt w 24 8 + 1) % 256 := by
  have hw := w.isLt
  simp only [bitsAt, bumpSeq_toNat, Nat.shiftRight_eq_div_pow]; omega

/-- The other bits stay as SEQ goes up. -/
theorem bumpSeq_low (w : Word) : bitsAt (bumpSeq w) 0 24 = bitsAt w 0 24 := by
  have hw := w.isLt
  simp only [bitsAt, bumpSeq_toNat, Nat.shiftRight_eq_div_pow]; omega

theorem setBits_high_low (n k : Nat) (h : n ≤ 0xFFFFFF) :
    (setBits (word n) 24 8 k).toNat = n + (k % 256) * 2 ^ 24 := by
  simp only [setBits, word]
  have e : BitVec.ofNat 32 n &&& ~~~(BitVec.ofNat 32 ((2 ^ 8 - 1) <<< 24)) = BitVec.ofNat 32 n &&& BitVec.ofNat 32 (2 ^ 24 - 1) := by
    congr 1
  rw [e]
  simp only [BitVec.toNat_or, BitVec.toNat_and, BitVec.toNat_ofNat]
  rw [show (2 ^ 24 - 1) % 2 ^ 32 = 2 ^ 24 - 1 by rfl, Nat.and_two_pow_sub_one_eq_mod, Nat.or_comm]
  have h2 : (k % 2 ^ 8) <<< 24 % 2 ^ 32 = (k % 256) * 2 ^ 24 := by rw [Nat.shiftLeft_eq]; omega
  rw [h2, Nat.mul_comm, ← Nat.two_pow_add_eq_or_of_lt (Nat.mod_lt _ (by norm_num))]
  omega

/-- In a cycle without a clear a hardware event takes none back. -/
theorem unclear_none (m : Mach) (a : Nat) (h : m.noClear) : m.unclear a = m := by
  unfold Mach.unclear
  have : m.regs.cleared.find? (fun c => c.addr == a && c.at_ == m.clk.now && !c.undone) = none := by
    rw [List.find?_eq_none]
    intro c hc
    have := h c hc
    simp [this]
  simp only [this]

/-- An event of a counter whose domain is ON: COUNT saturates, SEQ wraps (R115). -/
theorem count_effect (m : Mach) (a : Nat) (h : m.canonical = true) (hq : m.noClear)
    (hon : m.on (blockDomain (blockOf a)) = true) :
    bitsAt ((m.count a).reg a) 0 24 = min 0xFFFFFF (bitsAt (m.reg a) 0 24 + 1) ∧
    bitsAt ((m.count a).reg a) 24 8 = (bitsAt (m.reg a) 24 8 + 1) % 256 := by
  have : m.count a = m.setReg a (setBits (word (min 0xFFFFFF (bitsAt (m.reg a) 0 24 + 1))) 24 8 (bitsAt (m.reg a) 24 8 + 1)) := by
    simp [Mach.count, Mach.countN, hon, unclear_none m a hq]
  rw [this, Mach.reg_setReg_self m a _ h]
  have e := setBits_high_low (min 0xFFFFFF (bitsAt (m.reg a) 0 24 + 1)) (bitsAt (m.reg a) 24 8 + 1) (Nat.min_le_left _ _)
  have b : min 0xFFFFFF (bitsAt (m.reg a) 0 24 + 1) ≤ 0xFFFFFF := Nat.min_le_left _ _
  generalize min 0xFFFFFF (bitsAt (m.reg a) 0 24 + 1) = n at *
  generalize bitsAt (m.reg a) 24 8 = d at *
  constructor
  · simp only [bitsAt, e, Nat.shiftRight_eq_div_pow]; omega
  · simp only [bitsAt, e, Nat.shiftRight_eq_div_pow]; omega

/-- An increment leaves everything but its counter. -/
theorem count_frame (m : Mach) (a : Nat) (hq : m.noClear) :
    m.changesOnly (m.count a) [.regs] ∧ m.keepsRegs (m.count a) [a] := by
  unfold Mach.count Mach.countN
  rw [unclear_none m a hq]
  constructor
  · intro x hx; dsimp only; split <;> cases x <;> simp_all [Mach.agrees]
  · intro x hx; dsimp only; split
    · rfl
    · exact Mach.reg_setReg_ne m _ (by simpa using hx)

/-- The pacing of `x_INTSRC` leaves the clears of the cycle alone. -/
theorem flushInt_noClear (m : Mach) (p : Port) (hq : m.noClear) : (m.flushInt p).noClear := by
  unfold Mach.flushInt; dsimp only
  split
  · cases p <;> exact hq
  · exact hq

/-- An event of `x_INTSRC` leaves everything but that register and the pacing of its port (R207). -/
theorem intEvent_frame (m : Mach) (p : Port) (w : Word) (hq : m.noClear) :
    m.changesOnly (m.intEvent p w) [.regs, portPart p] ∧ m.keepsRegs (m.intEvent p w) [intsrc p] ∧
    (m.intEvent p w).port p = { m.port p with
      incPending := ((m.intEvent p w).port p).incPending, lastInc := ((m.intEvent p w).port p).lastInc } := by
  have e : (m.flushInt p).unclear (intsrc p) = m.flushInt p := unclear_none _ _ (flushInt_noClear m p hq)
  unfold Mach.intEvent
  dsimp only
  rw [e]
  simp only [ite_self]
  unfold Mach.flushInt
  refine ⟨?_, ?_, ?_⟩
  · intro x hx
    dsimp only
    split <;> split <;> split <;> (try split) <;> cases p <;> cases x <;> first | rfl | exact absurd (by simp [portPart]) hx
  · intro x hx
    have hx' : x ≠ intsrc p := by simpa using hx
    dsimp only
    split <;> split <;> split <;> (try split) <;> simp [Mach.reg_setReg_ne _ _ hx']
  · dsimp only
    split <;> split <;> split <;> (try split) <;> cases p <;> rfl

/-- An event of `x_INTSRC` sets its bit while D5 is ON. -/
theorem intBit_sets (m : Mach) (p : Port) (i : Nat) (h : m.canonical = true) (hq : m.noClear) (hon : m.on 5 = true)
    (hi : i < 24) :
    (m.intBit p i).flag (intsrc p) i = true := by
  have hw := m.wordsWf h
  have key : ∀ w : Word, bitAt (bumpSeq (w ||| bitMask i)) i = true := by
    intro w
    have h1 := bitMask_bit i (by omega) w
    have h2 := bumpSeq_low (w ||| bitMask i)
    generalize w ||| bitMask i = u at *
    simp only [bitAt, bitsAt, ← BitVec.testBit_toNat, Nat.shiftRight_zero] at *
    have : (((bumpSeq u).toNat) % 2 ^ 24).testBit i = ((u.toNat) % 2 ^ 24).testBit i := by rw [h2]
    simp only [Nat.testBit_mod_two_pow] at this
    simp_all
  have can : ∀ (n : Mach) (a : Nat) (w : Word), Memory.wf regReset n.regs.words = true →
      Memory.wf regReset (n.setReg a w).regs.words = true := fun n a w hn => wf_cellSet _ _ _ _ hn
  have self : ∀ (n : Mach) (a : Nat) (w : Word), Memory.wf regReset n.regs.words = true → (n.setReg a w).reg a = w :=
    fun n a w hn => cellGet_cellSet_self regReset n.regs.words a w hn
  have e : (m.flushInt p).unclear (intsrc p) = m.flushInt p := unclear_none _ _ (flushInt_noClear m p hq)
  unfold Mach.intBit Mach.intEvent
  dsimp only
  rw [e]
  simp only [ite_self]
  have hflush : Memory.wf regReset (m.flushInt p).regs.words = true ∧ (m.flushInt p).on 5 = true := by
    unfold Mach.flushInt; dsimp only; split
    · exact ⟨by rw [Mach.updPort_regs]; exact can _ _ _ hw, by cases p <;> exact hon⟩
    · exact ⟨hw, hon⟩
  obtain ⟨f1, f2⟩ := hflush
  generalize m.flushInt p = n at *
  simp only [f2, if_true, Mach.setReg_on, Bool.not_true, Bool.or_false]
  have r := self n (intsrc p) (n.reg (intsrc p) ||| bitMask i) f1
  split
  · simp only [Mach.flag, r]; exact bitMask_bit i (by omega) _
  · split
    · simp only [Mach.flag, Mach.updPort_reg, r]; exact bitMask_bit i (by omega) _
    · simp only [Mach.flag, Mach.updPort_reg]
      rw [self _ _ _ (can n _ _ f1), r]
      exact key _

/-- A frame that arrives is taken. -/
theorem takesFrame_ok (m : Mach) (p : Port) (since : Nat) (sel : Bool) (abyte : Byte) (b : Bool)
    (ha : m.listens p since sel abyte) : m.takesFrame p since sel abyte b = (true, m) := by
  obtain ⟨h1, h2, h3, h4, -⟩ := ha
  unfold Mach.takesFrame Mach.edgeTaken
  have n1 : (!m.addressed p || decide (abyte.toNat = m.fld 0x2804 8 4) || (b && decide (abyte = 0xFF))) = true := by
    cases hx : m.addressed p <;> simp_all
  have n2 : (!(m.port p).async || (decide (m.baudRate p ≠ 0) && !sel)) = true := by
    cases hx : (m.port p).async <;> simp_all
  simp only [n1, n2, h1, h4]; simp

/-- A frame whose header arrives whole with its CRC right restarts the lease and goes on to its part. -/
theorem arrival_ok (m : Mach) (p : Port) (e : FrameEnv) (h : List Byte) (b : Bool) (ha : m.arrives p e h) :
    m.arrival p e h b = (.whole, m.leaseRestart p) := by
  have h0 := takesFrame_ok m p e.since e.selHigh e.abyte b ha.1
  obtain ⟨⟨h1, h2, h3, h4, h5⟩, h6, h7⟩ := ha
  have : ¬ m.bitsOf p e < m.headBits p e h := by omega
  unfold Mach.arrival
  simp only [h0, updPort_held_nil m p h5, this]
  have hc : (m.leaseRestart p).crcOn p = m.crcOn p := by cases p <;> rfl
  have hb : (m.leaseRestart p).headBytes p e h = m.headBytes p e h := by cases p <;> rfl
  cases hx : m.crcOn p <;> simp_all

/-- A frame that runs to its last bit drives all its bytes. -/
theorem drive_out (m n : Mach) (p : Port) (e : FrameEnv) (h dev : List Byte) (hr : m.runsOut p e h dev.length)
    (hb : n.headBytes p e h = m.headBytes p e h) (hc : n.crcOn p = m.crcOn p) (ht : n.turnBits p = m.turnBits p)
    (hn : n.bitsOf p e = m.bitsOf p e) (ha : (n.port p).async = (m.port p).async) :
    n.drive p e h dev = n.updPort p (fun s => { s with sdio := m.driven p e h dev }) := by
  have hbits : n.headBits p e h = m.headBits p e h := by simp [Mach.headBits, hb, hc]
  unfold Mach.runsOut at hr
  have hcol : n.collision p e h = none := by
    rw [← hr.2]; simp only [Mach.collision, hbits, ha]
  unfold Mach.drive Mach.bitsOut
  simp only [hcol, Option.getD_none, hbits, ht, hn]
  have hk : (m.bitsOf p e - (m.headBits p e h + m.turnBits p)) / 8 = dev.length + (m.crcOn p).toNat := by omega
  simp only [hk, hc, hb]
  have hl : (m.driven p e h dev).length = dev.length + (m.crcOn p).toNat := by
    cases hx : m.crcOn p <;> simp [Mach.driven, hx]
  unfold Mach.driven at hl ⊢
  rw [← hl, List.take_length, Nat.sub_self, List.replicate_zero, List.append_nil]
  have kept : ∀ f : PortState → PortState, (f (n.port p)).async = (n.port p).async →
      (n.updPort p f).collision p e h = n.collision p e h := by
    intro f hf
    have e1 : ((n.updPort p f).port p).async = (n.port p).async := by cases p <;> exact hf
    have e2 : (n.updPort p f).headBits p e h = n.headBits p e h := by
      have e3 : (n.updPort p f).addressed p = n.addressed p := by
        cases p
        · rfl
        · exact congrArg (fun b => !b && n.flag 0x420 26) e1
      have e4 : (n.updPort p f).onBus p = n.onBus p := by unfold Mach.onBus; rw [e3]; cases p <;> rfl
      have e5 : (n.updPort p f).crcOn p = n.crcOn p := by unfold Mach.crcOn; rw [e4]; cases p <;> rfl
      simp only [Mach.headBits, Mach.headBytes, e3, e5]
    unfold Mach.collision
    simp only [e1, e2]
  rw [kept _ rfl, hcol]; rfl

end Sys2Proof.Machine
end

