-- ==== Sys2Proof/Laws/Wilone.lean ====
section
/-! SUPPORT. Wilone lines: what a verb's row does once its command runs, and what its answer leaves. -/

namespace Sys2Proof.Machine

/-- A row whose command runs now executes it, its line gone and its semaphores claimed. -/
theorem verbRow_runs (m : Mach) (p : Port) (verb : Nat) (mine : Cmd → Bool) (act : Mach → Bool → Cmd → Mach) {ck : Bool} {c : Cmd}
    (h : m.runsNow p ck c) (hv : c.verb = verb) (hm : mine c = true) :
    m.verbRow p verb mine act = act ((m.beginLine p).updPort p (fun s => { s with semsCmd := m.cmdSems c })) ck c := by
  obtain ⟨-, ⟨l, h1, h2⟩, h3, h4⟩ := h
  have hs : (m.beginLine p).semsOf p.other = m.semsOf p.other := by
    cases p <;> (simp only [Mach.beginLine, Mach.semsOf]; split <;> (try split) <;> rfl)
  unfold Mach.verbRow
  simp only [h1, h2, hv, hm, hs, h4]
  cases ho : m.owned <;> cases ha : m.cmdAuth p c <;> simp_all

theorem fillReply_fits (buf : List Byte) (ls : List (List Byte)) (h : buf.length + ls.flatten.length ≤ dataRoom) :
    fillReply buf ls = (buf ++ ls.flatten, []) := by
  induction ls generalizing buf with
  | nil => simp [fillReply]
  | cons l ls ih =>
    simp only [List.flatten_cons, List.length_append] at h
    have : buf.length + l.length ≤ dataRoom := by omega
    simp only [fillReply, this, if_true]
    rw [ih (buf ++ l) (by rw [List.length_append]; omega)]
    simp

/-- An answer that finds room ends its command: the port as it stands after it, and `REPLY` set. -/
theorem answer_fits (m : Mach) (p : Port) (ck : Bool) (data : List (List Byte)) (final : List Byte)
    (h : m.fits p ck data final) :
    m.answer p ck data final =
      (m.updPort p (fun s => PortState.typed
        { s with executing := none, semsCmd := 0, dropReply := false
                 reply := s.reply ++ replyBytes ck data final
                 finalLeft := (s.reply ++ replyBytes ck data final).length } s.prompt (ascii "> "))).intBit p 0 := by
  obtain ⟨h1, h2, h3⟩ := h
  have hf := fillReply_fits (m.port p).reply (data.map (replyLine ck)) h2
  have h4 : ((m.port p).reply ++ (data.map (replyLine ck)).flatten).length + (replyLine ck final).length ≤ replyRoom := by
    simp only [replyBytes, List.length_append] at h3 ⊢; omega
  cases p <;>
    (simp only [Mach.port] at h1 hf h4
     simp only [Mach.answer, Mach.pump, Mach.updPort, Mach.port, h1, hf, List.isEmpty_nil, Bool.true_and, Bool.false_eq_true, if_false,
       decide_eq_true_eq, h4, if_true, Mach.endCommand]
     simp only [replyBytes, PortState.typed, List.append_assoc, List.length_append, Nat.add_assoc])

end Sys2Proof.Machine
end

