-- ==== Sys2Proof/Laws/Within.lean ====
section
/-! SUPPORT. The reach of an operation: the parts it may change, and that it keeps the sparse memories canonical and the tables at their sizes. The rules from
which the files `Within…` derive the reach of every operation of the block. -/

namespace Sys2Proof.Machine

theorem length_listUpd {α : Type} (l : List α) (i : Nat) (f : α → α) : (listUpd l i f).length = l.length := by
  induction l generalizing i with
  | nil => rfl
  | cons x xs ih => cases i <;> simp [listUpd, ih]

theorem forall_listUpd {α : Type} {P : α → Prop} (l : List α) (i : Nat) (f : α → α) (hf : ∀ x, P x → P (f x))
    (h : ∀ x ∈ l, P x) : ∀ x ∈ listUpd l i f, P x := by
  induction l generalizing i with
  | nil => exact h
  | cons y ys ih =>
    cases i with
    | zero =>
      intro x hx
      rcases List.mem_cons.mp hx with rfl | hx
      · exact hf _ (h _ (List.mem_cons_self ..))
      · exact h _ (List.mem_cons_of_mem _ hx)
    | succ i =>
      intro x hx
      rcases List.mem_cons.mp hx with rfl | hx
      · exact h _ (List.mem_cons_self ..)
      · exact ih i (fun z hz => h z (List.mem_cons_of_mem _ hz)) x hx

/-- From `m` to `n` nothing changes but the parts listed, canonical memories stay so, and the tables keep their sizes. -/
def Mach.within (m n : Mach) (ps : List Part) : Prop :=
  m.changesOnly n ps ∧ (m.canonical = true → n.canonical = true) ∧ (m.shaped → n.shaped)

theorem Mach.within_refl (m : Mach) (ps : List Part) : m.within m ps := ⟨fun x _ => by cases x <;> rfl, id, id⟩

/-- One operation more. -/
theorem Mach.within_step {m n k : Mach} {ps qs : List Part} (h : m.within n ps) (h2 : n.within k qs)
    (hs : qs.all ps.contains = true) : m.within k ps := by
  refine ⟨fun x hx => ?_, fun hc => h2.2.1 (h.2.1 hc), fun hc => h2.2.2 (h.2.2 hc)⟩
  have hq : x ∉ qs := by
    intro hm
    have := List.all_eq_true.mp hs x hm
    exact hx (by simpa using this)
  have e1 := h.1 x hx
  have e2 := h2.1 x hq
  cases x <;> (simp only [Mach.agrees] at *; rw [e2, e1])

theorem Mach.within_then {m n k : Mach} {ps qs : List Part} (h2 : n.within k qs) (h : m.within n ps)
    (hs : qs.all ps.contains = true) : m.within k ps := Mach.within_step h h2 hs

theorem Mach.within_fst {α : Type} {m n : Mach} {a : α} {x : α × Mach} {ps : List Part} (h : x = (a, n))
    (hx : m.within x.2 ps) : m.within n ps := by subst h; exact hx

theorem Mach.within_left {α : Type} {m n : Mach} {a : α} {x : Mach × α} {ps : List Part} (h : x = (n, a))
    (hx : m.within x.1 ps) : m.within n ps := by subst h; exact hx

theorem Mach.within_mid {α β : Type} {m n : Mach} {a : α} {b : β} {x : α × β × Mach} {ps : List Part} (h : x = (a, b, n))
    (hx : m.within x.2.2 ps) : m.within n ps := by subst h; exact hx

theorem Mach.within_ite {m a b : Mach} {ps : List Part} (c : Prop) [Decidable c] (ha : m.within a ps) (hb : m.within b ps) :
    m.within (if c then a else b) ps := by split <;> assumption

theorem Mach.within_ite2 {α : Type} {m : Mach} {a b : α × Mach} {ps : List Part} (c : Prop) [Decidable c]
    (ha : m.within a.2 ps) (hb : m.within b.2 ps) : m.within (if c then a else b).2 ps := by split <;> assumption

theorem Mach.within_ite1 {α : Type} {m : Mach} {a b : Mach × α} {ps : List Part} (c : Prop) [Decidable c]
    (ha : m.within a.1 ps) (hb : m.within b.1 ps) : m.within (if c then a else b).1 ps := by split <;> assumption

theorem Mach.within_ite3 {α β : Type} {m : Mach} {a b : α × β × Mach} {ps : List Part} (c : Prop) [Decidable c]
    (ha : m.within a.2.2 ps) (hb : m.within b.2.2 ps) : m.within (if c then a else b).2.2 ps := by split <;> assumption

/-- A fold of operations. -/
theorem Mach.within_fold {α : Type} {m n : Mach} {ps : List Part} (f : Mach → α → Mach) (l : List α) (h : m.within n ps)
    (hf : ∀ k x, m.within k ps → m.within (f k x) ps) : m.within (l.foldl f n) ps := by
  induction l generalizing n with
  | nil => exact h
  | cons x xs ih => exact ih (hf n x h)

theorem Mach.within_fold1 {α β : Type} {m : Mach} {n : Mach × β} {ps : List Part} (f : Mach × β → α → Mach × β) (l : List α)
    (h : m.within n.1 ps) (hf : ∀ k x, m.within k.1 ps → m.within (f k x).1 ps) : m.within (l.foldl f n).1 ps := by
  induction l generalizing n with
  | nil => exact h
  | cons x xs ih => exact ih (hf n x h)

theorem Mach.within_fold2 {α β : Type} {m : Mach} {n : β × Mach} {ps : List Part} (f : β × Mach → α → β × Mach) (l : List α)
    (h : m.within n.2 ps) (hf : ∀ k x, m.within k.2 ps → m.within (f k x).2 ps) : m.within (l.foldl f n).2 ps := by
  induction l generalizing n with
  | nil => exact h
  | cons x xs ih => exact ih (hf n x h)

/-- The reach of a state given field by field. -/
def Mach.withinMk (m : Mach) (ps : List Part) (clk : Clocks) (regs : Regs) (pa pb : PortState) (mot : Motion) (flt : Filters)
    (ang : Angle) (aux : Aux) (evt : Events) (grd : Guard) (buf : Buffer) (eng : Engines) (flue : Flue) (sec : Security)
    (nv : Nv) (bist : SelfTest) (mem : Mems) (free : Nat) : Prop :=
  m.within ⟨clk, regs, pa, pb, mot, flt, ang, aux, evt, grd, buf, eng, flue, sec, nv, bist, mem, free⟩ ps

theorem Mach.within_mk_eq (m : Mach) (ps : List Part) {clk regs pa pb mot flt ang aux evt grd buf eng flue sec nv bist mem free} :
    m.within ⟨clk, regs, pa, pb, mot, flt, ang, aux, evt, grd, buf, eng, flue, sec, nv, bist, mem, free⟩ ps =
      m.withinMk ps clk regs pa pb mot flt ang aux evt grd buf eng flue sec nv bist mem free := rfl

/-- A record update that leaves the words and the memories alone. -/
theorem Mach.withinMk_of {m n : Mach} {ps : List Part} {clk regs pa pb mot flt ang aux evt grd buf eng flue sec nv bist mem free}
    (e1 : clk = n.clk ∨ ps.contains .clk = true) (e2 : regs = n.regs ∨ ps.contains .regs = true)
    (e3 : pa = n.pa ∨ ps.contains .pa = true) (e4 : pb = n.pb ∨ ps.contains .pb = true)
    (e5 : mot = n.mot ∨ ps.contains .mot = true) (e6 : flt = n.flt ∨ ps.contains .flt = true)
    (e7 : ang = n.ang ∨ ps.contains .ang = true) (e8 : aux = n.aux ∨ ps.contains .aux = true)
    (e9 : evt = n.evt ∨ ps.contains .evt = true) (e10 : grd = n.grd ∨ ps.contains .grd = true)
    (e11 : buf = n.buf ∨ ps.contains .buf = true) (e12 : eng = n.eng ∨ ps.contains .eng = true)
    (e13 : flue = n.flue ∨ ps.contains .flue = true) (e14 : sec = n.sec ∨ ps.contains .sec = true)
    (e15 : nv = n.nv ∨ ps.contains .nv = true) (e16 : bist = n.bist ∨ ps.contains .bist = true)
    (e17 : free = n.free ∨ ps.contains .free = true)
    (hw : regs.words = n.regs.words) (hm : mem = n.mem)
    (s1 : n.flt.groups.length = 13 → flt.groups.length = 13) (s2 : n.aux.chans.length = 8 → aux.chans.length = 8)
    (s3 : n.evt.machines.length = 16 → evt.machines.length = 16) (s4 : n.buf.queues.length = 5 → buf.queues.length = 5)
    (s5 : n.buf.units.length = 136 → buf.units.length = 136) (s6 : n.eng.engs.length = 4 → eng.engs.length = 4)
    (s7 : (∀ e ∈ n.eng.engs, e.ctxs.length = 8) → ∀ e ∈ eng.engs, e.ctxs.length = 8)
    (s8 : n.flue.workers.length = 32 → flue.workers.length = 32) (h : m.within n ps) :
    m.withinMk ps clk regs pa pb mot flt ang aux evt grd buf eng flue sec nv bist mem free := by
  refine ⟨fun x hx => ?_, fun hc => ?_, fun hc => ?_⟩
  · have a := h.1 x hx
    clear s1 s2 s3 s4 s5 s6 s7 s8
    cases x <;> simp_all [Mach.agrees]
  · have := h.2.1 hc
    simp only [Mach.canonical, hw, hm] at this ⊢
    exact this
  · obtain ⟨a1, a2, a3, a4, a5, a6, a7, a8⟩ := h.2.2 hc
    exact ⟨s1 a1, s2 a2, s3 a3, s4 a4, s5 a5, s6 a6, s7 a7, s8 a8⟩

theorem Mach.setReg_within {m₀ m : Mach} (a : Nat) (w : Word) {ps : List Part} (h : m₀.within m ps)
    (hs : [Part.regs].all ps.contains = true) : m₀.within (m.setReg a w) ps := by
  refine Mach.within_step h ⟨fun x hx => by cases x <;> simp_all [Mach.agrees], fun h => ?_, id⟩ hs
  simp only [Mach.canonical, Bool.and_eq_true, Mach.setReg_words, Mach.setReg_mem] at h ⊢
  exact ⟨⟨⟨wf_cellSet _ _ _ _ h.1.1.1, h.1.1.2⟩, h.1.2⟩, h.2⟩

theorem Mach.updPort_within {m₀ m : Mach} (p : Port) (f : PortState → PortState) {ps : List Part} (h : m₀.within m ps)
    (hs : [Part.pa, Part.pb].all ps.contains = true) : m₀.within (m.updPort p f) ps := by
  refine Mach.within_step h ?_ hs
  cases p <;> exact ⟨fun x hx => by cases x <;> simp_all [Mach.agrees], id, id⟩

/-- A word of a memory written. -/
theorem Mach.coefs_within {m n : Mach} {ps : List Part} (h : m.within n ps) (hs : [Part.mem].all ps.contains = true) (a : Nat)
    (w : Word) : m.within { n with mem := { n.mem with coefs := cellSet coefReset n.mem.coefs a w } } ps := by
  refine Mach.within_step h ⟨fun x hx => by cases x <;> simp_all [Mach.agrees], fun h => ?_, id⟩ hs
  simp only [Mach.canonical, Bool.and_eq_true] at h ⊢
  obtain ⟨⟨⟨h1, h2⟩, h3⟩, h4⟩ := h
  exact ⟨⟨⟨h1, h2⟩, h3⟩, wf_cellSet _ _ _ _ h4⟩

/-- A word of a memory written. -/
theorem Mach.evtProg_within {m n : Mach} {ps : List Part} (h : m.within n ps) (hs : [Part.mem].all ps.contains = true) (a : Nat)
    (w : Word) : m.within { n with mem := { n.mem with evtProg := cellSet (fun _ => 0) n.mem.evtProg a w } } ps := by
  refine Mach.within_step h ⟨fun x hx => by cases x <;> simp_all [Mach.agrees], fun h => ?_, id⟩ hs
  simp only [Mach.canonical, Bool.and_eq_true] at h ⊢
  obtain ⟨⟨⟨h1, h2⟩, h3⟩, h4⟩ := h
  exact ⟨⟨⟨h1, wf_cellSet _ _ _ _ h2⟩, h3⟩, h4⟩

/-- A word of a memory written. -/
theorem Mach.engProg_within {m n : Mach} {ps : List Part} (h : m.within n ps) (hs : [Part.mem].all ps.contains = true) (a : Nat)
    (w : Word) : m.within { n with mem := { n.mem with engProg := cellSet (fun _ => 0) n.mem.engProg a w } } ps := by
  refine Mach.within_step h ⟨fun x hx => by cases x <;> simp_all [Mach.agrees], fun h => ?_, id⟩ hs
  simp only [Mach.canonical, Bool.and_eq_true] at h ⊢
  obtain ⟨⟨⟨h1, h2⟩, h3⟩, h4⟩ := h
  exact ⟨⟨⟨h1, h2⟩, wf_cellSet _ _ _ _ h3⟩, h4⟩

end Sys2Proof.Machine
end

