-- ==== Sys2Proof/Laws/WithinOps.lean ====
section
/-! SUPPORT. The reach of every operation of Machine/Ops.lean. -/

set_option linter.unusedTactic false
set_option linter.unusedSimpArgs false
set_option linter.unusedVariables false
set_option linter.unreachableTactic false
set_option linter.unnecessarySimpa false

namespace Sys2Proof.Machine

theorem Mach.setFld_within {m₀ : Mach} (m : Mach) (a lo width v : Nat) {ps : List Part} (h₀ : m₀.within m ps)
    (hs : [Part.regs].all ps.contains = true) : m₀.within (Mach.setFld m a lo width v) ps := by
  refine Mach.within_step h₀ ?_ hs
  clear h₀ hs
  unfold Mach.setFld
  try dsimp only
  repeat' first
    | with_reducible assumption
    | with_reducible exact Mach.within_refl _ _
    | decide
    | with_reducible apply Mach.setReg_within

theorem Mach.resetRegs_within {m₀ : Mach} (m : Mach) (as : List Nat) {ps : List Part} (h₀ : m₀.within m ps)
    (hs : [Part.regs].all ps.contains = true) : m₀.within (Mach.resetRegs m as) ps := by
  refine Mach.within_step h₀ ?_ hs
  clear h₀ hs
  unfold Mach.resetRegs
  try dsimp only
  repeat' first
    | with_reducible assumption
    | with_reducible exact Mach.within_refl _ _
    | decide
    | with_reducible apply Mach.setReg_within
    | with_reducible apply Mach.within_fold
    | (intro k x hk; try dsimp only)

theorem Mach.drawBit_within {m₀ : Mach} (m : Mach) {ps : List Part} (h₀ : m₀.within m ps)
    (hs : [Part.free].all ps.contains = true) : m₀.within (Mach.drawBit m).2 ps := by
  refine Mach.within_step h₀ ?_ hs
  clear h₀ hs
  unfold Mach.drawBit
  try dsimp only
  repeat' first
    | with_reducible assumption
    | with_reducible exact Mach.within_refl _ _
    | decide
    | ((simp only [Mach.within_mk_eq]; with_reducible apply Mach.withinMk_of) <;> first | exact Or.inr rfl | with_reducible exact Or.inl rfl | with_reducible rfl | with_reducible exact fun h => h | (intro h; simpa [length_listUpd] using h) | (intro h; split <;> exact h) | skip)

theorem Mach.drawNat_within {m₀ : Mach} (m : Mach) {ps : List Part} (h₀ : m₀.within m ps)
    (hs : [Part.free].all ps.contains = true) : m₀.within (Mach.drawNat m).2 ps := by
  refine Mach.within_step h₀ ?_ hs
  clear h₀ hs
  unfold Mach.drawNat
  try dsimp only
  repeat' first
    | with_reducible assumption
    | with_reducible exact Mach.within_refl _ _
    | decide
    | ((simp only [Mach.within_mk_eq]; with_reducible apply Mach.withinMk_of) <;> first | exact Or.inr rfl | with_reducible exact Or.inl rfl | with_reducible rfl | with_reducible exact fun h => h | (intro h; simpa [length_listUpd] using h) | (intro h; split <;> exact h) | skip)

theorem Mach.setDom_within {m₀ : Mach} (m : Mach) (k : Nat) (d : Dom) {ps : List Part} (h₀ : m₀.within m ps)
    (hs : [Part.clk].all ps.contains = true) : m₀.within (Mach.setDom m k d) ps := by
  refine Mach.within_step h₀ ?_ hs
  clear h₀ hs
  unfold Mach.setDom
  try dsimp only
  repeat' first
    | with_reducible assumption
    | with_reducible exact Mach.within_refl _ _
    | decide
    | (with_reducible apply Mach.within_fst; assumption)
    | (with_reducible apply Mach.within_left; assumption)
    | (with_reducible apply Mach.within_mid; assumption)
    | dsimp only
    | split
    | ((simp only [Mach.within_mk_eq]; with_reducible apply Mach.withinMk_of) <;> first | exact Or.inr rfl | with_reducible exact Or.inl rfl | with_reducible rfl | with_reducible exact fun h => h | (intro h; simpa [length_listUpd] using h) | (intro h; split <;> exact h) | skip)

theorem Mach.flushSeq_within {m₀ : Mach} (m : Mach) (a : Nat) {ps : List Part} (h₀ : m₀.within m ps)
    (hs : [Part.regs].all ps.contains = true) : m₀.within (Mach.flushSeq m a) ps := by
  refine Mach.within_step h₀ ?_ hs
  clear h₀ hs
  unfold Mach.flushSeq
  try dsimp only
  repeat' first
    | with_reducible assumption
    | with_reducible exact Mach.within_refl _ _
    | decide
    | with_reducible apply Mach.setReg_within
    | with_reducible apply Mach.within_ite
    | with_reducible apply Mach.within_ite2
    | (with_reducible apply Mach.within_fst; assumption)
    | (with_reducible apply Mach.within_left; assumption)
    | (with_reducible apply Mach.within_mid; assumption)
    | dsimp only
    | split
    | ((simp only [Mach.within_mk_eq]; with_reducible apply Mach.withinMk_of) <;> first | exact Or.inr rfl | with_reducible exact Or.inl rfl | with_reducible rfl | with_reducible exact fun h => h | (intro h; simpa [length_listUpd] using h) | (intro h; split <;> exact h) | skip)

theorem Mach.noteClear_within {m₀ : Mach} (m : Mach) (byPort : Option Port) (a : Nat) {ps : List Part} (h₀ : m₀.within m ps)
    (hs : [Part.regs].all ps.contains = true) : m₀.within (Mach.noteClear m byPort a) ps := by
  refine Mach.within_step h₀ ?_ hs
  clear h₀ hs
  unfold Mach.noteClear
  try dsimp only
  repeat' first
    | with_reducible assumption
    | with_reducible exact Mach.within_refl _ _
    | decide
    | (with_reducible apply Mach.within_fst; assumption)
    | (with_reducible apply Mach.within_left; assumption)
    | (with_reducible apply Mach.within_mid; assumption)
    | dsimp only
    | split
    | ((simp only [Mach.within_mk_eq]; with_reducible apply Mach.withinMk_of) <;> first | exact Or.inr rfl | with_reducible exact Or.inl rfl | with_reducible rfl | with_reducible exact fun h => h | (intro h; simpa [length_listUpd] using h) | (intro h; split <;> exact h) | skip)

theorem Mach.unclear_within {m₀ : Mach} (m : Mach) (a : Nat) {ps : List Part} (h₀ : m₀.within m ps)
    (hs : [Part.regs].all ps.contains = true) : m₀.within (Mach.unclear m a) ps := by
  refine Mach.within_step h₀ ?_ hs
  clear h₀ hs
  unfold Mach.unclear
  try dsimp only
  repeat' first
    | with_reducible assumption
    | with_reducible exact Mach.within_refl _ _
    | decide
    | with_reducible apply Mach.setReg_within
    | with_reducible apply Mach.within_ite
    | with_reducible apply Mach.within_ite2
    | (with_reducible apply Mach.within_fst; assumption)
    | (with_reducible apply Mach.within_left; assumption)
    | (with_reducible apply Mach.within_mid; assumption)
    | dsimp only
    | split
    | ((simp only [Mach.within_mk_eq]; with_reducible apply Mach.withinMk_of) <;> first | exact Or.inr rfl | with_reducible exact Or.inl rfl | with_reducible rfl | with_reducible exact fun h => h | (intro h; simpa [length_listUpd] using h) | (intro h; split <;> exact h) | skip)

theorem Mach.sqEvent_within {m₀ : Mach} (m : Mach) (a : Nat) (mask : Word) {ps : List Part} (h₀ : m₀.within m ps)
    (hs : [Part.regs].all ps.contains = true) : m₀.within (Mach.sqEvent m a mask) ps := by
  refine Mach.within_step h₀ ?_ hs
  clear h₀ hs
  unfold Mach.sqEvent
  try dsimp only
  repeat' first
    | with_reducible assumption
    | with_reducible exact Mach.within_refl _ _
    | decide
    | with_reducible apply Mach.flushSeq_within
    | with_reducible apply Mach.setReg_within
    | with_reducible apply Mach.unclear_within
    | with_reducible apply Mach.within_ite
    | with_reducible apply Mach.within_ite2
    | (with_reducible apply Mach.within_fst; assumption)
    | (with_reducible apply Mach.within_left; assumption)
    | (with_reducible apply Mach.within_mid; assumption)
    | dsimp only
    | split
    | ((simp only [Mach.within_mk_eq]; with_reducible apply Mach.withinMk_of) <;> first | exact Or.inr rfl | with_reducible exact Or.inl rfl | with_reducible rfl | with_reducible exact fun h => h | (intro h; simpa [length_listUpd] using h) | (intro h; split <;> exact h) | skip)

theorem Mach.sqBit_within {m₀ : Mach} (m : Mach) (a i : Nat) {ps : List Part} (h₀ : m₀.within m ps)
    (hs : [Part.regs].all ps.contains = true) : m₀.within (Mach.sqBit m a i) ps := by
  refine Mach.within_step h₀ ?_ hs
  clear h₀ hs
  unfold Mach.sqBit
  try dsimp only
  repeat' first
    | with_reducible assumption
    | with_reducible exact Mach.within_refl _ _
    | decide
    | with_reducible apply Mach.sqEvent_within

theorem Mach.countN_within {m₀ : Mach} (m : Mach) (a n : Nat) {ps : List Part} (h₀ : m₀.within m ps)
    (hs : [Part.regs].all ps.contains = true) : m₀.within (Mach.countN m a n) ps := by
  refine Mach.within_step h₀ ?_ hs
  clear h₀ hs
  unfold Mach.countN
  try dsimp only
  repeat' first
    | with_reducible assumption
    | with_reducible exact Mach.within_refl _ _
    | decide
    | with_reducible apply Mach.setReg_within
    | with_reducible apply Mach.unclear_within
    | with_reducible apply Mach.within_ite
    | with_reducible apply Mach.within_ite2

theorem Mach.count_within {m₀ : Mach} (m : Mach) (a : Nat) {ps : List Part} (h₀ : m₀.within m ps)
    (hs : [Part.regs].all ps.contains = true) : m₀.within (Mach.count m a) ps := by
  refine Mach.within_step h₀ ?_ hs
  clear h₀ hs
  unfold Mach.count
  try dsimp only
  repeat' first
    | with_reducible assumption
    | with_reducible exact Mach.within_refl _ _
    | decide
    | with_reducible apply Mach.countN_within

theorem Mach.flushInt_within {m₀ : Mach} (m : Mach) (p : Port) {ps : List Part} (h₀ : m₀.within m ps)
    (hs : [Part.regs, Part.pa, Part.pb].all ps.contains = true) : m₀.within (Mach.flushInt m p) ps := by
  refine Mach.within_step h₀ ?_ hs
  clear h₀ hs
  unfold Mach.flushInt
  try dsimp only
  repeat' first
    | with_reducible assumption
    | with_reducible exact Mach.within_refl _ _
    | decide
    | with_reducible apply Mach.setReg_within
    | with_reducible apply Mach.updPort_within
    | with_reducible apply Mach.within_ite
    | with_reducible apply Mach.within_ite2

theorem Mach.intEvent_within {m₀ : Mach} (m : Mach) (p : Port) (mask : Word) {ps : List Part} (h₀ : m₀.within m ps)
    (hs : [Part.regs, Part.pa, Part.pb].all ps.contains = true) : m₀.within (Mach.intEvent m p mask) ps := by
  refine Mach.within_step h₀ ?_ hs
  clear h₀ hs
  unfold Mach.intEvent
  try dsimp only
  repeat' first
    | with_reducible assumption
    | with_reducible exact Mach.within_refl _ _
    | decide
    | with_reducible apply Mach.flushInt_within
    | with_reducible apply Mach.setReg_within
    | with_reducible apply Mach.unclear_within
    | with_reducible apply Mach.updPort_within
    | with_reducible apply Mach.within_ite
    | with_reducible apply Mach.within_ite2

theorem Mach.intBit_within {m₀ : Mach} (m : Mach) (p : Port) (i : Nat) {ps : List Part} (h₀ : m₀.within m ps)
    (hs : [Part.regs, Part.pa, Part.pb].all ps.contains = true) : m₀.within (Mach.intBit m p i) ps := by
  refine Mach.within_step h₀ ?_ hs
  clear h₀ hs
  unfold Mach.intBit
  try dsimp only
  repeat' first
    | with_reducible assumption
    | with_reducible exact Mach.within_refl _ _
    | decide
    | with_reducible apply Mach.intEvent_within

theorem Mach.intBoth_within {m₀ : Mach} (m : Mach) (i : Nat) {ps : List Part} (h₀ : m₀.within m ps)
    (hs : [Part.regs, Part.pa, Part.pb].all ps.contains = true) : m₀.within (Mach.intBoth m i) ps := by
  refine Mach.within_step h₀ ?_ hs
  clear h₀ hs
  unfold Mach.intBoth
  try dsimp only
  repeat' first
    | with_reducible assumption
    | with_reducible exact Mach.within_refl _ _
    | decide
    | with_reducible apply Mach.intBit_within

theorem Mach.intPins_within {m₀ : Mach} (m : Mach) {ps : List Part} (h₀ : m₀.within m ps)
    (hs : [Part.pa, Part.pb].all ps.contains = true) : m₀.within (Mach.intPins m) ps := by
  refine Mach.within_step h₀ ?_ hs
  clear h₀ hs
  unfold Mach.intPins
  try dsimp only
  repeat' first
    | with_reducible assumption
    | with_reducible exact Mach.within_refl _ _
    | decide
    | ((simp only [Mach.within_mk_eq]; with_reducible apply Mach.withinMk_of) <;> first | exact Or.inr rfl | with_reducible exact Or.inl rfl | with_reducible rfl | with_reducible exact fun h => h | (intro h; simpa [length_listUpd] using h) | (intro h; split <;> exact h) | skip)

theorem Mach.statusClear_within {m₀ : Mach} (m : Mach) (byPort : Option Port) (a : Nat) (sq w : Word) {ps : List Part} (h₀ : m₀.within m ps)
    (hs : [Part.regs, Part.pa, Part.pb].all ps.contains = true) : m₀.within (Mach.statusClear m byPort a sq w).2 ps := by
  refine Mach.within_step h₀ ?_ hs
  clear h₀ hs
  unfold Mach.statusClear
  try dsimp only
  repeat' first
    | with_reducible assumption
    | with_reducible exact Mach.within_refl _ _
    | decide
    | with_reducible apply Mach.flushInt_within
    | with_reducible apply Mach.flushSeq_within
    | with_reducible apply Mach.noteClear_within
    | with_reducible apply Mach.setReg_within
    | with_reducible apply Mach.within_ite
    | with_reducible apply Mach.within_ite2

theorem Mach.counterClear_within {m₀ : Mach} (m : Mach) (byPort : Option Port) (a : Nat) (w : Word) {ps : List Part} (h₀ : m₀.within m ps)
    (hs : [Part.regs].all ps.contains = true) : m₀.within (Mach.counterClear m byPort a w).2 ps := by
  refine Mach.within_step h₀ ?_ hs
  clear h₀ hs
  unfold Mach.counterClear
  try dsimp only
  repeat' first
    | with_reducible assumption
    | with_reducible exact Mach.within_refl _ _
    | decide
    | with_reducible apply Mach.noteClear_within
    | with_reducible apply Mach.setReg_within
    | with_reducible apply Mach.within_ite
    | with_reducible apply Mach.within_ite2

theorem Mach.noteAccess_within {m₀ : Mach} (m : Mach) (ag : Agent) (code addr : Nat) {ps : List Part} (h₀ : m₀.within m ps)
    (hs : [Part.regs].all ps.contains = true) : m₀.within (Mach.noteAccess m ag code addr) ps := by
  refine Mach.within_step h₀ ?_ hs
  clear h₀ hs
  unfold Mach.noteAccess
  try dsimp only
  repeat' first
    | with_reducible assumption
    | with_reducible exact Mach.within_refl _ _
    | decide
    | with_reducible apply Mach.setReg_within
    | with_reducible apply Mach.within_ite
    | with_reducible apply Mach.within_ite2
    | (with_reducible apply Mach.within_fst; assumption)
    | (with_reducible apply Mach.within_left; assumption)
    | (with_reducible apply Mach.within_mid; assumption)
    | dsimp only
    | split

theorem Mach.touch_within {m₀ : Mach} (m : Mach) (b : Nat) {ps : List Part} (h₀ : m₀.within m ps)
    (hs : [Part.regs].all ps.contains = true) : m₀.within (Mach.touch m b) ps := by
  refine Mach.within_step h₀ ?_ hs
  clear h₀ hs
  unfold Mach.touch
  try dsimp only
  repeat' first
    | with_reducible assumption
    | with_reducible exact Mach.within_refl _ _
    | decide
    | ((simp only [Mach.within_mk_eq]; with_reducible apply Mach.withinMk_of) <;> first | exact Or.inr rfl | with_reducible exact Or.inl rfl | with_reducible rfl | with_reducible exact fun h => h | (intro h; simpa [length_listUpd] using h) | (intro h; split <;> exact h) | skip)

theorem Mach.semClaim_within {m₀ : Mach} (m : Mach) (p : Port) (bits : BitVec 16) {ps : List Part} (h₀ : m₀.within m ps)
    (hs : [Part.pa, Part.pb].all ps.contains = true) : m₀.within (Mach.semClaim m p bits).2 ps := by
  refine Mach.within_step h₀ ?_ hs
  clear h₀ hs
  unfold Mach.semClaim
  try dsimp only
  repeat' first
    | with_reducible assumption
    | with_reducible exact Mach.within_refl _ _
    | decide
    | with_reducible apply Mach.updPort_within
    | with_reducible apply Mach.within_ite
    | with_reducible apply Mach.within_ite2

theorem Mach.semRelease_within {m₀ : Mach} (m : Mach) (p : Port) (bits : BitVec 16) {ps : List Part} (h₀ : m₀.within m ps)
    (hs : [Part.pa, Part.pb].all ps.contains = true) : m₀.within (Mach.semRelease m p bits) ps := by
  refine Mach.within_step h₀ ?_ hs
  clear h₀ hs
  unfold Mach.semRelease
  try dsimp only
  repeat' first
    | with_reducible assumption
    | with_reducible exact Mach.within_refl _ _
    | decide
    | with_reducible apply Mach.updPort_within

end Sys2Proof.Machine
end

