-- ==== Sys2Proof/Laws/WithinQueue.lean ====
section
/-! SUPPORT. The reach of every operation of Machine/Queue.lean. -/

set_option linter.unusedTactic false
set_option linter.unusedSimpArgs false
set_option linter.unusedVariables false
set_option linter.unreachableTactic false
set_option linter.unnecessarySimpa false

namespace Sys2Proof.Machine

theorem Mach.updQ_within {m₀ : Mach} (m : Mach) (q : Nat) (f : Queue → Queue) {ps : List Part} (h₀ : m₀.within m ps)
    (hs : [Part.buf].all ps.contains = true) : m₀.within (Mach.updQ m q f) ps := by
  refine Mach.within_step h₀ ?_ hs
  clear h₀ hs
  unfold Mach.updQ
  try dsimp only
  repeat' first
    | with_reducible assumption
    | with_reducible exact Mach.within_refl _ _
    | decide
    | ((simp only [Mach.within_mk_eq]; with_reducible apply Mach.withinMk_of) <;> first | exact Or.inr rfl | with_reducible exact Or.inl rfl | with_reducible rfl | with_reducible exact fun h => h | (intro h; simpa [length_listUpd] using h) | (intro h; split <;> exact h) | skip)

theorem Mach.qStat_within {m₀ : Mach} (m : Mach) (q i : Nat) {ps : List Part} (h₀ : m₀.within m ps)
    (hs : [Part.regs].all ps.contains = true) : m₀.within (Mach.qStat m q i) ps := by
  refine Mach.within_step h₀ ?_ hs
  clear h₀ hs
  unfold Mach.qStat
  try dsimp only
  repeat' first
    | with_reducible assumption
    | with_reducible exact Mach.within_refl _ _
    | decide
    | with_reducible apply Mach.sqBit_within

theorem Mach.intDrains_within {m₀ : Mach} (m : Mach) (q i : Nat) {ps : List Part} (h₀ : m₀.within m ps)
    (hs : [Part.regs, Part.pa, Part.pb].all ps.contains = true) : m₀.within (Mach.intDrains m q i) ps := by
  refine Mach.within_step h₀ ?_ hs
  clear h₀ hs
  unfold Mach.intDrains
  try dsimp only
  repeat' first
    | with_reducible assumption
    | with_reducible exact Mach.within_refl _ _
    | decide
    | with_reducible apply Mach.intBit_within
    | with_reducible apply Mach.within_ite
    | with_reducible apply Mach.within_ite2

theorem Mach.updGrp_within {m₀ : Mach} (m : Mach) (g : Nat) (f : GroupState → GroupState) {ps : List Part} (h₀ : m₀.within m ps)
    (hs : [Part.flt].all ps.contains = true) : m₀.within (Mach.updGrp m g f) ps := by
  refine Mach.within_step h₀ ?_ hs
  clear h₀ hs
  unfold Mach.updGrp
  try dsimp only
  repeat' first
    | with_reducible assumption
    | with_reducible exact Mach.within_refl _ _
    | decide
    | ((simp only [Mach.within_mk_eq]; with_reducible apply Mach.withinMk_of) <;> first | exact Or.inr rfl | with_reducible exact Or.inl rfl | with_reducible rfl | with_reducible exact fun h => h | (intro h; simpa [length_listUpd] using h) | (intro h; split <;> exact h) | skip)

theorem Mach.oweTiming_within {m₀ : Mach} (m : Mach) (g r : Nat) {ps : List Part} (h₀ : m₀.within m ps)
    (hs : [Part.flt].all ps.contains = true) : m₀.within (Mach.oweTiming m g r) ps := by
  refine Mach.within_step h₀ ?_ hs
  clear h₀ hs
  unfold Mach.oweTiming
  try dsimp only
  repeat' first
    | with_reducible assumption
    | with_reducible exact Mach.within_refl _ _
    | decide
    | with_reducible apply Mach.updGrp_within
    | (with_reducible apply Mach.within_fst; assumption)
    | (with_reducible apply Mach.within_left; assumption)
    | (with_reducible apply Mach.within_mid; assumption)
    | dsimp only
    | split

theorem Mach.dropStores_within {m₀ : Mach} (m : Mach) (f : Nat → Nat → Bool) {ps : List Part} (h₀ : m₀.within m ps)
    (hs : [Part.pa, Part.pb].all ps.contains = true) : m₀.within (Mach.dropStores m f) ps := by
  refine Mach.within_step h₀ ?_ hs
  clear h₀ hs
  unfold Mach.dropStores
  try dsimp only
  repeat' first
    | with_reducible assumption
    | with_reducible exact Mach.within_refl _ _
    | decide
    | ((simp only [Mach.within_mk_eq]; with_reducible apply Mach.withinMk_of) <;> first | exact Or.inr rfl | with_reducible exact Or.inl rfl | with_reducible rfl | with_reducible exact fun h => h | (intro h; simpa [length_listUpd] using h) | (intro h; split <;> exact h) | skip)

theorem Mach.emptyStores_within {m₀ : Mach} (m : Mach) {ps : List Part} (h₀ : m₀.within m ps)
    (hs : [Part.pa, Part.pb].all ps.contains = true) : m₀.within (Mach.emptyStores m) ps := by
  refine Mach.within_step h₀ ?_ hs
  clear h₀ hs
  unfold Mach.emptyStores
  try dsimp only
  repeat' first
    | with_reducible assumption
    | with_reducible exact Mach.within_refl _ _
    | decide
    | ((simp only [Mach.within_mk_eq]; with_reducible apply Mach.withinMk_of) <;> first | exact Or.inr rfl | with_reducible exact Or.inl rfl | with_reducible rfl | with_reducible exact fun h => h | (intro h; simpa [length_listUpd] using h) | (intro h; split <;> exact h) | skip)

theorem Mach.passStores_within {m₀ : Mach} (m : Mach) (q : Nat) {ps : List Part} (h₀ : m₀.within m ps)
    (hs : [Part.pa, Part.pb].all ps.contains = true) : m₀.within (Mach.passStores m q) ps := by
  refine Mach.within_step h₀ ?_ hs
  clear h₀ hs
  unfold Mach.passStores
  try dsimp only
  repeat' first
    | with_reducible assumption
    | with_reducible exact Mach.within_refl _ _
    | decide
    | with_reducible apply Mach.dropStores_within

theorem Mach.movedBy_within {m₀ : Mach} (m : Mach) (q : Nat) {ps : List Part} (h₀ : m₀.within m ps)
    (hs : [Part.regs, Part.pa, Part.pb].all ps.contains = true) : m₀.within (Mach.movedBy m q) ps := by
  refine Mach.within_step h₀ ?_ hs
  clear h₀ hs
  unfold Mach.movedBy
  try dsimp only
  repeat' first
    | with_reducible assumption
    | with_reducible exact Mach.within_refl _ _
    | decide
    | with_reducible apply Mach.passStores_within
    | with_reducible apply Mach.qStat_within
    | with_reducible apply Mach.updPort_within

theorem Mach.discardOldest_within {m₀ : Mach} (m : Mach) (q : Nat) (armed : Bool) {ps : List Part} (h₀ : m₀.within m ps)
    (hs : [Part.regs, Part.pa, Part.pb, Part.buf].all ps.contains = true) : m₀.within (Mach.discardOldest m q armed) ps := by
  refine Mach.within_step h₀ ?_ hs
  clear h₀ hs
  unfold Mach.discardOldest
  try dsimp only
  repeat' first
    | with_reducible assumption
    | with_reducible exact Mach.within_refl _ _
    | decide
    | with_reducible apply Mach.movedBy_within
    | with_reducible apply Mach.qStat_within
    | with_reducible apply Mach.updQ_within
    | with_reducible apply Mach.within_ite
    | with_reducible apply Mach.within_ite2
    | (with_reducible apply Mach.within_fst; assumption)
    | (with_reducible apply Mach.within_left; assumption)
    | (with_reducible apply Mach.within_mid; assumption)
    | dsimp only
    | split

theorem Mach.discardDown_within {m₀ : Mach} (m : Mach) (q n : Nat) (x0 : Nat) {ps : List Part} (h₀ : m₀.within m ps)
    (hs : [Part.regs, Part.pa, Part.pb, Part.buf].all ps.contains = true) : m₀.within (Mach.discardDown m q n x0) ps := by
  refine Mach.within_step h₀ ?_ hs
  clear h₀ hs
  induction x0 generalizing m q n with
  | zero =>
    unfold Mach.discardDown
    try dsimp only
    repeat' first
      | with_reducible assumption
      | with_reducible exact Mach.within_refl _ _
      | decide
      | with_reducible apply Mach.discardOldest_within
      | with_reducible apply Mach.within_ite
      | with_reducible apply Mach.within_ite2
      | (with_reducible apply Mach.within_fst; assumption)
      | (with_reducible apply Mach.within_left; assumption)
      | (with_reducible apply Mach.within_mid; assumption)
      | dsimp only
      | split

  | succ k ih =>
    unfold Mach.discardDown
    try dsimp only
    repeat' first
      | with_reducible assumption
      | with_reducible exact Mach.within_refl _ _
      | decide
      | with_reducible apply Mach.within_then (ih _ _ _)
      | with_reducible apply Mach.discardOldest_within
      | with_reducible apply Mach.within_ite
      | with_reducible apply Mach.within_ite2
      | (with_reducible apply Mach.within_fst; assumption)
      | (with_reducible apply Mach.within_left; assumption)
      | (with_reducible apply Mach.within_mid; assumption)
      | dsimp only
      | split

theorem Mach.reserve_within {m₀ : Mach} (m : Mach) (q : Nat) {ps : List Part} (h₀ : m₀.within m ps)
    (hs : [Part.nv].all ps.contains = true) : m₀.within (Mach.reserve m q) ps := by
  refine Mach.within_step h₀ ?_ hs
  clear h₀ hs
  unfold Mach.reserve
  try dsimp only
  repeat' first
    | with_reducible assumption
    | with_reducible exact Mach.within_refl _ _
    | decide
    | with_reducible apply Mach.within_ite
    | with_reducible apply Mach.within_ite2
    | ((simp only [Mach.within_mk_eq]; with_reducible apply Mach.withinMk_of) <;> first | exact Or.inr rfl | with_reducible exact Or.inl rfl | with_reducible rfl | with_reducible exact fun h => h | (intro h; simpa [length_listUpd] using h) | (intro h; split <;> exact h) | skip)

theorem Mach.enterFull_within {m₀ : Mach} (m : Mach) (q : Nat) {ps : List Part} (h₀ : m₀.within m ps)
    (hs : [Part.regs, Part.buf].all ps.contains = true) : m₀.within (Mach.enterFull m q) ps := by
  refine Mach.within_step h₀ ?_ hs
  clear h₀ hs
  unfold Mach.enterFull
  try dsimp only
  repeat' first
    | with_reducible assumption
    | with_reducible exact Mach.within_refl _ _
    | decide
    | with_reducible apply Mach.qStat_within
    | with_reducible apply Mach.updQ_within

theorem Mach.captureClose_within {m₀ : Mach} (m : Mach) (q : Nat) (trig capt isSeal : Bool) {ps : List Part} (h₀ : m₀.within m ps)
    (hs : [Part.regs, Part.buf].all ps.contains = true) : m₀.within (Mach.captureClose m q trig capt isSeal) ps := by
  refine Mach.within_step h₀ ?_ hs
  clear h₀ hs
  unfold Mach.captureClose
  try dsimp only
  repeat' first
    | with_reducible assumption
    | with_reducible exact Mach.within_refl _ _
    | decide
    | with_reducible apply Mach.qStat_within
    | with_reducible apply Mach.updQ_within
    | with_reducible apply Mach.within_ite
    | with_reducible apply Mach.within_ite2

theorem Mach.watermark_within {m₀ : Mach} (m : Mach) (q before : Nat) {ps : List Part} (h₀ : m₀.within m ps)
    (hs : [Part.regs, Part.pa, Part.pb].all ps.contains = true) : m₀.within (Mach.watermark m q before) ps := by
  refine Mach.within_step h₀ ?_ hs
  clear h₀ hs
  unfold Mach.watermark
  try dsimp only
  repeat' first
    | with_reducible assumption
    | with_reducible exact Mach.within_refl _ _
    | decide
    | with_reducible apply Mach.intDrains_within
    | with_reducible apply Mach.qStat_within
    | with_reducible apply Mach.within_ite
    | with_reducible apply Mach.within_ite2

theorem Mach.closeWith_within {m₀ : Mach} (m : Mach) (q : Nat) (isSeal : Bool) (firstTs : Nat) (trig capt filled : Bool) (payload : List Word) {ps : List Part} (h₀ : m₀.within m ps)
    (hs : [Part.regs, Part.pa, Part.pb, Part.buf, Part.sec, Part.nv].all ps.contains = true) : m₀.within (Mach.closeWith m q isSeal firstTs trig capt filled payload) ps := by
  refine Mach.within_step h₀ ?_ hs
  clear h₀ hs
  unfold Mach.closeWith
  try dsimp only
  repeat' first
    | with_reducible assumption
    | with_reducible exact Mach.within_refl _ _
    | decide
    | with_reducible apply Mach.captureClose_within
    | with_reducible apply Mach.discardDown_within
    | with_reducible apply Mach.discardOldest_within
    | with_reducible apply Mach.enterFull_within
    | with_reducible apply Mach.reserve_within
    | with_reducible apply Mach.updQ_within
    | with_reducible apply Mach.watermark_within
    | with_reducible apply Mach.within_ite
    | with_reducible apply Mach.within_ite2
    | ((simp only [Mach.within_mk_eq]; with_reducible apply Mach.withinMk_of) <;> first | exact Or.inr rfl | with_reducible exact Or.inl rfl | with_reducible rfl | with_reducible exact fun h => h | (intro h; simpa [length_listUpd] using h) | (intro h; split <;> exact h) | skip)

theorem Mach.closeOpen_within {m₀ : Mach} (m : Mach) (q : Nat) (filled : Bool) {ps : List Part} (h₀ : m₀.within m ps)
    (hs : [Part.regs, Part.pa, Part.pb, Part.buf, Part.sec, Part.nv].all ps.contains = true) : m₀.within (Mach.closeOpen m q filled) ps := by
  refine Mach.within_step h₀ ?_ hs
  clear h₀ hs
  unfold Mach.closeOpen
  try dsimp only
  repeat' first
    | with_reducible assumption
    | with_reducible exact Mach.within_refl _ _
    | decide
    | with_reducible apply Mach.closeWith_within
    | with_reducible apply Mach.updQ_within
    | (with_reducible apply Mach.within_fst; assumption)
    | (with_reducible apply Mach.within_left; assumption)
    | (with_reducible apply Mach.within_mid; assumption)
    | dsimp only
    | split

theorem Mach.closeAll_within {m₀ : Mach} (m : Mach) {ps : List Part} (h₀ : m₀.within m ps)
    (hs : [Part.regs, Part.pa, Part.pb, Part.buf, Part.sec, Part.nv].all ps.contains = true) : m₀.within (Mach.closeAll m) ps := by
  refine Mach.within_step h₀ ?_ hs
  clear h₀ hs
  unfold Mach.closeAll
  try dsimp only
  repeat' first
    | with_reducible assumption
    | with_reducible exact Mach.within_refl _ _
    | decide
    | with_reducible apply Mach.closeOpen_within
    | with_reducible apply Mach.within_fold
    | (intro k x hk; try dsimp only)

theorem Mach.openBlock_within {m₀ : Mach} (m : Mach) (q : Nat) {ps : List Part} (h₀ : m₀.within m ps)
    (hs : [Part.flt, Part.buf].all ps.contains = true) : m₀.within (Mach.openBlock m q) ps := by
  refine Mach.within_step h₀ ?_ hs
  clear h₀ hs
  unfold Mach.openBlock
  try dsimp only
  repeat' first
    | with_reducible assumption
    | with_reducible exact Mach.within_refl _ _
    | decide
    | with_reducible apply Mach.updGrp_within
    | with_reducible apply Mach.updQ_within
    | with_reducible apply Mach.within_ite
    | with_reducible apply Mach.within_ite2
    | with_reducible apply Mach.within_fold
    | (intro k x hk; try dsimp only)
    | (with_reducible apply Mach.within_fst; assumption)
    | (with_reducible apply Mach.within_left; assumption)
    | (with_reducible apply Mach.within_mid; assumption)
    | dsimp only
    | split

theorem Mach.writeWord_within {m₀ : Mach} (m : Mach) (q : Nat) (w : Word) {ps : List Part} (h₀ : m₀.within m ps)
    (hs : [Part.regs, Part.pa, Part.pb, Part.flt, Part.buf, Part.sec, Part.nv].all ps.contains = true) : m₀.within (Mach.writeWord m q w).1 ps := by
  refine Mach.within_step h₀ ?_ hs
  clear h₀ hs
  unfold Mach.writeWord
  try dsimp only
  repeat' first
    | with_reducible assumption
    | with_reducible exact Mach.within_refl _ _
    | decide
    | with_reducible apply Mach.closeOpen_within
    | with_reducible apply Mach.openBlock_within
    | with_reducible apply Mach.updQ_within
    | with_reducible apply Mach.within_ite
    | with_reducible apply Mach.within_ite1
    | with_reducible apply Mach.within_ite2
    | (with_reducible apply Mach.within_fst; assumption)
    | (with_reducible apply Mach.within_left; assumption)
    | (with_reducible apply Mach.within_mid; assumption)
    | dsimp only
    | split

theorem Mach.blockTimeout_within {m₀ : Mach} (m : Mach) (q : Nat) {ps : List Part} (h₀ : m₀.within m ps)
    (hs : [Part.regs, Part.pa, Part.pb, Part.buf, Part.sec, Part.nv].all ps.contains = true) : m₀.within (Mach.blockTimeout m q) ps := by
  refine Mach.within_step h₀ ?_ hs
  clear h₀ hs
  unfold Mach.blockTimeout
  try dsimp only
  repeat' first
    | with_reducible assumption
    | with_reducible exact Mach.within_refl _ _
    | decide
    | with_reducible apply Mach.closeOpen_within
    | with_reducible apply Mach.within_ite
    | with_reducible apply Mach.within_ite2
    | (with_reducible apply Mach.within_fst; assumption)
    | (with_reducible apply Mach.within_left; assumption)
    | (with_reducible apply Mach.within_mid; assumption)
    | dsimp only
    | split

theorem Mach.discCount_within {m₀ : Mach} (m : Mach) (q n : Nat) {ps : List Part} (h₀ : m₀.within m ps)
    (hs : [Part.regs, Part.buf].all ps.contains = true) : m₀.within (Mach.discCount m q n) ps := by
  refine Mach.within_step h₀ ?_ hs
  clear h₀ hs
  unfold Mach.discCount
  try dsimp only
  repeat' first
    | with_reducible assumption
    | with_reducible exact Mach.within_refl _ _
    | decide
    | with_reducible apply Mach.countN_within
    | with_reducible apply Mach.updQ_within
    | with_reducible apply Mach.within_ite
    | with_reducible apply Mach.within_ite2

theorem Mach.discardWords_within {m₀ : Mach} (m : Mach) (q n : Nat) {ps : List Part} (h₀ : m₀.within m ps)
    (hs : [Part.regs, Part.buf].all ps.contains = true) : m₀.within (Mach.discardWords m q n) ps := by
  refine Mach.within_step h₀ ?_ hs
  clear h₀ hs
  unfold Mach.discardWords
  try dsimp only
  repeat' first
    | with_reducible assumption
    | with_reducible exact Mach.within_refl _ _
    | decide
    | with_reducible apply Mach.count_within
    | with_reducible apply Mach.discCount_within
    | with_reducible apply Mach.qStat_within
    | with_reducible apply Mach.updQ_within
    | with_reducible apply Mach.within_ite
    | with_reducible apply Mach.within_ite2
    | (with_reducible apply Mach.within_fst; assumption)
    | (with_reducible apply Mach.within_left; assumption)
    | (with_reducible apply Mach.within_mid; assumption)
    | dsimp only
    | split

theorem Mach.makeRoom_within {m₀ : Mach} (m : Mach) (q : Nat) {ps : List Part} (h₀ : m₀.within m ps)
    (hs : [Part.regs, Part.pa, Part.pb, Part.buf].all ps.contains = true) : m₀.within (Mach.makeRoom m q) ps := by
  refine Mach.within_step h₀ ?_ hs
  clear h₀ hs
  unfold Mach.makeRoom
  try dsimp only
  repeat' first
    | with_reducible assumption
    | with_reducible exact Mach.within_refl _ _
    | decide
    | with_reducible apply Mach.discardOldest_within
    | with_reducible apply Mach.enterFull_within
    | with_reducible apply Mach.within_ite
    | with_reducible apply Mach.within_ite2

theorem Mach.offerWord_within {m₀ : Mach} (m : Mach) (q : Nat) (w : Word) {ps : List Part} (h₀ : m₀.within m ps)
    (hs : [Part.regs, Part.pa, Part.pb, Part.flt, Part.buf, Part.sec, Part.nv].all ps.contains = true) : m₀.within (Mach.offerWord m q w).1 ps := by
  refine Mach.within_step h₀ ?_ hs
  clear h₀ hs
  unfold Mach.offerWord
  try dsimp only
  repeat' first
    | with_reducible assumption
    | with_reducible exact Mach.within_refl _ _
    | decide
    | with_reducible apply Mach.discCount_within
    | with_reducible apply Mach.discardWords_within
    | with_reducible apply Mach.makeRoom_within
    | with_reducible apply Mach.oweTiming_within
    | with_reducible apply Mach.writeWord_within
    | with_reducible apply Mach.within_ite
    | with_reducible apply Mach.within_ite1
    | with_reducible apply Mach.within_ite2
    | (with_reducible apply Mach.within_fst; assumption)
    | (with_reducible apply Mach.within_left; assumption)
    | (with_reducible apply Mach.within_mid; assumption)
    | dsimp only
    | split

theorem Mach.offerList_within {m₀ : Mach} (m : Mach) (q : Nat) (x0 : List Word) {ps : List Part} (h₀ : m₀.within m ps)
    (hs : [Part.regs, Part.pa, Part.pb, Part.flt, Part.buf, Part.sec, Part.nv].all ps.contains = true) : m₀.within (Mach.offerList m q x0).1 ps := by
  refine Mach.within_step h₀ ?_ hs
  clear h₀ hs
  induction x0 generalizing m q with
  | nil =>
    unfold Mach.offerList
    try dsimp only
    repeat' first
      | with_reducible assumption
      | with_reducible exact Mach.within_refl _ _
      | decide
      | with_reducible apply Mach.offerWord_within
      | (with_reducible apply Mach.within_fst; assumption)
      | (with_reducible apply Mach.within_left; assumption)
      | (with_reducible apply Mach.within_mid; assumption)
      | dsimp only
      | split

  | cons w l ih =>
    unfold Mach.offerList
    try dsimp only
    repeat' first
      | with_reducible assumption
      | with_reducible exact Mach.within_refl _ _
      | decide
      | with_reducible apply Mach.within_then (ih _ _)
      | with_reducible apply Mach.offerWord_within
      | (with_reducible apply Mach.within_fst; assumption)
      | (with_reducible apply Mach.within_left; assumption)
      | (with_reducible apply Mach.within_mid; assumption)
      | dsimp only
      | split

theorem Mach.writeList_within {m₀ : Mach} (m : Mach) (x0 : List Word) {ps : List Part} (h₀ : m₀.within m ps)
    (hs : [Part.regs, Part.pa, Part.pb, Part.flt, Part.buf, Part.sec, Part.nv].all ps.contains = true) : m₀.within (Mach.writeList m x0).1 ps := by
  refine Mach.within_step h₀ ?_ hs
  clear h₀ hs
  induction x0 generalizing m with
  | nil =>
    unfold Mach.writeList
    try dsimp only
    repeat' first
      | with_reducible assumption
      | with_reducible exact Mach.within_refl _ _
      | decide
      | with_reducible apply Mach.writeWord_within
      | (with_reducible apply Mach.within_fst; assumption)
      | (with_reducible apply Mach.within_left; assumption)
      | (with_reducible apply Mach.within_mid; assumption)
      | dsimp only
      | split

  | cons w l ih =>
    unfold Mach.writeList
    try dsimp only
    repeat' first
      | with_reducible assumption
      | with_reducible exact Mach.within_refl _ _
      | decide
      | with_reducible apply Mach.within_then (ih _)
      | with_reducible apply Mach.writeWord_within
      | (with_reducible apply Mach.within_fst; assumption)
      | (with_reducible apply Mach.within_left; assumption)
      | (with_reducible apply Mach.within_mid; assumption)
      | dsimp only
      | split

theorem Mach.fitRecord_within {m₀ : Mach} (m : Mach) (n : Nat) {ps : List Part} (h₀ : m₀.within m ps)
    (hs : [Part.regs, Part.pa, Part.pb, Part.buf, Part.sec, Part.nv].all ps.contains = true) : m₀.within (Mach.fitRecord m n) ps := by
  refine Mach.within_step h₀ ?_ hs
  clear h₀ hs
  unfold Mach.fitRecord
  try dsimp only
  repeat' first
    | with_reducible assumption
    | with_reducible exact Mach.within_refl _ _
    | decide
    | with_reducible apply Mach.closeOpen_within
    | with_reducible apply Mach.within_ite
    | with_reducible apply Mach.within_ite2
    | (with_reducible apply Mach.within_fst; assumption)
    | (with_reducible apply Mach.within_left; assumption)
    | (with_reducible apply Mach.within_mid; assumption)
    | dsimp only
    | split

theorem Mach.takeAfter_within {m₀ : Mach} (m : Mach) (ws : List Word) {ps : List Part} (h₀ : m₀.within m ps)
    (hs : [Part.buf].all ps.contains = true) : m₀.within (Mach.takeAfter m ws).1 ps := by
  refine Mach.within_step h₀ ?_ hs
  clear h₀ hs
  unfold Mach.takeAfter
  try dsimp only
  repeat' first
    | with_reducible assumption
    | with_reducible exact Mach.within_refl _ _
    | decide
    | with_reducible apply Mach.updQ_within
    | (with_reducible apply Mach.within_fst; assumption)
    | (with_reducible apply Mach.within_left; assumption)
    | (with_reducible apply Mach.within_mid; assumption)
    | dsimp only
    | split

theorem Mach.q3Fix_within {m₀ : Mach} (m : Mach) {ps : List Part} (h₀ : m₀.within m ps)
    (hs : [Part.buf].all ps.contains = true) : m₀.within (Mach.q3Fix m) ps := by
  refine Mach.within_step h₀ ?_ hs
  clear h₀ hs
  unfold Mach.q3Fix
  try dsimp only
  repeat' first
    | with_reducible assumption
    | with_reducible exact Mach.within_refl _ _
    | decide
    | ((simp only [Mach.within_mk_eq]; with_reducible apply Mach.withinMk_of) <;> first | exact Or.inr rfl | with_reducible exact Or.inl rfl | with_reducible rfl | with_reducible exact fun h => h | (intro h; simpa [length_listUpd] using h) | (intro h; split <;> exact h) | skip)

theorem Mach.recordQ3_within {m₀ : Mach} (m : Mach) (event : Bool) (ws : List Word) {ps : List Part} (h₀ : m₀.within m ps)
    (hs : [Part.regs, Part.pa, Part.pb, Part.flt, Part.buf, Part.sec, Part.nv].all ps.contains = true) : m₀.within (Mach.recordQ3 m event ws).1 ps := by
  refine Mach.within_step h₀ ?_ hs
  clear h₀ hs
  unfold Mach.recordQ3
  try dsimp only
  repeat' first
    | with_reducible assumption
    | with_reducible exact Mach.within_refl _ _
    | decide
    | with_reducible apply Mach.discCount_within
    | with_reducible apply Mach.discardWords_within
    | with_reducible apply Mach.enterFull_within
    | with_reducible apply Mach.fitRecord_within
    | with_reducible apply Mach.makeRoom_within
    | with_reducible apply Mach.qStat_within
    | with_reducible apply Mach.sqBit_within
    | with_reducible apply Mach.takeAfter_within
    | with_reducible apply Mach.writeList_within
    | with_reducible apply Mach.within_ite
    | with_reducible apply Mach.within_ite1
    | with_reducible apply Mach.within_ite2
    | (with_reducible apply Mach.within_fst; assumption)
    | (with_reducible apply Mach.within_left; assumption)
    | (with_reducible apply Mach.within_mid; assumption)
    | dsimp only
    | split
    | ((simp only [Mach.within_mk_eq]; with_reducible apply Mach.withinMk_of) <;> first | exact Or.inr rfl | with_reducible exact Or.inl rfl | with_reducible rfl | with_reducible exact fun h => h | (intro h; simpa [length_listUpd] using h) | (intro h; split <;> exact h) | skip)

theorem Mach.gapWritten_within {m₀ : Mach} (m : Mach) (g : GapRec) {ps : List Part} (h₀ : m₀.within m ps)
    (hs : [Part.buf].all ps.contains = true) : m₀.within (Mach.gapWritten m g) ps := by
  refine Mach.within_step h₀ ?_ hs
  clear h₀ hs
  unfold Mach.gapWritten
  try dsimp only
  repeat' first
    | with_reducible assumption
    | with_reducible exact Mach.within_refl _ _
    | decide
    | with_reducible apply Mach.updQ_within
    | with_reducible apply Mach.within_ite
    | with_reducible apply Mach.within_ite2

theorem Mach.writeGap_within {m₀ : Mach} (m : Mach) (g : GapRec) {ps : List Part} (h₀ : m₀.within m ps)
    (hs : [Part.regs, Part.pa, Part.pb, Part.flt, Part.buf, Part.sec, Part.nv].all ps.contains = true) : m₀.within (Mach.writeGap m g) ps := by
  refine Mach.within_step h₀ ?_ hs
  clear h₀ hs
  unfold Mach.writeGap
  try dsimp only
  repeat' first
    | with_reducible assumption
    | with_reducible exact Mach.within_refl _ _
    | decide
    | with_reducible apply Mach.gapWritten_within
    | with_reducible apply Mach.recordQ3_within
    | with_reducible apply Mach.within_ite
    | with_reducible apply Mach.within_ite2
    | with_reducible apply Mach.within_ite1
    | with_reducible apply Mach.within_fold
    | (intro k x hk; try dsimp only)
    | (with_reducible apply Mach.within_fst; assumption)
    | (with_reducible apply Mach.within_left; assumption)
    | (with_reducible apply Mach.within_mid; assumption)
    | dsimp only
    | split

theorem Mach.flushGaps_within {m₀ : Mach} (m : Mach) {ps : List Part} (h₀ : m₀.within m ps)
    (hs : [Part.regs, Part.pa, Part.pb, Part.flt, Part.buf, Part.sec, Part.nv].all ps.contains = true) : m₀.within (Mach.flushGaps m) ps := by
  refine Mach.within_step h₀ ?_ hs
  clear h₀ hs
  unfold Mach.flushGaps
  try dsimp only
  repeat' first
    | with_reducible assumption
    | with_reducible exact Mach.within_refl _ _
    | decide
    | with_reducible apply Mach.q3Fix_within
    | with_reducible apply Mach.writeGap_within
    | with_reducible apply Mach.within_ite
    | with_reducible apply Mach.within_ite2
    | with_reducible apply Mach.within_fold
    | (intro k x hk; try dsimp only)
    | ((simp only [Mach.within_mk_eq]; with_reducible apply Mach.withinMk_of) <;> first | exact Or.inr rfl | with_reducible exact Or.inl rfl | with_reducible rfl | with_reducible exact fun h => h | (intro h; simpa [length_listUpd] using h) | (intro h; split <;> exact h) | skip)

theorem Mach.putGap_within {m₀ : Mach} (m : Mach) (g : GapRec) {ps : List Part} (h₀ : m₀.within m ps)
    (hs : [Part.regs, Part.pa, Part.pb, Part.flt, Part.buf, Part.sec, Part.nv].all ps.contains = true) : m₀.within (Mach.putGap m g) ps := by
  refine Mach.within_step h₀ ?_ hs
  clear h₀ hs
  unfold Mach.putGap
  try dsimp only
  repeat' first
    | with_reducible assumption
    | with_reducible exact Mach.within_refl _ _
    | decide
    | with_reducible apply Mach.flushGaps_within
    | with_reducible apply Mach.writeGap_within
    | with_reducible apply Mach.within_ite
    | with_reducible apply Mach.within_ite2
    | ((simp only [Mach.within_mk_eq]; with_reducible apply Mach.withinMk_of) <;> first | exact Or.inr rfl | with_reducible exact Or.inl rfl | with_reducible rfl | with_reducible exact fun h => h | (intro h; simpa [length_listUpd] using h) | (intro h; split <;> exact h) | skip)

theorem Mach.putGaps_within {m₀ : Mach} (m : Mach) (gs : List GapRec) {ps : List Part} (h₀ : m₀.within m ps)
    (hs : [Part.regs, Part.pa, Part.pb, Part.flt, Part.buf, Part.sec, Part.nv].all ps.contains = true) : m₀.within (Mach.putGaps m gs) ps := by
  refine Mach.within_step h₀ ?_ hs
  clear h₀ hs
  unfold Mach.putGaps
  try dsimp only
  repeat' first
    | with_reducible assumption
    | with_reducible exact Mach.within_refl _ _
    | decide
    | with_reducible apply Mach.putGap_within
    | with_reducible apply Mach.within_fold
    | (intro k x hk; try dsimp only)

theorem Mach.offer_within {m₀ : Mach} (m : Mach) (q : Nat) (ws : List Word) {ps : List Part} (h₀ : m₀.within m ps)
    (hs : [Part.regs, Part.pa, Part.pb, Part.flt, Part.buf, Part.sec, Part.nv].all ps.contains = true) : m₀.within (Mach.offer m q ws) ps := by
  refine Mach.within_step h₀ ?_ hs
  clear h₀ hs
  unfold Mach.offer
  try dsimp only
  repeat' first
    | with_reducible assumption
    | with_reducible exact Mach.within_refl _ _
    | decide
    | with_reducible apply Mach.offerList_within
    | with_reducible apply Mach.putGaps_within
    | (with_reducible apply Mach.within_fst; assumption)
    | (with_reducible apply Mach.within_left; assumption)
    | (with_reducible apply Mach.within_mid; assumption)
    | dsimp only
    | split

theorem Mach.gapStopped_within {m₀ : Mach} (m : Mach) (q : Nat) {ps : List Part} (h₀ : m₀.within m ps)
    (hs : [Part.regs, Part.pa, Part.pb, Part.flt, Part.buf, Part.sec, Part.nv, Part.free].all ps.contains = true) : m₀.within (Mach.gapStopped m q) ps := by
  refine Mach.within_step h₀ ?_ hs
  clear h₀ hs
  unfold Mach.gapStopped
  try dsimp only
  repeat' first
    | with_reducible assumption
    | with_reducible exact Mach.within_refl _ _
    | decide
    | with_reducible apply Mach.count_within
    | with_reducible apply Mach.drawNat_within
    | with_reducible apply Mach.putGap_within
    | with_reducible apply Mach.updQ_within
    | with_reducible apply Mach.within_ite
    | with_reducible apply Mach.within_ite2
    | (with_reducible apply Mach.within_fst; assumption)
    | (with_reducible apply Mach.within_left; assumption)
    | (with_reducible apply Mach.within_mid; assumption)
    | dsimp only
    | split

theorem Mach.oweAll_within {m₀ : Mach} (m : Mach) (q r : Nat) {ps : List Part} (h₀ : m₀.within m ps)
    (hs : [Part.flt].all ps.contains = true) : m₀.within (Mach.oweAll m q r) ps := by
  refine Mach.within_step h₀ ?_ hs
  clear h₀ hs
  unfold Mach.oweAll
  try dsimp only
  repeat' first
    | with_reducible assumption
    | with_reducible exact Mach.within_refl _ _
    | decide
    | with_reducible apply Mach.oweTiming_within
    | with_reducible apply Mach.within_fold
    | (intro k x hk; try dsimp only)

theorem Mach.oweStart_within {m₀ : Mach} (m : Mach) (q : Nat) {ps : List Part} (h₀ : m₀.within m ps)
    (hs : [Part.flt].all ps.contains = true) : m₀.within (Mach.oweStart m q) ps := by
  refine Mach.within_step h₀ ?_ hs
  clear h₀ hs
  unfold Mach.oweStart
  try dsimp only
  repeat' first
    | with_reducible assumption
    | with_reducible exact Mach.within_refl _ _
    | decide
    | with_reducible apply Mach.oweTiming_within
    | with_reducible apply Mach.within_fold
    | (intro k x hk; try dsimp only)

theorem Mach.resume_within {m₀ : Mach} (m : Mach) (q : Nat) {ps : List Part} (h₀ : m₀.within m ps)
    (hs : [Part.regs, Part.pa, Part.pb, Part.flt, Part.buf, Part.sec, Part.nv, Part.free].all ps.contains = true) : m₀.within (Mach.resume m q) ps := by
  refine Mach.within_step h₀ ?_ hs
  clear h₀ hs
  unfold Mach.resume
  try dsimp only
  repeat' first
    | with_reducible assumption
    | with_reducible exact Mach.within_refl _ _
    | decide
    | with_reducible apply Mach.gapStopped_within
    | with_reducible apply Mach.oweAll_within
    | with_reducible apply Mach.updQ_within
    | with_reducible apply Mach.within_ite
    | with_reducible apply Mach.within_ite2

theorem Mach.endRun_within {m₀ : Mach} (m : Mach) (q : Nat) {ps : List Part} (h₀ : m₀.within m ps)
    (hs : [Part.regs, Part.pa, Part.pb, Part.flt, Part.buf, Part.sec, Part.nv].all ps.contains = true) : m₀.within (Mach.endRun m q) ps := by
  refine Mach.within_step h₀ ?_ hs
  clear h₀ hs
  unfold Mach.endRun
  try dsimp only
  repeat' first
    | with_reducible assumption
    | with_reducible exact Mach.within_refl _ _
    | decide
    | with_reducible apply Mach.count_within
    | with_reducible apply Mach.putGap_within
    | with_reducible apply Mach.updQ_within
    | (with_reducible apply Mach.within_fst; assumption)
    | (with_reducible apply Mach.within_left; assumption)
    | (with_reducible apply Mach.within_mid; assumption)
    | dsimp only
    | split

theorem Mach.gapPretrim_within {m₀ : Mach} (m : Mach) (q : Nat) {ps : List Part} (h₀ : m₀.within m ps)
    (hs : [Part.regs, Part.pa, Part.pb, Part.flt, Part.buf, Part.sec, Part.nv, Part.free].all ps.contains = true) : m₀.within (Mach.gapPretrim m q) ps := by
  refine Mach.within_step h₀ ?_ hs
  clear h₀ hs
  unfold Mach.gapPretrim
  try dsimp only
  repeat' first
    | with_reducible assumption
    | with_reducible exact Mach.within_refl _ _
    | decide
    | with_reducible apply Mach.count_within
    | with_reducible apply Mach.drawNat_within
    | with_reducible apply Mach.putGap_within
    | with_reducible apply Mach.updQ_within
    | (with_reducible apply Mach.within_fst; assumption)
    | (with_reducible apply Mach.within_left; assumption)
    | (with_reducible apply Mach.within_mid; assumption)
    | dsimp only
    | split

theorem Mach.trigger_within {m₀ : Mach} (m : Mach) (q : Nat) {ps : List Part} (h₀ : m₀.within m ps)
    (hs : [Part.regs, Part.pa, Part.pb, Part.flt, Part.buf, Part.sec, Part.nv, Part.free].all ps.contains = true) : m₀.within (Mach.trigger m q) ps := by
  refine Mach.within_step h₀ ?_ hs
  clear h₀ hs
  unfold Mach.trigger
  try dsimp only
  repeat' first
    | with_reducible assumption
    | with_reducible exact Mach.within_refl _ _
    | decide
    | with_reducible apply Mach.gapPretrim_within
    | with_reducible apply Mach.qStat_within
    | with_reducible apply Mach.updQ_within
    | with_reducible apply Mach.within_ite
    | with_reducible apply Mach.within_ite2
    | (with_reducible apply Mach.within_fst; assumption)
    | (with_reducible apply Mach.within_left; assumption)
    | (with_reducible apply Mach.within_mid; assumption)
    | dsimp only
    | split

theorem Mach.rearm_within {m₀ : Mach} (m : Mach) (q : Nat) {ps : List Part} (h₀ : m₀.within m ps)
    (hs : [Part.regs, Part.pa, Part.pb, Part.flt, Part.buf, Part.sec, Part.nv, Part.free].all ps.contains = true) : m₀.within (Mach.rearm m q) ps := by
  refine Mach.within_step h₀ ?_ hs
  clear h₀ hs
  unfold Mach.rearm
  try dsimp only
  repeat' first
    | with_reducible assumption
    | with_reducible exact Mach.within_refl _ _
    | decide
    | with_reducible apply Mach.gapStopped_within
    | with_reducible apply Mach.movedBy_within
    | with_reducible apply Mach.oweAll_within
    | with_reducible apply Mach.putGap_within
    | with_reducible apply Mach.qStat_within
    | with_reducible apply Mach.updQ_within
    | with_reducible apply Mach.within_ite
    | with_reducible apply Mach.within_ite2
    | (with_reducible apply Mach.within_fst; assumption)
    | (with_reducible apply Mach.within_left; assumption)
    | (with_reducible apply Mach.within_mid; assumption)
    | dsimp only
    | split

theorem Mach.policyChange_within {m₀ : Mach} (m : Mach) (q old : Nat) {ps : List Part} (h₀ : m₀.within m ps)
    (hs : [Part.regs, Part.pa, Part.pb, Part.flt, Part.buf, Part.sec, Part.nv, Part.free].all ps.contains = true) : m₀.within (Mach.policyChange m q old) ps := by
  refine Mach.within_step h₀ ?_ hs
  clear h₀ hs
  unfold Mach.policyChange
  try dsimp only
  repeat' first
    | with_reducible assumption
    | with_reducible exact Mach.within_refl _ _
    | decide
    | with_reducible apply Mach.gapPretrim_within
    | with_reducible apply Mach.gapStopped_within
    | with_reducible apply Mach.oweAll_within
    | with_reducible apply Mach.updQ_within
    | with_reducible apply Mach.within_ite
    | with_reducible apply Mach.within_ite2

theorem Mach.releaseStaged_within {m₀ : Mach} (m : Mach) (seq : Nat) {ps : List Part} (h₀ : m₀.within m ps)
    (hs : [Part.evt].all ps.contains = true) : m₀.within (Mach.releaseStaged m seq) ps := by
  refine Mach.within_step h₀ ?_ hs
  clear h₀ hs
  unfold Mach.releaseStaged
  try dsimp only
  repeat' first
    | with_reducible assumption
    | with_reducible exact Mach.within_refl _ _
    | decide
    | (with_reducible apply Mach.within_fst; assumption)
    | (with_reducible apply Mach.within_left; assumption)
    | (with_reducible apply Mach.within_mid; assumption)
    | dsimp only
    | split
    | ((simp only [Mach.within_mk_eq]; with_reducible apply Mach.withinMk_of) <;> first | exact Or.inr rfl | with_reducible exact Or.inl rfl | with_reducible rfl | with_reducible exact fun h => h | (intro h; simpa [length_listUpd] using h) | (intro h; split <;> exact h) | skip)

theorem Mach.commitBlocks_within {m₀ : Mach} (m : Mach) (q n : Nat) {ps : List Part} (h₀ : m₀.within m ps)
    (hs : [Part.regs, Part.pa, Part.pb, Part.flt, Part.evt, Part.buf, Part.sec, Part.nv, Part.free].all ps.contains = true) : m₀.within (Mach.commitBlocks m q n) ps := by
  refine Mach.within_step h₀ ?_ hs
  clear h₀ hs
  unfold Mach.commitBlocks
  try dsimp only
  repeat' first
    | with_reducible assumption
    | with_reducible exact Mach.within_refl _ _
    | decide
    | with_reducible apply Mach.endRun_within
    | with_reducible apply Mach.passStores_within
    | with_reducible apply Mach.releaseStaged_within
    | with_reducible apply Mach.resume_within
    | with_reducible apply Mach.updQ_within
    | with_reducible apply Mach.within_ite
    | with_reducible apply Mach.within_ite2
    | (with_reducible apply Mach.within_fst; assumption)
    | (with_reducible apply Mach.within_left; assumption)
    | (with_reducible apply Mach.within_mid; assumption)
    | dsimp only
    | split

theorem Mach.realloc_within {m₀ : Mach} (m : Mach) (q : Nat) {ps : List Part} (h₀ : m₀.within m ps)
    (hs : [Part.buf].all ps.contains = true) : m₀.within (Mach.realloc m q) ps := by
  refine Mach.within_step h₀ ?_ hs
  clear h₀ hs
  unfold Mach.realloc
  try dsimp only
  repeat' first
    | with_reducible assumption
    | with_reducible exact Mach.within_refl _ _
    | decide
    | with_reducible apply Mach.updQ_within
    | (with_reducible apply Mach.within_fst; assumption)
    | (with_reducible apply Mach.within_left; assumption)
    | (with_reducible apply Mach.within_mid; assumption)
    | dsimp only
    | split

theorem Mach.applyAlloc_within {m₀ : Mach} (m : Mach) {ps : List Part} (h₀ : m₀.within m ps)
    (hs : [Part.regs, Part.pa, Part.pb, Part.flt, Part.buf, Part.sec, Part.nv, Part.free].all ps.contains = true) : m₀.within (Mach.applyAlloc m) ps := by
  refine Mach.within_step h₀ ?_ hs
  clear h₀ hs
  unfold Mach.applyAlloc
  try dsimp only
  repeat' first
    | with_reducible assumption
    | with_reducible exact Mach.within_refl _ _
    | decide
    | with_reducible apply Mach.count_within
    | with_reducible apply Mach.drawNat_within
    | with_reducible apply Mach.dropStores_within
    | with_reducible apply Mach.oweStart_within
    | with_reducible apply Mach.putGap_within
    | with_reducible apply Mach.realloc_within
    | with_reducible apply Mach.sqBit_within
    | with_reducible apply Mach.within_ite
    | with_reducible apply Mach.within_ite2
    | with_reducible apply Mach.within_fold
    | (intro k x hk; try dsimp only)
    | (with_reducible apply Mach.within_fst; assumption)
    | (with_reducible apply Mach.within_left; assumption)
    | (with_reducible apply Mach.within_mid; assumption)
    | dsimp only
    | split

theorem Mach.discardBank_within {m₀ : Mach} (m : Mach) (bank : Nat) {ps : List Part} (h₀ : m₀.within m ps)
    (hs : [Part.regs, Part.pa, Part.pb, Part.buf].all ps.contains = true) : m₀.within (Mach.discardBank m bank).2.2 ps := by
  refine Mach.within_step h₀ ?_ hs
  clear h₀ hs
  unfold Mach.discardBank
  try dsimp only
  repeat' first
    | with_reducible assumption
    | with_reducible exact Mach.within_refl _ _
    | decide
    | with_reducible apply Mach.dropStores_within
    | with_reducible apply Mach.movedBy_within
    | with_reducible apply Mach.qStat_within
    | with_reducible apply Mach.updQ_within
    | with_reducible apply Mach.within_ite
    | with_reducible apply Mach.within_ite3
    | with_reducible apply Mach.within_ite2
    | (with_reducible apply Mach.within_fst; assumption)
    | (with_reducible apply Mach.within_left; assumption)
    | (with_reducible apply Mach.within_mid; assumption)
    | dsimp only
    | split

/-- A unit of the buffer changed. -/
theorem Mach.units_within {m n : Mach} {ps : List Part} (h : m.within n ps) (hs : [Part.buf].all ps.contains = true) (a : Nat)
    (f : BufUnit → BufUnit) : m.within { n with buf := { n.buf with units := listUpd n.buf.units a f } } ps := by
  refine Mach.within_step h ⟨fun x hx => by cases x <;> simp_all [Mach.agrees], id, fun h => ?_⟩ hs
  obtain ⟨h1, h2, h3, h4, h5, h6, h7, h8⟩ := h
  exact ⟨h1, h2, h3, h4, (length_listUpd _ _ _).trans h5, h6, h7, h8⟩

theorem Mach.recordLost_within {m₀ : Mach} (m : Mach) (bank cause blocks first : Nat) {ps : List Part} (h₀ : m₀.within m ps)
    (hs : [Part.regs, Part.pa, Part.pb, Part.flt, Part.buf, Part.sec, Part.nv, Part.free].all ps.contains = true) : m₀.within (Mach.recordLost m bank cause blocks first) ps := by
  refine Mach.within_step h₀ ?_ hs
  clear h₀ hs
  unfold Mach.recordLost
  try dsimp only
  repeat' first
    | with_reducible assumption
    | with_reducible exact Mach.within_refl _ _
    | decide
    | (with_reducible apply Mach.units_within)
    | with_reducible apply Mach.count_within
    | with_reducible apply Mach.intDrains_within
    | with_reducible apply Mach.putGap_within
    | with_reducible apply Mach.resume_within
    | with_reducible apply Mach.setReg_within
    | with_reducible apply Mach.sqBit_within
    | with_reducible apply Mach.within_ite
    | with_reducible apply Mach.within_ite2
    | (with_reducible apply Mach.within_fst; assumption)
    | (with_reducible apply Mach.within_left; assumption)
    | (with_reducible apply Mach.within_mid; assumption)
    | dsimp only
    | split
    | ((simp only [Mach.within_mk_eq]; with_reducible apply Mach.withinMk_of) <;> first | exact Or.inr rfl | with_reducible exact Or.inl rfl | with_reducible rfl | with_reducible exact fun h => h | (intro h; simpa [length_listUpd] using h) | (intro h; split <;> exact h) | skip)

end Sys2Proof.Machine
end

