-- ==== Sys2Proof/Laws/WithinEvents.lean ====
section
/-! SUPPORT. The reach of every operation of Machine/Events.lean. -/

set_option linter.unusedTactic false
set_option linter.unusedSimpArgs false
set_option linter.unusedVariables false
set_option linter.unreachableTactic false
set_option linter.unnecessarySimpa false

namespace Sys2Proof.Machine

theorem Mach.updEng_within {m₀ : Mach} (m : Mach) (n : Nat) (f : Eng → Eng) {ps : List Part} (h₀ : m₀.within m ps)
    (hf : ∀ e : Eng, e.ctxs.length = 8 → (f e).ctxs.length = 8) (hs : [Part.eng].all ps.contains = true) :
    m₀.within (Mach.updEng m n f) ps := by
  refine Mach.within_step h₀ ?_ hs
  refine ⟨fun x hx => by cases x <;> simp_all [Mach.agrees, Mach.updEng], fun h => h, fun h => ?_⟩
  obtain ⟨h1, h2, h3, h4, h5, h6, h7, h8⟩ := h
  exact ⟨h1, h2, h3, h4, h5, by simpa [Mach.updEng, length_listUpd] using h6, forall_listUpd _ _ _ hf h7, h8⟩

theorem Mach.updCtx_within {m₀ : Mach} (m : Mach) (n c : Nat) (f : Ctx → Ctx) {ps : List Part} (h₀ : m₀.within m ps)
    (hs : [Part.eng].all ps.contains = true) : m₀.within (Mach.updCtx m n c f) ps := by
  refine Mach.within_step h₀ ?_ hs
  clear h₀ hs
  unfold Mach.updCtx
  try dsimp only
  repeat' first
    | with_reducible assumption
    | with_reducible exact Mach.within_refl _ _
    | decide
    | with_reducible apply Mach.updEng_within
    | (intro e he; with_reducible exact he)
    | (intro e he; simpa [length_listUpd] using he)
    | (intro e he; split <;> first | exact he | simpa [length_listUpd] using he)

theorem Mach.txdWrite_within {m₀ : Mach} (m : Mach) (n c : Nat) (w : Word) {ps : List Part} (h₀ : m₀.within m ps)
    (hs : [Part.eng].all ps.contains = true) : m₀.within (Mach.txdWrite m n c w).2 ps := by
  refine Mach.within_step h₀ ?_ hs
  clear h₀ hs
  unfold Mach.txdWrite
  try dsimp only
  repeat' first
    | with_reducible assumption
    | with_reducible exact Mach.within_refl _ _
    | decide
    | with_reducible apply Mach.updCtx_within
    | with_reducible apply Mach.within_ite
    | with_reducible apply Mach.within_ite2

theorem Mach.irqSet_within {m₀ : Mach} (m : Mach) (mask : Nat) {ps : List Part} (h₀ : m₀.within m ps)
    (hs : [Part.eng].all ps.contains = true) : m₀.within (Mach.irqSet m mask) ps := by
  refine Mach.within_step h₀ ?_ hs
  clear h₀ hs
  unfold Mach.irqSet
  refine ⟨fun x hx => by cases x <;> simp_all [Mach.agrees], fun h => h, fun h => ?_⟩
  obtain ⟨h1, h2, h3, h4, h5, h6, h7, h8⟩ := h
  refine ⟨h1, h2, h3, h4, h5, by simpa using h6, fun e he => ?_, h8⟩
  obtain ⟨x, hx, rfl⟩ := List.mem_map.mp he
  have := h7 x.1 (List.fst_mem_of_mem_zipIdx hx)
  split <;> exact this

theorem Mach.writeRec_within {m₀ : Mach} (m : Mach) (r : Rec) {ps : List Part} (h₀ : m₀.within m ps)
    (hs : [Part.regs, Part.pa, Part.pb, Part.flt, Part.buf, Part.sec, Part.nv].all ps.contains = true) : m₀.within (Mach.writeRec m r).1 ps := by
  refine Mach.within_step h₀ ?_ hs
  clear h₀ hs
  unfold Mach.writeRec
  try dsimp only
  repeat' first
    | with_reducible assumption
    | with_reducible exact Mach.within_refl _ _
    | decide
    | with_reducible apply Mach.recordQ3_within
    | with_reducible apply Mach.within_ite
    | with_reducible apply Mach.within_ite1
    | with_reducible apply Mach.within_ite2
    | with_reducible apply Mach.within_fold
    | (intro k x hk; try dsimp only)
    | (with_reducible apply Mach.within_fst; assumption)
    | (with_reducible apply Mach.within_left; assumption)
    | (with_reducible apply Mach.within_mid; assumption)
    | dsimp only
    | split

theorem Mach.writeHeld_within {m₀ : Mach} (m : Mach) (r : Rec) {ps : List Part} (h₀ : m₀.within m ps)
    (hs : [Part.regs, Part.pa, Part.pb, Part.flt, Part.evt, Part.buf, Part.sec, Part.nv].all ps.contains = true) : m₀.within (Mach.writeHeld m r) ps := by
  refine Mach.within_step h₀ ?_ hs
  clear h₀ hs
  unfold Mach.writeHeld
  try dsimp only
  repeat' first
    | with_reducible assumption
    | with_reducible exact Mach.within_refl _ _
    | decide
    | with_reducible apply Mach.q3Fix_within
    | with_reducible apply Mach.writeRec_within
    | (with_reducible apply Mach.within_fst; assumption)
    | (with_reducible apply Mach.within_left; assumption)
    | (with_reducible apply Mach.within_mid; assumption)
    | dsimp only
    | split
    | ((simp only [Mach.within_mk_eq]; with_reducible apply Mach.withinMk_of) <;> first | exact Or.inr rfl | with_reducible exact Or.inl rfl | with_reducible rfl | with_reducible exact fun h => h | (intro h; simpa [length_listUpd] using h) | (intro h; split <;> exact h) | exact fun h => h | skip)

theorem Mach.flushHeld_within {m₀ : Mach} (m : Mach) {ps : List Part} (h₀ : m₀.within m ps)
    (hs : [Part.regs, Part.pa, Part.pb, Part.flt, Part.evt, Part.buf, Part.sec, Part.nv].all ps.contains = true) : m₀.within (Mach.flushHeld m) ps := by
  refine Mach.within_step h₀ ?_ hs
  clear h₀ hs
  unfold Mach.flushHeld
  try dsimp only
  repeat' first
    | with_reducible assumption
    | with_reducible exact Mach.within_refl _ _
    | decide
    | with_reducible apply Mach.flushGaps_within
    | with_reducible apply Mach.writeHeld_within
    | with_reducible apply Mach.within_ite
    | with_reducible apply Mach.within_ite2
    | with_reducible apply Mach.within_fold
    | (intro k x hk; try dsimp only)
    | ((simp only [Mach.within_mk_eq]; with_reducible apply Mach.withinMk_of) <;> first | exact Or.inr rfl | with_reducible exact Or.inl rfl | with_reducible rfl | with_reducible exact fun h => h | (intro h; simpa [length_listUpd] using h) | (intro h; split <;> exact h) | exact fun h => h | skip)

theorem Mach.putRec_within {m₀ : Mach} (m : Mach) (r : Rec) {ps : List Part} (h₀ : m₀.within m ps)
    (hs : [Part.regs, Part.pa, Part.pb, Part.flt, Part.evt, Part.buf, Part.sec, Part.nv].all ps.contains = true) : m₀.within (Mach.putRec m r) ps := by
  refine Mach.within_step h₀ ?_ hs
  clear h₀ hs
  unfold Mach.putRec
  try dsimp only
  repeat' first
    | with_reducible assumption
    | with_reducible exact Mach.within_refl _ _
    | decide
    | with_reducible apply Mach.count_within
    | with_reducible apply Mach.flushHeld_within
    | with_reducible apply Mach.putGap_within
    | with_reducible apply Mach.sqBit_within
    | with_reducible apply Mach.writeRec_within
    | with_reducible apply Mach.within_ite
    | with_reducible apply Mach.within_ite2
    | with_reducible apply Mach.within_ite1
    | (with_reducible apply Mach.within_fst; assumption)
    | (with_reducible apply Mach.within_left; assumption)
    | (with_reducible apply Mach.within_mid; assumption)
    | dsimp only
    | split
    | ((simp only [Mach.within_mk_eq]; with_reducible apply Mach.withinMk_of) <;> first | exact Or.inr rfl | with_reducible exact Or.inl rfl | with_reducible rfl | with_reducible exact fun h => h | (intro h; simpa [length_listUpd] using h) | (intro h; split <;> exact h) | exact fun h => h | skip)

theorem Mach.evtInt_within {m₀ : Mach} (m : Mach) (p : Port) {ps : List Part} (h₀ : m₀.within m ps)
    (hs : [Part.regs, Part.pa, Part.pb].all ps.contains = true) : m₀.within (Mach.evtInt m p) ps := by
  refine Mach.within_step h₀ ?_ hs
  clear h₀ hs
  unfold Mach.evtInt
  try dsimp only
  repeat' first
    | with_reducible assumption
    | with_reducible exact Mach.within_refl _ _
    | decide
    | with_reducible apply Mach.intBit_within
    | with_reducible apply Mach.updPort_within
    | with_reducible apply Mach.within_ite
    | with_reducible apply Mach.within_ite2

theorem Mach.routeTo_within {m₀ : Mach} (m : Mach) (p : Port) (bit : Nat) {ps : List Part} (h₀ : m₀.within m ps)
    (hs : [Part.regs, Part.pa, Part.pb].all ps.contains = true) : m₀.within (Mach.routeTo m p bit) ps := by
  refine Mach.within_step h₀ ?_ hs
  clear h₀ hs
  unfold Mach.routeTo
  try dsimp only
  repeat' first
    | with_reducible assumption
    | with_reducible exact Mach.within_refl _ _
    | decide
    | with_reducible apply Mach.evtInt_within
    | with_reducible apply Mach.sqBit_within
    | (with_reducible apply Mach.within_fst; assumption)
    | (with_reducible apply Mach.within_left; assumption)
    | (with_reducible apply Mach.within_mid; assumption)
    | dsimp only
    | split

theorem Mach.updSm_within {m₀ : Mach} (m : Mach) (n : Nat) (f : Sm → Sm) {ps : List Part} (h₀ : m₀.within m ps)
    (hs : [Part.evt].all ps.contains = true) : m₀.within (Mach.updSm m n f) ps := by
  refine Mach.within_step h₀ ?_ hs
  clear h₀ hs
  unfold Mach.updSm
  try dsimp only
  repeat' first
    | with_reducible assumption
    | with_reducible exact Mach.within_refl _ _
    | decide
    | ((simp only [Mach.within_mk_eq]; with_reducible apply Mach.withinMk_of) <;> first | exact Or.inr rfl | with_reducible exact Or.inl rfl | with_reducible rfl | with_reducible exact fun h => h | (intro h; simpa [length_listUpd] using h) | (intro h; split <;> exact h) | exact fun h => h | skip)

theorem Mach.mapSm_within {m₀ : Mach} (m : Mach) (f : Nat → Sm → Sm) {ps : List Part} (h₀ : m₀.within m ps)
    (hs : [Part.evt].all ps.contains = true) : m₀.within (Mach.mapSm m f) ps := by
  refine Mach.within_step h₀ ?_ hs
  clear h₀ hs
  unfold Mach.mapSm
  try dsimp only
  repeat' first
    | with_reducible assumption
    | with_reducible exact Mach.within_refl _ _
    | decide
    | ((simp only [Mach.within_mk_eq]; with_reducible apply Mach.withinMk_of) <;> first | exact Or.inr rfl | with_reducible exact Or.inl rfl | with_reducible rfl | with_reducible exact fun h => h | (intro h; simpa [length_listUpd] using h) | (intro h; split <;> exact h) | exact fun h => h | skip)

theorem Mach.endWaite_within {m₀ : Mach} (m : Mach) (src kind : Nat) (value : Word) (ts : Nat) {ps : List Part} (h₀ : m₀.within m ps)
    (hs : [Part.evt].all ps.contains = true) : m₀.within (Mach.endWaite m src kind value ts) ps := by
  refine Mach.within_step h₀ ?_ hs
  clear h₀ hs
  unfold Mach.endWaite
  try dsimp only
  repeat' first
    | with_reducible assumption
    | with_reducible exact Mach.within_refl _ _
    | decide
    | with_reducible apply Mach.mapSm_within
    | with_reducible apply Mach.within_ite
    | with_reducible apply Mach.within_ite2
    | (with_reducible apply Mach.within_fst; assumption)
    | (with_reducible apply Mach.within_left; assumption)
    | (with_reducible apply Mach.within_mid; assumption)
    | dsimp only
    | split

theorem Mach.waitTurn_within {m₀ : Mach} (m : Mach) {ps : List Part} (h₀ : m₀.within m ps)
    (hs : [Part.clk, Part.regs, Part.pa, Part.pb, Part.mot, Part.flt, Part.ang, Part.aux, Part.evt, Part.grd, Part.buf, Part.eng, Part.flue, Part.sec, Part.nv, Part.bist, Part.mem, Part.free].all ps.contains = true) : m₀.within (Mach.waitTurn m) ps := by
  refine Mach.within_step h₀ ?_ hs
  clear h₀ hs
  unfold Mach.waitTurn
  try dsimp only
  repeat' first
    | with_reducible assumption
    | with_reducible exact Mach.within_refl _ _
    | decide
    | with_reducible apply Mach.idle_within
    | with_reducible apply Mach.mapSm_within
    | with_reducible apply Mach.within_ite
    | with_reducible apply Mach.within_ite2
    | (with_reducible apply Mach.within_fst; assumption)
    | (with_reducible apply Mach.within_left; assumption)
    | (with_reducible apply Mach.within_mid; assumption)
    | dsimp only
    | split

theorem Mach.decision_within {m₀ : Mach} (m : Mach) (i kind inst : Nat) (value : Word) (t : Int) {ps : List Part} (h₀ : m₀.within m ps)
    (hs : [Part.regs, Part.pa, Part.pb, Part.flt, Part.evt, Part.buf, Part.sec, Part.nv, Part.free].all ps.contains = true) : m₀.within (Mach.decision m i kind inst value t) ps := by
  refine Mach.within_step h₀ ?_ hs
  clear h₀ hs
  unfold Mach.decision
  try dsimp only
  repeat' first
    | with_reducible assumption
    | with_reducible exact Mach.within_refl _ _
    | decide
    | with_reducible apply Mach.endWaite_within
    | with_reducible apply Mach.putRec_within
    | with_reducible apply Mach.routeTo_within
    | with_reducible apply Mach.trigger_within
    | with_reducible apply Mach.within_ite
    | with_reducible apply Mach.within_ite2
    | with_reducible apply Mach.within_fold
    | (intro k x hk; try dsimp only)
    | ((simp only [Mach.within_mk_eq]; with_reducible apply Mach.withinMk_of) <;> first | exact Or.inr rfl | with_reducible exact Or.inl rfl | with_reducible rfl | with_reducible exact fun h => h | (intro h; simpa [length_listUpd] using h) | (intro h; split <;> exact h) | exact fun h => h | skip)

theorem Mach.episodeEnd_within {m₀ : Mach} (m : Mach) (i kind inst : Nat) (value : Word) (t : Int) {ps : List Part} (h₀ : m₀.within m ps)
    (hs : [Part.regs, Part.pa, Part.pb, Part.flt, Part.evt, Part.buf, Part.sec, Part.nv].all ps.contains = true) : m₀.within (Mach.episodeEnd m i kind inst value t) ps := by
  refine Mach.within_step h₀ ?_ hs
  clear h₀ hs
  unfold Mach.episodeEnd
  try dsimp only
  repeat' first
    | with_reducible assumption
    | with_reducible exact Mach.within_refl _ _
    | decide
    | with_reducible apply Mach.putRec_within
    | with_reducible apply Mach.within_ite
    | with_reducible apply Mach.within_ite2

theorem Mach.recReset_within {m₀ : Mach} (m : Mach) (i : Nat) {ps : List Part} (h₀ : m₀.within m ps)
    (hs : [Part.evt].all ps.contains = true) : m₀.within (Mach.recReset m i) ps := by
  refine Mach.within_step h₀ ?_ hs
  clear h₀ hs
  unfold Mach.recReset
  try dsimp only
  repeat' first
    | with_reducible assumption
    | with_reducible exact Mach.within_refl _ _
    | decide
    | (with_reducible apply Mach.within_fst; assumption)
    | (with_reducible apply Mach.within_left; assumption)
    | (with_reducible apply Mach.within_mid; assumption)
    | dsimp only
    | split
    | ((simp only [Mach.within_mk_eq]; with_reducible apply Mach.withinMk_of) <;> first | exact Or.inr rfl | with_reducible exact Or.inl rfl | with_reducible rfl | with_reducible exact fun h => h | (intro h; simpa [length_listUpd] using h) | (intro h; split <;> exact h) | exact fun h => h | skip)

theorem Mach.recResetAll_within {m₀ : Mach} (m : Mach) {ps : List Part} (h₀ : m₀.within m ps)
    (hs : [Part.evt].all ps.contains = true) : m₀.within (Mach.recResetAll m) ps := by
  refine Mach.within_step h₀ ?_ hs
  clear h₀ hs
  unfold Mach.recResetAll
  try dsimp only
  repeat' first
    | with_reducible assumption
    | with_reducible exact Mach.within_refl _ _
    | decide
    | with_reducible apply Mach.recReset_within
    | with_reducible apply Mach.within_fold
    | (intro k x hk; try dsimp only)

theorem Mach.recResetGroup_within {m₀ : Mach} (m : Mach) (g : Nat) {ps : List Part} (h₀ : m₀.within m ps)
    (hs : [Part.evt].all ps.contains = true) : m₀.within (Mach.recResetGroup m g) ps := by
  refine Mach.within_step h₀ ?_ hs
  clear h₀ hs
  unfold Mach.recResetGroup
  try dsimp only
  repeat' first
    | with_reducible assumption
    | with_reducible exact Mach.within_refl _ _
    | decide
    | with_reducible apply Mach.recReset_within
    | with_reducible apply Mach.within_ite
    | with_reducible apply Mach.within_ite2
    | (with_reducible apply Mach.within_fst; assumption)
    | (with_reducible apply Mach.within_left; assumption)
    | (with_reducible apply Mach.within_mid; assumption)
    | dsimp only
    | split

theorem Mach.impactAt_within {m₀ : Mach} (m : Mach) (o : EvIn) {ps : List Part} (h₀ : m₀.within m ps)
    (hs : [Part.regs, Part.pa, Part.pb, Part.flt, Part.evt, Part.buf, Part.sec, Part.nv, Part.free].all ps.contains = true) : m₀.within (Mach.impactAt m o) ps := by
  refine Mach.within_step h₀ ?_ hs
  clear h₀ hs
  unfold Mach.impactAt
  try dsimp only
  repeat' first
    | with_reducible assumption
    | with_reducible exact Mach.within_refl _ _
    | decide
    | with_reducible apply Mach.count_within
    | with_reducible apply Mach.decision_within
    | with_reducible apply Mach.episodeEnd_within
    | with_reducible apply Mach.within_ite
    | with_reducible apply Mach.within_ite2
    | (with_reducible apply Mach.within_fst; assumption)
    | (with_reducible apply Mach.within_left; assumption)
    | (with_reducible apply Mach.within_mid; assumption)
    | dsimp only
    | split
    | ((simp only [Mach.within_mk_eq]; with_reducible apply Mach.withinMk_of) <;> first | exact Or.inr rfl | with_reducible exact Or.inl rfl | with_reducible rfl | with_reducible exact fun h => h | (intro h; simpa [length_listUpd] using h) | (intro h; split <;> exact h) | exact fun h => h | skip)

theorem Mach.ospdAt_within {m₀ : Mach} (m : Mach) (o : EvIn) {ps : List Part} (h₀ : m₀.within m ps)
    (hs : [Part.regs, Part.pa, Part.pb, Part.flt, Part.evt, Part.buf, Part.sec, Part.nv, Part.free].all ps.contains = true) : m₀.within (Mach.ospdAt m o) ps := by
  refine Mach.within_step h₀ ?_ hs
  clear h₀ hs
  unfold Mach.ospdAt
  try dsimp only
  repeat' first
    | with_reducible assumption
    | with_reducible exact Mach.within_refl _ _
    | decide
    | with_reducible apply Mach.decision_within
    | with_reducible apply Mach.episodeEnd_within
    | with_reducible apply Mach.within_ite
    | with_reducible apply Mach.within_ite2
    | (with_reducible apply Mach.within_fst; assumption)
    | (with_reducible apply Mach.within_left; assumption)
    | (with_reducible apply Mach.within_mid; assumption)
    | dsimp only
    | split
    | ((simp only [Mach.within_mk_eq]; with_reducible apply Mach.withinMk_of) <;> first | exact Or.inr rfl | with_reducible exact Or.inl rfl | with_reducible rfl | with_reducible exact fun h => h | (intro h; simpa [length_listUpd] using h) | (intro h; split <;> exact h) | exact fun h => h | skip)

theorem Mach.uspdAt_within {m₀ : Mach} (m : Mach) (o : EvIn) {ps : List Part} (h₀ : m₀.within m ps)
    (hs : [Part.regs, Part.pa, Part.pb, Part.flt, Part.evt, Part.buf, Part.sec, Part.nv, Part.free].all ps.contains = true) : m₀.within (Mach.uspdAt m o) ps := by
  refine Mach.within_step h₀ ?_ hs
  clear h₀ hs
  unfold Mach.uspdAt
  try dsimp only
  repeat' first
    | with_reducible assumption
    | with_reducible exact Mach.within_refl _ _
    | decide
    | with_reducible apply Mach.decision_within
    | with_reducible apply Mach.episodeEnd_within
    | with_reducible apply Mach.within_ite
    | with_reducible apply Mach.within_ite2
    | (with_reducible apply Mach.within_fst; assumption)
    | (with_reducible apply Mach.within_left; assumption)
    | (with_reducible apply Mach.within_mid; assumption)
    | dsimp only
    | split
    | ((simp only [Mach.within_mk_eq]; with_reducible apply Mach.withinMk_of) <;> first | exact Or.inr rfl | with_reducible exact Or.inl rfl | with_reducible rfl | with_reducible exact fun h => h | (intro h; simpa [length_listUpd] using h) | (intro h; split <;> exact h) | exact fun h => h | skip)

theorem Mach.freefallAt_within {m₀ : Mach} (m : Mach) (o : EvIn) {ps : List Part} (h₀ : m₀.within m ps)
    (hs : [Part.regs, Part.pa, Part.pb, Part.flt, Part.evt, Part.buf, Part.sec, Part.nv, Part.free].all ps.contains = true) : m₀.within (Mach.freefallAt m o) ps := by
  refine Mach.within_step h₀ ?_ hs
  clear h₀ hs
  unfold Mach.freefallAt
  try dsimp only
  repeat' first
    | with_reducible assumption
    | with_reducible exact Mach.within_refl _ _
    | decide
    | with_reducible apply Mach.decision_within
    | with_reducible apply Mach.episodeEnd_within
    | with_reducible apply Mach.within_ite
    | with_reducible apply Mach.within_ite2
    | ((simp only [Mach.within_mk_eq]; with_reducible apply Mach.withinMk_of) <;> first | exact Or.inr rfl | with_reducible exact Or.inl rfl | with_reducible rfl | with_reducible exact fun h => h | (intro h; simpa [length_listUpd] using h) | (intro h; split <;> exact h) | exact fun h => h | skip)

theorem Mach.stillBreak_within {m₀ : Mach} (m : Mach) (t : Int) (next : Option Int) {ps : List Part} (h₀ : m₀.within m ps)
    (hs : [Part.regs, Part.pa, Part.pb, Part.flt, Part.evt, Part.buf, Part.sec, Part.nv].all ps.contains = true) : m₀.within (Mach.stillBreak m t next) ps := by
  refine Mach.within_step h₀ ?_ hs
  clear h₀ hs
  unfold Mach.stillBreak
  try dsimp only
  repeat' first
    | with_reducible assumption
    | with_reducible exact Mach.within_refl _ _
    | decide
    | with_reducible apply Mach.episodeEnd_within
    | with_reducible apply Mach.within_ite
    | with_reducible apply Mach.within_ite2
    | ((simp only [Mach.within_mk_eq]; with_reducible apply Mach.withinMk_of) <;> first | exact Or.inr rfl | with_reducible exact Or.inl rfl | with_reducible rfl | with_reducible exact fun h => h | (intro h; simpa [length_listUpd] using h) | (intro h; split <;> exact h) | exact fun h => h | skip)

theorem Mach.stillAt_within {m₀ : Mach} (m : Mach) (o : EvIn) {ps : List Part} (h₀ : m₀.within m ps)
    (hs : [Part.regs, Part.pa, Part.pb, Part.flt, Part.evt, Part.buf, Part.sec, Part.nv, Part.free].all ps.contains = true) : m₀.within (Mach.stillAt m o) ps := by
  refine Mach.within_step h₀ ?_ hs
  clear h₀ hs
  unfold Mach.stillAt
  try dsimp only
  repeat' first
    | with_reducible assumption
    | with_reducible exact Mach.within_refl _ _
    | decide
    | with_reducible apply Mach.decision_within
    | with_reducible apply Mach.stillBreak_within
    | with_reducible apply Mach.within_ite
    | with_reducible apply Mach.within_ite2
    | (with_reducible apply Mach.within_fst; assumption)
    | (with_reducible apply Mach.within_left; assumption)
    | (with_reducible apply Mach.within_mid; assumption)
    | dsimp only
    | split
    | ((simp only [Mach.within_mk_eq]; with_reducible apply Mach.withinMk_of) <;> first | exact Or.inr rfl | with_reducible exact Or.inl rfl | with_reducible rfl | with_reducible exact fun h => h | (intro h; simpa [length_listUpd] using h) | (intro h; split <;> exact h) | exact fun h => h | skip)

theorem Mach.stillGyr_within {m₀ : Mach} (m : Mach) (o : EvIn) {ps : List Part} (h₀ : m₀.within m ps)
    (hs : [Part.regs, Part.pa, Part.pb, Part.flt, Part.evt, Part.buf, Part.sec, Part.nv].all ps.contains = true) : m₀.within (Mach.stillGyr m o) ps := by
  refine Mach.within_step h₀ ?_ hs
  clear h₀ hs
  unfold Mach.stillGyr
  try dsimp only
  repeat' first
    | with_reducible assumption
    | with_reducible exact Mach.within_refl _ _
    | decide
    | with_reducible apply Mach.stillBreak_within
    | with_reducible apply Mach.within_ite
    | with_reducible apply Mach.within_ite2

theorem Mach.imbAt_within {m₀ : Mach} (m : Mach) (axis : Nat) (amp phase : Nat) (t : Int) {ps : List Part} (h₀ : m₀.within m ps)
    (hs : [Part.regs, Part.pa, Part.pb, Part.flt, Part.evt, Part.buf, Part.sec, Part.nv, Part.free].all ps.contains = true) : m₀.within (Mach.imbAt m axis amp phase t) ps := by
  refine Mach.within_step h₀ ?_ hs
  clear h₀ hs
  unfold Mach.imbAt
  try dsimp only
  repeat' first
    | with_reducible assumption
    | with_reducible exact Mach.within_refl _ _
    | decide
    | with_reducible apply Mach.decision_within
    | with_reducible apply Mach.episodeEnd_within
    | with_reducible apply Mach.within_ite
    | with_reducible apply Mach.within_ite2
    | (with_reducible apply Mach.within_fst; assumption)
    | (with_reducible apply Mach.within_left; assumption)
    | (with_reducible apply Mach.within_mid; assumption)
    | dsimp only
    | split
    | ((simp only [Mach.within_mk_eq]; with_reducible apply Mach.withinMk_of) <;> first | exact Or.inr rfl | with_reducible exact Or.inl rfl | with_reducible rfl | with_reducible exact fun h => h | (intro h; simpa [length_listUpd] using h) | (intro h; split <;> exact h) | exact fun h => h | skip)

theorem Mach.revInstant_within {m₀ : Mach} (m : Mach) (t : Int) {ps : List Part} (h₀ : m₀.within m ps)
    (hs : [Part.regs, Part.pa, Part.pb, Part.flt, Part.evt, Part.buf, Part.sec, Part.nv, Part.free].all ps.contains = true) : m₀.within (Mach.revInstant m t) ps := by
  refine Mach.within_step h₀ ?_ hs
  clear h₀ hs
  unfold Mach.revInstant
  try dsimp only
  repeat' first
    | with_reducible assumption
    | with_reducible exact Mach.within_refl _ _
    | decide
    | with_reducible apply Mach.decision_within
    | with_reducible apply Mach.drawNat_within
    | with_reducible apply Mach.within_ite
    | with_reducible apply Mach.within_ite2
    | (with_reducible apply Mach.within_fst; assumption)
    | (with_reducible apply Mach.within_left; assumption)
    | (with_reducible apply Mach.within_mid; assumption)
    | dsimp only
    | split
    | ((simp only [Mach.within_mk_eq]; with_reducible apply Mach.withinMk_of) <;> first | exact Or.inr rfl | with_reducible exact Or.inl rfl | with_reducible rfl | with_reducible exact fun h => h | (intro h; simpa [length_listUpd] using h) | (intro h; split <;> exact h) | exact fun h => h | skip)

theorem Mach.revGravity_within {m₀ : Mach} (m : Mach) (x y : Int) (o : EvIn) {ps : List Part} (h₀ : m₀.within m ps)
    (hs : [Part.regs, Part.pa, Part.pb, Part.flt, Part.ang, Part.evt, Part.buf, Part.sec, Part.nv, Part.free].all ps.contains = true) : m₀.within (Mach.revGravity m x y o) ps := by
  refine Mach.within_step h₀ ?_ hs
  clear h₀ hs
  unfold Mach.revGravity
  try dsimp only
  repeat' first
    | with_reducible assumption
    | with_reducible exact Mach.within_refl _ _
    | decide
    | with_reducible apply Mach.revInstant_within
    | with_reducible apply Mach.within_ite
    | with_reducible apply Mach.within_ite2
    | (with_reducible apply Mach.within_fst; assumption)
    | (with_reducible apply Mach.within_left; assumption)
    | (with_reducible apply Mach.within_mid; assumption)
    | dsimp only
    | split
    | ((simp only [Mach.within_mk_eq]; with_reducible apply Mach.withinMk_of) <;> first | exact Or.inr rfl | with_reducible exact Or.inl rfl | with_reducible rfl | with_reducible exact fun h => h | (intro h; simpa [length_listUpd] using h) | (intro h; split <;> exact h) | exact fun h => h | skip)

theorem Mach.machinesAt_within {m₀ : Mach} (m : Mach) (o : EvIn) {ps : List Part} (h₀ : m₀.within m ps)
    (hs : [Part.evt].all ps.contains = true) : m₀.within (Mach.machinesAt m o) ps := by
  refine Mach.within_step h₀ ?_ hs
  clear h₀ hs
  unfold Mach.machinesAt
  try dsimp only
  repeat' first
    | with_reducible assumption
    | with_reducible exact Mach.within_refl _ _
    | decide
    | with_reducible apply Mach.mapSm_within
    | with_reducible apply Mach.within_ite
    | with_reducible apply Mach.within_ite2

theorem Mach.evtOutput_within {m₀ : Mach} (m : Mach) (o : EvIn) {ps : List Part} (h₀ : m₀.within m ps)
    (hs : [Part.regs, Part.pa, Part.pb, Part.flt, Part.evt, Part.buf, Part.sec, Part.nv, Part.free].all ps.contains = true) : m₀.within (Mach.evtOutput m o) ps := by
  refine Mach.within_step h₀ ?_ hs
  clear h₀ hs
  unfold Mach.evtOutput
  try dsimp only
  repeat' first
    | with_reducible assumption
    | with_reducible exact Mach.within_refl _ _
    | decide
    | with_reducible apply Mach.freefallAt_within
    | with_reducible apply Mach.impactAt_within
    | with_reducible apply Mach.machinesAt_within
    | with_reducible apply Mach.ospdAt_within
    | with_reducible apply Mach.stillAt_within
    | with_reducible apply Mach.stillGyr_within
    | with_reducible apply Mach.uspdAt_within
    | with_reducible apply Mach.within_ite
    | with_reducible apply Mach.within_ite2

theorem Mach.guardRec_within {m₀ : Mach} (m : Mach) (code : Nat) (value : Word) (ts : Nat) {ps : List Part} (h₀ : m₀.within m ps)
    (hs : [Part.regs, Part.pa, Part.pb, Part.flt, Part.evt, Part.buf, Part.sec, Part.nv].all ps.contains = true) : m₀.within (Mach.guardRec m code value ts) ps := by
  refine Mach.within_step h₀ ?_ hs
  clear h₀ hs
  unfold Mach.guardRec
  try dsimp only
  repeat' first
    | with_reducible assumption
    | with_reducible exact Mach.within_refl _ _
    | decide
    | with_reducible apply Mach.endWaite_within
    | with_reducible apply Mach.putRec_within
    | with_reducible apply Mach.within_ite
    | with_reducible apply Mach.within_ite2

theorem Mach.smFault_within {m₀ : Mach} (m : Mach) (n cause op addr : Nat) {ps : List Part} (h₀ : m₀.within m ps)
    (hs : [Part.clk, Part.regs, Part.pa, Part.pb, Part.mot, Part.flt, Part.ang, Part.aux, Part.evt, Part.grd, Part.buf, Part.eng, Part.flue, Part.sec, Part.nv, Part.bist, Part.mem, Part.free].all ps.contains = true) : m₀.within (Mach.smFault m n cause op addr) ps := by
  refine Mach.within_step h₀ ?_ hs
  clear h₀ hs
  unfold Mach.smFault
  try dsimp only
  repeat' first
    | with_reducible assumption
    | with_reducible exact Mach.within_refl _ _
    | decide
    | with_reducible apply Mach.idle_within
    | with_reducible apply Mach.putRec_within
    | with_reducible apply Mach.sqBit_within
    | with_reducible apply Mach.updSm_within

theorem Mach.smOutOp_within {m₀ : Mach} (m : Mach) (n : Nat) (w : Word) {ps : List Part} (h₀ : m₀.within m ps)
    (hs : [Part.regs, Part.pa, Part.pb, Part.evt, Part.eng].all ps.contains = true) : m₀.within (Mach.smOutOp m n w) ps := by
  refine Mach.within_step h₀ ?_ hs
  clear h₀ hs
  unfold Mach.smOutOp
  try dsimp only
  repeat' first
    | with_reducible assumption
    | with_reducible exact Mach.within_refl _ _
    | decide
    | with_reducible apply Mach.irqSet_within
    | with_reducible apply Mach.routeTo_within
    | with_reducible apply Mach.sqBit_within
    | with_reducible apply Mach.touch_within
    | with_reducible apply Mach.txdWrite_within
    | with_reducible apply Mach.within_ite
    | with_reducible apply Mach.within_ite2
    | (with_reducible apply Mach.within_fst; assumption)
    | (with_reducible apply Mach.within_left; assumption)
    | (with_reducible apply Mach.within_mid; assumption)
    | dsimp only
    | split
    | ((simp only [Mach.within_mk_eq]; with_reducible apply Mach.withinMk_of) <;> first | exact Or.inr rfl | with_reducible exact Or.inl rfl | with_reducible rfl | with_reducible exact fun h => h | (intro h; simpa [length_listUpd] using h) | (intro h; split <;> exact h) | exact fun h => h | skip)

theorem Mach.setFlags_within {m₀ : Mach} (m : Mach) (set clr : Nat) {ps : List Part} (h₀ : m₀.within m ps)
    (hs : [Part.eng].all ps.contains = true) : m₀.within (Mach.setFlags m set clr) ps := by
  refine Mach.within_step h₀ ?_ hs
  clear h₀ hs
  unfold Mach.setFlags
  try dsimp only
  repeat' first
    | with_reducible assumption
    | with_reducible exact Mach.within_refl _ _
    | decide
    | ((simp only [Mach.within_mk_eq]; with_reducible apply Mach.withinMk_of) <;> first | exact Or.inr rfl | with_reducible exact Or.inl rfl | with_reducible rfl | with_reducible exact fun h => h | (intro h; simpa [length_listUpd] using h) | (intro h; split <;> exact h) | exact fun h => h | skip)

theorem Mach.smEffect_within {m₀ : Mach} (m : Mach) (n : Nat) (w : Word) {ps : List Part} (h₀ : m₀.within m ps)
    (hs : [Part.clk, Part.regs, Part.pa, Part.pb, Part.mot, Part.flt, Part.ang, Part.aux, Part.evt, Part.grd, Part.buf, Part.eng, Part.flue, Part.sec, Part.nv, Part.bist, Part.mem, Part.free].all ps.contains = true) : m₀.within (Mach.smEffect m n w) ps := by
  refine Mach.within_step h₀ ?_ hs
  clear h₀ hs
  unfold Mach.smEffect
  try dsimp only
  repeat' first
    | with_reducible assumption
    | with_reducible exact Mach.within_refl _ _
    | decide
    | with_reducible apply Mach.idle_within
    | with_reducible apply Mach.putRec_within
    | with_reducible apply Mach.setFlags_within
    | with_reducible apply Mach.smOutOp_within
    | with_reducible apply Mach.trigger_within
    | with_reducible apply Mach.updSm_within
    | with_reducible apply Mach.within_ite
    | with_reducible apply Mach.within_ite2
    | with_reducible apply Mach.within_fold
    | (intro k x hk; try dsimp only)
    | (with_reducible apply Mach.within_fst; assumption)
    | (with_reducible apply Mach.within_left; assumption)
    | (with_reducible apply Mach.within_mid; assumption)
    | dsimp only
    | split

theorem Mach.smExec_within {m₀ : Mach} (m : Mach) (n : Nat) (w : Word) {ps : List Part} (h₀ : m₀.within m ps)
    (hs : [Part.clk, Part.regs, Part.pa, Part.pb, Part.mot, Part.flt, Part.ang, Part.aux, Part.evt, Part.grd, Part.buf, Part.eng, Part.flue, Part.sec, Part.nv, Part.bist, Part.mem, Part.free].all ps.contains = true) : m₀.within (Mach.smExec m n w) ps := by
  refine Mach.within_step h₀ ?_ hs
  clear h₀ hs
  unfold Mach.smExec
  try dsimp only
  repeat' first
    | with_reducible assumption
    | with_reducible exact Mach.within_refl _ _
    | decide
    | with_reducible apply Mach.smEffect_within
    | with_reducible apply Mach.smFault_within
    | with_reducible apply Mach.updSm_within
    | with_reducible apply Mach.within_ite
    | with_reducible apply Mach.within_ite2

theorem Mach.smTurn_within {m₀ : Mach} (m : Mach) (n op : Nat) {ps : List Part} (h₀ : m₀.within m ps)
    (hs : [Part.clk, Part.regs, Part.pa, Part.pb, Part.mot, Part.flt, Part.ang, Part.aux, Part.evt, Part.grd, Part.buf, Part.eng, Part.flue, Part.sec, Part.nv, Part.bist, Part.mem, Part.free].all ps.contains = true) : m₀.within (Mach.smTurn m n op) ps := by
  refine Mach.within_step h₀ ?_ hs
  clear h₀ hs
  unfold Mach.smTurn
  try dsimp only
  repeat' first
    | with_reducible assumption
    | with_reducible exact Mach.within_refl _ _
    | decide
    | with_reducible apply Mach.smExec_within
    | with_reducible apply Mach.within_ite
    | with_reducible apply Mach.within_ite2
    | ((simp only [Mach.within_mk_eq]; with_reducible apply Mach.withinMk_of) <;> first | exact Or.inr rfl | with_reducible exact Or.inl rfl | with_reducible rfl | with_reducible exact fun h => h | (intro h; simpa [length_listUpd] using h) | (intro h; split <;> exact h) | exact fun h => h | skip)

theorem Mach.smExpire_within {m₀ : Mach} (m : Mach) (n : Nat) (second : Bool) {ps : List Part} (h₀ : m₀.within m ps)
    (hs : [Part.evt].all ps.contains = true) : m₀.within (Mach.smExpire m n second) ps := by
  refine Mach.within_step h₀ ?_ hs
  clear h₀ hs
  unfold Mach.smExpire
  try dsimp only
  repeat' first
    | with_reducible assumption
    | with_reducible exact Mach.within_refl _ _
    | decide
    | with_reducible apply Mach.updSm_within
    | with_reducible apply Mach.within_ite
    | with_reducible apply Mach.within_ite2
    | (with_reducible apply Mach.within_fst; assumption)
    | (with_reducible apply Mach.within_left; assumption)
    | (with_reducible apply Mach.within_mid; assumption)
    | dsimp only
    | split

theorem Mach.smStart_within {m₀ : Mach} (m : Mach) (n : Nat) {ps : List Part} (h₀ : m₀.within m ps)
    (hs : [Part.evt].all ps.contains = true) : m₀.within (Mach.smStart m n) ps := by
  refine Mach.within_step h₀ ?_ hs
  clear h₀ hs
  unfold Mach.smStart
  try dsimp only
  repeat' first
    | with_reducible assumption
    | with_reducible exact Mach.within_refl _ _
    | decide
    | with_reducible apply Mach.updSm_within
    | with_reducible apply Mach.within_ite
    | with_reducible apply Mach.within_ite2
    | ((simp only [Mach.within_mk_eq]; with_reducible apply Mach.withinMk_of) <;> first | exact Or.inr rfl | with_reducible exact Or.inl rfl | with_reducible rfl | with_reducible exact fun h => h | (intro h; simpa [length_listUpd] using h) | (intro h; split <;> exact h) | exact fun h => h | skip)

theorem Mach.smStop_within {m₀ : Mach} (m : Mach) (n : Nat) {ps : List Part} (h₀ : m₀.within m ps)
    (hs : [Part.clk, Part.regs, Part.pa, Part.pb, Part.mot, Part.flt, Part.ang, Part.aux, Part.evt, Part.grd, Part.buf, Part.eng, Part.flue, Part.sec, Part.nv, Part.bist, Part.mem, Part.free].all ps.contains = true) : m₀.within (Mach.smStop m n) ps := by
  refine Mach.within_step h₀ ?_ hs
  clear h₀ hs
  unfold Mach.smStop
  try dsimp only
  repeat' first
    | with_reducible assumption
    | with_reducible exact Mach.within_refl _ _
    | decide
    | with_reducible apply Mach.idle_within
    | with_reducible apply Mach.updSm_within

theorem Mach.evtReset_within {m₀ : Mach} (m : Mach) {ps : List Part} (h₀ : m₀.within m ps)
    (hs : [Part.evt].all ps.contains = true) : m₀.within (Mach.evtReset m) ps := by
  refine Mach.within_step h₀ ?_ hs
  clear h₀ hs
  unfold Mach.evtReset
  try dsimp only
  repeat' first
    | with_reducible assumption
    | with_reducible exact Mach.within_refl _ _
    | decide
    | with_reducible apply Mach.mapSm_within
    | with_reducible apply Mach.recResetAll_within

theorem Mach.evtEnterWatch_within {m₀ : Mach} (m : Mach) {ps : List Part} (h₀ : m₀.within m ps)
    (hs : [Part.evt].all ps.contains = true) : m₀.within (Mach.evtEnterWatch m) ps := by
  refine Mach.within_step h₀ ?_ hs
  clear h₀ hs
  unfold Mach.evtEnterWatch
  try dsimp only
  repeat' first
    | with_reducible assumption
    | with_reducible exact Mach.within_refl _ _
    | decide
    | with_reducible apply Mach.mapSm_within
    | with_reducible apply Mach.within_ite
    | with_reducible apply Mach.within_ite2
    | ((simp only [Mach.within_mk_eq]; with_reducible apply Mach.withinMk_of) <;> first | exact Or.inr rfl | with_reducible exact Or.inl rfl | with_reducible rfl | with_reducible exact fun h => h | (intro h; simpa [length_listUpd] using h) | (intro h; split <;> exact h) | exact fun h => h | skip)

theorem Mach.evtExitWatch_within {m₀ : Mach} (m : Mach) {ps : List Part} (h₀ : m₀.within m ps)
    (hs : [Part.regs, Part.pa, Part.pb, Part.flt, Part.evt, Part.buf, Part.sec, Part.nv, Part.free].all ps.contains = true) : m₀.within (Mach.evtExitWatch m) ps := by
  refine Mach.within_step h₀ ?_ hs
  clear h₀ hs
  unfold Mach.evtExitWatch
  try dsimp only
  repeat' first
    | with_reducible assumption
    | with_reducible exact Mach.within_refl _ _
    | decide
    | with_reducible apply Mach.mapSm_within
    | with_reducible apply Mach.resume_within
    | with_reducible apply Mach.within_ite
    | with_reducible apply Mach.within_ite2
    | ((simp only [Mach.within_mk_eq]; with_reducible apply Mach.withinMk_of) <;> first | exact Or.inr rfl | with_reducible exact Or.inl rfl | with_reducible rfl | with_reducible exact fun h => h | (intro h; simpa [length_listUpd] using h) | (intro h; split <;> exact h) | exact fun h => h | skip)

end Sys2Proof.Machine
end

