-- ==== Sys2Proof/Laws/WithinFilter.lean ====
section
/-! SUPPORT. The reach of every operation of Machine/Filter.lean. -/

set_option linter.unusedTactic false
set_option linter.unusedSimpArgs false
set_option linter.unusedVariables false
set_option linter.unreachableTactic false
set_option linter.unnecessarySimpa false

namespace Sys2Proof.Machine

theorem Mach.setBank_within {m₀ : Mach} (m : Mach) (g : Nat) (bankB : Bool) (ws : List Word) {ps : List Part} (h₀ : m₀.within m ps)
    (hs : [Part.mem].all ps.contains = true) : m₀.within (Mach.setBank m g bankB ws) ps := by
  refine Mach.within_step h₀ ?_ hs
  clear h₀ hs
  unfold Mach.setBank
  exact Mach.within_fold _ _ (Mach.within_refl _ _) (fun k x hk => Mach.coefs_within hk rfl _ _)

theorem Mach.fltEvent_within {m₀ : Mach} (m : Mach) (g i : Nat) {ps : List Part} (h₀ : m₀.within m ps)
    (hs : [Part.regs, Part.flt].all ps.contains = true) : m₀.within (Mach.fltEvent m g i) ps := by
  refine Mach.within_step h₀ ?_ hs
  clear h₀ hs
  unfold Mach.fltEvent
  try dsimp only
  repeat' first
    | with_reducible assumption
    | with_reducible exact Mach.within_refl _ _
    | decide
    | with_reducible apply Mach.setReg_within
    | with_reducible apply Mach.sqBit_within
    | with_reducible apply Mach.updGrp_within
    | with_reducible apply Mach.within_ite
    | with_reducible apply Mach.within_ite2

theorem Mach.restartMarks_within {m₀ : Mach} (m : Mach) (g t : Nat) {ps : List Part} (h₀ : m₀.within m ps)
    (hs : [Part.regs, Part.flt].all ps.contains = true) : m₀.within (Mach.restartMarks m g t) ps := by
  refine Mach.within_step h₀ ?_ hs
  clear h₀ hs
  unfold Mach.restartMarks
  try dsimp only
  repeat' first
    | with_reducible assumption
    | with_reducible exact Mach.within_refl _ _
    | decide
    | with_reducible apply Mach.fltEvent_within
    | with_reducible apply Mach.oweTiming_within
    | with_reducible apply Mach.updGrp_within
    | with_reducible apply Mach.within_ite
    | with_reducible apply Mach.within_ite2

theorem Mach.restartKept_within {m₀ : Mach} (m : Mach) (g t : Nat) {ps : List Part} (h₀ : m₀.within m ps)
    (hs : [Part.regs, Part.flt].all ps.contains = true) : m₀.within (Mach.restartKept m g t) ps := by
  refine Mach.within_step h₀ ?_ hs
  clear h₀ hs
  unfold Mach.restartKept
  try dsimp only
  repeat' first
    | with_reducible assumption
    | with_reducible exact Mach.within_refl _ _
    | decide
    | with_reducible apply Mach.restartMarks_within
    | with_reducible apply Mach.within_ite
    | with_reducible apply Mach.within_ite2

theorem Mach.restartZero_within {m₀ : Mach} (m : Mach) (g t : Nat) {ps : List Part} (h₀ : m₀.within m ps)
    (hs : [Part.regs, Part.flt].all ps.contains = true) : m₀.within (Mach.restartZero m g t) ps := by
  refine Mach.within_step h₀ ?_ hs
  clear h₀ hs
  unfold Mach.restartZero
  try dsimp only
  repeat' first
    | with_reducible assumption
    | with_reducible exact Mach.within_refl _ _
    | decide
    | with_reducible apply Mach.restartMarks_within
    | with_reducible apply Mach.updGrp_within
    | with_reducible apply Mach.within_ite
    | with_reducible apply Mach.within_ite2

theorem Mach.startSource_within {m₀ : Mach} (m : Mach) (g t : Nat) {ps : List Part} (h₀ : m₀.within m ps)
    (hs : [Part.regs, Part.flt].all ps.contains = true) : m₀.within (Mach.startSource m g t) ps := by
  refine Mach.within_step h₀ ?_ hs
  clear h₀ hs
  unfold Mach.startSource
  try dsimp only
  repeat' first
    | with_reducible assumption
    | with_reducible exact Mach.within_refl _ _
    | decide
    | with_reducible apply Mach.restartMarks_within
    | with_reducible apply Mach.updGrp_within
    | with_reducible apply Mach.within_ite
    | with_reducible apply Mach.within_ite2

theorem Mach.stopSource_within {m₀ : Mach} (m : Mach) (g : Nat) {ps : List Part} (h₀ : m₀.within m ps)
    (hs : [Part.flt].all ps.contains = true) : m₀.within (Mach.stopSource m g) ps := by
  refine Mach.within_step h₀ ?_ hs
  clear h₀ hs
  unfold Mach.stopSource
  try dsimp only
  repeat' first
    | with_reducible assumption
    | with_reducible exact Mach.within_refl _ _
    | decide
    | with_reducible apply Mach.updGrp_within

theorem Mach.presetChange_within {m₀ : Mach} (m : Mach) (g : Nat) {ps : List Part} (h₀ : m₀.within m ps)
    (hs : [Part.flt].all ps.contains = true) : m₀.within (Mach.presetChange m g) ps := by
  refine Mach.within_step h₀ ?_ hs
  clear h₀ hs
  unfold Mach.presetChange
  try dsimp only
  repeat' first
    | with_reducible assumption
    | with_reducible exact Mach.within_refl _ _
    | decide
    | with_reducible apply Mach.updGrp_within
    | with_reducible apply Mach.within_ite
    | with_reducible apply Mach.within_ite2

theorem Mach.castled_within {m₀ : Mach} (m : Mach) (g : Nat) {ps : List Part} (h₀ : m₀.within m ps)
    (hs : [Part.regs, Part.flt].all ps.contains = true) : m₀.within (Mach.castled m g) ps := by
  refine Mach.within_step h₀ ?_ hs
  clear h₀ hs
  unfold Mach.castled
  try dsimp only
  repeat' first
    | with_reducible assumption
    | with_reducible exact Mach.within_refl _ _
    | decide
    | with_reducible apply Mach.fltEvent_within

theorem Mach.setReq_within {m₀ : Mach} (m : Mach) (g : Nat) (b : Bool) {ps : List Part} (h₀ : m₀.within m ps)
    (hs : [Part.regs].all ps.contains = true) : m₀.within (Mach.setReq m g b) ps := by
  refine Mach.within_step h₀ ?_ hs
  clear h₀ hs
  unfold Mach.setReq
  try dsimp only
  repeat' first
    | with_reducible assumption
    | with_reducible exact Mach.within_refl _ _
    | decide
    | with_reducible apply Mach.setFld_within
    | with_reducible apply Mach.within_ite
    | with_reducible apply Mach.within_ite2

theorem Mach.castleNow_within {m₀ : Mach} (m : Mach) (g : Nat) {ps : List Part} (h₀ : m₀.within m ps)
    (hs : [Part.regs, Part.flt].all ps.contains = true) : m₀.within (Mach.castleNow m g) ps := by
  refine Mach.within_step h₀ ?_ hs
  clear h₀ hs
  unfold Mach.castleNow
  try dsimp only
  repeat' first
    | with_reducible assumption
    | with_reducible exact Mach.within_refl _ _
    | decide
    | with_reducible apply Mach.castled_within
    | with_reducible apply Mach.setReq_within
    | with_reducible apply Mach.updGrp_within

theorem Mach.castleAgain_within {m₀ : Mach} (m : Mach) (g : Nat) {ps : List Part} (h₀ : m₀.within m ps)
    (hs : [Part.regs, Part.flt].all ps.contains = true) : m₀.within (Mach.castleAgain m g) ps := by
  refine Mach.within_step h₀ ?_ hs
  clear h₀ hs
  unfold Mach.castleAgain
  try dsimp only
  repeat' first
    | with_reducible assumption
    | with_reducible exact Mach.within_refl _ _
    | decide
    | with_reducible apply Mach.setReq_within
    | with_reducible apply Mach.updGrp_within
    | with_reducible apply Mach.within_ite
    | with_reducible apply Mach.within_ite2

theorem Mach.castleStep_within {m₀ : Mach} (m : Mach) (g : Nat) {ps : List Part} (h₀ : m₀.within m ps)
    (hs : [Part.regs, Part.flt].all ps.contains = true) : m₀.within (Mach.castleStep m g) ps := by
  refine Mach.within_step h₀ ?_ hs
  clear h₀ hs
  unfold Mach.castleStep
  try dsimp only
  repeat' first
    | with_reducible assumption
    | with_reducible exact Mach.within_refl _ _
    | decide
    | with_reducible apply Mach.castleAgain_within
    | with_reducible apply Mach.castleNow_within
    | with_reducible apply Mach.setReq_within
    | with_reducible apply Mach.updGrp_within
    | with_reducible apply Mach.within_ite
    | with_reducible apply Mach.within_ite2
    | (with_reducible apply Mach.within_fst; assumption)
    | (with_reducible apply Mach.within_left; assumption)
    | (with_reducible apply Mach.within_mid; assumption)
    | dsimp only
    | split

theorem Mach.castleEnd_within {m₀ : Mach} (m : Mach) (g : Nat) {ps : List Part} (h₀ : m₀.within m ps)
    (hs : [Part.regs, Part.flt].all ps.contains = true) : m₀.within (Mach.castleEnd m g) ps := by
  refine Mach.within_step h₀ ?_ hs
  clear h₀ hs
  unfold Mach.castleEnd
  try dsimp only
  repeat' first
    | with_reducible assumption
    | with_reducible exact Mach.within_refl _ _
    | decide
    | with_reducible apply Mach.castled_within
    | with_reducible apply Mach.updGrp_within
    | with_reducible apply Mach.within_ite
    | with_reducible apply Mach.within_ite2
    | (with_reducible apply Mach.within_fst; assumption)
    | (with_reducible apply Mach.within_left; assumption)
    | (with_reducible apply Mach.within_mid; assumption)
    | dsimp only
    | split

theorem Mach.firLeaves_within {m₀ : Mach} (m : Mach) (g : Nat) {ps : List Part} (h₀ : m₀.within m ps)
    (hs : [Part.regs, Part.flt].all ps.contains = true) : m₀.within (Mach.firLeaves m g) ps := by
  refine Mach.within_step h₀ ?_ hs
  clear h₀ hs
  unfold Mach.firLeaves
  try dsimp only
  repeat' first
    | with_reducible assumption
    | with_reducible exact Mach.within_refl _ _
    | decide
    | with_reducible apply Mach.castleNow_within
    | with_reducible apply Mach.castled_within
    | with_reducible apply Mach.updGrp_within
    | with_reducible apply Mach.within_ite
    | with_reducible apply Mach.within_ite2

theorem Mach.firsLeave_within {m₀ : Mach} (m : Mach) {ps : List Part} (h₀ : m₀.within m ps)
    (hs : [Part.regs, Part.flt].all ps.contains = true) : m₀.within (Mach.firsLeave m) ps := by
  refine Mach.within_step h₀ ?_ hs
  clear h₀ hs
  unfold Mach.firsLeave
  try dsimp only
  repeat' first
    | with_reducible assumption
    | with_reducible exact Mach.within_refl _ _
    | decide
    | with_reducible apply Mach.firLeaves_within
    | with_reducible apply Mach.within_ite
    | with_reducible apply Mach.within_ite2
    | with_reducible apply Mach.within_fold
    | (intro k x hk; try dsimp only)

theorem Mach.applyPreset_within {m₀ : Mach} (m : Mach) (g t : Nat) {ps : List Part} (h₀ : m₀.within m ps)
    (hs : [Part.regs, Part.flt].all ps.contains = true) : m₀.within (Mach.applyPreset m g t) ps := by
  refine Mach.within_step h₀ ?_ hs
  clear h₀ hs
  unfold Mach.applyPreset
  try dsimp only
  repeat' first
    | with_reducible assumption
    | with_reducible exact Mach.within_refl _ _
    | decide
    | with_reducible apply Mach.restartMarks_within
    | with_reducible apply Mach.updGrp_within
    | with_reducible apply Mach.within_ite
    | with_reducible apply Mach.within_ite2
    | (with_reducible apply Mach.within_fst; assumption)
    | (with_reducible apply Mach.within_left; assumption)
    | (with_reducible apply Mach.within_mid; assumption)
    | dsimp only
    | split

theorem Mach.putHold_within {m₀ : Mach} (m : Mach) (ws : List Word) {ps : List Part} (h₀ : m₀.within m ps)
    (hs : [Part.regs, Part.pa, Part.pb, Part.mot, Part.flt, Part.buf, Part.sec, Part.nv].all ps.contains = true) : m₀.within (Mach.putHold m ws) ps := by
  refine Mach.within_step h₀ ?_ hs
  clear h₀ hs
  unfold Mach.putHold
  try dsimp only
  repeat' first
    | with_reducible assumption
    | with_reducible exact Mach.within_refl _ _
    | decide
    | with_reducible apply Mach.offer_within
    | with_reducible apply Mach.within_ite
    | with_reducible apply Mach.within_ite2
    | ((simp only [Mach.within_mk_eq]; with_reducible apply Mach.withinMk_of) <;> first | exact Or.inr rfl | with_reducible exact Or.inl rfl | with_reducible rfl | with_reducible exact fun h => h | (intro h; simpa [length_listUpd] using h) | (intro h; split <;> exact h) | exact fun h => h | skip)

theorem Mach.ensureHold_within {m₀ : Mach} (m : Mach) (x0 : Nat) {ps : List Part} (h₀ : m₀.within m ps)
    (hs : [Part.regs, Part.pa, Part.pb, Part.mot, Part.flt, Part.buf, Part.sec, Part.nv].all ps.contains = true) : m₀.within (Mach.ensureHold m x0) ps := by
  refine Mach.within_step h₀ ?_ hs
  clear h₀ hs
  induction x0 generalizing m with
  | zero =>
    unfold Mach.ensureHold
    try dsimp only
    repeat' first
      | with_reducible assumption
      | with_reducible exact Mach.within_refl _ _
      | decide
      | with_reducible apply Mach.putHold_within
      | with_reducible apply Mach.within_ite
      | with_reducible apply Mach.within_ite2
      | (with_reducible apply Mach.within_fst; assumption)
      | (with_reducible apply Mach.within_left; assumption)
      | (with_reducible apply Mach.within_mid; assumption)
      | dsimp only
      | split

  | succ k ih =>
    unfold Mach.ensureHold
    try dsimp only
    repeat' first
      | with_reducible assumption
      | with_reducible exact Mach.within_refl _ _
      | decide
      | with_reducible apply Mach.within_then (ih _)
      | with_reducible apply Mach.putHold_within
      | with_reducible apply Mach.within_ite
      | with_reducible apply Mach.within_ite2
      | (with_reducible apply Mach.within_fst; assumption)
      | (with_reducible apply Mach.within_left; assumption)
      | (with_reducible apply Mach.within_mid; assumption)
      | dsimp only
      | split

theorem Mach.dueHolds_within {m₀ : Mach} (m : Mach) (t : Nat) {ps : List Part} (h₀ : m₀.within m ps)
    (hs : [Part.regs, Part.pa, Part.pb, Part.mot, Part.flt, Part.buf, Part.sec, Part.nv].all ps.contains = true) : m₀.within (Mach.dueHolds m t) ps := by
  refine Mach.within_step h₀ ?_ hs
  clear h₀ hs
  unfold Mach.dueHolds
  try dsimp only
  repeat' first
    | with_reducible assumption
    | with_reducible exact Mach.within_refl _ _
    | decide
    | with_reducible apply Mach.putHold_within
    | with_reducible apply Mach.within_fold
    | (intro k x hk; try dsimp only)
    | ((simp only [Mach.within_mk_eq]; with_reducible apply Mach.withinMk_of) <;> first | exact Or.inr rfl | with_reducible exact Or.inl rfl | with_reducible rfl | with_reducible exact fun h => h | (intro h; simpa [length_listUpd] using h) | (intro h; split <;> exact h) | exact fun h => h | skip)

theorem Mach.putTiming_within {m₀ : Mach} (m : Mach) (g : Nat) {ps : List Part} (h₀ : m₀.within m ps)
    (hs : [Part.regs, Part.pa, Part.pb, Part.flt, Part.buf, Part.sec, Part.nv].all ps.contains = true) : m₀.within (Mach.putTiming m g) ps := by
  refine Mach.within_step h₀ ?_ hs
  clear h₀ hs
  unfold Mach.putTiming
  try dsimp only
  repeat' first
    | with_reducible assumption
    | with_reducible exact Mach.within_refl _ _
    | decide
    | with_reducible apply Mach.offer_within
    | with_reducible apply Mach.updGrp_within
    | (with_reducible apply Mach.within_fst; assumption)
    | (with_reducible apply Mach.within_left; assumption)
    | (with_reducible apply Mach.within_mid; assumption)
    | dsimp only
    | split

theorem Mach.deliverWords_within {m₀ : Mach} (m : Mach) (g t : Nat) (ws : List Word) {ps : List Part} (h₀ : m₀.within m ps)
    (hs : [Part.regs, Part.pa, Part.pb, Part.mot, Part.flt, Part.buf, Part.sec, Part.nv].all ps.contains = true) : m₀.within (Mach.deliverWords m g t ws) ps := by
  refine Mach.within_step h₀ ?_ hs
  clear h₀ hs
  unfold Mach.deliverWords
  try dsimp only
  repeat' first
    | with_reducible assumption
    | with_reducible exact Mach.within_refl _ _
    | decide
    | with_reducible apply Mach.dueHolds_within
    | with_reducible apply Mach.ensureHold_within
    | with_reducible apply Mach.offer_within
    | with_reducible apply Mach.putTiming_within
    | with_reducible apply Mach.within_ite
    | with_reducible apply Mach.within_ite2
    | with_reducible apply Mach.within_fold
    | (intro k x hk; try dsimp only)

theorem Mach.deliverEvents_within {m₀ : Mach} (m : Mach) (g t : Nat) (os : List OutVal) {ps : List Part} (h₀ : m₀.within m ps)
    (hs : [Part.regs, Part.pa, Part.pb, Part.flt, Part.ang, Part.evt, Part.buf, Part.sec, Part.nv, Part.free].all ps.contains = true) : m₀.within (Mach.deliverEvents m g t os) ps := by
  refine Mach.within_step h₀ ?_ hs
  clear h₀ hs
  unfold Mach.deliverEvents
  try dsimp only
  repeat' first
    | with_reducible assumption
    | with_reducible exact Mach.within_refl _ _
    | decide
    | with_reducible apply Mach.evtOutput_within
    | with_reducible apply Mach.revGravity_within
    | with_reducible apply Mach.within_ite
    | with_reducible apply Mach.within_ite2
    | with_reducible apply Mach.within_fold
    | (intro k x hk; try dsimp only)
    | (with_reducible apply Mach.within_fst; assumption)
    | (with_reducible apply Mach.within_left; assumption)
    | (with_reducible apply Mach.within_mid; assumption)
    | dsimp only
    | split

theorem Mach.outputStatus_within {m₀ : Mach} (m : Mach) (g : Nat) (os : List OutVal) {ps : List Part} (h₀ : m₀.within m ps)
    (hs : [Part.regs].all ps.contains = true) : m₀.within (Mach.outputStatus m g os) ps := by
  refine Mach.within_step h₀ ?_ hs
  clear h₀ hs
  unfold Mach.outputStatus
  try dsimp only
  repeat' first
    | with_reducible assumption
    | with_reducible exact Mach.within_refl _ _
    | decide
    | with_reducible apply Mach.countN_within
    | with_reducible apply Mach.setReg_within
    | with_reducible apply Mach.sqBit_within
    | with_reducible apply Mach.within_ite
    | with_reducible apply Mach.within_ite2
    | with_reducible apply Mach.within_fold
    | (intro k x hk; try dsimp only)
    | (with_reducible apply Mach.within_fst; assumption)
    | (with_reducible apply Mach.within_left; assumption)
    | (with_reducible apply Mach.within_mid; assumption)
    | dsimp only
    | split

theorem Mach.toResampler_within {m₀ : Mach} (m : Mach) (t : Nat) (os : List OutVal) {ps : List Part} (h₀ : m₀.within m ps)
    (hs : [Part.ang].all ps.contains = true) : m₀.within (Mach.toResampler m t os) ps := by
  refine Mach.within_step h₀ ?_ hs
  clear h₀ hs
  unfold Mach.toResampler
  try dsimp only
  repeat' first
    | with_reducible assumption
    | with_reducible exact Mach.within_refl _ _
    | decide
    | with_reducible apply Mach.within_ite
    | with_reducible apply Mach.within_ite2
    | ((simp only [Mach.within_mk_eq]; with_reducible apply Mach.withinMk_of) <;> first | exact Or.inr rfl | with_reducible exact Or.inl rfl | with_reducible rfl | with_reducible exact fun h => h | (intro h; simpa [length_listUpd] using h) | (intro h; split <;> exact h) | exact fun h => h | skip)

theorem Mach.deliver_within {m₀ : Mach} (m : Mach) (g t : Nat) (os : List OutVal) {ps : List Part} (h₀ : m₀.within m ps)
    (hs : [Part.regs, Part.pa, Part.pb, Part.mot, Part.flt, Part.ang, Part.evt, Part.buf, Part.sec, Part.nv, Part.free].all ps.contains = true) : m₀.within (Mach.deliver m g t os) ps := by
  refine Mach.within_step h₀ ?_ hs
  clear h₀ hs
  unfold Mach.deliver
  try dsimp only
  repeat' first
    | with_reducible assumption
    | with_reducible exact Mach.within_refl _ _
    | decide
    | with_reducible apply Mach.deliverEvents_within
    | with_reducible apply Mach.deliverWords_within
    | with_reducible apply Mach.outputStatus_within
    | with_reducible apply Mach.toResampler_within
    | with_reducible apply Mach.within_ite
    | with_reducible apply Mach.within_ite2

theorem Mach.beginOutput_within {m₀ : Mach} (m : Mach) (g : Nat) {ps : List Part} (h₀ : m₀.within m ps)
    (hs : [Part.regs, Part.flt].all ps.contains = true) : m₀.within (Mach.beginOutput m g) ps := by
  refine Mach.within_step h₀ ?_ hs
  clear h₀ hs
  unfold Mach.beginOutput
  try dsimp only
  repeat' first
    | with_reducible assumption
    | with_reducible exact Mach.within_refl _ _
    | decide
    | with_reducible apply Mach.castleStep_within
    | with_reducible apply Mach.updGrp_within
    | with_reducible apply Mach.within_ite
    | with_reducible apply Mach.within_ite2

theorem Mach.afterOutput_within {m₀ : Mach} (m : Mach) (g t : Nat) {ps : List Part} (h₀ : m₀.within m ps)
    (hs : [Part.regs, Part.flt].all ps.contains = true) : m₀.within (Mach.afterOutput m g t) ps := by
  refine Mach.within_step h₀ ?_ hs
  clear h₀ hs
  unfold Mach.afterOutput
  try dsimp only
  repeat' first
    | with_reducible assumption
    | with_reducible exact Mach.within_refl _ _
    | decide
    | with_reducible apply Mach.applyPreset_within
    | with_reducible apply Mach.castleEnd_within
    | with_reducible apply Mach.updGrp_within
    | with_reducible apply Mach.within_ite
    | with_reducible apply Mach.within_ite2

theorem Mach.formOutput_within {m₀ : Mach} (m : Mach) (g t : Nat) {ps : List Part} (h₀ : m₀.within m ps)
    (hs : [Part.regs, Part.pa, Part.pb, Part.mot, Part.flt, Part.ang, Part.evt, Part.buf, Part.sec, Part.nv, Part.free].all ps.contains = true) : m₀.within (Mach.formOutput m g t) ps := by
  refine Mach.within_step h₀ ?_ hs
  clear h₀ hs
  unfold Mach.formOutput
  try dsimp only
  repeat' first
    | with_reducible assumption
    | with_reducible exact Mach.within_refl _ _
    | decide
    | with_reducible apply Mach.afterOutput_within
    | with_reducible apply Mach.beginOutput_within
    | with_reducible apply Mach.deliver_within
    | with_reducible apply Mach.updGrp_within
    | (with_reducible apply Mach.within_fst; assumption)
    | (with_reducible apply Mach.within_left; assumption)
    | (with_reducible apply Mach.within_mid; assumption)
    | dsimp only
    | split

theorem Mach.heldOutput_within {m₀ : Mach} (m : Mach) (g t : Nat) {ps : List Part} (h₀ : m₀.within m ps)
    (hs : [Part.regs, Part.flt, Part.ang].all ps.contains = true) : m₀.within (Mach.heldOutput m g t) ps := by
  refine Mach.within_step h₀ ?_ hs
  clear h₀ hs
  unfold Mach.heldOutput
  try dsimp only
  repeat' first
    | with_reducible assumption
    | with_reducible exact Mach.within_refl _ _
    | decide
    | with_reducible apply Mach.beginOutput_within
    | with_reducible apply Mach.castleEnd_within
    | with_reducible apply Mach.oweTiming_within
    | with_reducible apply Mach.toResampler_within
    | with_reducible apply Mach.updGrp_within
    | with_reducible apply Mach.within_ite
    | with_reducible apply Mach.within_ite2

theorem Mach.filterOutput_within {m₀ : Mach} (m : Mach) (g : Nat) (ins : List (List Sample)) {ps : List Part} (h₀ : m₀.within m ps)
    (hs : [Part.regs, Part.pa, Part.pb, Part.mot, Part.flt, Part.ang, Part.evt, Part.buf, Part.sec, Part.nv, Part.free].all ps.contains = true) : m₀.within (Mach.filterOutput m g ins) ps := by
  refine Mach.within_step h₀ ?_ hs
  clear h₀ hs
  unfold Mach.filterOutput
  try dsimp only
  repeat' first
    | with_reducible assumption
    | with_reducible exact Mach.within_refl _ _
    | decide
    | with_reducible apply Mach.formOutput_within
    | with_reducible apply Mach.heldOutput_within
    | with_reducible apply Mach.updGrp_within
    | with_reducible apply Mach.within_ite
    | with_reducible apply Mach.within_ite2

theorem Mach.feedAux_within {m₀ : Mach} (m : Mach) (g t : Nat) (v : Int) (clp : Bool) {ps : List Part} (h₀ : m₀.within m ps)
    (hs : [Part.regs, Part.flt].all ps.contains = true) : m₀.within (Mach.feedAux m g t v clp) ps := by
  refine Mach.within_step h₀ ?_ hs
  clear h₀ hs
  unfold Mach.feedAux
  try dsimp only
  repeat' first
    | with_reducible assumption
    | with_reducible exact Mach.within_refl _ _
    | decide
    | with_reducible apply Mach.firLeaves_within
    | with_reducible apply Mach.updGrp_within
    | with_reducible apply Mach.within_ite
    | with_reducible apply Mach.within_ite2

theorem Mach.sourceStart_within {m₀ : Mach} (m : Mach) (g : Nat) {ps : List Part} (h₀ : m₀.within m ps)
    (hs : [Part.regs, Part.mot, Part.flt].all ps.contains = true) : m₀.within (Mach.sourceStart m g) ps := by
  refine Mach.within_step h₀ ?_ hs
  clear h₀ hs
  unfold Mach.sourceStart
  try dsimp only
  repeat' first
    | with_reducible assumption
    | with_reducible exact Mach.within_refl _ _
    | decide
    | with_reducible apply Mach.startSource_within
    | with_reducible apply Mach.within_ite
    | with_reducible apply Mach.within_ite2
    | ((simp only [Mach.within_mk_eq]; with_reducible apply Mach.withinMk_of) <;> first | exact Or.inr rfl | with_reducible exact Or.inl rfl | with_reducible rfl | with_reducible exact fun h => h | (intro h; simpa [length_listUpd] using h) | (intro h; split <;> exact h) | exact fun h => h | skip)

theorem Mach.syncChains_within {m₀ : Mach} (m : Mach) (t : Nat) {ps : List Part} (h₀ : m₀.within m ps)
    (hs : [Part.regs, Part.flt].all ps.contains = true) : m₀.within (Mach.syncChains m t) ps := by
  refine Mach.within_step h₀ ?_ hs
  clear h₀ hs
  unfold Mach.syncChains
  try dsimp only
  repeat' first
    | with_reducible assumption
    | with_reducible exact Mach.within_refl _ _
    | decide
    | with_reducible apply Mach.restartZero_within
    | with_reducible apply Mach.within_fold
    | (intro k x hk; try dsimp only)

theorem Mach.syncReset_within {m₀ : Mach} (m : Mach) (t : Nat) {ps : List Part} (h₀ : m₀.within m ps)
    (hs : [Part.regs, Part.flt].all ps.contains = true) : m₀.within (Mach.syncReset m t) ps := by
  refine Mach.within_step h₀ ?_ hs
  clear h₀ hs
  unfold Mach.syncReset
  try dsimp only
  repeat' first
    | with_reducible assumption
    | with_reducible exact Mach.within_refl _ _
    | decide
    | with_reducible apply Mach.setFld_within
    | with_reducible apply Mach.setReg_within
    | with_reducible apply Mach.syncChains_within
    | ((simp only [Mach.within_mk_eq]; with_reducible apply Mach.withinMk_of) <;> first | exact Or.inr rfl | with_reducible exact Or.inl rfl | with_reducible rfl | with_reducible exact fun h => h | (intro h; simpa [length_listUpd] using h) | (intro h; split <;> exact h) | exact fun h => h | skip)

theorem Mach.syncArm_within {m₀ : Mach} (m : Mach) {ps : List Part} (h₀ : m₀.within m ps)
    (hs : [Part.regs, Part.flt].all ps.contains = true) : m₀.within (Mach.syncArm m) ps := by
  refine Mach.within_step h₀ ?_ hs
  clear h₀ hs
  unfold Mach.syncArm
  try dsimp only
  repeat' first
    | with_reducible assumption
    | with_reducible exact Mach.within_refl _ _
    | decide
    | with_reducible apply Mach.setFld_within
    | ((simp only [Mach.within_mk_eq]; with_reducible apply Mach.withinMk_of) <;> first | exact Or.inr rfl | with_reducible exact Or.inl rfl | with_reducible rfl | with_reducible exact fun h => h | (intro h; simpa [length_listUpd] using h) | (intro h; split <;> exact h) | exact fun h => h | skip)

theorem Mach.syncDue_within {m₀ : Mach} (m : Mach) (bus : Bool) {ps : List Part} (h₀ : m₀.within m ps)
    (hs : [Part.regs, Part.flt].all ps.contains = true) : m₀.within (Mach.syncDue m bus) ps := by
  refine Mach.within_step h₀ ?_ hs
  clear h₀ hs
  unfold Mach.syncDue
  try dsimp only
  repeat' first
    | with_reducible assumption
    | with_reducible exact Mach.within_refl _ _
    | decide
    | with_reducible apply Mach.syncReset_within
    | with_reducible apply Mach.within_ite
    | with_reducible apply Mach.within_ite2
    | (with_reducible apply Mach.within_fst; assumption)
    | (with_reducible apply Mach.within_left; assumption)
    | (with_reducible apply Mach.within_mid; assumption)
    | dsimp only
    | split

theorem Mach.putLib_within {m₀ : Mach} (m : Mach) (e : Nat) (bytes : List Byte) {ps : List Part} (h₀ : m₀.within m ps)
    (hs : [Part.nv].all ps.contains = true) : m₀.within (Mach.putLib m e bytes) ps := by
  refine Mach.within_step h₀ ?_ hs
  clear h₀ hs
  unfold Mach.putLib
  try dsimp only
  repeat' first
    | with_reducible assumption
    | with_reducible exact Mach.within_refl _ _
    | decide
    | ((simp only [Mach.within_mk_eq]; with_reducible apply Mach.withinMk_of) <;> first | exact Or.inr rfl | with_reducible exact Or.inl rfl | with_reducible rfl | with_reducible exact fun h => h | (intro h; simpa [length_listUpd] using h) | (intro h; split <;> exact h) | exact fun h => h | skip)

theorem Mach.saveCut_within {m₀ : Mach} (m : Mach) {ps : List Part} (h₀ : m₀.within m ps)
    (hs : [Part.flt, Part.nv].all ps.contains = true) : m₀.within (Mach.saveCut m) ps := by
  refine Mach.within_step h₀ ?_ hs
  clear h₀ hs
  unfold Mach.saveCut
  try dsimp only
  repeat' first
    | with_reducible assumption
    | with_reducible exact Mach.within_refl _ _
    | decide
    | with_reducible apply Mach.putLib_within
    | with_reducible apply Mach.within_ite
    | with_reducible apply Mach.within_ite2
    | (with_reducible apply Mach.within_fst; assumption)
    | (with_reducible apply Mach.within_left; assumption)
    | (with_reducible apply Mach.within_mid; assumption)
    | dsimp only
    | split
    | ((simp only [Mach.within_mk_eq]; with_reducible apply Mach.withinMk_of) <;> first | exact Or.inr rfl | with_reducible exact Or.inl rfl | with_reducible rfl | with_reducible exact fun h => h | (intro h; simpa [length_listUpd] using h) | (intro h; split <;> exact h) | exact fun h => h | skip)

end Sys2Proof.Machine
end

