-- ==== Sys2Proof/Laws/WithinMotion.lean ====
section
/-! SUPPORT. The reach of every operation of Machine/Motion.lean. -/

set_option linter.unusedTactic false
set_option linter.unusedSimpArgs false
set_option linter.unusedVariables false
set_option linter.unreachableTactic false
set_option linter.unnecessarySimpa false

namespace Sys2Proof.Machine

theorem Mach.servoReset_within {m₀ : Mach} (m : Mach) {ps : List Part} (h₀ : m₀.within m ps)
    (hs : [Part.mot].all ps.contains = true) : m₀.within (Mach.servoReset m) ps := by
  refine Mach.within_step h₀ ?_ hs
  clear h₀ hs
  unfold Mach.servoReset
  try dsimp only
  repeat' first
    | with_reducible assumption
    | with_reducible exact Mach.within_refl _ _
    | decide
    | ((simp only [Mach.within_mk_eq]; with_reducible apply Mach.withinMk_of) <;> first | exact Or.inr rfl | with_reducible exact Or.inl rfl | with_reducible rfl | with_reducible exact fun h => h | (intro h; simpa [length_listUpd] using h) | (intro h; split <;> exact h) | exact fun h => h | skip)

theorem Mach.acquireAll_within {m₀ : Mach} (m : Mach) {ps : List Part} (h₀ : m₀.within m ps)
    (hs : [Part.mot].all ps.contains = true) : m₀.within (Mach.acquireAll m) ps := by
  refine Mach.within_step h₀ ?_ hs
  clear h₀ hs
  unfold Mach.acquireAll
  try dsimp only
  repeat' first
    | with_reducible assumption
    | with_reducible exact Mach.within_refl _ _
    | decide
    | ((simp only [Mach.within_mk_eq]; with_reducible apply Mach.withinMk_of) <;> first | exact Or.inr rfl | with_reducible exact Or.inl rfl | with_reducible rfl | with_reducible exact fun h => h | (intro h; simpa [length_listUpd] using h) | (intro h; split <;> exact h) | exact fun h => h | skip)

theorem Mach.refOf_within {m₀ : Mach} (m : Mach) (i : HoldInput) (a : Nat) (h : Int) (q : AxisMeas) {ps : List Part} (h₀ : m₀.within m ps)
    (hs : [Part.free].all ps.contains = true) : m₀.within (Mach.refOf m i a h q).2 ps := by
  refine Mach.within_step h₀ ?_ hs
  clear h₀ hs
  unfold Mach.refOf
  try dsimp only
  repeat' first
    | with_reducible assumption
    | with_reducible exact Mach.within_refl _ _
    | decide
    | with_reducible apply Mach.drawBit_within
    | with_reducible apply Mach.within_ite
    | with_reducible apply Mach.within_ite2
    | (with_reducible apply Mach.within_fst; assumption)
    | (with_reducible apply Mach.within_left; assumption)
    | (with_reducible apply Mach.within_mid; assumption)
    | dsimp only
    | split

theorem Mach.servoAxis_within {m₀ : Mach} (m : Mach) (i : HoldInput) (a : Nat) (x : ServoAxis) {ps : List Part} (h₀ : m₀.within m ps)
    (hs : [Part.free].all ps.contains = true) : m₀.within (Mach.servoAxis m i a x).2.2.2 ps := by
  refine Mach.within_step h₀ ?_ hs
  clear h₀ hs
  unfold Mach.servoAxis
  try dsimp only
  repeat' first
    | with_reducible assumption
    | with_reducible exact Mach.within_refl _ _
    | decide
    | with_reducible apply Mach.refOf_within
    | with_reducible apply Mach.within_ite
    | with_reducible apply Mach.within_ite2
    | (with_reducible apply Mach.within_fst; assumption)
    | (with_reducible apply Mach.within_left; assumption)
    | (with_reducible apply Mach.within_mid; assumption)
    | dsimp only
    | split

theorem Mach.holdStatus_within {m₀ : Mach} (m : Mach) (nogyr : Bool) {ps : List Part} (h₀ : m₀.within m ps)
    (hs : [Part.regs].all ps.contains = true) : m₀.within (Mach.holdStatus m nogyr) ps := by
  refine Mach.within_step h₀ ?_ hs
  clear h₀ hs
  unfold Mach.holdStatus
  try dsimp only
  repeat' first
    | with_reducible assumption
    | with_reducible exact Mach.within_refl _ _
    | decide
    | with_reducible apply Mach.sqEvent_within

theorem Mach.windowChange_within {m₀ : Mach} (m : Mach) (u : Nat) {ps : List Part} (h₀ : m₀.within m ps)
    (hs : [Part.regs, Part.mot, Part.flt, Part.evt].all ps.contains = true) : m₀.within (Mach.windowChange m u) ps := by
  refine Mach.within_step h₀ ?_ hs
  clear h₀ hs
  unfold Mach.windowChange
  try dsimp only
  repeat' first
    | with_reducible assumption
    | with_reducible exact Mach.within_refl _ _
    | decide
    | with_reducible apply Mach.recResetGroup_within
    | with_reducible apply Mach.restartKept_within
    | with_reducible apply Mach.within_ite
    | with_reducible apply Mach.within_ite2
    | ((simp only [Mach.within_mk_eq]; with_reducible apply Mach.withinMk_of) <;> first | exact Or.inr rfl | with_reducible exact Or.inl rfl | with_reducible rfl | with_reducible exact fun h => h | (intro h; simpa [length_listUpd] using h) | (intro h; split <;> exact h) | exact fun h => h | skip)

theorem Mach.servoUpdate_within {m₀ : Mach} (m : Mach) (i : HoldInput) (u : Nat) {ps : List Part} (h₀ : m₀.within m ps)
    (hs : [Part.regs, Part.mot, Part.free].all ps.contains = true) : m₀.within (Mach.servoUpdate m i u) ps := by
  refine Mach.within_step h₀ ?_ hs
  clear h₀ hs
  unfold Mach.servoUpdate
  try dsimp only
  repeat' first
    | with_reducible assumption
    | with_reducible exact Mach.within_refl _ _
    | decide
    | with_reducible apply Mach.holdStatus_within
    | with_reducible apply Mach.servoAxis_within
    | with_reducible apply Mach.within_ite
    | with_reducible apply Mach.within_ite2
    | (with_reducible apply Mach.within_fst; assumption)
    | (with_reducible apply Mach.within_left; assumption)
    | (with_reducible apply Mach.within_mid; assumption)
    | dsimp only
    | split
    | ((simp only [Mach.within_mk_eq]; with_reducible apply Mach.withinMk_of) <;> first | exact Or.inr rfl | with_reducible exact Or.inl rfl | with_reducible rfl | with_reducible exact fun h => h | (intro h; simpa [length_listUpd] using h) | (intro h; split <;> exact h) | exact fun h => h | skip)

theorem Mach.servoSkip_within {m₀ : Mach} (m : Mach) (i : HoldInput) {ps : List Part} (h₀ : m₀.within m ps)
    (hs : [Part.mot].all ps.contains = true) : m₀.within (Mach.servoSkip m i) ps := by
  refine Mach.within_step h₀ ?_ hs
  clear h₀ hs
  unfold Mach.servoSkip
  try dsimp only
  repeat' first
    | with_reducible assumption
    | with_reducible exact Mach.within_refl _ _
    | decide
    | ((simp only [Mach.within_mk_eq]; with_reducible apply Mach.withinMk_of) <;> first | exact Or.inr rfl | with_reducible exact Or.inl rfl | with_reducible rfl | with_reducible exact fun h => h | (intro h; simpa [length_listUpd] using h) | (intro h; split <;> exact h) | exact fun h => h | skip)

theorem Mach.holdUpdate_within {m₀ : Mach} (m : Mach) (i : HoldInput) {ps : List Part} (h₀ : m₀.within m ps)
    (hs : [Part.regs, Part.mot, Part.flt, Part.evt, Part.free].all ps.contains = true) : m₀.within (Mach.holdUpdate m i) ps := by
  refine Mach.within_step h₀ ?_ hs
  clear h₀ hs
  unfold Mach.holdUpdate
  try dsimp only
  repeat' first
    | with_reducible assumption
    | with_reducible exact Mach.within_refl _ _
    | decide
    | with_reducible apply Mach.flushSeq_within
    | with_reducible apply Mach.servoSkip_within
    | with_reducible apply Mach.servoUpdate_within
    | with_reducible apply Mach.windowChange_within
    | with_reducible apply Mach.within_ite
    | with_reducible apply Mach.within_ite2
    | ((simp only [Mach.within_mk_eq]; with_reducible apply Mach.withinMk_of) <;> first | exact Or.inr rfl | with_reducible exact Or.inl rfl | with_reducible rfl | with_reducible exact fun h => h | (intro h; simpa [length_listUpd] using h) | (intro h; split <;> exact h) | exact fun h => h | skip)

theorem Mach.rangeChange_within {m₀ : Mach} (m : Mach) (g : Nat) {ps : List Part} (h₀ : m₀.within m ps)
    (hs : [Part.regs, Part.flt, Part.evt].all ps.contains = true) : m₀.within (Mach.rangeChange m g) ps := by
  refine Mach.within_step h₀ ?_ hs
  clear h₀ hs
  unfold Mach.rangeChange
  try dsimp only
  repeat' first
    | with_reducible assumption
    | with_reducible exact Mach.within_refl _ _
    | decide
    | with_reducible apply Mach.recResetGroup_within
    | with_reducible apply Mach.restartKept_within

theorem Mach.axmapChange_within {m₀ : Mach} (m : Mach) {ps : List Part} (h₀ : m₀.within m ps)
    (hs : [Part.regs, Part.mot, Part.flt, Part.evt].all ps.contains = true) : m₀.within (Mach.axmapChange m) ps := by
  refine Mach.within_step h₀ ?_ hs
  clear h₀ hs
  unfold Mach.axmapChange
  try dsimp only
  repeat' first
    | with_reducible assumption
    | with_reducible exact Mach.within_refl _ _
    | decide
    | with_reducible apply Mach.acquireAll_within
    | with_reducible apply Mach.rangeChange_within
    | with_reducible apply Mach.restartKept_within
    | ((simp only [Mach.within_mk_eq]; with_reducible apply Mach.withinMk_of) <;> first | exact Or.inr rfl | with_reducible exact Or.inl rfl | with_reducible rfl | with_reducible exact fun h => h | (intro h; simpa [length_listUpd] using h) | (intro h; split <;> exact h) | exact fun h => h | skip)

end Sys2Proof.Machine
end

