-- ==== Sys2Proof/Laws/WithinAngle.lean ====
section
/-! SUPPORT. The reach of every operation of Machine/Angle.lean. -/

set_option linter.unusedTactic false
set_option linter.unusedSimpArgs false
set_option linter.unusedVariables false
set_option linter.unreachableTactic false
set_option linter.unnecessarySimpa false

namespace Sys2Proof.Machine

theorem Mach.setLock_within {m₀ : Mach} (m : Mach) (l : Lock) (t : Int) {ps : List Part} (h₀ : m₀.within m ps)
    (hs : [Part.regs, Part.ang].all ps.contains = true) : m₀.within (Mach.setLock m l t) ps := by
  refine Mach.within_step h₀ ?_ hs
  clear h₀ hs
  unfold Mach.setLock
  try dsimp only
  repeat' first
    | with_reducible assumption
    | with_reducible exact Mach.within_refl _ _
    | decide
    | with_reducible apply Mach.sqBit_within
    | with_reducible apply Mach.sqEvent_within
    | with_reducible apply Mach.within_ite
    | with_reducible apply Mach.within_ite2
    | (with_reducible apply Mach.within_fst; assumption)
    | (with_reducible apply Mach.within_left; assumption)
    | (with_reducible apply Mach.within_mid; assumption)
    | dsimp only
    | split
    | ((simp only [Mach.within_mk_eq]; with_reducible apply Mach.withinMk_of) <;> first | exact Or.inr rfl | with_reducible exact Or.inl rfl | with_reducible rfl | with_reducible exact fun h => h | (intro h; simpa [length_listUpd] using h) | (intro h; split <;> exact h) | exact fun h => h | skip)

theorem Mach.enterSearch_within {m₀ : Mach} (m : Mach) {ps : List Part} (h₀ : m₀.within m ps)
    (hs : [Part.regs, Part.ang].all ps.contains = true) : m₀.within (Mach.enterSearch m) ps := by
  refine Mach.within_step h₀ ?_ hs
  clear h₀ hs
  unfold Mach.enterSearch
  try dsimp only
  repeat' first
    | with_reducible assumption
    | with_reducible exact Mach.within_refl _ _
    | decide
    | with_reducible apply Mach.setLock_within
    | (with_reducible apply Mach.within_fst; assumption)
    | (with_reducible apply Mach.within_left; assumption)
    | (with_reducible apply Mach.within_mid; assumption)
    | dsimp only
    | split
    | ((simp only [Mach.within_mk_eq]; with_reducible apply Mach.withinMk_of) <;> first | exact Or.inr rfl | with_reducible exact Or.inl rfl | with_reducible rfl | with_reducible exact fun h => h | (intro h; simpa [length_listUpd] using h) | (intro h; split <;> exact h) | exact fun h => h | skip)

theorem Mach.angStart_within {m₀ : Mach} (m : Mach) {ps : List Part} (h₀ : m₀.within m ps)
    (hs : [Part.regs, Part.ang].all ps.contains = true) : m₀.within (Mach.angStart m) ps := by
  refine Mach.within_step h₀ ?_ hs
  clear h₀ hs
  unfold Mach.angStart
  try dsimp only
  repeat' first
    | with_reducible assumption
    | with_reducible exact Mach.within_refl _ _
    | decide
    | with_reducible apply Mach.enterSearch_within
    | ((simp only [Mach.within_mk_eq]; with_reducible apply Mach.withinMk_of) <;> first | exact Or.inr rfl | with_reducible exact Or.inl rfl | with_reducible rfl | with_reducible exact fun h => h | (intro h; simpa [length_listUpd] using h) | (intro h; split <;> exact h) | exact fun h => h | skip)

theorem Mach.angJoin_within {m₀ : Mach} (m : Mach) {ps : List Part} (h₀ : m₀.within m ps)
    (hs : [Part.regs, Part.ang].all ps.contains = true) : m₀.within (Mach.angJoin m) ps := by
  refine Mach.within_step h₀ ?_ hs
  clear h₀ hs
  unfold Mach.angJoin
  try dsimp only
  repeat' first
    | with_reducible assumption
    | with_reducible exact Mach.within_refl _ _
    | decide
    | with_reducible apply Mach.angStart_within
    | with_reducible apply Mach.within_ite
    | with_reducible apply Mach.within_ite2

theorem Mach.angEnable_within {m₀ : Mach} (m : Mach) {ps : List Part} (h₀ : m₀.within m ps)
    (hs : [Part.regs, Part.ang].all ps.contains = true) : m₀.within (Mach.angEnable m) ps := by
  refine Mach.within_step h₀ ?_ hs
  clear h₀ hs
  unfold Mach.angEnable
  try dsimp only
  repeat' first
    | with_reducible assumption
    | with_reducible exact Mach.within_refl _ _
    | decide
    | with_reducible apply Mach.angJoin_within
    | with_reducible apply Mach.enterSearch_within
    | ((simp only [Mach.within_mk_eq]; with_reducible apply Mach.withinMk_of) <;> first | exact Or.inr rfl | with_reducible exact Or.inl rfl | with_reducible rfl | with_reducible exact fun h => h | (intro h; simpa [length_listUpd] using h) | (intro h; split <;> exact h) | exact fun h => h | skip)

theorem Mach.revBegin_within {m₀ : Mach} (m : Mach) (t base : Int) {ps : List Part} (h₀ : m₀.within m ps)
    (hs : [Part.regs, Part.ang].all ps.contains = true) : m₀.within (Mach.revBegin m t base) ps := by
  refine Mach.within_step h₀ ?_ hs
  clear h₀ hs
  unfold Mach.revBegin
  try dsimp only
  repeat' first
    | with_reducible assumption
    | with_reducible exact Mach.within_refl _ _
    | decide
    | with_reducible apply Mach.sqBit_within
    | with_reducible apply Mach.within_ite
    | with_reducible apply Mach.within_ite2
    | (with_reducible apply Mach.within_fst; assumption)
    | (with_reducible apply Mach.within_left; assumption)
    | (with_reducible apply Mach.within_mid; assumption)
    | dsimp only
    | split
    | ((simp only [Mach.within_mk_eq]; with_reducible apply Mach.withinMk_of) <;> first | exact Or.inr rfl | with_reducible exact Or.inl rfl | with_reducible rfl | with_reducible exact fun h => h | (intro h; simpa [length_listUpd] using h) | (intro h; split <;> exact h) | exact fun h => h | skip)

theorem Mach.revSeek_within {m₀ : Mach} (m : Mach) {ps : List Part} (h₀ : m₀.within m ps)
    (hs : [Part.regs, Part.ang].all ps.contains = true) : m₀.within (Mach.revSeek m) ps := by
  refine Mach.within_step h₀ ?_ hs
  clear h₀ hs
  unfold Mach.revSeek
  try dsimp only
  repeat' first
    | with_reducible assumption
    | with_reducible exact Mach.within_refl _ _
    | decide
    | with_reducible apply Mach.revBegin_within
    | with_reducible apply Mach.within_ite
    | with_reducible apply Mach.within_ite2
    | (with_reducible apply Mach.within_fst; assumption)
    | (with_reducible apply Mach.within_left; assumption)
    | (with_reducible apply Mach.within_mid; assumption)
    | dsimp only
    | split
    | ((simp only [Mach.within_mk_eq]; with_reducible apply Mach.withinMk_of) <;> first | exact Or.inr rfl | with_reducible exact Or.inl rfl | with_reducible rfl | with_reducible exact fun h => h | (intro h; simpa [length_listUpd] using h) | (intro h; split <;> exact h) | exact fun h => h | skip)

theorem Mach.freeRun_within {m₀ : Mach} (m : Mach) (t : Int) {ps : List Part} (h₀ : m₀.within m ps)
    (hs : [Part.regs, Part.ang].all ps.contains = true) : m₀.within (Mach.freeRun m t) ps := by
  refine Mach.within_step h₀ ?_ hs
  clear h₀ hs
  unfold Mach.freeRun
  try dsimp only
  repeat' first
    | with_reducible assumption
    | with_reducible exact Mach.within_refl _ _
    | decide
    | with_reducible apply Mach.revBegin_within
    | with_reducible apply Mach.setLock_within
    | ((simp only [Mach.within_mk_eq]; with_reducible apply Mach.withinMk_of) <;> first | exact Or.inr rfl | with_reducible exact Or.inl rfl | with_reducible rfl | with_reducible exact fun h => h | (intro h; simpa [length_listUpd] using h) | (intro h; split <;> exact h) | exact fun h => h | skip)

theorem Mach.angleRate_within {m₀ : Mach} (m : Mach) (ins : List Sample) {ps : List Part} (h₀ : m₀.within m ps)
    (hs : [Part.regs, Part.ang].all ps.contains = true) : m₀.within (Mach.angleRate m ins) ps := by
  refine Mach.within_step h₀ ?_ hs
  clear h₀ hs
  unfold Mach.angleRate
  try dsimp only
  repeat' first
    | with_reducible assumption
    | with_reducible exact Mach.within_refl _ _
    | decide
    | with_reducible apply Mach.angJoin_within
    | with_reducible apply Mach.enterSearch_within
    | with_reducible apply Mach.freeRun_within
    | with_reducible apply Mach.revSeek_within
    | with_reducible apply Mach.sqBit_within
    | with_reducible apply Mach.within_ite
    | with_reducible apply Mach.within_ite2
    | (with_reducible apply Mach.within_fst; assumption)
    | (with_reducible apply Mach.within_left; assumption)
    | (with_reducible apply Mach.within_mid; assumption)
    | dsimp only
    | split
    | ((simp only [Mach.within_mk_eq]; with_reducible apply Mach.withinMk_of) <;> first | exact Or.inr rfl | with_reducible exact Or.inl rfl | with_reducible rfl | with_reducible exact fun h => h | (intro h; simpa [length_listUpd] using h) | (intro h; split <;> exact h) | exact fun h => h | skip)

theorem Mach.spinLow_within {m₀ : Mach} (m : Mach) {ps : List Part} (h₀ : m₀.within m ps)
    (hs : [Part.regs, Part.ang].all ps.contains = true) : m₀.within (Mach.spinLow m) ps := by
  refine Mach.within_step h₀ ?_ hs
  clear h₀ hs
  unfold Mach.spinLow
  try dsimp only
  repeat' first
    | with_reducible assumption
    | with_reducible exact Mach.within_refl _ _
    | decide
    | with_reducible apply Mach.enterSearch_within
    | with_reducible apply Mach.within_ite
    | with_reducible apply Mach.within_ite2
    | (with_reducible apply Mach.within_fst; assumption)
    | (with_reducible apply Mach.within_left; assumption)
    | (with_reducible apply Mach.within_mid; assumption)
    | dsimp only
    | split

theorem Mach.shiftTheta_within {m₀ : Mach} (m : Mach) (t d : Int) {ps : List Part} (h₀ : m₀.within m ps)
    (hs : [Part.ang].all ps.contains = true) : m₀.within (Mach.shiftTheta m t d) ps := by
  refine Mach.within_step h₀ ?_ hs
  clear h₀ hs
  unfold Mach.shiftTheta
  try dsimp only
  repeat' first
    | with_reducible assumption
    | with_reducible exact Mach.within_refl _ _
    | decide
    | with_reducible apply Mach.within_ite
    | with_reducible apply Mach.within_ite2
    | ((simp only [Mach.within_mk_eq]; with_reducible apply Mach.withinMk_of) <;> first | exact Or.inr rfl | with_reducible exact Or.inl rfl | with_reducible rfl | with_reducible exact fun h => h | (intro h; simpa [length_listUpd] using h) | (intro h; split <;> exact h) | exact fun h => h | skip)

theorem Mach.setTheta_within {m₀ : Mach} (m : Mach) (t now want : Int) {ps : List Part} (h₀ : m₀.within m ps)
    (hs : [Part.ang].all ps.contains = true) : m₀.within (Mach.setTheta m t now want) ps := by
  refine Mach.within_step h₀ ?_ hs
  clear h₀ hs
  unfold Mach.setTheta
  try dsimp only
  repeat' first
    | with_reducible assumption
    | with_reducible exact Mach.within_refl _ _
    | decide
    | with_reducible apply Mach.shiftTheta_within
    | ((simp only [Mach.within_mk_eq]; with_reducible apply Mach.withinMk_of) <;> first | exact Or.inr rfl | with_reducible exact Or.inl rfl | with_reducible rfl | with_reducible exact fun h => h | (intro h; simpa [length_listUpd] using h) | (intro h; split <;> exact h) | exact fun h => h | skip)

theorem Mach.loopRegs_within {m₀ : Mach} (m : Mach) (e : Int) {ps : List Part} (h₀ : m₀.within m ps)
    (hs : [Part.regs].all ps.contains = true) : m₀.within (Mach.loopRegs m e) ps := by
  refine Mach.within_step h₀ ?_ hs
  clear h₀ hs
  unfold Mach.loopRegs
  try dsimp only
  repeat' first
    | with_reducible assumption
    | with_reducible exact Mach.within_refl _ _
    | decide
    | with_reducible apply Mach.setReg_within

theorem Mach.beginIfWhole_within {m₀ : Mach} (m : Mach) (t th : Int) {ps : List Part} (h₀ : m₀.within m ps)
    (hs : [Part.regs, Part.ang].all ps.contains = true) : m₀.within (Mach.beginIfWhole m t th) ps := by
  refine Mach.within_step h₀ ?_ hs
  clear h₀ hs
  unfold Mach.beginIfWhole
  try dsimp only
  repeat' first
    | with_reducible assumption
    | with_reducible exact Mach.within_refl _ _
    | decide
    | with_reducible apply Mach.revBegin_within
    | with_reducible apply Mach.revSeek_within
    | with_reducible apply Mach.within_ite
    | with_reducible apply Mach.within_ite2

theorem Mach.stateRules_within {m₀ : Mach} (m : Mach) (t e : Int) {ps : List Part} (h₀ : m₀.within m ps)
    (hs : [Part.regs, Part.ang].all ps.contains = true) : m₀.within (Mach.stateRules m t e) ps := by
  refine Mach.within_step h₀ ?_ hs
  clear h₀ hs
  unfold Mach.stateRules
  try dsimp only
  repeat' first
    | with_reducible assumption
    | with_reducible exact Mach.within_refl _ _
    | decide
    | with_reducible apply Mach.setLock_within
    | with_reducible apply Mach.within_ite
    | with_reducible apply Mach.within_ite2
    | (with_reducible apply Mach.within_fst; assumption)
    | (with_reducible apply Mach.within_left; assumption)
    | (with_reducible apply Mach.within_mid; assumption)
    | dsimp only
    | split
    | ((simp only [Mach.within_mk_eq]; with_reducible apply Mach.withinMk_of) <;> first | exact Or.inr rfl | with_reducible exact Or.inl rfl | with_reducible rfl | with_reducible exact fun h => h | (intro h; simpa [length_listUpd] using h) | (intro h; split <;> exact h) | exact fun h => h | skip)

theorem Mach.phaseLoop_within {m₀ : Mach} (m : Mach) (t th : Int) {ps : List Part} (h₀ : m₀.within m ps)
    (hs : [Part.regs, Part.ang].all ps.contains = true) : m₀.within (Mach.phaseLoop m t th) ps := by
  refine Mach.within_step h₀ ?_ hs
  clear h₀ hs
  unfold Mach.phaseLoop
  try dsimp only
  repeat' first
    | with_reducible assumption
    | with_reducible exact Mach.within_refl _ _
    | decide
    | with_reducible apply Mach.beginIfWhole_within
    | with_reducible apply Mach.loopRegs_within
    | with_reducible apply Mach.setLock_within
    | with_reducible apply Mach.setTheta_within
    | with_reducible apply Mach.shiftTheta_within
    | with_reducible apply Mach.sqBit_within
    | with_reducible apply Mach.stateRules_within
    | with_reducible apply Mach.within_ite
    | with_reducible apply Mach.within_ite2
    | ((simp only [Mach.within_mk_eq]; with_reducible apply Mach.withinMk_of) <;> first | exact Or.inr rfl | with_reducible exact Or.inl rfl | with_reducible rfl | with_reducible exact fun h => h | (intro h; simpa [length_listUpd] using h) | (intro h; split <;> exact h) | exact fun h => h | skip)

theorem Mach.refSearch_within {m₀ : Mach} (m : Mach) (t th : Int) {ps : List Part} (h₀ : m₀.within m ps)
    (hs : [Part.regs, Part.ang].all ps.contains = true) : m₀.within (Mach.refSearch m t th) ps := by
  refine Mach.within_step h₀ ?_ hs
  clear h₀ hs
  unfold Mach.refSearch
  try dsimp only
  repeat' first
    | with_reducible assumption
    | with_reducible exact Mach.within_refl _ _
    | decide
    | with_reducible apply Mach.beginIfWhole_within
    | with_reducible apply Mach.setLock_within
    | with_reducible apply Mach.setTheta_within
    | with_reducible apply Mach.within_ite
    | with_reducible apply Mach.within_ite2
    | ((simp only [Mach.within_mk_eq]; with_reducible apply Mach.withinMk_of) <;> first | exact Or.inr rfl | with_reducible exact Or.inl rfl | with_reducible rfl | with_reducible exact fun h => h | (intro h; simpa [length_listUpd] using h) | (intro h; split <;> exact h) | exact fun h => h | skip)

theorem Mach.reference_within {m₀ : Mach} (m : Mach) (t : Int) {ps : List Part} (h₀ : m₀.within m ps)
    (hs : [Part.regs, Part.ang].all ps.contains = true) : m₀.within (Mach.reference m t) ps := by
  refine Mach.within_step h₀ ?_ hs
  clear h₀ hs
  unfold Mach.reference
  try dsimp only
  repeat' first
    | with_reducible assumption
    | with_reducible exact Mach.within_refl _ _
    | decide
    | with_reducible apply Mach.count_within
    | with_reducible apply Mach.phaseLoop_within
    | with_reducible apply Mach.refSearch_within
    | with_reducible apply Mach.sqBit_within
    | with_reducible apply Mach.within_ite
    | with_reducible apply Mach.within_ite2
    | (with_reducible apply Mach.within_fst; assumption)
    | (with_reducible apply Mach.within_left; assumption)
    | (with_reducible apply Mach.within_mid; assumption)
    | dsimp only
    | split
    | ((simp only [Mach.within_mk_eq]; with_reducible apply Mach.withinMk_of) <;> first | exact Or.inr rfl | with_reducible exact Or.inl rfl | with_reducible rfl | with_reducible exact fun h => h | (intro h; simpa [length_listUpd] using h) | (intro h; split <;> exact h) | exact fun h => h | skip)

theorem Mach.keyMiss_within {m₀ : Mach} (m : Mach) {ps : List Part} (h₀ : m₀.within m ps)
    (hs : [Part.regs, Part.ang].all ps.contains = true) : m₀.within (Mach.keyMiss m) ps := by
  refine Mach.within_step h₀ ?_ hs
  clear h₀ hs
  unfold Mach.keyMiss
  try dsimp only
  repeat' first
    | with_reducible assumption
    | with_reducible exact Mach.within_refl _ _
    | decide
    | with_reducible apply Mach.count_within
    | with_reducible apply Mach.setLock_within
    | with_reducible apply Mach.sqBit_within
    | with_reducible apply Mach.within_ite
    | with_reducible apply Mach.within_ite2
    | (with_reducible apply Mach.within_fst; assumption)
    | (with_reducible apply Mach.within_left; assumption)
    | (with_reducible apply Mach.within_mid; assumption)
    | dsimp only
    | split
    | ((simp only [Mach.within_mk_eq]; with_reducible apply Mach.withinMk_of) <;> first | exact Or.inr rfl | with_reducible exact Or.inl rfl | with_reducible rfl | with_reducible exact fun h => h | (intro h; simpa [length_listUpd] using h) | (intro h; split <;> exact h) | exact fun h => h | skip)

theorem Mach.oneTimes_within {m₀ : Mach} (m : Mach) (vs : List Int) {ps : List Part} (h₀ : m₀.within m ps)
    (hs : [Part.free].all ps.contains = true) : m₀.within (Mach.oneTimes m vs).2.2 ps := by
  refine Mach.within_step h₀ ?_ hs
  clear h₀ hs
  unfold Mach.oneTimes
  try dsimp only
  repeat' first
    | with_reducible assumption
    | with_reducible exact Mach.within_refl _ _
    | decide
    | with_reducible apply Mach.drawNat_within
    | with_reducible apply Mach.within_ite
    | with_reducible apply Mach.within_ite3
    | with_reducible apply Mach.within_ite2
    | (with_reducible apply Mach.within_fst; assumption)
    | (with_reducible apply Mach.within_left; assumption)
    | (with_reducible apply Mach.within_mid; assumption)
    | dsimp only
    | split

theorem Mach.stepsOut_within {m₀ : Mach} (m : Mach) (uns : Bool) (ss : List Step) {ps : List Part} (h₀ : m₀.within m ps)
    (hs : [Part.regs, Part.pa, Part.pb, Part.flt, Part.evt, Part.buf, Part.sec, Part.nv, Part.free].all ps.contains = true) : m₀.within (Mach.stepsOut m uns ss) ps := by
  refine Mach.within_step h₀ ?_ hs
  clear h₀ hs
  unfold Mach.stepsOut
  try dsimp only
  repeat' first
    | with_reducible assumption
    | with_reducible exact Mach.within_refl _ _
    | decide
    | with_reducible apply Mach.evtOutput_within
    | with_reducible apply Mach.within_fold
    | (intro k x hk; try dsimp only)

theorem Mach.revEvents_within {m₀ : Mach} (m : Mach) (st : Lock) (t : Int) (period : Nat) (uns clp blk : Bool) (os : List OneTimes) {ps : List Part} (h₀ : m₀.within m ps)
    (hs : [Part.regs, Part.pa, Part.pb, Part.flt, Part.evt, Part.buf, Part.sec, Part.nv, Part.free].all ps.contains = true) : m₀.within (Mach.revEvents m st t period uns clp blk os) ps := by
  refine Mach.within_step h₀ ?_ hs
  clear h₀ hs
  unfold Mach.revEvents
  try dsimp only
  repeat' first
    | with_reducible assumption
    | with_reducible exact Mach.within_refl _ _
    | decide
    | with_reducible apply Mach.evtOutput_within
    | with_reducible apply Mach.imbAt_within
    | with_reducible apply Mach.within_ite
    | with_reducible apply Mach.within_ite2
    | with_reducible apply Mach.within_fold
    | (intro k x hk; try dsimp only)

theorem Mach.deliverRev_within {m₀ : Mach} (m : Mach) (t0 t1 : Int) (period : Nat) (st : Lock) (track nokey : Bool) (ss : List Step) {ps : List Part} (h₀ : m₀.within m ps)
    (hs : [Part.regs, Part.pa, Part.pb, Part.flt, Part.evt, Part.buf, Part.sec, Part.nv, Part.free].all ps.contains = true) : m₀.within (Mach.deliverRev m t0 t1 period st track nokey ss) ps := by
  refine Mach.within_step h₀ ?_ hs
  clear h₀ hs
  unfold Mach.deliverRev
  try dsimp only
  repeat' first
    | with_reducible assumption
    | with_reducible exact Mach.within_refl _ _
    | decide
    | with_reducible apply Mach.offer_within
    | with_reducible apply Mach.oneTimes_within
    | with_reducible apply Mach.revEvents_within
    | with_reducible apply Mach.stepsOut_within
    | (with_reducible apply Mach.within_fst; assumption)
    | (with_reducible apply Mach.within_left; assumption)
    | (with_reducible apply Mach.within_mid; assumption)
    | dsimp only
    | split

theorem Mach.deliverOver_within {m₀ : Mach} (m : Mach) (t0 t1 : Int) (period : Nat) (st : Lock) (nokey : Bool) {ps : List Part} (h₀ : m₀.within m ps)
    (hs : [Part.regs, Part.pa, Part.pb, Part.flt, Part.buf, Part.sec, Part.nv].all ps.contains = true) : m₀.within (Mach.deliverOver m t0 t1 period st nokey) ps := by
  refine Mach.within_step h₀ ?_ hs
  clear h₀ hs
  unfold Mach.deliverOver
  try dsimp only
  repeat' first
    | with_reducible assumption
    | with_reducible exact Mach.within_refl _ _
    | decide
    | with_reducible apply Mach.count_within
    | with_reducible apply Mach.offer_within
    | with_reducible apply Mach.sqBit_within

theorem Mach.revNext_within {m₀ : Mach} (m : Mach) (t1 base : Int) (period : Nat) (accepted : Bool) {ps : List Part} (h₀ : m₀.within m ps)
    (hs : [Part.regs, Part.ang].all ps.contains = true) : m₀.within (Mach.revNext m t1 base period accepted) ps := by
  refine Mach.within_step h₀ ?_ hs
  clear h₀ hs
  unfold Mach.revNext
  try dsimp only
  repeat' first
    | with_reducible assumption
    | with_reducible exact Mach.within_refl _ _
    | decide
    | with_reducible apply Mach.enterSearch_within
    | with_reducible apply Mach.revBegin_within
    | with_reducible apply Mach.setReg_within
    | with_reducible apply Mach.within_ite
    | with_reducible apply Mach.within_ite2
    | ((simp only [Mach.within_mk_eq]; with_reducible apply Mach.withinMk_of) <;> first | exact Or.inr rfl | with_reducible exact Or.inl rfl | with_reducible rfl | with_reducible exact fun h => h | (intro h; simpa [length_listUpd] using h) | (intro h; split <;> exact h) | exact fun h => h | skip)

theorem Mach.revolutionEnd_within {m₀ : Mach} (m : Mach) {ps : List Part} (h₀ : m₀.within m ps)
    (hs : [Part.regs, Part.pa, Part.pb, Part.flt, Part.ang, Part.evt, Part.buf, Part.sec, Part.nv, Part.free].all ps.contains = true) : m₀.within (Mach.revolutionEnd m) ps := by
  refine Mach.within_step h₀ ?_ hs
  clear h₀ hs
  unfold Mach.revolutionEnd
  try dsimp only
  repeat' first
    | with_reducible assumption
    | with_reducible exact Mach.within_refl _ _
    | decide
    | with_reducible apply Mach.deliverOver_within
    | with_reducible apply Mach.deliverRev_within
    | with_reducible apply Mach.revNext_within
    | with_reducible apply Mach.within_ite
    | with_reducible apply Mach.within_ite2
    | (with_reducible apply Mach.within_fst; assumption)
    | (with_reducible apply Mach.within_left; assumption)
    | (with_reducible apply Mach.within_mid; assumption)
    | dsimp only
    | split

theorem Mach.keyInstant_within {m₀ : Mach} (m : Mach) (t : Int) {ps : List Part} (h₀ : m₀.within m ps)
    (hs : [Part.regs, Part.pa, Part.pb, Part.flt, Part.ang, Part.evt, Part.buf, Part.sec, Part.nv, Part.free].all ps.contains = true) : m₀.within (Mach.keyInstant m t) ps := by
  refine Mach.within_step h₀ ?_ hs
  clear h₀ hs
  unfold Mach.keyInstant
  try dsimp only
  repeat' first
    | with_reducible assumption
    | with_reducible exact Mach.within_refl _ _
    | decide
    | with_reducible apply Mach.revInstant_within
    | with_reducible apply Mach.within_ite
    | with_reducible apply Mach.within_ite2
    | ((simp only [Mach.within_mk_eq]; with_reducible apply Mach.withinMk_of) <;> first | exact Or.inr rfl | with_reducible exact Or.inl rfl | with_reducible rfl | with_reducible exact fun h => h | (intro h; simpa [length_listUpd] using h) | (intro h; split <;> exact h) | exact fun h => h | skip)

end Sys2Proof.Machine
end

