-- ==== Sys2Proof/Laws/WithinAuxFrontEnd.lean ====
section
/-! SUPPORT. The reach of every operation of Machine/AuxFrontEnd.lean. -/

set_option linter.unusedTactic false
set_option linter.unusedSimpArgs false
set_option linter.unusedVariables false
set_option linter.unreachableTactic false
set_option linter.unnecessarySimpa false

namespace Sys2Proof.Machine

theorem Mach.updChan_within {m₀ : Mach} (m : Mach) (n : Nat) (f : AuxChan → AuxChan) {ps : List Part} (h₀ : m₀.within m ps)
    (hs : [Part.aux].all ps.contains = true) : m₀.within (Mach.updChan m n f) ps := by
  refine Mach.within_step h₀ ?_ hs
  clear h₀ hs
  unfold Mach.updChan
  try dsimp only
  repeat' first
    | with_reducible assumption
    | with_reducible exact Mach.within_refl _ _
    | decide
    | ((simp only [Mach.within_mk_eq]; with_reducible apply Mach.withinMk_of) <;> first | exact Or.inr rfl | with_reducible exact Or.inl rfl | with_reducible rfl | with_reducible exact fun h => h | (intro h; simpa [length_listUpd] using h) | (intro h; split <;> exact h) | exact fun h => h | skip)

theorem Mach.auxAdopt_within {m₀ : Mach} (m : Mach) (n s : Nat) {ps : List Part} (h₀ : m₀.within m ps)
    (hs : [Part.flt, Part.aux].all ps.contains = true) : m₀.within (Mach.auxAdopt m n s) ps := by
  refine Mach.within_step h₀ ?_ hs
  clear h₀ hs
  unfold Mach.auxAdopt
  try dsimp only
  repeat' first
    | with_reducible assumption
    | with_reducible exact Mach.within_refl _ _
    | decide
    | with_reducible apply Mach.stopSource_within
    | with_reducible apply Mach.updChan_within
    | with_reducible apply Mach.within_ite
    | with_reducible apply Mach.within_ite2

theorem Mach.auxTick_within {m₀ : Mach} (m : Mach) {ps : List Part} (h₀ : m₀.within m ps)
    (hs : [Part.flt, Part.aux].all ps.contains = true) : m₀.within (Mach.auxTick m) ps := by
  refine Mach.within_step h₀ ?_ hs
  clear h₀ hs
  unfold Mach.auxTick
  try dsimp only
  repeat' first
    | with_reducible assumption
    | with_reducible exact Mach.within_refl _ _
    | decide
    | with_reducible apply Mach.auxAdopt_within
    | with_reducible apply Mach.within_fold
    | (intro k x hk; try dsimp only)
    | (intro k hk; try dsimp only)

theorem Mach.auxChange_within {m₀ : Mach} (m : Mach) (n t : Nat) (c : AuxCfg) (restart : Bool) {ps : List Part} (h₀ : m₀.within m ps)
    (hs : [Part.aux].all ps.contains = true) : m₀.within (Mach.auxChange m n t c restart) ps := by
  refine Mach.within_step h₀ ?_ hs
  clear h₀ hs
  unfold Mach.auxChange
  try dsimp only
  repeat' first
    | with_reducible assumption
    | with_reducible exact Mach.within_refl _ _
    | decide
    | with_reducible apply Mach.updChan_within

theorem Mach.auxChanges_within {m₀ : Mach} (m : Mach) (old : Nat → AuxCfg) {ps : List Part} (h₀ : m₀.within m ps)
    (hs : [Part.aux].all ps.contains = true) : m₀.within (Mach.auxChanges m old) ps := by
  refine Mach.within_step h₀ ?_ hs
  clear h₀ hs
  unfold Mach.auxChanges
  try dsimp only
  repeat' first
    | with_reducible assumption
    | with_reducible exact Mach.within_refl _ _
    | decide
    | with_reducible apply Mach.auxChange_within
    | with_reducible apply Mach.within_ite
    | with_reducible apply Mach.within_ite2
    | with_reducible apply Mach.within_fold
    | (intro k x hk; try dsimp only)
    | ((simp only [Mach.within_mk_eq]; with_reducible apply Mach.withinMk_of) <;> first | exact Or.inr rfl | with_reducible exact Or.inl rfl | with_reducible rfl | with_reducible exact fun h => h | (intro h; simpa [length_listUpd] using h) | (intro h; split <;> exact h) | exact fun h => h | skip)

theorem Mach.rawCode_within {m₀ : Mach} (m : Mach) (gain vin vref : Int) {ps : List Part} (h₀ : m₀.within m ps)
    (hs : [Part.free].all ps.contains = true) : m₀.within (Mach.rawCode m gain vin vref).2.2 ps := by
  refine Mach.within_step h₀ ?_ hs
  clear h₀ hs
  unfold Mach.rawCode
  try dsimp only
  repeat' first
    | with_reducible assumption
    | with_reducible exact Mach.within_refl _ _
    | decide
    | with_reducible apply Mach.drawNat_within
    | with_reducible apply Mach.within_ite
    | with_reducible apply Mach.within_ite3
    | with_reducible apply Mach.within_ite2
    | (with_reducible apply Mach.within_fst; assumption)
    | (with_reducible apply Mach.within_left; assumption)
    | (with_reducible apply Mach.within_mid; assumption)
    | dsimp only
    | split

theorem Mach.curveOut_within {m₀ : Mach} (m : Mach) (c : Nat) (r : Curve) {ps : List Part} (h₀ : m₀.within m ps)
    (hs : [Part.free].all ps.contains = true) : m₀.within (Mach.curveOut m c r).2.2 ps := by
  refine Mach.within_step h₀ ?_ hs
  clear h₀ hs
  unfold Mach.curveOut
  try dsimp only
  repeat' first
    | with_reducible assumption
    | with_reducible exact Mach.within_refl _ _
    | decide
    | with_reducible apply Mach.drawNat_within
    | with_reducible apply Mach.within_ite
    | with_reducible apply Mach.within_ite3
    | with_reducible apply Mach.within_ite2
    | (with_reducible apply Mach.within_fst; assumption)
    | (with_reducible apply Mach.within_left; assumption)
    | (with_reducible apply Mach.within_mid; assumption)
    | dsimp only
    | split

theorem Mach.linearise_within {m₀ : Mach} (m : Mach) (n j : Nat) (c : Int) (g : Nat) {ps : List Part} (h₀ : m₀.within m ps)
    (hs : [Part.aux, Part.free].all ps.contains = true) : m₀.within (Mach.linearise m n j c g).2 ps := by
  refine Mach.within_step h₀ ?_ hs
  clear h₀ hs
  unfold Mach.linearise
  try dsimp only
  repeat' first
    | with_reducible assumption
    | with_reducible exact Mach.within_refl _ _
    | decide
    | with_reducible apply Mach.curveOut_within
    | with_reducible apply Mach.updChan_within
    | with_reducible apply Mach.within_ite
    | with_reducible apply Mach.within_ite2
    | (with_reducible apply Mach.within_fst; assumption)
    | (with_reducible apply Mach.within_left; assumption)
    | (with_reducible apply Mach.within_mid; assumption)
    | dsimp only
    | split

theorem Mach.leadSample_within {m₀ : Mach} (m : Mach) (n : Nat) (x : Rat) (flagged : Bool) {ps : List Part} (h₀ : m₀.within m ps)
    (hs : [Part.aux].all ps.contains = true) : m₀.within (Mach.leadSample m n x flagged) ps := by
  refine Mach.within_step h₀ ?_ hs
  clear h₀ hs
  unfold Mach.leadSample
  try dsimp only
  repeat' first
    | with_reducible assumption
    | with_reducible exact Mach.within_refl _ _
    | decide
    | with_reducible apply Mach.within_ite
    | with_reducible apply Mach.within_ite2
    | (with_reducible apply Mach.within_fst; assumption)
    | (with_reducible apply Mach.within_left; assumption)
    | (with_reducible apply Mach.within_mid; assumption)
    | dsimp only
    | split
    | ((simp only [Mach.within_mk_eq]; with_reducible apply Mach.withinMk_of) <;> first | exact Or.inr rfl | with_reducible exact Or.inl rfl | with_reducible rfl | with_reducible exact fun h => h | (intro h; simpa [length_listUpd] using h) | (intro h; split <;> exact h) | exact fun h => h | skip)

theorem Mach.leadFail_within {m₀ : Mach} (m : Mach) {ps : List Part} (h₀ : m₀.within m ps)
    (hs : [Part.regs, Part.aux].all ps.contains = true) : m₀.within (Mach.leadFail m) ps := by
  refine Mach.within_step h₀ ?_ hs
  clear h₀ hs
  unfold Mach.leadFail
  try dsimp only
  repeat' first
    | with_reducible assumption
    | with_reducible exact Mach.within_refl _ _
    | decide
    | with_reducible apply Mach.setFld_within
    | with_reducible apply Mach.sqBit_within
    | ((simp only [Mach.within_mk_eq]; with_reducible apply Mach.withinMk_of) <;> first | exact Or.inr rfl | with_reducible exact Or.inl rfl | with_reducible rfl | with_reducible exact fun h => h | (intro h; simpa [length_listUpd] using h) | (intro h; split <;> exact h) | exact fun h => h | skip)

theorem Mach.leadTimeout_within {m₀ : Mach} (m : Mach) {ps : List Part} (h₀ : m₀.within m ps)
    (hs : [Part.regs, Part.aux].all ps.contains = true) : m₀.within (Mach.leadTimeout m) ps := by
  refine Mach.within_step h₀ ?_ hs
  clear h₀ hs
  unfold Mach.leadTimeout
  try dsimp only
  repeat' first
    | with_reducible assumption
    | with_reducible exact Mach.within_refl _ _
    | decide
    | with_reducible apply Mach.leadFail_within
    | with_reducible apply Mach.within_ite
    | with_reducible apply Mach.within_ite2
    | (with_reducible apply Mach.within_fst; assumption)
    | (with_reducible apply Mach.within_left; assumption)
    | (with_reducible apply Mach.within_mid; assumption)
    | dsimp only
    | split

theorem Mach.makeConversion_within {m₀ : Mach} (m : Mach) (n j t w : Nat) (i : AuxInput) {ps : List Part} (h₀ : m₀.within m ps)
    (hs : [Part.regs, Part.flt, Part.aux, Part.free].all ps.contains = true) : m₀.within (Mach.makeConversion m n j t w i) ps := by
  refine Mach.within_step h₀ ?_ hs
  clear h₀ hs
  unfold Mach.makeConversion
  try dsimp only
  repeat' first
    | with_reducible assumption
    | with_reducible exact Mach.within_refl _ _
    | decide
    | with_reducible apply Mach.count_within
    | with_reducible apply Mach.feedAux_within
    | with_reducible apply Mach.leadSample_within
    | with_reducible apply Mach.linearise_within
    | with_reducible apply Mach.rawCode_within
    | with_reducible apply Mach.restartKept_within
    | with_reducible apply Mach.setReg_within
    | with_reducible apply Mach.sqEvent_within
    | with_reducible apply Mach.startSource_within
    | with_reducible apply Mach.updChan_within
    | with_reducible apply Mach.within_ite
    | with_reducible apply Mach.within_ite2
    | (with_reducible apply Mach.within_fst; assumption)
    | (with_reducible apply Mach.within_left; assumption)
    | (with_reducible apply Mach.within_mid; assumption)
    | dsimp only
    | split

theorem Mach.auxConversion_within {m₀ : Mach} (m : Mach) (n : Nat) (i : AuxInput) {ps : List Part} (h₀ : m₀.within m ps)
    (hs : [Part.regs, Part.flt, Part.aux, Part.free].all ps.contains = true) : m₀.within (Mach.auxConversion m n i) ps := by
  refine Mach.within_step h₀ ?_ hs
  clear h₀ hs
  unfold Mach.auxConversion
  try dsimp only
  repeat' first
    | with_reducible assumption
    | with_reducible exact Mach.within_refl _ _
    | decide
    | with_reducible apply Mach.auxAdopt_within
    | with_reducible apply Mach.makeConversion_within
    | with_reducible apply Mach.sqBit_within
    | with_reducible apply Mach.updChan_within
    | with_reducible apply Mach.within_ite
    | with_reducible apply Mach.within_ite2
    | (intro k hk; try dsimp only)

theorem Mach.checkSlot_within {m₀ : Mach} (m : Mach) (n : Nat) {ps : List Part} (h₀ : m₀.within m ps)
    (hs : [Part.aux].all ps.contains = true) : m₀.within (Mach.checkSlot m n) ps := by
  refine Mach.within_step h₀ ?_ hs
  clear h₀ hs
  unfold Mach.checkSlot
  try dsimp only
  repeat' first
    | with_reducible assumption
    | with_reducible exact Mach.within_refl _ _
    | decide
    | with_reducible apply Mach.updChan_within
    | with_reducible apply Mach.within_ite
    | with_reducible apply Mach.within_ite2
    | (intro k hk; try dsimp only)
    | (with_reducible apply Mach.within_fst; assumption)
    | (with_reducible apply Mach.within_left; assumption)
    | (with_reducible apply Mach.within_mid; assumption)
    | dsimp only
    | split

theorem Mach.breakComparator_within {m₀ : Mach} (m : Mach) (n : Nat) (diffUv : Int) (ticks : Nat) {ps : List Part} (h₀ : m₀.within m ps)
    (hs : [Part.aux].all ps.contains = true) : m₀.within (Mach.breakComparator m n diffUv ticks) ps := by
  refine Mach.within_step h₀ ?_ hs
  clear h₀ hs
  unfold Mach.breakComparator
  try dsimp only
  repeat' first
    | with_reducible assumption
    | with_reducible exact Mach.within_refl _ _
    | decide
    | with_reducible apply Mach.updChan_within
    | with_reducible apply Mach.within_ite
    | with_reducible apply Mach.within_ite2

theorem Mach.excAsk_within {m₀ : Mach} (m : Mach) {ps : List Part} (h₀ : m₀.within m ps)
    (hs : [Part.aux].all ps.contains = true) : m₀.within (Mach.excAsk m) ps := by
  refine Mach.within_step h₀ ?_ hs
  clear h₀ hs
  unfold Mach.excAsk
  try dsimp only
  repeat' first
    | with_reducible assumption
    | with_reducible exact Mach.within_refl _ _
    | decide
    | ((simp only [Mach.within_mk_eq]; with_reducible apply Mach.withinMk_of) <;> first | exact Or.inr rfl | with_reducible exact Or.inl rfl | with_reducible rfl | with_reducible exact fun h => h | (intro h; simpa [length_listUpd] using h) | (intro h; split <;> exact h) | exact fun h => h | skip)

theorem Mach.excForce_within {m₀ : Mach} (m : Mach) {ps : List Part} (h₀ : m₀.within m ps)
    (hs : [Part.aux].all ps.contains = true) : m₀.within (Mach.excForce m) ps := by
  refine Mach.within_step h₀ ?_ hs
  clear h₀ hs
  unfold Mach.excForce
  try dsimp only
  repeat' first
    | with_reducible assumption
    | with_reducible exact Mach.within_refl _ _
    | decide
    | with_reducible apply Mach.within_ite
    | with_reducible apply Mach.within_ite2
    | ((simp only [Mach.within_mk_eq]; with_reducible apply Mach.withinMk_of) <;> first | exact Or.inr rfl | with_reducible exact Or.inl rfl | with_reducible rfl | with_reducible exact fun h => h | (intro h; simpa [length_listUpd] using h) | (intro h; split <;> exact h) | exact fun h => h | skip)

theorem Mach.excApply_within {m₀ : Mach} (m : Mach) {ps : List Part} (h₀ : m₀.within m ps)
    (hs : [Part.aux].all ps.contains = true) : m₀.within (Mach.excApply m) ps := by
  refine Mach.within_step h₀ ?_ hs
  clear h₀ hs
  unfold Mach.excApply
  try dsimp only
  repeat' first
    | with_reducible assumption
    | with_reducible exact Mach.within_refl _ _
    | decide
    | with_reducible apply Mach.excForce_within
    | with_reducible apply Mach.updChan_within
    | with_reducible apply Mach.within_ite
    | with_reducible apply Mach.within_ite2
    | with_reducible apply Mach.within_fold
    | (intro k x hk; try dsimp only)
    | (with_reducible apply Mach.within_fst; assumption)
    | (with_reducible apply Mach.within_left; assumption)
    | (with_reducible apply Mach.within_mid; assumption)
    | dsimp only
    | split
    | ((simp only [Mach.within_mk_eq]; with_reducible apply Mach.withinMk_of) <;> first | exact Or.inr rfl | with_reducible exact Or.inl rfl | with_reducible rfl | with_reducible exact fun h => h | (intro h; simpa [length_listUpd] using h) | (intro h; split <;> exact h) | exact fun h => h | skip)

theorem Mach.excFaultAt_within {m₀ : Mach} (m : Mach) (ticks : Nat) {ps : List Part} (h₀ : m₀.within m ps)
    (hs : [Part.regs, Part.aux].all ps.contains = true) : m₀.within (Mach.excFaultAt m ticks) ps := by
  refine Mach.within_step h₀ ?_ hs
  clear h₀ hs
  unfold Mach.excFaultAt
  try dsimp only
  repeat' first
    | with_reducible assumption
    | with_reducible exact Mach.within_refl _ _
    | decide
    | with_reducible apply Mach.sqBit_within
    | with_reducible apply Mach.within_ite
    | with_reducible apply Mach.within_ite2
    | ((simp only [Mach.within_mk_eq]; with_reducible apply Mach.withinMk_of) <;> first | exact Or.inr rfl | with_reducible exact Or.inl rfl | with_reducible rfl | with_reducible exact fun h => h | (intro h; simpa [length_listUpd] using h) | (intro h; split <;> exact h) | exact fun h => h | skip)

theorem Mach.pulsedVexc_within {m₀ : Mach} (m : Mach) (want : Bool) {ps : List Part} (h₀ : m₀.within m ps)
    (hs : [Part.aux].all ps.contains = true) : m₀.within (Mach.pulsedVexc m want) ps := by
  refine Mach.within_step h₀ ?_ hs
  clear h₀ hs
  unfold Mach.pulsedVexc
  try dsimp only
  repeat' first
    | with_reducible assumption
    | with_reducible exact Mach.within_refl _ _
    | decide
    | with_reducible apply Mach.within_ite
    | with_reducible apply Mach.within_ite2
    | ((simp only [Mach.within_mk_eq]; with_reducible apply Mach.withinMk_of) <;> first | exact Or.inr rfl | with_reducible exact Or.inl rfl | with_reducible rfl | with_reducible exact fun h => h | (intro h; simpa [length_listUpd] using h) | (intro h; split <;> exact h) | exact fun h => h | skip)

theorem Mach.damperAssert_within {m₀ : Mach} (m : Mach) {ps : List Part} (h₀ : m₀.within m ps)
    (hs : [Part.regs, Part.aux].all ps.contains = true) : m₀.within (Mach.damperAssert m) ps := by
  refine Mach.within_step h₀ ?_ hs
  clear h₀ hs
  unfold Mach.damperAssert
  try dsimp only
  repeat' first
    | with_reducible assumption
    | with_reducible exact Mach.within_refl _ _
    | decide
    | with_reducible apply Mach.count_within
    | with_reducible apply Mach.sqBit_within
    | (with_reducible apply Mach.within_fst; assumption)
    | (with_reducible apply Mach.within_left; assumption)
    | (with_reducible apply Mach.within_mid; assumption)
    | dsimp only
    | split
    | ((simp only [Mach.within_mk_eq]; with_reducible apply Mach.withinMk_of) <;> first | exact Or.inr rfl | with_reducible exact Or.inl rfl | with_reducible rfl | with_reducible exact fun h => h | (intro h; simpa [length_listUpd] using h) | (intro h; split <;> exact h) | exact fun h => h | skip)

theorem Mach.damperRelease_within {m₀ : Mach} (m : Mach) (r : Nat) (stuck : Bool) {ps : List Part} (h₀ : m₀.within m ps)
    (hs : [Part.regs, Part.pa, Part.pb, Part.flt, Part.aux, Part.buf, Part.sec, Part.nv].all ps.contains = true) : m₀.within (Mach.damperRelease m r stuck) ps := by
  refine Mach.within_step h₀ ?_ hs
  clear h₀ hs
  unfold Mach.damperRelease
  try dsimp only
  repeat' first
    | with_reducible assumption
    | with_reducible exact Mach.within_refl _ _
    | decide
    | with_reducible apply Mach.offer_within
    | with_reducible apply Mach.restartKept_within
    | with_reducible apply Mach.within_ite
    | with_reducible apply Mach.within_ite2
    | with_reducible apply Mach.within_fold
    | (intro k x hk; try dsimp only)
    | ((simp only [Mach.within_mk_eq]; with_reducible apply Mach.withinMk_of) <;> first | exact Or.inr rfl | with_reducible exact Or.inl rfl | with_reducible rfl | with_reducible exact fun h => h | (intro h; simpa [length_listUpd] using h) | (intro h; split <;> exact h) | exact fun h => h | skip)

theorem Mach.damperEdge_within {m₀ : Mach} (m : Mach) (level : Bool) {ps : List Part} (h₀ : m₀.within m ps)
    (hs : [Part.regs, Part.pa, Part.pb, Part.flt, Part.aux, Part.buf, Part.sec, Part.nv].all ps.contains = true) : m₀.within (Mach.damperEdge m level) ps := by
  refine Mach.within_step h₀ ?_ hs
  clear h₀ hs
  unfold Mach.damperEdge
  try dsimp only
  repeat' first
    | with_reducible assumption
    | with_reducible exact Mach.within_refl _ _
    | decide
    | with_reducible apply Mach.damperAssert_within
    | with_reducible apply Mach.damperRelease_within
    | with_reducible apply Mach.within_ite
    | with_reducible apply Mach.within_ite2
    | ((simp only [Mach.within_mk_eq]; with_reducible apply Mach.withinMk_of) <;> first | exact Or.inr rfl | with_reducible exact Or.inl rfl | with_reducible rfl | with_reducible exact fun h => h | (intro h; simpa [length_listUpd] using h) | (intro h; split <;> exact h) | exact fun h => h | skip)

theorem Mach.damperStuck_within {m₀ : Mach} (m : Mach) {ps : List Part} (h₀ : m₀.within m ps)
    (hs : [Part.regs, Part.pa, Part.pb, Part.flt, Part.aux, Part.buf, Part.sec, Part.nv].all ps.contains = true) : m₀.within (Mach.damperStuck m) ps := by
  refine Mach.within_step h₀ ?_ hs
  clear h₀ hs
  unfold Mach.damperStuck
  try dsimp only
  repeat' first
    | with_reducible assumption
    | with_reducible exact Mach.within_refl _ _
    | decide
    | with_reducible apply Mach.damperRelease_within
    | with_reducible apply Mach.sqBit_within
    | with_reducible apply Mach.within_ite
    | with_reducible apply Mach.within_ite2
    | ((simp only [Mach.within_mk_eq]; with_reducible apply Mach.withinMk_of) <;> first | exact Or.inr rfl | with_reducible exact Or.inl rfl | with_reducible rfl | with_reducible exact fun h => h | (intro h; simpa [length_listUpd] using h) | (intro h; split <;> exact h) | exact fun h => h | skip)

theorem Mach.damperOff_within {m₀ : Mach} (m : Mach) {ps : List Part} (h₀ : m₀.within m ps)
    (hs : [Part.regs, Part.pa, Part.pb, Part.flt, Part.aux, Part.buf, Part.sec, Part.nv].all ps.contains = true) : m₀.within (Mach.damperOff m) ps := by
  refine Mach.within_step h₀ ?_ hs
  clear h₀ hs
  unfold Mach.damperOff
  try dsimp only
  repeat' first
    | with_reducible assumption
    | with_reducible exact Mach.within_refl _ _
    | decide
    | with_reducible apply Mach.damperRelease_within
    | with_reducible apply Mach.within_ite
    | with_reducible apply Mach.within_ite2
    | ((simp only [Mach.within_mk_eq]; with_reducible apply Mach.withinMk_of) <;> first | exact Or.inr rfl | with_reducible exact Or.inl rfl | with_reducible rfl | with_reducible exact fun h => h | (intro h; simpa [length_listUpd] using h) | (intro h; split <;> exact h) | exact fun h => h | skip)

end Sys2Proof.Machine
end

