-- ==== Sys2Proof/Laws/WithinEngine.lean ====
section
/-! SUPPORT. The reach of every operation of Machine/Engine.lean. -/

set_option linter.unusedTactic false
set_option linter.unusedSimpArgs false
set_option linter.unusedVariables false
set_option linter.unreachableTactic false
set_option linter.unnecessarySimpa false

namespace Sys2Proof.Machine

theorem Mach.atPins_within {m₀ : Mach} (m : Mach) (levels : BitVec 16) {ps : List Part} (h₀ : m₀.within m ps)
    (hs : [Part.eng].all ps.contains = true) : m₀.within (Mach.atPins m levels) ps := by
  refine Mach.within_step h₀ ?_ hs
  clear h₀ hs
  unfold Mach.atPins
  try dsimp only
  repeat' first
    | with_reducible assumption
    | with_reducible exact Mach.within_refl _ _
    | decide
    | with_reducible apply Mach.within_ite
    | with_reducible apply Mach.within_ite2
    | ((simp only [Mach.within_mk_eq]; with_reducible apply Mach.withinMk_of) <;> first | exact Or.inr rfl | with_reducible exact Or.inl rfl | with_reducible rfl | with_reducible exact fun h => h | (intro h; simpa [length_listUpd] using h) | (intro h; split <;> exact h) | exact fun h => h | skip)

theorem Mach.pinOut_within {m₀ : Mach} (m : Mach) (p : Nat) (v : Bool) {ps : List Part} (h₀ : m₀.within m ps)
    (hs : [Part.eng].all ps.contains = true) : m₀.within (Mach.pinOut m p v) ps := by
  refine Mach.within_step h₀ ?_ hs
  clear h₀ hs
  unfold Mach.pinOut
  try dsimp only
  repeat' first
    | with_reducible assumption
    | with_reducible exact Mach.within_refl _ _
    | decide
    | ((simp only [Mach.within_mk_eq]; with_reducible apply Mach.withinMk_of) <;> first | exact Or.inr rfl | with_reducible exact Or.inl rfl | with_reducible rfl | with_reducible exact fun h => h | (intro h; simpa [length_listUpd] using h) | (intro h; split <;> exact h) | exact fun h => h | skip)

theorem Mach.pinDrive_within {m₀ : Mach} (m : Mach) (p : Nat) (v : Bool) {ps : List Part} (h₀ : m₀.within m ps)
    (hs : [Part.regs, Part.pa, Part.pb, Part.eng].all ps.contains = true) : m₀.within (Mach.pinDrive m p v) ps := by
  refine Mach.within_step h₀ ?_ hs
  clear h₀ hs
  unfold Mach.pinDrive
  try dsimp only
  repeat' first
    | with_reducible assumption
    | with_reducible exact Mach.within_refl _ _
    | decide
    | with_reducible apply Mach.drive_within
    | ((simp only [Mach.within_mk_eq]; with_reducible apply Mach.withinMk_of) <;> first | exact Or.inr rfl | with_reducible exact Or.inl rfl | with_reducible rfl | with_reducible exact fun h => h | (intro h; simpa [length_listUpd] using h) | (intro h; split <;> exact h) | exact fun h => h | skip)

theorem Mach.pinInit_within {m₀ : Mach} (m : Mach) (p : Nat) {ps : List Part} (h₀ : m₀.within m ps)
    (hs : [Part.regs, Part.pa, Part.pb, Part.eng].all ps.contains = true) : m₀.within (Mach.pinInit m p) ps := by
  refine Mach.within_step h₀ ?_ hs
  clear h₀ hs
  unfold Mach.pinInit
  try dsimp only
  repeat' first
    | with_reducible assumption
    | with_reducible exact Mach.within_refl _ _
    | decide
    | with_reducible apply Mach.pinDrive_within
    | with_reducible apply Mach.pinOut_within

theorem Mach.engStall_within {m₀ : Mach} (m : Mach) (n c cause : Nat) {ps : List Part} (h₀ : m₀.within m ps)
    (hs : [Part.regs, Part.eng].all ps.contains = true) : m₀.within (Mach.engStall m n c cause) ps := by
  refine Mach.within_step h₀ ?_ hs
  clear h₀ hs
  unfold Mach.engStall
  try dsimp only
  repeat' first
    | with_reducible assumption
    | with_reducible exact Mach.within_refl _ _
    | decide
    | with_reducible apply Mach.sqBit_within
    | with_reducible apply Mach.updEng_within
    | (intro e he; with_reducible exact he)
    | (intro e he; simpa [length_listUpd] using he)
    | (intro e he; split <;> first | exact he | simpa [length_listUpd] using he)

theorem Mach.engUnstall_within {m₀ : Mach} (m : Mach) (n : Nat) {ps : List Part} (h₀ : m₀.within m ps)
    (hs : [Part.regs, Part.eng].all ps.contains = true) : m₀.within (Mach.engUnstall m n) ps := by
  refine Mach.within_step h₀ ?_ hs
  clear h₀ hs
  unfold Mach.engUnstall
  try dsimp only
  repeat' first
    | with_reducible assumption
    | with_reducible exact Mach.within_refl _ _
    | decide
    | with_reducible apply Mach.setReg_within
    | with_reducible apply Mach.updEng_within
    | (intro e he; with_reducible exact he)
    | (intro e he; simpa [length_listUpd] using he)
    | (intro e he; split <;> first | exact he | simpa [length_listUpd] using he)
    | with_reducible apply Mach.within_ite
    | with_reducible apply Mach.within_ite2
    | (with_reducible apply Mach.within_fst; assumption)
    | (with_reducible apply Mach.within_left; assumption)
    | (with_reducible apply Mach.within_mid; assumption)
    | dsimp only
    | split
    | ((simp only [Mach.within_mk_eq]; with_reducible apply Mach.withinMk_of) <;> first | exact Or.inr rfl | with_reducible exact Or.inl rfl | with_reducible rfl | with_reducible exact fun h => h | (intro h; simpa [length_listUpd] using h) | (intro h; split <;> exact h) | exact fun h => h | skip)

theorem Mach.engAdvance_within {m₀ : Mach} (m : Mach) (n c : Nat) {ps : List Part} (h₀ : m₀.within m ps)
    (hs : [Part.regs, Part.eng].all ps.contains = true) : m₀.within (Mach.engAdvance m n c) ps := by
  refine Mach.within_step h₀ ?_ hs
  clear h₀ hs
  unfold Mach.engAdvance
  try dsimp only
  repeat' first
    | with_reducible assumption
    | with_reducible exact Mach.within_refl _ _
    | decide
    | with_reducible apply Mach.engStall_within
    | with_reducible apply Mach.updCtx_within
    | with_reducible apply Mach.within_ite
    | with_reducible apply Mach.within_ite2

theorem Mach.engJump_within {m₀ : Mach} (m : Mach) (n c target : Nat) {ps : List Part} (h₀ : m₀.within m ps)
    (hs : [Part.eng].all ps.contains = true) : m₀.within (Mach.engJump m n c target) ps := by
  refine Mach.within_step h₀ ?_ hs
  clear h₀ hs
  unfold Mach.engJump
  try dsimp only
  repeat' first
    | with_reducible assumption
    | with_reducible exact Mach.within_refl _ _
    | decide
    | with_reducible apply Mach.updCtx_within

theorem Mach.engWait_within {m₀ : Mach} (m : Mach) (n c : Nat) (op : CtxOp) {ps : List Part} (h₀ : m₀.within m ps)
    (hs : [Part.eng].all ps.contains = true) : m₀.within (Mach.engWait m n c op) ps := by
  refine Mach.within_step h₀ ?_ hs
  clear h₀ hs
  unfold Mach.engWait
  try dsimp only
  repeat' first
    | with_reducible assumption
    | with_reducible exact Mach.within_refl _ _
    | decide
    | with_reducible apply Mach.updCtx_within

theorem Mach.shiftClock_within {m₀ : Mach} (m : Mach) (w : Word) (v : Bool) {ps : List Part} (h₀ : m₀.within m ps)
    (hs : [Part.eng].all ps.contains = true) : m₀.within (Mach.shiftClock m w v) ps := by
  refine Mach.within_step h₀ ?_ hs
  clear h₀ hs
  unfold Mach.shiftClock
  try dsimp only
  repeat' first
    | with_reducible assumption
    | with_reducible exact Mach.within_refl _ _
    | decide
    | with_reducible apply Mach.pinOut_within
    | with_reducible apply Mach.within_ite
    | with_reducible apply Mach.within_ite2

theorem Mach.shiftBit_within {m₀ : Mach} (m : Mach) (n c : Nat) (out : Bool) (w : Word) {ps : List Part} (h₀ : m₀.within m ps)
    (hs : [Part.eng].all ps.contains = true) : m₀.within (Mach.shiftBit m n c out w) ps := by
  refine Mach.within_step h₀ ?_ hs
  clear h₀ hs
  unfold Mach.shiftBit
  try dsimp only
  repeat' first
    | with_reducible assumption
    | with_reducible exact Mach.within_refl _ _
    | decide
    | with_reducible apply Mach.pinOut_within
    | with_reducible apply Mach.shiftClock_within
    | with_reducible apply Mach.updCtx_within
    | with_reducible apply Mach.within_ite
    | with_reducible apply Mach.within_ite2

theorem Mach.shiftSample_within {m₀ : Mach} (m : Mach) (n c : Nat) (w : Word) {ps : List Part} (h₀ : m₀.within m ps)
    (hs : [Part.eng].all ps.contains = true) : m₀.within (Mach.shiftSample m n c w) ps := by
  refine Mach.within_step h₀ ?_ hs
  clear h₀ hs
  unfold Mach.shiftSample
  try dsimp only
  repeat' first
    | with_reducible assumption
    | with_reducible exact Mach.within_refl _ _
    | decide
    | with_reducible apply Mach.updCtx_within
    | with_reducible apply Mach.within_ite
    | with_reducible apply Mach.within_ite2

theorem Mach.shiftBegin_within {m₀ : Mach} (m : Mach) (n c : Nat) (out : Bool) (w : Word) (t : Nat) {ps : List Part} (h₀ : m₀.within m ps)
    (hs : [Part.eng].all ps.contains = true) : m₀.within (Mach.shiftBegin m n c out w t) ps := by
  refine Mach.within_step h₀ ?_ hs
  clear h₀ hs
  unfold Mach.shiftBegin
  try dsimp only
  repeat' first
    | with_reducible assumption
    | with_reducible exact Mach.within_refl _ _
    | decide
    | with_reducible apply Mach.shiftBit_within
    | with_reducible apply Mach.updCtx_within

theorem Mach.shiftBitEnd_within {m₀ : Mach} (m : Mach) (n c : Nat) (out : Bool) (w : Word) (bit t : Nat) {ps : List Part} (h₀ : m₀.within m ps)
    (hs : [Part.regs, Part.eng].all ps.contains = true) : m₀.within (Mach.shiftBitEnd m n c out w bit t) ps := by
  refine Mach.within_step h₀ ?_ hs
  clear h₀ hs
  unfold Mach.shiftBitEnd
  try dsimp only
  repeat' first
    | with_reducible assumption
    | with_reducible exact Mach.within_refl _ _
    | decide
    | with_reducible apply Mach.engAdvance_within
    | with_reducible apply Mach.shiftBit_within
    | with_reducible apply Mach.shiftClock_within
    | with_reducible apply Mach.shiftSample_within
    | with_reducible apply Mach.updCtx_within
    | with_reducible apply Mach.within_ite
    | with_reducible apply Mach.within_ite2

theorem Mach.opTick_within {m₀ : Mach} (m : Mach) (n c t : Nat) {ps : List Part} (h₀ : m₀.within m ps)
    (hs : [Part.regs, Part.eng].all ps.contains = true) : m₀.within (Mach.opTick m n c t) ps := by
  refine Mach.within_step h₀ ?_ hs
  clear h₀ hs
  unfold Mach.opTick
  try dsimp only
  repeat' first
    | with_reducible assumption
    | with_reducible exact Mach.within_refl _ _
    | decide
    | with_reducible apply Mach.engAdvance_within
    | with_reducible apply Mach.shiftBit_within
    | with_reducible apply Mach.shiftBitEnd_within
    | with_reducible apply Mach.shiftClock_within
    | with_reducible apply Mach.shiftSample_within
    | with_reducible apply Mach.within_ite
    | with_reducible apply Mach.within_ite2
    | (with_reducible apply Mach.within_fst; assumption)
    | (with_reducible apply Mach.within_left; assumption)
    | (with_reducible apply Mach.within_mid; assumption)
    | dsimp only
    | split

theorem Mach.engJmpOp_within {m₀ : Mach} (m : Mach) (n c : Nat) (w : Word) {ps : List Part} (h₀ : m₀.within m ps)
    (hs : [Part.regs, Part.eng].all ps.contains = true) : m₀.within (Mach.engJmpOp m n c w) ps := by
  refine Mach.within_step h₀ ?_ hs
  clear h₀ hs
  unfold Mach.engJmpOp
  try dsimp only
  repeat' first
    | with_reducible assumption
    | with_reducible exact Mach.within_refl _ _
    | decide
    | with_reducible apply Mach.engAdvance_within
    | with_reducible apply Mach.engJump_within
    | with_reducible apply Mach.within_ite
    | with_reducible apply Mach.within_ite2

theorem Mach.engDjnzOp_within {m₀ : Mach} (m : Mach) (n c : Nat) (w : Word) {ps : List Part} (h₀ : m₀.within m ps)
    (hs : [Part.regs, Part.eng].all ps.contains = true) : m₀.within (Mach.engDjnzOp m n c w) ps := by
  refine Mach.within_step h₀ ?_ hs
  clear h₀ hs
  unfold Mach.engDjnzOp
  try dsimp only
  repeat' first
    | with_reducible assumption
    | with_reducible exact Mach.within_refl _ _
    | decide
    | with_reducible apply Mach.engAdvance_within
    | with_reducible apply Mach.engJump_within
    | with_reducible apply Mach.updCtx_within
    | with_reducible apply Mach.within_ite
    | with_reducible apply Mach.within_ite2

theorem Mach.engSetOp_within {m₀ : Mach} (m : Mach) (n c : Nat) (w : Word) {ps : List Part} (h₀ : m₀.within m ps)
    (hs : [Part.regs, Part.pa, Part.pb, Part.eng].all ps.contains = true) : m₀.within (Mach.engSetOp m n c w) ps := by
  refine Mach.within_step h₀ ?_ hs
  clear h₀ hs
  unfold Mach.engSetOp
  try dsimp only
  repeat' first
    | with_reducible assumption
    | with_reducible exact Mach.within_refl _ _
    | decide
    | with_reducible apply Mach.engAdvance_within
    | with_reducible apply Mach.pinDrive_within
    | with_reducible apply Mach.pinOut_within
    | with_reducible apply Mach.setFlags_within
    | with_reducible apply Mach.updCtx_within
    | with_reducible apply Mach.within_fold
    | (intro k x hk; try dsimp only)
    | (with_reducible apply Mach.within_fst; assumption)
    | (with_reducible apply Mach.within_left; assumption)
    | (with_reducible apply Mach.within_mid; assumption)
    | dsimp only
    | split

theorem Mach.engDelayOp_within {m₀ : Mach} (m : Mach) (n c : Nat) (w : Word) (t : Nat) {ps : List Part} (h₀ : m₀.within m ps)
    (hs : [Part.eng].all ps.contains = true) : m₀.within (Mach.engDelayOp m n c w t) ps := by
  refine Mach.within_step h₀ ?_ hs
  clear h₀ hs
  unfold Mach.engDelayOp
  try dsimp only
  repeat' first
    | with_reducible assumption
    | with_reducible exact Mach.within_refl _ _
    | decide
    | with_reducible apply Mach.engWait_within

theorem Mach.engWaitpinOp_within {m₀ : Mach} (m : Mach) (n c : Nat) (w : Word) {ps : List Part} (h₀ : m₀.within m ps)
    (hs : [Part.regs, Part.eng].all ps.contains = true) : m₀.within (Mach.engWaitpinOp m n c w) ps := by
  refine Mach.within_step h₀ ?_ hs
  clear h₀ hs
  unfold Mach.engWaitpinOp
  try dsimp only
  repeat' first
    | with_reducible assumption
    | with_reducible exact Mach.within_refl _ _
    | decide
    | with_reducible apply Mach.engAdvance_within
    | with_reducible apply Mach.engWait_within
    | with_reducible apply Mach.within_ite
    | with_reducible apply Mach.within_ite2

theorem Mach.engWaitflagOp_within {m₀ : Mach} (m : Mach) (n c : Nat) (w : Word) {ps : List Part} (h₀ : m₀.within m ps)
    (hs : [Part.regs, Part.eng].all ps.contains = true) : m₀.within (Mach.engWaitflagOp m n c w) ps := by
  refine Mach.within_step h₀ ?_ hs
  clear h₀ hs
  unfold Mach.engWaitflagOp
  try dsimp only
  repeat' first
    | with_reducible assumption
    | with_reducible exact Mach.within_refl _ _
    | decide
    | with_reducible apply Mach.engAdvance_within
    | with_reducible apply Mach.engWait_within
    | with_reducible apply Mach.within_ite
    | with_reducible apply Mach.within_ite2

theorem Mach.engWaitirqOp_within {m₀ : Mach} (m : Mach) (n c : Nat) {ps : List Part} (h₀ : m₀.within m ps)
    (hs : [Part.regs, Part.eng].all ps.contains = true) : m₀.within (Mach.engWaitirqOp m n c) ps := by
  refine Mach.within_step h₀ ?_ hs
  clear h₀ hs
  unfold Mach.engWaitirqOp
  try dsimp only
  repeat' first
    | with_reducible assumption
    | with_reducible exact Mach.within_refl _ _
    | decide
    | with_reducible apply Mach.engAdvance_within
    | with_reducible apply Mach.engWait_within
    | with_reducible apply Mach.updEng_within
    | (intro e he; with_reducible exact he)
    | (intro e he; simpa [length_listUpd] using he)
    | (intro e he; split <;> first | exact he | simpa [length_listUpd] using he)
    | with_reducible apply Mach.within_ite
    | with_reducible apply Mach.within_ite2
    | (with_reducible apply Mach.within_fst; assumption)
    | (with_reducible apply Mach.within_left; assumption)
    | (with_reducible apply Mach.within_mid; assumption)
    | dsimp only
    | split

theorem Mach.engPullOp_within {m₀ : Mach} (m : Mach) (n c : Nat) (w : Word) {ps : List Part} (h₀ : m₀.within m ps)
    (hs : [Part.regs, Part.eng].all ps.contains = true) : m₀.within (Mach.engPullOp m n c w) ps := by
  refine Mach.within_step h₀ ?_ hs
  clear h₀ hs
  unfold Mach.engPullOp
  try dsimp only
  repeat' first
    | with_reducible assumption
    | with_reducible exact Mach.within_refl _ _
    | decide
    | with_reducible apply Mach.engAdvance_within
    | with_reducible apply Mach.engWait_within
    | with_reducible apply Mach.updCtx_within
    | with_reducible apply Mach.within_ite
    | with_reducible apply Mach.within_ite2
    | (with_reducible apply Mach.within_fst; assumption)
    | (with_reducible apply Mach.within_left; assumption)
    | (with_reducible apply Mach.within_mid; assumption)
    | dsimp only
    | split

theorem Mach.engPushOp_within {m₀ : Mach} (m : Mach) (n c : Nat) (w : Word) {ps : List Part} (h₀ : m₀.within m ps)
    (hs : [Part.regs, Part.eng].all ps.contains = true) : m₀.within (Mach.engPushOp m n c w) ps := by
  refine Mach.within_step h₀ ?_ hs
  clear h₀ hs
  unfold Mach.engPushOp
  try dsimp only
  repeat' first
    | with_reducible assumption
    | with_reducible exact Mach.within_refl _ _
    | decide
    | with_reducible apply Mach.engAdvance_within
    | with_reducible apply Mach.engWait_within
    | with_reducible apply Mach.updCtx_within
    | with_reducible apply Mach.within_ite
    | with_reducible apply Mach.within_ite2
    | (with_reducible apply Mach.within_fst; assumption)
    | (with_reducible apply Mach.within_left; assumption)
    | (with_reducible apply Mach.within_mid; assumption)
    | dsimp only
    | split

theorem Mach.engIrqOp_within {m₀ : Mach} (m : Mach) (n c : Nat) (w : Word) {ps : List Part} (h₀ : m₀.within m ps)
    (hs : [Part.regs, Part.eng].all ps.contains = true) : m₀.within (Mach.engIrqOp m n c w) ps := by
  refine Mach.within_step h₀ ?_ hs
  clear h₀ hs
  unfold Mach.engIrqOp
  try dsimp only
  repeat' first
    | with_reducible assumption
    | with_reducible exact Mach.within_refl _ _
    | decide
    | with_reducible apply Mach.engAdvance_within
    | with_reducible apply Mach.irqSet_within
    | with_reducible apply Mach.sqBit_within
    | with_reducible apply Mach.within_ite
    | with_reducible apply Mach.within_ite2

theorem Mach.engExec_within {m₀ : Mach} (m : Mach) (n c : Nat) (w : Word) (t : Nat) {ps : List Part} (h₀ : m₀.within m ps)
    (hs : [Part.regs, Part.pa, Part.pb, Part.eng].all ps.contains = true) : m₀.within (Mach.engExec m n c w t) ps := by
  refine Mach.within_step h₀ ?_ hs
  clear h₀ hs
  unfold Mach.engExec
  try dsimp only
  repeat' first
    | with_reducible assumption
    | with_reducible exact Mach.within_refl _ _
    | decide
    | with_reducible apply Mach.engDelayOp_within
    | with_reducible apply Mach.engDjnzOp_within
    | with_reducible apply Mach.engIrqOp_within
    | with_reducible apply Mach.engJmpOp_within
    | with_reducible apply Mach.engPullOp_within
    | with_reducible apply Mach.engPushOp_within
    | with_reducible apply Mach.engSetOp_within
    | with_reducible apply Mach.engWaitflagOp_within
    | with_reducible apply Mach.engWaitirqOp_within
    | with_reducible apply Mach.engWaitpinOp_within
    | with_reducible apply Mach.shiftBegin_within
    | (with_reducible apply Mach.within_fst; assumption)
    | (with_reducible apply Mach.within_left; assumption)
    | (with_reducible apply Mach.within_mid; assumption)
    | dsimp only
    | split

theorem Mach.engTurn_within {m₀ : Mach} (m : Mach) (n c t : Nat) {ps : List Part} (h₀ : m₀.within m ps)
    (hs : [Part.regs, Part.pa, Part.pb, Part.eng].all ps.contains = true) : m₀.within (Mach.engTurn m n c t) ps := by
  refine Mach.within_step h₀ ?_ hs
  clear h₀ hs
  unfold Mach.engTurn
  try dsimp only
  repeat' first
    | with_reducible assumption
    | with_reducible exact Mach.within_refl _ _
    | decide
    | with_reducible apply Mach.engExec_within
    | with_reducible apply Mach.engStall_within
    | with_reducible apply Mach.within_ite
    | with_reducible apply Mach.within_ite2
    | (with_reducible apply Mach.within_fst; assumption)
    | (with_reducible apply Mach.within_left; assumption)
    | (with_reducible apply Mach.within_mid; assumption)
    | dsimp only
    | split

theorem Mach.engineTick_within {m₀ : Mach} (m : Mach) (n : Nat) (levels : BitVec 16) {ps : List Part} (h₀ : m₀.within m ps)
    (hs : [Part.regs, Part.pa, Part.pb, Part.eng].all ps.contains = true) : m₀.within (Mach.engineTick m n levels) ps := by
  refine Mach.within_step h₀ ?_ hs
  clear h₀ hs
  unfold Mach.engineTick
  try dsimp only
  repeat' first
    | with_reducible assumption
    | with_reducible exact Mach.within_refl _ _
    | decide
    | with_reducible apply Mach.atPins_within
    | with_reducible apply Mach.engTurn_within
    | with_reducible apply Mach.opTick_within
    | with_reducible apply Mach.updEng_within
    | (intro e he; with_reducible exact he)
    | (intro e he; simpa [length_listUpd] using he)
    | (intro e he; split <;> first | exact he | simpa [length_listUpd] using he)
    | with_reducible apply Mach.within_ite
    | with_reducible apply Mach.within_ite2
    | with_reducible apply Mach.within_fold
    | (intro k x hk; try dsimp only)

theorem Mach.turnOf_within {m₀ : Mach} (m : Mach) (n c op : Nat) (levels : BitVec 16) {ps : List Part} (h₀ : m₀.within m ps)
    (hs : [Part.regs, Part.pa, Part.pb, Part.eng].all ps.contains = true) : m₀.within (Mach.turnOf m n c op levels) ps := by
  refine Mach.within_step h₀ ?_ hs
  clear h₀ hs
  unfold Mach.turnOf
  try dsimp only
  repeat' first
    | with_reducible assumption
    | with_reducible exact Mach.within_refl _ _
    | decide
    | with_reducible apply Mach.atPins_within
    | with_reducible apply Mach.engineTick_within
    | with_reducible apply Mach.within_ite
    | with_reducible apply Mach.within_ite2

theorem Mach.opEnd_within {m₀ : Mach} (m : Mach) (n c : Nat) (shift : Bool) (levels : BitVec 16) {ps : List Part} (h₀ : m₀.within m ps)
    (hs : [Part.regs, Part.pa, Part.pb, Part.eng].all ps.contains = true) : m₀.within (Mach.opEnd m n c shift levels) ps := by
  refine Mach.within_step h₀ ?_ hs
  clear h₀ hs
  unfold Mach.opEnd
  try dsimp only
  repeat' first
    | with_reducible assumption
    | with_reducible exact Mach.within_refl _ _
    | decide
    | with_reducible apply Mach.atPins_within
    | with_reducible apply Mach.engineTick_within
    | with_reducible apply Mach.within_ite
    | with_reducible apply Mach.within_ite2

theorem Mach.engStartOne_within {m₀ : Mach} (m : Mach) (n : Nat) {ps : List Part} (h₀ : m₀.within m ps)
    (hs : [Part.regs, Part.pa, Part.pb, Part.eng].all ps.contains = true) : m₀.within (Mach.engStartOne m n) ps := by
  refine Mach.within_step h₀ ?_ hs
  clear h₀ hs
  unfold Mach.engStartOne
  try dsimp only
  repeat' first
    | with_reducible assumption
    | with_reducible exact Mach.within_refl _ _
    | decide
    | with_reducible apply Mach.engUnstall_within
    | with_reducible apply Mach.pinInit_within
    | with_reducible apply Mach.updEng_within
    | (intro e he; with_reducible exact he)
    | (intro e he; simpa [length_listUpd] using he)
    | (intro e he; split <;> first | exact he | simpa [length_listUpd] using he)
    | with_reducible apply Mach.within_ite
    | with_reducible apply Mach.within_ite2
    | with_reducible apply Mach.within_fold
    | (intro k x hk; try dsimp only)

theorem Mach.engStopOne_within {m₀ : Mach} (m : Mach) (n : Nat) {ps : List Part} (h₀ : m₀.within m ps)
    (hs : [Part.eng].all ps.contains = true) : m₀.within (Mach.engStopOne m n) ps := by
  refine Mach.within_step h₀ ?_ hs
  clear h₀ hs
  unfold Mach.engStopOne
  try dsimp only
  repeat' first
    | with_reducible assumption
    | with_reducible exact Mach.within_refl _ _
    | decide
    | with_reducible apply Mach.updEng_within
    | (intro e he; with_reducible exact he)
    | (intro e he; simpa [length_listUpd] using he)
    | (intro e he; split <;> first | exact he | simpa [length_listUpd] using he)
    | with_reducible apply Mach.within_ite
    | with_reducible apply Mach.within_ite2

theorem Mach.engResumeOne_within {m₀ : Mach} (m : Mach) (n : Nat) {ps : List Part} (h₀ : m₀.within m ps)
    (hs : [Part.regs, Part.pa, Part.pb, Part.flt, Part.buf, Part.eng, Part.sec, Part.nv, Part.free].all ps.contains = true) : m₀.within (Mach.engResumeOne m n) ps := by
  refine Mach.within_step h₀ ?_ hs
  clear h₀ hs
  unfold Mach.engResumeOne
  try dsimp only
  repeat' first
    | with_reducible assumption
    | with_reducible exact Mach.within_refl _ _
    | decide
    | with_reducible apply Mach.resume_within
    | with_reducible apply Mach.updEng_within
    | (intro e he; with_reducible exact he)
    | (intro e he; simpa [length_listUpd] using he)
    | (intro e he; split <;> first | exact he | simpa [length_listUpd] using he)

theorem Mach.rxAck_within {m₀ : Mach} (m : Mach) (w : Word) {ps : List Part} (h₀ : m₀.within m ps)
    (hs : [Part.eng].all ps.contains = true) : m₀.within (Mach.rxAck m w) ps := by
  refine Mach.within_step h₀ ?_ hs
  clear h₀ hs
  unfold Mach.rxAck
  try dsimp only
  repeat' first
    | with_reducible assumption
    | with_reducible exact Mach.within_refl _ _
    | decide
    | with_reducible apply Mach.updCtx_within
    | with_reducible apply Mach.within_ite
    | with_reducible apply Mach.within_ite2
    | with_reducible apply Mach.within_fold
    | (intro k x hk; try dsimp only)

theorem Mach.engSpoil_within {m₀ : Mach} (m : Mach) (n : Nat) {ps : List Part} (h₀ : m₀.within m ps)
    (hs : [Part.eng].all ps.contains = true) : m₀.within (Mach.engSpoil m n) ps := by
  refine Mach.within_step h₀ ?_ hs
  clear h₀ hs
  unfold Mach.engSpoil
  try dsimp only
  repeat' first
    | with_reducible assumption
    | with_reducible exact Mach.within_refl _ _
    | decide
    | with_reducible apply Mach.updEng_within
    | (intro e he; with_reducible exact he)
    | (intro e he; simpa [length_listUpd] using he)
    | (intro e he; split <;> first | exact he | simpa [length_listUpd] using he)

theorem Mach.engOff_within {m₀ : Mach} (m : Mach) {ps : List Part} (h₀ : m₀.within m ps)
    (hs : [Part.eng].all ps.contains = true) : m₀.within (Mach.engOff m) ps := by
  refine Mach.within_step h₀ ?_ hs
  clear h₀ hs
  unfold Mach.engOff
  refine ⟨fun x hx => by cases x <;> simp_all [Mach.agrees], fun h => h, fun h => ?_⟩
  obtain ⟨h1, h2, h3, h4, h5, h6, h7, h8⟩ := h
  refine ⟨h1, h2, h3, h4, h5, by simpa using h6, fun e he => ?_, h8⟩
  obtain ⟨x, hx, rfl⟩ := List.mem_map.mp he
  simpa using h7 x hx

theorem Mach.engOn_within {m₀ : Mach} (m : Mach) {ps : List Part} (h₀ : m₀.within m ps)
    (hs : [Part.regs, Part.pa, Part.pb, Part.eng].all ps.contains = true) : m₀.within (Mach.engOn m) ps := by
  refine Mach.within_step h₀ ?_ hs
  clear h₀ hs
  unfold Mach.engOn
  try dsimp only
  repeat' first
    | with_reducible assumption
    | with_reducible exact Mach.within_refl _ _
    | decide
    | with_reducible apply Mach.engOff_within
    | with_reducible apply Mach.pinInit_within
    | with_reducible apply Mach.within_fold
    | (intro k x hk; try dsimp only)

end Sys2Proof.Machine
end

