-- ==== Sys2Proof/Laws/WithinDomain.lean ====
section
/-! SUPPORT. The reach of every operation of Machine/Domain.lean. -/

set_option linter.unusedTactic false
set_option linter.unusedSimpArgs false
set_option linter.unusedVariables false
set_option linter.unreachableTactic false
set_option linter.unnecessarySimpa false

namespace Sys2Proof.Machine

theorem Mach.blocksOff_within {m₀ : Mach} (m : Mach) (f : Nat → Bool) {ps : List Part} (h₀ : m₀.within m ps)
    (hs : [Part.regs].all ps.contains = true) : m₀.within (Mach.blocksOff m f) ps := by
  refine Mach.within_step h₀ ?_ hs
  clear h₀ hs
  unfold Mach.blocksOff
  try dsimp only
  repeat' first
    | with_reducible assumption
    | with_reducible exact Mach.within_refl _ _
    | decide
    | with_reducible apply Mach.setReg_within
    | with_reducible apply Mach.within_ite
    | with_reducible apply Mach.within_ite2
    | with_reducible apply Mach.within_fold
    | (intro k x hk; try dsimp only)
    | (with_reducible apply Mach.within_fst; assumption)
    | (with_reducible apply Mach.within_left; assumption)
    | (with_reducible apply Mach.within_mid; assumption)
    | dsimp only
    | split
    | ((simp only [Mach.within_mk_eq]; with_reducible apply Mach.withinMk_of) <;> first | exact Or.inr rfl | with_reducible exact Or.inl rfl | with_reducible rfl | with_reducible exact fun h => h | (intro h; simpa [length_listUpd] using h) | (intro h; split <;> exact h) | exact fun h => h | (intro h; simp [startQueues, h]) | skip)

theorem Mach.stopGroups_within {m₀ : Mach} (m : Mach) (gs : List Nat) {ps : List Part} (h₀ : m₀.within m ps)
    (hs : [Part.flt].all ps.contains = true) : m₀.within (Mach.stopGroups m gs) ps := by
  refine Mach.within_step h₀ ?_ hs
  clear h₀ hs
  unfold Mach.stopGroups
  try dsimp only
  repeat' first
    | with_reducible assumption
    | with_reducible exact Mach.within_refl _ _
    | decide
    | with_reducible apply Mach.stopSource_within
    | with_reducible apply Mach.within_fold
    | (intro k x hk; try dsimp only)

theorem Mach.motionOff_within {m₀ : Mach} (m : Mach) {ps : List Part} (h₀ : m₀.within m ps)
    (hs : [Part.regs, Part.mot, Part.flt, Part.ang, Part.grd, Part.free].all ps.contains = true) : m₀.within (Mach.motionOff m) ps := by
  refine Mach.within_step h₀ ?_ hs
  clear h₀ hs
  unfold Mach.motionOff
  try dsimp only
  repeat' first
    | with_reducible assumption
    | with_reducible exact Mach.within_refl _ _
    | decide
    | with_reducible apply Mach.enterSearch_within
    | with_reducible apply Mach.grdReset_within
    | with_reducible apply Mach.stopGroups_within
    | ((simp only [Mach.within_mk_eq]; with_reducible apply Mach.withinMk_of) <;> first | exact Or.inr rfl | with_reducible exact Or.inl rfl | with_reducible rfl | with_reducible exact fun h => h | (intro h; simpa [length_listUpd] using h) | (intro h; split <;> exact h) | exact fun h => h | (intro h; simp [startQueues, h]) | skip)

theorem Mach.motionOn_within {m₀ : Mach} (m : Mach) {ps : List Part} (h₀ : m₀.within m ps)
    (hs : [Part.clk, Part.regs, Part.mot, Part.ang].all ps.contains = true) : m₀.within (Mach.motionOn m) ps := by
  refine Mach.within_step h₀ ?_ hs
  clear h₀ hs
  unfold Mach.motionOn
  try dsimp only
  repeat' first
    | with_reducible assumption
    | with_reducible exact Mach.within_refl _ _
    | decide
    | with_reducible apply Mach.enterSearch_within
    | with_reducible apply Mach.servoReset_within
    | ((simp only [Mach.within_mk_eq]; with_reducible apply Mach.withinMk_of) <;> first | exact Or.inr rfl | with_reducible exact Or.inl rfl | with_reducible rfl | with_reducible exact fun h => h | (intro h; simpa [length_listUpd] using h) | (intro h; split <;> exact h) | exact fun h => h | (intro h; simp [startQueues, h]) | skip)

theorem Mach.auxOff_within {m₀ : Mach} (m : Mach) {ps : List Part} (h₀ : m₀.within m ps)
    (hs : [Part.regs, Part.pa, Part.pb, Part.flt, Part.aux, Part.buf, Part.sec, Part.nv].all ps.contains = true) : m₀.within (Mach.auxOff m) ps := by
  refine Mach.within_step h₀ ?_ hs
  clear h₀ hs
  unfold Mach.auxOff
  try dsimp only
  repeat' first
    | with_reducible assumption
    | with_reducible exact Mach.within_refl _ _
    | decide
    | with_reducible apply Mach.damperOff_within
    | with_reducible apply Mach.stopGroups_within
    | ((simp only [Mach.within_mk_eq]; with_reducible apply Mach.withinMk_of) <;> first | exact Or.inr rfl | with_reducible exact Or.inl rfl | with_reducible rfl | with_reducible exact fun h => h | (intro h; simpa [length_listUpd] using h) | (intro h; split <;> exact h) | exact fun h => h | (intro h; simp [startQueues, h]) | skip)

theorem Mach.auxOn_within {m₀ : Mach} (m : Mach) {ps : List Part} (h₀ : m₀.within m ps)
    (hs : [Part.clk, Part.aux].all ps.contains = true) : m₀.within (Mach.auxOn m) ps := by
  refine Mach.within_step h₀ ?_ hs
  clear h₀ hs
  unfold Mach.auxOn
  try dsimp only
  repeat' first
    | with_reducible assumption
    | with_reducible exact Mach.within_refl _ _
    | decide
    | with_reducible apply Mach.excForce_within
    | ((simp only [Mach.within_mk_eq]; with_reducible apply Mach.withinMk_of) <;> first | exact Or.inr rfl | with_reducible exact Or.inl rfl | with_reducible rfl | with_reducible exact fun h => h | (intro h; simpa [length_listUpd] using h) | (intro h; split <;> exact h) | exact fun h => h | (intro h; simp [startQueues, h]) | skip)

theorem Mach.signalOff_within {m₀ : Mach} (m : Mach) {ps : List Part} (h₀ : m₀.within m ps)
    (hs : [Part.flt, Part.ang, Part.evt, Part.nv].all ps.contains = true) : m₀.within (Mach.signalOff m) ps := by
  refine Mach.within_step h₀ ?_ hs
  clear h₀ hs
  unfold Mach.signalOff
  try dsimp only
  repeat' first
    | with_reducible assumption
    | with_reducible exact Mach.within_refl _ _
    | decide
    | with_reducible apply Mach.evtReset_within
    | with_reducible apply Mach.saveCut_within
    | with_reducible apply Mach.stopGroups_within
    | ((simp only [Mach.within_mk_eq]; with_reducible apply Mach.withinMk_of) <;> first | exact Or.inr rfl | with_reducible exact Or.inl rfl | with_reducible rfl | with_reducible exact fun h => h | (intro h; simpa [length_listUpd] using h) | (intro h; split <;> exact h) | exact fun h => h | (intro h; simp [startQueues, h]) | skip)

theorem Mach.signalOn_within {m₀ : Mach} (m : Mach) {ps : List Part} (h₀ : m₀.within m ps)
    (hs : [Part.clk, Part.flt, Part.ang, Part.evt, Part.nv, Part.mem].all ps.contains = true) : m₀.within (Mach.signalOn m) ps := by
  refine Mach.within_step h₀ ?_ hs
  clear h₀ hs
  unfold Mach.signalOn
  refine Mach.within_fold _ _ ?_ (fun k x hk => Mach.updGrp_within _ _ _ hk rfl)
  refine Mach.within_step (n := m.signalOff) (qs := [.mem, .clk]) (Mach.signalOff_within m (Mach.within_refl _ _) rfl) ?_ rfl
  refine ⟨fun x hx => by cases x <;> simp_all [Mach.agrees], fun h => ?_, id⟩
  simp only [Mach.canonical, Bool.and_eq_true] at h ⊢
  exact ⟨⟨⟨h.1.1.1, h.1.1.2⟩, h.1.2⟩, rfl⟩

theorem Mach.beforeBufferOff_within {m₀ : Mach} (m : Mach) {ps : List Part} (h₀ : m₀.within m ps)
    (hs : [Part.regs, Part.pa, Part.pb, Part.buf, Part.sec, Part.nv].all ps.contains = true) : m₀.within (Mach.beforeBufferOff m) ps := by
  refine Mach.within_step h₀ ?_ hs
  clear h₀ hs
  unfold Mach.beforeBufferOff
  try dsimp only
  repeat' first
    | with_reducible assumption
    | with_reducible exact Mach.within_refl _ _
    | decide
    | with_reducible apply Mach.closeAll_within
    | with_reducible apply Mach.within_ite
    | with_reducible apply Mach.within_ite2

theorem Mach.bufferOff_within {m₀ : Mach} (m : Mach) {ps : List Part} (h₀ : m₀.within m ps)
    (hs : [Part.pa, Part.pb, Part.buf].all ps.contains = true) : m₀.within (Mach.bufferOff m) ps := by
  refine Mach.within_step h₀ ?_ hs
  clear h₀ hs
  unfold Mach.bufferOff
  try dsimp only
  repeat' first
    | with_reducible assumption
    | with_reducible exact Mach.within_refl _ _
    | decide
    | with_reducible apply Mach.emptyStores_within
    | ((simp only [Mach.within_mk_eq]; with_reducible apply Mach.withinMk_of) <;> first | exact Or.inr rfl | with_reducible exact Or.inl rfl | with_reducible rfl | with_reducible exact fun h => h | (intro h; simpa [length_listUpd] using h) | (intro h; split <;> exact h) | exact fun h => h | (intro h; simp [startQueues, h]) | skip)

theorem Mach.bufferOn_within {m₀ : Mach} (m : Mach) {ps : List Part} (h₀ : m₀.within m ps)
    (hs : [Part.regs, Part.pa, Part.pb, Part.flt, Part.buf, Part.sec, Part.nv, Part.free].all ps.contains = true) : m₀.within (Mach.bufferOn m) ps := by
  refine Mach.within_step h₀ ?_ hs
  clear h₀ hs
  unfold Mach.bufferOn
  try dsimp only
  repeat' first
    | with_reducible assumption
    | with_reducible exact Mach.within_refl _ _
    | decide
    | with_reducible apply Mach.endRun_within
    | with_reducible apply Mach.gapPretrim_within
    | with_reducible apply Mach.gapStopped_within
    | with_reducible apply Mach.within_ite
    | with_reducible apply Mach.within_ite2
    | with_reducible apply Mach.within_fold
    | (intro k x hk; try dsimp only)
    | ((simp only [Mach.within_mk_eq]; with_reducible apply Mach.withinMk_of) <;> first | exact Or.inr rfl | with_reducible exact Or.inl rfl | with_reducible rfl | with_reducible exact fun h => h | (intro h; simpa [length_listUpd] using h) | (intro h; split <;> exact h) | exact fun h => h | (intro h; simp [startQueues, h]) | skip)

theorem Mach.bufferRetain_within {m₀ : Mach} (m : Mach) (ember : Bool) {ps : List Part} (h₀ : m₀.within m ps)
    (hs : [Part.buf].all ps.contains = true) : m₀.within (Mach.bufferRetain m ember) ps := by
  refine Mach.within_step h₀ ?_ hs
  clear h₀ hs
  unfold Mach.bufferRetain
  try dsimp only
  repeat' first
    | with_reducible assumption
    | with_reducible exact Mach.within_refl _ _
    | decide
    | ((simp only [Mach.within_mk_eq]; with_reducible apply Mach.withinMk_of) <;> first | exact Or.inr rfl | with_reducible exact Or.inl rfl | with_reducible rfl | with_reducible exact fun h => h | (intro h; simpa [length_listUpd] using h) | (intro h; split <;> exact h) | exact fun h => h | (intro h; simp [startQueues, h]) | skip)

theorem Mach.updUnit_within {m₀ : Mach} (m : Mach) (u : Nat) (f : BufUnit → BufUnit) {ps : List Part} (h₀ : m₀.within m ps)
    (hs : [Part.buf].all ps.contains = true) : m₀.within (Mach.updUnit m u f) ps := by
  refine Mach.within_step h₀ ?_ hs
  clear h₀ hs
  unfold Mach.updUnit
  try dsimp only
  repeat' first
    | with_reducible assumption
    | with_reducible exact Mach.within_refl _ _
    | decide
    | ((simp only [Mach.within_mk_eq]; with_reducible apply Mach.withinMk_of) <;> first | exact Or.inr rfl | with_reducible exact Or.inl rfl | with_reducible rfl | with_reducible exact fun h => h | (intro h; simpa [length_listUpd] using h) | (intro h; split <;> exact h) | exact fun h => h | (intro h; simp [startQueues, h]) | skip)

theorem Mach.bistEvent_within {m₀ : Mach} (m : Mach) (mask : Word) {ps : List Part} (h₀ : m₀.within m ps)
    (hs : [Part.regs, Part.bist].all ps.contains = true) : m₀.within (Mach.bistEvent m mask) ps := by
  refine Mach.within_step h₀ ?_ hs
  clear h₀ hs
  unfold Mach.bistEvent
  try dsimp only
  repeat' first
    | with_reducible assumption
    | with_reducible exact Mach.within_refl _ _
    | decide
    | with_reducible apply Mach.sqEvent_within
    | (with_reducible apply Mach.within_fst; assumption)
    | (with_reducible apply Mach.within_left; assumption)
    | (with_reducible apply Mach.within_mid; assumption)
    | dsimp only
    | split
    | ((simp only [Mach.within_mk_eq]; with_reducible apply Mach.withinMk_of) <;> first | exact Or.inr rfl | with_reducible exact Or.inl rfl | with_reducible rfl | with_reducible exact fun h => h | (intro h; simpa [length_listUpd] using h) | (intro h; split <;> exact h) | exact fun h => h | (intro h; simp [startQueues, h]) | skip)

theorem Mach.spareEvents_within {m₀ : Mach} (m before : Mach) (spared : Bool) {ps : List Part} (h₀ : m₀.within m ps)
    (hs : [Part.regs, Part.bist].all ps.contains = true) : m₀.within (Mach.spareEvents m before spared) ps := by
  refine Mach.within_step h₀ ?_ hs
  clear h₀ hs
  unfold Mach.spareEvents
  try dsimp only
  repeat' first
    | with_reducible assumption
    | with_reducible exact Mach.within_refl _ _
    | decide
    | with_reducible apply Mach.bistEvent_within

theorem Mach.retireBank_within {m₀ : Mach} (m : Mach) (bank : Nat) {ps : List Part} (h₀ : m₀.within m ps)
    (hs : [Part.buf].all ps.contains = true) : m₀.within (Mach.retireBank m bank) ps := by
  refine Mach.within_step h₀ ?_ hs
  clear h₀ hs
  unfold Mach.retireBank
  try dsimp only
  repeat' first
    | with_reducible assumption
    | with_reducible exact Mach.within_refl _ _
    | decide
    | with_reducible apply Mach.updQ_within
    | with_reducible apply Mach.updUnit_within
    | (with_reducible apply Mach.within_fst; assumption)
    | (with_reducible apply Mach.within_left; assumption)
    | (with_reducible apply Mach.within_mid; assumption)
    | dsimp only
    | split

theorem Mach.serveBank_within {m₀ : Mach} (m : Mach) (bank : Nat) {ps : List Part} (h₀ : m₀.within m ps)
    (hs : [Part.buf].all ps.contains = true) : m₀.within (Mach.serveBank m bank) ps := by
  refine Mach.within_step h₀ ?_ hs
  clear h₀ hs
  unfold Mach.serveBank
  try dsimp only
  repeat' first
    | with_reducible assumption
    | with_reducible exact Mach.within_refl _ _
    | decide
    | with_reducible apply Mach.updUnit_within
    | (with_reducible apply Mach.within_fst; assumption)
    | (with_reducible apply Mach.within_left; assumption)
    | (with_reducible apply Mach.within_mid; assumption)
    | dsimp only
    | split
    | ((simp only [Mach.within_mk_eq]; with_reducible apply Mach.withinMk_of) <;> first | exact Or.inr rfl | with_reducible exact Or.inl rfl | with_reducible rfl | with_reducible exact fun h => h | (intro h; simpa [length_listUpd] using h) | (intro h; split <;> exact h) | exact fun h => h | (intro h; simp [startQueues, h]) | skip)

theorem Mach.replaceBank_within {m₀ : Mach} (m : Mach) (bank : Nat) {ps : List Part} (h₀ : m₀.within m ps)
    (hs : [Part.regs, Part.buf, Part.bist].all ps.contains = true) : m₀.within (Mach.replaceBank m bank) ps := by
  refine Mach.within_step h₀ ?_ hs
  clear h₀ hs
  unfold Mach.replaceBank
  try dsimp only
  repeat' first
    | with_reducible assumption
    | with_reducible exact Mach.within_refl _ _
    | decide
    | with_reducible apply Mach.retireBank_within
    | with_reducible apply Mach.serveBank_within
    | with_reducible apply Mach.spareEvents_within
    | with_reducible apply Mach.within_ite
    | with_reducible apply Mach.within_ite2

theorem Mach.afterLoss_within {m₀ : Mach} (m : Mach) (bank cause blocks first : Nat) {ps : List Part} (h₀ : m₀.within m ps)
    (hs : [Part.regs, Part.pa, Part.pb, Part.flt, Part.buf, Part.sec, Part.nv, Part.bist, Part.free].all ps.contains = true) : m₀.within (Mach.afterLoss m bank cause blocks first) ps := by
  refine Mach.within_step h₀ ?_ hs
  clear h₀ hs
  unfold Mach.afterLoss
  try dsimp only
  repeat' first
    | with_reducible assumption
    | with_reducible exact Mach.within_refl _ _
    | decide
    | with_reducible apply Mach.recordLost_within
    | with_reducible apply Mach.replaceBank_within
    | with_reducible apply Mach.within_ite
    | with_reducible apply Mach.within_ite2
    | (with_reducible apply Mach.within_fst; assumption)
    | (with_reducible apply Mach.within_left; assumption)
    | (with_reducible apply Mach.within_mid; assumption)
    | dsimp only
    | split

theorem Mach.loseBank_within {m₀ : Mach} (m : Mach) (bank cause : Nat) {ps : List Part} (h₀ : m₀.within m ps)
    (hs : [Part.regs, Part.pa, Part.pb, Part.flt, Part.buf, Part.sec, Part.nv, Part.bist, Part.free].all ps.contains = true) : m₀.within (Mach.loseBank m bank cause) ps := by
  refine Mach.within_step h₀ ?_ hs
  clear h₀ hs
  unfold Mach.loseBank
  try dsimp only
  repeat' first
    | with_reducible assumption
    | with_reducible exact Mach.within_refl _ _
    | decide
    | with_reducible apply Mach.afterLoss_within
    | with_reducible apply Mach.discardBank_within
    | (with_reducible apply Mach.within_fst; assumption)
    | (with_reducible apply Mach.within_left; assumption)
    | (with_reducible apply Mach.within_mid; assumption)
    | dsimp only
    | split

theorem Mach.loseBanks_within {m₀ : Mach} (m : Mach) (x0 : List (Nat × Nat)) {ps : List Part} (h₀ : m₀.within m ps)
    (hs : [Part.regs, Part.pa, Part.pb, Part.flt, Part.buf, Part.sec, Part.nv, Part.bist, Part.free].all ps.contains = true) : m₀.within (Mach.loseBanks m x0) ps := by
  refine Mach.within_step h₀ ?_ hs
  clear h₀ hs
  induction x0 generalizing m with
  | nil =>
    unfold Mach.loseBanks
    try dsimp only
    repeat' first
      | with_reducible assumption
      | with_reducible exact Mach.within_refl _ _
      | decide
      | with_reducible apply Mach.afterLoss_within
      | with_reducible apply Mach.discardBank_within
      | (with_reducible apply Mach.within_fst; assumption)
      | (with_reducible apply Mach.within_left; assumption)
      | (with_reducible apply Mach.within_mid; assumption)
      | dsimp only
      | split

  | cons w l ih =>
    unfold Mach.loseBanks
    try dsimp only
    repeat' first
      | with_reducible assumption
      | with_reducible exact Mach.within_refl _ _
      | decide
      | with_reducible apply Mach.within_then (ih _)
      | with_reducible apply Mach.afterLoss_within
      | with_reducible apply Mach.discardBank_within
      | (with_reducible apply Mach.within_fst; assumption)
      | (with_reducible apply Mach.within_left; assumption)
      | (with_reducible apply Mach.within_mid; assumption)
      | dsimp only
      | split

theorem Mach.examineBanks_within {m₀ : Mach} (m : Mach) {ps : List Part} (h₀ : m₀.within m ps)
    (hs : [Part.regs, Part.pa, Part.pb, Part.flt, Part.buf, Part.sec, Part.nv, Part.bist, Part.free].all ps.contains = true) : m₀.within (Mach.examineBanks m) ps := by
  refine Mach.within_step h₀ ?_ hs
  clear h₀ hs
  unfold Mach.examineBanks
  try dsimp only
  repeat' first
    | with_reducible assumption
    | with_reducible exact Mach.within_refl _ _
    | decide
    | with_reducible apply Mach.loseBanks_within
    | with_reducible apply Mach.within_ite
    | with_reducible apply Mach.within_ite2
    | (with_reducible apply Mach.within_fst; assumption)
    | (with_reducible apply Mach.within_left; assumption)
    | (with_reducible apply Mach.within_mid; assumption)
    | dsimp only
    | split
    | ((simp only [Mach.within_mk_eq]; with_reducible apply Mach.withinMk_of) <;> first | exact Or.inr rfl | with_reducible exact Or.inl rfl | with_reducible rfl | with_reducible exact fun h => h | (intro h; simpa [length_listUpd] using h) | (intro h; split <;> exact h) | exact fun h => h | (intro h; simp [startQueues, h]) | skip)

theorem Mach.retentionDip_within {m₀ : Mach} (m : Mach) (bank : Nat) {ps : List Part} (h₀ : m₀.within m ps)
    (hs : [Part.buf].all ps.contains = true) : m₀.within (Mach.retentionDip m bank) ps := by
  refine Mach.within_step h₀ ?_ hs
  clear h₀ hs
  unfold Mach.retentionDip
  try dsimp only
  repeat' first
    | with_reducible assumption
    | with_reducible exact Mach.within_refl _ _
    | decide
    | with_reducible apply Mach.updUnit_within
    | with_reducible apply Mach.within_ite
    | with_reducible apply Mach.within_ite2

theorem Mach.endUpgrade_within {m₀ : Mach} (m : Mach) (p : Port) {ps : List Part} (h₀ : m₀.within m ps)
    (hs : [Part.nv].all ps.contains = true) : m₀.within (Mach.endUpgrade m p) ps := by
  refine Mach.within_step h₀ ?_ hs
  clear h₀ hs
  unfold Mach.endUpgrade
  try dsimp only
  repeat' first
    | with_reducible assumption
    | with_reducible exact Mach.within_refl _ _
    | decide
    | with_reducible apply Mach.within_ite
    | with_reducible apply Mach.within_ite2
    | (with_reducible apply Mach.within_fst; assumption)
    | (with_reducible apply Mach.within_left; assumption)
    | (with_reducible apply Mach.within_mid; assumption)
    | dsimp only
    | split
    | ((simp only [Mach.within_mk_eq]; with_reducible apply Mach.withinMk_of) <;> first | exact Or.inr rfl | with_reducible exact Or.inl rfl | with_reducible rfl | with_reducible exact fun h => h | (intro h; simpa [length_listUpd] using h) | (intro h; split <;> exact h) | exact fun h => h | (intro h; simp [startQueues, h]) | skip)

theorem Mach.portOff_within {m₀ : Mach} (m : Mach) (p : Port) {ps : List Part} (h₀ : m₀.within m ps)
    (hs : [Part.pa, Part.pb, Part.nv].all ps.contains = true) : m₀.within (Mach.portOff m p) ps := by
  refine Mach.within_step h₀ ?_ hs
  clear h₀ hs
  unfold Mach.portOff
  try dsimp only
  repeat' first
    | with_reducible assumption
    | with_reducible exact Mach.within_refl _ _
    | decide
    | with_reducible apply Mach.endUpgrade_within
    | with_reducible apply Mach.updPort_within

theorem Mach.domainLeave_within {m₀ : Mach} (m : Mach) (k : Nat) {ps : List Part} (h₀ : m₀.within m ps)
    (hs : [Part.regs, Part.pa, Part.pb, Part.mot, Part.flt, Part.ang, Part.aux, Part.evt, Part.grd, Part.buf, Part.eng, Part.flue, Part.sec, Part.nv, Part.free].all ps.contains = true) : m₀.within (Mach.domainLeave m k) ps := by
  refine Mach.within_step h₀ ?_ hs
  clear h₀ hs
  unfold Mach.domainLeave
  try dsimp only
  repeat' first
    | with_reducible assumption
    | with_reducible exact Mach.within_refl _ _
    | decide
    | with_reducible apply Mach.auxOff_within
    | with_reducible apply Mach.bufferOff_within
    | with_reducible apply Mach.engOff_within
    | with_reducible apply Mach.flueOff_within
    | with_reducible apply Mach.motionOff_within
    | with_reducible apply Mach.portOff_within
    | with_reducible apply Mach.sealAbandon_within
    | with_reducible apply Mach.signalOff_within
    | (with_reducible apply Mach.within_fst; assumption)
    | (with_reducible apply Mach.within_left; assumption)
    | (with_reducible apply Mach.within_mid; assumption)
    | dsimp only
    | split

theorem Mach.domainJoin_within {m₀ : Mach} (m : Mach) (k : Nat) {ps : List Part} (h₀ : m₀.within m ps)
    (hs : [Part.clk, Part.regs, Part.pa, Part.pb, Part.mot, Part.flt, Part.ang, Part.aux, Part.evt, Part.eng, Part.flue, Part.sec, Part.nv, Part.mem].all ps.contains = true) : m₀.within (Mach.domainJoin m k) ps := by
  refine Mach.within_step h₀ ?_ hs
  clear h₀ hs
  unfold Mach.domainJoin
  try dsimp only
  repeat' first
    | with_reducible assumption
    | with_reducible exact Mach.within_refl _ _
    | decide
    | with_reducible apply Mach.auxOn_within
    | with_reducible apply Mach.blocksOff_within
    | with_reducible apply Mach.engOn_within
    | with_reducible apply Mach.flueOff_within
    | with_reducible apply Mach.intBit_within
    | with_reducible apply Mach.intBoth_within
    | with_reducible apply Mach.motionOn_within
    | with_reducible apply Mach.signalOn_within
    | with_reducible apply Mach.updPort_within
    | with_reducible apply Mach.within_ite
    | with_reducible apply Mach.within_ite2
    | (with_reducible apply Mach.within_fst; assumption)
    | (with_reducible apply Mach.within_left; assumption)
    | (with_reducible apply Mach.within_mid; assumption)
    | dsimp only
    | split
    | ((simp only [Mach.within_mk_eq]; with_reducible apply Mach.withinMk_of) <;> first | exact Or.inr rfl | with_reducible exact Or.inl rfl | with_reducible rfl | with_reducible exact fun h => h | (intro h; simpa [length_listUpd] using h) | (intro h; split <;> exact h) | exact fun h => h | (intro h; simp [startQueues, h]) | skip)

theorem Mach.foscRestart_within {m₀ : Mach} (m : Mach) {ps : List Part} (h₀ : m₀.within m ps)
    (hs : [Part.clk].all ps.contains = true) : m₀.within (Mach.foscRestart m) ps := by
  refine Mach.within_step h₀ ?_ hs
  clear h₀ hs
  unfold Mach.foscRestart
  try dsimp only
  repeat' first
    | with_reducible assumption
    | with_reducible exact Mach.within_refl _ _
    | decide
    | ((simp only [Mach.within_mk_eq]; with_reducible apply Mach.withinMk_of) <;> first | exact Or.inr rfl | with_reducible exact Or.inl rfl | with_reducible rfl | with_reducible exact fun h => h | (intro h; simpa [length_listUpd] using h) | (intro h; split <;> exact h) | exact fun h => h | (intro h; simp [startQueues, h]) | skip)

theorem Mach.switchDom_within {m₀ : Mach} (m : Mach) (k : Nat) (d : Dom) (ember : Bool) {ps : List Part} (h₀ : m₀.within m ps)
    (hs : [Part.clk, Part.regs, Part.pa, Part.pb, Part.mot, Part.flt, Part.ang, Part.aux, Part.evt, Part.grd, Part.buf, Part.eng, Part.flue, Part.sec, Part.nv, Part.bist, Part.mem, Part.free].all ps.contains = true) : m₀.within (Mach.switchDom m k d ember) ps := by
  refine Mach.within_step h₀ ?_ hs
  clear h₀ hs
  unfold Mach.switchDom
  try dsimp only
  repeat' first
    | with_reducible assumption
    | with_reducible exact Mach.within_refl _ _
    | decide
    | with_reducible apply Mach.beforeBufferOff_within
    | with_reducible apply Mach.bufferOn_within
    | with_reducible apply Mach.bufferRetain_within
    | with_reducible apply Mach.domainJoin_within
    | with_reducible apply Mach.domainLeave_within
    | with_reducible apply Mach.emptyStores_within
    | with_reducible apply Mach.examineBanks_within
    | with_reducible apply Mach.foscRestart_within
    | with_reducible apply Mach.oweStart_within
    | with_reducible apply Mach.setDom_within
    | with_reducible apply Mach.within_ite
    | with_reducible apply Mach.within_ite2
    | (with_reducible apply Mach.within_fst; assumption)
    | (with_reducible apply Mach.within_left; assumption)
    | (with_reducible apply Mach.within_mid; assumption)
    | dsimp only
    | split
    | ((simp only [Mach.within_mk_eq]; with_reducible apply Mach.withinMk_of) <;> first | exact Or.inr rfl | with_reducible exact Or.inl rfl | with_reducible rfl | with_reducible exact fun h => h | (intro h; simpa [length_listUpd] using h) | (intro h; split <;> exact h) | exact fun h => h | (intro h; simp [startQueues, h]) | skip)

theorem Mach.isolate_within {m₀ : Mach} (m : Mach) (b : Nat) {ps : List Part} (h₀ : m₀.within m ps)
    (hs : [Part.regs, Part.pa, Part.pb, Part.mot, Part.flt, Part.ang, Part.aux, Part.evt, Part.grd, Part.buf, Part.eng, Part.sec, Part.nv, Part.free].all ps.contains = true) : m₀.within (Mach.isolate m b) ps := by
  refine Mach.within_step h₀ ?_ hs
  clear h₀ hs
  unfold Mach.isolate
  try dsimp only
  repeat' first
    | with_reducible assumption
    | with_reducible exact Mach.within_refl _ _
    | decide
    | with_reducible apply Mach.auxOff_within
    | with_reducible apply Mach.beforeBufferOff_within
    | with_reducible apply Mach.engOff_within
    | with_reducible apply Mach.motionOff_within
    | with_reducible apply Mach.signalOff_within
    | (with_reducible apply Mach.within_fst; assumption)
    | (with_reducible apply Mach.within_left; assumption)
    | (with_reducible apply Mach.within_mid; assumption)
    | dsimp only
    | split

theorem Mach.reinitPort_within {m₀ : Mach} (m : Mach) (p : Port) {ps : List Part} (h₀ : m₀.within m ps)
    (hs : [Part.regs, Part.pa, Part.pb, Part.nv].all ps.contains = true) : m₀.within (Mach.reinitPort m p) ps := by
  refine Mach.within_step h₀ ?_ hs
  clear h₀ hs
  unfold Mach.reinitPort
  try dsimp only
  repeat' first
    | with_reducible assumption
    | with_reducible exact Mach.within_refl _ _
    | decide
    | with_reducible apply Mach.portOff_within
    | with_reducible apply Mach.setReg_within
    | with_reducible apply Mach.within_fold
    | (intro k x hk; try dsimp only)
    | (with_reducible apply Mach.within_fst; assumption)
    | (with_reducible apply Mach.within_left; assumption)
    | (with_reducible apply Mach.within_mid; assumption)
    | dsimp only
    | split

theorem Mach.reinit_within {m₀ : Mach} (m : Mach) (b : Nat) {ps : List Part} (h₀ : m₀.within m ps)
    (hs : [Part.clk, Part.regs, Part.pa, Part.pb, Part.mot, Part.flt, Part.ang, Part.aux, Part.evt, Part.grd, Part.buf, Part.eng, Part.sec, Part.nv, Part.mem, Part.free].all ps.contains = true) : m₀.within (Mach.reinit m b) ps := by
  refine Mach.within_step h₀ ?_ hs
  clear h₀ hs
  unfold Mach.reinit
  try dsimp only
  repeat' first
    | with_reducible assumption
    | with_reducible exact Mach.within_refl _ _
    | decide
    | with_reducible apply Mach.auxOff_within
    | with_reducible apply Mach.auxOn_within
    | with_reducible apply Mach.blocksOff_within
    | with_reducible apply Mach.engOff_within
    | with_reducible apply Mach.engOn_within
    | with_reducible apply Mach.grdTryArm_within
    | with_reducible apply Mach.motionOff_within
    | with_reducible apply Mach.motionOn_within
    | with_reducible apply Mach.oweStart_within
    | with_reducible apply Mach.signalOff_within
    | with_reducible apply Mach.signalOn_within
    | with_reducible apply Mach.within_ite
    | with_reducible apply Mach.within_ite2
    | (with_reducible apply Mach.within_fst; assumption)
    | (with_reducible apply Mach.within_left; assumption)
    | (with_reducible apply Mach.within_mid; assumption)
    | dsimp only
    | split

end Sys2Proof.Machine
end

