-- ==== Sys2Proof/Laws/WithinSelfTest.lean ====
section
/-! SUPPORT. The reach of every operation of Machine/SelfTest.lean. -/

set_option linter.unusedTactic false
set_option linter.unusedSimpArgs false
set_option linter.unusedVariables false
set_option linter.unreachableTactic false
set_option linter.unnecessarySimpa false

namespace Sys2Proof.Machine

theorem Mach.putPreg_within {m₀ : Mach} (m : Mach) (p : PReg) {ps : List Part} (h₀ : m₀.within m ps)
    (hs : [Part.nv].all ps.contains = true) : m₀.within (Mach.putPreg m p) ps := by
  refine Mach.within_step h₀ ?_ hs
  clear h₀ hs
  unfold Mach.putPreg
  try dsimp only
  repeat' first
    | with_reducible assumption
    | with_reducible exact Mach.within_refl _ _
    | decide
    | ((simp only [Mach.within_mk_eq]; with_reducible apply Mach.withinMk_of) <;> first | exact Or.inr rfl | with_reducible exact Or.inl rfl | with_reducible rfl | with_reducible exact fun h => h | (intro h; simpa [length_listUpd] using h) | (intro h; split <;> exact h) | exact fun h => h | (intro h; simp [startQueues, h]) | skip)

theorem Mach.pstLast_within {m₀ : Mach} (m : Mach) (event a : Nat) {ps : List Part} (h₀ : m₀.within m ps)
    (hs : [Part.regs].all ps.contains = true) : m₀.within (Mach.pstLast m event a) ps := by
  refine Mach.within_step h₀ ?_ hs
  clear h₀ hs
  unfold Mach.pstLast
  try dsimp only
  repeat' first
    | with_reducible assumption
    | with_reducible exact Mach.within_refl _ _
    | decide
    | with_reducible apply Mach.setReg_within

theorem Mach.wornEvent_within {m₀ : Mach} (m : Mach) (a : Nat) {ps : List Part} (h₀ : m₀.within m ps)
    (hs : [Part.regs].all ps.contains = true) : m₀.within (Mach.wornEvent m a) ps := by
  refine Mach.within_step h₀ ?_ hs
  clear h₀ hs
  unfold Mach.wornEvent
  try dsimp only
  repeat' first
    | with_reducible assumption
    | with_reducible exact Mach.within_refl _ _
    | decide
    | with_reducible apply Mach.count_within
    | with_reducible apply Mach.pstLast_within
    | with_reducible apply Mach.sqBit_within

theorem Mach.persistWrite_within {m₀ : Mach} (m : Mach) (a : Nat) (new : Word) (by_ : Option Port) {ps : List Part} (h₀ : m₀.within m ps)
    (hs : [Part.regs, Part.nv].all ps.contains = true) : m₀.within (Mach.persistWrite m a new by_).2 ps := by
  refine Mach.within_step h₀ ?_ hs
  clear h₀ hs
  unfold Mach.persistWrite
  try dsimp only
  repeat' first
    | with_reducible assumption
    | with_reducible exact Mach.within_refl _ _
    | decide
    | with_reducible apply Mach.setReg_within
    | with_reducible apply Mach.wornEvent_within
    | with_reducible apply Mach.within_ite
    | with_reducible apply Mach.within_ite2
    | ((simp only [Mach.within_mk_eq]; with_reducible apply Mach.withinMk_of) <;> first | exact Or.inr rfl | with_reducible exact Or.inl rfl | with_reducible rfl | with_reducible exact fun h => h | (intro h; simpa [length_listUpd] using h) | (intro h; split <;> exact h) | exact fun h => h | (intro h; simp [startQueues, h]) | skip)

theorem Mach.persistBack_within {m₀ : Mach} (m : Mach) (w : PWrite) {ps : List Part} (h₀ : m₀.within m ps)
    (hs : [Part.regs].all ps.contains = true) : m₀.within (Mach.persistBack m w) ps := by
  refine Mach.within_step h₀ ?_ hs
  clear h₀ hs
  unfold Mach.persistBack
  try dsimp only
  repeat' first
    | with_reducible assumption
    | with_reducible exact Mach.within_refl _ _
    | decide
    | with_reducible apply Mach.setReg_within

theorem Mach.takeNvRow_within {m₀ : Mach} (m : Mach) (k : Nat) {ps : List Part} (h₀ : m₀.within m ps)
    (hs : [Part.regs, Part.nv, Part.bist].all ps.contains = true) : m₀.within (Mach.takeNvRow m k) ps := by
  refine Mach.within_step h₀ ?_ hs
  clear h₀ hs
  unfold Mach.takeNvRow
  try dsimp only
  repeat' first
    | with_reducible assumption
    | with_reducible exact Mach.within_refl _ _
    | decide
    | with_reducible apply Mach.spareEvents_within
    | ((simp only [Mach.within_mk_eq]; with_reducible apply Mach.withinMk_of) <;> first | exact Or.inr rfl | with_reducible exact Or.inl rfl | with_reducible rfl | with_reducible exact fun h => h | (intro h; simpa [length_listUpd] using h) | (intro h; split <;> exact h) | exact fun h => h | (intro h; simp [startQueues, h]) | skip)

theorem Mach.transferDone_within {m₀ : Mach} (m : Mach) (rowFailed : Bool) {ps : List Part} (h₀ : m₀.within m ps)
    (hs : [Part.regs, Part.flt, Part.nv, Part.bist, Part.mem].all ps.contains = true) : m₀.within (Mach.transferDone m rowFailed) ps := by
  refine Mach.within_step h₀ ?_ hs
  clear h₀ hs
  unfold Mach.transferDone
  try dsimp only
  repeat' first
    | with_reducible assumption
    | with_reducible exact Mach.within_refl _ _
    | decide
    | with_reducible apply Mach.putLib_within
    | with_reducible apply Mach.setBank_within
    | with_reducible apply Mach.setFld_within
    | with_reducible apply Mach.takeNvRow_within
    | with_reducible apply Mach.within_ite
    | with_reducible apply Mach.within_ite2
    | (with_reducible apply Mach.within_fst; assumption)
    | (with_reducible apply Mach.within_left; assumption)
    | (with_reducible apply Mach.within_mid; assumption)
    | dsimp only
    | split
    | ((simp only [Mach.within_mk_eq]; with_reducible apply Mach.withinMk_of) <;> first | exact Or.inr rfl | with_reducible exact Or.inl rfl | with_reducible rfl | with_reducible exact fun h => h | (intro h; simpa [length_listUpd] using h) | (intro h; split <;> exact h) | exact fun h => h | (intro h; simp [startQueues, h]) | skip)

theorem Mach.leadEnd_within {m₀ : Mach} (m : Mach) (n : Nat) {ps : List Part} (h₀ : m₀.within m ps)
    (hs : [Part.regs, Part.aux].all ps.contains = true) : m₀.within (Mach.leadEnd m n) ps := by
  refine Mach.within_step h₀ ?_ hs
  clear h₀ hs
  unfold Mach.leadEnd
  try dsimp only
  repeat' first
    | with_reducible assumption
    | with_reducible exact Mach.within_refl _ _
    | decide
    | with_reducible apply Mach.auxChange_within
    | with_reducible apply Mach.setFld_within
    | with_reducible apply Mach.sqBit_within
    | with_reducible apply Mach.within_ite
    | with_reducible apply Mach.within_ite2
    | ((simp only [Mach.within_mk_eq]; with_reducible apply Mach.withinMk_of) <;> first | exact Or.inr rfl | with_reducible exact Or.inl rfl | with_reducible rfl | with_reducible exact fun h => h | (intro h; simpa [length_listUpd] using h) | (intro h; split <;> exact h) | exact fun h => h | (intro h; simp [startQueues, h]) | skip)

theorem Mach.leadWritten_within {m₀ : Mach} (m : Mach) (w : PWrite) (old : Nat → AuxCfg) (done : Bool) {ps : List Part} (h₀ : m₀.within m ps)
    (hs : [Part.regs, Part.aux].all ps.contains = true) : m₀.within (Mach.leadWritten m w old done) ps := by
  refine Mach.within_step h₀ ?_ hs
  clear h₀ hs
  unfold Mach.leadWritten
  try dsimp only
  repeat' first
    | with_reducible assumption
    | with_reducible exact Mach.within_refl _ _
    | decide
    | with_reducible apply Mach.auxChanges_within
    | with_reducible apply Mach.leadEnd_within
    | with_reducible apply Mach.leadFail_within
    | with_reducible apply Mach.within_ite
    | with_reducible apply Mach.within_ite2
    | (with_reducible apply Mach.within_fst; assumption)
    | (with_reducible apply Mach.within_left; assumption)
    | (with_reducible apply Mach.within_mid; assumption)
    | dsimp only
    | split

theorem Mach.persistDone_within {m₀ : Mach} (m : Mach) (c : RowCheck) {ps : List Part} (h₀ : m₀.within m ps)
    (hs : [Part.regs, Part.pa, Part.pb, Part.aux, Part.sec, Part.nv, Part.bist].all ps.contains = true) : m₀.within (Mach.persistDone m c) ps := by
  refine Mach.within_step h₀ ?_ hs
  clear h₀ hs
  unfold Mach.persistDone
  try dsimp only
  repeat' first
    | with_reducible assumption
    | with_reducible exact Mach.within_refl _ _
    | decide
    | with_reducible apply Mach.count_within
    | with_reducible apply Mach.intBoth_within
    | with_reducible apply Mach.leadWritten_within
    | with_reducible apply Mach.persistBack_within
    | with_reducible apply Mach.pstLast_within
    | with_reducible apply Mach.putPreg_within
    | with_reducible apply Mach.secRevert_within
    | with_reducible apply Mach.secWritten_within
    | with_reducible apply Mach.sqBit_within
    | with_reducible apply Mach.sqEvent_within
    | with_reducible apply Mach.takeNvRow_within
    | with_reducible apply Mach.within_ite
    | with_reducible apply Mach.within_ite2
    | (with_reducible apply Mach.within_fst; assumption)
    | (with_reducible apply Mach.within_left; assumption)
    | (with_reducible apply Mach.within_mid; assumption)
    | dsimp only
    | split
    | ((simp only [Mach.within_mk_eq]; with_reducible apply Mach.withinMk_of) <;> first | exact Or.inr rfl | with_reducible exact Or.inl rfl | with_reducible rfl | with_reducible exact fun h => h | (intro h; simpa [length_listUpd] using h) | (intro h; split <;> exact h) | exact fun h => h | (intro h; simp [startQueues, h]) | skip)

theorem Mach.leadDone_within {m₀ : Mach} (m : Mach) {ps : List Part} (h₀ : m₀.within m ps)
    (hs : [Part.regs, Part.aux, Part.nv].all ps.contains = true) : m₀.within (Mach.leadDone m) ps := by
  refine Mach.within_step h₀ ?_ hs
  clear h₀ hs
  unfold Mach.leadDone
  try dsimp only
  repeat' first
    | with_reducible assumption
    | with_reducible exact Mach.within_refl _ _
    | decide
    | with_reducible apply Mach.leadEnd_within
    | with_reducible apply Mach.leadFail_within
    | with_reducible apply Mach.persistWrite_within
    | with_reducible apply Mach.within_ite
    | with_reducible apply Mach.within_ite2
    | (with_reducible apply Mach.within_fst; assumption)
    | (with_reducible apply Mach.within_left; assumption)
    | (with_reducible apply Mach.within_mid; assumption)
    | dsimp only
    | split
    | ((simp only [Mach.within_mk_eq]; with_reducible apply Mach.withinMk_of) <;> first | exact Or.inr rfl | with_reducible exact Or.inl rfl | with_reducible rfl | with_reducible exact fun h => h | (intro h; simpa [length_listUpd] using h) | (intro h; split <;> exact h) | exact fun h => h | (intro h; simp [startQueues, h]) | skip)

theorem Mach.spareIn_within {m₀ : Mach} (m : Mach) (kind unit : Nat) {ps : List Part} (h₀ : m₀.within m ps)
    (hs : [Part.regs, Part.eng, Part.nv, Part.bist].all ps.contains = true) : m₀.within (Mach.spareIn m kind unit) ps := by
  refine Mach.within_step h₀ ?_ hs
  clear h₀ hs
  unfold Mach.spareIn
  try dsimp only
  repeat' first
    | with_reducible assumption
    | with_reducible exact Mach.within_refl _ _
    | decide
    | with_reducible apply Mach.engSpoil_within
    | with_reducible apply Mach.spareEvents_within
    | with_reducible apply Mach.within_ite
    | with_reducible apply Mach.within_ite2
    | (with_reducible apply Mach.within_fst; assumption)
    | (with_reducible apply Mach.within_left; assumption)
    | (with_reducible apply Mach.within_mid; assumption)
    | dsimp only
    | split
    | ((simp only [Mach.within_mk_eq]; with_reducible apply Mach.withinMk_of) <;> first | exact Or.inr rfl | with_reducible exact Or.inl rfl | with_reducible rfl | with_reducible exact fun h => h | (intro h; simpa [length_listUpd] using h) | (intro h; split <;> exact h) | exact fun h => h | (intro h; simp [startQueues, h]) | skip)

theorem Mach.copyStart_within {m₀ : Mach} (m : Mach) (bank : Bool) (unit : Nat) (go : Bool) {ps : List Part} (h₀ : m₀.within m ps)
    (hs : [Part.bist].all ps.contains = true) : m₀.within (Mach.copyStart m bank unit go) ps := by
  refine Mach.within_step h₀ ?_ hs
  clear h₀ hs
  unfold Mach.copyStart
  try dsimp only
  repeat' first
    | with_reducible assumption
    | with_reducible exact Mach.within_refl _ _
    | decide
    | ((simp only [Mach.within_mk_eq]; with_reducible apply Mach.withinMk_of) <;> first | exact Or.inr rfl | with_reducible exact Or.inl rfl | with_reducible rfl | with_reducible exact fun h => h | (intro h; simpa [length_listUpd] using h) | (intro h; split <;> exact h) | exact fun h => h | (intro h; simp [startQueues, h]) | skip)

theorem Mach.copyDone_within {m₀ : Mach} (m : Mach) {ps : List Part} (h₀ : m₀.within m ps)
    (hs : [Part.regs, Part.pa, Part.pb, Part.buf, Part.bist].all ps.contains = true) : m₀.within (Mach.copyDone m) ps := by
  refine Mach.within_step h₀ ?_ hs
  clear h₀ hs
  unfold Mach.copyDone
  try dsimp only
  repeat' first
    | with_reducible assumption
    | with_reducible exact Mach.within_refl _ _
    | decide
    | with_reducible apply Mach.dropStores_within
    | with_reducible apply Mach.serveBank_within
    | with_reducible apply Mach.setFld_within
    | with_reducible apply Mach.spareEvents_within
    | with_reducible apply Mach.updUnit_within
    | with_reducible apply Mach.within_ite
    | with_reducible apply Mach.within_ite2
    | (with_reducible apply Mach.within_fst; assumption)
    | (with_reducible apply Mach.within_left; assumption)
    | (with_reducible apply Mach.within_mid; assumption)
    | dsimp only
    | split
    | ((simp only [Mach.within_mk_eq]; with_reducible apply Mach.withinMk_of) <;> first | exact Or.inr rfl | with_reducible exact Or.inl rfl | with_reducible rfl | with_reducible exact fun h => h | (intro h; simpa [length_listUpd] using h) | (intro h; split <;> exact h) | exact fun h => h | (intro h; simp [startQueues, h]) | skip)

theorem Mach.spareUse_within {m₀ : Mach} (m : Mach) (kind unit : Nat) (go : Bool) {ps : List Part} (h₀ : m₀.within m ps)
    (hs : [Part.regs, Part.flt, Part.eng, Part.nv, Part.bist].all ps.contains = true) : m₀.within (Mach.spareUse m kind unit go) ps := by
  refine Mach.within_step h₀ ?_ hs
  clear h₀ hs
  unfold Mach.spareUse
  try dsimp only
  repeat' first
    | with_reducible assumption
    | with_reducible exact Mach.within_refl _ _
    | decide
    | with_reducible apply Mach.copyStart_within
    | with_reducible apply Mach.spareIn_within
    | with_reducible apply Mach.stopSource_within
    | (with_reducible apply Mach.within_fst; assumption)
    | (with_reducible apply Mach.within_left; assumption)
    | (with_reducible apply Mach.within_mid; assumption)
    | dsimp only
    | split

theorem Mach.eccCorrected_within {m₀ : Mach} (m : Mach) (bank row : Nat) {ps : List Part} (h₀ : m₀.within m ps)
    (hs : [Part.regs, Part.buf, Part.bist].all ps.contains = true) : m₀.within (Mach.eccCorrected m bank row) ps := by
  refine Mach.within_step h₀ ?_ hs
  clear h₀ hs
  unfold Mach.eccCorrected
  try dsimp only
  repeat' first
    | with_reducible assumption
    | with_reducible exact Mach.within_refl _ _
    | decide
    | with_reducible apply Mach.copyStart_within
    | with_reducible apply Mach.count_within
    | with_reducible apply Mach.updUnit_within
    | with_reducible apply Mach.within_ite
    | with_reducible apply Mach.within_ite2
    | (with_reducible apply Mach.within_fst; assumption)
    | (with_reducible apply Mach.within_left; assumption)
    | (with_reducible apply Mach.within_mid; assumption)
    | dsimp only
    | split
    | ((simp only [Mach.within_mk_eq]; with_reducible apply Mach.withinMk_of) <;> first | exact Or.inr rfl | with_reducible exact Or.inl rfl | with_reducible rfl | with_reducible exact fun h => h | (intro h; simpa [length_listUpd] using h) | (intro h; split <;> exact h) | exact fun h => h | (intro h; simp [startQueues, h]) | skip)

theorem Mach.eccFinding_within {m₀ : Mach} (m : Mach) (blockNo w : Nat) (uncorrectable : Bool) {ps : List Part} (h₀ : m₀.within m ps)
    (hs : [Part.regs, Part.pa, Part.pb, Part.flt, Part.buf, Part.sec, Part.nv, Part.bist, Part.free].all ps.contains = true) : m₀.within (Mach.eccFinding m blockNo w uncorrectable) ps := by
  refine Mach.within_step h₀ ?_ hs
  clear h₀ hs
  unfold Mach.eccFinding
  try dsimp only
  repeat' first
    | with_reducible assumption
    | with_reducible exact Mach.within_refl _ _
    | decide
    | with_reducible apply Mach.eccCorrected_within
    | with_reducible apply Mach.loseBank_within
    | with_reducible apply Mach.within_ite
    | with_reducible apply Mach.within_ite2

theorem Mach.testBegin_within {m₀ : Mach} (m : Mach) {ps : List Part} (h₀ : m₀.within m ps)
    (hs : [Part.regs, Part.pa, Part.pb, Part.mot, Part.flt, Part.ang, Part.aux, Part.evt, Part.grd, Part.buf, Part.eng, Part.sec, Part.nv, Part.bist, Part.free].all ps.contains = true) : m₀.within (Mach.testBegin m) ps := by
  refine Mach.within_step h₀ ?_ hs
  clear h₀ hs
  unfold Mach.testBegin
  try dsimp only
  repeat' first
    | with_reducible assumption
    | with_reducible exact Mach.within_refl _ _
    | decide
    | with_reducible apply Mach.isolate_within
    | with_reducible apply Mach.within_ite
    | with_reducible apply Mach.within_ite2
    | (with_reducible apply Mach.within_fst; assumption)
    | (with_reducible apply Mach.within_left; assumption)
    | (with_reducible apply Mach.within_mid; assumption)
    | dsimp only
    | split
    | ((simp only [Mach.within_mk_eq]; with_reducible apply Mach.withinMk_of) <;> first | exact Or.inr rfl | with_reducible exact Or.inl rfl | with_reducible rfl | with_reducible exact fun h => h | (intro h; simpa [length_listUpd] using h) | (intro h; split <;> exact h) | exact fun h => h | (intro h; simp [startQueues, h]) | skip)

theorem Mach.runStart_within {m₀ : Mach} (m : Mach) (kind : RunKind) (tests : List Nat) (p : Option Port) (verb cold : Bool) {ps : List Part} (h₀ : m₀.within m ps)
    (hs : [Part.regs, Part.pa, Part.pb, Part.mot, Part.flt, Part.ang, Part.aux, Part.evt, Part.grd, Part.buf, Part.eng, Part.sec, Part.nv, Part.bist, Part.free].all ps.contains = true) : m₀.within (Mach.runStart m kind tests p verb cold) ps := by
  refine Mach.within_step h₀ ?_ hs
  clear h₀ hs
  unfold Mach.runStart
  try dsimp only
  repeat' first
    | with_reducible assumption
    | with_reducible exact Mach.within_refl _ _
    | decide
    | with_reducible apply Mach.code_within
    | with_reducible apply Mach.testBegin_within
    | ((simp only [Mach.within_mk_eq]; with_reducible apply Mach.withinMk_of) <;> first | exact Or.inr rfl | with_reducible exact Or.inl rfl | with_reducible rfl | with_reducible exact fun h => h | (intro h; simpa [length_listUpd] using h) | (intro h; split <;> exact h) | exact fun h => h | (intro h; simp [startQueues, h]) | skip)

theorem Mach.putResult_within {m₀ : Mach} (m : Mach) (r : TestRun) (b result sub steps expected : Nat) (sig : Word) {ps : List Part} (h₀ : m₀.within m ps)
    (hs : [Part.regs, Part.pa, Part.pb].all ps.contains = true) : m₀.within (Mach.putResult m r b result sub steps expected sig) ps := by
  refine Mach.within_step h₀ ?_ hs
  clear h₀ hs
  unfold Mach.putResult
  try dsimp only
  repeat' first
    | with_reducible assumption
    | with_reducible exact Mach.within_refl _ _
    | decide
    | with_reducible apply Mach.code_within
    | with_reducible apply Mach.setReg_within

theorem Mach.spareFails_within {m₀ : Mach} (m : Mach) (bit : Nat) {ps : List Part} (h₀ : m₀.within m ps)
    (hs : [Part.regs, Part.nv, Part.bist].all ps.contains = true) : m₀.within (Mach.spareFails m bit) ps := by
  refine Mach.within_step h₀ ?_ hs
  clear h₀ hs
  unfold Mach.spareFails
  try dsimp only
  repeat' first
    | with_reducible assumption
    | with_reducible exact Mach.within_refl _ _
    | decide
    | with_reducible apply Mach.spareEvents_within
    | ((simp only [Mach.within_mk_eq]; with_reducible apply Mach.withinMk_of) <;> first | exact Or.inr rfl | with_reducible exact Or.inl rfl | with_reducible rfl | with_reducible exact fun h => h | (intro h; simpa [length_listUpd] using h) | (intro h; split <;> exact h) | exact fun h => h | (intro h; simp [startQueues, h]) | skip)

theorem Mach.spareFor_within {m₀ : Mach} (m : Mach) (kind unit : Nat) {ps : List Part} (h₀ : m₀.within m ps)
    (hs : [Part.regs, Part.eng, Part.nv, Part.bist].all ps.contains = true) : m₀.within (Mach.spareFor m kind unit) ps := by
  refine Mach.within_step h₀ ?_ hs
  clear h₀ hs
  unfold Mach.spareFor
  try dsimp only
  repeat' first
    | with_reducible assumption
    | with_reducible exact Mach.within_refl _ _
    | decide
    | with_reducible apply Mach.spareIn_within
    | with_reducible apply Mach.within_ite
    | with_reducible apply Mach.within_ite2

theorem Mach.testFailed_within {m₀ : Mach} (m : Mach) (r : TestRun) (b : Nat) (o : TestOutcome) {ps : List Part} (h₀ : m₀.within m ps)
    (hs : [Part.regs, Part.buf, Part.eng, Part.nv, Part.bist].all ps.contains = true) : m₀.within (Mach.testFailed m r b o) ps := by
  refine Mach.within_step h₀ ?_ hs
  clear h₀ hs
  unfold Mach.testFailed
  try dsimp only
  repeat' first
    | with_reducible assumption
    | with_reducible exact Mach.within_refl _ _
    | decide
    | with_reducible apply Mach.replaceBank_within
    | with_reducible apply Mach.spareEvents_within
    | with_reducible apply Mach.spareFails_within
    | with_reducible apply Mach.spareFor_within
    | with_reducible apply Mach.updUnit_within
    | with_reducible apply Mach.within_ite
    | with_reducible apply Mach.within_ite2
    | (with_reducible apply Mach.within_fst; assumption)
    | (with_reducible apply Mach.within_left; assumption)
    | (with_reducible apply Mach.within_mid; assumption)
    | dsimp only
    | split

theorem Mach.runEnd_within {m₀ : Mach} (m : Mach) (r : TestRun) (aborted : Bool) {ps : List Part} (h₀ : m₀.within m ps)
    (hs : [Part.clk, Part.regs, Part.bist].all ps.contains = true) : m₀.within (Mach.runEnd m r aborted).1 ps := by
  refine Mach.within_step h₀ ?_ hs
  clear h₀ hs
  unfold Mach.runEnd
  try dsimp only
  repeat' first
    | with_reducible assumption
    | with_reducible exact Mach.within_refl _ _
    | decide
    | with_reducible apply Mach.bistEvent_within
    | with_reducible apply Mach.setReg_within
    | with_reducible apply Mach.within_ite
    | with_reducible apply Mach.within_ite1
    | with_reducible apply Mach.within_ite2
    | (with_reducible apply Mach.within_fst; assumption)
    | (with_reducible apply Mach.within_left; assumption)
    | (with_reducible apply Mach.within_mid; assumption)
    | dsimp only
    | split
    | ((simp only [Mach.within_mk_eq]; with_reducible apply Mach.withinMk_of) <;> first | exact Or.inr rfl | with_reducible exact Or.inl rfl | with_reducible rfl | with_reducible exact fun h => h | (intro h; simpa [length_listUpd] using h) | (intro h; split <;> exact h) | exact fun h => h | (intro h; simp [startQueues, h]) | skip)

theorem Mach.selfTestEnd_within {m₀ : Mach} (m : Mach) (o : TestOutcome) {ps : List Part} (h₀ : m₀.within m ps)
    (hs : [Part.clk, Part.regs, Part.pa, Part.pb, Part.mot, Part.flt, Part.ang, Part.aux, Part.evt, Part.grd, Part.buf, Part.eng, Part.sec, Part.nv, Part.bist, Part.mem, Part.free].all ps.contains = true) : m₀.within (Mach.selfTestEnd m o).1 ps := by
  refine Mach.within_step h₀ ?_ hs
  clear h₀ hs
  unfold Mach.selfTestEnd
  try dsimp only
  repeat' first
    | with_reducible assumption
    | with_reducible exact Mach.within_refl _ _
    | decide
    | with_reducible apply Mach.bistEvent_within
    | with_reducible apply Mach.putResult_within
    | with_reducible apply Mach.reinit_within
    | with_reducible apply Mach.reinitPort_within
    | with_reducible apply Mach.runEnd_within
    | with_reducible apply Mach.testBegin_within
    | with_reducible apply Mach.testFailed_within
    | with_reducible apply Mach.within_ite
    | with_reducible apply Mach.within_ite1
    | with_reducible apply Mach.within_ite2
    | with_reducible apply Mach.within_fold
    | (intro k x hk; try dsimp only)
    | (with_reducible apply Mach.within_fst; assumption)
    | (with_reducible apply Mach.within_left; assumption)
    | (with_reducible apply Mach.within_mid; assumption)
    | dsimp only
    | split
    | ((simp only [Mach.within_mk_eq]; with_reducible apply Mach.withinMk_of) <;> first | exact Or.inr rfl | with_reducible exact Or.inl rfl | with_reducible rfl | with_reducible exact fun h => h | (intro h; simpa [length_listUpd] using h) | (intro h; split <;> exact h) | exact fun h => h | (intro h; simp [startQueues, h]) | skip)

theorem Mach.skipTests_within {m₀ : Mach} (m : Mach) (r : TestRun) (x0 : List Nat) {ps : List Part} (h₀ : m₀.within m ps)
    (hs : [Part.regs, Part.pa, Part.pb, Part.free].all ps.contains = true) : m₀.within (Mach.skipTests m r x0) ps := by
  refine Mach.within_step h₀ ?_ hs
  clear h₀ hs
  induction x0 generalizing m r with
  | nil =>
    unfold Mach.skipTests
    try dsimp only
    repeat' first
      | with_reducible assumption
      | with_reducible exact Mach.within_refl _ _
      | decide
      | with_reducible apply Mach.drawNat_within
      | with_reducible apply Mach.putResult_within
      | (with_reducible apply Mach.within_fst; assumption)
      | (with_reducible apply Mach.within_left; assumption)
      | (with_reducible apply Mach.within_mid; assumption)
      | dsimp only
      | split

  | cons w l ih =>
    unfold Mach.skipTests
    try dsimp only
    repeat' first
      | with_reducible assumption
      | with_reducible exact Mach.within_refl _ _
      | decide
      | with_reducible apply Mach.within_then (ih _ _)
      | with_reducible apply Mach.drawNat_within
      | with_reducible apply Mach.putResult_within
      | (with_reducible apply Mach.within_fst; assumption)
      | (with_reducible apply Mach.within_left; assumption)
      | (with_reducible apply Mach.within_mid; assumption)
      | dsimp only
      | split

theorem Mach.testAbort_within {m₀ : Mach} (m : Mach) (serve : Bool) {ps : List Part} (h₀ : m₀.within m ps)
    (hs : [Part.clk, Part.regs, Part.pa, Part.pb, Part.mot, Part.flt, Part.ang, Part.aux, Part.evt, Part.grd, Part.buf, Part.eng, Part.sec, Part.nv, Part.bist, Part.mem, Part.free].all ps.contains = true) : m₀.within (Mach.testAbort m serve).1 ps := by
  refine Mach.within_step h₀ ?_ hs
  clear h₀ hs
  unfold Mach.testAbort
  try dsimp only
  repeat' first
    | with_reducible assumption
    | with_reducible exact Mach.within_refl _ _
    | decide
    | with_reducible apply Mach.bistEvent_within
    | with_reducible apply Mach.drawNat_within
    | with_reducible apply Mach.putResult_within
    | with_reducible apply Mach.reinit_within
    | with_reducible apply Mach.reinitPort_within
    | with_reducible apply Mach.runEnd_within
    | with_reducible apply Mach.skipTests_within
    | with_reducible apply Mach.within_ite
    | with_reducible apply Mach.within_ite1
    | with_reducible apply Mach.within_ite2
    | with_reducible apply Mach.within_fold
    | (intro k x hk; try dsimp only)
    | (with_reducible apply Mach.within_fst; assumption)
    | (with_reducible apply Mach.within_left; assumption)
    | (with_reducible apply Mach.within_mid; assumption)
    | dsimp only
    | split
    | ((simp only [Mach.within_mk_eq]; with_reducible apply Mach.withinMk_of) <;> first | exact Or.inr rfl | with_reducible exact Or.inl rfl | with_reducible rfl | with_reducible exact fun h => h | (intro h; simpa [length_listUpd] using h) | (intro h; split <;> exact h) | exact fun h => h | (intro h; simp [startQueues, h]) | skip)

end Sys2Proof.Machine
end

