-- ==== Sys2Proof/Laws/WithinPower.lean ====
section
/-! SUPPORT. The reach of every operation of Machine/Power.lean. -/

set_option linter.unusedTactic false
set_option linter.unusedSimpArgs false
set_option linter.unusedVariables false
set_option linter.unreachableTactic false
set_option linter.unnecessarySimpa false

namespace Sys2Proof.Machine

theorem Mach.toRun_within {m₀ : Mach} (m : Mach) (ks : List Nat) {ps : List Part} (h₀ : m₀.within m ps)
    (hs : [Part.clk, Part.regs, Part.pa, Part.pb, Part.mot, Part.flt, Part.ang, Part.aux, Part.evt, Part.grd, Part.buf, Part.eng, Part.flue, Part.sec, Part.nv, Part.bist, Part.mem, Part.free].all ps.contains = true) : m₀.within (Mach.toRun m ks) ps := by
  refine Mach.within_step h₀ ?_ hs
  clear h₀ hs
  unfold Mach.toRun
  try dsimp only
  repeat' first
    | with_reducible assumption
    | with_reducible exact Mach.within_refl _ _
    | decide
    | with_reducible apply Mach.switchDom_within
    | with_reducible apply Mach.within_fold
    | (intro k x hk; try dsimp only)

theorem Mach.domWrite_within {m₀ : Mach} (m : Mach) (new : Word) {ps : List Part} (h₀ : m₀.within m ps)
    (hs : [Part.clk, Part.regs, Part.pa, Part.pb, Part.mot, Part.flt, Part.ang, Part.aux, Part.evt, Part.grd, Part.buf, Part.eng, Part.flue, Part.sec, Part.nv, Part.bist, Part.mem, Part.free].all ps.contains = true) : m₀.within (Mach.domWrite m new) ps := by
  refine Mach.within_step h₀ ?_ hs
  clear h₀ hs
  unfold Mach.domWrite
  try dsimp only
  repeat' first
    | with_reducible assumption
    | with_reducible exact Mach.within_refl _ _
    | decide
    | with_reducible apply Mach.setReg_within
    | with_reducible apply Mach.toRun_within

theorem Mach.watchDomains_within {m₀ : Mach} (m : Mach) {ps : List Part} (h₀ : m₀.within m ps)
    (hs : [Part.clk, Part.regs, Part.pa, Part.pb, Part.mot, Part.flt, Part.ang, Part.aux, Part.evt, Part.grd, Part.buf, Part.eng, Part.flue, Part.sec, Part.nv, Part.bist, Part.mem, Part.free].all ps.contains = true) : m₀.within (Mach.watchDomains m) ps := by
  refine Mach.within_step h₀ ?_ hs
  clear h₀ hs
  unfold Mach.watchDomains
  try dsimp only
  repeat' first
    | with_reducible assumption
    | with_reducible exact Mach.within_refl _ _
    | decide
    | with_reducible apply Mach.enterSearch_within
    | with_reducible apply Mach.evtEnterWatch_within
    | with_reducible apply Mach.grdOff_within
    | with_reducible apply Mach.presetChange_within
    | with_reducible apply Mach.stopGroups_within
    | with_reducible apply Mach.switchDom_within
    | with_reducible apply Mach.within_fold
    | (intro k x hk; try dsimp only)
    | ((simp only [Mach.within_mk_eq]; with_reducible apply Mach.withinMk_of) <;> first | exact Or.inr rfl | with_reducible exact Or.inl rfl | with_reducible rfl | with_reducible exact fun h => h | (intro h; simpa [length_listUpd] using h) | (intro h; split <;> exact h) | exact fun h => h | (intro h; simp [startQueues, h]) | skip)

theorem Mach.emberDomains_within {m₀ : Mach} (m : Mach) {ps : List Part} (h₀ : m₀.within m ps)
    (hs : [Part.clk, Part.regs, Part.pa, Part.pb, Part.mot, Part.flt, Part.ang, Part.aux, Part.evt, Part.grd, Part.buf, Part.eng, Part.flue, Part.sec, Part.nv, Part.bist, Part.mem, Part.free].all ps.contains = true) : m₀.within (Mach.emberDomains m) ps := by
  refine Mach.within_step h₀ ?_ hs
  clear h₀ hs
  unfold Mach.emberDomains
  try dsimp only
  repeat' first
    | with_reducible assumption
    | with_reducible exact Mach.within_refl _ _
    | decide
    | with_reducible apply Mach.switchDom_within
    | with_reducible apply Mach.within_fold
    | (intro k x hk; try dsimp only)
    | ((simp only [Mach.within_mk_eq]; with_reducible apply Mach.withinMk_of) <;> first | exact Or.inr rfl | with_reducible exact Or.inl rfl | with_reducible rfl | with_reducible exact fun h => h | (intro h; simpa [length_listUpd] using h) | (intro h; split <;> exact h) | exact fun h => h | (intro h; simp [startQueues, h]) | skip)

theorem Mach.logPush_within {m₀ : Mach} (m : Mach) (code target : Nat) (abort : Bool) {ps : List Part} (h₀ : m₀.within m ps)
    (hs : [Part.regs].all ps.contains = true) : m₀.within (Mach.logPush m code target abort) ps := by
  refine Mach.within_step h₀ ?_ hs
  clear h₀ hs
  unfold Mach.logPush
  try dsimp only
  repeat' first
    | with_reducible assumption
    | with_reducible exact Mach.within_refl _ _
    | decide
    | with_reducible apply Mach.setReg_within
    | with_reducible apply Mach.within_fold
    | (intro k x hk; try dsimp only)

theorem Mach.entryFails_within {m₀ : Mach} (m : Mach) (codes : List Nat) (target : Mode) (abort : Bool) {ps : List Part} (h₀ : m₀.within m ps)
    (hs : [Part.clk, Part.regs, Part.pa, Part.pb].all ps.contains = true) : m₀.within (Mach.entryFails m codes target abort) ps := by
  refine Mach.within_step h₀ ?_ hs
  clear h₀ hs
  unfold Mach.entryFails
  try dsimp only
  repeat' first
    | with_reducible assumption
    | with_reducible exact Mach.within_refl _ _
    | decide
    | with_reducible apply Mach.code_within
    | with_reducible apply Mach.count_within
    | with_reducible apply Mach.intBoth_within
    | with_reducible apply Mach.logPush_within
    | with_reducible apply Mach.setFld_within
    | with_reducible apply Mach.sqBit_within
    | with_reducible apply Mach.within_ite
    | with_reducible apply Mach.within_ite2
    | with_reducible apply Mach.within_fold
    | (intro k x hk; try dsimp only)
    | ((simp only [Mach.within_mk_eq]; with_reducible apply Mach.withinMk_of) <;> first | exact Or.inr rfl | with_reducible exact Or.inl rfl | with_reducible rfl | with_reducible exact fun h => h | (intro h; simpa [length_listUpd] using h) | (intro h; split <;> exact h) | exact fun h => h | (intro h; simp [startQueues, h]) | skip)

theorem Mach.enterMode_within {m₀ : Mach} (m : Mach) (target : Mode) (byPort : Option Port) (byVerb own : Bool) {ps : List Part} (h₀ : m₀.within m ps)
    (hs : [Part.clk, Part.regs, Part.pa, Part.pb, Part.buf, Part.sec, Part.nv].all ps.contains = true) : m₀.within (Mach.enterMode m target byPort byVerb own).2 ps := by
  refine Mach.within_step h₀ ?_ hs
  clear h₀ hs
  unfold Mach.enterMode
  try dsimp only
  repeat' first
    | with_reducible assumption
    | with_reducible exact Mach.within_refl _ _
    | decide
    | with_reducible apply Mach.closeAll_within
    | with_reducible apply Mach.entryFails_within
    | with_reducible apply Mach.setFld_within
    | with_reducible apply Mach.within_ite
    | with_reducible apply Mach.within_ite2
    | (with_reducible apply Mach.within_fst; assumption)
    | (with_reducible apply Mach.within_left; assumption)
    | (with_reducible apply Mach.within_mid; assumption)
    | dsimp only
    | split
    | ((simp only [Mach.within_mk_eq]; with_reducible apply Mach.withinMk_of) <;> first | exact Or.inr rfl | with_reducible exact Or.inl rfl | with_reducible rfl | with_reducible exact fun h => h | (intro h; simpa [length_listUpd] using h) | (intro h; split <;> exact h) | exact fun h => h | (intro h; simp [startQueues, h]) | skip)

theorem Mach.entryCommit_within {m₀ : Mach} (m : Mach) {ps : List Part} (h₀ : m₀.within m ps)
    (hs : [Part.clk, Part.regs, Part.pa, Part.pb, Part.mot, Part.flt, Part.ang, Part.aux, Part.evt, Part.grd, Part.buf, Part.eng, Part.sec, Part.nv, Part.bist, Part.free].all ps.contains = true) : m₀.within (Mach.entryCommit m) ps := by
  refine Mach.within_step h₀ ?_ hs
  clear h₀ hs
  unfold Mach.entryCommit
  try dsimp only
  repeat' first
    | with_reducible assumption
    | with_reducible exact Mach.within_refl _ _
    | decide
    | with_reducible apply Mach.entryFails_within
    | with_reducible apply Mach.grdOff_within
    | with_reducible apply Mach.grdTryArm_within
    | with_reducible apply Mach.runStart_within
    | with_reducible apply Mach.within_ite
    | with_reducible apply Mach.within_ite2
    | (with_reducible apply Mach.within_fst; assumption)
    | (with_reducible apply Mach.within_left; assumption)
    | (with_reducible apply Mach.within_mid; assumption)
    | dsimp only
    | split
    | ((simp only [Mach.within_mk_eq]; with_reducible apply Mach.withinMk_of) <;> first | exact Or.inr rfl | with_reducible exact Or.inl rfl | with_reducible rfl | with_reducible exact fun h => h | (intro h; simpa [length_listUpd] using h) | (intro h; split <;> exact h) | exact fun h => h | (intro h; simp [startQueues, h]) | skip)

theorem Mach.wakeSrc_within {m₀ : Mach} (m : Mach) (src : Nat) {ps : List Part} (h₀ : m₀.within m ps)
    (hs : [Part.clk, Part.regs].all ps.contains = true) : m₀.within (Mach.wakeSrc m src) ps := by
  refine Mach.within_step h₀ ?_ hs
  clear h₀ hs
  unfold Mach.wakeSrc
  try dsimp only
  repeat' first
    | with_reducible assumption
    | with_reducible exact Mach.within_refl _ _
    | decide
    | with_reducible apply Mach.setReg_within
    | ((simp only [Mach.within_mk_eq]; with_reducible apply Mach.withinMk_of) <;> first | exact Or.inr rfl | with_reducible exact Or.inl rfl | with_reducible rfl | with_reducible exact fun h => h | (intro h; simpa [length_listUpd] using h) | (intro h; split <;> exact h) | exact fun h => h | (intro h; simp [startQueues, h]) | skip)

theorem Mach.wakeAgain_within {m₀ : Mach} (m : Mach) (src : Nat) {ps : List Part} (h₀ : m₀.within m ps)
    (hs : [Part.clk, Part.regs].all ps.contains = true) : m₀.within (Mach.wakeAgain m src) ps := by
  refine Mach.within_step h₀ ?_ hs
  clear h₀ hs
  unfold Mach.wakeAgain
  try dsimp only
  repeat' first
    | with_reducible assumption
    | with_reducible exact Mach.within_refl _ _
    | decide
    | with_reducible apply Mach.wakeSrc_within
    | with_reducible apply Mach.within_ite
    | with_reducible apply Mach.within_ite2
    | ((simp only [Mach.within_mk_eq]; with_reducible apply Mach.withinMk_of) <;> first | exact Or.inr rfl | with_reducible exact Or.inl rfl | with_reducible rfl | with_reducible exact fun h => h | (intro h; simpa [length_listUpd] using h) | (intro h; split <;> exact h) | exact fun h => h | (intro h; simp [startQueues, h]) | skip)

theorem Mach.watchExit_within {m₀ : Mach} (m : Mach) (src : Nat) {ps : List Part} (h₀ : m₀.within m ps)
    (hs : [Part.clk, Part.regs, Part.pa, Part.pb, Part.mot, Part.flt, Part.ang, Part.aux, Part.evt, Part.grd, Part.buf, Part.eng, Part.flue, Part.sec, Part.nv, Part.bist, Part.mem, Part.free].all ps.contains = true) : m₀.within (Mach.watchExit m src) ps := by
  refine Mach.within_step h₀ ?_ hs
  clear h₀ hs
  unfold Mach.watchExit
  try dsimp only
  repeat' first
    | with_reducible assumption
    | with_reducible exact Mach.within_refl _ _
    | decide
    | with_reducible apply Mach.evtExitWatch_within
    | with_reducible apply Mach.grdTryArm_within
    | with_reducible apply Mach.presetChange_within
    | with_reducible apply Mach.toRun_within
    | with_reducible apply Mach.wakeSrc_within
    | ((simp only [Mach.within_mk_eq]; with_reducible apply Mach.withinMk_of) <;> first | exact Or.inr rfl | with_reducible exact Or.inl rfl | with_reducible rfl | with_reducible exact fun h => h | (intro h; simpa [length_listUpd] using h) | (intro h; split <;> exact h) | exact fun h => h | (intro h; simp [startQueues, h]) | skip)

theorem Mach.updSlot_within {m₀ : Mach} (m : Mach) (b : Bool) (f : Slot → Slot) {ps : List Part} (h₀ : m₀.within m ps)
    (hs : [Part.nv].all ps.contains = true) : m₀.within (Mach.updSlot m b f) ps := by
  refine Mach.within_step h₀ ?_ hs
  clear h₀ hs
  unfold Mach.updSlot
  try dsimp only
  repeat' first
    | with_reducible assumption
    | with_reducible exact Mach.within_refl _ _
    | decide
    | with_reducible apply Mach.within_ite
    | with_reducible apply Mach.within_ite2
    | ((simp only [Mach.within_mk_eq]; with_reducible apply Mach.withinMk_of) <;> first | exact Or.inr rfl | with_reducible exact Or.inl rfl | with_reducible rfl | with_reducible exact fun h => h | (intro h; simpa [length_listUpd] using h) | (intro h; split <;> exact h) | exact fun h => h | (intro h; simp [startQueues, h]) | skip)

theorem Mach.emberStart_within {m₀ : Mach} (m : Mach) (src : Nat) {ps : List Part} (h₀ : m₀.within m ps)
    (hs : [Part.clk, Part.regs, Part.pa, Part.pb, Part.mot, Part.flt, Part.ang, Part.aux, Part.evt, Part.grd, Part.buf, Part.eng, Part.flue, Part.sec, Part.nv, Part.bist, Part.mem, Part.free].all ps.contains = true) : m₀.within (Mach.emberStart m src) ps := by
  refine Mach.within_step h₀ ?_ hs
  clear h₀ hs
  unfold Mach.emberStart
  try dsimp only
  repeat' first
    | with_reducible assumption
    | with_reducible exact Mach.within_refl _ _
    | decide
    | with_reducible apply Mach.flueStart_within
    | with_reducible apply Mach.runStart_within
    | with_reducible apply Mach.toRun_within
    | with_reducible apply Mach.wakeSrc_within
    | with_reducible apply Mach.within_ite
    | with_reducible apply Mach.within_ite2
    | ((simp only [Mach.within_mk_eq]; with_reducible apply Mach.withinMk_of) <;> first | exact Or.inr rfl | with_reducible exact Or.inl rfl | with_reducible rfl | with_reducible exact fun h => h | (intro h; simpa [length_listUpd] using h) | (intro h; split <;> exact h) | exact fun h => h | (intro h; simp [startQueues, h]) | skip)

theorem Mach.portsWake_within {m₀ : Mach} (m : Mach) {ps : List Part} (h₀ : m₀.within m ps)
    (hs : [Part.pa, Part.pb].all ps.contains = true) : m₀.within (Mach.portsWake m) ps := by
  refine Mach.within_step h₀ ?_ hs
  clear h₀ hs
  unfold Mach.portsWake
  try dsimp only
  repeat' first
    | with_reducible assumption
    | with_reducible exact Mach.within_refl _ _
    | decide
    | with_reducible apply Mach.updPort_within

theorem Mach.wakeNow_within {m₀ : Mach} (m : Mach) (src : Nat) {ps : List Part} (h₀ : m₀.within m ps)
    (hs : [Part.clk, Part.regs, Part.pa, Part.pb, Part.mot, Part.flt, Part.ang, Part.aux, Part.evt, Part.grd, Part.buf, Part.eng, Part.flue, Part.sec, Part.nv, Part.bist, Part.mem, Part.free].all ps.contains = true) : m₀.within (Mach.wakeNow m src) ps := by
  refine Mach.within_step h₀ ?_ hs
  clear h₀ hs
  unfold Mach.wakeNow
  try dsimp only
  repeat' first
    | with_reducible assumption
    | with_reducible exact Mach.within_refl _ _
    | decide
    | with_reducible apply Mach.emberStart_within
    | with_reducible apply Mach.portsWake_within
    | with_reducible apply Mach.wakeAgain_within
    | with_reducible apply Mach.watchExit_within
    | with_reducible apply Mach.within_ite
    | with_reducible apply Mach.within_ite2
    | (with_reducible apply Mach.within_fst; assumption)
    | (with_reducible apply Mach.within_left; assumption)
    | (with_reducible apply Mach.within_mid; assumption)
    | dsimp only
    | split

theorem Mach.testWake_within {m₀ : Mach} (m : Mach) {ps : List Part} (h₀ : m₀.within m ps)
    (hs : [Part.clk, Part.regs, Part.pa, Part.pb, Part.mot, Part.flt, Part.ang, Part.aux, Part.evt, Part.grd, Part.buf, Part.eng, Part.sec, Part.nv, Part.bist, Part.mem, Part.free].all ps.contains = true) : m₀.within (Mach.testWake m).1 ps := by
  refine Mach.within_step h₀ ?_ hs
  clear h₀ hs
  unfold Mach.testWake
  try dsimp only
  repeat' first
    | with_reducible assumption
    | with_reducible exact Mach.within_refl _ _
    | decide
    | with_reducible apply Mach.entryFails_within
    | with_reducible apply Mach.grdTryArm_within
    | with_reducible apply Mach.testAbort_within
    | with_reducible apply Mach.within_ite
    | with_reducible apply Mach.within_ite1
    | with_reducible apply Mach.within_ite2
    | (with_reducible apply Mach.within_fst; assumption)
    | (with_reducible apply Mach.within_left; assumption)
    | (with_reducible apply Mach.within_mid; assumption)
    | dsimp only
    | split

theorem Mach.wake_within {m₀ : Mach} (m : Mach) (src : Nat) {ps : List Part} (h₀ : m₀.within m ps)
    (hs : [Part.clk, Part.regs, Part.pa, Part.pb, Part.mot, Part.flt, Part.ang, Part.aux, Part.evt, Part.grd, Part.buf, Part.eng, Part.flue, Part.sec, Part.nv, Part.bist, Part.mem, Part.free].all ps.contains = true) : m₀.within (Mach.wake m src) ps := by
  refine Mach.within_step h₀ ?_ hs
  clear h₀ hs
  unfold Mach.wake
  try dsimp only
  repeat' first
    | with_reducible assumption
    | with_reducible exact Mach.within_refl _ _
    | decide
    | with_reducible apply Mach.testWake_within
    | with_reducible apply Mach.wakeNow_within
    | with_reducible apply Mach.within_ite
    | with_reducible apply Mach.within_ite2
    | (with_reducible apply Mach.within_fst; assumption)
    | (with_reducible apply Mach.within_left; assumption)
    | (with_reducible apply Mach.within_mid; assumption)
    | dsimp only
    | split
    | ((simp only [Mach.within_mk_eq]; with_reducible apply Mach.withinMk_of) <;> first | exact Or.inr rfl | with_reducible exact Or.inl rfl | with_reducible rfl | with_reducible exact fun h => h | (intro h; simpa [length_listUpd] using h) | (intro h; split <;> exact h) | exact fun h => h | (intro h; simp [startQueues, h]) | skip)

theorem Mach.entryOff_within {m₀ : Mach} (m : Mach) {ps : List Part} (h₀ : m₀.within m ps)
    (hs : [Part.clk, Part.regs, Part.pa, Part.pb, Part.mot, Part.flt, Part.ang, Part.aux, Part.evt, Part.grd, Part.buf, Part.eng, Part.flue, Part.sec, Part.nv, Part.bist, Part.mem, Part.free].all ps.contains = true) : m₀.within (Mach.entryOff m) ps := by
  refine Mach.within_step h₀ ?_ hs
  clear h₀ hs
  unfold Mach.entryOff
  try dsimp only
  repeat' first
    | with_reducible assumption
    | with_reducible exact Mach.within_refl _ _
    | decide
    | with_reducible apply Mach.emberDomains_within
    | with_reducible apply Mach.setFld_within
    | with_reducible apply Mach.sqBit_within
    | with_reducible apply Mach.wakeNow_within
    | with_reducible apply Mach.watchDomains_within
    | with_reducible apply Mach.within_ite
    | with_reducible apply Mach.within_ite2
    | (with_reducible apply Mach.within_fst; assumption)
    | (with_reducible apply Mach.within_left; assumption)
    | (with_reducible apply Mach.within_mid; assumption)
    | dsimp only
    | split
    | ((simp only [Mach.within_mk_eq]; with_reducible apply Mach.withinMk_of) <;> first | exact Or.inr rfl | with_reducible exact Or.inl rfl | with_reducible rfl | with_reducible exact fun h => h | (intro h; simpa [length_listUpd] using h) | (intro h; split <;> exact h) | exact fun h => h | (intro h; simp [startQueues, h]) | skip)

theorem Mach.wakeLevel_within {m₀ : Mach} (m : Mach) (ticks : Nat) {ps : List Part} (h₀ : m₀.within m ps)
    (hs : [Part.free].all ps.contains = true) : m₀.within (Mach.wakeLevel m ticks).2 ps := by
  refine Mach.within_step h₀ ?_ hs
  clear h₀ hs
  unfold Mach.wakeLevel
  try dsimp only
  repeat' first
    | with_reducible assumption
    | with_reducible exact Mach.within_refl _ _
    | decide
    | with_reducible apply Mach.drawBit_within
    | with_reducible apply Mach.within_ite
    | with_reducible apply Mach.within_ite2

theorem Mach.wakeEdge_within {m₀ : Mach} (m : Mach) (src ticks : Nat) {ps : List Part} (h₀ : m₀.within m ps)
    (hs : [Part.clk, Part.regs, Part.pa, Part.pb, Part.mot, Part.flt, Part.ang, Part.aux, Part.evt, Part.grd, Part.buf, Part.eng, Part.flue, Part.sec, Part.nv, Part.bist, Part.mem, Part.free].all ps.contains = true) : m₀.within (Mach.wakeEdge m src ticks) ps := by
  refine Mach.within_step h₀ ?_ hs
  clear h₀ hs
  unfold Mach.wakeEdge
  try dsimp only
  repeat' first
    | with_reducible assumption
    | with_reducible exact Mach.within_refl _ _
    | decide
    | with_reducible apply Mach.wake_within
    | with_reducible apply Mach.wakeLevel_within
    | with_reducible apply Mach.within_ite
    | with_reducible apply Mach.within_ite2
    | (with_reducible apply Mach.within_fst; assumption)
    | (with_reducible apply Mach.within_left; assumption)
    | (with_reducible apply Mach.within_mid; assumption)
    | dsimp only
    | split

theorem Mach.selWake_within {m₀ : Mach} (m : Mach) (p : Port) (lowTicks : Nat) {ps : List Part} (h₀ : m₀.within m ps)
    (hs : [Part.clk, Part.regs, Part.pa, Part.pb, Part.mot, Part.flt, Part.ang, Part.aux, Part.evt, Part.grd, Part.buf, Part.eng, Part.flue, Part.sec, Part.nv, Part.bist, Part.mem, Part.free].all ps.contains = true) : m₀.within (Mach.selWake m p lowTicks).1 ps := by
  refine Mach.within_step h₀ ?_ hs
  clear h₀ hs
  unfold Mach.selWake
  try dsimp only
  repeat' first
    | with_reducible assumption
    | with_reducible exact Mach.within_refl _ _
    | decide
    | with_reducible apply Mach.testWake_within
    | with_reducible apply Mach.updPort_within
    | with_reducible apply Mach.wake_within
    | with_reducible apply Mach.wakeLevel_within
    | with_reducible apply Mach.within_ite
    | with_reducible apply Mach.within_ite1
    | with_reducible apply Mach.within_ite2
    | (with_reducible apply Mach.within_fst; assumption)
    | (with_reducible apply Mach.within_left; assumption)
    | (with_reducible apply Mach.within_mid; assumption)
    | dsimp only
    | split

theorem Mach.wakeTimer_within {m₀ : Mach} (m : Mach) {ps : List Part} (h₀ : m₀.within m ps)
    (hs : [Part.clk, Part.regs, Part.pa, Part.pb, Part.mot, Part.flt, Part.ang, Part.aux, Part.evt, Part.grd, Part.buf, Part.eng, Part.flue, Part.sec, Part.nv, Part.bist, Part.mem, Part.free].all ps.contains = true) : m₀.within (Mach.wakeTimer m) ps := by
  refine Mach.within_step h₀ ?_ hs
  clear h₀ hs
  unfold Mach.wakeTimer
  try dsimp only
  repeat' first
    | with_reducible assumption
    | with_reducible exact Mach.within_refl _ _
    | decide
    | with_reducible apply Mach.wake_within
    | with_reducible apply Mach.within_ite
    | with_reducible apply Mach.within_ite2
    | ((simp only [Mach.within_mk_eq]; with_reducible apply Mach.withinMk_of) <;> first | exact Or.inr rfl | with_reducible exact Or.inl rfl | with_reducible rfl | with_reducible exact fun h => h | (intro h; simpa [length_listUpd] using h) | (intro h; split <;> exact h) | exact fun h => h | (intro h; simp [startQueues, h]) | skip)

theorem Mach.eventWake_within {m₀ : Mach} (m : Mach) {ps : List Part} (h₀ : m₀.within m ps)
    (hs : [Part.clk, Part.regs, Part.pa, Part.pb, Part.mot, Part.flt, Part.ang, Part.aux, Part.evt, Part.grd, Part.buf, Part.eng, Part.flue, Part.sec, Part.nv, Part.bist, Part.mem, Part.free].all ps.contains = true) : m₀.within (Mach.eventWake m) ps := by
  refine Mach.within_step h₀ ?_ hs
  clear h₀ hs
  unfold Mach.eventWake
  try dsimp only
  repeat' first
    | with_reducible assumption
    | with_reducible exact Mach.within_refl _ _
    | decide
    | with_reducible apply Mach.wake_within
    | with_reducible apply Mach.within_ite
    | with_reducible apply Mach.within_ite2
    | ((simp only [Mach.within_mk_eq]; with_reducible apply Mach.withinMk_of) <;> first | exact Or.inr rfl | with_reducible exact Or.inl rfl | with_reducible rfl | with_reducible exact fun h => h | (intro h; simpa [length_listUpd] using h) | (intro h; split <;> exact h) | exact fun h => h | (intro h; simp [startQueues, h]) | skip)

theorem Mach.keyEdge_within {m₀ : Mach} (m : Mach) (level : Bool) (ticks : Nat) {ps : List Part} (h₀ : m₀.within m ps)
    (hs : [Part.clk, Part.regs, Part.pa, Part.pb, Part.mot, Part.flt, Part.ang, Part.aux, Part.evt, Part.grd, Part.buf, Part.eng, Part.flue, Part.sec, Part.nv, Part.bist, Part.mem, Part.free].all ps.contains = true) : m₀.within (Mach.keyEdge m level ticks) ps := by
  refine Mach.within_step h₀ ?_ hs
  clear h₀ hs
  unfold Mach.keyEdge
  try dsimp only
  repeat' first
    | with_reducible assumption
    | with_reducible exact Mach.within_refl _ _
    | decide
    | with_reducible apply Mach.keyInstant_within
    | with_reducible apply Mach.wakeEdge_within
    | with_reducible apply Mach.within_ite
    | with_reducible apply Mach.within_ite2
    | ((simp only [Mach.within_mk_eq]; with_reducible apply Mach.withinMk_of) <;> first | exact Or.inr rfl | with_reducible exact Or.inl rfl | with_reducible rfl | with_reducible exact fun h => h | (intro h; simpa [length_listUpd] using h) | (intro h; split <;> exact h) | exact fun h => h | (intro h; simp [startQueues, h]) | skip)

theorem Mach.damperInput_within {m₀ : Mach} (m : Mach) (level : Bool) (ticks : Nat) {ps : List Part} (h₀ : m₀.within m ps)
    (hs : [Part.clk, Part.regs, Part.pa, Part.pb, Part.mot, Part.flt, Part.ang, Part.aux, Part.evt, Part.grd, Part.buf, Part.eng, Part.flue, Part.sec, Part.nv, Part.bist, Part.mem, Part.free].all ps.contains = true) : m₀.within (Mach.damperInput m level ticks) ps := by
  refine Mach.within_step h₀ ?_ hs
  clear h₀ hs
  unfold Mach.damperInput
  try dsimp only
  repeat' first
    | with_reducible assumption
    | with_reducible exact Mach.within_refl _ _
    | decide
    | with_reducible apply Mach.damperEdge_within
    | with_reducible apply Mach.wakeEdge_within
    | with_reducible apply Mach.within_ite
    | with_reducible apply Mach.within_ite2

theorem Mach.syncInput_within {m₀ : Mach} (m : Mach) (lowTicks highTicks : Nat) {ps : List Part} (h₀ : m₀.within m ps)
    (hs : [Part.clk, Part.regs, Part.pa, Part.pb, Part.mot, Part.flt, Part.ang, Part.aux, Part.evt, Part.grd, Part.buf, Part.eng, Part.flue, Part.sec, Part.nv, Part.bist, Part.mem, Part.free].all ps.contains = true) : m₀.within (Mach.syncInput m lowTicks highTicks) ps := by
  refine Mach.within_step h₀ ?_ hs
  clear h₀ hs
  unfold Mach.syncInput
  try dsimp only
  repeat' first
    | with_reducible assumption
    | with_reducible exact Mach.within_refl _ _
    | decide
    | with_reducible apply Mach.syncPulseIn_within
    | with_reducible apply Mach.wakeEdge_within
    | with_reducible apply Mach.within_ite
    | with_reducible apply Mach.within_ite2

theorem Mach.slotBad_within {m₀ : Mach} (m : Mach) (b : Bool) {ps : List Part} (h₀ : m₀.within m ps)
    (hs : [Part.nv].all ps.contains = true) : m₀.within (Mach.slotBad m b) ps := by
  refine Mach.within_step h₀ ?_ hs
  clear h₀ hs
  unfold Mach.slotBad
  try dsimp only
  repeat' first
    | with_reducible assumption
    | with_reducible exact Mach.within_refl _ _
    | decide
    | with_reducible apply Mach.updSlot_within
    | ((simp only [Mach.within_mk_eq]; with_reducible apply Mach.withinMk_of) <;> first | exact Or.inr rfl | with_reducible exact Or.inl rfl | with_reducible rfl | with_reducible exact fun h => h | (intro h; simpa [length_listUpd] using h) | (intro h; split <;> exact h) | exact fun h => h | (intro h; simp [startQueues, h]) | skip)

theorem Mach.chooseSlot_within {m₀ : Mach} (m : Mach) (own : Bool) {ps : List Part} (h₀ : m₀.within m ps)
    (hs : [Part.nv].all ps.contains = true) : m₀.within (Mach.chooseSlot m own).2.2 ps := by
  refine Mach.within_step h₀ ?_ hs
  clear h₀ hs
  unfold Mach.chooseSlot
  try dsimp only
  repeat' first
    | with_reducible assumption
    | with_reducible exact Mach.within_refl _ _
    | decide
    | with_reducible apply Mach.slotBad_within
    | with_reducible apply Mach.updSlot_within
    | with_reducible apply Mach.within_ite
    | with_reducible apply Mach.within_ite3
    | with_reducible apply Mach.within_ite2
    | (with_reducible apply Mach.within_fst; assumption)
    | (with_reducible apply Mach.within_left; assumption)
    | (with_reducible apply Mach.within_mid; assumption)
    | dsimp only
    | split

theorem Mach.commitsUsed_within {m₀ : Mach} (m : Mach) {ps : List Part} (h₀ : m₀.within m ps)
    (hs : [Part.nv].all ps.contains = true) : m₀.within (Mach.commitsUsed m) ps := by
  refine Mach.within_step h₀ ?_ hs
  clear h₀ hs
  unfold Mach.commitsUsed
  try dsimp only
  repeat' first
    | with_reducible assumption
    | with_reducible exact Mach.within_refl _ _
    | decide
    | ((simp only [Mach.within_mk_eq]; with_reducible apply Mach.withinMk_of) <;> first | exact Or.inr rfl | with_reducible exact Or.inl rfl | with_reducible rfl | with_reducible exact fun h => h | (intro h; simpa [length_listUpd] using h) | (intro h; split <;> exact h) | exact fun h => h | (intro h; simp [startQueues, h]) | skip)

theorem Mach.bare_within {m₀ : Mach} (m : Mach) (straps : Straps) {ps : List Part} (h₀ : m₀.within m ps)
    (hs : [Part.clk, Part.regs, Part.pa, Part.pb, Part.mot, Part.flt, Part.ang, Part.aux, Part.evt, Part.grd, Part.buf, Part.eng, Part.flue, Part.sec, Part.nv, Part.bist, Part.mem, Part.free].all ps.contains = true) : m₀.within (Mach.bare m straps) ps := by
  refine Mach.within_step h₀ ?_ hs
  clear h₀ hs
  unfold Mach.bare
  dsimp only
  refine Mach.within_fold _ _ ?_ (fun k x hk => Mach.setReg_within _ _ hk rfl)
  refine ⟨fun x hx => by cases x <;> simp at hx, fun _ => rfl, fun h => ?_⟩
  obtain ⟨_, _, _, _, h5, _, _, _⟩ := h
  refine ⟨rfl, rfl, rfl, rfl, by simpa using h5, rfl, ?_, rfl⟩
  intro e he
  rw [List.eq_of_mem_replicate (show e ∈ List.replicate 4 Eng.fresh from he)]
  rfl

theorem Mach.loadResults_within {m₀ : Mach} (m : Mach) (rs : List (Nat × Word)) {ps : List Part} (h₀ : m₀.within m ps)
    (hs : [Part.regs, Part.bist].all ps.contains = true) : m₀.within (Mach.loadResults m rs) ps := by
  refine Mach.within_step h₀ ?_ hs
  clear h₀ hs
  unfold Mach.loadResults
  try dsimp only
  repeat' first
    | with_reducible assumption
    | with_reducible exact Mach.within_refl _ _
    | decide
    | with_reducible apply Mach.setReg_within
    | with_reducible apply Mach.within_ite
    | with_reducible apply Mach.within_ite2
    | with_reducible apply Mach.within_fold
    | (intro k x hk; try dsimp only)
    | ((simp only [Mach.within_mk_eq]; with_reducible apply Mach.withinMk_of) <;> first | exact Or.inr rfl | with_reducible exact Or.inl rfl | with_reducible rfl | with_reducible exact fun h => h | (intro h; simpa [length_listUpd] using h) | (intro h; split <;> exact h) | exact fun h => h | (intro h; simp [startQueues, h]) | skip)

theorem Mach.setSequences_within {m₀ : Mach} (m : Mach) (c : Option CommitRec) {ps : List Part} (h₀ : m₀.within m ps)
    (hs : [Part.buf, Part.nv].all ps.contains = true) : m₀.within (Mach.setSequences m c) ps := by
  refine Mach.within_step h₀ ?_ hs
  clear h₀ hs
  unfold Mach.setSequences
  try dsimp only
  repeat' first
    | with_reducible assumption
    | with_reducible exact Mach.within_refl _ _
    | decide
    | (intro h; rw [List.length_map]; rfl)
    | (with_reducible apply Mach.within_fst; assumption)
    | (with_reducible apply Mach.within_left; assumption)
    | (with_reducible apply Mach.within_mid; assumption)
    | dsimp only
    | split
    | ((simp only [Mach.within_mk_eq]; with_reducible apply Mach.withinMk_of) <;> first | exact Or.inr rfl | with_reducible exact Or.inl rfl | with_reducible rfl | with_reducible exact fun h => h | (intro h; simpa [length_listUpd] using h) | (intro h; split <;> exact h) | exact fun h => h | (intro h; simp [startQueues, h]) | skip)

theorem Mach.replay_within {m₀ : Mach} (m : Mach) (c : CommitRec) (b : Nat) {ps : List Part} (h₀ : m₀.within m ps)
    (hs : [Part.regs, Part.pa, Part.pb, Part.flt, Part.evt, Part.buf, Part.sec, Part.nv].all ps.contains = true) : m₀.within (Mach.replay m c b) ps := by
  refine Mach.within_step h₀ ?_ hs
  clear h₀ hs
  unfold Mach.replay
  try dsimp only
  repeat' first
    | with_reducible assumption
    | with_reducible exact Mach.within_refl _ _
    | decide
    | with_reducible apply Mach.putGap_within
    | with_reducible apply Mach.setReg_within
    | with_reducible apply Mach.writeRec_within
    | with_reducible apply Mach.within_ite
    | with_reducible apply Mach.within_ite2
    | with_reducible apply Mach.within_ite1
    | with_reducible apply Mach.within_fold
    | (intro k x hk; try dsimp only)
    | (with_reducible apply Mach.within_fst; assumption)
    | (with_reducible apply Mach.within_left; assumption)
    | (with_reducible apply Mach.within_mid; assumption)
    | dsimp only
    | split
    | ((simp only [Mach.within_mk_eq]; with_reducible apply Mach.withinMk_of) <;> first | exact Or.inr rfl | with_reducible exact Or.inl rfl | with_reducible rfl | with_reducible exact fun h => h | (intro h; simpa [length_listUpd] using h) | (intro h; split <;> exact h) | exact fun h => h | (intro h; simp [startQueues, h]) | skip)

theorem Mach.coldStart_within {m₀ : Mach} (m : Mach) (straps : Straps) (own pin : Bool) {ps : List Part} (h₀ : m₀.within m ps)
    (hs : [Part.clk, Part.regs, Part.pa, Part.pb, Part.mot, Part.flt, Part.ang, Part.aux, Part.evt, Part.grd, Part.buf, Part.eng, Part.flue, Part.sec, Part.nv, Part.bist, Part.mem, Part.free].all ps.contains = true) : m₀.within (Mach.coldStart m straps own pin) ps := by
  refine Mach.within_step h₀ ?_ hs
  clear h₀ hs
  unfold Mach.coldStart
  try dsimp only
  repeat' first
    | with_reducible assumption
    | with_reducible exact Mach.within_refl _ _
    | decide
    | with_reducible apply Mach.bare_within
    | with_reducible apply Mach.chooseSlot_within
    | with_reducible apply Mach.commitsUsed_within
    | with_reducible apply Mach.flueStart_within
    | with_reducible apply Mach.imageFail_within
    | with_reducible apply Mach.loadResults_within
    | with_reducible apply Mach.replay_within
    | with_reducible apply Mach.runStart_within
    | with_reducible apply Mach.sealReason_within
    | with_reducible apply Mach.setSequences_within
    | with_reducible apply Mach.switchDom_within
    | with_reducible apply Mach.toRun_within
    | with_reducible apply Mach.within_ite
    | with_reducible apply Mach.within_ite2
    | (with_reducible apply Mach.within_fst; assumption)
    | (with_reducible apply Mach.within_left; assumption)
    | (with_reducible apply Mach.within_mid; assumption)
    | dsimp only
    | split
    | ((simp only [Mach.within_mk_eq]; with_reducible apply Mach.withinMk_of) <;> first | exact Or.inr rfl | with_reducible exact Or.inl rfl | with_reducible rfl | with_reducible exact fun h => h | (intro h; simpa [length_listUpd] using h) | (intro h; split <;> exact h) | exact fun h => h | (intro h; simp [startQueues, h]) | skip)

theorem Mach.startComplete_within {m₀ : Mach} (m : Mach) {ps : List Part} (h₀ : m₀.within m ps)
    (hs : [Part.clk, Part.regs, Part.pa, Part.pb, Part.mot, Part.flt, Part.ang, Part.aux, Part.evt, Part.grd, Part.buf, Part.eng, Part.flue, Part.sec, Part.nv, Part.bist, Part.mem, Part.free].all ps.contains = true) : m₀.within (Mach.startComplete m) ps := by
  refine Mach.within_step h₀ ?_ hs
  clear h₀ hs
  unfold Mach.startComplete
  try dsimp only
  repeat' first
    | with_reducible assumption
    | with_reducible exact Mach.within_refl _ _
    | decide
    | with_reducible apply Mach.closeAll_within
    | with_reducible apply Mach.grdTryArm_within
    | with_reducible apply Mach.setFld_within
    | with_reducible apply Mach.sqEvent_within
    | with_reducible apply Mach.watchDomains_within
    | with_reducible apply Mach.within_ite
    | with_reducible apply Mach.within_ite2
    | (with_reducible apply Mach.within_fst; assumption)
    | (with_reducible apply Mach.within_left; assumption)
    | (with_reducible apply Mach.within_mid; assumption)
    | dsimp only
    | split
    | ((simp only [Mach.within_mk_eq]; with_reducible apply Mach.withinMk_of) <;> first | exact Or.inr rfl | with_reducible exact Or.inl rfl | with_reducible rfl | with_reducible exact fun h => h | (intro h; simpa [length_listUpd] using h) | (intro h; split <;> exact h) | exact fun h => h | (intro h; simp [startQueues, h]) | skip)

theorem Mach.writeAbandon_within {m₀ : Mach} (m : Mach) {ps : List Part} (h₀ : m₀.within m ps)
    (hs : [Part.regs, Part.flt, Part.sec, Part.nv].all ps.contains = true) : m₀.within (Mach.writeAbandon m) ps := by
  refine Mach.within_step h₀ ?_ hs
  clear h₀ hs
  unfold Mach.writeAbandon
  try dsimp only
  repeat' first
    | with_reducible assumption
    | with_reducible exact Mach.within_refl _ _
    | decide
    | with_reducible apply Mach.persistBack_within
    | with_reducible apply Mach.saveCut_within
    | with_reducible apply Mach.secRevert_within
    | with_reducible apply Mach.within_ite
    | with_reducible apply Mach.within_ite2
    | (with_reducible apply Mach.within_fst; assumption)
    | (with_reducible apply Mach.within_left; assumption)
    | (with_reducible apply Mach.within_mid; assumption)
    | dsimp only
    | split
    | ((simp only [Mach.within_mk_eq]; with_reducible apply Mach.withinMk_of) <;> first | exact Or.inr rfl | with_reducible exact Or.inl rfl | with_reducible rfl | with_reducible exact fun h => h | (intro h; simpa [length_listUpd] using h) | (intro h; split <;> exact h) | exact fun h => h | (intro h; simp [startQueues, h]) | skip)

theorem Mach.powerFail_within {m₀ : Mach} (m : Mach) (lowNs : Nat) {ps : List Part} (h₀ : m₀.within m ps)
    (hs : [Part.clk, Part.regs, Part.pa, Part.pb, Part.mot, Part.flt, Part.ang, Part.aux, Part.evt, Part.grd, Part.buf, Part.eng, Part.flue, Part.sec, Part.nv, Part.bist, Part.mem, Part.free].all ps.contains = true) : m₀.within (Mach.powerFail m lowNs) ps := by
  refine Mach.within_step h₀ ?_ hs
  clear h₀ hs
  unfold Mach.powerFail
  try dsimp only
  repeat' first
    | with_reducible assumption
    | with_reducible exact Mach.within_refl _ _
    | decide
    | with_reducible apply Mach.domainLeave_within
    | with_reducible apply Mach.sealAbandon_within
    | with_reducible apply Mach.setDom_within
    | with_reducible apply Mach.testAbort_within
    | with_reducible apply Mach.writeAbandon_within
    | with_reducible apply Mach.within_ite
    | with_reducible apply Mach.within_ite2
    | with_reducible apply Mach.within_fold
    | (intro k x hk; try dsimp only)
    | ((simp only [Mach.within_mk_eq]; with_reducible apply Mach.withinMk_of) <;> first | exact Or.inr rfl | with_reducible exact Or.inl rfl | with_reducible rfl | with_reducible exact fun h => h | (intro h; simpa [length_listUpd] using h) | (intro h; split <;> exact h) | exact fun h => h | (intro h; simp [startQueues, h]) | skip)

theorem Mach.storeCommit_within {m₀ : Mach} (m : Mach) (c : CommitRec) {ps : List Part} (h₀ : m₀.within m ps)
    (hs : [Part.nv].all ps.contains = true) : m₀.within (Mach.storeCommit m c) ps := by
  refine Mach.within_step h₀ ?_ hs
  clear h₀ hs
  unfold Mach.storeCommit
  try dsimp only
  repeat' first
    | with_reducible assumption
    | with_reducible exact Mach.within_refl _ _
    | decide
    | with_reducible apply Mach.within_ite
    | with_reducible apply Mach.within_ite2
    | ((simp only [Mach.within_mk_eq]; with_reducible apply Mach.withinMk_of) <;> first | exact Or.inr rfl | with_reducible exact Or.inl rfl | with_reducible rfl | with_reducible exact fun h => h | (intro h; simpa [length_listUpd] using h) | (intro h; split <;> exact h) | exact fun h => h | (intro h; simp [startQueues, h]) | skip)

theorem Mach.commitDone_within {m₀ : Mach} (m : Mach) (rowFailed : Bool) {ps : List Part} (h₀ : m₀.within m ps)
    (hs : [Part.clk, Part.regs, Part.pa, Part.pb, Part.mot, Part.flt, Part.ang, Part.aux, Part.evt, Part.grd, Part.buf, Part.eng, Part.flue, Part.sec, Part.nv, Part.bist, Part.mem, Part.free].all ps.contains = true) : m₀.within (Mach.commitDone m rowFailed) ps := by
  refine Mach.within_step h₀ ?_ hs
  clear h₀ hs
  unfold Mach.commitDone
  try dsimp only
  repeat' first
    | with_reducible assumption
    | with_reducible exact Mach.within_refl _ _
    | decide
    | with_reducible apply Mach.coldStart_within
    | with_reducible apply Mach.setDom_within
    | with_reducible apply Mach.storeCommit_within
    | with_reducible apply Mach.takeNvRow_within
    | with_reducible apply Mach.within_ite
    | with_reducible apply Mach.within_ite2
    | (with_reducible apply Mach.within_fst; assumption)
    | (with_reducible apply Mach.within_left; assumption)
    | (with_reducible apply Mach.within_mid; assumption)
    | dsimp only
    | split

theorem Mach.vholdAbsent_within {m₀ : Mach} (m : Mach) {ps : List Part} (h₀ : m₀.within m ps)
    (hs : [Part.clk, Part.nv].all ps.contains = true) : m₀.within (Mach.vholdAbsent m) ps := by
  refine Mach.within_step h₀ ?_ hs
  clear h₀ hs
  unfold Mach.vholdAbsent
  try dsimp only
  repeat' first
    | with_reducible assumption
    | with_reducible exact Mach.within_refl _ _
    | decide
    | with_reducible apply Mach.setDom_within
    | with_reducible apply Mach.storeCommit_within
    | with_reducible apply Mach.within_ite
    | with_reducible apply Mach.within_ite2
    | (with_reducible apply Mach.within_fst; assumption)
    | (with_reducible apply Mach.within_left; assumption)
    | (with_reducible apply Mach.within_mid; assumption)
    | dsimp only
    | split
    | ((simp only [Mach.within_mk_eq]; with_reducible apply Mach.withinMk_of) <;> first | exact Or.inr rfl | with_reducible exact Or.inl rfl | with_reducible rfl | with_reducible exact fun h => h | (intro h; simpa [length_listUpd] using h) | (intro h; split <;> exact h) | exact fun h => h | (intro h; simp [startQueues, h]) | skip)

theorem Mach.powerOn_within {m₀ : Mach} (m : Mach) (straps : Straps) {ps : List Part} (h₀ : m₀.within m ps)
    (hs : [Part.clk, Part.regs, Part.pa, Part.pb, Part.mot, Part.flt, Part.ang, Part.aux, Part.evt, Part.grd, Part.buf, Part.eng, Part.flue, Part.sec, Part.nv, Part.bist, Part.mem, Part.free].all ps.contains = true) : m₀.within (Mach.powerOn m straps) ps := by
  refine Mach.within_step h₀ ?_ hs
  clear h₀ hs
  unfold Mach.powerOn
  try dsimp only
  repeat' first
    | with_reducible assumption
    | with_reducible exact Mach.within_refl _ _
    | decide
    | with_reducible apply Mach.coldStart_within
    | with_reducible apply Mach.within_ite
    | with_reducible apply Mach.within_ite2
    | ((simp only [Mach.within_mk_eq]; with_reducible apply Mach.withinMk_of) <;> first | exact Or.inr rfl | with_reducible exact Or.inl rfl | with_reducible rfl | with_reducible exact fun h => h | (intro h; simpa [length_listUpd] using h) | (intro h; split <;> exact h) | exact fun h => h | (intro h; simp [startQueues, h]) | skip)

theorem Mach.resetN_within {m₀ : Mach} (m : Mach) (lowNs : Nat) (straps : Straps) {ps : List Part} (h₀ : m₀.within m ps)
    (hs : [Part.clk, Part.regs, Part.pa, Part.pb, Part.mot, Part.flt, Part.ang, Part.aux, Part.evt, Part.grd, Part.buf, Part.eng, Part.flue, Part.sec, Part.nv, Part.bist, Part.mem, Part.free].all ps.contains = true) : m₀.within (Mach.resetN m lowNs straps) ps := by
  refine Mach.within_step h₀ ?_ hs
  clear h₀ hs
  unfold Mach.resetN
  try dsimp only
  repeat' first
    | with_reducible assumption
    | with_reducible exact Mach.within_refl _ _
    | decide
    | with_reducible apply Mach.coldStart_within
    | with_reducible apply Mach.drawBit_within
    | with_reducible apply Mach.writeAbandon_within
    | with_reducible apply Mach.within_ite
    | with_reducible apply Mach.within_ite2
    | (with_reducible apply Mach.within_fst; assumption)
    | (with_reducible apply Mach.within_left; assumption)
    | (with_reducible apply Mach.within_mid; assumption)
    | dsimp only
    | split

theorem Mach.vholdUp_within {m₀ : Mach} (m : Mach) {ps : List Part} (h₀ : m₀.within m ps)
    (hs : [Part.clk].all ps.contains = true) : m₀.within (Mach.vholdUp m) ps := by
  refine Mach.within_step h₀ ?_ hs
  clear h₀ hs
  unfold Mach.vholdUp
  try dsimp only
  repeat' first
    | with_reducible assumption
    | with_reducible exact Mach.within_refl _ _
    | decide
    | with_reducible apply Mach.within_ite
    | with_reducible apply Mach.within_ite2
    | ((simp only [Mach.within_mk_eq]; with_reducible apply Mach.withinMk_of) <;> first | exact Or.inr rfl | with_reducible exact Or.inl rfl | with_reducible rfl | with_reducible exact fun h => h | (intro h; simpa [length_listUpd] using h) | (intro h; split <;> exact h) | exact fun h => h | (intro h; simp [startQueues, h]) | skip)

theorem Mach.activate_within {m₀ : Mach} (m : Mach) (straps : Straps) {ps : List Part} (h₀ : m₀.within m ps)
    (hs : [Part.clk, Part.regs, Part.pa, Part.pb, Part.mot, Part.flt, Part.ang, Part.aux, Part.evt, Part.grd, Part.buf, Part.eng, Part.flue, Part.sec, Part.nv, Part.bist, Part.mem, Part.free].all ps.contains = true) : m₀.within (Mach.activate m straps) ps := by
  refine Mach.within_step h₀ ?_ hs
  clear h₀ hs
  unfold Mach.activate
  try dsimp only
  repeat' first
    | with_reducible assumption
    | with_reducible exact Mach.within_refl _ _
    | decide
    | with_reducible apply Mach.coldStart_within
    | with_reducible apply Mach.storeCommit_within
    | with_reducible apply Mach.testAbort_within
    | with_reducible apply Mach.writeAbandon_within
    | with_reducible apply Mach.within_ite
    | with_reducible apply Mach.within_ite2
    | (with_reducible apply Mach.within_fst; assumption)
    | (with_reducible apply Mach.within_left; assumption)
    | (with_reducible apply Mach.within_mid; assumption)
    | dsimp only
    | split

theorem Mach.slotGood_within {m₀ : Mach} (m : Mach) {ps : List Part} (h₀ : m₀.within m ps)
    (hs : [Part.nv].all ps.contains = true) : m₀.within (Mach.slotGood m) ps := by
  refine Mach.within_step h₀ ?_ hs
  clear h₀ hs
  unfold Mach.slotGood
  try dsimp only
  repeat' first
    | with_reducible assumption
    | with_reducible exact Mach.within_refl _ _
    | decide
    | with_reducible apply Mach.updSlot_within
    | with_reducible apply Mach.within_ite
    | with_reducible apply Mach.within_ite2

theorem Mach.vioLoss_within {m₀ : Mach} (m : Mach) {ps : List Part} (h₀ : m₀.within m ps)
    (hs : [Part.clk, Part.flue].all ps.contains = true) : m₀.within (Mach.vioLoss m) ps := by
  refine Mach.within_step h₀ ?_ hs
  clear h₀ hs
  unfold Mach.vioLoss
  try dsimp only
  repeat' first
    | with_reducible assumption
    | with_reducible exact Mach.within_refl _ _
    | decide
    | ((simp only [Mach.within_mk_eq]; with_reducible apply Mach.withinMk_of) <;> first | exact Or.inr rfl | with_reducible exact Or.inl rfl | with_reducible rfl | with_reducible exact fun h => h | (intro h; simpa [length_listUpd] using h) | (intro h; split <;> exact h) | exact fun h => h | (intro h; simp [startQueues, h]) | skip)

theorem Mach.vioReturn_within {m₀ : Mach} (m : Mach) (l : VioLevels) {ps : List Part} (h₀ : m₀.within m ps)
    (hs : [Part.clk, Part.aux].all ps.contains = true) : m₀.within (Mach.vioReturn m l) ps := by
  refine Mach.within_step h₀ ?_ hs
  clear h₀ hs
  unfold Mach.vioReturn
  try dsimp only
  repeat' first
    | with_reducible assumption
    | with_reducible exact Mach.within_refl _ _
    | decide
    | with_reducible apply Mach.within_ite
    | with_reducible apply Mach.within_ite2
    | ((simp only [Mach.within_mk_eq]; with_reducible apply Mach.withinMk_of) <;> first | exact Or.inr rfl | with_reducible exact Or.inl rfl | with_reducible rfl | with_reducible exact fun h => h | (intro h; simpa [length_listUpd] using h) | (intro h; split <;> exact h) | exact fun h => h | (intro h; simp [startQueues, h]) | skip)

end Sys2Proof.Machine
end

