-- ==== Sys2Proof/Laws/WithinRegRead.lean ====
section
/-! SUPPORT. The reach of every operation of Machine/RegRead.lean. -/

set_option linter.unusedTactic false
set_option linter.unusedSimpArgs false
set_option linter.unusedVariables false
set_option linter.unreachableTactic false
set_option linter.unnecessarySimpa false

namespace Sys2Proof.Machine

theorem Mach.windowStep_within {m₀ : Mach} (m : Mach) (ix : Nat) {ps : List Part} (h₀ : m₀.within m ps)
    (hs : [Part.regs].all ps.contains = true) : m₀.within (Mach.windowStep m ix) ps := by
  refine Mach.within_step h₀ ?_ hs
  clear h₀ hs
  unfold Mach.windowStep
  try dsimp only
  repeat' first
    | with_reducible assumption
    | with_reducible exact Mach.within_refl _ _
    | decide
    | with_reducible apply Mach.setReg_within

theorem Mach.setHold_within {m₀ : Mach} (m : Mach) (ag : Agent) (h : Option PairHold) {ps : List Part} (h₀ : m₀.within m ps)
    (hs : [Part.regs].all ps.contains = true) : m₀.within (Mach.setHold m ag h) ps := by
  refine Mach.within_step h₀ ?_ hs
  clear h₀ hs
  unfold Mach.setHold
  try dsimp only
  repeat' first
    | with_reducible assumption
    | with_reducible exact Mach.within_refl _ _
    | decide
    | (with_reducible apply Mach.within_fst; assumption)
    | (with_reducible apply Mach.within_left; assumption)
    | (with_reducible apply Mach.within_mid; assumption)
    | dsimp only
    | split
    | ((simp only [Mach.within_mk_eq]; with_reducible apply Mach.withinMk_of) <;> first | exact Or.inr rfl | with_reducible exact Or.inl rfl | with_reducible rfl | with_reducible exact fun h => h | (intro h; simpa [length_listUpd] using h) | (intro h; split <;> exact h) | exact fun h => h | (intro h; simp [startQueues, h]) | skip)

theorem Mach.pairRead_within {m₀ : Mach} (m : Mach) (ag : Agent) (a : Nat) {ps : List Part} (h₀ : m₀.within m ps)
    (hs : [Part.regs].all ps.contains = true) : m₀.within (Mach.pairRead m ag a).2 ps := by
  refine Mach.within_step h₀ ?_ hs
  clear h₀ hs
  unfold Mach.pairRead
  try dsimp only
  repeat' first
    | with_reducible assumption
    | with_reducible exact Mach.within_refl _ _
    | decide
    | with_reducible apply Mach.setHold_within
    | with_reducible apply Mach.within_ite
    | with_reducible apply Mach.within_ite2
    | (with_reducible apply Mach.within_fst; assumption)
    | (with_reducible apply Mach.within_left; assumption)
    | (with_reducible apply Mach.within_mid; assumption)
    | dsimp only
    | split

theorem Mach.readWord_within {m₀ : Mach} (m : Mach) (ag : Agent) (a : Nat) {ps : List Part} (h₀ : m₀.within m ps)
    (hs : [Part.regs].all ps.contains = true) : m₀.within (Mach.readWord m ag a).2.2 ps := by
  refine Mach.within_step h₀ ?_ hs
  clear h₀ hs
  unfold Mach.readWord
  try dsimp only
  repeat' first
    | with_reducible assumption
    | with_reducible exact Mach.within_refl _ _
    | decide
    | with_reducible apply Mach.pairRead_within
    | with_reducible apply Mach.windowStep_within
    | with_reducible apply Mach.within_ite
    | with_reducible apply Mach.within_ite3
    | with_reducible apply Mach.within_ite2
    | (with_reducible apply Mach.within_fst; assumption)
    | (with_reducible apply Mach.within_left; assumption)
    | (with_reducible apply Mach.within_mid; assumption)
    | dsimp only
    | split

theorem Mach.readRun_within {m₀ : Mach} (m : Mach) (ag : Agent) (stay : Bool) (last a : Nat) (x0 : Nat) {ps : List Part} (h₀ : m₀.within m ps)
    (hs : [Part.regs].all ps.contains = true) : m₀.within (Mach.readRun m ag stay last a x0).2.2 ps := by
  refine Mach.within_step h₀ ?_ hs
  clear h₀ hs
  induction x0 generalizing m ag stay last a with
  | zero =>
    unfold Mach.readRun
    try dsimp only
    repeat' first
      | with_reducible assumption
      | with_reducible exact Mach.within_refl _ _
      | decide
      | with_reducible apply Mach.readWord_within
      | with_reducible apply Mach.within_ite
      | with_reducible apply Mach.within_ite3
      | with_reducible apply Mach.within_ite2
      | (with_reducible apply Mach.within_fst; assumption)
      | (with_reducible apply Mach.within_left; assumption)
      | (with_reducible apply Mach.within_mid; assumption)
      | dsimp only
      | split

  | succ k ih =>
    unfold Mach.readRun
    try dsimp only
    repeat' first
      | with_reducible assumption
      | with_reducible exact Mach.within_refl _ _
      | decide
      | with_reducible apply Mach.within_then (ih _ _ _ _ _)
      | with_reducible apply Mach.readWord_within
      | with_reducible apply Mach.within_ite
      | with_reducible apply Mach.within_ite3
      | with_reducible apply Mach.within_ite2
      | (with_reducible apply Mach.within_fst; assumption)
      | (with_reducible apply Mach.within_left; assumption)
      | (with_reducible apply Mach.within_mid; assumption)
      | dsimp only
      | split

end Sys2Proof.Machine
end

