-- ==== Sys2Proof/Laws/WithinRegEffect.lean ====
section
/-! SUPPORT. The reach of every operation of Machine/RegEffect.lean. -/

set_option linter.unusedTactic false
set_option linter.unusedSimpArgs false
set_option linter.unusedVariables false
set_option linter.unreachableTactic false
set_option linter.unnecessarySimpa false

namespace Sys2Proof.Machine

theorem Mach.doneMode_within {m₀ : Mach} (m : Mach) (ag : Agent) (new go : Word) {ps : List Part} (h₀ : m₀.within m ps)
    (hs : [Part.clk, Part.regs, Part.pa, Part.pb, Part.buf, Part.sec, Part.nv].all ps.contains = true) : m₀.within (Mach.doneMode m ag new go).2 ps := by
  refine Mach.within_step h₀ ?_ hs
  clear h₀ hs
  unfold Mach.doneMode
  try dsimp only
  repeat' first
    | with_reducible assumption
    | with_reducible exact Mach.within_refl _ _
    | decide
    | with_reducible apply Mach.enterMode_within
    | with_reducible apply Mach.setReg_within
    | with_reducible apply Mach.within_ite
    | with_reducible apply Mach.within_ite2
    | (with_reducible apply Mach.within_fst; assumption)
    | (with_reducible apply Mach.within_left; assumption)
    | (with_reducible apply Mach.within_mid; assumption)
    | dsimp only
    | split

theorem Mach.donePower_within {m₀ : Mach} (m : Mach) (ag : Agent) (a : Nat) (new go : Word) {ps : List Part} (h₀ : m₀.within m ps)
    (hs : [Part.clk, Part.regs, Part.pa, Part.pb, Part.mot, Part.flt, Part.ang, Part.aux, Part.evt, Part.grd, Part.buf, Part.eng, Part.flue, Part.sec, Part.nv, Part.bist, Part.mem, Part.free].all ps.contains = true) : m₀.within (Mach.donePower m ag a new go).2 ps := by
  refine Mach.within_step h₀ ?_ hs
  clear h₀ hs
  unfold Mach.donePower
  try dsimp only
  repeat' first
    | with_reducible assumption
    | with_reducible exact Mach.within_refl _ _
    | decide
    | with_reducible apply Mach.domWrite_within
    | with_reducible apply Mach.doneMode_within
    | with_reducible apply Mach.setReg_within
    | with_reducible apply Mach.within_ite
    | with_reducible apply Mach.within_ite2
    | (with_reducible apply Mach.within_fst; assumption)
    | (with_reducible apply Mach.within_left; assumption)
    | (with_reducible apply Mach.within_mid; assumption)
    | dsimp only
    | split

theorem Mach.doneMotion_within {m₀ : Mach} (m : Mach) (a : Nat) (old new : Word) {ps : List Part} (h₀ : m₀.within m ps)
    (hs : [Part.regs, Part.mot, Part.flt, Part.ang, Part.evt].all ps.contains = true) : m₀.within (Mach.doneMotion m a old new) ps := by
  refine Mach.within_step h₀ ?_ hs
  clear h₀ hs
  unfold Mach.doneMotion
  try dsimp only
  repeat' first
    | with_reducible assumption
    | with_reducible exact Mach.within_refl _ _
    | decide
    | with_reducible apply Mach.axmapChange_within
    | with_reducible apply Mach.enterSearch_within
    | with_reducible apply Mach.presetChange_within
    | with_reducible apply Mach.rangeChange_within
    | with_reducible apply Mach.within_ite
    | with_reducible apply Mach.within_ite2

theorem Mach.castleAsk_within {m₀ : Mach} (m : Mach) (g : Nat) {ps : List Part} (h₀ : m₀.within m ps)
    (hs : [Part.regs, Part.flt].all ps.contains = true) : m₀.within (Mach.castleAsk m g) ps := by
  refine Mach.within_step h₀ ?_ hs
  clear h₀ hs
  unfold Mach.castleAsk
  try dsimp only
  repeat' first
    | with_reducible assumption
    | with_reducible exact Mach.within_refl _ _
    | decide
    | with_reducible apply Mach.castleNow_within
    | with_reducible apply Mach.setReq_within
    | with_reducible apply Mach.updGrp_within
    | with_reducible apply Mach.within_ite
    | with_reducible apply Mach.within_ite2

theorem Mach.clibStart_within {m₀ : Mach} (m : Mach) (new : Word) {ps : List Part} (h₀ : m₀.within m ps)
    (hs : [Part.regs, Part.flt].all ps.contains = true) : m₀.within (Mach.clibStart m new) ps := by
  refine Mach.within_step h₀ ?_ hs
  clear h₀ hs
  unfold Mach.clibStart
  try dsimp only
  repeat' first
    | with_reducible assumption
    | with_reducible exact Mach.within_refl _ _
    | decide
    | with_reducible apply Mach.setFld_within
    | with_reducible apply Mach.within_ite
    | with_reducible apply Mach.within_ite2
    | ((simp only [Mach.within_mk_eq]; with_reducible apply Mach.withinMk_of) <;> first | exact Or.inr rfl | with_reducible exact Or.inl rfl | with_reducible rfl | with_reducible exact fun h => h | (intro h; simpa [length_listUpd] using h) | (intro h; split <;> exact h) | exact fun h => h | (intro h; simp [startQueues, h]) | skip)

theorem Mach.doneFilter_within {m₀ : Mach} (m : Mach) (a : Nat) (old new go : Word) {ps : List Part} (h₀ : m₀.within m ps)
    (hs : [Part.regs, Part.flt].all ps.contains = true) : m₀.within (Mach.doneFilter m a old new go) ps := by
  refine Mach.within_step h₀ ?_ hs
  clear h₀ hs
  unfold Mach.doneFilter
  try dsimp only
  repeat' first
    | with_reducible assumption
    | with_reducible exact Mach.within_refl _ _
    | decide
    | with_reducible apply Mach.castleAsk_within
    | with_reducible apply Mach.clibStart_within
    | with_reducible apply Mach.presetChange_within
    | with_reducible apply Mach.syncArm_within
    | with_reducible apply Mach.within_ite
    | with_reducible apply Mach.within_ite2
    | with_reducible apply Mach.within_fold
    | (intro k x hk; try dsimp only)

theorem Mach.doneAngle_within {m₀ : Mach} (m : Mach) (a : Nat) (old new : Word) {ps : List Part} (h₀ : m₀.within m ps)
    (hs : [Part.regs, Part.ang].all ps.contains = true) : m₀.within (Mach.doneAngle m a old new) ps := by
  refine Mach.within_step h₀ ?_ hs
  clear h₀ hs
  unfold Mach.doneAngle
  try dsimp only
  repeat' first
    | with_reducible assumption
    | with_reducible exact Mach.within_refl _ _
    | decide
    | with_reducible apply Mach.angEnable_within
    | with_reducible apply Mach.enterSearch_within
    | with_reducible apply Mach.within_ite
    | with_reducible apply Mach.within_ite2
    | ((simp only [Mach.within_mk_eq]; with_reducible apply Mach.withinMk_of) <;> first | exact Or.inr rfl | with_reducible exact Or.inl rfl | with_reducible rfl | with_reducible exact fun h => h | (intro h; simpa [length_listUpd] using h) | (intro h; split <;> exact h) | exact fun h => h | (intro h; simp [startQueues, h]) | skip)

theorem Mach.doneAux_within {m₀ : Mach} (m : Mach) (a : Nat) (old new go : Word) {ps : List Part} (h₀ : m₀.within m ps)
    (hs : [Part.regs, Part.pa, Part.pb, Part.flt, Part.aux, Part.buf, Part.sec, Part.nv].all ps.contains = true) : m₀.within (Mach.doneAux m a old new go) ps := by
  refine Mach.within_step h₀ ?_ hs
  clear h₀ hs
  unfold Mach.doneAux
  try dsimp only
  repeat' first
    | with_reducible assumption
    | with_reducible exact Mach.within_refl _ _
    | decide
    | with_reducible apply Mach.auxChanges_within
    | with_reducible apply Mach.damperOff_within
    | with_reducible apply Mach.excAsk_within
    | with_reducible apply Mach.leadFail_within
    | with_reducible apply Mach.setFld_within
    | with_reducible apply Mach.setReg_within
    | with_reducible apply Mach.within_ite
    | with_reducible apply Mach.within_ite2
    | ((simp only [Mach.within_mk_eq]; with_reducible apply Mach.withinMk_of) <;> first | exact Or.inr rfl | with_reducible exact Or.inl rfl | with_reducible rfl | with_reducible exact fun h => h | (intro h; simpa [length_listUpd] using h) | (intro h; split <;> exact h) | exact fun h => h | (intro h; simp [startQueues, h]) | skip)

theorem Mach.doneBuffer_within {m₀ : Mach} (m : Mach) (a : Nat) (old go : Word) {ps : List Part} (h₀ : m₀.within m ps)
    (hs : [Part.regs, Part.pa, Part.pb, Part.flt, Part.buf, Part.sec, Part.nv, Part.free].all ps.contains = true) : m₀.within (Mach.doneBuffer m a old go) ps := by
  refine Mach.within_step h₀ ?_ hs
  clear h₀ hs
  unfold Mach.doneBuffer
  try dsimp only
  repeat' first
    | with_reducible assumption
    | with_reducible exact Mach.within_refl _ _
    | decide
    | with_reducible apply Mach.applyAlloc_within
    | with_reducible apply Mach.blockTimeout_within
    | with_reducible apply Mach.policyChange_within
    | with_reducible apply Mach.rearm_within
    | with_reducible apply Mach.trigger_within
    | with_reducible apply Mach.within_ite
    | with_reducible apply Mach.within_ite2

theorem Mach.doneEvent_within {m₀ : Mach} (m : Mach) (a : Nat) (old new go : Word) {ps : List Part} (h₀ : m₀.within m ps)
    (hs : [Part.clk, Part.regs, Part.pa, Part.pb, Part.mot, Part.flt, Part.ang, Part.aux, Part.evt, Part.grd, Part.buf, Part.eng, Part.flue, Part.sec, Part.nv, Part.bist, Part.mem, Part.free].all ps.contains = true) : m₀.within (Mach.doneEvent m a old new go) ps := by
  refine Mach.within_step h₀ ?_ hs
  clear h₀ hs
  unfold Mach.doneEvent
  try dsimp only
  repeat' first
    | with_reducible assumption
    | with_reducible exact Mach.within_refl _ _
    | decide
    | with_reducible apply Mach.recReset_within
    | with_reducible apply Mach.setFlags_within
    | with_reducible apply Mach.smStart_within
    | with_reducible apply Mach.smStop_within
    | with_reducible apply Mach.updSm_within
    | with_reducible apply Mach.within_ite
    | with_reducible apply Mach.within_ite2
    | with_reducible apply Mach.within_fold
    | (intro k x hk; try dsimp only)

theorem Mach.doneEngine_within {m₀ : Mach} (m : Mach) (a : Nat) (new go : Word) {ps : List Part} (h₀ : m₀.within m ps)
    (hs : [Part.regs, Part.pa, Part.pb, Part.flt, Part.buf, Part.eng, Part.sec, Part.nv, Part.free].all ps.contains = true) : m₀.within (Mach.doneEngine m a new go) ps := by
  refine Mach.within_step h₀ ?_ hs
  clear h₀ hs
  unfold Mach.doneEngine
  try dsimp only
  repeat' first
    | with_reducible assumption
    | with_reducible exact Mach.within_refl _ _
    | decide
    | with_reducible apply Mach.engResumeOne_within
    | with_reducible apply Mach.engStartOne_within
    | with_reducible apply Mach.engStopOne_within
    | with_reducible apply Mach.irqSet_within
    | with_reducible apply Mach.pinInit_within
    | with_reducible apply Mach.rxAck_within
    | with_reducible apply Mach.setReg_within
    | with_reducible apply Mach.txdWrite_within
    | with_reducible apply Mach.within_ite
    | with_reducible apply Mach.within_ite2
    | with_reducible apply Mach.within_fold
    | (intro k x hk; try dsimp only)

theorem Mach.doneFlue_within {m₀ : Mach} (m : Mach) (a : Nat) (old new go : Word) {ps : List Part} (h₀ : m₀.within m ps)
    (hs : [Part.regs, Part.pa, Part.pb, Part.flt, Part.eng, Part.flue].all ps.contains = true) : m₀.within (Mach.doneFlue m a old new go) ps := by
  refine Mach.within_step h₀ ?_ hs
  clear h₀ hs
  unfold Mach.doneFlue
  try dsimp only
  repeat' first
    | with_reducible assumption
    | with_reducible exact Mach.within_refl _ _
    | decide
    | with_reducible apply Mach.busSwitch_within
    | with_reducible apply Mach.syncArm_within
    | with_reducible apply Mach.tload_within
    | with_reducible apply Mach.within_ite
    | with_reducible apply Mach.within_ite2

theorem Mach.lockReg_within {m₀ : Mach} (m : Mach) (a : Nat) {ps : List Part} (h₀ : m₀.within m ps)
    (hs : [Part.regs].all ps.contains = true) : m₀.within (Mach.lockReg m a) ps := by
  refine Mach.within_step h₀ ?_ hs
  clear h₀ hs
  unfold Mach.lockReg
  try dsimp only
  repeat' first
    | with_reducible assumption
    | with_reducible exact Mach.within_refl _ _
    | decide
    | with_reducible apply Mach.within_ite
    | with_reducible apply Mach.within_ite2
    | ((simp only [Mach.within_mk_eq]; with_reducible apply Mach.withinMk_of) <;> first | exact Or.inr rfl | with_reducible exact Or.inl rfl | with_reducible rfl | with_reducible exact fun h => h | (intro h; simpa [length_listUpd] using h) | (intro h; split <;> exact h) | exact fun h => h | (intro h; simp [startQueues, h]) | skip)

theorem Mach.doneGuard_within {m₀ : Mach} (m : Mach) (a : Nat) (go : Word) {ps : List Part} (h₀ : m₀.within m ps)
    (hs : [Part.regs, Part.grd, Part.free].all ps.contains = true) : m₀.within (Mach.doneGuard m a go) ps := by
  refine Mach.within_step h₀ ?_ hs
  clear h₀ hs
  unfold Mach.doneGuard
  try dsimp only
  repeat' first
    | with_reducible assumption
    | with_reducible exact Mach.within_refl _ _
    | decide
    | with_reducible apply Mach.grdTryArm_within
    | with_reducible apply Mach.lockReg_within
    | with_reducible apply Mach.within_ite
    | with_reducible apply Mach.within_ite2
    | with_reducible apply Mach.within_fold
    | (intro k x hk; try dsimp only)
    | ((simp only [Mach.within_mk_eq]; with_reducible apply Mach.withinMk_of) <;> first | exact Or.inr rfl | with_reducible exact Or.inl rfl | with_reducible rfl | with_reducible exact fun h => h | (intro h; simpa [length_listUpd] using h) | (intro h; split <;> exact h) | exact fun h => h | (intro h; simp [startQueues, h]) | skip)

theorem Mach.doneBist_within {m₀ : Mach} (m : Mach) (ag : Agent) (a : Nat) (old new go : Word) {ps : List Part} (h₀ : m₀.within m ps)
    (hs : [Part.regs, Part.pa, Part.pb, Part.mot, Part.flt, Part.ang, Part.aux, Part.evt, Part.grd, Part.buf, Part.eng, Part.sec, Part.nv, Part.bist, Part.free].all ps.contains = true) : m₀.within (Mach.doneBist m ag a old new go) ps := by
  refine Mach.within_step h₀ ?_ hs
  clear h₀ hs
  unfold Mach.doneBist
  try dsimp only
  repeat' first
    | with_reducible assumption
    | with_reducible exact Mach.within_refl _ _
    | decide
    | with_reducible apply Mach.runStart_within
    | with_reducible apply Mach.setFld_within
    | with_reducible apply Mach.setReg_within
    | with_reducible apply Mach.spareUse_within
    | with_reducible apply Mach.within_ite
    | with_reducible apply Mach.within_ite2

theorem Mach.regDone_within {m₀ : Mach} (m : Mach) (ag : Agent) (a : Nat) (old new go : Word) {ps : List Part} (h₀ : m₀.within m ps)
    (hs : [Part.clk, Part.regs, Part.pa, Part.pb, Part.mot, Part.flt, Part.ang, Part.aux, Part.evt, Part.grd, Part.buf, Part.eng, Part.flue, Part.sec, Part.nv, Part.bist, Part.mem, Part.free].all ps.contains = true) : m₀.within (Mach.regDone m ag a old new go).2 ps := by
  refine Mach.within_step h₀ ?_ hs
  clear h₀ hs
  unfold Mach.regDone
  try dsimp only
  repeat' first
    | with_reducible assumption
    | with_reducible exact Mach.within_refl _ _
    | decide
    | with_reducible apply Mach.doneAngle_within
    | with_reducible apply Mach.doneAux_within
    | with_reducible apply Mach.doneBist_within
    | with_reducible apply Mach.doneBuffer_within
    | with_reducible apply Mach.doneEngine_within
    | with_reducible apply Mach.doneEvent_within
    | with_reducible apply Mach.doneFilter_within
    | with_reducible apply Mach.doneFlue_within
    | with_reducible apply Mach.doneGuard_within
    | with_reducible apply Mach.doneMotion_within
    | with_reducible apply Mach.donePower_within
    | with_reducible apply Mach.semClaim_within
    | with_reducible apply Mach.semRelease_within
    | with_reducible apply Mach.setReg_within
    | with_reducible apply Mach.within_ite
    | with_reducible apply Mach.within_ite2
    | (with_reducible apply Mach.within_fst; assumption)
    | (with_reducible apply Mach.within_left; assumption)
    | (with_reducible apply Mach.within_mid; assumption)
    | dsimp only
    | split

end Sys2Proof.Machine
end

