-- ==== Sys2Proof/Laws/WithinHostPort.lean ====
section
/-! SUPPORT. The reach of every operation of Machine/HostPort.lean. -/

set_option linter.unusedTactic false
set_option linter.unusedSimpArgs false
set_option linter.unusedVariables false
set_option linter.unreachableTactic false
set_option linter.unnecessarySimpa false

namespace Sys2Proof.Machine

theorem Mach.frameErr_within {m₀ : Mach} (m : Mach) (p : Port) {ps : List Part} (h₀ : m₀.within m ps)
    (hs : [Part.regs, Part.pa, Part.pb].all ps.contains = true) : m₀.within (Mach.frameErr m p) ps := by
  refine Mach.within_step h₀ ?_ hs
  clear h₀ hs
  unfold Mach.frameErr
  try dsimp only
  repeat' first
    | with_reducible assumption
    | with_reducible exact Mach.within_refl _ _
    | decide
    | with_reducible apply Mach.count_within
    | with_reducible apply Mach.intBit_within

theorem Mach.crcErr_within {m₀ : Mach} (m : Mach) (p : Port) {ps : List Part} (h₀ : m₀.within m ps)
    (hs : [Part.regs, Part.pa, Part.pb].all ps.contains = true) : m₀.within (Mach.crcErr m p) ps := by
  refine Mach.within_step h₀ ?_ hs
  clear h₀ hs
  unfold Mach.crcErr
  try dsimp only
  repeat' first
    | with_reducible assumption
    | with_reducible exact Mach.within_refl _ _
    | decide
    | with_reducible apply Mach.count_within
    | with_reducible apply Mach.intBit_within

theorem Mach.edgeTaken_within {m₀ : Mach} (m : Mach) (p : Port) (since : Nat) {ps : List Part} (h₀ : m₀.within m ps)
    (hs : [Part.pa, Part.pb, Part.free].all ps.contains = true) : m₀.within (Mach.edgeTaken m p since).2 ps := by
  refine Mach.within_step h₀ ?_ hs
  clear h₀ hs
  unfold Mach.edgeTaken
  try dsimp only
  repeat' first
    | with_reducible assumption
    | with_reducible exact Mach.within_refl _ _
    | decide
    | with_reducible apply Mach.drawBit_within
    | with_reducible apply Mach.updPort_within
    | with_reducible apply Mach.within_ite
    | with_reducible apply Mach.within_ite2
    | (with_reducible apply Mach.within_fst; assumption)
    | (with_reducible apply Mach.within_left; assumption)
    | (with_reducible apply Mach.within_mid; assumption)
    | dsimp only
    | split

theorem Mach.takesFrame_within {m₀ : Mach} (m : Mach) (p : Port) (since : Nat) (selHigh : Bool) (abyte : Byte) (broadcast : Bool) {ps : List Part} (h₀ : m₀.within m ps)
    (hs : [Part.pa, Part.pb, Part.free].all ps.contains = true) : m₀.within (Mach.takesFrame m p since selHigh abyte broadcast).2 ps := by
  refine Mach.within_step h₀ ?_ hs
  clear h₀ hs
  unfold Mach.takesFrame
  try dsimp only
  repeat' first
    | with_reducible assumption
    | with_reducible exact Mach.within_refl _ _
    | decide
    | with_reducible apply Mach.edgeTaken_within
    | with_reducible apply Mach.within_ite
    | with_reducible apply Mach.within_ite2

theorem Mach.leaseRestart_within {m₀ : Mach} (m : Mach) (p : Port) {ps : List Part} (h₀ : m₀.within m ps)
    (hs : [Part.pa, Part.pb].all ps.contains = true) : m₀.within (Mach.leaseRestart m p) ps := by
  refine Mach.within_step h₀ ?_ hs
  clear h₀ hs
  unfold Mach.leaseRestart
  try dsimp only
  repeat' first
    | with_reducible assumption
    | with_reducible exact Mach.within_refl _ _
    | decide
    | with_reducible apply Mach.updPort_within

theorem Mach.cutShort_within {m₀ : Mach} (m : Mach) (p : Port) (e : FrameEnv) {ps : List Part} (h₀ : m₀.within m ps)
    (hs : [Part.regs, Part.pa, Part.pb].all ps.contains = true) : m₀.within (Mach.cutShort m p e) ps := by
  refine Mach.within_step h₀ ?_ hs
  clear h₀ hs
  unfold Mach.cutShort
  try dsimp only
  repeat' first
    | with_reducible assumption
    | with_reducible exact Mach.within_refl _ _
    | decide
    | with_reducible apply Mach.frameErr_within
    | with_reducible apply Mach.leaseRestart_within
    | with_reducible apply Mach.within_ite
    | with_reducible apply Mach.within_ite2

theorem Mach.drive_within {m₀ : Mach} (m : Mach) (p : Port) (e : FrameEnv) (h : List Byte) (dev : List Byte) {ps : List Part} (h₀ : m₀.within m ps)
    (hs : [Part.regs, Part.pa, Part.pb].all ps.contains = true) : m₀.within (Mach.drive m p e h dev) ps := by
  refine Mach.within_step h₀ ?_ hs
  clear h₀ hs
  unfold Mach.drive
  try dsimp only
  repeat' first
    | with_reducible assumption
    | with_reducible exact Mach.within_refl _ _
    | decide
    | with_reducible apply Mach.frameErr_within
    | with_reducible apply Mach.updPort_within
    | with_reducible apply Mach.within_ite
    | with_reducible apply Mach.within_ite2

theorem Mach.arrival_within {m₀ : Mach} (m : Mach) (p : Port) (e : FrameEnv) (h : List Byte) (write : Bool) {ps : List Part} (h₀ : m₀.within m ps)
    (hs : [Part.clk, Part.regs, Part.pa, Part.pb, Part.mot, Part.flt, Part.ang, Part.aux, Part.evt, Part.grd, Part.buf, Part.eng, Part.flue, Part.sec, Part.nv, Part.bist, Part.mem, Part.free].all ps.contains = true) : m₀.within (Mach.arrival m p e h write).2 ps := by
  refine Mach.within_step h₀ ?_ hs
  clear h₀ hs
  unfold Mach.arrival
  try dsimp only
  repeat' first
    | with_reducible assumption
    | with_reducible exact Mach.within_refl _ _
    | decide
    | with_reducible apply Mach.applyHeld_within
    | with_reducible apply Mach.crcErr_within
    | with_reducible apply Mach.cutShort_within
    | with_reducible apply Mach.leaseRestart_within
    | with_reducible apply Mach.takesFrame_within
    | with_reducible apply Mach.within_ite
    | with_reducible apply Mach.within_ite2
    | (intro k hk; try dsimp only)
    | (with_reducible apply Mach.within_fst; assumption)
    | (with_reducible apply Mach.within_left; assumption)
    | (with_reducible apply Mach.within_mid; assumption)
    | dsimp only
    | split

theorem Mach.readFrame_within {m₀ : Mach} (m : Mach) (p : Port) (e : FrameEnv) (h : List Byte) (zeros : Nat) (early : Mach → Mach)
    (serve : Mach → List Byte × Mach) {ps : List Part} (h₀ : m₀.within m ps)
    (he : ∀ n, m₀.within n ps → m₀.within (early n) ps) (hv : ∀ n, m₀.within n ps → m₀.within (serve n).2 ps)
    (hs : [Part.clk, .regs, .pa, .pb, .mot, .flt, .ang, .aux, .evt, .grd, .buf, .eng, .flue, .sec, .nv, .bist, .mem, .free].all ps.contains = true) :
    m₀.within (Mach.readFrame m p e h zeros early serve) ps := by
  have ha : m₀.within (m.arrival p e h false).2 ps := Mach.arrival_within _ _ _ _ _ h₀ hs
  have hd : [Part.regs, Part.pa, Part.pb].all ps.contains = true := by simp at hs ⊢; exact ⟨hs.2.1, hs.2.2.1, hs.2.2.2.1⟩
  unfold Mach.readFrame
  repeat' first
    | with_reducible assumption
    | decide
    | with_reducible apply he
    | with_reducible apply hv
    | with_reducible apply Mach.drive_within
    | with_reducible apply Mach.within_ite
    | with_reducible apply Mach.within_ite2
    | (with_reducible apply Mach.within_fst; assumption)
    | (with_reducible apply Mach.within_left; assumption)
    | dsimp only
    | split

theorem Mach.readyInTime_within {m₀ : Mach} (m : Mach) (p : Port) (e : FrameEnv) (block : Nat) {ps : List Part} (h₀ : m₀.within m ps)
    (hs : [Part.free].all ps.contains = true) : m₀.within (Mach.readyInTime m p e block).2 ps := by
  refine Mach.within_step h₀ ?_ hs
  clear h₀ hs
  unfold Mach.readyInTime
  try dsimp only
  repeat' first
    | with_reducible assumption
    | with_reducible exact Mach.within_refl _ _
    | decide
    | with_reducible apply Mach.drawBit_within
    | with_reducible apply Mach.within_ite
    | with_reducible apply Mach.within_ite2

theorem Mach.serveRead_within {m₀ : Mach} (m : Mach) (p : Port) (e : FrameEnv) (h : List Byte) (addr n : Nat) {ps : List Part} (h₀ : m₀.within m ps)
    (hs : [Part.regs, Part.free].all ps.contains = true) : m₀.within (Mach.serveRead m p e h addr n).2 ps := by
  refine Mach.within_step h₀ ?_ hs
  clear h₀ hs
  unfold Mach.serveRead
  try dsimp only
  repeat' first
    | with_reducible assumption
    | with_reducible exact Mach.within_refl _ _
    | decide
    | with_reducible apply Mach.noteAccess_within
    | with_reducible apply Mach.readRun_within
    | with_reducible apply Mach.readyInTime_within
    | with_reducible apply Mach.touch_within
    | with_reducible apply Mach.within_ite
    | with_reducible apply Mach.within_ite2
    | (with_reducible apply Mach.within_fst; assumption)
    | (with_reducible apply Mach.within_left; assumption)
    | (with_reducible apply Mach.within_mid; assumption)
    | dsimp only
    | split

theorem Mach.regReadFrame_within {m₀ : Mach} (m : Mach) (p : Port) (e : FrameEnv) (addr : BitVec 16) (count : Byte) {ps : List Part} (h₀ : m₀.within m ps)
    (hs : [Part.clk, Part.regs, Part.pa, Part.pb, Part.mot, Part.flt, Part.ang, Part.aux, Part.evt, Part.grd, Part.buf, Part.eng, Part.flue, Part.sec, Part.nv, Part.bist, Part.mem, Part.free].all ps.contains = true) : m₀.within (Mach.regReadFrame m p e addr count) ps := by
  refine Mach.within_step h₀ ?_ hs
  clear h₀ hs
  unfold Mach.regReadFrame
  try dsimp only
  repeat' first
    | with_reducible assumption
    | with_reducible exact Mach.within_refl _ _
    | decide
    | with_reducible apply Mach.arrival_within
    | with_reducible apply Mach.drive_within
    | with_reducible apply Mach.noteAccess_within
    | with_reducible apply Mach.serveRead_within
    | with_reducible apply Mach.touch_within
    | with_reducible apply Mach.within_ite
    | with_reducible apply Mach.within_ite2
    | (with_reducible apply Mach.within_fst; assumption)
    | (with_reducible apply Mach.within_left; assumption)
    | (with_reducible apply Mach.within_mid; assumption)
    | dsimp only
    | split

theorem Mach.regWriteFrame_within {m₀ : Mach} (m : Mach) (p : Port) (e : FrameEnv) (addr : BitVec 16) (count : Byte) (words : List Word) {ps : List Part} (h₀ : m₀.within m ps)
    (hs : [Part.clk, Part.regs, Part.pa, Part.pb, Part.mot, Part.flt, Part.ang, Part.aux, Part.evt, Part.grd, Part.buf, Part.eng, Part.flue, Part.sec, Part.nv, Part.bist, Part.mem, Part.free].all ps.contains = true) : m₀.within (Mach.regWriteFrame m p e addr count words) ps := by
  refine Mach.within_step h₀ ?_ hs
  clear h₀ hs
  unfold Mach.regWriteFrame
  try dsimp only
  repeat' first
    | with_reducible assumption
    | with_reducible exact Mach.within_refl _ _
    | decide
    | with_reducible apply Mach.applyHeld_within
    | with_reducible apply Mach.crcErr_within
    | with_reducible apply Mach.cutShort_within
    | with_reducible apply Mach.frameDone_within
    | with_reducible apply Mach.frameErr_within
    | with_reducible apply Mach.noteAccess_within
    | with_reducible apply Mach.portWrite_within
    | with_reducible apply Mach.takesFrame_within
    | with_reducible apply Mach.updPort_within
    | with_reducible apply Mach.within_ite
    | with_reducible apply Mach.within_ite2
    | (intro k hk; try dsimp only)
    | (with_reducible apply Mach.within_fst; assumption)
    | (with_reducible apply Mach.within_left; assumption)
    | (with_reducible apply Mach.within_mid; assumption)
    | dsimp only
    | split

theorem Mach.serveStream_within {m₀ : Mach} (m : Mach) (p : Port) (q off n : Nat) {ps : List Part} (h₀ : m₀.within m ps)
    (hs : [Part.pa, Part.pb].all ps.contains = true) : m₀.within (Mach.serveStream m p q off n).2.2 ps := by
  refine Mach.within_step h₀ ?_ hs
  clear h₀ hs
  unfold Mach.serveStream
  try dsimp only
  repeat' first
    | with_reducible assumption
    | with_reducible exact Mach.within_refl _ _
    | decide
    | with_reducible apply Mach.updPort_within
    | with_reducible apply Mach.within_ite
    | with_reducible apply Mach.within_ite3
    | with_reducible apply Mach.within_ite2
    | (with_reducible apply Mach.within_fst; assumption)
    | (with_reducible apply Mach.within_left; assumption)
    | (with_reducible apply Mach.within_mid; assumption)
    | dsimp only
    | split

theorem Mach.streamFrame_within {m₀ : Mach} (m : Mach) (p : Port) (e : FrameEnv) (queue : Byte) (offset : BitVec 24) (count : Byte) {ps : List Part} (h₀ : m₀.within m ps)
    (hs : [Part.clk, Part.regs, Part.pa, Part.pb, Part.mot, Part.flt, Part.ang, Part.aux, Part.evt, Part.grd, Part.buf, Part.eng, Part.flue, Part.sec, Part.nv, Part.bist, Part.mem, Part.free].all ps.contains = true) : m₀.within (Mach.streamFrame m p e queue offset count) ps := by
  refine Mach.within_step h₀ ?_ hs
  clear h₀ hs
  unfold Mach.streamFrame
  try dsimp only
  repeat' first
    | with_reducible assumption
    | with_reducible exact Mach.within_refl _ _
    | decide
    | with_reducible apply Mach.readFrame_within
    | with_reducible apply Mach.serveStream_within
    | (intro k hk; try dsimp only)
    | (with_reducible apply Mach.within_fst; assumption)
    | (with_reducible apply Mach.within_left; assumption)
    | (with_reducible apply Mach.within_mid; assumption)
    | dsimp only
    | split

theorem Mach.fillFinding_within {m₀ : Mach} (m : Mach) (f : Fill) (x : EccFinding) {ps : List Part} (h₀ : m₀.within m ps)
    (hs : [Part.regs, Part.pa, Part.pb, Part.flt, Part.buf, Part.sec, Part.nv, Part.bist, Part.free].all ps.contains = true) : m₀.within (Mach.fillFinding m f x) ps := by
  refine Mach.within_step h₀ ?_ hs
  clear h₀ hs
  unfold Mach.fillFinding
  try dsimp only
  repeat' first
    | with_reducible assumption
    | with_reducible exact Mach.within_refl _ _
    | decide
    | with_reducible apply Mach.eccFinding_within
    | (with_reducible apply Mach.within_fst; assumption)
    | (with_reducible apply Mach.within_left; assumption)
    | (with_reducible apply Mach.within_mid; assumption)
    | dsimp only
    | split

theorem Mach.storeFillDone_within {m₀ : Mach} (m : Mach) (p : Port) (ecc : List EccFinding) {ps : List Part} (h₀ : m₀.within m ps)
    (hs : [Part.regs, Part.pa, Part.pb, Part.flt, Part.buf, Part.sec, Part.nv, Part.bist, Part.free].all ps.contains = true) : m₀.within (Mach.storeFillDone m p ecc) ps := by
  refine Mach.within_step h₀ ?_ hs
  clear h₀ hs
  unfold Mach.storeFillDone
  try dsimp only
  repeat' first
    | with_reducible assumption
    | with_reducible exact Mach.within_refl _ _
    | decide
    | with_reducible apply Mach.fillFinding_within
    | with_reducible apply Mach.updPort_within
    | with_reducible apply Mach.within_ite
    | with_reducible apply Mach.within_ite2
    | with_reducible apply Mach.within_fold
    | (intro k x hk; try dsimp only)
    | (with_reducible apply Mach.within_fst; assumption)
    | (with_reducible apply Mach.within_left; assumption)
    | (with_reducible apply Mach.within_mid; assumption)
    | dsimp only
    | split

theorem Mach.serveCommit_within {m₀ : Mach} (m : Mach) (p : Port) (q n : Nat) {ps : List Part} (h₀ : m₀.within m ps)
    (hs : [Part.regs, Part.pa, Part.pb, Part.flt, Part.evt, Part.buf, Part.sec, Part.nv, Part.free].all ps.contains = true) : m₀.within (Mach.serveCommit m p q n).2 ps := by
  refine Mach.within_step h₀ ?_ hs
  clear h₀ hs
  unfold Mach.serveCommit
  try dsimp only
  repeat' first
    | with_reducible assumption
    | with_reducible exact Mach.within_refl _ _
    | decide
    | with_reducible apply Mach.commitBlocks_within
    | with_reducible apply Mach.within_ite
    | with_reducible apply Mach.within_ite2

theorem Mach.writeFrame_within {m₀ : Mach} (m : Mach) (p : Port) (e : FrameEnv) (h : List Byte) (apply : Mach → Nat × Mach)
    {ps : List Part} (h₀ : m₀.within m ps) (hv : ∀ n, m₀.within n ps → m₀.within (apply n).2 ps)
    (hs : [Part.clk, .regs, .pa, .pb, .mot, .flt, .ang, .aux, .evt, .grd, .buf, .eng, .flue, .sec, .nv, .bist, .mem, .free].all ps.contains = true) :
    m₀.within (Mach.writeFrame m p e h apply) ps := by
  have ha : m₀.within (m.arrival p e h true).2 ps := Mach.arrival_within _ _ _ _ _ h₀ hs
  have hd : [Part.pa, Part.pb].all ps.contains = true := by simp at hs ⊢; exact ⟨hs.2.2.1, hs.2.2.2.1⟩
  unfold Mach.writeFrame
  repeat' first
    | with_reducible assumption
    | decide
    | with_reducible apply hv
    | with_reducible apply Mach.frameDone_within
    | with_reducible apply Mach.updPort_within
    | with_reducible apply Mach.within_ite
    | with_reducible apply Mach.within_ite2
    | (with_reducible apply Mach.within_fst; assumption)
    | (with_reducible apply Mach.within_left; assumption)
    | dsimp only
    | split

theorem Mach.commitFrame_within {m₀ : Mach} (m : Mach) (p : Port) (e : FrameEnv) (queue : Byte) (blocks : BitVec 16) {ps : List Part} (h₀ : m₀.within m ps)
    (hs : [Part.clk, Part.regs, Part.pa, Part.pb, Part.mot, Part.flt, Part.ang, Part.aux, Part.evt, Part.grd, Part.buf, Part.eng, Part.flue, Part.sec, Part.nv, Part.bist, Part.mem, Part.free].all ps.contains = true) : m₀.within (Mach.commitFrame m p e queue blocks) ps := by
  refine Mach.within_step h₀ ?_ hs
  clear h₀ hs
  unfold Mach.commitFrame
  try dsimp only
  repeat' first
    | with_reducible assumption
    | with_reducible exact Mach.within_refl _ _
    | decide
    | with_reducible apply Mach.serveCommit_within
    | with_reducible apply Mach.writeFrame_within
    | (intro k hk; try dsimp only)

theorem Mach.textReadFrame_within {m₀ : Mach} (m : Mach) (p : Port) (e : FrameEnv) (count : Byte) {ps : List Part} (h₀ : m₀.within m ps)
    (hs : [Part.clk, Part.regs, Part.pa, Part.pb, Part.mot, Part.flt, Part.ang, Part.aux, Part.evt, Part.grd, Part.buf, Part.eng, Part.flue, Part.sec, Part.nv, Part.bist, Part.mem, Part.free].all ps.contains = true) : m₀.within (Mach.textReadFrame m p e count) ps := by
  refine Mach.within_step h₀ ?_ hs
  clear h₀ hs
  unfold Mach.textReadFrame
  try dsimp only
  repeat' first
    | with_reducible assumption
    | with_reducible exact Mach.within_refl _ _
    | decide
    | with_reducible apply Mach.readFrame_within
    | with_reducible apply Mach.takeReply_within
    | with_reducible apply Mach.within_ite
    | with_reducible apply Mach.within_ite2
    | (intro k hk; try dsimp only)

theorem Mach.portStatusFrame_within {m₀ : Mach} (m : Mach) (p : Port) (e : FrameEnv) {ps : List Part} (h₀ : m₀.within m ps)
    (hs : [Part.clk, Part.regs, Part.pa, Part.pb, Part.mot, Part.flt, Part.ang, Part.aux, Part.evt, Part.grd, Part.buf, Part.eng, Part.flue, Part.sec, Part.nv, Part.bist, Part.mem, Part.free].all ps.contains = true) : m₀.within (Mach.portStatusFrame m p e) ps := by
  refine Mach.within_step h₀ ?_ hs
  clear h₀ hs
  unfold Mach.portStatusFrame
  try dsimp only
  repeat' first
    | with_reducible assumption
    | with_reducible exact Mach.within_refl _ _
    | decide
    | with_reducible apply Mach.readFrame_within
    | (intro k hk; try dsimp only)

theorem Mach.sessionEnd_within {m₀ : Mach} (m : Mach) (p : Port) {ps : List Part} (h₀ : m₀.within m ps)
    (hs : [Part.regs, Part.pa, Part.pb, Part.nv].all ps.contains = true) : m₀.within (Mach.sessionEnd m p) ps := by
  refine Mach.within_step h₀ ?_ hs
  clear h₀ hs
  unfold Mach.sessionEnd
  try dsimp only
  repeat' first
    | with_reducible assumption
    | with_reducible exact Mach.within_refl _ _
    | decide
    | with_reducible apply Mach.endUpgrade_within
    | with_reducible apply Mach.setFld_within
    | with_reducible apply Mach.updPort_within

theorem Mach.sessionFrame_within {m₀ : Mach} (m : Mach) (p : Port) (e : FrameEnv) (confirm : Byte) {ps : List Part} (h₀ : m₀.within m ps)
    (hs : [Part.clk, Part.regs, Part.pa, Part.pb, Part.mot, Part.flt, Part.ang, Part.aux, Part.evt, Part.grd, Part.buf, Part.eng, Part.flue, Part.sec, Part.nv, Part.bist, Part.mem, Part.free].all ps.contains = true) : m₀.within (Mach.sessionFrame m p e confirm) ps := by
  refine Mach.within_step h₀ ?_ hs
  clear h₀ hs
  unfold Mach.sessionFrame
  try dsimp only
  repeat' first
    | with_reducible assumption
    | with_reducible exact Mach.within_refl _ _
    | decide
    | with_reducible apply Mach.pump_within
    | with_reducible apply Mach.sessionEnd_within
    | with_reducible apply Mach.writeFrame_within
    | with_reducible apply Mach.within_ite
    | with_reducible apply Mach.within_ite2
    | (intro k hk; try dsimp only)

theorem Mach.unnamedFrame_within {m₀ : Mach} (m : Mach) (p : Port) (e : FrameEnv) (byte0 : Byte) {ps : List Part} (h₀ : m₀.within m ps)
    (hs : [Part.clk, Part.regs, Part.pa, Part.pb, Part.mot, Part.flt, Part.ang, Part.aux, Part.evt, Part.grd, Part.buf, Part.eng, Part.flue, Part.sec, Part.nv, Part.bist, Part.mem, Part.free].all ps.contains = true) : m₀.within (Mach.unnamedFrame m p e _byte0) ps := by
  refine Mach.within_step h₀ ?_ hs
  clear h₀ hs
  unfold Mach.unnamedFrame
  try dsimp only
  repeat' first
    | with_reducible assumption
    | with_reducible exact Mach.within_refl _ _
    | decide
    | with_reducible apply Mach.applyHeld_within
    | with_reducible apply Mach.frameErr_within
    | with_reducible apply Mach.leaseRestart_within
    | with_reducible apply Mach.takesFrame_within
    | with_reducible apply Mach.within_ite
    | with_reducible apply Mach.within_ite2
    | (intro k hk; try dsimp only)
    | (with_reducible apply Mach.within_fst; assumption)
    | (with_reducible apply Mach.within_left; assumption)
    | (with_reducible apply Mach.within_mid; assumption)
    | dsimp only
    | split

theorem Mach.frameGap_within {m₀ : Mach} (m : Mach) (p : Port) (byte0 : Byte) {ps : List Part} (h₀ : m₀.within m ps)
    (hs : [Part.clk, Part.regs, Part.pa, Part.pb, Part.mot, Part.flt, Part.ang, Part.aux, Part.evt, Part.grd, Part.buf, Part.eng, Part.flue, Part.sec, Part.nv, Part.bist, Part.mem, Part.free].all ps.contains = true) : m₀.within (Mach.frameGap m p byte0) ps := by
  refine Mach.within_step h₀ ?_ hs
  clear h₀ hs
  unfold Mach.frameGap
  try dsimp only
  repeat' first
    | with_reducible assumption
    | with_reducible exact Mach.within_refl _ _
    | decide
    | with_reducible apply Mach.applyHeld_within
    | with_reducible apply Mach.frameErr_within
    | with_reducible apply Mach.leaseRestart_within
    | with_reducible apply Mach.takesFrame_within
    | with_reducible apply Mach.updPort_within
    | with_reducible apply Mach.within_ite
    | with_reducible apply Mach.within_ite2
    | (intro k hk; try dsimp only)
    | (with_reducible apply Mach.within_fst; assumption)
    | (with_reducible apply Mach.within_left; assumption)
    | (with_reducible apply Mach.within_mid; assumption)
    | dsimp only
    | split

theorem Mach.textByte_within {m₀ : Mach} (m : Mach) (p : Port) (b : Byte) {ps : List Part} (h₀ : m₀.within m ps)
    (hs : [Part.regs, Part.pa, Part.pb].all ps.contains = true) : m₀.within (Mach.textByte m p b) ps := by
  refine Mach.within_step h₀ ?_ hs
  clear h₀ hs
  unfold Mach.textByte
  try dsimp only
  repeat' first
    | with_reducible assumption
    | with_reducible exact Mach.within_refl _ _
    | decide
    | with_reducible apply Mach.frameErr_within
    | with_reducible apply Mach.updPort_within
    | with_reducible apply Mach.within_ite
    | with_reducible apply Mach.within_ite2

theorem Mach.detect_within {m₀ : Mach} (m : Mach) (p : Port) (ticks : Nat) {ps : List Part} (h₀ : m₀.within m ps)
    (hs : [Part.regs, Part.pa, Part.pb, Part.free].all ps.contains = true) : m₀.within (Mach.detect m p ticks) ps := by
  refine Mach.within_step h₀ ?_ hs
  clear h₀ hs
  unfold Mach.detect
  try dsimp only
  repeat' first
    | with_reducible assumption
    | with_reducible exact Mach.within_refl _ _
    | decide
    | with_reducible apply Mach.drawBit_within
    | with_reducible apply Mach.setFld_within
    | with_reducible apply Mach.updPort_within
    | with_reducible apply Mach.within_ite
    | with_reducible apply Mach.within_ite2
    | (with_reducible apply Mach.within_fst; assumption)
    | (with_reducible apply Mach.within_left; assumption)
    | (with_reducible apply Mach.within_mid; assumption)
    | dsimp only
    | split

theorem Mach.asyncByte_within {m₀ : Mach} (m : Mach) (p : Port) (ticks : Nat) (b : Byte) {ps : List Part} (h₀ : m₀.within m ps)
    (hs : [Part.regs, Part.pa, Part.pb, Part.free].all ps.contains = true) : m₀.within (Mach.asyncByte m p ticks b) ps := by
  refine Mach.within_step h₀ ?_ hs
  clear h₀ hs
  unfold Mach.asyncByte
  try dsimp only
  repeat' first
    | with_reducible assumption
    | with_reducible exact Mach.within_refl _ _
    | decide
    | with_reducible apply Mach.detect_within
    | with_reducible apply Mach.frameErr_within
    | with_reducible apply Mach.leaseRestart_within
    | with_reducible apply Mach.textByte_within
    | with_reducible apply Mach.updPort_within
    | with_reducible apply Mach.within_ite
    | with_reducible apply Mach.within_ite2

theorem Mach.textBytes_within {m₀ : Mach} (m : Mach) (p : Port) (x0 : List Byte) {ps : List Part} (h₀ : m₀.within m ps)
    (hs : [Part.regs, Part.pa, Part.pb].all ps.contains = true) : m₀.within (Mach.textBytes m p x0).2 ps := by
  refine Mach.within_step h₀ ?_ hs
  clear h₀ hs
  induction x0 generalizing m p with
  | nil =>
    unfold Mach.textBytes
    try dsimp only
    repeat' first
      | with_reducible assumption
      | with_reducible exact Mach.within_refl _ _
      | decide
      | with_reducible apply Mach.frameErr_within
      | with_reducible apply Mach.textByte_within
      | with_reducible apply Mach.updPort_within
      | with_reducible apply Mach.within_ite
      | with_reducible apply Mach.within_ite2
      | (with_reducible apply Mach.within_fst; assumption)
      | (with_reducible apply Mach.within_left; assumption)
      | (with_reducible apply Mach.within_mid; assumption)
      | dsimp only
      | split

  | cons w l ih =>
    unfold Mach.textBytes
    try dsimp only
    repeat' first
      | with_reducible assumption
      | with_reducible exact Mach.within_refl _ _
      | decide
      | with_reducible apply Mach.within_then (ih _ _)
      | with_reducible apply Mach.frameErr_within
      | with_reducible apply Mach.textByte_within
      | with_reducible apply Mach.updPort_within
      | with_reducible apply Mach.within_ite
      | with_reducible apply Mach.within_ite2
      | (with_reducible apply Mach.within_fst; assumption)
      | (with_reducible apply Mach.within_left; assumption)
      | (with_reducible apply Mach.within_mid; assumption)
      | dsimp only
      | split

theorem Mach.asyncFrame_within {m₀ : Mach} (m : Mach) (p : Port) (e : FrameEnv) (bs : List Byte) {ps : List Part} (h₀ : m₀.within m ps)
    (hs : [Part.clk, Part.regs, Part.pa, Part.pb, Part.mot, Part.flt, Part.ang, Part.aux, Part.evt, Part.grd, Part.buf, Part.eng, Part.flue, Part.sec, Part.nv, Part.bist, Part.mem, Part.free].all ps.contains = true) : m₀.within (Mach.asyncFrame m p e bs) ps := by
  refine Mach.within_step h₀ ?_ hs
  clear h₀ hs
  unfold Mach.asyncFrame
  try dsimp only
  repeat' first
    | with_reducible assumption
    | with_reducible exact Mach.within_refl _ _
    | decide
    | with_reducible apply Mach.commitFrame_within
    | with_reducible apply Mach.portStatusFrame_within
    | with_reducible apply Mach.regReadFrame_within
    | with_reducible apply Mach.regWriteFrame_within
    | with_reducible apply Mach.sessionFrame_within
    | with_reducible apply Mach.streamFrame_within
    | with_reducible apply Mach.textReadFrame_within
    | (intro k hk; try dsimp only)
    | (with_reducible apply Mach.within_fst; assumption)
    | (with_reducible apply Mach.within_left; assumption)
    | (with_reducible apply Mach.within_mid; assumption)
    | dsimp only
    | split

theorem Mach.asyncBytes_within {m₀ : Mach} (m : Mach) (p : Port) (e : TextEnv) (x0 : Nat) (x1 : List Byte) {ps : List Part} (h₀ : m₀.within m ps)
    (hs : [Part.clk, Part.regs, Part.pa, Part.pb, Part.mot, Part.flt, Part.ang, Part.aux, Part.evt, Part.grd, Part.buf, Part.eng, Part.flue, Part.sec, Part.nv, Part.bist, Part.mem, Part.free].all ps.contains = true) : m₀.within (Mach.asyncBytes m p e x0 x1) ps := by
  refine Mach.within_step h₀ ?_ hs
  clear h₀ hs
  induction x0 generalizing m x1 with
  | zero => unfold Mach.asyncBytes; exact Mach.within_refl _ _
  | succ k ih =>
    cases x1 with
    | nil => exact Mach.within_refl _ _
    | cons b bs =>
      unfold Mach.asyncBytes
      dsimp only
      split
      · exact Mach.within_then (ih _ _) (Mach.asyncFrame_within _ _ _ _ (Mach.within_refl _ _) rfl) rfl
      · exact Mach.within_then (ih _ _) (Mach.asyncByte_within _ _ _ _ (Mach.within_refl _ _) (by decide)) rfl

theorem Mach.textInput_within {m₀ : Mach} (m : Mach) (p : Port) (e : TextEnv) (bytes : List Byte) {ps : List Part} (h₀ : m₀.within m ps)
    (hs : [Part.clk, Part.regs, Part.pa, Part.pb, Part.mot, Part.flt, Part.ang, Part.aux, Part.evt, Part.grd, Part.buf, Part.eng, Part.flue, Part.sec, Part.nv, Part.bist, Part.mem, Part.free].all ps.contains = true) : m₀.within (Mach.textInput m p e bytes) ps := by
  refine Mach.within_step h₀ ?_ hs
  clear h₀ hs
  unfold Mach.textInput
  try dsimp only
  repeat' first
    | with_reducible assumption
    | with_reducible exact Mach.within_refl _ _
    | decide
    | with_reducible apply Mach.applyHeld_within
    | with_reducible apply Mach.asyncBytes_within
    | with_reducible apply Mach.drawBit_within
    | with_reducible apply Mach.edgeTaken_within
    | with_reducible apply Mach.frameErr_within
    | with_reducible apply Mach.leaseRestart_within
    | with_reducible apply Mach.takesFrame_within
    | with_reducible apply Mach.textBytes_within
    | with_reducible apply Mach.within_ite
    | with_reducible apply Mach.within_ite2
    | (intro k hk; try dsimp only)
    | (with_reducible apply Mach.within_fst; assumption)
    | (with_reducible apply Mach.within_left; assumption)
    | (with_reducible apply Mach.within_mid; assumption)
    | dsimp only
    | split

theorem Mach.breakLow_within {m₀ : Mach} (m : Mach) (p : Port) (ticks : Nat) {ps : List Part} (h₀ : m₀.within m ps)
    (hs : [Part.regs, Part.pa, Part.pb].all ps.contains = true) : m₀.within (Mach.breakLow m p ticks) ps := by
  refine Mach.within_step h₀ ?_ hs
  clear h₀ hs
  unfold Mach.breakLow
  try dsimp only
  repeat' first
    | with_reducible assumption
    | with_reducible exact Mach.within_refl _ _
    | decide
    | with_reducible apply Mach.setFld_within
    | with_reducible apply Mach.updPort_within
    | with_reducible apply Mach.within_ite
    | with_reducible apply Mach.within_ite2

theorem Mach.replySend_within {m₀ : Mach} (m : Mach) (p : Port) (idle : Nat) (readBack : Byte) {ps : List Part} (h₀ : m₀.within m ps)
    (hs : [Part.regs, Part.pa, Part.pb].all ps.contains = true) : m₀.within (Mach.replySend m p idle readBack) ps := by
  refine Mach.within_step h₀ ?_ hs
  clear h₀ hs
  unfold Mach.replySend
  try dsimp only
  repeat' first
    | with_reducible assumption
    | with_reducible exact Mach.within_refl _ _
    | decide
    | with_reducible apply Mach.frameErr_within
    | with_reducible apply Mach.takeReply_within
    | with_reducible apply Mach.updPort_within
    | with_reducible apply Mach.within_ite
    | with_reducible apply Mach.within_ite2
    | (with_reducible apply Mach.within_fst; assumption)
    | (with_reducible apply Mach.within_left; assumption)
    | (with_reducible apply Mach.within_mid; assumption)
    | dsimp only
    | split

theorem Mach.leaseExpiry_within {m₀ : Mach} (m : Mach) (p : Port) {ps : List Part} (h₀ : m₀.within m ps)
    (hs : [Part.regs, Part.pa, Part.pb].all ps.contains = true) : m₀.within (Mach.leaseExpiry m p) ps := by
  refine Mach.within_step h₀ ?_ hs
  clear h₀ hs
  unfold Mach.leaseExpiry
  try dsimp only
  repeat' first
    | with_reducible assumption
    | with_reducible exact Mach.within_refl _ _
    | decide
    | with_reducible apply Mach.intBit_within
    | with_reducible apply Mach.updPort_within
    | with_reducible apply Mach.within_ite
    | with_reducible apply Mach.within_ite2
    | (with_reducible apply Mach.within_fst; assumption)
    | (with_reducible apply Mach.within_left; assumption)
    | (with_reducible apply Mach.within_mid; assumption)
    | dsimp only
    | split

theorem Mach.gatedWriteApply_within {m₀ : Mach} (m : Mach) (p : Port) {ps : List Part} (h₀ : m₀.within m ps)
    (hs : [Part.clk, Part.regs, Part.pa, Part.pb, Part.mot, Part.flt, Part.ang, Part.aux, Part.evt, Part.grd, Part.buf, Part.eng, Part.flue, Part.sec, Part.nv, Part.bist, Part.mem, Part.free].all ps.contains = true) : m₀.within (Mach.gatedWriteApply m p) ps := by
  refine Mach.within_step h₀ ?_ hs
  clear h₀ hs
  unfold Mach.gatedWriteApply
  try dsimp only
  repeat' first
    | with_reducible assumption
    | with_reducible exact Mach.within_refl _ _
    | decide
    | with_reducible apply Mach.applyHeld_within

theorem Mach.windowAccess_within {m₀ : Mach} (m : Mach) (ag : Agent) (addr : Nat) (w : Option Word) {ps : List Part} (h₀ : m₀.within m ps)
    (hs : [Part.clk, Part.regs, Part.pa, Part.pb, Part.mot, Part.flt, Part.ang, Part.aux, Part.evt, Part.grd, Part.buf, Part.eng, Part.flue, Part.sec, Part.nv, Part.bist, Part.mem, Part.free].all ps.contains = true) : m₀.within (Mach.windowAccess m ag addr w) ps := by
  refine Mach.within_step h₀ ?_ hs
  clear h₀ hs
  unfold Mach.windowAccess
  try dsimp only
  repeat' first
    | with_reducible assumption
    | with_reducible exact Mach.within_refl _ _
    | decide
    | with_reducible apply Mach.applyHeld_within
    | with_reducible apply Mach.leaseRestart_within
    | with_reducible apply Mach.oneWrite_within
    | with_reducible apply Mach.regRead_within
    | with_reducible apply Mach.updPort_within
    | with_reducible apply Mach.within_ite
    | with_reducible apply Mach.within_ite2
    | (with_reducible apply Mach.within_fst; assumption)
    | (with_reducible apply Mach.within_left; assumption)
    | (with_reducible apply Mach.within_mid; assumption)
    | dsimp only
    | split

end Sys2Proof.Machine
end

