-- ==== Sys2Proof/Laws/WithinRowsSignal.lean ====
section
/-! SUPPORT. The reach of every operation of Machine/RowsSignal.lean. -/

set_option linter.unusedTactic false
set_option linter.unusedSimpArgs false
set_option linter.unusedVariables false
set_option linter.unreachableTactic false
set_option linter.unnecessarySimpa false

namespace Sys2Proof.Machine

theorem Mach.groupStart_within {m₀ : Mach} (m : Mach) (g : Nat) {ps : List Part} (h₀ : m₀.within m ps)
    (hs : [Part.regs, Part.mot, Part.flt, Part.ang, Part.aux].all ps.contains = true) : m₀.within (Mach.groupStart m g) ps := by
  refine Mach.within_step h₀ ?_ hs
  clear h₀ hs
  unfold Mach.groupStart
  try dsimp only
  repeat' first
    | with_reducible assumption
    | with_reducible exact Mach.within_refl _ _
    | decide
    | with_reducible apply Mach.angJoin_within
    | with_reducible apply Mach.sourceStart_within
    | with_reducible apply Mach.updChan_within
    | with_reducible apply Mach.within_ite
    | with_reducible apply Mach.within_ite2

end Sys2Proof.Machine
end

