-- ==== Sys2Proof/WellFormed.lean ====
section
/-! DEFINITION. Which commands are well-formed: the operands of a row lie where the row's rule puts them. `exec` gives an ill-formed
command a meaning too (the wire can carry any bits); a statement may ask for well-formedness where a rule speaks of one row's own
words only. -/

namespace Sys2Proof

open Machine

/-- The words that a COUNT byte names: 0 stands for 256 (R155). -/
def wordsNamed (c : Byte) : Nat := if c = 0 then 256 else c.toNat

/-- A first byte that names a frame type (R154). -/
def frameType (b : Byte) : Bool := decide (0x80 ≤ b.toNat) && decide (b.toNat ≤ 0x86)

/-- A first byte of the text set (R154). -/
def textByte (b : Byte) : Bool :=
  (decide (0x20 ≤ b.toNat) && decide (b.toNat ≤ 0x7E)) || decide (b = 0x0D) || decide (b = 0x0A) || decide (b = 0x08)

/-- The register at a 16-bit address is of a class (R96); address bits [15:14] are the access kind (R89). -/
def classAt (addr : Nat) (c : RegCls) : Bool :=
  match regDef (addr % 0x4000) with
  | some d => decide (d.cls = c)
  | none => false

/-- A direct address of a status register that collects its events over windows (R721, R298, R384, R429, R556, R595, R632). -/
def windowedStatus (a : Nat) : Bool :=
  classAt a .status &&
    (decide (a = 0x0C3C) || decide (a = 0x1428) || decide (a = 0x1A08) || decide (a = 0x1C04) || decide (a = 0x2724) ||
      decide (a = 0x281C) || (decide (0x1800 ≤ a) && decide (a < 0x1A00)) || (decide (0x1C40 ≤ a) && decide (a < 0x1CE0)))

/-- A word for `FLT_CLIB` starts a transfer (R347). -/
def coefGo (w : Word) : Bool := bitAt w 0

/-- No worker is named twice. -/
def oneEach (ws : List (Fin 32)) : Bool := decide ws.Nodup

/-- Two certificates fit the certificate store (R637). -/
def certsFit (l1 l2 : Nat) : Bool := decide (16 + 4 * ((l1 + 3) / 4) + l2 ≤ 8192)

/-- Modulator samples of the guard path within full scale (R264, R480). -/
def quadOk (q : Quad) : Bool :=
  [q.a, q.b, q.c, q.d].all (fun s => decide (-(2 ^ 19) ≤ s.v) && decide (s.v ≤ 2 ^ 19))

/-- A command whose operands lie where its row puts them. -/
def WellFormed (i : Instr) : Bool :=
  match i with
  | .textInput _ e _ => decide (e.partialBits < 8)
  | .regRead _ _ _ _ => true
  | .regWrite _ _ _ count words => decide (words.length ≤ wordsNamed count)
  | .streamRead _ _ _ _ _ => true
  | .textRead _ _ _ => true
  | .portStatus _ _ => true
  | .commit _ _ _ _ => true
  | .sessionReset _ _ _ => true
  | .unnamedFrame _ _ byte0 => !frameType byte0 && !textByte byte0
  | .asyncFrameGap _ byte0 => frameType byte0
  | .breakLow _ _ => true
  | .replyByteSend _ _ _ => true
  | .selWake _ _ => true
  | .leaseExpiry _ => true
  | .semClaim _ _ _ => true
  | .semRelease _ _ _ => true
  | .intsrcSeqIncrement _ => true
  | .statusClear _ addr _ => classAt addr.toNat .status
  | .counterClear _ addr _ => classAt addr.toNat .counter
  | .windowSeqIncrement addr => windowedStatus addr.toNat
  | .dataWindowAccess _ addr _ => (windowOf (addr.toNat % 0x4000)).isSome
  | .gatedWriteApply _ => true
  | .clockGate _ => true
  | .persistWriteDone _ => true
  | .getVerb _ => true
  | .setVerb _ => true
  | .readVerb _ => true
  | .writeVerb _ => true
  | .modeVerb _ => true
  | .streamVerb _ => true
  | .commitVerb _ => true
  | .sealVerb _ => true
  | .authBegin _ => true
  | .authPub _ => true
  | .authRespond _ => true
  | .authEnd _ => true
  | .authStatus _ => true
  | .keyPub _ => true
  | .keyCert _ => true
  | .keyEnrol _ => true
  | .keyRetire _ => true
  | .engineStart _ => true
  | .engineStop _ => true
  | .engineResume _ => true
  | .engineLoad _ => true
  | .engineStatus _ => true
  | .eventStart _ => true
  | .eventStop _ => true
  | .eventLoad _ => true
  | .eventStatus _ => true
  | .flueList _ => true
  | .flueScan _ answers => oneEach (answers.map ScanAnswer.w)
  | .flueAway _ => true
  | .flueBack _ => true
  | .flueUpgrade _ => true
  | .testRun _ => true
  | .testShow _ => true
  | .spareShow _ => true
  | .spareUse _ => true
  | .upgradeBegin _ => true
  | .upgradeData _ => true
  | .upgradeCommit _ _ => true
  | .upgradeAbort _ => true
  | .upgradeStatus _ => true
  | .lockVerb _ => true
  | .whoVerb _ => true
  | .helpVerb _ => true
  | .replyLostTimeout _ => true
  | .sourceStart _ => true
  | .holdUpdate _ => true
  | .filterOutput _ _ => true
  | .castleRequest _ _ _ => true
  | .syncArm _ _ _ => true
  | .synchronisingReset => true
  | .coefLoad _ _ w => coefGo w && !bitAt w 28
  | .coefSave _ _ w => coefGo w && bitAt w 28
  | .coefTransferDone _ => true
  | .angleRateOutput _ => true
  | .referenceInstant _ => true
  | .keyMiss => true
  | .spinLow => true
  | .revolutionEnd => true
  | .keyEdge _ _ => true
  | .auxConversion _ _ => true
  | .checkSlot _ => true
  | .breakComparator _ _ => true
  | .excitationChange => true
  | .excFault _ => true
  | .leadCal _ _ _ => true
  | .leadCalDone => true
  | .leadCalTimeout => true
  | .damperEdge _ _ => true
  | .damperStuck => true
  | .heldRecordsWrite => true
  | .smTimerExpiry _ _ => true
  | .smStop _ => true
  | .smWaitc _ => true
  | .smWaite _ => true
  | .smTime _ => true
  | .smCnt _ => true
  | .smJmp _ => true
  | .smJif _ => true
  | .smEmit _ => true
  | .smOut _ => true
  | .smCapt _ => true
  | .smSetf _ => true
  | .smClrf _ => true
  | .evtSmstart _ _ _ => true
  | .evtSmstop _ _ _ => true
  | .evtFlagset _ _ _ => true
  | .evtFlagclr _ _ _ => true
  | .guardPeriod ins _ => quadOk ins.x && quadOk ins.y && quadOk ins.z && quadOk ins.g
  | .guardArm _ _ _ => true
  | .guardAck _ _ _ => true
  | .guardPinFault _ _ _ => true
  | .guardShortRelease _ _ => true
  | .faultPulse => true
  | .blockTimeout _ => true
  | .blockReadable _ => true
  | .sealTimer => true
  | .sealCompose => true
  | .sealSigned => true
  | .apply _ _ _ => true
  | .queuePolicyWrite _ _ _ _ => true
  | .trig _ _ _ _ => true
  | .rearm _ _ _ _ => true
  | .overwriteRunEnd _ => true
  | .engineTick _ _ => true
  | .engJmp _ _ _ => true
  | .djnz _ _ _ => true
  | .engSet _ _ _ => true
  | .delay _ _ _ => true
  | .delayEnd _ _ _ => true
  | .waitpin _ _ _ => true
  | .waitflag _ _ _ => true
  | .waitirq _ _ _ => true
  | .shiftout _ _ _ => true
  | .shiftin _ _ _ => true
  | .shiftEnd _ _ _ => true
  | .pull _ _ _ => true
  | .push _ _ _ => true
  | .irq _ _ _ => true
  | .engStart _ _ _ => true
  | .engStop _ _ _ => true
  | .engResume _ _ _ => true
  | .engIrq _ _ _ => true
  | .engRxack _ _ _ => true
  | .txd _ _ _ _ _ => true
  | .engPin _ _ _ _ => true
  | .syncPulseOut => true
  | .syncPulseIn _ _ => true
  | .syncHoldover => true
  | .flueTload _ _ _ => true
  | .scanTimer answers => oneEach (answers.map ScanAnswer.w)
  | .fluePull _ m => m.blocks.all (fun ws => decide (ws.length = 1024))
  | .forwardLine _ => true
  | .awaySaturation _ => true
  | .challengeExpiry _ => true
  | .authLockoutEnd _ => true
  | .pwrDomWrite _ _ _ => true
  | .pwrModeEnter _ _ _ => true
  | .selfTestEnd _ => true
  | .entrySwitchOff => true
  | .wakeTimer => true
  | .powerOnRelease _ => true
  | .resetN _ _ => true
  | .vholdArmed => true
  | .startComplete => true
  | .firmwareActivation _ => true
  | .slotGood => true
  | .powerFail _ => true
  | .commitDone _ => true
  | .vioLoss => true
  | .vioReturn _ => true
  | .bistRun _ _ _ => true
  | .spareUseGo _ _ _ => true
  | .spareCopyDone => true
  | .registerWrite _ addr _ => classAt addr.toNat .control && (windowOf (addr.toNat % 0x4000)).isNone
  | .storeFillDone _ _ => true
  | .entryCommitPoint => true
  | .retentionDip _ => true
  | .vholdAbsent => true
  | .keyGeneration cert caCert => certsFit (cert.head.length + 118 + cert.tail.length) caCert.length
  | .pulsedVexc _ => true

end Sys2Proof
end

