-- ==== Sys2Proof/Tests/Slice0.lean ====
section
/-! SUPPORT. Tests. For every statement of Certificates/Slice0/Obligations.lean that has hypotheses, witnesses of the same name: states
and operands that meet the hypotheses of each of its clauses together. Then an ill-formed command for each check of WellFormed, the
state after reset, and worked values of the manual. -/

open Sys2Proof Sys2Proof.Machine

namespace Sys2Proof.Tests

set_option Elab.async false

/-- The block in Run with every domain ON, its start over, no source started: registers at their reset values, no line waiting. -/
def base : Mach :=
  { Mach.reset with
    clk := { Clocks.reset with start := none, now := 10000000, ts := 10000000, vholdArmed := true, vio := true }
    flt := ⟨List.replicate 13 GroupState.idle, none, none⟩
    bist := { SelfTest.reset with run := none } }

/-- The block with these registers beside their reset values (addresses rising). -/
def regsAre (m : Mach) (ws : List (Nat × Word)) : Mach := { m with regs := { m.regs with words := ws } }

/-- A block of a queue that is readable or not. -/
def qBlock (readable : Bool) : Block := ⟨0, 5, 0, List.replicate 1024 0, readable, 0, 0⟩

/-- The block after a command. -/
def go (i : Instr) (m : Mach) : Mach :=
  match exec i ⟨m, []⟩ with
  | .next t => t.m
  | _ => m

/-- A frame with header `h` that runs for `k` bytes behind its turnaround, its CRC right. -/
def readEnv (m : Mach) (p : Port) (h : List Byte) (k : Nat) : FrameEnv :=
  let e : FrameEnv := ⟨0, 0, 0, false, 0, 0, 0, false, 0, none⟩
  let n := m.headBits p e h + m.turnBits p + 8 * (k + (m.crcOn p).toNat)
  ⟨0, 0, crc8 (m.headBytes p e h), false, n, n, 100000, false, n, none⟩

/-- A queue has room where its open block is this one. -/
theorem room {m : Mach} {q k : Nat} (o : OpenBlock) (h : m.taking = true ∧ (m.q q).banks ≠ 0 ∧ (m.q q).run = .run ∧
    (m.q q).trigAt = none ∧ q < m.buf.queues.length ∧ (q = 3 → m.buf.q3Tail.1 ≠ m.clk.now) ∧ (m.q q).openBlk = some o ∧
    o.words.length + k < 1000) : m.roomFor q k :=
  ⟨h.1, h.2.1, h.2.2.1, h.2.2.2.1, h.2.2.2.2.1, h.2.2.2.2.2.1, o, h.2.2.2.2.2.2⟩

/-- An open block of `n` words. -/
def openOf (n : Nat) : OpenBlock := ⟨List.replicate n 0, 0, false, false⟩
/-- No context of an engine shifts or delays, where none that exists does. -/
theorem all_short {m : Mach} {n : Nat} (h : (m.engine n).ctxs.all (fun x => !x.op.long) = true) :
    ∀ k, (m.ctx n k).op.long = false := by
  intro k
  unfold Mach.ctx
  rw [List.getD_eq_getElem?_getD]
  cases hk : (m.engine n).ctxs[k]? with
  | none => rfl
  | some x => simpa using List.all_eq_true.mp h x (List.mem_of_getElem? hk)

theorem witness_EventGoRegisters : base.canonical = true ∧ base.takesWrite (.port .a) .setBits 0x2000 ∧
    base.takesWrite .core .direct 0x2004 ∧ base.takesWrite (.port .b) .direct 0x200C ∧ base.takesWrite .event .direct 0x2010 := by
  simp only [Mach.takesWrite]; decide +kernel

/-- No clear write-back has been made: no event of the cycle takes one back. -/
theorem no_clear {m : Mach} (h : m.regs.cleared = []) : m.noClear := by
  unfold Mach.noClear
  rw [h]
  simp

theorem witness_TextReadAndPortStatus :
    (base.arrives .a (readEnv base .a [0x83, 2] 4) [0x83, 2] ∧ base.runsOut .a (readEnv base .a [0x83, 2] 4) [0x83, 2] (2 + countOf 2) ∧
      (base.port .a).async = false ∧ (base.port .a).executing = none) ∧
    base.arrives .b (readEnv base .b [0x84] 5) [0x84] ∧ base.runsOut .b (readEnv base .b [0x84] 5) [0x84] 5 := by
  simp only [Mach.arrives, Mach.listens, Mach.runsOut]; decide +kernel

/-- Q0 holds a readable block. -/
def withBlock : Mach := base.updQ 0 (fun q => { q with unread := [qBlock true] })

theorem witness_CommitAndSessionReset : withBlock.canonical = true ∧
    (withBlock.arrives .a (readEnv withBlock .a [0x85, 0, 0, 1] 0) (0x85 :: (0 : Byte) :: natBytes 2 1) ∧
      withBlock.streamCheck .a 0 = 0 ∧ (withBlock.port .a).moved.getLsbD 0 = false ∧
      1 ≤ (withBlock.q 0).readable.length ∧ (withBlock.q 0).run ≠ .full ∧ (withBlock.q 0).discRun = none) ∧
    base.arrives .b (readEnv base .b [0x86, 0xA5] 0) [0x86, 0xA5] ∧ (base.port .b).executing = none := by
  simp only [Mach.arrives, Mach.listens]; decide +kernel

/-- Port A in the async personality, its rate detected: 115,200 bit/s. -/
def asyncA : Mach := { regsAre base [(0x408, 115200)] with pa := { base.pa with async := true, baudSeen := true } }

/-- Port B has cleared port A's frame counter in this FOSC cycle. -/
def clearing : Mach :=
  { base with
    regs := { base.regs with cleared := [⟨some .b, portBase .a + 0x18, 0x07000003, base.clk.now, false⟩] }
    pb := { base.pb with lastAt := some base.clk.now } }

theorem witness_DiscardedFramesCount :
    (base.canonical = true ∧ base.noClear ∧ base.listens .a 0 false 0) ∧
    (base.takesWrite (.port .b) .direct (portBase .a + 0x18) ∧
      bitsAt (0 : Word) 24 8 = bitsAt (base.reg (portBase .a + 0x18)) 24 8) ∧
    (clearing.canonical = true ∧
      clearing.regs.cleared = [⟨some .b, portBase .a + 0x18, 0x07000003, clearing.clk.now, false⟩] ∧
      (clearing.port .b).lastAt = some clearing.clk.now ∧ clearing.listens .a 0 false 0) ∧
    (asyncA.canonical = true ∧ asyncA.noClear ∧ asyncA.listens .a 0 false 0 ∧ (asyncA.port .a).async = true ∧
      0x80 ≤ (0x86 : Byte).toNat ∧ (0x86 : Byte).toNat ≤ 0x86) := by
  simp only [Mach.listens, Mach.noClear, Mach.takesWrite]; decide +kernel

/-- Port B's lease has just run out; port A's INTSRC owes an increment. -/
def leaseOut : Mach :=
  { regsAre base [(0x410, 0x01000040), (0x420, 0x00010000)] with
    clk := { base.clk with now := second + 5 }
    pb := { base.pb with leaseSince := some 5, sems := 3 }
    pa := { base.pa with incPending := true, lastInc := second - 507 } }

theorem witness_LeasePacingAndBreak : leaseOut.canonical = true ∧ asyncA.canonical = true ∧ leaseOut.noClear ∧
    ((leaseOut.port .b).leaseSince = some 5 ∧ leaseOut.fld (portBase .b) 16 6 ≠ 0 ∧
      5 + leaseOut.fld (portBase .b) 16 6 * second ≤ leaseOut.clk.now ∧ leaseOut.on 5 = true) ∧
    ((leaseOut.port .a).incPending = true ∧ (leaseOut.port .a).lastInc + 512 ≤ leaseOut.clk.now) ∧
    (base.takesWrite (.port .a) .direct (intsrc .b) ∧ (regDef (intsrc .b)).isSome = true ∧ (base.port .b).incPending = false ∧
      base.seqPending (intsrc .b) = none ∧ bitsAt (0x01000040 : Word) 24 8 = bitsAt (base.reg (intsrc .b)) 24 8) ∧
    (asyncA.portUp .a = true ∧ (asyncA.port .a).async = true ∧ asyncA.baudRate .a ≠ 0 ∧
      20 * second ≤ 20000 * asyncA.baudRate .a) := by
  simp only [Mach.noClear, Mach.takesWrite]; decide +kernel

/-- Port A, async, with a reply byte to send. -/
def sending : Mach := { asyncA with pa := { asyncA.pa with reply := [0x6F], finalLeft := 1 } }

/-- Port A with a data line that has waited 1 s for room. -/
def lostLine : Mach :=
  { base with
    clk := { base.clk with now := second + 7 }
    pa := { base.pa with
      reply := List.replicate 1990 0x61
      executing := some ⟨.room 7, [], [List.replicate 200 0x61], replyLine false (finalText 0), false⟩ } }

theorem witness_TextLinesAndReplies :
    (base.listens .a 0 false 0 ∧ (base.port .a).async = false ∧ (base.addressed .a = true → (0 : Byte) ≠ 0xFF) ∧
      (ascii "who").length ≤ 160 ∧ (∀ b ∈ ascii "who", isText b = true ∧ b ≠ 8 ∧ b ≠ 10 ∧ b ≠ 13) ∧
      (base.port .a).line = [] ∧ (base.port .a).tooLong = false ∧ (base.port .a).waiting = none) ∧
    (sending.canonical = true ∧ sending.portUp .a = true ∧ (sending.port .a).async = true ∧ sending.baudRate .a ≠ 0 ∧
      2 * second ≤ 2000 * sending.baudRate .a ∧ (sending.port .a).reply = [0x6F] ∧ (sending.port .a).executing = none) ∧
    (lostLine.canonical = true ∧ lostLine.noClear ∧
      (lostLine.port .a).executing = some ⟨.room 7, [], [List.replicate 200 0x61], replyLine false (finalText 0), false⟩ ∧
      7 + second ≤ lostLine.clk.now ∧ (lostLine.port .a).dropReply = false ∧ (lostLine.port .a).async = false ∧
      lostLine.on 5 = true ∧
      (lostLine.port .a).reply.length + (replyLine false (ascii "lost " ++ decText ([List.replicate 200 (0x61 : Byte)].map List.length).sum)).length +
        (replyLine false (finalText 0)).length ≤ replyRoom) := by
  simp only [Mach.listens, Mach.noClear]; decide +kernel

/-- Port A's first store is being filled from Q0; its second holds Q0's words. -/
def filling : Mach :=
  { withBlock with
    pa := { base.pa with
      fill := some ⟨false, 0, 0, 10000000 - 12544⟩, store1 := some ⟨0, (List.range 256).map (fun i => (i, 0))⟩ } }

theorem witness_StreamStoresFillAndServe :
    ((filling.port .a).fill = some ⟨false, 0, 0, 10000000 - 12544⟩ ∧ 10000000 - 12544 + 12544 ≤ filling.clk.now ∧
      filling.on 5 = true) ∧
    (filling.arrives .a (readEnv filling .a [0x82, 0, 0, 0, 0, 1] 5) (0x82 :: (0 : Byte) :: natBytes 3 0 ++ [1]) ∧
      filling.runsOut .a (readEnv filling .a [0x82, 0, 0, 0, 0, 1] 5) (0x82 :: (0 : Byte) :: natBytes 3 0 ++ [1])
        (1 + 4 * countOf 1) ∧
      filling.streamCheck .a 0 = 0 ∧ 0 < (filling.q 0).readable.length * 1024 ∧
      (filling.port .a).storeFor 0 ((filling.q 0).posOf 0) = some (true, List.replicate 256 0) ∧
      countOf 1 ≤ (List.replicate 256 (0 : Word)).length) := by
  simp only [Mach.arrives, Mach.listens, Mach.runsOut]; decide +kernel

theorem witness_PlainRegisterWrite : base.canonical = true ∧ (0x1008 : Nat) ∈ plainRegs ∧ base.takesWrite (.port .a) .toggleBits 0x1008 ∧
    ∃ d, regDef 0x1008 = some d ∧ d.inRange (d.written .toggleBits (base.reg 0x1008) 1) = true := by
  simp only [Mach.takesWrite]
  exact ⟨by decide +kernel, by decide +kernel, by decide +kernel, (regDef 0x1008).get (by decide +kernel), by decide +kernel, by decide +kernel⟩

theorem witness_RefusedWritesChangeNothing : base.canonical = true ∧ base.portUp .a = true ∧ (base.port .a).held = [] ∧
    base.regHeader (.port .a) true (0x0002 : BitVec 16).toNat 1 ≠ 0 ∧ (0x1408 : Nat) ∈ plainRegs ∧
    base.takesWrite (.port .a) .direct 0x1408 ∧
    ∃ d, regDef 0x1408 = some d ∧ d.inRange (d.written .direct (base.reg 0x1408) 0) = false := by
  simp only [Mach.takesWrite]
  exact ⟨by decide +kernel, by decide +kernel, by decide +kernel, by decide +kernel, by decide +kernel, by decide +kernel,
    (regDef 0x1408).get (by decide +kernel), by decide +kernel, by decide +kernel⟩

/-- `PWR_STATUS` and `BUF_BLKS` hold events; the window of a motion status register has ended. -/
def counted : Mach := { regsAre base [(0x820, 0x05000020), (0xC3C, 0x01000001), (0x2C1C, 0x07000003)] with
  regs := { (regsAre base [(0x820, 0x05000020), (0xC3C, 0x01000001), (0x2C1C, 0x07000003)]).regs with
    pendingSeq := [(0xC3C, 10000000)] } }

theorem witness_SeqWriteBacks : counted.canonical = true ∧
    ((∃ d, regDef 0x820 = some d ∧ d.cls = .status) ∧ counted.takesWrite (.port .a) .direct 0x820 ∧
      counted.seqPending 0x820 = none ∧ bitsAt 0x05000020 24 8 = bitsAt (counted.reg 0x820) 24 8) ∧
    ((∃ d, regDef 0x2C1C = some d ∧ d.cls = .counter) ∧ counted.takesWrite (.port .a) .direct 0x2C1C ∧
      bitsAt 0x07000000 24 8 = bitsAt (counted.reg 0x2C1C) 24 8 ∧ bitsAt 0x06000000 24 8 ≠ bitsAt (counted.reg 0x2C1C) 24 8) ∧
    ((∃ d, regDef 0xC3C = some d) ∧ counted.takesWrite (.port .a) .direct 0xC3C ∧
      counted.seqPending 0xC3C = some 10000000 ∧ 10000000 ≤ counted.ts) := by
  simp only [Mach.takesWrite]
  refine ⟨by decide +kernel, ⟨⟨(regDef 0x820).get (by decide +kernel), by decide +kernel, by decide +kernel⟩, ?_⟩,
    ⟨⟨(regDef 0x2C1C).get (by decide +kernel), by decide +kernel, by decide +kernel⟩, ?_⟩,
    ⟨⟨(regDef 0xC3C).get (by decide +kernel), by decide +kernel⟩, ?_⟩⟩ <;> decide +kernel

/-- The three windows' indices at their last words; the event engine, the engines and the banks at rest. -/
def windows : Mach := regsAre base [(0x1300, 1535), (0x2300, 1023), (0x2700, 1023)]

theorem witness_WindowsReadAndWrite : windows.canonical = true ∧
    (windows.takesWrite (.port .a) .setBits 0x2304 ∧ (windows.reg 0x2300).toNat = 1023 ∧ 1023 < 1024 ∧ windows.smBusy = false ∧
      windows.owned = false) ∧
    (windows.takesWrite (.port .a) .direct 0x2704 ∧ (windows.reg 0x2700).toNat = 1023 ∧ windows.engActive (1023 / 256) = false ∧
      windows.engReserved (1023 / 256) = false) ∧
    (windows.takesWrite (.port .a) .direct 0x1304 ∧ (windows.reg 0x1300).toNat = 1535 ∧
      windows.bankBusy (1535 / 128) (decide (64 ≤ 1535 % 128)) = false) ∧
    (windowOf 0x2304 = some (0x2300, 1024) ∧ windows.portUp .b = true ∧ (windows.port .b).held = [] ∧
      windows.regHeader (.port .b) false 0x2304 1 = 0 ∧ (windows.reg 0x2300).toNat < 1024) ∧
    ((regsAre base [(0x2300, 1024)]).canonical = true ∧ (regsAre base [(0x2300, 1024)]).regHeader (.port .b) false 0x2304 1 = 0 ∧
      1024 ≤ ((regsAre base [(0x2300, 1024)]).reg 0x2300).toNat) := by
  simp only [Mach.takesWrite]; decide +kernel

/-- The event engine's block is gated, and port A holds a write for the power block, gated too. -/
def gatedWrite : Mach :=
  { base with
    regs := { base.regs with gated := [blockOf 0x818], lastAccess := [(8, 10000000 - microsUp 100)] }
    pa := { base.pa with held := [(0x818 + kindBits .toggleBits, 1)] } }

theorem witness_GatedClocks :
    (gatedWrite.on (blockDomain 8) = true ∧ gatedWrite.isGated 8 = false ∧
      ∀ at_, gatedWrite.regs.lastAccess.find? (fun x => x.1 == 8) = some (8, at_) → at_ + microsUp 100 ≤ gatedWrite.clk.now) ∧
    gatedWrite.canonical = true ∧ (0x818 : Nat) ∈ plainRegs ∧ (gatedWrite.port .a).held = [(0x818 + kindBits .toggleBits, 1)] ∧
    gatedWrite.semRefuses .a [0x818] = false ∧ gatedWrite.accessCode (blockOf 0x818) [0x818] = 0 ∧
    ∃ d, regDef 0x818 = some d ∧ d.inRange (d.written .toggleBits (gatedWrite.reg 0x818) 1) = true := by
  refine ⟨⟨by decide +kernel, by decide +kernel, fun at_ h => ?_⟩, by decide +kernel, by decide +kernel, by decide +kernel,
    by decide +kernel, by decide +kernel, (regDef 0x818).get (by decide +kernel), by decide +kernel, by decide +kernel⟩
  have h' : some ((8 : Nat), 10000000 - microsUp 100) = some (8, at_) := h
  injection h' with h'
  injection h' with _ h'
  subst h'
  decide +kernel

/-- A persistent write of `PWR_PON` is in flight. -/
def persisting : Mach := { base with nv := { base.nv with write := some ⟨0x808, 0, 1, some .a⟩ } }

theorem witness_PersistentWritesEnd : persisting.canonical = true ∧ persisting.nv.write = some ⟨0x808, 0, 1, some .a⟩ ∧
    (0x808 : Nat) ≠ 0x3000 ∧ (0x808 : Nat) ≠ 0x3808 ∧ (0x808 : Nat) ≠ 0x380C ∧ (0x808 : Nat) < 0x4000 ∧
    ((some Port.a) = none → (0x808 : Nat) < 0x1800 ∨ 0x1A00 ≤ 0x808) ∧ persistMask 0x808 ≠ 0 ∧
    (∀ p, (persisting.port p).executing = none ∧ (persisting.port p).held = []) ∧ persisting.on 5 = true ∧ persisting.noClear ∧
    persisting.aux.lcal = none :=
  ⟨by decide +kernel, rfl, by decide, by decide, by decide, by decide, by decide, by decide +kernel,
    fun p => by cases p <;> exact ⟨rfl, rfl⟩, by decide +kernel, no_clear rfl, rfl⟩

/-- The header of a read of 4 words of the power block. -/
def readHead : List Byte := 0x80 :: addrBytes 0x800 ++ [4]

theorem witness_RegisterReadFrame : base.canonical = true ∧
    (base.arrives .a (readEnv base .a readHead 17) readHead ∧ base.runsOut .a (readEnv base .a readHead 17) readHead (1 + 4 * countOf 4) ∧
      base.regHeader (.port .a) false (0x800 : BitVec 16).toNat (countOf 4) = 0 ∧ windowOf ((0x800 : BitVec 16).toNat % 0x4000) = none ∧
      (0x800 : BitVec 16).toNat % 0x4000 + 4 * countOf 4 ≤ lastOf ((0x800 : BitVec 16).toNat % 0x4000) + 4 ∧
      base.inTime .a (readEnv base .a readHead 17) (blockOf ((0x800 : BitVec 16).toNat % 0x4000)) ∧ base.hold (.port .a) = none) ∧
    (base.arrives .a (readEnv base .a (0x80 :: addrBytes 0x02 ++ [1]) 5) (0x80 :: addrBytes 0x02 ++ [1]) ∧
      base.runsOut .a (readEnv base .a (0x80 :: addrBytes 0x02 ++ [1]) 5) (0x80 :: addrBytes 0x02 ++ [1]) (1 + 4 * countOf 1) ∧
      base.regHeader (.port .a) false (0x02 : BitVec 16).toNat (countOf 1) ≠ 0) := by
  simp only [Mach.arrives, Mach.listens, Mach.runsOut, Mach.inTime]; decide +kernel

/-- Port A checks a CRC. -/
def crcA : Mach := regsAre base [(0x400, regReset 0x400 ||| 2)]

/-- The header of a write of 2 words from `EVT_SM2` on. -/
def writeHead : List Byte := 0x81 :: addrBytes 0x2110 ++ [2]

/-- A write frame with this many bytes and this CRC. -/
def writeEnv (bytes : Nat) (crc : Byte) : FrameEnv := ⟨0, 0, crc, false, 8 * bytes, 8 * bytes, 0, false, 8 * bytes, none⟩

theorem witness_RegisterWriteFrame :
    (base.canonical = true ∧ base.listens .a 0 false 0 ∧ [(1 : Word), 2].length = countOf 2 ∧
      8 * ((base.headBytes .a (writeEnv 12 0) writeHead).length + 4 * countOf 2 + (base.crcOn .a).toNat) =
        base.bitsOf .a (writeEnv 12 0) ∧
      base.regHeader (.port .a) true (0x2110 : BitVec 16).toNat (countOf 2) = 0 ∧
      base.isGated (blockOf ((0x2110 : BitVec 16).toNat % 0x4000)) = false ∧
      (∀ i < 2, ∃ d ∈ regDef (0x2110 + 4 * i), 0x2110 + 4 * i ∈ plainRegs ∧
        d.inRange (d.written (kindOf 0x2110) (base.reg (0x2110 + 4 * i)) ([(1 : Word), 2].getD i 0)) = true)) ∧
    (crcA.canonical = true ∧ crcA.listens .a 0 false 0 ∧ [(1 : Word), 2].length = countOf 2 ∧ crcA.crcOn .a = true ∧
      8 * ((crcA.headBytes .a (writeEnv 13 0) writeHead).length + 4 * countOf 2 + (crcA.crcOn .a).toNat) =
        crcA.bitsOf .a (writeEnv 13 0) ∧
      (writeEnv 13 0).crc ≠ crc8 (crcA.headBytes .a (writeEnv 13 0) writeHead ++ wordsBytes [1, 2]) ∧ crcA.noClear) := by
  simp only [Mach.listens, Mach.noClear]
  refine ⟨⟨by decide +kernel, by decide +kernel, by decide +kernel, by decide +kernel, by decide +kernel, by decide +kernel, ?_⟩,
    by decide +kernel⟩
  intro i hi
  interval_cases i
  · exact ⟨(regDef 0x2110).get (by decide +kernel), by decide +kernel, by decide +kernel, by decide +kernel⟩
  · exact ⟨(regDef 0x2114).get (by decide +kernel), by decide +kernel, by decide +kernel, by decide +kernel⟩

/-- Port B holds semaphore 3. -/
def semB : Mach := { base with pb := { base.pb with sems := 8 } }

theorem witness_SemaphoreWrites : semB.canonical = true ∧
    (semB.takesWrite (.port .a) .direct 0x440 ∧ (goWord .direct 0x8007).setWidth 16 &&& semB.semsOf (Port.a).other = 0 ∧
      (goWord .direct 8).setWidth 16 &&& semB.semsOf (Port.a).other ≠ 0) ∧
    semB.takesWrite (.port .a) .setBits 0x444 := by
  simp only [Mach.takesWrite]; decide +kernel

/-- Aux channel 7 is enabled in the configuration in force. -/
def aux7 : Mach := base.updChan 7 (fun c => { c with cfg := { c.cfg with cfg := 0x80000000 } })

/-- The same block with D3 OFF. -/
def noSignal : Mach := { base with clk := { base.clk with dom := { base.clk.dom with d3 := .off } } }

theorem witness_SourcesStart : base.flt.groups.length = 13 ∧ base.testing 0 = false ∧ base.testing 1 = false ∧
    base.testing 4 = false ∧ base.canonical = true ∧ base.noClear ∧ base.on 3 = true ∧
    (groupIndex .acf < 4 ∧ groupIndex .tmp < 4 ∧ base.on 1 = true ∧ base.inWatch = false ∧
      (base.grp (groupIndex .acf)).started = false ∧ (base.grp (groupIndex .tmp)).started = false) ∧
    (noSignal.flt.groups.length = 13 ∧ noSignal.testing 0 = false ∧ noSignal.testing 1 = false ∧ noSignal.testing 4 = false ∧
      noSignal.canonical = true ∧ noSignal.noClear ∧ noSignal.on 1 = true ∧ noSignal.on 3 = false) ∧
    (aux7.canonical = true ∧ aux7.noClear ∧ aux7.flt.groups.length = 13 ∧ aux7.testing 0 = false ∧ aux7.testing 1 = false ∧ aux7.testing 4 = false ∧ aux7.on 3 = true ∧
      aux7.on 2 = true ∧ aux7.auxActive (7 : Fin 8).val = true ∧ (7 : Fin 8).val < aux7.aux.chans.length) := by
  simp only [Mach.noClear]; decide +kernel

/-- X at a fixed hold of 0 from 64000 steps away, Y OFF, Z at its fixed value; the ACF start is over. -/
def holding : Mach :=
  { regsAre base [(0xC08, 0x33)] with
    mot := { base.mot with ready := true, upd := 0, x := { base.mot.x with h := 64000 }, y := { base.mot.y with h := 5 } } }

/-- The same with DAMPER asserted since the last update, ACF held off. -/
def heldAxes : Mach :=
  { regsAre base [(0xC08, 0x33), (0x1A04, 0x11)] with
    mot := holding.mot
    aux := { base.aux with asserted := true, damperLevel := true, spans := [⟨9000000, none, none⟩] } }

/-- D1 has just switched ON. -/
def warming : Mach := { base with clk := { base.clk with d1Since := 9990000 } }

theorem witness_HoldUpdates :
    (holding.canonical = true ∧ holding.noClear ∧ holding.mot.upd < holding.ts / 131072 * 131072 ∧ holding.on 1 = true ∧
      holding.acfReady (holding.ts / 131072 * 131072) = true ∧
      holding.heldOff 0 (holding.ts / 131072 * 131072) = false ∧ holding.fld 0xC08 0 2 = 3 ∧
      |holding.fixOf 0 - holding.mot.x.h| ≤ 64000 ∧ holding.fld 0xC08 2 2 = 0 ∧ holding.fld 0xC08 4 2 = 3 ∧
      |holding.fixOf 2 - holding.mot.z.h| ≤ 64000) ∧
    (warming.canonical = true ∧ warming.noClear ∧ warming.mot.upd < warming.ts / 131072 * 131072 ∧ warming.on 1 = true ∧
      warming.acfReady (warming.ts / 131072 * 131072) = false) ∧
    (heldAxes.canonical = true ∧ heldAxes.noClear ∧ heldAxes.mot.upd < heldAxes.ts / 131072 * 131072 ∧ heldAxes.on 1 = true ∧
      heldAxes.acfReady (heldAxes.ts / 131072 * 131072) = true ∧ heldAxes.heldOff 0 (heldAxes.ts / 131072 * 131072) = true) ∧
    (counted.canonical = true ∧ counted.seqPending 0xC3C = some 10000000 ∧ 10000000 ≤ counted.ts) := by
  simp only [Mach.noClear]; decide +kernel

/-- TMP and the resampler run without FIR stages, an output of each due; Q2 has room. -/
def outputsDue : Mach :=
  (((go (.sourceStart .acf) (go (.sourceStart .tmp) (regsAre base [(0xC00, 8)]))).updGrp 3 (fun g =>
    { g with cfg := { g.cfg with taps := none }, timing := none, nextOut := 10000000 })).updGrp 12 (fun g =>
      { g with cfg := { g.cfg with taps := none }, nextOut := 10000000 })).updQ 2 (fun q => { q with openBlk := some (openOf 998) })

theorem witness_FilterOutputs : outputsDue.canonical = true ∧ outputsDue.noClear ∧ outputsDue.flt.groups.length = 13 ∧
    outputsDue.quietEvents ∧
    (outputsDue.chainRuns 3 = true ∧ (outputsDue.grp 3).nextOut ≤ outputsDue.ts ∧ (outputsDue.grp 3).cfg.taps = none ∧
      (outputsDue.grp 3).nextCfg = none ∧ (outputsDue.grp 3).fade = none ∧ (outputsDue.grp 3).timing = none ∧
      (outputsDue.grp 3).chains.length = 1 ∧ outputsDue.grpEnabled 3 = true) ∧ outputsDue.roomFor 2 1 ∧
    (outputsDue.chainRuns 12 = true ∧ (outputsDue.grp 12).nextOut ≤ outputsDue.ts ∧ (outputsDue.grp 12).nextCfg = none ∧
      (outputsDue.grp 12).fade = none ∧ outputsDue.heldOff 12 (outputsDue.grp 12).nextOut = false ∧
      (outputsDue.grp 12).cfg.taps = none) := by
  have h : outputsDue.roomFor 2 1 := room (openOf 998) (by decide +kernel)
  simp only [Mach.quietEvents, Mach.noClear]
  exact ⟨by decide +kernel, by decide +kernel, by decide +kernel, by decide +kernel, by decide +kernel, h, by decide +kernel⟩

/-- GYR runs with its FIR stage; ACH runs without one. -/
def castles : Mach :=
  ((regsAre base [(0xC00, 4)]).updGrp 2 (fun g => { g with started := true, cfg := { g.cfg with taps := some 61 } })).updGrp 1
    (fun g => { g with started := true, cfg := { g.cfg with taps := none } })

/-- A synchronising reset armed on a multiple of 2^26 that has just come. -/
def armed : Mach :=
  { regsAre base [(0x10C4, 1)] with
    clk := { base.clk with ts := 2 ^ 26 }
    flt := { base.flt with arm := some (9000000, 2 ^ 26 - 1) } }

theorem witness_CastlingAndSynchronisingResets :
    (castles.canonical = true ∧ castles.noClear ∧ castles.takesWrite (.port .a) .direct 0x10C0 ∧ castles.flt.transfer = none ∧
      castles.flt.groups.length = 13 ∧
      (∀ g < 12, (4 : Word).getLsbD g = true → castles.castleReq g = false ∧ castles.sourceOn g = true ∧ (castles.grp g).fade = none ∧
        (castles.grp g).started = true ∧ (castles.grp g).cfg.taps ≠ none) ∧
      ((2 : Word) = bitMask 1 ∧ castles.castleReq 1 = false ∧ (castles.grp 1).started = true ∧ (castles.grp 1).cfg.taps = none ∧
        (castles.grp 1).firLeft = false ∧ castles.on 3 = true)) ∧
    (base.canonical = true ∧ base.takesWrite .core .direct 0x10C4 ∧ bitAt 1 0 = true ∧ base.flag 0x10C4 0 = false ∧
      (bitAt 1 4 = true → base.noMark = false)) ∧
    (armed.canonical = true ∧ armed.noClear ∧ armed.flt.arm = some (9000000, 2 ^ 26 - 1) ∧ armed.on 3 = true ∧ armed.flag 0x10C4 0 = true ∧
      armed.flag 0x10C4 4 = false ∧ ((2 ^ 26 - 1) / 2 ^ 26 + 1) * 2 ^ 26 ≤ armed.ts ∧ armed.flt.groups.length = 13) := by
  simp only [Mach.takesWrite, Mach.noClear]; decide +kernel

/-- A load of the standard entry into bank B of the last aux group, and a save of bank A into entry 31. -/
def loading : Mach := { regsAre base [(0x10D0, 1)] with flt := { base.flt with transfer := some ⟨false, 0, 11, true, []⟩ } }
def saving : Mach :=
  { regsAre base [(0x10D0, 1)] with flt := { base.flt with transfer := some ⟨true, 31, 0, false, List.replicate 64 5⟩ } }

theorem witness_CoefficientTransfers :
    (base.canonical = true ∧ base.takesWrite .core .direct 0x10D0 ∧ base.flag 0x10D0 0 = false ∧
      (bitAt 0x0000B101 0 = true ∧ bitsAt 0x0000B101 12 4 ≤ 11 ∧ bitAt 0x0000B101 28 = false ∧
        base.bankBusy (bitsAt 0x0000B101 12 4) (bitAt 0x0000B101 8) = false) ∧
      (bitAt 0x11F0B001 0 = true ∧ bitsAt 0x11F0B001 12 4 ≤ 11 ∧ bitAt 0x11F0B001 28 = true ∧ bitsAt 0x11F0B001 20 5 ≠ 0)) ∧
    (loading.canonical = true ∧ loading.flt.transfer = some ⟨false, 0, 11, true, []⟩ ∧
      loading.libTaps 0 = some ((List.range 64).map stdCoef) ∧ ((List.range 64).map stdCoef).length = 64) ∧
    (saving.canonical = true ∧ saving.flt.transfer = some ⟨true, 31, 0, false, List.replicate 64 5⟩ ∧ (31 : Nat) ≠ 0 ∧
      (List.replicate 64 (5 : Word)).length = 64) := by
  refine ⟨?_, ⟨by decide +kernel, rfl, rfl, by simp⟩, by decide +kernel⟩
  simp only [Mach.takesWrite]
  decide +kernel

/-- The angle resampler runs in TRACK with a revolution in progress. -/
def spinning : Mach :=
  { (regsAre base [(0x1400, 1), (0x140C, 0x7FF)]).updGrp 2 (fun g => { g with started := true }) with
    ang := { base.ang with run := true, nextRate := 10000000, discard := 0, lock := .track, rev := some (0, 0), corrParts := 0
                           refs := [1000], rates := [⟨2000, 2 ^ 32⟩, ⟨0, 0⟩], accTheta := 1, theta := 2 ^ 32, omega := 2 ^ 31
                           lowSince := some 7000000 } }

/-- The resampler in LOCK, one and a half revolutions after the last accepted instant; Q1 has room. -/
def missing : Mach :=
  { spinning with
    ang := { spinning.ang with lock := .lock, theta := 3 * 2 ^ 31, accTheta := 0 } }

theorem witness_AngleRateOutputs :
    (spinning.angRuns = true ∧ spinning.ang.run = true ∧ spinning.ang.nextRate ≤ spinning.ts ∧ spinning.ang.discard = 0 ∧
      spinning.ang.lock ≠ .search ∧ spinning.ang.rev ≠ none ∧ spinning.ang.corrParts = 0 ∧
      spinning.rateAtLimit (spinning.rateSum (List.replicate 4 ⟨20000, false⟩)).2 = false) ∧
    0 < { spinning with ang := { spinning.ang with discard := 3 } }.ang.discard ∧
    (spinning.canonical = true ∧ spinning.noClear ∧ ((1000 : Nat) : Int) ∈ spinning.ang.refs ∧
      spinning.ang.rates = ⟨2000, 2 ^ 32⟩ :: [⟨0, 0⟩] ∧ ((1000 : Nat) : Int) ≤ 2000) ∧
    (missing.canonical = true ∧ missing.noClear ∧ missing.angRuns = true ∧ missing.ang.lock = .lock ∧
      3 * oneRev ≤ 2 * (missing.ang.theta - missing.ang.accTheta)) ∧
    (spinning.ang.lowSince = some 7000000 ∧
      7000000 * spinning.fld 0x140C 0 11 + 64 * second ≤ spinning.ts * spinning.fld 0x140C 0 11) := by
  simp only [Mach.noClear]; decide +kernel

/-- The same in SEARCH. -/
def searching : Mach := { spinning with ang := { spinning.ang with lock := .search, rev := none } }

theorem witness_ReferenceInstants :
    (spinning.canonical = true ∧ spinning.angRuns = true ∧ spinning.noClear ∧
      (spinning.clk.life = .up ∧ spinning.clk.vio = true ∧ 14 ≤ 14 ∧ spinning.clk.mode = .run ∧ spinning.clk.entry = none ∧
        spinning.clk.wokeAt ≠ some spinning.clk.now ∧ spinning.angRef = 0 ∧ true ≠ spinning.flag 0x1400 7 ∧ true ≠ spinning.clk.keyLevel ∧
        spinning.quietEvents) ∧
      (((1000 : Nat) : Int) ∈ spinning.ang.refs ∧ spinning.ang.rates = ⟨2000, 2 ^ 32⟩ :: [⟨0, 0⟩] ∧ ((1000 : Nat) : Int) ≤ 2000 ∧
        thetaAt spinning.ang.rates 1000 = some (2 ^ 31) ∧ spinning.ang.lock = .track ∧
        2 * (2 ^ 31 - spinning.ang.accTheta) < oneRev) ∧
      spinning.ang.lowSince = some 7000000 ∧
      7000000 * spinning.fld 0x140C 0 11 + 64 * second ≤ spinning.ts * spinning.fld 0x140C 0 11) ∧
    (searching.canonical = true ∧ searching.noClear ∧ searching.angRuns = true ∧ searching.ang.lock = .search ∧
      searching.fastEnough searching.ang.omega = true ∧ ((1000 : Nat) : Int) ∈ searching.ang.refs ∧
      thetaAt searching.ang.rates 1000 = some (2 ^ 31)) ∧
    (missing.canonical = true ∧ missing.noClear ∧ missing.angRuns = true ∧ missing.ang.lock = .lock ∧
      3 * oneRev ≤ 2 * (missing.ang.theta - missing.ang.accTheta)) ∧
    (spinning.canonical = true ∧ spinning.ang.rev = some (0, 0) ∧ spinning.angRuns = true ∧ spinning.ang.lock = .track ∧
      0 + oneRev ≤ spinning.ang.theta ∧ seekTheta (0 + oneRev) spinning.ang.rates.reverse = ⟨0, 0⟩ :: ⟨2000, 2 ^ 32⟩ :: [] ∧
      (2000 : Int) = roundUp (crossTime ⟨0, 0⟩ ⟨2000, 2 ^ 32⟩ (0 + oneRev)) ∧
      ((2000 : Int) - 0).toNat < 64 * 2 ^ spinning.ang.nCode * 4096 ∧ spinning.quietEvents ∧
      (spinning.updQ 1 (fun q => { q with openBlk := some (openOf 988) })).roomFor 1 11) := by
  have h : (spinning.updQ 1 (fun q => { q with openBlk := some (openOf 988) })).roomFor 1 11 := room (openOf 988) (by decide +kernel)
  simp only [Mach.quietEvents, Mach.noClear]
  and_intros
  all_goals first | exact h | decide +kernel

/-- Q2's open block has just reached its age limit of 1 s; Q1 has a block that is not readable behind one that is. -/
def aging : Mach :=
  ({ regsAre base [(0x1C80, regReset 0x1C80 &&& 0x00FFFFFF ||| 0x01000000)] with
    clk := { base.clk with ts := BitVec.ofNat 64 (second + 100) } }.updQ 2 (fun q => { q with openBlk := some { openOf 5 with firstTs := 100 } })).updQ 1
      (fun q => { q with unread := [qBlock true, qBlock false] })

/-- Q2 without an age limit, its open block 2 s old: a write sets the limit to 1 s. -/
def unlimited : Mach :=
  { regsAre base [(0x1C80, regReset 0x1C80 &&& 0x00FFFFFF)] with
    clk := { base.clk with ts := BitVec.ofNat 64 (2 * second) } }.updQ 2 (fun q => { q with openBlk := some (openOf 5) })

theorem witness_BlocksCloseAndBecomeReadable_write : unlimited.canonical = true ∧ unlimited.noClear ∧ unlimited.buf.queues.length = 5 ∧
    unlimited.taking = true ∧ (unlimited.q 2).openBlk = some (openOf 5) ∧ (unlimited.q 2).run = .run ∧
    unlimited.takesWrite (.port .a) .direct (qBase 2) ∧
    (∃ d, regDef (qBase 2) = some d ∧ d.inRange (d.written .direct (unlimited.reg (qBase 2)) (unlimited.reg (qBase 2) ||| 0x01000000)) = true ∧
      d.written .direct (unlimited.reg (qBase 2)) (unlimited.reg (qBase 2) ||| 0x01000000) = unlimited.reg (qBase 2) ||| 0x01000000) ∧
    unlimited.rangeBad (qBase 2) (unlimited.reg (qBase 2) ||| 0x01000000) = false ∧
    bitsAt (unlimited.reg (qBase 2) ||| 0x01000000) 8 2 = unlimited.qPolicy 2 ∧
    bitsAt (unlimited.reg (qBase 2) ||| 0x01000000) 24 8 = 1 ∧ (openOf 5).firstTs + 1 * second ≤ unlimited.ts := by
  simp only [Mach.takesWrite, Mach.noClear]
  exact ⟨by decide +kernel, by decide +kernel, by decide +kernel, by decide +kernel, by decide +kernel, by decide +kernel,
    by decide +kernel, ⟨(regDef (qBase 2)).get (by decide +kernel), by decide +kernel, by decide +kernel, by decide +kernel⟩,
    by decide +kernel⟩

theorem witness_BlocksCloseAndBecomeReadable :
    (aging.canonical = true ∧ aging.noClear ∧ aging.buf.queues.length = 5 ∧ aging.taking = true ∧
      (aging.q 2).openBlk = some { openOf 5 with firstTs := 100 } ∧ (aging.q 2).run = .run ∧ aging.fld (qBase 2) 24 8 ≠ 0 ∧
      100 + aging.fld (qBase 2) 24 8 * second ≤ aging.ts) ∧
    ((aging.q 1).unread = [qBlock true] ++ qBlock false :: [] ∧ (∀ x ∈ [qBlock true], x.readable = true) ∧
      (qBlock false).readable = false) := by
  simp only [Mach.noClear]; decide +kernel

/-- Q0 asks for one bank less than it has. -/
def allocating : Mach := regsAre base [(qBase 0, 0x0A00304F)]

theorem witness_BufferSettings :
    (allocating.canonical = true ∧ allocating.buf.queues.length = 5 ∧ allocating.takesWrite (.port .a) .direct 0x1C00 ∧
      bitAt 1 0 = true ∧ allocating.applyCheck = 0 ∧ allocating.on 4 = true) ∧
    (base.takesWrite (.port .a) .direct (qBase 0) ∧ bitsAt (base.reg (qBase 0) ||| 0x100) 8 2 ≠ base.qPolicy 0 ∧ (base.q 0).run = .run ∧
      base.rangeBad (qBase 0) (base.reg (qBase 0) ||| 0x100) = false ∧
      ∃ d, regDef (qBase 0) = some d ∧ d.written .direct (base.reg (qBase 0)) (base.reg (qBase 0) ||| 0x100) = base.reg (qBase 0) ||| 0x100 ∧
        d.inRange (base.reg (qBase 0) ||| 0x100) = true) := by
  simp only [Mach.takesWrite]
  exact ⟨by decide +kernel, by decide +kernel, by decide +kernel, by decide +kernel, by decide +kernel,
    (regDef (qBase 0)).get (by decide +kernel), by decide +kernel, by decide +kernel, by decide +kernel⟩

/-- Q4 and Q3 capture; Q4 has banks and waits for a trigger. -/
def capturing : Mach :=
  ((regsAre base [(qBase 1, 0x200)]).updQ 1 (fun q => { q with run := .armed }))

theorem witness_CapturesStartAndRearm : capturing.canonical = true ∧ capturing.buf.queues.length = 5 ∧
    capturing.takesWrite .core .direct (qBase 1 + 0xC) ∧ capturing.qPolicy 1 = 2 ∧ (1 : Nat) ≠ 3 ∧ (capturing.q 1).run = .armed ∧
    capturing.on 4 = true ∧ (capturing.q 1).run ≠ .noBanks ∧ (capturing.q 1).run ≠ .frozen ∧ (capturing.q 1).unread = [] := by
  simp only [Mach.takesWrite]; decide +kernel

/-- Q0's run of discards is 1 s old; Q3 has room for its record. -/
def discarding : Mach :=
  ({ regsAre base [(qBase 3, 0x0A003110)] with clk := { base.clk with now := second + 9 } }.updQ 0 (fun q => { q with discRun := some ⟨1, 5, 9, 9⟩ })).updQ 3
    (fun q => { q with openBlk := some (openOf 991) })

/-- The same with the buffer off, and its banks in RETAIN. -/
def retained : Mach := { discarding with clk := { discarding.clk with dom := { discarding.clk.dom with d4 := .retain } } }

theorem witness_DiscardRunsAndDips :
    (discarding.buf.queues.length = 5 ∧ (discarding.q 0).discRun = some ⟨1, 5, 9, 9⟩ ∧ 9 + second ≤ discarding.clk.now ∧
      (0 : Nat) ≠ 3 ∧ discarding.qPolicy 3 = 1 ∧ discarding.buf.pendingGaps = []) ∧ discarding.roomFor 3 8 ∧
    (retained.buf.queues.length = 5 ∧ (retained.q 0).discRun = some ⟨1, 5, 9, 9⟩ ∧ 9 + second ≤ retained.clk.now ∧
      retained.taking = false ∧ retained.dom 4 = .retain ∧ retained.buf.units[127]?.isSome = true) :=
  ⟨by decide +kernel, room (openOf 991) (by decide +kernel), by decide +kernel⟩

/-- Channel 0 runs with the ratiometric input at gain 1, a conversion of it due. -/
def converting : Mach := base.updChan 0 (fun c => { c with cfg := { c.cfg with cfg := 0x80000400 } })

theorem witness_AuxConversions : converting.canonical = true ∧ converting.aux.chans.length = 8 ∧
    converting.flt.groups.length = 13 ∧ converting.on 2 = true ∧ converting.on 3 = true ∧ 33152 ≤ converting.ts ∧
    (converting.chan 0).changes = [] ∧ converting.noClear ∧ converting.auxActive 0 = true ∧ converting.isComp 0 = false ∧
    converting.convInstant 0 (lastFrame (0 % 4) (converting.ts - 33152) -
      lastFrame (0 % 4) (converting.ts - 33152) % converting.auxDivisor 0) ≤ converting.ts ∧
    (converting.chan 0).latestAt < converting.convInstant 0 (lastFrame (0 % 4) (converting.ts - 33152) -
      lastFrame (0 % 4) (converting.ts - 33152) % converting.auxDivisor 0) ∧
    ((converting.clk.d2Since + millisUp 2 : Nat) : Int) ≤ converting.slotNow (slotStart (lastFrame (0 % 4) (converting.ts - 33152) -
      lastFrame (0 % 4) (converting.ts - 33152) % converting.auxDivisor 0) (0 % 4)) ∧
    converting.auxExc 0 = false ∧ converting.aux.spans = [] ∧ bitsAt (converting.chan 0).cfg.bo 24 2 = 0 ∧
    bitsAt (converting.auxCfg 0).cfg 10 2 ≠ 0 ∧ bitsAt (converting.auxCfg 0).cfg 16 6 = 0 ∧
    (⟨-5, -1⟩ : AuxInput).vref ≠ 0 ∧ converting.aux.lcal = none := by
  simp only [Mach.noClear]; decide +kernel

/-- Channel 3 is in a check slot that has ended, and its comparator has tripped. -/
def checking : Mach :=
  base.updChan 3 (fun c =>
    { c with cfg := { c.cfg with cfg := 0x80000000, bo := 0x02000001 }, checkFrame := some 100, checkDue := true, tripped := true })

theorem witness_WireBreakChecks : checking.aux.chans.length = 8 ∧ checking.on 2 = true ∧ checking.auxActive 3 = true ∧
    (bitsAt (checking.chan 3).cfg.bo 24 2 = 2 ∧ (checking.chan 3).checkFrame = some 100 ∧ (checking.chan 3).checkDue = true ∧
      slotStart 100 (3 % 4) + 16768 < checking.ts) ∧
    (2400000 ≤ (2400000 : Int) ∧ microsUp 2 ≤ microsUp 2 ∧ (2399999 : Int) < 2400000) := by
  decide +kernel

/-- A change of VEXC to on waits for a frame that begins now; VEXC is on. -/
def exciting : Mach :=
  { regsAre base [(0x1A00, 0x01000000)] with aux := { base.aux with excChange := some 10000000, vexc := true } }

/-- The same with the windows of an earlier change still skipped. -/
def excitingLong : Mach := { exciting with aux := { exciting.aux with skipFrom := 9000000, skipUntil := 20000000 } }

/-- Pulsed VEXC with no window scheduled. -/
def pulsed : Mach := { base with aux := { base.aux with excMode := 2 } }

theorem witness_ExcitationChanges : exciting.canonical = true ∧ exciting.on 2 = true ∧
    (exciting.aux.excChange = some 10000000 ∧ 10000000 ≤ exciting.ts ∧ exciting.aux.skipUntil < 10000000 ∧
      exciting.fld 0x1A00 24 2 = 1) ∧
    (excitingLong.canonical = true ∧ excitingLong.on 2 = true ∧ excitingLong.aux.excChange = some 10000000 ∧
      10000000 ≤ excitingLong.aux.skipUntil) ∧
    (exciting.noClear ∧ exciting.aux.vexc = true ∧ second < 1000 * 67109) ∧
    (pulsed.canonical = true ∧ pulsed.on 2 = true ∧ pulsed.aux.excMode = 2 ∧ pulsed.aux.excFault = false ∧ pulsed.excWanted = false) := by
  simp only [Mach.noClear]; decide +kernel

/-- Channel 2 is a three-wire RTD; the other channels do not qualify. -/
def rtd : Mach := regsAre base [(auxBase 2, 0x80010000), (auxBase 2 + 8, 1)]

/-- Its lead calibration has its 16 conversions; the register holds that value already; it is worn; the write is posted. -/
def calibrated : Mach := { rtd with aux := { rtd.aux with lcal := some ⟨2, 2 ^ 70, 16, 0, false⟩ } }
def calUnchanged : Mach := { rtd with aux := { rtd.aux with lcal := some ⟨2, 0, 16, 0, false⟩ } }
def calWorn : Mach := { calibrated with nv := { rtd.nv with pregs := [⟨auxBase 2 + 0x1C, 0, 9, true, true⟩] } }
def calPosted : Mach :=
  { rtd with
    aux := { rtd.aux with lcal := some ⟨2, 2 ^ 70, 16, 0, true⟩ }
    nv := { rtd.nv with write := some ⟨auxBase 2 + 0x1C, 0, 0x40000, none⟩ } }

/-- One has run for 10 s without its conversions. -/
def calStuck : Mach :=
  { rtd with clk := { rtd.clk with now := 10 * second }, aux := { rtd.aux with lcal := some ⟨2, 0, 15, 0, false⟩ } }

/-- The bits that a calibration would write, and those that stand in the register. -/
def leadNew (l : LeadCal) : Word := l.result &&& persistMask (auxBase l.ch + 0x1C)
def leadOld (m : Mach) (n : Nat) : Word := m.reg (auxBase n + 0x1C) &&& persistMask (auxBase n + 0x1C)

theorem witness_LeadCalibrations :
    (rtd.canonical = true ∧ rtd.on 2 = true ∧ rtd.noClear ∧ rtd.takesWrite (.port .b) .direct 0x1A0C ∧ bitAt 0x102 8 = true ∧
      rtd.flag 0x1A0C 8 = false ∧ rtd.leadQualifies (bitsAt 0x102 0 3) = true ∧ bitAt 0x107 8 = true ∧
      rtd.leadQualifies (bitsAt 0x107 0 3) = false) ∧
    (calibrated.canonical = true ∧ calibrated.on 2 = true ∧ calibrated.noClear ∧ calibrated.busy = false ∧
      calibrated.aux.lcal = some ⟨2, 2 ^ 70, 16, 0, false⟩ ∧ calibrated.worn (auxBase 2 + 0x1C) = false ∧
      leadNew ⟨2, 2 ^ 70, 16, 0, false⟩ ≠ leadOld calibrated 2) ∧
    (calUnchanged.canonical = true ∧ calUnchanged.on 2 = true ∧ calUnchanged.noClear ∧ calUnchanged.busy = false ∧
      calUnchanged.aux.lcal = some ⟨2, 0, 16, 0, false⟩ ∧ leadNew ⟨2, 0, 16, 0, false⟩ = leadOld calUnchanged 2) ∧
    (calWorn.canonical = true ∧ calWorn.on 2 = true ∧ calWorn.noClear ∧ calWorn.busy = false ∧
      calWorn.worn (auxBase 2 + 0x1C) = true ∧ leadNew ⟨2, 2 ^ 70, 16, 0, false⟩ ≠ leadOld calWorn 2) ∧
    (calPosted.canonical = true ∧ calPosted.on 2 = true ∧ calPosted.noClear ∧ calPosted.aux.lcal = some ⟨2, 2 ^ 70, 16, 0, true⟩ ∧
      calPosted.nv.write = some ⟨auxBase 2 + 0x1C, 0, 0x40000, none⟩) ∧
    (calStuck.canonical = true ∧ calStuck.on 2 = true ∧ calStuck.noClear ∧ calStuck.aux.lcal = some ⟨2, 0, 15, 0, false⟩ ∧ 15 < 16 ∧
      0 + 10 * second ≤ calStuck.clk.now) := by
  simp only [Mach.takesWrite, Mach.noClear]; decide +kernel

/-- DAMPER is enabled; in the second state it is asserted and holds ACF, in the third it has stood for 100 ms. -/
def damper : Mach := regsAre base [(0x1A04, 1)]
def damped : Mach :=
  { regsAre base [(0x1A04, 0x11)] with aux := { base.aux with asserted := true, damperLevel := true, spans := [⟨9999000, none, none⟩] } }.updQ 0
    (fun q => { q with openBlk := some (openOf 998) })
def stuckDamper : Mach :=
  { regsAre base [(0x1A04, 1)] with aux := { base.aux with asserted := true, spans := [⟨10000000 - millisUp 100, none, none⟩] } }
def stuckEnding : Mach := { stuckDamper with regs := { base.regs with words := [(0x1A04, 5)] } }

theorem witness_DamperEdges :
    (damper.canonical = true ∧ damper.noClear ∧ damper.on 2 = true ∧ damper.clk.life = .up ∧ damper.clk.vio = true ∧ 14 ≤ 14 ∧ damper.clk.mode = .run ∧
      damper.clk.entry = none ∧ damper.clk.wokeAt ≠ some damper.clk.now ∧ damper.aux.ignoreDamper = false ∧
      damper.flag 0x1A04 0 = true ∧ damper.damperActive true = true ∧ damper.aux.asserted = false) ∧
    (damped.canonical = true ∧ damped.noClear ∧ damped.on 2 = true ∧ damped.clk.life = .up ∧ damped.clk.vio = true ∧ damped.clk.mode = .run ∧
      damped.clk.entry = none ∧ damped.clk.wokeAt ≠ some damped.clk.now ∧ damped.aux.ignoreDamper = false ∧
      damped.damperActive false = false ∧ damped.aux.asserted = true ∧ damped.flag 0x1A04 4 = true ∧ damped.flag 0x1A04 5 = false ∧
      damped.flag 0x1A04 6 = false ∧ damped.aux.auxDuring = false ∧ damped.anyAux = false) ∧ damped.roomFor 0 1 ∧
    (∀ m ∈ [stuckDamper, stuckEnding], m.canonical = true ∧ m.noClear ∧ m.on 2 = true ∧ m.clk.life = .up ∧ m.aux.asserted = true ∧
      m.aux.stuckSeen = false ∧ m.damperSince + millisUp 100 ≤ m.ts) ∧
    (stuckDamper.flag 0x1A04 2 = false ∧ stuckEnding.flag 0x1A04 2 = true ∧ stuckEnding.flag 0x1A04 4 = false ∧
      stuckEnding.flag 0x1A04 5 = false ∧ stuckEnding.flag 0x1A04 6 = false ∧ stuckEnding.aux.auxDuring = false ∧
      stuckEnding.anyAux = false) := by
  have h : damped.roomFor 0 1 := room (openOf 998) (by decide +kernel)
  simp only [Mach.noClear]
  exact ⟨by decide +kernel, by decide +kernel, h, by decide +kernel, by decide +kernel⟩

/-- A decimator period of a guard that watches for impacts at 16 steps, held for 2 periods: the state and the counts given. -/
def guard (st : Grd) (imp : Nat) : Mach :=
  let m := regsAre base [(0x2C00, 0x2001), (0x2C04, 0x00010010), (0x2C08, 0x00000001)]
  let c : GrdChain := ⟨⟨0, 0, 0, 0, false⟩, m.grdImpThr 0, m.grdOspThr 0, imp, 0, true⟩
  { m with
    clk := { base.clk with now := 10240000, ts := 10240000 }
    grd := { base.grd with st := st, a := c, b := c, tripImp := decide (st = .trip), ack := decide (st = .trip) } }

/-- Four modulator samples whose sum stands at the threshold, and a period in which everything is at rest. -/
def still : Quad := ⟨⟨0, false⟩, ⟨0, false⟩, ⟨0, false⟩, ⟨0, false⟩⟩
def hit : GuardInput := ⟨⟨⟨8190, false⟩, ⟨1, false⟩, ⟨0, false⟩, ⟨1, false⟩⟩, still, still, still⟩
def rest : GuardInput := ⟨still, still, still, still⟩

/-- What makes a chain differ, by the cause it is found with (R490, R492). -/
def upsets : List (Nat × GuardUpset) :=
  [(1, { sound with z := 1 }), (2, { sound with cmp := true }), (6, { sound with thrImp := -1 }), (3, { sound with vec := true })]

theorem witness_GuardPeriods :
    (∀ m ∈ [guard .healthy 2, (guard .healthy 0).setReg 0x2C00 0], m.canonical = true ∧ m.noClear ∧ m.comparesNow ∧ m.grd.st = .healthy ∧
      m.grd.ack = false) ∧
    ((guard .healthy 2).flag 0x2C00 0 = true ∧ impAbove (decimated hit sound) (guard .healthy 2).grd.a.impThr = true ∧
      (guard .healthy 2).grd.a.imp = (guard .healthy 2).fld 0x2C00 12 4 ∧ (guard .healthy 2).grd.tripImp = false ∧
      impAbove (decimated rest sound) (guard .healthy 2).grd.a.impThr = false) ∧
    (((guard .healthy 0).setReg 0x2C00 0).flag 0x2C00 0 = false ∧ ∀ x ∈ upsets,
      (x.1 = 1 ∧ decimated rest sound ≠ decimated rest x.2) ∨
        (x.1 = 2 ∧ decimated rest sound = decimated rest x.2 ∧ x.2.cmp = true) ∨
        (x.1 = 6 ∧ decimated rest sound = decimated rest x.2 ∧ x.2.cmp = false ∧ x.2.thrImp ≠ 0) ∨
        (x.1 = 3 ∧ decimated rest sound = decimated rest x.2 ∧ x.2.cmp = false ∧ x.2.thrImp = 0 ∧ x.2.thrOsp = 0 ∧ x.2.vec = true)) := by
  simp only [Mach.noClear, Mach.comparesNow]; decide +kernel

theorem witness_GuardPins :
    ((guard .healthy 0).canonical = true ∧ (guard .healthy 0).on 1 = true ∧ (guard .healthy 0).on 5 = true ∧
      (guard .healthy 0).grd.st = .healthy ∧ 2 ^ 26 ≤ 67109 * 1000) ∧
    ((guard .healthy 0).grd.sinks true = true ∧ 2 ^ 26 < 67109 * 1000) ∧
    (((guard .fault 0).setReg 0x2C00 5).canonical = true ∧ ((guard .fault 0).setReg 0x2C00 5).grd.st = .fault ∧
      ((guard .fault 0).setReg 0x2C00 5).flag 0x2C00 2 = true ∧
      { guard .fault 0 with clk := { base.clk with ts := 0x10000 } }.ts % 65536 = 0) := by
  decide +kernel

theorem witness_GuardWritesAndAcknowledges :
    (base.canonical = true ∧ bitAt 1 0 = true ∧ base.takesWrite (.port .a) .direct 0x2C0C ∧ base.regs.locked = [] ∧ base.on 1 = true ∧
      base.clk.mode = .run ∧ base.clk.start = none ∧ base.leaving = false ∧ base.testing 0 = false ∧ base.grdReady = true ∧
      base.grd.st = .off ∧ base.grd.a.driven = false ∧ base.grd.b.driven = false ∧ base.takesWrite .core .direct 0x2C10) ∧
    ((guard .trip 2).canonical = true ∧ (guard .trip 2).noClear ∧ (guard .trip 2).comparesNow ∧ (guard .trip 2).grd.st = .trip ∧
      (guard .trip 2).grd.ack = true ∧ (guard .trip 2).grd.tripImp = true ∧ (guard .trip 2).grd.tripOsp = false ∧
      impAbove (decimated rest sound) ((guard .trip 2).grdImpThr ((guard .trip 2).fld 0x2C04 16 8)) = false ∧
      impAbove (decimated rest sound) (guard .trip 2).grd.a.impThr = false ∧
      impAbove (decimated hit sound) ((guard .trip 2).grdImpThr ((guard .trip 2).fld 0x2C04 16 8)) = true) := by
  simp only [Mach.takesWrite, Mach.noClear, Mach.comparesNow]; decide +kernel

/-- The block in a FOSC cycle that is machine 15's turn. -/
def turn15 : Mach := { base with clk := { base.clk with now := 10000015 } }

/-- Machine 15 runs at the program's last word. -/
def machine (w : Word) : Mach :=
  { turn15.updSm 15 (fun s => { s with run := .run, pc := 1023, streak := 65534 }) with
    mem := { base.mem with evtProg := if w = 0 then [] else [(1023, w)] } }

/-- What `smNext` says, and canonical memories. -/
def machineReady (w : Word) : Bool :=
  decide ((machine w).canonical = true ∧ 15 < (machine w).evt.machines.length ∧ (machine w).on 3 = true ∧
    (machine w).testing 4 = false ∧ ((machine w).sm 15).run = .run ∧ (machine w).evtWord ((machine w).sm 15).pc = w ∧
    smBadFields w = false ∧ ((machine w).sm 15).streak + 1 < 65536 ∧ (machine w).evt.wakeReq = false ∧ (machine w).smServed 15 = true)

theorem machine_next {w : Word} (h : machineReady w = true) : (machine w).canonical = true ∧ (machine w).smNext 15 w  := by
  have h := of_decide_eq_true h
  exact h

/-- STOP, JMP, JIF, CNT, WAITC, WAITE and the four forms of TIME. -/
def controlWords : List Word :=
  [0, 0x280003FF, 0x352003FF, 0x2600FFFF, 0x0A801000, 0x13801000, 0x18FFFFFF, 0x19000000, 0x1A000000, 0x1F000000]

theorem witness_MachineControl : (∀ w ∈ controlWords, (machine w).canonical = true ∧ (machine w).smNext 15 w) ∧
    controlWords.map smOp = [0, 5, 6, 4, 1, 2, 3, 3, 3, 3] :=
  ⟨fun _ hw => machine_next (List.all_eq_true.mp (show controlWords.all machineReady = true by decide +kernel) _ hw), by decide +kernel⟩

/-- OUT to the ports, to the engines and to a TXD register, SETF, CLRF. -/
def effectWords : List Word := [0x40000003, 0x4200000F, 0x44000037, 0x50008001, 0x58008001]

/-- Machine 15 at EMIT, with room in Q3, and at CAPT, with Q0 armed. -/
def emitting : Mach := ((machine 0x3AFF7FFF).setReg (qBase 3) 0x0A003110).updQ 3 (fun q => { q with openBlk := some (openOf 995) })
def triggering : Mach := ((machine 0x48000001).setReg (qBase 0) 0x0A003250).updQ 0 (fun q => { q with run := .armed })

theorem witness_MachineEffects :
    (emitting.canonical = true ∧ emitting.noClear ∧ emitting.smNext 15 0x3AFF7FFF ∧ smOp 0x3AFF7FFF = 7 ∧ 0x1000 ≤ bitsAt 0x3AFF7FFF 0 16 ∧
      bitsAt 0x3AFF7FFF 0 16 ≤ 0x7FFF ∧ emitting.qPolicy 3 = 1 ∧ emitting.buf.pendingGaps = [] ∧ emitting.evt.held = []) ∧
    emitting.roomFor 3 4 ∧
    (∀ w ∈ effectWords, (machine w).canonical = true ∧ (machine w).smNext 15 w) ∧
    effectWords.map (fun w => (smOp w, bitsAt w 25 2)) = [(8, 0), (8, 1), (8, 2), (10, 0), (11, 0)] ∧
    (effectWords.all fun w => decide ((machine w).on 5 = true ∧ (machine w).clk.mode = .run ∧ (machine w).on 6 = true ∧
      (machine w).testing 5 = false ∧ (machine w).regs.cleared = [] ∧ (machine w).eng.engs.length = 4)) = true ∧
    (7 < ((machine 0x44000037).engine 3).ctxs.length ∧ ((machine 0x44000037).ctx 3 7).txf = false ∧
      ((machine 0x44000037).ctx 3 7).txAt ≠ some (machine 0x44000037).clk.now ∧ bitsAt 0x44000037 0 3 = 7 ∧
      bitsAt 0x44000037 4 2 = 3) ∧
    (triggering.canonical = true ∧ triggering.noClear ∧ triggering.smNext 15 0x48000001 ∧ smOp 0x48000001 = 9 ∧
      (0x48000001 : Word) = bitMask 0 ||| 0x48000000 ∧ triggering.qPolicy 0 = 2 ∧ (triggering.q 0).run = .armed ∧
      triggering.buf.queues.length = 5) := by
  have h : emitting.roomFor 3 4 := room (openOf 995) (by decide +kernel)
  have h2 : ∀ w ∈ effectWords, (machine w).canonical = true ∧ (machine w).smNext 15 w := fun _ hw =>
    machine_next (List.all_eq_true.mp (show effectWords.all machineReady = true by decide +kernel) _ hw)
  have h3 : emitting.smNext 15 0x3AFF7FFF := by simp only [Mach.smNext]; decide +kernel
  have h4 : triggering.smNext 15 0x48000001 := by simp only [Mach.smNext]; decide +kernel
  have h5 : emitting.noClear := no_clear rfl
  have h6 : triggering.noClear := no_clear rfl
  exact ⟨⟨by decide +kernel, h5, h3, by decide +kernel⟩, h, h2, by decide +kernel, by decide +kernel, by decide +kernel,
    by decide +kernel, h6, h4, by decide +kernel⟩

/-- Machine 15's second timer reaches its expiry now, and ends its wait; a record is held and Q3 has room for it. -/
def expiring (r : SmRun) : Mach :=
  (({ regsAre base [(qBase 3, 0x0A003110)] with evt := { base.evt with held := [⟨5, 0x1000, 15, 0, 0⟩] } }).updSm 15 (fun s =>
    { s with run := r, wait := .time true, t1 := ⟨true, false, 10000000, 0⟩ })).updQ 3 (fun q => { q with openBlk := some (openOf 995) })

/-- Machine 0's first timer reaches its expiry now, and times out a WAITC or a WAITE. -/
def timingOut (wait : SmWait) : Mach :=
  base.updSm 0 (fun s => { s with run := .wait, wait := wait, t0 := ⟨true, false, 10000000, 0⟩ })

theorem witness_TimersAndHeldRecords_timeouts : ∀ m ∈ [timingOut (.waitc 0x08001000 true 2), timingOut (.waite 0x10001000)],
    m.on 3 = true ∧ 0 < m.evt.machines.length ∧ m.evt.wakeReq = false ∧ ((m.sm 0).timer false).running = true ∧
      ((m.sm 0).timer false).expiry ≤ m.ts ∧ (m.sm 0).run = .wait ∧
      ((m.sm 0).wait = .waite 0x10001000 ∧ bitsAt 0x10001000 12 2 = 1 ∨
        (m.sm 0).wait = .waitc 0x08001000 true 2 ∧ bitsAt 0x08001000 12 2 = 1) := by
  decide +kernel

theorem witness_TimersAndHeldRecords :
    (∀ r ∈ [SmRun.run, .wait], (expiring r).on 3 = true ∧ 15 < (expiring r).evt.machines.length ∧ (expiring r).evt.wakeReq = false ∧
      (((expiring r).sm 15).timer true).running = true ∧ (((expiring r).sm 15).timer true).expiry ≤ (expiring r).ts ∧
      ((expiring r).sm 15).run = r ∧ ((expiring r).sm 15).wait = .time true) ∧
    (expiring .run).roomFor 3 (4 * (expiring .run).evt.held.length) ∧ (expiring .run).qPolicy 3 = 1 ∧
    (expiring .run).buf.pendingGaps = [] := by
  have h : (expiring .run).roomFor 3 (4 * (expiring .run).evt.held.length) := room (openOf 995) (by decide +kernel)
  exact ⟨by decide +kernel, h, by decide +kernel⟩

/-- Context 7 of engine 3 has its turn now, at address 254; the engine owns pin 0. -/
def engine (w : Word) : Mach :=
  { (regsAre base [(0x2718, 0x80000000), (pinAddr 0, 0x00040000)]).updEng 3 (fun e => { e with
      run := .running, edge := 9000000, turnBase := 7, ctxs := listUpd e.ctxs 7 (fun x => { x with pc := 254 }) }) with
    mem := { base.mem with engProg := if w = 0 then [] else [(1022, w)] } }

/-- What `engNext` says but for its last part. -/
def engineReady (w : Word) : Bool :=
  decide ((engine w).canonical = true ∧ (engine w).eng.engs.length = 4 ∧ ((engine w).engine 3).ctxs.length = 8 ∧
    (engine w).tickDue 3 = true ∧ ((engine w).engine 3).run = .running ∧ (engine w).stopDue 3 = false ∧
    ((engine w).engine 3).turn = 7 ∧ (engine w).ctxOn 3 7 = true ∧ (engine w).engWord 3 ((engine w).ctx 3 7).pc = w ∧
    (engine w).engCause 3 w = 0 ∧ ((engine w).ctx 3 7).pc < 255 ∧
    ((engine w).engine 3).ctxs.all (fun x => !x.op.long) = true)

theorem engine_next {w : Word} (h : engineReady w = true) : (engine w).canonical = true ∧ (engine w).engNext 3 7 w := by
  have h := of_decide_eq_true h
  exact ⟨h.1, h.2.1, h.2.2.1, h.2.2.2.1, h.2.2.2.2.1, h.2.2.2.2.2.1, h.2.2.2.2.2.2.1, h.2.2.2.2.2.2.2.1,
    h.2.2.2.2.2.2.2.2.1, h.2.2.2.2.2.2.2.2.2.1, h.2.2.2.2.2.2.2.2.2.2.1, all_short h.2.2.2.2.2.2.2.2.2.2.2⟩

/-- JMP, DJNZ, SET of each kind, IRQ. -/
def flowWords : List Word := [0, 0x110000FF, 0x20011000, 0x21011000, 0x22FFFFFF, 0x23800000, 0x2400FFFF, 0x25000001, 0xB000001F]

theorem witness_EngineFlow : (∀ w ∈ flowWords, (engine w).canonical = true ∧ (engine w).engNext 3 7 w) ∧
    flowWords.map (fun w => bitsAt w 28 4) = [0, 1, 2, 2, 2, 2, 2, 2, 11] ∧ (engine 0xB000001F).noClear :=
  ⟨fun _ hw => engine_next (List.all_eq_true.mp (show flowWords.all engineReady = true by decide +kernel) _ hw), by decide +kernel,
    no_clear rfl⟩

/-- DELAY, WAITPIN, WAITFLAG, WAITIRQ, SHIFTOUT, SHIFTIN, PULL, PUSH. -/
def waitWords : List Word := [0x30FFFFFF, 0x41010000, 0x50180000, 0x60000000, 0x70000001, 0x80080F3F, 0x91800000, 0xA3000000]

theorem witness_EngineWaitsAndData : (∀ w ∈ waitWords, (engine w).canonical = true ∧ (engine w).engNext 3 7 w) ∧
    waitWords.map (fun w => bitsAt w 28 4) = [3, 4, 5, 6, 7, 8, 9, 10] ∧
    (waitWords.all fun w => decide (((engine w).engine 3).irqAt = none ∧ ((engine w).ctx 3 7).txAt ≠ some (engine w).clk.now ∧
      ((engine w).ctx 3 7).rxf = false ∧ ((engine w).ctx 3 7).rxAt ≠ some (engine w).clk.now)) = true :=
  ⟨fun _ hw => engine_next (List.all_eq_true.mp (show waitWords.all engineReady = true by decide +kernel) _ hw), by decide +kernel,
    by decide +kernel⟩

/-- Engine 3 stands at tick 9, whose turn is of a context that is not enabled; context 7 is at the end of an operation. -/
def ticking (op : CtxOp) : Mach :=
  (regsAre base [(0x2718, 0x80000000), (pinAddr 0, 0x00040000)]).updEng 3 (fun e => { e with
    run := .running, edge := 9000000, tick := 9, turnBase := 0, ctxs := listUpd e.ctxs 7 (fun x => { x with pc := 254, op := op }) })

/-- Engine 3 is to stop. -/
def stopping : Mach := (ticking .ready).updEng 3 (fun e => { e with stopping := true })

theorem witness_EngineTicks :
    (∀ m ∈ [ticking .ready, ticking (.delay 9), ticking (.shift true 0x70080103 3 1 0), stopping, engine 0xC0000000], m.canonical = true ∧
      m.eng.engs.length = 4 ∧ (m.engine 3).ctxs.length = 8 ∧ m.tickDue 3 = true ∧ (m.engine 3).run = .running) ∧
    stopping.stopDue 3 = true ∧
    (∀ m ∈ [ticking .ready, ticking (.delay 9), ticking (.shift true 0x70080103 3 1 0)], m.stopDue 3 = false ∧
      m.ctxOn 3 (m.engine 3).turn = false ∧ m.ctxOn 3 7 = true ∧ (m.ctx 3 7).pc < 255) ∧
    (∀ k, ((ticking .ready).ctx 3 k).op.long = false) ∧
    (((ticking (.delay 9)).ctx 3 7).op = .delay 9 ∧ 9 ≤ ((ticking (.delay 9)).engine 3).tick ∧
      ∀ k < 8, k ≠ 7 → ((ticking (.delay 9)).ctx 3 k).op.long = false) ∧
    (((ticking (.shift true 0x70080103 3 1 0)).ctx 3 7).op = .shift true 0x70080103 3 (bitsAt 0x70080103 8 5) 0 ∧
      bitsAt 0x70080103 0 6 ≠ 0 ∧ ((ticking (.shift true 0x70080103 3 1 0)).engine 3).tick = 3 + 2 * bitsAt 0x70080103 0 6 ∧
      ∀ k < 8, k ≠ 7 → ((ticking (.shift true 0x70080103 3 1 0)).ctx 3 k).op.long = false) ∧
    ((engine 0xC0000000).noClear ∧ (engine 0xC0000000).stopDue 3 = false ∧ ((engine 0xC0000000).engine 3).turn = 7 ∧ (engine 0xC0000000).ctxOn 3 7 = true ∧
      (engine 0xC0000000).engWord 3 ((engine 0xC0000000).ctx 3 7).pc = 0xC0000000 ∧ (engine 0xC0000000).engCause 3 0xC0000000 ≠ 0) ∧
    (∀ k, ((engine 0xC0000000).ctx 3 k).op.long = false) :=
  ⟨by decide +kernel, by decide +kernel, by decide +kernel, all_short (by decide +kernel), by decide +kernel, by decide +kernel,
    ⟨no_clear rfl, by decide +kernel⟩, all_short (by decide +kernel)⟩

/-- Engine 0 has stalled in this FOSC cycle, over a fault of its first context. -/
def stalledNow : Mach :=
  base.updEng 0 (fun e => { e with run := .stalled, fcause := 2, fctx := 3, fpc := 9, undo := some ⟨10000000, 1, 0, 7, 0x05000001, false⟩ })

theorem witness_EngineWrites_undo : stalledNow.eng.engs.length = 4 ∧ stalledNow.takesWrite (.port .a) .direct 0x2708 ∧
    (∀ n < 4, (1 : Word).getLsbD n = true → stalledNow.engReserved n = false) ∧ (1 : Word) = bitMask 0 ∧
    (stalledNow.engine 0).undo = some ⟨10000000, 1, 0, 7, 0x05000001, false⟩ ∧ (10000000 : Nat) = stalledNow.clk.now := by
  simp only [Mach.takesWrite]; decide +kernel

theorem witness_EngineWrites : base.eng.engs.length = 4 ∧ (stopping.eng.engs.length = 4) ∧ base.takesWrite (.port .a) .direct 0x2708 ∧
    base.takesWrite .event .direct 0x270C ∧ base.takesWrite .core .direct 0x2710 ∧ base.takesWrite (.port .b) .direct 0x2714 ∧
    base.takesWrite (.port .a) .direct 0x271C ∧ (∀ n < 4, (0xF : Word).getLsbD n = true → base.engReserved n = false) ∧
    (base.updEng 0 (fun e => { e with resok := true })).takesWrite .core .direct 0x2710 ∧
    (∀ n < 4, (1 : Word).getLsbD n = true → (base.updEng 0 (fun e => { e with resok := true })).engReserved n = false ∧
      ((base.updEng 0 (fun e => { e with resok := true })).engine n).resok = true ∧
      ((base.updEng 0 (fun e => { e with resok := true })).engine n).run = .stopped) ∧
    (∀ n < 4, (base.engine n).undo = none) ∧ (∀ n < 4, (base.engine n).ctxs.length = 8) ∧ base.takesWrite (.port .a) .direct (0x2680 + 32 * 3 + 4 * 7) ∧
    7 < (base.engine 3).ctxs.length ∧ (base.ctx 3 7).txf = false ∧ (base.ctx 3 7).txAt ≠ some base.clk.now := by
  simp only [Mach.takesWrite]; decide +kernel

theorem witness_PinWrites : base.canonical = true ∧ base.takesWrite (.port .a) .direct (pinAddr 15) ∧ (∀ n, base.engActive n = false) ∧
    (bitsAt (base.reg (pinAddr 15)) 16 3 ≠ 0 → base.engReserved (bitsAt (base.reg (pinAddr 15)) 16 3 - 1) = false) ∧
    ∃ d, regDef (pinAddr 15) = some d ∧ d.inRange (d.written .direct (base.reg (pinAddr 15)) 0x00040006) = true := by
  have h : ∀ n, base.engActive n = false := by
    intro n
    unfold Mach.engActive Mach.engine
    rw [List.getD_eq_getElem?_getD]
    by_cases hn : n < 4
    · interval_cases n <;> decide +kernel
    · rw [List.getElem?_eq_none (show base.eng.engs.length ≤ n from Nat.le_of_not_lt hn)]; decide
  simp only [Mach.takesWrite]
  exact ⟨by decide +kernel, by decide +kernel, h, by decide +kernel, (regDef (pinAddr 15)).get (by decide +kernel), by decide +kernel,
    by decide +kernel⟩

/-- A manager of both buses at a frame start; worker 31 is ACTIVE, served from its queue 3, and Q4 has 8 banks. -/
def manager : Mach :=
  { (regsAre base [(0x2800, 0x00020030), (workerReg 31, 0x00000F08)]).updQ 4 (fun q => { q with banks := 8, run := .run }) with
    clk := { base.clk with ts := BitVec.ofNat 64 second }
    flue := { base.flue with
      role := 2, busTurn1 := 15, forward := some ⟨31, 4, 3⟩, lastScan := some 0
      workers := listUpd base.flue.workers 31 (fun w => { w with st := 1, nextQueue := 3 }) } }

/-- A worker that measures pulses: locked since its last pulse, a load armed. -/
def follower (s : SyncSt) : Mach :=
  { regsAre base [(0x2808, 1)] with
    flue := { base.flue with role := 1, sync := s, lastPulse := some (1000, 996), loadAt := if s = .locked then some 100 else none } }

theorem witness_FleetTime :
    (manager.canonical = true ∧ manager.noClear ∧ manager.on 6 = true ∧ manager.fleet = true ∧ manager.clk.vio = true ∧
      frameStart (frameOf manager.ts) = manager.ts) ∧
    ((follower .locked).canonical = true ∧ (follower .locked).noClear ∧ (follower .locked).on 6 = true ∧ (follower .locked).flue.sync = .locked ∧
      (follower .locked).flue.lastPulse ≠ none) ∧
    (∀ p, (follower .locked).flue.lastPulse = some p → p.1 + millis 3 < (follower .locked).clk.now) ∧
    ((follower .locked).takesWrite (.port .a) .direct 0x2818 ∧ bitAt 1 0 = true ∧ (follower .locked).flag 0x2818 0 = false) ∧
    ((follower .locked).clk.life = .up ∧ (follower .locked).clk.vio = true ∧ (follower .locked).flue.role = 1 ∧
      (follower .locked).fosc = true ∧ 4 ≤ 4 ∧ 14 ≤ 128 ∧ (follower .locked).clk.mode = .run ∧ (follower .locked).clk.entry = none ∧
      (follower .locked).clk.wokeAt ≠ some (follower .locked).clk.now ∧ (follower .locked).flue.loadAt = some 100 ∧
      100 + millis 1 < (follower .locked).clk.now ∧ (follower .free).flue.loadAt = none ∧ (follower .acquire).flue.loadAt = none ∧
      (follower .holdover).flue.loadAt = none) := by
  have h : ∀ p, (follower .locked).flue.lastPulse = some p → p.1 + millis 3 < (follower .locked).clk.now := by
    intro p hp
    have e : (follower .locked).flue.lastPulse = some (1000, 996) := rfl
    rw [e] at hp
    injection hp with hp
    subst hp
    decide +kernel
  simp only [Mach.takesWrite, Mach.noClear]
  exact ⟨by decide +kernel, by decide +kernel, h, by decide +kernel, by decide +kernel⟩

/-- Worker 31 answers a scan: its identity, serial 5, protocol level 1, LOCKED before and marked after. -/
def answer : ScanAnswer := ⟨31, some [0x4E4C4716, 0, 5, 0, 0x01000000, 0], false, some 2, 0, some 4⟩

/-- A block of worker 31's Q3, sequence 9, but for its CRC-32; with it. -/
def pulledBody : List Word := [0x4E4C0003, 0, 0, 0, 9] ++ List.replicate 1015 0
def pulled : List Word := pulledBody ++ [crc32 (wordsBytes pulledBody), 0, 0, 0]

theorem pulled_good : blockGood 0 3 pulled = true := by
  have h1 : pulled.take 1020 = pulledBody := List.take_left' (by decide +kernel)
  have h2 : pulled.getD 1020 0 = crc32 (wordsBytes pulledBody) := by
    unfold pulled
    rw [List.getD_eq_getElem?_getD, List.getElem?_append_right (by decide +kernel), show 1020 - pulledBody.length = 0 by decide +kernel]
    rfl
  have h3 : pulled.length = 1024 := by
    unfold pulled
    rw [List.length_append, show pulledBody.length = 1020 by decide +kernel]
    rfl
  unfold blockGood
  rw [h1, h2, h3]
  simp only [decide_true, Bool.and_true]
  decide +kernel

/-- The manager with a scan due and worker 31 unknown; with worker 31 at its last miss; with it absent and the buffer off. -/
def scanning : Mach :=
  { manager with
    clk := { manager.clk with now := second }
    flue := { manager.flue with workers := base.flue.workers }
    nv := { manager.nv with slotA := ⟨.good, [0, 0, 0, 0, 0, 0, 0, 0, 1, 1, 2, 3], none⟩ } }
def lastMiss : Mach := manager.updWorker 31 (fun w => { w with missed := 1 })
def away : Mach :=
  { manager.updWorker 31 (fun w => { w with st := 2, absent := true }) with
    clk := { manager.clk with now := 0xFFFFFF * 65536, dom := { manager.clk.dom with d4 := .off } } }

/-- Worker 31's answers to a pull: none; not ready; its block. -/
def pullNone : PullAnswer := ⟨3, false, 0, false, false, [], [], false, 0⟩
def pullLater : PullAnswer := ⟨3, true, 0x1FFF, true, false, [], [], false, 0⟩
def pullGood : PullAnswer := ⟨3, true, 0x1FFF, false, false, [pulled], [], false, 0⟩

theorem witness_FleetService :
    (scanning.canonical = true ∧ scanning.noClear ∧ scanning.fleet = true ∧ scanning.flue.workers.length = 32 ∧ scanning.flue.lastScan = some 0 ∧
      0 + second ≤ scanning.clk.now ∧ answer.w = 31 ∧ scanning.busOn (31 / 16) = true ∧ (scanning.worker 31).st ≠ 1 ∧
      (scanning.worker 31).absent = false ∧ (scanning.worker 31).commanded = false ∧ answer.crcFails = false ∧
      answer.ident = some [0x4E4C4716, 0, 5, 0, 0x01000000, 0] ∧ bitsAt 0x01000000 24 8 ≤ scanning.ownLevel ∧
      answer.wstate.map (fun v => bitsAt v 0 2) = some 2 ∧ answer.loadStatus = 0 ∧
      answer.wstateAfter.map (fun v => bitAt v 2) = some true) ∧
    (∀ m ∈ [manager, lastMiss], m.canonical = true ∧ m.noClear ∧ m.fleet = true ∧ m.flue.workers.length = 32 ∧
      m.turnWorker (31 / 16) = some 31 ∧ m.turnQueue 31 = some 3) ∧
    (pullNone.answered = false ∧ (manager.worker 31).missed + 1 < manager.fld 0x2800 16 8 ∧
      manager.fld 0x2800 16 8 ≤ (lastMiss.worker 31).missed + 1) ∧
    (pullLater.answered = true ∧ pullLater.crcErrors = [] ∧ pullLater.unassigned = false ∧ bitsAt pullLater.fill 0 13 ≠ 0 ∧
      pullLater.notReady = true) ∧
    ((manager.worker 31).serial = 0 ∧ blockGood 0 3 pulled = true) ∧
    (pullGood.answered = true ∧ pullGood.crcErrors = [] ∧ pullGood.unassigned = false ∧ pullGood.notReady = false ∧
      bitsAt pullGood.fill 0 13 ≠ 0 ∧ pullGood.blocks.head? = some pulled ∧
      (9 : Nat) = (pulled.getD 3 0).toNat * 2 ^ 32 + (pulled.getD 4 0).toNat ∧ (manager.worker 31).lastSeq.getD 3 none = none ∧
      (manager.worker 31).turnBlocks < 3 ∧ manager.buf.queues.length = 5) ∧
    (manager.flue.forward = some ⟨31, 4, 3⟩ ∧ 4 + 1 = 3 + 2 ∧
      { manager with flue := { manager.flue with forward := some ⟨31, 3, 3⟩ } }.flue.forward = some ⟨31, 3, 3⟩ ∧ 3 + 1 < 3 + 2) ∧
    (away.canonical = true ∧ away.noClear ∧ away.fleet = true ∧ away.flue.workers.length = 32 ∧ (away.worker 31).absent = true ∧
      (away.worker 31).awaySince + 0xFFFFFF * 65536 ≤ away.clk.now ∧ away.taking = false) := by
  simp only [Mach.noClear]
  exact ⟨by decide +kernel, by decide +kernel, by decide +kernel, by decide +kernel, ⟨by decide +kernel, pulled_good⟩,
    ⟨by decide +kernel, by decide +kernel, by decide +kernel, by decide +kernel, by decide +kernel, rfl, by decide +kernel⟩,
    by decide +kernel, by decide +kernel⟩

/-- A commit record under way with the supply gone. -/
def committing : Mach :=
  { base with
    clk := { base.clk with vsup := false }
    nv := { base.nv with committing := some ⟨[1, 2, 3, 4], [none, none, none, none], 0, [], [], 0, 1, false, false, 0⟩ } }

theorem witness_SupplyChanges :
    (base.nv.write = none ∧ base.bist.run = none ∧ base.clk.vsup = true ∧ base.clk.life = .up ∧ 2000 < 2001) ∧
    ({ base with clk := { base.clk with life := .noSlot } }.clk.life ≠ .up ∧
      { base with clk := { base.clk with life := .noSlot } }.clk.vsup = true) ∧
    ({ base with clk := { base.clk with vio := false } }.clk.vio = false) ∧
    (committing.nv.write = none ∧ committing.bist.run = none ∧ committing.clk.vsup = false ∧ committing.nv.commitStart = none ∧
      committing.nv.committing = some ⟨[1, 2, 3, 4], [none, none, none, none], 0, [], [], 0, 1, false, false, 0⟩) := by
  decide +kernel

/-- A new firmware waits for its activation in slot B; slot A runs. -/
def activating : Mach :=
  { base with nv := { base.nv with activation := some (some .a, 0), nextB := true, slotA := ⟨.good, [], some 0⟩, slotB := ⟨.try_, [], none⟩ } }

/-- A trial that has run for 10 s; a start whose self-test has ended. -/
def trial : Mach :=
  { base with
    clk := { base.clk with now := 10 * second + 512 }
    nv := { base.nv with runB := true, slotB := ⟨.try_, [], some 0⟩ } }
def starting : Mach := { base with clk := { base.clk with start := some ⟨true, true, 512, .run, true, true⟩ } }

theorem witness_StartsBeginAndEnd : (⟨false, true, false⟩ : Straps).test = false ∧
    (base.nv.slotA.st ≠ .try_ ∧ base.nv.slotB.st ≠ .try_ ∧ (base.slot base.nv.nextB).st = .good ∧ base.nv.committing = none ∧
      { base with clk := { base.clk with vsup := false } }.clk.vsup = false ∧ 1000 ≤ 1000 ∧ base.clk.vsup = true ∧ base.clk.vio = true ∧
      base.nv.write = none) ∧
    (committing.nv.committing.isSome = true ∧ committing.clk.vsup = false) ∧
    (activating.nv.activation = some (some .a, 0) ∧ (activating.port .a).finalLeft = 0 ∧ (activating.port .a).executing = none ∧
      activating.clk.life = .up ∧ activating.clk.vsup = true ∧ activating.nv.write = none ∧ activating.bist.run = none ∧
      (activating.slot activating.nv.nextB).st = .try_ ∧
      activating.fwVerifies (activating.slot activating.nv.nextB).image = false ∧ (activating.slot (!activating.nv.nextB)).st = .good) ∧
    (trial.running.st = .try_ ∧ trial.clk.life = .up ∧ trial.clk.mode = .run ∧ trial.clk.start = none ∧
      trial.clk.runSince + 10 * second ≤ trial.clk.now) ∧
    (starting.canonical = true ∧ starting.regs.cleared = [] ∧ starting.clk.start = some ⟨true, true, 512, .run, true, true⟩ ∧ starting.clk.vholdArmed = true ∧
      starting.bist.run = none ∧ starting.clk.life = .up ∧ starting.on 0 = true ∧ starting.flag 0x808 0 = false) := by
  decide +kernel

/-- An entry to a mode in one of its phases; a wake enabled at port A. -/
def entering (t : Mode) (ph : Phase) : Mach :=
  { regsAre base [(0x818, 1)] with clk := { base.clk with entry := some ⟨t, ph, 9000000, none, false, false⟩ } }

/-- The same entry with an engine running, which refuses it. -/
def refused : Mach := (entering .watch .close).updEng 0 (fun e => { e with run := .running })

/-- Watch, its wake timer at 1; as a wake source or not. -/
def watching (timer : Bool) : Mach :=
  { regsAre base [(0x818, if timer then 0x11 else 1), (0x81C, 1)] with
    clk := { base.clk with mode := .watch, dom := ⟨true, .on, .off, .on, .retain, .off, .off, .off⟩ } }

theorem witness_PowerModesChange :
    (base.canonical = true ∧ base.on 0 = true ∧ base.clk.life = .up ∧ base.takesWrite (.port .a) .direct 0x80C ∧
      base.clk.mode = .run ∧ base.clk.start = none ∧ base.domCheck 0x12 = 0 ∧ base.takesWrite (.port .a) .direct 0x800 ∧
      bitAt 0x12 4 = true ∧ bitsAt 0x12 0 2 = 2 ∧ bitsAt 0x11 0 2 = 1 ∧ base.clk.entry = none ∧
      base.refusers (portOf (.port .a)) false false = []) ∧
    ((entering .watch .close).canonical = true ∧ (entering .watch .close).refusers none false (!false) = [] ∧
      (entering .ember .close).refusers none false (!false) = [] ∧ refused.refusers none false (!false) ≠ [] ∧ refused.canonical = true) ∧
    ((entering .ember .switchOff).clk.latchedWake = none ∧ (entering .ember .switchOff).canonical = true ∧
      Phase.switchOff ≠ .selfTest ∧ (entering .ember .switchOff).clk.vio = true ∧ 14 ≤ 14 ∧
      (entering .ember .switchOff).portTested .a = false ∧ (entering .ember .switchOff).flag 0x818 0 = true) ∧
    (∀ b ∈ [true, false], (watching b).canonical = true ∧ (watching b).on 0 = true ∧ (watching b).clk.life = .up ∧
      (watching b).clk.mode = .watch ∧ (watching b).clk.entry = none ∧ (watching b).clk.start = none ∧ (watching b).on 5 = false ∧
      (watching b).clk.vio = true ∧ (watching b).portTested .a = false ∧ (watching b).flag 0x818 0 = true ∧
      1 = ((watching b).reg 0x81C).toNat ∧ (watching b).clk.wakeTimerFired = false ∧
      (watching b).clk.modeSince + 1 * 65536 ≤ (watching b).clk.now ∧ (watching b).flag 0x818 4 = b) := by
  simp only [Mach.takesWrite]; decide +kernel

/-- Runs of tests: the ASIC's fourth last, and two left; an outcome that passes. -/
def testRun (todo : List Nat) : TestRun := ⟨.command, todo, [], some .a, false, false, [], true, 0⟩
def underTest (todo : List Nat) : Mach := { base with bist := { base.bist with run := some (testRun todo) } }
def passed (steps : Nat) : TestOutcome := ⟨5, true, steps, 0, 0, false⟩

/-- Copies to spares: of a bank by the register, and of a row. -/
def copying (bank : Bool) : Mach := { base with bist := { base.bist with copies := [⟨bank, if bank then 127 else 65535, bank⟩] } }

theorem witness_TestsAndSpares :
    (base.canonical = true ∧ base.noClear ∧ base.on 0 = true ∧ base.takesWrite (.port .a) .direct 0x3400 ∧ (0x28 : Word) &&& 0x7F ≠ 0 ∧
      base.testCheck (setBitsOf 7 ((0x28 : Word) &&& 0x7F)) = 0) ∧
    ((underTest [3, 5]).canonical = true ∧ (underTest [3, 5]).bist.run = some (testRun [3, 5]) ∧ (testRun [3, 5]).todo = 3 :: [5] ∧
      (passed 24).sigOk = true ∧ (passed 24).steps = testSteps (testRun [3, 5]) 3 ∧ (testRun [3, 5]).byVerb = false ∧
      (passed 24).steps < 2 ^ 24 ∧ bitAt (testRun [3, 5]).seen 0 = false ∧ (underTest [3, 5]).noClear) ∧
    ((underTest [5]).canonical = true ∧ (underTest [5]).bist.run = some (testRun [5]) ∧ (testRun [5]).todo = 5 :: [] ∧
      (passed 327680).steps = testSteps (testRun [5]) 5 ∧ (passed 327680).steps < 2 ^ 24 ∧ (testRun [5]).kind ≠ .shutdown) ∧
    (base.takesWrite (.port .a) .direct 0x34A0 ∧ base.flag 0x34A0 31 = false ∧
      ∀ i < 6, bitAt ([0x8000FFFF, 0x8001007F, 0x80030003, 0x80040002, 0x80050000, 0x80060001].getD i 0) 31 = true ∧
        base.refuseSpare (.port .a) (bitsAt ([0x8000FFFF, 0x8001007F, 0x80030003, 0x80040002, 0x80050000, 0x80060001].getD i 0) 16 3)
          (bitsAt ([0x8000FFFF, 0x8001007F, 0x80030003, 0x80040002, 0x80050000, 0x80060001].getD i 0) 0 16) = 0) ∧
    (∀ b ∈ [true, false], (copying b).canonical = true ∧ (copying b).on 0 = true ∧
      (copying b).bist.copies = [⟨b, if b then 127 else 65535, b⟩] ∧ (copying b).bist.run = none ∧ (copying b).buf.units.length = 136 ∧
      (copying b).noClear) := by
  simp only [Mach.takesWrite, Mach.noClear]; decide +kernel

/-- A line typed at port A, just terminated. -/
def line (text : String) : WaitingLine := ⟨ascii text, false, 0⟩
def saying (m : Mach) (text : String) : Mach := { m with pa := { m.pa with waiting := some (line text) } }

/-- What port A's line is, once it is due and runs. -/
def said (m : Mach) : Option Cmd :=
  match m.lineDue .a with
  | some l =>
    match m.checkLine .a l with
    | .runs false c =>
      if m.regs.cleared = [] ∧ (m.owned = true → m.cmdAuth .a c = true → (m.port .a).auth = true) ∧
        m.cmdSems c &&& m.semsOf (Port.a).other = 0 then some c
      else none
    | _ => none
  | none => none

theorem runs {m : Mach} {c : Cmd} (h : said m = some c) : m.runsNow .a false c := by
  unfold said at h
  split at h
  · rename_i l hl
    split at h
    · rename_i x hx
      split at h
      · rename_i hs
        injection h with h
        subst h
        exact ⟨no_clear hs.1, ⟨l, hl, hx⟩, hs.2⟩
      · cases h
    · cases h
  · cases h

theorem digit_facts : ∀ n < 16, hexValue (hexDigit n) = some n ∧ hexDigit n ≠ 0x20 ∧ hexDigit n ≠ 0x2A ∧ hexDigit n ≠ 0x5F := by
  decide

theorem tokens_digits (c : Nat) (ns : List Nat) (h : ∀ n ∈ ns, n < 16) : ∀ (col : Nat) (t : List Byte),
    tokensFrom col (some (c, t)) (ns.map hexDigit) = [⟨c, t.reverse ++ ns.map hexDigit⟩] := by
  induction ns with
  | nil => intro col t; simp [tokensFrom]
  | cons n ns ih =>
    intro col t
    have hn := digit_facts n (h n (by simp))
    rw [List.map_cons, tokensFrom, if_neg hn.2.1, ih (fun m hm => h m (by simp [hm]))]
    simp

theorem value_digits (ns : List Nat) (h : ∀ n ∈ ns, n < 16) : ∀ k : Nat,
    (ns.map hexDigit).foldl (fun n b => (do some (16 * (← n) + (← hexValue b)))) (some k) = some (ns.foldl (fun a n => 16 * a + n) k) := by
  induction ns with
  | nil => intro k; rfl
  | cons n ns ih =>
    intro k
    have hn := digit_facts n (h n (by simp))
    rw [List.map_cons, List.foldl_cons, List.foldl_cons]
    simp only [hn.1]
    exact ih (fun m hm => h m (by simp [hm])) _

/-- The low `k` hexadecimal digits of a number. -/
def digits : Nat → Nat → List Nat
  | 0, _ => []
  | k + 1, v => digits k (v / 16) ++ [v % 16]

theorem digits_small : ∀ k v, ∀ n ∈ digits k v, n < 16
  | 0, _, n, h => by simp [digits] at h
  | k + 1, v, n, h => by
    rcases List.mem_append.mp h with h | h
    · exact digits_small k _ n h
    · have := List.mem_singleton.mp h
      omega

theorem digits_value : ∀ k v, v < 16 ^ k → (digits k v).foldl (fun a n => 16 * a + n) 0 = v
  | 0, v, h => by simp [digits] at *; omega
  | k + 1, v, h => by
    rw [digits, List.foldl_append, digits_value k (v / 16) (by rw [Nat.pow_succ] at h; omega)]
    simp only [List.foldl_cons, List.foldl_nil]
    omega

theorem digits_length : ∀ k v, (digits k v).length = k
  | 0, _ => rfl
  | k + 1, v => by rw [digits, List.length_append, digits_length k]; rfl

theorem serial_is (v : Nat) (h : v < 2 ^ 64) : serialIs v (0x30 :: 0x78 :: (digits 16 v).map hexDigit) = true := by
  have hs := digits_small 16 v
  have hf : ((digits 16 v).map hexDigit).filter (fun b => b != 0x5F) = (digits 16 v).map hexDigit := by
    rw [List.filter_eq_self]
    intro b hb
    obtain ⟨n, hn, rfl⟩ := List.mem_map.mp hb
    simpa using (digit_facts n (hs n hn)).2.2.2
  have hd : ∀ b ∈ (digits 16 v).map hexDigit, b ≠ 0x5F := by
    intro b hb
    obtain ⟨n, hn, rfl⟩ := List.mem_map.mp hb
    exact (digit_facts n (hs n hn)).2.2.2
  have hl : ((digits 16 v).map hexDigit).length = 16 := by rw [List.length_map, digits_length]
  have hv := digits_value 16 v h
  have hn : hexNumber ((digits 16 v).map hexDigit) = some v := by
    unfold hexNumber
    simp only [hf]
    rw [if_neg, value_digits _ hs, hv]
    rintro (h | h | h | h)
    · exact hd _ (List.mem_of_head? h) rfl
    · exact hd _ (List.mem_of_getLast? h) rfl
    · rw [List.isEmpty_iff] at h
      rw [h] at hl
      cases hl
    · omega
  simp only [serialIs]
  simp
  exact ⟨(congrArg List.length hf).trans hl, hn⟩

/-- The line `key retire` with the device's serial. -/
def retireLine : WaitingLine := ⟨ascii "key retire 0x" ++ (digits 16 Config.serial.toNat).map hexDigit, false, 0⟩

theorem retire_runs (m : Mach) : m.checkLine .a retireLine = .runs false .keyRetire := by
  have hs := digits_small 16 Config.serial.toNat
  have hr := serial_is Config.serial.toNat Config.serial.isLt
  have h1 : splitChecksum retireLine.chars = none := by
    unfold splitChecksum
    split
    · rename_i b a rest he
      exfalso
      have := congrArg (fun l => l[2]?) he
      simp [retireLine, digits] at this
      exact (digit_facts _ (Nat.mod_lt _ (by decide))).2.2.1 this
    · rfl
  have h2 : tokens retireLine.chars = [⟨1, ascii "key"⟩, ⟨5, ascii "retire"⟩,
      ⟨12, 0x30 :: 0x78 :: (digits 16 Config.serial.toNat).map hexDigit⟩] := by
    have hp : ∀ ds : List Byte, tokens (ascii "key retire 0x" ++ ds) = ⟨1, ascii "key"⟩ :: ⟨5, ascii "retire"⟩ ::
        tokensFrom 14 (some (12, [0x78, 0x30])) ds := fun _ => rfl
    show tokens (ascii "key retire 0x" ++ _) = _
    rw [hp, tokens_digits _ _ hs]
    rfl
  have hk : (pick (ascii "key") verbNames).bind (fun v => verbNames.findIdx? (fun n => n == v)) = some 9 := by decide +kernel
  have hp : ∀ x : Scope, parseVerb x 9 [⟨5, ascii "retire"⟩, ⟨12, 0x30 :: 0x78 :: (digits 16 Config.serial.toNat).map hexDigit⟩] = (do
      if serialIs x.serial (0x30 :: 0x78 :: (digits 16 Config.serial.toNat).map hexDigit) then pure () else rangeAt 12
      noArgs .keyRetire []) := by
    intro x
    have he : exactly (ascii "retire") ["pub", "cert", "enrol", "retire"] = some 3 := by decide +kernel
    simp only [parseVerb, parseKey, withWord, nextArg, he]
  unfold Mach.checkLine
  simp only [h1, h2, show retireLine.tooLong = false from rfl, hk, hp, Mach.scope, hr]
  rfl

/-- An engine image: words for addresses 254 and 255, context 7 starting at 254; signed with the key in its trailer. -/
def engineImage : List Byte :=
  natBytes 32 0x4E4C49500101FE00000280000000000000000000000000FE30000001B0000010 ++
  natBytes 32 0x020100006B17D1F2E12C4247F8BCE6E563A440F277037D812DEB33A0F4A13945 ++
  natBytes 32 0xD898C2964FE342E2FE1A7F9B8EE7EB4A7C0F9E162BCE33576B315ECECBB64068 ++
  natBytes 32 0x37BF51F58E533B6FA0BF7B4625BB30667C01FB607EF9F8B8A80FEF5B30062870 ++
  natBytes 32 0x3187B2A356EAF144832251A09464E0A13AD2A1F9ABA433AF5E28048EA74C2017 ++
  natBytes 4 0xA9A12032

/-- An event image: one word for address 1023. -/
def eventImage : List Byte :=
  natBytes 32 0x4E4C4550010203FF0001000000000000280003FF020100006B17D1F2E12C4247 ++
  natBytes 32 0xF8BCE6E563A440F277037D812DEB33A0F4A13945D898C2964FE342E2FE1A7F9B ++
  natBytes 32 0x8EE7EB4A7C0F9E162BCE33576B315ECECBB6406837BF51F53ED113B7883B4C59 ++
  natBytes 32 0x0638379DB0C21CDA16742ED0255048BF433391D374BC21D158FDA4AABF98D99F ++
  natBytes 24 0xCCD1AE14224E59FAAA89F638F980AFFD8965BD78658F9B6A

/-- The block with its own keys, certificates and image in short. -/
def plain : Mach :=
  { base with
    sec := { base.sec with pub := (1, 2), cert := [1, 2, 3], caCert := [4] }
    nv := { base.nv with slotA := ⟨.good, [0, 0, 0, 0, 0, 0, 0, 0, 1, 1, 2, 3], none⟩ } }

/-- A readable block in Q0. -/
def stocked : Mach := plain.updQ 0 (fun q => { q with unread := [qBlock true] })

/-- The key pair whose secret is 1, as 64 bytes in hexadecimal. -/
def ownerHex : String :=
  "6B17D1F2 E12C4247 F8BCE6E5 63A440F2 77037D81 2DEB33A0 F4A13945 D898C296 4FE342E2 FE1A7F9B 8EE7EB4A 7C0F9E16 2BCE3357 6B315ECE CBB64068 37BF51F5"

def ownerBytes : List Byte := keyBytes p256G

/-- OWNED by that key, with a challenge open on port A, the owner's key given or not. -/
def owned (given : Bool) : Mach :=
  { plain with
    sec := { plain.sec with life := 2, owner := some (sha256 ownerBytes) }
    pa := { plain.pa with challenge := some ⟨7, 1, p256G, if given then some p256G else none, 0⟩, auth := true } }

/-- An upgrade of port A with all but its last piece; with every piece of the engine image. -/
def piecesOf (img : List Byte) : List (Nat × List Byte) :=
  (List.range ((img.length + 47) / 48)).map (fun k => (48 * k, (img.drop (48 * k)).take 48))
def upgrading : Mach :=
  { plain with nv := { plain.nv with upgrade := some ⟨.a, .engine, 15, engineImage.length, piecesOf engineImage⟩ } }

/-- Both images in the library. -/
def library : Mach := { plain with nv := { plain.nv with images := [(15, engineImage), (14, eventImage)] } }

/-- The manager with worker 31 ACTIVE and no forwarding; with worker 31 kept AWAY. -/
def fleet : Mach := { manager with flue := { manager.flue with forward := none } }
def kept : Mach := fleet.updWorker 31 (fun w => { w with st := 2, commanded := true })

/-- The block a minute on, where nothing was sealed; with reason SIZE to seal; with a seal under way, Q3 with room or blocked. -/
def later : Mach := { base with clk := { base.clk with now := 60 * second } }
def sealDue : Mach := { base with sec := { base.sec with reasons := 0x20 } }
def signing (blocked : Bool) : Mach :=
  { base.updQ 3 (fun q => { q with unread := if blocked then [{ qBlock false with blockNo := q.openNo }] else [] }) with sec := { base.sec with sealing := some ⟨[], 0, false, false, []⟩ } }

/-- A challenge and a lockout of port B that end now. -/
def locked : Mach :=
  { later with pb := { later.pb with challenge := some ⟨7, 1, p256G, none, later.clk.now - 60 * second⟩, lockUntil := some later.clk.now } }

theorem witness_SealsKeysAndTheirTimers :
    (later.canonical = true ∧ later.noClear ∧ later.sec.life = 1 ∧ later.sec.lastCompose + 10 * second ≤ later.clk.now) ∧
    (sealDue.canonical = true ∧ sealDue.noClear ∧ sealDue.testing 3 = false ∧ sealDue.taking = true ∧ sealDue.sec.sealing = none ∧ sealDue.sec.reasons ≠ 0 ∧ sealDue.sec.life = 1 ∧
      sealDue.sec.reasons.getLsbD 2 = false ∧ sealDue.sec.reasons.getLsbD 6 = false) ∧
    (∀ b ∈ [false, true], (signing b).canonical = true ∧ (signing b).noClear ∧ (signing b).sec.sealing = some ⟨[], 0, false, false, []⟩ ∧
      (signing b).taking = true ∧ (signing b).qPolicy 3 = 0 ∧ (signing b).buf.queues.length = 5 ∧ ((signing b).q 3).run = .run ∧
      (signing b).sealRoom = !b) ∧
    (locked.canonical = true ∧ (locked.port .b).challenge = some ⟨7, 1, p256G, none, locked.clk.now - 60 * second⟩ ∧
      locked.clk.now - 60 * second + 60 * second ≤ locked.clk.now ∧ (locked.port .b).lockUntil = some locked.clk.now) ∧
    ({ base with sec := { base.sec with life := 0 } }.canonical = true ∧ { base with sec := { base.sec with life := 0 } }.sec.life = 0 ∧
      { base with sec := { base.sec with life := 0 } }.on 7 = true) := by
  simp only [Mach.noClear]
  exact ⟨by decide +kernel, by decide +kernel, by decide +kernel, by decide +kernel, by decide +kernel⟩

/-- Port A's line is this command, and a reply of these lines and this code fits. -/
def tells (m : Mach) (text : String) (c : Cmd) (data : Mach → List (List Byte)) (code : Nat) : Bool :=
  decide (said (saying m text) = some c) &&
    (decide (((saying m text).port .a).dropReply = false) &&
      (decide (((saying m text).port .a).reply.length + (((data (saying m text)).map (replyLine false)).flatten).length ≤ dataRoom) &&
        decide (((saying m text).port .a).reply.length + (replyBytes false (data (saying m text)) (finalText code)).length ≤ replyRoom)))

/-- The line runs and its reply fits. -/
def speaks (m : Mach) (text : String) (c : Cmd) (data : Mach → List (List Byte)) (code : Nat) : Prop :=
  (saying m text).canonical = true ∧ (saying m text).runsNow .a false c ∧ (saying m text).fits .a false (data (saying m text)) (finalText code)

theorem spoken {m : Mach} {text : String} {c : Cmd} {data : Mach → List (List Byte)} {code : Nat}
    (h0 : (saying m text).canonical = true) (h : tells m text c data code = true) : speaks m text c data code := by
  unfold tells at h
  simp only [Bool.and_eq_true, decide_eq_true_eq] at h
  exact ⟨h0, runs h.1, h.2.1, h.2.2.1, h.2.2.2⟩

/-- The block with D7 and the engines' domain OFF, and its event and Flue blocks under test: their status lines are refused. -/
def dark : Mach :=
  { plain with
    clk := { plain.clk with dom := { plain.clk.dom with d3 := .off, d6 := .off, d7 := .off } } }

/-- No engine has run: its status lines show no program counter but 0, whichever context they name. -/
theorem plain_engines : (saying plain "engine status").engineLines =
    [ascii "eng.0 STOPPED 0", ascii "eng.1 STOPPED 0", ascii "eng.2 STOPPED 0", ascii "eng.3 STOPPED 0"] := by
  have h : ∀ n < 4, ∀ k < 8, ((saying plain "engine status").ctx n k).pc = 0 := by decide +kernel
  have hk : ∀ k : Nat, k % 8 < 8 := fun k => Nat.mod_lt _ (by decide)
  show (List.range 4).map _ = _
  simp only [show List.range 4 = [0, 1, 2, 3] from rfl, List.map_cons, List.map_nil, h 0 (by decide) _ (hk _), h 1 (by decide) _ (hk _),
    h 2 (by decide) _ (hk _), h 3 (by decide) _ (hk _)]
  decide +kernel

theorem witness_ShowVerbs :
    (speaks plain "auth status" .authStatus (fun m => [m.authLine .a, m.lifeLine]) 0 ∧
      speaks plain "key pub" .keyPub (fun m => [ascii "pub " ++ hexBlock (keyBytes m.sec.pub)]) 0 ∧ plain.blockCode 12 = 0 ∧
      speaks plain "key cert" .keyCert (fun m => m.sec.certLines) 0) ∧
    (speaks plain "engine status" .engineStatus Mach.engineLines 0 ∧ plain.blockCode 9 = 0 ∧
      speaks plain "event status" .eventStatus Mach.eventLines 0 ∧ plain.blockCode 8 = 0 ∧
      speaks kept "flue list" .flueList Mach.flueLines 0 ∧ kept.blockCode 10 = 0) ∧
    (speaks plain "test show" .testShow Mach.testLines 0 ∧ speaks plain "spare show" .spareShow Mach.spareLines 0 ∧
      speaks plain "upgrade status" .upgradeStatus (fun m => [m.upgradeLine]) 0 ∧ speaks plain "who" .who (fun m => m.whoLines .a) 0) ∧
    speaks plain "help set" (.help (some 1)) (fun _ => helpLines (some 1)) 0 ∧
    (dark.blockCode 12 ≠ 0 ∧ speaks dark "key pub" .keyPub (fun _ => []) (dark.blockCode 12) ∧
      speaks dark "key cert" .keyCert (fun _ => []) (dark.blockCode 12) ∧ dark.blockCode 9 ≠ 0 ∧
      speaks dark "engine status" .engineStatus (fun _ => []) (dark.blockCode 9) ∧ dark.blockCode 8 ≠ 0 ∧
      speaks dark "event status" .eventStatus (fun _ => []) (dark.blockCode 8) ∧ dark.blockCode 10 ≠ 0 ∧
      speaks dark "flue list" .flueList (fun _ => []) (dark.blockCode 10)) := by
  refine ⟨⟨spoken ?_ ?_, spoken ?_ ?_, ?_, spoken ?_ ?_⟩, ⟨?_, ?_, spoken ?_ ?_, ?_, spoken ?_ ?_, ?_⟩,
    ⟨spoken ?_ ?_, spoken ?_ ?_, spoken ?_ ?_, spoken ?_ ?_⟩, spoken ?_ ?_,
    ⟨?_, spoken ?_ ?_, spoken ?_ ?_, ?_, spoken ?_ ?_, ?_, spoken ?_ ?_, ?_, spoken ?_ ?_⟩⟩
  case refine_8 => exact spoken (by decide +kernel) (by unfold tells; rw [plain_engines]; decide +kernel)
  all_goals decide +kernel

/-- The field `pwr.drainreq`, and the threshold of a guard line. -/
def drainreq : NameField := ⟨["pwr", "drainreq"], 0x804, 0, 1, .onoff⟩
def threshold : NameField := ⟨["grd", "impact", "thr"], 0x2C04, 0, 12, .num ⟨1, 1, "g"⟩ 1 1 0 false⟩

theorem witness_ShowVerbs_values :
    (speaks plain "get pwr.drainreq" (.get [drainreq]) (fun m => [spaced [drainreq.text, drainreq.show 1
        [(m.begun .a (.get [drainreq])).peek drainreq.a]]]) 0 ∧
      drainreq.a < sessionBase ∧ drainreq.codec.span = 1 ∧ windowOf drainreq.a = none ∧ drainreq.a < 0x4000 ∧
      (saying plain "get pwr.drainreq").regHeader .core false drainreq.a 1 = 0 ∧ plain.hold .core = none) ∧
    (speaks plain "read 0x804 2" (.read 0x804 2) (fun m => readLines 0x804 false
        ((List.range 2).map (fun i => (m.begun .a (.read 0x804 2)).peek (0x804 % 0x4000 + 4 * i)))) 0 ∧
      windowOf (0x804 % 0x4000) = none ∧ 1 ≤ 2 ∧ 0x804 % 0x4000 + 4 * 2 ≤ lastOf (0x804 % 0x4000) + 4 ∧
      (saying plain "read 0x804 2").regHeader .core false 0x804 2 = 0) ∧
    (speaks stocked "stream q0 1020 4" (.stream 0 1020 4) (fun _ => streamLines 1020 [0, 0, 0, 0]) 0 ∧
      (saying stocked "stream q0 1020 4").streamCheck .a 0 = 0 ∧ 1020 + 4 ≤ (stocked.q 0).readable.length * 1024 ∧ 0 < 4 ∧
      ((stocked.q 0).wordsFrom ((stocked.q 0).posOf 1020) 4).map Prod.snd = [0, 0, 0, 0]) := by
  refine ⟨⟨spoken ?_ ?_, ?_⟩, ⟨spoken ?_ ?_, ?_⟩, spoken ?_ ?_, ?_, ?_, ?_, ?_⟩
  all_goals decide +kernel

/-- What a one-word write of the register at `a` finds when nothing refuses it: a definition whose check the written word passes. -/
def storesWell (m : Mach) (k : AccessKind) (a : Nat) (w : Word) : Bool :=
  match regDef a with
  | some d => d.inRange (d.written k (m.reg a) w)
  | none => false

theorem stores {m : Mach} {k : AccessKind} {a : Nat} {w : Word} (h : storesWell m k a w = true) :
    ∃ d, regDef a = some d ∧ d.inRange (d.written k (m.reg a) w) = true := by
  unfold storesWell at h
  split at h
  · rename_i d hd
    exact ⟨d, hd, h⟩
  · cases h

/-- No reply lines. -/
def silent (_ : Mach) : List (List Byte) := []

theorem witness_WriteVerbs_registers :
    (speaks plain "set pwr.drainreq on" (.set [(drainreq, 1, 18)]) silent 0 ∧ drainreq.a ∈ plainRegs ∧
      drainreq.cannotSet = false ∧ (plain.port .a).held = [] ∧
      (saying plain "set pwr.drainreq on").regHeader (.port .a) true drainreq.a 1 = 0 ∧
      ∃ d, regDef drainreq.a = some d ∧
        d.inRange (d.written .direct (plain.reg drainreq.a) (plain.fieldWord drainreq.a drainreq.mask (word (1 * 2 ^ drainreq.lo)))) = true) ∧
    (speaks plain "write 0xC804 1" (.write (0x804 + kindBits .toggleBits) [1] [14]) silent 0 ∧ 0x804 ∈ plainRegs ∧
      (saying plain "write 0xC804 1").regHeader (.port .a) true (0x804 + kindBits .toggleBits) 1 = 0 ∧
      ∃ d, regDef 0x804 = some d ∧ d.inRange (d.written .toggleBits (plain.reg 0x804) 1) = true) ∧
    (speaks plain "lock grd.impact.thr 100g" (.lock [(threshold, 100, 21)]) silent 0 ∧ threshold.a ∈ [0x2C00, 0x2C04, 0x2C08] ∧
      plain.regs.locked.contains threshold.a = false ∧
      (saying plain "lock grd.impact.thr 100g").regHeader (.port .a) true threshold.a 1 = 0 ∧
      ∃ d, regDef threshold.a = some d ∧ threshold.mask &&& ~~~d.lk = 0 ∧
        d.inRange (d.written .direct (plain.reg threshold.a)
          (plain.fieldWord threshold.a threshold.mask (word (100 * 2 ^ threshold.lo)))) = true ∧
        ((saying plain "lock grd.impact.thr 100g").begun .a (.lock [(threshold, 100, 21)])).rangeBad threshold.a
          (d.written .direct (plain.reg threshold.a) (plain.fieldWord threshold.a threshold.mask (word (100 * 2 ^ threshold.lo)))) = false) := by
  refine ⟨⟨spoken ?_ ?_, ?_, ?_, ?_, ?_, stores ?_⟩, ⟨spoken ?_ ?_, ?_, ?_, stores ?_⟩, spoken ?_ ?_, ?_, ?_, ?_,
    (regDef threshold.a).get (by decide +kernel), Option.some_get _ |>.symm, ?_⟩
  all_goals decide +kernel

/-- Every engine stopped, its resume point kept. -/
def resumable : Mach := { plain with eng := { plain.eng with engs := List.replicate 4 { Eng.fresh with resok := true } } }

theorem witness_WriteVerbs_engines :
    (speaks plain "engine start 0xF" (.engineStart 15) silent 0 ∧
      (saying plain "engine start 0xF").regHeader (.port .a) true 0x2708 1 = 0 ∧
      plain.eng.engs.length = 4 ∧ ∀ n < 4, (plain.engine n).undo = none ∧ ((15 : Nat).testBit n = true → plain.engReserved n = false)) ∧
    (speaks plain "engine stop 0xF" (.engineStop 15) silent 0 ∧
      (saying plain "engine stop 0xF").regHeader (.port .a) true 0x270C 1 = 0) ∧
    (speaks resumable "engine resume 0xF" (.engineResume 15) silent 0 ∧
      (saying resumable "engine resume 0xF").regHeader (.port .a) true 0x2710 1 = 0 ∧ resumable.eng.engs.length = 4 ∧
      ∀ n < 4, (15 : Nat).testBit n = true → resumable.engReserved n = false ∧ (resumable.engine n).resok = true ∧
        (resumable.engine n).run = .stopped) ∧
    (speaks plain "event start 0xFFFF" (.eventStart 0xFFFF) silent 0 ∧
      (saying plain "event start 0xFFFF").regHeader (.port .a) true 0x2000 1 = 0) ∧
    (speaks plain "event stop 0xFFFF" (.eventStop 0xFFFF) silent 0 ∧
      (saying plain "event stop 0xFFFF").regHeader (.port .a) true 0x2004 1 = 0) ∧
    (speaks stocked "commit q0 1" (.commit 0 1 11) silent 0 ∧ (saying stocked "commit q0 1").streamCheck .a 0 = 0 ∧
      (stocked.port .a).moved.getLsbD 0 = false ∧ 1 ≤ (stocked.q 0).readable.length ∧ (stocked.q 0).run ≠ .full ∧
      (stocked.q 0).discRun = none ∧ (stocked.port .a).store0 = none ∧ (stocked.port .a).store1 = none) ∧
    (speaks plain "mode ember" (.mode .ember) silent 0 ∧ Mode.ember ≠ .run ∧ plain.clk.start = none ∧ plain.clk.entry = none ∧
      ((saying plain "mode ember").begun .a (.mode .ember)).refusers (some .a) true true = []) := by
  refine ⟨⟨spoken ?_ ?_, ?_⟩, ⟨spoken ?_ ?_, ?_⟩, ⟨spoken ?_ ?_, ?_⟩, ⟨spoken ?_ ?_, ?_⟩, ⟨spoken ?_ ?_, ?_⟩, ⟨spoken ?_ ?_, ?_⟩,
    spoken ?_ ?_, ?_⟩
  all_goals decide +kernel

/-- A reply line of an `auth begin` in OWNED: the nonce and the fresh public key. -/
def challengeLine (m : Mach) : List (List Byte) :=
  [ascii "challenge " ++ hexBlock (digestBytes (Config.random m.free) ++
    keyBytes (ecPublic (scalarOf (Config.random (m.free + 1)))))]

theorem witness_SessionAndKeyVerbs :
    (speaks (owned false) ("auth pub " ++ ownerHex) (.authPub ownerBytes 10) silent 0 ∧ (owned false).blockCode 12 = 0 ∧
      (owned false).pa.challenge = some ⟨7, 1, p256G, none, 0⟩ ∧ publicKey ownerBytes = some p256G ∧
      (owned false).sec.owner = some (sha256 ownerBytes)) ∧
    (speaks (owned true) ("auth respond " ++ ownerHex) (.authRespond ownerBytes) silent 0 ∧
      speaks (owned true) ("auth respond " ++ ownerHex) (.authRespond ownerBytes) silent 18 ∧ (owned true).blockCode 12 = 0 ∧
      (owned true).pa.challenge = some ⟨7, 1, p256G, some p256G, 0⟩ ∧ (owned true).busy = false) ∧
    speaks (owned true) "auth end" .authEnd silent 0 ∧
    (speaks plain ("key enrol " ++ ownerHex) (.keyEnrol ownerBytes 11) silent 0 ∧ plain.blockCode 12 = 0 ∧ plain.sec.life = 1 ∧
      plain.busy = false) ∧
    (speaks plain "seal" .sealNow silent 0 ∧ plain.canWrite = true ∧ plain.testing 3 = false ∧ plain.testing 6 = false) := by
  refine ⟨⟨spoken ?_ ?_, ?_, ?_, ?_, rfl⟩, ⟨spoken ?_ ?_, spoken ?_ ?_, ?_⟩, spoken ?_ ?_, ⟨spoken ?_ ?_, ?_⟩, spoken ?_ ?_, ?_⟩
  all_goals decide +kernel

/-- The line `key retire` with the device's serial waits at port A. -/
def retiring : Mach := { plain with pa := { plain.pa with waiting := some retireLine } }

theorem witness_SessionAndKeyVerbs_retire : retiring.canonical = true ∧ retiring.runsNow .a false .keyRetire ∧ retiring.sec.life = 1 ∧
    retiring.canWrite = true ∧ retiring.testing 3 = false ∧ retiring.testing 6 = false ∧ retiring.sealRoom = true := by
  have h : retiring.lineDue .a = some retireLine := rfl
  exact ⟨by decide +kernel, ⟨no_clear rfl, ⟨retireLine, h, retire_runs _⟩, by decide +kernel, by decide +kernel⟩, by decide +kernel⟩

theorem witness_SessionAndKeyVerbs_begin : speaks (owned false) "auth begin" .authBegin challengeLine 0 ∧ (owned false).sec.life = 2 ∧
    (owned false).lockedOut .a = false ∧ (owned false).blockCode 12 = 0 :=
  ⟨spoken (by decide +kernel) (by decide +kernel), by decide +kernel⟩

/-- Whether an image verifies rests on the security state alone. -/
theorem verdict {m n : Mach} (h : m.sec = n.sec) (k : UpKind) (img : List Byte) : m.imageGood k img = n.imageGood k img := by
  unfold Mach.imageGood Mach.imageSigned
  rw [h]

theorem engine_image_good : plain.imageGood .engine engineImage = true := by decide +kernel

theorem event_image_good : plain.imageGood .event eventImage = true := by decide +kernel

theorem engine_image_known {m : Mach} (h : m.sec = plain.sec) : m.imageGood .engine engineImage = true := by
  rw [verdict h, engine_image_good]

theorem event_image_known {m : Mach} (h : m.sec = plain.sec) : m.imageGood .event eventImage = true := by
  rw [verdict h, event_image_good]

theorem witness_ImageVerbs_upgrade :
    (speaks plain "upgrade begin event 15 32768" (.upgradeBegin .event 15 32768) silent 0 ∧ plain.retired = false ∧
      plain.nv.upgrade = none) ∧
    (speaks upgrading "upgrade data 48 00ff" (.upgradeData 48 [0, 0xFF]) silent 0 ∧ upgrading.retired = false ∧
      upgrading.nv.upgrade = some ⟨.a, .engine, 15, engineImage.length, piecesOf engineImage⟩) ∧
    (speaks upgrading "upgrade commit" (.upgradeCommit 9) silent 0 ∧ upgrading.blockCode 12 = 0 ∧
      (⟨.a, .engine, 15, engineImage.length, piecesOf engineImage⟩ : Upgrade).image = some engineImage ∧
      (saying upgrading "upgrade commit").imageGood .engine engineImage = true) ∧
    speaks upgrading "upgrade abort" .upgradeAbort silent 0 := by
  refine ⟨⟨spoken ?_ ?_, ?_⟩, ⟨spoken ?_ ?_, ?_, rfl⟩, ⟨spoken ?_ ?_, ?_, ?_, engine_image_known rfl⟩, spoken ?_ ?_⟩
  all_goals decide +kernel

theorem witness_ImageVerbs_load :
    (speaks library "engine load 3 15" (.engineLoad (3 : Fin 4).val 15 15) silent 0 ∧ library.blockCode 9 = 0 ∧ library.blockCode 12 = 0 ∧
      library.engActive (3 : Fin 4).val = false ∧ library.engReserved (3 : Fin 4).val = false ∧
      library.libImage .engine 15 = some engineImage ∧ (saying library "engine load 3 15").imageGood .engine engineImage = true ∧
      engineLimits engineImage = true ∧ library.eng.engs.length = 4) ∧
    (speaks library "event load 14" (.eventLoad 14 12) silent 0 ∧ library.blockCode 8 = 0 ∧ library.smBusy = false ∧
      library.libImage .event 14 = some eventImage ∧ (saying library "event load 14").imageGood .event eventImage = true ∧
      eventLimits eventImage = true) := by
  refine ⟨⟨spoken ?_ ?_, ?_, ?_, ?_, ?_, ?_, engine_image_known rfl, ?_, ?_⟩,
    ⟨spoken ?_ ?_, ?_, ?_, ?_, event_image_known rfl, ?_⟩⟩
  all_goals decide +kernel

theorem witness_FleetAndTestVerbs :
    (speaks fleet "flue scan" .flueScan Mach.flueLines 0 ∧ fleet.on 0 = true ∧ fleet.flue.workers.length = 32 ∧ fleet.flueCode = 0) ∧
    (speaks fleet "flue away 31" (.flueAway (31 : Fin 32).val) silent 0 ∧ (fleet.worker (31 : Fin 32).val).st = 1) ∧
    (speaks kept "flue back 31" (.flueBack (31 : Fin 32).val) silent 0 ∧ kept.on 0 = true ∧ kept.flue.workers.length = 32 ∧
      kept.flueCode = 0 ∧ (kept.worker (31 : Fin 32).val).commanded = true) ∧
    (speaks fleet "flue upgrade 31" (.flueUpgrade (31 : Fin 32).val) silent 0 ∧
      speaks fleet "flue upgrade 31" (.flueUpgrade (31 : Fin 32).val) silent 18 ∧ fleet.flue.forward = none) ∧
    (speaks plain "test run engines" (.testRun [5]) silent 0 ∧ [5] ≠ ([] : List Nat) ∧ plain.on 0 = true ∧
      plain.flue.workers.length = 32 ∧ (saying plain "test run engines").testCheck [5] = 0) := by
  refine ⟨⟨spoken ?_ ?_, ?_⟩, ⟨spoken ?_ ?_, ?_⟩, ⟨spoken ?_ ?_, ?_⟩, ⟨spoken ?_ ?_, spoken ?_ ?_, ?_⟩, spoken ?_ ?_, ?_⟩
  all_goals decide +kernel

theorem witness_FleetAndTestVerbs_spares : ∀ x ∈ [("spare use row 65535", 0, 65535), ("spare use bank 127", 1, 127),
    ("spare use engine 3", 3, 3), ("spare use acf 2", 4, 2), ("spare use gyrz 0", 5, 0), ("spare use burnout 7", 6, 7)],
    speaks plain x.1 (.spareUse x.2.1 x.2.2) silent 0 ∧ (saying plain x.1).spareCheck x.2.1 x.2.2 = 0 := by
  intro x hx
  simp only [List.mem_cons, List.not_mem_nil, or_false] at hx
  rcases hx with rfl | rfl | rfl | rfl | rfl | rfl <;> exact ⟨spoken (by decide +kernel) (by decide +kernel), by decide +kernel⟩

/-- A machine whose wait has ended, in the cycle of its turn. -/
def resuming : Mach := turn15.updSm 15 (fun s => { s with run := .wait, wait := .expired 9999999 (.waite 0x10002000) })

theorem witness_StepRunsFrontCommand : resuming.grd.st ≠ .fault ∧ resuming.regs.absorbed = [] ∧
    (∀ g < 4, (resuming.grp g).firLeft = false) ∧ (∀ c ∈ resuming.aux.chans, c.changes = []) ∧ 15 = resuming.clk.now % 16 ∧
    15 < resuming.evt.machines.length ∧ resuming.on 3 = true ∧ (resuming.sm 15).run = .wait ∧
    (resuming.sm 15).wait = .expired 9999999 (.waite 0x10002000) ∧ resuming.fosc = true ∧
    { resuming with clk := { resuming.clk with mode := .ember, dom := ⟨true, .off, .off, .off, .retain, .off, .off, .off⟩ } }.fosc = false := by
  decide +kernel

theorem witness_StepKeepsCanonical : ∃ t, base.canonical = true ∧ step ⟨base, []⟩ = .next t := ⟨_, by decide +kernel, rfl⟩

theorem witness_StepKeepsSizes : ∃ t, base.shaped ∧ step ⟨base, []⟩ = .next t :=
  ⟨_, by unfold Mach.shaped; decide +kernel, rfl⟩

/-! ### Well-formedness: for each check an ill-formed command that it refuses, and the nearest well-formed one -/

theorem test_wellFormed_textInput : WellFormed (.textInput .a ⟨0, 0, 8, 0, false⟩ []) = false ∧ WellFormed (.textInput .a ⟨0, 0, 7, 0, false⟩ []) = true := by
  decide

theorem test_wellFormed_regWrite : WellFormed (.regWrite .a (writeEnv 0 0) 0x400 1 [0, 0]) = false ∧
    WellFormed (.regWrite .a (writeEnv 0 0) 0x400 0 (List.replicate 257 0)) = false ∧
    WellFormed (.regWrite .a (writeEnv 0 0) 0x400 0 (List.replicate 256 0)) = true := by decide +kernel

theorem test_wellFormed_unnamedFrame : WellFormed (.unnamedFrame .a (writeEnv 0 0) 0x86) = false ∧
    WellFormed (.unnamedFrame .a (writeEnv 0 0) 0x7E) = false ∧ WellFormed (.unnamedFrame .a (writeEnv 0 0) 0x0D) = false ∧
    WellFormed (.unnamedFrame .a (writeEnv 0 0) 0x87) = true := by decide

theorem test_wellFormed_asyncFrameGap : WellFormed (.asyncFrameGap .a 0x87) = false ∧ WellFormed (.asyncFrameGap .a 0x80) = true := by
  decide

theorem test_wellFormed_statusClear : WellFormed (.statusClear .core 0x0414 0) = false ∧ WellFormed (.statusClear .core 0x0410 0) = true := by
  decide +kernel

theorem test_wellFormed_counterClear : WellFormed (.counterClear .core 0x3010 0) = false ∧
    WellFormed (.counterClear .core 0x3014 0) = true := by decide +kernel

theorem test_wellFormed_windowSeqIncrement : WellFormed (.windowSeqIncrement 0x3010) = false ∧
    WellFormed (.windowSeqIncrement 0x1C04) = true := by decide +kernel

theorem test_wellFormed_dataWindowAccess : WellFormed (.dataWindowAccess .core 0x2300 none) = false ∧
    WellFormed (.dataWindowAccess .core 0x2304 none) = true := by decide +kernel

theorem test_wellFormed_coef : WellFormed (.coefLoad .core .direct 0x10000001) = false ∧ WellFormed (.coefLoad .core .direct 0) = false ∧
    WellFormed (.coefLoad .core .direct 1) = true ∧ WellFormed (.coefSave .core .direct 1) = false ∧
    WellFormed (.coefSave .core .direct 0x10000001) = true := by decide

theorem test_wellFormed_scans : WellFormed (.scanTimer [answer, answer]) = false ∧ WellFormed (.flueScan .a [answer, answer]) = false ∧
    WellFormed (.scanTimer [answer]) = true ∧ WellFormed (.flueScan .a [answer]) = true := by decide

theorem test_wellFormed_fluePull : ∀ n ∈ [1023, 1024, 1025],
    WellFormed (.fluePull 0 ⟨0, true, 1, false, false, [List.replicate n 0], [], false, 0⟩) = decide (n = 1024) := by decide +kernel

theorem test_wellFormed_guardPeriod :
    WellFormed (.guardPeriod { rest with z := { still with d := ⟨2 ^ 19 + 1, false⟩ } } ⟨sound, sound⟩) = false ∧
    WellFormed (.guardPeriod { rest with z := { still with d := ⟨-(2 ^ 19), false⟩ } } ⟨sound, sound⟩) = true := by decide

theorem test_wellFormed_registerWrite : WellFormed (.registerWrite .core 0x0410 0) = false ∧
    WellFormed (.registerWrite .core 0x2304 0) = false ∧ WellFormed (.registerWrite .core 0x0414 0) = true := by decide +kernel

theorem test_wellFormed_keyGeneration : certsFit 8176 1 = false ∧ certsFit 8176 0 = true ∧ certsFit 4085 4088 = true ∧
    certsFit 4085 4089 = false := by decide

/-! ### Words, values and the state after reset -/

/-- No word spells a command: the opcode table gives its rows no bits. -/
theorem test_decodeTableWord : ∀ nbits w, decodeTableWord nbits w = none := fun _ _ => rfl

/-- R160: the CRC-8 of the ASCII string 123456789 is 0xDF. -/
theorem test_crc8 : crc8 (ascii "123456789") = 0xDF := by decide +kernel

/-- The block at reset is the shipped part after its power-on release, the straps Low (log entry 6). -/
theorem test_reset_is_release : State.reset = ⟨Mach.shipped.powerOn ⟨false, false, false⟩, []⟩ := by
  set_option maxRecDepth 100000 in rfl

/-! ### The manual's worked lines (R227 and the scripted configuration of the command language) -/

/-- The reply that port A has at hand. -/
def heard (m : Mach) : List Byte := m.pa.reply

/-- `set eng.1.div 100.5` gives INT = 100 and FRAC = 128; 100.3 is no whole multiple. -/
theorem test_set_fraction : (go (.setVerb .a) (saying base "set eng.1.div 100.5")).reg 0x2734 = 100 * 256 + 128 ∧
    heard (go (.setVerb .a) (saying base "set eng.1.div 100.5")) = ascii "ok" ++ [13, 10] ∧
    heard (go (.setVerb .a) (saying base "set eng.1.div 100.3")) = ascii "col 15" ++ [13, 10] ++ ascii "err 17 RANGE" ++ [13, 10] := by decide +kernel

/-- Port B holds SEM3: an aux setting fails and nothing is written. -/
theorem test_set_semHeld : heard (go (.setVerb .a) (saying { base with pb := { base.pb with sems := 8 } } "set aux.3.curve 1")) =
      ascii "err 5 SEM_HELD" ++ [13, 10] ∧
    (go (.setVerb .a) (saying { base with pb := { base.pb with sems := 8 } } "set aux.3.curve 1")).reg 0x18C0 = regReset 0x18C0 := by decide +kernel

/-- A line with its checksum is answered with one. -/
theorem test_mode_checksum : heard (go (.modeVerb .a) (saying base "mode run *86")) = ascii "ok *6E" ++ [13, 10] := by decide +kernel

end Sys2Proof.Tests
end

section
/-! SUPPORT. The timers of the machines (R464), and the words that a queue with room takes (R516, R526, R532): what an expiry makes of
its machine, and what a record written into Q3 leaves. -/

namespace Sys2Proof.Machine

/-! ### Elements of a table -/

theorem listUpd_listUpd {α : Type} (l : List α) (i : Nat) (f g : α → α) :
    listUpd (listUpd l i f) i g = listUpd l i (fun x => g (f x)) := by
  induction l generalizing i with
  | nil => rfl
  | cons x xs ih => cases i <;> simp [listUpd, ih]

theorem listUpd_fixed {α : Type} (l : List α) (i : Nat) (f : α → α) (d : α) (h : f (l.getD i d) = l.getD i d) :
    listUpd l i f = l := by
  induction l generalizing i with
  | nil => rfl
  | cons x xs ih =>
    cases i with
    | zero => simpa [listUpd] using h
    | succ i => simpa [listUpd] using ih i (by simpa using h)

@[simp] theorem Mach.updSm_sm_self {m : Mach} {n : Nat} (f : Sm → Sm) (h : n < m.evt.machines.length) :
    (m.updSm n f).sm n = f (m.sm n) :=
  (listUpd_getD ..).trans (if_pos ⟨rfl, h⟩)

@[simp] theorem Mach.updSm_sm_ne (m : Mach) {n j : Nat} (f : Sm → Sm) (h : j ≠ n) : (m.updSm n f).sm j = m.sm j :=
  (listUpd_getD ..).trans (if_neg fun hj => h hj.1)

@[simp] theorem Mach.updQ_q_self {m : Mach} {q : Nat} (f : Queue → Queue) (h : q < m.buf.queues.length) :
    (m.updQ q f).q q = f (m.q q) :=
  (listUpd_getD ..).trans (if_pos ⟨rfl, h⟩)

@[simp] theorem Mach.updQ_q_ne (m : Mach) {q k : Nat} (f : Queue → Queue) (h : k ≠ q) : (m.updQ q f).q k = m.q k :=
  (listUpd_getD ..).trans (if_neg fun hk => h hk.1)

/-- An update that leaves the queue as it is leaves the block as it is. -/
theorem Mach.updQ_fixed (m : Mach) (q : Nat) (f : Queue → Queue) (h : f (m.q q) = m.q q) : m.updQ q f = m := by
  unfold Mach.updQ; rw [listUpd_fixed _ _ _ _ h]

/-- A change of machine `n` alone. -/
theorem Mach.updSm_smKept {m : Mach} {n : Nat} (f : Sm → Sm) (h : n < m.evt.machines.length) :
    m.smKept (m.updSm n f) n (f (m.sm n)) :=
  ⟨updSm_sm_self f h, fun _ hj => m.updSm_sm_ne f hj, rfl⟩

theorem Mach.updSm_changesOnly (m : Mach) (n : Nat) (f : Sm → Sm) : m.changesOnly (m.updSm n f) [.evt] := by
  intro x hx
  cases x
  case evt => exact absurd (List.mem_singleton_self _) hx
  all_goals rfl

/-! ### Timers of the machines (R464) -/

/-- A machine as one of its timers has expired, whatever it waits for. -/
def Sm.withExpired (s : Sm) (second : Bool) : Sm :=
  s.setTimer second { s.timer second with running := false, expired := true }

@[simp] theorem Sm.withExpired_wait (s : Sm) (second : Bool) : (s.withExpired second).wait = s.wait := by cases second <;> rfl

/-- A machine past the expiry of a timer in cycle `now`: a TIME wait for it ends, a WAITC or WAITE that names it times out. -/
def Sm.expire (s : Sm) (second : Bool) (now : Nat) : Sm :=
  match s.run, s.wait with
  | .wait, .waitc w _ _ =>
    if bitsAt w 12 2 = (if second then 2 else 1) then (s.withExpired second).timeOut now (s.timer second).expiry
    else s.withExpired second
  | .wait, .waite w =>
    if bitsAt w 12 2 = (if second then 2 else 1) then (s.withExpired second).timeOut now (s.timer second).expiry
    else s.withExpired second
  | .wait, .time b =>
    if b = second then { s.withExpired second with wait := .ended, ref := (s.timer second).expiry } else s.withExpired second
  | _, _ => s.withExpired second

theorem Sm.expire_of_run {s : Sm} (second : Bool) (now : Nat) (h : s.run = .run) : s.expire second now = s.withExpired second := by
  simp [Sm.expire, h]

theorem Sm.expire_of_time {s : Sm} {second : Bool} (now : Nat) (h : s.run = .wait) (hw : s.wait = .time second) :
    s.expire second now = { s.withExpired second with wait := .ended, ref := (s.timer second).expiry } := by
  simp [Sm.expire, h, hw]

/-- The timer that bits 13 and 12 of a WAITC or WAITE name times it out. -/
theorem Sm.expire_of_named {s : Sm} {second : Bool} (now : Nat) {w : Word} (h : s.run = .wait)
    (hw : s.wait = .waite w ∨ ∃ a k, s.wait = .waitc w a k) (hn : bitsAt w 12 2 = if second then 2 else 1) :
    s.expire second now =
      { s.withExpired second with c := false, wait := .expired now s.wait, ref := (s.timer second).expiry } := by
  obtain hw | ⟨a, k, hw⟩ := hw <;> simp [Sm.expire, Sm.timeOut, h, hw, hn]

/-- A timer that is due expires: only its machine changes. -/
theorem Mach.smExpire_smKept {m : Mach} {n : Nat} {second : Bool} (hn : n < m.evt.machines.length) (hon : m.on 3 = true)
    (hr : ((m.sm n).timer second).running = true) (he : ((m.sm n).timer second).expiry ≤ m.ts) (hp : (m.sm n).run ≠ .paused) :
    m.smKept (m.smExpire n second) n ((m.sm n).expire second m.clk.now) ∧ m.changesOnly (m.smExpire n second) [.evt] := by
  unfold Mach.smExpire
  simp only [hon, hr, he, hp, ne_eq, not_false_eq_true, decide_true, Bool.and_self, if_true]
  refine ⟨?_, m.updSm_changesOnly n _⟩
  cases second <;> exact updSm_smKept _ hn

theorem Mach.smExpire_wakeReq (m : Mach) (n : Nat) (second : Bool) : (m.smExpire n second).evt.wakeReq = m.evt.wakeReq := by
  unfold Mach.smExpire
  dsimp only
  split <;> rfl

theorem Mach.eventWake_none {m : Mach} (h : m.evt.wakeReq = false) : m.eventWake = m := by
  simp [Mach.eventWake, h]

/-- The row of a timer that is due. -/
theorem smTimerExpiry_due {s : State} {n : Fin 16} {timer : Fin 2} {x : Sm} (hn : n.val < s.m.evt.machines.length)
    (hon : s.m.on 3 = true) (hw : s.m.evt.wakeReq = false)
    (hr : ((s.m.sm n.val).timer (timer.val = 1)).running = true) (he : ((s.m.sm n.val).timer (timer.val = 1)).expiry ≤ s.m.ts)
    (hp : (s.m.sm n.val).run ≠ .paused) (hx : (s.m.sm n.val).expire (timer.val = 1) s.m.clk.now = x) :
    ∃ t, exec (.smTimerExpiry n timer) s = .next t ∧ t.pending = s.pending ∧ s.m.smKept t.m n.val x ∧ s.m.changesOnly t.m [.evt] := by
  have hk := Mach.smExpire_smKept hn hon hr he hp
  have hq := (s.m.smExpire_wakeReq n.val (timer.val = 1)).trans hw
  refine ⟨⟨s.m.smExpire n.val (timer.val = 1), s.pending⟩, ?_, rfl, hx ▸ hk⟩
  exact congrArg (goOn s) (Mach.eventWake_none hq)

/-! ### Words at the end of an open block -/

/-- An open block with these words at its end; its payload stands newest word first. -/
def OpenBlock.plus (o : OpenBlock) (ws : List Word) : OpenBlock := { o with words := ws.reverse ++ o.words }

@[simp] theorem OpenBlock.plus_length (o : OpenBlock) (ws : List Word) :
    (o.plus ws).words.length = ws.length + o.words.length := by
  simp [OpenBlock.plus]

/-- A queue with these words at the end of its open block. -/
def Queue.plus (s : Queue) (ws : List Word) : Queue := { s with openBlk := s.openBlk.map (OpenBlock.plus · ws) }

/-- The block with these words at the end of queue `q`'s open block. -/
def Mach.plus (m : Mach) (q : Nat) (ws : List Word) : Mach := m.updQ q (Queue.plus · ws)

@[simp] theorem Queue.plus_nil (s : Queue) : s.plus [] = s := by
  simp [Queue.plus, OpenBlock.plus]

theorem Queue.plus_plus (s : Queue) (ws vs : List Word) : (s.plus ws).plus vs = s.plus (ws ++ vs) := by
  simp [Queue.plus, OpenBlock.plus, Function.comp_def]

@[simp] theorem Mach.plus_nil (m : Mach) (q : Nat) : m.plus q [] = m := m.updQ_fixed q _ (Queue.plus_nil _)

theorem Mach.plus_plus (m : Mach) (q : Nat) (ws vs : List Word) : (m.plus q ws).plus q vs = m.plus q (ws ++ vs) := by
  simp [Mach.plus, Mach.updQ, listUpd_listUpd, Queue.plus_plus]

/-- Queue `q` has an open block that `k` more words leave open, and no trigger of it waits for a word (R528, R535). -/
def Mach.openFor (m : Mach) (q k : Nat) : Prop :=
  q < m.buf.queues.length ∧ (m.q q).trigAt = none ∧ ∃ o, (m.q q).openBlk = some o ∧ o.words.length + k < 1000

theorem Mach.openFor_plus {m : Mach} {q k : Nat} (ws : List Word) (h : m.openFor q (ws.length + k)) :
    (m.plus q ws).openFor q k := by
  obtain ⟨hq, ht, o, ho, hl⟩ := h
  have e : (m.plus q ws).q q = (m.q q).plus ws := Mach.updQ_q_self _ hq
  have hlen : (o.plus ws).words.length + k < 1000 := by rw [OpenBlock.plus_length]; omega
  refine ⟨by simpa [Mach.plus, Mach.updQ, listUpd_length] using hq, ?_, o.plus ws, ?_, hlen⟩
  · rw [e]; exact ht
  · simp [e, Queue.plus, ho]

theorem Mach.openFor_mono {m : Mach} {q k j : Nat} (h : m.openFor q k) (hj : j ≤ k) : m.openFor q j := by
  obtain ⟨hq, ht, o, ho, hl⟩ := h
  exact ⟨hq, ht, o, ho, by omega⟩

/-- A word that leaves the open block open stands at its end. -/
theorem Mach.writeWord_openFor {m : Mach} {q : Nat} (w : Word) (h : m.openFor q 1) : m.writeWord q w = (m.plus q [w], []) := by
  obtain ⟨hq, ht, o, ho, hl⟩ := h
  have hb : m.openBlock q = m := by simp [Mach.openBlock, ho]
  have hu : m.updQ q (fun s => { s with
        trigAt := s.trigAt
        openBlk := s.openBlk.map fun o => { o with words := w :: o.words, trig := o.trig || false, capt := o.capt || false } }) =
      m.plus q [w] := by
    simp [Mach.plus, Queue.plus, OpenBlock.plus]
  have hp : ((m.plus q [w]).q q).openBlk = some (o.plus [w]) := by
    simp [Mach.plus, hq, Queue.plus, ho]
  have hs : ¬ 1000 ≤ (o.plus [w]).words.length := by rw [OpenBlock.plus_length, List.length_singleton]; omega
  unfold Mach.writeWord
  simp only [hb, ht, List.isEmpty_nil, if_true, Bool.not_true, hu, hp, hs, if_false]

/-- Words that leave Q3's open block open stand at its end, and no capture is recorded. -/
theorem Mach.writeList_openFor {m : Mach} (ws : List Word) (h : m.openFor 3 ws.length) : m.writeList ws = (m.plus 3 ws, []) := by
  induction ws generalizing m with
  | nil => simp [Mach.writeList]
  | cons w ws ih =>
    have hw : m.openFor 3 1 := Mach.openFor_mono h (by simp)
    have hr : (m.plus 3 [w]).openFor 3 ws.length := Mach.openFor_plus [w] (by simpa [Nat.add_comm] using h)
    simp [Mach.writeList, Mach.writeWord_openFor w hw, ih hr, Mach.plus_plus]

/-! ### Records into Q3 -/

/-- Q3, under OVERWRITE and in RUN, takes `k` words of records without a discard or a close. -/
def Mach.recordsFit (m : Mach) (k : Nat) : Prop := m.openFor 3 k ∧ (m.q 3).run = .run ∧ m.qPolicy 3 = 1

/-- The block with the words of a record at the end of Q3, as the last of its FOSC cycle. -/
def Mach.recorded (m : Mach) (ws : List Word) : Mach :=
  { m.plus 3 ws with buf := { (m.plus 3 ws).buf with q3Tail := (m.clk.now, ws.length / 4) } }

/-- A record goes to the end of Q3 where no other of its FOSC cycle stands there. -/
theorem Mach.recordQ3_recordsFit {m : Mach} (event : Bool) {ws : List Word} (h : m.recordsFit ws.length) (hn : m.q3Now = 0) :
    m.recordQ3 event ws = (m.recorded ws, true, []) := by
  obtain ⟨hf, hr, hp⟩ := h
  have hw := Mach.writeList_openFor ws hf
  obtain ⟨-, -, o, ho, hl⟩ := hf
  have hfit : m.fitRecord ws.length = m := by
    have : ¬ 1000 < o.words.length + ws.length := by omega
    simp [Mach.fitRecord, ho, this]
  have hroom : m.makeRoom 3 = m := by simp [Mach.makeRoom, ho]
  have htakes : (m.q 3).takesRecord 1 event = true := by simp [Queue.takesRecord, hr]
  have hafter : m.takeAfter ws = (m, []) := by
    have : m.updQ 3 (fun s => { s with openBlk := some o }) = m := m.updQ_fixed 3 _ (by rw [← ho])
    simp [Mach.takeAfter, ho, hn, tailAbove, this]
  unfold Mach.recordQ3
  simp [hfit, hroom, hp, hr, htakes, hafter, hn, hw, Mach.recorded, Mach.plus, Mach.updQ]

/-- An event record goes whole into the block that is open. -/
theorem Mach.writeRec_recordsFit {m : Mach} (r : Rec) (h : m.recordsFit 4) (hn : m.q3Now = 0) :
    m.writeRec r = (m.recorded r.toWords, some (m.q 3).nextSeq) := by
  have hopen : ((m.recorded r.toWords).q 3).openBlk.isSome ∧ ((m.recorded r.toWords).q 3).nextSeq = (m.q 3).nextSeq := by
    obtain ⟨⟨hq, -, o, ho, -⟩, -⟩ := h
    have e : (m.recorded r.toWords).q 3 = (m.q 3).plus r.toWords := Mach.updQ_q_self _ hq
    simp [e, Queue.plus, ho]
  unfold Mach.writeRec
  simp [Mach.recordQ3_recordsFit true (ws := r.toWords) h hn, hopen]

/-! ### Held records (R28) -/

/-- From `m` to `n` these words have gone to the end of Q3; beside them only the tail of the FOSC cycle and the D0 copy have changed. -/
def Mach.heldWritten (m n : Mach) (ws : List Word) : Prop :=
  ∃ tail staged, n = { m.plus 3 ws with
    buf := { (m.plus 3 ws).buf with q3Tail := tail }, evt := { m.evt with staged := staged } }

theorem Mach.heldWritten_refl (m : Mach) : m.heldWritten m [] :=
  ⟨m.buf.q3Tail, m.evt.staged, by rw [Mach.plus_nil]⟩

theorem Mach.heldWritten_trans {m n k : Mach} {ws vs : List Word} (h : m.heldWritten n ws) (h2 : n.heldWritten k vs) :
    m.heldWritten k (ws ++ vs) := by
  obtain ⟨_, _, rfl⟩ := h
  obtain ⟨t, s, rfl⟩ := h2
  exact ⟨t, s, by rw [← Mach.plus_plus]; rfl⟩

section
variable {m n : Mach} {ws : List Word} (h : m.heldWritten n ws)
include h

theorem Mach.heldWritten_q_self (hq : 3 < m.buf.queues.length) : n.q 3 = (m.q 3).plus ws := by
  obtain ⟨_, _, rfl⟩ := h
  exact Mach.updQ_q_self _ hq

theorem Mach.heldWritten_q_ne {k : Nat} (hk : k ≠ 3) : n.q k = m.q k := by
  obtain ⟨_, _, rfl⟩ := h
  exact m.updQ_q_ne _ hk

theorem Mach.heldWritten_recordsFit {k : Nat} (hf : m.recordsFit (ws.length + k)) : n.recordsFit k := by
  obtain ⟨ho, hr, hp⟩ := hf
  have hs := Mach.heldWritten_q_self h ho.1
  have hx := Mach.openFor_plus ws ho
  obtain ⟨_, _, rfl⟩ := h
  exact ⟨hx, by rw [hs]; exact hr, hp⟩

theorem Mach.heldWritten_gained (hf : m.openFor 3 ws.length) : m.gained n 3 ws := by
  obtain ⟨hq, -, o, ho, -⟩ := hf
  exact ⟨o, ho, by rw [Mach.heldWritten_q_self h hq]; simp [Queue.plus, OpenBlock.plus, ho]⟩

theorem Mach.heldWritten_changesOnly : m.changesOnly n [.evt, .buf] := by
  obtain ⟨_, _, rfl⟩ := h
  intro x hx
  cases x
  case evt | buf => simp at hx
  all_goals rfl

end

/-- A held record goes to the end of Q3. -/
theorem Mach.writeHeld_recordsFit {m : Mach} (r : Rec) (h : m.recordsFit 4) : m.heldWritten (m.writeHeld r) r.toWords := by
  have hn : m.q3Fix.q3Now = 0 := by simp [Mach.q3Now, Mach.q3Fix]
  have hw : m.q3Fix.writeRec r = (m.q3Fix.recorded r.toWords, some (m.q3Fix.q 3).nextSeq) := Mach.writeRec_recordsFit r h hn
  unfold Mach.writeHeld
  rw [hw]
  exact ⟨_, _, rfl⟩

/-- Held records go to the end of Q3 in their order. -/
theorem Mach.foldl_writeHeld_recordsFit (rs : List Rec) {m : Mach} (h : m.recordsFit (4 * rs.length)) :
    m.heldWritten (rs.foldl Mach.writeHeld m) (rs.flatMap Rec.toWords) := by
  induction rs generalizing m with
  | nil => exact m.heldWritten_refl
  | cons r rs ih =>
    have h4 : r.toWords.length = 4 := rfl
    have hf : m.recordsFit (r.toWords.length + 4 * rs.length) := by simpa [h4, Nat.mul_add, Nat.add_comm] using h
    have h1 : m.heldWritten (m.writeHeld r) r.toWords :=
      Mach.writeHeld_recordsFit r ⟨Mach.openFor_mono hf.1 (by omega), hf.2⟩
    exact Mach.heldWritten_trans h1 (ih (Mach.heldWritten_recordsFit h1 hf))

theorem Mach.flushGaps_none {m : Mach} (h : m.buf.pendingGaps = []) : m.flushGaps = m := by
  have : ({ m with buf := { m.buf with pendingGaps := [] } } : Mach) = m := by rw [← h]
  simp [Mach.flushGaps, h, this]

/-- The block with its holding store empty. -/
def Mach.noneHeld (m : Mach) : Mach := { m with evt := { m.evt with held := [] } }

/-- While the buffer takes words and no buffer record waits, the held records go to the end of Q3 and none is held. -/
theorem Mach.flushHeld_recordsFit {m : Mach} (ht : m.taking = true) (hg : m.buf.pendingGaps = [])
    (h : m.recordsFit (4 * m.evt.held.length)) :
    m.noneHeld.heldWritten m.flushHeld (m.evt.held.flatMap Rec.toWords) := by
  simp only [Mach.flushHeld, ht, if_true, Mach.flushGaps_none hg]
  exact Mach.foldl_writeHeld_recordsFit (m := m.noneHeld) _ h

/-- The room that a statement asks for, as records of Q3 need it. -/
theorem Mach.roomFor_recordsFit {m : Mach} {k : Nat} (h : m.roomFor 3 k) (hp : m.qPolicy 3 = 1) : m.recordsFit k := by
  obtain ⟨-, -, hr, ht, hq, -, ho⟩ := h
  exact ⟨⟨hq, ht, ho⟩, hr, hp⟩

/-- The row of the held records, where Q3 has room for them all. -/
theorem heldRecordsWrite_room {s : State} (h : s.m.roomFor 3 (4 * s.m.evt.held.length)) (hp : s.m.qPolicy 3 = 1)
    (hg : s.m.buf.pendingGaps = []) :
    ∃ t, exec .heldRecordsWrite s = .next t ∧ t.pending = s.pending ∧ s.m.gained t.m 3 (s.m.evt.held.flatMap Rec.toWords) ∧
      t.m.evt.held = [] ∧ t.m.evt.machines = s.m.evt.machines ∧ (∀ k, k ≠ 3 → t.m.q k = s.m.q k) ∧
      s.m.changesOnly t.m [.evt, .buf] := by
  have hf := Mach.roomFor_recordsFit h hp
  have hw := Mach.flushHeld_recordsFit h.1 hg hf
  have hl : (s.m.evt.held.flatMap Rec.toWords).length = 4 * s.m.evt.held.length := by
    simp [List.length_flatMap, Rec.toWords, unitWords, Nat.mul_comm]
  have hkept : s.m.flushHeld.evt.held = [] ∧ s.m.flushHeld.evt.machines = s.m.evt.machines := by
    obtain ⟨_, _, e⟩ := hw
    rw [e]
    exact ⟨rfl, rfl⟩
  have hgained : s.m.noneHeld.gained s.m.flushHeld 3 (s.m.evt.held.flatMap Rec.toWords) :=
    Mach.heldWritten_gained hw (hl ▸ hf.1)
  refine ⟨⟨s.m.flushHeld, s.pending⟩, rfl, rfl, hgained, hkept.1, hkept.2,
    fun k hk => Mach.heldWritten_q_ne hw hk, fun x hx => ?_⟩
  have := Mach.heldWritten_changesOnly hw x hx
  cases x
  case evt => simp at hx
  all_goals exact this

/-- Settles O38: by `Sm.expire` for a timer, and by the words of the held records at the end of Q3's open block. -/
theorem timersAndHeldRecords : Obligations.TimersAndHeldRecords := by
  intro s hon
  refine ⟨fun n timer hn hw hr he => ⟨fun hrun => ?_, fun hrun htime => ?_, fun w hrun hwait hnamed => ?_⟩, heldRecordsWrite_room⟩
  · exact smTimerExpiry_due hn hon hw hr he (by simp [hrun]) (Sm.expire_of_run _ _ hrun)
  · exact smTimerExpiry_due hn hon hw hr he (by simp [hrun]) (Sm.expire_of_time _ hrun htime)
  · have hk : bitsAt w 12 2 = if decide (timer.val = 1) = true then 2 else 1 := by
      rw [hnamed]
      fin_cases timer <;> rfl
    exact smTimerExpiry_due hn hon hw hr he (by simp [hrun]) (Sm.expire_of_named _ hrun hwait hk)

end Sys2Proof.Machine
end

section
/-! SUPPORT. The block at reset, part by part. -/

namespace Sys2Proof.Machine

/-- RESTART in both `x_INTSRC`, with SEQ 1, is all that differs from the reset values (R109, R111, R127). -/
theorem Mach.reset_reg (a : Nat) : Mach.reset.reg a = if a = 0x410 ∨ a = 0x430 then 0x01000040 else regReset a := by
  simp only [Mach.reg, Mach.reset, Regs.reset, cellGet]
  split <;> simp_all

/-- Every domain is ON (R668). -/
theorem Mach.reset_dom : ∀ k < 8, Mach.reset.dom k = .on := by decide

/-- Both ports are clocked and without a session (R51, R187, R640). -/
theorem Mach.reset_port (p : Port) : Mach.reset.port p = PortState.reset := by cases p <;> rfl

/-- Q0 to Q3 run, with no block open or unread (R531). -/
theorem Mach.reset_q : ∀ q < 4, (Mach.reset.q q).run = .run ∧ (Mach.reset.q q).unread = [] ∧ (Mach.reset.q q).openBlk = none := by
  decide

/-- The two registers listed differ from their reset values, and no other memory lists anything. -/
theorem Mach.reset_canonical : Mach.reset.canonical = true := by decide

theorem Mach.reset_shaped : Mach.reset.shaped := by
  refine ⟨rfl, rfl, rfl, rfl, List.length_replicate, rfl, fun e he => ?_, rfl⟩
  rw [List.eq_of_mem_replicate (show e ∈ List.replicate 4 Eng.fresh from he)]
  rfl

/-- Settles O58: the parts of the block at reset, each by its lemma or as it is written. -/
theorem resetState : Obligations.ResetState := by
  unfold Obligations.ResetState
  refine ⟨rfl, rfl, rfl, rfl, Mach.reset_dom, rfl, ⟨_, rfl, rfl, rfl, rfl⟩, ⟨_, rfl, rfl, rfl⟩, fun a ha hb => ?_, fun p => ?_,
    rfl, rfl, Mach.reset_q, rfl, rfl, rfl, rfl, rfl, rfl, rfl, Mach.reset_canonical, Mach.reset_shaped⟩
  · exact (Mach.reset_reg a).trans (if_neg (by simp [ha, hb]))
  · have hi : intsrc p = 0x410 ∨ intsrc p = 0x430 := by cases p <;> simp [intsrc, portBase]
    have hp : State.reset.m.port p = PortState.reset := Mach.reset_port p
    exact ⟨(Mach.reset_reg _).trans (if_pos hi), by rw [hp]; exact ⟨rfl, rfl, rfl, rfl⟩⟩

end Sys2Proof.Machine
end

section
/-! SUPPORT. Events of status registers, counters and `x_INTSRC` (R109 to R116, R207), whatever clears of the cycle stand: which registers
keep their words, which flags come to be set, and which stay so. -/

namespace Sys2Proof.Machine

/-! ### Bits below SEQ -/

theorem bitAt_or (v w : Word) (i : Nat) : bitAt (v ||| w) i = (bitAt v i || bitAt w i) := BitVec.getLsbD_or

theorem bitAt_bitMask {i : Nat} (h : i < 32) : bitAt (bitMask i) i = true := by
  simpa using bitMask_bit i h 0

theorem bitAt_bitIf {b : Bool} {i : Nat} (h : i < 32) (hb : b = true) : bitAt (bitIf b i) i = true := by
  rw [bitIf, if_pos hb, bitAt_bitMask h]

/-- The bits below SEQ stay as it goes up. -/
theorem bitAt_bumpSeq (w : Word) {i : Nat} (h : i < 24) : bitAt (bumpSeq w) i = bitAt w i := by
  have e := congrArg (fun n => Nat.testBit n i) (bumpSeq_low w)
  simpa only [bitsAt, bitAt, Nat.shiftRight_zero, Nat.testBit_mod_two_pow, h, decide_true, Bool.true_and, BitVec.testBit_toNat]
    using e

/-! ### Clears of the cycle -/

/-- No clear of register `a` in this FOSC cycle is left for an event to take back (R112, R116). -/
def Mach.spent (m : Mach) (a : Nat) : Prop :=
  ∀ c ∈ m.regs.cleared, (c.addr == a && c.at_ == m.clk.now && !c.undone) = false

theorem Mach.spent_of_noClear {m : Mach} (h : m.noClear) (a : Nat) : m.spent a := by
  intro c hc
  simp [h c hc]

theorem Mach.unclear_of_spent {m : Mach} {a : Nat} (h : m.spent a) : m.unclear a = m := by
  have : m.regs.cleared.find? (fun c => c.addr == a && c.at_ == m.clk.now && !c.undone) = none :=
    List.find?_eq_none.mpr fun c hc => by simp [h c hc]
  simp only [Mach.unclear, this]

/-- What an event does to the clears of its register: they are undone. -/
theorem Mach.unclear_cleared (m : Mach) (a : Nat) : (m.unclear a).clk = m.clk ∧ (m.unclear a).regs.cleared =
    m.regs.cleared.map (fun c => if c.addr == a && c.at_ == m.clk.now && !c.undone then { c with undone := true } else c) := by
  unfold Mach.unclear
  dsimp only
  split
  · next h =>
    refine ⟨rfl, ?_⟩
    rw [List.find?_eq_none] at h
    exact ((List.map_congr_left fun c hc => if_neg (h c hc)).trans (List.map_id' _)).symm
  · split <;> exact ⟨rfl, rfl⟩

/-- After an event nothing of its register is left to take back; of another register no more than before. -/
theorem Mach.unclear_spent (m : Mach) (a b : Nat) (h : b = a ∨ m.spent b) : (m.unclear a).spent b := by
  obtain ⟨hc, hl⟩ := m.unclear_cleared a
  intro c hm
  rw [hl, List.mem_map] at hm
  obtain ⟨d, hd, rfl⟩ := hm
  rw [hc]
  split
  · simp
  · next hn =>
    rcases h with rfl | h
    · simpa using hn
    · exact h d hd

/-- An event takes back a clear of its own register alone; the port that asked for it sees so in `ACC_x_LAST` (R148). -/
theorem Mach.unclear_reg_ne (m : Mach) {a x : Nat} (h : x ≠ a) (hl : ∀ p, x ≠ accLast p) : (m.unclear a).reg x = m.reg x := by
  unfold Mach.unclear
  dsimp only
  split
  · rfl
  · split
    · rw [Mach.reg_setReg_ne _ _ (hl _), Mach.reg_setReg_ne _ _ h]; rfl
    · rw [Mach.reg_setReg_ne _ _ h]; rfl

theorem Mach.unclear_canonical {m : Mach} (a : Nat) (h : m.canonical = true) : (m.unclear a).canonical = true :=
  (Mach.unclear_within m a (m.within_refl [.regs]) rfl).2.1 h

theorem Mach.setReg_canonical {m : Mach} (a : Nat) (w : Word) (h : m.canonical = true) : (m.setReg a w).canonical = true :=
  (Mach.setReg_within a w (m.within_refl [.regs]) rfl).2.1 h

/-! ### Events of status registers -/

theorem Mach.flushSeq_reg_ne (m : Mach) {a x : Nat} (h : x ≠ a) : (m.flushSeq a).reg x = m.reg x := by
  unfold Mach.flushSeq
  split
  · split
    · rw [Mach.reg_setReg_ne _ _ h]; rfl
    · rfl
  · rfl

theorem Mach.flushSeq_cleared (m : Mach) (a : Nat) :
    (m.flushSeq a).regs.cleared = m.regs.cleared ∧ (m.flushSeq a).clk = m.clk := by
  unfold Mach.flushSeq
  split
  · split <;> exact ⟨rfl, rfl⟩
  · exact ⟨rfl, rfl⟩

theorem Mach.flushSeq_flag {m : Mach} (a : Nat) {i : Nat} (hc : m.canonical = true) (hi : i < 24) (h : m.flag a i = true) :
    (m.flushSeq a).flag a i = true := by
  unfold Mach.flushSeq
  split
  · split
    · have := Mach.reg_setReg_self { m with regs := { m.regs with pendingSeq := m.regs.pendingSeq.filter (fun p => p.1 != a) } } a
        (bumpSeq (m.reg a)) hc
      unfold Mach.flag
      exact (congrArg (bitAt · i) this).trans ((bitAt_bumpSeq _ hi).trans h)
    · exact h
  · exact h

/-- What an event of a status register comes down to once the clears of the cycle are taken back: its bits, and SEQ. -/
theorem Mach.sqEvent_reg_self (m : Mach) (a : Nat) (mask : Word) (hc : m.canonical = true) (hm : mask ≠ 0)
    (hon : m.on (blockDomain (blockOf a)) = true) :
    (m.sqEvent a mask).reg a = ((m.flushSeq a).unclear a).reg a ||| mask ∨
      (m.sqEvent a mask).reg a = bumpSeq (((m.flushSeq a).unclear a).reg a ||| mask) := by
  have hn : ((m.flushSeq a).unclear a).canonical = true :=
    Mach.unclear_canonical a ((Mach.flushSeq_within m a (m.within_refl [.regs]) rfl).2.1 hc)
  unfold Mach.sqEvent
  simp only [hm, hon, decide_false, Bool.not_true, Bool.or_self, Bool.false_eq_true, if_false]
  generalize (m.flushSeq a).unclear a = n at *
  split
  · left
    split <;> exact Mach.reg_setReg_self n a _ hn
  · right
    exact Mach.reg_setReg_self n a _ hn

/-- An event of a status register whose domain is ON sets its bits. -/
theorem Mach.sqEvent_sets {m : Mach} {a i : Nat} {mask : Word} (hc : m.canonical = true) (hi : i < 24)
    (hb : bitAt mask i = true) (hon : m.on (blockDomain (blockOf a)) = true) : (m.sqEvent a mask).flag a i = true := by
  have hm : mask ≠ 0 := by rintro rfl; simp [bitAt] at hb
  unfold Mach.flag
  rcases m.sqEvent_reg_self a mask hc hm hon with e | e <;> rw [e]
  · rw [bitAt_or, hb, Bool.or_true]
  · rw [bitAt_bumpSeq _ hi, bitAt_or, hb, Bool.or_true]

theorem Mach.sqBit_sets {m : Mach} {a i : Nat} (hc : m.canonical = true) (hi : i < 24)
    (hon : m.on (blockDomain (blockOf a)) = true) : (m.sqBit a i).flag a i = true :=
  Mach.sqEvent_sets hc hi (bitAt_bitMask (by omega)) hon

/-- A flag that is set stays so through a later event of its register. -/
theorem Mach.sqEvent_flag {m : Mach} {a i : Nat} (mask : Word) (hc : m.canonical = true) (hi : i < 24) (hs : m.spent a)
    (h : m.flag a i = true) : (m.sqEvent a mask).flag a i = true := by
  by_cases hm : mask = 0
  · simpa [Mach.sqEvent, hm] using h
  by_cases hon : m.on (blockDomain (blockOf a)) = true
  · obtain ⟨e1, e2⟩ := m.flushSeq_cleared a
    have hu : (m.flushSeq a).unclear a = m.flushSeq a :=
      Mach.unclear_of_spent (by unfold Mach.spent; rw [e1, e2]; exact hs)
    have hf : bitAt ((m.flushSeq a).reg a) i = true := Mach.flushSeq_flag a hc hi h
    unfold Mach.flag
    rcases m.sqEvent_reg_self a mask hc hm hon with e | e <;> rw [e, hu]
    · rw [bitAt_or, hf, Bool.true_or]
    · rw [bitAt_bumpSeq _ hi, bitAt_or, hf, Bool.true_or]
  · simpa [Mach.sqEvent, hon] using h

theorem Mach.sqEvent_reg_ne (m : Mach) {a x : Nat} (mask : Word) (h : x ≠ a) (hl : ∀ p, x ≠ accLast p) :
    (m.sqEvent a mask).reg x = m.reg x := by
  have e : ((m.flushSeq a).unclear a).reg x = m.reg x := (Mach.unclear_reg_ne _ h hl).trans (m.flushSeq_reg_ne h)
  unfold Mach.sqEvent
  split
  · rfl
  · dsimp only
    split
    · split <;> exact (Mach.reg_setReg_ne _ _ h).trans e
    · exact (Mach.reg_setReg_ne _ _ h).trans e

/-- An event of another register leaves the clears of a register as spent as they were. -/
theorem Mach.sqEvent_spent {m : Mach} (a : Nat) (mask : Word) {b : Nat} (h : m.spent b) : (m.sqEvent a mask).spent b := by
  obtain ⟨e1, e2⟩ := m.flushSeq_cleared a
  have hu : ((m.flushSeq a).unclear a).spent b :=
    Mach.unclear_spent _ a b (.inr (by unfold Mach.spent; rw [e1, e2]; exact h))
  unfold Mach.sqEvent
  split
  · exact h
  · dsimp only
    split
    · split <;> exact hu
    · exact hu

/-! ### Increments of counters -/

theorem Mach.countN_reg_ne (m : Mach) {a x : Nat} (n : Nat) (h : x ≠ a) (hl : ∀ p, x ≠ accLast p) :
    (m.countN a n).reg x = m.reg x := by
  unfold Mach.countN
  split
  · rfl
  · exact (Mach.reg_setReg_ne _ _ h).trans (Mach.unclear_reg_ne _ h hl)

theorem Mach.countN_spent {m : Mach} (a n : Nat) {b : Nat} (h : m.spent b) : (m.countN a n).spent b := by
  unfold Mach.countN
  split
  · exact h
  · exact Mach.unclear_spent _ a b (.inr h)

/-! ### Events of `x_INTSRC` -/

@[simp] theorem intsrc_ne_accLast (p q : Port) : intsrc p ≠ accLast q := by cases p <;> cases q <;> decide

/-- Bit `i` of a port's INTSRC is set, and no clear of the cycle is left to take back: it stays set through every later event. -/
def Mach.latched (m : Mach) (p : Port) (i : Nat) : Prop :=
  m.canonical = true ∧ m.spent (intsrc p) ∧ m.flag (intsrc p) i = true

theorem Mach.flushInt_spent {m : Mach} (p : Port) {b : Nat} (h : m.spent b) : (m.flushInt p).spent b := by
  unfold Mach.flushInt
  dsimp only
  split
  · cases p <;> exact h
  · exact h

theorem Mach.flushInt_reg_ne (m : Mach) (p : Port) {x : Nat} (h : x ≠ intsrc p) : (m.flushInt p).reg x = m.reg x := by
  unfold Mach.flushInt
  dsimp only
  split
  · rw [Mach.updPort_reg, Mach.reg_setReg_ne _ _ h]
  · rfl

theorem Mach.flushInt_canonical {m : Mach} (p : Port) (h : m.canonical = true) : (m.flushInt p).canonical = true :=
  (Mach.flushInt_within m p (m.within_refl [.regs, .pa, .pb]) rfl).2.1 h

theorem Mach.flushInt_on (m : Mach) (p : Port) (k : Nat) : (m.flushInt p).on k = m.on k := by
  unfold Mach.flushInt
  dsimp only
  split
  · cases p <;> rfl
  · rfl

theorem Mach.flushInt_flag {m : Mach} (p : Port) {i : Nat} (hc : m.canonical = true) (hi : i < 24)
    (h : m.flag (intsrc p) i = true) : (m.flushInt p).flag (intsrc p) i = true := by
  unfold Mach.flushInt
  dsimp only
  split
  · unfold Mach.flag
    rw [Mach.updPort_reg, Mach.reg_setReg_self m _ _ hc, bitAt_bumpSeq _ hi]
    exact h
  · exact h

/-- An event of a port's INTSRC, its pacing and the clears of the cycle seen to: its bits, then SEQ or the mark that it is due. -/
def Mach.intTaken (m : Mach) (p : Port) (mask : Word) : Mach :=
  let n := m.setReg (intsrc p) (m.reg (intsrc p) ||| mask)
  if (n.port p).incPending then n
  else if decide (n.clk.now < (n.port p).lastInc + 512) then n.updPort p (fun s => { s with incPending := true })
  else (n.setReg (intsrc p) (bumpSeq (n.reg (intsrc p)))).updPort p (fun s => { s with lastInc := n.clk.now })

/-- An event of a port's INTSRC: while D5 is not ON its pacing alone. -/
theorem Mach.intEvent_eq (m : Mach) (p : Port) (mask : Word) :
    m.intEvent p mask = if m.on 5 then ((m.flushInt p).unclear (intsrc p)).intTaken p mask else m.flushInt p := by
  have hon := m.flushInt_on p 5
  have hu : ((m.flushInt p).unclear (intsrc p)).on 5 = (m.flushInt p).on 5 :=
    congrArg (fun c : Clocks => decide (c.dom.d5 = .on)) (Mach.unclear_cleared _ _).1
  unfold Mach.intEvent Mach.intTaken
  cases h : m.on 5 <;> simp [hon, h, hu]

theorem Mach.intTaken_reg_ne (m : Mach) (p : Port) (mask : Word) {x : Nat} (h : x ≠ intsrc p) :
    (m.intTaken p mask).reg x = m.reg x := by
  unfold Mach.intTaken
  dsimp only
  split
  · exact Mach.reg_setReg_ne _ _ h
  · split
    · rw [Mach.updPort_reg, Mach.reg_setReg_ne _ _ h]
    · rw [Mach.updPort_reg, Mach.reg_setReg_ne _ _ h, Mach.reg_setReg_ne _ _ h]

theorem Mach.intTaken_spent {m : Mach} (p : Port) (mask : Word) {b : Nat} (h : m.spent b) : (m.intTaken p mask).spent b := by
  unfold Mach.intTaken
  dsimp only
  split
  · exact h
  · split <;> (cases p <;> exact h)

theorem Mach.intTaken_flag {m : Mach} (p : Port) {mask : Word} {i : Nat} (hc : m.canonical = true) (hi : i < 24)
    (h : bitAt (m.reg (intsrc p) ||| mask) i = true) : (m.intTaken p mask).flag (intsrc p) i = true := by
  have e := Mach.reg_setReg_self m (intsrc p) (m.reg (intsrc p) ||| mask) hc
  unfold Mach.intTaken Mach.flag
  dsimp only
  split
  · rw [e]; exact h
  · split
    · rw [Mach.updPort_reg, e]; exact h
    · rw [Mach.updPort_reg, Mach.reg_setReg_self _ _ _ (Mach.setReg_canonical _ _ hc), e, bitAt_bumpSeq _ hi]; exact h

theorem Mach.intEvent_canonical {m : Mach} (p : Port) (mask : Word) (h : m.canonical = true) :
    (m.intEvent p mask).canonical = true :=
  (Mach.intEvent_within m p mask (m.within_refl [.regs, .pa, .pb]) rfl).2.1 h

theorem Mach.intEvent_reg_ne (m : Mach) (p : Port) (mask : Word) {x : Nat} (h : x ≠ intsrc p) (hl : ∀ q, x ≠ accLast q) :
    (m.intEvent p mask).reg x = m.reg x := by
  rw [Mach.intEvent_eq]
  split
  · rw [Mach.intTaken_reg_ne _ _ _ h, Mach.unclear_reg_ne _ h hl, Mach.flushInt_reg_ne _ _ h]
  · exact m.flushInt_reg_ne p h

theorem Mach.intEvent_spent {m : Mach} (p : Port) (mask : Word) {b : Nat} (h : m.spent b) : (m.intEvent p mask).spent b := by
  rw [Mach.intEvent_eq]
  split
  · exact Mach.intTaken_spent p mask (Mach.unclear_spent _ _ b (.inr (Mach.flushInt_spent p h)))
  · exact Mach.flushInt_spent p h

/-- While D5 is ON an event of a port's INTSRC latches its bit. -/
theorem Mach.intBit_latched {m : Mach} (p : Port) {i : Nat} (hc : m.canonical = true) (hon : m.on 5 = true) (hi : i < 24) :
    (m.intBit p i).latched p i := by
  have hn := Mach.unclear_canonical (intsrc p) (Mach.flushInt_canonical p hc)
  refine ⟨Mach.intEvent_canonical p _ hc, ?_, ?_⟩
  · rw [Mach.intBit, Mach.intEvent_eq, if_pos hon]
    exact Mach.intTaken_spent p _ (Mach.unclear_spent _ _ _ (.inl rfl))
  · rw [Mach.intBit, Mach.intEvent_eq, if_pos hon]
    exact Mach.intTaken_flag p hn hi (bitMask_bit i (by omega) _)

/-- A bit that is latched stays so through an event of any port's INTSRC. -/
theorem Mach.intEvent_latched {m : Mach} (p : Port) (mask : Word) {q : Port} {i : Nat} (hi : i < 24) (h : m.latched q i) :
    (m.intEvent p mask).latched q i := by
  obtain ⟨hc, hs, hf⟩ := h
  refine ⟨Mach.intEvent_canonical p mask hc, Mach.intEvent_spent p mask hs, ?_⟩
  by_cases hpq : intsrc q = intsrc p
  · rw [hpq] at hf hs ⊢
    have hf' := Mach.flushInt_flag p hc hi hf
    rw [Mach.intEvent_eq, Mach.unclear_of_spent (Mach.flushInt_spent p hs)]
    split
    · refine Mach.intTaken_flag p (Mach.flushInt_canonical p hc) hi ?_
      rw [bitAt_or, show bitAt _ i = true from hf', Bool.true_or]
    · exact hf'
  · unfold Mach.flag
    rw [Mach.intEvent_reg_ne m p mask hpq (intsrc_ne_accLast q)]
    exact hf

end Sys2Proof.Machine
end

section
/-! SUPPORT. What the writing of words and records into the deep buffer leaves alone (R448, R510 to R556), however the queues stand: the
clocks, the ports' personalities, the non-volatile store but for the reservation boundary, the security engine but for the seals that
are due, the status of the guard path, and every bit latched in `x_INTSRC`. -/

namespace Sys2Proof.Machine

/-! ### The personality of a port (R51) -/

theorem Mach.updPort_async (m : Mach) (p : Port) {f : PortState → PortState} (hf : ∀ s, (f s).async = s.async) (q : Port) :
    ((m.updPort p f).port q).async = (m.port q).async := by
  cases p <;> cases q <;> first | rfl | exact hf _

theorem Mach.intEvent_async (m : Mach) (p : Port) (mask : Word) (q : Port) :
    ((m.intEvent p mask).port q).async = (m.port q).async := by
  have hflush : ((m.flushInt p).port q).async = (m.port q).async := by
    unfold Mach.flushInt
    dsimp only
    split
    · rw [Mach.updPort_async _ p (fun _ => by rfl), Mach.setReg_port]
    · rfl
  have hunclear : ∀ n : Mach, (n.unclear (intsrc p)).port q = n.port q := fun n => by
    have hw := Mach.unclear_within n (intsrc p) (n.within_refl [.regs]) rfl
    cases q
    · exact hw.1 .pa (by simp)
    · exact hw.1 .pb (by simp)
  have htaken : ∀ n : Mach, ((n.intTaken p mask).port q).async = (n.port q).async := fun n => by
    unfold Mach.intTaken
    extract_lets k
    have hk : (k.port q).async = (n.port q).async := by rw [Mach.setReg_port]
    split
    · exact hk
    · split
      · rw [Mach.updPort_async _ p (fun _ => by rfl), hk]
      · rw [Mach.updPort_async _ p (fun _ => by rfl), Mach.setReg_port, hk]
  rw [Mach.intEvent_eq]
  split
  · rw [htaken, hunclear, hflush]
  · exact hflush

/-- From `m` to `n` words and records have gone into the buffer, with all that follows from that. -/
structure Mach.Filed (m n : Mach) : Prop where
  clk : n.clk = m.clk
  async : ∀ p, (n.port p).async = (m.port p).async
  nv : n.nv = { m.nv with boundary := n.nv.boundary }
  sec : n.sec = { m.sec with reasons := n.sec.reasons }
  guardStatus : n.reg 0x2C18 = m.reg 0x2C18
  latched : ∀ p i, i < 24 → m.latched p i → n.latched p i

namespace Mach.Filed

theorem refl (m : Mach) : m.Filed m := ⟨rfl, fun _ => rfl, rfl, rfl, rfl, fun _ _ _ h => h⟩

variable {m n k : Mach}

theorem trans (h : m.Filed n) (h2 : n.Filed k) : m.Filed k where
  clk := h2.clk.trans h.clk
  async p := (h2.async p).trans (h.async p)
  nv := by rw [h2.nv, h.nv]
  sec := by rw [h2.sec, h.sec]
  guardStatus := h2.guardStatus.trans h.guardStatus
  latched p i hi hl := h2.latched p i hi (h.latched p i hi hl)

theorem ite {c : Prop} [Decidable c] (hn : m.Filed n) (hk : m.Filed k) : m.Filed (if c then n else k) := by
  split
  · exact hn
  · exact hk

theorem foldl {α : Type} {f : Mach → α → Mach} (hf : ∀ k x, m.Filed k → m.Filed (f k x)) (l : List α) (h : m.Filed n) :
    m.Filed (l.foldl f n) := by
  induction l generalizing n with
  | nil => exact h
  | cons x l ih => exact ih (hf n x h)

/-! ### The primitive operations -/

/-- An operation on other parts of the block, and on registers but the guard path's status and INTSRC. -/
theorem of_regs {ps : List Part} (h : m.within n ps)
    (hp : [Part.clk, .pa, .pb, .nv, .sec].all (fun x => !ps.contains x) = true) (hg : n.reg 0x2C18 = m.reg 0x2C18)
    (hi : ∀ p, n.reg (intsrc p) = m.reg (intsrc p)) (hs : ∀ b, m.spent b → n.spent b) : m.Filed n := by
  have key : ∀ x ∈ [Part.clk, .pa, .pb, .nv, .sec], m.agrees n x := fun x hx =>
    h.1 x (by simpa using List.all_eq_true.mp hp x hx)
  have hclk : n.clk = m.clk := key .clk (by simp)
  have hpa : n.pa = m.pa := key .pa (by simp)
  have hpb : n.pb = m.pb := key .pb (by simp)
  have hnv : n.nv = m.nv := key .nv (by simp)
  have hsec : n.sec = m.sec := key .sec (by simp)
  refine ⟨hclk, fun p => ?_, by rw [hnv], by rw [hsec], hg, fun p i _ hl => ?_⟩
  · cases p <;> simp only [Mach.port, hpa, hpb]
  · obtain ⟨h1, h2, h3⟩ := hl
    exact ⟨h.2.1 h1, hs _ h2, by unfold Mach.flag; rw [hi]; exact h3⟩

/-- An operation on other parts of the block. -/
theorem of_within {ps : List Part} (h : m.within n ps)
    (hp : [Part.clk, .regs, .pa, .pb, .nv, .sec].all (fun x => !ps.contains x) = true) : m.Filed n := by
  rw [List.all_eq_true] at hp
  have hregs : n.regs = m.regs := h.1 .regs (by simpa using hp .regs (by simp))
  have hclk : n.clk = m.clk := h.1 .clk (by simpa using hp .clk (by simp))
  have hreg : ∀ a, n.reg a = m.reg a := fun a => by unfold Mach.reg; rw [hregs]
  refine of_regs h (List.all_eq_true.mpr fun x hx => hp x ?_) (hreg _) (fun _ => hreg _) fun b hb => ?_
  · revert x; decide
  unfold Mach.spent
  rw [hregs, hclk]
  exact hb

/-- Registers that the buffer and the event engine write: neither the guard path's status nor INTSRC. -/
def plain (a : Nat) : Prop := a ≠ 0x2C18 ∧ ∀ p, a ≠ intsrc p

theorem sqEvent {a : Nat} (h : m.Filed n) (mask : Word) (ha : plain a) : m.Filed (n.sqEvent a mask) :=
  h.trans (of_regs (Mach.sqEvent_within n a mask (n.within_refl [.regs]) rfl) rfl
    (Mach.sqEvent_reg_ne n mask ha.1.symm (by intro p; cases p <;> decide))
    (fun p => Mach.sqEvent_reg_ne n mask (ha.2 p).symm (intsrc_ne_accLast p)) fun _ => Mach.sqEvent_spent a mask)

theorem countN {a : Nat} (h : m.Filed n) (c : Nat) (ha : plain a) : m.Filed (n.countN a c) :=
  h.trans (of_regs (Mach.countN_within n a c (n.within_refl [.regs]) rfl) rfl
    (Mach.countN_reg_ne n c ha.1.symm (by intro p; cases p <;> decide))
    (fun p => Mach.countN_reg_ne n c (ha.2 p).symm (intsrc_ne_accLast p)) fun _ => Mach.countN_spent a c)

/-- An operation on a port that keeps its personality. -/
theorem updPort (h : m.Filed n) (p : Port) {f : PortState → PortState} (hf : ∀ s, (f s).async = s.async) :
    m.Filed (n.updPort p f) := by
  refine h.trans ⟨Mach.updPort_clk .., fun q => ?_, by simp, by simp, Mach.updPort_reg .., fun q i _ hl => ?_⟩
  · exact n.updPort_async p hf q
  · cases p <;> exact hl

theorem intEvent (h : m.Filed n) (p : Port) (mask : Word) : m.Filed (n.intEvent p mask) := by
  have hw := Mach.intEvent_within n p mask (n.within_refl [.regs, .pa, .pb]) rfl
  have hclk : (n.intEvent p mask).clk = n.clk := hw.1 .clk (by simp)
  have hnv : (n.intEvent p mask).nv = n.nv := hw.1 .nv (by simp)
  have hsec : (n.intEvent p mask).sec = n.sec := hw.1 .sec (by simp)
  exact h.trans ⟨hclk, n.intEvent_async p mask, by rw [hnv], by rw [hsec],
    Mach.intEvent_reg_ne n p mask (by cases p <;> decide) (by intro q; cases q <;> decide),
    fun q i hi hl => Mach.intEvent_latched p mask hi hl⟩

theorem intBit (h : m.Filed n) (p : Port) (i : Nat) : m.Filed (n.intBit p i) := h.intEvent p _

theorem intBoth (h : m.Filed n) (i : Nat) : m.Filed (n.intBoth i) := (h.intBit .a i).intBit .b i

theorem updQ (h : m.Filed n) (q : Nat) (f : Queue → Queue) : m.Filed (n.updQ q f) :=
  h.trans (of_within (Mach.updQ_within n q f (n.within_refl [.buf]) rfl) rfl)

/-! ### Queues (R521 to R543) -/

theorem plain_qStat (q : Nat) : plain (qBase q + 0x1C) := by
  unfold plain qBase
  exact ⟨by omega, fun p => by cases p <;> simp [intsrc, portBase] <;> omega⟩

theorem qStat (h : m.Filed n) (q i : Nat) : m.Filed (n.qStat q i) := h.sqEvent _ (plain_qStat q)

theorem intDrains (h : m.Filed n) (q i : Nat) : m.Filed (n.intDrains q i) := by
  unfold Mach.intDrains
  exact ite ((ite (h.intBit .a i) h).intBit .b i) (ite (h.intBit .a i) h)

theorem dropStores (h : m.Filed n) (f : Nat → Nat → Bool) : m.Filed (n.dropStores f) :=
  (h.updPort .a (f := PortState.dropStores f) fun _ => rfl).updPort .b (f := PortState.dropStores f) fun _ => rfl

theorem movedBy (h : m.Filed n) (q : Nat) : m.Filed (n.movedBy q) := by
  unfold Mach.movedBy Mach.passStores
  extract_lets set
  have hset : ∀ s, (set s).async = s.async := fun _ => rfl
  exact (((h.updPort .a hset).updPort .b hset).dropStores _).qStat q 6

theorem discardOldest (h : m.Filed n) (q : Nat) (armed : Bool) : m.Filed (n.discardOldest q armed) := by
  unfold Mach.discardOldest
  split
  · exact h
  · exact ((h.updQ q _).movedBy q).qStat q 2

theorem discardDown (h : m.Filed n) (q c k : Nat) : m.Filed (n.discardDown q c k) := by
  induction k generalizing n with
  | zero => exact h
  | succ k ih => exact ite (ih (h.discardOldest q true)) h

theorem reserve (h : m.Filed n) (q : Nat) : m.Filed (n.reserve q) := by
  unfold Mach.reserve
  split
  · exact h.trans ⟨rfl, fun p => by cases p <;> rfl, rfl, rfl, rfl, fun _ _ _ hl => hl⟩
  · exact h

theorem enterFull (h : m.Filed n) (q : Nat) : m.Filed (n.enterFull q) := (h.updQ q _).qStat q 1

theorem captureClose (h : m.Filed n) (q : Nat) (trig capt isSeal : Bool) : m.Filed (n.captureClose q trig capt isSeal) := by
  unfold Mach.captureClose
  dsimp only
  exact ite (ite (ite ((h.updQ q _).qStat q 4) (h.updQ q _)) (ite ((h.updQ q _).qStat q 4) (h.updQ q _))) h

theorem watermark (h : m.Filed n) (q before : Nat) : m.Filed (n.watermark q before) := by
  unfold Mach.watermark
  exact ite ((h.qStat q 0).intDrains q (8 + q)) h

/-- A seal becomes due. -/
theorem sealDue (h : m.Filed n) (r : BitVec 16) : m.Filed { n with sec := { n.sec with reasons := r } } :=
  h.trans ⟨rfl, fun p => by cases p <;> rfl, rfl, rfl, rfl, fun _ _ _ hl => hl⟩

theorem closeWith (h : m.Filed n) (q : Nat) (isSeal : Bool) (firstTs : Nat) (trig capt filled : Bool) (ws : List Word) :
    m.Filed (n.closeWith q isSeal firstTs trig capt filled ws) := by
  unfold Mach.closeWith
  extract_lets s before flags head data hash b closed reserved captured trimmed marked settled
  have hcaptured : m.Filed captured := ((h.updQ q _).reserve q).captureClose q trig capt isSeal
  have hmarked : m.Filed marked := (ite (hcaptured.discardDown q _ _) hcaptured).watermark q before
  have hsettled : m.Filed settled :=
    ite (ite (ite (hmarked.enterFull q) hmarked) (ite (hmarked.discardOldest q false) hmarked)) hmarked
  exact ite (hsettled.sealDue _) hsettled

theorem closeOpen (h : m.Filed n) (q : Nat) (filled : Bool) : m.Filed (n.closeOpen q filled) := by
  unfold Mach.closeOpen
  split
  · exact h
  · exact (h.updQ q _).closeWith ..

theorem updGrp (h : m.Filed n) (g : Nat) (f : GroupState → GroupState) : m.Filed (n.updGrp g f) :=
  h.trans (of_within (Mach.updGrp_within n g f (n.within_refl [.flt]) rfl) rfl)

theorem openBlock (h : m.Filed n) (q : Nat) : m.Filed (n.openBlock q) :=
  h.trans (of_within (Mach.openBlock_within n q (n.within_refl [.flt, .buf]) rfl) rfl)

theorem writeWord (h : m.Filed n) (q : Nat) (w : Word) : m.Filed (n.writeWord q w).1 := by
  unfold Mach.writeWord
  dsimp only
  split
  · split
    · exact ((h.openBlock q).updQ q _).closeOpen q true
    · exact (h.openBlock q).updQ q _
  · exact (h.openBlock q).updQ q _

theorem writeList (h : m.Filed n) (ws : List Word) : m.Filed (n.writeList ws).1 := by
  induction ws generalizing n with
  | nil => exact h
  | cons w ws ih => exact ih (h.writeWord 3 w)

theorem discCount (h : m.Filed n) {q : Nat} (c : Nat) (hq : q < 5) : m.Filed (n.discCount q c) := by
  have hp : plain (0x1D00 + 4 * q) :=
    ⟨by omega, fun p => by cases p <;> simp [intsrc, portBase] <;> omega⟩
  unfold Mach.discCount
  exact ite ((h.countN c hp).updQ q _) h

theorem discardWords (h : m.Filed n) {q : Nat} (c : Nat) (hq : q < 5) : m.Filed (n.discardWords q c) :=
  ((h.updQ q _).discCount c hq).qStat q 2

theorem makeRoom (h : m.Filed n) (q : Nat) : m.Filed (n.makeRoom q) := by
  unfold Mach.makeRoom
  exact ite (ite (h.enterFull q) (h.discardOldest q false)) h

/-! ### Records into Q3 (R28, R516, R543, R545) -/

theorem fitRecord (h : m.Filed n) (c : Nat) : m.Filed (n.fitRecord c) := by
  unfold Mach.fitRecord
  split
  · exact ite (h.closeOpen 3 false) h
  · exact h

theorem takeAfter (h : m.Filed n) (ws : List Word) : m.Filed (n.takeAfter ws).1 :=
  h.trans (of_within (Mach.takeAfter_within n ws (n.within_refl [.buf]) rfl) rfl)

/-- The buffer changes in itself. -/
theorem buf (h : m.Filed n) (b : Buffer) : m.Filed { n with buf := b } :=
  h.trans ⟨rfl, fun p => by cases p <;> rfl, rfl, rfl, rfl, fun _ _ _ hl => hl⟩

/-- The event engine changes in itself. -/
theorem evt (h : m.Filed n) (e : Events) : m.Filed { n with evt := e } :=
  h.trans ⟨rfl, fun p => by cases p <;> rfl, rfl, rfl, rfl, fun _ _ _ hl => hl⟩

theorem recordQ3 (h : m.Filed n) (event : Bool) (ws : List Word) : m.Filed (n.recordQ3 event ws).1 := by
  unfold Mach.recordQ3
  extract_lets fitted roomy place full held
  have hfitted : m.Filed fitted := h.fitRecord ws.length
  have hroomy : m.Filed roomy := ite hfitted (hfitted.makeRoom 3)
  split
  · have htaken := hroomy.takeAfter ws
    generalize roomy.takeAfter ws = taken at htaken ⊢
    obtain ⟨taken, after⟩ := taken
    have hwritten := htaken.writeList (ws ++ after)
    dsimp only at hwritten ⊢
    generalize taken.writeList (ws ++ after) = written at hwritten ⊢
    exact hwritten.buf _
  · split
    · have hfull : m.Filed full := ite (hroomy.enterFull 3) hroomy
      exact hfull.discardWords _ (by omega)
    · have hp : plain 0x1C04 := ⟨by omega, fun p => by cases p <;> decide⟩
      have hheld : m.Filed held := ite hroomy (hroomy.sqEvent _ hp)
      exact (hheld.discCount _ (by omega)).qStat 3 2

theorem gapWritten (h : m.Filed n) (g : GapRec) : m.Filed (n.gapWritten g) := by
  unfold Mach.gapWritten
  exact ite h (h.updQ _ _)

theorem writeGap (h : m.Filed n) (g : GapRec) : m.Filed (n.writeGap g) :=
  foldl (fun _ c hk => hk.recordQ3 false c.toWords) _
    (ite ((h.recordQ3 false g.toWords).gapWritten g) (h.recordQ3 false g.toWords))

theorem flushGaps (h : m.Filed n) : m.Filed n.flushGaps := by
  unfold Mach.flushGaps
  dsimp only
  have hall := foldl (fun _ g hk => writeGap hk g) n.buf.pendingGaps (h.buf { n.buf with pendingGaps := [] })
  exact ite (ite hall (hall.buf _)) h

theorem putGap (h : m.Filed n) (g : GapRec) : m.Filed (n.putGap g) := by
  unfold Mach.putGap
  exact ite (h.flushGaps.writeGap g) (h.buf _)

theorem writeRec (h : m.Filed n) (r : Rec) : m.Filed (n.writeRec r).1 :=
  foldl (fun _ c hk => hk.recordQ3 false c.toWords) _ (h.recordQ3 true r.toWords)

theorem writeHeld (h : m.Filed n) (r : Rec) : m.Filed (n.writeHeld r) := by
  have hfixed : m.Filed n.q3Fix := h.buf _
  have hwritten : m.Filed (n.q3Fix.writeRec r).1.q3Fix := (hfixed.writeRec r).buf _
  exact hwritten.evt _

theorem flushHeld (h : m.Filed n) : m.Filed n.flushHeld := by
  unfold Mach.flushHeld
  exact ite (foldl (fun _ r hk => writeHeld hk r) _ (h.flushGaps.evt _)) h

theorem putRec (h : m.Filed n) (r : Rec) : m.Filed (n.putRec r) := by
  have hcount : plain 0x2024 := ⟨by omega, fun p => by cases p <;> decide⟩
  have hstatus : plain 0x201C := ⟨by omega, fun p => by cases p <;> decide⟩
  unfold Mach.putRec
  split
  · exact h
  · extract_lets counted _ staged _ first declared
    have hcounted : m.Filed counted := h.countN 1 hcount
    have hstaged : m.Filed staged := hcounted.evt _
    have hdeclared : m.Filed declared := ite (hstaged.sqEvent _ hstatus) hstaged
    split
    · have hwritten := hcounted.flushHeld.writeRec r
      generalize counted.flushHeld.writeRec r = written at hwritten ⊢
      exact hwritten.evt _
    · exact ite (hstaged.evt _) (hdeclared.putGap _)

/-- A guard record, whatever Q3 does with it (R500). -/
theorem guardRec (h : m.Filed n) (code : Nat) (value : Word) (ts : Nat) : m.Filed (n.guardRec code value ts) := by
  unfold Mach.guardRec
  exact ite ((h.putRec _).evt _) h

end Mach.Filed
end Sys2Proof.Machine
end

section
/-! SUPPORT. The guard path's pins and states (R72, R486, R487, R492, R493): what driving and releasing the pins does, and what a fault
leaves latched, whatever its record does in the buffer. -/

namespace Sys2Proof.Machine

/-- The pins of a guard path driven low or released, with the levels then sensed at them. -/
def Guard.driving (g : Guard) (low s1 s2 : Bool) : Guard :=
  { g with a := { g.a with driven := low }, b := { g.b with driven := low }, sense1 := s1, sense2 := s2 }

/-- Driving the pins low draws on nothing that is open. -/
theorem Mach.grdDrive_low (m : Mach) : m.grdDrive true = { m with grd := m.grd.driving true false false } := rfl

/-- Released pins have free levels where they were driven before. -/
theorem Mach.grdDrive_release (m : Mach) : ∃ s1 s2 k, m.grdDrive false = { m with grd := m.grd.driving false s1 s2, free := k } := by
  unfold Mach.grdDrive
  cases ha : m.grd.a.driven <;> cases hb : m.grd.b.driven <;>
    simp only [ha, hb, Bool.not_false, Bool.and_false, Bool.and_true, Bool.false_eq_true, if_false, if_true] <;>
    exact ⟨_, _, _, rfl⟩

/-- Every state but HEALTHY releases both pins (R486). -/
theorem Mach.grdEnter_release (m : Mach) {st : Grd} (h : st ≠ .healthy) :
    ∃ s1 s2 k, m.grdEnter st = { m with grd := { m.grd with st := st }.driving false s1 s2, free := k } := by
  unfold Mach.grdEnter
  rw [decide_eq_false h]
  exact Mach.grdDrive_release _

/-- A change of the guard path alone. -/
theorem Mach.grd_changesOnly (m : Mach) (g : Guard) : m.changesOnly { m with grd := g } [.grd] := by
  intro x hx
  cases x
  case grd => exact absurd (List.mem_singleton_self _) hx
  all_goals rfl

/-- A status event leaves the path's state alone but for the period that it fell into. -/
theorem Mach.grdStatus_grd (m : Mach) (mask : Word) : ∃ p, (m.grdStatus mask).grd = { m.grd with statAt := p } := by
  unfold Mach.grdStatus
  split
  · exact ⟨m.grd.statAt, rfl⟩
  · have hw := Mach.sqEvent_within m 0x2C18 mask (m.within_refl [.regs]) rfl
    have hg : (m.sqEvent 0x2C18 mask).grd = m.grd := hw.1 .grd (by simp)
    exact ⟨some (m.ts / 1024), by rw [← hg]⟩

theorem Mach.grdStatus_clk (m : Mach) (mask : Word) : (m.grdStatus mask).clk = m.clk :=
  (Mach.grdStatus_within m mask (m.within_refl [.regs, .grd]) rfl).1 .clk (by simp)

theorem Mach.grdStatus_canonical {m : Mach} (mask : Word) (h : m.canonical = true) : (m.grdStatus mask).canonical = true :=
  (Mach.grdStatus_within m mask (m.within_refl [.regs, .grd]) rfl).2.1 h

/-- A status event sets its bits, the first of its period as a later one. -/
theorem Mach.grdStatus_sets {m : Mach} {mask : Word} {i : Nat} (hc : m.canonical = true) (hon : m.on 1 = true) (hi : i < 24)
    (hb : bitAt mask i = true) : (m.grdStatus mask).flag 0x2C18 i = true := by
  unfold Mach.grdStatus
  split
  · unfold Mach.flag
    rw [Mach.reg_setReg_self m _ _ hc, bitAt_or, hb, Bool.or_true]
  · exact Mach.sqEvent_sets (a := 0x2C18) hc hi hb hon

/-- A signal of the guard path sets GUARD at both ports and leaves the path itself as it is (R499). -/
theorem Mach.grdSignal_effect {m : Mach} (code : Nat) (value : Word) (ts : Nat) (hc : m.canonical = true) (hon : m.on 5 = true) :
    (m.grdSignal code value ts).grd = m.grd ∧ (m.grdSignal code value ts).reg 0x2C18 = m.reg 0x2C18 ∧
      ∀ p, (m.grdSignal code value ts).flag (intsrc p) 5 = true := by
  have hw := Mach.grdSignal_within m code value ts (m.within_refl [.regs, .pa, .pb, .flt, .evt, .buf, .sec, .nv]) rfl
  have ha : (m.intBit .a 5).Filed (m.intBoth 5) := (Mach.Filed.refl _).intBit .b 5
  have hb : (m.intBoth 5).Filed (m.grdSignal code value ts) := (Mach.Filed.refl _).guardRec code value ts
  have hab : m.Filed (m.intBit .a 5) := (Mach.Filed.refl _).intBit .a 5
  have hcan := Mach.intEvent_canonical .a (bitMask 5) hc
  have hon' : (m.intBit .a 5).on 5 = true := by simpa only [Mach.on, Mach.dom, hab.clk] using hon
  refine ⟨hw.1 .grd (by simp), (hab.trans (ha.trans hb)).guardStatus, fun p => ?_⟩
  cases p
  · exact ((ha.trans hb).latched .a 5 (by omega) (Mach.intBit_latched .a hc hon (by omega))).2.2
  · exact (hb.latched .b 5 (by omega) (Mach.intBit_latched .b hcan hon' (by omega))).2.2

/-- A fault: both pins released, the first cause latched, FAULT and GUARD set (R487, R492, R499). -/
theorem Mach.grdFault_effect {m : Mach} (cause : Nat) (hc : m.canonical = true) (h1 : m.on 1 = true) (h5 : m.on 5 = true) :
    (m.grdFault cause).grd.st = .fault ∧ (m.grdFault cause).grd.fcause = (if m.grd.fcause = 0 then cause else m.grd.fcause) ∧
      (m.grdFault cause).grd.a.driven = false ∧ (m.grdFault cause).grd.b.driven = false ∧
      (m.grdFault cause).flag 0x2C18 2 = true ∧ ∀ p, (m.grdFault cause).flag (intsrc p) 5 = true := by
  obtain ⟨s1, s2, k, he⟩ := m.grdEnter_release (st := .fault) (by decide)
  unfold Mach.grdFault
  rw [he]
  extract_lets _ _ _ faulted
  have hf1 : faulted.on 1 = true := h1
  have hf5 : faulted.on 5 = true := h5
  have hfc : faulted.canonical = true := hc
  obtain ⟨p, hg⟩ := faulted.grdStatus_grd (bitMask 2)
  have hs5 : (faulted.grdStatus (bitMask 2)).on 5 = true := by simpa only [Mach.on, Mach.dom, Mach.grdStatus_clk] using hf5
  have hs := Mach.grdStatus_sets hfc hf1 (i := 2) (by omega) (bitAt_bitMask (by omega))
  obtain ⟨e1, e2, e3⟩ := Mach.grdSignal_effect (0x0810 + cause) (word cause) faulted.ts (Mach.grdStatus_canonical (bitMask 2) hfc) hs5
  unfold Mach.flag at hs ⊢
  rw [e1, hg, e2]
  exact ⟨rfl, rfl, rfl, rfl, hs, e3⟩

/-- A pin of a HEALTHY path that has been sensed high for 1 ms is a fault with that pin's cause (R493). -/
theorem Mach.guardPinFault_high {m : Mach} (second : Bool) {ticks : Nat} (h1 : m.on 1 = true) (hst : m.grd.st = .healthy)
    (ht : 2 ^ 26 ≤ ticks * 1000) :
    m.guardPinFault second true ticks = (m.grdSense second true).grdFault (if second then 5 else 4) := by
  have hst' : (m.grdSense second true).grd.st = .healthy := by cases second <;> exact hst
  unfold Mach.guardPinFault
  simp only [h1, hst', ht, decide_true, Bool.not_true, Bool.false_eq_true, if_false, Bool.true_and, Bool.true_or, if_true]

/-- A driver that sinks into a short circuit for more than 1 ms is released, and its pin sensed high (R72, R493). -/
theorem Mach.guardShortRelease_due {m : Mach} (second : Bool) {ticks : Nat} (hs : m.grd.sinks second = true)
    (ht : 2 ^ 26 < ticks * 1000) : ∃ g, m.guardShortRelease second ticks = { m with grd := g } ∧ g.sinks second = false ∧
      g.sinks (!second) = m.grd.sinks (!second) ∧ g.st = m.grd.st := by
  unfold Mach.guardShortRelease
  rw [hs, decide_eq_true ht, Bool.and_true, if_pos rfl]
  cases second <;> exact ⟨_, rfl, rfl, rfl, rfl⟩

/-- In FAULT with FPULSE both pins go low at a multiple of 2^16 ticks, for 20 µs (R486). -/
theorem Mach.faultPulse_due {m : Mach} (hst : m.grd.st = .fault) (hp : m.flag 0x2C00 2 = true) (ht : m.ts % 65536 = 0) :
    m.faultPulse = { m with grd := { m.grd.driving true false false with pulseUntil := m.clk.now + micros 20 } } := by
  simp [Mach.faultPulse, hst, hp, ht, Mach.grdDrive_low]

/-- Settles O34: a pin sensed wrong by `Mach.grdFault_effect`; a release and a pulse change the path alone. -/
theorem guardPins : Obligations.GuardPins := by
  intro s second_ ticks hc
  refine ⟨fun h1 h5 hst ht => ?_, fun hsink ht => ?_, fun hst hp hts => ?_⟩
  · have hsense : (s.m.grdSense second_ true).canonical = true := hc
    have hcause : (s.m.grdSense second_ true).grd.fcause = s.m.grd.fcause := by cases second_ <;> rfl
    obtain ⟨e1, e2, e3, e4, e5, e6⟩ := Mach.grdFault_effect (if second_ then 5 else 4) hsense h1 h5
    have hw := Mach.guardPinFault_within s.m second_ true ticks
      (s.m.within_refl [.regs, .pa, .pb, .flt, .evt, .grd, .buf, .sec, .nv, .free]) rfl
    rw [hcause] at e2
    refine ⟨⟨s.m.guardPinFault second_ true ticks, s.pending⟩, rfl, rfl, ?_⟩
    rw [Mach.guardPinFault_high second_ h1 hst ht] at hw ⊢
    dsimp only
    exact ⟨e1, e2, e3, e4, e5, e6, hw.1⟩
  · obtain ⟨g, hrow, e1, e2, e3⟩ := Mach.guardShortRelease_due second_ hsink ht
    exact ⟨⟨{ s.m with grd := g }, s.pending⟩, congrArg (goOn s) hrow, rfl, e1, e2, e3, s.m.grd_changesOnly g⟩
  · exact ⟨⟨_, s.pending⟩, congrArg (goOn s) (Mach.faultPulse_due hst hp hts), rfl, rfl, rfl, rfl, hst, s.m.grd_changesOnly _⟩

end Sys2Proof.Machine
end

section
/-! SUPPORT. Operations in a FOSC cycle without a clear (R112): the parts and the registers that a chain of them may change, step by
step. -/

namespace Sys2Proof.Machine

theorem Mach.sqEvent_noClear {m : Mach} (a : Nat) (mask : Word) (h : m.noClear) :
    (m.sqEvent a mask).noClear ∧ m.keepsRegs (m.sqEvent a mask) [a] := by
  have hk : (m.sqEvent a mask).clk = m.clk := (Mach.sqEvent_within m a mask (m.within_refl [.regs]) rfl).1 .clk (by simp)
  obtain ⟨e1, e2⟩ := m.flushSeq_cleared a
  have hu : (m.flushSeq a).unclear a = m.flushSeq a :=
    unclear_none _ a (by unfold Mach.noClear; rw [e1, e2]; exact h)
  constructor
  · have hc : (m.sqEvent a mask).regs.cleared = m.regs.cleared := by
      unfold Mach.sqEvent
      split
      · rfl
      · rw [hu]
        dsimp only
        split
        · split <;> exact e1
        · exact e1
    unfold Mach.noClear
    rw [hc, hk]
    exact h
  · intro x hx
    have hx' : x ≠ a := by simpa using hx
    have hf := m.flushSeq_reg_ne hx'
    unfold Mach.sqEvent
    split
    · rfl
    · rw [hu]
      dsimp only
      split
      · split <;> exact (Mach.reg_setReg_ne _ _ hx').trans hf
      · exact (Mach.reg_setReg_ne _ _ hx').trans hf

theorem Mach.count_noClear {m : Mach} (a : Nat) (h : m.noClear) : (m.count a).noClear := by
  unfold Mach.count Mach.countN
  rw [unclear_none m a h]
  split <;> exact h

/-- From `m` to `n` only the parts and the registers listed have changed, and no clear has come into the cycle. -/
structure Mach.Edits (m n : Mach) (ps : List Part) (as : List Nat) : Prop where
  within : m.within n ps
  noClear : n.noClear
  keepsRegs : m.keepsRegs n as

namespace Mach.Edits

variable {m n k : Mach} {ps qs : List Part} {as : List Nat}

theorem refl (h : m.noClear) : m.Edits m ps as := ⟨m.within_refl ps, h, fun _ _ => rfl⟩

theorem canonical (h : m.Edits n ps as) (hc : m.canonical = true) : n.canonical = true := h.within.2.1 hc

theorem trans {bs : List Nat} (h : m.Edits n ps as) (g : n.Edits k qs bs) (hq : qs.all ps.contains = true)
    (hb : bs.all as.contains = true) : m.Edits k ps as :=
  ⟨Mach.within_step h.within g.within hq, g.noClear, fun x hx =>
    (g.keepsRegs x fun hxb => hx (by simpa using List.all_eq_true.mp hb x hxb)).trans (h.keepsRegs x hx)⟩

/-- A part that is not listed stays. -/
theorem agrees (h : m.Edits n ps as) {x : Part} (hx : ps.contains x = false) : m.agrees n x :=
  h.within.1 x (by simpa using hx)

theorem ite {c : Prop} [Decidable c] (hn : m.Edits n ps as) (hk : m.Edits k ps as) : m.Edits (if c then n else k) ps as := by
  split
  · exact hn
  · exact hk

/-- An operation that touches neither the registers nor the clocks. -/
theorem other (h : m.Edits n ps as) (hw : n.within k qs)
    (hq : qs.all (fun x => ps.contains x && x != .regs && x != .clk) = true) : m.Edits k ps as := by
  rw [List.all_eq_true] at hq
  have hregs : k.regs = n.regs := hw.1 .regs fun hx => by simpa using hq _ hx
  have hclk : k.clk = n.clk := hw.1 .clk fun hx => by simpa using hq _ hx
  refine ⟨Mach.within_step h.within hw (List.all_eq_true.mpr fun x hx => ?_), ?_, fun a ha => ?_⟩
  · have := hq x hx
    simp only [Bool.and_eq_true] at this
    exact this.1.1
  · unfold Mach.noClear
    rw [hregs, hclk]
    exact h.noClear
  · rw [← h.keepsRegs a ha]
    unfold Mach.reg
    rw [hregs]

theorem sqEvent (h : m.Edits n ps as) {a : Nat} (mask : Word) (ha : a ∈ as) (hp : [Part.regs].all ps.contains = true) :
    m.Edits (n.sqEvent a mask) ps as := by
  obtain ⟨hn, hr⟩ := Mach.sqEvent_noClear a mask h.noClear
  exact ⟨Mach.sqEvent_within n a mask h.within hp, hn, fun x hx =>
    (hr x (by rintro hxa; exact hx (List.mem_singleton.mp hxa ▸ ha))).trans (h.keepsRegs x hx)⟩

theorem count (h : m.Edits n ps as) {a : Nat} (ha : a ∈ as) (hp : [Part.regs].all ps.contains = true) :
    m.Edits (n.count a) ps as :=
  ⟨Mach.count_within n a h.within hp, Mach.count_noClear a h.noClear, fun x hx =>
    ((count_frame n a h.noClear).2 x (by rintro hxa; exact hx (List.mem_singleton.mp hxa ▸ ha))).trans (h.keepsRegs x hx)⟩

theorem setReg (h : m.Edits n ps as) {a : Nat} (w : Word) (ha : a ∈ as) (hp : [Part.regs].all ps.contains = true) :
    m.Edits (n.setReg a w) ps as :=
  ⟨Mach.setReg_within a w h.within hp, h.noClear, fun x hx =>
    (Mach.reg_setReg_ne n w (by rintro rfl; exact hx ha)).trans (h.keepsRegs x hx)⟩

/-- The resampler changes in itself. -/
theorem ang (h : m.Edits n ps as) (a : Angle) (hp : ps.contains .ang = true) : m.Edits { n with ang := a } ps as :=
  h.other (qs := [.ang]) ⟨fun x hx => by cases x <;> first | rfl | simp at hx, id, id⟩ (by simpa using hp)

end Mach.Edits
end Sys2Proof.Machine
end

section
/-! SUPPORT. The angle resampler's lock states and revolutions (R362 to R364, R368): what entering a state, taking a reference and
beginning a revolution do to the resampler, and that they touch no register but `ANG_STATUS`. -/

namespace Sys2Proof.Machine

theorem Mach.sqEvent_ang (m : Mach) (a : Nat) (mask : Word) : (m.sqEvent a mask).ang = m.ang :=
  (Mach.sqEvent_within m a mask (m.within_refl [.regs]) rfl).1 .ang (by simp)

theorem Mach.sqBit_ang (m : Mach) (a i : Nat) : (m.sqBit a i).ang = m.ang := m.sqEvent_ang a _

theorem Mach.count_ang (m : Mach) (a : Nat) : (m.count a).ang = m.ang :=
  (Mach.count_within m a (m.within_refl [.regs]) rfl).1 .ang (by simp)

theorem Mach.setLock_same (m : Mach) {l : Lock} (t : Int) (h : m.ang.lock = l) : m.setLock l t = m := by
  simp [Mach.setLock, h]

/-- A lock state entered stands with its instant; nothing else of the resampler changes. -/
theorem Mach.setLock_ang (m : Mach) {l : Lock} (t : Int) (h : m.ang.lock ≠ l) :
    (m.setLock l t).ang = { m.ang with lock := l, states := (t, l) :: m.ang.states } := by
  unfold Mach.setLock
  extract_lets old _ entered left
  have hleft : left.ang = entered.ang := by
    change (if old = .lock then entered.sqBit 0x1428 1 else entered).ang = _
    split
    · exact Mach.sqBit_ang _ _ _
    · rfl
  rw [if_neg h]
  cases l
  · exact (Mach.sqBit_ang _ _ _).trans hleft
  · exact hleft
  · exact (Mach.sqBit_ang _ _ _).trans hleft
  · exact (Mach.sqEvent_ang _ _ _).trans hleft

theorem Mach.enterSearch_ang (m : Mach) : m.enterSearch.ang.lock = .search ∧ m.enterSearch.ang.rev = none ∧
    m.enterSearch.ang.lowSince = none ∧ m.enterSearch.ang.theta = m.ang.theta := by
  unfold Mach.enterSearch
  extract_lets t
  by_cases h : m.ang.lock = .search
  · rw [Mach.setLock_same _ _ (by exact h)]
    exact ⟨h, rfl, rfl, rfl⟩
  · rw [Mach.setLock_ang _ _ (by exact h)]
    exact ⟨rfl, rfl, rfl, rfl⟩

/-- A revolution that begins: at its instant, with the number of steps that N gives it. -/
theorem Mach.revBegin_ang (m : Mach) (t base : Int) : (m.revBegin t base).ang =
    { m.ang with rev := some (t, base), nCode := m.nextN.1, rates := trimRates t m.ang.rates,
                 states := trimStates t m.ang.states, accs := m.ang.accs.filter (fun x => decide (t ≤ x)) } := by
  unfold Mach.revBegin
  rcases m.nextN with ⟨c, changed⟩
  dsimp only
  split
  · rw [Mach.sqBit_ang]
  · rfl

/-- The end of a reference's processing begins a revolution or waits for one; the lock state, θ and the last acceptance stay. -/
theorem Mach.beginIfWhole_ang (m : Mach) (t th : Int) : (m.beginIfWhole t th).ang.lock = m.ang.lock ∧
    (m.beginIfWhole t th).ang.theta = m.ang.theta ∧ (m.beginIfWhole t th).ang.accTheta = m.ang.accTheta ∧
    (m.beginIfWhole t th).ang.revCount = m.ang.revCount := by
  unfold Mach.beginIfWhole Mach.revSeek
  split
  · rw [Mach.revBegin_ang]; exact ⟨rfl, rfl, rfl, rfl⟩
  · split
    · exact ⟨rfl, rfl, rfl, rfl⟩
    · split
      · rw [Mach.revBegin_ang]; exact ⟨rfl, rfl, rfl, rfl⟩
      · exact ⟨rfl, rfl, rfl, rfl⟩

namespace Mach.Edits

variable {m n : Mach} {ps : List Part} {as : List Nat}

section
variable (h : m.Edits n ps as) (ha : 0x1428 ∈ as) (hp : [Part.regs, Part.ang].all ps.contains = true)
include h ha hp

theorem setLock (l : Lock) (t : Int) : m.Edits (n.setLock l t) ps as := by
  have hr : [Part.regs].all ps.contains = true := by simp_all
  have hang : ps.contains .ang = true := by simp_all
  unfold Mach.setLock
  extract_lets old _ entered left
  have hentered : m.Edits entered ps as := h.ang _ hang
  have hleft : m.Edits left ps as := ite (hentered.sqEvent _ ha hr) hentered
  refine ite h ?_
  cases l
  · exact hleft.sqEvent _ ha hr
  · exact hleft
  · exact hleft.sqEvent _ ha hr
  · exact hleft.sqEvent _ ha hr

theorem enterSearch : m.Edits n.enterSearch ps as :=
  (h.ang _ (by simp_all)).setLock ha hp .search _

theorem revBegin (t base : Int) : m.Edits (n.revBegin t base) ps as := by
  have hang : ps.contains .ang = true := by simp_all
  unfold Mach.revBegin
  rcases n.nextN with ⟨c, changed⟩
  exact ite ((h.ang _ hang).sqEvent _ ha (by simp_all)) (h.ang _ hang)

theorem beginIfWhole (t th : Int) : m.Edits (n.beginIfWhole t th) ps as := by
  unfold Mach.beginIfWhole Mach.revSeek
  refine ite (h.revBegin ha hp t th) (ite h ?_)
  split
  · exact h.revBegin ha hp _ _
  · exact h.ang _ (by simp_all)

end
end Mach.Edits
end Sys2Proof.Machine
end

section
/-! SUPPORT. Words offered to a queue that takes them and keeps its block open (R516, R532), and inputs that could wake a part that is
awake (R680, R681). -/

namespace Sys2Proof.Machine

theorem Mach.openFor_of_roomFor {m : Mach} {q k : Nat} (h : m.roomFor q k) : m.openFor q k := by
  obtain ⟨-, -, -, ht, hq, -, ho⟩ := h
  exact ⟨hq, ht, ho⟩

/-- A queue with room writes a word that it is offered at the end of its open block. -/
theorem Mach.offerWord_roomFor {m : Mach} {q k : Nat} (w : Word) (h : m.roomFor q (k + 1)) :
    m.offerWord q w = (m.plus q [w], []) := by
  have hw := Mach.writeWord_openFor w (Mach.openFor_mono (Mach.openFor_of_roomFor h) (Nat.le_add_left 1 k))
  obtain ⟨htaking, hbanks, hrun, -, -, -, o, ho, -⟩ := h
  have hroom : m.makeRoom q = m := by simp [Mach.makeRoom, ho]
  simp [Mach.offerWord, hbanks, htaking, hrun, hroom, hw]

theorem Mach.plus_q_self {m : Mach} {q : Nat} (ws : List Word) (hq : q < m.buf.queues.length) :
    (m.plus q ws).q q = (m.q q).plus ws := Mach.updQ_q_self _ hq

theorem Mach.plus_q_ne (m : Mach) {q k : Nat} (ws : List Word) (hk : k ≠ q) : (m.plus q ws).q k = m.q k := m.updQ_q_ne _ hk

theorem Mach.plus_within (m : Mach) (q : Nat) (ws : List Word) : m.within (m.plus q ws) [.buf] :=
  Mach.updQ_within m q _ (m.within_refl [.buf]) rfl

/-- A word written uses up its room and no more. -/
theorem Mach.roomFor_plus {m : Mach} {q k : Nat} (w : Word) (h : m.roomFor q (k + 1)) : (m.plus q [w]).roomFor q k := by
  obtain ⟨htaking, hbanks, hrun, ht, hq, h3, o, ho, hl⟩ := h
  have e := Mach.plus_q_self [w] hq
  refine ⟨htaking, by rw [e]; exact hbanks, by rw [e]; exact hrun, by rw [e]; exact ht, ?_, h3, o.plus [w], ?_, ?_⟩
  · simpa [Mach.plus, Mach.updQ, listUpd_length] using hq
  · simp [e, Queue.plus, ho]
  · rw [OpenBlock.plus_length, List.length_singleton]; omega

theorem Mach.offerList_roomFor {m : Mach} {q : Nat} (ws : List Word) (h : m.roomFor q ws.length) :
    m.offerList q ws = (m.plus q ws, []) := by
  induction ws generalizing m with
  | nil => simp [Mach.offerList]
  | cons w ws ih =>
    have hw := ih (Mach.roomFor_plus w h)
    simp [Mach.offerList, Mach.offerWord_roomFor w h, hw, Mach.plus_plus]

/-- A queue with room takes all the words that it is offered. -/
theorem Mach.offer_roomFor {m : Mach} {q : Nat} (ws : List Word) (h : m.roomFor q ws.length) : m.offer q ws = m.plus q ws := by
  simp [Mach.offer, Mach.offerList_roomFor ws h, Mach.putGaps]

theorem Mach.gained_plus {m : Mach} {q : Nat} (ws : List Word) (h : m.openFor q ws.length) : m.gained (m.plus q ws) q ws := by
  obtain ⟨hq, -, o, ho, -⟩ := h
  exact ⟨o, ho, by rw [Mach.plus_q_self ws hq]; simp [Queue.plus, OpenBlock.plus, ho]⟩

/-- An edge at a wake input of a part in Run, with no entry under way and no wake in this FOSC cycle, does nothing. -/
theorem Mach.wakeEdge_awake {m : Mach} (src : Nat) {ticks : Nat} (hvio : m.clk.vio = true) (ht : 14 ≤ ticks)
    (hmode : m.clk.mode = .run) (hentry : m.clk.entry = none) (hwoke : m.clk.wokeAt ≠ some m.clk.now) :
    m.wakeEdge src ticks = m := by
  have hl : m.wakeLevel ticks = (true, m) := by
    have : ticks ≠ 0 := by omega
    simp [Mach.wakeLevel, hvio, ht, this]
  simp [Mach.wakeEdge, hl, Mach.wake, hentry, Mach.wakeNow, hmode, Mach.wakeAgain, hwoke]

end Sys2Proof.Machine
end

section
/-! SUPPORT. The rows of the angle resampler that O23 speaks of: reference instants, lock states and the end of a revolution that is too
fast for its steps. -/

namespace Sys2Proof.Machine

/-- The resampler with one more reference instant that waits. -/
def Angle.waits (a : Angle) (t : Int) : Angle := { a with refs := a.refs ++ [t] }

/-- A KEY edge of the polarity in force waits as a reference instant, with REVOLUTION off KEY (R359, R445). -/
theorem Mach.keyInstant_waits {m : Mach} (t : Int) (hr : m.angRef = 0) (hruns : m.angRuns = true)
    (hrev : m.flag (recCfg 2) 0 = false) : m.keyInstant t = { m with ang := m.ang.waits t } := by
  have hq : ({ m with ang := m.ang.waits t } : Mach).recRuns 2 = false := by
    have hf : ({ m with ang := m.ang.waits t } : Mach).flag (recCfg 2) 0 = false := hrev
    unfold Mach.recRuns
    rw [hf, Bool.false_and, Bool.false_and]
  unfold Mach.keyInstant
  extract_lets _ waiting
  have hw : waiting = { m with ang := m.ang.waits t } := if_pos (by simp [hr, hruns])
  rw [hw, hq]
  rfl

theorem Mach.fosc_of_angRuns {m : Mach} (h : m.angRuns = true) : m.fosc = true := by
  have h1 : m.on 1 = true := by
    simp only [Mach.angRuns, Bool.and_eq_true] at h
    exact h.1.1.1.2
  simp [Mach.fosc, h1]

theorem Mach.signalOn_of_angRuns {m : Mach} (h : m.angRuns = true) : m.on 3 = true := by
  simp only [Mach.angRuns, Bool.and_eq_true] at h
  exact h.1.1.2

/-- An accepted KEY edge of the polarity in force, the part awake: an instant 14 ticks before its acceptance (R75, R359). -/
theorem Mach.keyEdge_reference {m : Mach} {level : Bool} {ticks : Nat} (hruns : m.angRuns = true) (hlife : m.clk.life = .up)
    (hvio : m.clk.vio = true) (ht : 14 ≤ ticks) (hmode : m.clk.mode = .run) (hentry : m.clk.entry = none)
    (hwoke : m.clk.wokeAt ≠ some m.clk.now) (href : m.angRef = 0) (hpol : level ≠ m.flag 0x1400 7)
    (hedge : level ≠ m.clk.keyLevel) (hrev : m.flag (recCfg 2) 0 = false) :
    m.keyEdge level ticks =
      { m with ang := m.ang.waits ((m.ts : Int) - 14), clk := { m.clk with keyLevel := level } } := by
  have hok : m.slowFilter ticks = true := by simp [Mach.slowFilter, hvio, ht]
  have hsame : (level == m.clk.keyLevel) = false := by simpa using hedge
  unfold Mach.keyEdge
  extract_lets ok edge same _ taken waiting
  have hedge' : edge = true := by simp [edge, ok, hok, Mach.fosc_of_angRuns hruns, hedge, hpol]
  have htaken : taken = { m with clk := { m.clk with keyLevel := level } } := if_pos hok
  have hwaiting : waiting = { m with ang := m.ang.waits ((m.ts : Int) - 14), clk := { m.clk with keyLevel := level } } := by
    change (if edge = true then taken.keyInstant ((taken.ts : Int) - 14) else taken) = _
    rw [if_pos hedge', htaken]
    exact Mach.keyInstant_waits _ href hruns hrev
  rw [if_neg (by simp [hlife]), if_neg (by simp [same, hsame]), hwaiting]
  exact Mach.wakeEdge_awake 3 hvio ht hmode hentry hwoke

/-- A reference instant taken out of those that wait, with those before it, and `HOLDN` read (R362, R366). -/
def Mach.refsAfter (m : Mach) (t : Int) : Mach :=
  { m with ang := { m.ang with refs := m.ang.refs.filter (fun x => decide (t < x)), holdN := m.fld 0x1408 16 8 } }

/-- A reference instant whose rate outputs are there is taken out of those that wait and handled in the lock state in force. -/
theorem Mach.reference_taken {m : Mach} {t : Int} {p : RatePoint} {rest : List RatePoint} {th : Int} (hruns : m.angRuns = true)
    (hin : t ∈ m.ang.refs) (hrates : m.ang.rates = p :: rest) (ht : t ≤ p.t) (hth : thetaAt m.ang.rates t = some th) :
    m.reference t =
      match m.ang.lock with
      | .search => (m.refsAfter t).refSearch t th
      | .holdover => (m.refsAfter t).phaseLoop t th
      | _ =>
        if 2 * (th - m.ang.accTheta) < oneRev then ((m.refsAfter t).count 0x1430).sqBit 0x1428 5
        else if 2 * (th - m.ang.accTheta) ≤ 3 * oneRev then (m.refsAfter t).phaseLoop t th
        else m.refsAfter t := by
  have hin' : m.ang.refs.contains t = true := List.contains_iff_mem.mpr hin
  unfold Mach.reference
  rw [if_neg (by simp [hruns, hin, hrates, ht])]
  extract_lets _ taken
  have htaken : thetaAt taken.ang.rates t = some th := hth
  rw [htaken]
  rfl

end Sys2Proof.Machine
end

section
/-! SUPPORT. The resampler's rows that O23 speaks of, each with what it does to the resampler, its counter and `ANG_STATUS`. -/

namespace Sys2Proof.Machine

/-! ### Early references, references in SEARCH, missing references (R357, R362) -/

/-- A reference that is handled in SEARCH with ω at least f_min: θ is set to the reference angle and TRACK begins (R362). -/
theorem Mach.refSearch_ang {m : Mach} (t th : Int) (hlock : m.ang.lock = .search) (hfast : m.fastEnough m.ang.omega = true) :
    (m.refSearch t th).ang.lock = .track ∧ (m.refSearch t th).ang.accTheta = m.keyOfs ∧ (m.refSearch t th).ang.revCount = 0 ∧
      (m.refSearch t th).ang.theta = m.ang.theta + (m.keyOfs - th) := by
  unfold Mach.refSearch
  rw [if_neg (by simp [hfast])]
  extract_lets k _ seen
  have hs : (seen.setTheta t th k).ang.lock ≠ .track := by
    rw [show (seen.setTheta t th k).ang.lock = .search from hlock]
    decide
  obtain ⟨e1, e2, e3, e4⟩ := Mach.beginIfWhole_ang ((seen.setTheta t th k).setLock .track t) t k
  rw [e1, e2, e3, e4, Mach.setLock_ang _ t hs]
  exact ⟨rfl, rfl, rfl, rfl⟩

theorem Mach.Edits.refSearch {m n : Mach} {ps : List Part} {as : List Nat} (h : m.Edits n ps as) (ha : 0x1428 ∈ as)
    (hp : [Part.regs, Part.ang].all ps.contains = true) (t th : Int) : m.Edits (n.refSearch t th) ps as := by
  unfold Mach.refSearch
  exact .ite h (((h.ang _ (by simp_all)).setLock ha hp .track t).beginIfWhole ha hp t _)

/-- A counter counts an event and `ANG_STATUS` shows it; nothing of the resampler changes (R362, R369). -/
theorem Mach.counted_shown {m : Mach} {c i : Nat} (hc : m.canonical = true) (hn : m.noClear) (hne : c ≠ 0x1428)
    (hi : i < 24) (hon : m.on 3 = true) (hdom : blockDomain (blockOf c) = 3) :
    ((m.count c).sqBit 0x1428 i).ang = m.ang ∧
      bitsAt (((m.count c).sqBit 0x1428 i).reg c) 0 24 = min 0xFFFFFF (bitsAt (m.reg c) 0 24 + 1) ∧
      ((m.count c).sqBit 0x1428 i).flag 0x1428 i = true := by
  have he : m.Edits (m.count c) [.regs] [c] := (Mach.Edits.refl hn).count (List.mem_singleton_self c) rfl
  have hclk : (m.count c).clk = m.clk := he.agrees (x := .clk) rfl
  refine ⟨(Mach.sqBit_ang _ _ _).trans (Mach.count_ang m c), ?_, Mach.sqBit_sets (a := 0x1428) (he.canonical hc) hi ?_⟩
  · have hk := (Mach.sqEvent_noClear 0x1428 (bitMask i) he.noClear).2 c (by simpa using hne)
    rw [Mach.sqBit, hk]
    exact (count_effect m c hc hn (by rw [hdom]; exact hon)).1
  · change (m.count c).on 3 = true
    simpa only [Mach.on, Mach.dom, hclk] using hon

theorem Mach.Edits.counted {m n : Mach} {ps : List Part} {as : List Nat} (h : m.Edits n ps as) {c : Nat} (i : Nat) (ha : 0x1428 ∈ as)
    (hc : c ∈ as) (hp : [Part.regs].all ps.contains = true) : m.Edits ((n.count c).sqBit 0x1428 i) ps as :=
  (h.count hc hp).sqEvent _ ha hp

/-- Early references are ignored and counted (R362). -/
theorem Mach.reference_early {m : Mach} {t : Int} {p : RatePoint} {rest : List RatePoint} {th : Int} (hruns : m.angRuns = true)
    (hin : t ∈ m.ang.refs) (hrates : m.ang.rates = p :: rest) (ht : t ≤ p.t) (hth : thetaAt m.ang.rates t = some th)
    (hlock : m.ang.lock = .track ∨ m.ang.lock = .lock) (hearly : 2 * (th - m.ang.accTheta) < oneRev) :
    m.reference t = ((m.refsAfter t).count 0x1430).sqBit 0x1428 5 := by
  rw [Mach.reference_taken hruns hin hrates ht hth]
  rcases hlock with e | e <;> simp only [e, hearly, if_true]

/-- 1.5 rev without an accepted reference: HOLDOVER, from the state that it leaves (R362). -/
theorem Mach.keyMiss_due {m : Mach} (hruns : m.angRuns = true) (hn : m.noClear)
    (hlock : m.ang.lock = .track ∨ m.ang.lock = .lock) (hfar : 3 * oneRev ≤ 2 * (m.ang.theta - m.ang.accTheta)) :
    ∃ n, m.keyMiss = (n.count 0x142C).sqBit 0x1428 6 ∧ n.ang.lock = .holdover ∧ n.ang.before = m.ang.lock ∧
      n.ang.theta = m.ang.theta ∧ m.Edits n [.regs, .ang] [0x1428] := by
  unfold Mach.keyMiss
  rw [if_pos (by rcases hlock with e | e <;> simp [hruns, e, hfar])]
  extract_lets t _ left
  have hne : left.ang.lock ≠ .holdover := by
    rw [show left.ang.lock = m.ang.lock from rfl]
    rcases hlock with e | e <;> rw [e] <;> decide
  have e := Mach.setLock_ang left t hne
  refine ⟨left.setLock .holdover t, rfl, ?_, ?_, ?_, ?_⟩
  · rw [e]
  · rw [e]
  · rw [e]
  · exact ((Mach.Edits.refl hn).ang _ rfl).setLock (by simp) rfl _ _

/-! ### The end of a revolution that is over-rate (R368, R369, R375, R378, R379) -/

/-- A revolution that begins leaves a flag of `ANG_STATUS` set. -/
theorem Mach.revBegin_flag {m : Mach} {i : Nat} (t base : Int) (hc : m.canonical = true) (hn : m.noClear) (hi : i < 24)
    (h : m.flag 0x1428 i = true) : (m.revBegin t base).flag 0x1428 i = true := by
  unfold Mach.revBegin
  rcases m.nextN with ⟨c, changed⟩
  dsimp only
  split
  · exact Mach.sqEvent_flag (a := 0x1428) _ hc hi (Mach.spent_of_noClear (by exact hn) _) h
  · exact h

/-- The next revolution after one that ended outside HOLDOVER: the count goes up, the period is shown, it begins (R368). -/
theorem Mach.revNext_effect {m : Mach} (t1 base : Int) (period : Nat) (accepted : Bool) (hc : m.canonical = true) (hn : m.noClear)
    (hlock : m.ang.lock ≠ .holdover) :
    (m.revNext t1 base period accepted).ang.revCount = (m.ang.revCount + 1) % 2 ^ 24 ∧
      (m.revNext t1 base period accepted).ang.rev = some (t1, base) ∧
      (m.revNext t1 base period accepted).reg 0x1414 = word (periodField period) ∧
      (m.flag 0x1428 7 = true → (m.revNext t1 base period accepted).flag 0x1428 7 = true) ∧
      m.Edits (m.revNext t1 base period accepted) [.regs, .ang] [0x1414, 0x1428] := by
  unfold Mach.revNext
  extract_lets shown h _ counted
  have hshown : m.Edits shown [.regs, .ang] [0x1414, 0x1428] := (Mach.Edits.refl hn).setReg _ (by simp) rfl
  have hcounted : m.Edits counted [.regs, .ang] [0x1414, 0x1428] := hshown.ang _ rfl
  have hl : decide (counted.ang.lock = .holdover) = false := decide_eq_false hlock
  have hreg : (counted.revBegin t1 base).reg 0x1414 = counted.reg 0x1414 :=
    ((Mach.Edits.refl hcounted.noClear).revBegin (ps := [.regs, .ang]) (List.mem_singleton_self _) rfl t1 base).keepsRegs _ (by decide)
  simp only [hl, Bool.false_and, Bool.false_eq_true, if_false]
  refine ⟨?_, ?_, ?_, fun hf => ?_, hcounted.revBegin (by simp) rfl t1 base⟩
  · exact congrArg Angle.revCount (Mach.revBegin_ang counted t1 base)
  · exact congrArg Angle.rev (Mach.revBegin_ang counted t1 base)
  · rw [hreg]
    exact Mach.reg_setReg_self m 0x1414 _ hc
  · refine Mach.revBegin_flag t1 base (hcounted.canonical hc) hcounted.noClear (by omega) ?_
    have : shown.reg 0x1428 = m.reg 0x1428 := Mach.reg_setReg_ne m _ (by decide)
    exact (congrArg (bitAt · 7) this).trans hf

/-- What an over-rate revolution puts into Q1 where there is room: its marker and an order record of ten words, counted (R369, R378). -/
theorem Mach.deliverOver_roomFor {m : Mach} (t0 t1 : Int) (period : Nat) (st : Lock) (nokey : Bool) (h : m.roomFor 1 11) :
    ∃ record : List Word, record.length = 10 ∧ m.deliverOver t0 t1 period st nokey =
      ((m.plus 1 (markerWord period false false false :: record)).count 0x1434).sqBit 0x1428 7 := by
  unfold Mach.deliverOver
  extract_lets h0 hstep z
  refine ⟨m.orderRecord st t0 nokey true hstep z z z, rfl, ?_⟩
  rw [Mach.offer_roomFor _ (by exact h)]

/-- A revolution shorter than its steps take is delivered as over-rate and the next begins (R369, R375). -/
theorem Mach.revolutionEnd_over {m : Mach} {t0 base t1 : Int} (hrev : m.ang.rev = some (t0, base)) (hruns : m.angRuns = true)
    (hlock : m.ang.lock ≠ .search) (hfar : base + oneRev ≤ m.ang.theta)
    (hseek : ∃ a b rest, seekTheta (base + oneRev) m.ang.rates.reverse = a :: b :: rest ∧
      t1 = roundUp (crossTime a b (base + oneRev)))
    (hfast : (t1 - t0).toNat < 64 * 2 ^ m.ang.nCode * 4096) :
    ∃ st nokey accepted, m.revolutionEnd =
      (m.deliverOver t0 t1 (t1 - t0).toNat st nokey).revNext t1 (base + oneRev) (t1 - t0).toNat accepted := by
  obtain ⟨a, b, rest, hs, rfl⟩ := hseek
  unfold Mach.revolutionEnd
  rw [hrev]
  dsimp only
  rw [if_neg (by simp [hruns, hlock, hfar]), hs]
  dsimp only
  rw [if_neg (by simp [hfast]), if_pos (by simpa using hfast)]
  exact ⟨_, _, _, rfl⟩

/-- The end of an over-rate revolution (R368, R369, R375, R378). -/
theorem Mach.overRate_effect {m : Mach} {t0 t1 base : Int} {period : Nat} {st : Lock} {nokey accepted : Bool}
    (hc : m.canonical = true) (hn : m.noClear) (hon : m.on 3 = true) (hlock : m.ang.lock ≠ .holdover) (hroom : m.roomFor 1 11) :
    ∃ n record, (m.deliverOver t0 t1 period st nokey).revNext t1 base period accepted = n ∧ record.length = 10 ∧
      m.gained n 1 (markerWord period false false false :: record) ∧ n.ang.revCount = (m.ang.revCount + 1) % 2 ^ 24 ∧
      n.ang.rev = some (t1, base) ∧ n.reg 0x1414 = word (periodField period) ∧
      bitsAt (n.reg 0x1434) 0 24 = min 0xFFFFFF (bitsAt (m.reg 0x1434) 0 24 + 1) ∧ n.flag 0x1428 7 = true ∧
      m.Edits n [.regs, .ang, .buf] [0x1414, 0x1428, 0x1434] := by
  obtain ⟨record, hlen, hd⟩ := Mach.deliverOver_roomFor t0 t1 period st nokey hroom
  let words := markerWord period false false false :: record
  have hgain : m.gained (m.plus 1 words) 1 words :=
    Mach.gained_plus words (Mach.openFor_of_roomFor (by simpa [words, hlen] using hroom))
  have hp : m.Edits (m.plus 1 words) [.buf] [] := (Mach.Edits.refl hn).other (m.plus_within 1 words) rfl
  have hs : (m.plus 1 words).Edits (((m.plus 1 words).count 0x1434).sqBit 0x1428 7) [.regs] [0x1434, 0x1428] :=
    (Mach.Edits.refl hp.noClear).counted 7 (by simp) (by simp) rfl
  obtain ⟨e1, e2, e3⟩ := Mach.counted_shown (c := 0x1434) (i := 7) (hp.canonical hc) hp.noClear (by decide) (by omega)
    (by exact hon) rfl
  obtain ⟨r1, r2, r3, r4, r5⟩ := Mach.revNext_effect t1 base period accepted (hs.canonical (hp.canonical hc)) hs.noClear
    (by rw [e1]; exact hlock)
  refine ⟨_, record, rfl, hlen, ?_⟩
  rw [hd]
  refine ⟨?_, by rw [r1, e1]; rfl, r2, r3, ?_, r4 e3, ?_⟩
  · obtain ⟨o, ho, hq⟩ := hgain
    have hb := (r5.agrees (x := .buf) rfl).trans (hs.agrees (x := .buf) rfl)
    exact ⟨o, ho, (congrArg (fun b : Buffer => b.queues.getD 1 Queue.none) hb).trans hq⟩
  · rw [r5.keepsRegs 0x1434 (by decide)]
    exact e2
  · exact (((Mach.Edits.refl hn).trans hp rfl rfl).trans hs rfl rfl).trans r5 rfl rfl

/-! ### O23 -/

/-- Settles O23: a row's own lemma says which reference, miss or end it takes; counters and flags by `Mach.counted_shown`, and what
stays by `Mach.Edits`. -/
theorem referenceInstants : Obligations.ReferenceInstants := by
  refine ⟨fun s hc hruns hn => ⟨?_, ?_, ?_, ?_⟩, ?_⟩
  · intro level ticks hlife hvio ht hmode hentry hwoke href hpol hedge hquiet
    obtain ⟨hwake, hoff, -⟩ := hquiet
    have hrow := Mach.keyEdge_reference hruns hlife hvio ht hmode hentry hwoke href hpol hedge (hoff 2 (by omega))
    refine ⟨⟨_, s.pending⟩, congrArg (goOn s) ((congrArg Mach.eventWake hrow).trans (Mach.eventWake_none hwake)), rfl, rfl, rfl, ?_⟩
    intro x hx
    cases x
    case ang => simp at hx
    case clk => simp at hx
    all_goals rfl
  · intro instant p rest th hin hrates ht hth
    have hafter : ∀ as, s.m.Edits (s.m.refsAfter instant) [.regs, .ang] as := fun as => (Mach.Edits.refl hn).ang _ rfl
    refine ⟨fun hlock hearly => ?_, fun hlock hfast => ?_⟩
    · have hrow := Mach.reference_early hruns hin hrates ht hth hlock hearly
      obtain ⟨e1, e2, e3⟩ := Mach.counted_shown (m := s.m.refsAfter instant) (c := 0x1430) (i := 5) hc hn (by decide) (by omega)
        (Mach.signalOn_of_angRuns hruns) rfl
      have hk := (hafter [0x1428, 0x1430]).counted (c := 0x1430) 5 (by simp) (by simp) rfl
      exact ⟨⟨_, s.pending⟩, congrArg (goOn s) hrow, rfl, e1, e2, e3, hk.within.1, hk.keepsRegs⟩
    · have hrow := Mach.reference_taken hruns hin hrates ht hth
      rw [hlock] at hrow
      obtain ⟨e1, e2, e3, e4⟩ := Mach.refSearch_ang (m := s.m.refsAfter instant) instant th hlock hfast
      have hk := (hafter [0x1428]).refSearch (by simp) rfl instant th
      exact ⟨⟨_, s.pending⟩, congrArg (goOn s) hrow, rfl, e1, e2, e3, e4, hk.within.1, hk.keepsRegs⟩
  · intro hlock hfar
    obtain ⟨n, hrow, e1, e2, e3, he⟩ := Mach.keyMiss_due hruns hn hlock hfar
    have hclk : n.clk = s.m.clk := he.agrees (x := .clk) rfl
    have hon : n.on 3 = true := by simpa only [Mach.on, Mach.dom, hclk] using Mach.signalOn_of_angRuns hruns
    obtain ⟨c1, c2, c3⟩ := Mach.counted_shown (c := 0x142C) (i := 6) (he.canonical hc) he.noClear (by decide) (by omega) hon rfl
    rw [he.keepsRegs 0x142C (by decide)] at c2
    have he' : s.m.Edits n [.regs, .ang] [0x1428, 0x142C] := (Mach.Edits.refl hn).trans he rfl rfl
    have hk := he'.counted (c := 0x142C) 6 (by simp) (by simp) rfl
    exact ⟨⟨_, s.pending⟩, congrArg (goOn s) hrow, rfl, by rw [c1, e1], by rw [c1, e2], by rw [c1, e3], c2, c3,
      hk.within.1, hk.keepsRegs⟩
  · intro since hlow hdue
    have hrow : s.m.spinLow = s.m.enterSearch := by
      unfold Mach.spinLow
      rw [hlow]
      exact if_pos (by simp [hruns, hdue])
    obtain ⟨e1, e2, -, e4⟩ := s.m.enterSearch_ang
    have hk := (Mach.Edits.refl hn).enterSearch (ps := [.regs, .ang]) (as := [0x1428]) (by simp) rfl
    exact ⟨⟨_, s.pending⟩, congrArg (goOn s) hrow, rfl, e1, e2, e4, hk.within.1, hk.keepsRegs⟩
  · intro s t0 base t1 hc hn hrev hruns hlock hfar hseek hfast hroom hquiet
    obtain ⟨st, nokey, accepted, hrow⟩ := Mach.revolutionEnd_over hrev hruns (by rcases hlock with e | e <;> simp [e]) hfar hseek hfast
    obtain ⟨n, record, hn', hlen, e1, e2, e3, e4, e5, e6, e7⟩ := Mach.overRate_effect (t0 := t0) (t1 := t1) (base := base + oneRev)
      (period := (t1 - t0).toNat) (st := st) (nokey := nokey) (accepted := accepted) hc hn (Mach.signalOn_of_angRuns hruns)
      (by rcases hlock with e | e <;> simp [e]) hroom
    have hwake : n.evt.wakeReq = false := by rw [e7.agrees (x := .evt) rfl]; exact hquiet.1
    rw [hn'] at hrow
    exact ⟨⟨n, s.pending⟩, record, congrArg (goOn s) ((congrArg Mach.eventWake hrow).trans (Mach.eventWake_none hwake)), rfl, hlen,
      e1, e2, e3, e4, e5, e6, e7.within.1, e7.keepsRegs⟩

end Sys2Proof.Machine
end

section
/-! SUPPORT. DAMPER (R417 to R425): the beginning and the end of a blanking, and the restart of the ACF group that it held. -/

namespace Sys2Proof.Machine

namespace Mach.Edits

variable {m n : Mach} {ps : List Part} {as : List Nat}

/-- The aux unit changes in itself, its channels as many as before. -/
theorem aux (h : m.Edits n ps as) (a : Aux) (hl : a.chans.length = n.aux.chans.length) (hp : ps.contains .aux = true) :
    m.Edits { n with aux := a } ps as := by
  refine h.other (qs := [.aux]) ⟨fun x hx => by cases x <;> first | rfl | simp at hx, id, fun hs => ?_⟩ (by simpa using hp)
  obtain ⟨h1, h2, h3⟩ := hs
  exact ⟨h1, hl.trans h2, h3⟩

theorem updGrp (h : m.Edits n ps as) (g : Nat) (f : GroupState → GroupState) (hp : ps.contains .flt = true) :
    m.Edits (n.updGrp g f) ps as :=
  h.other (Mach.updGrp_within n g f (n.within_refl [.flt]) rfl) (by simpa using hp)

/-- A restart with kept history touches the filters and its group's status register (R323, R348). -/
theorem restartKept (h : m.Edits n ps as) (g t : Nat) (ha : fltBase g + 12 ∈ as)
    (hp : [Part.regs, Part.flt].all ps.contains = true) : m.Edits (n.restartKept g t) ps as := by
  have hr : [Part.regs].all ps.contains = true := by simp_all
  have hf : ps.contains .flt = true := by simp_all
  unfold Mach.restartKept Mach.restartMarks Mach.fltEvent Mach.oweTiming
  refine ite ?_ h
  extract_lets again marked a
  have hm : m.Edits marked ps as := h.updGrp _ _ hf
  exact ite hm ((ite (hm.setReg _ ha hr) ((hm.sqEvent _ ha hr).updGrp _ _ hf)).updGrp _ _ hf)

/-- The ACF resampler chains restart without an event (R322, R518). -/
theorem restartResampler (h : m.Edits n ps as) (t : Nat) (hp : ps.contains .flt = true) : m.Edits (n.restartKept 12 t) ps as := by
  unfold Mach.restartKept Mach.restartMarks
  refine ite ?_ h
  extract_lets again marked
  rw [if_pos (by simp)]
  exact h.updGrp _ _ hp

end Mach.Edits

/-! ### Inputs of a part that is awake -/

/-- In Run an edge of DAMPER that its filter accepts does no more than the edge itself (R417, R680). -/
theorem Mach.damperInput_awake {m : Mach} (level : Bool) {ticks : Nat} (hlife : m.clk.life = .up) (hvio : m.clk.vio = true)
    (ht : 14 ≤ ticks) (hmode : m.clk.mode = .run) (hentry : m.clk.entry = none) (hwoke : m.clk.wokeAt ≠ some m.clk.now) :
    m.damperInput level ticks = m.damperEdge level := by
  have hclk : (m.damperEdge level).clk = m.clk :=
    (Mach.damperEdge_within m level (m.within_refl [.regs, .pa, .pb, .flt, .aux, .buf, .sec, .nv]) rfl).1 .clk (by simp)
  have hok : m.slowFilter ticks = true := by simp [Mach.slowFilter, hvio, ht]
  have hw : (m.damperEdge level).wakeEdge 4 ticks = m.damperEdge level :=
    Mach.wakeEdge_awake 4 (by rw [hclk]; exact hvio) ht (by rw [hclk]; exact hmode) (by rw [hclk]; exact hentry)
      (by rw [hclk]; exact hwoke)
  simp only [Mach.damperInput, hlife, hok, hw, ne_eq, not_true_eq_false, if_false, if_true, ite_self]

/-! ### Assertion and release -/

/-- The registers that say which channels are in use lie below `AUX_CTRL`: no event of the block changes the answer. -/
theorem Mach.anyAux_congr {m n : Mach} (hr : ∀ a < 0x1A00, n.reg a = m.reg a) (ha : n.aux.chans = m.aux.chans) :
    n.anyAux = m.anyAux := by
  have hcomp : ∀ k < 8, n.companion k = m.companion k := fun k hk => by
    induction k with
    | zero => rfl
    | succ k ih => simp only [Mach.companion, Mach.flag, Mach.fld, hr _ (show 0x1800 + 64 * k < 0x1A00 by omega),
        hr _ (show 0x1808 + 64 * k < 0x1A00 by omega), ih (by omega)]
  have huse : ∀ k < 8, (n.auxActive k || (n.auxRegs k).active) = (m.auxActive k || (m.auxRegs k).active) := fun k hk => by
    simp only [Mach.auxRegs, AuxCfg.active, Mach.auxActive, Mach.auxCfg, ha, hcomp k hk,
      hr _ (show auxBase k + 4 * 0 < 0x1A00 by unfold auxBase; omega)]
  unfold Mach.anyAux
  rw [Bool.eq_iff_iff, List.any_eq_true, List.any_eq_true]
  exact exists_congr fun k => and_congr_right fun hk => by rw [huse k (List.mem_range.mp hk)]

/-- The aux unit as an accepted edge leaves DAMPER's level (R417). -/
def Aux.atLevel (a : Aux) (level : Bool) : Aux := { a with damperLevel := level, ignoreDamper := false }

/-- The aux unit once a blanking has been released at an instant (R418). -/
def Aux.undamped (a : Aux) (r : Nat) : Aux :=
  { a with asserted := false, spans := listUpd a.spans 0 (fun x => { x with stop := some r }),
           chans := a.chans.map (fun c => { c with damped := true }) }

/-- An accepted edge while D2 is ON and DAMPER is heeded (R417). -/
theorem Mach.damperEdge_heeded {m : Mach} {level : Bool} (hon : m.on 2 = true) (hign : m.aux.ignoreDamper = false) :
    m.damperEdge level =
      let n : Mach := { m with aux := m.aux.atLevel level }
      if m.aux.asserted then (if m.damperActive level then n else n.damperRelease m.ts false)
      else if m.flag 0x1A04 0 && m.damperActive level then n.damperAssert
      else n := by
  unfold Mach.damperEdge
  extract_lets act _ taken
  have ht : taken = { m with aux := m.aux.atLevel level } := by
    unfold Aux.atLevel
    rw [← show (m.aux.ignoreDamper && act) = false by rw [hign, Bool.false_and]]
  have hheed : (!taken.on 2 || taken.aux.ignoreDamper) = false := by
    rw [show taken.on 2 = true from hon, ht]
    rfl
  rw [if_neg (by simp [hheed]), ht]
  rfl

/-- A release with DAMPER still asserted at its edge back. -/
theorem Mach.damperEdge_releases {m : Mach} {level : Bool} (hon : m.on 2 = true) (hign : m.aux.ignoreDamper = false)
    (hact : m.damperActive level = false) (hass : m.aux.asserted = true) :
    m.damperEdge level = Mach.damperRelease { m with aux := m.aux.atLevel level } m.ts false := by
  rw [Mach.damperEdge_heeded hon hign]
  simp only [hass, hact, if_true, Bool.false_eq_true, if_false]

theorem Mach.damperEdge_asserts {m : Mach} {level : Bool} (hon : m.on 2 = true) (hign : m.aux.ignoreDamper = false)
    (hen : m.flag 0x1A04 0 = true) (hact : m.damperActive level = true) (hoff : m.aux.asserted = false) :
    m.damperEdge level = Mach.damperAssert { m with aux := m.aux.atLevel level } := by
  rw [Mach.damperEdge_heeded hon hign]
  simp only [hoff, hen, hact, Bool.and_self, if_true, Bool.false_eq_true, if_false]

/-- What the end of a blanking does to one motion group: a marker and a restart where it was held (R419, R423, R424). -/
def Mach.letGo (m : Mach) (d r : Nat) (stuck : Bool) (g : Nat) : Mach :=
  if m.damperHold g then (m.offer 0 [blankMarker d g stuck]).restartKept g (nextMultiple (inPeriod g) r) else m

theorem Mach.letGo_free {m : Mach} {g : Nat} (d r : Nat) (stuck : Bool) (h : m.damperHold g = false) : m.letGo d r stuck g = m := by
  simp [Mach.letGo, h]

/-- The end of a blanking with no channel in use: the motion groups one after another, then the ACF resampler chains. -/
theorem Mach.damperRelease_motion {m : Mach} (r : Nat) (stuck : Bool) (hd : m.aux.auxDuring = false) (ha : m.anyAux = false) :
    m.damperRelease r stuck =
      let d := r - m.damperSince
      let n := ((Mach.letGo { m with aux := m.aux.undamped r } d r stuck 0).letGo d r stuck 1).letGo d r stuck 2
      if n.damperHold 0 then n.restartKept 12 (nextMultiple 64 r) else n := by
  unfold Mach.damperRelease
  rw [if_neg (by simp [hd, ha])]
  rfl

/-- A release with no group held and no channel in use only ends the blanking. -/
theorem Mach.damperRelease_none {m : Mach} (r : Nat) (stuck : Bool) (h4 : m.flag 0x1A04 4 = false) (h5 : m.flag 0x1A04 5 = false)
    (h6 : m.flag 0x1A04 6 = false) (hd : m.aux.auxDuring = false) (ha : m.anyAux = false) :
    m.damperRelease r stuck = { m with aux := m.aux.undamped r } := by
  have h0 : ({ m with aux := m.aux.undamped r } : Mach).damperHold 0 = false := h4
  have h1 : ({ m with aux := m.aux.undamped r } : Mach).damperHold 1 = false := h5
  have h2 : ({ m with aux := m.aux.undamped r } : Mach).damperHold 2 = false := h6
  rw [Mach.damperRelease_motion r stuck hd ha]
  extract_lets d n
  have hn : n = { m with aux := m.aux.undamped r } := by
    simp only [n]
    rw [Mach.letGo_free _ _ _ h0, Mach.letGo_free _ _ _ h1, Mach.letGo_free _ _ _ h2]
  rw [hn, if_neg (by rw [h0]; decide)]

/-- A release that held the ACF group alone: its marker in Q0, and the group and its resampler chains restart (R421 to R424). -/
theorem Mach.damperRelease_acf {m : Mach} (r : Nat) (stuck : Bool) (hn : m.noClear) (h4 : m.flag 0x1A04 4 = true)
    (h5 : m.flag 0x1A04 5 = false) (h6 : m.flag 0x1A04 6 = false) (hd : m.aux.auxDuring = false) (ha : m.anyAux = false)
    (hroom : m.roomFor 0 1) :
    ∃ n, m.damperRelease r stuck = n ∧ n.aux = m.aux.undamped r ∧ n.buf = (m.plus 0 [blankMarker (r - m.damperSince) 0 stuck]).buf ∧
      m.Edits n [.regs, .aux, .flt, .buf] [0x100C] := by
  let ended : Mach := { m with aux := m.aux.undamped r }
  let marked := ended.plus 0 [blankMarker (r - m.damperSince) 0 stuck]
  let kept := marked.restartKept 0 (nextMultiple (inPeriod 0) r)
  have hended : m.Edits ended [.aux] [] := (Mach.Edits.refl hn).aux _ (by simp [Aux.undamped]) rfl
  have hmarked : ended.Edits marked [.buf] [] := (Mach.Edits.refl hended.noClear).other (Mach.plus_within ended 0 _) rfl
  have hkept : marked.Edits kept [.regs, .flt] [0x100C] := (Mach.Edits.refl hmarked.noClear).restartKept 0 _ (by simp [fltBase]) rfl
  have hlast := (Mach.Edits.refl hkept.noClear).restartResampler (ps := [.flt]) (as := []) (nextMultiple 64 r) rfl
  have hregs : ∀ i, kept.flag 0x1A04 i = m.flag 0x1A04 i := fun i => congrArg (bitAt · i) (hkept.keepsRegs 0x1A04 (by decide))
  refine ⟨kept.restartKept 12 (nextMultiple 64 r), ?_, ?_, ?_, ?_⟩
  · have h0 : ended.damperHold 0 = true := h4
    have h1 : kept.damperHold 1 = false := (hregs 5).trans h5
    have h2 : kept.damperHold 2 = false := (hregs 6).trans h6
    have h0' : kept.damperHold 0 = true := (hregs 4).trans h4
    have hoffer : ended.offer 0 [blankMarker (r - m.damperSince) 0 stuck] = marked := Mach.offer_roomFor _ (by exact hroom)
    rw [Mach.damperRelease_motion r stuck hd ha]
    extract_lets d n
    have hl : n = kept := by
      have hheld : ended.letGo d r stuck 0 = kept := by
        rw [Mach.letGo, if_pos h0, hoffer]
      simp only [n]
      rw [hheld, Mach.letGo_free _ _ _ h1, Mach.letGo_free _ _ _ h2]
    rw [hl, if_pos h0']
  · exact (hlast.agrees (x := .aux) rfl).trans ((hkept.agrees (x := .aux) rfl).trans (hmarked.agrees (x := .aux) rfl))
  · exact (hlast.agrees (x := .buf) rfl).trans (hkept.agrees (x := .buf) rfl)
  · exact ((((Mach.Edits.refl hn).trans hended rfl rfl).trans hmarked rfl rfl).trans hkept rfl rfl).trans hlast rfl rfl

/-- What the beginning of a blanking leaves: DAMPER asserted from now, counted and shown (R417, R424). -/
theorem Mach.damperAssert_effect {m : Mach} (hc : m.canonical = true) (hn : m.noClear) (hon : m.on 2 = true) :
    m.damperAssert.aux.asserted = true ∧ m.damperAssert.aux.spans.head? = some ⟨m.ts, none, none⟩ ∧
      m.damperAssert.aux.damperLevel = m.aux.damperLevel ∧ m.damperAssert.aux.chans = m.aux.chans ∧
      m.damperAssert.flag 0x1A08 22 = true ∧
      bitsAt (m.damperAssert.reg 0x1A10) 0 24 = min 0xFFFFFF (bitsAt (m.reg 0x1A10) 0 24 + 1) ∧
      m.Edits m.damperAssert [.regs, .aux] [0x1A08, 0x1A10] := by
  unfold Mach.damperAssert
  extract_lets keep _ begun
  have hbegun : m.Edits begun [.aux] [] := (Mach.Edits.refl hn).aux _ rfl rfl
  have hshown : begun.Edits (begun.sqBit 0x1A08 22) [.regs] [0x1A08] := (Mach.Edits.refl hbegun.noClear).sqEvent _ (by simp) rfl
  have hcounted : (begun.sqBit 0x1A08 22).Edits ((begun.sqBit 0x1A08 22).count 0x1A10) [.regs] [0x1A10] :=
    (Mach.Edits.refl hshown.noClear).count (by simp) rfl
  have haux : ((begun.sqBit 0x1A08 22).count 0x1A10).aux = begun.aux :=
    (hcounted.agrees (x := .aux) rfl).trans (hshown.agrees (x := .aux) rfl)
  have hflag : (begun.sqBit 0x1A08 22).flag 0x1A08 22 = true := Mach.sqBit_sets (a := 0x1A08) (hbegun.canonical hc) (by omega) hon
  have hclk : (begun.sqBit 0x1A08 22).clk = m.clk := hshown.agrees (x := .clk) rfl
  have hcount := (count_effect (begun.sqBit 0x1A08 22) 0x1A10 (hshown.canonical (hbegun.canonical hc)) hshown.noClear
    (by change (begun.sqBit 0x1A08 22).on 2 = true; simpa only [Mach.on, Mach.dom, hclk] using hon)).1
  rw [hshown.keepsRegs 0x1A10 (by decide)] at hcount
  rw [haux]
  refine ⟨rfl, rfl, rfl, rfl, ?_, hcount, ((Mach.Edits.refl hn).trans hbegun rfl rfl |>.trans hshown rfl rfl).trans hcounted rfl rfl⟩
  exact (congrArg (bitAt · 22) (hcounted.keepsRegs 0x1A08 (by decide))).trans hflag

/-- DAMPER seen to be stuck: so marked, and shown (R425). -/
def Mach.stuckShown (m : Mach) : Mach := ({ m with aux := { m.aux with stuckSeen := true } } : Mach).sqBit 0x1A08 23

theorem Mach.stuckShown_aux (m : Mach) : m.stuckShown.aux = { m.aux with stuckSeen := true } :=
  (Mach.sqEvent_within _ 0x1A08 _ (Mach.within_refl _ [.regs]) rfl).1 .aux (by simp)

theorem Mach.stuckShown_edits {m : Mach} (hn : m.noClear) : m.Edits m.stuckShown [.regs, .aux] [0x1A08] :=
  ((Mach.Edits.refl hn).aux { m.aux with stuckSeen := true } rfl rfl).sqEvent (a := 0x1A08) _ (by simp) rfl

/-- 100 ms of assertion are shown; with `STUCKEND` the blanking ends there, and DAMPER is heeded no more (R425). -/
theorem Mach.damperStuck_due {m : Mach} (hn : m.noClear) (hass : m.aux.asserted = true) (hseen : m.aux.stuckSeen = false)
    (hdue : m.damperSince + millisUp 100 ≤ m.ts) :
    m.damperStuck = if m.flag 0x1A04 2 then
        let n := m.stuckShown.damperRelease (m.damperSince + millisUp 100) true
        { n with aux := { n.aux with ignoreDamper := true } }
      else m.stuckShown := by
  have hf : m.stuckShown.flag 0x1A04 2 = m.flag 0x1A04 2 := congrArg (bitAt · 2) ((Mach.stuckShown_edits hn).keepsRegs _ (by decide))
  have hs : m.stuckShown.damperSince = m.damperSince := by
    have hclk : m.stuckShown.clk = m.clk := (Mach.stuckShown_edits hn).agrees (x := .clk) rfl
    unfold Mach.damperSince Mach.ts
    rw [m.stuckShown_aux, hclk]
  rw [← hf, ← hs]
  unfold Mach.damperStuck
  exact if_pos (by simp [hass, hseen, hdue])

/-- Settles O32: an accepted edge is an assertion or a release; a release that holds the ACF group is `Mach.damperRelease_acf`. -/
theorem damperEdges : Obligations.DamperEdges := by
  intro s hc hon hlife
  refine ⟨fun level ticks hn hvio ht hmode hentry hwoke hign => ⟨?_, ?_⟩, fun hn hass hseen hdue => ?_⟩
  · intro hen hact hoff
    have hrow := (Mach.damperInput_awake level hlife hvio ht hmode hentry hwoke).trans (Mach.damperEdge_asserts hon hign hen hact hoff)
    have hlevel : s.m.Edits { s.m with aux := s.m.aux.atLevel level } [.aux] [] := (Mach.Edits.refl hn).aux _ rfl rfl
    obtain ⟨e1, e2, e3, e4, e5, e6, e7⟩ := Mach.damperAssert_effect (hlevel.canonical hc) hlevel.noClear (by exact hon)
    have hk : s.m.Edits _ [.regs, .aux] [0x1A08, 0x1A10] := ((Mach.Edits.refl hn).trans hlevel rfl rfl).trans e7 rfl rfl
    exact ⟨⟨_, s.pending⟩, congrArg (goOn s) hrow, rfl, e1, e2, e3, e4, e5, e6, hk.within.1, hk.keepsRegs⟩
  · intro hact hass h4 h5 h6 hd ha hroom
    have hrow := (Mach.damperInput_awake level hlife hvio ht hmode hentry hwoke).trans (Mach.damperEdge_releases hon hign hact hass)
    have hlevel : s.m.Edits { s.m with aux := s.m.aux.atLevel level } [.aux] [] := (Mach.Edits.refl hn).aux _ rfl rfl
    obtain ⟨n, hrel, haux, hbuf, he⟩ := Mach.damperRelease_acf (m := { s.m with aux := s.m.aux.atLevel level }) s.m.ts false
      hlevel.noClear h4 h5 h6 hd ha hroom
    have hk : s.m.Edits n [.regs, .aux, .flt, .buf] [0x100C] := ((Mach.Edits.refl hn).trans hlevel rfl rfl).trans he rfl rfl
    have hq : ∀ k, n.q k = (s.m.plus 0 [blankMarker (s.m.ts - s.m.damperSince) 0 false]).q k := fun k =>
      congrArg (fun b : Buffer => b.queues.getD k Queue.none) hbuf
    obtain ⟨o, ho, hg⟩ := Mach.gained_plus [blankMarker (s.m.ts - s.m.damperSince) 0 false] (Mach.openFor_of_roomFor (by exact hroom))
    refine ⟨⟨n, s.pending⟩, congrArg (goOn s) (hrow.trans hrel), rfl, by rw [haux]; rfl, by rw [haux]; rfl, by rw [haux]; rfl,
      by rw [haux]; rfl, ⟨o, ho, (hq 0).trans hg⟩, fun k hk0 => (hq k).trans (s.m.plus_q_ne _ hk0), hk.within.1, hk.keepsRegs⟩
  · have hrow := Mach.damperStuck_due hn hass hseen hdue
    have he := Mach.stuckShown_edits hn
    have hflag : s.m.stuckShown.flag 0x1A08 23 = true := Mach.sqBit_sets (a := 0x1A08) hc (by omega) hon
    refine ⟨fun h2 => ?_, fun h2 h4 h5 h6 hd ha => ?_⟩
    · rw [h2, if_neg (by decide)] at hrow
      exact ⟨⟨_, s.pending⟩, congrArg (goOn s) hrow, rfl, s.m.stuckShown_aux, hflag, he.within.1, he.keepsRegs⟩
    · have hkeep : ∀ i, s.m.stuckShown.flag 0x1A04 i = s.m.flag 0x1A04 i := fun i => congrArg (bitAt · i) (he.keepsRegs _ (by decide))
      have hany : s.m.stuckShown.anyAux = false :=
        (Mach.anyAux_congr (fun a ha => he.keepsRegs a (by simp; omega)) (by rw [Mach.stuckShown_aux])).trans ha
      have hrel := s.m.stuckShown.damperRelease_none (s.m.damperSince + millisUp 100) true ((hkeep 4).trans h4) ((hkeep 5).trans h5)
        ((hkeep 6).trans h6) (by rw [Mach.stuckShown_aux]; exact hd) hany
      rw [h2, if_pos rfl, hrel] at hrow
      have hk : s.m.Edits { s.m.stuckShown with aux :=
            { s.m.stuckShown.aux.undamped (s.m.damperSince + millisUp 100) with ignoreDamper := true } } [.regs, .aux] [0x1A08] :=
        he.aux _ (by simp [Aux.undamped]) rfl
      exact ⟨⟨_, s.pending⟩, congrArg (goOn s) hrow, rfl, rfl, rfl, by simp only [Mach.stuckShown_aux, Aux.undamped],
        hflag, hk.within.1, hk.keepsRegs⟩

end Sys2Proof.Machine
end

section
/-! SUPPORT. More of what goes into the buffer as D4 switches ON and as a commit record is replayed (R128, R518, R547, R554, R692). -/

namespace Sys2Proof.Machine
namespace Mach.Filed

variable {m n : Mach}

/-- A free value is drawn. -/
theorem drawNat (h : m.Filed n) : m.Filed n.drawNat.2 :=
  h.trans (of_within (Mach.drawNat_within n (n.within_refl [.free]) rfl) rfl)

theorem endRun (h : m.Filed n) (q : Nat) : m.Filed (n.endRun q) := by
  unfold Mach.endRun
  split
  · exact h
  · exact (h.updQ q _).putGap _

theorem gapPretrim (h : m.Filed n) (q : Nat) : m.Filed (n.gapPretrim q) := by
  unfold Mach.gapPretrim
  split
  · exact (h.updQ q _).putGap _
  · exact h.drawNat.putGap _

theorem gapStopped (h : m.Filed n) (q : Nat) : m.Filed (n.gapStopped q) := by
  have hput : ∀ k : Mach, m.Filed k → ∀ f a b, m.Filed (if q = 3 then (k.updQ q f).putGap a else (k.updQ q f).putGap b) :=
    fun k hk f a b => ite ((hk.updQ q f).putGap a) ((hk.updQ q f).putGap b)
  unfold Mach.gapStopped
  rcases hd : (n.q q).discarded with _ | d
  · simp only [hd]
    exact hput _ h.drawNat _ _ _
  · by_cases h0 : d.count = 0
    · simp only [hd, h0, if_true]
      exact hput _ h.drawNat _ _ _
    · simp only [hd, h0, if_false]
      exact hput _ h _ _ _

theorem bufferOn (h : m.Filed n) : m.Filed n.bufferOn := by
  unfold Mach.bufferOn
  extract_lets qs
  refine foldl (fun k q hk => ?_) _ (h.buf _)
  extract_lets ended trimmed
  have htrimmed : m.Filed trimmed := ite ((hk.endRun q).gapPretrim q) (hk.endRun q)
  exact ite (htrimmed.gapStopped q) htrimmed

theorem replay (h : m.Filed n) (c : CommitRec) (b : Nat) : m.Filed (n.replay c b) := by
  unfold Mach.replay
  extract_lets gaps recs
  have hgaps : m.Filed gaps := foldl (fun k q hk => ite (hk.putGap _) hk) _ h
  have hrecs : m.Filed recs := foldl (fun k r hk => (hk.writeRec r).evt _) _ hgaps
  refine hrecs.trans (of_regs (Mach.setReg_within _ _ (recs.within_refl [.regs]) rfl) rfl (Mach.reg_setReg_ne _ _ (by decide))
    (fun p => Mach.reg_setReg_ne _ _ (by cases p <;> decide)) fun _ hb => hb)

end Mach.Filed
end Sys2Proof.Machine
end

section
/-! SUPPORT. What the operations of a start leave alone (R128, R683 to R689): the course of the start, the domains, the ports'
personalities, the firmware slots and the identity of the part. -/

namespace Sys2Proof.Machine

/-- From `m` to `n` a start has gone on: of the clocks only the times of domains, of the non-volatile store only the boundary, the commit
records and the filter library, of the security engine only its seals have changed; a timestamp with no stop to count stands. -/
structure Mach.Continues (m n : Mach) : Prop where
  clk : n.clk = { m.clk with hearthStop := n.clk.hearthStop, ts := n.clk.ts, d1Since := n.clk.d1Since, d2Since := n.clk.d2Since,
                             d3Since := n.clk.d3Since, achSince := n.clk.achSince, powerPending := n.clk.powerPending }
  time : m.clk.hearthStop = 0 → n.clk.hearthStop = 0 ∧ n.clk.ts = m.clk.ts
  async : ∀ p, (n.port p).async = (m.port p).async
  nv : n.nv = { m.nv with boundary := n.nv.boundary, coefLib := n.nv.coefLib }
  sec : n.sec = { m.sec with reasons := n.sec.reasons, lastSeal := n.sec.lastSeal }
  canonical : m.canonical = true → n.canonical = true

namespace Mach.Continues

variable {m n k : Mach}

theorem refl (m : Mach) : m.Continues m := ⟨rfl, fun h => ⟨h, rfl⟩, fun _ => rfl, rfl, rfl, id⟩

theorem trans (h : m.Continues n) (h2 : n.Continues k) : m.Continues k where
  clk := by rw [h2.clk, h.clk]
  time h0 := by
    obtain ⟨e1, e2⟩ := h.time h0
    obtain ⟨e3, e4⟩ := h2.time e1
    exact ⟨e3, e4.trans e2⟩
  async p := (h2.async p).trans (h.async p)
  nv := by rw [h2.nv, h.nv]
  sec := by rw [h2.sec, h.sec]
  canonical hc := h2.canonical (h.canonical hc)

theorem ite {c : Prop} [Decidable c] (hn : m.Continues n) (hk : m.Continues k) : m.Continues (if c then n else k) := by
  split
  · exact hn
  · exact hk

theorem dom (h : m.Continues n) (j : Nat) : n.dom j = m.dom j := by
  unfold Mach.dom
  rw [h.clk]

/-- Words and records that go into the buffer. -/
theorem filed (h : m.Continues n) (hf : n.Filed k) (hc : n.canonical = true → k.canonical = true) : m.Continues k :=
  h.trans ⟨by rw [hf.clk], fun h0 => by rw [hf.clk]; exact ⟨h0, rfl⟩, hf.async, by rw [hf.nv], by rw [hf.sec], hc⟩

/-- An operation on parts that a start's course does not lie in. -/
theorem other {ps : List Part} (h : m.Continues n) (hw : n.within k ps)
    (hp : [Part.clk, .pa, .pb, .nv, .sec].all (fun x => !ps.contains x) = true) : m.Continues k := by
  have key : ∀ x ∈ [Part.clk, .pa, .pb, .nv, .sec], n.agrees k x := fun x hx =>
    hw.1 x (by simpa using List.all_eq_true.mp hp x hx)
  have hclk : k.clk = n.clk := key .clk (by simp)
  have hpa : k.pa = n.pa := key .pa (by simp)
  have hpb : k.pb = n.pb := key .pb (by simp)
  have hnv : k.nv = n.nv := key .nv (by simp)
  have hsec : k.sec = n.sec := key .sec (by simp)
  refine h.trans ⟨by rw [hclk], fun h0 => by rw [hclk]; exact ⟨h0, rfl⟩, fun p => ?_, by rw [hnv], by rw [hsec], hw.2.1⟩
  cases p <;> simp only [Mach.port, hpa, hpb]

/-- A domain's state replaced on both sides. -/
theorem setDom (h : m.Continues n) (j : Nat) (d : Dom) : (m.setDom j d).Continues (n.setDom j d) where
  clk := by
    unfold Mach.setDom
    rw [h.clk]
  time := h.time
  async := h.async
  nv := h.nv
  sec := h.sec
  canonical := h.canonical

/-! ### The blocks of a domain as it switches ON (R128) -/

/-- The times at which domains switched ON are noted. -/
theorem noted (h : m.Continues n) (t1 t2 t3 ta : Nat) :
    m.Continues { n with clk := { n.clk with d1Since := t1, d2Since := t2, d3Since := t3, achSince := ta } } :=
  h.trans ⟨rfl, fun h0 => ⟨h0, rfl⟩, fun p => by cases p <;> rfl, rfl, rfl, id⟩

theorem motionOn (h : m.Continues n) : m.Continues n.motionOn := by
  have hw := Mach.enterSearch_within n.servoReset (n.servoReset.within_refl [.regs, .ang]) rfl
  have hclk : n.servoReset.enterSearch.clk = n.servoReset.clk := hw.1 .clk (by simp)
  have hs : m.Continues n.servoReset.enterSearch := (h.other (Mach.servoReset_within n (n.within_refl [.mot]) rfl) rfl).other hw rfl
  have hnoted := hs.noted n.servoReset.clk.now n.servoReset.clk.d2Since n.servoReset.clk.d3Since n.servoReset.clk.now
  rw [hclk] at hnoted
  exact hnoted

theorem auxOn (h : m.Continues n) : m.Continues n.auxOn := by
  have hj : ∀ a, m.Continues { n with clk := { n.clk with d2Since := n.clk.now }, aux := a } := fun a =>
    h.trans ⟨rfl, fun h0 => ⟨h0, rfl⟩, fun p => by cases p <;> rfl, rfl, rfl, id⟩
  have hw : ∀ k : Mach, k.within k.excForce [.aux] := fun k => Mach.excForce_within k (k.within_refl [.aux]) rfl
  exact (hj _).other (hw _) rfl

/-- A library entry changed. -/
theorem putLib (h : m.Continues n) (e : Nat) (bytes : List Byte) : m.Continues (n.putLib e bytes) :=
  h.trans ⟨rfl, fun h0 => ⟨h0, rfl⟩, fun p => by cases p <;> rfl, rfl, rfl, id⟩

theorem saveCut (h : m.Continues n) : m.Continues n.saveCut := by
  unfold Mach.saveCut
  split
  · extract_lets _ cut
    have hcut : m.Continues cut := h.trans ⟨rfl, fun h0 => ⟨h0, rfl⟩, fun p => by cases p <;> rfl, rfl, rfl, id⟩
    exact ite (hcut.putLib _ _) hcut
  · exact h

theorem signalOff (h : m.Continues n) : m.Continues n.signalOff := by
  have hf : ∀ k : Mach, m.Continues k → ∀ a f, m.Continues { k with ang := a, flt := f } := fun k hk a f =>
    hk.trans ⟨rfl, fun h0 => ⟨h0, rfl⟩, fun p => by cases p <;> rfl, rfl, rfl, id⟩
  have hs := h.saveCut.other (Mach.stopGroups_within n.saveCut (List.range 13) (n.saveCut.within_refl [.flt]) rfl) rfl
  have hw : ∀ k : Mach, k.within k.evtReset [.evt] := fun k => Mach.evtReset_within k (k.within_refl [.evt]) rfl
  exact hf _ (hs.other (hw _) rfl) _ _

theorem signalOn (h : m.Continues n) : m.Continues n.signalOn := by
  have hj : ∀ k : Mach, m.Continues k →
      m.Continues { k with mem := { k.mem with coefs := [] }, clk := { k.clk with d3Since := k.clk.now } } := fun k hk =>
    hk.trans ⟨rfl, fun h0 => ⟨h0, rfl⟩, fun p => by cases p <;> rfl, rfl, rfl, fun hc => by
      simp only [Mach.canonical, Bool.and_eq_true] at hc ⊢
      exact ⟨hc.1, rfl⟩⟩
  have hw : ∀ (k : Mach) (f : GroupState → GroupState),
      k.within ((List.range 13).foldl (fun (k : Mach) g => k.updGrp g f) k) [.flt] := fun k f =>
    Mach.within_fold _ _ (k.within_refl [.flt]) fun k g hk => Mach.updGrp_within k g _ hk rfl
  unfold Mach.signalOn
  extract_lets off _ _ joined
  have hjoined : m.Continues joined := hj off h.signalOff
  exact hjoined.other (hw joined _) rfl

theorem engOn (h : m.Continues n) : m.Continues n.engOn := by
  have hinit : ∀ (l : List Nat) (k : Mach), m.Continues k → m.Continues (l.foldl Mach.pinInit k) := fun l => by
    induction l with
    | nil => exact fun _ hk => hk
    | cons p l ih => exact fun k hk => ih _ (hk.trans ⟨rfl, fun h0 => ⟨h0, rfl⟩, fun q => by cases q <;> rfl, rfl, rfl, id⟩)
  exact hinit _ _ (h.other (Mach.engOff_within n (n.within_refl [.eng]) rfl) rfl)

/-- A port that keeps its personality. -/
theorem updPort (h : m.Continues n) (p : Port) {f : PortState → PortState} (hf : ∀ s, (f s).async = s.async) :
    m.Continues (n.updPort p f) :=
  h.filed ((Mach.Filed.refl n).updPort p hf) (by cases p <;> exact id)

theorem intBit (h : m.Continues n) (p : Port) (i : Nat) : m.Continues (n.intBit p i) :=
  h.filed ((Mach.Filed.refl n).intBit p i) (Mach.intEvent_canonical p _)

/-- An event request that waits reaches its port (R116). -/
theorem asked (h : m.Continues n) (p : Port) (b : Bool) :
    m.Continues (if b then (n.intBit p 4).updPort p (fun s => { s with evtRequest := false }) else n) :=
  ite ((h.intBit p 4).updPort p fun _ => rfl) h

/-- The return of power has been told. -/
theorem powerTold (h : m.Continues n) : m.Continues { n with clk := { n.clk with powerPending := false } } :=
  h.trans ⟨rfl, fun h0 => ⟨h0, rfl⟩, fun p => by cases p <;> rfl, rfl, rfl, id⟩

/-- The security engine has sealed nothing since it switched ON. -/
theorem sealsAfresh (h : m.Continues n) : m.Continues { n with sec := { n.sec with lastSeal := 0 } } :=
  h.trans ⟨rfl, fun h0 => ⟨h0, rfl⟩, fun p => by cases p <;> rfl, rfl, rfl, id⟩

/-- What a domain's blocks do as it switches ON. -/
theorem domainJoin (h : m.Continues n) (k : Nat) : m.Continues (n.domainJoin k) := by
  unfold Mach.domainJoin
  extract_lets cleared joined told clocks powered asked
  have hcleared : m.Continues cleared := ite h (h.other (Mach.blocksOff_within n _ (n.within_refl [.regs]) rfl) rfl)
  split
  · exact hcleared.motionOn
  · exact hcleared.auxOn
  · exact hcleared.signalOn
  · have hj : m.Continues joined := (hcleared.intBit .a 6).intBit .b 6
    have ht : m.Continues told := (hj.intBit .a 7).intBit .b 7
    have hclk : told.clk = clocks := ((Mach.Filed.refl joined).intBoth 7).clk
    have hp : m.Continues powered := by
      refine ite ?_ hj
      rw [← hclk]
      exact ht.powerTold
    exact (hp.asked .a _).asked .b _
  · exact hcleared.engOn.other (Mach.flueOff_within _ (Mach.within_refl _ [.flue]) rfl) rfl
  · exact hcleared.sealsAfresh
  · exact hcleared

/-- FOSC restarts with no stop to count. -/
theorem foscRestart (h : m.Continues n) : m.Continues n.foscRestart :=
  h.trans ⟨rfl, fun h0 => ⟨rfl, by simp [Mach.foscRestart, h0]⟩, fun p => by cases p <;> rfl, rfl, rfl, id⟩

theorem bufferOn (h : m.Continues n) : m.Continues n.bufferOn :=
  h.filed (Mach.Filed.refl n).bufferOn
    (Mach.bufferOn_within n (n.within_refl [.regs, .pa, .pb, .flt, .buf, .sec, .nv, .free]) rfl).2.1

theorem oweStart (h : m.Continues n) (q : Nat) : m.Continues (n.oweStart q) :=
  h.other (Mach.oweStart_within n q (n.within_refl [.flt]) rfl) rfl

/-- Addresses that no access has touched since their domain switched ON. -/
theorem accessed (h : m.Continues n) (l : List (Nat × Nat)) :
    m.Continues { n with regs := { n.regs with lastAccess := l } } :=
  h.trans ⟨rfl, fun h0 => ⟨h0, rfl⟩, fun p => by cases p <;> rfl, rfl, rfl, id⟩

end Mach.Continues

/-- A domain that is OFF switches ON, all that follows from it included (R25, R128). -/
theorem Mach.switchDom_on {m : Mach} {k : Nat} (ember : Bool) (hk : m.dom k = .off) :
    (m.setDom k .on).Continues (m.switchDom k .on ember) := by
  unfold Mach.switchDom
  simp -zeta only [hk]
  extract_lets old powered joined buffered regs noted owed
  rw [if_neg (by simp [old]), if_neg (by simp [old])]
  have hpowered : m.Continues powered := .ite (.refl m) (Mach.Continues.refl m).foscRestart
  have hjoined : (m.setDom k .on).Continues joined := (hpowered.setDom k .on).domainJoin k
  have hbuffered : (m.setDom k .on).Continues buffered := .ite hjoined.bufferOn hjoined
  have hnoted : (m.setDom k .on).Continues noted := hbuffered.accessed _
  exact .ite (hnoted.oweStart 0 |>.oweStart 2) hnoted

theorem Mach.setDom_same (m : Mach) : ∀ k, m.setDom k (m.dom k) = m
  | 0 | 1 | 2 | 3 | 4 | 5 | 6 | 7 | _ + 8 => rfl

/-- A domain that is OFF takes its state for Run, ON or OFF (R25). -/
theorem Mach.switchDom_up {m : Mach} {k : Nat} {d : Dom} (ember : Bool) (hk : m.dom k = .off) (hd : d ≠ .retain) :
    (m.setDom k d).Continues (m.switchDom k d ember) := by
  cases d
  case on => exact Mach.switchDom_on ember hk
  case retain => exact absurd rfl hd
  case off =>
    have hs : m.setDom k .off = m := hk ▸ m.setDom_same k
    rw [hs, Mach.switchDom, if_pos hk]
    exact .refl m

theorem Mach.runState_up (m : Mach) (k : Nat) : m.runState k ≠ .retain := by
  unfold Mach.runState
  split <;> decide

end Sys2Proof.Machine
end

section
/-! SUPPORT. A cold start (R127, R683 to R692): the block after the whole reset, its rise up to 3.5 ms, and what both leave of the part. -/

namespace Sys2Proof.Machine

/-! ### The whole reset (R127) -/

/-- After the whole reset: the supplies and pins as they are, the ports as their straps say, what the non-volatile store holds. -/
theorem Mach.bare_parts (m : Mach) (straps : Straps) :
    (m.bare straps).clk = { Clocks.rest with now := m.clk.now, vsup := m.clk.vsup, vholdArmed := m.clk.vholdArmed, vio := m.clk.vio,
                                             keyLevel := m.clk.keyLevel, modeSince := m.clk.now, runSince := m.clk.now } ∧
      (m.bare straps).pa = PortState.fresh straps.aCfg ∧ (m.bare straps).pb = PortState.fresh straps.bCfg ∧
      (m.bare straps).nv = { m.nv with write := none, upgrade := none, activation := none, committing := none, commitStart := none } ∧
      (m.bare straps).sec.life = m.sec.stored.life ∧ (m.bare straps).sec.priv = m.sec.priv ∧
      (m.bare straps).sec.owner = m.sec.stored.owner ∧ (m.bare straps).canonical = true := by
  have hw : ∀ (l : List PReg) (f : Mach → PReg → Word) (n : Mach),
      n.within (l.foldl (fun (n : Mach) p => n.setReg p.addr (f n p)) n) [.regs] := fun l f n =>
    Mach.within_fold _ _ (n.within_refl [.regs]) fun k p hk => Mach.setReg_within _ _ hk rfl
  unfold Mach.bare
  extract_lets s b _ _ _ _ _ n
  obtain ⟨hkeep, hcan, -⟩ := hw n.nv.pregs (fun n p => (n.reg p.addr &&& ~~~persistMask p.addr) ||| (p.value &&& persistMask p.addr)) n
  have hsec : _ = n.sec := hkeep .sec (by simp)
  rw [hsec]
  exact ⟨hkeep .clk (by simp), hkeep .pa (by simp), hkeep .pb (by simp), hkeep .nv (by simp), rfl, rfl, rfl, hcan rfl⟩

/-! ### The rise (R683, R685) -/

/-- A cold start from its first domain up to 3.5 ms, but for its self-test. -/
def Mach.rise (m : Mach) (c : Option CommitRec) : Mach :=
  let n := m.switchDom 5 .on false
  let n := n.setSequences c
  let n := (n.switchDom 7 .on false).switchDom 4 .on false
  let n := c.elim n fun c => n.replay c m.nv.boundary
  ((n.toRun [3, 1, 2, 6]).flueStart).sealReason 5

namespace Mach.Continues

variable {m n : Mach}

theorem setSequences (h : m.Continues n) (c : Option CommitRec) : m.Continues (n.setSequences c) :=
  h.trans ⟨rfl, fun h0 => ⟨h0, rfl⟩, fun p => by cases p <;> rfl, rfl, rfl, id⟩

theorem replayed (h : m.Continues n) (c : Option CommitRec) (b : Nat) : m.Continues (c.elim n fun c => n.replay c b) := by
  cases c with
  | none => exact h
  | some c =>
    exact h.filed ((Mach.Filed.refl n).replay c b)
      (Mach.replay_within n c b (n.within_refl [.regs, .pa, .pb, .flt, .evt, .buf, .sec, .nv]) rfl).2.1

theorem flueStart (h : m.Continues n) : m.Continues n.flueStart := h.other (Mach.flueStart_within n (n.within_refl [.flue]) rfl) rfl

theorem sealReason (h : m.Continues n) (i : Nat) : m.Continues (n.sealReason i) :=
  h.trans ⟨rfl, fun h0 => ⟨h0, rfl⟩, fun p => by cases p <;> rfl, rfl, rfl, id⟩

/-- A domain that was OFF at the start takes its state for Run. -/
theorem switchDom (h : m.Continues n) {k : Nat} {d : Dom} (hk : m.dom k = .off) (hd : d ≠ .retain) :
    (m.setDom k d).Continues (n.switchDom k d false) :=
  (h.setDom k d).trans (Mach.switchDom_up false ((h.dom k).trans hk) hd)

/-- The self-test of a start begins with the motion block (R697, R700). -/
theorem startTest (h : m.Continues n) : m.Continues (n.runStart .start startTests none false true) := by
  have hm : ∀ b, m.Continues (Mach.motionOff { n with bist := b }) := fun b =>
    (h.trans (k := { n with bist := b }) ⟨rfl, fun h0 => ⟨h0, rfl⟩, fun p => by cases p <;> rfl, rfl, rfl, id⟩).other
      (Mach.motionOff_within _ (Mach.within_refl _ [.regs, .mot, .flt, .ang, .grd, .free]) rfl) rfl
  exact hm _

end Mach.Continues

/-- The domains of a start: D4, D5 and D7 ON, the others ON or OFF. -/
def Mach.domsUp (m : Mach) (d3 d1 d2 d6 : Dom) : Mach :=
  { m with clk := { m.clk with dom := { m.clk.dom with d1 := d1, d2 := d2, d3 := d3, d4 := .on, d5 := .on, d6 := d6, d7 := .on } } }

theorem Mach.domsUp_eq (m : Mach) (d3 d1 d2 d6 : Dom) : m.domsUp d3 d1 d2 d6 =
    ((((((m.setDom 5 .on).setDom 7 .on).setDom 4 .on).setDom 3 d3).setDom 1 d1).setDom 2 d2).setDom 6 d6 := by
  simp only [Mach.domsUp, Mach.setDom]

/-- D3, D1, D2 and D6 take their states for Run. -/
theorem Mach.Continues.toRun {m n : Mach} (h : m.Continues n) (hd : ∀ k, k ∈ [3, 1, 2, 6] → m.dom k = .off) :
    ∃ d3 d1 d2 d6, ((((m.setDom 3 d3).setDom 1 d1).setDom 2 d2).setDom 6 d6).Continues (n.toRun [3, 1, 2, 6]) := by
  have h3 := h.switchDom (k := 3) (d := n.runState 3) (hd 3 (by simp)) (n.runState_up 3)
  have h1 := h3.switchDom (k := 1) (d := n.runState 1) (hd 1 (by simp)) (n.runState_up 1)
  have h2 := h1.switchDom (k := 2) (d := n.runState 2) (hd 2 (by simp)) (n.runState_up 2)
  have h6 := h2.switchDom (k := 6) (d := n.runState 6) (hd 6 (by simp)) (n.runState_up 6)
  refine ⟨n.runState 3, n.runState 1, n.runState 2, n.runState 6, ?_⟩
  unfold Mach.toRun
  simp only [List.foldl_cons, List.foldl_nil]
  exact h6

/-- A cold start's rise switches the domains and keeps its course. -/
theorem Mach.rise_continues {m : Mach} (c : Option CommitRec) (hoff : m.clk.dom = Domains.rest) :
    ∃ d3 d1 d2 d6, (m.domsUp d3 d1 d2 d6).Continues (m.rise c) := by
  have hd : ∀ k, 0 < k → m.dom k = .off := fun k hk => by
    unfold Mach.dom
    rw [hoff]
    split <;> first | rfl | omega
  unfold Mach.rise
  extract_lets host sequenced buffered replayed
  have h5 : (m.setDom 5 .on).Continues sequenced :=
    ((Mach.Continues.refl m).switchDom (hd 5 (by omega)) (by decide)).setSequences c
  have h74 : (((m.setDom 5 .on).setDom 7 .on).setDom 4 .on).Continues buffered :=
    (h5.switchDom (k := 7) (hd 7 (by omega)) (by decide)).switchDom (k := 4) (hd 4 (by omega)) (by decide)
  obtain ⟨d3, d1, d2, d6, h⟩ := (h74.replayed c m.nv.boundary).toRun fun k hk => by
    have : k = 3 ∨ k = 1 ∨ k = 2 ∨ k = 6 := by simpa using hk
    rcases this with rfl | rfl | rfl | rfl
    · exact hd 3 (by omega)
    · exact hd 1 (by omega)
    · exact hd 2 (by omega)
    · exact hd 6 (by omega)
  rw [← Mach.domsUp_eq] at h
  exact ⟨d3, d1, d2, d6, h.flueStart.sealReason 5⟩

/-! ### The cold start -/

/-- From `m`, its slot chosen, to `n` the block stands ready to rise (R683 to R690): reset as a whole, one start more, in slot `b`. -/
structure Mach.readyToRise (m n : Mach) (straps : Straps) (b pf rolled : Bool) : Prop where
  clk : ∃ full, n.clk = { Clocks.rest with
    now := m.clk.now, vsup := m.clk.vsup, vholdArmed := m.clk.vholdArmed, vio := m.clk.vio, keyLevel := m.clk.keyLevel,
    modeSince := m.clk.now, runSince := m.clk.now, life := .up, start := some ⟨true, full, m.clk.now, .run, pf, rolled⟩ }
  pa : n.pa = PortState.fresh straps.aCfg
  pb : n.pb = PortState.fresh straps.bCfg
  runB : n.nv.runB = b
  starts : n.nv.starts = m.nv.starts + 1
  slotA : n.nv.slotA = m.nv.slotA
  slotB : n.nv.slotB = m.nv.slotB
  activation : n.nv.activation = none
  life : n.sec.life = m.sec.stored.life
  priv : n.sec.priv = m.sec.priv
  owner : n.sec.owner = m.sec.stored.owner
  canonical : n.canonical = true

/-- A cold start with a slot to run is the rise of a block that is ready, then IMGFAIL and the self-test as they are due. -/
theorem Mach.coldStart_rises {m m1 : Mach} {straps : Straps} {own pin b rolled : Bool} (ht : straps.test = false)
    (hs : m.chooseSlot own = (some b, rolled, m1)) :
    ∃ (n : Mach) (full : Bool), m1.readyToRise n straps b m1.latestCommit.isSome rolled ∧
      m.coldStart straps own pin =
        let r := n.rise m1.latestCommit
        let r := if own && (m.slot m.nv.nextB).st = .try_ && !m.fwVerifies (m.slot m.nv.nextB).image then r.imageFail else r
        if full then r.runStart .start startTests none false true else r := by
  obtain ⟨hclk, hpa, hpb, hnv, hlife, hpriv, howner, hcan⟩ := m1.bare_parts straps
  unfold Mach.coldStart
  rw [if_neg (by simp [ht]), hs]
  simp -zeta only []
  extract_lets failed bared c used _ counted _ running loaded full base _ ready host sequenced buffered replayed toRun risen shown
  have hc : c = m1.latestCommit := by simp only [c, bared, Mach.latestCommit, hnv]
  have hloaded : running.within loaded [.regs, .bist] := by
    clear_value c
    cases pin
    · cases c
      · exact running.within_refl _
      · exact Mach.loadResults_within running _ (running.within_refl _) rfl
    · exact running.within_refl _
  obtain ⟨hkeep, hload, -⟩ := hloaded
  have lclk : loaded.clk = bared.clk := hkeep .clk (by simp)
  have lnv : loaded.nv = running.nv := hkeep .nv (by simp)
  have lsec : loaded.sec = bared.sec := hkeep .sec (by simp)
  have hrise : risen = ready.rise c := by
    have hrep : replayed = c.elim buffered fun c => buffered.replay c base := by
      clear_value c
      cases c <;> rfl
    simp only [risen, toRun]
    rw [hrep]
    rfl
  have hrun : running.nv.starts = m1.nv.starts + 1 ∧ running.nv.slotA = m1.nv.slotA ∧ running.nv.slotB = m1.nv.slotB ∧
      running.nv.activation = none := by
    change bared.nv.starts + 1 = _ ∧ bared.nv.slotA = _ ∧ bared.nv.slotB = _ ∧ bared.nv.activation = none
    rw [show bared.nv = _ from hnv]
    exact ⟨rfl, rfl, rfl, rfl⟩
  obtain ⟨rstarts, rslotA, rslotB, ract⟩ := hrun
  refine ⟨ready, full, ⟨⟨full, ?_⟩, ?_, ?_, ?_, ?_, ?_, ?_, ?_, ?_, ?_, ?_, hload hcan⟩, ?_⟩
  · change ({ loaded.clk with life := .up, start := some ⟨true, full, loaded.clk.now, .run, c.isSome, rolled⟩ } : Clocks) = _
    rw [lclk, hc, show bared.clk = _ from hclk]
  · exact (show loaded.pa = bared.pa from hkeep .pa (by simp)).trans hpa
  · exact (show loaded.pb = bared.pb from hkeep .pb (by simp)).trans hpb
  · exact congrArg Nv.runB lnv
  · exact (congrArg Nv.starts lnv).trans rstarts
  · exact (congrArg Nv.slotA lnv).trans rslotA
  · exact (congrArg Nv.slotB lnv).trans rslotB
  · exact (congrArg Nv.activation lnv).trans ract
  · exact (congrArg Security.life lsec).trans hlife
  · exact (congrArg Security.priv lsec).trans hpriv
  · exact (congrArg Security.owner lsec).trans howner
  · rw [← hc, ← hrise]

end Sys2Proof.Machine
end

section
/-! SUPPORT. What a cold start leaves (R66, R127, R683 to R692), and the choice of its slot (R688). -/

namespace Sys2Proof.Machine

/-! ### IMGFAIL through the start of the self-test (R661, R697) -/

/-- A lock state entered touches `ANG_STATUS` alone. -/
theorem Mach.setLock_reg_ne (m : Mach) (l : Lock) (t : Int) {x : Nat} (h : x ≠ 0x1428) (hl : ∀ p, x ≠ accLast p) :
    (m.setLock l t).reg x = m.reg x := by
  unfold Mach.setLock
  extract_lets old _ entered left
  have hleft : left.reg x = m.reg x := by
    change (if old = .lock then entered.sqBit 0x1428 1 else entered).reg x = _
    split
    · exact Mach.sqEvent_reg_ne entered _ h hl
    · rfl
  split
  · rfl
  · cases l
    · exact (Mach.sqEvent_reg_ne left _ h hl).trans hleft
    · exact hleft
    · exact (Mach.sqEvent_reg_ne left _ h hl).trans hleft
    · exact (Mach.sqEvent_reg_ne left _ h hl).trans hleft

/-- Registers read the same after an operation on other parts. -/
theorem Mach.reg_of_within {m n : Mach} {ps : List Part} (h : m.within n ps) (hp : ps.contains .regs = false) (x : Nat) :
    n.reg x = m.reg x := by
  have hregs : n.regs = m.regs := h.1 .regs (by simpa using hp)
  unfold Mach.reg
  rw [hregs]

/-- The motion block without power touches no register but `ANG_STATUS`. -/
theorem Mach.motionOff_reg_ne (m : Mach) {x : Nat} (h : x ≠ 0x1428) (hl : ∀ p, x ≠ accLast p) : m.motionOff.reg x = m.reg x := by
  have hw := Mach.grdReset_within (m₀ := m) _ (Mach.stopGroups_within m [0, 1, 2, 3, 12] (m.within_refl [.flt, .grd, .free]) rfl) rfl
  have hlock : ∀ k : Mach, k.enterSearch.reg x = k.reg x := fun k => Mach.setLock_reg_ne _ _ _ h hl
  exact (hlock _).trans (Mach.reg_of_within hw rfl x)

/-- The start of a self-test leaves IMGFAIL as it is. -/
theorem Mach.startTest_imgfail (m : Mach) : (m.runStart .start startTests none false true).flag 0x3010 5 = m.flag 0x3010 5 := by
  have h : ∀ b, (Mach.motionOff { m with bist := b }).flag 0x3010 5 = m.flag 0x3010 5 := fun b =>
    congrArg (bitAt · 5) (Mach.motionOff_reg_ne _ (by decide) (by intro p; cases p <;> decide))
  exact h _

/-! ### What a cold start leaves -/

/-- D4, D5 and D7 are ON after a start's rise; nothing but the domains' states changes with them. -/
theorem Mach.domsUp_parts (m : Mach) (d3 d1 d2 d6 : Dom) : (m.domsUp d3 d1 d2 d6).dom 4 = .on ∧ (m.domsUp d3 d1 d2 d6).dom 5 = .on ∧
    (m.domsUp d3 d1 d2 d6).dom 7 = .on ∧
    (m.domsUp d3 d1 d2 d6).clk = { m.clk with dom := (m.domsUp d3 d1 d2 d6).clk.dom } := ⟨rfl, rfl, rfl, rfl⟩

/-- A block that was ready and whose start goes on has begun a cold start. -/
theorem Mach.readyToRise.started {m n t : Mach} {straps : Straps} {b pf rolled : Bool} {d3 d1 d2 d6 : Dom}
    (hready : m.readyToRise n straps b pf rolled) (h : (n.domsUp d3 d1 d2 d6).Continues t) (hv : m.clk.vsup = true) :
    m.coldStarted t straps b pf ∧ t.nv.slotA = m.nv.slotA ∧ t.nv.slotB = m.nv.slotB ∧ t.nv.activation = none ∧
      ∃ x, t.clk.start = some x ∧ x.rollback = rolled := by
  obtain ⟨⟨full, hclk⟩, hpa, hpb, hrunB, hstarts, hA, hB, hact, hlife, hpriv, howner, -⟩ := hready
  obtain ⟨h4, h5, h7, hup⟩ := n.domsUp_parts d3 d1 d2 d6
  have hcourse := h.clk
  rw [hup, hclk] at hcourse
  have hstop : (n.domsUp d3 d1 d2 d6).clk.hearthStop = 0 ∧ (n.domsUp d3 d1 d2 d6).clk.ts = 0 := by
    rw [hup, hclk]
    exact ⟨rfl, rfl⟩
  have htime : t.ts = 0 := by
    unfold Mach.ts
    rw [(h.time hstop.1).2, hstop.2]
    rfl
  have hstart : t.clk.start = some ⟨true, full, m.clk.now, .run, pf, rolled⟩ := by rw [hcourse]
  have hnv : t.nv.runB = b ∧ t.nv.starts = m.nv.starts + 1 ∧ t.nv.slotA = m.nv.slotA ∧ t.nv.slotB = m.nv.slotB ∧
      t.nv.activation = none := by
    rw [h.nv]
    exact ⟨hrunB, hstarts, hA, hB, hact⟩
  have hsec : t.sec.life = m.sec.stored.life ∧ t.sec.priv = m.sec.priv ∧ t.sec.owner = m.sec.stored.owner := by
    rw [h.sec]
    exact ⟨hlife, hpriv, howner⟩
  obtain ⟨n1, n2, n3, n4, n5⟩ := hnv
  have hasync : t.pa.async = straps.aCfg ∧ t.pb.async = straps.bCfg :=
    ⟨(h.async .a).trans (congrArg PortState.async hpa), (h.async .b).trans (congrArg PortState.async hpb)⟩
  refine ⟨⟨?_, ?_, ?_, htime, ?_, ⟨_, hstart, rfl, rfl, rfl, rfl⟩, decide_eq_true ((h.dom 4).trans h4),
    decide_eq_true ((h.dom 5).trans h5), decide_eq_true ((h.dom 7).trans h7), hasync.1, hasync.2, n1, n2, hsec⟩, n3, n4, n5, _,
    hstart, rfl⟩
  · rw [hcourse]
  · rw [hcourse]; rfl
  · rw [hcourse]; exact hv
  · rw [hcourse]

/-- What a cold start into slot `b` leaves. -/
theorem Mach.coldStart_started {m m1 : Mach} {straps : Straps} {own pin b rolled : Bool} (ht : straps.test = false)
    (hs : m.chooseSlot own = (some b, rolled, m1)) (hv : m1.clk.vsup = true) :
    ∃ n, m.coldStart straps own pin = n ∧ m1.coldStarted n straps b m1.latestCommit.isSome ∧ n.nv.slotA = m1.nv.slotA ∧
      n.nv.slotB = m1.nv.slotB ∧ n.nv.activation = none ∧ (∃ x, n.clk.start = some x ∧ x.rollback = rolled) ∧
      (own = true → (m.slot m.nv.nextB).st = .try_ → m.fwVerifies (m.slot m.nv.nextB).image = false → n.flag 0x3010 5 = true) := by
  obtain ⟨n, full, hready, hrow⟩ := Mach.coldStart_rises (pin := pin) ht hs
  obtain ⟨full', hclk⟩ := hready.clk
  obtain ⟨d3, d1, d2, d6, hrise⟩ := Mach.rise_continues (m := n) m1.latestCommit (by rw [hclk]; rfl)
  generalize n.rise m1.latestCommit = r at hrise hrow
  have hon7 : r.on 7 = true := decide_eq_true ((hrise.dom 7).trans (n.domsUp_parts d3 d1 d2 d6).2.2.1)
  let shown := if own && (m.slot m.nv.nextB).st = .try_ && !m.fwVerifies (m.slot m.nv.nextB).image then r.imageFail else r
  have hshown : (n.domsUp d3 d1 d2 d6).Continues shown :=
    .ite (hrise.other (Mach.imageFail_within r (r.within_refl [.regs]) rfl) rfl) hrise
  have hflag : own = true → (m.slot m.nv.nextB).st = .try_ → m.fwVerifies (m.slot m.nv.nextB).image = false →
      shown.flag 0x3010 5 = true := fun h1 h2 h3 => by
    simp only [shown, h1, h2, h3]
    exact Mach.sqBit_sets (a := 0x3010) (hrise.canonical hready.canonical) (by omega) hon7
  have hend : ∃ t, (if full then shown.runStart .start startTests none false true else shown) = t ∧
      (n.domsUp d3 d1 d2 d6).Continues t ∧ t.flag 0x3010 5 = shown.flag 0x3010 5 := by
    cases full
    · exact ⟨shown, rfl, hshown, rfl⟩
    · exact ⟨_, rfl, hshown.startTest, shown.startTest_imgfail⟩
  obtain ⟨t, ht', hcont, htflag⟩ := hend
  obtain ⟨e1, e2, e3, e4, e5⟩ := hready.started hcont hv
  exact ⟨t, hrow.trans ht', e1, e2, e3, e4, e5, fun h1 h2 h3 => htflag.trans (hflag h1 h2 h3)⟩

end Sys2Proof.Machine
end

section
/-! SUPPORT. The choice of a slot (R688), and the rows that begin a start. -/

namespace Sys2Proof.Machine

/-! ### The choice of a slot (R688) -/

/-- With no trial and a GOOD slot to run next, that slot runs. -/
theorem Mach.chooseSlot_good {m : Mach} (own : Bool) (ha : m.nv.slotA.st ≠ .try_) (hb : m.nv.slotB.st ≠ .try_)
    (hg : (m.slot m.nv.nextB).st = .good) : m.chooseSlot own = (some m.nv.nextB, false, m) := by
  have h0 : (m.slot false).st ≠ .try_ := ha
  have h1 : (m.slot true).st ≠ .try_ := hb
  unfold Mach.chooseSlot
  simp [h0, h1, hg]

/-- An activation's trial image that verifies runs, its digest cached. -/
theorem Mach.chooseSlot_trial {m : Mach} (hst : (m.slot m.nv.nextB).st = .try_) (hv : m.fwVerifies (m.slot m.nv.nextB).image = true) :
    m.chooseSlot true =
      (some m.nv.nextB, false, m.updSlot m.nv.nextB (fun s => { s with digest := some (sha256 s.image) })) := by
  unfold Mach.chooseSlot
  simp [hst, hv]

/-- An activation's trial image that does not verify is BAD; the other slot runs if it is GOOD, else none. -/
theorem Mach.chooseSlot_failed {m : Mach} (hst : (m.slot m.nv.nextB).st = .try_)
    (hv : m.fwVerifies (m.slot m.nv.nextB).image = false) :
    m.chooseSlot true =
      (if (m.slot (!m.nv.nextB)).st = .good then some (!m.nv.nextB) else none, true, m.slotBad m.nv.nextB) := by
  have ho : (m.slotBad m.nv.nextB).slot (!m.nv.nextB) = m.slot (!m.nv.nextB) := by
    cases hb : m.nv.nextB <;> simp [Mach.slotBad, Mach.updSlot, Mach.slot, hb]
  unfold Mach.chooseSlot
  simp [hst, hv, ho]

/-! ### A cold start seen from the block before it -/

/-- What a cold start takes from the block is the instant, the number of starts and the security record. -/
theorem Mach.coldStarted_congr {m n t : Mach} {straps : Straps} {b pf : Bool} (h : m.coldStarted t straps b pf)
    (hnow : m.clk.now = n.clk.now) (hstarts : m.nv.starts = n.nv.starts) (hsec : m.sec = n.sec) : n.coldStarted t straps b pf := by
  unfold Mach.coldStarted at h ⊢
  rw [hnow, hstarts, hsec] at h
  exact h

/-- A cold start with no trial and a GOOD slot to run next (R66, R683). -/
theorem Mach.coldStart_good {m : Mach} {straps : Straps} (pin : Bool) (ht : straps.test = false) (ha : m.nv.slotA.st ≠ .try_)
    (hb : m.nv.slotB.st ≠ .try_) (hg : (m.slot m.nv.nextB).st = .good) (hv : m.clk.vsup = true) :
    m.coldStarted (m.coldStart straps false pin) straps m.nv.nextB m.latestCommit.isSome := by
  obtain ⟨n, hn, h, -⟩ := Mach.coldStart_started (pin := pin) ht (Mach.chooseSlot_good false ha hb hg) hv
  rw [hn]
  exact h

/-- Without a persistent write in flight only a filter save is cut. -/
theorem Mach.writeAbandon_none {m : Mach} (h : m.nv.write = none) :
    ∃ f l, m.writeAbandon = { m with flt := f, nv := { m.nv with coefLib := l } } := by
  have hcut : ∃ f l, m.saveCut = { m with flt := f, nv := { m.nv with coefLib := l } } := by
    unfold Mach.saveCut
    split
    · extract_lets cut
      split
      · exact ⟨_, _, rfl⟩
      · exact ⟨_, _, rfl⟩
    · exact ⟨_, _, rfl⟩
  obtain ⟨f, l, hcut⟩ := hcut
  refine ⟨f, l, ?_⟩
  unfold Mach.writeAbandon
  rw [hcut]
  simp only [h]

/-! ### The activation of a new image (R688) -/

/-- A commit record that is marked and not used is one that a start finds (R690). -/
theorem Mach.latestCommit_storeCommit (m : Mach) {c : CommitRec} (hm : c.marked = true) (hu : c.used = false) :
    (m.storeCommit c).latestCommit.isSome = true := by
  have hok : (c.marked && !c.used) = true := by rw [hm, hu]; rfl
  unfold Mach.storeCommit
  extract_lets nv
  cases nv.areaNextB
  · rcases nv.areaB with _ | b
    · simp [Mach.latestCommit, hm, hu]
    · cases hbk : b.marked && !b.used <;> simp [Mach.latestCommit, hm, hu, hbk]
  · rcases nv.areaA with _ | a
    · simp [Mach.latestCommit, hm, hu]
    · cases hak : a.marked && !a.used <;> simp [Mach.latestCommit, hm, hu, hak]

theorem Mach.storeCommit_parts (m : Mach) (c : CommitRec) : (m.storeCommit c).clk = m.clk ∧ (m.storeCommit c).sec = m.sec ∧
    (m.storeCommit c).nv.slotA = m.nv.slotA ∧ (m.storeCommit c).nv.slotB = m.nv.slotB ∧ (m.storeCommit c).nv.nextB = m.nv.nextB ∧
    (m.storeCommit c).nv.starts = m.nv.starts := by
  unfold Mach.storeCommit
  extract_lets nv
  dsimp only
  split <;> exact ⟨rfl, rfl, rfl, rfl, rfl, rfl⟩

/-- The line of `upgrade commit` taken, with no write and no test in flight: a commit record is stored and a cold start begins (R688). -/
theorem Mach.activate_due {m : Mach} (straps : Straps) {p : Option Port} {u : Nat} (ha : m.nv.activation = some (p, u))
    (hline : m.lineTaken p u = true) (hlife : m.clk.life = .up) (hw : m.nv.write = none) (hrun : m.bist.run = none) :
    ∃ n : Mach, m.activate straps = n.coldStart straps true false ∧ n.clk = m.clk ∧ n.sec = m.sec ∧ n.nv.slotA = m.nv.slotA ∧
      n.nv.slotB = m.nv.slotB ∧ n.nv.nextB = m.nv.nextB ∧ n.nv.starts = m.nv.starts ∧ n.latestCommit.isSome = true := by
  obtain ⟨f, l, hcut⟩ := Mach.writeAbandon_none hw
  have habort : (m.writeAbandon.testAbort false).1 = m.writeAbandon := by
    have hr : m.writeAbandon.bist.run = none := by rw [hcut]; exact hrun
    simp only [Mach.testAbort, hr]
  obtain ⟨e1, e2, e3, e4, e5, e6⟩ := m.writeAbandon.storeCommit_parts { m.writeAbandon.commitNow with marked := true }
  refine ⟨m.writeAbandon.storeCommit { m.writeAbandon.commitNow with marked := true }, ?_, ?_, ?_, ?_, ?_, ?_, ?_, ?_⟩
  · unfold Mach.activate
    simp only [ha, hline, hlife, habort]
    rfl
  · rw [e1, hcut]
  · rw [e2, hcut]
  · rw [e3, hcut]
  · rw [e4, hcut]
  · rw [e5, hcut]
  · rw [e6, hcut]
  · exact Mach.latestCommit_storeCommit _ rfl rfl

/-- A cold start with no slot to run keeps no activation. -/
theorem Mach.coldStart_noSlot {m m1 : Mach} {straps : Straps} {own pin rolled : Bool} (ht : straps.test = false)
    (hs : m.chooseSlot own = (none, rolled, m1)) : (m.coldStart straps own pin).nv.activation = none := by
  obtain ⟨-, -, -, hnv, -⟩ := m1.bare_parts straps
  unfold Mach.coldStart
  rw [if_neg (by simp [ht]), hs]
  exact congrArg Nv.activation hnv

/-- Whether an image verifies depends on the security record alone (R661). -/
theorem Mach.fwVerifies_congr {m n : Mach} (h : n.sec = m.sec) (img : List Byte) : n.fwVerifies img = m.fwVerifies img := by
  simp only [Mach.fwVerifies, Mach.imageSigned, h]

theorem Mach.slot_congr {m n : Mach} (ha : n.nv.slotA = m.nv.slotA) (hb : n.nv.slotB = m.nv.slotB) (b : Bool) : n.slot b = m.slot b := by
  simp only [Mach.slot, ha, hb]

theorem Mach.slot_updSlot (m : Mach) (b : Bool) (f : Slot → Slot) : (m.updSlot b f).slot b = f (m.slot b) := by
  cases b <;> rfl

theorem Mach.slot_slotBad (m : Mach) (b : Bool) : ((m.slotBad b).slot b).st = .bad := by
  cases b <;> rfl

/-- A slot changed is neither a start nor a commit record. -/
theorem Mach.updSlot_parts (m : Mach) (b : Bool) (f : Slot → Slot) :
    (m.updSlot b f).nv.starts = m.nv.starts ∧ (m.updSlot b f).latestCommit = m.latestCommit := by
  cases b <;> exact ⟨rfl, rfl⟩

/-- An activation into a trial slot (R688). -/
theorem Mach.activate_started {m : Mach} {straps : Straps} (ht : straps.test = false) (hv : m.clk.vsup = true)
    (hst : (m.slot m.nv.nextB).st = .try_) (hc : m.latestCommit.isSome = true) :
    (m.coldStart straps true false).nv.activation = none ∧
      (m.fwVerifies (m.slot m.nv.nextB).image = true →
        m.coldStarted (m.coldStart straps true false) straps m.nv.nextB true ∧
          (m.coldStart straps true false).slot m.nv.nextB =
            { m.slot m.nv.nextB with digest := some (sha256 (m.slot m.nv.nextB).image) }) ∧
      (m.fwVerifies (m.slot m.nv.nextB).image = false → (m.slot (!m.nv.nextB)).st = .good →
        m.coldStarted (m.coldStart straps true false) straps (!m.nv.nextB) true ∧
          ((m.coldStart straps true false).slot m.nv.nextB).st = .bad ∧
          (∃ x, (m.coldStart straps true false).clk.start = some x ∧ x.rollback = true) ∧
          (m.coldStart straps true false).flag 0x3010 5 = true) := by
  rcases hver : m.fwVerifies (m.slot m.nv.nextB).image with _ | _
  · have hs := Mach.chooseSlot_failed hst hver
    by_cases hg : (m.slot (!m.nv.nextB)).st = .good
    · rw [if_pos hg] at hs
      obtain ⟨n, hn, h, hA, hB, hact, hroll, hflag⟩ := Mach.coldStart_started (pin := false) ht hs hv
      rw [hn]
      refine ⟨hact, fun h0 => absurd h0 (by simp), fun _ _ => ⟨?_, ?_, hroll, hflag rfl hst hver⟩⟩
      · obtain ⟨e1, e2⟩ := m.updSlot_parts m.nv.nextB (fun s => { s with st := .bad })
        rw [show (m.slotBad m.nv.nextB).latestCommit = m.latestCommit from e2, hc] at h
        exact Mach.coldStarted_congr h rfl e1 rfl
      · rw [Mach.slot_congr hA hB]
        exact m.slot_slotBad _
    · rw [if_neg hg] at hs
      exact ⟨Mach.coldStart_noSlot ht hs, fun h0 => absurd h0 (by simp), fun _ h1 => absurd h1 hg⟩
  · obtain ⟨n, hn, h, hA, hB, hact, -⟩ := Mach.coldStart_started (pin := false) ht (Mach.chooseSlot_trial hst hver) hv
    rw [hn]
    refine ⟨hact, fun _ => ⟨?_, ?_⟩, fun h0 => absurd h0 (by simp)⟩
    · obtain ⟨e1, e2⟩ := m.updSlot_parts m.nv.nextB (fun s => { s with digest := some (sha256 s.image) })
      rw [e2, hc] at h
      exact Mach.coldStarted_congr h rfl e1 rfl
    · rw [Mach.slot_congr hA hB, Mach.slot_updSlot]

/-! ### The end of a start (R67, R687) -/

/-- Run is reached (R67, R687): the start is over, and `PWR_STATUS` takes its one event. -/
theorem Mach.startComplete_run {m : Mach} {x : Start} (hn : m.noClear) (hx : m.clk.start = some x) (hv : m.clk.vholdArmed = true)
    (hrun : m.bist.run = none) (hlife : m.clk.life = .up) (ht : x.target = .run) (hpon : x.cold = false ∨ m.flag 0x808 0 = false) :
    m.startComplete = (Mach.sqEvent { m with clk := { m.clk with start := none, modeSince := m.clk.now, runSince := m.clk.now } } 0x820
      (bitIf x.full 5 ||| bitIf x.pfail 3 ||| bitIf x.rollback 4)).grdTryArm := by
  unfold Mach.startComplete
  rw [hx]
  simp -zeta only []
  rw [if_neg (by simp [hv, hrun, hlife])]
  extract_lets _ ended shown armed
  have hw := Mach.grdTryArm_within shown (shown.within_refl [.grd, .free]) rfl
  have hkeep : x.cold = false ∨ armed.flag 0x808 0 = false := by
    refine hpon.imp_right fun h => ?_
    have hreg : armed.reg 0x808 = m.reg 0x808 :=
      (Mach.reg_of_within hw rfl _).trans ((Mach.sqEvent_noClear (m := ended) 0x820 _ hn).2 _ (by decide))
    exact (congrArg (bitAt · 0) hreg).trans h
  rw [if_neg (by simp [ht]), if_neg (by rcases hkeep with h | h <;> simp [h])]

/-- What the event at the end of a start leaves. -/
theorem Mach.startComplete_effect {m : Mach} (x : Start) (hc : m.canonical = true) (hn : m.noClear) (hon : m.on 0 = true)
    {n : Mach} (he : n = (m.sqEvent 0x820 (bitIf x.full 5 ||| bitIf x.pfail 3 ||| bitIf x.rollback 4)).grdTryArm) :
    n.clk = m.clk ∧ (x.full = true → n.flag 0x820 5 = true) ∧ (x.pfail = true → n.flag 0x820 3 = true) ∧
      (x.rollback = true → n.flag 0x820 4 = true) ∧ m.Edits n [.regs, .grd, .free] [0x820] := by
  let mask := bitIf x.full 5 ||| bitIf x.pfail 3 ||| bitIf x.rollback 4
  have hw := Mach.grdTryArm_within (m.sqEvent 0x820 mask) ((m.sqEvent 0x820 mask).within_refl [.grd, .free]) rfl
  have hflag : ∀ i, i < 24 → bitAt mask i = true → n.flag 0x820 i = true := fun i hi hb => by
    rw [he]
    exact (congrArg (bitAt · i) (Mach.reg_of_within hw rfl 0x820)).trans (Mach.sqEvent_sets (a := 0x820) hc hi hb hon)
  have hk : m.Edits n [.regs, .grd, .free] [0x820] := by
    rw [he]
    exact ((Mach.Edits.refl hn).sqEvent mask (by simp) rfl).other hw rfl
  refine ⟨hk.agrees (x := .clk) rfl, fun h => hflag 5 (by omega) ?_, fun h => hflag 3 (by omega) ?_, fun h => hflag 4 (by omega) ?_, hk⟩
  · rw [bitAt_or, bitAt_or, bitAt_bitIf (by omega) h, Bool.true_or, Bool.true_or]
  · rw [bitAt_or, bitAt_or, bitAt_bitIf (i := 3) (by omega) h, Bool.or_true, Bool.true_or]
  · rw [bitAt_or, bitAt_bitIf (i := 4) (by omega) h, Bool.or_true]

/-- A TRY slot after 10 s of Run becomes GOOD (R688). -/
theorem Mach.slotGood_due {m : Mach} (hst : m.running.st = .try_) (hlife : m.clk.life = .up) (hmode : m.clk.mode = .run)
    (hstart : m.clk.start = none) (hdue : m.clk.runSince + 10 * second ≤ m.clk.now) :
    m.slotGood = m.updSlot m.nv.runB (fun s => { s with st := .good }) := by
  unfold Mach.slotGood
  exact if_pos (by simp [hst, hlife, hmode, hstart, hdue])

/-- Settles O47: the rows that begin a start come down to `Mach.coldStart_started` for the slot that `chooseSlot` gives. -/
theorem startsBeginAndEnd : Obligations.StartsBeginAndEnd := by
  intro s straps ht
  refine ⟨fun ha hb hg hcommit => ⟨fun hv => ?_, fun lowNs hlow hv hvio hw => ?_⟩, fun c hcommit hv => ?_, ?_, ?_, ?_⟩
  · have hrow : s.m.powerOn straps = Mach.coldStart { s.m with clk := { s.m.clk with vsup := true } } straps false false := by
      simp [Mach.powerOn, hv, hcommit]
    have h := Mach.coldStart_good (m := { s.m with clk := { s.m.clk with vsup := true } }) false ht ha hb hg rfl
    exact ⟨⟨_, s.pending⟩, congrArg (goOn s) hrow, rfl, Mach.coldStarted_congr h rfl rfl rfl⟩
  · obtain ⟨f, l, hcut⟩ := Mach.writeAbandon_none hw
    have hrow : s.m.resetN lowNs straps = s.m.writeAbandon.coldStart straps false true := by
      have : ¬ lowNs ≤ 100 := by omega
      simp [Mach.resetN, this, hv, hvio, hcommit, hlow]
    rw [hcut] at hrow
    have h := Mach.coldStart_good (m := { s.m with flt := f, nv := { s.m.nv with coefLib := l } }) true ht ha hb hg hv
    exact ⟨⟨_, s.pending⟩, congrArg (goOn s) hrow, rfl, Mach.coldStarted_congr h rfl rfl rfl⟩
  · have hrow : s.m.powerOn straps =
        { s.m with clk := { s.m.clk with vsup := true }, nv := { s.m.nv with commitStart := some straps } } := by
      simp [Mach.powerOn, hv, hcommit]
    refine ⟨⟨_, s.pending⟩, congrArg (goOn s) hrow, rfl, rfl, rfl, fun x hx => ?_⟩
    cases x
    case clk => simp at hx
    case nv => simp at hx
    all_goals rfl
  · intro p u hact hline hlife hv hw hrun hst
    have htaken : s.m.lineTaken p u = true := by
      cases p with
      | none => rfl
      | some q => simpa [Mach.lineTaken] using hline q rfl
    obtain ⟨n, hrow, hclk, hsec, hA, hB, hnext, hstarts, hcommit⟩ := Mach.activate_due straps hact htaken hlife hw hrun
    have hslot := Mach.slot_congr hA hB
    obtain ⟨h1, h2, h3⟩ := Mach.activate_started (m := n) ht (by rw [hclk]; exact hv) (by rw [hslot, hnext]; exact hst) hcommit
    simp only [hslot, hnext, Mach.fwVerifies_congr hsec] at h2 h3
    have hnow : n.clk.now = s.m.clk.now := by rw [hclk]
    refine ⟨⟨_, s.pending⟩, congrArg (goOn s) hrow, rfl, h1, fun hver => ?_, fun hver hg => ?_⟩
    · obtain ⟨e1, e2⟩ := h2 hver
      dsimp only
      rw [e2]
      exact ⟨Mach.coldStarted_congr e1 hnow hstarts hsec, hst, rfl⟩
    · obtain ⟨e1, e2, e3, e4⟩ := h3 hver hg
      exact ⟨Mach.coldStarted_congr e1 hnow hstarts hsec, e2, e3, e4⟩
  · intro hst hlife hmode hstart hdue
    have hrow := Mach.slotGood_due hst hlife hmode hstart hdue
    have hw := Mach.updSlot_within s.m s.m.nv.runB (fun s => { s with st := .good }) (s.m.within_refl [.nv]) rfl
    refine ⟨⟨_, s.pending⟩, congrArg (goOn s) hrow, rfl, ?_, ?_, hw.1⟩
    · cases hb : s.m.nv.runB <;> simp [Mach.running, Mach.updSlot, hb]
    · cases hb : s.m.nv.runB <;> simp [Mach.updSlot, hb]
  · intro x hc hn hx hv hrun hlife hon htarget hpon
    have hrow := Mach.startComplete_run hn hx hv hrun hlife htarget hpon
    obtain ⟨e1, e2, e3, e4, e5⟩ := Mach.startComplete_effect x (by exact hc) (by exact hn) (by exact hon) hrow
    refine ⟨⟨_, s.pending⟩, rfl, rfl, e1, e2, e3, e4, fun y hy => ?_, e5.keepsRegs⟩
    have hkept := e5.within.1 y fun h => hy (List.mem_cons_of_mem _ h)
    cases y
    case clk => simp at hy
    all_goals exact hkept

end Sys2Proof.Machine
end

section
/-! SUPPORT. The reach of a whole step: whatever command stands in front, its row keeps the sparse memories canonical and the tables at
their sizes, because every operation that rows are made of does. -/

namespace Sys2Proof.Machine

/-- Every part of the block. -/
def everyPart : List Part :=
  [.clk, .regs, .pa, .pb, .mot, .flt, .ang, .aux, .evt, .grd, .buf, .eng, .flue, .sec, .nv, .bist, .mem, .free]

/-- A verb's row keeps what its command's execution keeps. -/
theorem Mach.verbRow_kept {m : Mach} {p : Port} {verb : Nat} {mine : Cmd → Bool} {act : Mach → Bool → Cmd → Mach}
    (hact : ∀ (n : Mach) ck c, n.within (act n ck c) everyPart) : m.within (m.verbRow p verb mine act) everyPart :=
  Mach.verbRow_within m p verb mine act (m.within_refl _) (fun n ck c hn => Mach.within_step hn (hact n ck c) rfl) rfl

/-- Every row goes on, from canonical memories to canonical memories and with the tables at their sizes: row by row, by the reach of
the operations it is made of. -/
theorem exec_within (i : Instr) (s : State) : ∃ m, exec i s = goOn s m ∧ s.m.within m everyPart := by
  have h := s.m.within_refl everyPart
  cases i
  case textInput => exact ⟨_, rfl, Mach.textInput_within _ _ _ _ h rfl⟩
  case regRead => exact ⟨_, rfl, Mach.regReadFrame_within _ _ _ _ _ h rfl⟩
  case regWrite => exact ⟨_, rfl, Mach.regWriteFrame_within _ _ _ _ _ _ h rfl⟩
  case streamRead => exact ⟨_, rfl, Mach.streamFrame_within _ _ _ _ _ _ h rfl⟩
  case textRead => exact ⟨_, rfl, Mach.textReadFrame_within _ _ _ _ h rfl⟩
  case portStatus => exact ⟨_, rfl, Mach.portStatusFrame_within _ _ _ h rfl⟩
  case commit => exact ⟨_, rfl, Mach.commitFrame_within _ _ _ _ _ h rfl⟩
  case sessionReset => exact ⟨_, rfl, Mach.sessionFrame_within _ _ _ _ h rfl⟩
  case unnamedFrame => exact ⟨_, rfl, Mach.unnamedFrame_within _ _ _ 0 h rfl⟩
  case asyncFrameGap => exact ⟨_, rfl, Mach.frameGap_within _ _ _ h rfl⟩
  case breakLow => exact ⟨_, rfl, Mach.breakLow_within _ _ _ h rfl⟩
  case replyByteSend => exact ⟨_, rfl, Mach.replySend_within _ _ _ _ h rfl⟩
  case selWake => exact ⟨_, rfl, Mach.testReply_within _ (Mach.selWake_within _ _ _ h rfl) rfl⟩
  case leaseExpiry => exact ⟨_, rfl, Mach.leaseExpiry_within _ _ h rfl⟩
  case semClaim | semRelease | statusClear | counterClear | castleRequest | syncArm | coefLoad | coefSave | leadCal | evtSmstart
      | evtSmstop | evtFlagset | evtFlagclr | guardArm | guardAck | apply | queuePolicyWrite | trig | rearm | engStart |
      engStop | engResume | engIrq | engRxack | txd | engPin | flueTload | pwrDomWrite | pwrModeEnter | bistRun | spareUseGo |
      registerWrite => exact ⟨_, rfl, Mach.oneWrite_within _ _ _ _ _ h rfl⟩
  case intsrcSeqIncrement => exact ⟨_, rfl, Mach.flushInt_within _ _ h rfl⟩
  case windowSeqIncrement => exact ⟨_, rfl, Mach.flushSeq_within _ _ h rfl⟩
  case dataWindowAccess => exact ⟨_, rfl, Mach.windowAccess_within _ _ _ _ h rfl⟩
  case gatedWriteApply => exact ⟨_, rfl, Mach.gatedWriteApply_within _ _ h rfl⟩
  case clockGate => exact ⟨_, rfl, Mach.clockGate_within _ _ h rfl⟩
  case persistWriteDone =>
    exact ⟨_, rfl, Mach.resumeWrites_within _ _ (Mach.resumeWrites_within _ _ (Mach.persistDone_within _ _ h rfl) rfl) rfl⟩
  case replyLostTimeout => exact ⟨_, rfl, Mach.replyLost_within _ _ h rfl⟩
  case sourceStart => exact ⟨_, rfl, Mach.groupStart_within _ _ h rfl⟩
  case holdUpdate => exact ⟨_, rfl, Mach.holdUpdate_within _ _ h rfl⟩
  case filterOutput => exact ⟨_, rfl, Mach.eventWake_within _ (Mach.filterOutput_within _ _ _ h rfl) rfl⟩
  case synchronisingReset => exact ⟨_, rfl, Mach.syncDue_within _ _ h rfl⟩
  case coefTransferDone => exact ⟨_, rfl, Mach.transferDone_within _ _ h rfl⟩
  case angleRateOutput => exact ⟨_, rfl, Mach.angleRate_within _ _ h rfl⟩
  case referenceInstant => exact ⟨_, rfl, Mach.reference_within _ _ h rfl⟩
  case keyMiss => exact ⟨_, rfl, Mach.keyMiss_within _ h rfl⟩
  case spinLow => exact ⟨_, rfl, Mach.spinLow_within _ h rfl⟩
  case revolutionEnd => exact ⟨_, rfl, Mach.eventWake_within _ (Mach.revolutionEnd_within _ h rfl) rfl⟩
  case keyEdge => exact ⟨_, rfl, Mach.eventWake_within _ (Mach.keyEdge_within _ _ _ h rfl) rfl⟩
  case auxConversion => exact ⟨_, rfl, Mach.auxConversion_within _ _ _ h rfl⟩
  case checkSlot => exact ⟨_, rfl, Mach.checkSlot_within _ _ h rfl⟩
  case breakComparator => exact ⟨_, rfl, Mach.breakComparator_within _ _ _ _ h rfl⟩
  case excitationChange => exact ⟨_, rfl, Mach.excApply_within _ h rfl⟩
  case excFault => exact ⟨_, rfl, Mach.excFaultAt_within _ _ h rfl⟩
  case leadCalDone => exact ⟨_, rfl, Mach.leadDone_within _ h rfl⟩
  case leadCalTimeout => exact ⟨_, rfl, Mach.leadTimeout_within _ h rfl⟩
  case damperEdge => exact ⟨_, rfl, Mach.damperInput_within _ _ _ h rfl⟩
  case damperStuck => exact ⟨_, rfl, Mach.damperStuck_within _ h rfl⟩
  case heldRecordsWrite => exact ⟨_, rfl, Mach.flushHeld_within _ h rfl⟩
  case smTimerExpiry => exact ⟨_, rfl, Mach.eventWake_within _ (Mach.smExpire_within _ _ _ h rfl) rfl⟩
  case smStop | smWaitc | smWaite | smTime | smCnt | smJmp | smJif | smEmit | smOut | smCapt | smSetf | smClrf =>
    exact ⟨_, rfl, Mach.eventWake_within _ (Mach.smTurn_within _ _ _ h rfl) rfl⟩
  case guardPeriod => exact ⟨_, rfl, Mach.guardPeriod_within _ _ _ _ h rfl⟩
  case guardPinFault => exact ⟨_, rfl, Mach.guardPinFault_within _ _ _ _ h rfl⟩
  case guardShortRelease => exact ⟨_, rfl, Mach.guardShortRelease_within _ _ _ h rfl⟩
  case faultPulse => exact ⟨_, rfl, Mach.faultPulse_within _ h rfl⟩
  case blockTimeout => exact ⟨_, rfl, Mach.blockTimeout_within _ _ h rfl⟩
  case blockReadable => exact ⟨_, rfl, Mach.blockReadable_within _ _ h rfl⟩
  case sealTimer => exact ⟨_, rfl, Mach.sealTimer_within _ h rfl⟩
  case sealCompose => exact ⟨_, rfl, Mach.sealCompose_within _ h rfl⟩
  case sealSigned => exact ⟨_, rfl, Mach.sealSignedRow_within _ h rfl⟩
  case overwriteRunEnd => exact ⟨_, rfl, Mach.overwriteEnd_within _ _ h rfl⟩
  case engineTick => exact ⟨_, rfl, Mach.engineTick_within _ _ _ h rfl⟩
  case engJmp | djnz | engSet | delay | waitpin | waitflag | waitirq | shiftout | shiftin | pull | push | irq =>
    exact ⟨_, rfl, Mach.turnOf_within _ _ _ _ _ h rfl⟩
  case delayEnd | shiftEnd => exact ⟨_, rfl, Mach.opEnd_within _ _ _ _ _ h rfl⟩
  case syncPulseOut => exact ⟨_, rfl, Mach.syncPulseOut_within _ h rfl⟩
  case syncPulseIn => exact ⟨_, rfl, Mach.syncInput_within _ _ _ h rfl⟩
  case syncHoldover => exact ⟨_, rfl, Mach.syncHoldover_within _ h rfl⟩
  case scanTimer => exact ⟨_, rfl, Mach.scanTimer_within _ _ h rfl⟩
  case fluePull => exact ⟨_, rfl, Mach.fluePull_within _ _ _ h rfl⟩
  case forwardLine => exact ⟨_, rfl, Mach.forwardLine_within _ _ h rfl⟩
  case awaySaturation => exact ⟨_, rfl, Mach.awaySaturation_within _ _ h rfl⟩
  case challengeExpiry => exact ⟨_, rfl, Mach.challengeExpiry_within _ _ h rfl⟩
  case authLockoutEnd => exact ⟨_, rfl, Mach.authLockoutEnd_within _ _ h rfl⟩
  case selfTestEnd => exact ⟨_, rfl, Mach.testReply_within _ (Mach.selfTestEnd_within _ _ h rfl) rfl⟩
  case entrySwitchOff => exact ⟨_, rfl, Mach.entryOff_within _ h rfl⟩
  case wakeTimer => exact ⟨_, rfl, Mach.wakeTimer_within _ h rfl⟩
  case powerOnRelease => exact ⟨_, rfl, Mach.powerOn_within _ _ h rfl⟩
  case resetN => exact ⟨_, rfl, Mach.resetN_within _ _ _ h rfl⟩
  case vholdArmed => exact ⟨_, rfl, Mach.vholdUp_within _ h rfl⟩
  case startComplete => exact ⟨_, rfl, Mach.startComplete_within _ h rfl⟩
  case firmwareActivation => exact ⟨_, rfl, Mach.activate_within _ _ h rfl⟩
  case slotGood => exact ⟨_, rfl, Mach.slotGood_within _ h rfl⟩
  case powerFail => exact ⟨_, rfl, Mach.powerFail_within _ _ h rfl⟩
  case commitDone => exact ⟨_, rfl, Mach.commitDone_within _ _ h rfl⟩
  case vioLoss => exact ⟨_, rfl, Mach.vioLoss_within _ h rfl⟩
  case vioReturn => exact ⟨_, rfl, Mach.vioReturn_within _ _ h rfl⟩
  case spareCopyDone => exact ⟨_, rfl, Mach.copyDone_within _ h rfl⟩
  case storeFillDone => exact ⟨_, rfl, Mach.storeFillDone_within _ _ _ h rfl⟩
  case entryCommitPoint => exact ⟨_, rfl, Mach.entryCommit_within _ h rfl⟩
  case retentionDip => exact ⟨_, rfl, Mach.retentionDip_within _ _ h rfl⟩
  case vholdAbsent => exact ⟨_, rfl, Mach.vholdAbsent_within _ h rfl⟩
  case keyGeneration => exact ⟨_, rfl, Mach.keyGeneration_within _ _ _ _ h rfl⟩
  case pulsedVexc => exact ⟨_, rfl, Mach.pulsedVexc_within _ _ h rfl⟩
  case getVerb =>
    exact ⟨_, rfl, Mach.verbRow_kept fun n _ _ => by
      split; exacts [Mach.runGet_within _ _ _ _ (n.within_refl _) rfl, n.within_refl _]⟩
  case setVerb =>
    exact ⟨_, rfl, Mach.verbRow_kept fun n _ _ => by
      split; exacts [Mach.runSet_within _ _ _ _ (n.within_refl _) rfl, n.within_refl _]⟩
  case readVerb =>
    exact ⟨_, rfl, Mach.verbRow_kept fun n _ _ => by
      split; exacts [Mach.runRead_within _ _ _ _ _ (n.within_refl _) rfl, n.within_refl _]⟩
  case writeVerb =>
    exact ⟨_, rfl, Mach.verbRow_kept fun n _ _ => by
      split; exacts [Mach.runWrites_within _ _ _ _ (n.within_refl _) rfl, n.within_refl _]⟩
  case modeVerb =>
    exact ⟨_, rfl, Mach.verbRow_kept fun n _ _ => by
      split; exacts [Mach.runMode_within _ _ _ _ (n.within_refl _) rfl, n.within_refl _]⟩
  case streamVerb =>
    exact ⟨_, rfl, Mach.verbRow_kept fun n _ _ => by
      split; exacts [Mach.runStream_within _ _ _ _ _ _ (n.within_refl _) rfl, n.within_refl _]⟩
  case commitVerb =>
    exact ⟨_, rfl, Mach.verbRow_kept fun n _ _ => by
      split; exacts [Mach.runCommit_within _ _ _ _ _ _ (n.within_refl _) rfl, n.within_refl _]⟩
  case sealVerb =>
    exact ⟨_, rfl, Mach.verbRow_kept fun n _ _ => by
      split; exacts [Mach.runSeal_within _ _ _ (n.within_refl _) rfl, n.within_refl _]⟩
  case authBegin =>
    exact ⟨_, rfl, Mach.verbRow_kept fun n _ _ => by
      split; exacts [Mach.runAuthBegin_within _ _ _ (n.within_refl _) rfl, n.within_refl _]⟩
  case authPub =>
    exact ⟨_, rfl, Mach.verbRow_kept fun n _ _ => by
      split; exacts [Mach.runAuthPub_within _ _ _ _ _ (n.within_refl _) rfl, n.within_refl _]⟩
  case authRespond =>
    exact ⟨_, rfl, Mach.verbRow_kept fun n _ _ => by
      split; exacts [Mach.runAuthRespond_within _ _ _ _ (n.within_refl _) rfl, n.within_refl _]⟩
  case authEnd =>
    exact ⟨_, rfl, Mach.verbRow_kept fun n _ _ => by
      split; exacts [Mach.runAuthEnd_within _ _ _ (n.within_refl _) rfl, n.within_refl _]⟩
  case authStatus =>
    exact ⟨_, rfl, Mach.verbRow_kept fun n _ _ => by
      split; exacts [Mach.runAuthStatus_within _ _ _ (n.within_refl _) rfl, n.within_refl _]⟩
  case keyPub =>
    exact ⟨_, rfl, Mach.verbRow_kept fun n _ _ => by
      split; exacts [Mach.runKeyPub_within _ _ _ (n.within_refl _) rfl, n.within_refl _]⟩
  case keyCert =>
    exact ⟨_, rfl, Mach.verbRow_kept fun n _ _ => by
      split; exacts [Mach.runKeyCert_within _ _ _ (n.within_refl _) rfl, n.within_refl _]⟩
  case keyEnrol =>
    exact ⟨_, rfl, Mach.verbRow_kept fun n _ _ => by
      split; exacts [Mach.runKeyEnrol_within _ _ _ _ _ (n.within_refl _) rfl, n.within_refl _]⟩
  case keyRetire =>
    exact ⟨_, rfl, Mach.verbRow_kept fun n _ _ => by
      split; exacts [Mach.runKeyRetire_within _ _ _ (n.within_refl _) rfl, n.within_refl _]⟩
  case engineStart | engineStop | engineResume | eventStart | eventStop =>
    exact ⟨_, rfl, Mach.verbRow_kept fun n _ _ => by
      split; exacts [Mach.runControl_within _ _ _ _ _ (n.within_refl _) rfl, n.within_refl _]⟩
  case engineLoad =>
    exact ⟨_, rfl, Mach.verbRow_kept fun n _ _ => by
      split; exacts [Mach.codeAt_within _ _ _ _ _ (Mach.engineLoad_within _ _ _ (n.within_refl _) rfl) rfl, n.within_refl _]⟩
  case engineStatus | eventStatus | flueList | testShow | spareShow | upgradeStatus | whoVerb | helpVerb =>
    exact ⟨_, rfl, Mach.verbRow_kept fun n _ _ => by
      split; exacts [Mach.replies_within _ _ _ _ _ (n.within_refl _) rfl, n.within_refl _]⟩
  case eventLoad =>
    exact ⟨_, rfl, Mach.verbRow_kept fun n _ _ => by
      split; exacts [Mach.codeAt_within _ _ _ _ _ (Mach.eventLoad_within _ _ (n.within_refl _) rfl) rfl, n.within_refl _]⟩
  case flueScan =>
    exact ⟨_, rfl, Mach.verbRow_kept fun n _ _ => by
      split; exacts [Mach.runFlueScan_within _ _ _ _ (n.within_refl _) rfl, n.within_refl _]⟩
  case flueAway =>
    exact ⟨_, rfl, Mach.verbRow_kept fun n _ _ => by
      split; exacts [Mach.code_within _ _ _ _ (Mach.flueAway_within _ _ (n.within_refl _) rfl) rfl, n.within_refl _]⟩
  case flueBack =>
    exact ⟨_, rfl, Mach.verbRow_kept fun n _ _ => by
      split; exacts [Mach.code_within _ _ _ _ (Mach.flueBack_within _ _ (n.within_refl _) rfl) rfl, n.within_refl _]⟩
  case flueUpgrade =>
    exact ⟨_, rfl, Mach.verbRow_kept fun n _ _ => by
      split; exacts [Mach.code_within _ _ _ _ (Mach.flueUpgrade_within _ _ (n.within_refl _) rfl) rfl, n.within_refl _]⟩
  case testRun =>
    exact ⟨_, rfl, Mach.verbRow_kept fun n _ _ => by
      split; exacts [Mach.runTests_within _ _ _ _ (n.within_refl _) rfl, n.within_refl _]⟩
  case spareUse =>
    exact ⟨_, rfl, Mach.verbRow_kept fun n _ _ => by
      split; exacts [Mach.runSpareUse_within _ _ _ _ _ (n.within_refl _) rfl, n.within_refl _]⟩
  case upgradeBegin =>
    exact ⟨_, rfl, Mach.verbRow_kept fun n _ _ => by
      split; exacts [Mach.code_within _ _ _ _ (Mach.upgradeBegin_within _ _ _ _ _ (n.within_refl _) rfl) rfl, n.within_refl _]⟩
  case upgradeData =>
    exact ⟨_, rfl, Mach.verbRow_kept fun n _ _ => by
      split; exacts [Mach.code_within _ _ _ _ (Mach.upgradeData_within _ _ _ _ (n.within_refl _) rfl) rfl, n.within_refl _]⟩
  case upgradeCommit =>
    exact ⟨_, rfl, Mach.verbRow_kept fun n _ _ => by
      split; exacts [Mach.codeAt_within _ _ _ _ _ (Mach.upgradeCommit_within _ _ _ (n.within_refl _) rfl) rfl, n.within_refl _]⟩
  case upgradeAbort =>
    exact ⟨_, rfl, Mach.verbRow_kept fun n _ _ => by
      split; exacts [Mach.code_within _ _ _ _ (Mach.upgradeAbort_within _ _ (n.within_refl _) rfl) rfl, n.within_refl _]⟩
  case lockVerb =>
    exact ⟨_, rfl, Mach.verbRow_kept fun n _ _ => by
      split; exacts [Mach.runLock_within _ _ _ _ (n.within_refl _) rfl, n.within_refl _]⟩

theorem step_nil (m : Mach) : step ⟨m, []⟩ = .next ⟨m.idle, []⟩ := rfl

theorem step_cons (m : Mach) (c : Instr) (rest : List Instr) : step ⟨m, c :: rest⟩ = exec c ⟨m, rest⟩ := rfl

/-- A step goes on from canonical memories to canonical memories, with a command in front or with none. -/
theorem step_within {s t : State} (h : step s = .next t) : s.m.within t.m everyPart := by
  obtain ⟨m, _ | ⟨c, rest⟩⟩ := s
  · rw [step_nil] at h
    rw [← Host.Outcome.next.inj h]
    dsimp only
    exact Mach.idle_within m (m.within_refl everyPart) rfl
  · obtain ⟨n, he, hn⟩ := exec_within c ⟨m, rest⟩
    rw [step_cons, he, goOn] at h
    rw [← Host.Outcome.next.inj h]
    exact hn

/-- Settles O59: the reach of a step. -/
theorem stepKeepsCanonical : Obligations.StepKeepsCanonical :=
  fun _ _ hc h => (step_within h).2.1 hc

end Sys2Proof.Machine
end

section
/-! SUPPORT. Writes of one word (R89, R93 to R102, R145 to R148): what a register that only stores its fields makes of a word, and what a
refused word leaves. -/

namespace Sys2Proof.Machine

/-! ### Addresses with an access kind (R89) -/

theorem addr_toNat {a : Nat} (k : AccessKind) (h : a < 0x4000) : (BitVec.ofNat 16 (a + kindBits k)).toNat = a + kindBits k := by
  have hk : kindBits k ≤ 0xC000 := by cases k <;> decide
  rw [BitVec.toNat_ofNat]
  omega

theorem mod_add_kindBits {n : Nat} (h : n < 0x10000) : n % 0x4000 + kindBits (kindOf n) = n := by
  obtain hq | hq | hq | hq : n / 0x4000 = 0 ∨ n / 0x4000 = 1 ∨ n / 0x4000 = 2 ∨ n / 0x4000 = 3 := by omega
  all_goals simp only [kindOf, hq, kindBits]; omega

/-! ### Operations on the register file -/

theorem Mach.touch_agrees (m : Mach) (b : Nat) {x : Part} (h : x ≠ .regs) : m.agrees (m.touch b) x := by
  cases x
  case regs => exact absurd rfl h
  all_goals rfl

theorem Mach.setReg_agrees (m : Mach) (a : Nat) (w : Word) {x : Part} (h : x ≠ .regs) : m.agrees (m.setReg a w) x := by
  cases x
  case regs => exact absurd rfl h
  all_goals rfl

theorem Mach.agrees_refl (m : Mach) (x : Part) : m.agrees m x := by cases x <;> rfl

theorem Mach.agrees_trans {m n k : Mach} {x : Part} (h : m.agrees n x) (h2 : n.agrees k x) : m.agrees k x := by
  cases x <;> exact h2.trans h

theorem Mach.port_of_agrees {m n : Mach} {p : Port} (h : m.agrees n (portPart p)) : n.port p = m.port p := by cases p <;> exact h

/-! ### Registers that only store their fields -/

/-- Where the registers of `plainRegs` stand. -/
theorem plainRegs_place : ∀ a ∈ plainRegs, a < 0x4000 ∧ a ≤ lastOf a ∧ windowOf a = none ∧ isTxd a = false ∧ isIndex a = false ∧
    a ≠ 0x2C0C := by decide

theorem plainRegs_lt {a : Nat} (h : a ∈ plainRegs) : a < 0x4000 := (plainRegs_place a h).1

theorem plainRegs_le {a : Nat} (h : a ∈ plainRegs) : a ≤ lastOf a := (plainRegs_place a h).2.1

/-- They are control registers of RW fields alone. -/
theorem plainRegs_fields : ∀ a ∈ plainRegs, ∀ d ∈ regDef a, d.cls = .control ∧ d.go = 0 ∧ d.pp = 0 ∧ d.lk = 0 := by decide

theorem holdsP_plain {a : Nat} {d : RegDef} (h : a ∈ plainRegs) (hd : regDef a = some d) : holdsP a = false := by
  obtain ⟨-, -, hp, -⟩ := plainRegs_fields a h d hd
  simp [holdsP, persistMask, hd, hp]

theorem Mach.rangeBad_plain (m : Mach) {a : Nat} (w : Word) (h : a ∈ plainRegs) : m.rangeBad a w = false := by
  fin_cases h <;> rfl

theorem Mach.regRefuse_plain (m : Mach) (ag : Agent) {a : Nat} (old new go : Word) (h : a ∈ plainRegs) :
    m.regRefuse ag a old new go = 0 := by
  fin_cases h <;> rfl

theorem Mach.regDone_plain (m : Mach) (ag : Agent) {a : Nat} (old new : Word) (h : a ∈ plainRegs) :
    m.regDone ag a old new 0 = (0, m.setReg a new) := by
  fin_cases h <;> cases ag <;> rfl

/-- What the checks of a plain register's write leave: the range of its fields (R101). -/
theorem Mach.busWrite_plain (m : Mach) (ag : Agent) (k : AccessKind) {a : Nat} {d : RegDef} (w : Word) (h : a ∈ plainRegs)
    (hd : regDef a = some d) : m.busWrite ag k a w =
      if d.inRange (d.written k (m.reg a) w) then (0, m.setReg a (d.written k (m.reg a) w)) else (17, m) := by
  obtain ⟨-, -, hw, ht, hi, ha⟩ := plainRegs_place a h
  obtain ⟨hcls, hgo, hpp, hlk⟩ := plainRegs_fields a h d hd
  have hz : (a = 0x2C0C && !bitAt w 0) = false := by simp [ha]
  have hand : ∀ x : Word, x &&& 0 = 0 := fun _ => BitVec.and_zero
  have hn : m.noteAbsorbed ag a 0 = m := if_pos rfl
  simp only [Mach.busWrite, hw, hd, hcls]
  unfold Mach.controlWrite
  simp only [ht, hi, Bool.false_eq_true, if_false, hz, m.rangeBad_plain _ h, Bool.or_false, hlk, hpp, ne_eq, not_true_eq_false,
    decide_false, Bool.false_and, m.regRefuse_plain ag _ _ _ h, hgo, hand, hn, m.regDone_plain ag _ _ h]
  cases d.inRange (d.written k (m.reg a) w) <;> rfl

/-- A served write of a plain register stores its word. -/
theorem plainWrite_served (s : State) (ag : Agent) (k : AccessKind) {a : Nat} {d : RegDef} {w : Word} (hc : s.m.canonical = true)
    (h : a ∈ plainRegs) (hd : regDef a = some d) (ht : s.m.takesWrite ag k a) (hr : d.inRange (d.written k (s.m.reg a) w) = true) :
    ∃ t, goOn s (s.m.oneWrite ag k a w) = .next t ∧ t.pending = s.pending ∧
      t.m.reg a = d.written k (s.m.reg a) w ∧ s.m.wroteOnly t.m ag [] [a] := by
  have hb : (s.m.touch (blockOf a)).busWrite ag k a w = (0, (s.m.touch (blockOf a)).setReg a (d.written k (s.m.reg a) w)) := by
    rw [Mach.busWrite_plain _ ag k w h hd, Mach.touch_reg, if_pos hr]
  obtain ⟨t, he, hp, ht, hf⟩ := oneWrite_effect s ag k a w (plainRegs_lt h) (plainRegs_le h) ht [] [a] _ hb
    (fun x hx => Mach.agrees_trans (s.m.touch_agrees _ (by simpa using hx)) (Mach.setReg_agrees _ a _ (by simpa using hx))) rfl rfl rfl
    (fun x hx => Mach.reg_setReg_ne _ _ (by simpa using hx))
  refine ⟨t, he, hp, ?_, hf⟩
  rw [ht, settled_reg]
  exact Mach.reg_setReg_self _ a _ hc

/-- Settles O8: a plain register's word passes every check but its range, and is stored. -/
theorem plainRegisterWrite : Obligations.PlainRegisterWrite := by
  intro s ag k a d w hc h hd ht hr
  have ha := plainRegs_lt h
  have hx : exec (.registerWrite ag (BitVec.ofNat 16 (a + kindBits k)) w) s = goOn s (s.m.oneWrite ag k a w) := by
    show goOn s (s.m.oneWrite ag (kindOf (BitVec.ofNat 16 (a + kindBits k)).toNat)
      ((BitVec.ofNat 16 (a + kindBits k)).toNat % 0x4000) w) = _
    rw [addr_toNat k ha, kindOf_add k ha, kindBits_add_mod k ha]
  rw [hx]
  exact plainWrite_served s ag k hc h hd ht hr

/-! ### Refused words -/

theorem Mach.noteAccess_port (m : Mach) (p : Port) {c : Nat} (addr : Nat) (h : c ≠ 0) :
    m.noteAccess (.port p) c addr = m.setReg (accLast p) (word (addr * 2 ^ 16 + c)) := if_neg h

theorem Mach.frameDone_port (m : Mach) (p : Port) (c : Nat) : (m.frameDone p c).port p = m.framed p c :=
  m.updPort_port p _

theorem Mach.frameDone_reg (m : Mach) (p : Port) (c a : Nat) : (m.frameDone p c).reg a = m.reg a := m.updPort_reg p _ a

theorem Mach.frameDone_agrees (m : Mach) (p : Port) (c : Nat) : m.changesOnly (m.frameDone p c) [portPart p] := by
  intro x hx
  cases p <;> cases x <;> simp_all [portPart, Mach.agrees, Mach.frameDone, Mach.updPort]

/-- A frame of a port whose word or header is refused changes `ACC_x_LAST` and the port's count, where `n` is the block once the
access has restarted its clock. -/
theorem Mach.refused_frame {m n : Mach} {p : Port} {c : Nat} (addr : Nat) (hc : m.canonical = true) (h : c ≠ 0)
    (hn : ∀ x, x ≠ .regs → m.agrees n x) (hw : n.regs.words = m.regs.words) :
    ((n.noteAccess (.port p) c addr).frameDone p c).reg (accLast p) = word (addr * 2 ^ 16 + c) ∧
      ((n.noteAccess (.port p) c addr).frameDone p c).port p = m.framed p c ∧
      m.changesOnly ((n.noteAccess (.port p) c addr).frameDone p c) [.regs, portPart p] ∧
      m.keepsRegs ((n.noteAccess (.port p) c addr).frameDone p c) [accLast p] := by
  have hmem : n.mem = m.mem := hn .mem (by decide)
  have hcn : n.canonical = true := by simpa only [Mach.canonical, hw, hmem] using hc
  have hreg : ∀ a, n.reg a = m.reg a := fun a => by simp only [Mach.reg, hw]
  have hclk : n.clk = m.clk := hn .clk (by decide)
  have hport : n.port p = m.port p := Mach.port_of_agrees (hn _ (by cases p <;> decide))
  rw [n.noteAccess_port p addr h]
  refine ⟨?_, ?_, fun x hx => ?_, fun a ha => ?_⟩
  · rw [Mach.frameDone_reg, Mach.reg_setReg_self _ _ _ hcn]
  · rw [Mach.frameDone_port]
    simp only [Mach.framed, Mach.heard, Mach.setReg_port, Mach.setReg_clk, hport, hclk]
  · have hx1 : x ≠ .regs := fun e => hx (by simp [e])
    exact Mach.agrees_trans (hn x hx1) (Mach.agrees_trans (n.setReg_agrees _ _ hx1)
      (Mach.frameDone_agrees _ p c x fun e => hx (List.mem_cons_of_mem _ e)))
  · rw [Mach.frameDone_reg, Mach.reg_setReg_ne _ _ (by simpa using ha), hreg]

theorem Mach.portWrite_refused {m : Mach} {p : Port} {addr : Nat} {ws : List Word}
    (h : m.regHeader (.port p) true addr ws.length ≠ 0) : m.portWrite p addr ws =
      (m.regHeader (.port p) true addr ws.length, m.noteAccess (.port p) (m.regHeader (.port p) true addr ws.length) addr) := by
  unfold Mach.portWrite
  split
  · next h0 => exact absurd h0 h
  · rfl

/-- A word that its register refuses is noted. -/
theorem Mach.regApply_refused {m : Mach} {ag : Agent} {k : AccessKind} {a : Nat} {w : Word} (ha : a < 0x4000) (hl : a ≤ lastOf a)
    {c : Nat} {n : Mach} (hb : (m.touch (blockOf a)).busWrite ag k a w = (c, n)) (h0 : c ≠ 0) (h8 : c ≠ 8) :
    m.regApply ag (a + kindBits k) [w] = (c, n.noteAccess ag c (a + kindBits k)) := by
  simp [Mach.regApply, kindBits_add_mod k ha, kindOf_add k ha, Mach.writeRun, hl, hb, h0, h8, runCode]

/-- Settles O9: a header's refusal by `Mach.portWrite_refused`, a range's by `Mach.busWrite_plain`. -/
theorem refusedWritesChangeNothing : Obligations.RefusedWritesChangeNothing := by
  intro s p w hc hup hheld
  have happ := updPort_held_nil s.m p hheld
  refine ⟨fun addr hh => ?_, fun k a d h hd ht hr => ?_⟩
  · have he : s.m.oneWrite (.port p) (kindOf addr.toNat) (addr.toNat % 0x4000) w =
        (s.m.noteAccess (.port p) (s.m.regHeader (.port p) true addr.toNat 1) addr.toNat).frameDone p
          (s.m.regHeader (.port p) true addr.toNat 1) := by
      simp only [Mach.oneWrite, hup, if_true, happ, mod_add_kindBits addr.isLt, Mach.portWrite_refused (ws := [w]) hh,
        List.length_singleton]
    obtain ⟨h1, h2, h3, h4⟩ := Mach.refused_frame (m := s.m) (n := s.m) (p := p) addr.toNat hc hh
      (fun x _ => s.m.agrees_refl x) rfl
    exact ⟨⟨_, s.pending⟩, congrArg (goOn s) he, rfl, h1, h2, h3, h4⟩
  · have ha := plainRegs_lt h
    obtain ⟨hh, -, -, hg⟩ := ht
    have hb : (s.m.touch (blockOf a)).busWrite (.port p) k a w = (17, s.m.touch (blockOf a)) := by
      rw [Mach.busWrite_plain _ (.port p) k w h hd, Mach.touch_reg, hr]
      rfl
    have he : s.m.oneWrite (.port p) (kindOf (BitVec.ofNat 16 (a + kindBits k)).toNat)
        ((BitVec.ofNat 16 (a + kindBits k)).toNat % 0x4000) w =
        ((s.m.touch (blockOf a)).noteAccess (.port p) 17 (a + kindBits k)).frameDone p 17 := by
      rw [addr_toNat k ha, kindOf_add k ha, kindBits_add_mod k ha]
      simp only [Mach.oneWrite, hup, if_true, happ, Mach.portWrite, List.length_singleton, hh, kindBits_add_mod k ha, hg,
        Bool.false_eq_true, if_false, Mach.regApply_refused ha (plainRegs_le h) hb (by decide) (by decide)]
    obtain ⟨h1, h2, h3, h4⟩ := Mach.refused_frame (m := s.m) (n := s.m.touch (blockOf a)) (p := p) (c := 17) (a + kindBits k) hc
      (by decide) (fun x hx => s.m.touch_agrees _ hx) rfl
    exact ⟨⟨_, s.pending⟩, congrArg (goOn s) he, rfl, h1, congrArg PortState.last h2, h3, h4⟩

/-! ### Gated clocks (R131, R133) -/

theorem Mach.touch_isGated (m : Mach) (b : Nat) : (m.touch b).isGated b = false := by
  simp [Mach.touch, Mach.isGated]

/-- A block that no access of the last 100 µs keeps awake gates its clock. -/
theorem Mach.clockGate_idle {m : Mach} {b : Nat} (hon : m.on (blockDomain b) = true) (hg : m.isGated b = false)
    (hl : ∀ t, m.regs.lastAccess.find? (fun x => x.1 == b) = some (b, t) → t + microsUp 100 ≤ m.clk.now) :
    m.clockGate b = { m with regs := { m.regs with gated := m.regs.gated ++ [b] } } := by
  unfold Mach.clockGate
  cases hf : m.regs.lastAccess.find? (fun x => x.1 == b) with
  | none => simp [hg, hon]
  | some x =>
    obtain ⟨c, t⟩ := x
    have hb : c = b := by simpa using List.find?_some hf
    subst hb
    have := hl t hf
    simp [hg, hon, this]

/-- The one word that a port holds is applied as a word of its own, where no semaphore, no block and no controller stands against it
(R133, R166). -/
theorem Mach.applyHeld_one {m : Mach} {p : Port} {k : AccessKind} {a : Nat} {w : Word} (ha : a < 0x4000)
    (hh : (m.port p).held = [(a + kindBits k, w)]) (hs : m.semRefuses p [a] = false) (hc : m.accessCode (blockOf a) [a] = 0)
    (hp : holdsP a = false) {n : Mach}
    (hb : ((m.updPort p (fun s => { s with held := [] })).touch (blockOf a)).busWrite (.port p) k a w = (0, n)) :
    m.applyHeld p = n := by
  have hs' : (m.updPort p (fun s => { s with held := [] })).semRefuses p [a] = false := by rw [← hs]; cases p <;> rfl
  have hc' : (m.updPort p (fun s => { s with held := [] })).accessCode (blockOf a) [a] = 0 := by rw [← hc]; cases p <;> rfl
  simp [Mach.applyHeld, hh, Mach.applyWords, Mach.applyWord, kindBits_add_mod k ha, kindOf_add k ha, hs', hc', hp, hb]

/-- Settles O12: a gate by `Mach.clockGate_idle`, a held word by `Mach.applyHeld_one`. -/
theorem gatedClocks : Obligations.GatedClocks := by
  refine ⟨fun s b hon hg hl => ?_, fun s p k a d w hc h hd hh hs hcode hr => ?_⟩
  · refine ⟨⟨_, s.pending⟩, congrArg (goOn s) (Mach.clockGate_idle hon hg hl), rfl, ?_, fun c hcb => ?_, fun x hx => ?_, fun a _ => rfl⟩
    · simp [Mach.isGated]
    · simp [Mach.isGated, hcb]
    · cases x
      case regs => simp at hx
      all_goals rfl
  · have hb := Mach.busWrite_plain ((s.m.updPort p (fun s => { s with held := [] })).touch (blockOf a)) (.port p) k w h hd
    simp only [Mach.touch_reg, Mach.updPort_reg, hr, if_true] at hb
    refine ⟨⟨_, s.pending⟩, congrArg (goOn s) (Mach.applyHeld_one (plainRegs_lt h) hh hs hcode (holdsP_plain h hd) hb), rfl, ?_,
      Mach.touch_isGated _ _, ?_, fun x hx => ?_, fun c hca => ?_⟩
    · exact Mach.reg_setReg_self _ a _ ((Mach.updPort_within p _ (s.m.within_refl [.pa, .pb]) rfl).2.1 hc)
    · rw [Mach.setReg_port, Mach.touch_port, Mach.updPort_port]
    · cases p <;> cases x <;> simp_all [portPart, Mach.agrees, Mach.updPort]
    · rw [Mach.reg_setReg_ne _ _ (by simpa using hca), Mach.touch_reg, Mach.updPort_reg]

end Sys2Proof.Machine
end

section
/-! SUPPORT. Data windows (R139 to R143). -/

namespace Sys2Proof.Machine

/-- The event program has 1024 words: an address past its end names one of them again. -/
theorem Mach.evtWord_wrap (m : Mach) (i : Nat) : m.evtWord (i + 1024) = m.evtWord i := by
  simp only [Mach.evtWord, Nat.add_mod_right]

/-- At reset a write of the command core to the data register of the event program is served. -/
theorem reset_takesWrite : Mach.reset.takesWrite .core .direct 0x2304 := ⟨by decide, by decide⟩

/-- Refutes O11: the clause on the event program's other words ranges over every number, and `Mach.evtWord` reads word `i` at `i + 1024`
too. At reset the core's write of 1 at index 0 changes what 1024 reads as. -/
theorem not_windowsReadAndWrite : ¬ Obligations.WindowsReadAndWrite := by
  intro h
  obtain ⟨t, -, -, hself, hother, -⟩ := (h.1 ⟨Mach.reset, []⟩ .core .direct 1 0 Mach.reset_canonical).1 reset_takesWrite
    (by decide) (by decide) (by decide) (by decide)
  have h1 := hother 1024 (by decide)
  rw [show 1024 = 0 + 1024 from rfl, Mach.evtWord_wrap, Mach.evtWord_wrap, hself] at h1
  exact absurd h1 (by decide)

end Sys2Proof.Machine
end

section
/-! SUPPORT. The end of a persistent write (R118, R119, R710 to R712): the controller freed, its register's row, and what follows for the
aux channels and for both ports. -/

namespace Sys2Proof.Machine

/-! ### Events of `x_INTSRC` in a chain of edits -/

theorem Mach.intTaken_noClear {m : Mach} (p : Port) (mask : Word) (h : m.noClear) : (m.intTaken p mask).noClear := by
  unfold Mach.intTaken
  dsimp only
  split
  · exact h
  · split <;> (cases p <;> exact h)

theorem Mach.intEvent_noClear {m : Mach} (p : Port) (mask : Word) (h : m.noClear) : (m.intEvent p mask).noClear := by
  have hf := flushInt_noClear m p h
  rw [Mach.intEvent_eq, unclear_none _ _ hf]
  split
  · exact Mach.intTaken_noClear p mask hf
  · exact hf

theorem Mach.Edits.intBit {m n : Mach} {ps : List Part} {as : List Nat} (h : m.Edits n ps as) {p : Port} (i : Nat) (ha : intsrc p ∈ as)
    (hp : [Part.regs, .pa, .pb].all ps.contains = true) : m.Edits (n.intBit p i) ps as :=
  ⟨Mach.intBit_within n p i h.within hp, Mach.intEvent_noClear p _ h.noClear, fun x hx =>
    ((intEvent_frame n p _ h.noClear).2.1 x (by rintro hxa; exact hx (List.mem_singleton.mp hxa ▸ ha))).trans (h.keepsRegs x hx)⟩

theorem Mach.Edits.intBoth {m n : Mach} {ps : List Part} {as : List Nat} (h : m.Edits n ps as) (i : Nat) (ha : ∀ p, intsrc p ∈ as)
    (hp : [Part.regs, .pa, .pb].all ps.contains = true) : m.Edits (n.intBoth i) ps as :=
  (h.intBit i (ha .a) hp).intBit i (ha .b) hp

/-- What does not show the pacing of `x_INTSRC` reads the same in every port past an event of it. -/
theorem Mach.intEvent_kept {α : Type} {m : Mach} (p : Port) (mask : Word) (h : m.noClear) {f : PortState → α}
    (hf : ∀ (s : PortState) b n, f { s with incPending := b, lastInc := n } = f s) (q : Port) :
    f ((m.intEvent p mask).port q) = f (m.port q) := by
  obtain ⟨hparts, -, hport⟩ := intEvent_frame m p mask h
  by_cases hq : q = p
  · subst hq
    rw [hport]
    exact hf _ _ _
  · rw [Mach.port_of_agrees (hparts (portPart q) (by cases p <;> cases q <;> simp_all [portPart]))]

theorem Mach.intBoth_kept {α : Type} {m : Mach} (i : Nat) (h : m.noClear) {f : PortState → α}
    (hf : ∀ (s : PortState) b n, f { s with incPending := b, lastInc := n } = f s) (q : Port) :
    f ((m.intBoth i).port q) = f (m.port q) :=
  (Mach.intEvent_kept .b _ (Mach.intEvent_noClear .a _ h) hf q).trans (Mach.intEvent_kept .a _ h hf q)

/-- Both ports' bit stands past an event of both. -/
theorem Mach.intBoth_flag {m : Mach} {i : Nat} (hc : m.canonical = true) (hon : m.on 5 = true) (hi : i < 24) (p : Port) :
    (m.intBoth i).flag (intsrc p) i = true := by
  have ha := Mach.intBit_latched (m := m) .a hc hon hi
  have hw : m.within (m.intBit .a i) [.regs, .pa, .pb] := Mach.intBit_within m .a i (m.within_refl _) rfl
  have hclk : (m.intBit .a i).clk = m.clk := hw.1 .clk (by simp)
  have hon' : (m.intBit .a i).on 5 = true := (congrArg (fun c : Clocks => decide (c.dom.d5 = .on)) hclk).trans hon
  cases p
  · exact (Mach.intEvent_latched .b _ hi ha).2.2
  · exact (Mach.intBit_latched .b ha.1 hon' hi).2.2

/-! ### Configurations of the aux channels (R390) -/

theorem foldl_fixed_of_mem {α β : Type} {f : α → β → α} {a : α} (l : List β) (h : ∀ b ∈ l, f a b = a) : l.foldl f a = a := by
  induction l with
  | nil => rfl
  | cons b l ih =>
    rw [List.foldl_cons, h b (by simp)]
    exact ih fun c hc => h c (by simp [hc])

theorem Mach.companion_congr {m n : Mach} (hr : ∀ a, 0x1800 ≤ a → a < 0x1A00 → n.reg a = m.reg a) {k : Nat} (hk : k < 8) :
    n.companion k = m.companion k := by
  induction k with
  | zero => rfl
  | succ k ih =>
    simp only [Mach.companion, Mach.flag, Mach.fld, hr (0x1800 + 64 * k) (by omega) (by omega),
      hr (0x1808 + 64 * k) (by omega) (by omega), ih (by omega)]

/-- The registers of the aux channels say what configurations they ask for. -/
theorem Mach.auxRegs_congr {m n : Mach} (hr : ∀ a, 0x1800 ≤ a → a < 0x1A00 → n.reg a = m.reg a) {k : Nat} (hk : k < 8) :
    n.auxRegs k = m.auxRegs k := by
  have hreg : ∀ j < 8, n.reg (auxBase k + 4 * j) = m.reg (auxBase k + 4 * j) := fun j hj =>
    hr _ (by unfold auxBase; omega) (by unfold auxBase; omega)
  have hhost : n.reg (auxBase (k - 1)) = m.reg (auxBase (k - 1)) := hr _ (by unfold auxBase; omega) (by unfold auxBase; omega)
  simp only [Mach.auxRegs, Mach.companion_congr hr hk, hhost, hreg _ (by decide : 0 < 8), hreg _ (by decide : 1 < 8),
    hreg _ (by decide : 2 < 8), hreg _ (by decide : 3 < 8), hreg _ (by decide : 4 < 8), hreg _ (by decide : 5 < 8),
    hreg _ (by decide : 6 < 8), hreg _ (by decide : 7 < 8)]

/-- A write that no lead calibration posted leaves the registers to say the configurations. -/
theorem Mach.auxEff_posted {m : Mach} {w : PWrite} (hw : m.nv.write = some w) (hl : w.byPort = none → w.addr < 0x1800 ∨ 0x1A00 ≤ w.addr)
    {k : Nat} (hk : k < 8) : m.auxEff k = m.auxRegs k := by
  have hno : (decide (w.addr = auxBase k + 0x1C) && w.byPort.isNone) = false := by
    cases hp : w.byPort with
    | some p => simp
    | none =>
      have := hl hp
      have : w.addr ≠ auxBase k + 0x1C := by unfold auxBase; omega
      simp [this]
  simp only [Mach.auxEff, hw, hno, Bool.false_eq_true, if_false]

theorem Mach.auxEff_idle {m : Mach} (hw : m.nv.write = none) (k : Nat) : m.auxEff k = m.auxRegs k := by
  simp only [Mach.auxEff, hw]

/-- Where no configuration differs and DAMPER is not asserted, nothing is to change. -/
theorem Mach.auxChanges_same {m : Mach} {old : Nat → AuxCfg} (h : ∀ k < 8, old k = m.auxEff k) (ha : m.aux.asserted = false) :
    m.auxChanges old = m := by
  unfold Mach.auxChanges
  rw [foldl_fixed_of_mem (List.range 8) fun k hk => if_neg (by simp [h k (List.mem_range.mp hk)])]
  simp [ha]

/-! ### The controller freed -/

/-- The block with no persistent write in flight. -/
def Mach.freed (m : Mach) : Mach := { m with nv := { m.nv with write := none } }

/-- A register's entry in the store, a fresh one where it has none. -/
def Mach.pregOr (m : Mach) (a : Nat) : PReg := (m.preg a).getD ⟨a, regReset a &&& persistMask a, 0, false, false⟩

theorem Mach.pregOr_addr (m : Mach) (a : Nat) : (m.pregOr a).addr = a := by
  unfold Mach.pregOr
  cases h : m.preg a with
  | none => rfl
  | some r => exact by simpa using List.find?_some h

theorem Mach.pregOr_count (m : Mach) (a : Nat) : (m.pregOr a).count = ((m.preg a).map (fun o => o.count)).getD 0 := by
  unfold Mach.pregOr
  cases m.preg a <;> rfl

theorem Mach.preg_putPreg (m : Mach) (r : PReg) : (m.putPreg r).preg r.addr = some r := by
  have hold : (m.nv.pregs.filter (fun x => x.addr != r.addr)).find? (fun x => x.addr == r.addr) = none := by
    simp [List.find?_eq_none]
  simp only [Mach.preg, Mach.putPreg, List.find?_append, hold]
  simp

theorem Mach.preg_congr {m n : Mach} (h : n.nv = m.nv) (a : Nat) : n.preg a = m.preg a := by rw [Mach.preg, h]; rfl

/-- A register's entry once a write of it has read back right: its value, one write more. -/
def Mach.entryWritten (m : Mach) (w : PWrite) : PReg :=
  { m.pregOr w.addr with
    value := w.new &&& persistMask w.addr, count := (m.pregOr w.addr).count + 1, moved := (m.pregOr w.addr).moved || false }

/-- A register's entry once a write of it has failed twice: it takes no further one. -/
def Mach.entryFailed (m : Mach) (w : PWrite) : PReg := { m.pregOr w.addr with dead := true }

/-- The row of a write that reads back right: its register's entry, and the event of its 900,000th write. -/
def Mach.rowWritten (m : Mach) (w : PWrite) : Mach :=
  let n := (m.freed.putPreg (m.entryWritten w)).sqEvent 0x3808
    (bitIf (decide ((m.entryWritten w).count = 900000)) 0 ||| bitIf false 2)
  if (m.entryWritten w).count = 900000 then n.pstLast 1 w.addr else n

/-- The row of a write that has failed twice: its register takes no further write and holds its old P bits. -/
def Mach.rowFailed (m : Mach) (w : PWrite) : Mach :=
  (((m.freed.putPreg (m.entryFailed w)).persistBack w).sqBit 0x3808 3).pstLast 3 w.addr

theorem Mach.leadWritten_unposted {m : Mach} {w : PWrite} (old : Nat → AuxCfg) (done : Bool)
    (h : ∀ l, m.aux.lcal = some l → l.posted = false) : m.leadWritten w old done = m.auxChanges old := by
  unfold Mach.leadWritten
  split
  · next l hl => simp [h l hl]
  · rfl

theorem Mach.freed_edits {m : Mach} {r : PReg} {ps : List Part} {as : List Nat} (hn : m.noClear) (hp : [Part.nv].all ps.contains = true) :
    m.Edits (m.freed.putPreg r) ps as :=
  (Mach.Edits.refl hn).other (qs := [.nv])
    (Mach.putPreg_within m.freed r (⟨fun x hx => by cases x <;> first | rfl | simp at hx, id, id⟩ : m.within m.freed [.nv]) rfl)
    (by simpa using hp)

theorem Mach.rowWritten_edits {m : Mach} (w : PWrite) (hn : m.noClear) : m.Edits (m.rowWritten w) [.regs, .nv] [0x3808, 0x380C] := by
  unfold Mach.rowWritten
  extract_lets n
  have h : m.Edits n [.regs, .nv] [0x3808, 0x380C] := (Mach.freed_edits hn rfl).sqEvent _ (by decide) rfl
  exact (h.setReg _ (by decide) rfl).ite h

theorem Mach.rowFailed_edits {m : Mach} (w : PWrite) (hn : m.noClear) :
    m.Edits (m.rowFailed w) [.regs, .nv] [w.addr, 0x3808, 0x380C] :=
  (((Mach.freed_edits hn rfl).setReg _ (by simp) rfl).sqEvent _ (by simp) rfl).setReg _ (by simp) rfl

theorem Mach.rowWritten_nv (m : Mach) (w : PWrite) : (m.rowWritten w).nv = (m.freed.putPreg (m.entryWritten w)).nv := by
  unfold Mach.rowWritten
  extract_lets n
  have h : n.nv = (m.freed.putPreg (m.entryWritten w)).nv :=
    (Mach.sqEvent_within _ 0x3808 _ (Mach.within_refl _ [.regs]) rfl).1 .nv (by simp)
  split <;> exact h

theorem Mach.rowFailed_nv (m : Mach) (w : PWrite) : (m.rowFailed w).nv = (m.freed.putPreg (m.entryFailed w)).nv :=
  (Mach.sqEvent_within ((m.freed.putPreg (m.entryFailed w)).persistBack w) 0x3808 (bitMask 3) (Mach.within_refl _ [.regs]) rfl).1
    .nv (by simp)

/-- What the end of a write does past its row. -/
theorem Mach.persistDone_row {m : Mach} {w : PWrite} (hw : m.nv.write = some w) (h : w.addr ≠ 0x3000)
    (hl : ∀ l, m.aux.lcal = some l → l.posted = false) (hn : m.noClear) :
    m.persistDone .good = ((m.rowWritten w).auxChanges m.auxEff).intBoth 1 ∧
      m.persistDone .failedAgain = ((m.rowFailed w).auxChanges m.auxEff).intBoth 1 := by
  have hg : (m.rowWritten w).aux = m.aux := (Mach.rowWritten_edits w hn).agrees (x := .aux) rfl
  have hf : (m.rowFailed w).aux = m.aux := (Mach.rowFailed_edits w hn).agrees (x := .aux) rfl
  constructor
  · rw [← Mach.leadWritten_unposted (w := w) m.auxEff true (by rw [hg]; exact hl)]
    simp only [Mach.persistDone, hw, h, if_false, rowOutcome]
    rfl
  · rw [← Mach.leadWritten_unposted (w := w) m.auxEff false (by rw [hf]; exact hl)]
    simp only [Mach.persistDone, hw, h, if_false, rowOutcome]
    rfl

/-! ### What follows for the aux channels and the ports -/

/-- The rest of a write's end: no write is in flight, and both ports' PERSIST stands; the aux channels change where their configurations
do. -/
theorem Mach.writeEnds {m n : Mach} {as : List Nat} (old : Nat → AuxCfg) (hc : m.canonical = true) (hn : m.noClear)
    (h : m.Edits n [.regs, .nv] as) (hon : m.on 5 = true) (hw : n.nv.write = none)
    (hp : ∀ p, (m.port p).executing = none ∧ (m.port p).held = []) {t : Mach}
    (ht : (((n.auxChanges old).intBoth 1).resumeWrites .a).resumeWrites .b = t) :
    t.busy = false ∧ t.nv = n.nv ∧ (∀ x, (∀ p, x ≠ intsrc p) → t.reg x = n.reg x) ∧ (∀ p, t.flag (intsrc p) 1 = true) ∧
      m.changesOnly t [.regs, .pa, .pb, .nv, .aux] ∧ m.keepsRegs t (as ++ [intsrc .a, intsrc .b]) ∧
      ((∀ k < 8, old k = n.auxRegs k) → m.aux.asserted = false → t.aux = m.aux) := by
  have hnk : n.Edits (n.auxChanges old) [.aux] [] :=
    (Mach.Edits.refl h.noClear).other (Mach.auxChanges_within n old (n.within_refl [.aux]) rfl) rfl
  have hkt : (n.auxChanges old).Edits ((n.auxChanges old).intBoth 1) [.regs, .pa, .pb] [intsrc .a, intsrc .b] :=
    (Mach.Edits.refl hnk.noClear).intBoth 1 (fun p => by cases p <;> simp) rfl
  have hmk : m.Edits (n.auxChanges old) [.regs, .nv, .aux] as :=
    ((Mach.Edits.refl hn).trans h rfl (by simp)).trans hnk rfl rfl
  have hmt : m.Edits ((n.auxChanges old).intBoth 1) [.regs, .pa, .pb, .nv, .aux] (as ++ [intsrc .a, intsrc .b]) :=
    ((Mach.Edits.refl hn).trans hmk rfl (by simpa using fun x hx => Or.inl hx)).trans hkt rfl (by simp)
  have hport : ∀ p, (n.auxChanges old).port p = m.port p := fun p =>
    Mach.port_of_agrees (hmk.agrees (x := portPart p) (by cases p <;> rfl))
  have hexec : ∀ p, (((n.auxChanges old).intBoth 1).port p).executing = none := fun p => by
    rw [Mach.intBoth_kept 1 hnk.noClear (f := PortState.executing) (fun _ _ _ => rfl), hport]
    exact (hp p).1
  have hheld : ∀ p, (((n.auxChanges old).intBoth 1).port p).held = [] := fun p => by
    rw [Mach.intBoth_kept 1 hnk.noClear (f := PortState.held) (fun _ _ _ => rfl), hport]
    exact (hp p).2
  have hnv : ((n.auxChanges old).intBoth 1).nv = n.nv := (hkt.agrees (x := .nv) rfl).trans (hnk.agrees (x := .nv) rfl)
  have hon' : (n.auxChanges old).on 5 = true :=
    (congrArg (fun c : Clocks => decide (c.dom.d5 = .on)) (hmk.agrees (x := .clk) rfl)).trans hon
  have hres : (((n.auxChanges old).intBoth 1).resumeWrites .a).resumeWrites .b = (n.auxChanges old).intBoth 1 := by
    have hstay : ∀ p, ((n.auxChanges old).intBoth 1).resumeWrites p = (n.auxChanges old).intBoth 1 := fun p => by
      simp only [Mach.resumeWrites, hexec p]
    rw [hstay, hstay]
  obtain rfl := hres.symm.trans ht
  refine ⟨?_, hnv, fun x hx => ?_, fun p => Mach.intBoth_flag (hmk.canonical hc) hon' (by decide) p, hmt.within.1, hmt.keepsRegs,
    fun hold ha => ?_⟩
  · simp [Mach.busy, Mach.heldPersist, hheld, hnv, hw]
  · rw [hkt.keepsRegs x (by simp [hx]), hnk.keepsRegs x (by simp)]
  · have hax : n.aux = m.aux := h.agrees (x := .aux) rfl
    have hsame : n.auxChanges old = n :=
      Mach.auxChanges_same (fun k hk => (hold k hk).trans (Mach.auxEff_idle hw k).symm) (by rw [hax]; exact ha)
    rw [hsame] at hkt ⊢
    exact (hkt.agrees (x := .aux) rfl).trans hax

/-- `PST_LAST` shows a write that has failed, and its register its old P bits. -/
theorem Mach.rowFailed_reg {m : Mach} {w : PWrite} (hc : m.canonical = true) (hn : m.noClear) (h8 : w.addr ≠ 0x3808)
    (hC : w.addr ≠ 0x380C) : (m.rowFailed w).reg 0x380C = word (3 * 2 ^ 16 + w.addr) ∧
      (m.rowFailed w).reg w.addr = (m.reg w.addr &&& ~~~persistMask w.addr) ||| (w.old &&& persistMask w.addr) := by
  have h1 : m.Edits (m.freed.putPreg (m.entryFailed w)) [.regs, .nv] [] := Mach.freed_edits hn rfl
  have h2 : m.Edits ((m.freed.putPreg (m.entryFailed w)).persistBack w) [.regs, .nv] [w.addr] :=
    ((Mach.Edits.refl hn).trans h1 rfl rfl).setReg _ (by simp) rfl
  obtain ⟨-, h3⟩ := Mach.sqEvent_noClear 0x3808 (bitMask 3) h2.noClear
  have hc3 : (((m.freed.putPreg (m.entryFailed w)).persistBack w).sqBit 0x3808 3).canonical = true :=
    (Mach.sqEvent_within _ 0x3808 _ h2.within rfl).2.1 hc
  constructor
  · exact Mach.reg_setReg_self _ _ _ hc3
  · unfold Mach.rowFailed Mach.pstLast
    rw [Mach.reg_setReg_ne _ _ hC]
    refine (h3 _ (by simpa using h8)).trans ?_
    unfold Mach.persistBack
    rw [Mach.reg_setReg_self _ _ _ (h1.canonical hc), h1.keepsRegs _ (by simp)]

/-- No INTSRC has a P field. -/
theorem ne_intsrc_of_persistMask {a : Nat} (h : persistMask a ≠ 0) (p : Port) : a ≠ intsrc p := by
  rintro rfl
  cases p <;> exact h (by decide)

/-- Settles O13: the row of the write by `Mach.persistDone_row`, the rest of its end by `Mach.writeEnds`. -/
theorem persistentWritesEnd : Obligations.PersistentWritesEnd := by
  intro s w hc hw h30 h38 h3C _ hlead hmask hports hon hn hcal
  have hold : ∀ k < 8, s.m.auxEff k = s.m.auxRegs k := fun k hk => Mach.auxEff_posted hw hlead hk
  obtain ⟨hgood, hfail⟩ := Mach.persistDone_row hw h30 hcal hn
  have hstored : ∀ {t : Mach} (r : PReg), r.addr = w.addr → t.nv = (s.m.freed.putPreg r).nv → t.preg w.addr = some r := by
    intro t r hr ht
    rw [Mach.preg_congr ht, ← hr]
    exact Mach.preg_putPreg _ r
  constructor
  · obtain ⟨t, ht⟩ : ∃ t, ((((s.m.rowWritten w).auxChanges s.m.auxEff).intBoth 1).resumeWrites .a).resumeWrites .b = t := ⟨_, rfl⟩
    have hexec : exec (.persistWriteDone .good) s = .next ⟨t, s.pending⟩ := by rw [← ht, ← hgood]; rfl
    have he := Mach.rowWritten_edits w hn
    have hnv := Mach.rowWritten_nv s.m w
    obtain ⟨hbusy, htnv, -, hflag, hparts, hregs, haux⟩ :=
      Mach.writeEnds s.m.auxEff hc hn he hon (by rw [hnv]; rfl) hports ht
    refine ⟨⟨t, s.pending⟩, hexec, rfl, hbusy,
      ⟨s.m.entryWritten w, hstored _ (s.m.pregOr_addr w.addr) (htnv.trans hnv), rfl, ?_⟩, hflag, hparts,
      haux fun k hk => ?_, hregs⟩
    · exact congrArg (· + 1) (s.m.pregOr_count w.addr)
    · exact (hold k hk).trans (Mach.auxRegs_congr (fun a h1 h2 => he.keepsRegs a (by simp; omega)) hk).symm
  · obtain ⟨t, ht⟩ : ∃ t, ((((s.m.rowFailed w).auxChanges s.m.auxEff).intBoth 1).resumeWrites .a).resumeWrites .b = t := ⟨_, rfl⟩
    have hexec : exec (.persistWriteDone .failedAgain) s = .next ⟨t, s.pending⟩ := by rw [← ht, ← hfail]; rfl
    have he := Mach.rowFailed_edits w hn
    have hnv := Mach.rowFailed_nv s.m w
    obtain ⟨hreg, hback⟩ := Mach.rowFailed_reg hc hn h38 h3C
    obtain ⟨hbusy, htnv, hkept, hflag, hparts, hregs, haux⟩ :=
      Mach.writeEnds s.m.auxEff hc hn he hon (by rw [hnv]; rfl) hports ht
    refine ⟨⟨t, s.pending⟩, hexec, rfl, hbusy, ?_,
      (hkept _ (ne_intsrc_of_persistMask hmask)).trans hback, (hkept _ fun p => by cases p <;> decide).trans hreg, hflag, hparts,
      fun ha hplace => haux (fun k hk => ?_) ha, hregs⟩
    · have hdead := hstored (s.m.entryFailed w) (s.m.pregOr_addr w.addr) (htnv.trans hnv)
      simp only [Mach.worn, hdead, Mach.entryFailed, Bool.true_or]
    · exact (hold k hk).trans (Mach.auxRegs_congr (fun a h1 h2 => he.keepsRegs a (by simp; omega)) hk).symm

end Sys2Proof.Machine
end

section
/-! SUPPORT. A REG_READ that runs from the index register of a window onto its data register (R136, R140, R141). -/

namespace Sys2Proof.Machine

/-- A clocked REG_READ of two words that runs to its last bit, with a turnaround of 1 µs. -/
def readOfTwo : FrameEnv := ⟨0, 0, 0, false, 112, 112, 1000, false, 0, none⟩

/-- At reset the frame reaches port A whole, and runs out. -/
theorem readOfTwo_arrives : Mach.reset.arrives .a readOfTwo (0x80 :: addrBytes 0x2300 ++ [2]) ∧
    Mach.reset.runsOut .a readOfTwo (0x80 :: addrBytes 0x2300 ++ [2]) (1 + 4 * countOf 2) :=
  ⟨⟨⟨by decide, by decide, by decide, by decide, by decide⟩, by decide, by decide⟩, by decide, by decide⟩

/-- Its second word is read through the data register of the event program, whose index moves on. -/
theorem readOfTwo_steps : (Mach.reset.regReadFrame .a readOfTwo 0x2300 2).reg 0x2300 = 1 := by decide

/-- Refutes O14: "outside the windows" is asked of the first address alone. At reset a whole REG_READ of two words at 0x2300, the index
of the event program, runs onto the data register 0x2304 and moves the index on, so that a register changes. -/
theorem not_registerReadFrame : ¬ Obligations.RegisterReadFrame := by
  intro h
  obtain ⟨harr, hrun⟩ := readOfTwo_arrives
  obtain ⟨t, ht, -, -, -, hkeep⟩ := (h ⟨Mach.reset, []⟩ .a readOfTwo 0x2300 2 Mach.reset_canonical harr hrun).1
    (by decide) (by decide) (by decide) (.inr (by decide)) (by decide)
  have htm : t.m = Mach.reset.regReadFrame .a readOfTwo 0x2300 2 := by
    injection ht with ht
    rw [← ht]
  have h1 := hkeep 0x2300 (by simp)
  rw [htm, readOfTwo_steps] at h1
  exact absurd h1 (by decide)

end Sys2Proof.Machine
end

section
/-! SUPPORT. REG_WRITE (R137, R165, R166, R169): a run of words over registers that only store their fields, and the framing of a whole
write frame. -/

namespace Sys2Proof.Machine

/-! ### A run of words -/

/-- A word that a plain register takes at its place of a run. -/
def Mach.plainWord (m : Mach) (k : AccessKind) (a : Nat) (w : Word) : Prop :=
  a ∈ plainRegs ∧ ∃ d, regDef a = some d ∧ d.inRange (d.written k (m.reg a) w) = true

/-- Every word of a run over plain registers is stored. -/
theorem Mach.writeRun_plain (ag : Agent) (k : AccessKind) (last : Nat) (ws : List Word) {m : Mach} {a : Nat} (hc : m.canonical = true)
    (h : ∀ i w, ws[i]? = some w → m.plainWord k (a + 4 * i) w) (hl : ∀ i < ws.length, a + 4 * i ≤ last) :
    ∃ n, m.writeRun ag k false last a ws = (none, false, n) ∧ (∀ x, x ≠ .regs → m.agrees n x) ∧
      (∀ i w d, ws[i]? = some w → regDef (a + 4 * i) = some d → n.reg (a + 4 * i) = d.written k (m.reg (a + 4 * i)) w) ∧
      m.keepsRegs n ((List.range ws.length).map (fun i => a + 4 * i)) := by
  induction ws generalizing m a with
  | nil => exact ⟨m, rfl, fun x _ => m.agrees_refl x, fun i w d hw => by simp at hw, fun _ _ => rfl⟩
  | cons w ws ih =>
    obtain ⟨hmem, d, hd, hr⟩ : m.plainWord k a w := h 0 w rfl
    have hb : m.busWrite ag k a w = (0, m.setReg a (d.written k (m.reg a) w)) := (m.busWrite_plain ag k w hmem hd).trans (if_pos hr)
    have hnext : ∀ i, a + 4 * (i + 1) = a + 4 + 4 * i := fun i => by omega
    have hreg : ∀ i, (m.setReg a (d.written k (m.reg a) w)).reg (a + 4 + 4 * i) = m.reg (a + 4 + 4 * i) := fun i =>
      Mach.reg_setReg_ne _ _ (by omega)
    obtain ⟨n, hrun, hparts, hwords, hkeep⟩ := ih (m := m.setReg a (d.written k (m.reg a) w)) (a := a + 4)
      (Mach.setReg_canonical a _ hc)
      (fun i v hv => by
        have := h (i + 1) v hv
        rw [hnext] at this
        simpa only [Mach.plainWord, hreg] using this)
      (fun i hi => by have := hl (i + 1) (by simpa using hi); omega)
    refine ⟨n, ?_, fun x hx => Mach.agrees_trans (m.setReg_agrees a _ hx) (hparts x hx), fun i v e hv he => ?_, fun x hx => ?_⟩
    · have h0 : a ≤ last := by have := hl 0 (by simp); omega
      simp [Mach.writeRun, h0, hb, hrun]
    · cases i with
      | zero =>
        obtain rfl : w = v := by simpa using hv
        obtain rfl : d = e := Option.some.inj (hd.symm.trans he)
        exact (hkeep a fun hx => by simp at hx; omega).trans (Mach.reg_setReg_self m a _ hc)
      | succ i =>
        rw [hnext] at he ⊢
        rw [hwords i v e (by simpa using hv) he, hreg]
    · have hxa : x ≠ a ∧ x ∉ (List.range ws.length).map (fun i => a + 4 + 4 * i) := by
        refine ⟨fun e => hx ?_, fun hm => hx ?_⟩
        · exact List.mem_map.mpr ⟨0, by simp, by omega⟩
        · obtain ⟨i, hi, hix⟩ := List.mem_map.mp hm
          exact List.mem_map.mpr ⟨i + 1, by simpa using hi, by omega⟩
      rw [hkeep x hxa.2, Mach.reg_setReg_ne _ _ hxa.1]

/-- A run over plain registers stays in its block. -/
theorem plainRegs_lastOf : ∀ a ∈ plainRegs, lastOf (a + 4) = lastOf a := by decide

theorem plainRun_lastOf {a n : Nat} (h : ∀ i < n, a + 4 * i ∈ plainRegs) : ∀ i < n, a + 4 * i ≤ lastOf a := by
  have hsame : ∀ i < n, lastOf (a + 4 * i) = lastOf a := fun i hi => by
    induction i with
    | zero => rfl
    | succ i ih =>
      rw [show a + 4 * (i + 1) = a + 4 * i + 4 by omega, plainRegs_lastOf _ (h i (by omega)), ih (by omega)]
  exact fun i hi => hsame i hi ▸ plainRegs_le (h i hi)

/-! ### The framing -/

/-- The frame of a write whose bits are those of its head, its words and its CRC. -/
def Mach.wholeWrite (m : Mach) (p : Port) (e : FrameEnv) (h : List Byte) (n : Nat) : Prop :=
  8 * ((m.headBytes p e h).length + 4 * n + (m.crcOn p).toNat) = m.bitsOf p e

theorem Mach.writeCut_whole {m : Mach} {p : Port} {e : FrameEnv} {h : List Byte} {n : Nat} {words : List Word}
    (hb : m.wholeWrite p e h n) (hw : words.length = n) : m.writeCut p e h n words = false := by
  unfold Mach.wholeWrite at hb
  simp only [Mach.writeCut, ← hb, hw]
  rw [decide_eq_false (by omega), decide_eq_false (by omega)]
  simp

theorem Mach.framedWords_whole {m : Mach} {p : Port} {e : FrameEnv} {h : List Byte} {n : Nat} {words : List Word}
    (hb : m.wholeWrite p e h n) (hw : words.length = n) (hcrc : m.crcOn p = true → e.crc = crc8 (m.headBytes p e h ++ wordsBytes words)) :
    m.framedWords p e h n words = (0, words) := by
  unfold Mach.wholeWrite at hb
  have htake : words.take n = words := List.take_of_length_le hw.le
  unfold Mach.framedWords
  cases hon : m.crcOn p with
  | true =>
    rw [hon, Bool.toNat_true] at hb
    have : ¬ m.bitsOf p e < 8 * (m.headBytes p e h).length + 32 * n + 8 := by omega
    simp [htake, hw, this, hcrc hon]
  | false =>
    rw [hon, Bool.toNat_false] at hb
    have hk : (m.bitsOf p e - 8 * (m.headBytes p e h).length) / 32 = n := by omega
    simp [htake, hw, hk]

theorem Mach.framedWords_badCrc {m : Mach} {p : Port} {e : FrameEnv} {h : List Byte} {n : Nat} {words : List Word}
    (hb : m.wholeWrite p e h n) (hw : words.length = n) (hon : m.crcOn p = true)
    (hcrc : e.crc ≠ crc8 (m.headBytes p e h ++ wordsBytes words)) : m.framedWords p e h n words = (11, []) := by
  unfold Mach.wholeWrite at hb
  rw [hon, Bool.toNat_true] at hb
  have hlong : ¬ m.bitsOf p e < 8 * (m.headBytes p e h).length + 32 * n + 8 := by omega
  have htake : words.take n = words := List.take_of_length_le hw.le
  simp [Mach.framedWords, hon, htake, hw, hlong, hcrc]

theorem countOf_pos (c : Byte) : 0 < countOf c := by
  unfold countOf
  split
  · decide
  · next h => exact Nat.pos_of_ne_zero fun h0 => h (BitVec.eq_of_toNat_eq h0)

/-- A whole REG_WRITE that its header lets through stores its words over plain registers. -/
theorem Mach.regWriteFrame_plain {m : Mach} {p : Port} {e : FrameEnv} {addr : BitVec 16} {count : Byte} {words : List Word}
    (hc : m.canonical = true) (hl : m.listens p e.since e.selHigh e.abyte) (hw : words.length = countOf count)
    (hb : m.wholeWrite p e (0x81 :: addrBytes addr ++ [count]) (countOf count))
    (hh : m.regHeader (.port p) true addr.toNat (countOf count) = 0)
    (hcrc : m.crcOn p = true → e.crc = crc8 (m.headBytes p e (0x81 :: addrBytes addr ++ [count]) ++ wordsBytes words))
    (hg : m.isGated (blockOf (addr.toNat % 0x4000)) = false)
    (h : ∀ i w, words[i]? = some w → m.plainWord (kindOf addr.toNat) (addr.toNat % 0x4000 + 4 * i) w) :
    ∃ n, m.regWriteFrame p e addr count words = n.settled (.port p) ∧ (∀ x, x ≠ .regs → m.agrees n x) ∧
      (∀ i w d, words[i]? = some w → regDef (addr.toNat % 0x4000 + 4 * i) = some d → n.reg (addr.toNat % 0x4000 + 4 * i) =
        d.written (kindOf addr.toNat) (m.reg (addr.toNat % 0x4000 + 4 * i)) w) ∧
      m.keepsRegs n ((List.range (countOf count)).map (fun i => addr.toNat % 0x4000 + 4 * i)) := by
  have hplain : ∀ i < words.length, addr.toNat % 0x4000 + 4 * i ∈ plainRegs := fun i hi =>
    (h i words[i] (List.getElem?_eq_getElem hi)).1
  have hwin : windowOf (addr.toNat % 0x4000) = none := (plainRegs_place _ (hplain 0 (by rw [hw]; exact countOf_pos count))).2.2.1
  obtain ⟨n, hrun, hparts, hwords, hkeep⟩ := Mach.writeRun_plain (m := m.touch (blockOf (addr.toNat % 0x4000))) (.port p)
    (kindOf addr.toNat) (lastOf (addr.toNat % 0x4000)) words hc h (plainRun_lastOf hplain)
  refine ⟨n, ?_, fun x hx => Mach.agrees_trans (m.touch_agrees _ hx) (hparts x hx), hwords, by rwa [hw] at hkeep⟩
  have hheld := hl.2.2.2.2
  simp only [Mach.regWriteFrame, takesFrame_ok m p e.since e.selHigh e.abyte true hl, Bool.not_true, Bool.false_eq_true, if_false,
    updPort_held_nil m p hheld, Mach.writeCut_whole hb hw, Mach.framedWords_whole hb hw hcrc, hh, ne_eq, not_true_eq_false,
    Mach.portWrite, hw, hg, Mach.regApply, hwin, Option.isSome_none, hrun, runCode, Mach.noteAccess, if_true, Mach.settled]

/-- A whole REG_WRITE whose CRC is wrong. -/
theorem Mach.regWriteFrame_badCrc {m : Mach} {p : Port} {e : FrameEnv} {addr : BitVec 16} {count : Byte} {words : List Word}
    (hl : m.listens p e.since e.selHigh e.abyte) (hw : words.length = countOf count)
    (hb : m.wholeWrite p e (0x81 :: addrBytes addr ++ [count]) (countOf count)) (hon : m.crcOn p = true)
    (hcrc : e.crc ≠ crc8 (m.headBytes p e (0x81 :: addrBytes addr ++ [count]) ++ wordsBytes words)) :
    m.regWriteFrame p e addr count words =
      ((m.crcErr p).setReg (accLast p) (word (addr.toNat * 2 ^ 16 + 11))).frameDone p 11 := by
  have hheld := hl.2.2.2.2
  simp only [Mach.regWriteFrame, takesFrame_ok m p e.since e.selHigh e.abyte true hl, Bool.not_true, Bool.false_eq_true, if_false,
    updPort_held_nil m p hheld, Mach.writeCut_whole hb hw, Mach.framedWords_badCrc hb hw hon hcrc,
    Mach.noteAccess_port _ p addr.toNat (show 11 ≠ 0 by decide)]

/-- What a frame with a wrong CRC counts: in `x_CRCERR`, and in `x_INTSRC` as FRAMEERR (R165, R211). -/
theorem Mach.crcErr_effect {m : Mach} {p : Port} (hc : m.canonical = true) (hn : m.noClear) (hon : m.on 5 = true) :
    m.Edits (m.crcErr p) [.regs, .pa, .pb] [portBase p + 0x1C, intsrc p] ∧ m.changesOnly (m.crcErr p) [.regs, portPart p] ∧
      (m.crcErr p).flag (intsrc p) 3 = true ∧ ((m.crcErr p).port p).wcnt = (m.port p).wcnt := by
  have hcount : m.Edits (m.count (portBase p + 0x1C)) [.regs, .pa, .pb] [portBase p + 0x1C, intsrc p] :=
    (Mach.Edits.refl hn).count (by simp) rfl
  have hparts := (count_frame m (portBase p + 0x1C) hn).1
  have hport : (m.count (portBase p + 0x1C)).port p = m.port p := Mach.port_of_agrees (hparts _ (by cases p <;> simp [portPart]))
  have hon' : (m.count (portBase p + 0x1C)).on 5 = true :=
    (congrArg (fun c : Clocks => decide (c.dom.d5 = .on)) (hparts .clk (by simp))).trans hon
  refine ⟨hcount.intBit 3 (by simp) rfl, fun x hx => ?_, (Mach.intBit_latched p (hcount.canonical hc) hon' (by decide)).2.2, ?_⟩
  · simp only [List.mem_cons, List.not_mem_nil, or_false, not_or] at hx
    exact Mach.agrees_trans (hparts x (by simpa using hx.1)) ((intEvent_frame _ p _ hcount.noClear).1 x (by simpa using hx))
  · exact (Mach.intEvent_kept p _ hcount.noClear (f := PortState.wcnt) (fun _ _ _ => rfl) p).trans (congrArg PortState.wcnt hport)

/-- Settles O15: the words by `Mach.regWriteFrame_plain`, the wrong CRC by `Mach.regWriteFrame_badCrc`. -/
theorem registerWriteFrame : Obligations.RegisterWriteFrame := by
  intro s p e addr count words hc hl hw hb
  refine ⟨fun hh hcrc hg h => ?_, fun hon hcrc hn => ?_⟩
  · obtain ⟨n, hn, hparts, hwords, hkeep⟩ := Mach.regWriteFrame_plain hc hl hw hb hh hcrc hg h
    have hclk : n.clk = s.m.clk := hparts .clk (by decide)
    refine ⟨⟨_, s.pending⟩, congrArg (goOn s) hn, rfl, fun i w d hi hd => (settled_reg n (.port p) _).trans (hwords i w d hi hd), ?_⟩
    exact settled_wroteOnly s.m n (.port p) [] _ (fun x hx => hparts x (by simpa using hx)) (hparts .pa (by decide))
      (hparts .pb (by decide)) (by rw [hclk]) hkeep
  · have h5 : s.m.on 5 = true := by
      have := hl.1
      simp only [Mach.portUp, Bool.and_eq_true] at this
      exact this.1.1.2
    obtain ⟨hed, hparts, hflag, hcnt⟩ := Mach.crcErr_effect (p := p) hc hn h5
    refine ⟨⟨_, s.pending⟩, congrArg (goOn s) (Mach.regWriteFrame_badCrc hl hw hb hon hcrc), rfl, ?_, ?_, ?_, ?_, fun x hx => ?_,
      fun x hx => ?_⟩
    · exact congrArg PortState.last (Mach.frameDone_port _ p 11)
    · refine (congrArg PortState.wcnt (Mach.frameDone_port _ p 11)).trans ?_
      simp only [Mach.framed, Mach.setReg_port, hcnt]
    · unfold Mach.flag
      rw [Mach.frameDone_reg, Mach.reg_setReg_ne _ _ (intsrc_ne_accLast p p)]
      exact hflag
    · rw [Mach.frameDone_reg, Mach.reg_setReg_self _ _ _ (hed.canonical hc)]
    · have hx1 : x ≠ .regs := fun h => hx (by simp [h])
      exact Mach.agrees_trans (hparts x hx) (Mach.agrees_trans (Mach.setReg_agrees _ _ _ hx1)
        (Mach.frameDone_agrees _ p 11 x fun h => hx (List.mem_cons_of_mem _ h)))
    · simp only [List.mem_cons, List.not_mem_nil, or_false, not_or] at hx
      rw [Mach.frameDone_reg, Mach.reg_setReg_ne _ _ hx.1, hed.keepsRegs x (by simpa using hx.2)]

end Sys2Proof.Machine
end

section
/-! SUPPORT. The guard path's registers and an acknowledgment in TRIP (R124, R487, R494 to R501): direct writes to unlocked guard registers,
arming, and a period in which both chains are alike. -/

namespace Sys2Proof.Machine

/-! ### Guard registers (R124, R494) -/

/-- The registers whose fields a lock holds. -/
def lockRegs : List Nat := [0x2C00, 0x2C04, 0x2C08, 0x2C0C]

theorem lockRegs_place : ∀ a ∈ lockRegs, a < 0x4000 ∧ a ≤ lastOf a ∧ windowOf a = none ∧ isTxd a = false ∧ isIndex a = false := by decide

theorem lockRegs_fields : ∀ a ∈ lockRegs, ∀ d ∈ regDef a, d.cls = .control ∧ d.go = 0 ∧ d.pp = 0 := by decide

theorem Mach.regRefuse_lockRegs (m : Mach) (ag : Agent) {a : Nat} (old new go : Word) (h : a ∈ lockRegs) :
    m.regRefuse ag a old new go = 0 := by
  fin_cases h <;> rfl

theorem Mach.regDone_lockRegs (m : Mach) (ag : Agent) {a : Nat} (old new go : Word) (h : a ∈ lockRegs) :
    m.regDone ag a old new go = (0, (m.setReg a new).doneGuard a go) := by
  fin_cases h <;> rfl

/-- A direct word in range is stored in an unlocked guard register, which it locks (R124); `GRD_LOCK` takes no 0 (R494). -/
theorem Mach.busWrite_unlocked (m : Mach) (ag : Agent) {a : Nat} {d : RegDef} {w : Word} (h : a ∈ lockRegs) (hd : regDef a = some d)
    (harm : a = 0x2C0C → bitAt w 0 = true) (hun : m.regs.locked.contains a = false)
    (hr : d.inRange (d.written .direct (m.reg a) w) = true) (hb : m.rangeBad a (d.written .direct (m.reg a) w) = false) :
    m.busWrite ag .direct a w = (0, (m.setReg a (d.written .direct (m.reg a) w)).doneGuard a 0) := by
  obtain ⟨-, -, hw, ht, hi⟩ := lockRegs_place a h
  obtain ⟨hcls, hgo, hpp⟩ := lockRegs_fields a h d hd
  have hz : (a = 0x2C0C && !bitAt w 0) = false := by
    by_cases ha : a = 0x2C0C
    · simp [harm ha]
    · simp [ha]
  have hand : ∀ x : Word, x &&& 0 = 0 := fun _ => BitVec.and_zero
  have hn : m.noteAbsorbed ag a 0 = m := if_pos rfl
  simp only [Mach.busWrite, hw, hd, hcls]
  unfold Mach.controlWrite
  simp only [ht, hi, Bool.false_eq_true, if_false, hz, hr, hb, hun, hpp, hgo, hand, hn, Bool.not_true, Bool.or_false, Bool.and_false,
    ne_eq, not_true_eq_false, m.regRefuse_lockRegs ag _ _ _ h, m.regDone_lockRegs ag _ _ _ h]

/-! ### Arming (R487) -/

/-- A guard path that has entered ARMING at `t` with these thresholds. -/
def Guard.arming (g : Guard) (t imp osp : Nat) (z : Bool) : Guard :=
  let fresh := fun c : GrdChain => { c with driven := false, imp := 0, osp := 0, impThr := imp, ospThr := osp }
  { g with st := .arming, armAt := t, periods := 0, a := fresh g.a, b := fresh g.b, armImp := none, armOsp := none, zrange := z }

/-- What arming waits for besides its latch (R487). -/
def Mach.armable (m : Mach) : Prop :=
  m.on 1 = true ∧ m.clk.mode = .run ∧ m.clk.start = none ∧ m.leaving = false ∧ m.testing 0 = false ∧ m.grdReady = true

/-- A path that is OFF, its pins released, enters ARMING and takes its copies of the thresholds. -/
theorem Mach.grdTryArm_off {m : Mach} (hm : m.armable) (hst : m.grd.st = .off) (harm : m.flag 0x2C0C 0 = true)
    (ha : m.grd.a.driven = false) (hb : m.grd.b.driven = false) :
    m.grdTryArm = { m with grd := m.grd.arming m.ts (m.grdImpThr 0) (m.grdOspThr 0) (m.flag 0x0C28 24) } := by
  obtain ⟨hon, hmode, hstart, hleave, htest, hready⟩ := hm
  have henter : m.grdEnter .arming = { m with grd := { m.grd with
      st := .arming, a := { m.grd.a with driven := false }, b := { m.grd.b with driven := false } } } := by
    simp [Mach.grdEnter, Mach.grdDrive, ha, hb]
  unfold Mach.grdTryArm
  rw [henter]
  simp only [hst, harm, hon, hmode, hstart, hleave, htest, hready, Option.isNone_none, decide_true, Bool.not_false, Bool.and_true, if_true]
  rfl

/-- All four registers locked. -/
def Mach.guardLocked (m : Mach) : Mach := { m with regs := { m.regs with locked := lockRegs } }

theorem Mach.lockAll (m : Mach) (h : m.regs.locked = []) : lockRegs.foldl Mach.lockReg m = m.guardLocked := by
  simp [lockRegs, Mach.lockReg, Mach.guardLocked, h]

/-! ### A period of two sound chains (R480 to R491) -/

/-- The comparison of a test vector above its threshold says so, that of one below does not. -/
theorem Mach.vectorOk_copy {m : Mach} {c : GrdChain} (himp : c.impThr = m.grdImpThr 0) (hosp : c.ospThr = m.grdOspThr 0)
    (hi : 0 < c.impThr) (ho : 0 < c.ospThr) (v : Nat) : m.vectorOk c false v = true := by
  have hplus : ∀ n : Nat, decide (n ^ 2 ≤ (n + 1) ^ 2) = true := fun n => by simpa using Nat.pow_le_pow_left (Nat.le_succ n) 2
  have hminus : ∀ n : Nat, 0 < n → decide (n ^ 2 ≤ (n - 1) ^ 2) = false := fun n hn => by
    simpa using Nat.pow_lt_pow_left (Nat.sub_lt hn Nat.one_pos) (by decide)
  unfold Mach.vectorOk
  rw [← himp, ← hosp]
  by_cases hp : v / 2 % 2 = 0 <;> by_cases hv : v % 2 = 0 <;> simp [hp, hv, hplus, hminus _ hi]
  all_goals omega

/-- Two chains alike, with sound thresholds, mismatch in nothing (R490). -/
theorem Mach.mismatch_alike {m : Mach} {c : GrdChain} (himp : c.impThr = m.grdImpThr 0) (hosp : c.ospThr = m.grdOspThr 0)
    (hi : 0 < c.impThr) (ho : 0 < c.ospThr) : m.mismatch c c sound sound = none := by
  have hvec : m.vectorsOk c sound m.ts = true := List.all_eq_true.mpr fun k _ => Mach.vectorOk_copy himp hosp hi ho _
  simp [Mach.mismatch, hvec]

/-- The path with the samples of a sound period in both its chains. -/
def Mach.sampled (m : Mach) (ins : GuardInput) : Mach :=
  { m with grd := { m.grd with lastPeriod := some m.ts, a := m.grd.a.take ins sound, b := m.grd.a.take ins sound } }

/-- A chain past a sound period: its samples, and its counts. -/
def Mach.counted (m : Mach) (ins : GuardInput) : GrdChain := m.chainCount (m.grd.a.take ins sound) sound

theorem Mach.counted_parts (m : Mach) (ins : GuardInput) : (m.counted ins).dec = decimated ins sound ∧
    (m.counted ins).impThr = m.grd.a.impThr ∧ (m.counted ins).ospThr = m.grd.a.ospThr := by
  simp [Mach.counted, Mach.chainCount, GrdChain.take, sound]

/-- The path past the comparisons of a sound period that changes no state. -/
def Mach.compared (m : Mach) (ins : GuardInput) : Mach :=
  ({ m with grd := { m.grd with lastPeriod := some m.ts, a := m.counted ins, b := m.counted ins } }).grdPeaks (decimated ins sound)

/-- A period of a path in TRIP is compared, where `n` is the path once the period has begun. -/
theorem Mach.guardPeriod_tripped {m n : Mach} {ins : GuardInput} {ua ub : GuardUpset} (hon : m.on 1 = true) (hts : m.ts % 1024 = 0)
    (hlast : m.grd.lastPeriod ≠ some m.ts) (hn : ({ m with grd := { m.grd with lastPeriod := some m.ts } } : Mach).grdTryArm = n)
    (hst : n.grd.st = .trip) : m.guardPeriod ins ua ub =
      ({ n with grd := { n.grd with a := n.grd.a.take ins ua, b := n.grd.b.take ins ub } } : Mach).grdCompare ua ub := by
  unfold Mach.guardPeriod
  rw [if_neg (by simp [hon, hts, hlast])]
  dsimp only
  rw [hn, hst]

/-- What a path compares, its samples in the chains, where it has both alike and in TRIP by impact. -/
theorem Mach.grdCompare_trip {m : Mach} {c : GrdChain} (hz : m.flag 0x0C28 24 = m.grd.zrange) (ha : m.chainCount m.grd.a sound = c)
    (hb : m.chainCount m.grd.b sound = c) (hosp : c.osp = 0) (hmis : m.mismatch c c sound sound = none) (hst : m.grd.st = .trip)
    (htrip : m.grd.tripImp = true) :
    m.grdCompare sound sound = (({ m with grd := { m.grd with a := c, b := c } } : Mach).grdPeaks c.dec).grdAckTest := by
  have hcross : ∀ (n : Mach) (imp : Option (Nat × Nat)), n.grd.st = .trip → n.grd.tripImp = true → n.grdState imp none none = n := by
    intro n imp h1 h2
    cases imp <;> simp [Mach.grdState, Mach.grdCross, Mach.grdTrip, h1, h2]
  unfold Mach.grdCompare
  rw [if_pos hz]
  extract_lets _ n o ca cb imp osp _ k
  have hca : ca = c := ha
  have hcb : cb = c := hb
  clear_value ca cb
  subst hcb hca
  have hosp' : osp = none := if_neg (by simp [hosp, o])
  have hmis' : k.mismatch ca ca sound sound = none := hmis
  rw [hosp', hmis', hcross k imp hst htrip]

/-- In TRIP by impact a sound period finds nothing new: its peaks and an acknowledgment's test are left (R496, R501). -/
theorem Mach.guardPeriod_trip {m : Mach} (ins : GuardInput) (hm : m.comparesNow) (hst : m.grd.st = .trip) (htrip : m.grd.tripImp = true) :
    m.guardPeriod ins sound sound = (m.compared ins).grdAckTest := by
  obtain ⟨hon, -, hts, hlast, hz, hosp, hab, himp, hospt, hi, ho⟩ := hm
  obtain ⟨hdec, hci, hco⟩ := m.counted_parts ins
  have harm : ({ m with grd := { m.grd with lastPeriod := some m.ts } } : Mach).grdTryArm =
      { m with grd := { m.grd with lastPeriod := some m.ts } } := by
    simp [Mach.grdTryArm, hst]
  have hnone : (m.counted ins).osp = 0 := by
    simp [Mach.counted, Mach.chainCount, hosp, persist]
  rw [Mach.guardPeriod_tripped hon hts hlast harm hst]
  dsimp only
  rw [← hab]
  refine (Mach.grdCompare_trip (m := m.sampled ins) (c := m.counted ins) hz.symm rfl rfl hnone
    (Mach.mismatch_alike (hci.trans himp) (hco.trans hospt) (by rw [hci]; exact hi) (by rw [hco]; exact ho)) hst htrip).trans ?_
  rw [hdec]
  rfl

/-! ### The test of an acknowledgment (R496, R497) -/

/-- A path past an acknowledgment that stays in TRIP. -/
theorem Mach.grdAckTest_far {m : Mach} (hack : m.grd.ack = true) (hst : m.grd.st = .trip) (htrip : m.grd.tripImp = true)
    (hfar : impAbove m.grd.a.dec (m.grdImpThr (m.fld 0x2C04 16 8)) = true) :
    m.grdAckTest = ({ m with grd := { m.grd with ack := false } } : Mach).grdStatus (bitMask 4) := by
  unfold Mach.grdAckTest
  rw [if_neg (by simp [hack])]
  extract_lets _ k hi hoff a b far
  rw [if_neg (not_not_intro hst), if_pos]
  have h1 : k.grd.tripImp = true := htrip
  have h2 : impAbove a (k.grdImpThr hi) = true := hfar
  simp [far, h1, h2]

/-- The path that an acknowledgment returns to HEALTHY: both pins low, no function tripped, its peaks at 0. -/
def Guard.returned (g : Guard) : Guard :=
  { g.driving true false false with
    st := .healthy, ack := false, a := { g.a with imp := 0, osp := 0, driven := true }, b := { g.b with imp := 0, osp := 0, driven := true }
    tripImp := false, tripOsp := false, peakImp := 0, peakOsp := 0, tpkImp := 0, tpkOsp := 0 }

theorem Mach.grdAckTest_clear {m : Mach} (hack : m.grd.ack = true) (hst : m.grd.st = .trip) (hosp : m.grd.tripOsp = false)
    (ha : impAbove m.grd.a.dec (m.grdImpThr (m.fld 0x2C04 16 8)) = false)
    (hb : impAbove m.grd.b.dec (m.grdImpThr (m.fld 0x2C04 16 8)) = false) : ∃ v,
    m.grdAckTest = (({ m with grd := m.grd.returned } : Mach).grdStatus (bitMask 3)).grdSignal 0x0803 v m.ts := by
  unfold Mach.grdAckTest
  rw [if_neg (by simp [hack])]
  extract_lets _ k hi hoff a b far value e _ n
  have hfar : far = false := by
    have h1 : impAbove a (k.grdImpThr hi) = false := ha
    have h2 : impAbove b (k.grdImpThr hi) = false := hb
    have h3 : k.grd.tripOsp = false := hosp
    simp [far, h1, h2, h3]
  rw [if_neg (not_not_intro hst), if_neg (by simp [hfar])]
  exact ⟨value, rfl⟩

/-! ### The rows -/

theorem goBit {w : Word} (h : bitAt w 0 = true) : bitAt (w &&& 1) 0 = true := by
  have h1 : bitAt 1 0 = true := by decide
  unfold bitAt at h h1 ⊢
  rw [BitVec.getLsbD_and, h, h1]
  rfl

/-- ARM written to an unlocked `GRD_LOCK` (R494). -/
theorem Mach.busWrite_arm {m : Mach} {w : Word} (ag : Agent) (hw : bitAt w 0 = true) (hl : m.regs.locked = []) :
    ∃ v, bitAt v 0 = true ∧ m.busWrite ag .direct 0x2C0C w = (0, (m.setReg 0x2C0C v).guardLocked.grdTryArm) := by
  refine ⟨(RegDef.control 0 0 0 1 0 0 []).written .direct (m.reg 0x2C0C) w, ?_, ?_⟩
  · simp only [RegDef.written, RegDef.control, aliasWord, bitAt_or]
    rw [show ((0 : Word) ||| 0 ||| 1) = 1 by decide, goBit hw, Bool.or_true]
  · refine (m.busWrite_unlocked ag (by decide) (show regDef 0x2C0C = some (RegDef.control 0 0 0 1 0 0 []) by decide) (fun _ => hw)
      (by rw [hl]; rfl) rfl rfl).trans (congrArg (Prod.mk 0) ?_)
    show (lockRegs.foldl Mach.lockReg (m.setReg 0x2C0C _)).grdTryArm = _
    rw [Mach.lockAll _ (by exact hl)]

/-- ACK written to `GRD_ACK` (R496). -/
theorem Mach.busWrite_ack {m : Mach} {w : Word} (ag : Agent) (hw : bitAt w 0 = true) : ∃ l, m.busWrite ag .direct 0x2C10 w =
    (0, { ({ m with regs := { m.regs with absorbed := l } } : Mach).setReg 0x2C10 (m.reg 0x2C10) with grd := { m.grd with ack := true } }) := by
  have hgo : goWord .direct w &&& 1 = w &&& 1 := rfl
  rw [busWrite_go m ag .direct 0x2C10 w 1 (by decide) (by decide) (by decide) (by decide) (by decide) (fun _ => rfl) rfl, hgo]
  have habs : ∃ l, m.noteAbsorbed ag 0x2C10 (m.reg 0x2C10 &&& (w &&& 1)) = { m with regs := { m.regs with absorbed := l } } := by
    unfold Mach.noteAbsorbed
    split
    · exact ⟨m.regs.absorbed, rfl⟩
    · exact ⟨_, rfl⟩
  obtain ⟨l, hl⟩ := habs
  refine ⟨l, ?_⟩
  rw [hl]
  show (0, ((({ m with regs := { m.regs with absorbed := l } } : Mach).setReg 0x2C10 (m.reg 0x2C10)).doneGuard 0x2C10 (w &&& 1))) = _
  simp only [Mach.doneGuard, if_true, goBit hw]
  rfl

/-- A path of OFF that a write of ARM has brought to ARMING: what is left of the block as it was. -/
theorem guardArm_row (s : State) (ag : Agent) (w : Word) (hc : s.m.canonical = true) (hw : bitAt w 0 = true)
    (ht : s.m.takesWrite ag .direct 0x2C0C) (hl : s.m.regs.locked = []) (hm : s.m.armable) (hst : s.m.grd.st = .off)
    (ha : s.m.grd.a.driven = false) (hb : s.m.grd.b.driven = false) : ∃ t, exec (.guardArm ag .direct w) s = .next t ∧
      t.pending = s.pending ∧ t.m.grd = s.m.grd.arming s.m.ts (s.m.grdImpThr 0) (s.m.grdOspThr 0) (s.m.flag 0x0C28 24) ∧
      t.m.flag 0x2C0C 0 = true ∧ t.m.regs.locked = lockRegs ∧ s.m.wroteOnly t.m ag [.grd] [0x2C0C] := by
  obtain ⟨v, hv, hbus⟩ := Mach.busWrite_arm (m := s.m.touch (blockOf 0x2C0C)) ag hw hl
  set n := ((s.m.touch (blockOf 0x2C0C)).setReg 0x2C0C v).guardLocked with hn
  have hreg : ∀ x, x ≠ 0x2C0C → n.reg x = s.m.reg x := fun x hx => Mach.reg_setReg_ne (s.m.touch (blockOf 0x2C0C)) v hx
  have harm : n.flag 0x2C0C 0 = true := by
    have h1 : n.reg 0x2C0C = v := Mach.reg_setReg_self (s.m.touch (blockOf 0x2C0C)) 0x2C0C v hc
    unfold Mach.flag
    rw [h1]
    exact hv
  have himp : n.grdImpThr 0 = s.m.grdImpThr 0 := by simp only [Mach.grdImpThr, Mach.fld, hreg 0x2C04 (by decide)]
  have hrange : n.flag 0x0C28 24 = s.m.flag 0x0C28 24 := by simp only [Mach.flag, hreg 0x0C28 (by decide)]
  have hosp : n.grdOspThr 0 = s.m.grdOspThr 0 := by
    simp only [Mach.grdOspThr, Mach.fld, Mach.gyrzRange, hrange, hreg 0x2C08 (by decide)]
  have htry := Mach.grdTryArm_off (m := n) hm hst harm ha hb
  rw [himp, hosp, hrange] at htry
  rw [htry] at hbus
  obtain ⟨t, he, hp, htm, hf⟩ := oneWrite_effect s ag .direct 0x2C0C w (by decide) (by decide) ht [.grd] [0x2C0C] _ hbus
    (fun x hx => by cases x <;> first | rfl | simp at hx) rfl rfl rfl (fun x hx => hreg x (by simpa using hx))
  refine ⟨t, he, hp, ?_, ?_, ?_, hf⟩
  · rw [htm]
    exact settled_agrees _ ag .grd (by decide) (by decide)
  · unfold Mach.flag
    rw [htm, settled_reg]
    exact harm
  · rw [htm]
    exact congrArg Regs.locked (settled_agrees _ ag .regs (by decide) (by decide))

theorem guardAck_row (s : State) (ag : Agent) (w : Word) (hc : s.m.canonical = true) (hw : bitAt w 0 = true)
    (ht : s.m.takesWrite ag .direct 0x2C10) : ∃ t, exec (.guardAck ag .direct w) s = .next t ∧ t.pending = s.pending ∧
      t.m.grd = { s.m.grd with ack := true } ∧ s.m.wroteOnly t.m ag [.grd] [] := by
  obtain ⟨l, hbus⟩ := Mach.busWrite_ack (m := s.m.touch (blockOf 0x2C10)) ag hw
  obtain ⟨t, he, hp, htm, hf⟩ := oneWrite_effect s ag .direct 0x2C10 w (by decide) (by decide) ht [.grd] [] _ hbus
    (fun x hx => by cases x <;> first | rfl | simp at hx) rfl rfl rfl (fun x _ => Mach.reg_setReg_same s.m 0x2C10 x hc)
  refine ⟨t, he, hp, ?_, hf⟩
  rw [htm]
  exact settled_agrees _ ag .grd (by decide) (by decide)

/-- A status event leaves every register but `GRD_STATUS`. -/
theorem Mach.grdStatus_keepsRegs {m : Mach} (mask : Word) (hn : m.noClear) : m.keepsRegs (m.grdStatus mask) [0x2C18] := by
  unfold Mach.grdStatus
  split
  · exact fun x hx => Mach.reg_setReg_ne _ _ (by simpa using hx)
  · exact (Mach.sqEvent_noClear 0x2C18 mask hn).2

/-- What a path that has changed to `g` shows with a status event and its signal (R499, R508). -/
theorem Mach.grdShown {m : Mach} {i : Nat} (g : Guard) (code : Nat) (v : Word) (ts : Nat) (hc : m.canonical = true) (h1 : m.on 1 = true)
    (h5 : m.on 5 = true) (hi : i < 24) {t : Mach} (ht : (({ m with grd := g } : Mach).grdStatus (bitMask i)).grdSignal code v ts = t) :
    (∃ p, t.grd = { g with statAt := p }) ∧ t.flag 0x2C18 i = true ∧ m.changesOnly t [.regs, .pa, .pb, .flt, .evt, .grd, .buf, .sec, .nv] := by
  have hk : m.within ({ m with grd := g } : Mach) [.regs, .pa, .pb, .flt, .evt, .grd, .buf, .sec, .nv] :=
    ⟨fun x hx => m.grd_changesOnly g x (by rintro h; simp_all), id, id⟩
  have hs : m.within (({ m with grd := g } : Mach).grdStatus (bitMask i)) [.regs, .pa, .pb, .flt, .evt, .grd, .buf, .sec, .nv] :=
    Mach.grdStatus_within _ _ hk rfl
  obtain ⟨p, hp⟩ := ({ m with grd := g } : Mach).grdStatus_grd (bitMask i)
  have hflag := Mach.grdStatus_sets (m := { m with grd := g }) hc h1 hi (bitAt_bitMask (i := i) (by omega))
  have hon : (({ m with grd := g } : Mach).grdStatus (bitMask i)).on 5 = true := by
    simpa only [Mach.on, Mach.dom, Mach.grdStatus_clk] using h5
  obtain ⟨e1, e2, -⟩ := Mach.grdSignal_effect code v ts (hs.2.1 hc) hon
  subst ht
  refine ⟨⟨p, e1.trans hp⟩, ?_, (Mach.grdSignal_within _ code v ts hs rfl).1⟩
  unfold Mach.flag at hflag ⊢
  rw [e2]
  exact hflag

/-- Settles O35: the writes by `guardArm_row` and `guardAck_row`, the acknowledgment's period by `Mach.guardPeriod_trip`. -/
theorem guardWritesAndAcknowledges : Obligations.GuardWritesAndAcknowledges := by
  refine ⟨fun s ag w hc hw => ⟨fun ht hl hon hmode hstart hleave htest hready hst ha hb => ?_, guardAck_row s ag w hc hw⟩,
    fun s ins hc hn hm hst hack htrip hosp => ?_⟩
  · obtain ⟨t, he, hp, hg, harm, hlock, hf⟩ :=
      guardArm_row s ag w hc hw ht hl ⟨hon, hmode, hstart, hleave, htest, hready⟩ hst ha hb
    refine ⟨t, he, hp, ?_, ?_, ?_, ?_, ?_, ?_, ?_, harm, hlock, hf⟩ <;> rw [hg] <;> rfl
  have hrow := Mach.guardPeriod_trip ins hm hst htrip
  obtain ⟨h1, h5, -⟩ := hm
  have hdec : (s.m.compared ins).grd.a.dec = decimated ins sound := (s.m.counted_parts ins).1
  have hdec' : (s.m.compared ins).grd.b.dec = decimated ins sound := (s.m.counted_parts ins).1
  refine ⟨fun hhys _ => ?_, fun hfar => ?_⟩
  · obtain ⟨v, htest⟩ := Mach.grdAckTest_clear (m := s.m.compared ins) hack hst hosp (by rw [hdec]; exact hhys) (by rw [hdec']; exact hhys)
    obtain ⟨t, ht⟩ : ∃ t, (({ s.m with grd := (s.m.compared ins).grd.returned } : Mach).grdStatus (bitMask 3)).grdSignal 0x0803 v
      (s.m.compared ins).ts = t := ⟨_, rfl⟩
    obtain ⟨⟨p, hg⟩, hflag, hparts⟩ := Mach.grdShown (s.m.compared ins).grd.returned 0x0803 v (s.m.compared ins).ts hc h1 h5 (by decide) ht
    refine ⟨⟨t, s.pending⟩, congrArg (goOn s) (hrow.trans (htest.trans ht)), rfl, ?_, ?_, ?_, ?_, ?_, ?_, ?_, ?_, hflag, hparts⟩ <;>
      dsimp only <;> rw [hg] <;> rfl
  · obtain ⟨t, ht⟩ : ∃ t, ({ s.m with grd := { (s.m.compared ins).grd with ack := false } } : Mach).grdStatus (bitMask 4) = t := ⟨_, rfl⟩
    have htest := Mach.grdAckTest_far (m := s.m.compared ins) hack hst htrip (by rw [hdec]; exact hfar)
    have hk : s.m.within ({ s.m with grd := { (s.m.compared ins).grd with ack := false } } : Mach) [.regs, .grd] :=
      ⟨fun x hx => s.m.grd_changesOnly _ x (by rintro h; simp_all), id, id⟩
    obtain ⟨p, hp⟩ := ({ s.m with grd := { (s.m.compared ins).grd with ack := false } } : Mach).grdStatus_grd (bitMask 4)
    have hflag := Mach.grdStatus_sets (m := { s.m with grd := { (s.m.compared ins).grd with ack := false } }) (i := 4) hc h1 (by decide)
      (bitAt_bitMask (by decide))
    have hkeep := Mach.grdStatus_keepsRegs (m := { s.m with grd := { (s.m.compared ins).grd with ack := false } }) (bitMask 4) hn
    have hparts := (Mach.grdStatus_within _ (bitMask 4) hk rfl).1
    rw [ht] at hp hflag hkeep hparts
    refine ⟨⟨t, s.pending⟩, congrArg (goOn s) (hrow.trans (htest.trans ht)), rfl, ?_, ?_, ?_, hflag, hparts, hkeep⟩ <;>
      dsimp only <;> rw [hp]
    · exact hst
    · exact htrip

end Sys2Proof.Machine
end

section
/-! SUPPORT. The line `event start 1` at port A, and the state machine that it starts (R259, R459). -/

namespace Sys2Proof.Machine

/-- The line of `event start`, when it runs, writes EVT_SMSTART with its mask (R259). -/
theorem exec_eventStart_runs {s t : State} {p : Port} {ck : Bool} {k : Nat} (h : s.m.runsNow p ck (.eventStart k))
    (ht : exec (.eventStart p) s = .next t) : t.m = (s.m.begun p (.eventStart k)).runControl p ck 0x2000 k := by
  have hrun : exec (.eventStart p) s = goOn s ((s.m.begun p (.eventStart k)).runControl p ck 0x2000 k) :=
    congrArg (goOn s) (verbRow_runs s.m p 11 _ _ h rfl rfl)
  rw [hrun, goOn] at ht
  injection ht with ht
  rw [← ht]

/-- Reset with D3 ON and the line `event start 1`, just terminated, at port A. -/
def startLine : Mach :=
  { Mach.reset with
    clk := { Mach.reset.clk with dom := { Mach.reset.clk.dom with d3 := .on } }
    pa := { Mach.reset.pa with waiting := some ⟨ascii "event start 1", false, 0⟩ } }

/-- Canonical memories are kept from reset: the line and D3 stand outside them. -/
theorem startLine_canonical : startLine.canonical = true := Mach.reset_canonical

/-- The line is due, reads as the verb with its mask, and nothing stands against it. -/
theorem startLine_runsNow : startLine.runsNow .a false (.eventStart 1) :=
  ⟨List.forall_mem_nil _, ⟨⟨ascii "event start 1", false, 0⟩, by decide +kernel, rfl⟩, by decide, by decide⟩

/-- Its reply finds room. -/
theorem startLine_fits : startLine.fits .a false [] (finalText 0) :=
  ⟨by decide, by decide +kernel, by decide +kernel⟩

/-- A machine that starts is made afresh but for its state, start address and reference: the state it would resume in is STOPPED. -/
theorem startLine_starts :
    ((startLine.begun .a (.eventStart 1)).runControl .a false 0x2000 1).sm 0 = { Sm.fresh with run := .run } := by decide +kernel

/-- Refutes O52, by its clause on `event start`: the statement has a started machine hold RUN as the state to resume in after a pause,
where the model leaves STOPPED there, as at its reset, until a pause writes it (R470). -/
theorem not_writeVerbs : ¬ Obligations.WriteVerbs := by
  intro h
  obtain ⟨-, -, -, -, -, -, hstart, -⟩ := h ⟨startLine, []⟩ .a false startLine_canonical startLine_fits rfl
  obtain ⟨t, ht, -, hsm, -⟩ := hstart 1 startLine_runsNow (by decide)
  have h0 := hsm 0 (by decide)
  rw [exec_eventStart_runs startLine_runsNow ht, startLine_starts] at h0
  exact absurd (congrArg Sm.resume h0) (by decide)

end Sys2Proof.Machine
end

section
/-! SUPPORT. A port's own part of the block (R150 to R198): changes of a port alone, the framing that they leave as it is, and frames that
arrive whole and run to their last bit. -/

namespace Sys2Proof.Machine

/-! ### Changes of a port alone -/

theorem Mach.updPort_changesOnly (m : Mach) (p : Port) (f : PortState → PortState) : m.changesOnly (m.updPort p f) [portPart p] := by
  intro x hx
  cases p <;> cases x <;> first | rfl | exact absurd (List.mem_singleton_self _) hx

theorem Mach.updPort_updPort (m : Mach) (p : Port) (f g : PortState → PortState) :
    (m.updPort p f).updPort p g = m.updPort p (fun s => g (f s)) := by cases p <;> rfl

theorem Mach.updPort_congr {m : Mach} {p : Port} {f g : PortState → PortState} (h : f (m.port p) = g (m.port p)) :
    m.updPort p f = m.updPort p g := by
  cases p
  · exact congrArg (fun s : PortState => { m with pa := s }) h
  · exact congrArg (fun s : PortState => { m with pb := s }) h

theorem Mach.updPort_fixed {m : Mach} {p : Port} {f : PortState → PortState} (h : f (m.port p) = m.port p) : m.updPort p f = m :=
  (Mach.updPort_congr (g := id) h).trans (by cases p <;> rfl)

theorem Mach.updPort_canonical {m : Mach} (p : Port) (f : PortState → PortState) (h : m.canonical = true) :
    (m.updPort p f).canonical = true := (Mach.updPort_within p f (m.within_refl [.pa, .pb]) rfl).2.1 h

theorem Mach.updPort_noClear {m : Mach} (p : Port) (f : PortState → PortState) (h : m.noClear) : (m.updPort p f).noClear := by
  unfold Mach.noClear
  rw [Mach.updPort_regs, Mach.updPort_clk]
  exact h

theorem Mach.on_congr {m n : Mach} (h : n.clk = m.clk) (k : Nat) : n.on k = m.on k := by
  unfold Mach.on Mach.dom
  rw [h]

theorem Mach.updPort_on {m : Mach} (p : Port) (f : PortState → PortState) (k : Nat) : (m.updPort p f).on k = m.on k :=
  Mach.on_congr (m.updPort_clk p f) k

/-- A port that has no command executing has no lines to put into its reply buffer. -/
theorem Mach.pump_idle {m : Mach} {p : Port} (h : (m.port p).executing = none) : m.pump p = m := by
  simp only [Mach.pump, h]

/-- A port that answers has D5 ON. -/
theorem Mach.on_of_portUp {m : Mach} {p : Port} (h : m.portUp p = true) : m.on 5 = true := by
  simp only [Mach.portUp, Bool.and_eq_true] at h
  exact h.1.1.2

/-- A port whose lease restarts at `now` (R204). -/
def PortState.heardAt (now : Nat) (s : PortState) : PortState := { s with leaseSince := some now, baudOff := false }

theorem Mach.leaseRestart_eq (m : Mach) (p : Port) : m.leaseRestart p = m.updPort p (PortState.heardAt m.clk.now) := rfl

theorem Mach.leaseRestart_port (m : Mach) (p : Port) : (m.leaseRestart p).port p = m.heard p := m.updPort_port p _

/-- The lease is no part of what a status byte shows (R158). -/
theorem Mach.leaseRestart_statusByte (m : Mach) (p : Port) (code : Nat) :
    (m.leaseRestart p).statusByte p code = m.statusByte p code := by cases p <;> rfl

theorem Mach.leaseRestart_statusWord (m : Mach) (p : Port) : (m.leaseRestart p).statusWord p = m.statusWord p := by cases p <;> rfl

theorem Mach.leaseRestart_streamCheck (m : Mach) (p : Port) (q : Nat) : (m.leaseRestart p).streamCheck p q = m.streamCheck p q := by
  cases p <;> rfl

/-! ### Frames that arrive -/

section
variable {m : Mach} {p : Port} {f : PortState → PortState}

/-- A change of a port that keeps its personality leaves the framing of its frames alone: the bytes of a header, its CRC, the
turnaround and the bits counted. -/
theorem Mach.updPort_framing (hf : ∀ s, (f s).async = s.async) (e : FrameEnv) (h : List Byte) :
    (m.updPort p f).headBytes p e h = m.headBytes p e h ∧ (m.updPort p f).crcOn p = m.crcOn p ∧
      (m.updPort p f).turnBits p = m.turnBits p ∧ (m.updPort p f).bitsOf p e = m.bitsOf p e ∧
      ((m.updPort p f).port p).async = (m.port p).async := by
  have ha : ((m.updPort p f).port p).async = (m.port p).async := m.updPort_async p hf p
  have hadr : (m.updPort p f).addressed p = m.addressed p := by
    cases p
    · rfl
    · exact congrArg (fun b => !b && m.flag 0x420 26) ha
  have hbus : (m.updPort p f).onBus p = m.onBus p := by
    simp only [Mach.onBus, hadr, Mach.updPort_flue]
  refine ⟨?_, ?_, ?_, ?_, ha⟩
  · simp only [Mach.headBytes, hadr]
  · simp only [Mach.crcOn, hbus, Mach.flag, Mach.updPort_reg]
  · simp only [Mach.turnBits, ha, hbus, Mach.fld, Mach.updPort_reg]
  · have hpol : (m.updPort p f).flag (portBase p) 0 = m.flag (portBase p) 0 := by simp only [Mach.flag, Mach.updPort_reg]
    unfold Mach.bitsOf
    rw [ha, hpol]

/-- A frame that runs to its last bit shows every word or byte of its part. -/
theorem Mach.leaves_runsOut {e : FrameEnv} {h : List Byte} {k skip : Nat} (hr : m.runsOut p e h (skip + k))
    (hf : ∀ s, (f s).async = s.async) : k ≤ (m.updPort p f).leaves p e h skip 8 := by
  obtain ⟨hhead, hcrc, hturn, hbits, hasync⟩ := Mach.updPort_framing (m := m) (p := p) hf e h
  obtain ⟨hlen, hcol⟩ := hr
  have hhb : (m.updPort p f).headBits p e h = m.headBits p e h := by simp only [Mach.headBits, hhead, hcrc]
  have hcol' : (m.updPort p f).collision p e h = none := by
    rw [← hcol]
    simp only [Mach.collision, hhb, hasync]
  simp only [Mach.leaves, Mach.bitsOut, hcol', Option.getD_none, hhb, hturn, hbits, hlen]
  omega

/-- A read-class frame that arrives whole and runs out: the NL4716's part, and what serving it changed of the port. -/
theorem Mach.readFrame_runsOut {e : FrameEnv} {h dev : List Byte} {zeros : Nat} {early : Mach → Mach} {serve : Mach → List Byte × Mach}
    (ha : m.arrives p e h) (hr : m.runsOut p e h dev.length) (hs : serve (m.leaseRestart p) = (dev, m.updPort p f))
    (hf : ∀ s, (f s).async = s.async) :
    m.readFrame p e h zeros early serve = m.updPort p (fun s => { f s with sdio := m.driven p e h dev }) := by
  obtain ⟨hhead, hcrc, hturn, hbits, hasync⟩ := Mach.updPort_framing (m := m) (p := p) hf e h
  obtain ⟨lhead, lcrc, lturn, lbits, -⟩ := Mach.updPort_framing (m := m) (p := p)
    (f := PortState.heardAt m.clk.now) (fun _ => rfl) e h
  have hlong : ¬ (m.leaseRestart p).bitsOf p e < (m.leaseRestart p).headBits p e h + (m.leaseRestart p).turnBits p := by
    rw [Mach.leaseRestart_eq]
    unfold Mach.headBits
    rw [lbits, lhead, lcrc, lturn, hr.1]
    unfold Mach.headBits
    omega
  simp only [Mach.readFrame, arrival_ok m p e h false ha, hlong, if_false, hs]
  rw [drive_out m _ p e h dev hr hhead hcrc hturn hbits hasync, Mach.updPort_updPort]

/-- A write-class frame without data words that arrives whole: its status is counted (R169). -/
theorem Mach.writeFrame_arrives {e : FrameEnv} {h : List Byte} {apply : Mach → Nat × Mach} {c : Nat} {n : Mach} (ha : m.arrives p e h)
    (hs : apply (m.leaseRestart p) = (c, n)) : m.writeFrame p e h apply = n.frameDone p c := by
  simp only [Mach.writeFrame, arrival_ok m p e h true ha, hs]

end

/-! ### TEXT_READ and PORT_STATUS (R173, R183) -/

/-- The part of the NL4716 in a TEXT_READ of `k` bytes: status, length, bytes and padding (R173). -/
def Mach.textPart (m : Mach) (p : Port) (k : Nat) : List Byte :=
  m.statusByte p 0 :: BitVec.ofNat 8 (min k (m.port p).reply.length) :: (m.port p).reply.take k ++
    List.replicate (k - (m.port p).reply.length) 0

theorem Mach.textPart_length (m : Mach) (p : Port) (k : Nat) : (m.textPart p k).length = 2 + k := by
  simp only [Mach.textPart, List.length_cons, List.length_append, List.length_take, List.length_replicate]
  omega

/-- What a TEXT_READ of `k` bytes leaves of its port, SDIO apart. -/
def Mach.textTaken (m : Mach) (k : Nat) (s : PortState) : PortState :=
  { s.heardAt m.clk.now with reply := s.reply.drop k, finalLeft := s.finalLeft - min k s.reply.length }

theorem Mach.takeReply_idle {m : Mach} {p : Port} (n : Nat) (h : (m.port p).executing = none) :
    m.takeReply p n = m.updPort p (fun s => { s with reply := s.reply.drop n, finalLeft := s.finalLeft - n }) :=
  Mach.pump_idle (by rw [Mach.updPort_port]; exact h)

theorem Mach.textReadFrame_runsOut {m : Mach} {p : Port} {e : FrameEnv} {count : Byte} (ha : m.arrives p e [0x83, count])
    (hr : m.runsOut p e [0x83, count] (2 + countOf count)) (hsync : (m.port p).async = false)
    (hx : (m.port p).executing = none) : m.textReadFrame p e count = m.updPort p (fun s =>
      { m.textTaken (countOf count) s with sdio := m.driven p e [0x83, count] (m.textPart p (countOf count)) }) := by
  have hleft := Mach.leaves_runsOut (f := PortState.heardAt m.clk.now) hr fun _ => rfl
  have hport := m.leaseRestart_port p
  have hclk : ¬ ((m.leaseRestart p).port p).async = true := by rw [hport]; exact Bool.eq_false_iff.mp hsync
  have hall : min (min (countOf count) (m.heard p).reply.length) ((m.leaseRestart p).leaves p e [0x83, count] 2 8) =
      min (countOf count) (m.port p).reply.length := Nat.min_eq_left ((Nat.min_le_left _ _).trans hleft)
  refine Mach.readFrame_runsOut (f := m.textTaken (countOf count)) ha (by rw [Mach.textPart_length]; exact hr) ?_ fun _ => rfl
  refine (if_neg hclk).trans (Prod.ext ?_ ?_)
  · show _ :: _ :: List.take (min _ _) _ ++ List.replicate (_ - min _ _) _ = _
    rw [Mach.leaseRestart_statusByte, hport, ← List.take_eq_take_min, ← Nat.sub_eq_sub_min]
    rfl
  · show (m.leaseRestart p).takeReply p (min (min _ ((m.leaseRestart p).port p).reply.length) _) = _
    rw [hport, hall, Mach.takeReply_idle _ (by rw [hport]; exact hx), Mach.leaseRestart_eq, Mach.updPort_updPort]
    refine Mach.updPort_congr ?_
    simp only [PortState.heardAt, Mach.textTaken, ← List.drop_eq_drop_min]

theorem Mach.portStatusFrame_runsOut {m : Mach} {p : Port} {e : FrameEnv} (ha : m.arrives p e [0x84]) (hr : m.runsOut p e [0x84] 5) :
    m.portStatusFrame p e = m.updPort p (fun s =>
      { s.heardAt m.clk.now with
        sdio := m.driven p e [0x84] (m.statusByte p 0 :: wordBytes (m.statusWord p)) }) :=
  Mach.readFrame_runsOut (dev := m.statusByte p 0 :: wordBytes (m.statusWord p))
    (f := PortState.heardAt m.clk.now) ha hr
    (by rw [Mach.leaseRestart_statusByte, Mach.leaseRestart_statusWord]; rfl) fun _ => rfl

/-- A row whose effect is a change of one port. -/
theorem goOn_updPort {s : State} {m : Mach} {p : Port} {f : PortState → PortState} (h : m = s.m.updPort p f) :
    ∃ t, goOn s m = .next t ∧ t.pending = s.pending ∧ s.m.changesOnly t.m [portPart p] ∧ t.m.port p = f (s.m.port p) := by
  subst h
  exact ⟨⟨_, s.pending⟩, rfl, rfl, s.m.updPort_changesOnly p f, s.m.updPort_port p f⟩

/-- Settles O2: both are read-class frames that run out, by `Mach.readFrame_runsOut`. -/
theorem textReadAndPortStatus : Obligations.TextReadAndPortStatus := by
  intro s p e count
  exact ⟨fun ha hr hsync hx => goOn_updPort (Mach.textReadFrame_runsOut ha hr hsync hx),
    fun ha hr => goOn_updPort (Mach.portStatusFrame_runsOut ha hr)⟩

end Sys2Proof.Machine
end

section
/-! SUPPORT. COMMIT and SESSION_RESET (R181, R185): what a queue's read pointer leaves when it moves, and a session that ends. -/

namespace Sys2Proof.Machine

/-! ### Fields set to 0 -/

theorem bitAt_setBits_zero (w : Word) (lo n i : Nat) :
    bitAt (setBits w lo n 0) i = (bitAt w i && !(decide (lo ≤ i) && decide (i < lo + n))) := by
  by_cases h32 : i < 32
  · have hm : ((2 ^ n - 1) <<< lo).testBit i = (decide (lo ≤ i) && decide (i < lo + n)) := by
      rw [Nat.testBit_shiftLeft, Nat.testBit_two_pow_sub_one]
      by_cases hlo : lo ≤ i
      · simp only [ge_iff_le, hlo, decide_true, Bool.true_and, decide_eq_decide]
        omega
      · simp [hlo]
    simp only [bitAt, setBits, word, Nat.zero_mod, Nat.zero_shiftLeft, BitVec.getLsbD_or, BitVec.getLsbD_and, BitVec.getLsbD_not,
      BitVec.getLsbD_ofNat, h32, hm, Nat.zero_testBit, decide_true, Bool.true_and, Bool.and_false, Bool.or_false]
  · rw [bitAt, bitAt, BitVec.getLsbD_of_ge _ _ (by omega), BitVec.getLsbD_of_ge _ _ (by omega), Bool.false_and]

theorem testBit_bitsAt (w : Word) (lo n i : Nat) : (bitsAt w lo n).testBit i = (decide (i < n) && bitAt w (lo + i)) := by
  rw [bitsAt, Nat.testBit_mod_two_pow, Nat.testBit_shiftRight, BitVec.testBit_toNat, bitAt]

theorem bitsAt_setBits_zero (w : Word) (lo n : Nat) : bitsAt (setBits w lo n 0) lo n = 0 := by
  refine Nat.eq_of_testBit_eq fun i => ?_
  rw [testBit_bitsAt, bitAt_setBits_zero, Nat.zero_testBit]
  by_cases hi : i < n <;> simp [hi]

/-- A field above one that is set to 0 stays. -/
theorem bitsAt_setBits_zero_above (w : Word) {lo n k : Nat} (j : Nat) (h : lo + n ≤ k) :
    bitsAt (setBits w lo n 0) k j = bitsAt w k j := by
  refine Nat.eq_of_testBit_eq fun i => ?_
  rw [testBit_bitsAt, testBit_bitsAt, bitAt_setBits_zero]
  have : ¬ k + i < lo + n := by omega
  simp [this]

/-! ### COMMIT (R181) -/

/-- The read pointer of queue `q` moved on by `n` blocks; the stores that hold a passed word are gone (R180, R181). -/
def Mach.passBlocks (m : Mach) (q n : Nat) : Mach := (m.updQ q (fun s => { s with unread := s.unread.drop n })).passStores q

theorem Mach.passBlocks_q_self {m : Mach} {q : Nat} (n : Nat) (hq : q < m.buf.queues.length) :
    (m.passBlocks q n).q q = { m.q q with unread := (m.q q).unread.drop n } := Mach.updQ_q_self _ hq

theorem Mach.passBlocks_q_ne (m : Mach) {q k : Nat} (n : Nat) (hk : k ≠ q) : (m.passBlocks q n).q k = m.q k := m.updQ_q_ne _ hk

theorem Mach.passBlocks_changesOnly (m : Mach) (q n : Nat) : m.changesOnly (m.passBlocks q n) [.pa, .pb, .buf] := by
  intro x hx
  cases x <;> first | rfl | exact absurd (by simp) hx

/-- Of a port only its stores may change as a read pointer moves. -/
theorem Mach.passBlocks_port (m : Mach) (q n : Nat) (p : Port) : ∃ a b, (m.passBlocks q n).port p =
    { m.port p with store0 := a, store1 := b } := by cases p <;> exact ⟨_, _, rfl⟩

/-- A COMMIT's blocks are passed, where the queue is not FULL and no run of discards is to be declared; of the event engine only the
records that wait for Q3's blocks may change (R691). -/
theorem Mach.commitBlocks_quiet {m : Mach} {q : Nat} (n : Nat) (hq : q < m.buf.queues.length) (hrun : (m.q q).run ≠ .full)
    (hdisc : (m.q q).discRun = none) : ∃ e : Events, m.commitBlocks q n = ({ m with evt := e } : Mach).passBlocks q n := by
  have hrest : ∀ e : Events, ((({ m with evt := e } : Mach).passBlocks q n).endRun q).resume q =
      ({ m with evt := e } : Mach).passBlocks q n := fun e => by
    have hself := Mach.passBlocks_q_self (m := { m with evt := e }) n hq
    generalize ({ m with evt := e } : Mach).passBlocks q n = k at *
    have hdisc' : (k.q q).discRun = none := by rw [hself]; exact hdisc
    have hrun' : ¬ (k.q q).run = .full := by rw [hself]; exact hrun
    simp only [Mach.endRun, hdisc', Mach.resume, hrun', decide_false, Bool.false_and, Bool.false_eq_true, if_false]
  unfold Mach.commitBlocks
  dsimp only
  split
  · split
    · exact ⟨_, hrest _⟩
    · exact ⟨m.evt, hrest _⟩
  · exact ⟨m.evt, hrest _⟩

/-- A queue without blocks is not there: one that has some stands in the table. -/
theorem Mach.q_lt_of_readable {m : Mach} {q : Nat} (h : 0 < (m.q q).readable.length) : q < m.buf.queues.length := by
  by_contra hq
  have : m.q q = Queue.none := by
    unfold Mach.q
    rw [List.getD_eq_getElem?_getD, List.getElem?_eq_none (Nat.le_of_not_lt hq)]
    rfl
  rw [this] at h
  exact absurd h (by decide)

/-- What a COMMIT that nothing refuses does, its frame apart. -/
theorem Mach.serveCommit_moves {m : Mach} {p : Port} {q n : Nat} (hchk : m.streamCheck p q = 0) (hmoved : (m.port p).moved.getLsbD q = false)
    (h0 : n ≠ 0) (hn : n ≤ (m.q q).readable.length) : m.serveCommit p q n = (0, m.commitBlocks q n) := by
  have : ¬ (m.q q).readable.length < n := by omega
  simp [Mach.serveCommit, hchk, hmoved, h0, this]

/-! ### SESSION_RESET (R185) -/

/-- No upgrade of the port is left, and nothing but the upgrade has changed (R258). -/
theorem Mach.endUpgrade_effect (m : Mach) (p : Port) : m.changesOnly (m.endUpgrade p) [.nv] ∧
    ∀ u, (m.endUpgrade p).nv.upgrade = some u → u.port ≠ p := by
  refine ⟨(Mach.endUpgrade_within m p (m.within_refl [.nv]) rfl).1, fun u hu => ?_⟩
  unfold Mach.endUpgrade at hu
  cases hv : m.nv.upgrade with
  | none => simp [hv] at hu
  | some v =>
    by_cases hp : v.port = p
    · simp [hv, hp] at hu
    · simp only [hv, hp, if_false, Option.some.injEq] at hu
      exact hu ▸ hp

theorem Mach.sessionEnd_effect {m : Mach} (p : Port) (hc : m.canonical = true) :
    m.changesOnly (m.sessionEnd p) [portPart p, .regs, .nv] ∧ m.keepsRegs (m.sessionEnd p) [0x814] ∧
      (m.sessionEnd p).port p = (m.port p).endSession ∧ (m.sessionEnd p).flag 0x814 (stayBit p) = false ∧
      ∀ u, (m.sessionEnd p).nv.upgrade = some u → u.port ≠ p := by
  obtain ⟨hparts, hup⟩ := m.endUpgrade_effect p
  have hcan : ((m.endUpgrade p).updPort p PortState.endSession).canonical = true :=
    Mach.updPort_canonical p _ ((Mach.endUpgrade_within m p (m.within_refl [.nv]) rfl).2.1 hc)
  have hreg : ∀ a, ((m.endUpgrade p).updPort p PortState.endSession).reg a = m.reg a := fun a => by
    rw [Mach.updPort_reg, Mach.reg, hparts .regs (by simp)]
    rfl
  refine ⟨fun x hx => ?_, fun a ha => ?_, ?_, ?_, ?_⟩
  · simp only [List.mem_cons, List.not_mem_nil, or_false, not_or] at hx
    exact Mach.agrees_trans (hparts x (by simpa using hx.2.2)) (Mach.agrees_trans (Mach.updPort_changesOnly _ p _ x (by simpa using hx.1))
      (Mach.setReg_agrees _ _ _ hx.2.1))
  · rw [Mach.sessionEnd, Mach.setFld, Mach.reg_setReg_ne _ _ (by simpa using ha), hreg]
  · rw [Mach.sessionEnd, Mach.setFld, Mach.setReg_port, Mach.updPort_port,
      Mach.port_of_agrees (hparts (portPart p) (by cases p <;> decide))]
  · rw [Mach.sessionEnd, Mach.setFld, Mach.flag, Mach.reg_setReg_self _ _ _ hcan]
    simp [bitAt_setBits_zero]
  · rw [Mach.sessionEnd, Mach.setFld_nv, Mach.updPort_nv]
    exact hup

/-- A whole COMMIT that nothing refuses: the lease restarts, the blocks are passed, and the frame counts with status OK. -/
theorem Mach.commitFrame_passes {m : Mach} {p : Port} {e : FrameEnv} {queue : Byte} {blocks : BitVec 16}
    (ha : m.arrives p e (0x85 :: queue :: natBytes 2 blocks.toNat)) (hchk : m.streamCheck p queue.toNat = 0)
    (hmoved : (m.port p).moved.getLsbD queue.toNat = false) (h0 : blocks.toNat ≠ 0)
    (hn : blocks.toNat ≤ (m.q queue.toNat).readable.length) (hrun : (m.q queue.toNat).run ≠ .full)
    (hdisc : (m.q queue.toNat).discRun = none) : ∃ ev : Events, m.commitFrame p e queue blocks =
      (({ m.leaseRestart p with evt := ev } : Mach).passBlocks queue.toNat blocks.toNat).frameDone p 0 := by
  have hq : ∀ k, (m.leaseRestart p).q k = m.q k := fun k => by cases p <;> rfl
  have hlt := Mach.q_lt_of_readable (Nat.lt_of_lt_of_le (Nat.pos_of_ne_zero h0) hn)
  obtain ⟨ev, hev⟩ := Mach.commitBlocks_quiet (m := m.leaseRestart p) blocks.toNat
    (by rw [Mach.leaseRestart_eq, Mach.updPort_buf]; exact hlt) (by rw [hq]; exact hrun) (by rw [hq]; exact hdisc)
  exact ⟨ev, Mach.writeFrame_arrives ha ((Mach.serveCommit_moves (by rw [Mach.leaseRestart_streamCheck]; exact hchk)
    (by rw [Mach.leaseRestart_port]; exact hmoved) h0 (by rw [hq]; exact hn)).trans (congrArg (Prod.mk 0) hev))⟩

/-- A whole SESSION_RESET with 0xA5 of a port without a command: the session ends, and the frame counts with status OK. -/
theorem Mach.sessionFrame_ends {m : Mach} {p : Port} {e : FrameEnv} (ha : m.arrives p e [0x86, 0xA5]) (hc : m.canonical = true)
    (hx : (m.port p).executing = none) : m.sessionFrame p e 0xA5 = ((m.leaseRestart p).sessionEnd p).frameDone p 0 := by
  obtain ⟨-, -, hport, -⟩ := Mach.sessionEnd_effect p (Mach.updPort_canonical p (PortState.heardAt m.clk.now) hc)
  rw [← Mach.leaseRestart_eq] at hport
  have hidle : (((m.leaseRestart p).sessionEnd p).port p).executing = none := by rw [hport, Mach.leaseRestart_port]; exact hx
  exact Mach.writeFrame_arrives ha ((if_pos rfl).trans (congrArg (Prod.mk 0) (Mach.pump_idle hidle)))

/-- Settles O3: a COMMIT by `Mach.commitFrame_passes`, a SESSION_RESET by `Mach.sessionFrame_ends`. -/
theorem commitAndSessionReset : Obligations.CommitAndSessionReset := by
  intro s p e hc
  refine ⟨fun queue blocks ha hchk hmoved h0 hn hrun hdisc => ?_, fun ha hx => ?_⟩
  · have hpos : blocks.toNat ≠ 0 := fun h => h0 (BitVec.eq_of_toNat_eq h)
    have hlt := Mach.q_lt_of_readable (Nat.lt_of_lt_of_le (Nat.pos_of_ne_zero hpos) hn)
    obtain ⟨ev, hev⟩ := Mach.commitFrame_passes ha hchk hmoved hpos hn hrun hdisc
    generalize hk : ({ s.m.leaseRestart p with evt := ev } : Mach) = k at hev
    have hkbuf : k.buf = s.m.buf := by subst hk; exact s.m.updPort_buf p _
    have hkport : k.port p = s.m.heard p := by subst hk; exact s.m.leaseRestart_port p
    have hkparts : s.m.changesOnly k [.pa, .pb, .buf, .evt] := fun x hx => by
      subst hk
      cases p <;> cases x <;> first | rfl | exact absurd (by simp) hx
    have hq : ∀ j, ((k.passBlocks queue.toNat blocks.toNat).frameDone p 0).q j = (k.passBlocks queue.toNat blocks.toNat).q j :=
      fun j => by cases p <;> rfl
    have hkq : ∀ j, k.q j = s.m.q j := fun j => by rw [Mach.q, hkbuf]; rfl
    obtain ⟨a, b, hport⟩ := k.passBlocks_port queue.toNat blocks.toNat p
    have hdone := Mach.frameDone_port (k.passBlocks queue.toNat blocks.toNat) p 0
    simp only [Mach.framed, Mach.heard, hport, hkport] at hdone
    refine ⟨⟨_, s.pending⟩, congrArg (goOn s) hev, rfl, ?_, fun j hj => ?_, by rw [hdone], by rw [hdone],
      by rw [hdone], by rw [hdone], fun x hx => ?_⟩
    · rw [hq, Mach.passBlocks_q_self _ (by rw [hkbuf]; exact hlt), hkq]
    · rw [hq, Mach.passBlocks_q_ne _ _ hj, hkq]
    · simp only [List.mem_cons, List.not_mem_nil, or_false, not_or] at hx
      exact Mach.agrees_trans (hkparts x (by simpa using hx)) (Mach.agrees_trans
        (Mach.passBlocks_changesOnly k _ _ x (by simpa using ⟨hx.1, hx.2.1, hx.2.2.1⟩))
        (Mach.frameDone_agrees _ p 0 x (by cases p <;> simp [portPart, hx])))
  · obtain ⟨hparts, hregs, hport, hflag, hup⟩ := Mach.sessionEnd_effect p (m := s.m.leaseRestart p) (Mach.updPort_canonical p _ hc)
    have hclk : ((s.m.leaseRestart p).sessionEnd p).clk = s.m.clk :=
      (hparts .clk (by cases p <;> decide)).trans (s.m.updPort_clk p _)
    refine ⟨⟨_, s.pending⟩, congrArg (goOn s) (Mach.sessionFrame_ends ha hc hx), rfl, ?_, fun u hu => ?_, ?_, fun x hx => ?_,
      fun a ha => ?_⟩
    · rw [Mach.frameDone_port, Mach.framed, Mach.heard, hport, hclk, Mach.leaseRestart_port]
      rfl
    · exact hup u (by rwa [Mach.frameDone, Mach.updPort_nv] at hu)
    · rw [Mach.flag, Mach.frameDone_reg]
      exact hflag
    · have hx1 : x ∉ [portPart p] := fun h => hx (by simp_all)
      exact Mach.agrees_trans (s.m.updPort_changesOnly p _ x hx1) (Mach.agrees_trans (hparts x hx) (Mach.frameDone_agrees _ p 0 x hx1))
    · rw [Mach.frameDone_reg, hregs a ha, Mach.leaseRestart_eq, Mach.updPort_reg]

end Sys2Proof.Machine
end

section
/-! SUPPORT. Discarded frames and clears of the cycle (R112, R116, R163, R164, R195): what `x_FRAMES` and FRAMEERR take from a discarded
frame, whether or not its counter has been cleared in the same FOSC cycle. -/

namespace Sys2Proof.Machine

/-! ### The frame of a discarded frame -/

/-- From `m` to `n` a frame of port `p` has been discarded: one event of `x_FRAMES`, FRAMEERR, and changes of the port alone. -/
structure Mach.Discards (m n : Mach) (p : Port) : Prop where
  count : bitsAt (n.reg (portBase p + 0x18)) 0 24 = min 0xFFFFFF (bitsAt (m.reg (portBase p + 0x18)) 0 24 + 1)
  seq : bitsAt (n.reg (portBase p + 0x18)) 24 8 = (bitsAt (m.reg (portBase p + 0x18)) 24 8 + 1) % 256
  flag : n.flag (intsrc p) 3 = true
  parts : m.changesOnly n [portPart p, .regs]
  regs : m.keepsRegs n [portBase p + 0x18, intsrc p]

theorem frames_ne_intsrc (p : Port) : portBase p + 0x18 ≠ intsrc p := by cases p <;> decide

theorem frames_ne_accLast (p q : Port) : portBase p + 0x18 ≠ accLast q := by cases p <;> cases q <;> decide

theorem frames_domain (p : Port) : blockDomain (blockOf (portBase p + 0x18)) = 5 := by cases p <;> decide

theorem Mach.frameErr_discards {m : Mach} {p : Port} (hc : m.canonical = true) (hn : m.noClear) (hon : m.on 5 = true) :
    m.Discards (m.frameErr p) p := by
  have hon' : m.on (blockDomain (blockOf (portBase p + 0x18))) = true := by rw [frames_domain]; exact hon
  obtain ⟨hcount, hseq⟩ := count_effect m (portBase p + 0x18) hc hn hon'
  obtain ⟨hparts, hregs⟩ := count_frame m (portBase p + 0x18) hn
  have hcan : (m.count (portBase p + 0x18)).canonical = true := (Mach.count_within m _ (m.within_refl [.regs]) rfl).2.1 hc
  have hnc := Mach.count_noClear (portBase p + 0x18) hn
  have h5 : (m.count (portBase p + 0x18)).on 5 = true := (Mach.on_congr (hparts .clk (by decide)) 5).trans hon
  obtain ⟨iparts, iregs, -⟩ := intEvent_frame (m.count (portBase p + 0x18)) p (bitMask 3) hnc
  have hkeep := iregs (portBase p + 0x18) (by simpa using frames_ne_intsrc p)
  refine ⟨(congrArg (bitsAt · 0 24) hkeep).trans hcount, (congrArg (bitsAt · 24 8) hkeep).trans hseq,
    (Mach.intBit_latched p hcan h5 (by decide)).2.2, fun x hx => ?_, fun x hx => ?_⟩
  · simp only [List.mem_cons, List.not_mem_nil, or_false, not_or] at hx
    exact Mach.agrees_trans (hparts x (by simpa using hx.2)) (iparts x (by simpa using ⟨hx.2, hx.1⟩))
  · simp only [List.mem_cons, List.not_mem_nil, or_false, not_or] at hx
    exact (iregs x (by simpa using hx.2)).trans (hregs x (by simpa using hx.1))

/-- Changes of the port before and after a frame is discarded leave the registers to it. -/
theorem Mach.Discards.of_updPort {m n : Mach} {p : Port} {f : PortState → PortState} (h : (m.updPort p f).Discards n p)
    (g : PortState → PortState) : m.Discards (n.updPort p g) p := by
  have hreg := m.updPort_reg p f
  refine ⟨?_, ?_, ?_, fun x hx => ?_, fun x hx => ?_⟩
  · rw [Mach.updPort_reg, h.count, hreg]
  · rw [Mach.updPort_reg, h.seq, hreg]
  · rw [Mach.flag, Mach.updPort_reg]
    exact h.flag
  · have hx1 : x ∉ [portPart p] := fun hm => hx (by simp_all)
    exact Mach.agrees_trans (m.updPort_changesOnly p f x hx1) (Mach.agrees_trans (h.parts x hx) (n.updPort_changesOnly p g x hx1))
  · rw [Mach.updPort_reg, h.regs x hx, hreg]

/-- A frame of an unknown type is discarded; in the async personality its byte has restarted the lease (R194, R204). -/
def PortState.unnamed (now : Nat) (s : PortState) : PortState := if s.async then s.heardAt now else s

theorem PortState.unnamed_lastAt (now : Nat) (s : PortState) : (s.unnamed now).lastAt = s.lastAt := by
  unfold PortState.unnamed
  split <;> rfl

theorem Mach.unnamedFrame_listens {m : Mach} {p : Port} {e : FrameEnv} (byte0 : Byte) (h : m.listens p e.since e.selHigh e.abyte) :
    m.unnamedFrame p e byte0 = (m.updPort p (PortState.unnamed m.clk.now)).frameErr p := by
  have htake := takesFrame_ok m p e.since e.selHigh e.abyte true h
  obtain ⟨-, -, -, -, hheld⟩ := h
  simp only [Mach.unnamedFrame, htake, if_true, updPort_held_nil m p hheld]
  refine congrArg (Mach.frameErr · p) ?_
  cases hs : (m.port p).async
  · exact (Mach.updPort_fixed (by simp [PortState.unnamed, hs])).symm
  · exact (if_pos rfl).trans (Mach.updPort_congr (by simp [PortState.unnamed, hs, PortState.heardAt]))

/-- What a gap in an async frame leaves of its port: LAST where its frame is of the write class (R169, R195). -/
def PortState.gapped (byte0 : Byte) (s : PortState) : PortState := if writeClass byte0 then { s with last := 12, lastAt := none } else s

theorem Mach.frameGap_listens {m : Mach} {p : Port} {byte0 : Byte} (h : m.listens p 0 false 0) (ha : (m.port p).async = true)
    (h1 : 0x80 ≤ byte0.toNat) (h2 : byte0.toNat ≤ 0x86) :
    m.frameGap p byte0 = ((m.updPort p (PortState.heardAt m.clk.now)).frameErr p).updPort p (PortState.gapped byte0) := by
  have htake := takesFrame_ok m p 0 false 0 true h
  obtain ⟨-, -, -, -, hheld⟩ := h
  simp only [Mach.frameGap, htake, ha, h1, h2, and_self, decide_true, Bool.and_self, if_true, updPort_held_nil m p hheld]
  rw [Mach.leaseRestart_eq]
  cases hw : writeClass byte0
  · exact (if_neg Bool.false_ne_true).trans (Mach.updPort_fixed (by simp [PortState.gapped, hw])).symm
  · exact (if_pos rfl).trans (Mach.updPort_congr (by simp [PortState.gapped, hw]))

/-! ### Clear write-backs (R111, R116) -/

/-- A direct write to a word address, from its 16-bit address. -/
theorem Mach.oneWrite_direct (m : Mach) (ag : Agent) {a : Nat} (w : Word) (ha : a < 0x4000) :
    m.oneWrite ag (kindOf (BitVec.ofNat 16 a).toNat) ((BitVec.ofNat 16 a).toNat % 0x4000) w = m.oneWrite ag .direct a w := by
  have haddr : (BitVec.ofNat 16 a).toNat = a + kindBits .direct := addr_toNat .direct ha
  rw [haddr, kindOf_add .direct ha, kindBits_add_mod .direct ha]

theorem Mach.noteClear_agrees (m : Mach) (byPort : Option Port) (a : Nat) {x : Part} (h : x ≠ .regs) :
    m.agrees (m.noteClear byPort a) x := by
  cases x
  case regs => exact absurd rfl h
  all_goals rfl

/-- A served clear write-back that its register takes: the word without what was cleared; no other register changes. -/
theorem clear_served {s : State} {ag : Agent} {a : Nat} {w v : Word} (hc : s.m.canonical = true) (ha : a < 0x4000) (hl : a ≤ lastOf a)
    (ht : s.m.takesWrite ag .direct a) (hb : (s.m.touch (blockOf a)).busWrite ag .direct a w =
      (0, ((s.m.touch (blockOf a)).noteClear (portOf ag) a).setReg a v)) :
    ∃ t, goOn s (s.m.oneWrite ag .direct a w) = .next t ∧ t.pending = s.pending ∧ t.m.reg a = v ∧ s.m.wroteOnly t.m ag [] [a] := by
  obtain ⟨t, he, hp, ht, hf⟩ := oneWrite_effect s ag .direct a w ha hl ht [] [a] _ hb
    (fun x hx => Mach.agrees_trans (s.m.touch_agrees _ (by simpa using hx)) (Mach.agrees_trans
      (Mach.noteClear_agrees _ _ a (by simpa using hx)) (Mach.setReg_agrees _ a _ (by simpa using hx)))) rfl rfl rfl
    (fun x hx => Mach.reg_setReg_ne _ _ (by simpa using hx))
  refine ⟨t, he, hp, ?_, hf⟩
  rw [ht, settled_reg]
  exact Mach.reg_setReg_self _ a _ hc

/-- The COUNT of a counter set to 0 (R116). -/
theorem and_seq_eq_setBits (w : Word) : w &&& 0xFF000000 = setBits w 0 24 0 := by
  unfold setBits
  exact (BitVec.or_zero (x := w &&& 0xFF000000)).symm

theorem frames_place (p : Port) : portBase p + 0x18 < 0x4000 ∧ portBase p + 0x18 ≤ lastOf (portBase p + 0x18) ∧
    windowOf (portBase p + 0x18) = none ∧ regDef (portBase p + 0x18) = some RegDef.counter := by cases p <;> decide

theorem Mach.busWrite_frames (m : Mach) (ag : Agent) (p : Port) {w : Word}
    (hs : bitsAt w 24 8 = bitsAt (m.reg (portBase p + 0x18)) 24 8) : m.busWrite ag .direct (portBase p + 0x18) w =
      (0, (m.noteClear (portOf ag) (portBase p + 0x18)).setReg (portBase p + 0x18) (setBits (m.reg (portBase p + 0x18)) 0 24 0)) := by
  obtain ⟨-, -, hw, hd⟩ := frames_place p
  have hne : (bitsAt w 24 8 != bitsAt (m.reg (portBase p + 0x18)) 24 8) = false := by simp [hs]
  simp only [Mach.busWrite, hw, hd, RegDef.counter, Mach.counterClear, hne, Bool.false_eq_true, if_false, and_seq_eq_setBits]

/-! ### An increment in the cycle of a clear (R112, R116) -/

/-- A counter's word after one event (R115). -/
def countedWord (w : Word) : Word := setBits (word (min 0xFFFFFF (bitsAt w 0 24 + 1))) 24 8 (bitsAt w 24 8 + 1)

theorem countedWord_fields (w : Word) : bitsAt (countedWord w) 0 24 = min 0xFFFFFF (bitsAt w 0 24 + 1) ∧
    bitsAt (countedWord w) 24 8 = (bitsAt w 24 8 + 1) % 256 := by
  have hle : min 0xFFFFFF (bitsAt w 0 24 + 1) ≤ 0xFFFFFF := Nat.min_le_left _ _
  have he := setBits_high_low (min 0xFFFFFF (bitsAt w 0 24 + 1)) (bitsAt w 24 8 + 1) hle
  unfold countedWord
  generalize min 0xFFFFFF (bitsAt w 0 24 + 1) = n at *
  generalize bitsAt w 24 8 = d at *
  constructor <;> (rw [bitsAt, he, Nat.shiftRight_eq_div_pow]; omega)

/-- A counter that has been cleared in this cycle, by a port, takes an event: the clear is taken back, and its port is told so. -/
def Mach.unclearedCount (m : Mach) (by_ : Port) (a : Nat) (old : Word) : Mach :=
  (({ m with regs := { m.regs with cleared := [⟨some by_, a, old, m.clk.now, true⟩] } } : Mach).setReg a old).setReg (accLast by_)
    (word (a * 2 ^ 16 + 18))

/-- The one clear of the cycle that stood has been taken back. -/
theorem Mach.unclearedCount_spent (m : Mach) (by_ : Port) (a b : Nat) (old : Word) : (m.unclearedCount by_ a old).spent b := by
  intro c hc
  change c ∈ [(⟨some by_, a, old, m.clk.now, true⟩ : Cleared)] at hc
  rw [List.mem_singleton.mp hc]
  exact (congrArg _ Bool.not_true).trans (Bool.and_false _)

theorem Mach.setReg_spent {m : Mach} {b : Nat} (a : Nat) (w : Word) (h : m.spent b) : (m.setReg a w).spent b := h

theorem Mach.count_cleared {m : Mach} {by_ : Port} {a : Nat} {old : Word} (hc : m.canonical = true)
    (hon : m.on (blockDomain (blockOf a)) = true) (hne : a ≠ accLast by_)
    (h : m.regs.cleared = [⟨some by_, a, old, m.clk.now, false⟩]) :
    m.count a = (m.unclearedCount by_ a old).setReg a (countedWord old) := by
  have hu : m.unclear a = m.unclearedCount by_ a old := by
    simp [Mach.unclear, h, Mach.unclearedCount]
  have hreg : (m.unclearedCount by_ a old).reg a = old := by
    unfold Mach.unclearedCount
    rw [Mach.reg_setReg_ne _ _ hne]
    exact Mach.reg_setReg_self _ a old hc
  simp only [Mach.count, Mach.countN, hon, hu, hreg]
  rfl

theorem Mach.setReg_lastCode (m : Mach) (a : Nat) (w : Word) (q : Port) : (m.setReg a w).lastCode q = m.lastCode q := by cases q <;> rfl

theorem Mach.updPort_lastCode (m : Mach) (p : Port) {f : PortState → PortState}
    (hf : ∀ s, (f s).last = s.last ∧ (f s).lastAt = s.lastAt) (q : Port) : (m.updPort p f).lastCode q = m.lastCode q := by
  have hport : ((m.updPort p f).port q).last = (m.port q).last ∧ ((m.updPort p f).port q).lastAt = (m.port q).lastAt := by
    cases p <;> cases q <;> first | exact ⟨rfl, rfl⟩ | exact hf _
  simp only [Mach.lastCode, hport, Mach.updPort_regs]

/-- An event of `x_INTSRC` that takes no clear of it back leaves the other registers, and what each port's status says of its last
write. -/
theorem Mach.intEvent_of_spent {m : Mach} {p : Port} (mask : Word) (h : m.spent (intsrc p)) :
    m.keepsRegs (m.intEvent p mask) [intsrc p] ∧ ∀ q, (m.intEvent p mask).lastCode q = m.lastCode q := by
  have hflush : ∀ q, (m.flushInt p).lastCode q = m.lastCode q := fun q => by
    unfold Mach.flushInt
    dsimp only
    split
    · rw [Mach.updPort_lastCode _ p (fun _ => by exact ⟨rfl, rfl⟩), Mach.setReg_lastCode]
    · rfl
  have htaken : ∀ (n : Mach) q, (n.intTaken p mask).lastCode q = n.lastCode q := fun n q => by
    unfold Mach.intTaken
    dsimp only
    split
    · exact n.setReg_lastCode _ _ q
    · split
      · rw [Mach.updPort_lastCode _ p (fun _ => by exact ⟨rfl, rfl⟩), Mach.setReg_lastCode]
      · rw [Mach.updPort_lastCode _ p (fun _ => by exact ⟨rfl, rfl⟩), Mach.setReg_lastCode, Mach.setReg_lastCode]
  rw [Mach.intEvent_eq, Mach.unclear_of_spent (Mach.flushInt_spent p h)]
  refine ⟨fun x hx => ?_, fun q => ?_⟩
  · have hx' : x ≠ intsrc p := by simpa using hx
    split
    · rw [Mach.intTaken_reg_ne _ _ _ hx', Mach.flushInt_reg_ne _ _ hx']
    · exact m.flushInt_reg_ne p hx'
  · split
    · rw [htaken, hflush]
    · exact hflush q

/-- A frame is discarded in the cycle in which its counter was cleared by a port: the event comes before the clear (R112, R116). -/
theorem Mach.frameErr_cleared {m : Mach} {p by_ : Port} {old : Word} (hc : m.canonical = true) (hon : m.on 5 = true)
    (h : m.regs.cleared = [⟨some by_, portBase p + 0x18, old, m.clk.now, false⟩])
    (hlast : (m.port by_).lastAt = some m.clk.now) :
    (m.frameErr p).reg (portBase p + 0x18) = countedWord old ∧ (m.frameErr p).lastCode by_ = 18 ∧
      (m.frameErr p).reg (accLast by_) = word ((portBase p + 0x18) * 2 ^ 16 + 18) ∧
      m.keepsRegs (m.frameErr p) [portBase p + 0x18, intsrc p, accLast by_] := by
  have hne := frames_ne_accLast p by_
  have hcount := Mach.count_cleared hc (by rw [frames_domain]; exact hon) hne h
  have hcan : (m.unclearedCount by_ (portBase p + 0x18) old).canonical = true :=
    Mach.setReg_canonical _ _ (Mach.setReg_canonical (m := { m with regs := _ }) _ _ hc)
  unfold Mach.frameErr
  rw [hcount]
  generalize hn : (m.unclearedCount by_ (portBase p + 0x18) old).setReg (portBase p + 0x18) (countedWord old) = n
  have hspent : n.spent (intsrc p) := hn ▸ Mach.setReg_spent _ _ (Mach.unclearedCount_spent m by_ _ _ old)
  obtain ⟨hregs, hcode⟩ := Mach.intEvent_of_spent (bitMask 3) hspent
  refine ⟨?_, ?_, ?_, fun x hx => ?_⟩
  · rw [Mach.intBit, hregs _ (by simpa using frames_ne_intsrc p), ← hn]
    exact Mach.reg_setReg_self _ _ _ hcan
  · rw [Mach.intBit, hcode, ← hn, Mach.setReg_lastCode, Mach.unclearedCount, Mach.setReg_lastCode, Mach.setReg_lastCode]
    have hlast' : (({ m with regs := { m.regs with cleared := [⟨some by_, portBase p + 0x18, old, m.clk.now, true⟩] } } : Mach).port
        by_).lastAt = some m.clk.now := by cases by_ <;> exact hlast
    simp [Mach.lastCode, hlast']
  · rw [Mach.intBit, hregs _ (by simpa using (intsrc_ne_accLast p by_).symm), ← hn, Mach.reg_setReg_ne _ _ hne.symm]
    exact Mach.reg_setReg_self _ _ _ (Mach.setReg_canonical (m := { m with regs := _ }) _ _ hc)
  · simp only [List.mem_cons, List.not_mem_nil, or_false, not_or] at hx
    rw [Mach.intBit, hregs _ (by simpa using hx.2.1), ← hn, Mach.reg_setReg_ne _ _ hx.1, Mach.unclearedCount,
      Mach.reg_setReg_ne _ _ hx.2.2, Mach.reg_setReg_ne _ _ hx.1]
    rfl

/-- Settles O4: a discarded frame by `Mach.frameErr_discards`, a clear by `Mach.busWrite_frames`, an event in the cycle of a clear by
`Mach.frameErr_cleared`. -/
theorem discardedFramesCount : Obligations.DiscardedFramesCount := by
  intro s p e byte0 hc
  have hon : ∀ f, s.m.portUp p = true → (s.m.updPort p f).on 5 = true := fun f hup =>
    (Mach.updPort_on p f 5).trans (Mach.on_of_portUp hup)
  refine ⟨fun hn hl => ?_, fun ag w ht hseq => ?_, fun by_ old hcl hlast hl => ?_, fun hn hl ha h1 h2 => ?_⟩
  · have hd := (Mach.frameErr_discards (Mach.updPort_canonical p _ hc) (Mach.updPort_noClear p _ hn)
      (hon (PortState.unnamed s.m.clk.now) hl.1)).of_updPort id
    rw [Mach.updPort_fixed (f := id) rfl] at hd
    exact ⟨⟨_, s.pending⟩, congrArg (goOn s) (Mach.unnamedFrame_listens byte0 hl), rfl, hd.count, hd.seq, hd.flag, hd.parts, hd.regs⟩
  · obtain ⟨h1, h2, -⟩ := frames_place p
    obtain ⟨t, he, hp, hreg, hf⟩ := clear_served hc h1 h2 ht (Mach.busWrite_frames (s.m.touch _) ag p hseq)
    refine ⟨t, (congrArg (goOn s) (s.m.oneWrite_direct ag w h1)).trans he, hp, ?_, ?_, hf⟩
    · rw [hreg, bitsAt_setBits_zero]
    · rw [hreg, bitsAt_setBits_zero_above _ _ (Nat.le_refl _)]
      rfl
  · have hlast' : ((s.m.updPort p (PortState.unnamed s.m.clk.now)).port by_).lastAt =
        some (s.m.updPort p (PortState.unnamed s.m.clk.now)).clk.now := by
      rw [Mach.updPort_clk, ← hlast]
      cases p <;> cases by_ <;> first | rfl | exact PortState.unnamed_lastAt _ _
    obtain ⟨hreg, hcode, hacc, hkeep⟩ := Mach.frameErr_cleared (by_ := by_) (old := old)
      (Mach.updPort_canonical p (PortState.unnamed s.m.clk.now) hc) (hon _ hl.1)
      (by rw [Mach.updPort_regs, Mach.updPort_clk]; exact hcl) hlast'
    obtain ⟨hcount, hseq⟩ := countedWord_fields old
    exact ⟨⟨_, s.pending⟩, congrArg (goOn s) (Mach.unnamedFrame_listens byte0 hl), rfl, (congrArg (bitsAt · 0 24) hreg).trans hcount,
      (congrArg (bitsAt · 24 8) hreg).trans hseq, hcode, hacc, fun x hx => (hkeep x hx).trans (s.m.updPort_reg p _ x)⟩
  · have hd := (Mach.frameErr_discards (Mach.updPort_canonical p _ hc) (Mach.updPort_noClear p _ hn)
      (hon (PortState.heardAt s.m.clk.now) hl.1)).of_updPort (PortState.gapped byte0)
    refine ⟨⟨_, s.pending⟩, congrArg (goOn s) (Mach.frameGap_listens hl ha h1 h2), rfl, hd.count, hd.seq, fun hw => ?_, hd.flag, hd.parts,
      hd.regs⟩
    rw [Mach.updPort_port, PortState.gapped, if_pos hw]

end Sys2Proof.Machine
end

section
/-! SUPPORT. Leases, the pacing of `x_INTSRC` and its clear write-back, and a break (R111, R192, R204, R207). -/

namespace Sys2Proof.Machine

/-- What a lease that has run out leaves of its port: the semaphores of an executing command alone (R204). -/
def PortState.leaseOver (s : PortState) : PortState := { s with sems := 0, leaseSince := none }

theorem Mach.leaseExpiry_due {m : Mach} {p : Port} {since : Nat} (hl : (m.port p).leaseSince = some since)
    (h0 : m.fld (portBase p) 16 6 ≠ 0) (hd : since + m.fld (portBase p) 16 6 * second ≤ m.clk.now) :
    m.leaseExpiry p = (m.updPort p PortState.leaseOver).intBit p 2 := by
  have : ¬ m.clk.now < since + m.fld (portBase p) 16 6 * second := by omega
  simp only [Mach.leaseExpiry, hl, h0, this, decide_false, Bool.or_self, Bool.false_eq_true, if_false]
  rfl

/-- A change of a port that is followed by an event of its INTSRC: the bit is set, and of the port only its pacing may differ. -/
theorem Mach.updPort_intBit {m : Mach} {p : Port} {i : Nat} (f : PortState → PortState) (hc : m.canonical = true) (hn : m.noClear)
    (hon : m.on 5 = true) (hi : i < 24) : (∃ b n, ((m.updPort p f).intBit p i).port p = { f (m.port p) with incPending := b, lastInc := n }) ∧
      ((m.updPort p f).intBit p i).flag (intsrc p) i = true ∧ m.changesOnly ((m.updPort p f).intBit p i) [portPart p, .regs] ∧
      m.keepsRegs ((m.updPort p f).intBit p i) [intsrc p] := by
  obtain ⟨hparts, hregs, hport⟩ := intEvent_frame (m.updPort p f) p (bitMask i) (Mach.updPort_noClear p f hn)
  have hset := Mach.intBit_latched p (Mach.updPort_canonical p f hc) ((Mach.updPort_on p f 5).trans hon) hi
  refine ⟨⟨_, _, hport.trans (by rw [Mach.updPort_port])⟩, hset.2.2, fun x hx => ?_, fun x hx => ?_⟩
  · simp only [List.mem_cons, List.not_mem_nil, or_false, not_or] at hx
    exact Mach.agrees_trans (m.updPort_changesOnly p f x (by simpa using hx.1)) (hparts x (by simpa using ⟨hx.2, hx.1⟩))
  · exact (hregs x hx).trans (m.updPort_reg p f x)

/-- What a paced increment leaves of its port (R207). -/
def PortState.paced (s : PortState) : PortState := { s with incPending := false, lastInc := s.lastInc + 512 }

theorem Mach.flushInt_due {m : Mach} {p : Port} (hp : (m.port p).incPending = true) (hd : (m.port p).lastInc + 512 ≤ m.clk.now) :
    m.flushInt p = (m.setReg (intsrc p) (bumpSeq (m.reg (intsrc p)))).updPort p PortState.paced := by
  simp only [Mach.flushInt, hp, hd, decide_true, Bool.and_self, if_true]
  rfl

theorem Mach.flushInt_idle {m : Mach} {p : Port} (h : (m.port p).incPending = false) : m.flushInt p = m := by
  simp only [Mach.flushInt, h, Bool.false_and, Bool.false_eq_true, if_false]

theorem intsrc_place (p : Port) : intsrc p < 0x4000 ∧ intsrc p ≤ lastOf (intsrc p) ∧ windowOf (intsrc p) = none ∧
    regDef (intsrc p) = some (RegDef.status 0x3FFF 0) := by cases p <;> decide

/-- The clear write-back of `x_INTSRC` that R111 takes: no increment is pending, and SEQ is the register's. -/
theorem Mach.busWrite_intsrc {m : Mach} (ag : Agent) {p : Port} {w : Word} (hp : (m.port p).incPending = false)
    (hq : m.seqPending (intsrc p) = none) (hs : bitsAt w 24 8 = bitsAt (m.reg (intsrc p)) 24 8) : m.busWrite ag .direct (intsrc p) w =
      (0, (m.noteClear (portOf ag) (intsrc p)).setReg (intsrc p) (m.reg (intsrc p) &&& ~~~(w &&& 0x3FFF &&& 0x00FFFFFF))) := by
  obtain ⟨-, -, hw, hd⟩ := intsrc_place p
  have hseq : m.flushSeq (intsrc p) = m := by simp only [Mach.flushSeq, hq]
  have hpace : (if intsrc p = intsrc .a then m.flushInt .a else if intsrc p = intsrc .b then m.flushInt .b else m) = m := by
    cases p
    · exact (if_pos rfl).trans (Mach.flushInt_idle hp)
    · exact (if_neg (by decide)).trans ((if_pos rfl).trans (Mach.flushInt_idle hp))
  have hpend : ((m.seqPending (intsrc p)).isSome || (intsrc p = intsrc .a && m.pa.incPending) ||
      (intsrc p = intsrc .b && m.pb.incPending)) = false := by
    rw [hq]
    cases p
    · simp only [Mach.port] at hp
      simp [hp, show intsrc .a ≠ intsrc .b by decide]
    · simp only [Mach.port] at hp
      simp [hp, show intsrc .b ≠ intsrc .a by decide]
  have hne : (bitsAt w 24 8 != bitsAt (m.reg (intsrc p)) 24 8) = false := by simp [hs]
  simp only [Mach.busWrite, hw, hd, RegDef.status, Mach.statusClear, hseq, hpace, hpend, hne, Bool.or_self, Bool.false_eq_true, if_false]

/-- A port without a detected rate (R192). -/
def PortState.undetected (s : PortState) : PortState := { s with baudSeen := false }

theorem Mach.breakLow_long {m : Mach} {p : Port} {low : Nat} (hup : m.portUp p = true) (ha : (m.port p).async = true)
    (h0 : m.baudRate p ≠ 0) (hl : 20 * second ≤ low * m.baudRate p) :
    m.breakLow p low = (m.updPort p PortState.undetected).setFld (portBase p + 8) 0 24 0 := by
  simp only [Mach.breakLow, h0, hl, hup, ha, if_false, decide_true, Bool.and_self, if_true]
  rfl

/-- Settles O5: a lease by `Mach.leaseExpiry_due`, the pacing by `Mach.flushInt_due`, a clear by `Mach.busWrite_intsrc`, a break by
`Mach.breakLow_long`. -/
theorem leasePacingAndBreak : Obligations.LeasePacingAndBreak := by
  intro s p hc
  refine ⟨fun since hn hl h0 hd hon => ?_, fun hp hd => ?_, fun ag w d ht hd hp hq hs => ?_, fun low hup ha h0 hl => ?_⟩
  · obtain ⟨⟨b, n, hport⟩, hflag, hparts, hregs⟩ := Mach.updPort_intBit (p := p) (i := 2) PortState.leaseOver hc hn hon (by decide)
    exact ⟨⟨_, s.pending⟩, congrArg (goOn s) (Mach.leaseExpiry_due hl h0 hd), rfl, by rw [hport]; rfl, by rw [hport]; rfl,
      by rw [hport]; rfl, by rw [hport]; rfl, by rw [hport]; rfl, hflag, hparts, hregs⟩
  · have hreg : ((s.m.setReg (intsrc p) (bumpSeq (s.m.reg (intsrc p)))).updPort p PortState.paced).reg (intsrc p) =
        bumpSeq (s.m.reg (intsrc p)) := by rw [Mach.updPort_reg, Mach.reg_setReg_self _ _ _ hc]
    refine ⟨⟨_, s.pending⟩, congrArg (goOn s) (Mach.flushInt_due hp hd), rfl, ?_, ?_, ?_, fun x hx => ?_, fun x hx => ?_⟩
    · rw [hreg, bumpSeq_seq]
    · rw [hreg, bumpSeq_low]
    · rw [Mach.updPort_port, Mach.setReg_port]
      rfl
    · simp only [List.mem_cons, List.not_mem_nil, or_false, not_or] at hx
      exact Mach.agrees_trans (s.m.setReg_agrees _ _ hx.2) (Mach.updPort_changesOnly _ p _ x (by simpa using hx.1))
    · rw [Mach.updPort_reg, Mach.reg_setReg_ne _ _ (by simpa using hx)]
  · obtain ⟨h1, h2, -, hreg⟩ := intsrc_place p
    have hsq : d.sq = 0x3FFF := by
      rw [hreg, Option.some.injEq] at hd
      rw [← hd]
      rfl
    rw [hsq]
    obtain ⟨t, he, hpend, hrest⟩ := clear_served hc h1 h2 ht
      (Mach.busWrite_intsrc (m := s.m.touch (blockOf (intsrc p))) ag (by rw [Mach.touch_port]; exact hp) hq hs)
    exact ⟨t, (congrArg (goOn s) (s.m.oneWrite_direct ag w h1)).trans he, hpend, hrest⟩
  · have hreg : ((s.m.updPort p PortState.undetected).setFld (portBase p + 8) 0 24 0).reg (portBase p + 8) =
        setBits (s.m.reg (portBase p + 8)) 0 24 0 := by
      rw [Mach.setFld, Mach.reg_setReg_self _ _ _ (Mach.updPort_canonical p _ hc), Mach.updPort_reg]
    refine ⟨⟨_, s.pending⟩, congrArg (goOn s) (Mach.breakLow_long hup ha h0 hl), rfl, ?_, ?_, fun x hx => ?_, fun x hx => ?_⟩
    · rw [Mach.setFld, Mach.setReg_port, Mach.updPort_port]
      rfl
    · rw [hreg, bitsAt_setBits_zero]
    · simp only [List.mem_cons, List.not_mem_nil, or_false, not_or] at hx
      exact Mach.agrees_trans (s.m.updPort_changesOnly p _ x (by simpa using hx.1)) (Mach.setReg_agrees _ _ _ hx.2)
    · rw [Mach.setFld, Mach.reg_setReg_ne _ _ (by simpa using hx), Mach.updPort_reg]

end Sys2Proof.Machine
end

section
/-! SUPPORT. Text lines and reply bytes (R171, R197, R212 to R218, R236): a line in the clocked personality byte by byte, the byte that
leaves in the async one, and a reply whose data lines are lost. -/

namespace Sys2Proof.Machine

/-! ### A line of text (R171, R212 to R218) -/

/-- A port whose line buffer has taken one character more. -/
def PortState.plusByte (b : Byte) (s : PortState) : PortState := { s with lastCR := false, line := s.line ++ [b] }

/-- A port whose line `cs` a CR has ended at `now`: it waits, unless it is blank or a comment (R214, R218). -/
def PortState.lineEnded (cs : List Byte) (now : Nat) (s : PortState) : PortState :=
  { s with line := [], tooLong := false, lastCR := true, waiting := if blankLine cs then s.waiting else some ⟨cs, false, now⟩ }

/-- A clocked port that takes characters into its line: no line waits, and this one is not over-long. -/
def PortState.takesText (s : PortState) : Prop := s.async = false ∧ s.waiting = none ∧ s.tooLong = false

/-- In the clocked personality nothing is echoed (R237). -/
theorem PortState.lineByte_char {s : PortState} {b : Byte} (ht : s.takesText) (hl : s.line.length < 160) (h8 : b ≠ 8) :
    s.lineByte b = s.plusByte b := by
  obtain ⟨hs, -, hlong⟩ := ht
  simp only [PortState.lineByte, PortState.typed, PortState.plusByte, hs, hlong, h8, Nat.ne_of_lt hl, Bool.false_and, Bool.false_eq_true,
    if_false]

theorem PortState.endLine_cr {s : PortState} (now : Nat) (ht : s.takesText) : s.endLine true now = s.lineEnded s.line now := by
  obtain ⟨hs, -, hlong⟩ := ht
  simp only [PortState.endLine, PortState.typed, PortState.lineEnded, hs, hlong, Bool.false_and, Bool.false_eq_true, if_false,
    Bool.not_false, Bool.true_and]
  cases blankLine s.line <;> rfl

theorem Mach.textByte_char {m : Mach} {p : Port} {b : Byte} (ht : (m.port p).takesText) (hl : (m.port p).line.length < 160) (h8 : b ≠ 8)
    (h10 : b ≠ 10) (h13 : b ≠ 13) : m.textByte p b = m.updPort p (PortState.plusByte b) := by
  simp only [Mach.textByte, h10, h13, ht.2.1, decide_false, Bool.false_and, Bool.or_self, Bool.false_eq_true, if_false, Option.isSome_none]
  exact Mach.updPort_congr (PortState.lineByte_char ht hl h8)

theorem Mach.textByte_cr {m : Mach} {p : Port} (ht : (m.port p).takesText) :
    m.textByte p 13 = m.updPort p (PortState.lineEnded (m.port p).line m.clk.now) := by
  simp only [Mach.textByte, ht.2.1, Option.isSome_none, Bool.false_eq_true, if_false, decide_true, Bool.true_or, if_true,
    show ¬ (13 : Byte) = 10 by decide, decide_false, Bool.false_and]
  exact Mach.updPort_congr (PortState.endLine_cr _ ht)

/-- A line of characters and its CR, from what the line buffer holds on. -/
theorem Mach.textBytes_line {p : Port} (line : List Byte) {m : Mach} (ht : (m.port p).takesText)
    (hl : (m.port p).line.length + line.length ≤ 160) (hb : ∀ b ∈ line, isText b = true ∧ b ≠ 8 ∧ b ≠ 10 ∧ b ≠ 13) :
    m.textBytes p (line ++ [13]) = (true, m.updPort p (PortState.lineEnded ((m.port p).line ++ line) m.clk.now)) := by
  induction line generalizing m with
  | nil =>
    rw [List.append_nil, ← Mach.textByte_cr ht]
    rfl
  | cons b bs ih =>
    obtain ⟨htext, h8, h10, h13⟩ := hb b (List.mem_cons_self ..)
    rw [List.length_cons] at hl
    have hport := m.updPort_port p (PortState.plusByte b)
    have hstep := Mach.textByte_char ht (by omega) h8 h10 h13
    have hrest := ih (m := m.updPort p (PortState.plusByte b)) (by rw [hport]; exact ht)
      (by rw [hport, PortState.plusByte, List.length_append, List.length_singleton]; omega) fun c hc => hb c (List.mem_cons_of_mem _ hc)
    simp only [List.cons_append, Mach.textBytes, htext, if_true, hstep]
    rw [hrest, Mach.updPort_updPort, hport, Mach.updPort_clk, PortState.plusByte, List.append_assoc]
    exact congrArg (Prod.mk true) (Mach.updPort_congr rfl)

theorem Mach.textInput_line {m : Mach} {p : Port} {e : TextEnv} {line : List Byte} (hl : m.listens p e.since e.selHigh e.abyte)
    (ha : m.addressed p = true → e.abyte ≠ 0xFF) (he : e.partialBits = 0) (ht : (m.port p).takesText) (h0 : (m.port p).line = [])
    (hlen : line.length ≤ 160) (hb : ∀ b ∈ line, isText b = true ∧ b ≠ 8 ∧ b ≠ 10 ∧ b ≠ 13) :
    m.textInput p e (line ++ [13]) = m.updPort p (fun s => (s.heardAt m.clk.now).lineEnded line m.clk.now) := by
  have htake := takesFrame_ok m p e.since e.selHigh e.abyte true hl
  obtain ⟨-, -, -, -, hheld⟩ := hl
  have hopen : (m.addressed p && decide (e.abyte = 0xFF)) = false := by
    cases hp : m.addressed p
    · rfl
    · simpa using ha hp
  have hport := m.leaseRestart_port p
  have hline := Mach.textBytes_line line (m := m.leaseRestart p) (p := p) (by rw [hport]; exact ht)
    (by rw [hport]; simpa [Mach.heard, h0] using hlen) hb
  have hs : (m.port p).async = false := ht.1
  simp only [Mach.textInput, hs, Bool.false_eq_true, if_false, hopen, htake, Bool.not_true, updPort_held_nil m p hheld,
    show (line ++ [13]).isEmpty = false by simp, hline, he, ne_eq, not_true_eq_false, decide_false, Bool.and_false]
  rw [Mach.leaseRestart_eq, Mach.updPort_updPort, Mach.updPort_clk, Mach.updPort_port]
  refine Mach.updPort_congr ?_
  simp only [PortState.heardAt, h0, List.nil_append]

/-! ### Reply bytes (R197) -/

theorem Mach.replySend_idle {m : Mach} {p : Port} {idle : Nat} {b : Byte} {rest : List Byte} (hup : m.portUp p = true)
    (ha : (m.port p).async = true) (h0 : m.baudRate p ≠ 0) (hi : 2 * second ≤ idle * m.baudRate p) (hr : (m.port p).reply = b :: rest)
    (hx : (m.port p).executing = none) : m.replySend p idle b = m.updPort p (fun s =>
      { s with reply := s.reply.drop 1, finalLeft := s.finalLeft - 1, sdio := [b] }) := by
  have hlate : ¬ idle * m.baudRate p < 2 * second := Nat.not_lt.mpr hi
  simp only [Mach.replySend, hr, hup, ha, h0, hlate, decide_false, Bool.not_true, Bool.or_self, Bool.false_eq_true, if_false, if_true]
  rw [Mach.takeReply_idle _ (by rw [Mach.updPort_port]; exact hx), Mach.updPort_updPort]

/-! ### Lost data lines (R236) -/

/-- A clocked port whose command has ended with this final line. -/
def PortState.concluded (final : List Byte) (s : PortState) : PortState :=
  { s with
    executing := none, semsCmd := 0, dropReply := false, reply := s.reply ++ final, finalLeft := s.reply.length + final.length }

/-- A command whose data lines are all in the buffer ends once its final line finds room (R235). -/
theorem Mach.pump_final {m : Mach} {p : Port} {x : Executing} {since : Nat} (hx : (m.port p).executing = some x)
    (hw : x.why = .room since) (hl : x.lines = []) (hd : (m.port p).dropReply = false) (hs : (m.port p).async = false)
    (hr : (m.port p).reply.length + x.final.length ≤ replyRoom) :
    m.pump p = (m.updPort p (PortState.concluded x.final)).intBit p 0 := by
  have hsame : m.updPort p (fun s => { s with reply := (m.port p).reply }) = m := Mach.updPort_fixed rfl
  simp only [Mach.pump, hx, hw, hd, hl, fillReply, hsame, List.isEmpty_nil, hr, decide_true, Bool.and_self, Bool.false_eq_true, if_false,
    if_true, Mach.endCommand]
  refine congrArg (Mach.intBit · p 0) (Mach.updPort_congr ?_)
  simp only [PortState.typed, PortState.concluded, hs, Bool.false_and, Bool.false_eq_true, if_false]

theorem Mach.replyLost_due {m : Mach} {p : Port} {since : Nat} {todo : List WriteItem} {lines : List (List Byte)} {final : List Byte}
    {ck : Bool} (hx : (m.port p).executing = some ⟨.room since, todo, lines, final, ck⟩) (hl : lines ≠ [])
    (hd : since + second ≤ m.clk.now) (hdrop : (m.port p).dropReply = false) (hs : (m.port p).async = false)
    (hr : (m.port p).reply.length +
      (replyLine ck (ascii "lost " ++ decText (lines.map List.length).sum)).length + final.length ≤ replyRoom) :
    m.replyLost p = (m.updPort p (PortState.concluded
      (replyLine ck (ascii "lost " ++ decText (lines.map List.length).sum) ++ final))).intBit p 0 := by
  have hlate : ¬ m.clk.now < since + second := Nat.not_lt.mpr hd
  have hne : lines.isEmpty = false := by simpa using hl
  simp only [Mach.replyLost, hx, hne, hlate, decide_false, Bool.or_self, Bool.false_eq_true, if_false]
  generalize replyLine ck (ascii "lost " ++ decText (lines.map List.length).sum) = lost at hr ⊢
  rw [Mach.pump_final (x := ⟨.room since, todo, [], lost ++ final, ck⟩) (since := since) (by rw [Mach.updPort_port]) rfl rfl
    (by rw [Mach.updPort_port]; exact hdrop) (by rw [Mach.updPort_port]; exact hs)
    (by rw [Mach.updPort_port, List.length_append, ← Nat.add_assoc]; exact hr), Mach.updPort_updPort]
  rfl

/-- Settles O6: a line by `Mach.textInput_line`, a reply byte by `Mach.replySend_idle`, lost lines by `Mach.replyLost_due`. -/
theorem textLinesAndReplies : Obligations.TextLinesAndReplies := by
  refine ⟨fun s p e line hl hs ha he hlen hb h0 hlong hw => ?_, fun s p hc => ⟨fun idle b rest hup ha h0 hi hr hx => ?_,
    fun since todo lines final ck hn hx hl hd hdrop hs hon hr => ?_⟩⟩
  · obtain ⟨t, hx, hp, hparts, hport⟩ := goOn_updPort (Mach.textInput_line hl ha he ⟨hs, hw, hlong⟩ h0 hlen hb)
    refine ⟨t, hx, hp, ?_, hparts⟩
    rw [hport]
    simp only [PortState.lineEnded, PortState.heardAt, Mach.heard, h0, hlong, hw]
  · obtain ⟨t, hx, hp, hparts, hport⟩ := goOn_updPort (Mach.replySend_idle hup ha h0 hi hr hx)
    refine ⟨t, hx, hp, ?_, hparts⟩
    rw [hport, hr]
    rfl
  · obtain ⟨⟨b, n, hport⟩, hflag, hparts, hregs⟩ := Mach.updPort_intBit (p := p) (i := 0) (PortState.concluded
      (replyLine ck (ascii "lost " ++ decText (lines.map List.length).sum) ++ final)) hc hn hon (by decide)
    exact ⟨⟨_, s.pending⟩, congrArg (goOn s) (Mach.replyLost_due hx hl hd hdrop hs hr), rfl, by rw [hport]; rfl,
      by rw [hport, List.append_assoc]; rfl, hflag, hparts, hregs⟩

end Sys2Proof.Machine
end

section
/-! SUPPORT. The frame stores of a stream reader (R176 to R178): a fill that ends, and a STREAM_READ that a filled store serves. -/

namespace Sys2Proof.Machine

/-! ### Fills (R176, R177) -/

/-- A port whose fill has ended: its store holds the words, the other is as it was. -/
def PortState.filled (f : Fill) (ws : List (Nat × Word)) (s : PortState) : PortState :=
  { s with
    fill := none
    store0 := if f.second then s.store0 else some ⟨f.queue, ws⟩
    store1 := if f.second then some ⟨f.queue, ws⟩ else s.store1 }

theorem Mach.storeFillDone_due {m : Mach} {p : Port} {f : Fill} (hf : (m.port p).fill = some f) (hd : f.since + 12544 ≤ m.clk.now)
    (hon : m.on 5 = true) :
    m.storeFillDone p [] = m.updPort p (PortState.filled f ((m.q f.queue).wordsFrom f.start 256)) := by
  have : ¬ m.clk.now < f.since + fillTicks := Nat.not_lt.mpr hd
  simp only [Mach.storeFillDone, hf, this, hon, decide_false, Bool.not_true, Bool.or_self, Bool.false_eq_true, if_false, List.foldl_nil]
  refine Mach.updPort_congr ?_
  unfold PortState.filled
  cases f.second <;> rfl

/-! ### STREAM_READ (R178) -/

theorem wordsBytes_length (ws : List Word) : (wordsBytes ws).length = 4 * ws.length := by
  simp [wordsBytes, wordBytes, List.length_flatMap, Nat.mul_comm]

/-- A port that has served a STREAM_READ from a store: the other store fills from the words behind those served (R178). -/
def PortState.streamed (which : Bool) (q pos now : Nat) (s : PortState) : PortState :=
  ({ s with storeLast := which, moved := s.moved &&& ~~~(BitVec.ofNat 5 (2 ^ q)) } : PortState).startFill q pos now

/-- What a served STREAM_READ leaves: the next fill, the policy's mark of the queue gone (R539), and no more than the spare store. -/
theorem PortState.streamed_effect (which : Bool) (q pos now : Nat) (s : PortState) : ∃ a b, s.streamed which q pos now =
    { s with
      storeLast := which, moved := s.moved &&& ~~~(BitVec.ofNat 5 (2 ^ q)), fill := some ⟨!which, q, pos, now⟩
      store0 := a, store1 := b } := by cases which <;> exact ⟨_, _, rfl⟩

/-- The words that a store holds from a position on are served, and the other store starts to fill. -/
theorem Mach.serveStream_held {m : Mach} {p : Port} {q off n : Nat} {which : Bool} {ws : List Word} (hchk : m.streamCheck p q = 0)
    (hoff : off < (m.q q).readable.length * 1024) (hs : (m.port p).storeFor q ((m.q q).posOf off) = some (which, ws))
    (hn : n ≤ ws.length) : m.serveStream p q off n =
      (0, ws.take n, m.updPort p (PortState.streamed which q ((m.q q).posOf (off + n)) m.clk.now)) := by
  have h1 : ¬ (m.q q).readable.length * 1024 ≤ off := Nat.not_le.mpr hoff
  have h2 : ¬ ws.length < n := Nat.not_lt.mpr hn
  simp only [Mach.serveStream, hchk, ne_eq, not_true_eq_false, if_false, h1, hs, h2, Nat.sub_eq_zero_of_le hn, List.replicate_zero,
    List.append_nil]
  rfl

theorem Mach.streamFrame_runsOut {m : Mach} {p : Port} {e : FrameEnv} {queue : Byte} {offset : BitVec 24} {count : Byte} {which : Bool}
    {ws : List Word} (ha : m.arrives p e (0x82 :: queue :: natBytes 3 offset.toNat ++ [count]))
    (hr : m.runsOut p e (0x82 :: queue :: natBytes 3 offset.toNat ++ [count]) (1 + 4 * countOf count))
    (hchk : m.streamCheck p queue.toNat = 0) (hoff : offset.toNat < (m.q queue.toNat).readable.length * 1024)
    (hs : (m.port p).storeFor queue.toNat ((m.q queue.toNat).posOf offset.toNat) = some (which, ws)) (hn : countOf count ≤ ws.length) :
    m.streamFrame p e queue offset count = m.updPort p (fun s =>
      { (s.heardAt m.clk.now).streamed which queue.toNat ((m.q queue.toNat).posOf (offset.toNat + countOf count)) m.clk.now with
        sdio := m.driven p e (0x82 :: queue :: natBytes 3 offset.toNat ++ [count])
          (m.statusByte p 0 :: wordsBytes (ws.take (countOf count))) }) := by
  have hq : ∀ k, (m.leaseRestart p).q k = m.q k := fun k => by cases p <;> rfl
  have hserve := Mach.serveStream_held (m := m.leaseRestart p) (p := p) (n := countOf count)
    (by rw [Mach.leaseRestart_streamCheck]; exact hchk) (by rw [hq]; exact hoff) (by rw [hq, Mach.leaseRestart_port]; exact hs) hn
  have hlen : (m.statusByte p 0 :: wordsBytes (ws.take (countOf count))).length = 1 + 4 * countOf count := by
    rw [List.length_cons, wordsBytes_length, List.length_take, Nat.min_eq_left hn, Nat.add_comm]
  refine Mach.readFrame_runsOut (f := fun s =>
    (s.heardAt m.clk.now).streamed which queue.toNat ((m.q queue.toNat).posOf (offset.toNat + countOf count)) m.clk.now)
    ha (by rw [hlen]; exact hr) ?_ fun s => ?_
  · simp only [hserve, Mach.leaseRestart_statusByte, hq]
    rw [Mach.leaseRestart_eq, Mach.updPort_updPort, Mach.updPort_clk]
  · obtain ⟨a, b, h⟩ := PortState.streamed_effect which queue.toNat ((m.q queue.toNat).posOf (offset.toNat + countOf count)) m.clk.now
      (s.heardAt m.clk.now)
    rw [h]
    rfl

/-- Settles O7: a fill by `Mach.storeFillDone_due`, a STREAM_READ by `Mach.streamFrame_runsOut`. -/
theorem streamStoresFillAndServe : Obligations.StreamStoresFillAndServe := by
  refine ⟨fun s p f hf hd hon => ?_, fun s p e queue offset count which ws ha hr hchk hoff hs hn => ?_⟩
  · obtain ⟨t, he, hp, hparts, hport⟩ := goOn_updPort (Mach.storeFillDone_due hf hd hon)
    exact ⟨t, he, hp, hport, hparts⟩
  · obtain ⟨t, he, hp, hparts, hport⟩ := goOn_updPort (Mach.streamFrame_runsOut ha hr hchk hoff hs hn)
    obtain ⟨a, b, h⟩ := PortState.streamed_effect which queue.toNat ((s.m.q queue.toNat).posOf (offset.toNat + countOf count)) s.m.clk.now
      ((s.m.port p).heardAt s.m.clk.now)
    rw [h] at hport
    exact ⟨t, he, hp, by rw [hport], by rw [hport], by rw [hport]; rfl, by rw [hport]; rfl, hparts⟩

end Sys2Proof.Machine
end

section
/-! SUPPORT. Semaphores (R199, R200): the two registers of GO bits that claim and release them for a port. -/

namespace Sys2Proof.Machine

/-! ### Registers of GO bits -/

/-- Where the semaphore registers stand, and what their fields are. -/
theorem semRegs_place : ∀ a ∈ [0x440, 0x444], a < 0x4000 ∧ a ≤ lastOf a ∧ windowOf a = none ∧ isTxd a = false ∧ isIndex a = false ∧
    a ≠ 0x2C0C ∧ regDef a = some (RegDef.control 0 0xFFFF 0 0 0 0 []) := by decide

theorem Mach.rangeBad_semRegs (m : Mach) {a : Nat} (w : Word) (h : a ∈ [0x440, 0x444]) : m.rangeBad a w = false := by fin_cases h <;> rfl

/-- The semaphores that a word names. -/
theorem semBits (g : Word) : BitVec.ofNat 16 (g &&& 0xFFFF).toNat = g.setWidth 16 := by
  refine BitVec.eq_of_toNat_eq ?_
  rw [BitVec.toNat_ofNat, BitVec.toNat_and, BitVec.toNat_setWidth, show (0xFFFF : Word).toNat = 2 ^ 16 - 1 from rfl,
    Nat.and_two_pow_sub_one_eq_mod, Nat.mod_mod]

/-- A write to a register that holds GO bits alone which its block refuses: the code, and nothing done. -/
theorem Mach.busWrite_semRegs_refused {m : Mach} {ag : Agent} {k : AccessKind} {a : Nat} {w : Word} (h : a ∈ [0x440, 0x444])
    (hr : m.regRefuse ag a (m.reg a) (m.reg a) (goWord k w &&& 0xFFFF) ≠ 0) :
    m.busWrite ag k a w = (m.regRefuse ag a (m.reg a) (m.reg a) (goWord k w &&& 0xFFFF), m) := by
  obtain ⟨-, -, hw, ht, hi, ha, hd⟩ := semRegs_place a h
  have hold := written_go (RegDef.control 0 0xFFFF 0 0 0 0 []) k (m.reg a) w rfl rfl rfl
  have hz : (a = 0x2C0C && !bitAt w 0) = false := by simp [ha]
  simp only [Mach.busWrite, hw, hd]
  show m.controlWrite ag a (RegDef.control 0 0xFFFF 0 0 0 0 []) k w = _
  unfold Mach.controlWrite
  simp only [ht, hi, Bool.false_eq_true, if_false, hold, m.rangeBad_semRegs _ h, hz, Bool.false_and]
  simp only [RegDef.control, RegDef.inRange, List.all_nil, Bool.not_true, Bool.or_self, Bool.false_eq_true, if_false, ne_eq,
    not_true_eq_false, decide_false, Bool.false_and]

/-- The GO bits that a semaphore register takes: absorbed ones noted, then its own effect on the port's semaphores. -/
theorem Mach.busWrite_semRegs {m : Mach} {ag : Agent} {k : AccessKind} {a : Nat} {w : Word} (h : a ∈ [0x440, 0x444])
    (hr : m.regRefuse ag a (m.reg a) (m.reg a) (goWord k w &&& 0xFFFF) = 0) :
    m.busWrite ag k a w = (m.noteAbsorbed ag a (m.reg a &&& (goWord k w &&& 0xFFFF))).regDone ag a (m.reg a) (m.reg a)
      (goWord k w &&& 0xFFFF) := by
  obtain ⟨-, -, hw, ht, hi, ha, hd⟩ := semRegs_place a h
  exact busWrite_go m ag k a w 0xFFFF hw hd ht hi ha (m.rangeBad_semRegs · h) hr

/-! ### Claims and releases -/

/-- A port that has claimed semaphores, those of its executing command apart (R199). -/
def PortState.claimed (bits : BitVec 16) (s : PortState) : PortState := { s with sems := s.sems ||| (bits &&& ~~~s.semsCmd) }

/-- A port that has released semaphores (R200). -/
def PortState.released (bits : BitVec 16) (s : PortState) : PortState := { s with sems := s.sems &&& ~~~bits, semsCmd := s.semsCmd &&& ~~~bits }

/-- GO bits noted as absorbed change no register and no part but the register file's own. -/
theorem Mach.noteAbsorbed_effect (m : Mach) (ag : Agent) (a : Nat) (go : Word) : m.changesOnly (m.noteAbsorbed ag a go) [.regs] ∧
    ∀ x, (m.noteAbsorbed ag a go).reg x = m.reg x := by
  unfold Mach.noteAbsorbed
  split
  · exact ⟨fun x _ => m.agrees_refl x, fun _ => rfl⟩
  · exact ⟨fun x hx => by cases x <;> first | rfl | exact absurd (List.mem_singleton_self _) hx, fun _ => rfl⟩

theorem Mach.semsOf_congr {m n : Mach} {p : Port} (h : n.port p = m.port p) : n.semsOf p = m.semsOf p := by
  simp only [Mach.semsOf, h]

theorem Mach.busWrite_claim {m : Mach} {p : Port} {k : AccessKind} {w : Word} (h : (goWord k w).setWidth 16 &&& m.semsOf p.other = 0) :
    m.busWrite (.port p) k 0x440 w = (0, (m.noteAbsorbed (.port p) 0x440 (m.reg 0x440 &&& (goWord k w &&& 0xFFFF))).updPort p
      (PortState.claimed ((goWord k w).setWidth 16))) := by
  have hclaim : ∀ n : Mach, n.semsOf p.other = m.semsOf p.other → n.semClaim p (BitVec.ofNat 16 (goWord k w &&& 0xFFFF).toNat) =
      (0, n.updPort p (PortState.claimed ((goWord k w).setWidth 16))) := fun n hn => by
    simp only [Mach.semClaim, semBits, hn, h, ne_eq, not_true_eq_false, if_false]
    rfl
  obtain ⟨hparts, -⟩ := m.noteAbsorbed_effect (.port p) 0x440 (m.reg 0x440 &&& (goWord k w &&& 0xFFFF))
  have hother := Mach.semsOf_congr (Mach.port_of_agrees (hparts (portPart p.other) (by cases p <;> decide)))
  have hr : m.regRefuse (.port p) 0x440 (m.reg 0x440) (m.reg 0x440) (goWord k w &&& 0xFFFF) = 0 := congrArg Prod.fst (hclaim m rfl)
  rw [Mach.busWrite_semRegs (by decide) hr]
  exact congrArg (fun x : Nat × Mach => (0, x.2)) (hclaim _ hother)

theorem Mach.busWrite_release (m : Mach) (p : Port) (k : AccessKind) (w : Word) :
    m.busWrite (.port p) k 0x444 w = (0, (m.noteAbsorbed (.port p) 0x444 (m.reg 0x444 &&& (goWord k w &&& 0xFFFF))).updPort p
      (PortState.released ((goWord k w).setWidth 16))) := by
  rw [Mach.busWrite_semRegs (by decide) rfl]
  refine congrArg (Prod.mk 0) ?_
  show Mach.semRelease _ p (BitVec.ofNat 16 (goWord k w &&& 0xFFFF).toNat) = _
  rw [semBits]
  rfl

theorem Mach.busWrite_heldClaim {m : Mach} {p : Port} {k : AccessKind} {w : Word}
    (h : (goWord k w).setWidth 16 &&& m.semsOf p.other ≠ 0) : m.busWrite (.port p) k 0x440 w = (5, m) := by
  have hr : m.regRefuse (.port p) 0x440 (m.reg 0x440) (m.reg 0x440) (goWord k w &&& 0xFFFF) = 5 := by
    show (m.semClaim p (BitVec.ofNat 16 (goWord k w &&& 0xFFFF).toNat)).1 = 5
    rw [semBits, Mach.semClaim, if_pos h]
  rw [Mach.busWrite_semRegs_refused (by decide) (by rw [hr]; decide), hr]

/-- A served write that changes its port's semaphores: a frame with status OK, and no register. -/
theorem semWrite_served {s : State} {p : Port} {k : AccessKind} {a : Nat} {w go : Word} {f : PortState → PortState} (h : a ∈ [0x440, 0x444])
    (ht : s.m.takesWrite (.port p) k a) (hf : ∀ t : PortState, (f t).wcnt = t.wcnt)
    (hb : (s.m.touch (blockOf a)).busWrite (.port p) k a w =
      (0, ((s.m.touch (blockOf a)).noteAbsorbed (.port p) a go).updPort p f)) :
    ∃ t, goOn s (s.m.oneWrite (.port p) k a w) = .next t ∧ t.pending = s.pending ∧
      t.m.port p = { f (s.m.port p) with
        leaseSince := some s.m.clk.now, baudOff := false, last := 0, lastAt := some s.m.clk.now, wcnt := (s.m.port p).wcnt + 1 } ∧
      s.m.changesOnly t.m [.regs, portPart p] ∧ s.m.keepsRegs t.m [] := by
  obtain ⟨ha, hl, -⟩ := semRegs_place a h
  obtain ⟨hparts, hregs⟩ := (s.m.touch (blockOf a)).noteAbsorbed_effect (.port p) a go
  generalize (s.m.touch (blockOf a)).noteAbsorbed (.port p) a go = n at *
  have hn : ∀ x, x ≠ .regs → s.m.agrees n x := fun x hx =>
    Mach.agrees_trans (s.m.touch_agrees _ hx) (hparts x (by simpa using hx))
  have hport : n.port p = s.m.port p := Mach.port_of_agrees (hn (portPart p) (by cases p <;> decide))
  have hclk : n.clk = s.m.clk := hn .clk (by decide)
  refine ⟨⟨_, s.pending⟩, congrArg (goOn s) (oneWrite_served s.m (.port p) k a w ha hl ht hb), rfl, ?_, fun x hx => ?_, fun x _ => ?_⟩
  · show ((n.updPort p f).frameDone p 0).port p = _
    rw [Mach.frameDone_port, Mach.framed, Mach.heard, Mach.updPort_port, Mach.updPort_clk, hport, hclk, hf]
  · simp only [List.mem_cons, List.not_mem_nil, or_false, not_or] at hx
    have hx2 : x ∉ [portPart p] := by simpa using hx.2
    exact Mach.agrees_trans (hn x hx.1) (Mach.agrees_trans (n.updPort_changesOnly p f x hx2) (Mach.frameDone_agrees _ p 0 x hx2))
  · exact (settled_reg _ (.port p) x).trans ((n.updPort_reg p f x).trans (hregs x))

/-- Settles O16: a claim by `Mach.busWrite_claim` or, refused, `Mach.busWrite_heldClaim`; a release by `Mach.busWrite_release`. -/
theorem semaphoreWrites : Obligations.SemaphoreWrites := by
  intro s p k w hc
  have hsems : (s.m.touch 1).semsOf p.other = s.m.semsOf p.other := Mach.semsOf_congr (s.m.touch_port 1 _)
  refine ⟨fun ht h => ?_, fun ht h => ?_, fun ht => ?_⟩
  · exact semWrite_served (f := PortState.claimed _) (by decide) ht (fun _ => rfl) (Mach.busWrite_claim (by rw [← hsems] at h; exact h))
  · obtain ⟨hh, hup, hheld, hg⟩ := ht
    have hb : (s.m.touch (blockOf 0x440)).busWrite (.port p) k 0x440 w = (5, s.m.touch (blockOf 0x440)) :=
      Mach.busWrite_heldClaim (by rw [← hsems] at h; exact h)
    have he : s.m.oneWrite (.port p) k 0x440 w =
        ((s.m.touch (blockOf 0x440)).noteAccess (.port p) 5 (0x440 + kindBits k)).frameDone p 5 := by
      simp only [Mach.oneWrite, hup, if_true, updPort_held_nil s.m p hheld, Mach.portWrite, List.length_singleton, hh,
        kindBits_add_mod k (show 0x440 < 0x4000 by decide), hg, Bool.false_eq_true, if_false,
        Mach.regApply_refused (by decide) (by decide) hb (by decide) (by decide)]
    obtain ⟨h1, h2, h3, h4⟩ := Mach.refused_frame (m := s.m) (n := s.m.touch (blockOf 0x440)) (p := p) (c := 5) (0x440 + kindBits k) hc
      (by decide) (fun x hx => s.m.touch_agrees _ hx) rfl
    exact ⟨⟨_, s.pending⟩, congrArg (goOn s) he, rfl, by rw [h2]; rfl, by rw [h2]; rfl, h1, h3, h4⟩
  · exact semWrite_served (f := PortState.released _) (by decide) ht (fun _ => rfl) (Mach.busWrite_release _ p k w)

end Sys2Proof.Machine
end

section
/-! SUPPORT. A step without a command (R32, R35, R37, R205, R458; log entry 3): the end of the FOSC cycle and the clocks one count on. -/

namespace Sys2Proof.Machine

/-- A machine whose wait has ended, from its turn on (R458). -/
def Sm.resumed (s : Sm) : Sm :=
  match s.run, s.wait with
  | .wait, .ended => { s with run := .run, wait := .idle }
  | .wait, .expired _ _ => { s with run := .run, wait := .idle }
  | _, _ => s

theorem Sm.resumed_ended {s : Sm} (hr : s.run = .wait) (hw : s.wait = .ended ∨ ∃ a w, s.wait = .expired a w) :
    s.resumed = { s with run := .run, wait := .idle } := by
  obtain hw | ⟨a, w, hw⟩ := hw <;> simp only [Sm.resumed, hr, hw]

theorem Mach.mapSm_sm (m : Mach) (f : Nat → Sm → Sm) (n : Nat) :
    (m.mapSm f).sm n = if n < m.evt.machines.length then f n (m.sm n) else m.sm n := by
  simp only [Mach.mapSm, Mach.sm, List.getD_eq_getElem?_getD, List.getElem?_map, List.getElem?_zipIdx]
  by_cases hn : n < m.evt.machines.length
  · simp [hn]
  · simp [hn]

/-- The turn of the cycle's machine, and of no other. -/
theorem Mach.waitTurn_sm (m : Mach) (n : Nat) : m.waitTurn.sm n =
    if m.on 3 = true ∧ n = m.clk.now % 16 ∧ n < m.evt.machines.length then (m.sm n).resumed else m.sm n := by
  unfold Mach.waitTurn
  by_cases h3 : m.on 3 = true
  · rw [if_pos h3, Mach.mapSm_sm]
    by_cases hn : n = m.clk.now % 16
    · simp only [h3, ← hn, true_and, if_true]
      rfl
    · simp only [hn, false_and, and_false, if_false, ite_self]
  · simp [h3]

theorem Mach.waitTurn_changesOnly (m : Mach) : m.changesOnly m.waitTurn [.evt] ∧
    m.waitTurn.evt = { m.evt with machines := m.waitTurn.evt.machines } := by
  unfold Mach.waitTurn
  split
  · exact ⟨fun x hx => by cases x <;> first | rfl | exact absurd (List.mem_singleton_self _) hx, rfl⟩
  · exact ⟨fun x _ => m.agrees_refl x, rfl⟩

theorem Mach.firsLeave_none {m : Mach} (h : ∀ g < 4, (m.grp g).firLeft = false) : m.firsLeave = m :=
  foldl_fixed_of_mem _ fun g hg => by simp [h g (List.mem_range.mp hg)]

theorem Mach.auxTick_none {m : Mach} (h : ∀ c ∈ m.aux.chans, c.changes = []) : m.auxTick = m := by
  refine foldl_fixed_of_mem _ fun n _ => ?_
  have : (m.chan n).changes = [] := by
    unfold Mach.chan
    rw [List.getD_eq_getElem?_getD]
    cases hn : m.aux.chans[n]? with
    | none => rfl
    | some c => exact h c (List.mem_of_getElem? hn)
  simp [Mach.auxAdopt, this]

theorem Mach.goesAgain_none {m : Mach} (h : m.regs.absorbed = []) : m.goesAgain = m := by
  unfold Mach.goesAgain
  rw [h]
  exact congrArg (fun r : Regs => { m with regs := r }) (congrArg (fun l => { m.regs with absorbed := l }) h.symm)

theorem Mach.pulseEnd_off {m : Mach} (h : m.grd.st ≠ .fault) : m.pulseEnd = m := by simp [Mach.pulseEnd, h]

/-- A cycle at whose end nothing is due ends with the turn of its machine and the INT pins. -/
theorem Mach.cycleEnd_quiet {m : Mach} (ha : m.regs.absorbed = []) (hf : ∀ g < 4, (m.grp g).firLeft = false)
    (hc : ∀ c ∈ m.aux.chans, c.changes = []) : m.cycleEnd = m.waitTurn.intPins := by
  have hturn : m.waitTurn.regs.absorbed = [] := by rw [(m.waitTurn_changesOnly).1 .regs (by decide)]; exact ha
  rw [Mach.cycleEnd, Mach.firsLeave_none hf, Mach.auxTick_none hc, Mach.goesAgain_none hturn]

theorem Mach.fosc_congr {m n : Mach} (hc : n.clk = m.clk) : n.fosc = m.fosc := by
  simp only [Mach.fosc, Mach.on_congr hc]

theorem Mach.intActive_congr {m n : Mach} (hc : n.clk = m.clk) (hr : n.regs = m.regs) (p : Port) : n.intActive p = m.intActive p := by
  unfold Mach.intActive Mach.reg
  rw [Mach.on_congr hc, hr]

/-- Time that passes while nothing is due at the cycle's end. -/
theorem Mach.idle_quiet {m : Mach} (hg : m.grd.st ≠ .fault) (ha : m.regs.absorbed = []) (hf : ∀ g < 4, (m.grp g).firLeft = false)
    (hc : ∀ c ∈ m.aux.chans, c.changes = []) : m.idle = { m.waitTurn.intPins with clk := m.clk.next m.fosc } := by
  obtain ⟨hparts, -⟩ := m.waitTurn_changesOnly
  have hclk : m.waitTurn.intPins.clk = m.clk := hparts .clk (by decide)
  have hgrd : m.waitTurn.intPins.grd = m.grd := hparts .grd (by decide)
  unfold Mach.idle
  rw [Mach.cycleEnd_quiet ha hf hc]
  dsimp only
  rw [Mach.fosc_congr hclk, hclk]
  exact Mach.pulseEnd_off (by rw [hgrd]; exact hg)

/-- Settles O56: a step without a command is the cycle's end and the clocks' next count, by `Mach.idle_quiet`. -/
theorem stepRunsFrontCommand : Obligations.StepRunsFrontCommand := by
  refine ⟨fun c m rest => step_cons m c rest, fun m hg ha hf hc => ?_⟩
  obtain ⟨hparts, hevt⟩ := m.waitTurn_changesOnly
  have hint : ∀ p, m.waitTurn.intActive p = m.intActive p :=
    Mach.intActive_congr (hparts .clk (by decide)) (hparts .regs (by decide))
  refine ⟨⟨m.idle, []⟩, step_nil m, rfl, ?_⟩
  rw [Mach.idle_quiet hg ha hf hc]
  refine ⟨fun x hx => ?_, fun p => ?_, hevt, fun n hn => ?_, fun n hn hl h3 hr hw => ?_, fun h => ?_, fun h h0 => ?_, fun h => ?_⟩
  · have hx1 : x ≠ .evt := fun h => hx (by simp [h])
    have hturn := hparts x (by simpa using hx1)
    cases x <;> first | exact hturn | exact absurd (by simp) hx
  · cases p
    · show { m.waitTurn.pa with int := m.waitTurn.intActive .a } = _
      rw [hint, show m.waitTurn.pa = m.pa from hparts .pa (by decide)]
      rfl
    · show { m.waitTurn.pb with int := m.waitTurn.intActive .b } = _
      rw [hint, show m.waitTurn.pb = m.pb from hparts .pb (by decide)]
      rfl
  · exact (m.waitTurn_sm n).trans (if_neg fun h => hn h.2.1)
  · exact (m.waitTurn_sm n).trans ((if_pos ⟨h3, hn, hl⟩).trans (Sm.resumed_ended hr hw))
  · exact congrArg m.clk.next h
  · have hd0 : m.clk.dom.d0 = true := by
      by_contra hd
      simp [Mach.on, Mach.dom, hd] at h0
    refine (congrArg m.clk.next h).trans ?_
    simp [Clocks.next, hd0]
  · show (m.clk.next m.fosc).ts.toNat = m.ts
    rw [h]
    rfl

end Sys2Proof.Machine
end

section
/-! SUPPORT. The sizes of the block's tables (R301, R386, R456, R510, R531, R558, R599). -/

namespace Sys2Proof.Machine

/-- Settles O60: the reach of a step. -/
theorem stepKeepsSizes : Obligations.StepKeepsSizes :=
  fun _ _ hs h => (step_within h).2.2 hs

end Sys2Proof.Machine
end

section
/-! SUPPORT. A `read` whose words run from the index register of a window onto its data register (R139 to R141, R250). -/

namespace Sys2Proof.Machine

/-- The line of `read`, when it runs, reads its words for its port (R250). -/
theorem exec_read_runs {s t : State} {p : Port} {ck : Bool} {a n : Nat} (h : s.m.runsNow p ck (.read a n))
    (ht : exec (.readVerb p) s = .next t) : t.m = (s.m.begun p (.read a n)).runRead p ck a n := by
  have hrun : exec (.readVerb p) s = goOn s ((s.m.begun p (.read a n)).runRead p ck a n) :=
    congrArg (goOn s) (verbRow_runs s.m p 2 _ _ h rfl rfl)
  rw [hrun, goOn] at ht
  injection ht with ht
  rw [← ht]

/-- Reset with the line `read 0x2300 2`, just terminated, at port A. -/
def readLine : Mach := { Mach.reset with pa := { Mach.reset.pa with waiting := some ⟨ascii "read 0x2300 2", false, 0⟩ } }

/-- Canonical memories are kept from reset: the line stands outside them. -/
theorem readLine_canonical : readLine.canonical = true := Mach.reset_canonical

/-- The line is due, reads as the verb with its address and count, and nothing stands against it. -/
theorem readLine_runsNow : readLine.runsNow .a false (.read 0x2300 2) :=
  ⟨List.forall_mem_nil _, ⟨⟨ascii "read 0x2300 2", false, 0⟩, by decide +kernel, rfl⟩, by decide, by decide⟩

/-- The two words as they stand when the line begins. -/
def readLine_words : List Word := (List.range 2).map (fun i => (readLine.begun .a (.read 0x2300 2)).peek (0x2300 + 4 * i))

/-- Its reply finds room. -/
theorem readLine_fits : readLine.fits .a false (readLines 0x2300 false readLine_words) (finalText 0) :=
  ⟨by decide, by decide +kernel, by decide +kernel⟩

/-- Its second word is read through the data register of the event program, whose index moves on. -/
theorem readLine_steps : ((readLine.begun .a (.read 0x2300 2)).runRead .a false 0x2300 2).reg 0x2300 = 1 := by decide +kernel

/-- Refutes O51, by its clause on `read`: "outside the windows" is asked of the first address alone. At reset `read 0x2300 2` runs from the
index of the event program onto its data register 0x2304 and moves the index on, so that more than the port changes. -/
theorem not_showVerbs : ¬ Obligations.ShowVerbs := by
  intro h
  obtain ⟨-, -, -, -, -, -, -, -, -, -, -, -, hread, -⟩ := h ⟨readLine, []⟩ .a false readLine_canonical
  obtain ⟨t, ht, -, -, -, hkeep, -⟩ := hread 0x2300 2 readLine_words readLine_runsNow (by decide) (by decide) (by decide)
    (by decide +kernel) rfl rfl readLine_fits
  have hindex := hkeep 0x2300 (by decide)
  rw [exec_read_runs readLine_runsNow ht, readLine_steps] at hindex
  exact absurd hindex (by decide)

end Sys2Proof.Machine
end

section
/-! SUPPORT. The line `flue upgrade 0` on a manager whose running image does not verify while D7 is OFF (R128, R626, R661). -/

namespace Sys2Proof.Machine

/-- The line of `flue upgrade`, when it runs, begins the forwarding or answers why not (R626). -/
theorem exec_flueUpgrade_runs {s t : State} {p : Port} {ck : Bool} {w : Nat} (h : s.m.runsNow p ck (.flueUpgrade w))
    (ht : exec (.flueUpgrade p) s = .next t) :
    t.m = ((s.m.begun p (.flueUpgrade w)).flueUpgrade w).2.code p ck ((s.m.begun p (.flueUpgrade w)).flueUpgrade w).1 := by
  have hrun : exec (.flueUpgrade p) s =
      goOn s (((s.m.begun p (.flueUpgrade w)).flueUpgrade w).2.code p ck ((s.m.begun p (.flueUpgrade w)).flueUpgrade w).1) :=
    congrArg (goOn s) (verbRow_runs s.m p 12 _ _ h rfl rfl)
  rw [hrun, goOn] at ht
  injection ht with ht
  rw [← ht]

/-- Reset as a manager with worker 0 ACTIVE, D7 OFF, no bytes in the running slot, and the line `flue upgrade 0` at port A. -/
def forwardingLine : Mach :=
  { Mach.reset with
    clk := { Mach.reset.clk with dom := { Mach.reset.clk.dom with d7 := .off } }
    flue := { Mach.reset.flue with role := 2, workers := listUpd Mach.reset.flue.workers 0 (fun x => { x with st := 1 }) }
    nv := { Mach.reset.nv with slotA := ⟨.good, [], none⟩ }
    pa := { Mach.reset.pa with waiting := some ⟨ascii "flue upgrade 0", false, 0⟩ } }

/-- Canonical memories are kept from reset: what differs stands outside them. -/
theorem forwardingLine_canonical : forwardingLine.canonical = true := Mach.reset_canonical

/-- The line is due, reads as the verb with its worker, and nothing stands against it. -/
theorem forwardingLine_runsNow : forwardingLine.runsNow .a false (.flueUpgrade 0) :=
  ⟨List.forall_mem_nil _, ⟨⟨ascii "flue upgrade 0", false, 0⟩, by decide +kernel, rfl⟩, by decide, by decide⟩

/-- Its reply finds room, be it `ok` or REFUSED. -/
theorem forwardingLine_fits : forwardingLine.fits .a false [] (finalText 0) ∧ forwardingLine.fits .a false [] (finalText 18) :=
  ⟨⟨by decide, by decide +kernel, by decide +kernel⟩, ⟨by decide, by decide +kernel, by decide +kernel⟩⟩

/-- Without D7 the security block takes no event: IMGFAIL stays as it was. -/
theorem forwardingLine_imgfail :
    (((forwardingLine.begun .a (.flueUpgrade 0)).flueUpgrade 0).2.code .a false
      ((forwardingLine.begun .a (.flueUpgrade 0)).flueUpgrade 0).1).flag 0x3010 5 = false := by decide +kernel

/-- Refutes O55, by its clause on `flue upgrade` of an image that does not verify: it has IMGFAIL set whatever D7 is, where hardware of a
domain that is not ON takes no event (R128). -/
theorem not_fleetAndTestVerbs : ¬ Obligations.FleetAndTestVerbs := by
  intro h
  obtain ⟨-, hverbs, -⟩ := h ⟨forwardingLine, []⟩ .a false forwardingLine_canonical (by decide) (by decide)
  obtain ⟨-, -, hupgrade, -⟩ := hverbs forwardingLine_fits.1
  obtain ⟨t, ht, -, -, hfail⟩ := hupgrade 0 forwardingLine_runsNow (by decide) (by decide) (by decide) forwardingLine_fits.2
  have hflag := (hfail (by decide)).1
  rw [exec_flueUpgrade_runs forwardingLine_runsNow ht] at hflag
  exact absurd (forwardingLine_imgfail.symm.trans hflag) (by decide)

end Sys2Proof.Machine
end

section
/-! SUPPORT. Wilone lines that conclude (R232, R241, R246): the block as a line begins, and what its answer leaves of the block after its
execution. -/

namespace Sys2Proof.Machine

/-! ### A line begins (R241, R246) -/

/-- A line that begins leaves its line buffer, and the marks that a line before it is waited for. -/
theorem Mach.beginLine_effect (m : Mach) (p : Port) : (m.beginLine p).port p = { m.port p with waiting := none } ∧
    m.changesOnly (m.beginLine p) [.clk, .nv, portPart p] ∧
    (m.beginLine p).clk = { m.clk with entry := (m.beginLine p).clk.entry } ∧
    (m.beginLine p).nv = { m.nv with activation := (m.beginLine p).nv.activation } := by
  have hparts : ∀ (f : PortState → PortState) v e, m.changesOnly { m.updPort p f with nv := v, clk := e } [.clk, .nv, portPart p] :=
    fun f v e x hx => by cases p <;> cases x <;> first | rfl | exact absurd (by simp [portPart]) hx
  have hnow : (m.updPort p fun s => { s with waiting := none }).clk = m.clk := m.updPort_clk p _
  unfold Mach.beginLine
  dsimp only
  rw [hnow, Mach.updPort_nv]
  cases m.clk.entry with
  | none => cases p <;> exact ⟨rfl, hparts _ _ _, rfl, rfl⟩
  | some e =>
    dsimp only
    split <;> cases p <;> exact ⟨rfl, hparts _ _ _, rfl, rfl⟩

/-- The block as a command executes differs from the one before its line in the port and in the marks of a line waited for. -/
theorem Mach.begun_effect (m : Mach) (p : Port) (c : Cmd) :
    (m.begun p c).port p = { m.port p with waiting := none, semsCmd := m.cmdSems c } ∧
      m.changesOnly (m.begun p c) [.clk, .nv, portPart p] ∧ (m.begun p c).clk = (m.beginLine p).clk ∧
      (m.begun p c).nv = (m.beginLine p).nv := by
  obtain ⟨hport, hparts, -, -⟩ := m.beginLine_effect p
  refine ⟨?_, fun x hx => Mach.agrees_trans (hparts x hx) ?_, Mach.updPort_clk _ p _, Mach.updPort_nv _ p _⟩
  · rw [Mach.begun, Mach.updPort_port, hport]
  · exact Mach.updPort_changesOnly _ p _ x fun h => hx (by simp [List.mem_singleton.mp h])

section
variable (m : Mach) (p : Port) (c : Cmd)

theorem Mach.begun_agrees {x : Part} (h1 : x ≠ .clk) (h2 : x ≠ .nv) (h3 : x ≠ .pa) (h4 : x ≠ .pb) : m.agrees (m.begun p c) x :=
  (m.begun_effect p c).2.1 x (by cases p <;> simp [portPart, h1, h2, h3, h4])

theorem Mach.begun_regs : (m.begun p c).regs = m.regs :=
  m.begun_agrees p c (x := .regs) (by decide) (by decide) (by decide) (by decide)

theorem Mach.begun_reg (a : Nat) : (m.begun p c).reg a = m.reg a := by rw [Mach.reg, Mach.begun_regs, Mach.reg]

theorem Mach.begun_mem : (m.begun p c).mem = m.mem :=
  m.begun_agrees p c (x := .mem) (by decide) (by decide) (by decide) (by decide)

/-- Of the clocks only the entry's mark changes. -/
theorem Mach.begun_clk : (m.begun p c).clk = { m.clk with entry := (m.begun p c).clk.entry } := by
  obtain ⟨-, -, hclk, -⟩ := m.begun_effect p c
  rw [hclk]
  exact (m.beginLine_effect p).2.2.1

/-- Of the non-volatile store only the activation's mark changes. -/
theorem Mach.begun_nv : (m.begun p c).nv = { m.nv with activation := (m.begun p c).nv.activation } := by
  obtain ⟨-, -, -, hnv⟩ := m.begun_effect p c
  rw [hnv]
  exact (m.beginLine_effect p).2.2.2

theorem Mach.begun_on (k : Nat) : (m.begun p c).on k = m.on k := by
  unfold Mach.on Mach.dom
  rw [Mach.begun_clk]

theorem Mach.begun_canonical : (m.begun p c).canonical = m.canonical := by
  unfold Mach.canonical
  rw [Mach.begun_regs, Mach.begun_mem]

theorem Mach.begun_noClear : (m.begun p c).noClear ↔ m.noClear := by
  unfold Mach.noClear
  rw [Mach.begun_regs, Mach.begun_clk]

theorem Mach.begun_testing (b : Nat) : (m.begun p c).testing b = m.testing b := by
  have hbist : (m.begun p c).bist = m.bist := m.begun_agrees p c (x := .bist) (by decide) (by decide) (by decide) (by decide)
  unfold Mach.testing Mach.testNow
  rw [hbist]

theorem Mach.begun_blockCode (b : Nat) : (m.begun p c).blockCode b = m.blockCode b := by
  simp only [Mach.blockCode, Mach.begun_on, Mach.begun_testing]

end

/-! ### Its answer (R203, R232, R237, R240) -/

/-- A line that begins finds D5 ON. -/
theorem Mach.on_of_runsNow {m : Mach} {p : Port} {ck : Bool} {c : Cmd} (h : m.runsNow p ck c) : m.on 5 = true := by
  obtain ⟨-, ⟨l, hdue, -⟩, -, -⟩ := h
  unfold Mach.lineDue at hdue
  cases hw : (m.port p).waiting with
  | none => simp [hw] at hdue
  | some k =>
    simp only [hw] at hdue
    split at hdue
    · next h => simp only [Bool.and_eq_true] at h; exact h.1.1.1.1.2
    · exact absurd hdue (by simp)

/-- From the block as a command `c` executes, whose effect has changed what is listed, to its answer: the answer changes only the port
and its interrupt sources, and the command has ended. -/
theorem Mach.answer_concluded {m n : Mach} {p : Port} {ck : Bool} {c : Cmd} {data : List (List Byte)} {code : Nat} {ps qs : List Part}
    {as : List Nat} (hr : m.runsNow p ck c) (hc : m.canonical = true) (hf : m.fits p ck data (finalText code))
    (he : (m.begun p c).Edits n ps as) (hp : ∀ x ∈ ps, x ≠ .pa ∧ x ≠ .pb ∧ x ≠ .clk ∧ (x = .regs ∨ x ∈ qs)) :
    n.changesOnly (n.answer p ck data (finalText code)) [.regs, portPart p] ∧
      n.keepsRegs (n.answer p ck data (finalText code)) [intsrc p] ∧
      m.concluded (n.answer p ck data (finalText code)) p ck data code id qs as := by
  obtain ⟨bport, bparts, bclk, bnv⟩ := m.begun_effect p c
  have hkept : ∀ x, x = .pa ∨ x = .pb ∨ x = .clk → (m.begun p c).agrees n x := fun x hx => he.within.1 x fun hm => by
    obtain ⟨h1, h2, h3, -⟩ := hp x hm
    obtain h | h | h := hx
    · exact h1 h
    · exact h2 h
    · exact h3 h
  have hport : n.port p = { m.port p with waiting := none, semsCmd := m.cmdSems c } :=
    (Mach.port_of_agrees (hkept _ (by cases p <;> simp [portPart]))).trans bport
  have hclk : n.clk = (m.beginLine p).clk := (show n.clk = (m.begun p c).clk from hkept .clk (by simp)).trans bclk
  have hon : n.on 5 = true := by rw [Mach.on_congr (hclk.trans bclk.symm), Mach.begun_on]; exact Mach.on_of_runsNow hr
  have hcan : n.canonical = true := he.canonical ((m.begun_canonical p c).trans hc)
  have hfits : n.fits p ck data (finalText code) := by unfold Mach.fits; rw [hport]; exact hf
  rw [answer_fits n p ck data (finalText code) hfits]
  generalize hF : (fun s : PortState => PortState.typed _ s.prompt (ascii "> ")) = F
  have hF' : F (n.port p) = m.answered p ck data (finalText code) := by rw [← hF, hport]; rfl
  obtain ⟨iparts, iregs, iport⟩ := intEvent_frame (n.updPort p F) p (bitMask 0) (Mach.updPort_noClear p F he.noClear)
  have hparts : n.changesOnly ((n.updPort p F).intBit p 0) [.regs, portPart p] := fun x hx =>
    Mach.agrees_trans (n.updPort_changesOnly p F x fun h => hx (by simp [List.mem_singleton.mp h])) (iparts x hx)
  have hregs : n.keepsRegs ((n.updPort p F).intBit p 0) [intsrc p] := fun a ha => (iregs a ha).trans (n.updPort_reg p F a)
  have hagrees : ∀ x, x ∉ [.regs, portPart p] → x ∉ ps → (m.begun p c).agrees ((n.updPort p F).intBit p 0) x := fun x hx hps =>
    Mach.agrees_trans (he.within.1 x hps) (hparts x hx)
  refine ⟨hparts, hregs, ?_, fun x hx => ?_, fun a ha => ?_, ?_, fun hnv => ?_, ?_⟩
  · rw [Mach.updPort_port, hF'] at iport
    exact iport
  · simp only [List.mem_cons, not_or] at hx
    obtain ⟨h1, h2, h3, h4, h5⟩ := hx
    refine Mach.agrees_trans (bparts x (by simp [h1, h3, h4])) (hagrees x (by simp [h2, h4]) fun hm => ?_)
    obtain ⟨-, -, -, h | h⟩ := hp x hm
    · exact h2 h
    · exact h5 h
  · simp only [List.mem_cons, not_or] at ha
    rw [hregs a (by simp [ha.1]), he.keepsRegs a ha.2, Mach.begun_reg]
  · exact (show _ = n.clk from hparts .clk (by cases p <;> decide)).trans hclk
  · have hn : ((n.updPort p F).intBit p 0).nv = (m.begun p c).nv := hagrees .nv (by cases p <;> decide) fun hm => by
      obtain ⟨-, -, -, h | h⟩ := hp _ hm
      · exact absurd h (by decide)
      · exact hnv h
    exact hn.trans bnv
  · exact intBit_sets _ p 0 (Mach.updPort_canonical p F hcan) (Mach.updPort_noClear p F he.noClear)
      ((Mach.updPort_on p F 5).trans hon) (by decide)

end Sys2Proof.Machine
end

section
/-! SUPPORT. Images and where they are placed (R474, R475, R592): the words that an image's bytes spell, words placed in a sparse memory,
fields set in a register, and registers set one after another. -/

namespace Sys2Proof.Machine

/-! ### Numbers and words of an image -/

/-- The word at a place of an image's words is the number that its four bytes spell. -/
theorem bytesWords_getElem? (i : Nat) {bs : List Byte} (h : 4 * i + 4 ≤ bs.length) :
    (bytesWords bs)[i]? = some (word (bytesNat ((bs.drop (4 * i)).take 4))) := by
  induction i generalizing bs with
  | zero =>
    match bs, h with
    | _ :: _ :: _ :: _ :: _, _ => rfl
  | succ i ih =>
    match bs, h with
    | _ :: _ :: _ :: _ :: rest, h =>
      have hrest : 4 * i + 4 ≤ rest.length := by simp only [List.length_cons] at h; omega
      rw [show 4 * (i + 1) = 4 * i + 1 + 1 + 1 + 1 by omega]
      simpa [bytesWords] using ih hrest

theorem imageWords_getElem? {img : List Byte} {off n i : Nat} (hi : i < n) (h : off + 4 * i + 4 ≤ img.length) :
    (imageWords img off n)[i]? = some (word (imageNat img (off + 4 * i) 4)) := by
  have hw := bytesWords_getElem? i (bs := img.drop off) (by rw [List.length_drop]; omega)
  rw [List.drop_drop] at hw
  rw [imageWords, List.getElem?_take_of_lt hi, hw, imageNat]

theorem imageWords_length_le (img : List Byte) (off n : Nat) : (imageWords img off n).length ≤ n := List.length_take_le ..

/-- One byte of an image is a number below 256. -/
theorem imageNat_one_lt (img : List Byte) (off : Nat) : imageNat img off 1 < 256 := by
  unfold imageNat
  cases img.drop off with
  | nil => decide
  | cons b bs => simpa [bytesNat] using b.isLt

/-! ### Words placed in a sparse memory -/

theorem placeWords_concat (mem : List (Nat × Word)) (a : Nat) (ws : List Word) (w : Word) :
    placeWords mem a (ws ++ [w]) = cellSet (fun _ => 0) (placeWords mem a ws) (a + ws.length) w := by
  simp [placeWords, List.zipIdx_append]

/-- A word placed stands at its address. -/
theorem cellGet_placeWords {mem : List (Nat × Word)} (a : Nat) {ws : List Word} {i : Nat} {w : Word}
    (h : Memory.wf (fun _ => 0) mem = true) (hw : ws[i]? = some w) : cellGet (fun _ => 0) (placeWords mem a ws) (a + i) = w := by
  induction ws using List.reverseRecOn with
  | nil => simp at hw
  | append_singleton ws v ih =>
    rw [placeWords_concat]
    obtain hi | rfl | hi := Nat.lt_trichotomy i ws.length
    · rw [cellGet_cellSet_ne _ _ _ (by omega)]
      exact ih (by rwa [List.getElem?_append_left hi] at hw)
    · rw [cellGet_cellSet_self _ _ _ _ (wf_placeWords _ a ws h)]
      simpa using hw
    · rw [List.getElem?_eq_none (by simpa using hi)] at hw
      exact absurd hw (by simp)

/-- Outside the place the memory is as it was. -/
theorem cellGet_placeWords_outside (mem : List (Nat × Word)) {a x : Nat} {ws : List Word} (h : x < a ∨ a + ws.length ≤ x) :
    cellGet (fun _ => 0) (placeWords mem a ws) x = cellGet (fun _ => 0) mem x := by
  induction ws using List.reverseRecOn with
  | nil => rfl
  | append_singleton ws w ih =>
    rw [List.length_append, List.length_singleton] at h
    rw [placeWords_concat, cellGet_cellSet_ne _ _ _ (by omega), ih (by omega)]

/-! ### Fields set in a register -/

theorem bitAt_setBits (w : Word) {lo n i : Nat} (v : Nat) (hi : i < 32) :
    bitAt (setBits w lo n v) i = if lo ≤ i ∧ i < lo + n then v.testBit (i - lo) else bitAt w i := by
  simp only [bitAt, setBits, word, BitVec.getLsbD_or, BitVec.getLsbD_and, BitVec.getLsbD_not, BitVec.getLsbD_ofNat, hi, decide_true,
    Bool.true_and, Nat.testBit_shiftLeft, Nat.testBit_two_pow_sub_one, Nat.testBit_mod_two_pow]
  by_cases h1 : lo ≤ i
  · by_cases h2 : i < lo + n
    · simp [h1, h2, show i - lo < n by omega]
    · simp [h1, h2, show ¬ i - lo < n by omega]
  · simp [h1]

/-- A field that was set reads as its number. -/
theorem bitsAt_setBits (w : Word) {lo n : Nat} (v : Nat) (h : lo + n ≤ 32) : bitsAt (setBits w lo n v) lo n = v % 2 ^ n := by
  refine Nat.eq_of_testBit_eq fun i => ?_
  rw [testBit_bitsAt, Nat.testBit_mod_two_pow]
  by_cases hi : i < n
  · rw [bitAt_setBits w v (by omega), if_pos (by omega), Nat.add_sub_cancel_left]
  · simp [hi]

theorem Mach.fld_setFld_self {m : Mach} {a lo n : Nat} (v : Nat) (hc : m.canonical = true) (h : lo + n ≤ 32) :
    (m.setFld a lo n v).fld a lo n = v % 2 ^ n := by
  rw [Mach.setFld, Mach.fld, Mach.reg_setReg_self m a _ hc, bitsAt_setBits _ _ h]

theorem Mach.flag_setFld_self {m : Mach} {a i : Nat} (hc : m.canonical = true) (h : i < 32) : (m.setFld a i 1 1).flag a i = true := by
  rw [Mach.setFld, Mach.flag, Mach.reg_setReg_self m a _ hc, bitAt_setBits _ _ h]
  simp

/-- A bit that is set stays set as another one is. -/
theorem Mach.flag_setFld_one {m : Mach} {a i : Nat} (j : Nat) (hc : m.canonical = true) (h : i < 32) (hf : m.flag a i = true) :
    (m.setFld a j 1 1).flag a i = true := by
  rw [Mach.setFld, Mach.flag, Mach.reg_setReg_self m a _ hc, bitAt_setBits _ _ h]
  split
  · simp [show i - j = 0 by omega]
  · exact hf

theorem Mach.setFld_reg_ne (m : Mach) {a x : Nat} (lo n v : Nat) (h : x ≠ a) : (m.setFld a lo n v).reg x = m.reg x :=
  m.reg_setReg_ne _ h

/-! ### Steps of a chain of edits -/

namespace Mach.Edits

variable {m n : Mach} {ps : List Part} {as : List Nat}

theorem setFld (h : m.Edits n ps as) {a : Nat} (lo width v : Nat) (ha : a ∈ as) (hp : [Part.regs].all ps.contains = true) :
    m.Edits (n.setFld a lo width v) ps as := h.setReg _ ha hp

/-- The non-volatile store changes in itself. -/
theorem nv (h : m.Edits n ps as) (v : Nv) (hp : ps.contains .nv = true) : m.Edits { n with nv := v } ps as :=
  h.other (qs := [.nv]) ⟨fun x hx => by cases x <;> first | rfl | simp at hx, id, id⟩ (by simpa using hp)

end Mach.Edits

/-- Registers set one after another: each address holds its word, where no address is given two. -/
theorem Mach.setRegs_effect (f : Nat × Word → Word) (l : List (Nat × Word)) {m : Mach} (hc : m.canonical = true) (hn : m.noClear)
    (hl : ∀ r ∈ l, ∀ r' ∈ l, r.1 = r'.1 → r = r') :
    m.Edits (l.foldl (fun (m : Mach) r => m.setReg r.1 (f r)) m) [.regs] (l.map Prod.fst) ∧
      ∀ r ∈ l, (l.foldl (fun (m : Mach) r => m.setReg r.1 (f r)) m).reg r.1 = f r := by
  induction l using List.reverseRecOn with
  | nil => exact ⟨.refl hn, fun r hr => absurd hr List.not_mem_nil⟩
  | append_singleton l x ih =>
    obtain ⟨hedits, hwords⟩ := ih fun r hr r' hr' => hl r (List.mem_append_left _ hr) r' (List.mem_append_left _ hr')
    rw [List.foldl_append, List.foldl_cons, List.foldl_nil]
    refine ⟨?_, fun r hr => ?_⟩
    · have hsub : (l.map Prod.fst).all ((l ++ [x]).map Prod.fst).contains = true := List.all_eq_true.mpr fun a ha =>
        List.contains_iff_mem.mpr (by rw [List.map_append]; exact List.mem_append_left _ ha)
      exact (Mach.Edits.trans (.refl hn) hedits rfl hsub).setReg _ (by simp) rfl
    · by_cases hx : r.1 = x.1
      · rw [hl r hr x (by simp) hx]
        exact Mach.reg_setReg_self _ _ _ (hedits.canonical hc)
      · rw [Mach.reg_setReg_ne _ _ hx]
        refine hwords r ?_
        obtain hr | hr := List.mem_append.mp hr
        · exact hr
        · exact absurd (congrArg Prod.fst (List.mem_singleton.mp hr)) hx

end Sys2Proof.Machine
end

section
/-! SUPPORT. The verbs of upgrades (R257, R258, R688): what each does to the non-volatile store where nothing refuses it, and where its
command ends. -/

namespace Sys2Proof.Machine

/-! ### The store and the keys as a command executes -/

section
variable (m : Mach) (p : Port) (c : Cmd)

theorem Mach.begun_sec : (m.begun p c).sec = m.sec :=
  m.begun_agrees p c (x := .sec) (by decide) (by decide) (by decide) (by decide)

theorem Mach.begun_retired : (m.begun p c).retired = m.retired := by unfold Mach.retired; rw [m.begun_sec]

/-- What verifies follows from the keys and the life-cycle state. -/
theorem Mach.imageGood_congr {m n : Mach} (h : n.sec = m.sec) (k : UpKind) (img : List Byte) : n.imageGood k img = m.imageGood k img := by
  unfold Mach.imageGood Mach.imageSigned
  rw [h]

theorem Mach.imageGood_nv (m : Mach) (v : Nv) (k : UpKind) (img : List Byte) :
    Mach.imageGood { m with nv := v } k img = m.imageGood k img :=
  Mach.imageGood_congr (m := m) (n := { m with nv := v }) rfl k img

theorem Mach.begun_imageGood (k : UpKind) (img : List Byte) : (m.begun p c).imageGood k img = m.imageGood k img :=
  Mach.imageGood_congr (m.begun_sec p c) k img

theorem Mach.begun_nv_eq : (m.begun p c).nv = (m.beginLine p).nv := (m.begun_effect p c).2.2.2

theorem Mach.begun_upgrade : (m.begun p c).nv.upgrade = m.nv.upgrade := by rw [m.begun_nv]

theorem Mach.begun_images : (m.begun p c).nv.images = m.nv.images := by rw [m.begun_nv]

theorem Mach.begun_runB : (m.begun p c).nv.runB = m.nv.runB := by rw [m.begun_nv]

theorem Mach.begun_slot (b : Bool) : (m.begun p c).slot b = m.slot b := by unfold Mach.slot; rw [m.begun_nv]

theorem Mach.begun_libImage (k : UpKind) (l : Nat) : (m.begun p c).libImage k l = m.libImage k l := by
  unfold Mach.libImage; rw [m.begun_images]

theorem Mach.begun_upgradeOf {m : Mach} {u : Upgrade} (h : m.nv.upgrade = some u) (hp : u.port = p) :
    (m.begun p c).upgradeOf p = some u := by
  simp [Mach.upgradeOf, m.begun_upgrade, h, hp]

end

/-! ### Their operations -/

theorem Mach.upgradeBegin_opens {m : Mach} (p : Port) (k : UpKind) (e size : Nat) (hr : m.retired = false)
    (hu : m.nv.upgrade = none) :
    m.upgradeBegin p k e size = (0, { m with nv := { m.nv with upgrade := some ⟨p, k, e, size, []⟩ } }) := by
  simp [Mach.upgradeBegin, hr, hu]

theorem Mach.upgradeData_places {m : Mach} {p : Port} {u : Upgrade} (off : Nat) (bs : List Byte) (hr : m.retired = false)
    (hu : m.upgradeOf p = some u) : m.upgradeData p off bs =
      (0, { m with nv := { m.nv with upgrade := some { u with pieces := placePiece u.pieces off bs } } }) := by
  simp [Mach.upgradeData, hr, hu]

theorem Mach.upgradeAbort_closes {m : Mach} {p : Port} {u : Upgrade} (hr : m.retired = false) (hu : m.upgradeOf p = some u) :
    m.upgradeAbort p = (0, { m with nv := { m.nv with upgrade := none } }) := by
  simp [Mach.upgradeAbort, hr, hu]

/-- A firmware image goes to the slot that does not run, which becomes TRY and NEXT; the slot that runs keeps its image. -/
theorem Mach.storeImage_fw (m : Mach) (p : Port) {u : Upgrade} (img : List Byte) (h : u.kind = .fw) :
    ∃ v, m.storeImage p u img false = { m with nv := v } ∧ Mach.slot { m with nv := v } (!m.nv.runB) = ⟨.try_, img, none⟩ ∧
      Mach.slot { m with nv := v } m.nv.runB = m.slot m.nv.runB ∧ v.nextB = !m.nv.runB ∧
      v.activation = some (some p, m.clk.now) ∧ v.images = m.nv.images ∧ v.upgrade = m.nv.upgrade := by
  simp only [Mach.storeImage, h, Mach.updSlot, Mach.slot]
  cases m.nv.runB <;> exact ⟨_, rfl, rfl, rfl, rfl, rfl, rfl, rfl⟩

/-- An image of another kind takes its library entry. -/
theorem Mach.storeImage_library (m : Mach) (p : Port) {u : Upgrade} (img : List Byte) (h : u.kind ≠ .fw) :
    m.storeImage p u img false =
      { m with nv := { m.nv with images := m.nv.images.filter (fun x => x.1 != u.entry) ++ [(u.entry, img)] } } := by
  unfold Mach.storeImage
  cases hk : u.kind with
  | fw => exact absurd hk h
  | engine => rfl
  | event => rfl

/-- A commit whose image verifies, its rows good, closes the upgrade and stores the image. -/
theorem Mach.upgradeCommit_stores {m : Mach} {p : Port} {u : Upgrade} {img : List Byte} (hr : m.retired = false)
    (hb : m.blockCode 12 = 0) (hu : m.upgradeOf p = some u) (hi : u.image = some img) (hg : m.imageGood u.kind img = true) :
    m.upgradeCommit p .good = (0, Mach.storeImage { m with nv := { m.nv with upgrade := none } } p u img false) := by
  unfold Mach.upgradeCommit
  rw [hu]
  dsimp only
  rw [hr, hb, hi]
  dsimp only
  rw [Mach.imageGood_nv, hg]
  rfl

/-- What the commit leaves in the store, by the image's kind. -/
theorem Mach.upgradeCommit_store {m : Mach} {p : Port} {u : Upgrade} {img : List Byte} (hr : m.retired = false)
    (hb : m.blockCode 12 = 0) (hu : m.upgradeOf p = some u) (hi : u.image = some img) (hg : m.imageGood u.kind img = true) :
    ∃ v, m.upgradeCommit p .good = (0, { m with nv := v }) ∧ v.upgrade = none ∧
      (u.kind = .fw → Mach.slot { m with nv := v } (!m.nv.runB) = ⟨.try_, img, none⟩ ∧
        Mach.slot { m with nv := v } m.nv.runB = m.slot m.nv.runB ∧ v.nextB = !m.nv.runB ∧
        v.activation = some (some p, m.clk.now) ∧ v.images = m.nv.images) ∧
      (u.kind ≠ .fw → v = { m.nv with
        upgrade := none, images := m.nv.images.filter (fun x => x.1 != u.entry) ++ [(u.entry, img)] }) := by
  rw [Mach.upgradeCommit_stores hr hb hu hi hg]
  by_cases hk : u.kind = .fw
  · obtain ⟨v, hstored, hother, hruns, hnext, hact, himages, hclosed⟩ :=
      Mach.storeImage_fw { m with nv := { m.nv with upgrade := none } } p img hk
    exact ⟨v, congrArg _ hstored, hclosed, fun _ => ⟨hother, hruns, hnext, hact, himages⟩, fun h => absurd hk h⟩
  · exact ⟨_, congrArg _ (Mach.storeImage_library _ p img hk), rfl, fun h => absurd h hk, fun _ => rfl⟩

/-! ### The pieces of an upgrade -/

/-- A piece placed starts with its bytes. -/
theorem placePiece_self (l : List (Nat × List Byte)) (off : Nat) (bs : List Byte) :
    ((placePiece l off bs).find? (fun x => x.1 == off)).map (fun x => x.2.take bs.length) = some bs := by
  unfold placePiece
  cases h : l.find? (fun x => x.1 == off) with
  | none => simp [List.find?_append, h]
  | some y =>
    obtain ⟨o, old⟩ := y
    have hcomp : ((fun x : Nat × List Byte => x.1 == off) ∘ fun x => if x.1 = off then (off, bs ++ old.drop bs.length) else x) =
        fun x => x.1 == off := funext fun x => by by_cases hx : x.1 = off <;> simp [hx]
    have ho : o = off := by simpa using List.find?_some h
    dsimp only
    rw [List.find?_map, hcomp, h]
    simp [ho]

/-- Pieces at other offsets stay. -/
theorem placePiece_other (l : List (Nat × List Byte)) {off o : Nat} (bs : List Byte) (ho : o ≠ off) :
    (placePiece l off bs).find? (fun x => x.1 == o) = l.find? (fun x => x.1 == o) := by
  unfold placePiece
  cases h : l.find? (fun x => x.1 == off) with
  | none => simp [List.find?_append, Ne.symm ho]
  | some y =>
    obtain ⟨_, old⟩ := y
    dsimp only
    clear h
    induction l with
    | nil => rfl
    | cons x xs ih =>
      by_cases hx : x.1 = off
      · simpa [hx, Ne.symm ho] using ih
      · by_cases hxo : x.1 = o
        · simp [hxo, ho]
        · simpa [hx, hxo] using ih

/-! ### Where their lines end -/

/-- A command that has changed the non-volatile store alone, as its answer leaves the block. -/
theorem Mach.nv_concluded {m n : Mach} {p : Port} {ck : Bool} {c : Cmd} {data : List (List Byte)} {code : Nat} {v : Nv}
    (hr : m.runsNow p ck c) (hc : m.canonical = true) (hf : m.fits p ck data (finalText code))
    (hn : n = { m.begun p c with nv := v }) :
    (n.answer p ck data (finalText code)).nv = v ∧ m.concluded (n.answer p ck data (finalText code)) p ck data code id [.nv] [] := by
  have he : (m.begun p c).Edits n [.nv] [] := hn ▸ (Mach.Edits.refl ((m.begun_noClear p c).mpr hr.1)).nv v rfl
  obtain ⟨hparts, -, hconc⟩ := Mach.answer_concluded hr hc hf he (qs := [.nv]) (by simp)
  exact ⟨(hparts .nv (by cases p <;> decide)).trans (congrArg Mach.nv hn), hconc⟩

/-- A verb that has changed the non-volatile store alone ends with `ok`. -/
theorem nvVerb_ends {s : State} {p : Port} {ck : Bool} {c : Cmd} {o : Host.Outcome State Fault Refusal} {r : Nat × Mach} {v : Nv}
    (hc : s.m.canonical = true) (hf : s.m.fits p ck [] (finalText 0)) (hr : s.m.runsNow p ck c)
    (ho : o = goOn s (Mach.ends r p ck)) (hop : r = (0, { s.m.begun p c with nv := v })) :
    ∃ t, o = .next t ∧ t.pending = s.pending ∧ t.m.nv = v ∧ s.m.concluded t.m p ck [] 0 id [.nv] [] := by
  subst hop
  obtain ⟨hnv, hconc⟩ := Mach.nv_concluded (v := v) hr hc hf rfl
  exact ⟨_, ho, rfl, hnv, hconc⟩

section
variable {s : State} {p : Port} {ck : Bool} (hc : s.m.canonical = true) (hf : s.m.fits p ck [] (finalText 0))
include hc hf

theorem exec_upgradeBegin_runs {k : UpKind} {e n : Nat} (hr : s.m.runsNow p ck (.upgradeBegin k e n)) (ht : s.m.retired = false)
    (hu : s.m.nv.upgrade = none) : ∃ t, exec (.upgradeBegin p) s = .next t ∧ t.pending = s.pending ∧
      t.m.nv = { (s.m.beginLine p).nv with upgrade := some ⟨p, k, e, n, []⟩ } ∧ s.m.concluded t.m p ck [] 0 id [.nv] [] := by
  have hop := Mach.upgradeBegin_opens p k e n ((s.m.begun_retired p (.upgradeBegin k e n)).trans ht)
    ((s.m.begun_upgrade p _).trans hu)
  rw [Mach.begun_nv_eq] at hop
  exact nvVerb_ends hc hf hr (congrArg (goOn s) (verbRow_runs s.m p 15 _ _ hr rfl rfl)) hop

theorem exec_upgradeData_runs {off : Nat} {bs : List Byte} {u : Upgrade} (hr : s.m.runsNow p ck (.upgradeData off bs))
    (ht : s.m.retired = false) (hu : s.m.nv.upgrade = some u) (hp : u.port = p) :
    ∃ t, exec (.upgradeData p) s = .next t ∧ t.pending = s.pending ∧
      t.m.nv = { (s.m.beginLine p).nv with upgrade := some { u with pieces := placePiece u.pieces off bs } } ∧
      s.m.concluded t.m p ck [] 0 id [.nv] [] := by
  have hop := Mach.upgradeData_places off bs ((s.m.begun_retired p (.upgradeData off bs)).trans ht) (Mach.begun_upgradeOf p _ hu hp)
  rw [Mach.begun_nv_eq] at hop
  exact nvVerb_ends hc hf hr (congrArg (goOn s) (verbRow_runs s.m p 15 _ _ hr rfl rfl)) hop

theorem exec_upgradeAbort_runs {u : Upgrade} (hr : s.m.runsNow p ck .upgradeAbort) (ht : s.m.retired = false)
    (hu : s.m.nv.upgrade = some u) (hp : u.port = p) : ∃ t, exec (.upgradeAbort p) s = .next t ∧ t.pending = s.pending ∧
      t.m.nv = { (s.m.beginLine p).nv with upgrade := none } ∧ s.m.concluded t.m p ck [] 0 id [.nv] [] := by
  have hop := Mach.upgradeAbort_closes ((s.m.begun_retired p .upgradeAbort).trans ht) (Mach.begun_upgradeOf p _ hu hp)
  rw [Mach.begun_nv_eq] at hop
  exact nvVerb_ends hc hf hr (congrArg (goOn s) (verbRow_runs s.m p 15 _ _ hr rfl rfl)) hop

theorem exec_upgradeCommit_runs {col : Nat} {u : Upgrade} {img : List Byte} (hr : s.m.runsNow p ck (.upgradeCommit col))
    (ht : s.m.retired = false) (hb : s.m.blockCode 12 = 0) (hu : s.m.nv.upgrade = some u) (hp : u.port = p)
    (hi : u.image = some img) (hg : s.m.imageGood u.kind img = true) :
    ∃ t, exec (.upgradeCommit p .good) s = .next t ∧ t.pending = s.pending ∧
      (u.kind = .fw → t.m.slot (!s.m.nv.runB) = ⟨.try_, img, none⟩ ∧ t.m.slot s.m.nv.runB = s.m.slot s.m.nv.runB ∧
        t.m.nv.nextB = !s.m.nv.runB ∧ t.m.nv.activation = some (some p, s.m.clk.now) ∧ t.m.nv.images = s.m.nv.images) ∧
      (u.kind ≠ .fw → t.m.nv = { (s.m.beginLine p).nv with
        upgrade := none, images := s.m.nv.images.filter (fun x => x.1 != u.entry) ++ [(u.entry, img)] }) ∧
      t.m.nv.upgrade = none ∧ s.m.concluded t.m p ck [] 0 id [.nv] [] := by
  obtain ⟨v, hop, hclosed, hfw, hlib⟩ := Mach.upgradeCommit_store (m := s.m.begun p (.upgradeCommit col))
    ((Mach.begun_retired ..).trans ht) ((Mach.begun_blockCode ..).trans hb) (Mach.begun_upgradeOf p _ hu hp) hi
    ((Mach.begun_imageGood ..).trans hg)
  have hrow : exec (.upgradeCommit p .good) s = goOn s (((s.m.begun p (.upgradeCommit col)).upgradeCommit p .good).2.codeAt p ck col
      ((s.m.begun p (.upgradeCommit col)).upgradeCommit p .good).1) :=
    congrArg (goOn s) (verbRow_runs s.m p 15 _ _ hr rfl rfl)
  rw [hop] at hrow
  rw [Mach.begun_runB, Mach.begun_images, Mach.begun_slot, show (s.m.begun p (.upgradeCommit col)).clk.now = s.m.clk.now by
    rw [Mach.begun_clk]] at hfw
  rw [Mach.begun_images, Mach.begun_nv_eq] at hlib
  obtain ⟨hnv, hconc⟩ := Mach.nv_concluded (v := v) hr hc hf rfl
  refine ⟨_, hrow, rfl, fun hk => ?_, fun hk => hnv.trans (hlib hk), (congrArg Nv.upgrade hnv).trans hclosed, hconc⟩
  obtain ⟨hother, hruns, hnext, hact, himages⟩ := hfw hk
  have hslot : ∀ x, Mach.slot (Mach.answer { s.m.begun p (.upgradeCommit col) with nv := v } p ck [] (finalText 0)) x =
      Mach.slot { s.m.begun p (.upgradeCommit col) with nv := v } x := fun x => by unfold Mach.slot; rw [hnv]
  exact ⟨(hslot _).trans hother, (hslot _).trans hruns, (congrArg Nv.nextB hnv).trans hnext, (congrArg Nv.activation hnv).trans hact,
    (congrArg Nv.images hnv).trans himages⟩

end

end Sys2Proof.Machine
end

section
/-! SUPPORT. The verbs that load library images (R474, R475, R592): program words in an engine's or the event engine's memory, the
contexts and registers that an image sets, and where the lines end. -/

namespace Sys2Proof.Machine

/-- A list holds what it lists. -/
theorem all_contains_self (l : List Nat) : l.all l.contains = true := List.all_eq_true.mpr fun _ ha => List.contains_iff_mem.mpr ha

theorem intsrc_lt (p : Port) : intsrc p < 0x2000 := by cases p <;> decide

/-! ### The contexts of an engine image (R592) -/

/-- The register of a context's start address. -/
def ctxStart (n c : Nat) : Nat := 0x2400 + 128 * n + 16 * c

theorem ctxStart_inj {n c d : Nat} (h : ctxStart n c = ctxStart n d) : c = d := by unfold ctxStart at h; omega

theorem ctxStart_ne_ctxEn (n c : Nat) : ctxStart n c ≠ 0x2718 := by unfold ctxStart; omega

/-- A context gets its start address and its enable bit. -/
def Mach.enableCtx (n : Nat) (v : Nat → Nat) (m : Mach) (c : Nat) : Mach :=
  (m.setFld (ctxStart n c) 0 8 (v c)).setFld 0x2718 (8 * n + c) 1 1

theorem Mach.enableCtx_edits (m : Mach) {n c : Nat} (v : Nat → Nat) (hc : c < 8) (hn : m.noClear) :
    m.Edits (Mach.enableCtx n v m c) [.regs] (0x2718 :: (List.range 8).map (ctxStart n)) :=
  ((Mach.Edits.refl hn).setFld _ _ _ (List.mem_cons_of_mem _ (List.mem_map_of_mem (List.mem_range.mpr hc))) rfl).setFld _ _ _
    List.mem_cons_self rfl

/-- The contexts of a list enabled one after another: each stands with its start address and its bit. -/
theorem Mach.enableCtxs_effect {m : Mach} {n : Nat} (v : Nat → Nat) (l : List Nat) (hl : ∀ c ∈ l, c < 8) (hn : n < 4)
    (hcan : m.canonical = true) (hno : m.noClear) :
    m.Edits (l.foldl (Mach.enableCtx n v) m) [.regs] (0x2718 :: (List.range 8).map (ctxStart n)) ∧
      ∀ c ∈ l, (l.foldl (Mach.enableCtx n v) m).fld (ctxStart n c) 0 8 = v c % 2 ^ 8 ∧
        (l.foldl (Mach.enableCtx n v) m).flag 0x2718 (8 * n + c) = true := by
  induction l using List.reverseRecOn with
  | nil => exact ⟨.refl hno, fun c hc => absurd hc List.not_mem_nil⟩
  | append_singleton l d ih =>
    obtain ⟨he, hset⟩ := ih fun c hc => hl c (List.mem_append_left _ hc)
    have hd : d < 8 := hl d (by simp)
    have hstart : ctxStart n d ≠ 0x2718 := ctxStart_ne_ctxEn n d
    rw [List.foldl_append, List.foldl_cons, List.foldl_nil]
    generalize l.foldl (Mach.enableCtx n v) m = k at he hset
    have hk : k.canonical = true := he.canonical hcan
    have hk' : (k.setFld (ctxStart n d) 0 8 (v d)).canonical = true :=
      ((Mach.Edits.refl he.noClear (ps := [.regs]) (as := [ctxStart n d])).setFld _ _ _ (by simp) rfl).canonical hk
    refine ⟨he.trans (k.enableCtx_edits v hd he.noClear) rfl (all_contains_self _), fun c hc => ?_⟩
    by_cases hcd : c = d
    · subst hcd
      refine ⟨?_, Mach.flag_setFld_self hk' (by omega)⟩
      rw [Mach.enableCtx, Mach.fld, Mach.setFld_reg_ne _ _ _ _ hstart]
      exact Mach.fld_setFld_self _ hk (by omega)
    · have hc' : c ∈ l := by simpa [hcd] using hc
      obtain ⟨hfld, hflag⟩ := hset c hc'
      have hc8 : c < 8 := hl c hc
      refine ⟨?_, Mach.flag_setFld_one _ hk' (by omega) ?_⟩
      · rw [Mach.enableCtx, Mach.fld, Mach.setFld_reg_ne _ _ _ _ (ctxStart_ne_ctxEn n c),
          Mach.setFld_reg_ne _ _ _ _ fun h => hcd (ctxStart_inj h)]
        exact hfld
      · rw [Mach.flag, Mach.setFld_reg_ne _ _ _ _ hstart.symm]
        exact hflag

/-! ### An engine image placed -/

/-- What the limits of an engine image say of its words. -/
theorem engineLimits_bounds {img : List Byte} (h : engineLimits img = true) :
    imageNat img 6 1 + imageNat img 8 2 ≤ 256 ∧ 24 + 4 * imageNat img 8 2 ≤ img.length := by
  simp only [engineLimits, Bool.and_eq_true, decide_eq_true_eq, beq_iff_eq] at h
  obtain ⟨⟨⟨-, h1⟩, h2⟩, -⟩ := h
  exact ⟨h1, by omega⟩

theorem Mach.engWord_of_lt (m : Mach) {n k : Nat} (hn : n < 4) (hk : k < 256) :
    m.engWord n k = cellGet (fun _ => 0) m.mem.engProg (256 * n + k) := by
  rw [Mach.engWord, Nat.mod_eq_of_lt hn, Nat.mod_eq_of_lt hk, Nat.mul_comm]

/-- The program memory of the engines after an image took its place: the image's words there, every other word as it was. -/
theorem engProg_placed {a b : Mach} {n : Nat} {img : List Byte} (hc : a.canonical = true) (hn : n < 4) (hl : engineLimits img = true)
    (hb : b.mem.engProg =
      placeWords a.mem.engProg (256 * n + imageNat img 6 1) (imageWords img 24 (imageNat img 8 2))) :
    (∀ i < imageNat img 8 2, b.engWord n (imageNat img 6 1 + i) = word (imageNat img (24 + 4 * i) 4)) ∧
      (∀ k < 256, (k < imageNat img 6 1 ∨ imageNat img 6 1 + imageNat img 8 2 ≤ k) → b.engWord n k = a.engWord n k) ∧
      ∀ k < 4, k ≠ n → ∀ i < 256, b.engWord k i = a.engWord k i := by
  obtain ⟨hfit, hlen⟩ := engineLimits_bounds hl
  have hwords := imageWords_length_le img 24 (imageNat img 8 2)
  have hwf : Memory.wf (fun _ => 0) a.mem.engProg = true := by
    simp only [Mach.canonical, Bool.and_eq_true] at hc
    exact hc.1.2
  refine ⟨fun i hi => ?_, fun k hk ho => ?_, fun k hk hkn i hi => ?_⟩
  · rw [b.engWord_of_lt hn (by omega), hb, ← Nat.add_assoc]
    exact cellGet_placeWords _ hwf (imageWords_getElem? hi (by omega))
  · rw [b.engWord_of_lt hn hk, a.engWord_of_lt hn hk, hb]
    exact cellGet_placeWords_outside _ (by omega)
  · rw [b.engWord_of_lt hk hi, a.engWord_of_lt hk hi, hb]
    exact cellGet_placeWords_outside _ (by omega)

/-- An engine image placed: its words, its contexts, and the result of the engine spoiled. -/
theorem Mach.placeEngine_effect {m : Mach} {n : Nat} {img : List Byte} (hcan : m.canonical = true) (hno : m.noClear) (hn : n < 4)
    (hlen : m.eng.engs.length = 4) :
    m.Edits (m.placeEngine n img) [.regs, .mem, .eng] (0x2718 :: (List.range 8).map (ctxStart n)) ∧
      (m.placeEngine n img).mem.engProg =
        placeWords m.mem.engProg (256 * n + imageNat img 6 1) (imageWords img 24 (imageNat img 8 2)) ∧
      ((m.placeEngine n img).engine n).resok = false ∧
      ∀ c < 8, (imageNat img 10 1).testBit c = true → (m.placeEngine n img).fld (ctxStart n c) 0 8 = imageNat img (16 + c) 1 ∧
        (m.placeEngine n img).flag 0x2718 (8 * n + c) = true := by
  have hfold : m.placeEngine n img = ((List.range 8).filter (fun c => (imageNat img 10 1).testBit c)).foldl
    (Mach.enableCtx n fun c => imageNat img (16 + c) 1) (Mach.engSpoil { m with mem := { m.mem with
      engProg := placeWords m.mem.engProg (256 * n + imageNat img 6 1) (imageWords img 24 (imageNat img 8 2)) } } n) := rfl
  generalize hk : Mach.engSpoil _ n = k at hfold
  have hplaced : m.Edits k [.regs, .mem, .eng] (0x2718 :: (List.range 8).map (ctxStart n)) := by
    rw [← hk]
    exact (Mach.Edits.refl hno).other
      (Mach.engSpoil_within _ n (Mach.engProgWords_within (m.within_refl [.mem, .eng]) rfl _ _) rfl) rfl
  obtain ⟨he, hctx⟩ := Mach.enableCtxs_effect (fun c => imageNat img (16 + c) 1)
    ((List.range 8).filter (fun c => (imageNat img 10 1).testBit c))
    (fun c hc => List.mem_range.mp (List.mem_of_mem_filter hc)) hn (hplaced.canonical hcan) hplaced.noClear
  rw [hfold]
  refine ⟨hplaced.trans he rfl (all_contains_self _), ?_, ?_, fun c hc hbit => ?_⟩
  · exact (congrArg Mems.engProg (he.agrees (x := .mem) rfl)).trans (hk ▸ rfl)
  · have heng : (List.foldl _ k _).eng = k.eng := he.agrees (x := .eng) rfl
    rw [Mach.engine, heng, ← hk]
    change ((listUpd m.eng.engs n _).getD n _).resok = false
    rw [listUpd_getD, if_pos ⟨rfl, by omega⟩]
  · obtain ⟨hfld, hflag⟩ := hctx c (List.mem_filter.mpr ⟨List.mem_range.mpr hc, hbit⟩)
    exact ⟨hfld.trans (Nat.mod_eq_of_lt (imageNat_one_lt img _)), hflag⟩

/-- An engine image that nothing refuses is placed (R592). -/
theorem Mach.engineLoad_places {m : Mach} {n l : Nat} {img : List Byte} (h9 : m.blockCode 9 = 0) (h12 : m.blockCode 12 = 0)
    (ha : m.engActive n = false) (hr : m.engReserved n = false) (hi : m.libImage .engine l = some img)
    (hg : m.imageGood .engine img = true) (hl : engineLimits img = true) : m.engineLoad n l = (0, m.placeEngine n img) := by
  unfold Mach.engineLoad
  rw [h9, h12, ha, hr, hi]
  dsimp only
  rw [hg, hl]
  rfl

theorem Mach.begun_engActive (m : Mach) (p : Port) (c : Cmd) (n : Nat) : (m.begun p c).engActive n = m.engActive n := by
  have heng : (m.begun p c).eng = m.eng := m.begun_agrees p c (x := .eng) (by decide) (by decide) (by decide) (by decide)
  unfold Mach.engActive Mach.engine
  rw [heng]

theorem Mach.begun_engReserved (m : Mach) (p : Port) (c : Cmd) (n : Nat) : (m.begun p c).engReserved n = m.engReserved n := by
  have hflue : (m.begun p c).flue = m.flue := m.begun_agrees p c (x := .flue) (by decide) (by decide) (by decide) (by decide)
  unfold Mach.engReserved Mach.flag
  rw [hflue, Mach.begun_reg]

/-! ### An event image placed (R474, R475) -/

theorem eventLimits_bounds {img : List Byte} (h : eventLimits img = true) :
    imageNat img 6 2 + imageNat img 8 2 ≤ 1024 ∧ 16 + 24 * (eventMask img).length + 4 * imageNat img 8 2 ≤ img.length := by
  simp only [eventLimits, Bool.and_eq_true, decide_eq_true_eq, beq_iff_eq] at h
  obtain ⟨⟨⟨⟨-, h1⟩, h2⟩, -⟩, -⟩ := h
  exact ⟨h1, by omega⟩

/-- A setting of an event image is a register of a machine in its mask, with the word that stands at the machine's place. -/
theorem mem_eventSettings {img : List Byte} {r : Nat × Word} (h : r ∈ eventSettings img) :
    ∃ n k o j, (eventMask img)[k]? = some n ∧ [0, 8, 0xC, 0x10, 0x14][j]? = some o ∧
      r = (smBase n + o, word (imageNat img (16 + 24 * k + 4 * j) 4)) := by
  simp only [eventSettings, eventRegs, List.mem_flatMap, List.mem_map] at h
  obtain ⟨⟨n, k⟩, hn, ⟨o, j⟩, ho, rfl⟩ := h
  exact ⟨n, k, o, j, List.mem_zipIdx_iff_getElem?.mp hn, List.mem_zipIdx_iff_getElem?.mp ho, rfl⟩

/-- An event image sets no register twice with two words. -/
theorem eventSettings_inj (img : List Byte) : ∀ r ∈ eventSettings img, ∀ r' ∈ eventSettings img, r.1 = r'.1 → r = r' := by
  intro r hr r' hr' h
  obtain ⟨n, k, o, j, hk, hj, rfl⟩ := mem_eventSettings hr
  obtain ⟨n', k', o', j', hk', hj', rfl⟩ := mem_eventSettings hr'
  have hoff : ∀ x ∈ [0, 8, 0xC, 0x10, 0x14], x < 32 := by decide
  have ho := hoff o (List.mem_of_getElem? hj)
  have ho' := hoff o' (List.mem_of_getElem? hj')
  simp only [smBase] at h
  obtain rfl : n = n' := by omega
  obtain rfl : o = o' := by omega
  have hmask : (eventMask img).Nodup := List.nodup_range.filter _
  have hoffs : [0, 8, 0xC, 0x10, 0x14].Nodup := by decide
  obtain rfl : k = k' := (List.getElem?_inj (List.getElem?_eq_some_iff.mp hk).1 hmask).mp (hk.trans hk'.symm)
  obtain rfl : j = j' := (List.getElem?_inj (List.getElem?_eq_some_iff.mp hj).1 hoffs).mp (hj.trans hj'.symm)
  rfl

theorem eventSettings_ne_intsrc {img : List Byte} {r : Nat × Word} (p : Port) (h : r ∈ eventSettings img) : r.1 ≠ intsrc p := by
  obtain ⟨n, k, o, j, -, -, rfl⟩ := mem_eventSettings h
  have := intsrc_lt p
  simp only [smBase]
  omega

theorem Mach.evtWord_of_lt (m : Mach) {k : Nat} (hk : k < 1024) : m.evtWord k = cellGet (fun _ => 0) m.mem.evtProg k := by
  rw [Mach.evtWord, Nat.mod_eq_of_lt hk]

/-- The event engine's program memory after an image took its place. -/
theorem evtProg_placed {a b : Mach} {img : List Byte} (hc : a.canonical = true) (hl : eventLimits img = true)
    (hb : b.mem.evtProg = placeWords a.mem.evtProg (imageNat img 6 2)
      (imageWords img (16 + 24 * (eventMask img).length) (imageNat img 8 2))) :
    (∀ i < imageNat img 8 2, b.evtWord (imageNat img 6 2 + i) =
        word (imageNat img (16 + 24 * (eventMask img).length + 4 * i) 4)) ∧
      ∀ k < 1024, (k < imageNat img 6 2 ∨ imageNat img 6 2 + imageNat img 8 2 ≤ k) → b.evtWord k = a.evtWord k := by
  obtain ⟨hfit, hlen⟩ := eventLimits_bounds hl
  have hwords := imageWords_length_le img (16 + 24 * (eventMask img).length) (imageNat img 8 2)
  have hwf : Memory.wf (fun _ => 0) a.mem.evtProg = true := by
    simp only [Mach.canonical, Bool.and_eq_true] at hc
    exact hc.1.1.2
  refine ⟨fun i hi => ?_, fun k hk ho => ?_⟩
  · rw [b.evtWord_of_lt (by omega), hb]
    exact cellGet_placeWords _ hwf (imageWords_getElem? hi (by omega))
  · rw [b.evtWord_of_lt hk, a.evtWord_of_lt hk, hb]
    exact cellGet_placeWords_outside _ (by omega)

/-- An event image placed: its words, and the registers of its machines. -/
theorem Mach.placeEvent_effect {m : Mach} {img : List Byte} (hcan : m.canonical = true) (hno : m.noClear) :
    m.Edits (m.placeEvent img) [.regs, .mem] ((eventSettings img).map Prod.fst) ∧
      (m.placeEvent img).mem.evtProg = placeWords m.mem.evtProg (imageNat img 6 2)
        (imageWords img (16 + 24 * (eventMask img).length) (imageNat img 8 2)) ∧
      ∀ r ∈ eventSettings img, (m.placeEvent img).reg r.1 = r.2 &&& settable r.1 := by
  have hplaced : m.Edits { m with mem := { m.mem with
        evtProg := placeWords m.mem.evtProg (imageNat img 6 2)
          (imageWords img (16 + 24 * (eventMask img).length) (imageNat img 8 2)) } }
      [.regs, .mem] ((eventSettings img).map Prod.fst) :=
    (Mach.Edits.refl hno).other (Mach.evtProgWords_within (m.within_refl [.mem]) rfl _ _) rfl
  obtain ⟨he, hregs⟩ := Mach.setRegs_effect (fun r => r.2 &&& settable r.1) (eventSettings img) (hplaced.canonical hcan)
    hplaced.noClear (eventSettings_inj img)
  exact ⟨hplaced.trans he rfl (all_contains_self _),
    congrArg Mems.evtProg (he.agrees (x := .mem) rfl), hregs⟩

/-- An event image that nothing refuses is placed (R474). -/
theorem Mach.eventLoad_places {m : Mach} {l : Nat} {img : List Byte} (h8 : m.blockCode 8 = 0) (h12 : m.blockCode 12 = 0)
    (hb : m.smBusy = false) (hi : m.libImage .event l = some img) (hg : m.imageGood .event img = true)
    (hl : eventLimits img = true) : m.eventLoad l = (0, m.placeEvent img) := by
  unfold Mach.eventLoad
  rw [h8, h12, hb, hi]
  dsimp only
  rw [hg, hl]
  rfl

theorem Mach.begun_smBusy (m : Mach) (p : Port) (c : Cmd) : (m.begun p c).smBusy = m.smBusy := by
  have hevt : (m.begun p c).evt = m.evt := m.begun_agrees p c (x := .evt) (by decide) (by decide) (by decide) (by decide)
  unfold Mach.smBusy
  rw [hevt]

/-! ### Where their lines end -/

section
variable {s : State} {p : Port} {ck : Bool} (hc : s.m.canonical = true) (hf : s.m.fits p ck [] (finalText 0))
include hc hf

theorem exec_engineLoad_runs {n l col : Nat} {img : List Byte} (hn : n < 4) (hr : s.m.runsNow p ck (.engineLoad n l col))
    (h9 : s.m.blockCode 9 = 0) (h12 : s.m.blockCode 12 = 0) (ha : s.m.engActive n = false) (hv : s.m.engReserved n = false)
    (hi : s.m.libImage .engine l = some img) (hg : s.m.imageGood .engine img = true) (hl : engineLimits img = true)
    (hlen : s.m.eng.engs.length = 4) :
    ∃ t, exec (.engineLoad p) s = .next t ∧ t.pending = s.pending ∧
      t.m.mem.engProg = placeWords s.m.mem.engProg (256 * n + imageNat img 6 1) (imageWords img 24 (imageNat img 8 2)) ∧
      (∀ c < 8, (imageNat img 10 1).testBit c = true →
        t.m.fld (ctxStart n c) 0 8 = imageNat img (16 + c) 1 ∧ t.m.flag 0x2718 (8 * n + c) = true) ∧
      (t.m.engine n).resok = false ∧
      s.m.concluded t.m p ck [] 0 id [.mem, .eng] (0x2718 :: (List.range 8).map (ctxStart n)) := by
  have hop := Mach.engineLoad_places (m := s.m.begun p (.engineLoad n l col)) ((Mach.begun_blockCode ..).trans h9)
    ((Mach.begun_blockCode ..).trans h12) ((Mach.begun_engActive ..).trans ha) ((Mach.begun_engReserved ..).trans hv)
    ((Mach.begun_libImage ..).trans hi) ((Mach.begun_imageGood ..).trans hg) hl
  have hrow : exec (.engineLoad p) s = goOn s (((s.m.begun p (.engineLoad n l col)).engineLoad n l).2.codeAt p ck col
      ((s.m.begun p (.engineLoad n l col)).engineLoad n l).1) :=
    congrArg (goOn s) (verbRow_runs s.m p 10 _ _ hr rfl rfl)
  rw [hop] at hrow
  have hbeng : (s.m.begun p (.engineLoad n l col)).eng = s.m.eng :=
    Mach.begun_agrees _ _ _ (x := .eng) (by decide) (by decide) (by decide) (by decide)
  obtain ⟨he, hprog, hres, hctx⟩ := Mach.placeEngine_effect (m := s.m.begun p (.engineLoad n l col)) (img := img)
    ((Mach.begun_canonical ..).trans hc) ((s.m.begun_noClear p _).mpr hr.1) hn (hbeng ▸ hlen)
  obtain ⟨hparts, hregs, hconc⟩ := Mach.answer_concluded hr hc hf he (qs := [.mem, .eng]) (by simp)
  have hlt := intsrc_lt p
  refine ⟨_, hrow, rfl, ?_, fun c hc8 hbit => ?_, ?_, hconc⟩
  · rw [Mach.begun_mem] at hprog
    exact (congrArg Mems.engProg (hparts .mem (by cases p <;> decide))).trans hprog
  · obtain ⟨hfld, hflag⟩ := hctx c hc8 hbit
    refine ⟨(congrArg (bitsAt · 0 8) (hregs _ ?_)).trans hfld, (congrArg (bitAt · _) (hregs _ ?_)).trans hflag⟩
    · simp only [ctxStart, List.mem_singleton]; omega
    · simp only [List.mem_singleton]; omega
  · exact (congrArg (fun e : Engines => (e.engs.getD n Eng.fresh).resok) (hparts .eng (by cases p <;> decide))).trans hres

theorem exec_eventLoad_runs {l col : Nat} {img : List Byte} (hr : s.m.runsNow p ck (.eventLoad l col)) (h8 : s.m.blockCode 8 = 0)
    (h12 : s.m.blockCode 12 = 0) (hb : s.m.smBusy = false) (hi : s.m.libImage .event l = some img)
    (hg : s.m.imageGood .event img = true) (hl : eventLimits img = true) :
    ∃ t, exec (.eventLoad p) s = .next t ∧ t.pending = s.pending ∧
      t.m.mem.evtProg = placeWords s.m.mem.evtProg (imageNat img 6 2)
        (imageWords img (16 + 24 * (eventMask img).length) (imageNat img 8 2)) ∧
      (∀ r ∈ eventSettings img, t.m.reg r.1 = r.2 &&& settable r.1) ∧
      s.m.concluded t.m p ck [] 0 id [.mem] ((eventSettings img).map Prod.fst) := by
  have hop := Mach.eventLoad_places (m := s.m.begun p (.eventLoad l col)) ((Mach.begun_blockCode ..).trans h8)
    ((Mach.begun_blockCode ..).trans h12) ((Mach.begun_smBusy ..).trans hb) ((Mach.begun_libImage ..).trans hi)
    ((Mach.begun_imageGood ..).trans hg) hl
  have hrow : exec (.eventLoad p) s = goOn s (((s.m.begun p (.eventLoad l col)).eventLoad l).2.codeAt p ck col
      ((s.m.begun p (.eventLoad l col)).eventLoad l).1) :=
    congrArg (goOn s) (verbRow_runs s.m p 11 _ _ hr rfl rfl)
  rw [hop] at hrow
  obtain ⟨he, hprog, hset⟩ := Mach.placeEvent_effect (m := s.m.begun p (.eventLoad l col)) (img := img)
    ((Mach.begun_canonical ..).trans hc) ((s.m.begun_noClear p _).mpr hr.1)
  obtain ⟨hparts, hregs, hconc⟩ := Mach.answer_concluded hr hc hf he (qs := [.mem]) (by simp)
  refine ⟨_, hrow, rfl, ?_, fun r hrs => ?_, hconc⟩
  · rw [Mach.begun_mem] at hprog
    exact (congrArg Mems.evtProg (hparts .mem (by cases p <;> decide))).trans hprog
  · exact (hregs _ (by simpa using eventSettings_ne_intsrc p hrs)).trans (hset r hrs)

end

/-- Settles O54: each verb is one change of the store or of a program memory, and its answer leaves all but the port alone. -/
theorem imageVerbs : Obligations.ImageVerbs := by
  intro s p ck hc hf
  refine ⟨fun k e n hr ht hu => exec_upgradeBegin_runs hc hf hr ht hu, fun off bs u hr ht hu hp => ?_,
    fun u img col hr ht hb hu hp hi hg => exec_upgradeCommit_runs hc hf hr ht hb hu hp hi hg,
    fun u hr ht hu hp => exec_upgradeAbort_runs hc hf hr ht hu hp, fun n l col img hr h9 h12 ha hv hi hg hl hlen => ?_,
    fun l col img hr h8 h12 hb hi hg hl => ?_⟩
  · obtain ⟨t, ht', hpend, hnv, hconc⟩ := exec_upgradeData_runs hc hf hr ht hu hp
    exact ⟨t, _, ht', hpend, hnv, rfl, placePiece_self _ _ _, fun o ho => placePiece_other _ _ ho, hconc⟩
  · obtain ⟨t, ht, hpend, hprog, hctx, hres, hconc⟩ := exec_engineLoad_runs hc hf n.isLt hr h9 h12 ha hv hi hg hl hlen
    obtain ⟨hwords, hkept, hothers⟩ := engProg_placed hc n.isLt hl hprog
    exact ⟨t, ht, hpend, hwords, hkept, hothers, hctx, hres, hconc⟩
  · obtain ⟨t, ht, hpend, hprog, hset, hconc⟩ := exec_eventLoad_runs hc hf hr h8 h12 hb hi hg hl
    obtain ⟨hwords, hkept⟩ := evtProg_placed hc hl hprog
    exact ⟨t, ht, hpend, hwords, hkept, hset, hconc⟩

end Sys2Proof.Machine
end

section
/-! SUPPORT. A domain that switches (R25, R128): of the clocks its state and the times that it notes, of the security engine, as long as no
bank is examined, the seals that are due. -/

namespace Sys2Proof.Machine

/-! ### The clocks but for the times of domains -/

/-- From `m` to `n` the domains and the course of a mode stand: of the clocks only the times that a domain notes have changed. -/
def Mach.Steady (m n : Mach) : Prop :=
  n.clk = { m.clk with hearthStop := n.clk.hearthStop, ts := n.clk.ts, d1Since := n.clk.d1Since, d2Since := n.clk.d2Since,
                       d3Since := n.clk.d3Since, achSince := n.clk.achSince, powerPending := n.clk.powerPending }

/-- From `m` to `n` domains have switched: beside their states only the times that they note have changed in the clocks. -/
def Mach.Switched (m n : Mach) : Prop :=
  n.clk = { m.clk with dom := n.clk.dom, hearthStop := n.clk.hearthStop, ts := n.clk.ts, d1Since := n.clk.d1Since,
                       d2Since := n.clk.d2Since, d3Since := n.clk.d3Since, achSince := n.clk.achSince,
                       powerPending := n.clk.powerPending }

namespace Mach.Steady

variable {m n k : Mach}

theorem of_clk (h : n.clk = m.clk) : m.Steady n := by unfold Mach.Steady; rw [h]

theorem refl (m : Mach) : m.Steady m := of_clk rfl

theorem trans (h : m.Steady n) (h2 : n.Steady k) : m.Steady k := by
  unfold Mach.Steady at *
  rw [h2, h]

theorem of_continues (h : m.Continues n) : m.Steady n := h.clk

theorem of_within {ps : List Part} (h : m.within n ps) (hp : ps.contains .clk = false) : m.Steady n :=
  of_clk (h.1 .clk (by simpa using hp))

theorem dom (h : m.Steady n) (j : Nat) : n.dom j = m.dom j := by
  unfold Mach.dom
  rw [h]

theorem setDom (h : m.Steady n) (j : Nat) (d : Dom) : (m.setDom j d).Steady (n.setDom j d) := by
  unfold Mach.Steady Mach.setDom at *
  rw [h]

theorem switched (h : m.Steady n) : m.Switched n := by
  unfold Mach.Switched
  rw [h]

end Mach.Steady

namespace Mach.Switched

variable {m n k : Mach}

theorem refl (m : Mach) : m.Switched m := (Mach.Steady.refl m).switched

theorem trans (h : m.Switched n) (h2 : n.Switched k) : m.Switched k := by
  unfold Mach.Switched at *
  rw [h2, h]

theorem setDom (m : Mach) (j : Nat) (d : Dom) : m.Switched (m.setDom j d) := rfl

end Mach.Switched

/-! ### One domain switches -/

/-- A domain that switches ON: its blocks join; the banks of D4 are then examined where it was in RETAIN. -/
theorem Mach.switchDom_joins {m : Mach} {k : Nat} (ember : Bool) (h : m.dom k ≠ .on) : ∃ n, (m.setDom k .on).Continues n ∧
    m.switchDom k .on ember = if k = 4 && m.dom k = .retain then n.examineBanks else n := by
  unfold Mach.switchDom
  extract_lets old powered joined buffered regs noted owed
  have hpowered : m.Continues powered := .ite (.refl m) (Mach.Continues.refl m).foscRestart
  have hjoined : (m.setDom k .on).Continues joined := (hpowered.setDom k .on).domainJoin k
  have hbuffered : (m.setDom k .on).Continues buffered := .ite hjoined.bufferOn hjoined
  have hnoted : (m.setDom k .on).Continues noted := hbuffered.accessed _
  exact ⟨owed, .ite (hnoted.oweStart 0 |>.oweStart 2) hnoted, if_neg h⟩

/-- What the blocks of a domain do before it is OFF or in RETAIN; the open blocks of a buffer that takes words close first. -/
def Mach.beforeLeaving (m : Mach) (k : Nat) (ember : Bool) : Dom → Mach
  | .on => m
  | .off => (if k = 4 || k = 7 then m.beforeBufferOff else m).domainLeave k
  | .retain => m.beforeBufferOff.emptyStores.bufferRetain ember

theorem Mach.switchDom_leaves {m : Mach} {k : Nat} {d : Dom} (ember : Bool) (hd : d ≠ .on) (h : m.dom k ≠ d) :
    m.switchDom k d ember = (m.beforeLeaving k ember d).setDom k d := by
  unfold Mach.switchDom
  dsimp only
  rw [if_neg h]
  cases d with
  | on => exact absurd rfl hd
  | off => rfl
  | retain => rfl

theorem Mach.beforeLeaving_steady (m : Mach) (k : Nat) (ember : Bool) (d : Dom) : m.Steady (m.beforeLeaving k ember d) := by
  have hclosed : m.within m.beforeBufferOff [.regs, .pa, .pb, .buf, .sec, .nv] := Mach.beforeBufferOff_within m (m.within_refl _) rfl
  cases d with
  | on => exact .refl m
  | off =>
    refine .trans (n := if k = 4 || k = 7 then m.beforeBufferOff else m) ?_
      (.of_within (Mach.domainLeave_within _ k (Mach.within_refl _
        [.regs, .pa, .pb, .mot, .flt, .ang, .aux, .evt, .grd, .buf, .eng, .flue, .sec, .nv, .free]) rfl) rfl)
    split
    · exact .of_within hclosed rfl
    · exact .refl m
  | retain =>
    exact (Mach.Steady.of_within (hclosed) rfl).trans
      (.of_within (Mach.bufferRetain_within _ ember (Mach.emptyStores_within _ (Mach.within_refl _ [.pa, .pb, .buf]) rfl) rfl) rfl)

/-- A domain that switches takes its state; of the clocks nothing else but times of domains changes. -/
theorem Mach.switchDom_steady (m : Mach) (k : Nat) (d : Dom) (ember : Bool) : (m.setDom k d).Steady (m.switchDom k d ember) := by
  by_cases h : m.dom k = d
  · have hsame : m.switchDom k d ember = m := by unfold Mach.switchDom; exact if_pos h
    rw [hsame, ← h, m.setDom_same]
    exact .refl m
  · by_cases hd : d = .on
    · subst hd
      obtain ⟨n, hn, he⟩ := Mach.switchDom_joins ember h
      rw [he]
      split
      · exact (Mach.Steady.of_continues hn).trans (.of_within (Mach.examineBanks_within n
          (n.within_refl [.regs, .pa, .pb, .flt, .buf, .sec, .nv, .bist, .free]) rfl) rfl)
      · exact .of_continues hn
    · rw [Mach.switchDom_leaves ember hd h]
      exact (m.beforeLeaving_steady k ember d).setDom k d

/-! ### Domains one after another -/

theorem Mach.dom_setDom_self (m : Mach) {k : Nat} (d : Dom) (hk : k ∈ [1, 2, 3, 4, 5, 6, 7]) : (m.setDom k d).dom k = d := by
  fin_cases hk <;> rfl

theorem Mach.dom_setDom_ne (m : Mach) {k j : Nat} (d : Dom) (hk : k ∈ [1, 2, 3, 4, 5, 6, 7]) (hj : j ∈ [1, 2, 3, 4, 5, 6, 7])
    (h : j ≠ k) : (m.setDom k d).dom j = m.dom j := by
  fin_cases hk <;> fin_cases hj <;> first | rfl | exact absurd rfl h

/-- Domains switched one after another, each to its state in a table. -/
def Mach.switchAll (m : Mach) (table : Nat → Dom) (ember : Bool) (ks : List Nat) : Mach :=
  ks.foldl (fun (n : Mach) k => n.switchDom k (table k) ember) m

theorem Mach.switchAll_switched (m : Mach) (table : Nat → Dom) (ember : Bool) (ks : List Nat) :
    m.Switched (m.switchAll table ember ks) := by
  induction ks generalizing m with
  | nil => exact .refl m
  | cons k ks ih => exact ((Mach.Switched.setDom m k _).trans (m.switchDom_steady k (table k) ember).switched).trans (ih _)

/-- Each of them stands in its state, and every other domain as it was. -/
theorem Mach.switchAll_dom (m : Mach) (table : Nat → Dom) (ember : Bool) {ks : List Nat} {j : Nat}
    (hk : ∀ k ∈ ks, k ∈ [1, 2, 3, 4, 5, 6, 7]) (hj : j ∈ [1, 2, 3, 4, 5, 6, 7]) :
    (m.switchAll table ember ks).dom j = if j ∈ ks then table j else m.dom j := by
  induction ks generalizing m with
  | nil => rfl
  | cons k ks ih =>
    rw [Mach.switchAll, List.foldl_cons]
    refine (ih _ fun x hx => hk x (List.mem_cons_of_mem k hx)).trans ?_
    rw [(m.switchDom_steady k (table k) ember).dom j]
    have hk1 := hk k List.mem_cons_self
    by_cases hjk : j = k
    · subst hjk
      rw [m.dom_setDom_self _ hj]
      simp
    · rw [m.dom_setDom_ne _ hk1 hj hjk]
      simp [hjk]

/-! ### The security engine but for its seals -/

/-- From `m` to `n` of the security engine only the seals that are due have changed. -/
def Mach.KeepsSec (m n : Mach) : Prop := n.sec = { m.sec with reasons := n.sec.reasons }

namespace Mach.KeepsSec

variable {m n k : Mach}

theorem of_sec (h : n.sec = m.sec) : m.KeepsSec n := by unfold Mach.KeepsSec; rw [h]

theorem refl (m : Mach) : m.KeepsSec m := of_sec rfl

theorem trans (h : m.KeepsSec n) (h2 : n.KeepsSec k) : m.KeepsSec k := by
  unfold Mach.KeepsSec at *
  rw [h2, h]

theorem ite {c : Prop} [Decidable c] (hn : m.KeepsSec n) (hk : m.KeepsSec k) : m.KeepsSec (if c then n else k) := by
  split
  · exact hn
  · exact hk

theorem foldl {α : Type} {f : Mach → α → Mach} (hf : ∀ k x, m.KeepsSec k → m.KeepsSec (f k x)) (l : List α) (h : m.KeepsSec n) :
    m.KeepsSec (l.foldl f n) := by
  induction l generalizing n with
  | nil => exact h
  | cons x l ih => exact ih (hf n x h)

theorem filed (h : m.KeepsSec n) (hf : n.Filed k) : m.KeepsSec k := h.trans hf.sec

theorem other {ps : List Part} (h : m.KeepsSec n) (hw : n.within k ps) (hp : ps.contains .sec = false) : m.KeepsSec k :=
  h.trans (of_sec (hw.1 .sec (by simpa using hp)))

theorem life (h : m.KeepsSec n) : n.sec.life = m.sec.life := by rw [h]

end Mach.KeepsSec

namespace Mach.Filed

variable {m n : Mach}

/-- Words offered to a queue (R532, R533). -/
theorem offerWord (h : m.Filed n) {q : Nat} (w : Word) (hq : q < 5) : m.Filed (n.offerWord q w).1 := by
  unfold Mach.offerWord
  extract_lets owe roomy
  have howe : ∀ k, m.Filed k → m.Filed (owe k) := fun k hk => ite (hk.updGrp _ _) hk
  have hroomy : m.Filed roomy := by
    unfold roomy
    split
    · exact h.makeRoom q
    · exact h.makeRoom q
    · exact h.makeRoom q
    · exact h
  split
  · exact h.discCount 1 hq
  · split
    · exact howe _ h
    · split
      · exact hroomy.writeWord q w
      · exact hroomy.writeWord q w
      · exact hroomy.writeWord q w
      · exact howe _ (hroomy.discardWords 1 hq)

theorem offer (h : m.Filed n) {q : Nat} (ws : List Word) (hq : q < 5) : m.Filed (n.offer q ws) := by
  have hlist : ∀ (ws : List Word) (k : Mach), m.Filed k → m.Filed (k.offerList q ws).1 := fun ws => by
    induction ws with
    | nil => exact fun _ hk => hk
    | cons w ws ih => exact fun k hk => ih _ (hk.offerWord w hq)
  exact foldl (fun _ g hk => hk.putGap g) _ (hlist ws n h)

theorem closeAll (h : m.Filed n) : m.Filed n.closeAll := foldl (fun _ q hk => hk.closeOpen q false) _ h

end Mach.Filed

namespace Mach.KeepsSec

variable {m n : Mach}

/-- A release of DAMPER: markers are offered, and held chains restart (R418, R421). -/
theorem damperRelease (h : m.KeepsSec n) (r : Nat) (stuck : Bool) : m.KeepsSec (n.damperRelease r stuck) := by
  have hkept : ∀ (k : Mach) (g t : Nat), m.KeepsSec k → m.KeepsSec (k.restartKept g t) := fun k g t hk =>
    hk.other (Mach.restartKept_within k g t (k.within_refl [.regs, .flt]) rfl) rfl
  have hoffer : ∀ (k : Mach) (q : Nat) (ws : List Word), q < 5 → m.KeepsSec k → m.KeepsSec (k.offer q ws) := fun k q ws hq hk =>
    hk.filed ((Mach.Filed.refl k).offer ws hq)
  unfold Mach.damperRelease
  extract_lets d anyOn aux released marked all
  have hreleased : m.KeepsSec released := h.trans (of_sec rfl)
  have hmarked : m.KeepsSec marked :=
    foldl (fun k g hk => ite (hkept _ _ _ (hoffer _ _ _ (by omega) hk)) hk) _ hreleased
  have hall : m.KeepsSec all := ite (hkept _ _ _ hmarked) hmarked
  exact ite (hoffer _ _ _ (by omega) hall) hall

theorem auxOff (h : m.KeepsSec n) : m.KeepsSec n.auxOff := by
  unfold Mach.auxOff
  extract_lets stopped
  have hoff : m.KeepsSec n.damperOff := (ite (h.damperRelease _ _) h).trans (of_sec rfl)
  have hstopped : m.KeepsSec stopped := hoff.other (Mach.stopGroups_within _ _ (Mach.within_refl _ [.flt]) rfl) rfl
  exact hstopped.trans (of_sec rfl)

end Mach.KeepsSec

/-! ### The life-cycle state -/

/-- What a domain's blocks do as it switches OFF leaves the life-cycle state. -/
theorem Mach.domainLeave_life (m : Mach) (k : Nat) : (m.domainLeave k).sec.life = m.sec.life := by
  have hother : ∀ {n : Mach}, m.within n [.regs, .pa, .pb, .mot, .flt, .ang, .evt, .grd, .buf, .eng, .flue, .nv, .free] →
      n.sec.life = m.sec.life := fun hw => congrArg Security.life (hw.1 .sec (by simp))
  unfold Mach.domainLeave
  split
  · exact hother (Mach.motionOff_within m (m.within_refl _) rfl)
  · exact ((Mach.KeepsSec.refl m).auxOff).life
  · exact hother (Mach.signalOff_within m (m.within_refl _) rfl)
  · exact hother (Mach.bufferOff_within m (m.within_refl _) rfl)
  · exact hother (Mach.portOff_within _ .b (Mach.portOff_within m .a (m.within_refl _) rfl) rfl)
  · exact hother (Mach.flueOff_within _ (Mach.engOff_within m (m.within_refl _) rfl) rfl)
  · rfl
  · rfl

theorem Mach.beforeBufferOff_life (m : Mach) : m.beforeBufferOff.sec.life = m.sec.life :=
  (Mach.KeepsSec.ite ((Mach.KeepsSec.refl m).filed (Mach.Filed.refl m).closeAll) (.refl m)).life

theorem Mach.beforeLeaving_life (m : Mach) (k : Nat) (ember : Bool) (d : Dom) : (m.beforeLeaving k ember d).sec.life = m.sec.life := by
  cases d with
  | on => rfl
  | off =>
    refine (Mach.domainLeave_life _ k).trans ?_
    split
    · exact m.beforeBufferOff_life
    · rfl
  | retain =>
    refine Eq.trans ?_ m.beforeBufferOff_life
    exact congrArg Security.life ((Mach.bufferRetain_within _ ember (Mach.emptyStores_within _ (Mach.within_refl _ [.pa, .pb, .buf])
      rfl) rfl).1 .sec (by simp))

/-- Unless D4 switches ON and its banks are examined, a domain that switches leaves the life-cycle state. -/
theorem Mach.switchDom_life (m : Mach) {k : Nat} {d : Dom} (ember : Bool) (hk : d = .on → k ≠ 4) :
    (m.switchDom k d ember).sec.life = m.sec.life := by
  by_cases h : m.dom k = d
  · unfold Mach.switchDom
    exact congrArg (fun n : Mach => n.sec.life) (if_pos h)
  · by_cases hd : d = .on
    · subst hd
      obtain ⟨n, hn, he⟩ := Mach.switchDom_joins ember h
      rw [he, if_neg (by simp [hk rfl]), hn.sec]
      rfl
    · rw [Mach.switchDom_leaves ember hd h]
      exact m.beforeLeaving_life k ember d

theorem Mach.switchAll_life (m : Mach) {table : Nat → Dom} (ember : Bool) {ks : List Nat} (h4 : table 4 ≠ .on) :
    (m.switchAll table ember ks).sec.life = m.sec.life := by
  induction ks generalizing m with
  | nil => rfl
  | cons k ks ih => exact (ih _).trans (m.switchDom_life ember fun hd hk => h4 (hk ▸ hd))

end Sys2Proof.Machine
end

section
/-! SUPPORT. The open blocks of the queues (R526, R528): what happens as a block closes leaves every other open block, and once all have
closed none is open. -/

namespace Sys2Proof.Machine

/-- From `m` to `n` every queue keeps its open block. -/
def Mach.SameOpen (m n : Mach) : Prop := ∀ j, (n.q j).openBlk = (m.q j).openBlk

namespace Mach.SameOpen

variable {m n k : Mach}

theorem refl (m : Mach) : m.SameOpen m := fun _ => rfl

theorem ite {c : Prop} [Decidable c] (hn : m.SameOpen n) (hk : m.SameOpen k) : m.SameOpen (if c then n else k) := by
  split
  · exact hn
  · exact hk

theorem other {ps : List Part} (h : m.SameOpen n) (hw : n.within k ps) (hp : ps.contains .buf = false) : m.SameOpen k := fun j => by
  have hbuf : k.buf = n.buf := hw.1 .buf (by simpa using hp)
  rw [← h j]
  unfold Mach.q
  rw [hbuf]

theorem updQ (h : m.SameOpen n) (q : Nat) {f : Queue → Queue} (hf : ∀ s, (f s).openBlk = s.openBlk) : m.SameOpen (n.updQ q f) :=
  fun j => by
    refine Eq.trans ?_ (h j)
    by_cases hj : j = q
    · subst hj
      by_cases hl : j < n.buf.queues.length
      · rw [Mach.updQ_q_self f hl, hf]
      · unfold Mach.q Mach.updQ
        rw [listUpd_getD, if_neg (fun hh => hl hh.2)]
    · rw [Mach.updQ_q_ne n f hj]

theorem qStat (h : m.SameOpen n) (q i : Nat) : m.SameOpen (n.qStat q i) :=
  h.other (Mach.sqBit_within n _ i (n.within_refl [.regs]) rfl) rfl

theorem discardOldest (h : m.SameOpen n) (q : Nat) (armed : Bool) : m.SameOpen (n.discardOldest q armed) := by
  have hmoved : ∀ k : Mach, m.SameOpen k → m.SameOpen (k.movedBy q) := fun k hk =>
    hk.other (Mach.movedBy_within k q (k.within_refl [.regs, .pa, .pb]) rfl) rfl
  unfold Mach.discardOldest
  split
  · exact h
  · refine (hmoved _ (h.updQ q fun s => ?_)).qStat q 2
    split <;> rfl

theorem discardDown (h : m.SameOpen n) (q c k : Nat) : m.SameOpen (n.discardDown q c k) := by
  induction k generalizing n with
  | zero => exact h
  | succ k ih => exact ite (ih (h.discardOldest q true)) h

theorem captureClose (h : m.SameOpen n) (q : Nat) (trig capt isSeal : Bool) : m.SameOpen (n.captureClose q trig capt isSeal) := by
  unfold Mach.captureClose
  dsimp only
  exact ite (ite (ite ((h.updQ q fun _ => by rfl).qStat q 4) (h.updQ q fun _ => by rfl))
    (ite ((h.updQ q fun _ => by rfl).qStat q 4) (h.updQ q fun _ => by rfl))) h

theorem watermark (h : m.SameOpen n) (q before : Nat) : m.SameOpen (n.watermark q before) :=
  h.other (Mach.watermark_within n q before (n.within_refl [.regs, .pa, .pb]) rfl) rfl

theorem reserve (h : m.SameOpen n) (q : Nat) : m.SameOpen (n.reserve q) :=
  h.other (Mach.reserve_within n q (n.within_refl [.nv]) rfl) rfl

theorem enterFull (h : m.SameOpen n) (q : Nat) : m.SameOpen (n.enterFull q) := (h.updQ q fun _ => by rfl).qStat q 1

/-- A seal becomes due. -/
theorem sealDue (h : m.SameOpen n) (r : BitVec 16) : m.SameOpen { n with sec := { n.sec with reasons := r } } := h

theorem closeWith (h : m.SameOpen n) (q : Nat) (isSeal : Bool) (firstTs : Nat) (trig capt filled : Bool) (ws : List Word) :
    m.SameOpen (n.closeWith q isSeal firstTs trig capt filled ws) := by
  unfold Mach.closeWith
  extract_lets s before flags head data hash b closed reserved captured trimmed marked settled
  have hcaptured : m.SameOpen captured := ((h.updQ q fun _ => by rfl).reserve q).captureClose q trig capt isSeal
  have hmarked : m.SameOpen marked := (ite (hcaptured.discardDown q _ _) hcaptured).watermark q before
  have hsettled : m.SameOpen settled :=
    ite (ite (ite (hmarked.enterFull q) hmarked) (ite (hmarked.discardOldest q false) hmarked)) hmarked
  exact ite (hsettled.sealDue _) hsettled

end Mach.SameOpen

/-- A queue whose open block closes has none; those of the others stay. -/
theorem Mach.closeOpen_openBlk (m : Mach) (q j : Nat) (filled : Bool) :
    ((m.closeOpen q filled).q j).openBlk = if j = q then none else (m.q j).openBlk := by
  unfold Mach.closeOpen
  split
  next h =>
    split
    next hj => rw [hj, h]
    next => rfl
  next o h =>
    have hq : q < m.buf.queues.length := by
      by_contra hl
      rw [Mach.q, List.getD_eq_default _ _ (by omega)] at h
      exact absurd h (by simp [Queue.none])
    rw [(Mach.SameOpen.refl _).closeWith q false o.firstTs o.trig o.capt filled o.words.reverse j]
    split
    next hj => rw [hj, Mach.updQ_q_self _ hq]
    next hj => rw [Mach.updQ_q_ne _ _ hj]

theorem Mach.closeAll_openBlk (m : Mach) {q : Nat} (hq : q < 4) : (m.closeAll.q q).openBlk = none := by
  simp only [Mach.closeAll, List.foldl_cons, List.foldl_nil, Mach.closeOpen_openBlk]
  obtain rfl | rfl | rfl | rfl : q = 0 ∨ q = 1 ∨ q = 2 ∨ q = 3 := by omega
  all_goals rfl

end Sys2Proof.Machine
end

section
/-! SUPPORT. Writes of `PWR_DOM` and `PWR_MODE` (R670, R671): what the checks of a control register leave, and what the refusers of a
mode entry look at. -/

namespace Sys2Proof.Machine

theorem bitAt_and (x y : Word) (i : Nat) : bitAt (x &&& y) i = (bitAt x i && bitAt y i) := BitVec.getLsbD_and

/-- A control register without P and LK fields: a word in range that nothing refuses takes effect. -/
theorem Mach.busWrite_taken {m : Mach} {a : Nat} {d : RegDef} {w : Word} (ag : Agent) (hw : windowOf a = none) (hd : regDef a = some d)
    (hcls : d.cls = .control) (hpp : d.pp = 0) (hlk : d.lk = 0) (ht : isTxd a = false) (hi : isIndex a = false) (ha : a ≠ 0x2C0C)
    (hin : d.inRange (d.written .direct (m.reg a) w) = true) (hb : m.rangeBad a (d.written .direct (m.reg a) w) = false)
    (hr : m.regRefuse ag a (m.reg a) (d.written .direct (m.reg a) w) (w &&& d.go) = 0) :
    m.busWrite ag .direct a w = (m.noteAbsorbed ag a (m.reg a &&& (w &&& d.go))).regDone ag a (m.reg a)
      (d.written .direct (m.reg a) w) (w &&& d.go) := by
  have hz : (a = 0x2C0C && !bitAt w 0) = false := by simp [ha]
  simp only [Mach.busWrite, hw, hd, hcls]
  unfold Mach.controlWrite
  simp only [ht, hi, Bool.false_eq_true, if_false, hz, hin, hb, hlk, hpp, ne_eq, not_true_eq_false, decide_false, Bool.false_and,
    Bool.not_true, Bool.or_self, goWord, hr]

/-- A row whose write is served. -/
theorem oneWrite_next (s : State) {ag : Agent} {k : AccessKind} {a : Nat} {w : Word} {n : Mach} (ha : a < 0x4000) (hl : a ≤ lastOf a)
    (ht : s.m.takesWrite ag k a) (hb : (s.m.touch (blockOf a)).busWrite ag k a w = (0, n)) :
    goOn s (s.m.oneWrite ag k a w) = .next { s with m := n.settled ag } :=
  congrArg (goOn s) (oneWrite_served s.m ag k a w ha hl ht hb)

theorem settled_clk (n : Mach) (ag : Agent) : (n.settled ag).clk = n.clk := settled_agrees n ag .clk (by decide) (by decide)

/-! ### `PWR_DOM` (R670) -/

/-- `PWR_DOM` and the fields that its write takes. -/
def pwrDom : RegDef := RegDef.control 0xDE 0 0 0 0x20 0xFE []

/-- The word that a write of `PWR_DOM` makes names the domains that the word written names. -/
theorem bitAt_pwrDom (old w : Word) {k : Nat} (hk : k ∈ [1, 2, 3, 4, 6, 7]) : bitAt (pwrDom.written .direct old w) k = bitAt w k := by
  have hmask : pwrDom.written .direct old w = (old &&& ~~~(0xDE : Word)) ||| (w &&& 0xDE) := rfl
  rw [hmask, bitAt_or, bitAt_and, bitAt_and]
  fin_cases hk <;> simp [bitAt]

theorem Mach.domCheck_written (m : Mach) (old w : Word) : m.domCheck (pwrDom.written .direct old w) = m.domCheck w := by
  unfold Mach.domCheck
  simp only [bitAt_pwrDom old w (k := 4) (by simp), bitAt_pwrDom old w (k := 7) (by simp)]

/-- A write of `PWR_DOM` in Run that nothing refuses switches the domains. -/
theorem Mach.busWrite_pwrDom {m : Mach} {w : Word} (ag : Agent) (hm : m.clk.mode = .run) (hs : m.clk.start = none)
    (hd : m.domCheck w = 0) : m.busWrite ag .direct 0x80C w = (0, m.domWrite (pwrDom.written .direct (m.reg 0x80C) w)) := by
  have hrefuse : m.regRefuse ag 0x80C (m.reg 0x80C) (pwrDom.written .direct (m.reg 0x80C) w) (w &&& pwrDom.go) = 0 := by
    change (if m.clk.mode = .run && m.clk.start.isNone then m.domCheck (pwrDom.written .direct (m.reg 0x80C) w) else 0) = 0
    rw [m.domCheck_written, hd]
    split <;> rfl
  rw [Mach.busWrite_taken ag (d := pwrDom) rfl rfl rfl rfl rfl rfl rfl (by decide) rfl rfl hrefuse]
  have hgo : m.reg 0x80C &&& (w &&& pwrDom.go) = 0 := by
    have hand : ∀ x : Word, x &&& 0 = 0 := fun _ => BitVec.and_zero
    rw [show pwrDom.go = 0 from rfl, hand, hand]
  rw [hgo, show m.noteAbsorbed ag 0x80C 0 = m from if_pos rfl]
  change (0, if m.clk.mode = .run && m.clk.start.isNone then m.domWrite (pwrDom.written .direct (m.reg 0x80C) w) else _) = _
  rw [if_pos (by simp [hm, hs])]

/-- The domains in the order in which a write of `PWR_DOM` switches them: those to be OFF first. -/
def domOrder (off : Nat → Bool) : List Nat := [6, 2, 1, 3, 7, 4].filter off ++ [7, 4, 3, 1, 2, 6].filter (fun k => !off k)

theorem mem_domOrder (off : Nat → Bool) (k : Nat) : k ∈ domOrder off ↔ k ∈ [1, 2, 3, 4, 6, 7] := by
  have hlists : ∀ l : List Nat, (∀ x, x ∈ l ↔ x ∈ [1, 2, 3, 4, 6, 7]) → ∀ f : Nat → Bool,
      (k ∈ l.filter f ↔ k ∈ [1, 2, 3, 4, 6, 7] ∧ f k = true) := fun l hl f => by rw [List.mem_filter, hl]
  rw [domOrder, List.mem_append, hlists _ (fun x => by simp; omega) off, hlists _ (fun x => by simp; omega) fun k => !off k]
  cases off k <;> simp

/-- After a write of `PWR_DOM` each domain that it names stands as its bit says; D5 and the course of the mode stand as before. -/
theorem Mach.domWrite_effect {m : Mach} {w new : Word} (hc : m.canonical = true)
    (hw : ∀ k ∈ [1, 2, 3, 4, 6, 7], bitAt new k = bitAt w k) :
    m.Switched (m.domWrite new) ∧ (∀ k ∈ [1, 2, 3, 4, 6, 7], (m.domWrite new).dom k = if bitAt w k then .on else .off) ∧
      (m.domWrite new).dom 5 = m.dom 5 := by
  generalize hn : m.setReg 0x80C ((m.reg 0x80C &&& 0x20) ||| (new &&& 0xDE)) = n
  have hrun : m.domWrite new = n.switchAll n.runState false (domOrder fun k => decide (n.runState k = .off)) := by rw [← hn]; rfl
  have hclk : n.clk = m.clk := hn ▸ rfl
  have hall : ∀ k ∈ domOrder fun k => decide (n.runState k = .off), k ∈ [1, 2, 3, 4, 5, 6, 7] := fun k hk => by
    have := (mem_domOrder _ k).mp hk
    simp only [List.mem_cons] at this ⊢
    tauto
  have hstate : ∀ k ∈ [1, 2, 3, 4, 6, 7], n.runState k = if bitAt w k then .on else .off := fun k hk => by
    have hflag : n.flag 0x80C k = bitAt w k := by
      rw [Mach.flag, ← hn, Mach.reg_setReg_self m _ _ hc, bitAt_or, bitAt_and, bitAt_and, hw k hk]
      fin_cases hk <;> simp [bitAt]
    have h5 : (k = 5) = False := by
      fin_cases hk <;> simp
    rw [Mach.runState, hflag]
    simp [h5]
  rw [hrun]
  refine ⟨(Mach.Steady.of_clk hclk).switched.trans (n.switchAll_switched ..), fun k hk => ?_, ?_⟩
  · rw [n.switchAll_dom _ false hall (by simp only [List.mem_cons] at hk ⊢; tauto), if_pos ((mem_domOrder _ k).mpr hk), hstate k hk]
  · rw [n.switchAll_dom _ false hall (by simp), if_neg fun h => absurd ((mem_domOrder _ 5).mp h) (by simp)]
    exact (Mach.Steady.of_clk hclk).dom 5

theorem exec_pwrDom_switches {s : State} {ag : Agent} {w : Word} (hc : s.m.canonical = true) (ht : s.m.takesWrite ag .direct 0x80C)
    (hm : s.m.clk.mode = .run) (hs : s.m.clk.start = none) (hd : s.m.domCheck w = 0) :
    ∃ t, exec (.pwrDomWrite ag .direct w) s = .next t ∧ t.pending = s.pending ∧
      (∀ k ∈ [1, 2, 3, 4, 6, 7], t.m.dom k = if bitAt w k then .on else .off) ∧ t.m.dom 5 = s.m.dom 5 ∧ s.m.Switched t.m := by
  have hb := Mach.busWrite_pwrDom (m := s.m.touch (blockOf 0x80C)) (w := w) ag hm hs hd
  obtain ⟨hsw, hdoms, h5⟩ := Mach.domWrite_effect (m := s.m.touch (blockOf 0x80C)) (w := w)
    (new := pwrDom.written .direct (s.m.reg 0x80C) w) hc fun k hk => bitAt_pwrDom _ w hk
  have hsettled := Mach.Steady.of_clk (settled_clk ((s.m.touch (blockOf 0x80C)).domWrite (pwrDom.written .direct (s.m.reg 0x80C) w)) ag)
  exact ⟨_, oneWrite_next s (by decide) (by decide) ht hb, rfl, fun k hk => (hsettled.dom k).trans (hdoms k hk),
    (hsettled.dom 5).trans h5, ((Mach.Steady.of_clk (m := s.m) rfl).switched.trans hsw).trans hsettled.switched⟩

end Sys2Proof.Machine
end

section
/-! SUPPORT. A mode entry (R671 to R679): what its refusers look at, and its beginning, its commit point and its end. -/

namespace Sys2Proof.Machine

/-! ### The refusers (R673) -/

/-- The refusers look at no register of the power block but its checks: a change of `PWR_MODE` alone leaves them. -/
theorem Mach.refusers_congr {m n : Mach} (hx : ∀ x, x ≠ .regs → m.agrees n x) (hr : ∀ a, a ≠ 0x800 → n.reg a = m.reg a)
    (p : Option Port) (verb own : Bool) : n.refusers p verb own = m.refusers p verb own := by
  have hflag : ∀ a i, a ≠ 0x800 → n.flag a i = m.flag a i := fun a i ha => by rw [Mach.flag, hr a ha, Mach.flag]
  have hport : ∀ q, n.port q = m.port q := fun q => by
    cases q
    · exact hx .pa (by decide)
    · exact hx .pb (by decide)
  have hbuf : n.buf = m.buf := hx .buf (by decide)
  have hnv : n.nv = m.nv := hx .nv (by decide)
  have hflt : n.flt = m.flt := hx .flt (by decide)
  have heng : n.eng = m.eng := hx .eng (by decide)
  have hflue : n.flue = m.flue := hx .flue (by decide)
  have hsec : n.sec = m.sec := hx .sec (by decide)
  have hgrd : n.grd = m.grd := hx .grd (by decide)
  have hheld : ∀ q, n.heldPersist q = m.heldPersist q := fun q => by
    unfold Mach.heldPersist
    rw [hport]
    refine congrArg (List.any _) (funext fun h => ?_)
    by_cases ha : h.1 % 0x4000 = 0x800
    · have hmode : regDef 0x800 = some (RegDef.control 3 0x10 0 0 0x100 0 [⟨0, 2, [(0, 2)]⟩]) := rfl
      have hand : ∀ x : Word, x &&& 0 = 0 := fun _ => BitVec.and_zero
      simp only [ha, hmode, RegDef.control, hand]
    · rw [hr _ ha]
  have hbusy : n.busy = m.busy := by simp only [Mach.busy, hnv, hheld]
  have hholds : ∀ q o, n.portHolds q o = m.portHolds q o := fun q o => by
    unfold Mach.portHolds
    rw [hport, hflag _ _ (by decide)]
  have hres : ∀ i, n.engReserved i = m.engReserved i := fun i => by
    unfold Mach.engReserved
    rw [hflue, hflag _ _ (by decide)]
  have hmanager : n.manager = m.manager := by rw [Mach.manager, hflue, Mach.manager]
  have hbus : ∀ b, n.busOn b = m.busOn b := fun b => hflag _ _ (by decide)
  have hcastle : ∀ g, n.castleReq g = m.castleReq g := fun g => hflag _ _ (by decide)
  have heldRecords : n.flag 0x804 0 = m.flag 0x804 0 := hflag _ _ (by decide)
  simp only [Mach.refusers, hholds, heldRecords, hbuf, hbusy, hflt, hres, Mach.engine, heng, hmanager, hbus, hsec, hnv, hcastle,
    Mach.grp, hgrd]
  rfl

/-! ### The beginning of an entry (R671) -/

/-- `PWR_MODE` and its fields. -/
def pwrMode : RegDef := RegDef.control 3 0x10 0 0 0x100 0 [⟨0, 2, [(0, 2)]⟩]

/-- The target in the word that a write of `PWR_MODE` makes is the one written. -/
theorem bitsAt_pwrMode (old w : Word) : bitsAt (pwrMode.written .direct old w) 0 2 = bitsAt w 0 2 := by
  refine Nat.eq_of_testBit_eq fun i => ?_
  have hmask : pwrMode.written .direct old w = (old &&& ~~~(3 : Word)) ||| (w &&& 3) := rfl
  rw [testBit_bitsAt, testBit_bitsAt, hmask, bitAt_or, bitAt_and, bitAt_and]
  by_cases hi : i < 2
  · obtain rfl | rfl : i = 0 ∨ i = 1 := by omega
    all_goals simp [bitAt]
  · simp [hi]

/-- A word whose target is a mode is in range. -/
theorem pwrMode_inRange {x : Word} (h : bitsAt x 0 2 ≤ 2) : pwrMode.inRange x = true := by
  simp [RegDef.inRange, pwrMode, RegDef.control, FieldRange.accepts, h]

/-- An entry is noted: ENTER is set, and no wake is latched. -/
def Mach.entryNoted (m : Mach) (target : Mode) (p : Option Port) : Mach :=
  { m.setFld 0x800 4 1 1 with clk := { m.clk with entry := some ⟨target, .close, m.clk.now, p, false, false⟩, latchedWake := none } }

theorem Mach.entryNoted_effect {m : Mach} (target : Mode) (p : Option Port) (hc : m.canonical = true) :
    (m.entryNoted target p).flag 0x800 4 = true ∧ m.changesOnly (m.entryNoted target p) [.clk, .regs] := by
  refine ⟨Mach.flag_setFld_self hc (by omega), fun x hx => ?_⟩
  cases x <;> first | rfl | exact absurd (by simp) hx

/-- An entry that nothing refuses begins once the open blocks have closed. -/
def Mach.entryBegun (m : Mach) (target : Mode) (p : Option Port) : Mach := m.closeAll.entryNoted target p

theorem Mach.enterMode_begins {m : Mach} {target : Mode} {p : Option Port} (he : m.clk.entry = none) (ht : target ≠ .run)
    (hr : m.refusers p false false = []) : m.enterMode target p false false = (0, m.entryBegun target p) := by
  unfold Mach.enterMode
  rw [he, if_neg ht, hr]
  rfl

theorem Mach.entryBegun_effect {m : Mach} (target : Mode) (p : Option Port) (hc : m.canonical = true) :
    (m.entryBegun target p).clk = { m.clk with
      latchedWake := none, entry := some ⟨target, .close, m.clk.now, p, false, false⟩ } ∧
    (m.entryBegun target p).flag 0x800 4 = true ∧ (∀ q < 4, ((m.entryBegun target p).q q).openBlk = none) ∧
    m.changesOnly (m.entryBegun target p) [.clk, .regs, .pa, .pb, .buf, .sec, .nv] := by
  obtain ⟨hparts, hcan, -⟩ := Mach.closeAll_within m (m.within_refl [.clk, .regs, .pa, .pb, .buf, .sec, .nv]) rfl
  have hclk : m.closeAll.clk = m.clk := (Mach.Filed.refl m).closeAll.clk
  obtain ⟨hflag, hnoted⟩ := m.closeAll.entryNoted_effect target p (hcan hc)
  have hbuf : (m.entryBegun target p).buf = m.closeAll.buf := hnoted .buf (by simp)
  refine ⟨?_, hflag, fun q hq => ?_, fun x hx => Mach.agrees_trans (hparts x hx) (hnoted x ?_)⟩
  · unfold Mach.entryBegun Mach.entryNoted
    rw [hclk]
  · rw [Mach.q, hbuf]
    exact m.closeAll_openBlk hq
  · simp only [List.mem_cons, not_or] at hx ⊢
    simp [hx]

/-- A write of ENTER that nothing refuses begins the entry. -/
theorem Mach.busWrite_pwrMode {m : Mach} {w : Word} (ag : Agent) (hg : bitAt w 4 = true) (ht : bitsAt w 0 2 = 1 ∨ bitsAt w 0 2 = 2)
    (hs : m.clk.start = none) (he : m.clk.entry = none) (hr : m.refusers (portOf ag) false false = []) :
    ∃ n, m.busWrite ag .direct 0x800 w = (0, n.entryBegun (if bitsAt w 0 2 = 1 then .watch else .ember) (portOf ag)) ∧
      m.within n [.regs] ∧ n.clk = m.clk := by
  have hrange : pwrMode.inRange (pwrMode.written .direct (m.reg 0x800) w) = true :=
    pwrMode_inRange (by rw [bitsAt_pwrMode]; omega)
  have hgo : bitAt (w &&& pwrMode.go) 4 = true := by
    rw [bitAt_and, hg]
    rfl
  have hrefuse : m.regRefuse ag 0x800 (m.reg 0x800) (pwrMode.written .direct (m.reg 0x800) w) (w &&& pwrMode.go) = 0 := by
    change (if bitAt (w &&& pwrMode.go) 4 && m.clk.start.isSome then 18 else 0) = 0
    simp [hs]
  generalize hnoted : m.noteAbsorbed ag 0x800 (m.reg 0x800 &&& (w &&& pwrMode.go)) = k
  obtain ⟨hkept, hregs⟩ := hnoted ▸ m.noteAbsorbed_effect ag 0x800 (m.reg 0x800 &&& (w &&& pwrMode.go))
  have hkw : m.within k [.regs] := hnoted ▸ Mach.noteAbsorbed_within m ag _ _ (m.within_refl [.regs]) rfl
  have hset : m.within (k.setReg 0x800 (pwrMode.written .direct (m.reg 0x800) w)) [.regs] := Mach.setReg_within _ _ hkw rfl
  have hclk : (k.setReg 0x800 (pwrMode.written .direct (m.reg 0x800) w)).clk = m.clk := hset.1 .clk (by simp)
  refine ⟨k.setReg 0x800 (pwrMode.written .direct (m.reg 0x800) w), ?_, hset, hclk⟩
  have hrefusers := (Mach.refusers_congr (fun x hx => hset.1 x (by simpa using hx))
    (fun a ha => (k.reg_setReg_ne _ ha).trans (hregs a)) (portOf ag) false false).trans hr
  rw [Mach.busWrite_taken ag (d := pwrMode) rfl rfl rfl rfl rfl rfl rfl (by decide) hrange rfl hrefuse, hnoted]
  change k.doneMode ag (pwrMode.written .direct (m.reg 0x800) w) (w &&& pwrMode.go) = _
  unfold Mach.doneMode
  dsimp only
  rw [hgo, hclk, he, bitsAt_pwrMode]
  obtain h | h := ht
  · rw [h, Mach.enterMode_begins (hclk ▸ he) (by decide) hrefusers]
    rfl
  · rw [h, Mach.enterMode_begins (hclk ▸ he) (by decide) hrefusers]
    rfl

theorem exec_pwrModeEnter_begins {s : State} {ag : Agent} {w : Word} (hc : s.m.canonical = true) (ht : s.m.takesWrite ag .direct 0x800)
    (hg : bitAt w 4 = true) (htgt : bitsAt w 0 2 = 1 ∨ bitsAt w 0 2 = 2) (hs : s.m.clk.start = none) (he : s.m.clk.entry = none)
    (hr : s.m.refusers (portOf ag) false false = []) :
    ∃ t, exec (.pwrModeEnter ag .direct w) s = .next t ∧ t.pending = s.pending ∧
      t.m.clk = { s.m.clk with
        latchedWake := none
        entry := some ⟨if bitsAt w 0 2 = 1 then .watch else .ember, .close, s.m.clk.now, portOf ag, false, false⟩ } ∧
      t.m.flag 0x800 4 = true ∧ (∀ q < 4, (t.m.q q).openBlk = none) ∧
      s.m.changesOnly t.m [.clk, .regs, .pa, .pb, .buf, .sec, .nv] := by
  have htouch := Mach.touch_within s.m (blockOf 0x800) (s.m.within_refl [.regs]) rfl
  have hrefusers := (Mach.refusers_congr (n := s.m.touch (blockOf 0x800)) (fun x hx => s.m.touch_agrees _ hx) (fun _ _ => rfl)
    (portOf ag) false false).trans hr
  obtain ⟨n, hb, hw, hclk⟩ := Mach.busWrite_pwrMode (m := s.m.touch (blockOf 0x800)) ag hg htgt hs he hrefusers
  have hsn : s.m.within n [.regs] := Mach.within_step htouch hw rfl
  obtain ⟨hbegun, hflag, hopen, hparts⟩ := n.entryBegun_effect (if bitsAt w 0 2 = 1 then .watch else .ember) (portOf ag) (hsn.2.1 hc)
  have hbuf := settled_agrees (n.entryBegun (if bitsAt w 0 2 = 1 then .watch else .ember) (portOf ag)) ag .buf (by decide) (by decide)
  refine ⟨_, oneWrite_next s (by decide) (by decide) ht hb, rfl, ?_, ?_, fun q hq => ?_, fun x hx => ?_⟩
  · rw [settled_clk, hbegun, hclk]
    rfl
  · rw [Mach.flag, settled_reg]
    exact hflag
  · exact (congrArg (fun b : Buffer => (b.queues.getD q Queue.none).openBlk) hbuf).trans (hopen q hq)
  · refine Mach.agrees_trans (Mach.agrees_trans (hsn.1 x fun h => hx ?_) (hparts x hx)) (settled_agrees _ ag x ?_ ?_)
    · simp [List.mem_singleton.mp h]
    · rintro rfl
      simp at hx
    · rintro rfl
      simp at hx

/-! ### The commit point (R672, R674, R679) -/

/-- An entry that no refuser holds goes on past its commit point. -/
theorem Mach.entryCommit_passes {m : Mach} {e : Entry} (he : m.clk.entry = some e) (hp : e.phase = .close)
    (hr : m.refusers e.byPort e.byVerb (!e.mixed) = []) : m.entryCommit = if e.target = .ember then
      Mach.runStart { m.grdOff with clk := { m.clk with entry := some { e with phase := .selfTest } } } .shutdown
        [0, 1, 2, 3, 4, 5, 6] e.byPort e.byVerb false
    else { m with clk := { m.clk with entry := some { e with phase := .switchOff } } } := by
  unfold Mach.entryCommit
  rw [he]
  dsimp only
  rw [if_neg (not_not_intro hp), hr]

/-- An entry that a refuser holds is aborted, and the guard path may arm again. -/
theorem Mach.entryCommit_refused {m : Mach} {e : Entry} {c : Nat} {cs : List Nat} (he : m.clk.entry = some e) (hp : e.phase = .close)
    (hr : m.refusers e.byPort e.byVerb (!e.mixed) = c :: cs) :
    m.entryCommit = (m.entryFails (c :: cs) e.target true).grdTryArm := by
  unfold Mach.entryCommit
  rw [he]
  dsimp only
  rw [if_neg (not_not_intro hp), hr]

theorem Mach.entryCommit_watch {m : Mach} {e : Entry} (he : m.clk.entry = some e) (hp : e.phase = .close)
    (hr : m.refusers e.byPort e.byVerb (!e.mixed) = []) (ht : e.target = .watch) :
    m.entryCommit = { m with clk := { m.clk with entry := some { e with phase := .switchOff } } } :=
  (Mach.entryCommit_passes he hp hr).trans (if_neg (by simp [ht]))

/-- A shutdown's self-test is about to begin: the entry is in its phase 4, and the run of tests stands. -/
def Mach.shutdownNoted (m : Mach) (e : Entry) : Mach :=
  { m with
    clk := { m.clk with entry := some { e with phase := .selfTest } }
    bist := { m.bist with run := some ⟨.shutdown, [0, 1, 2, 3, 4, 5, 6], [], e.byPort, e.byVerb, false, [], true, 0⟩
                          lastRun := RunKind.shutdown.code } }

theorem Mach.shutdownNoted_parts (m : Mach) (e : Entry) : m.changesOnly (m.shutdownNoted e) [.clk, .bist] := fun x hx => by
  cases x <;> first | rfl | exact absurd (by simp) hx

/-- The self-test of a shutdown begins with the motion block (R697, R700). -/
theorem Mach.runStart_shutdown (m : Mach) (e : Entry) :
    Mach.runStart { m with clk := { m.clk with entry := some { e with phase := .selfTest } } } .shutdown [0, 1, 2, 3, 4, 5, 6]
      e.byPort e.byVerb false = (m.shutdownNoted e).motionOff := rfl

/-- The commit point of an Ember entry: the guard path is OFF, and the self-test begins. -/
theorem Mach.entryCommit_ember {m : Mach} {e : Entry} (he : m.clk.entry = some e) (hp : e.phase = .close)
    (hr : m.refusers e.byPort e.byVerb (!e.mixed) = []) (ht : e.target = .ember) :
    m.entryCommit.clk = { m.clk with entry := some { e with phase := .selfTest } } ∧
      m.entryCommit.bist.run = some ⟨.shutdown, [0, 1, 2, 3, 4, 5, 6], [], e.byPort, e.byVerb, false, [], true, 0⟩ ∧
      m.changesOnly m.entryCommit [.clk, .regs, .mot, .flt, .ang, .grd, .bist, .free] := by
  have hgrd := (Mach.grdOff_within m (m.within_refl [.grd, .free]) rfl).1
  have hnoted := m.grdOff.shutdownNoted_parts e
  have hoff := (Mach.motionOff_within (m.grdOff.shutdownNoted e) (Mach.within_refl _ [.regs, .mot, .flt, .ang, .grd, .free]) rfl).1
  have hclk : m.grdOff.clk = m.clk := hgrd .clk (by simp)
  rw [Mach.entryCommit_passes he hp hr, if_pos ht, ← hclk, Mach.runStart_shutdown]
  refine ⟨?_, ?_, fun x hx => ?_⟩
  · rw [show _ = (m.grdOff.shutdownNoted e).clk from hoff .clk (by simp)]
    rfl
  · rw [show _ = (m.grdOff.shutdownNoted e).bist from hoff .bist (by simp)]
    rfl
  · simp only [List.mem_cons, not_or] at hx
    exact Mach.agrees_trans (Mach.agrees_trans (hgrd x (by simp [hx])) (hnoted x (by simp [hx]))) (hoff x (by simp [hx]))

/-- The end of an entry that fails: ENTER is clear, and no entry is under way. -/
def Mach.enterCleared (m : Mach) : Mach := { m.setFld 0x800 4 1 0 with clk := { m.clk with entry := none } }

theorem Mach.entryFails_eq (m : Mach) (codes : List Nat) (target : Mode) : m.entryFails codes target true =
    ((((codes.foldl (fun (m : Mach) c => m.count (0x820 + 4 * c)) m).logPush (codes.headD 0) target.code true).sqBit 0x820 2).intBoth
      7).enterCleared := by
  unfold Mach.entryFails
  rw [if_pos rfl]
  rfl

theorem Mach.enterCleared_effect {m : Mach} (hc : m.canonical = true) : m.enterCleared.flag 0x800 4 = false ∧
    (∀ a, a ≠ 0x800 → m.enterCleared.reg a = m.reg a) ∧ m.changesOnly m.enterCleared [.clk, .regs] := by
  refine ⟨?_, fun a ha => m.setFld_reg_ne _ _ _ ha, fun x hx => ?_⟩
  · change bitAt ((m.setFld 0x800 4 1 0).reg 0x800) 4 = false
    rw [Mach.setFld, Mach.reg_setReg_self _ _ _ hc, bitAt_setBits _ _ (by omega)]
    rfl
  · cases x <;> first | rfl | exact absurd (by simp) hx

/-- An entry that a refuser aborts: ABORT is set, ENTER is clear, and the modes and domains stay. -/
theorem Mach.entryFails_aborts {m : Mach} (codes : List Nat) (target : Mode) (hc : m.canonical = true) (hon : m.on 0 = true) :
    (m.entryFails codes target true).clk = { m.clk with entry := none } ∧ (m.entryFails codes target true).flag 0x820 2 = true ∧
      (m.entryFails codes target true).flag 0x800 4 = false ∧
      m.changesOnly (m.entryFails codes target true) [.clk, .regs, .pa, .pb] := by
  rw [Mach.entryFails_eq]
  have hcounted : m.within (codes.foldl (fun (m : Mach) c => m.count (0x820 + 4 * c)) m) [.regs] :=
    Mach.within_fold _ _ (m.within_refl [.regs]) fun k c hk => Mach.count_within k _ hk rfl
  have hlogged := Mach.logPush_within _ (codes.headD 0) target.code true hcounted rfl
  generalize (codes.foldl (fun (m : Mach) c => m.count (0x820 + 4 * c)) m).logPush (codes.headD 0) target.code true = k at hlogged ⊢
  have hkclk : k.clk = m.clk := hlogged.1 .clk (by simp)
  have habort : (k.sqBit 0x820 2).flag 0x820 2 = true := Mach.sqBit_sets (hlogged.2.1 hc) (by omega) (by
    change k.on 0 = true
    rw [Mach.on_congr hkclk]
    exact hon)
  have htold : k.within ((k.sqBit 0x820 2).intBoth 7) [.regs, .pa, .pb] :=
    Mach.intBoth_within _ 7 (Mach.sqBit_within k 0x820 2 (k.within_refl _) rfl) rfl
  have hacc : ∀ q, 0x820 ≠ accLast q := fun q => by cases q <;> decide
  have hkept : ((k.sqBit 0x820 2).intBoth 7).reg 0x820 = (k.sqBit 0x820 2).reg 0x820 :=
    (Mach.intEvent_reg_ne _ .b _ (by decide) hacc).trans (Mach.intEvent_reg_ne _ .a _ (by decide) hacc)
  generalize (k.sqBit 0x820 2).intBoth 7 = n at htold hkept ⊢
  obtain ⟨henter, hregs, hparts⟩ := Mach.enterCleared_effect (htold.2.1 (hlogged.2.1 hc))
  have hnclk : n.clk = m.clk := (show n.clk = k.clk from htold.1 .clk (by simp)).trans hkclk
  refine ⟨?_, ?_, henter, fun x hx => ?_⟩
  · rw [← hnclk]
    rfl
  · rw [Mach.flag, hregs _ (by decide), hkept]
    exact habort
  · simp only [List.mem_cons, not_or] at hx
    exact Mach.agrees_trans (Mach.agrees_trans (hlogged.1 x (by simp [hx])) (htold.1 x (by simp [hx]))) (hparts x (by simp [hx]))

theorem Mach.entryCommit_aborts {m : Mach} {e : Entry} (hc : m.canonical = true) (hon : m.on 0 = true) (he : m.clk.entry = some e)
    (hp : e.phase = .close) (hr : m.refusers e.byPort e.byVerb (!e.mixed) ≠ []) :
    m.entryCommit.clk = { m.clk with entry := none } ∧ m.entryCommit.flag 0x820 2 = true ∧ m.entryCommit.flag 0x800 4 = false ∧
      m.changesOnly m.entryCommit [.clk, .regs, .pa, .pb, .grd, .free] := by
  obtain ⟨c, cs, hcs⟩ := List.exists_cons_of_ne_nil hr
  have hcommit := Mach.entryCommit_refused he hp hcs
  obtain ⟨hclk, habort, henter, hparts⟩ := Mach.entryFails_aborts (c :: cs) e.target hc hon
  have harm := (Mach.grdTryArm_within (m.entryFails (c :: cs) e.target true) (Mach.within_refl _ [.grd, .free]) rfl).1
  have hregs : (m.entryFails (c :: cs) e.target true).grdTryArm.regs = (m.entryFails (c :: cs) e.target true).regs := harm .regs (by simp)
  rw [hcommit]
  refine ⟨(show _ = _ from harm .clk (by simp)).trans hclk, ?_, ?_, fun x hx => ?_⟩
  · rw [Mach.flag, Mach.reg, hregs]
    exact habort
  · rw [Mach.flag, Mach.reg, hregs]
    exact henter
  · simp only [List.mem_cons, not_or] at hx
    exact Mach.agrees_trans (hparts x (by simp [hx])) (harm x (by simp [hx]))

end Sys2Proof.Machine
end

section
/-! SUPPORT. The end of a mode entry (R668, R672, R678) and the wakes (R680 to R682). -/

namespace Sys2Proof.Machine

/-! ### The domains of Watch and Ember (R668, R672) -/

/-- The states of D1 to D7 in Watch. -/
def watchTable : Nat → Dom
  | 4 => .retain
  | 1 => .on
  | 3 => .on
  | _ => .off

/-- The states of D1 to D7 in Ember. -/
def emberTable : Nat → Dom
  | 4 => .retain
  | _ => .off

/-- The part in a mode. -/
def Mach.inMode (m : Mach) (mode : Mode) : Mach := { m with clk := { m.clk with mode := mode } }

theorem Mach.Steady.inMode {m n : Mach} (h : n.clk = m.clk) (mode : Mode) : (m.inMode mode).Steady (n.inMode mode) :=
  .of_clk (congrArg (fun c : Clocks => { c with mode := mode }) h)

theorem Mach.inMode_life (m : Mach) (mode : Mode) : (m.inMode mode).sec.life = m.sec.life := rfl

theorem Mach.ang_steady (m : Mach) (a : Angle) : m.Steady { m with ang := a } := .of_clk rfl

theorem Mach.ang_life (m : Mach) (a : Angle) : ({ m with ang := a } : Mach).sec.life = m.sec.life := rfl

theorem Mach.evt_steady (m : Mach) (e : Events) : m.Steady { m with evt := e } := .of_clk rfl

/-- A list of domains with their states, switched one after another. -/
theorem Mach.switchAll_pairs (m : Mach) (table : Nat → Dom) (ember : Bool) (ks : List Nat) :
    (ks.map fun k => (k, table k)).foldl (fun (m : Mach) (p : Nat × Dom) => m.switchDom p.1 p.2 ember) m =
      m.switchAll table ember ks := List.foldl_map

theorem Mach.watchDomains_effect (m : Mach) : (m.inMode .watch).Switched m.watchDomains ∧
    (∀ j ∈ [1, 2, 3, 4, 5, 6, 7], m.watchDomains.dom j = watchTable j) ∧ m.watchDomains.sec.life = m.sec.life := by
  unfold Mach.watchDomains
  extract_lets stopped clks noted folded searched ang stood
  have hstopped : m.within stopped [.grd, .free, .flt] :=
    Mach.stopGroups_within m.grdOff [1, 2, 3] (Mach.grdOff_within m (m.within_refl _) rfl) rfl
  have hclk : stopped.clk = m.clk := hstopped.1 .clk (by simp)
  have hsec : stopped.sec = m.sec := hstopped.1 .sec (by simp)
  have hnoted : (m.inMode .watch).Steady noted := .inMode hclk .watch
  have hlife : noted.sec.life = m.sec.life := (stopped.inMode_life .watch).trans (congrArg Security.life hsec)
  have hfold : folded = noted.switchAll watchTable false [6, 2, 7, 4, 1, 3] :=
    Mach.switchAll_pairs noted watchTable false [6, 2, 7, 4, 1, 3]
  have hsearched : folded.within searched [.flt, .evt, .regs, .ang] := Mach.enterSearch_within _
    (Mach.evtEnterWatch_within _ (Mach.presetChange_within folded 0 (folded.within_refl _) rfl) rfl) rfl
  have hkept : searched.sec = folded.sec := hsearched.1 .sec (by simp)
  have hstood : folded.Steady stood := (Mach.Steady.of_within hsearched rfl).trans (searched.ang_steady _)
  have hstoodLife : stood.sec.life = folded.sec.life := (searched.ang_life _).trans (congrArg Security.life hkept)
  have hlast := stood.switchDom_steady 5 .off false
  refine ⟨?_, fun j hj => ?_, ?_⟩
  · have hsw : noted.Switched folded := hfold ▸ noted.switchAll_switched ..
    exact ((hnoted.switched.trans hsw).trans hstood.switched).trans ((Mach.Switched.setDom stood 5 .off).trans hlast.switched)
  · rw [hlast.dom j]
    by_cases h5 : j = 5
    · rw [h5, stood.dom_setDom_self .off (by simp)]
      rfl
    · rw [stood.dom_setDom_ne .off (by simp) hj h5, hstood.dom j, hfold, noted.switchAll_dom watchTable false (by decide) hj, if_pos]
      fin_cases hj <;> simp at h5 ⊢
  · rw [stood.switchDom_life false (by simp), hstoodLife, hfold, noted.switchAll_life false (by decide), hlife]

theorem Mach.emberDomains_effect (m : Mach) : (m.inMode .ember).Switched m.emberDomains ∧
    (∀ j ∈ [1, 2, 3, 4, 5, 6, 7], m.emberDomains.dom j = emberTable j) ∧ m.emberDomains.sec.life = m.sec.life := by
  have hfold : m.emberDomains = (m.inMode .ember).switchAll emberTable true [6, 2, 1, 3, 7, 4, 5] :=
    Mach.switchAll_pairs (m.inMode .ember) emberTable true [6, 2, 1, 3, 7, 4, 5]
  rw [hfold]
  refine ⟨Mach.switchAll_switched .., fun j hj => ?_, Mach.switchAll_life _ true (by decide)⟩
  rw [Mach.switchAll_dom _ emberTable true (by decide) hj, if_pos]
  fin_cases hj <;> simp

/-! ### The mode is reached (R672, R678) -/

/-- A mode is reached: ENTERED is set, and the wake timer counts from now. -/
def Mach.modeReached (m : Mach) : Mach :=
  { m.sqBit 0x820 0 with clk := { (m.sqBit 0x820 0).clk with
      modeSince := (m.sqBit 0x820 0).clk.now, wakeTimerFired := false, powerPending := true } }

theorem Mach.modeReached_effect (m : Mach) :
    m.modeReached.clk = { m.clk with modeSince := m.clk.now, wakeTimerFired := false, powerPending := true } ∧
      m.modeReached.sec = m.sec := by
  have hparts := (Mach.sqBit_within m 0x820 0 (m.within_refl [.regs]) rfl).1
  have hclk : (m.sqBit 0x820 0).clk = m.clk := hparts .clk (by simp)
  refine ⟨?_, hparts .sec (by simp)⟩
  unfold Mach.modeReached
  rw [hclk]

/-- The end of an entry: no entry and no wake is noted, and ENTER is clear. -/
def Mach.entryEnded (m : Mach) : Mach :=
  ({ m with clk := { m.clk with entry := none, latchedWake := none } } : Mach).setFld 0x800 4 1 0

/-- The end of an entry that no reply is waited for and no wake has met. -/
theorem Mach.entryOff_reaches {m : Mach} {e : Entry} (he : m.clk.entry = some e) (hp : e.phase = .switchOff) (hv : e.byVerb = false)
    (hw : m.clk.latchedWake = none) : m.entryOff =
      (if e.target = .watch then m.entryEnded.watchDomains else m.entryEnded.emberDomains).modeReached := by
  unfold Mach.entryOff
  rw [he]
  dsimp only
  rw [if_neg (by simp [hp, hv, Mach.lineTaken]), hw]
  rfl

/-- A mode reached from a block whose domains have taken their states in it. -/
theorem Mach.Switched.reached {m n : Mach} {mode : Mode} (h : (m.entryEnded.inMode mode).Switched n) :
    n.modeReached.clk.entry = none ∧ n.modeReached.clk.modeSince = m.clk.now ∧ n.modeReached.clk.mode = mode ∧
      n.modeReached.clk.now = m.clk.now ∧ (∀ j, n.modeReached.dom j = n.dom j) := by
  obtain ⟨hclk, -⟩ := n.modeReached_effect
  refine ⟨?_, ?_, ?_, ?_, fun j => ?_⟩
  · rw [hclk, h]
    rfl
  · rw [hclk, h]
    rfl
  · rw [hclk, h]
    rfl
  · rw [hclk, h]
    rfl
  · unfold Mach.dom
    rw [hclk]

theorem Mach.entryOff_effect {m : Mach} {e : Entry} (he : m.clk.entry = some e) (hp : e.phase = .switchOff) (hv : e.byVerb = false)
    (hw : m.clk.latchedWake = none) : m.entryOff.clk.entry = none ∧ m.entryOff.clk.modeSince = m.clk.now ∧
      (e.target = .watch → m.entryOff.clk.mode = .watch ∧ ∀ j ∈ [1, 2, 3, 4, 5, 6, 7], m.entryOff.dom j = watchTable j) ∧
      (e.target = .ember → m.entryOff.clk.mode = .ember ∧ ∀ j ∈ [1, 2, 3, 4, 5, 6, 7], m.entryOff.dom j = emberTable j) ∧
      m.entryOff.sec.life = m.sec.life ∧ m.entryOff.clk.now = m.clk.now := by
  rw [Mach.entryOff_reaches he hp hv hw]
  by_cases ht : e.target = .watch
  · obtain ⟨hsw, hdom, hlife⟩ := m.entryEnded.watchDomains_effect
    obtain ⟨hentry, hsince, hmode, hnow, hdoms⟩ := hsw.reached
    rw [if_pos ht]
    refine ⟨hentry, hsince, fun _ => ⟨hmode, fun j hj => (hdoms j).trans (hdom j hj)⟩, fun h => ?_, ?_, hnow⟩
    · rw [ht] at h
      exact absurd h (by decide)
    · rw [(Mach.modeReached_effect _).2]
      exact hlife
  · obtain ⟨hsw, hdom, hlife⟩ := m.entryEnded.emberDomains_effect
    obtain ⟨hentry, hsince, hmode, hnow, hdoms⟩ := hsw.reached
    rw [if_neg ht]
    refine ⟨hentry, hsince, fun h => absurd h ht, fun _ => ⟨hmode, fun j hj => (hdoms j).trans (hdom j hj)⟩, ?_, hnow⟩
    rw [(Mach.modeReached_effect _).2]
    exact hlife

/-! ### Wakes (R680 to R682) -/

/-- A change of the clocks alone. -/
theorem Mach.clk_changesOnly (m : Mach) (c : Clocks) : m.changesOnly { m with clk := c } [.clk] := fun x hx => by
  cases x <;> first | rfl | exact absurd (by simp) hx

/-- The wake source of a port's SEL. -/
def selSource : Port → Nat
  | .a => 1
  | .b => 2

/-- An edge of SEL that lasts long enough, at a port not under test, is a wake source. -/
theorem exec_selWake_wakes {s : State} {p : Port} {low : Nat} (hl : s.m.clk.life = .up) (hv : s.m.clk.vio = true) (hlow : 14 ≤ low)
    (ht : s.m.portTested p = false) : exec (.selWake p low) s = .next { s with m := s.m.wake (selSource p) } := by
  have hlevel : s.m.wakeLevel low = (true, s.m) := by
    unfold Mach.wakeLevel
    rw [if_neg (by simp [hv]; omega), if_pos hlow]
  have hsel : s.m.selWake p low = (s.m.wake (selSource p), none) := by
    unfold Mach.selWake
    rw [hlevel]
    dsimp only
    rw [if_neg (by simp [hl]), if_neg (by simp [ht])]
    cases p <;> rfl
  change goOn s (Mach.testReply (s.m.selWake p low)) = _
  rw [hsel]
  rfl

/-- During an entry, but not in its self-test, an enabled source is latched, the highest in the table of those latched. -/
theorem Mach.wake_latches {m : Mach} {src : Nat} {e : Entry} (hf : m.flag 0x818 (src - 1) = true) (he : m.clk.entry = some e)
    (hp : e.phase ≠ .selfTest) :
    m.wake src = { m with clk := { m.clk with latchedWake := some (min (m.clk.latchedWake.getD src) src) } } := by
  unfold Mach.wake
  rw [if_neg (by simp [hf]), he]
  dsimp only
  rw [if_neg hp]

/-- In Watch an enabled source ends the mode. -/
theorem Mach.wake_watch {m : Mach} {src : Nat} (hf : m.flag 0x818 (src - 1) = true) (he : m.clk.entry = none)
    (hm : m.clk.mode = .watch) : m.wake src = (m.watchExit src).portsWake := by
  unfold Mach.wake
  rw [if_neg (by simp [hf]), he]
  dsimp only
  unfold Mach.wakeNow
  rw [hm]

/-- After Watch the part is in Run since this cycle, its wake noted, and D5 is ON. -/
theorem Mach.watchExit_effect (m : Mach) (src : Nat) : (m.watchExit src).clk.mode = .run ∧ (m.watchExit src).dom 5 = .on ∧
    (m.watchExit src).clk.runSince = m.clk.now ∧ (m.watchExit src).clk.modeSince = m.clk.now ∧
    (m.watchExit src).clk.wokeAt = some m.clk.now ∧ (m.watchExit src).clk.now = m.clk.now := by
  unfold Mach.watchExit
  extract_lets woken clks noted switched armed evt
  have harmed : switched.within armed [.regs, .pa, .pb, .flt, .evt, .buf, .sec, .nv, .free, .grd] := Mach.grdTryArm_within _
    (Mach.evtExitWatch_within _ (Mach.presetChange_within switched 0 (switched.within_refl _) rfl) rfl) rfl
  have hsteady : switched.Steady { armed with evt := { evt with wakeReq := false } } :=
    (Mach.Steady.of_within harmed rfl).trans (armed.evt_steady _)
  have hall : noted.Switched switched := noted.switchAll_switched noted.runState false [5, 7, 4, 2, 6, 1, 3]
  have hsw := hall.trans hsteady.switched
  have hdom : switched.dom 5 = noted.runState 5 :=
    (noted.switchAll_dom noted.runState false (ks := [5, 7, 4, 2, 6, 1, 3]) (by decide) (by decide)).trans (if_pos (by decide))
  have hnoted : noted.clk = { m.clk with
      mode := .run, modeSince := m.clk.now, runSince := m.clk.now, achSince := m.clk.now, wakeTimerFired := false
      wokeAt := some m.clk.now } := rfl
  have hrun : noted.runState 5 = .on := rfl
  refine ⟨?_, (hsteady.dom 5).trans (hdom.trans hrun), ?_, ?_, ?_, ?_⟩ <;> rw [hsw, hnoted]

/-- Both ports are ready 150 µs after a wake. -/
theorem Mach.portsWake_effect (m : Mach) : m.portsWake.clk = m.clk ∧
    ∀ q, (m.portsWake.port q).readyAt = m.clk.now + microsUp 150 ∧ (m.portsWake.port q).wokenAt = m.clk.now :=
  ⟨(Mach.updPort_clk ..).trans (Mach.updPort_clk ..), fun q => by cases q <;> exact ⟨rfl, rfl⟩⟩

/-- A part that an enabled source wakes from Watch. -/
theorem Mach.wake_watch_effect {m : Mach} {src : Nat} (hf : m.flag 0x818 (src - 1) = true) (he : m.clk.entry = none)
    (hm : m.clk.mode = .watch) : (m.wake src).clk.mode = .run ∧ (m.wake src).on 5 = true ∧
      (∀ q, ((m.wake src).port q).readyAt = m.clk.now + microsUp 150 ∧ ((m.wake src).port q).wokenAt = m.clk.now) ∧
      (m.wake src).clk.runSince = m.clk.now ∧ (m.wake src).clk.modeSince = m.clk.now ∧ (m.wake src).clk.wokeAt = some m.clk.now := by
  rw [Mach.wake_watch hf he hm]
  obtain ⟨hmode, hon, hrun, hsince, hwoke, hnow⟩ := m.watchExit_effect src
  obtain ⟨hclk, hports⟩ := (m.watchExit src).portsWake_effect
  rw [hnow] at hports
  rw [hclk, Mach.on_congr hclk]
  exact ⟨hmode, decide_eq_true hon, hports, hrun, hsince, hwoke⟩

/-- The wake timer fires `PWR_TIMER` × 32 Hearth cycles after Watch was reached. -/
theorem Mach.wakeTimer_fires {m : Mach} (hl : m.clk.life = .up) (hm : m.clk.mode = .watch) (hs : m.clk.start = none)
    (h0 : (m.reg 0x81C).toNat ≠ 0) (hf : m.clk.wakeTimerFired = false)
    (ht : m.clk.modeSince + (m.reg 0x81C).toNat * 65536 ≤ m.clk.now) :
    m.wakeTimer = Mach.wake { m with clk := { m.clk with wakeTimerFired := true } } 5 := by
  unfold Mach.wakeTimer
  generalize (m.reg 0x81C).toNat = n at *
  have hpast : ¬ m.clk.now < m.clk.modeSince + n * 32 * 2048 := by omega
  exact if_neg (by simp [h0, hm, hs, hf, hl, hpast])

theorem Mach.wake_disabled {m : Mach} {src : Nat} (hf : m.flag 0x818 (src - 1) = false) : m.wake src = m := by
  unfold Mach.wake
  exact if_pos (by simp [hf])

/-- Settles O48: a row of the power modes switches domains one after another, each of which keeps the course of the modes, between
what a mode entry or a wake notes at its beginning and at its end. -/
theorem powerModesChange : Obligations.PowerModesChange := by
  intro s hc hon hlife
  refine ⟨fun ag w ht hm hs hd => ?_, fun ag w ht hg htgt hs he hr => exec_pwrModeEnter_begins hc ht hg htgt hs he hr,
    fun e he => ⟨fun hp hr ht => ?_, fun hp hr ht => ?_, fun hp hr => ?_, fun hp hv hw => ?_, fun p low hp hv hlow ht hf => ?_⟩,
    fun hm he hs => ⟨fun p low _ hv hlow ht hf => ?_, fun n hn h0 hfired ht => ?_⟩⟩
  · obtain ⟨t, hexec, hpend, hdoms, h5, hsw⟩ := exec_pwrDom_switches hc ht hm hs hd
    refine ⟨t, hexec, hpend, hdoms, h5, ?_, ?_, ?_⟩ <;> rw [hsw]
  · have hsame := Mach.entryCommit_watch he hp hr ht
    exact ⟨{ s with m := s.m.entryCommit }, rfl, rfl, congrArg Mach.clk hsame, hsame ▸ s.m.clk_changesOnly _⟩
  · obtain ⟨hclk, hrun, hparts⟩ := Mach.entryCommit_ember he hp hr ht
    have hdom : s.m.entryCommit.clk.dom = s.m.clk.dom := by rw [hclk]
    exact ⟨_, rfl, rfl, congrArg Clocks.entry hclk, hrun, hdom, hparts⟩
  · obtain ⟨hclk, habort, henter, hparts⟩ := Mach.entryCommit_aborts hc hon he hp hr
    have hmode : s.m.entryCommit.clk.mode = s.m.clk.mode := by rw [hclk]
    have hdom : s.m.entryCommit.clk.dom = s.m.clk.dom := by rw [hclk]
    exact ⟨_, rfl, rfl, congrArg Clocks.entry hclk, hmode, hdom, habort, henter, hparts⟩
  · obtain ⟨hentry, hsince, hwatch, hember, hl, hnow⟩ := Mach.entryOff_effect he hp hv hw
    refine ⟨_, rfl, rfl, hentry, hsince, fun ht => ?_, fun ht => ?_, hl, hnow⟩
    · obtain ⟨hmode, hdom⟩ := hwatch ht
      exact ⟨hmode, hdom 4 (by simp), fun k hk => by fin_cases hk <;> exact hdom _ (by simp),
        fun k hk => by fin_cases hk <;> exact hdom _ (by simp)⟩
    · obtain ⟨hmode, hdom⟩ := hember ht
      exact ⟨hmode, hdom 4 (by simp), fun k hk => by fin_cases hk <;> exact hdom _ (by simp)⟩
  · have hflag : s.m.flag 0x818 (selSource p - 1) = true := by cases p <;> exact hf
    have hsame := Mach.wake_latches hflag he hp
    refine ⟨_, exec_selWake_wakes hlife hv hlow ht, rfl, (congrArg Mach.clk hsame).trans ?_, hsame ▸ s.m.clk_changesOnly _⟩
    cases p <;> rfl
  · have hflag : s.m.flag 0x818 (selSource p - 1) = true := by cases p <;> exact hf
    exact ⟨_, exec_selWake_wakes hlife hv hlow ht, rfl, Mach.wake_watch_effect hflag he hm⟩
  · subst hn
    have hfires := Mach.wakeTimer_fires hlife hm hs h0 hfired ht
    refine ⟨fun hf => ?_, fun hf => ?_⟩
    · obtain ⟨hmode, hon5, hports, hrun, hsince, hwoke⟩ :=
        Mach.wake_watch_effect (m := { s.m with clk := { s.m.clk with wakeTimerFired := true } }) (src := 5) hf he hm
      exact ⟨{ s with m := s.m.wakeTimer }, rfl, rfl, hfires ▸ ⟨hmode, hon5, fun q => (hports q).1, hrun, hsince, hwoke⟩⟩
    · have hsame : s.m.wakeTimer = { s.m with clk := { s.m.clk with wakeTimerFired := true } } := hfires.trans (Mach.wake_disabled hf)
      exact ⟨{ s with m := s.m.wakeTimer }, rfl, rfl, congrArg Mach.clk hsame, hsame ▸ s.m.clk_changesOnly _⟩

end Sys2Proof.Machine
end

section
/-! SUPPORT. The load-hold servo (R268 to R277, R297, R298): what an axis that is OFF or held at its fixed value takes, and what a hold
update and the end of its window change. -/

namespace Sys2Proof.Machine

/-! ### Steps of an axis (R268, R272) -/

theorem roundAway_intCast (k : Int) : roundAway (k : Rat) = k := by
  have hhalf (j : Int) : ((j : Rat) + 1 / 2).floor = j := by
    change ⌊(j : Rat) + 1 / 2⌋ = j
    rw [Int.floor_intCast_add]
    norm_num
  unfold roundAway
  split
  · exact hhalf k
  · rw [← Int.cast_neg, hhalf, neg_neg]

/-- A whole number of units of H is held as it is. -/
theorem holdRound_units {k : Int} (hlo : -2 ^ 23 ≤ k) (hhi : k < 2 ^ 23) : holdRound ((k : Rat) * holdUnit) = k := by
  have hk : (k : Rat) * holdUnit * 16384 = k := by
    unfold holdUnit
    ring
  rw [holdRound, hk, roundAway_intCast, clampInt]
  split
  · omega
  · split <;> omega

/-- A step of at most 64,000 units is within the slew limit, and reaches the value that it goes to. -/
theorem ServoAxis.step_reaches {x : ServoAxis} {k : Int} (ref : Bool) (hstep : |k - x.h| ≤ 64000) (hlo : -2 ^ 23 ≤ k)
    (hhi : k < 2 ^ 23) : (x.step ((k - x.h : Int) * holdUnit) ref).h = k := by
  obtain ⟨hdown, hup⟩ := abs_le.mp hstep
  have hdown' : (-64000 : Rat) ≤ (k - x.h : Int) := by exact_mod_cast hdown
  have hup' : ((k - x.h : Int) : Rat) ≤ 64000 := by exact_mod_cast hup
  have h1 : ¬ slewLimit < ((k - x.h : Int) : Rat) * holdUnit := by
    unfold slewLimit holdUnit
    linarith
  have h2 : ¬ ((k - x.h : Int) : Rat) * holdUnit < -slewLimit := by
    unfold slewLimit holdUnit
    linarith
  have hsum : (x.h : Rat) * holdUnit + ((k - x.h : Int) : Rat) * holdUnit = k * holdUnit := by
    push_cast
    ring
  simp only [ServoAxis.step, h1, h2, if_false, hsum]
  exact holdRound_units hlo hhi

theorem signed_bounds (n : Nat) : -2 ^ 23 ≤ signed 24 n ∧ signed 24 n < 2 ^ 23 := by
  unfold signed
  dsimp only
  split <;> omega

/-! ### The law of an axis that is OFF or held at its fixed value (R272) -/

/-- Output axis `a`, held at `old` before an update: with its source OFF it holds 0 after it, and at its fixed value that value where
one step reaches it. -/
def Mach.axisLaw (m : Mach) (a : Nat) (old new : Int) : Prop :=
  (m.fld 0xC08 (2 * a) 2 = 0 → new = 0) ∧ (m.fld 0xC08 (2 * a) 2 = 3 → |m.fixOf a - old| ≤ 64000 → new = m.fixOf a)

theorem Mach.axisLaw_congr {m n : Mach} (hr : ∀ x, x ≠ 0xC3C → n.reg x = m.reg x) {a : Nat} (ha : a < 3) {old new : Int} :
    n.axisLaw a old new ↔ m.axisLaw a old new := by
  have hfix : n.fixOf a = m.fixOf a := by
    rw [Mach.fixOf, Mach.fld, hr _ (by omega)]
    rfl
  rw [Mach.axisLaw, hfix, Mach.fld, hr _ (by decide)]
  rfl

theorem Mach.servoAxis_law (m : Mach) (i : HoldInput) (a : Nat) (x : ServoAxis) : m.axisLaw a x.h (m.servoAxis i a x).1.h := by
  refine ⟨fun hoff => ?_, fun hfix hstep => ?_⟩
  · simp only [Mach.servoAxis, hoff, ServoAxis.jump]
  · obtain ⟨hlo, hhi⟩ := signed_bounds (m.fld (0x0C0C + 4 * a) 0 24)
    simp only [Mach.servoAxis, hfix]
    exact ServoAxis.step_reaches (x := { x with
      src := 3, prevClip := _, mPrev := _, mValid := _, acquire := false }) false hstep hlo hhi

/-! ### Edits of the motion block -/

namespace Mach.Edits

variable {m n : Mach} {ps : List Part} {as : List Nat}

theorem flushSeq (h : m.Edits n ps as) {a : Nat} (ha : a ∈ as) (hp : [Part.regs].all ps.contains = true) :
    m.Edits (n.flushSeq a) ps as := by
  obtain ⟨hcleared, hclk⟩ := n.flushSeq_cleared a
  refine ⟨Mach.flushSeq_within n a h.within hp, ?_, fun x hx => ?_⟩
  · unfold Mach.noClear
    rw [hcleared, hclk]
    exact h.noClear
  · exact (n.flushSeq_reg_ne (by rintro rfl; exact hx ha)).trans (h.keepsRegs x hx)

/-- The motion block changes in itself. -/
theorem mot (h : m.Edits n ps as) (x : Motion) (hp : ps.contains .mot = true) : m.Edits { n with mot := x } ps as :=
  h.other (qs := [.mot]) ⟨fun y hy => by cases y <;> simp_all [Mach.agrees], id, id⟩ (by simpa using hp)

end Mach.Edits

/-! ### Parts of a hold update -/

/-- Sequence increments that have come due leave the motion block as it is. -/
theorem Mach.flushSeq_mot (m : Mach) (a : Nat) : (m.flushSeq a).mot = m.mot :=
  (Mach.flushSeq_within m a (m.within_refl [.regs]) rfl).1 .mot (by simp)

theorem Mach.holdStatus_mot (m : Mach) (nogyr : Bool) : (m.holdStatus nogyr).mot = m.mot :=
  (Mach.holdStatus_within m nogyr (m.within_refl [.regs]) rfl).1 .mot (by simp)

/-- A window change gives the motion block its window, and touches ACF's status register alone (R277, R321). -/
theorem Mach.windowChange_effect {m : Mach} (u : Nat) (hn : m.noClear) :
    (m.windowChange u).mot = { m.mot with window := m.fld 0xC04 24 2 } ∧
      m.Edits (m.windowChange u) [.regs, .mot, .flt, .evt] [0x100C] := by
  unfold Mach.windowChange
  extract_lets w
  split
  · next hw =>
    exact ⟨congrArg (fun k => { m.mot with window := k }) hw.symm, .refl hn⟩
  · let windowed : Mach := { m with mot := { m.mot with window := w } }
    have hwindowed : m.Edits windowed [.regs, .mot, .flt, .evt] [0x100C] := (Mach.Edits.refl hn).mot _ rfl
    have hkept := (hwindowed.restartKept 0 u (by simp [fltBase]) rfl).restartResampler u rfl
    have hreset := Mach.recResetGroup_within _ 0 (((windowed.restartKept 0 u).restartKept 12 u).within_refl [.evt]) rfl
    refine ⟨?_, hkept.other hreset rfl⟩
    have hrestarts := Mach.restartKept_within _ 12 u (Mach.restartKept_within windowed 0 u (windowed.within_refl [.regs, .flt]) rfl) rfl
    exact (hreset.1 .mot (by simp)).trans (hrestarts.1 .mot (by simp))

/-- The end of an update of the servo: three axes taken at instant `u`, status events, and the hold record (R272, R282, R298). -/
def Mach.servoTakes (m : Mach) (u : Nat) (x y z : ServoAxis) (acq nogyr : Bool) : Mach :=
  let changed := x.h ≠ m.mot.x.h ∨ y.h ≠ m.mot.y.h ∨ z.h ≠ m.mot.z.h
  let m := { m with mot := { m.mot with x := x, y := y, z := z, hist := keepHist ((u, x.h, y.h, z.h) :: m.mot.hist) } }
  let m := m.holdStatus nogyr
  if acq ∨ changed then
    let ws := m.mot.words acq
    if m.grpDelivers 0 then { m with mot := { m.mot with record := ws, due := m.mot.due ++ [(u, ws)] } }
    else { m with mot := { m.mot with record := ws, due := [], heldIn := none } }
  else { m with mot := { m.mot with record := m.mot.words false } }

/-- The three axes follow one another, each from the block that the one before it leaves. -/
theorem Mach.servoUpdate_eq {m m₀ m₁ m₂ : Mach} {i : HoldInput} {x y z : ServoAxis} {ax ay az nx ny nz : Bool} (u : Nat)
    (hx : m.servoAxis i 0 m.mot.x = (x, ax, nx, m₀)) (hy : m₀.servoAxis i 1 m₀.mot.y = (y, ay, ny, m₁))
    (hz : m₁.servoAxis i 2 m₁.mot.z = (z, az, nz, m₂)) :
    m.servoUpdate i u = m₂.servoTakes u x y z (ax || ay || az) (nx || ny || nz) := by
  simp only [Mach.servoUpdate, hx, hy, hz, Mach.servoTakes]

theorem Mach.servoTakes_effect {m : Mach} (u : Nat) (x y z : ServoAxis) (acq nogyr : Bool) (hn : m.noClear) :
    ((m.servoTakes u x y z acq nogyr).mot.x = x ∧ (m.servoTakes u x y z acq nogyr).mot.y = y ∧
      (m.servoTakes u x y z acq nogyr).mot.z = z ∧ (m.servoTakes u x y z acq nogyr).mot.upd = m.mot.upd) ∧
      m.Edits (m.servoTakes u x y z acq nogyr) [.regs, .mot] [0xC3C] := by
  unfold Mach.servoTakes
  extract_lets changed _ taken shown ws
  have htaken : m.Edits taken [.regs, .mot] [0xC3C] := (Mach.Edits.refl hn).mot _ rfl
  have hshown : m.Edits shown [.regs, .mot] [0xC3C] := htaken.sqEvent _ (by simp) rfl
  have hmot : shown.mot = taken.mot := taken.holdStatus_mot nogyr
  have hvals : shown.mot.x = x ∧ shown.mot.y = y ∧ shown.mot.z = z ∧ shown.mot.upd = m.mot.upd := by
    rw [hmot]
    exact ⟨rfl, rfl, rfl, rfl⟩
  refine ⟨?_, .ite (.ite (hshown.mot _ rfl) (hshown.mot _ rfl)) (hshown.mot _ rfl)⟩
  split_ifs <;> exact hvals

/-- An update of the servo gives each axis what its law says, and touches `MOT_STATUS` alone (R272, R298). -/
theorem Mach.servoUpdate_effect {m : Mach} (i : HoldInput) (u : Nat) (hn : m.noClear) :
    (m.axisLaw 0 m.mot.x.h (m.servoUpdate i u).mot.x.h ∧ m.axisLaw 1 m.mot.y.h (m.servoUpdate i u).mot.y.h ∧
      m.axisLaw 2 m.mot.z.h (m.servoUpdate i u).mot.z.h) ∧ (m.servoUpdate i u).mot.upd = m.mot.upd ∧
      m.Edits (m.servoUpdate i u) [.regs, .mot, .free] [0xC3C] := by
  obtain ⟨x, ax, nx, m₀, hx⟩ : ∃ x ax nx m₀, m.servoAxis i 0 m.mot.x = (x, ax, nx, m₀) := ⟨_, _, _, _, rfl⟩
  obtain ⟨y, ay, ny, m₁, hy⟩ : ∃ y ay ny m₁, m₀.servoAxis i 1 m₀.mot.y = (y, ay, ny, m₁) := ⟨_, _, _, _, rfl⟩
  obtain ⟨z, az, nz, m₂, hz⟩ : ∃ z az nz m₂, m₁.servoAxis i 2 m₁.mot.z = (z, az, nz, m₂) := ⟨_, _, _, _, rfl⟩
  have hlawX := m.servoAxis_law i 0 m.mot.x
  have hlawY := m₀.servoAxis_law i 1 m₀.mot.y
  have hlawZ := m₁.servoAxis_law i 2 m₁.mot.z
  have h₀ : m.within m₀ [.free] := by simpa only [hx] using Mach.servoAxis_within m i 0 m.mot.x (m.within_refl [.free]) rfl
  have h₁ : m.within m₁ [.free] := by simpa only [hy] using Mach.servoAxis_within m₀ i 1 m₀.mot.y h₀ rfl
  have h₂ : m.within m₂ [.free] := by simpa only [hz] using Mach.servoAxis_within m₁ i 2 m₁.mot.z h₁ rfl
  have hmot₀ : m₀.mot = m.mot := h₀.1 .mot (by simp)
  have hmot₁ : m₁.mot = m.mot := h₁.1 .mot (by simp)
  have hmot₂ : m₂.mot = m.mot := h₂.1 .mot (by simp)
  rw [hx] at hlawX
  rw [hy, hmot₀] at hlawY
  rw [hz, hmot₁] at hlawZ
  have he : m.Edits m₂ [.regs, .mot, .free] [0xC3C] := (Mach.Edits.refl hn).other h₂ rfl
  obtain ⟨⟨ex, ey, ez, hupd⟩, htakes⟩ := Mach.servoTakes_effect u x y z (ax || ay || az) (nx || ny || nz) he.noClear
  rw [Mach.servoUpdate_eq u hx hy hz, ex, ey, ez, hupd, hmot₂]
  exact ⟨⟨hlawX, (Mach.axisLaw_congr (fun a _ => Mach.reg_of_within h₀ rfl a) (by omega)).mp hlawY,
    (Mach.axisLaw_congr (fun a _ => Mach.reg_of_within h₁ rfl a) (by omega)).mp hlawZ⟩, rfl, he.trans htakes rfl rfl⟩

/-! ### Hold updates that are due (R269) -/

/-- The block as an update that is due at instant `u` finds it: the instant noted, and the sequence increment of the window that ends
there made. -/
def Mach.updateDue (m : Mach) (u : Nat) : Mach := ({ m with mot := { m.mot with upd := u } } : Mach).flushSeq 0xC3C

theorem Mach.updateDue_mot (m : Mach) (u : Nat) : (m.updateDue u).mot = { m.mot with upd := u } := Mach.flushSeq_mot _ _

theorem Mach.updateDue_edits {m : Mach} (u : Nat) (hn : m.noClear) : m.Edits (m.updateDue u) [.regs, .mot] [0xC3C] :=
  ((Mach.Edits.refl hn).mot _ rfl).flushSeq (by simp) rfl

/-- What decides whether an update changes H is as it was (R274, R422). -/
theorem Mach.updateDue_decides (m : Mach) (u : Nat) :
    (m.updateDue u).acfReady u = m.acfReady u ∧ (m.updateDue u).heldOff 0 u = m.heldOff 0 u := by
  have hw := Mach.flushSeq_within { m with mot := { m.mot with upd := u } } 0xC3C (Mach.within_refl _ [.regs]) rfl
  have hclk : (m.updateDue u).clk = m.clk := hw.1 .clk (by simp)
  have haux : (m.updateDue u).aux = m.aux := hw.1 .aux (by simp)
  have hreg : (m.updateDue u).reg 0x1A04 = m.reg 0x1A04 := Mach.flushSeq_reg_ne _ (by decide)
  have hready : (m.updateDue u).mot.ready = m.mot.ready := by rw [m.updateDue_mot]
  constructor
  · unfold Mach.acfReady Mach.ts
    rw [hclk, hready]
  · simp only [Mach.heldOff, Mach.damperHold, Mach.inDamper, Mach.flag, haux, hreg]

/-- An update that is due waits for the ACF start time, is skipped under DAMPER, or is made; a window change comes after it. -/
theorem Mach.holdUpdate_due {m : Mach} {u : Nat} (i : HoldInput) (hu : m.ts / 131072 * 131072 = u) (hdue : m.mot.upd < u)
    (hon : m.on 1 = true) :
    m.holdUpdate i =
      if !m.acfReady u then (m.updateDue u).windowChange u
      else if m.heldOff 0 u then ((m.updateDue u).servoSkip i).windowChange u
      else ((m.updateDue u).servoUpdate i u).windowChange u := by
  obtain ⟨hready, hheld⟩ := m.updateDue_decides u
  unfold Mach.holdUpdate
  extract_lets at_ _ noted n
  have hat : at_ = u := hu
  have hon' : noted.on 1 = true := hon
  have hn : n = m.updateDue u := by
    rw [← hat]
    rfl
  rw [if_neg (by omega), if_neg (by simp [hon']), hat, hn, hready, hheld]

theorem Mach.servoSkip_edits {m : Mach} (i : HoldInput) (hn : m.noClear) : m.Edits (m.servoSkip i) [.mot] [] :=
  (Mach.Edits.refl hn).mot _ rfl

/-- An update on which DAMPER holds the ACF group keeps every H (R422). -/
theorem Mach.servoSkip_mot (m : Mach) (i : HoldInput) : (m.servoSkip i).mot.x.h = m.mot.x.h ∧ (m.servoSkip i).mot.y.h = m.mot.y.h ∧
    (m.servoSkip i).mot.z.h = m.mot.z.h ∧ (m.servoSkip i).mot.due = m.mot.due ∧ (m.servoSkip i).mot.upd = m.mot.upd :=
  ⟨rfl, rfl, rfl, rfl, rfl⟩

/-! ### What an update that is due leaves of the block -/

section

variable {m : Mach} {u : Nat} (i : HoldInput) (hu : m.ts / 131072 * 131072 = u) (hdue : m.mot.upd < u) (hon : m.on 1 = true)
  (hn : m.noClear)

include hu hdue hon hn

/-- An update that is made: every axis by its law, and the window that the register asks for (R272, R277). -/
theorem Mach.holdUpdate_made (hr : m.acfReady u = true) (hd : m.heldOff 0 u = false) :
    ((m.holdUpdate i).mot.upd = u ∧ (m.holdUpdate i).mot.window = m.fld 0xC04 24 2) ∧
      (m.axisLaw 0 m.mot.x.h (m.holdUpdate i).mot.x.h ∧ m.axisLaw 1 m.mot.y.h (m.holdUpdate i).mot.y.h ∧
        m.axisLaw 2 m.mot.z.h (m.holdUpdate i).mot.z.h) ∧
      m.Edits (m.holdUpdate i) [.regs, .mot, .flt, .evt, .free] [0xC3C, 0x100C] := by
  have hrow : m.holdUpdate i = ((m.updateDue u).servoUpdate i u).windowChange u := by
    simp [Mach.holdUpdate_due i hu hdue hon, hr, hd]
  have hfound := Mach.updateDue_edits u hn
  obtain ⟨⟨hx, hy, hz⟩, hupd, hmade⟩ := Mach.servoUpdate_effect i u hfound.noClear
  obtain ⟨hlast, hwindow⟩ := Mach.windowChange_effect u hmade.noClear
  have hlaw {a : Nat} (ha : a < 3) {old new : Int} (h : (m.updateDue u).axisLaw a old new) : m.axisLaw a old new :=
    (Mach.axisLaw_congr (fun x hx => hfound.keepsRegs x (by simpa using hx)) ha).mp h
  have hreg : ((m.updateDue u).servoUpdate i u).reg 0xC04 = m.reg 0xC04 :=
    (hmade.keepsRegs 0xC04 (by decide)).trans (hfound.keepsRegs 0xC04 (by decide))
  rw [m.updateDue_mot u] at hx hy hz hupd
  rw [hrow, hlast, Mach.fld, hreg]
  exact ⟨⟨hupd, rfl⟩, ⟨hlaw (by omega) hx, hlaw (by omega) hy, hlaw (by omega) hz⟩,
    (((Mach.Edits.refl hn).trans hfound rfl rfl).trans hmade rfl rfl).trans hwindow rfl rfl⟩

/-- An update before the ACF start time: the axes stay as they are (R274). -/
theorem Mach.holdUpdate_waits (hr : m.acfReady u = false) :
    ((m.holdUpdate i).mot.upd = u ∧ (m.holdUpdate i).mot.x = m.mot.x ∧ (m.holdUpdate i).mot.y = m.mot.y ∧
        (m.holdUpdate i).mot.z = m.mot.z) ∧
      m.Edits (m.holdUpdate i) [.regs, .mot, .flt, .evt] [0xC3C, 0x100C] := by
  have hrow : m.holdUpdate i = (m.updateDue u).windowChange u := by
    simp [Mach.holdUpdate_due i hu hdue hon, hr]
  have hfound := Mach.updateDue_edits u hn
  obtain ⟨hlast, hwindow⟩ := Mach.windowChange_effect u hfound.noClear
  rw [hrow, hlast, m.updateDue_mot u]
  exact ⟨⟨rfl, rfl, rfl, rfl⟩, ((Mach.Edits.refl hn).trans hfound rfl rfl).trans hwindow rfl rfl⟩

/-- An update on which DAMPER holds the ACF group: every H stays, and no hold record comes (R272, R422). -/
theorem Mach.holdUpdate_skips (hr : m.acfReady u = true) (hd : m.heldOff 0 u = true) :
    ((m.holdUpdate i).mot.upd = u ∧ (m.holdUpdate i).mot.x.h = m.mot.x.h ∧ (m.holdUpdate i).mot.y.h = m.mot.y.h ∧
        (m.holdUpdate i).mot.z.h = m.mot.z.h ∧ (m.holdUpdate i).mot.due = m.mot.due) ∧
      m.Edits (m.holdUpdate i) [.regs, .mot, .flt, .evt] [0xC3C, 0x100C] := by
  have hrow : m.holdUpdate i = ((m.updateDue u).servoSkip i).windowChange u := by
    simp [Mach.holdUpdate_due i hu hdue hon, hr, hd]
  have hfound := Mach.updateDue_edits u hn
  have hskip := Mach.servoSkip_edits i hfound.noClear
  obtain ⟨hlast, hwindow⟩ := Mach.windowChange_effect u hskip.noClear
  obtain ⟨hx, hy, hz, hrec, hupd⟩ := (m.updateDue u).servoSkip_mot i
  rw [m.updateDue_mot u] at hx hy hz hrec hupd
  rw [hrow, hlast]
  exact ⟨⟨hupd, hx, hy, hz, hrec⟩, (((Mach.Edits.refl hn).trans hfound rfl rfl).trans hskip rfl rfl).trans hwindow rfl rfl⟩

end

/-! ### The end of a hold window (R721) -/

/-- A window that has ended increments SEQ of its register once. -/
theorem Mach.flushSeq_due {m : Mach} {a e : Nat} (hc : m.canonical = true) (hp : m.seqPending a = some e) (he : e ≤ m.ts) :
    (m.flushSeq a).reg a = bumpSeq (m.reg a) ∧ (m.flushSeq a).seqPending a = none := by
  have hnone : (m.regs.pendingSeq.filter fun p => p.1 != a).find? (fun p => p.1 == a) = none := by
    rw [List.find?_eq_none]
    intro p hmem
    simpa using (List.mem_filter.mp hmem).2
  simp only [Mach.flushSeq, hp, if_pos he]
  exact ⟨Mach.reg_setReg_self _ _ _ hc, congrArg (Option.map Prod.snd) hnone⟩

/-- Settles O18: an update that is due is made, skipped, or waits for the ACF start time, by `Mach.holdUpdate_due`; the end of the
window is `Mach.flushSeq_due`. -/
theorem holdUpdates : Obligations.HoldUpdates := by
  refine ⟨fun s i _ hdue hon hn => ?_, fun s e hc hp he => ?_⟩
  · generalize hu : s.m.ts / 131072 * 131072 = u at hdue ⊢
    refine ⟨fun hr hd => ?_, fun hr => ?_, fun hr hd => ?_⟩
    · obtain ⟨⟨hupd, hwindow⟩, ⟨⟨hoffX, hfixX⟩, ⟨hoffY, hfixY⟩, hoffZ, hfixZ⟩, hedits⟩ := Mach.holdUpdate_made i hu hdue hon hn hr hd
      exact ⟨_, rfl, rfl, hupd, hoffX, hoffY, hoffZ, hfixX, hfixY, hfixZ, hwindow, hedits.within.1, hedits.keepsRegs⟩
    · obtain ⟨⟨hupd, hx, hy, hz⟩, hedits⟩ := Mach.holdUpdate_waits i hu hdue hon hn hr
      exact ⟨_, rfl, rfl, hupd, hx, hy, hz, hedits.within.1, hedits.keepsRegs⟩
    · obtain ⟨⟨hupd, hx, hy, hz, hrec⟩, hedits⟩ := Mach.holdUpdate_skips i hu hdue hon hn hr hd
      exact ⟨_, rfl, rfl, hupd, hx, hy, hz, hrec, hedits.within.1, hedits.keepsRegs⟩
  · obtain ⟨hreg, hpend⟩ := Mach.flushSeq_due hc hp he
    exact ⟨_, rfl, rfl, hreg, hpend, (Mach.flushSeq_within s.m _ (s.m.within_refl [.regs]) rfl).1,
      fun x hx => s.m.flushSeq_reg_ne (by simpa using hx)⟩

end Sys2Proof.Machine
end

section
/-! SUPPORT. The groups of chains (R315 to R349): what a change of one group leaves of the others, the events of a group's status register,
restarts with zero history and source starts. -/

namespace Sys2Proof.Machine

/-! ### One group changes -/

@[simp] theorem Mach.updGrp_grp_self {m : Mach} {g : Nat} (f : GroupState → GroupState) (h : g < m.flt.groups.length) :
    (m.updGrp g f).grp g = f (m.grp g) :=
  (listUpd_getD ..).trans (if_pos ⟨rfl, h⟩)

@[simp] theorem Mach.updGrp_grp_ne (m : Mach) {g k : Nat} (f : GroupState → GroupState) (h : k ≠ g) : (m.updGrp g f).grp k = m.grp k :=
  (listUpd_getD ..).trans (if_neg fun hk => h hk.1)

theorem Mach.grp_congr {m n : Mach} (h : n.flt.groups = m.flt.groups) (g : Nat) : n.grp g = m.grp g := by
  unfold Mach.grp
  rw [h]

theorem Mach.sqEvent_flt (m : Mach) (a : Nat) (mask : Word) : (m.sqEvent a mask).flt = m.flt :=
  (Mach.sqEvent_within m a mask (m.within_refl [.regs]) rfl).1 .flt (by simp)

/-- The filters change in themselves, their groups as many as before. -/
theorem Mach.flt_within (m : Mach) (f : Filters) (hl : f.groups.length = m.flt.groups.length) : m.within { m with flt := f } [.flt] := by
  refine ⟨fun x hx => ?_, id, fun hs => ?_⟩
  · cases x
    case flt => exact absurd (List.mem_singleton_self _) hx
    all_goals rfl
  · obtain ⟨h, hrest⟩ := hs
    exact ⟨hl.trans h, hrest⟩

/-- From `m` to `n` group `g` comes to stand as `s`; every other group, and what the filters hold beside the groups, stays. -/
structure Mach.Regroups (m n : Mach) (g : Nat) (s : GroupState) : Prop where
  self : n.grp g = s
  others : ∀ k, k ≠ g → n.grp k = m.grp k
  length : n.flt.groups.length = m.flt.groups.length
  rest : n.flt = { m.flt with groups := n.flt.groups }

namespace Mach.Regroups

variable {m n k : Mach} {g : Nat} {s : GroupState}

theorem refl (m : Mach) (g : Nat) : m.Regroups m g (m.grp g) := ⟨rfl, fun _ _ => rfl, rfl, rfl⟩

/-- An operation that leaves the filters as they are. -/
theorem keeps (h : m.Regroups n g s) (hk : k.flt = n.flt) : m.Regroups k g s := by
  have hg : k.flt.groups = n.flt.groups := congrArg Filters.groups hk
  exact ⟨(Mach.grp_congr hg g).trans h.self, fun j hj => (Mach.grp_congr hg j).trans (h.others j hj),
    (congrArg List.length hg).trans h.length, by rw [hk]; exact h.rest⟩

theorem updGrp (h : m.Regroups n g s) (f : GroupState → GroupState) (hg : g < m.flt.groups.length) :
    m.Regroups (n.updGrp g f) g (f s) :=
  ⟨by rw [Mach.updGrp_grp_self f (h.length ▸ hg), h.self], fun j hj => (n.updGrp_grp_ne f hj).trans (h.others j hj),
    (listUpd_length ..).trans h.length, congrArg (fun x : Filters => { x with groups := (n.updGrp g f).flt.groups }) h.rest⟩

/-- An event of the group's status register counts in the group (R349). -/
theorem fltEvent (h : m.Regroups n g s) (i : Nat) (hg : g < m.flt.groups.length) :
    ∃ e, m.Regroups (n.fltEvent g i) g { s with events := e } := by
  unfold Mach.fltEvent
  extract_lets a
  split
  · exact ⟨s.events, h.keeps rfl⟩
  · exact ⟨_, (h.keeps (n.sqEvent_flt a _)).updGrp _ hg⟩

/-- The marks of a restart: its UNS outputs and its instant, a timing record owed and an event (R323 to R325, R518). -/
theorem restartMarks (h : m.Regroups n g s) (t : Nat) (hg : g < m.flt.groups.length) : ∃ r e,
    m.Regroups (n.restartMarks g t) g { s with unsLeft := s.cfg.uns, restartAt := some t, timing := r, events := e } := by
  unfold Mach.restartMarks
  extract_lets again marked
  have hm : m.Regroups marked g { s with unsLeft := s.cfg.uns, restartAt := some t } := h.updGrp _ hg
  split
  · exact ⟨_, _, hm⟩
  · obtain ⟨e, he⟩ := hm.fltEvent 22 hg
    exact ⟨_, e, he.updGrp _ hg⟩

end Mach.Regroups

/-! ### Events of a group's status register (R348, R349) -/

namespace Mach.Edits

variable {m n : Mach} {ps : List Part} {as : List Nat} {g : Nat}

theorem fltEvent (h : m.Edits n ps as) (i : Nat) (ha : fltBase g + 12 ∈ as) (hp : [Part.regs, Part.flt].all ps.contains = true) :
    m.Edits (n.fltEvent g i) ps as :=
  ite (h.setReg _ ha (by simp_all)) ((h.sqEvent _ ha (by simp_all)).updGrp g _ (by simp_all))

/-- A restart's marks touch the filters and, but for the ACF resampler chains, the group's status register (R323, R348). -/
theorem restartMarks (h : m.Edits n ps as) (t : Nat) (ha : g < 12 → fltBase g + 12 ∈ as)
    (hp : [Part.regs, Part.flt].all ps.contains = true) : m.Edits (n.restartMarks g t) ps as := by
  have hf : ps.contains .flt = true := by simp_all
  unfold Mach.restartMarks
  extract_lets again marked
  have hm : m.Edits marked ps as := h.updGrp g _ hf
  by_cases hg : g < 12
  · exact ite hm ((hm.fltEvent 22 (ha hg) hp).updGrp g _ hf)
  · rw [if_pos (by simp [Nat.not_lt.mp hg])]
    exact hm

end Mach.Edits

/-- The status registers of the groups stand in the filter block. -/
theorem blockOf_fltStat {g : Nat} (hg : g < 12) : blockOf (fltBase g + 12) = 4 := by
  unfold blockOf fltBase
  omega

/-- An event of a group's status register sets its bit (R348). -/
theorem Mach.fltEvent_sets {m : Mach} {g i : Nat} (hc : m.canonical = true) (hg : g < 12) (hi : i < 24) (hon : m.on 3 = true) :
    (m.fltEvent g i).flag (fltBase g + 12) i = true := by
  unfold Mach.fltEvent
  extract_lets a
  split
  · rw [Mach.flag, Mach.reg_setReg_self m a _ hc]
    exact bitMask_bit i (by omega) _
  · exact Mach.sqBit_sets hc hi (by rw [blockOf_fltStat hg]; exact hon)

/-! ### Restarts with zero history (R321, R322) -/

/-- Fresh chains depend on the held values, the window, and the group's GAIN. -/
theorem Mach.freshChains_congr {m n : Mach} {g : Nat} (t : Nat) (c : ChainCfg) (hm : n.mot = m.mot)
    (hr : n.reg (fltBase g + 8) = m.reg (fltBase g + 8)) : n.freshChains g t c = m.freshChains g t c := by
  simp only [Mach.freshChains, Mach.gainOf, Mach.fld, Mach.heldFor, hm, hr]

/-- A restart with zero history: fresh chains of the configuration in force, from the instant given. -/
theorem Mach.restartZero_effect {m : Mach} {g : Nat} (t : Nat) (hg : g < m.flt.groups.length) :
    ∃ s, m.Regroups (m.restartZero g t) g s ∧ s.start = t ∧ s.chains = m.freshChains g t (m.grp g).cfg ∧
      ((m.grp g).started = true → s.unsLeft = (m.grp g).cfg.uns) := by
  unfold Mach.restartZero
  extract_lets s reset
  have hr : m.Regroups reset g { s with chains := m.freshChains g t s.cfg, start := t, convCount := 0 } :=
    (Mach.Regroups.refl m g).updGrp _ hg
  split
  · obtain ⟨r, e, h⟩ := hr.restartMarks t hg
    exact ⟨_, h, rfl, rfl, fun _ => rfl⟩
  · next hs => exact ⟨_, hr, rfl, rfl, fun h => absurd h hs⟩

/-- A source start: the configuration that the registers ask for, and fresh chains from the next input on (R321). -/
theorem Mach.startSource_effect {m : Mach} {g : Nat} (t : Nat) (hg : g < m.flt.groups.length) :
    ∃ s, m.Regroups (m.startSource g t) g s ∧ s.started = true ∧ s.start = nextMultiple (inPeriod g) t ∧
    s.chains = m.freshChains g (nextMultiple (inPeriod g) t) (m.wantCfg g) ∧ s.unsLeft = (m.wantCfg g).uns := by
  unfold Mach.startSource
  extract_lets c i p begun
  obtain ⟨r, e, h⟩ := (show m.Regroups begun g _ from (Mach.Regroups.refl m g).updGrp _ hg).restartMarks i hg
  exact ⟨_, h, rfl, rfl, rfl, rfl⟩

namespace Mach.Edits

variable {m n : Mach} {ps : List Part} {as : List Nat} {g : Nat}

theorem restartZero (h : m.Edits n ps as) (t : Nat) (ha : g < 12 → fltBase g + 12 ∈ as)
    (hp : [Part.regs, Part.flt].all ps.contains = true) : m.Edits (n.restartZero g t) ps as :=
  have hr := h.updGrp g (fun s => { s with chains := n.freshChains g t s.cfg, start := t, convCount := 0 }) (by simp_all)
  ite (hr.restartMarks t ha hp) hr

theorem startSource (h : m.Edits n ps as) (t : Nat) (ha : g < 12 → fltBase g + 12 ∈ as)
    (hp : [Part.regs, Part.flt].all ps.contains = true) : m.Edits (n.startSource g t) ps as :=
  (h.updGrp g _ (by simp_all)).restartMarks _ ha hp

/-- The angle resampler starts to run: its part and `ANG_STATUS` (R351, R352). -/
theorem angJoin (h : m.Edits n ps as) (ha : 0x1428 ∈ as) (hp : [Part.regs, Part.ang].all ps.contains = true) :
    m.Edits n.angJoin ps as :=
  ite ((h.enterSearch ha hp).ang _ (by simp_all)) h

end Mach.Edits

theorem Mach.startSource_mot (m : Mach) (g t : Nat) : (m.startSource g t).mot = m.mot :=
  (Mach.startSource_within m g t (m.within_refl [.regs, .flt]) rfl).1 .mot (by simp)

theorem Mach.angJoin_keeps (m : Mach) : m.angJoin.flt = m.flt ∧ m.angJoin.mot = m.mot :=
  have h := (Mach.angJoin_within m (m.within_refl [.regs, .ang]) rfl).1
  ⟨h .flt (by simp), h .mot (by simp)⟩

end Sys2Proof.Machine
end

section
/-! SUPPORT. SOURCE_START (R26, R315, R321, R322, R326, R387): a motion group that starts, ACF with D3 OFF, and an aux channel. -/

namespace Sys2Proof.Machine

/-! ### A motion group starts (R321, R326) -/

/-- The block as a motion group's start time ends: ACF's lets the servo run (R26, R265). -/
def Mach.groupReady (m : Mach) (g : Nat) : Mach := if g = 0 then { m with mot := { m.mot with ready := true } } else m

theorem Mach.groupReady_keeps (m : Mach) (g : Nat) : (m.groupReady g).flt = m.flt ∧ (m.groupReady g).clk = m.clk := by
  unfold Mach.groupReady
  split <;> exact ⟨rfl, rfl⟩

theorem Mach.groupReady_edits {m : Mach} (g : Nat) (hn : m.noClear) : m.Edits (m.groupReady g) [.mot] [] :=
  .ite ((Mach.Edits.refl hn).mot _ rfl) (.refl hn)

/-- The block as a motion group's own chains have started. -/
def Mach.groupBegun (m : Mach) (g : Nat) : Mach := (m.groupReady g).startSource g m.ts

/-- A motion group that has not started, D1 and D3 ON: its chains start, and with ACF's those of the angle resampler. -/
theorem Mach.sourceStart_runs {m : Mach} {g : Nat} (hg : isAux g = false) (h1 : m.on 1 = true) (hw : m.inWatch = false)
    (h3 : m.on 3 = true) (hs : (m.grp g).started = false) :
    m.sourceStart g = if g = 0 && !((m.groupBegun g).grp 12).started then (m.groupBegun g).startSource 12 (m.groupBegun g).ts
      else m.groupBegun g := by
  obtain ⟨hflt, hclk⟩ := m.groupReady_keeps g
  have hon : (m.groupReady g).on 3 = true := by simpa only [Mach.on, Mach.dom, hclk] using h3
  have hst : ((m.groupReady g).grp g).started = false := by rw [Mach.grp_congr (congrArg Filters.groups hflt), hs]
  have hbegun : (m.groupReady g).startSource g (m.groupReady g).ts = m.groupBegun g := by rw [Mach.ts, hclk]; rfl
  rw [← hbegun]
  change (if isAux g || !m.on 1 || (m.inWatch && (g = 1 || g = 2 || g = 3)) then m
    else if ((m.groupReady g).grp g).started || !(m.groupReady g).on 3 then m.groupReady g else _) = _
  rw [if_neg (by simp [hg, h1, hw]), if_neg (by simp [hst, hon])]
  rfl

/-- The block from which a motion group's chains start asks for the same configuration and history. -/
theorem Mach.groupReady_asks (m : Mach) (g : Nat) : (m.groupReady g).wantCfg g = m.wantCfg g ∧
    ∀ t c, (m.groupReady g).freshChains g t c = m.freshChains g t c := by
  unfold Mach.groupReady
  split <;> exact ⟨rfl, fun _ _ => rfl⟩

/-- A motion group's own start: it stands as its registers ask, and every other group as before. -/
theorem Mach.groupBegun_effect {m : Mach} {g : Nat} (hg : g < m.flt.groups.length) (hn : m.noClear) :
    (∃ s, m.Regroups (m.groupBegun g) g s ∧ s.started = true ∧ s.start = nextMultiple (inPeriod g) m.ts ∧
      s.chains = m.freshChains g (nextMultiple (inPeriod g) m.ts) (m.wantCfg g) ∧ s.unsLeft = (m.wantCfg g).uns) ∧
      (g = 0 → (m.groupBegun g).mot.ready = true) ∧ m.Edits (m.groupBegun g) [.regs, .mot, .flt] [fltBase g + 12] := by
  obtain ⟨hflt, -⟩ := m.groupReady_keeps g
  obtain ⟨hwant, hfresh⟩ := m.groupReady_asks g
  have hready : m.Edits (m.groupReady g) [.regs, .mot, .flt] [fltBase g + 12] :=
    (Mach.Edits.refl hn).trans (Mach.groupReady_edits g hn) rfl rfl
  obtain ⟨s, hr, hst, hat, hch, huns⟩ := Mach.startSource_effect (m := m.groupReady g) m.ts (by rwa [hflt])
  rw [hwant, hfresh] at hch
  rw [hwant] at huns
  refine ⟨⟨s, ⟨hr.self, fun k hk => ?_, ?_, ?_⟩, hst, hat, hch, huns⟩, fun h => ?_, hready.startSource m.ts (fun _ => by simp) rfl⟩
  · rw [Mach.groupBegun, hr.others k hk, Mach.grp_congr (congrArg Filters.groups hflt)]
  · rw [Mach.groupBegun, hr.length, hflt]
  · rw [Mach.groupBegun, hr.rest, hflt]
  · rw [Mach.groupBegun, (m.groupReady g).startSource_mot, Mach.groupReady, if_pos h]

/-- What a motion group's start makes of the groups, and the parts and registers that it touches. -/
theorem Mach.sourceStart_effect {m : Mach} {g : Nat} (hg : g < 4) (hl : m.flt.groups.length = 13) (hn : m.noClear) (h1 : m.on 1 = true)
    (h3 : m.on 3 = true) (hw : m.inWatch = false) (hs : (m.grp g).started = false) :
    (((m.sourceStart g).grp g).started = true ∧ ((m.sourceStart g).grp g).start = nextMultiple (inPeriod g) m.ts ∧
      ((m.sourceStart g).grp g).chains = m.freshChains g (nextMultiple (inPeriod g) m.ts) (m.wantCfg g) ∧
      ((m.sourceStart g).grp g).unsLeft = (m.wantCfg g).uns) ∧
      (g = 0 → ((m.sourceStart g).grp 12).started = true ∧ (m.sourceStart g).mot.ready = true) ∧
      (∀ k, k ≠ g → k ≠ 12 → (m.sourceStart g).grp k = m.grp k) ∧ (g ≠ 0 → (m.sourceStart g).grp 12 = m.grp 12) ∧
      m.Edits (m.sourceStart g) [.regs, .mot, .flt] [fltBase g + 12] := by
  obtain ⟨⟨s, hr, hst, hat, hch, huns⟩, hready, hedits⟩ := Mach.groupBegun_effect (m := m) (g := g) (by omega) hn
  rw [Mach.sourceStart_runs (by simp [isAux]; omega) h1 hw h3 hs]
  generalize m.groupBegun g = n at *
  obtain ⟨s12, hr12, hst12, -⟩ := Mach.startSource_effect (m := n) (g := 12) n.ts (by rw [hr.length]; omega)
  split
  · next h =>
    obtain ⟨rfl, -⟩ : g = 0 ∧ _ := by simpa using h
    rw [hr12.others 0 (by decide), hr.self, hr12.self, n.startSource_mot]
    exact ⟨⟨hst, hat, hch, huns⟩, fun _ => ⟨hst12, hready rfl⟩, fun k hk hk12 => (hr12.others k hk12).trans (hr.others k hk),
      fun h => absurd rfl h, hedits.startSource _ (fun h => absurd h (by decide)) rfl⟩
  · next h =>
    rw [hr.self]
    exact ⟨⟨hst, hat, hch, huns⟩, fun h0 => ⟨by simpa [h0] using h, hready h0⟩, fun k hk _ => hr.others k hk,
      fun _ => hr.others 12 (by omega), hedits⟩

/-! ### The row -/

theorem Mach.groupStart_motion {m : Mach} {g : Nat} (hg : g < 4) (h0 : m.testing 0 = false) (h4 : m.testing 4 = false) :
    m.groupStart g = (m.sourceStart g).angJoin := by
  have ha : isAux g = false := by simp [isAux]; omega
  simp only [Mach.groupStart, ha, h0, h4, Bool.or_self, Bool.false_eq_true, if_false]

/-- With D3 OFF the end of ACF's start time lets the servo run, and no chain starts (R26). -/
theorem Mach.groupStart_servo {m : Mach} (h0 : m.testing 0 = false) (h4 : m.testing 4 = false) (h1 : m.on 1 = true) (h3 : m.on 3 = false) :
    m.groupStart 0 = m.groupReady 0 := by
  have hon : (m.groupReady 0).on 3 = false := h3
  have hs : m.sourceStart 0 = m.groupReady 0 := by
    change (if isAux 0 || !m.on 1 || (m.inWatch && (0 = 1 || 0 = 2 || 0 = 3)) then m
      else if ((m.groupReady 0).grp 0).started || !(m.groupReady 0).on 3 then m.groupReady 0 else _) = _
    rw [if_neg (by simp [isAux, h1]), if_pos (by simp [hon])]
  rw [Mach.groupStart_motion (by decide) h0 h4, hs, Mach.angJoin, if_neg (by simp [Mach.angRuns, hon])]

/-- A running aux channel's next conversion is to be a source start (R387). -/
theorem Mach.groupStart_aux {m : Mach} (n : Fin 8) (ht1 : m.testing 1 = false) (ht4 : m.testing 4 = false) (h2 : m.on 2 = true)
    (h3 : m.on 3 = true) (ha : m.auxActive n = true) :
    m.groupStart (4 + n) = m.updChan n (fun c => { c with fresh := true }) := by
  have hx : isAux (4 + n) = true := by simp [isAux]; omega
  simp [Mach.groupStart, hx, ht1, ht4, h2, h3, ha]

/-- Settles O17: a motion group starts by `Mach.sourceStart_effect`; the servo alone by `Mach.groupStart_servo`; an aux channel by
`Mach.groupStart_aux`. -/
theorem sourcesStart : Obligations.SourcesStart := by
  intro s g hl ht0 ht1 ht4 _ hn
  refine ⟨fun hg h3 h1 hw hs => ?_, fun hg h1 h3 => ?_, fun n hg h3 h2 ha hlen => ?_⟩
  · obtain ⟨⟨hst, hat, hch, huns⟩, hacf, hothers, hres, hedits⟩ := Mach.sourceStart_effect hg hl hn h1 h3 hw hs
    obtain ⟨hflt, hmot⟩ := (s.m.sourceStart (groupIndex g)).angJoin_keeps
    have hgrp := Mach.grp_congr (congrArg Filters.groups hflt)
    have hall : s.m.Edits (s.m.sourceStart (groupIndex g)).angJoin [.regs, .mot, .flt, .ang] [fltBase (groupIndex g) + 12, 0x1428] :=
      ((Mach.Edits.refl hn).trans hedits rfl (by simp)).angJoin (by simp) rfl
    refine ⟨{ s with m := (s.m.sourceStart (groupIndex g)).angJoin }, congrArg (goOn s) (Mach.groupStart_motion hg ht0 ht4), rfl, ?_⟩
    simp only [hgrp, hmot]
    exact ⟨hst, hat, hch, huns, hacf, hothers, hres, hall.within.1, hall.keepsRegs⟩
  · subst hg
    exact ⟨_, congrArg (goOn s) (Mach.groupStart_servo ht0 ht4 h1 h3), rfl, rfl, (Mach.groupReady_edits 0 hn).within.1⟩
  · subst hg
    refine ⟨_, congrArg (goOn s) (Mach.groupStart_aux n ht1 ht4 h2 h3 ha), rfl, ?_, fun k hk => ?_,
      (Mach.updChan_within s.m n _ (s.m.within_refl [.aux]) rfl).1⟩
    · exact (listUpd_getD ..).trans (if_pos ⟨rfl, hlen⟩)
    · exact (listUpd_getD ..).trans (if_neg fun h => hk h.1)

end Sys2Proof.Machine
end

section
/-! SUPPORT. Writes of `FLT_CASTLE`, `FLT_SYNC` and `FLT_CLIB` (R329, R337, R347): what the checks of a control register leave of them. -/

namespace Sys2Proof.Machine

/-! ### Fields that a word written gives -/

theorem bitsAt_congr {x y : Word} {lo n : Nat} (h : ∀ i < n, bitAt x (lo + i) = bitAt y (lo + i)) : bitsAt x lo n = bitsAt y lo n := by
  refine Nat.eq_of_testBit_eq fun i => ?_
  rw [testBit_bitsAt, testBit_bitsAt]
  by_cases hi : i < n
  · rw [h i hi]
  · simp [hi]

/-- A bit of an RW field takes what is written. -/
theorem bitAt_written_rw {d : RegDef} (old w : Word) {i : Nat} (h : bitAt d.rw i = true) :
    bitAt (d.written .direct old w) i = bitAt w i := by
  have hmask : bitAt (d.rw ||| d.pp ||| d.lk) i = true := by rw [bitAt_or, bitAt_or, h, Bool.true_or, Bool.true_or]
  change bitAt ((old &&& ~~~(d.rw ||| d.pp ||| d.lk)) ||| (w &&& (d.rw ||| d.pp ||| d.lk))) i = _
  generalize d.rw ||| d.pp ||| d.lk = mask at hmask ⊢
  have hnot : bitAt (~~~mask) i = false := by rw [bitAt, BitVec.getLsbD_not, show mask.getLsbD i = true from hmask]; simp
  rw [bitAt_or, bitAt_and, bitAt_and, hmask, hnot, Bool.and_false, Bool.false_or, Bool.and_true]

/-- An RW field takes what is written. -/
theorem bitsAt_written_rw {d : RegDef} (old w : Word) {lo n : Nat} (h : ∀ i < n, bitAt d.rw (lo + i) = true) :
    bitsAt (d.written .direct old w) lo n = bitsAt w lo n :=
  bitsAt_congr fun i hi => bitAt_written_rw old w (h i hi)

theorem mem_setBitsOf {n g : Nat} {w : Word} : g ∈ setBitsOf n w ↔ g < n ∧ bitAt w g = true := by
  simp [setBitsOf, bitAt]

theorem nodup_setBitsOf (n : Nat) (w : Word) : (setBitsOf n w).Nodup := List.Nodup.filter _ List.nodup_range

/-! ### The three registers -/

/-- The fields of `FLT_CASTLE` (R348). -/
def fltCastle : RegDef := RegDef.control 0 0xFFF 0 0 0 0 []

/-- The fields of `FLT_SYNC` (R348). -/
def fltSync : RegDef := RegDef.control 0x10 1 0 0 0 0 []

/-- The fields of `FLT_CLIB` (R348). -/
def fltClib : RegDef := RegDef.control 0x11F0F100 1 0 0 0xC0000000 0 [⟨12, 4, [(0, 11)]⟩]

/-- The three registers at their addresses. -/
def fltControls : List (Nat × RegDef) := [(0x10C0, fltCastle), (0x10C4, fltSync), (0x10D0, fltClib)]

theorem fltControls_place : ∀ r ∈ fltControls, r.1 < 0x4000 ∧ r.1 ≤ lastOf r.1 ∧ blockOf r.1 = 4 ∧ windowOf r.1 = none ∧
    isTxd r.1 = false ∧ isIndex r.1 = false ∧ r.1 ≠ 0x2C0C := by decide

theorem fltControls_def : ∀ r ∈ fltControls, regDef r.1 = some r.2 ∧ r.2.cls = .control ∧ r.2.pp = 0 ∧ r.2.lk = 0 := by decide

/-- The block as a word of the filter block is stored: its clock restarted, the GO bits of operations in progress noted (R105). -/
def Mach.fltStored (m : Mach) (ag : Agent) (a : Nat) (go new : Word) : Mach := 
  ((m.touch (blockOf a)).noteAbsorbed ag a (m.reg a &&& go)).setReg a new

theorem Mach.fltStored_within (m : Mach) (ag : Agent) (a : Nat) (go new : Word) : m.within (m.fltStored ag a go new) [.regs] :=
  Mach.setReg_within _ _ (Mach.noteAbsorbed_within _ ag a _ (Mach.touch_within m _ (m.within_refl [.regs]) rfl) rfl) rfl

theorem Mach.fltStored_flt (m : Mach) (ag : Agent) (a : Nat) (go new : Word) : (m.fltStored ag a go new).flt = m.flt :=
  (m.fltStored_within ag a go new).1 .flt (by simp)

theorem Mach.fltStored_keepsRegs (m : Mach) (ag : Agent) (a : Nat) (go new : Word) : m.keepsRegs (m.fltStored ag a go new) [a] :=
  fun x hx => (Mach.reg_setReg_ne _ new (by simpa using hx)).trans (((m.touch (blockOf a)).noteAbsorbed_effect ag a _).2 x)

theorem Mach.fltStored_reg_self {m : Mach} (ag : Agent) (a : Nat) (go new : Word) (hc : m.canonical = true) :
    (m.fltStored ag a go new).reg a = new :=
  Mach.reg_setReg_self _ a new
    ((Mach.noteAbsorbed_within _ ag a _ (Mach.touch_within m _ (m.within_refl [.regs]) rfl) rfl).2.1 hc)

theorem Mach.fltStored_edits {m : Mach} (ag : Agent) (a : Nat) (go new : Word) (hn : m.noClear) :
    m.Edits (m.fltStored ag a go new) [.regs] [a] := by
  refine ⟨m.fltStored_within ag a go new, ?_, m.fltStored_keepsRegs ag a go new⟩
  unfold Mach.fltStored Mach.noteAbsorbed
  split <;> exact hn

/-- A write that the filter block does not refuse stores its word, and takes effect (R100). -/
theorem oneWrite_filter {s : State} {ag : Agent} {a : Nat} {d : RegDef} {w : Word} (h : (a, d) ∈ fltControls)
    (ht : s.m.takesWrite ag .direct a) (hin : d.inRange (d.written .direct (s.m.reg a) w) = true)
    (hr : s.m.refuseFilter a (d.written .direct (s.m.reg a) w) (w &&& d.go) = 0) :
    goOn s (s.m.oneWrite ag .direct a w) = .next { s with
      m := ((s.m.fltStored ag a (w &&& d.go) (d.written .direct (s.m.reg a) w)).doneFilter a (s.m.reg a)
        (d.written .direct (s.m.reg a) w) (w &&& d.go)).settled ag } := by
  obtain ⟨hlt, hle, hblk, hwin, htxd, hix, hlock⟩ := fltControls_place _ h
  obtain ⟨hd, hcls, hpp, hlk⟩ := fltControls_def _ h
  dsimp only at hlt hle hblk hwin htxd hix hlock hd hcls hpp hlk
  have haddr : a = 0x10C0 ∨ a = 0x10C4 ∨ a = 0x10D0 := by
    simp only [fltControls, List.mem_cons, Prod.mk.injEq, List.not_mem_nil, or_false] at h
    tauto
  have hrange (m : Mach) (x : Word) : m.rangeBad a x = false := by obtain rfl | rfl | rfl := haddr <;> rfl
  have hrefuse (m : Mach) (old new go : Word) : m.regRefuse ag a old new go = m.refuseFilter a new go := by
    obtain rfl | rfl | rfl := haddr <;> rfl
  have hdone (m : Mach) (old new go : Word) : m.regDone ag a old new go = (0, (m.setReg a new).doneFilter a old new go) := by
    unfold Mach.regDone
    rw [hblk]
    rfl
  have hb := Mach.busWrite_taken (m := s.m.touch (blockOf a)) ag hwin hd hcls hpp hlk htxd hix hlock hin (hrange _ _)
    ((hrefuse _ _ _ _).trans hr)
  rw [hdone] at hb
  exact oneWrite_next s hlt hle ht hb

/-- A filter write's row: the filters and the registers stand as its effect leaves them. -/
theorem oneWrite_filter_next {s : State} {ag : Agent} {a : Nat} {d : RegDef} {w : Word} {n : Mach} {ps : List Part} {as : List Nat}
    (h : (a, d) ∈ fltControls) (ht : s.m.takesWrite ag .direct a) (hin : d.inRange (d.written .direct (s.m.reg a) w) = true)
    (hr : s.m.refuseFilter a (d.written .direct (s.m.reg a) w) (w &&& d.go) = 0)
    (hn : (s.m.fltStored ag a (w &&& d.go) (d.written .direct (s.m.reg a) w)).doneFilter a (s.m.reg a)
      (d.written .direct (s.m.reg a) w) (w &&& d.go) = n)
    (hw : s.m.changesOnly n (.regs :: ps)) (hp : [Part.clk, .pa, .pb].all (fun x => !ps.contains x) = true) (hk : s.m.keepsRegs n as) :
    ∃ t, goOn s (s.m.oneWrite ag .direct a w) = .next t ∧ t.pending = s.pending ∧ t.m.flt = n.flt ∧ (∀ x, t.m.reg x = n.reg x) ∧
      s.m.wroteOnly t.m ag ps as := by
  subst hn
  have hout : ∀ x ∈ [Part.clk, .pa, .pb], x ∉ .regs :: ps := fun x hx => by
    have hps := List.all_eq_true.mp hp x hx
    fin_cases hx <;> simpa using hps
  have hclk : _ = s.m.clk := hw .clk (hout .clk (by simp))
  exact ⟨_, oneWrite_filter h ht hin hr, rfl, settled_agrees _ ag .flt (by decide) (by decide), fun x => settled_reg _ ag x,
    settled_wroteOnly s.m _ ag ps as hw (hw .pa (hout .pa (by simp))) (hw .pb (hout .pb (by simp))) (congrArg Clocks.now hclk) hk⟩

/-- `SRC` is taken where a frame mark can come (R330). -/
theorem Mach.refuseFilter_arm {m : Mach} {new : Word} (go : Word) (h : bitAt new 4 = true → m.noMark = false) :
    m.refuseFilter 0x10C4 new go = 0 := by
  change (if bitAt new 4 && (bitAt go 0 || m.flag 0x10C4 0) && m.noMark then 18 else 0) = 0
  cases h4 : bitAt new 4
  · rfl
  · simp [h h4]

theorem Mach.doneFilter_arm (m : Mach) {old go : Word} (new : Word) (hgo : bitAt go 0 = true) (hold : bitAt old 0 = false) :
    m.doneFilter 0x10C4 old new go = m.syncArm := by
  simp [Mach.doneFilter, hgo, hold]

theorem Mach.doneFilter_clib (m : Mach) {old go : Word} (new : Word) (hgo : bitAt go 0 = true) (hold : bitAt old 0 = false) :
    m.doneFilter 0x10D0 old new go = m.clibStart new := by
  simp [Mach.doneFilter, hgo, hold]

end Sys2Proof.Machine
end

section
/-! SUPPORT. Castling requests and synchronising resets (R329 to R332, R337, R340, R343). -/

namespace Sys2Proof.Machine

/-! ### Requests that pend (R337, R340) -/

/-- A castling request for group `g` is to pend: none stands, its source is ON, and its FIR stage runs without a fade. -/
def Mach.castlePends (m : Mach) (g : Nat) : Prop :=
  m.castleReq g = false ∧ m.sourceOn g = true ∧ (m.grp g).fade = none ∧ (m.grp g).started = true ∧ (m.grp g).cfg.taps ≠ none

theorem Mach.castlePends_congr {m n : Mach} {g : Nat} (hw : m.changesOnly n [.regs]) (hr : n.reg 0xC00 = m.reg 0xC00)
    (hq : n.castleReq g = m.castleReq g) (h : m.castlePends g) : n.castlePends g := by
  have hclk : n.clk = m.clk := hw .clk (by simp)
  have hflt : n.flt = m.flt := hw .flt (by simp)
  have haux : n.aux = m.aux := hw .aux (by simp)
  have hsrc : n.sourceOn g = m.sourceOn g := by
    simp only [Mach.sourceOn, Mach.on, Mach.dom, Mach.inWatch, Mach.grpEnabled, Mach.flag, Mach.auxActive, Mach.auxCfg, hclk, haux, hr]
  unfold Mach.castlePends
  rw [hq, hsrc, Mach.grp_congr (congrArg Filters.groups hflt)]
  exact h

theorem Mach.castleAsk_pends {m : Mach} {g : Nat} (h : m.castlePends g) : m.castleAsk g = m.setReq g true := by
  obtain ⟨hreq, hsrc, hfade, hst, htaps⟩ := h
  simp [Mach.castleAsk, hreq, hsrc, hfade, hst, Option.isSome_iff_ne_none.mpr htaps]

theorem Mach.castleReq_setReq {m : Mach} {g k : Nat} (b : Bool) (hc : m.canonical = true) (hg : g < 12) (hk : k < 12) :
    (m.setReq g b).castleReq k = if k = g then b else m.castleReq k := by
  rw [Mach.castleReq, Mach.setReq, Mach.setFld, Mach.flag, Mach.reg_setReg_self m _ _ hc, bitAt_setBits _ _ (by omega)]
  by_cases h : k = g
  · subst h
    cases b <;> simp
  · rw [if_neg (by omega), if_neg h]
    rfl

/-- Requests that pend set their bits of `FLT_CASTLE`, and do no more. -/
theorem Mach.castleAsks_pend {m : Mach} {gs : List Nat} (hc : m.canonical = true) (hd : gs.Nodup)
    (h : ∀ g ∈ gs, g < 12 ∧ m.castlePends g) :
    (∀ k < 12, (gs.foldl Mach.castleAsk m).castleReq k = (m.castleReq k || gs.contains k)) ∧
      m.within (gs.foldl Mach.castleAsk m) [.regs] ∧ m.keepsRegs (gs.foldl Mach.castleAsk m) [0x10C0] := by
  induction gs generalizing m with
  | nil => exact ⟨fun k _ => by simp, m.within_refl _, fun _ _ => rfl⟩
  | cons g gs ih =>
    obtain ⟨hg, hp⟩ := h g (List.mem_cons_self ..)
    obtain ⟨hnew, hd⟩ := List.nodup_cons.mp hd
    have hw : m.within (m.setReq g true) [.regs] := Mach.setReq_within m g true (m.within_refl _) rfl
    have hk : m.keepsRegs (m.setReq g true) [0x10C0] := fun x hx => m.setFld_reg_ne _ _ _ (by simpa using hx)
    obtain ⟨hreq, hwithin, hkeeps⟩ := ih (hw.2.1 hc) hd fun k hm => by
      obtain ⟨hk12, hpk⟩ := h k (List.mem_cons_of_mem _ hm)
      have hne : k ≠ g := fun e => hnew (e ▸ hm)
      exact ⟨hk12, Mach.castlePends_congr hw.1 (hk _ (by decide)) (by rw [Mach.castleReq_setReq _ hc hg hk12, if_neg hne]) hpk⟩
    rw [List.foldl_cons, Mach.castleAsk_pends hp]
    refine ⟨fun k hk12 => ?_, Mach.within_step hw hwithin rfl, fun x hx => (hkeeps x hx).trans (hk x hx)⟩
    rw [hreq k hk12, Mach.castleReq_setReq _ hc hg hk12]
    by_cases e : k = g <;> simp [e]

/-! ### Castling at once (R343) -/

/-- A castling that executes at once swaps the banks, shows CASTLED, and leaves no request. -/
theorem Mach.castleNow_effect {m : Mach} {g : Nat} (hc : m.canonical = true) (hn : m.noClear) (hg : g < 12)
    (hl : m.flt.groups.length = 13) (hon : m.on 3 = true) :
    (∃ e, m.Regroups (m.castleNow g) g { m.grp g with bankB := !(m.grp g).bankB, castlePend := false, events := e }) ∧
      (m.castleNow g).castleReq g = false ∧ (m.castleNow g).flag (fltBase g + 12) 23 = true ∧
      m.Edits (m.castleNow g) [.regs, .flt] [0x10C0, fltBase g + 12] := by
  let swapped := m.updGrp g (fun s => { s with bankB := !s.bankB, castlePend := false })
  have hs : m.Edits swapped [.regs, .flt] [0x10C0, fltBase g + 12] := (Mach.Edits.refl hn).updGrp g _ rfl
  have hq : m.Edits (swapped.setReq g false) [.regs, .flt] [0x10C0, fltBase g + 12] := hs.setFld _ _ _ (by simp) rfl
  have hr : m.Regroups swapped g { m.grp g with bankB := !(m.grp g).bankB, castlePend := false } :=
    (Mach.Regroups.refl m g).updGrp _ (by omega)
  have hevent : (swapped.setReq g false).Edits (m.castleNow g) [.regs, .flt] [fltBase g + 12] :=
    (Mach.Edits.refl hq.noClear).fltEvent 23 (by simp) rfl
  refine ⟨(hr.keeps (k := swapped.setReq g false) rfl).fltEvent 23 (by omega), ?_,
    Mach.fltEvent_sets (hq.canonical hc) hg (by decide) hon, hq.trans hevent rfl (by simp)⟩
  have hreg : (m.castleNow g).reg 0x10C0 = (swapped.setReq g false).reg 0x10C0 := hevent.keepsRegs _ (by simp [fltBase]; omega)
  rw [Mach.castleReq, Mach.flag, hreg]
  exact (Mach.castleReq_setReq false (hs.canonical hc) hg hg).trans (if_pos rfl)

theorem Mach.castleAsk_atOnce {m : Mach} {g : Nat} (hq : m.castleReq g = false) (hs : (m.grp g).started = true)
    (ht : (m.grp g).cfg.taps = none) (hf : (m.grp g).firLeft = false) : m.castleAsk g = m.castleNow g := by
  simp [Mach.castleAsk, hq, hs, ht, hf]

/-! ### Synchronising resets (R329 to R332) -/

theorem Mach.syncArm_frame (m : Mach) : m.changesOnly m.syncArm [.regs, .flt] ∧ m.keepsRegs m.syncArm [0x10C4] :=
  ⟨(Mach.syncArm_within m (m.within_refl _) rfl).1, fun _ hx => m.setFld_reg_ne _ _ _ (by simpa using hx)⟩

theorem Mach.syncArm_flags {m : Mach} (hc : m.canonical = true) :
    m.syncArm.flag 0x10C4 0 = true ∧ m.syncArm.flag 0x10C4 4 = m.flag 0x10C4 4 := by
  have hreg : m.syncArm.reg 0x10C4 = setBits (m.reg 0x10C4) 0 1 1 := m.reg_setReg_self _ _ hc
  rw [Mach.flag, Mach.flag, Mach.flag, hreg, bitAt_setBits _ _ (by decide), bitAt_setBits _ _ (by decide), if_pos (by decide),
    if_neg (by decide)]
  exact ⟨by decide, rfl⟩

/-- From `m` to `n` group `g` has restarted with zero history at `t` (R322, R323). -/
def Mach.restartsAt (m n : Mach) (t g : Nat) : Prop :=
  (n.grp g).start = t ∧ (n.grp g).chains = m.freshChains g t (m.grp g).cfg ∧
    ((m.grp g).started = true → (n.grp g).unsLeft = (m.grp g).cfg.uns)

/-- The first `k` groups restarted one after another at `t`. -/
def Mach.restartFirst (m : Mach) (t k : Nat) : Mach := (List.range k).foldl (fun (m : Mach) g => m.restartZero g t) m

theorem Mach.restartFirst_succ (m : Mach) (t k : Nat) : m.restartFirst t (k + 1) = (m.restartFirst t k).restartZero k t := by
  rw [Mach.restartFirst, List.range_succ, List.foldl_append]
  rfl

theorem Mach.syncChains_eq (m : Mach) (t : Nat) : m.syncChains t = m.restartFirst t 13 := by
  unfold Mach.syncChains Mach.restartFirst
  rfl

/-- The status registers of the groups, but for the ACF resampler chains' (R348). -/
def fltStats : List Nat := (List.range 12).map (fun g => fltBase g + 12)

/-- Groups that restart one after another: each from the block that those before it leave, with the GAIN and the held values that it
had (R331). -/
theorem Mach.restartFirst_effect {m : Mach} (t : Nat) (hn : m.noClear) (hl : m.flt.groups.length = 13) {k : Nat} (hk : k ≤ 13) :
    (∀ g < k, m.restartsAt (m.restartFirst t k) t g) ∧ (∀ g, k ≤ g → (m.restartFirst t k).grp g = m.grp g) ∧
      (m.restartFirst t k).flt.groups.length = 13 ∧ (m.restartFirst t k).flt.arm = m.flt.arm ∧
      m.Edits (m.restartFirst t k) [.regs, .flt] fltStats := by
  induction k with
  | zero => exact ⟨fun g hg => absurd hg (Nat.not_lt_zero g), fun _ _ => rfl, hl, rfl, .refl hn⟩
  | succ k ih =>
    obtain ⟨hdone, hleft, hlen, harm, hedits⟩ := ih (by omega)
    rw [m.restartFirst_succ]
    generalize m.restartFirst t k = n at *
    obtain ⟨s, hr, hat, hch, huns⟩ := Mach.restartZero_effect (m := n) (g := k) t (by omega)
    have hgain : n.reg (fltBase k + 8) = m.reg (fltBase k + 8) :=
      hedits.keepsRegs _ (by simp only [fltStats, fltBase, List.mem_map, List.mem_range]; omega)
    have hfresh := Mach.freshChains_congr t (m.grp k).cfg (hedits.agrees (x := .mot) rfl) hgain
    rw [hleft k (le_refl k)] at hch huns
    refine ⟨fun g hg => ?_, fun g hg => ?_, hr.length.trans hlen, (congrArg Filters.arm hr.rest).trans harm,
      hedits.restartZero t (fun h => List.mem_map_of_mem (List.mem_range.mpr h)) rfl⟩
    · obtain h | rfl := Nat.lt_succ_iff_lt_or_eq.mp hg
      · have hsame := hr.others g (by omega)
        simpa only [Mach.restartsAt, hsame] using hdone g h
      · rw [Mach.restartsAt, hr.self]
        exact ⟨hat, hch.trans hfresh, huns⟩
    · exact (hr.others g (by omega)).trans (hleft g (by omega))

/-- The end of a synchronising reset at `t`: ARM clears, and `FLT_SYNCT` holds the instant (R331, R332). -/
def Mach.syncShown (m : Mach) (t : Nat) : Mach := ((m.setFld 0x10C4 0 1 0).setReg 0x10C8 (loWord t)).setReg 0x10CC (hiWord t)

theorem Mach.syncShown_regs {m : Mach} (t : Nat) (hc : m.canonical = true) : (m.syncShown t).flag 0x10C4 0 = false ∧
    (m.syncShown t).reg 0x10C8 = loWord t ∧ (m.syncShown t).reg 0x10CC = hiWord t := by
  have hc1 : (m.setFld 0x10C4 0 1 0).canonical = true := Mach.setReg_canonical _ _ hc
  have hc2 : ((m.setFld 0x10C4 0 1 0).setReg 0x10C8 (loWord t)).canonical = true := Mach.setReg_canonical _ _ hc1
  unfold Mach.syncShown
  refine ⟨?_, ?_, Mach.reg_setReg_self _ _ _ hc2⟩
  · rw [Mach.flag, Mach.reg_setReg_ne _ _ (by decide), Mach.reg_setReg_ne _ _ (by decide), Mach.setFld, Mach.reg_setReg_self m _ _ hc,
      bitAt_setBits _ _ (by decide), if_pos (by decide)]
    rfl
  · rw [Mach.reg_setReg_ne _ _ (by decide), Mach.reg_setReg_self _ _ _ hc1]

/-- The filters without an armed reset. -/
def Mach.disarmed (m : Mach) : Mach := { m with flt := { m.flt with arm := none } }

theorem Mach.syncReset_eq (m : Mach) (t : Nat) : m.syncReset t = (m.disarmed.syncChains t).syncShown t := by
  unfold Mach.syncReset Mach.disarmed Mach.syncShown
  rfl

/-- At a synchronising reset every group restarts, `FLT_SYNCT` takes the instant, and ARM clears (R331, R332). -/
theorem Mach.syncReset_effect {m : Mach} (t : Nat) (hc : m.canonical = true) (hn : m.noClear) (hl : m.flt.groups.length = 13) :
    (m.syncReset t).flt.arm = none ∧ ((m.syncReset t).flag 0x10C4 0 = false ∧ (m.syncReset t).reg 0x10C8 = loWord t ∧
      (m.syncReset t).reg 0x10CC = hiWord t) ∧ (∀ g < 13, m.restartsAt (m.syncReset t) t g) ∧
      m.Edits (m.syncReset t) [.regs, .flt] (0x10C4 :: 0x10C8 :: 0x10CC :: fltStats) := by
  have hdis : m.Edits m.disarmed [.regs, .flt] (0x10C4 :: 0x10C8 :: 0x10CC :: fltStats) :=
    (Mach.Edits.refl hn).other (m.flt_within _ rfl) rfl
  obtain ⟨hall, -, -, harm, hedits⟩ := Mach.restartFirst_effect (m := m.disarmed) t hn hl (le_refl 13)
  rw [m.syncReset_eq, Mach.syncChains_eq]
  generalize m.disarmed.restartFirst t 13 = n at *
  have hchains := hdis.trans hedits rfl (by decide)
  exact ⟨harm, Mach.syncShown_regs t (hchains.canonical hc), hall,
    ((hchains.setFld _ _ _ (by simp) rfl).setReg _ (by simp) rfl).setReg _ (by simp) rfl⟩

theorem Mach.syncDue_second {m : Mach} {t0 ts0 : Nat} (bus : Bool) (ha : m.flt.arm = some (t0, ts0)) (hon : m.on 3 = true)
    (harm : m.flag 0x10C4 0 = true) (hsrc : m.flag 0x10C4 4 = false) (hdue : (ts0 / 2 ^ 26 + 1) * 2 ^ 26 ≤ m.ts) :
    m.syncDue bus = m.syncReset ((ts0 / 2 ^ 26 + 1) * 2 ^ 26) := by
  simp only [Mach.syncDue, ha, hon, harm, hsrc, Bool.not_true, Bool.or_self, Bool.false_and, Bool.false_eq_true, if_false, if_pos hdue]

/-! ### The rows -/

theorem setBitsOf_bitMask : ∀ g < 12, setBitsOf 12 (bitMask g &&& 0xFFF) = [g] := by decide

/-- A castling request is refused neither for what it finds pending nor for a load in progress (R341). -/
theorem Mach.refuseFilter_castle {m : Mach} (new go : Word) (hx : m.flt.transfer = none)
    (h : ∀ g ∈ setBitsOf 12 go, m.castleReq g = false) : m.refuseFilter 0x10C0 new go = 0 := by
  have hany : (setBitsOf 12 go).any (fun g => m.castleReq g && !m.castlingNow g) = false :=
    List.any_eq_false.mpr fun g hg => by simp [h g hg]
  simp [Mach.refuseFilter, hany, hx]

/-- A written word of GO bits alone leaves `FLT_CASTLE` as it was. -/
theorem written_castle (old w : Word) : fltCastle.written .direct old w = old := written_go _ _ _ _ rfl rfl rfl

theorem mem_castleBits {g : Nat} {w : Word} : g ∈ setBitsOf 12 (w &&& 0xFFF) ↔ g < 12 ∧ w.getLsbD g = true := by
  rw [mem_setBitsOf, bitAt_and]
  refine and_congr_right fun hg => ?_
  have hmask : bitAt 0xFFF g = true := (show ∀ g < 12, bitAt 0xFFF g = true by decide) g hg
  rw [hmask, Bool.and_true, bitAt]

section

variable {s : State} {ag : Agent} {w : Word}

theorem exec_castleRequest_pends (hc : s.m.canonical = true) (ht : s.m.takesWrite ag .direct 0x10C0) (hx : s.m.flt.transfer = none)
    (h : ∀ g < 12, w.getLsbD g = true → s.m.castlePends g) :
    ∃ t, exec (.castleRequest ag .direct w) s = .next t ∧ t.pending = s.pending ∧
      (∀ g < 12, t.m.castleReq g = (s.m.castleReq g || w.getLsbD g)) ∧ s.m.wroteOnly t.m ag [] [0x10C0] := by
  have hpend : ∀ g ∈ setBitsOf 12 (w &&& 0xFFF), g < 12 ∧ s.m.castlePends g := fun g hg =>
    ⟨(mem_castleBits.mp hg).1, h g (mem_castleBits.mp hg).1 (mem_castleBits.mp hg).2⟩
  have hw := s.m.fltStored_within ag 0x10C0 (w &&& 0xFFF) (s.m.reg 0x10C0)
  have hk := s.m.fltStored_keepsRegs ag 0x10C0 (w &&& 0xFFF) (s.m.reg 0x10C0)
  have hself := Mach.fltStored_reg_self ag 0x10C0 (w &&& 0xFFF) (s.m.reg 0x10C0) hc
  have hreq (g : Nat) : (s.m.fltStored ag 0x10C0 (w &&& 0xFFF) (s.m.reg 0x10C0)).castleReq g = s.m.castleReq g :=
    congrArg (bitAt · g) hself
  obtain ⟨hbits, hwithin, hkeeps⟩ := Mach.castleAsks_pend (hw.2.1 hc) (nodup_setBitsOf 12 (w &&& 0xFFF)) fun g hg =>
    ⟨(hpend g hg).1, Mach.castlePends_congr hw.1 (hk _ (by decide)) (hreq g) (hpend g hg).2⟩
  obtain ⟨t, he, hp, -, hregs, hwrote⟩ := oneWrite_filter_next (ps := []) (as := [0x10C0]) (s := s) (ag := ag) (w := w)
    (a := 0x10C0) (d := fltCastle) (by decide) ht rfl
    (Mach.refuseFilter_castle _ _ hx fun g hg => (hpend g hg).2.1) rfl
    (by rw [written_castle]; exact (Mach.within_step hw hwithin rfl).1) rfl
    (by rw [written_castle]; exact fun x hx => (hkeeps x hx).trans (hk x hx))
  refine ⟨t, he, hp, fun g hg => ?_, hwrote⟩
  rw [Mach.castleReq, Mach.flag, hregs, written_castle]
  refine (hbits g hg).trans ?_
  rw [hreq]
  congr 1
  rw [Bool.eq_iff_iff, List.contains_iff_mem, mem_castleBits]
  exact and_iff_right hg

theorem exec_castleRequest_atOnce {g : Nat} (hg : g < 12) (hc : s.m.canonical = true) (hn : s.m.noClear)
    (ht : s.m.takesWrite ag .direct 0x10C0) (hx : s.m.flt.transfer = none) (hl : s.m.flt.groups.length = 13)
    (hreq : s.m.castleReq g = false) (hst : (s.m.grp g).started = true) (htaps : (s.m.grp g).cfg.taps = none)
    (hleft : (s.m.grp g).firLeft = false) (hon : s.m.on 3 = true) :
    ∃ t, exec (.castleRequest ag .direct (bitMask g)) s = .next t ∧ t.pending = s.pending ∧ t.m.castleReq g = false ∧
      t.m.grp g = { s.m.grp g with bankB := !(s.m.grp g).bankB, castlePend := false, events := (t.m.grp g).events } ∧
      (∀ k, k ≠ g → t.m.grp k = s.m.grp k) ∧ t.m.flag (fltBase g + 12) 23 = true ∧
      s.m.wroteOnly t.m ag [.flt] [0x10C0, fltBase g + 12] := by
  let m₁ := s.m.fltStored ag 0x10C0 (bitMask g &&& 0xFFF) (s.m.reg 0x10C0)
  have hedits : s.m.Edits m₁ [.regs] [0x10C0] := Mach.fltStored_edits ag 0x10C0 _ _ hn
  have hflt : m₁.flt = s.m.flt := hedits.agrees (x := .flt) rfl
  have hclk : m₁.clk = s.m.clk := hedits.agrees (x := .clk) rfl
  have hgrp := Mach.grp_congr (congrArg Filters.groups hflt)
  have hreq₁ : m₁.castleReq g = false := (congrArg (bitAt · g) (Mach.fltStored_reg_self ag 0x10C0 _ _ hc)).trans hreq
  have hask : [g].foldl Mach.castleAsk m₁ = m₁.castleNow g := by
    rw [List.foldl_cons, List.foldl_nil]
    exact Mach.castleAsk_atOnce hreq₁ (by rw [hgrp, hst]) (by rw [hgrp, htaps]) (by rw [hgrp, hleft])
  obtain ⟨⟨e, hnow⟩, hreq₂, hflag, hedits₂⟩ := Mach.castleNow_effect (hedits.canonical hc) hedits.noClear hg (by rw [hflt, hl])
    (by simpa only [Mach.on, Mach.dom, hclk] using hon)
  have hall : s.m.Edits (m₁.castleNow g) [.regs, .flt] [0x10C0, fltBase g + 12] :=
    (Mach.Edits.trans (.refl hn) hedits rfl (by simp)).trans hedits₂ rfl (by simp)
  obtain ⟨t, he, hp, htf, hregs, hwrote⟩ := oneWrite_filter_next (ps := [.flt]) (as := [0x10C0, fltBase g + 12]) (s := s) (ag := ag)
    (w := bitMask g) (a := 0x10C0) (d := fltCastle) (n := m₁.castleNow g) (by decide) ht rfl
    (Mach.refuseFilter_castle _ _ hx fun k hk => by
      change k ∈ setBitsOf 12 (bitMask g &&& 0xFFF) at hk
      rw [setBitsOf_bitMask g hg, List.mem_singleton] at hk
      rw [hk, hreq])
    (by
      rw [written_castle]
      exact (congrArg (List.foldl Mach.castleAsk m₁) (setBitsOf_bitMask g hg)).trans hask)
    hall.within.1 rfl hall.keepsRegs
  have hgrp₂ := Mach.grp_congr (congrArg Filters.groups htf)
  refine ⟨t, he, hp, by rw [Mach.castleReq, Mach.flag, hregs]; exact hreq₂, ?_, fun k hk => ?_,
    by rw [Mach.flag, hregs]; exact hflag, hwrote⟩
  · rw [hgrp₂, hnow.self, hgrp]
  · rw [hgrp₂, hnow.others k hk, hgrp]

theorem exec_syncArm_arms (hc : s.m.canonical = true) (ht : s.m.takesWrite ag .direct 0x10C4) (hgo : bitAt w 0 = true)
    (harm : s.m.flag 0x10C4 0 = false) (hmark : bitAt w 4 = true → s.m.noMark = false) :
    ∃ t, exec (.syncArm ag .direct w) s = .next t ∧ t.pending = s.pending ∧ t.m.flag 0x10C4 0 = true ∧
      t.m.flag 0x10C4 4 = bitAt w 4 ∧ t.m.flt = { s.m.flt with arm := some (s.m.clk.now, s.m.ts) } ∧
      s.m.wroteOnly t.m ag [.flt] [0x10C4] := by
  let m₁ := s.m.fltStored ag 0x10C4 (w &&& 1) (fltSync.written .direct (s.m.reg 0x10C4) w)
  have hw : s.m.within m₁ [.regs] := s.m.fltStored_within ag _ _ _
  have hk : s.m.keepsRegs m₁ [0x10C4] := s.m.fltStored_keepsRegs ag _ _ _
  have hgo1 : bitAt (w &&& 1) 0 = true := by rw [bitAt_and, hgo]; rfl
  have hsrc : bitAt (fltSync.written .direct (s.m.reg 0x10C4) w) 4 = bitAt w 4 := bitAt_written_rw _ w (by decide)
  obtain ⟨hparts, hkeeps⟩ := m₁.syncArm_frame
  obtain ⟨hset, hsel⟩ := Mach.syncArm_flags (hw.2.1 hc)
  obtain ⟨t, he, hp, htf, hregs, hwrote⟩ := oneWrite_filter_next (ps := [.flt]) (as := [0x10C4]) (s := s) (ag := ag) (w := w)
    (a := 0x10C4) (d := fltSync) (n := m₁.syncArm) (by decide) ht rfl
    (Mach.refuseFilter_arm _ fun h => hmark (hsrc ▸ h)) (Mach.doneFilter_arm _ _ hgo1 harm)
    (fun x hx => Mach.agrees_trans (hw.1 x (by simp_all)) (hparts x hx)) rfl (fun x hx => (hkeeps x hx).trans (hk x hx))
  refine ⟨t, he, hp, by rw [Mach.flag, hregs]; exact hset, ?_, ?_, hwrote⟩
  · rw [Mach.flag, hregs]
    exact hsel.trans ((congrArg (bitAt · 4) (Mach.fltStored_reg_self ag _ _ _ hc)).trans hsrc)
  · have hflt : m₁.flt = s.m.flt := hw.1 .flt (by simp)
    have hclk : m₁.clk = s.m.clk := hw.1 .clk (by simp)
    rw [htf]
    change { m₁.flt with arm := some (m₁.clk.now, m₁.clk.ts.toNat) } = _
    rw [hflt, hclk]
    rfl

end

/-- Settles O20: requests pend by `Mach.castleAsks_pend` or execute by `Mach.castleNow_effect`; a reset is armed by the write of
`FLT_SYNC` and made by `Mach.syncReset_effect`. -/
theorem castlingAndSynchronisingResets : Obligations.CastlingAndSynchronisingResets := by
  refine ⟨fun s ag w hc ht hx hl hn => ⟨exec_castleRequest_pends hc ht hx, fun g hg hw hreq hst htaps hleft hon => ?_⟩,
    fun s ag w => exec_syncArm_arms, fun s t0 ts0 hc hn ha hon harm hsrc hdue hl => ?_⟩
  · subst hw
    exact exec_castleRequest_atOnce hg hc hn ht hx hl hreq hst htaps hleft hon
  · obtain ⟨hnone, ⟨hclear, hlo, hhi⟩, hall, hedits⟩ := Mach.syncReset_effect ((ts0 / 2 ^ 26 + 1) * 2 ^ 26) hc hn hl
    exact ⟨_, congrArg (goOn s) (Mach.syncDue_second _ ha hon harm hsrc hdue), rfl, hnone, hclear, hlo, hhi, fun g hg => hall g hg,
      hedits.within.1, hedits.keepsRegs⟩

end Sys2Proof.Machine
end

section
/-! SUPPORT. The coefficient library (R346, R347): the bytes of an entry, banks of taps, and transfers that start and end. -/

namespace Sys2Proof.Machine

/-! ### The bytes of a library entry (R346) -/

theorem natBytes_length (n v : Nat) : (natBytes n v).length = n := by simp [natBytes]

theorem bytesNat_wordBytes (w : Word) : word (bytesNat (wordBytes w)) = w := by
  refine BitVec.eq_of_toNat_eq ?_
  have hw := w.isLt
  simp only [bytesNat, wordBytes, List.foldl_cons, List.foldl_nil, word, BitVec.toNat_ofNat, BitVec.extractLsb'_toNat,
    Nat.shiftRight_eq_div_pow]
  omega

/-- Words are what their bytes spell. -/
theorem bytesWords_wordsBytes (ws : List Word) : bytesWords (wordsBytes ws) = ws := by
  induction ws with
  | nil => rfl
  | cons w ws ih =>
    change word (bytesNat (wordBytes w)) :: bytesWords (wordsBytes ws) = w :: ws
    rw [bytesNat_wordBytes, ih]

theorem libHead_length {taps : List Word} (saves : Nat) (h : taps.length = 64) : (libHead taps saves).length = 272 := by
  simp [libHead, natBytes_length, wordsBytes_length, h]

/-- An entry whose save has ended is valid, and holds the taps saved (R346). -/
theorem libBytes_valid {taps : List Word} (e saves : Nat) (h : taps.length = 64) :
    (⟨e, libBytes taps saves⟩ : LibEntry).valid = true ∧ (⟨e, libBytes taps saves⟩ : LibEntry).taps = taps := by
  have hlen := libHead_length saves h
  have hdig : (digestBytes (sha256 (libHead taps saves))).length = 32 := natBytes_length ..
  have hhead : (libBytes taps saves).take 272 = libHead taps saves := by
    rw [libBytes, List.append_assoc, ← hlen, List.take_left]
  constructor
  · have hdigest : ((libBytes taps saves).drop 272).take 32 = digestBytes (sha256 (libHead taps saves)) := by
      rw [libBytes, List.append_assoc, ← hlen, List.drop_left, ← hdig, List.take_left]
    have hmagic : (libBytes taps saves).take 4 = [0x4E, 0x4C, 0x43, 0x46] := rfl
    simp only [LibEntry.valid, hhead, hdigest, hmagic, beq_self_eq_true, Bool.and_self]
  · have hwords : ((libBytes taps saves).drop 16).take 256 = wordsBytes taps := by
      have h16 : ([0x4E, 0x4C, 0x43, 0x46, 1, 3, 0, 0] ++ natBytes 4 saves ++ [0, 0, 0, 0] : List Byte).length = 16 := by
        simp [natBytes_length]
      have h256 : (wordsBytes taps).length = 256 := by rw [wordsBytes_length, h]
      rw [libBytes, libHead, List.append_assoc, List.append_assoc, ← h16, List.drop_left, ← h256, List.take_left]
    rw [LibEntry.taps, hwords, bytesWords_wordsBytes]

/-- A library entry replaced is found as it was written, and every other one as before. -/
theorem Mach.libEntry_putLib (m : Mach) (e : Nat) (bytes : List Byte) (n : Nat) :
    (m.putLib e bytes).libEntry n = if n = e then some ⟨e, bytes⟩ else m.libEntry n := by
  rw [Mach.libEntry, Mach.putLib, List.find?_append, List.find?_filter]
  split
  · next h =>
    subst h
    rw [List.find?_eq_none.mpr (by simp)]
    simp
  · next h =>
    have hlast : [(⟨e, bytes⟩ : LibEntry)].find? (fun x => x.entry == n) = none := by simp [Ne.symm h]
    rw [hlast, Option.or_none]
    unfold Mach.libEntry
    congr 1
    funext x
    by_cases hx : x.entry = n <;> simp [hx, h]

theorem Mach.libTaps_putLib {m : Mach} {e : Nat} {taps : List Word} (saves : Nat) (he : e ≠ 0) (h : taps.length = 64) :
    (m.putLib e (libBytes taps saves)).libTaps e = some taps ∧
      ∀ n, n ≠ e → (m.putLib e (libBytes taps saves)).libTaps n = m.libTaps n := by
  obtain ⟨hvalid, htaps⟩ := libBytes_valid e saves h
  refine ⟨?_, fun n hn => ?_⟩
  · rw [Mach.libTaps, if_neg he, Mach.libEntry_putLib, if_pos rfl, Option.bind_some, if_pos hvalid, htaps]
  · rw [Mach.libTaps, Mach.libTaps, Mach.libEntry_putLib, if_neg hn]

theorem Mach.libTaps_congr {m n : Mach} (h : n.nv = m.nv) (e : Nat) : n.libTaps e = m.libTaps e := by
  simp only [Mach.libTaps, Mach.libEntry, h]

/-! ### Banks (R334) -/

theorem Mach.setBank_concat (m : Mach) (g : Nat) (b : Bool) (ws : List Word) (w : Word) :
    m.setBank g b (ws ++ [w]) = { m.setBank g b ws with mem := { (m.setBank g b ws).mem with
      coefs := cellSet coefReset (m.setBank g b ws).mem.coefs (128 * g + (if b then 64 else 0) + ws.length) (w &&& 0xFFFFFF) } } := by
  simp [Mach.setBank, List.zipIdx_append]

theorem Mach.setBank_canonical {m : Mach} (g : Nat) (b : Bool) (ws : List Word) (hc : m.canonical = true) :
    (m.setBank g b ws).canonical = true :=
  (Mach.setBank_within m g b ws (m.within_refl [.mem]) rfl).2.1 hc

theorem Mach.coefsWf {m : Mach} (hc : m.canonical = true) : Memory.wf coefReset m.mem.coefs = true := by
  simp only [Mach.canonical, Bool.and_eq_true] at hc
  exact hc.2

/-- A bank replaced reads as the words given, in 24 bits each. -/
theorem Mach.coef_setBank {m : Mach} (g : Nat) (b : Bool) {ws : List Word} {i : Nat} (hc : m.canonical = true) (hi : i < ws.length) :
    (m.setBank g b ws).coef g b i = ws.getD i 0 &&& 0xFFFFFF := by
  induction ws using List.reverseRecOn with
  | nil => exact absurd hi (Nat.not_lt_zero i)
  | append_singleton ws w ih =>
    have hwf := Mach.coefsWf (Mach.setBank_canonical g b ws hc)
    rw [List.length_append, List.length_singleton] at hi
    rw [Mach.setBank_concat, Mach.coef]
    obtain h | rfl := Nat.lt_succ_iff_lt_or_eq.mp hi
    · rw [cellGet_cellSet_ne _ _ _ (by omega), List.getD_append _ _ _ _ h]
      exact ih h
    · rw [cellGet_cellSet_self _ _ _ _ hwf, List.getD_append_right _ _ _ _ (le_refl _), Nat.sub_self]
      rfl

/-! ### A transfer starts (R347) -/

/-- The word that a write of `FLT_CLIB` makes names the direction, the entry, the group and the bank that are written. -/
theorem fltClib_written (old w : Word) : bitAt (fltClib.written .direct old w) 28 = bitAt w 28 ∧
    bitsAt (fltClib.written .direct old w) 20 5 = bitsAt w 20 5 ∧ bitsAt (fltClib.written .direct old w) 12 4 = bitsAt w 12 4 ∧
    bitAt (fltClib.written .direct old w) 8 = bitAt w 8 :=
  ⟨bitAt_written_rw old w (by decide), bitsAt_written_rw old w (by decide), bitsAt_written_rw old w (by decide),
    bitAt_written_rw old w (by decide)⟩

/-- A word that names a group of chains is in range. -/
theorem fltClib_inRange {x : Word} (h : bitsAt x 12 4 ≤ 11) : fltClib.inRange x = true := by
  simp [RegDef.inRange, fltClib, RegDef.control, FieldRange.accepts, h]

/-- The transfer that a word of `FLT_CLIB` asks for: a save takes the taps of its bank as they stand. -/
def Mach.transferOf (m : Mach) (w : Word) : LibTransfer :=
  ⟨bitAt w 28, bitsAt w 20 5, bitsAt w 12 4, bitAt w 8,
    if bitAt w 28 then (List.range 64).map (fun i => m.coef (bitsAt w 12 4) (bitAt w 8) i &&& 0x00FFFFFF) else []⟩

/-- A save into an entry but 0, or a load into a bank that is not in use, is not refused. -/
theorem Mach.refuseFilter_clib {m : Mach} {new : Word} (go : Word) (hsave : bitAt new 28 = true → bitsAt new 20 5 ≠ 0)
    (hload : bitAt new 28 = false → m.bankBusy (bitsAt new 12 4) (bitAt new 8) = false) : m.refuseFilter 0x10D0 new go = 0 := by
  change (if bitAt go 0 && !m.flag 0x10D0 0 then
    (if bitAt new 28 then (if bitsAt new 20 5 = 0 then 18 else 0)
      else if m.bankBusy (bitsAt new 12 4) (bitAt new 8) then 18 else 0) else 0) = 0
  cases h : bitAt new 28
  · simp [hload h]
  · simp [hsave h]

theorem Mach.clibStart_effect {m : Mach} (new : Word) (hc : m.canonical = true) :
    (m.clibStart new).flag 0x10D0 0 = true ∧ (m.clibStart new).flt = { m.flt with transfer := some (m.transferOf new) } ∧
      m.changesOnly (m.clibStart new) [.regs, .flt] ∧ m.keepsRegs (m.clibStart new) [0x10D0] := by
  refine ⟨?_, rfl, (Mach.clibStart_within m new (m.within_refl _) rfl).1, fun x hx => m.setFld_reg_ne _ _ _ (by simpa using hx)⟩
  have hreg : (m.clibStart new).reg 0x10D0 = setBits (m.reg 0x10D0) 0 1 1 := m.reg_setReg_self _ _ hc
  rw [Mach.flag, hreg, bitAt_setBits _ _ (by decide), if_pos (by decide)]
  decide

/-- A write of `FLT_CLIB` with GO starts the transfer that it asks for. -/
theorem oneWrite_clib {s : State} {ag : Agent} {w : Word} (hc : s.m.canonical = true) (ht : s.m.takesWrite ag .direct 0x10D0)
    (hgo : bitAt w 0 = true) (hidle : s.m.flag 0x10D0 0 = false) (hgrp : bitsAt w 12 4 ≤ 11)
    (hsave : bitAt w 28 = true → bitsAt w 20 5 ≠ 0)
    (hload : bitAt w 28 = false → s.m.bankBusy (bitsAt w 12 4) (bitAt w 8) = false) :
    ∃ t, goOn s (s.m.oneWrite ag .direct 0x10D0 w) = .next t ∧ t.pending = s.pending ∧ t.m.flag 0x10D0 0 = true ∧
      t.m.flt = { s.m.flt with transfer := some (s.m.transferOf w) } ∧ s.m.wroteOnly t.m ag [.flt] [0x10D0] := by
  obtain ⟨hdir, hentry, hgroup, hbank⟩ := fltClib_written (s.m.reg 0x10D0) w
  let m₁ := s.m.fltStored ag 0x10D0 (w &&& 1) (fltClib.written .direct (s.m.reg 0x10D0) w)
  have hw : s.m.within m₁ [.regs] := s.m.fltStored_within ag _ _ _
  have hk : s.m.keepsRegs m₁ [0x10D0] := s.m.fltStored_keepsRegs ag _ _ _
  have hgo1 : bitAt (w &&& 1) 0 = true := by rw [bitAt_and, hgo]; rfl
  obtain ⟨hset, hflt, hparts, hkeeps⟩ := Mach.clibStart_effect (fltClib.written .direct (s.m.reg 0x10D0) w) (hw.2.1 hc)
  obtain ⟨t, he, hp, htf, hregs, hwrote⟩ := oneWrite_filter_next (ps := [.flt]) (as := [0x10D0]) (s := s) (ag := ag) (w := w)
    (a := 0x10D0) (d := fltClib) (by decide) ht
    (fltClib_inRange (hgroup ▸ hgrp)) (Mach.refuseFilter_clib _ (by rwa [hdir, hentry]) (by rwa [hdir, hgroup, hbank]))
    (Mach.doneFilter_clib m₁ _ hgo1 hidle)
    (fun x hx => Mach.agrees_trans (hw.1 x (by simp_all)) (hparts x hx)) rfl (fun x hx => (hkeeps x hx).trans (hk x hx))
  refine ⟨t, he, hp, by rw [Mach.flag, hregs]; exact hset, ?_, hwrote⟩
  have hmem : m₁.mem = s.m.mem := hw.1 .mem (by simp)
  have htransfer : m₁.transferOf (fltClib.written .direct (s.m.reg 0x10D0) w) = s.m.transferOf w := by
    simp only [Mach.transferOf, Mach.coef, hdir, hentry, hgroup, hbank, hmem]
  rw [htf, hflt, htransfer, show m₁.flt = s.m.flt from hw.1 .flt (by simp)]

/-! ### A transfer ends (R347) -/

/-- The block as a transfer ends: it is no longer in progress, and GO clears. -/
def Mach.transferOver (m : Mach) : Mach := ({ m with flt := { m.flt with transfer := none } } : Mach).setFld 0x10D0 0 1 0

theorem Mach.transferOver_effect {m : Mach} (hc : m.canonical = true) : m.transferOver.flag 0x10D0 0 = false ∧
    m.within m.transferOver [.regs, .flt] ∧ m.keepsRegs m.transferOver [0x10D0] := by
  have hw : m.within { m with flt := { m.flt with transfer := none } } [.regs, .flt] :=
    Mach.within_step (m.within_refl _) (m.flt_within _ rfl) rfl
  refine ⟨?_, Mach.setReg_within _ _ hw rfl, fun x hx => Mach.setFld_reg_ne _ _ _ _ (by simpa using hx)⟩
  have hreg : m.transferOver.reg 0x10D0 = setBits (m.reg 0x10D0) 0 1 0 := Mach.reg_setReg_self _ _ _ hc
  rw [Mach.flag, hreg, bitAt_setBits _ _ (by decide), if_pos (by decide)]
  decide

/-- RESULT shows done, and GO stays clear. -/
theorem Mach.resultDone_shows {m : Mach} (hc : m.canonical = true) (hg : m.flag 0x10D0 0 = false) :
    (m.setFld 0x10D0 30 2 1).flag 0x10D0 0 = false ∧ (m.setFld 0x10D0 30 2 1).fld 0x10D0 30 2 = 1 := by
  refine ⟨?_, Mach.fld_setFld_self 1 hc (by decide)⟩
  rw [Mach.setFld, Mach.flag, Mach.reg_setReg_self m _ _ hc, bitAt_setBits _ _ (by decide), if_neg (by decide)]
  exact hg

/-- A transfer that ends with an operation on the taps: what `FLT_CLIB` shows, and what the whole leaves alone. -/
theorem Mach.transferOver_shows {m n : Mach} {ps : List Part} (hc : m.canonical = true) (hn : m.transferOver.within n ps)
    (hp : ps.contains .regs = false) (hps : ps.contains .flt = false) :
    (n.setFld 0x10D0 30 2 1).flt = { m.flt with transfer := none } ∧ (n.setFld 0x10D0 30 2 1).flag 0x10D0 0 = false ∧
      (n.setFld 0x10D0 30 2 1).fld 0x10D0 30 2 = 1 ∧ m.changesOnly (n.setFld 0x10D0 30 2 1) (.regs :: .flt :: ps) ∧
      m.keepsRegs (n.setFld 0x10D0 30 2 1) [0x10D0] := by
  obtain ⟨hgo, hover, hkeeps⟩ := Mach.transferOver_effect hc
  have hreg (x : Nat) : n.reg x = m.transferOver.reg x := Mach.reg_of_within hn hp x
  obtain ⟨hflag, hfld⟩ := Mach.resultDone_shows (hn.2.1 (hover.2.1 hc)) (by rw [Mach.flag, hreg]; exact hgo)
  refine ⟨hn.1 .flt (by simpa using hps), hflag, hfld, fun x hx => ?_, fun x hx => ?_⟩
  · simp only [List.mem_cons, not_or] at hx
    obtain ⟨hr, hf, hx⟩ := hx
    exact Mach.agrees_trans (Mach.agrees_trans (hover.1 x (by simp [hr, hf])) (hn.1 x hx)) (Mach.setReg_agrees _ _ _ hr)
  · rw [Mach.setFld_reg_ne _ _ _ _ (by simpa using hx), hreg]
    exact hkeeps x hx

theorem Mach.transferDone_load {m : Mach} {x : LibTransfer} {ws : List Word} (hx : m.flt.transfer = some x) (hs : x.save = false)
    (ht : m.libTaps x.entry = some ws) :
    m.transferDone false = (m.transferOver.setBank x.group x.bankB ws).setFld 0x10D0 30 2 1 := by
  have ht2 : m.transferOver.libTaps x.entry = some ws := (Mach.libTaps_congr rfl x.entry).trans ht
  rw [Mach.transferOver] at ht2 ⊢
  simp only [Mach.transferDone, hx, hs, Bool.false_eq_true, if_false, ht2]

theorem Mach.transferDone_save {m : Mach} {x : LibTransfer} (hx : m.flt.transfer = some x) (hs : x.save = true) :
    m.transferDone false =
      (m.transferOver.putLib x.entry (libBytes x.taps (m.transferOver.nextSave x.entry))).setFld 0x10D0 30 2 1 := by
  rw [Mach.transferOver]
  simp only [Mach.transferDone, hx, hs, if_true, Bool.false_and, Bool.false_eq_true, if_false]

/-- Settles O21: transfers start by `oneWrite_clib` and end by `Mach.transferOver_shows`; a load's taps stand in their bank by
`Mach.coef_setBank`, a save's in their entry by `Mach.libTaps_putLib`. -/
theorem coefficientTransfers : Obligations.CoefficientTransfers := by
  refine ⟨fun s ag w hc ht hgo hidle hgrp => ⟨fun hdir hbusy => ?_, fun hdir hentry => ?_⟩, fun s x hc hx =>
    ⟨fun ws hs htaps hlen => ?_, fun hs he hlen => ?_⟩⟩
  · have h := oneWrite_clib hc ht hgo hidle hgrp (fun h => absurd (hdir.symm.trans h) (by decide)) fun _ => hbusy
    simp only [Mach.transferOf, hdir, Bool.false_eq_true, if_false] at h
    exact h
  · have h := oneWrite_clib hc ht hgo hidle hgrp (fun _ => hentry) fun h => absurd (hdir.symm.trans h) (by decide)
    simp only [Mach.transferOf, hdir, if_true] at h
    exact h
  · obtain ⟨hflt, hflag, hfld, hparts, hregs⟩ := Mach.transferOver_shows hc
      (Mach.setBank_within s.m.transferOver x.group x.bankB ws (Mach.within_refl _ [.mem]) rfl) rfl rfl
    obtain ⟨-, hover, -⟩ := Mach.transferOver_effect hc
    exact ⟨_, congrArg (goOn s) (Mach.transferDone_load hx hs htaps), rfl, hflt,
      fun i hi => Mach.coef_setBank x.group x.bankB (hover.2.1 hc) (by omega), hflag, hfld, hparts, hregs⟩
  · obtain ⟨hflt, hflag, hfld, hparts, hregs⟩ := Mach.transferOver_shows hc (Mach.putLib_within s.m.transferOver x.entry
      (libBytes x.taps (s.m.transferOver.nextSave x.entry)) (Mach.within_refl _ [.nv]) rfl) rfl rfl
    obtain ⟨hnew, hothers⟩ := Mach.libTaps_putLib (m := s.m.transferOver) (s.m.transferOver.nextSave x.entry) he hlen
    exact ⟨_, congrArg (goOn s) (Mach.transferDone_save hx hs), rfl, hflt, hnew, fun n hn => hothers n hn, hflag, hfld, hparts, hregs⟩

end Sys2Proof.Machine
end

section
/-! SUPPORT. The rows of the angle resampler that O22 speaks of: a rate output with and without an advance, what the handling of a
reference instant leaves as it is, and a miss of the reference and of the lowest rate. -/

namespace Sys2Proof.Machine

/-! ### Rate outputs (R351, R352, R355) -/

theorem Mach.changesOnly_ang (m : Mach) (a : Angle) : m.changesOnly { m with ang := a } [.ang] := by
  intro x hx
  cases x
  case ang => simp at hx
  all_goals rfl

/-- The resampler after a rate output `s` with no correction pending, its decimator then `x` (R355, R357). -/
def Angle.advanced (a : Angle) (x : Chain) (s : Int) (fast : Bool) : Angle :=
  { a with deci := x, nextRate := a.nextRate + 4096, omega := s, theta := a.theta + a.advance s
           rates := ⟨(a.nextRate : Int) - 6528, a.theta + a.advance s⟩ :: a.rates
           lowSince := if fast then none else some (a.lowSince.getD a.nextRate) }

theorem Mach.angJoin_running {m : Mach} (h : m.ang.run = true) : m.angJoin = m := by simp [Mach.angJoin, h]

theorem Mach.revSeek_inRev {m : Mach} (h : m.ang.rev ≠ none) : m.revSeek = m := by
  simp [Mach.revSeek, Option.isSome_iff_ne_none.mpr h]

theorem Angle.share_none {a : Angle} (h : a.corrParts = 0) : a.share = (0, a) := by simp [Angle.share, h]

section
variable {m : Mach} (ins : List Sample) (hruns : m.angRuns = true) (hrun : m.ang.run = true) (hdue : m.ang.nextRate ≤ m.ts)
include hruns hrun hdue

/-- One of the first outputs after a start is discarded: the decimator alone goes on (R352). -/
theorem Mach.angleRate_discards (hd : 0 < m.ang.discard) :
    m.angleRate ins = { m with ang := { m.ang with
      deci := (m.rateSum ins).1, nextRate := m.ang.nextRate + 4096, discard := m.ang.discard - 1 } } := by
  unfold Mach.angleRate
  simp only [hruns, Bool.not_true, Bool.false_eq_true, if_false, Mach.angJoin_running hrun, Nat.not_lt.mpr hdue, hd, if_true]

/-- A rate output within a revolution, off the limit of the range and with no correction pending, advances the angle (R355). -/
theorem Mach.angleRate_advances (hd : m.ang.discard = 0) (hlock : m.ang.lock ≠ .search) (hrev : m.ang.rev ≠ none)
    (hparts : m.ang.corrParts = 0) (hlim : m.rateAtLimit (m.rateSum ins).2 = false) :
    m.angleRate ins =
      { m with ang := m.ang.advanced (m.rateSum ins).1 (m.rateSum ins).2 (m.fastEnough (m.rateSum ins).2) } := by
  have hkept : ¬ 0 < m.ang.discard := Nat.not_lt.mpr hd.le
  unfold Mach.angleRate
  simp only [hruns, Bool.not_true, Bool.false_eq_true, if_false, Mach.angJoin_running hrun, Nat.not_lt.mpr hdue, hkept]
  rw [Angle.share_none (by exact hparts)]
  dsimp only
  rw [if_neg (by rw [Bool.not_eq_true]; exact hlim), if_neg hlock, Mach.revSeek_inRev (by exact hrev), Int.add_zero]
  rfl

end

/-! ### What handling a reference instant leaves as it is (R362 to R364, R366) -/

/-- A lock state entered, or in force before: nothing of the resampler changes but the state and its instants. -/
theorem Mach.setLock_ang_eq (m : Mach) (l : Lock) (t : Int) :
    ∃ states, (m.setLock l t).ang = { m.ang with lock := l, states := states } := by
  by_cases h : m.ang.lock = l
  · exact ⟨m.ang.states, by rw [Mach.setLock_same m t h, ← h]⟩
  · exact ⟨_, Mach.setLock_ang m t h⟩

/-- The reference instants that wait, and `HOLDN` as the last one handled found it. -/
def Angle.refState (a : Angle) : List Int × Nat := (a.refs, a.holdN)

theorem Mach.setLock_refState (m : Mach) (l : Lock) (t : Int) : (m.setLock l t).ang.refState = m.ang.refState := by
  obtain ⟨states, h⟩ := m.setLock_ang_eq l t
  rw [h]
  rfl

theorem Mach.revBegin_refState (m : Mach) (t base : Int) : (m.revBegin t base).ang.refState = m.ang.refState := by
  rw [Mach.revBegin_ang]
  rfl

theorem Mach.revSeek_refState (m : Mach) : m.revSeek.ang.refState = m.ang.refState := by
  unfold Mach.revSeek
  split
  · rfl
  · split
    · exact Mach.revBegin_refState _ _ _
    · rfl

theorem Mach.beginIfWhole_refState (m : Mach) (t th : Int) : (m.beginIfWhole t th).ang.refState = m.ang.refState := by
  unfold Mach.beginIfWhole
  split
  · exact Mach.revBegin_refState _ _ _
  · exact Mach.revSeek_refState _

/-- What handling a reference instant does at most: the instants that wait and `HOLDN` stay, and of the registers only those of the
phase loop, `ANG_STATUS` and `ANG_KEYEXTRA` change. -/
structure Mach.RefEdits (m n : Mach) : Prop where
  refState : n.ang.refState = m.ang.refState
  edits : m.Edits n [.regs, .ang] [0x1418, 0x141C, 0x1428, 0x1430]

namespace Mach.RefEdits

variable {m n : Mach}

theorem refl (hn : m.noClear) : m.RefEdits m := ⟨rfl, .refl hn⟩

theorem ite {k : Mach} {c : Prop} [Decidable c] (hn : m.RefEdits n) (hk : m.RefEdits k) :
    m.RefEdits (if c then n else k) := by
  split
  · exact hn
  · exact hk

variable (h : m.RefEdits n)
include h

theorem ang (a : Angle) (ha : a.refState = n.ang.refState := by rfl) : m.RefEdits { n with ang := a } :=
  ⟨ha.trans h.refState, h.edits.ang a rfl⟩

theorem shiftTheta (t d : Int) : m.RefEdits (n.shiftTheta t d) := h.ang _

theorem setTheta (t now want : Int) : m.RefEdits (n.setTheta t now want) := (h.shiftTheta t (want - now)).ang _

theorem setLock (l : Lock) (t : Int) : m.RefEdits (n.setLock l t) :=
  ⟨(n.setLock_refState l t).trans h.refState, h.edits.setLock (by simp) rfl l t⟩

theorem beginIfWhole (t th : Int) : m.RefEdits (n.beginIfWhole t th) :=
  ⟨(n.beginIfWhole_refState t th).trans h.refState, h.edits.beginIfWhole (by simp) rfl t th⟩

theorem sqBit (i : Nat) : m.RefEdits (n.sqBit 0x1428 i) :=
  ⟨(congrArg Angle.refState (n.sqBit_ang 0x1428 i)).trans h.refState, h.edits.sqEvent _ (by simp) rfl⟩

theorem keyExtra : m.RefEdits (n.count 0x1430) :=
  ⟨(congrArg Angle.refState (n.count_ang 0x1430)).trans h.refState, h.edits.count (by simp) rfl⟩

theorem loopRegs (e : Int) : m.RefEdits (n.loopRegs e) :=
  ⟨h.refState, (h.edits.setReg _ (by simp) rfl).setReg _ (by simp) rfl⟩

theorem stateRules (t e : Int) : m.RefEdits (n.stateRules t e) := by
  unfold Mach.stateRules
  extract_lets tol
  split
  · exact ite (ite ((h.ang _).setLock .lock t) (h.ang _)) (h.ang _)
  · exact ite ((h.ang _).setLock .track t) h
  · exact ite (h.setLock .lock t) ((h.ang _).setLock .track t)
  · exact h

/-- The phase loop, whether it resynchronises or corrects (R363). -/
theorem phaseLoop (t th : Int) : m.RefEdits (n.phaseLoop t th) := by
  unfold Mach.phaseLoop
  extract_lets left shifted there _ accepted e _ resynced k lim sc corrected
  have haccepted : m.RefEdits accepted := (ite h (h.shiftTheta t left)).ang _
  have hresynced : m.RefEdits resynced := (haccepted.ang _).setTheta t there (there - e)
  have hcorrected : m.RefEdits corrected := haccepted.ang _
  exact ite (((hresynced.loopRegs e).sqBit 10).setLock .track t |>.beginIfWhole t _) ((hcorrected.loopRegs e).stateRules t e)

theorem refSearch (t th : Int) : m.RefEdits (n.refSearch t th) := by
  unfold Mach.refSearch
  extract_lets k _ seen
  have hseen : m.RefEdits seen := h.ang _
  exact ite h (((hseen.setTheta t th k).setLock .track t).beginIfWhole t k)

end Mach.RefEdits

/-- A reference instant before the first rate output kept is taken out of those that wait, and no more. -/
theorem Mach.reference_unplaced {m : Mach} {t : Int} {p : RatePoint} {rest : List RatePoint} (hruns : m.angRuns = true)
    (hin : t ∈ m.ang.refs) (hrates : m.ang.rates = p :: rest) (ht : t ≤ p.t) (hth : thetaAt m.ang.rates t = none) :
    m.reference t = m.refsAfter t := by
  unfold Mach.reference
  rw [if_neg (by simp [hruns, hin, hrates, ht])]
  extract_lets _ taken
  have htaken : thetaAt taken.ang.rates t = none := hth
  rw [htaken]
  rfl

/-- A reference instant with a rate output at or after it is taken out of those that wait, whatever the lock state (R362, R366). -/
theorem Mach.reference_refsAfter {m : Mach} {t : Int} {p : RatePoint} {rest : List RatePoint} (hn : m.noClear)
    (hruns : m.angRuns = true) (hin : t ∈ m.ang.refs) (hrates : m.ang.rates = p :: rest) (ht : t ≤ p.t) :
    (m.refsAfter t).RefEdits (m.reference t) := by
  have hafter : (m.refsAfter t).RefEdits (m.refsAfter t) := .refl hn
  cases hth : thetaAt m.ang.rates t with
  | none => rwa [Mach.reference_unplaced hruns hin hrates ht hth]
  | some th =>
    rw [Mach.reference_taken hruns hin hrates ht hth]
    have hwindow := Mach.RefEdits.ite (c := 2 * (th - m.ang.accTheta) < oneRev) (hafter.keyExtra.sqBit 5)
      (.ite (c := 2 * (th - m.ang.accTheta) ≤ 3 * oneRev) (hafter.phaseLoop t th) hafter)
    cases m.ang.lock with
    | search => exact hafter.refSearch t th
    | holdover => exact hafter.phaseLoop t th
    | track => exact hwindow
    | lock => exact hwindow

/-! ### A miss of the reference, and a low rate (R357, R362) -/

theorem Mach.keyMiss_holdRevs {m : Mach} (hruns : m.angRuns = true) (hlock : m.ang.lock = .track ∨ m.ang.lock = .lock)
    (hfar : 3 * oneRev ≤ 2 * (m.ang.theta - m.ang.accTheta)) : m.keyMiss.ang.holdRevs = 0 := by
  unfold Mach.keyMiss
  rw [if_pos (by rcases hlock with e | e <;> simp [hruns, e, hfar])]
  extract_lets t _ left
  obtain ⟨states, h⟩ := left.setLock_ang_eq .holdover t
  rw [Mach.sqBit_ang, Mach.count_ang, h]

theorem Mach.spinLow_due {m : Mach} {since : Nat} (hruns : m.angRuns = true) (hlow : m.ang.lowSince = some since)
    (hdue : since * m.fld 0x140C 0 11 + 64 * second ≤ m.ts * m.fld 0x140C 0 11) : m.spinLow = m.enterSearch := by
  unfold Mach.spinLow
  rw [hlow]
  exact if_pos (by simp [hruns, hdue])

/-! ### O22 -/

/-- Settles O22: rate outputs by `Mach.angleRate_advances` and `Mach.angleRate_discards`, a reference instant by
`Mach.reference_refsAfter`, a miss by `referenceInstants` and `Mach.keyMiss_holdRevs`, a low rate by `Mach.enterSearch_ang`. -/
theorem angleRateOutputs : Obligations.AngleRateOutputs := by
  refine ⟨fun s inputs hruns hrun hdue => ⟨fun hd hlock hrev hparts hlim => ?_, fun hd => ?_⟩,
    fun s hc hn hruns => ⟨fun instant p rest hin hrates ht => ?_, fun hlock hfar => ?_, fun since hlow hdue => ?_⟩⟩
  · have hrow := Mach.angleRate_advances inputs hruns hrun hdue hd hlock hrev hparts hlim
    exact ⟨⟨_, s.pending⟩, congrArg (goOn s) hrow, rfl, rfl, rfl, rfl, rfl, rfl, s.m.changesOnly_ang _⟩
  · have hrow := Mach.angleRate_discards inputs hruns hrun hdue hd
    exact ⟨⟨_, s.pending⟩, congrArg (goOn s) hrow, rfl, rfl, rfl, rfl, s.m.changesOnly_ang _⟩
  · obtain ⟨hstate, hedits⟩ := Mach.reference_refsAfter hn hruns hin hrates ht
    have hafter : s.m.Edits (s.m.refsAfter instant) [.regs, .ang] [0x1418, 0x141C, 0x1428, 0x1430] :=
      (Mach.Edits.refl hn).ang _ rfl
    have hk := hafter.trans hedits rfl rfl
    exact ⟨⟨_, s.pending⟩, rfl, rfl, congrArg Prod.fst hstate, congrArg Prod.snd hstate, hk.within.1, hk.keepsRegs⟩
  · obtain ⟨hrows, -⟩ := referenceInstants
    obtain ⟨-, -, hmiss, -⟩ := hrows s hc hruns hn
    obtain ⟨t, hrow, hpend, hhold, -, -, -, -, hparts, hregs⟩ := hmiss hlock hfar
    obtain rfl := Host.Outcome.next.inj hrow
    exact ⟨_, hrow, hpend, hhold, Mach.keyMiss_holdRevs hruns hlock hfar, hparts, hregs⟩
  · obtain ⟨hsearch, -, hnone, -⟩ := s.m.enterSearch_ang
    have hk := (Mach.Edits.refl hn).enterSearch (ps := [.regs, .ang]) (as := [0x1428]) (by simp) rfl
    exact ⟨⟨_, s.pending⟩, congrArg (goOn s) (Mach.spinLow_due hruns hlow hdue), rfl, hsearch, hnone, hk.within.1, hk.keepsRegs⟩

end Sys2Proof.Machine
end

section
/-! SUPPORT. The aux channels and their wire-break checks (R399 to R402): a change of one channel, a check slot that ends, and the
burn-out current past it. -/

namespace Sys2Proof.Machine

/-! ### One channel changes -/

@[simp] theorem Mach.updChan_chan_self {m : Mach} {n : Nat} (f : AuxChan → AuxChan) (h : n < m.aux.chans.length) :
    (m.updChan n f).chan n = f (m.chan n) :=
  (listUpd_getD ..).trans (if_pos ⟨rfl, h⟩)

@[simp] theorem Mach.updChan_chan_ne (m : Mach) {n k : Nat} (f : AuxChan → AuxChan) (h : k ≠ n) : (m.updChan n f).chan k = m.chan k :=
  (listUpd_getD ..).trans (if_neg fun hk => h hk.1)

theorem Mach.chan_congr {m n : Mach} (h : n.aux = m.aux) (k : Nat) : n.chan k = m.chan k := by rw [Mach.chan, h, Mach.chan]

theorem Mach.updChan_changesOnly (m : Mach) (n : Nat) (f : AuxChan → AuxChan) : m.changesOnly (m.updChan n f) [.aux] :=
  (Mach.updChan_within m n f (m.within_refl _) rfl).1

theorem Mach.Edits.updChan {m n : Mach} {ps : List Part} {as : List Nat} (h : m.Edits n ps as) (k : Nat) (f : AuxChan → AuxChan)
    (hp : ps.contains .aux = true) : m.Edits (n.updChan k f) ps as :=
  h.aux _ (listUpd_length ..) hp

/-! ### Wire break (R399 to R402) -/

/-- A check slot that has ended is read once (R400, R402). -/
theorem Mach.checkSlot_due {m : Mach} {n j : Nat} (hon : m.on 2 = true) (hact : m.auxActive n = true)
    (hbo : bitsAt (m.chan n).cfg.bo 24 2 = 2) (hframe : (m.chan n).checkFrame = some j) (hdue : (m.chan n).checkDue = true)
    (hend : slotStart j (n % 4) + 16768 ≤ m.ts) :
    m.checkSlot n = m.updChan n (fun c => { c with checkBroken := c.tripped, checkDue := false }) := by
  simp [Mach.checkSlot, hframe, hon, hact, hdue, hbo, hend]

/-- In check mode no current flows past the check slot (R400). -/
theorem Mach.burnCurrent_pastCheck {m : Mach} {n j : Nat} (hbo : bitsAt (m.chan n).cfg.bo 24 2 = 2)
    (hframe : (m.chan n).checkFrame = some j) (hpast : slotStart j (n % 4) + 16768 < m.ts) : m.burnCurrent n = 0 := by
  simp [Mach.burnCurrent, hbo, hframe, hpast]

theorem Mach.breakComparator_trips {m : Mach} {uv : Int} {ticks : Nat} (n : Nat) (hon : m.on 2 = true) (huv : 2400000 ≤ uv)
    (ht : microsUp 2 ≤ ticks) : m.breakComparator n uv ticks = m.updChan n (fun c => { c with tripped := true }) := by
  simp [Mach.breakComparator, hon, huv, ht]

theorem Mach.breakComparator_releases {m : Mach} {uv : Int} (n ticks : Nat) (hon : m.on 2 = true) (huv : uv < 2400000) :
    m.breakComparator n uv ticks =
      m.updChan n (fun c => { c with tripped := false, releasedAt := if c.tripped then m.ts else c.releasedAt }) := by
  simp [Mach.breakComparator, hon, huv]

/-- Settles O29: the slot's end by `Mach.checkSlot_due` and `Mach.burnCurrent_pastCheck`, the comparator by
`Mach.breakComparator_trips` and `Mach.breakComparator_releases`. -/
theorem wireBreakChecks : Obligations.WireBreakChecks := by
  intro s n hlen hon
  have hn : n.val < s.m.aux.chans.length := by omega
  have hothers : ∀ f k, k ≠ n.val → (s.m.updChan n.val f).chan k = s.m.chan k := fun f k hk => s.m.updChan_chan_ne f hk
  refine ⟨fun j hact hbo hframe hdue hend => ?_, fun uv ticks huv ht => ?_, fun uv ticks huv => ?_⟩
  · have hrow := Mach.checkSlot_due hon hact hbo hframe hdue hend
    have hself := Mach.updChan_chan_self (fun c => { c with checkBroken := c.tripped, checkDue := false }) hn
    refine ⟨⟨_, s.pending⟩, congrArg (goOn s) hrow, rfl, hself, fun hpast => ?_, hothers _, s.m.updChan_changesOnly _ _⟩
    exact Mach.burnCurrent_pastCheck (by rw [hself]; exact hbo) (by rw [hself]; exact hframe) hpast
  · exact ⟨⟨_, s.pending⟩, congrArg (goOn s) (Mach.breakComparator_trips n.val hon huv ht), rfl, Mach.updChan_chan_self _ hn,
      hothers _, s.m.updChan_changesOnly _ _⟩
  · exact ⟨⟨_, s.pending⟩, congrArg (goOn s) (Mach.breakComparator_releases n.val ticks hon huv), rfl, Mach.updChan_chan_self _ hn,
      hothers _, s.m.updChan_changesOnly _ _⟩

end Sys2Proof.Machine
end

section
/-! SUPPORT. Excitation (R394 to R398): a change that applies at its frame, the channels that it marks, and a fault of VEXC. -/

namespace Sys2Proof.Machine

/-! ### A change applies (R394, R397) -/

/-- The block with `AUX_EXC` in force from frame start `f`, before the channels that use VEXC are marked (R394, R397). -/
def Mach.excBegun (m : Mach) (f : Nat) : Mach :=
  { m.excForce with aux := { m.excForce.aux with
    excChange := none
    skipFrom := if f ≤ m.aux.skipUntil then m.aux.skipFrom else f
    skipUntil := max (f + settleTicks (m.fld 0x1A00 0 10)) (if f ≤ m.aux.skipUntil then m.aux.skipUntil else 0) } }

/-- The first `k` channels marked, where they use VEXC: the first window from `u` on restarts its chain (R397). -/
def Mach.excMarks (m : Mach) (u k : Nat) : Mach :=
  (List.range k).foldl (fun m n => if m.auxExc n then m.updChan n (fun c => { c with excAt := some u }) else m) m

theorem Mach.excMarks_succ (m : Mach) (u k : Nat) : m.excMarks u (k + 1) =
    if (m.excMarks u k).auxExc k then (m.excMarks u k).updChan k (fun c => { c with excAt := some u }) else m.excMarks u k := by
  rw [Mach.excMarks, List.range_succ, List.foldl_append]
  rfl

theorem Mach.excApply_due {m : Mach} {f : Nat} (hf : m.aux.excChange = some f) (hdue : f ≤ m.ts) (hon : m.on 2 = true) :
    m.excApply = (m.excBegun f).excMarks (f + settleTicks (m.fld 0x1A00 0 10)) 8 := by
  unfold Mach.excApply
  rw [hf]
  exact if_neg (by simp [hon, hdue])

/-- Whether a channel uses VEXC is a matter of its configuration. -/
theorem Mach.auxExc_congr {m n : Mach} {k : Nat} (h : n.chan k = m.chan k) : n.auxExc k = m.auxExc k := by
  change ((n.chan k).cfg.active && bitAt (n.chan k).cfg.timing 12) = ((m.chan k).cfg.active && bitAt (m.chan k).cfg.timing 12)
  rw [h]

/-- The marks reach the channels that use VEXC alone, and leave the rest of the aux unit. -/
theorem Mach.excMarks_effect (m : Mach) (u k : Nat) :
    (∀ n, (m.excMarks u k).chan n = if n < k ∧ n < m.aux.chans.length ∧ m.auxExc n = true then { m.chan n with excAt := some u }
      else m.chan n) ∧
    (m.excMarks u k).aux = { m.aux with chans := (m.excMarks u k).aux.chans } ∧
    (m.excMarks u k).aux.chans.length = m.aux.chans.length ∧ m.changesOnly (m.excMarks u k) [.aux] := by
  induction k with
  | zero => exact ⟨fun n => by simp [Mach.excMarks], rfl, rfl, fun x _ => m.agrees_refl x⟩
  | succ k ih =>
    obtain ⟨hchan, haux, hlen, hparts⟩ := ih
    have hk : (m.excMarks u k).auxExc k = m.auxExc k := Mach.auxExc_congr (by rw [hchan, if_neg (by omega)])
    have hstill : ∀ n, n ≠ k → (n < k + 1 ↔ n < k) := by omega
    rw [Mach.excMarks_succ, hk]
    generalize m.excMarks u k = e at *
    split
    · next hx =>
      refine ⟨fun n => ?_, congrArg (fun a : Aux => { a with chans := listUpd e.aux.chans k (fun c => { c with excAt := some u }) }) haux,
        (length_listUpd ..).trans hlen, fun x hp => Mach.agrees_trans (hparts x hp) (e.updChan_changesOnly k _ x hp)⟩
      by_cases hn : n = k
      · subst hn
        by_cases hl : n < m.aux.chans.length
        · rw [Mach.updChan_chan_self _ (by omega), hchan, if_neg (by omega), if_pos ⟨by omega, hl, hx⟩]
        · rw [if_neg fun h => hl h.2.1, ← (hchan n).trans (if_neg fun h => hl h.2.1)]
          exact (listUpd_getD ..).trans (if_neg fun h => hl (by omega))
      · simp only [Mach.updChan_chan_ne e _ hn, hchan, hstill n hn]
    · next hx =>
      refine ⟨fun n => ?_, haux, hlen, hparts⟩
      by_cases hn : n = k
      · subst hn
        rw [hchan, if_neg (by omega), if_neg fun h => hx h.2.2]
      · simp only [hchan, hstill n hn]

/-! ### A fault, and pulses (R395, R398) -/

/-- The aux unit as a load current above its limit has switched VEXC off (R398). -/
def Aux.excFaulted (a : Aux) : Aux := { a with vexc := false, excFault := true }

theorem Mach.excFaultAt_due {m : Mach} {ticks : Nat} (hon : m.on 2 = true) (hv : m.aux.vexc = true) (ht : second < 1000 * ticks) :
    m.excFaultAt ticks = ({ m with aux := m.aux.excFaulted } : Mach).sqBit 0x1A08 21 := by
  unfold Mach.excFaultAt
  exact if_pos (by simp [hon, hv, ht])

theorem Mach.pulsedVexc_due {m : Mach} {want : Bool} (hon : m.on 2 = true) (hmode : m.aux.excMode = 2) (hfault : m.aux.excFault = false)
    (hw : m.excWanted = want) : m.pulsedVexc want = { m with aux := { m.aux with vexc := want } } := by
  simp [Mach.pulsedVexc, hon, hmode, hfault, hw]

theorem Mach.changesOnly_aux (m : Mach) (a : Aux) : m.changesOnly { m with aux := a } [.aux] := by
  intro x hx
  cases x
  case aux => exact absurd (List.mem_singleton_self _) hx
  all_goals rfl

/-- Settles O30: a change by `Mach.excApply_due` and `Mach.excMarks_effect`, a fault by `Mach.excFaultAt_due`, pulses by
`Mach.pulsedVexc_due`. -/
theorem excitationChanges : Obligations.ExcitationChanges := by
  intro s hc hon
  refine ⟨fun f hf hdue => ?_, fun ticks hn hv ht => ?_, fun want hmode hfault hw => ?_⟩
  · have hrow := Mach.excApply_due hf hdue hon
    obtain ⟨hchan, haux, -, hparts⟩ := (s.m.excBegun f).excMarks_effect (f + settleTicks (s.m.fld 0x1A00 0 10)) 8
    generalize (s.m.excBegun f).excMarks (f + settleTicks (s.m.fld 0x1A00 0 10)) 8 = t at *
    refine ⟨⟨t, s.pending⟩, congrArg (goOn s) hrow, rfl, by rw [haux]; rfl, by rw [haux]; rfl, by rw [haux]; rfl, by rw [haux]; rfl,
      by rw [haux]; rfl, fun h => ?_, fun h => ?_, fun h => ?_, fun h => ?_, fun n h8 hl hx => ?_, fun n hx => ?_, by rw [haux]; rfl,
      by rw [haux]; rfl, fun x hx => Mach.agrees_trans (s.m.changesOnly_aux _ x hx) (hparts x hx)⟩
    · rw [haux]
      exact ⟨if_neg (Nat.not_le.mpr h), (congrArg (max _) (if_neg (Nat.not_le.mpr h))).trans (Nat.max_zero _)⟩
    · rw [haux]
      exact ⟨if_pos h, congrArg (max _) (if_pos h)⟩
    · rw [haux]
      exact (if_neg (by omega)).trans (if_pos h)
    · rw [haux]
      exact if_pos h
    · exact (hchan n).trans (if_pos ⟨h8, hl, hx⟩)
    · exact (hchan n).trans (if_neg fun h => Bool.false_ne_true (hx.symm.trans h.2.2))
  · have hoff : s.m.Edits { s.m with aux := s.m.aux.excFaulted } [.regs, .aux] [0x1A08] := (Mach.Edits.refl hn).aux _ rfl rfl
    have hshown := hoff.sqEvent (a := 0x1A08) (bitMask 21) (by simp) rfl
    exact ⟨⟨_, s.pending⟩, congrArg (goOn s) (Mach.excFaultAt_due hon hv ht), rfl,
      (Mach.sqEvent_within _ 0x1A08 _ (Mach.within_refl _ [.regs]) rfl).1 .aux (by simp),
      Mach.sqBit_sets (a := 0x1A08) (hoff.canonical hc) (by omega) hon, hshown.within.1, hshown.keepsRegs⟩
  · exact ⟨⟨_, s.pending⟩, congrArg (goOn s) (Mach.pulsedVexc_due hon hmode hfault hw), rfl, rfl, s.m.changesOnly_aux _⟩

end Sys2Proof.Machine
end

section
/-! SUPPORT. A conversion that is made (R387 to R426): its code, what it leaves in the channel and its registers, and how it enters the
channel's chain. -/

namespace Sys2Proof.Machine

/-! ### The conversion enters the filter chain (R316, R321, R323, R344) -/

/-- The restart of a conversion's chain where it asks for one, and the conversion's input (R316, R321). -/
def Mach.auxEnters (m : Mach) (g t : Nat) (start kept : Bool) (v : Int) (clp : Bool) : Mach :=
  (if start then m.startSource g t else if kept then m.restartKept g t else m).feedAux g t v clp

namespace Mach.Edits

variable {m n : Mach} {ps : List Part} {as : List Nat} {g : Nat}

theorem castleNow (h : m.Edits n ps as) (hq : 0x10C0 ∈ as) (ha : fltBase g + 12 ∈ as)
    (hp : [Part.regs, Part.flt].all ps.contains = true) : m.Edits (n.castleNow g) ps as :=
  ((h.updGrp g _ (by simp_all)).setFld _ _ _ hq (by simp_all)).fltEvent 23 ha hp

theorem firLeaves (h : m.Edits n ps as) (hq : 0x10C0 ∈ as) (ha : fltBase g + 12 ∈ as)
    (hp : [Part.regs, Part.flt].all ps.contains = true) : m.Edits (n.firLeaves g) ps as := by
  have hf : ps.contains .flt = true := by simp_all
  unfold Mach.firLeaves
  extract_lets left ended
  have hleft : m.Edits left ps as := h.updGrp g _ hf
  have hended : m.Edits ended ps as := ite ((hleft.updGrp g _ hf).fltEvent 23 ha hp) hleft
  exact ite (hended.castleNow hq ha hp) hended

theorem feedAux (h : m.Edits n ps as) (t : Nat) (v : Int) (clp : Bool) (hq : 0x10C0 ∈ as) (ha : fltBase g + 12 ∈ as)
    (hp : [Part.regs, Part.flt].all ps.contains = true) : m.Edits (n.feedAux g t v clp) ps as :=
  (ite (h.firLeaves hq ha hp) h).updGrp g _ (by simp_all)

theorem auxEnters (h : m.Edits n ps as) (t : Nat) (start kept : Bool) (v : Int) (clp : Bool) (hq : 0x10C0 ∈ as)
    (ha : fltBase g + 12 ∈ as) (hp : [Part.regs, Part.flt].all ps.contains = true) : m.Edits (n.auxEnters g t start kept v clp) ps as :=
  (ite (h.startSource t (fun _ => ha) hp) (ite (h.restartKept g t ha hp) h)).feedAux t v clp hq ha hp

end Mach.Edits

/-! ### The code (R392, R393, R413) -/

/-- The code of a ratiometric input, limited (R393). -/
theorem Mach.rawCode_ratio (m : Mach) (gain vin : Int) {vref : Int} (h : vref ≠ 0) :
    m.rawCode gain vin vref = ((limit24 (divRound ((2 ^ 23 : Nat) * gain * vin * vref.sign) vref.natAbs)).1,
      (limit24 (divRound ((2 ^ 23 : Nat) * gain * vin * vref.sign) vref.natAbs)).2, m) := by
  unfold Mach.rawCode
  exact if_neg h

/-- Without a curve a ratiometric conversion delivers its code (R413). -/
theorem Mach.linearise_code {m : Mach} {n : Nat} (j : Nat) (c : Int) (g : Nat) (hcomp : m.isComp n = false)
    (hin : bitsAt (m.auxCfg n).cfg 10 2 ≠ 0) (hcurve : bitsAt (m.auxCfg n).cfg 16 6 = 0) :
    m.linearise n j c g = (⟨c, false, false, false⟩, m) := by
  simp [Mach.linearise, hcomp, hin, hcurve]

theorem Mach.isBroken_unchecked {m : Mach} {n : Nat} (w : Nat) (h : bitsAt (m.chan n).cfg.bo 24 2 = 0) : m.isBroken n w = false := by
  simp [Mach.isBroken, h]

theorem Mach.leadSample_idle {m : Mach} (n : Nat) (x : Rat) (flagged : Bool) (h : m.aux.lcal = none) : m.leadSample n x flagged = m := by
  simp [Mach.leadSample, h]

theorem Mach.sqEvent_zero (m : Mach) (a : Nat) : m.sqEvent a 0 = m := by
  simp [Mach.sqEvent]

/-! ### The conversion made (R387, R413, R415) -/

/-- The registers of channel `n` show a conversion's code and value (R415, R428). -/
def Mach.auxShown (m : Mach) (n : Nat) (v : Int) (clp : Bool) : Mach :=
  (m.setReg (auxBase n + 0x28) (wordOfInt v)).setReg (auxBase n + 0x24) (sampleWord v false clp false (10 + n))

theorem Mach.auxShown_regs {m : Mach} (n : Nat) (v : Int) (clp : Bool) (hc : m.canonical = true) :
    (m.auxShown n v clp).reg (auxBase n + 0x28) = wordOfInt v ∧
      (m.auxShown n v clp).reg (auxBase n + 0x24) = sampleWord v false clp false (10 + n) := by
  refine ⟨?_, Mach.reg_setReg_self _ _ _ (Mach.setReg_canonical _ _ hc)⟩
  rw [Mach.auxShown, Mach.reg_setReg_ne _ _ (by omega), Mach.reg_setReg_self m _ _ hc]

theorem Mach.Edits.auxShown {m n : Mach} {ps : List Part} {as : List Nat} (h : m.Edits n ps as) {k : Nat} (v : Int) (clp : Bool)
    (h24 : auxBase k + 0x24 ∈ as) (h28 : auxBase k + 0x28 ∈ as) (hp : [Part.regs].all ps.contains = true) :
    m.Edits (n.auxShown k v clp) ps as :=
  (h.setReg _ h28 hp).setReg _ h24 hp

theorem Mach.updChan_updChan (m : Mach) (n : Nat) (f g : AuxChan → AuxChan) :
    (m.updChan n f).updChan n g = m.updChan n (fun c => g (f c)) := by
  simp only [Mach.updChan, listUpd_listUpd]

/-- A change that a conversion of code `v` makes of its channel, past the instant that the channel has noted (R387, R393). -/
def AuxChan.Takes (f : AuxChan → AuxChan) (v : Int) : Prop := ∀ c, (f c).latestAt = c.latestAt ∧ (f c).code = v

theorem AuxChan.countCheck_latestAt (c : AuxChan) (j : Nat) : (c.countCheck j).latestAt = c.latestAt := by
  unfold AuxChan.countCheck
  split <;> rfl

/-- Channel `n` converts the ratiometric input without a curve, and nothing flags what it makes: no VEXC, no wire-break check, and no
lead calibration runs (R392, R399, R412, R413). -/
structure Mach.PlainRatio (m : Mach) (n : Nat) : Prop where
  alone : m.isComp n = false
  exc : m.auxExc n = false
  unchecked : bitsAt (m.auxCfg n).bo 24 2 = 0
  input : bitsAt (m.auxCfg n).cfg 10 2 ≠ 0
  curve : bitsAt (m.auxCfg n).cfg 16 6 = 0
  lcal : m.aux.lcal = none

/-- Such a conversion is shown, the channel takes it, and it enters the chain. -/
theorem Mach.makeConversion_ratio {m : Mach} {n : Nat} (j t w : Nat) {i : AuxInput} {v : Int} {clp : Bool} (hon : m.on 3 = true)
    (hplain : m.PlainRatio n)
    (hcode : m.rawCode ((2 ^ bitsAt (m.auxCfg n).cfg 4 3 : Nat) : Int) i.vin i.vref = (v, clp, m)) :
    ∃ f start kept, AuxChan.Takes f v ∧
      m.makeConversion n j t w i = ((m.auxShown n v clp).updChan n f).auxEnters (4 + n) t start kept v clp := by
  obtain ⟨hcomp, hexc, hbo, hin, hcurve, hl⟩ := hplain
  unfold Mach.makeConversion
  extract_lets cfg g internal
  have hint : internal = false := by simp [internal, cfg, hin]
  rw [hint, if_neg Bool.false_ne_true, hcode]
  dsimp -zeta only
  extract_lets noExc broken flagged stored shown first event counted sampled temp start kept taken freed restarted
  have hb : broken = false := Mach.isBroken_unchecked w hbo
  have hlin : (if broken = true then (⟨2 ^ 23 - 1, true, false, false⟩, m) else m.linearise n j v g) =
      ((⟨v, false, false, false⟩, m) : AuxOut × Mach) :=
    (if_neg (by simp [hb])).trans (Mach.linearise_code j v g hcomp hin hcurve)
  have hflag : flagged = clp := by simp only [flagged, noExc, hlin, hexc, Bool.false_and, Bool.or_false, Bool.false_or]
  have hshown : shown = m.auxShown n v clp := by simp only [shown, stored, hlin, hflag, Mach.auxShown]
  have hfirst : first = false := by simp only [first, hb, Bool.false_and]
  have hcounted : counted = shown := by
    simp only [counted, event, hfirst, hlin, Bool.false_eq_true, if_false]
    exact shown.sqEvent_zero _
  have hsampled : sampled = m.auxShown n v clp := by
    simp only [sampled, hcounted, hshown]
    exact Mach.leadSample_idle n _ _ hl
  have hruns : taken.on 3 = true := by simp only [taken, hsampled]; exact hon
  obtain ⟨f, hf, hfreed⟩ : ∃ f, AuxChan.Takes f v ∧ freed = sampled.updChan n f := by
    refine ⟨_, ?_, Mach.updChan_updChan sampled n _ _⟩
    exact fun c => ⟨c.countCheck_latestAt j, rfl⟩
  refine ⟨f, start, kept, hf, ?_⟩
  rw [if_neg (by simp [hruns]), hlin, hflag, ← hsampled, ← hfreed]
  rfl

/-- A conversion entering its chain leaves the channels and their registers. -/
theorem Mach.auxEnters_keeps {m : Mach} {n : Nat} (t : Nat) (start kept : Bool) (v : Int) (clp : Bool) (hn : m.noClear) :
    (m.auxEnters (4 + n) t start kept v clp).aux = m.aux ∧
      ∀ k, (m.auxEnters (4 + n) t start kept v clp).reg (auxBase n + k) = m.reg (auxBase n + k) := by
  have h := (Mach.Edits.refl (ps := [.regs, .flt]) (as := [fltBase (4 + n) + 12, 0x10C0]) hn).auxEnters (g := 4 + n) t start kept v clp
    (by simp) (by simp) rfl
  exact ⟨h.agrees (x := .aux) rfl, fun k => h.keepsRegs _ (by simp [fltBase, auxBase]; omega)⟩

/-- What such a conversion leaves: its registers, its code in the channel, every other channel as it was. -/
theorem Mach.makeConversion_effect {m : Mach} {n : Nat} (j t w : Nat) {i : AuxInput} {v : Int} {clp : Bool} (hc : m.canonical = true)
    (hn : m.noClear) (hlt : n < m.aux.chans.length) (hon : m.on 3 = true) (hplain : m.PlainRatio n)
    (hcode : m.rawCode ((2 ^ bitsAt (m.auxCfg n).cfg 4 3 : Nat) : Int) i.vin i.vref = (v, clp, m)) {r : Mach}
    (hr : m.makeConversion n j t w i = r) :
    r.reg (auxBase n + 0x28) = wordOfInt v ∧ r.reg (auxBase n + 0x24) = sampleWord v false clp false (10 + n) ∧
      (r.chan n).latestAt = (m.chan n).latestAt ∧ (r.chan n).code = v ∧ (∀ k, k ≠ n → r.chan k = m.chan k) ∧
      m.Edits r [.regs, .flt, .aux] [auxBase n + 0x24, auxBase n + 0x28, fltBase (4 + n) + 12, 0x10C0] := by
  obtain ⟨f, start, kept, hf, hmake⟩ := Mach.makeConversion_ratio j t w hon hplain hcode
  obtain rfl := hmake.symm.trans hr
  have hshown := ((Mach.Edits.refl (ps := [.regs, .flt, .aux])
    (as := [auxBase n + 0x24, auxBase n + 0x28, fltBase (4 + n) + 12, 0x10C0]) hn).auxShown (k := n) v clp (by simp) (by simp) rfl).updChan
      n f rfl
  obtain ⟨haux, hregs⟩ := Mach.auxEnters_keeps (n := n) t start kept v clp hshown.noClear
  obtain ⟨h28, h24⟩ := Mach.auxShown_regs n v clp hc
  have hself : ((m.auxShown n v clp).updChan n f).chan n = f (m.chan n) := Mach.updChan_chan_self (m := m.auxShown n v clp) f hlt
  obtain ⟨hat, hcodeIs⟩ := hf (m.chan n)
  simp only [Mach.chan_congr haux, hregs, hself]
  exact ⟨h28, h24, hat, hcodeIs, fun k hk => Mach.updChan_chan_ne _ _ hk,
    hshown.auxEnters t start kept v clp (by simp) (by simp) rfl⟩

/-! ### The row -/

/-- The block once a conversion's instant has come (R387). -/
def Mach.auxReached (m : Mach) (n t : Nat) : Mach := m.updChan n (fun c => { c with latestAt := t })

theorem Mach.updChan_latestAt (m : Mach) (n t : Nat) : m.updChan n (fun c => { c with latestAt := t }) = m.auxReached n t := rfl

/-- The configuration in force stays. -/
theorem Mach.auxReached_auxCfg (m : Mach) {n : Nat} (t : Nat) (hn : n < m.aux.chans.length) :
    (m.auxReached n t).auxCfg n = m.auxCfg n :=
  (congrArg AuxChan.cfg (Mach.updChan_chan_self (fun c => { c with latestAt := t }) hn) :)

theorem Mach.PlainRatio.auxReached {m : Mach} {n : Nat} (h : m.PlainRatio n) (t : Nat) (hn : n < m.aux.chans.length) :
    (m.auxReached n t).PlainRatio n := by
  have hcfg := m.auxReached_auxCfg t hn
  obtain ⟨hcomp, hexc, hbo, hin, hcurve, hl⟩ := h
  exact ⟨by rw [Mach.isComp, hcfg]; exact hcomp, by rw [Mach.auxExc, Mach.auxActive, hcfg]; exact hexc, by rwa [hcfg], by rwa [hcfg],
    by rwa [hcfg], hl⟩

/-- A conversion is due: its slot is in use, its instant has come, and it has not been made (R387, R390). Where no VEXC, no DAMPER and
no wire-break check stands in its way, it is made (R397, R400, R418). -/
theorem Mach.auxConversion_due {m : Mach} {n j : Nat} (i : AuxInput) (hn : n < m.aux.chans.length) (hon : m.on 2 = true)
    (hts : 33152 ≤ m.ts) (hj : j = lastFrame (n % 4) (m.ts - 33152) - lastFrame (n % 4) (m.ts - 33152) % m.auxDivisor n)
    (hch : (m.chan n).changes = []) (hact : m.auxActive n = true) (hdue : m.convInstant n j ≤ m.ts)
    (hnew : (m.chan n).latestAt < m.convInstant n j)
    (hslot : ((m.clk.d2Since + millisUp 2 : Nat) : Int) ≤ m.slotNow (slotStart j (n % 4))) (hplain : m.PlainRatio n)
    (hspans : m.aux.spans = []) :
    m.auxConversion n i = (m.auxReached n (m.convInstant n j)).makeConversion n j (m.convInstant n j)
      (slotStart j (n % 4) + 384) i := by
  have hadopt : m.auxAdopt n (slotStart (lastFrame (n % 4) (m.ts - 33152)) (n % 4)) = m := by simp [Mach.auxAdopt, hch]
  have hwait : (!m.auxActive n || decide (m.ts < m.convInstant n j) || decide (m.convInstant n j ≤ (m.chan n).latestAt) ||
      decide (m.slotNow (slotStart j (n % 4)) < ((m.clk.d2Since + millisUp 2 : Nat) : Int))) = false := by
    simp only [hact, Nat.not_lt.mpr hdue, Nat.not_le.mpr hnew, Int.not_lt.mpr hslot]
    rfl
  obtain ⟨-, hexc, hbo, -, -, -⟩ := hplain.auxReached (m.convInstant n j) hn
  have hcheck : (m.auxReached n (m.convInstant n j)).inCheck n j = false := by
    simp [Mach.inCheck, show bitsAt ((m.auxReached n (m.convInstant n j)).chan n).cfg.bo 24 2 = 0 from hbo]
  have hfree : (m.auxReached n (m.convInstant n j)).aux.spans = [] := hspans
  simp only [Mach.auxConversion, hadopt, ← hj, hwait, hon, Nat.not_lt.mpr hts, decide_false, Bool.not_true, Bool.or_self,
    Bool.false_eq_true, if_false, Mach.updChan_latestAt, hcheck, hexc, Bool.false_and, Mach.damperDiscards, Mach.damperBlocks, hfree,
    List.any_nil]

/-- Settles O28: the row by `Mach.auxConversion_due`, the conversion by `Mach.makeConversion_effect`. -/
theorem auxConversions : Obligations.AuxConversions := by
  intro s n i j hc hlen _ hon2 hon3 hts hj hch hn hact hcomp hdue hnew hslot hexc hspans hbo hin hcurve hvref hl
  have hlt : n.val < s.m.aux.chans.length := by omega
  have hplain : s.m.PlainRatio n := ⟨hcomp, hexc, hbo, hin, hcurve, hl⟩
  have hrow := Mach.auxConversion_due i hlt hon2 hts hj hch hact hdue hnew hslot hplain hspans
  generalize s.m.convInstant n j = t at *
  have hreached : s.m.Edits (s.m.auxReached n t) [.regs, .flt, .aux]
      [auxBase n.val + 0x24, auxBase n.val + 0x28, fltBase (4 + n.val) + 12, 0x10C0] := (Mach.Edits.refl hn).updChan _ _ rfl
  have hself : (s.m.auxReached n t).chan n = { s.m.chan n with latestAt := t } := Mach.updChan_chan_self _ hlt
  have hcode := (s.m.auxReached n t).rawCode_ratio (2 ^ bitsAt (s.m.auxCfg n).cfg 4 3 : Nat) i.vin hvref
  rw [← s.m.auxReached_auxCfg t hlt] at hcode ⊢
  obtain ⟨h28, h24, hat, hcodeIs, hothers, hedits⟩ := Mach.makeConversion_effect j t (slotStart j (n.val % 4) + 384)
    (hreached.canonical hc) hreached.noClear (hlt.trans_eq (length_listUpd ..).symm) hon3 (hplain.auxReached t hlt) hcode rfl
  have hall := hreached.trans hedits rfl (by simp)
  exact ⟨⟨_, s.pending⟩, _, _, congrArg (goOn s) hrow, rfl, rfl, h28, h24, hat.trans (congrArg AuxChan.latestAt hself), hcodeIs,
    fun k hk => (hothers k hk).trans (s.m.updChan_chan_ne _ hk), hall.within.1, hall.keepsRegs⟩

end Sys2Proof.Machine
end

section
/-! SUPPORT. A line that waits for BUSY while a lead calibration's write is in flight (R121, R412). -/

namespace Sys2Proof.Machine

/-- The line `set aux.1.leadr 1` as it waits for BUSY. -/
def leadLine : Executing := ⟨.persist, [.field (auxBase 1 + 0x1C) 0xFFFFFFFF 0x10000 (ascii "aux.1.leadr") 17], [], [], false⟩

/-- Reset with the write of channel 0's lead calibration in flight and that line at port A. -/
def calWaiting : Mach :=
  { Mach.reset with
    aux := { Mach.reset.aux with lcal := some ⟨0, 0, 16, 0, true⟩ }
    nv := { Mach.reset.nv with write := some ⟨auxBase 0 + 0x1C, 0x40000, 0, none⟩ }
    pa := { Mach.reset.pa with executing := some leadLine } }

/-- Canonical memories are kept from reset: what differs stands outside them. -/
theorem calWaiting_canonical : calWaiting.canonical = true := Mach.reset_canonical

/-- As the calibration's write ends, the line goes on, and its own write is in flight. -/
theorem calWaiting_resumes : (((calWaiting.persistDone .good).resumeWrites .a).resumeWrites .b).nv.write =
    some ⟨auxBase 1 + 0x1C, 0, 0x10000, some .a⟩ := by decide +kernel

/-- Refutes O31, by its clause on the end of the write: it has no write in flight after PERSIST_WRITE_DONE, where a line that waited for
BUSY goes on in the same row and posts its own (R121). -/
theorem not_leadCalibrations : ¬ Obligations.LeadCalibrations := by
  intro h
  obtain ⟨-, hcal⟩ := h ⟨calWaiting, []⟩ calWaiting_canonical (by decide) (List.forall_mem_nil _)
  obtain ⟨-, hend, -⟩ := hcal ⟨0, 0, 16, 0, true⟩ rfl (by decide)
  obtain ⟨t, ht, -, -, -, -, -, hidle⟩ := hend _ rfl rfl rfl
  obtain rfl := Host.Outcome.next.inj ht
  exact Option.some_ne_none _ (calWaiting_resumes.symm.trans hidle)

end Sys2Proof.Machine
end

section
/-! SUPPORT. The turn of a machine (R457, R461 to R464, R467): an instruction fetched, its effect on its machine, and the row that it
gives. -/

namespace Sys2Proof.Machine

/-! ### The turn (R457, R467) -/

/-- The block as machine `n` has taken its turn and its program counter stands behind the instruction it executes. -/
def Mach.fetched (m : Mach) (n : Nat) : Mach :=
  { m with evt := { m.evt with turnAt := some m.clk.now } }.updSm n fun s =>
    { s with pc := ((m.sm n).pc + 1) % 1024, streak := (m.sm n).streak + 1 }

theorem Mach.fetched_sm_self {m : Mach} {n : Nat} (hn : n < m.evt.machines.length) : (m.fetched n).sm n = m.smPast n :=
  updSm_sm_self (m := { m with evt := { m.evt with turnAt := some m.clk.now } }) _ hn

theorem Mach.fetched_sm_ne (m : Mach) {n j : Nat} (h : j ≠ n) : (m.fetched n).sm j = m.sm j :=
  Mach.updSm_sm_ne { m with evt := { m.evt with turnAt := some m.clk.now } } _ h

theorem Mach.fetched_changesOnly (m : Mach) (n : Nat) : m.changesOnly (m.fetched n) [.evt] := fun x hx => by
  cases x <;> first | rfl | exact absurd (List.mem_singleton_self _) hx

/-- A machine in RUN at its turn executes its instruction: no fault comes before its effect, nor after it (R467). -/
theorem Mach.smTurn_next {m : Mach} {n : Nat} {w : Word} (h : m.smNext n w)
    (hcode : smOp w = 7 → 0x1000 ≤ bitsAt w 0 16 ∧ bitsAt w 0 16 ≤ 0x7FFF) :
    m.smTurn n (smOp w) = (m.fetched n).smEffect n w := by
  obtain ⟨-, hon, htest, hrun, hword, hfields, hstreak, -, hserved⟩ := h
  have hemit : (smOp w = 7 && (decide (bitsAt w 0 16 < 0x1000) || decide (0x7FFF < bitsAt w 0 16))) = false := by
    by_cases h7 : smOp w = 7
    · obtain ⟨hlow, hhigh⟩ := hcode h7
      simp [Nat.not_lt.mpr hlow, Nat.not_lt.mpr hhigh]
    · simp [h7]
  have hlimit : ¬ 65536 ≤ (m.sm n).streak + 1 := by omega
  have hexec : ({ m with evt := { m.evt with turnAt := some m.clk.now } } : Mach).smExec n w = (m.fetched n).smEffect n w := by
    unfold Mach.smExec
    rw [hfields, hemit]
    change (if (decide (65536 ≤ (m.sm n).streak + 1) && _ && _) = true then _ else (m.fetched n).smEffect n w) = _
    simp only [hlimit, decide_false, Bool.false_and, Bool.false_eq_true, if_false]
  unfold Mach.smTurn
  rw [hword, hon, htest, hserved]
  simpa [hrun] using hexec

/-- The row of an instruction: its effect, where that asks for no wake (R472). -/
theorem smTurn_row {s : State} {n op : Nat} {w : Word} (h : s.m.smNext n w) (hop : smOp w = op)
    (hcode : smOp w = 7 → 0x1000 ≤ bitsAt w 0 16 ∧ bitsAt w 0 16 ≤ 0x7FFF)
    (hwake : ((s.m.fetched n).smEffect n w).evt.wakeReq = false) :
    goOn s (s.m.smTurn n op).eventWake = .next ⟨(s.m.fetched n).smEffect n w, s.pending⟩ := by
  rw [← hop, Mach.smTurn_next h hcode, Mach.eventWake_none hwake]
  rfl

theorem Mach.fetched_wakeReq {m : Mach} {n : Nat} {w : Word} (h : m.smNext n w) : (m.fetched n).evt.wakeReq = false := by
  obtain ⟨-, -, -, -, -, -, -, hwake, -⟩ := h
  exact hwake

/-- An effect that leaves the event engine alone leaves the machine past its instruction. -/
theorem Mach.smBecame_past {m k : Mach} {n : Nat} (hn : n < m.evt.machines.length) (h : k.evt = (m.fetched n).evt) :
    m.smBecame k n (m.smPast n) := by
  have hsm (j : Nat) : k.sm j = (m.fetched n).sm j := congrArg (fun e : Events => e.machines.getD j Sm.fresh) h
  exact ⟨(hsm n).trans (Mach.fetched_sm_self hn), fun j hj => (hsm j).trans (m.fetched_sm_ne hj), by rw [h]; rfl⟩

/-- An effect on the machine alone. -/
theorem Mach.smBecame_updSm {m : Mach} {n : Nat} (f : Sm → Sm) (hn : n < m.evt.machines.length) :
    m.smBecame ((m.fetched n).updSm n f) n (f (m.smPast n)) := by
  have hlen : n < (m.fetched n).evt.machines.length := by
    rwa [show (m.fetched n).evt.machines.length = m.evt.machines.length from listUpd_length ..]
  exact ⟨(updSm_sm_self f hlen).trans (congrArg f (Mach.fetched_sm_self hn)),
    fun j hj => (Mach.updSm_sm_ne _ f hj).trans (m.fetched_sm_ne hj), rfl⟩

/-- The row of an instruction whose effect is on its machine alone. -/
theorem smTurn_machine {s : State} {n op : Nat} {w : Word} {x : Sm} {f : Sm → Sm} (h : s.m.smNext n w) (hop : smOp w = op)
    (hne : op ≠ 7) (heffect : (s.m.fetched n).smEffect n w = (s.m.fetched n).updSm n f) (hx : f (s.m.smPast n) = x) :
    ∃ t, goOn s (s.m.smTurn n op).eventWake = .next t ∧ t.pending = s.pending ∧ s.m.smBecame t.m n x ∧ s.m.changesOnly t.m [.evt] := by
  have hwake : ((s.m.fetched n).smEffect n w).evt.wakeReq = false := by
    rw [heffect]
    exact Mach.fetched_wakeReq (m := s.m) h
  have hrow := smTurn_row h hop (fun h7 => absurd (hop.symm.trans h7) hne) hwake
  rw [heffect] at hrow
  obtain ⟨hn, -⟩ := h
  exact ⟨_, hrow, rfl, hx ▸ Mach.smBecame_updSm f hn,
    fun x hx => Mach.agrees_trans (s.m.fetched_changesOnly n x hx) (Mach.updSm_changesOnly _ n f x hx)⟩

/-! ### What the instructions make of their machine (R461 to R464) -/

/-- What CNT makes of a counter that stands at `v`: loaded, or incremented or decremented within its limits (R461). -/
def counted (w : Word) (v : Nat) : Nat :=
  if bitsAt w 24 2 = 0 then bitsAt w 0 16 else if bitsAt w 24 2 = 1 then min 65535 (v + 1) else v - 1

theorem Sm.cntOp_eq (s : Sm) (w : Word) {v : Nat} (hv : v = if bitAt w 26 then s.cnt1 else s.cnt0) :
    s.cntOp w = if bitAt w 26 then { s with cnt1 := counted w v } else { s with cnt0 := counted w v } := by
  subst hv
  unfold Sm.cntOp counted
  generalize bitsAt w 24 2 = op
  obtain _ | _ | op := op <;> cases bitAt w 26 <;> simp

/-- A wait begins, or with the timer that it names expired ends at once (R464). -/
theorem Sm.beginWait_eq (s : Sm) (w : Word) (wait : SmWait) : s.beginWait w wait =
    if bitsAt w 12 2 ≠ 0 ∧ (s.timer (bitsAt w 12 2 = 2)).expired = true then
      { s with streak := 0, c := false, ref := (s.timer (bitsAt w 12 2 = 2)).expiry }
    else { s with streak := 0, run := .wait, wait := wait } := by
  unfold Sm.beginWait
  simp only [Bool.and_eq_true, decide_eq_true_eq]

@[simp] theorem Sm.setTimer_timer (s : Sm) (second : Bool) (t : SmTimer) : (s.setTimer second t).timer second = t := by
  cases second <;> rfl

/-- TIME, by its form: start, wait for expiry, stop, start and wait (R464). -/
theorem Sm.timeOp_eq (s : Sm) (w : Word) (ts : Nat) :
    (bitsAt w 24 2 = 0 → s.timeOp w ts = s.setTimer (bitAt w 26) ⟨true, false, ts + bitsAt w 0 24 * 1024, 0⟩) ∧
    (bitsAt w 24 2 = 1 → s.timeOp w ts =
      if (s.timer (bitAt w 26)).expired then { s with ref := (s.timer (bitAt w 26)).expiry, streak := 0 }
      else { s with run := .wait, wait := .time (bitAt w 26), streak := 0 }) ∧
    (bitsAt w 24 2 = 2 → s.timeOp w ts = s.setTimer (bitAt w 26) { s.timer (bitAt w 26) with running := false }) ∧
    (bitsAt w 24 2 = 3 → s.timeOp w ts =
      { s.setTimer (bitAt w 26) ⟨true, false, ts + bitsAt w 0 24 * 1024, 0⟩ with
        run := .wait, wait := .time (bitAt w 26), streak := 0 }) := by
  unfold Sm.timeOp
  refine ⟨fun h => ?_, fun h => ?_, fun h => ?_, fun h => ?_⟩ <;> simp only [h]

/-! ### The instructions -/

/-- The instructions whose effect is on their machine alone. -/
theorem Mach.smEffect_machine (m : Mach) (n : Nat) {w : Word} :
    (smOp w = 0 → m.smEffect n w = m.updSm n fun s => { s with run := .stopped, wait := .idle }) ∧
    (smOp w = 1 → m.smEffect n w = m.updSm n fun s => s.beginWait w (.waitc w (!bitAt w 23) 0)) ∧
    (smOp w = 2 → m.smEffect n w = m.updSm n fun s => s.beginWait w (.waite w)) ∧
    (smOp w = 3 → m.smEffect n w = m.updSm n fun s => s.timeOp w m.ts) ∧
    (smOp w = 4 → m.smEffect n w = m.updSm n fun s => s.cntOp w) ∧
    (smOp w = 5 → m.smEffect n w = m.updSm n fun s => { s with pc := bitsAt w 0 10 }) ∧
    (smOp w = 6 → m.smEffect n w = m.updSm n fun s =>
      if s.cond m.flagsSeen (bitsAt w 22 5) ≠ bitAt w 21 then { s with pc := bitsAt w 0 10 } else s) := by
  unfold Mach.smEffect
  refine ⟨fun h => ?_, fun h => ?_, fun h => ?_, fun h => ?_, fun h => ?_, fun h => ?_, fun h => ?_⟩ <;> simp only [h]
  simp

/-- Settles O36: each instruction's row by `smTurn_machine`, what it makes of its machine by `Sm.cntOp_eq`, `Sm.beginWait_eq` and
`Sm.timeOp_eq`. -/
theorem machineControl : Obligations.MachineControl := by
  intro s n w h
  obtain ⟨hstop, hwaitc, hwaite, htime, hcnt, hjmp, hjif⟩ := Mach.smEffect_machine (s.m.fetched n.val) n.val (w := w)
  refine ⟨fun hop => ?_, fun hop => ?_, fun hop => ?_, fun hop => ?_, fun hop => ?_, fun hop => ?_, fun hop => ?_⟩
  · exact smTurn_machine h hop (by decide) (hstop hop) rfl
  · exact smTurn_machine h hop (by decide) (hjmp hop) rfl
  · exact smTurn_machine h hop (by decide) (hjif hop) rfl
  · obtain ⟨t, he, hp, hb, hx⟩ := smTurn_machine h hop (by decide) (hcnt hop) (Sm.cntOp_eq (s.m.smPast n.val) w rfl)
    exact ⟨t, _, he, hp, rfl, hb, hx⟩
  · exact smTurn_machine h hop (by decide) (hwaitc hop) (Sm.beginWait_eq (s.m.smPast n.val) w _)
  · exact smTurn_machine h hop (by decide) (hwaite hop) (Sm.beginWait_eq (s.m.smPast n.val) w _)
  · obtain ⟨t, he, hp, hb, hx⟩ := smTurn_machine h hop (by decide) (htime hop) rfl
    obtain ⟨h0, h1, h2, h3⟩ := Sm.timeOp_eq (s.m.smPast n.val) w s.m.ts
    exact ⟨t, he, hp, fun hf => h0 hf ▸ hb, fun hf => h1 hf ▸ hb, fun hf => h2 hf ▸ hb, fun hf => h3 hf ▸ hb, hx⟩

end Sys2Proof.Machine
end

section
/-! SUPPORT. A write of `EVT_SMSTART` that starts a state machine (R459). -/

namespace Sys2Proof.Machine

/-- At reset the write is served: D3 is ON, and the command core meets no check of the header. -/
theorem reset_takesStart : Mach.reset.takesWrite .core .direct 0x2000 := ⟨by decide +kernel, rfl⟩

/-- A machine that starts is made afresh but for its state, start address and reference: the state it would resume in is STOPPED. -/
theorem reset_starts : (Mach.reset.oneWrite .core .direct 0x2000 1).sm 0 = { Sm.fresh with run := .run } := by decide +kernel

/-- Refutes O1, by its clause on `EVT_SMSTART`: the statement has a started machine hold RUN as the state to resume in after a pause,
where the model leaves STOPPED there until a pause writes it (R470). At reset the command core starts SM0. -/
theorem not_eventGoRegisters : ¬ Obligations.EventGoRegisters := by
  intro h
  obtain ⟨hstart, -⟩ := h ⟨Mach.reset, []⟩ .core .direct 1 Mach.reset_canonical
  obtain ⟨t, ht, -, hsm, -⟩ := hstart reset_takesStart
  obtain rfl := Host.Outcome.next.inj ht
  exact absurd (congrArg Sm.resume (reset_starts.symm.trans (hsm 0 (by decide)))) (by decide)

end Sys2Proof.Machine
end

section
/-! SUPPORT. What the machine instructions do outside their machine (R448, R452, R465, R466, R469): records, routed decisions, engine
interrupts, TXD registers and shared flags. -/

namespace Sys2Proof.Machine

theorem Mach.reg_congr {m n : Mach} (h : n.regs = m.regs) (a : Nat) : n.reg a = m.reg a := by rw [Mach.reg, h]; rfl

/-- What an effect changes beside its machine's turn. -/
theorem Mach.fetched_then {m k : Mach} {n : Nat} {ps qs : List Part} (h : (m.fetched n).changesOnly k qs)
    (hp : (Part.evt :: qs).all ps.contains = true) : m.changesOnly k ps := fun x hx => by
  have hout : x ∉ Part.evt :: qs := fun hm => hx (by simpa using List.all_eq_true.mp hp x hm)
  simp only [List.mem_cons, not_or] at hout
  exact Mach.agrees_trans (m.fetched_changesOnly n x (by simpa using hout.1)) (h x hout.2)

/-! ### Event records (R448) -/

theorem Mach.flushHeld_none {m : Mach} (hg : m.buf.pendingGaps = []) (hh : m.evt.held = []) : m.flushHeld = m := by
  have : ({ m with evt := { m.evt with held := [] } } : Mach) = m := by rw [← hh]
  simp [Mach.flushHeld, Mach.flushGaps_none hg, hh, this]

/-- A counter whose domain is ON counts in its register alone. -/
theorem Mach.count_setReg {m : Mach} {a : Nat} (hn : m.noClear) (hon : m.on (blockDomain (blockOf a)) = true) :
    ∃ v, m.count a = m.setReg a v := by
  simp [Mach.count, Mach.countN, hon, unclear_none m a hn]

/-- A record that Q3 has room for, none waiting before it: counted, and at the end of the open block. -/
theorem Mach.putRec_room {m : Mach} (r : Rec) (hn : m.noClear) (hon : m.on 3 = true) (hroom : m.roomFor 3 4) (hp : m.qPolicy 3 = 1)
    (hg : m.buf.pendingGaps = []) (hh : m.evt.held = []) : (m.count 0x2024).heldWritten (m.putRec r) r.toWords := by
  obtain ⟨v, hcount⟩ := Mach.count_setReg (a := 0x2024) hn hon
  obtain ⟨htaking, -, hrun, htrig, hq, htail, hopen⟩ := hroom
  have hfit : (m.setReg 0x2024 v).recordsFit 4 := by
    refine ⟨⟨hq, htrig, hopen⟩, hrun, ?_⟩
    rw [Mach.qPolicy, Mach.fld, Mach.reg_setReg_ne m v (by decide)]
    exact hp
  have hnow : (m.setReg 0x2024 v).q3Now = 0 := by simp [Mach.q3Now, htail rfl]
  have htaking' : (m.setReg 0x2024 v).taking = true := htaking
  unfold Mach.putRec
  simp only [hon, hcount, htaking', Bool.not_true, Bool.false_eq_true, if_false, if_true,
    Mach.flushHeld_none (m := m.setReg 0x2024 v) hg hh, Mach.writeRec_recordsFit r hfit hnow]
  exact ⟨_, _, rfl⟩

theorem Mach.gained_congr {m n k : Mach} {q : Nat} {ws : List Word} (h : n.buf = m.buf) (hg : n.gained k q ws) : m.gained k q ws := by
  have hq : n.q q = m.q q := by rw [Mach.q, h]; rfl
  rwa [Mach.gained, hq] at hg

/-- The record of a machine's EMIT (R448, R465). -/
def Mach.emitted (m : Mach) (n : Nat) (w : Word) : Rec :=
  ⟨(m.sm n).ref, bitsAt w 0 16, n, bitsAt w 16 8, (m.sm n).vsrc (bitsAt w 24 3) m.ts⟩

theorem Mach.smEffect_emit {m : Mach} {n : Nat} {w : Word} (hlen : n < m.evt.machines.length) (hop : smOp w = 7) :
    (m.fetched n).smEffect n w = (m.fetched n).putRec (m.emitted n w) := by
  simp only [Mach.smEffect, hop, Mach.fetched_sm_self hlen]
  rfl

/-- EMIT: its record stands in Q3 and is counted; the machine goes on. -/
theorem exec_smEmit_records {s : State} {n : Fin 16} {w : Word} (hc : s.m.canonical = true) (hn : s.m.noClear)
    (h : s.m.smNext n.val w) (hop : smOp w = 7) (hlow : 0x1000 ≤ bitsAt w 0 16) (hhigh : bitsAt w 0 16 ≤ 0x7FFF)
    (hroom : s.m.roomFor 3 4) (hp : s.m.qPolicy 3 = 1) (hg : s.m.buf.pendingGaps = []) (hh : s.m.evt.held = []) :
    ∃ t, exec (.smEmit n) s = .next t ∧ t.pending = s.pending ∧ s.m.gained t.m 3 (s.m.emitted n.val w).toWords ∧
      t.m.sm n.val = s.m.smPast n.val ∧
      bitsAt (t.m.reg 0x2024) 0 24 = min 0xFFFFFF (bitsAt (s.m.reg 0x2024) 0 24 + 1) ∧
      s.m.changesOnly t.m [.regs, .evt, .buf] ∧ s.m.keepsRegs t.m [0x2024] := by
  have ⟨hlen, hon, _⟩ := h
  have heffect := Mach.smEffect_emit hlen hop
  have hpast := Mach.fetched_sm_self hlen
  have hwake := Mach.fetched_wakeReq h
  have hwritten := Mach.putRec_room (m := s.m.fetched n.val) (s.m.emitted n.val w) hn hon hroom hp hg hh
  obtain ⟨v, hcount⟩ := Mach.count_setReg (m := s.m.fetched n.val) (a := 0x2024) hn hon
  obtain ⟨hcounted, hkept⟩ := count_frame (s.m.fetched n.val) 0x2024 hn
  have hgained := Mach.heldWritten_gained hwritten (by rw [hcount]; exact (Mach.roomFor_recordsFit hroom hp).1)
  have hparts := Mach.heldWritten_changesOnly hwritten
  have hevt : ((s.m.fetched n.val).putRec (s.m.emitted n.val w)).evt.machines = (s.m.fetched n.val).evt.machines ∧
      ((s.m.fetched n.val).putRec (s.m.emitted n.val w)).evt.wakeReq = (s.m.fetched n.val).evt.wakeReq := by
    obtain ⟨_, _, e⟩ := hwritten
    rw [e, hcount]
    exact ⟨rfl, rfl⟩
  obtain ⟨hmachines, hasked⟩ := hevt
  have hrow := smTurn_row h hop (fun _ => ⟨hlow, hhigh⟩) (by rw [heffect, hasked, hwake])
  rw [heffect] at hrow
  have hregs := Mach.reg_congr (hparts .regs (by decide))
  refine ⟨_, hrow, rfl, Mach.gained_congr (by rw [hcount]; rfl) hgained, ?_, ?_,
    Mach.fetched_then (n := n.val) (qs := [.regs, .evt, .buf]) (fun x hx => ?_) rfl, fun a ha => (hregs a).trans (hkept a ha)⟩
  · exact (congrArg (fun l : List Sm => l.getD n.val Sm.fresh) hmachines).trans hpast
  · rw [hregs]
    exact (count_effect (s.m.fetched n.val) 0x2024 hc hn hon).1
  · obtain ⟨hr, hout⟩ : x ≠ .regs ∧ x ∉ [Part.evt, .buf] := by simpa only [List.mem_cons, not_or] using hx
    exact Mach.agrees_trans (hcounted x (by simpa using hr)) (hparts x hout)

/-! ### Shared flags (R469) -/

theorem Mach.setFlags_seen (m : Mach) (set clr : Nat) : (m.setFlags set clr).flagsSet = m.flagsSet ||| BitVec.ofNat 16 set ∧
    (m.setFlags set clr).flagsSeen = m.flagsSeen := by
  simp [Mach.setFlags, Mach.flagsSet, Mach.flagsSeen]

/-- Flags set: those named and those set before in the cycle. -/
theorem Mach.setFlags_sets (m : Mach) (set : Nat) : (m.setFlags set 0).eng = { m.eng with
    flags := m.eng.flags ||| (m.flagsSet ||| BitVec.ofNat 16 set), flagsAt := (m.setFlags set 0).eng.flagsAt } := by
  have hall : m.eng.flags &&& ~~~(BitVec.ofNat 16 0) = m.eng.flags := BitVec.and_allOnes
  unfold Mach.setFlags
  rw [hall]

/-- Flags cleared, but for those set in the cycle. -/
theorem Mach.setFlags_clears (m : Mach) (clr : Nat) : (m.setFlags 0 clr).eng = { m.eng with
    flags := m.eng.flags &&& ~~~(BitVec.ofNat 16 clr) ||| m.flagsSet, flagsAt := (m.setFlags 0 clr).eng.flagsAt } ∧
    (m.setFlags 0 clr).flagsSet = m.flagsSet := by
  simp [Mach.setFlags, Mach.flagsSet]

theorem Mach.setFlags_changesOnly (m : Mach) (set clr : Nat) : m.changesOnly (m.setFlags set clr) [.eng] :=
  (Mach.setFlags_within m set clr (m.within_refl _) rfl).1

/-! ### The rows of OUT, SETF and CLRF -/

/-- The row of an instruction whose effect leaves the event engine alone: the machine goes on. -/
theorem smTurn_outside {s : State} {n op : Nat} {w : Word} {k : Mach} {ps qs : List Part} (h : s.m.smNext n w) (hop : smOp w = op)
    (hne : op ≠ 7) (heffect : (s.m.fetched n).smEffect n w = k) (hparts : (s.m.fetched n).changesOnly k qs)
    (hq : qs.contains .evt = false) (hp : (Part.evt :: qs).all ps.contains = true) :
    goOn s (s.m.smTurn n op).eventWake = .next ⟨k, s.pending⟩ ∧ s.m.smBecame k n (s.m.smPast n) ∧ s.m.changesOnly k ps := by
  have hevt : k.evt = (s.m.fetched n).evt := hparts .evt (by simpa using hq)
  subst heffect
  have ⟨hn, _⟩ := h
  refine ⟨smTurn_row h hop (fun h7 => absurd (hop.symm.trans h7) hne) ?_, Mach.smBecame_past hn hevt, Mach.fetched_then hparts hp⟩
  rw [hevt]
  exact Mach.fetched_wakeReq (m := s.m) h

/-- The instructions whose effect is on the rest of the block. -/
theorem Mach.smEffect_outside (m : Mach) (n : Nat) {w : Word} :
    (smOp w = 8 → m.smEffect n w = m.smOutOp n w) ∧
    (smOp w = 9 → m.smEffect n w = (List.range 5).foldl (fun m q => if bitAt w q && m.qPolicy q = 2 then m.trigger q else m) m) ∧
    (smOp w = 10 → m.smEffect n w = m.setFlags (bitsAt w 0 16) 0) ∧
    (smOp w = 11 → m.smEffect n w = m.setFlags 0 (bitsAt w 0 16)) := by
  unfold Mach.smEffect
  refine ⟨fun h => ?_, fun h => ?_, fun h => ?_, fun h => ?_⟩ <;> simp only [h]

theorem exec_smSetf_sets {s : State} {n : Fin 16} {w : Word} (h : s.m.smNext n.val w) (hop : smOp w = 10) :
    ∃ t, exec (.smSetf n) s = .next t ∧ t.pending = s.pending ∧
      t.m.eng = { s.m.eng with
        flags := s.m.eng.flags ||| (s.m.flagsSet ||| BitVec.ofNat 16 (bitsAt w 0 16)), flagsAt := t.m.eng.flagsAt } ∧
      t.m.flagsSet = s.m.flagsSet ||| BitVec.ofNat 16 (bitsAt w 0 16) ∧ t.m.flagsSeen = s.m.flagsSeen ∧
      s.m.smBecame t.m n.val (s.m.smPast n.val) ∧ s.m.changesOnly t.m [.evt, .eng] := by
  obtain ⟨-, -, hsetf, -⟩ := (s.m.fetched n.val).smEffect_outside n.val (w := w)
  obtain ⟨hrow, hparts⟩ := smTurn_outside (ps := [.evt, .eng]) h hop (by decide) (hsetf hop) (Mach.setFlags_changesOnly _ _ _) rfl rfl
  obtain ⟨hset, hseen⟩ := (s.m.fetched n.val).setFlags_seen (bitsAt w 0 16) 0
  exact ⟨_, hrow, rfl, (s.m.fetched n.val).setFlags_sets _, hset, hseen, hparts⟩

theorem exec_smClrf_clears {s : State} {n : Fin 16} {w : Word} (h : s.m.smNext n.val w) (hop : smOp w = 11) :
    ∃ t, exec (.smClrf n) s = .next t ∧ t.pending = s.pending ∧
      t.m.eng = { s.m.eng with
        flags := s.m.eng.flags &&& ~~~(BitVec.ofNat 16 (bitsAt w 0 16)) ||| s.m.flagsSet, flagsAt := t.m.eng.flagsAt } ∧
      t.m.flagsSet = s.m.flagsSet ∧ t.m.flagsSeen = s.m.flagsSeen ∧
      s.m.smBecame t.m n.val (s.m.smPast n.val) ∧ s.m.changesOnly t.m [.evt, .eng] := by
  obtain ⟨-, -, -, hclrf⟩ := (s.m.fetched n.val).smEffect_outside n.val (w := w)
  obtain ⟨hrow, hparts⟩ := smTurn_outside (ps := [.evt, .eng]) h hop (by decide) (hclrf hop) (Mach.setFlags_changesOnly _ _ _) rfl rfl
  obtain ⟨hflags, hset⟩ := (s.m.fetched n.val).setFlags_clears (bitsAt w 0 16)
  exact ⟨_, hrow, rfl, hflags, hset, ((s.m.fetched n.val).setFlags_seen 0 _).2, hparts⟩

/-! ### OUT to the ports (R452, R466) -/

/-- The register of a port's decision latches (R476). -/
def routeReg : Port → Nat
  | .a => 0x2014
  | .b => 0x2018

/-- A machine's decision routed to a port, if it is, while D3 and D5 are ON: its latch bit, and the port's `EVT`. -/
theorem Mach.routeIf_effect {m : Mach} (b : Bool) (p : Port) {n : Nat} (hc : m.canonical = true) (hn : m.noClear)
    (h3 : m.on 3 = true) (h5 : m.on 5 = true) (hlt : n < 16) :
    (b = true → (if b then m.routeTo p n else m).flag (routeReg p) n = true ∧
      (if b then m.routeTo p n else m).flag (intsrc p) 4 = true) ∧
      m.Edits (if b then m.routeTo p n else m) [.regs, .pa, .pb] [routeReg p, intsrc p] := by
  have hshown : m.Edits (m.sqBit (routeReg p) n) [.regs, .pa, .pb] [routeReg p, intsrc p] :=
    (Mach.Edits.refl hn).sqEvent _ (List.mem_cons_self ..) rfl
  have hclk : (m.sqBit (routeReg p) n).clk = m.clk := hshown.agrees (x := .clk) rfl
  have hon : (m.sqBit (routeReg p) n).on 5 = true := (Mach.on_congr hclk 5).trans h5
  have hroute : m.routeTo p n = (m.sqBit (routeReg p) n).intBit p 4 := by
    cases p <;> exact if_pos hon
  refine ⟨fun hb => ?_, .ite (hroute ▸ hshown.intBit 4 (by simp) rfl) (.refl hn)⟩
  rw [if_pos hb, hroute]
  refine ⟨?_, (Mach.intBit_latched p (hshown.canonical hc) hon (by decide)).2.2⟩
  have hdomain : m.on (blockDomain (blockOf (routeReg p))) = true := by cases p <;> exact h3
  have hkept := Mach.intEvent_reg_ne (m.sqBit (routeReg p) n) p (bitMask 4) (x := routeReg p) (by cases p <;> decide)
    (fun q => by cases p <;> cases q <;> decide)
  rw [Mach.flag, Mach.intBit, hkept]
  exact Mach.sqBit_sets hc (by omega) hdomain

/-- The block with a machine's decision routed to the ports that its OUT names. -/
def Mach.routed (m : Mach) (n : Nat) (w : Word) : Mach :=
  let first := if bitAt w 0 then m.routeTo .a n else m
  if bitAt w 1 then first.routeTo .b n else first

theorem Mach.routed_effect {m : Mach} {n : Nat} (w : Word) (hc : m.canonical = true) (hn : m.noClear) (h3 : m.on 3 = true)
    (h5 : m.on 5 = true) (hlt : n < 16) :
    (bitAt w 0 = true → (m.routed n w).flag 0x2014 n = true ∧ (m.routed n w).flag (intsrc .a) 4 = true) ∧
    (bitAt w 1 = true → (m.routed n w).flag 0x2018 n = true ∧ (m.routed n w).flag (intsrc .b) 4 = true) ∧
      m.Edits (m.routed n w) [.regs, .pa, .pb] [0x2014, 0x2018, intsrc .a, intsrc .b] := by
  obtain ⟨hshownA, hA⟩ := Mach.routeIf_effect (bitAt w 0) .a hc hn h3 h5 hlt
  unfold Mach.routed
  generalize (if bitAt w 0 then m.routeTo .a n else m) = first at *
  have hclk : first.clk = m.clk := hA.agrees (x := .clk) rfl
  obtain ⟨hshownB, hB⟩ := Mach.routeIf_effect (bitAt w 1) .b (hA.canonical hc) hA.noClear ((Mach.on_congr hclk 3).trans h3)
    ((Mach.on_congr hclk 5).trans h5) hlt
  dsimp only
  refine ⟨fun h => ?_, hshownB, ((Mach.Edits.refl hn).trans hA rfl rfl).trans hB rfl rfl⟩
  rw [Mach.flag, Mach.flag, hB.keepsRegs 0x2014 (by decide), hB.keepsRegs (intsrc .a) (by decide)]
  exact hshownA h

theorem Mach.smOutOp_routes {m : Mach} {n : Nat} {w : Word} (hkind : bitsAt w 25 2 = 0) (hrun : (m.routed n w).clk.mode = .run) :
    m.smOutOp n w = m.routed n w := by
  have hwatch : (m.routed n w).inWatch = false := by simp [Mach.inWatch, hrun]
  unfold Mach.smOutOp
  simp only [hkind]
  change (if ((m.routed n w).inWatch && _) = true then _ else m.routed n w) = _
  simp [hwatch]

theorem exec_smOut_routes {s : State} {n : Fin 16} {w : Word} (hc : s.m.canonical = true) (hn : s.m.noClear)
    (h : s.m.smNext n.val w) (hop : smOp w = 8) (hkind : bitsAt w 25 2 = 0) (h5 : s.m.on 5 = true) (hrun : s.m.clk.mode = .run) :
    ∃ t, exec (.smOut n) s = .next t ∧ t.pending = s.pending ∧ (bitAt w 0 = true → t.m.flag 0x2014 n.val = true ∧
        t.m.flag (intsrc .a) 4 = true) ∧ (bitAt w 1 = true → t.m.flag 0x2018 n.val = true ∧ t.m.flag (intsrc .b) 4 = true) ∧
      s.m.smBecame t.m n.val (s.m.smPast n.val) ∧ s.m.changesOnly t.m [.regs, .pa, .pb, .evt] ∧
      s.m.keepsRegs t.m [0x2014, 0x2018, intsrc .a, intsrc .b] := by
  have ⟨_, h3, _⟩ := h
  obtain ⟨hout, -⟩ := (s.m.fetched n.val).smEffect_outside n.val (w := w)
  obtain ⟨hflagsA, hflagsB, hedits⟩ := Mach.routed_effect (m := s.m.fetched n.val) w hc hn h3 h5 n.isLt
  have hclk : ((s.m.fetched n.val).routed n.val w).clk = s.m.clk := hedits.agrees (x := .clk) rfl
  have heffect := (hout hop).trans (Mach.smOutOp_routes hkind (by rw [hclk]; exact hrun))
  obtain ⟨hrow, hbecame, hparts⟩ := smTurn_outside h hop (by decide) heffect hedits.within.1 rfl (ps := [.regs, .pa, .pb, .evt]) rfl
  exact ⟨_, hrow, rfl, hflagsA, hflagsB, hbecame, hparts, hedits.keepsRegs⟩

/-! ### OUT to the engines (R466, R575, R579) -/

theorem Mach.irqSet_engine (m : Mach) (mask : Nat) {e : Nat} (he : e < m.eng.engs.length) :
    ((m.irqSet mask).engine e).irq = ((m.engine e).irq || mask.testBit e) := by
  simp only [Mach.irqSet, Mach.engine, List.getD_eq_getElem?_getD, List.getElem?_map, List.getElem?_zipIdx]
  simp [he]
  split <;> simp [*]

theorem Mach.irqSet_changesOnly (m : Mach) (mask : Nat) : m.changesOnly (m.irqSet mask) [.eng] := fun x hx => by
  cases x <;> first | rfl | exact absurd (List.mem_singleton_self _) hx

theorem exec_smOut_interrupts {s : State} {n : Fin 16} {w : Word} (h : s.m.smNext n.val w) (hop : smOp w = 8)
    (hkind : bitsAt w 25 2 = 1) (h6 : s.m.on 6 = true) (htest : s.m.testing 5 = false) (hlen : s.m.eng.engs.length = 4) :
    ∃ t, exec (.smOut n) s = .next t ∧ t.pending = s.pending ∧
      (∀ e < 4, (t.m.engine e).irq = ((s.m.engine e).irq || bitAt w e)) ∧ s.m.smBecame t.m n.val (s.m.smPast n.val) ∧
      s.m.changesOnly t.m [.evt, .eng] := by
  obtain ⟨hout, -⟩ := (s.m.fetched n.val).smEffect_outside n.val (w := w)
  have hirq : (s.m.fetched n.val).smOutOp n.val w = (s.m.fetched n.val).irqSet (bitsAt w 0 4) := by
    have hon : ((s.m.fetched n.val).on 6 && !(s.m.fetched n.val).testing 5) = true := by
      change (s.m.on 6 && !s.m.testing 5) = true
      rw [h6, htest]
      rfl
    simp only [Mach.smOutOp, hkind, hon, if_true]
  obtain ⟨hrow, hbecame, hparts⟩ := smTurn_outside (ps := [.evt, .eng]) h hop (by decide) ((hout hop).trans hirq)
    (Mach.irqSet_changesOnly _ _) rfl rfl
  refine ⟨_, hrow, rfl, fun e he => ?_, hbecame, hparts⟩
  have hbit : (bitsAt w 0 4).testBit e = bitAt w e := by simp [testBit_bitsAt, he]
  exact hbit ▸ (s.m.fetched n.val).irqSet_engine _ (he.trans_eq hlen.symm)

/-! ### OUT to a TXD register (R466, R575) -/

/-- The block as a TXD register takes a word, and TXF is set. -/
def Mach.txdFilled (m : Mach) (e c : Nat) (v : Word) : Mach :=
  m.updCtx e c fun x => { x with txd := v, txf := true, txAt := some m.clk.now }

theorem Mach.txdWrite_free {m : Mach} {e c : Nat} (v : Word) (hfree : (m.ctx e c).txf = false)
    (hsince : (m.ctx e c).txAt ≠ some m.clk.now) : m.txdWrite e c v = (0, m.txdFilled e c v) := by
  simp [Mach.txdWrite, atCycleStart, hfree, hsince, Mach.txdFilled]

theorem Mach.updEng_engine_self {m : Mach} {e : Nat} (f : Eng → Eng) (h : e < m.eng.engs.length) :
    (m.updEng e f).engine e = f (m.engine e) :=
  (listUpd_getD ..).trans (if_pos ⟨rfl, h⟩)

theorem Mach.updCtx_ctx_self {m : Mach} {e c : Nat} (f : Ctx → Ctx) (he : e < m.eng.engs.length) (hc : c < (m.engine e).ctxs.length) :
    (m.updCtx e c f).ctx e c = f (m.ctx e c) := by
  rw [Mach.ctx, Mach.updCtx, Mach.updEng_engine_self _ he]
  exact (listUpd_getD ..).trans (if_pos ⟨rfl, hc⟩)

theorem Mach.smOutOp_writesTxd {m : Mach} {n : Nat} {w : Word} (hkind : bitsAt w 25 2 = 2) (h6 : m.on 6 = true)
    (htest : m.testing 5 = false) (hfree : (m.ctx (bitsAt w 4 2) (bitsAt w 0 3)).txf = false)
    (hsince : (m.ctx (bitsAt w 4 2) (bitsAt w 0 3)).txAt ≠ some m.clk.now) :
    m.smOutOp n w = (m.touch 9).txdFilled (bitsAt w 4 2) (bitsAt w 0 3) ((m.sm n).vsrc (bitsAt w 22 3) m.ts) := by
  have hwrite := Mach.txdWrite_free (m := m.touch 9) (((m.touch 9).sm n).vsrc (bitsAt w 22 3) (m.touch 9).ts) hfree hsince
  simp only [Mach.smOutOp, hkind, h6, htest, Bool.not_true, Bool.or_self, Bool.false_eq_true, if_false, hwrite, if_true]
  rfl

theorem exec_smOut_writesTxd {s : State} {n : Fin 16} {w : Word} (h : s.m.smNext n.val w) (hop : smOp w = 8)
    (hkind : bitsAt w 25 2 = 2) (h6 : s.m.on 6 = true) (htest : s.m.testing 5 = false) (hlen : s.m.eng.engs.length = 4)
    (hctx : bitsAt w 0 3 < (s.m.engine (bitsAt w 4 2)).ctxs.length)
    (hfree : (s.m.ctx (bitsAt w 4 2) (bitsAt w 0 3)).txf = false)
    (hsince : (s.m.ctx (bitsAt w 4 2) (bitsAt w 0 3)).txAt ≠ some s.m.clk.now) :
    ∃ t, exec (.smOut n) s = .next t ∧ t.pending = s.pending ∧
      t.m.ctx (bitsAt w 4 2) (bitsAt w 0 3) = { s.m.ctx (bitsAt w 4 2) (bitsAt w 0 3) with
        txd := (s.m.sm n.val).vsrc (bitsAt w 22 3) s.m.ts, txf := true, txAt := some s.m.clk.now } ∧
      t.m.isGated 9 = false ∧ s.m.smBecame t.m n.val (s.m.smPast n.val) ∧ s.m.changesOnly t.m [.regs, .evt, .eng] ∧
      s.m.keepsRegs t.m [] := by
  have ⟨hmachine, _⟩ := h
  obtain ⟨hout, -⟩ := (s.m.fetched n.val).smEffect_outside n.val (w := w)
  have hwrite := (hout hop).trans (Mach.smOutOp_writesTxd (m := s.m.fetched n.val) hkind h6 htest hfree hsince)
  rw [Mach.fetched_sm_self hmachine] at hwrite
  have heng : bitsAt w 4 2 < s.m.eng.engs.length := by
    have : bitsAt w 4 2 < 2 ^ 2 := Nat.mod_lt _ (by decide)
    omega
  obtain ⟨hrow, hbecame, hparts⟩ := smTurn_outside (qs := [.regs, .eng]) (ps := [.regs, .evt, .eng]) h hop (by decide) hwrite
    (fun x hx => by cases x <;> first | rfl | exact absurd (by simp) hx) rfl rfl
  exact ⟨_, hrow, rfl, Mach.updCtx_ctx_self (m := (s.m.fetched n.val).touch 9) _ heng hctx, Mach.touch_isGated _ _, hbecame, hparts,
    fun _ _ => rfl⟩

end Sys2Proof.Machine
end

section
/-! SUPPORT. Capture triggers (R465, R534, R535): the records that a trigger puts into Q3 leave the captures of the other queues as they
stand. -/

namespace Sys2Proof.Machine

/-- Where a queue stands in a capture: its state, its trigger's instant and the blocks still to come. -/
def Queue.capture (s : Queue) : QRun × Option Nat × Nat := (s.run, s.trigAt, s.postLeft)

/-- From `m` to `n` every queue but Q3 keeps its capture. -/
structure Mach.KeepsCaptures (m n : Mach) : Prop where
  capture : ∀ j, j ≠ 3 → (n.q j).capture = (m.q j).capture

namespace Mach.KeepsCaptures

variable {m n k : Mach}

theorem refl (m : Mach) : m.KeepsCaptures m := ⟨fun _ _ => rfl⟩

theorem ite {c : Prop} [Decidable c] (hn : m.KeepsCaptures n) (hk : m.KeepsCaptures k) : m.KeepsCaptures (if c then n else k) := by
  split
  · exact hn
  · exact hk

theorem foldl {α : Type} {f : Mach → α → Mach} (hf : ∀ k x, m.KeepsCaptures k → m.KeepsCaptures (f k x)) (l : List α)
    (h : m.KeepsCaptures n) : m.KeepsCaptures (l.foldl f n) := by
  induction l generalizing n with
  | nil => exact h
  | cons x l ih => exact ih (hf n x h)

/-- The queues stay. -/
theorem queues (h : m.KeepsCaptures n) (hq : k.buf.queues = n.buf.queues) : m.KeepsCaptures k := ⟨fun j hj => by
  rw [← h.capture j hj, Mach.q, hq]
  rfl⟩

/-- An operation that does not touch the buffer. -/
theorem other {ps : List Part} (h : m.KeepsCaptures n) (hw : n.within k ps) (hp : ps.contains .buf = false) : m.KeepsCaptures k :=
  h.queues (congrArg Buffer.queues (hw.1 .buf (by simpa using hp)))

/-- A change of Q3, or of what is no part of a capture. -/
theorem updQ (h : m.KeepsCaptures n) {q : Nat} {f : Queue → Queue} (hf : q ≠ 3 → ∀ s, (f s).capture = s.capture) :
    m.KeepsCaptures (n.updQ q f) := ⟨fun j hj => by
  rw [← h.capture j hj, Mach.q, Mach.updQ, listUpd_getD]
  split
  · next hjq => exact hf (hjq.1 ▸ hj) _
  · rfl⟩

theorem updQ3 (h : m.KeepsCaptures n) (f : Queue → Queue) : m.KeepsCaptures (n.updQ 3 f) := h.updQ fun hne => absurd rfl hne

theorem qStat (h : m.KeepsCaptures n) (q i : Nat) : m.KeepsCaptures (n.qStat q i) :=
  h.other (Mach.qStat_within n q i (n.within_refl [.regs]) rfl) rfl

/-! ### Blocks of Q3 (R521 to R533) -/

theorem discardOldest (h : m.KeepsCaptures n) (armed : Bool) : m.KeepsCaptures (n.discardOldest 3 armed) := by
  have hmoved : ∀ k : Mach, m.KeepsCaptures k → m.KeepsCaptures (k.movedBy 3) := fun k hk =>
    hk.other (Mach.movedBy_within k 3 (k.within_refl [.regs, .pa, .pb]) rfl) rfl
  unfold Mach.discardOldest
  split
  · exact h
  · exact (hmoved _ (h.updQ3 _)).qStat 3 2

theorem discardDown (h : m.KeepsCaptures n) (c k : Nat) : m.KeepsCaptures (n.discardDown 3 c k) := by
  induction k generalizing n with
  | zero => exact h
  | succ k ih => exact ite (ih (h.discardOldest true)) h

theorem enterFull (h : m.KeepsCaptures n) : m.KeepsCaptures (n.enterFull 3) := (h.updQ3 _).qStat 3 1

theorem captureClose (h : m.KeepsCaptures n) (trig capt isSeal : Bool) : m.KeepsCaptures (n.captureClose 3 trig capt isSeal) := by
  unfold Mach.captureClose
  exact ite (ite (ite ((h.updQ3 _).qStat 3 4) (h.updQ3 _)) (ite ((h.updQ3 _).qStat 3 4) (h.updQ3 _))) h

theorem reserve (h : m.KeepsCaptures n) : m.KeepsCaptures (n.reserve 3) :=
  h.other (Mach.reserve_within n 3 (n.within_refl [.nv]) rfl) rfl

theorem watermark (h : m.KeepsCaptures n) (before : Nat) : m.KeepsCaptures (n.watermark 3 before) :=
  h.other (Mach.watermark_within n 3 before (n.within_refl [.regs, .pa, .pb]) rfl) rfl

/-- A seal becomes due. -/
theorem sealDue (h : m.KeepsCaptures n) (r : BitVec 16) : m.KeepsCaptures { n with sec := { n.sec with reasons := r } } := h.queues rfl

theorem closeWith (h : m.KeepsCaptures n) (isSeal : Bool) (firstTs : Nat) (trig capt filled : Bool) (ws : List Word) :
    m.KeepsCaptures (n.closeWith 3 isSeal firstTs trig capt filled ws) := by
  unfold Mach.closeWith
  extract_lets s before flags head data hash b closed reserved captured trimmed marked settled
  have hcaptured : m.KeepsCaptures captured := (h.updQ3 _).reserve.captureClose trig capt isSeal
  have hmarked : m.KeepsCaptures marked := (ite (hcaptured.discardDown _ _) hcaptured).watermark before
  have hsettled : m.KeepsCaptures settled :=
    ite (ite (ite hmarked.enterFull hmarked) (ite (hmarked.discardOldest false) hmarked)) hmarked
  exact ite (hsettled.sealDue _) hsettled

theorem closeOpen (h : m.KeepsCaptures n) (filled : Bool) : m.KeepsCaptures (n.closeOpen 3 filled) := by
  unfold Mach.closeOpen
  split
  · exact h
  · exact (h.updQ3 _).closeWith ..

theorem openBlock (h : m.KeepsCaptures n) : m.KeepsCaptures (n.openBlock 3) := by
  unfold Mach.openBlock
  split
  · exact h
  · exact h.updQ3 _

theorem writeWord (h : m.KeepsCaptures n) (w : Word) : m.KeepsCaptures (n.writeWord 3 w).1 := by
  have hwritten := h.openBlock.updQ3
  unfold Mach.writeWord
  dsimp only
  split
  · split
    · exact (hwritten _).closeOpen true
    · exact hwritten _
  · exact hwritten _

theorem writeList (h : m.KeepsCaptures n) (ws : List Word) : m.KeepsCaptures (n.writeList ws).1 := by
  induction ws generalizing n with
  | nil => exact h
  | cons w ws ih => exact ih (h.writeWord w)

theorem discCount (h : m.KeepsCaptures n) (c : Nat) : m.KeepsCaptures (n.discCount 3 c) :=
  ite ((h.other (Mach.countN_within n _ c (n.within_refl [.regs]) rfl) rfl).updQ3 _) h

theorem makeRoom (h : m.KeepsCaptures n) : m.KeepsCaptures (n.makeRoom 3) := ite (ite h.enterFull (h.discardOldest false)) h

/-! ### Records into Q3 (R28, R516, R543, R545) -/

theorem recordQ3 (h : m.KeepsCaptures n) (event : Bool) (ws : List Word) : m.KeepsCaptures (n.recordQ3 event ws).1 := by
  unfold Mach.recordQ3
  extract_lets fitted roomy place full held
  have hfitted : m.KeepsCaptures fitted := by
    change m.KeepsCaptures (n.fitRecord ws.length)
    unfold Mach.fitRecord
    split
    · exact ite (h.closeOpen false) h
    · exact h
  have hroomy : m.KeepsCaptures roomy := ite hfitted hfitted.makeRoom
  split
  · have htaken : m.KeepsCaptures (roomy.takeAfter ws).1 := by
      unfold Mach.takeAfter
      split
      · exact hroomy.updQ3 _
      · exact hroomy
    generalize roomy.takeAfter ws = taken at htaken ⊢
    obtain ⟨taken, after⟩ := taken
    have hwritten := htaken.writeList (ws ++ after)
    dsimp only at hwritten ⊢
    generalize taken.writeList (ws ++ after) = written at hwritten ⊢
    exact hwritten.queues rfl
  · split
    · have hfull : m.KeepsCaptures full := ite hroomy.enterFull hroomy
      exact ((hfull.updQ3 _).discCount _).qStat 3 2
    · have hheld : m.KeepsCaptures held :=
        ite hroomy (hroomy.other (Mach.sqBit_within roomy _ _ (roomy.within_refl [.regs]) rfl) rfl)
      exact (hheld.discCount _).qStat 3 2

theorem writeGap (h : m.KeepsCaptures n) (g : GapRec) : m.KeepsCaptures (n.writeGap g) := by
  have hwritten : ∀ k : Mach, m.KeepsCaptures k → m.KeepsCaptures (k.gapWritten g) := fun k hk =>
    ite hk (hk.updQ fun _ _ => rfl)
  exact foldl (fun _ c hk => hk.recordQ3 false c.toWords) _ (ite (hwritten _ (h.recordQ3 false g.toWords)) (h.recordQ3 false g.toWords))

theorem putGap (h : m.KeepsCaptures n) (g : GapRec) : m.KeepsCaptures (n.putGap g) := by
  have hflushed : m.KeepsCaptures n.flushGaps := by
    have hall := foldl (fun _ g hk => writeGap hk g) n.buf.pendingGaps
      (h.queues (k := { n with buf := { n.buf with pendingGaps := [] } }) rfl)
    exact ite (ite hall (hall.queues rfl)) h
  exact ite (hflushed.writeGap g) (h.queues rfl)

/-- The record of a pre-trigger trim, due as a queue leaves ARMED (R534). -/
theorem gapPretrim (h : m.KeepsCaptures n) (q : Nat) : m.KeepsCaptures (n.gapPretrim q) := by
  unfold Mach.gapPretrim
  split
  · have htrimmed : m.KeepsCaptures (n.updQ q fun s => { s with pretrim := .none }) := h.updQ fun _ _ => rfl
    exact htrimmed.putGap _
  · have hdrawn : m.KeepsCaptures n.drawNat.2 := h.other (Mach.drawNat_within n (n.within_refl [.free]) rfl) rfl
    exact hdrawn.putGap _

end Mach.KeepsCaptures

/-- A trigger of an ARMED queue but Q3: its capture begins (R535). -/
theorem Mach.trigger_armed {m : Mach} {q : Nat} (hq : q < m.buf.queues.length) (h3 : q ≠ 3) (ha : (m.q q).run = .armed) :
    ((m.trigger q).q q).capture = (.capturing, some m.ts, m.qPost q) := by
  unfold Mach.trigger
  rw [ha]
  have hkept := ((Mach.KeepsCaptures.refl (m.updQ q fun s =>
    { s with run := .capturing, trigAt := some m.ts, postLeft := m.qPost q, captBlocks := false })).qStat q 3).gapPretrim q
  refine (hkept.capture q h3).trans ?_
  rw [updQ_q_self _ hq]
  rfl

theorem bitAt_captMask : ∀ q < 5, ∀ j < 5, bitAt (bitMask q ||| 0x48000000) j = decide (j = q) := by decide

/-- CAPT with a mask of one queue, which is in CAPTURE, triggers that one alone (R465). -/
theorem Mach.captures_one {m : Mach} {q : Nat} (hq : q < 5) (hp : m.qPolicy q = 2) :
    (List.range 5).foldl (fun m j => if bitAt (bitMask q ||| 0x48000000) j && m.qPolicy j = 2 then m.trigger j else m) m =
      m.trigger q := by
  have hbit := bitAt_captMask q hq
  simp only [List.range_succ, List.range_zero, List.nil_append, List.cons_append, List.foldl_cons, List.foldl_nil,
    hbit 0 (by decide), hbit 1 (by decide), hbit 2 (by decide), hbit 3 (by decide), hbit 4 (by decide)]
  interval_cases q <;> simp [hp]

theorem exec_smCapt_triggers {s : State} {n : Fin 16} {w : Word} {q : Nat} (h : s.m.smNext n.val w) (hop : smOp w = 9)
    (hw : w = bitMask q ||| 0x48000000) (hq : q < 5) (h3 : q ≠ 3) (hp : s.m.qPolicy q = 2) (ha : (s.m.q q).run = .armed)
    (hlen : s.m.buf.queues.length = 5) :
    ∃ t, exec (.smCapt n) s = .next t ∧ t.pending = s.pending ∧ (t.m.q q).run = .capturing ∧ (t.m.q q).trigAt = some s.m.ts ∧
      (t.m.q q).postLeft = s.m.qPost q ∧ s.m.smBecame t.m n.val (s.m.smPast n.val) ∧
      s.m.changesOnly t.m [.regs, .pa, .pb, .flt, .evt, .buf, .sec, .nv, .free] := by
  obtain ⟨-, hcapt, -⟩ := (s.m.fetched n.val).smEffect_outside n.val (w := w)
  have hone : (s.m.fetched n.val).smEffect n.val w = (s.m.fetched n.val).trigger q := by
    rw [hcapt hop, hw]
    exact Mach.captures_one hq hp
  have hwithin : (s.m.fetched n.val).within ((s.m.fetched n.val).trigger q) [.regs, .pa, .pb, .flt, .buf, .sec, .nv, .free] :=
    Mach.trigger_within _ q (Mach.within_refl _ _) rfl
  obtain ⟨hrow, hbecame, hparts⟩ := smTurn_outside (ps := [.regs, .pa, .pb, .flt, .evt, .buf, .sec, .nv, .free]) h hop (by decide)
    hone hwithin.1 rfl rfl
  have hcapture := Mach.trigger_armed (m := s.m.fetched n.val) (hq.trans_eq hlen.symm) h3 ha
  simp only [Queue.capture, Prod.mk.injEq] at hcapture
  obtain ⟨hrun, hat, hleft⟩ := hcapture
  exact ⟨_, hrow, rfl, hrun, hat, hleft, hbecame, hparts⟩

/-- Settles O37: EMIT by `exec_smEmit_records`, the forms of OUT by `exec_smOut_routes`, `exec_smOut_interrupts` and
`exec_smOut_writesTxd`, CAPT by `exec_smCapt_triggers`, the flags by `exec_smSetf_sets` and `exec_smClrf_clears`. -/
theorem machineEffects : Obligations.MachineEffects := by
  intro s n w hc hn h
  exact ⟨exec_smEmit_records hc hn h, exec_smOut_routes hc hn h, exec_smOut_interrupts h, exec_smOut_writesTxd h,
    fun _ => exec_smCapt_triggers h, exec_smSetf_sets h, exec_smClrf_clears h⟩

end Sys2Proof.Machine
end

section
/-! SUPPORT. Guard records beside the guard path's own registers (R448, R499, R500, R516, R543): whatever a record does in Q3, it writes no
register from 0x2C00 up. -/

namespace Sys2Proof.Machine

/-- From `m` to `n` the guard path's registers, and all above them, read as before. -/
structure Mach.KeepsGuardRegs (m n : Mach) : Prop where
  reads : ∀ x, 0x2C00 ≤ x → n.reg x = m.reg x

namespace Mach.KeepsGuardRegs

variable {m n k : Mach}

theorem refl (m : Mach) : m.KeepsGuardRegs m := ⟨fun _ _ => rfl⟩

theorem ite {c : Prop} [Decidable c] (hn : m.KeepsGuardRegs n) (hk : m.KeepsGuardRegs k) :
    m.KeepsGuardRegs (if c then n else k) := by
  split
  · exact hn
  · exact hk

theorem foldl {α : Type} {f : Mach → α → Mach} (hf : ∀ k x, m.KeepsGuardRegs k → m.KeepsGuardRegs (f k x)) (l : List α)
    (h : m.KeepsGuardRegs n) : m.KeepsGuardRegs (l.foldl f n) := by
  induction l generalizing n with
  | nil => exact h
  | cons x l ih => exact ih (hf n x h)

/-- The registers stay. -/
theorem regs (h : m.KeepsGuardRegs n) (hr : k.regs = n.regs) : m.KeepsGuardRegs k := ⟨fun x hx => by
  rw [← h.reads x hx, Mach.reg, hr]
  rfl⟩

/-- An operation that does not touch the registers. -/
theorem other {ps : List Part} (h : m.KeepsGuardRegs n) (hw : n.within k ps) (hp : ps.contains .regs = false) :
    m.KeepsGuardRegs k :=
  h.regs (hw.1 .regs (by simpa using hp))

/-- A seal becomes due. -/
theorem sealDue (h : m.KeepsGuardRegs n) (r : BitVec 16) : m.KeepsGuardRegs { n with sec := { n.sec with reasons := r } } := h.regs rfl

/-- The buffer changes in itself. -/
theorem buf (h : m.KeepsGuardRegs n) (b : Buffer) : m.KeepsGuardRegs { n with buf := b } := h.regs rfl

/-- The event engine changes in itself. -/
theorem evt (h : m.KeepsGuardRegs n) (e : Events) : m.KeepsGuardRegs { n with evt := e } := h.regs rfl

theorem updQ (h : m.KeepsGuardRegs n) (q : Nat) (f : Queue → Queue) : m.KeepsGuardRegs (n.updQ q f) := h.regs rfl

theorem ne_accLast {x : Nat} (hx : 0x2C00 ≤ x) (p : Port) : x ≠ accLast p := by
  cases p <;> simp only [accLast] <;> omega

theorem sqEvent (h : m.KeepsGuardRegs n) {a : Nat} (mask : Word) (ha : a < 0x2C00) : m.KeepsGuardRegs (n.sqEvent a mask) :=
  ⟨fun x hx => (Mach.sqEvent_reg_ne n mask (by omega) (ne_accLast hx)).trans (h.reads x hx)⟩

theorem countN (h : m.KeepsGuardRegs n) {a : Nat} (c : Nat) (ha : a < 0x2C00) : m.KeepsGuardRegs (n.countN a c) :=
  ⟨fun x hx => (Mach.countN_reg_ne n c (by omega) (ne_accLast hx)).trans (h.reads x hx)⟩

theorem intBit (h : m.KeepsGuardRegs n) (p : Port) (i : Nat) : m.KeepsGuardRegs (n.intBit p i) :=
  ⟨fun x hx => (Mach.intEvent_reg_ne n p (bitMask i) (by cases p <;> simp only [intsrc, portBase] <;> omega)
    (ne_accLast hx)).trans (h.reads x hx)⟩

theorem qStat (h : m.KeepsGuardRegs n) (i : Nat) : m.KeepsGuardRegs (n.qStat 3 i) := h.sqEvent _ (by decide)

/-! ### Blocks of Q3 (R521 to R533) -/

theorem movedBy (h : m.KeepsGuardRegs n) : m.KeepsGuardRegs (n.movedBy 3) := by
  have hmarked : ∀ f, m.KeepsGuardRegs (((n.updPort .a f).updPort .b f).passStores 3) := fun _ => h.regs rfl
  exact (hmarked _).qStat 6

theorem discardOldest (h : m.KeepsGuardRegs n) (armed : Bool) : m.KeepsGuardRegs (n.discardOldest 3 armed) := by
  unfold Mach.discardOldest
  split
  · exact h
  · exact (h.updQ 3 _).movedBy.qStat 2

theorem discardDown (h : m.KeepsGuardRegs n) (c k : Nat) : m.KeepsGuardRegs (n.discardDown 3 c k) := by
  induction k generalizing n with
  | zero => exact h
  | succ k ih => exact ite (ih (h.discardOldest true)) h

theorem enterFull (h : m.KeepsGuardRegs n) : m.KeepsGuardRegs (n.enterFull 3) := (h.updQ 3 _).qStat 1

theorem captureClose (h : m.KeepsGuardRegs n) (trig capt isSeal : Bool) : m.KeepsGuardRegs (n.captureClose 3 trig capt isSeal) := by
  unfold Mach.captureClose
  exact ite (ite (ite ((h.updQ 3 _).qStat 4) (h.updQ 3 _)) (ite ((h.updQ 3 _).qStat 4) (h.updQ 3 _))) h

theorem watermark (h : m.KeepsGuardRegs n) (before : Nat) : m.KeepsGuardRegs (n.watermark 3 before) := by
  have hdrains : ∀ k : Mach, m.KeepsGuardRegs k → m.KeepsGuardRegs (k.intDrains 3 11) := fun k hk =>
    ite ((ite (hk.intBit .a 11) hk).intBit .b 11) (ite (hk.intBit .a 11) hk)
  exact ite (hdrains _ (h.qStat 0)) h

theorem closeWith (h : m.KeepsGuardRegs n) (isSeal : Bool) (firstTs : Nat) (trig capt filled : Bool) (ws : List Word) :
    m.KeepsGuardRegs (n.closeWith 3 isSeal firstTs trig capt filled ws) := by
  unfold Mach.closeWith
  extract_lets s before flags head data hash b closed reserved captured trimmed marked settled
  have hreserved : m.KeepsGuardRegs reserved :=
    (h.updQ 3 _).other (Mach.reserve_within closed 3 (closed.within_refl [.nv]) rfl) rfl
  have hcaptured : m.KeepsGuardRegs captured := hreserved.captureClose trig capt isSeal
  have hmarked : m.KeepsGuardRegs marked := (ite (hcaptured.discardDown _ _) hcaptured).watermark before
  have hsettled : m.KeepsGuardRegs settled :=
    ite (ite (ite hmarked.enterFull hmarked) (ite (hmarked.discardOldest false) hmarked)) hmarked
  exact ite (hsettled.sealDue _) hsettled

theorem closeOpen (h : m.KeepsGuardRegs n) (filled : Bool) : m.KeepsGuardRegs (n.closeOpen 3 filled) := by
  unfold Mach.closeOpen
  split
  · exact h
  · exact (h.updQ 3 _).closeWith ..

theorem writeWord (h : m.KeepsGuardRegs n) (w : Word) : m.KeepsGuardRegs (n.writeWord 3 w).1 := by
  have hopen : m.KeepsGuardRegs (n.openBlock 3) := h.other (Mach.openBlock_within n 3 (n.within_refl [.flt, .buf]) rfl) rfl
  unfold Mach.writeWord
  dsimp only
  split
  · split
    · exact (hopen.updQ 3 _).closeOpen true
    · exact hopen.updQ 3 _
  · exact hopen.updQ 3 _

theorem writeList (h : m.KeepsGuardRegs n) (ws : List Word) : m.KeepsGuardRegs (n.writeList ws).1 := by
  induction ws generalizing n with
  | nil => exact h
  | cons w ws ih => exact ih (h.writeWord w)

theorem discCount (h : m.KeepsGuardRegs n) (c : Nat) : m.KeepsGuardRegs (n.discCount 3 c) :=
  ite ((h.countN c (by decide)).updQ 3 _) h

/-! ### Records into Q3 (R28, R516, R543, R545) -/

theorem recordQ3 (h : m.KeepsGuardRegs n) (event : Bool) (ws : List Word) : m.KeepsGuardRegs (n.recordQ3 event ws).1 := by
  unfold Mach.recordQ3
  extract_lets fitted roomy place full held
  have hfitted : m.KeepsGuardRegs fitted := by
    change m.KeepsGuardRegs (n.fitRecord ws.length)
    unfold Mach.fitRecord
    split
    · exact ite (h.closeOpen false) h
    · exact h
  have hroomy : m.KeepsGuardRegs roomy := ite hfitted (ite (ite hfitted.enterFull (hfitted.discardOldest false)) hfitted)
  split
  · have htaken : m.KeepsGuardRegs (roomy.takeAfter ws).1 :=
      hroomy.other (Mach.takeAfter_within roomy ws (roomy.within_refl [.buf]) rfl) rfl
    generalize roomy.takeAfter ws = taken at htaken ⊢
    obtain ⟨taken, after⟩ := taken
    have hwritten := htaken.writeList (ws ++ after)
    dsimp only at hwritten ⊢
    generalize taken.writeList (ws ++ after) = written at hwritten ⊢
    exact hwritten.buf _
  · split
    · have hfull : m.KeepsGuardRegs full := ite hroomy.enterFull hroomy
      exact ((hfull.updQ 3 _).discCount _).qStat 2
    · have hheld : m.KeepsGuardRegs held := ite hroomy (hroomy.sqEvent _ (by decide))
      exact (hheld.discCount _).qStat 2

theorem writeGap (h : m.KeepsGuardRegs n) (g : GapRec) : m.KeepsGuardRegs (n.writeGap g) := by
  have hrecord := h.recordQ3 false g.toWords
  exact foldl (fun _ c hk => hk.recordQ3 false c.toWords) _ (ite (ite hrecord (hrecord.updQ _ _)) hrecord)

theorem flushGaps (h : m.KeepsGuardRegs n) : m.KeepsGuardRegs n.flushGaps := by
  have hall := foldl (fun _ g hk => writeGap hk g) n.buf.pendingGaps
    (h.buf { n.buf with pendingGaps := [] })
  exact ite (ite hall (hall.buf _)) h

theorem writeRec (h : m.KeepsGuardRegs n) (r : Rec) : m.KeepsGuardRegs (n.writeRec r).1 :=
  foldl (fun _ c hk => hk.recordQ3 false c.toWords) _ (h.recordQ3 true r.toWords)

theorem writeHeld (h : m.KeepsGuardRegs n) (r : Rec) : m.KeepsGuardRegs (n.writeHeld r) := by
  have hfixed : m.KeepsGuardRegs n.q3Fix := h.buf _
  have hwritten : m.KeepsGuardRegs (n.q3Fix.writeRec r).1.q3Fix := (hfixed.writeRec r).buf _
  exact hwritten.evt _

theorem flushHeld (h : m.KeepsGuardRegs n) : m.KeepsGuardRegs n.flushHeld := by
  unfold Mach.flushHeld
  exact ite (foldl (fun _ r hk => writeHeld hk r) _ (h.flushGaps.evt _)) h

theorem putRec (h : m.KeepsGuardRegs n) (r : Rec) : m.KeepsGuardRegs (n.putRec r) := by
  unfold Mach.putRec
  split
  · exact h
  · extract_lets counted _ staged _ first declared
    have hcounted : m.KeepsGuardRegs counted := h.countN 1 (by decide)
    have hstaged : m.KeepsGuardRegs staged := hcounted.evt _
    have hdeclared : m.KeepsGuardRegs declared := ite (hstaged.sqEvent _ (by decide)) hstaged
    split
    · have hwritten := hcounted.flushHeld.writeRec r
      generalize counted.flushHeld.writeRec r = written at hwritten ⊢
      exact hwritten.evt _
    · exact ite (hstaged.evt _) (ite (hdeclared.flushGaps.writeGap _) (hdeclared.buf _))

/-- A signal of the guard path, with its record. -/
theorem grdSignal (h : m.KeepsGuardRegs n) (code : Nat) (value : Word) (ts : Nat) :
    m.KeepsGuardRegs (n.grdSignal code value ts) := by
  have hboth : m.KeepsGuardRegs (n.intBoth 5) := (h.intBit .a 5).intBit .b 5
  unfold Mach.grdSignal Mach.guardRec
  exact ite ((hboth.putRec _).evt _) hboth

end Mach.KeepsGuardRegs
end Sys2Proof.Machine
end

section
/-! SUPPORT. A guard period in HEALTHY (R480 to R490, R499 to R501, R508): what two chains that compare impact alone come to, the trip that a
crossing makes, and what a difference between the chains is found as. -/

namespace Sys2Proof.Machine

/-! ### A period that is compared -/

/-- The crossing by impact that the counts of a period are: the magnitude and the instant of its record (R484, R500). -/
def Mach.impCrossing (m : Mach) (ca cb : GrdChain) : Option (Nat × Nat) :=
  let n := m.fld 0x2C00 12 4 + 1
  if ca.imp = n && cb.imp = n && (m.grd.a.imp < n || m.grd.b.imp < n) then
    some (guardImpMag ca.dec, tsOf ((m.ts : Int) - 896))
  else none

/-- A chain that counts nothing crosses nothing. -/
theorem Mach.impCrossing_none {m : Mach} {ca : GrdChain} (cb : GrdChain) (h : ca.imp = 0) : m.impCrossing ca cb = none := by
  simp [Mach.impCrossing, h]

/-- Both chains reach the persistence in a period that began below it. -/
theorem Mach.impCrossing_reached {m : Mach} {c : GrdChain} (hc : c.imp = m.fld 0x2C00 12 4 + 1)
    (ha : m.grd.a.imp = m.fld 0x2C00 12 4) : ∃ v t, m.impCrossing c c = some (v, t) := by
  refine ⟨guardImpMag c.dec, tsOf ((m.ts : Int) - 896), ?_⟩
  simp [Mach.impCrossing, hc, ha]

/-- The path with both chains past the comparisons of a period. -/
def Mach.chained (m : Mach) (ca cb : GrdChain) : Mach := { m with grd := { m.grd with a := ca, b := cb } }

/-- What a path compares, its samples in the chains, while the range stands and overspeed counts nothing. -/
theorem Mach.grdCompare_impact {m : Mach} {ua ub : GuardUpset} {ca cb : GrdChain} (hz : m.flag 0x0C28 24 = m.grd.zrange)
    (ha : m.chainCount m.grd.a ua = ca) (hb : m.chainCount m.grd.b ub = cb) (hosp : ca.osp = 0) :
    m.grdCompare ua ub =
      (((m.chained ca cb).grdState (m.impCrossing ca cb) none (m.mismatch ca cb ua ub)).grdPeaks ca.dec).grdAckTest := by
  subst ha hb
  unfold Mach.grdCompare
  rw [if_pos hz]
  extract_lets _ n o ca cb imp osp k
  have hosp : ca.osp = 0 := hosp
  have hnone : osp = none := if_neg (by simp [hosp, o])
  rw [hnone]
  rfl

/-- The path in a period that ends now. -/
def Mach.timed (m : Mach) : Mach := { m with grd := { m.grd with lastPeriod := some m.ts } }

/-- The path with the period's samples in its chains. -/
def Mach.taken (m : Mach) (ins : GuardInput) (ua ub : GuardUpset) : Mach :=
  { m with grd := { m.grd with a := m.grd.a.take ins ua, b := m.grd.b.take ins ub } }

/-- The path that a period of HEALTHY compares, the second chain upset by `u`. -/
def Mach.entered (m : Mach) (ins : GuardInput) (u : GuardUpset) : Mach := m.timed.taken ins sound u

/-- A chain past the comparisons of a period in which `u` is wrong in it. -/
def Mach.countedWith (m : Mach) (ins : GuardInput) (u : GuardUpset) : GrdChain := m.chainCount (m.grd.a.take ins u) u

/-- The path past the comparisons of a period, before they change its state. -/
def Mach.chainsCounted (m : Mach) (ins : GuardInput) (u : GuardUpset) : Mach :=
  (m.entered ins u).chained (m.counted ins) (m.countedWith ins u)

/-- A period of a path in HEALTHY is compared, where `n` is the path once the period has begun. -/
theorem Mach.guardPeriod_begun {m n : Mach} (ins : GuardInput) (ua ub : GuardUpset) (hon : m.on 1 = true) (hts : m.ts % 1024 = 0)
    (hlast : m.grd.lastPeriod ≠ some m.ts) (hn : m.timed.grdTryArm = n) (hst : n.grd.st = .healthy) :
    m.guardPeriod ins ua ub = (n.taken ins ua ub).grdCompare ua ub := by
  have hstays : (n.taken ins ua ub).grd.st = .healthy := hst
  unfold Mach.guardPeriod
  rw [if_neg (by simp [hon, hts, hlast])]
  extract_lets _ began _ sampled
  have hsampled : sampled = n.taken ins ua ub := by rw [← hn]; rfl
  rw [hsampled, hstays]

/-- A period of HEALTHY in which impact alone is compared, the second chain upset by `u`. -/
theorem Mach.guardPeriod_healthy {m : Mach} (ins : GuardInput) (u : GuardUpset) (hm : m.comparesNow) (hst : m.grd.st = .healthy) :
    m.guardPeriod ins sound u =
      (((m.chainsCounted ins u).grdState
        ((m.entered ins u).impCrossing (m.counted ins) (m.countedWith ins u)) none
        ((m.entered ins u).mismatch (m.counted ins) (m.countedWith ins u) sound u)).grdPeaks (decimated ins sound)).grdAckTest := by
  obtain ⟨hon, -, hts, hlast, hz, hosp, hab, -⟩ := hm
  have hperiod : m.guardPeriod ins sound u = (m.entered ins u).grdCompare sound u :=
    Mach.guardPeriod_begun ins sound u hon hts hlast (by simp [Mach.grdTryArm, Mach.timed, hst]) hst
  have hb : (m.entered ins u).chainCount (m.entered ins u).grd.b u = m.countedWith ins u := by
    rw [Mach.countedWith, hab]
    rfl
  have hnone : (m.counted ins).osp = 0 := by
    simp [Mach.counted, Mach.chainCount, hosp, persist]
  rw [hperiod, Mach.grdCompare_impact (m := m.entered ins u) (ca := m.counted ins) hz.symm rfl hb hnone,
    (m.counted_parts ins).1, Mach.chainsCounted]

/-- Out of ARMING and without overspeed a period's crossing trips the path, and a mismatch puts it in FAULT (R487 to R489). -/
theorem Mach.grdState_healthy {m : Mach} (hst : m.grd.st = .healthy) :
    m.grdState none none none = m ∧ (∀ v t, m.grdState (some (v, t)) none none = m.grdTrip false v t) ∧
      ∀ c, m.grdState none none (some c) = m.grdFault c := by
  simp [Mach.grdState, Mach.grdCross, hst]

/-- Without an acknowledgment the end of a period changes nothing more. -/
theorem Mach.grdAckTest_none {m : Mach} (h : m.grd.ack = false) : m.grdAckTest = m := by
  simp [Mach.grdAckTest, h]

/-- Out of TRIP an acknowledgment is only dropped. -/
theorem Mach.grdAckTest_untripped {m : Mach} (h : m.grd.st ≠ .trip) : m.grdAckTest = { m with grd := { m.grd with ack := false } } := by
  unfold Mach.grdAckTest
  split
  next hack =>
    have hack : m.grd.ack = false := by simpa using hack
    rw [← hack]
  next => exact if_pos h

/-! ### A trip (R487, R499, R508) -/

/-- A path that impact has tripped: both pins released, the peaks of the trip from 0. -/
def Guard.tripped (g : Guard) (s1 s2 : Bool) (p : Option Nat) : Guard :=
  { g.driving false s1 s2 with st := .trip, tpkImp := 0, tpkOsp := 0, tripImp := true, statAt := p }

/-- A status event changes no register but `GRD_STATUS`. -/
theorem Mach.Edits.grdStatus {m n : Mach} {ps : List Part} {as : List Nat} (h : m.Edits n ps as) (mask : Word) (ha : 0x2C18 ∈ as)
    (hp : [Part.regs, Part.grd].all ps.contains = true) : m.Edits (n.grdStatus mask) ps as := by
  refine ⟨Mach.grdStatus_within n mask h.within hp, ?_, fun x hx =>
    (Mach.grdStatus_keepsRegs mask h.noClear x fun hxa => hx (List.mem_singleton.mp hxa ▸ ha)).trans (h.keepsRegs x hx)⟩
  unfold Mach.grdStatus
  split
  · exact h.noClear
  · exact (Mach.sqEvent_noClear 0x2C18 mask h.noClear).1

/-- A trip shown: its status bit, its count and its signal, whatever the record of the signal does in Q3 (R499, R508). -/
theorem Mach.tripShown_effect {m : Mach} {i : Nat} (code : Nat) (v : Word) (ts : Nat) (hc : m.canonical = true) (hn : m.noClear)
    (h1 : m.on 1 = true) (h5 : m.on 5 = true) (hi : i < 24) {t : Mach}
    (ht : ((m.grdStatus (bitMask i)).count 0x2C1C).grdSignal code v ts = t) :
    (∃ p, t.grd = { m.grd with statAt := p }) ∧ bitsAt (t.reg 0x2C1C) 0 24 = min 0xFFFFFF (bitsAt (m.reg 0x2C1C) 0 24 + 1) ∧
      t.flag 0x2C18 i = true ∧ ∀ p, t.flag (intsrc p) 5 = true := by
  subst ht
  obtain ⟨p, hstat⟩ := m.grdStatus_grd (bitMask i)
  have hshown : m.Edits (m.grdStatus (bitMask i)) [.regs, .grd] [0x2C18] :=
    (Mach.Edits.refl hn).grdStatus _ (by simp) rfl
  have hflag := Mach.grdStatus_sets hc h1 hi (bitAt_bitMask (by omega))
  generalize m.grdStatus (bitMask i) = shown at *
  have hcounted : shown.Edits (shown.count 0x2C1C) [.regs] [0x2C1C] := (Mach.Edits.refl hshown.noClear).count (by simp) rfl
  have hclk : shown.clk = m.clk := hshown.agrees (x := .clk) rfl
  have hclk' : (shown.count 0x2C1C).clk = m.clk := (hcounted.agrees (x := .clk) rfl).trans hclk
  have hgrd : (shown.count 0x2C1C).grd = shown.grd := hcounted.agrees (x := .grd) rfl
  have hon : shown.on 1 = true := by simpa only [Mach.on, Mach.dom, hclk] using h1
  obtain ⟨hcount, -⟩ := count_effect shown 0x2C1C (hshown.canonical hc) hshown.noClear hon
  obtain ⟨hsame, hstatus, hint⟩ := Mach.grdSignal_effect code v ts (hcounted.canonical (hshown.canonical hc))
    (by simpa only [Mach.on, Mach.dom, hclk'] using h5)
  have hkept := ((Mach.KeepsGuardRegs.refl (shown.count 0x2C1C)).grdSignal code v ts).reads 0x2C1C (by omega)
  refine ⟨⟨p, hsame.trans (hgrd.trans hstat)⟩, ?_, ?_, hint⟩
  · rw [hkept, hcount, hshown.keepsRegs 0x2C1C (by decide)]
  · unfold Mach.flag at hflag ⊢
    rw [hstatus, hcounted.keepsRegs 0x2C18 (by decide)]
    exact hflag

/-- The crossing of a path that was not in TRIP: both pins released, the trip counted, IMPACT and GUARD set. -/
theorem Mach.grdTrip_impact {m : Mach} (v ts : Nat) (hc : m.canonical = true) (hn : m.noClear) (h1 : m.on 1 = true)
    (h5 : m.on 5 = true) (hst : m.grd.st ≠ .trip) (htrip : m.grd.tripImp = false) :
    (∃ s1 s2 p, (m.grdTrip false v ts).grd = m.grd.tripped s1 s2 p) ∧
      bitsAt ((m.grdTrip false v ts).reg 0x2C1C) 0 24 = min 0xFFFFFF (bitsAt (m.reg 0x2C1C) 0 24 + 1) ∧
      (m.grdTrip false v ts).flag 0x2C18 0 = true ∧ ∀ p, (m.grdTrip false v ts).flag (intsrc p) 5 = true := by
  obtain ⟨s1, s2, k, henter⟩ := m.grdEnter_release (st := .trip) (by decide)
  have hrow : ((({ m with grd := m.grd.tripped s1 s2 m.grd.statAt, free := k } : Mach).grdStatus (bitMask 0)).count
      0x2C1C).grdSignal 0x0801 (word (v * 65536)) ts = m.grdTrip false v ts := by
    unfold Mach.grdTrip
    rw [henter]
    simp only [Bool.false_eq_true, if_false, htrip, hst]
    rfl
  obtain ⟨⟨p, hg⟩, hcount, hflag, hint⟩ := Mach.tripShown_effect
    (m := { m with grd := m.grd.tripped s1 s2 m.grd.statAt, free := k }) 0x0801 (word (v * 65536)) ts hc hn h1 h5 (by decide) hrow
  exact ⟨⟨s1, s2, p, hg⟩, hcount, hflag, hint⟩

end Sys2Proof.Machine
end

section
/-! SUPPORT. The periods of a HEALTHY path by their cause (R484, R490, R492): what the chains count, the first difference between them, and
the path that each period leaves. -/

namespace Sys2Proof.Machine

/-! ### What the chains count and find -/

theorem Mach.countedWith_parts (m : Mach) (ins : GuardInput) (u : GuardUpset) : (m.countedWith ins u).dec = decimated ins u ∧
    (m.countedWith ins u).impThr = ((m.grd.a.impThr : Int) + u.thrImp).toNat ∧
    (m.countedWith ins u).ospThr = ((m.grd.a.ospThr : Int) + u.thrOsp).toNat := ⟨rfl, rfl, rfl⟩

/-- A function that is not enabled counts nothing. -/
theorem Mach.countedWith_imp_off {m : Mach} (ins : GuardInput) (u : GuardUpset) (h : m.flag 0x2C00 0 = false) :
    (m.countedWith ins u).imp = 0 := by
  simp [Mach.countedWith, Mach.chainCount, h, persist]

theorem Mach.countedWith_osp_off {m : Mach} (ins : GuardInput) (u : GuardUpset) (h : m.flag 0x2C00 1 = false) :
    (m.countedWith ins u).osp = 0 := by
  simp [Mach.countedWith, Mach.chainCount, h, persist]

/-- A sound period leaves a chain's copies of the thresholds. -/
theorem GrdChain.take_sound (c : GrdChain) (ins : GuardInput) : c.take ins sound = { c with dec := decimated ins sound } := by
  simp [GrdChain.take, sound]

/-- The impact count of a sound chain. -/
theorem Mach.counted_imp (m : Mach) (ins : GuardInput) : (m.counted ins).imp =
    persist (m.fld 0x2C00 12 4 + 1) m.grd.a.imp (m.flag 0x2C00 0 && impAbove (decimated ins sound) m.grd.a.impThr) := by
  have hcmp : sound.cmp = false := rfl
  rw [Mach.counted, GrdChain.take_sound, Mach.chainCount, hcmp, Bool.bne_false]

/-- Nothing counts for an impact below its threshold. -/
theorem Mach.counted_imp_clear {m : Mach} {ins : GuardInput}
    (h : m.flag 0x2C00 0 = false ∨ impAbove (decimated ins sound) m.grd.a.impThr = false) : (m.counted ins).imp = 0 := by
  have hclear : (m.flag 0x2C00 0 && impAbove (decimated ins sound) m.grd.a.impThr) = false := Bool.and_eq_false_iff.mpr h
  rw [Mach.counted_imp, hclear]
  rfl

/-- An impact that has stood for all but one period of its persistence stands for the last. -/
theorem Mach.counted_imp_stands {m : Mach} {ins : GuardInput} (hon : m.flag 0x2C00 0 = true)
    (habove : impAbove (decimated ins sound) m.grd.a.impThr = true) (hstood : m.grd.a.imp = m.fld 0x2C00 12 4) :
    (m.counted ins).imp = m.fld 0x2C00 12 4 + 1 := by
  rw [Mach.counted_imp, hon, habove, hstood]
  simp [persist]

/-- A chain whose test vectors answer the other way fails where a sound one passes. -/
theorem Mach.vectorOk_upset (m : Mach) (c : GrdChain) (v : Nat) : m.vectorOk c true v = !m.vectorOk c false v := by
  unfold Mach.vectorOk
  dsimp only
  generalize (if v % 2 = 0 then _ else _ : Bool) = above
  cases above <;> by_cases hp : v / 2 % 2 = 0 <;> simp [hp]

/-- A chain with sound copies of the thresholds whose vectors answer the other way fails its period's vectors. -/
theorem Mach.vectorsOk_upset {m : Mach} {c : GrdChain} {u : GuardUpset} (himp : c.impThr = m.grdImpThr 0)
    (hosp : c.ospThr = m.grdOspThr 0) (hi : 0 < c.impThr) (ho : 0 < c.ospThr) (hu : u.vec = true) (t : Nat) :
    m.vectorsOk c u t = false := by
  refine List.all_eq_false.mpr ⟨0, by simp, ?_⟩
  rw [hu, Mach.vectorOk_upset, Mach.vectorOk_copy himp hosp hi ho]
  decide

/-- What a second chain upset by `u` is found with, when its counts are the first's (R490): the first difference in slot order. -/
theorem Mach.mismatch_upset {m : Mach} {ins : GuardInput} {u : GuardUpset} {cause : Nat} (hm : m.comparesNow)
    (hoff : m.flag 0x2C00 0 = false)
    (hcause : (cause = 1 ∧ decimated ins sound ≠ decimated ins u) ∨
      (cause = 2 ∧ decimated ins sound = decimated ins u ∧ u.cmp = true) ∨
      (cause = 6 ∧ decimated ins sound = decimated ins u ∧ u.cmp = false ∧ u.thrImp ≠ 0) ∨
      (cause = 3 ∧ decimated ins sound = decimated ins u ∧ u.cmp = false ∧ u.thrImp = 0 ∧ u.thrOsp = 0 ∧ u.vec = true)) :
    (m.entered ins u).mismatch (m.counted ins) (m.countedWith ins u) sound u = some cause := by
  obtain ⟨-, -, -, -, -, hosp, -, himp, hospt, hi, ho⟩ := hm
  obtain ⟨hdec, hthr, hospthr⟩ := m.counted_parts ins
  obtain ⟨hdec', hthr', hospthr'⟩ := m.countedWith_parts ins u
  have hi1 : (m.counted ins).imp = 0 := m.countedWith_imp_off ins sound hoff
  have hi2 := m.countedWith_imp_off ins u hoff
  have ho1 : (m.counted ins).osp = 0 := m.countedWith_osp_off ins sound hosp
  have ho2 := m.countedWith_osp_off ins u hosp
  have hcmp : sound.cmp = false := rfl
  unfold Mach.mismatch
  rw [hdec, hdec', hthr, hthr', hospthr, hospthr', hi1, hi2, ho1, ho2, hcmp]
  rcases hcause with ⟨rfl, hd⟩ | ⟨rfl, hd, hc⟩ | ⟨rfl, hd, hc, ht⟩ | ⟨rfl, hd, hc, ht, hto, hv⟩
  case inl => exact if_pos hd
  case inr.inl => rw [if_neg (not_not_intro hd), hc]; rfl
  case inr.inr.inl =>
    have hne : m.grd.a.impThr ≠ ((m.grd.a.impThr : Int) + u.thrImp).toNat := by omega
    rw [if_neg (not_not_intro hd), hc]
    simp [hne]
  case inr.inr.inr =>
    have hbad : (m.entered ins u).vectorsOk (m.countedWith ins u) u (m.entered ins u).ts = false := by
      rw [ht, Int.add_zero, Int.toNat_natCast] at hthr'
      rw [hto, Int.add_zero, Int.toNat_natCast] at hospthr'
      exact Mach.vectorsOk_upset (hthr'.trans himp) (hospthr'.trans hospt) (hthr' ▸ hi) (hospthr' ▸ ho) hv _
    rw [if_neg (not_not_intro hd), hc, hbad, ht, hto]
    simp

/-! ### The periods -/

/-- In a sound period the chains mismatch in nothing. -/
theorem Mach.mismatch_counted {m : Mach} (ins : GuardInput) (hm : m.comparesNow) :
    (m.entered ins sound).mismatch (m.counted ins) (m.countedWith ins sound) sound sound = none := by
  obtain ⟨-, -, -, -, -, -, -, himp, hospt, hi, ho⟩ := hm
  obtain ⟨-, hthr, hospthr⟩ := m.counted_parts ins
  exact Mach.mismatch_alike (hthr.trans himp) (hospthr.trans hospt) (hthr ▸ hi) (hospthr ▸ ho)

/-- A sound period without a crossing leaves a HEALTHY path as it was, but for what it compared. -/
theorem Mach.guardPeriod_quiet {m : Mach} {ins : GuardInput} (hm : m.comparesNow) (hst : m.grd.st = .healthy)
    (hack : m.grd.ack = false) (hclear : (m.counted ins).imp = 0) : m.guardPeriod ins sound sound = m.compared ins := by
  obtain ⟨hkept, -⟩ := Mach.grdState_healthy (m := m.chainsCounted ins sound) hst
  rw [Mach.guardPeriod_healthy ins sound hm hst, Mach.mismatch_counted ins hm, Mach.impCrossing_none _ hclear, hkept]
  exact Mach.grdAckTest_none (m := m.compared ins) hack

/-- A sound period that fills an impact's persistence trips the path. -/
theorem Mach.guardPeriod_trips {m : Mach} {ins : GuardInput} (hm : m.comparesNow) (hst : m.grd.st = .healthy)
    (hstands : (m.counted ins).imp = m.fld 0x2C00 12 4 + 1) (hstood : m.grd.a.imp = m.fld 0x2C00 12 4) : ∃ v t,
    m.guardPeriod ins sound sound = (((m.chainsCounted ins sound).grdTrip false v t).grdPeaks (decimated ins sound)).grdAckTest := by
  obtain ⟨v, t, hcross⟩ := Mach.impCrossing_reached (m := m.entered ins sound) (c := m.counted ins) hstands hstood
  have hcross : (m.entered ins sound).impCrossing (m.counted ins) (m.countedWith ins sound) = some (v, t) := hcross
  obtain ⟨-, htrips, -⟩ := Mach.grdState_healthy (m := m.chainsCounted ins sound) hst
  exact ⟨v, t, by rw [Mach.guardPeriod_healthy ins sound hm hst, Mach.mismatch_counted ins hm, hcross, htrips]⟩

/-- A period that finds the second chain different puts the path in FAULT. -/
theorem Mach.guardPeriod_faults {m : Mach} {ins : GuardInput} {u : GuardUpset} {cause : Nat} (hm : m.comparesNow)
    (hst : m.grd.st = .healthy) (hoff : m.flag 0x2C00 0 = false)
    (hmis : (m.entered ins u).mismatch (m.counted ins) (m.countedWith ins u) sound u = some cause) :
    m.guardPeriod ins sound u = (((m.chainsCounted ins u).grdFault cause).grdPeaks (decimated ins sound)).grdAckTest := by
  obtain ⟨-, -, hfaults⟩ := Mach.grdState_healthy (m := m.chainsCounted ins u) hst
  rw [Mach.guardPeriod_healthy ins u hm hst, hmis, Mach.impCrossing_none _ (Mach.counted_imp_clear (.inl hoff)), hfaults]

/-- The parts that a period of the guard path may change. -/
theorem Mach.guardPeriod_changesOnly (m : Mach) (ins : GuardInput) (ua ub : GuardUpset) :
    m.changesOnly (m.guardPeriod ins ua ub) [.regs, .pa, .pb, .flt, .evt, .grd, .buf, .sec, .nv, .free] :=
  (Mach.guardPeriod_within m ins ua ub (m.within_refl _) rfl).1

/-- Settles O33: a trip by `Mach.guardPeriod_trips` and `Mach.grdTrip_impact`, a period without a crossing by
`Mach.guardPeriod_quiet`, a difference by `Mach.mismatch_upset` and `Mach.guardPeriod_faults`. -/
theorem guardPeriods : Obligations.GuardPeriods := by
  intro s ins hc hn hm hst hack
  have ⟨h1, h5, _⟩ := hm
  refine ⟨fun hon habove hstood htrip => ?_, fun hclear => ?_, fun u cause hoff hcause => ?_⟩
  · obtain ⟨v, ts, hrow⟩ := Mach.guardPeriod_trips hm hst (Mach.counted_imp_stands hon habove hstood) hstood
    have hparts := s.m.guardPeriod_changesOnly ins sound sound
    have hnot : (s.m.chainsCounted ins sound).grd.st ≠ .trip := by
      rw [show (s.m.chainsCounted ins sound).grd.st = .healthy from hst]
      decide
    obtain ⟨⟨s1, s2, p, hg⟩, hcount, hflag, hint⟩ := Mach.grdTrip_impact (m := s.m.chainsCounted ins sound) v ts hc hn h1 h5
      hnot htrip
    generalize (s.m.chainsCounted ins sound).grdTrip false v ts = t at hrow hg hcount hflag hint
    have hwait : (t.grdPeaks (decimated ins sound)).grd.ack = false := by
      change t.grd.ack = false
      rw [hg]
      exact hack
    rw [Mach.grdAckTest_none hwait] at hrow
    rw [hrow] at hparts
    refine ⟨⟨_, s.pending⟩, congrArg (goOn s) hrow, rfl, ?_, ?_, ?_, ?_, ?_, ?_, ?_, ?_, hcount, hflag, hint, hparts⟩ <;>
      simp only [Mach.grdPeaks, hg] <;> rfl
  · have hrow := Mach.guardPeriod_quiet hm hst hack (Mach.counted_imp_clear hclear)
    have hclear := Mach.counted_imp_clear hclear
    exact ⟨⟨_, s.pending⟩, congrArg (goOn s) hrow, rfl, hst, hclear, hclear, rfl, rfl, rfl, s.m.grd_changesOnly _⟩
  · have hrow := Mach.guardPeriod_faults hm hst hoff (Mach.mismatch_upset hm hoff hcause)
    have hparts := s.m.guardPeriod_changesOnly ins sound u
    obtain ⟨e1, e2, e3, e4, e5, e6⟩ := Mach.grdFault_effect (m := s.m.chainsCounted ins u) cause hc h1 h5
    generalize (s.m.chainsCounted ins u).grdFault cause = t at hrow e1 e2 e3 e4 e5 e6
    have hfault : (t.grdPeaks (decimated ins sound)).grd.st ≠ .trip := by
      change t.grd.st ≠ .trip
      rw [e1]
      decide
    rw [Mach.grdAckTest_untripped hfault] at hrow
    rw [hrow] at hparts
    exact ⟨⟨_, s.pending⟩, congrArg (goOn s) hrow, rfl, e1, e2, e3, e4, e5, e6, hparts⟩

end Sys2Proof.Machine
end

section
/-! SUPPORT. A command acts on the machine alone: it neither reads nor changes the commands that wait behind it. -/

namespace Sys2Proof.Machine

/-- An outcome with other commands waiting. -/
def waitingBehind (rest : List Instr) : Host.Outcome State Fault Refusal → Host.Outcome State Fault Refusal
  | .next t => .next { t with pending := rest }
  | o => o

/-- What waits behind a command plays no part in its outcome: each command is `goOn` of a function of the machine. -/
theorem exec_waitingBehind (i : Instr) (m : Mach) (rest : List Instr) :
    exec i ⟨m, rest⟩ = waitingBehind rest (exec i ⟨m, []⟩) := by
  cases i <;> conv_lhs => whnf
  all_goals conv_rhs => whnf

/-- Settles O57: the next state by `exec_within`, the queue by `exec_waitingBehind`. -/
theorem commandsAnswerAndLeaveQueue : Obligations.CommandsAnswerAndLeaveQueue := by
  intro i m rest
  obtain ⟨n, hn, -⟩ := exec_within i ⟨m, []⟩
  have hall : ∀ rest', exec i ⟨m, rest'⟩ = .next ⟨n, rest'⟩ := fun rest' => by
    rw [exec_waitingBehind, hn]
    rfl
  exact ⟨n, hall rest, hall⟩

end Sys2Proof.Machine
end

section
/-! SUPPORT. APPLY while a gap record waits in D0 (R28, R531, R656). -/

namespace Sys2Proof.Machine

/-- Q3 asks for one bank less than it has, and the record of a discard of Q0 still waits in D0, as after a time in which the buffer took
no words (R28). -/
def gapWaiting : Mach :=
  { Mach.reset.setFld (qBase 3) 0 8 15 with buf := { Mach.reset.buf with pendingGaps := [⟨1, 0, 0, 1, 0, 0⟩] } }

/-- The core may write APPLY there. -/
theorem gapWaiting_takesWrite : gapWaiting.takesWrite .core .direct 0x1C00 := ⟨by decide, by decide⟩

/-- APPLY keeps the banks of Q0, but the record that waited enters Q3 with it and counts for the next seal of Q0 (R656). -/
theorem gapWaiting_counts : ((gapWaiting.oneWrite .core .direct 0x1C00 1).q 0).sealGaps = 1 := by decide +kernel

/-- Refutes O25, by its clause on the queues whose banks APPLY keeps: a gap record of such a queue that waits in D0 enters Q3 with APPLY's
own records, and the queue counts it for the next seal. -/
theorem not_bufferSettings : ¬ Obligations.BufferSettings := by
  intro h
  obtain ⟨t, ht, -, -, -, hkept, -⟩ :=
    h.1 ⟨gapWaiting, []⟩ .core 1 (by decide) (by decide) gapWaiting_takesWrite (by decide) (by decide) (by decide)
  have hq := hkept 0 (by decide) (by decide) (by decide)
  obtain rfl := Host.Outcome.next.inj ht
  exact absurd (gapWaiting_counts.symm.trans (congrArg Queue.sealGaps hq)) (by decide)

end Sys2Proof.Machine
end

section
/-! SUPPORT. START over a status that the register memory lists twice (R587). -/

namespace Sys2Proof.Machine

/-- A register memory that lists the engine status twice, in the FOSC cycle in which engine 0 has stalled. -/
def stalledTwice : Mach :=
  { Mach.reset.updEng 0 (fun e => { e with undo := some ⟨Mach.reset.clk.now, 0, 0, 0, 0, false⟩ }) with
    regs := { Mach.reset.regs with words := Mach.reset.regs.words ++ [(0x2724, 1), (0x2724, 1)] } }

/-- The core may start engine 0 there. -/
theorem stalledTwice_takesWrite : stalledTwice.takesWrite .core .direct 0x2708 := ⟨by decide, by decide⟩

/-- The START clears the stall bit in one entry, and the bit still reads as 1. -/
theorem stalledTwice_keepsFlag : (stalledTwice.oneWrite .core .direct 0x2708 1).flag 0x2724 0 = true := by decide +kernel

/-- Refutes O42, by its clause on a START in the cycle of a stall (R587): the statement does not ask that the register memory be
canonical, and a status that stands there twice keeps its stall bit. -/
theorem not_engineWrites : ¬ Obligations.EngineWrites := by
  intro h
  obtain ⟨hstart, -⟩ := h ⟨stalledTwice, []⟩ .core 1 rfl
  obtain ⟨t, ht, -, -, -, -, hundo⟩ := hstart stalledTwice_takesWrite (by decide)
  obtain ⟨-, -, -, hflag, -⟩ := hundo 0 (by decide) _ (by decide) rfl rfl
  obtain rfl := Host.Outcome.next.inj ht
  exact absurd (stalledTwice_keepsFlag.symm.trans hflag) (by decide)

end Sys2Proof.Machine
end

section
/-! SUPPORT. Engine ticks and turns (R560 to R563), and the instructions of flow, pins and interrupts (R565, R570, R572, R579). -/

namespace Sys2Proof.Machine

theorem Mach.eng_changesOnly (m : Mach) (e : Engines) : m.changesOnly { m with eng := e } [.eng] := fun x hx => by
  cases x <;> first | rfl | exact absurd (List.mem_singleton_self _) hx

theorem Mach.updEng_engine_ne {m : Mach} {e j : Nat} (f : Eng → Eng) (h : j ≠ e) : (m.updEng e f).engine j = m.engine j :=
  (listUpd_getD ..).trans (if_neg fun hj => h hj.1)

/-! ### The tick of an engine that runs (R560, R561) -/

/-- The block as its engines see these levels at the EP pins. -/
def Mach.seeing (m : Mach) (levels : BitVec 16) : Mach := { m with eng := { m.eng with levels := levels } }

theorem Mach.atPins_seeing (m : Mach) (levels : BitVec 16) : m.atPins levels = m.seeing (m.atPins levels).eng.levels := by
  unfold Mach.atPins
  split <;> rfl

/-- Engine `n` past one more tick. -/
def Mach.ticked (m : Mach) (n : Nat) : Mach := m.updEng n fun e => { e with tick := e.tick + 1 }

/-- What runs on by itself at tick `t` of engine `n` in these contexts. -/
def Mach.opTicks (m : Mach) (n t : Nat) (cs : List Nat) : Mach :=
  cs.foldl (fun (m : Mach) c => if (m.engine n).run = .running && m.ctxOn n c then m.opTick n c t else m) m

theorem Mach.opTick_short {m : Mach} {n c : Nat} (t : Nat) (h : (m.ctx n c).op.long = false) : m.opTick n c t = m := by
  unfold Mach.opTick
  split
  case h_1 hop => simp [hop, CtxOp.long] at h
  case h_2 hop => simp [hop, CtxOp.long] at h
  case h_3 => rfl

theorem Mach.opTicks_short {m : Mach} {n : Nat} (t : Nat) {cs : List Nat} (h : ∀ c ∈ cs, (m.ctx n c).op.long = false) :
    m.opTicks n t cs = m := by
  induction cs with
  | nil => rfl
  | cons c cs ih =>
    obtain ⟨hc, hcs⟩ := List.forall_mem_cons.mp h
    rw [Mach.opTicks, List.foldl_cons, Mach.opTick_short t hc, ite_self]
    exact ih hcs

/-- Where one context alone has an operation in progress, its operation runs on. -/
theorem Mach.opTicks_one {m : Mach} {n c : Nat} (t : Nat) (hc : c < 8) (hrun : (m.engine n).run = .running) (hon : m.ctxOn n c = true)
    (hothers : ∀ k, k ≠ c → (m.ctx n k).op.long = false) (hkept : ∀ k, k ≠ c → ((m.opTick n c t).ctx n k).op.long = false) :
    m.opTicks n t (List.range 8) = m.opTick n c t := by
  have hsplit : List.range 8 = List.range c ++ c :: (List.range (7 - c)).map (· + (c + 1)) := by
    interval_cases c <;> rfl
  have hbefore := Mach.opTicks_short (m := m) (n := n) t (cs := List.range c) fun k hk =>
    hothers k (List.mem_range.mp hk).ne
  have hafter := Mach.opTicks_short (m := m.opTick n c t) (n := n) t (cs := (List.range (7 - c)).map (· + (c + 1))) fun k hk => by
    obtain ⟨i, -, rfl⟩ := List.mem_map.mp hk
    exact hkept _ (by omega)
  unfold Mach.opTicks at *
  rw [hsplit, List.foldl_append, hbefore, List.foldl_cons, hrun, hon]
  exact hafter

/-- A tick that an engine runs: what runs on by itself in its contexts, and the turn, unless an operation has stalled the engine. -/
theorem Mach.engineTick_runs {m : Mach} {n : Nat} (levels : BitVec 16) (hdue : m.tickDue n = true)
    (hrun : (m.engine n).run = .running) (hstop : m.stopDue n = false) (k : Mach)
    (hk : (m.atPins levels).opTicks n (m.engine n).tick (List.range 8) = k) (hon : (k.engine n).run = .running) :
    m.engineTick n levels = (k.engTurn n (m.engine n).turn (m.engine n).tick).ticked n := by
  rw [Mach.engineTick]
  rw [Mach.atPins_seeing] at hk ⊢
  generalize (m.atPins levels).eng.levels = l at hk ⊢
  have hdue : (m.seeing l).tickDue n = true := hdue
  have hstop : (m.seeing l).stopDue n = false := hstop
  have hengine : (m.seeing l).engine n = m.engine n := rfl
  unfold Mach.opTicks at hk
  simp only [hdue, hstop, hengine, hrun, hk, hon, if_true, Bool.not_true, Bool.false_eq_true, if_false, reduceCtorEq]
  rfl

theorem Mach.engTurn_runs {m : Mach} {n c t : Nat} (hon : m.ctxOn n c = true) (hop : (m.ctx n c).op.long = false)
    (hcause : m.engCause n (m.engWord n (m.ctx n c).pc) = 0) :
    m.engTurn n c t = m.engExec n c (m.engWord n (m.ctx n c).pc) t := by
  simp [Mach.engTurn, hon, hop, hcause]

theorem Mach.engNext_lt {m : Mach} {n c : Nat} {w : Word} (h : m.engNext n c w) :
    n < m.eng.engs.length ∧ c < (m.engine n).ctxs.length := by
  obtain ⟨hlen, hctxs, hdue, hrun, hstop, hturn, -⟩ := h
  refine ⟨?_, ?_⟩
  · by_contra hn
    have hfresh : m.engine n = Eng.fresh := by
      rw [Mach.engine, List.getD_eq_getElem?_getD, List.getElem?_eq_none (Nat.le_of_not_lt hn)]
      rfl
    rw [hfresh] at hrun
    exact absurd hrun (by decide)
  · rw [hctxs, ← hturn]
    exact Nat.mod_lt _ (by decide)

theorem Mach.engNext_turnIs {m : Mach} {n c : Nat} {w : Word} (h : m.engNext n c w) : m.turnIs n c (bitsAt w 28 4) = true := by
  obtain ⟨-, hc⟩ := m.engNext_lt h
  obtain ⟨hlen, hctxs, hdue, hrun, hstop, hturn, hon, hword, hcause, hpc, hshort⟩ := h
  have hx : (m.engine n).ctxs[c]? = some (m.ctx n c) := by
    rw [Mach.ctx, List.getD_eq_getElem?_getD, List.getElem?_eq_getElem hc]
    rfl
  simp [Mach.turnIs, hdue, hrun, hstop, hturn, hon, hx, hshort, hword]

/-- A context's turn executes its instruction, and the tick passes. -/
theorem Mach.turnOf_executes {m : Mach} {n c : Nat} {w : Word} (levels : BitVec 16) (h : m.engNext n c w) :
    m.turnOf n c (bitsAt w 28 4) levels = ((m.atPins levels).engExec n c w (m.engine n).tick).ticked n := by
  rw [Mach.turnOf, if_pos (Mach.engNext_turnIs h)]
  obtain ⟨hlen, hctxs, hdue, hrun, hstop, hturn, hon, rfl, hcause, hpc, hshort⟩ := h
  have hpins := m.atPins_seeing levels
  have hops : (m.atPins levels).opTicks n (m.engine n).tick (List.range 8) = m.atPins levels := by
    rw [hpins]
    exact Mach.opTicks_short (m := m.seeing _) _ fun k _ => hshort k
  rw [Mach.engineTick_runs levels hdue hrun hstop _ hops (by rw [hpins]; exact hrun), hturn, hpins]
  exact congrArg (Mach.ticked · n) (Mach.engTurn_runs (m := m.seeing _) hon (hshort c) hcause)

/-! ### What a tick leaves of contexts and engines -/

/-- A context past an instruction. -/
def Ctx.past (x : Ctx) : Ctx := { x with pc := x.pc + 1, op := .ready }

/-- Where engine `n` keeps all but its latch and context `c`, and every other engine is as it was, the tick passes as `Mach.ctxBecame`
says. -/
theorem Mach.ctxBecame_of_engine {m k : Mach} {n c : Nat} {i : Bool} {f : Ctx → Ctx} (hn : n < k.eng.engs.length)
    (hc : c < (m.engine n).ctxs.length) (hrun : (m.engine n).run = .running)
    (hself : k.engine n = { m.engine n with irq := i, ctxs := listUpd (m.engine n).ctxs c f })
    (hothers : ∀ j, j ≠ n → k.engine j = m.engine j) : m.ctxBecame (k.ticked n) n c (f (m.ctx n c)) := by
  have ht : (k.ticked n).engine n = { k.engine n with tick := (k.engine n).tick + 1 } := Mach.updEng_engine_self _ hn
  have hctx : ∀ j, (k.ticked n).ctx n j = (listUpd (m.engine n).ctxs c f).getD j Ctx.fresh := fun j => by
    rw [Mach.ctx, ht, hself]
  refine ⟨(hctx c).trans ((listUpd_getD ..).trans (if_pos ⟨rfl, hc⟩)),
    fun j hj => (hctx j).trans ((listUpd_getD ..).trans (if_neg fun h => hj h.1)), ?_, ?_,
    fun j hj => (Mach.updEng_engine_ne _ hj).trans (hothers j hj)⟩
  · rw [ht, hself]
  · rw [ht, hself]
    exact hrun

theorem Mach.ctxBecame_of_updCtx {m k : Mach} {n c : Nat} {f : Ctx → Ctx} (hn : n < m.eng.engs.length)
    (hc : c < (m.engine n).ctxs.length) (hrun : (m.engine n).run = .running)
    (hk : k.eng.engs = (m.updCtx n c f).eng.engs) : m.ctxBecame (k.ticked n) n c (f (m.ctx n c)) := by
  have hengine : ∀ j, k.engine j = (m.updCtx n c f).engine j := fun j => by rw [Mach.engine, hk, Mach.engine]
  exact Mach.ctxBecame_of_engine (i := (m.engine n).irq) (hk ▸ hn.trans_eq (listUpd_length ..).symm) hc hrun
    ((hengine n).trans (Mach.updEng_engine_self _ hn)) fun j hj => (hengine j).trans (Mach.updEng_engine_ne _ hj)

theorem Mach.engAdvance_past {m : Mach} {n c : Nat} (hpc : (m.ctx n c).pc < 255) : m.engAdvance n c = m.updCtx n c Ctx.past := by
  rw [Mach.engAdvance, if_neg hpc.ne]
  rfl

/-- The row of a context's turn. -/
theorem turnRow_executes {s : State} {i : Instr} {n c op : Nat} {levels l : BitVec 16} {w : Word} {k : Mach} (h : s.m.engNext n c w)
    (hl : s.m.atPins levels = s.m.seeing l) (hop : bitsAt w 28 4 = op) (hrow : exec i s = goOn s (s.m.turnOf n c op levels))
    (he : (s.m.seeing l).engExec n c w (s.m.engine n).tick = k) : exec i s = goOn s (k.ticked n) := by
  rw [hrow, ← hop, Mach.turnOf_executes levels h, hl, he]

/-- The row of a context's turn whose instruction changes the engine block alone, and of the contexts that one. -/
theorem turnRow {s : State} {i : Instr} {n c op : Nat} {levels l : BitVec 16} {w : Word} {k : Mach} (f : Ctx → Ctx)
    (h : s.m.engNext n c w) (hl : s.m.atPins levels = s.m.seeing l) (hop : bitsAt w 28 4 = op)
    (hrow : exec i s = goOn s (s.m.turnOf n c op levels)) (he : (s.m.seeing l).engExec n c w (s.m.engine n).tick = k)
    (hk : k = { s.m with eng := k.eng }) (hctx : k.eng.engs = (s.m.updCtx n c f).eng.engs) :
    exec i s = goOn s (k.ticked n) ∧ s.m.ctxBecame (k.ticked n) n c (f (s.m.ctx n c)) ∧ s.m.changesOnly (k.ticked n) [.eng] := by
  obtain ⟨hn, hc⟩ := Mach.engNext_lt h
  have ⟨_, _, _, hrun, _⟩ := h
  refine ⟨turnRow_executes h hl hop hrow he, Mach.ctxBecame_of_updCtx hn hc hrun hctx, ?_⟩
  rw [hk]
  exact s.m.eng_changesOnly _

theorem Mach.atPins_sees (m : Mach) (levels : BitVec 16) : ∃ l, m.atPins levels = m.seeing l := ⟨_, m.atPins_seeing levels⟩

/-! ### JMP and DJNZ (R572) -/

theorem Mach.engExec_jmp {m : Mach} {n c t : Nat} {w : Word} (hop : bitsAt w 28 4 = 0) (hpc : (m.ctx n c).pc < 255) :
    m.engExec n c w t =
      m.updCtx n c fun x => { x with pc := if m.engCond n c w then bitsAt w 0 8 else x.pc + 1, op := .ready } := by
  simp only [Mach.engExec, hop, Mach.engJmpOp]
  cases m.engCond n c w
  case false => exact Mach.engAdvance_past hpc
  case true => rfl

theorem Mach.updCtx_updCtx (m : Mach) (n c : Nat) (f g : Ctx → Ctx) :
    (m.updCtx n c f).updCtx n c g = m.updCtx n c fun x => g (f x) := by
  simp only [Mach.updCtx, Mach.updEng, listUpd_listUpd]

theorem Mach.engAdvance_updCtx {m : Mach} {n c : Nat} (f : Ctx → Ctx) (hn : n < m.eng.engs.length) (hc : c < (m.engine n).ctxs.length)
    (hpc : (f (m.ctx n c)).pc < 255) : (m.updCtx n c f).engAdvance n c = m.updCtx n c fun x => (f x).past := by
  rw [Mach.engAdvance_past (by rwa [Mach.updCtx_ctx_self f hn hc]), Mach.updCtx_updCtx]

theorem Mach.engExec_djnz {m : Mach} {n c t : Nat} {w v : Word} (hop : bitsAt w 28 4 = 1) (hn : n < m.eng.engs.length)
    (hc : c < (m.engine n).ctxs.length) (hpc : (m.ctx n c).pc < 255)
    (hv : (if bitAt w 24 then (m.ctx n c).cb else (m.ctx n c).ca) - 1 = v) :
    m.engExec n c w t = m.updCtx n c fun x => { x with
      ca := if bitAt w 24 then x.ca else v
      cb := if bitAt w 24 then v else x.cb
      pc := if v = 0 then x.pc + 1 else bitsAt w 0 8, op := .ready } := by
  simp only [Mach.engExec, hop, Mach.engDjnzOp, hv]
  by_cases hz : v = 0
  · simp only [if_pos hz]
    rw [Mach.engAdvance_updCtx _ hn hc (by cases bitAt w 24 <;> exact hpc)]
    cases bitAt w 24 <;> rfl
  · simp only [if_neg hz, Mach.engJump, Mach.updCtx_updCtx]
    cases bitAt w 24 <;> rfl

/-! ### SET (R572) -/

/-- The pins of a list set in a latch word. -/
def latchBits (l : BitVec 16) (ps : List (Nat × Bool)) : BitVec 16 := ps.foldl (fun l p => latchBit l p.1 p.2) l

theorem Mach.pinOuts_eng (m : Mach) (ps : List (Nat × Bool)) :
    ps.foldl (fun (m : Mach) p => m.pinOut p.1 p.2) m = { m with eng := { m.eng with out := latchBits m.eng.out ps } } := by
  induction ps generalizing m with
  | nil => rfl
  | cons p ps ih => exact ih _

theorem Mach.pinDrives_eng (m : Mach) (ps : List (Nat × Bool)) :
    ps.foldl (fun (m : Mach) p => m.pinDrive p.1 p.2) m = { m with eng := { m.eng with drive := latchBits m.eng.drive ps } } := by
  induction ps generalizing m with
  | nil => rfl
  | cons p ps ih => exact ih _

theorem latchBit_getLsbD (l : BitVec 16) {p j : Nat} (v : Bool) (hj : j < 16) :
    (latchBit l p v).getLsbD j = if p = j then v else l.getLsbD j := by
  unfold latchBit
  cases v <;> simp only [Bool.false_eq_true, if_false, if_true, BitVec.getLsbD_or, BitVec.getLsbD_and, BitVec.getLsbD_not,
    BitVec.getLsbD_ofNat, Nat.testBit_two_pow, hj] <;> by_cases h : p = j <;> simp [h]

theorem latchBits_getLsbD (l : BitVec 16) {ps : List (Nat × Bool)} {j : Nat} (hd : (ps.map Prod.fst).Nodup) (hj : j < 16) :
    (latchBits l ps).getLsbD j = (ps.find? (fun x => x.1 == j)).elim (l.getLsbD j) Prod.snd := by
  induction ps generalizing l with
  | nil => rfl
  | cons p ps ih =>
    obtain ⟨hnot, hd⟩ := List.nodup_cons.mp hd
    rw [latchBits, List.foldl_cons, ← latchBits, ih _ hd, latchBit_getLsbD l p.2 hj, List.find?_cons]
    by_cases h : p.1 = j
    · have hnone : ps.find? (fun x => x.1 == j) = none :=
        List.find?_eq_none.mpr fun x hx hxj => hnot (h.trans (beq_iff_eq.mp hxj).symm ▸ List.mem_map_of_mem hx)
      simp [h, hnone]
    · rw [if_neg h, beq_false_of_ne h]

theorem maskPins_nodup (w : Word) : ((maskPins w).map Prod.fst).Nodup := by
  have h : (maskPins w).map Prod.fst = ((List.range 4).filter fun i => bitAt w (16 + i)).map (bitsAt w 20 4 + ·) := by
    simp [maskPins]
  rw [h]
  exact (List.nodup_range.filter _).map fun _ _ => Nat.add_left_cancel

theorem latchBits_set (l : BitVec 16) (w : Word) : latchesSet l (latchBits l (maskPins w)) w :=
  fun _ hj => latchBits_getLsbD l (maskPins_nodup w) hj


/-- What a SET does before the next address (R572). -/
def Mach.setTarget (m : Mach) (n c : Nat) (w : Word) : Mach :=
  match bitsAt w 24 4 with
  | 0 => { m with eng := { m.eng with out := latchBits m.eng.out (maskPins w) } }
  | 1 => { m with eng := { m.eng with drive := latchBits m.eng.drive (maskPins w) } }
  | 2 => m.updCtx n c fun x => { x with ca := wordOfInt (signed 24 (bitsAt w 0 24)) }
  | 3 => m.updCtx n c fun x => { x with cb := wordOfInt (signed 24 (bitsAt w 0 24)) }
  | 4 => m.setFlags (bitsAt w 0 16) 0
  | _ => m.setFlags 0 (bitsAt w 0 16)

section
variable {m : Mach} {n c : Nat} {w : Word}

theorem Mach.setTarget_out (hd : bitsAt w 24 4 = 0) :
    m.setTarget n c w = { m with eng := { m.eng with out := latchBits m.eng.out (maskPins w) } } := by
  simp only [Mach.setTarget, hd]

theorem Mach.setTarget_drive (hd : bitsAt w 24 4 = 1) :
    m.setTarget n c w = { m with eng := { m.eng with drive := latchBits m.eng.drive (maskPins w) } } := by
  simp only [Mach.setTarget, hd]

theorem Mach.setTarget_ca (hd : bitsAt w 24 4 = 2) :
    m.setTarget n c w = m.updCtx n c fun x => { x with ca := wordOfInt (signed 24 (bitsAt w 0 24)) } := by
  simp only [Mach.setTarget, hd]

theorem Mach.setTarget_cb (hd : bitsAt w 24 4 = 3) :
    m.setTarget n c w = m.updCtx n c fun x => { x with cb := wordOfInt (signed 24 (bitsAt w 0 24)) } := by
  simp only [Mach.setTarget, hd]

theorem Mach.setTarget_sets (hd : bitsAt w 24 4 = 4) : m.setTarget n c w = m.setFlags (bitsAt w 0 16) 0 := by
  simp only [Mach.setTarget, hd]

theorem Mach.setTarget_clears (hd : bitsAt w 24 4 = 5) : m.setTarget n c w = m.setFlags 0 (bitsAt w 0 16) := by
  simp only [Mach.setTarget, hd]

end

theorem Mach.engExec_set {m : Mach} {n c t : Nat} {w : Word} (hop : bitsAt w 28 4 = 2) (hn : n < m.eng.engs.length)
    (hc : c < (m.engine n).ctxs.length) (hpc : (m.ctx n c).pc < 255) :
    m.engExec n c w t = (m.setTarget n c w).updCtx n c Ctx.past := by
  have hset : m.engExec n c w t = (m.setTarget n c w).engAdvance n c := by
    simp only [Mach.engExec, hop, Mach.engSetOp, Mach.pinOuts_eng, Mach.pinDrives_eng]
    rfl
  rw [hset]
  refine Mach.engAdvance_past ?_
  unfold Mach.setTarget
  split
  case h_3 => rwa [Mach.updCtx_ctx_self _ hn hc]
  case h_4 => rwa [Mach.updCtx_ctx_self _ hn hc]
  all_goals exact hpc

theorem Mach.setTarget_eng (m : Mach) (n c : Nat) (w : Word) : m.setTarget n c w = { m with eng := (m.setTarget n c w).eng } := by
  unfold Mach.setTarget
  split <;> rfl

theorem Mach.setTarget_flags (m : Mach) (n c : Nat) {w : Word} (h : bitsAt w 24 4 < 4) :
    (m.setTarget n c w).eng.flags = m.eng.flags := by
  have hd : bitsAt w 24 4 = 0 ∨ bitsAt w 24 4 = 1 ∨ bitsAt w 24 4 = 2 ∨ bitsAt w 24 4 = 3 := by omega
  rcases hd with hd | hd | hd | hd <;> simp only [Mach.setTarget, hd] <;> rfl

/-! ### IRQ (R579, R580) -/

theorem Mach.irqSet_ctxs (m : Mach) (mask e : Nat) : ((m.irqSet mask).engine e).ctxs = (m.engine e).ctxs := by
  simp only [Mach.irqSet, Mach.engine, List.getD_eq_getElem?_getD, List.getElem?_map, List.getElem?_zipIdx]
  cases m.eng.engs[e]? with
  | none => rfl
  | some x => simp only [Option.map_some, Option.getD_some]; split <;> rfl

/-- The block as an IRQ of engine `n` sets latches and, where it asks, the engine's IRQ bit. -/
def Mach.interrupting (m : Mach) (n : Nat) (w : Word) : Mach :=
  if bitAt w 4 then (m.irqSet (bitsAt w 0 4)).sqBit 0x2724 (8 + n) else m.irqSet (bitsAt w 0 4)

theorem Mach.interrupting_eng (m : Mach) (n : Nat) (w : Word) : (m.interrupting n w).eng = (m.irqSet (bitsAt w 0 4)).eng := by
  unfold Mach.interrupting
  split
  · exact (Mach.sqBit_within _ 0x2724 (8 + n) (Mach.within_refl _ [.regs]) rfl).1 .eng (by simp)
  · rfl

theorem Mach.interrupting_edits {m : Mach} (l : BitVec 16) (n c : Nat) (w : Word) (f : Ctx → Ctx) (hclear : m.noClear) :
    m.Edits ((((m.seeing l).interrupting n w).updCtx n c f).ticked n) [.regs, .eng] [0x2724] := by
  have hsees : m.Edits (m.seeing l) [.regs, .eng] [0x2724] :=
    (Mach.Edits.refl hclear).other (qs := [.eng]) ⟨(m.eng_changesOnly _), id, id⟩ rfl
  have hsets : m.Edits ((m.seeing l).irqSet (bitsAt w 0 4)) [.regs, .eng] [0x2724] :=
    hsees.other (qs := [.eng]) (Mach.irqSet_within _ _ (Mach.within_refl _ _) rfl) rfl
  have hirq : m.Edits ((m.seeing l).interrupting n w) [.regs, .eng] [0x2724] := .ite (hsets.sqEvent _ (by simp) rfl) hsets
  have hctx := Mach.updCtx_within ((m.seeing l).interrupting n w) n c f (Mach.within_refl _ [.eng]) rfl
  exact hirq.other (qs := [.eng]) (Mach.updEng_within _ n _ hctx (by intro _ h; exact h) rfl) rfl

theorem Mach.interrupting_flag {m : Mach} {n : Nat} {w : Word} (hcan : m.canonical = true) (hn : n < 4) (hon : m.on 6 = true)
    (hw : bitAt w 4 = true) : (m.interrupting n w).flag 0x2724 (8 + n) = true := by
  rw [Mach.interrupting, if_pos hw]
  exact Mach.sqBit_sets (m := m.irqSet _) hcan (by omega) hon

theorem Mach.interrupting_engine (m : Mach) (n e : Nat) (w : Word) :
    (m.interrupting n w).engine e = (m.irqSet (bitsAt w 0 4)).engine e := by
  rw [Mach.engine, Mach.interrupting_eng, Mach.engine]

theorem Mach.interrupting_ctxs (m : Mach) (n e : Nat) (w : Word) : ((m.interrupting n w).engine e).ctxs = (m.engine e).ctxs := by
  rw [Mach.interrupting_engine, Mach.irqSet_ctxs]

theorem Mach.engExec_irq {m : Mach} {n c t : Nat} {w : Word} (hop : bitsAt w 28 4 = 11) (hpc : (m.ctx n c).pc < 255) :
    m.engExec n c w t = (m.interrupting n w).updCtx n c Ctx.past := by
  have hirq : m.engExec n c w t = (m.interrupting n w).engAdvance n c := by
    simp only [Mach.engExec, hop, Mach.engIrqOp]
    rfl
  rw [hirq]
  refine Mach.engAdvance_past ?_
  rwa [Mach.ctx, Mach.interrupting_ctxs]

theorem Mach.updEng_same {α : Type} (g : Eng → α) {m : Mach} {n : Nat} {f : Eng → Eng} (hf : ∀ x, g (f x) = g x) (e : Nat) :
    g ((m.updEng n f).engine e) = g (m.engine e) := by
  rw [Mach.engine, Mach.updEng, listUpd_getD]
  split
  case isTrue h => rw [hf, h.1]; rfl
  case isFalse => rfl

/-- What an IRQ leaves of latches and of its context, as the tick passes. -/
theorem Mach.interrupted_engines {m : Mach} {n c : Nat} (w : Word) (hlen : m.eng.engs.length = 4) (hn : n < 4)
    (hc : c < (m.engine n).ctxs.length) :
    (((m.interrupting n w).updCtx n c Ctx.past).ticked n).ctx n c = m.ctxPast n c ∧
      ∀ e < 4, ((((m.interrupting n w).updCtx n c Ctx.past).ticked n).engine e).irq = ((m.engine e).irq || bitAt w e) := by
  have hlen' : (m.interrupting n w).eng.engs.length = 4 := by
    rw [Mach.interrupting_eng, ← hlen]
    simp [Mach.irqSet]
  constructor
  · calc (((m.interrupting n w).updCtx n c Ctx.past).ticked n).ctx n c
      _ = ((m.interrupting n w).updCtx n c Ctx.past).ctx n c :=
        congrArg (List.getD · c Ctx.fresh) (Mach.updEng_same Eng.ctxs (by intro; rfl) n)
      _ = ((m.interrupting n w).ctx n c).past :=
        Mach.updCtx_ctx_self _ (hn.trans_eq hlen'.symm) (by rwa [Mach.interrupting_ctxs])
      _ = m.ctxPast n c := by
        rw [Mach.ctx, Mach.interrupting_ctxs]
        rfl
  · intro e he
    calc ((((m.interrupting n w).updCtx n c Ctx.past).ticked n).engine e).irq
      _ = (((m.interrupting n w).updCtx n c Ctx.past).engine e).irq := Mach.updEng_same Eng.irq (by intro; rfl) e
      _ = ((m.interrupting n w).engine e).irq := Mach.updEng_same Eng.irq (by intro; rfl) e
      _ = ((m.engine e).irq || (bitsAt w 0 4).testBit e) := by
        rw [Mach.interrupting_engine, Mach.irqSet_engine m _ (he.trans_eq hlen.symm)]
      _ = ((m.engine e).irq || bitAt w e) := by simp [testBit_bitsAt, he]

/-- Settles O39, by an equation of `Mach.engExec` for each instruction. -/
theorem engineFlow : Obligations.EngineFlow := by
  intro s n c levels w hcan h
  obtain ⟨hn, hc⟩ := Mach.engNext_lt h
  have ⟨hlen, _, hdue, hrun, _, _, _, _, _, hpc, _⟩ := h
  obtain ⟨l, hl⟩ := s.m.atPins_sees levels
  rw [hl]
  refine ⟨fun hop => ?_, fun hop => ?_, fun hop => ?_, fun hop hclear => ?_⟩
  · obtain ⟨hrow, hctx, hparts⟩ := turnRow (i := .engJmp n c levels) _ h hl hop rfl (Mach.engExec_jmp hop hpc) rfl rfl
    exact ⟨_, hrow, rfl, hctx, rfl, hparts⟩
  · obtain ⟨hrow, hctx, hparts⟩ := turnRow (i := .djnz n c levels) _ h hl hop rfl
      (Mach.engExec_djnz (m := s.m.seeing l) hop hn hc hpc rfl) rfl rfl
    exact ⟨_, _, hrow, rfl, rfl, hctx, rfl, hparts⟩
  · have hrow := turnRow_executes (i := .engSet n c levels) h hl hop rfl (Mach.engExec_set (m := s.m.seeing l) hop hn hc hpc)
    have hfirst : ∀ k : Mach, (s.m.seeing l).setTarget n.val c.val w = k → k.eng.engs = s.m.eng.engs →
        s.m.ctxBecame ((((s.m.seeing l).setTarget n.val c.val w).updCtx n.val c.val Ctx.past).ticked n.val) n.val c.val
          (s.m.ctxPast n.val c.val) := fun k hk he =>
      Mach.ctxBecame_of_updCtx (f := Ctx.past) hn hc hrun (congrArg (listUpd · n.val _) (hk ▸ he))
    have hcount : ∀ f : Ctx → Ctx, (s.m.seeing l).setTarget n.val c.val w = (s.m.seeing l).updCtx n.val c.val f →
        s.m.ctxBecame ((((s.m.seeing l).setTarget n.val c.val w).updCtx n.val c.val Ctx.past).ticked n.val) n.val c.val
          (f (s.m.ctx n.val c.val)).past := fun f hf => by
      rw [hf, Mach.updCtx_updCtx]
      exact Mach.ctxBecame_of_updCtx (f := fun x => (f x).past) hn hc hrun rfl
    refine ⟨_, hrow, rfl, fun hd => ⟨?_, ?_, hfirst _ (Mach.setTarget_out hd) rfl⟩,
      fun hd => ⟨?_, ?_, hfirst _ (Mach.setTarget_drive hd) rfl⟩, fun hd => hcount _ (Mach.setTarget_ca hd),
      fun hd => hcount _ (Mach.setTarget_cb hd), fun hd => ⟨?_, ?_, hfirst _ (Mach.setTarget_sets hd) rfl⟩,
      fun hd => ⟨?_, ?_, hfirst _ (Mach.setTarget_clears hd) rfl⟩,
      fun hd => (s.m.seeing l).setTarget_flags n.val c.val hd, ?_⟩
    · rw [Mach.setTarget_out hd]
      exact latchBits_set _ _
    · rw [Mach.setTarget_out hd]
      rfl
    · rw [Mach.setTarget_drive hd]
      exact latchBits_set _ _
    · rw [Mach.setTarget_drive hd]
      rfl
    · rw [Mach.setTarget_sets hd]
      exact congrArg Engines.flags ((s.m.seeing l).setFlags_sets _)
    · rw [Mach.setTarget_sets hd]
      exact ((s.m.seeing l).setFlags_seen _ _).2
    · rw [Mach.setTarget_clears hd]
      exact congrArg Engines.flags ((s.m.seeing l).setFlags_clears _).1
    · rw [Mach.setTarget_clears hd]
      exact ((s.m.seeing l).setFlags_seen _ _).2
    · rw [Mach.setTarget_eng]
      exact s.m.eng_changesOnly _
  · have hrow := turnRow_executes (i := .irq n c levels) h hl hop rfl (Mach.engExec_irq (m := s.m.seeing l) hop hpc)
    have hedits := Mach.interrupting_edits l n.val c.val w Ctx.past hclear
    have hon : s.m.on 6 = true := by
      simp only [Mach.tickDue, Bool.and_eq_true] at hdue
      exact hdue.1.1.1.1
    obtain ⟨hctx, hirq⟩ := Mach.interrupted_engines (m := s.m.seeing l) w hlen n.isLt hc
    exact ⟨_, hrow, rfl, hctx, hirq, fun hw => Mach.interrupting_flag (m := s.m.seeing l) hcan n.isLt hon hw, hedits.within.1,
      hedits.keepsRegs⟩
end Sys2Proof.Machine
end

section
/-! SUPPORT. The engine instructions that wait and move data (R572 to R574, R576 to R579). -/

namespace Sys2Proof.Machine

/-! ### DELAY and the waits (R574, R579) -/

theorem Mach.engExec_delay {m : Mach} {n c t : Nat} {w : Word} (hop : bitsAt w 28 4 = 3) :
    m.engExec n c w t = m.updCtx n c fun x => { x with op := .delay (t + bitsAt w 0 24) } := by
  simp only [Mach.engExec, hop]
  rfl

/-- An instruction whose condition holds goes on; otherwise it waits. -/
theorem Mach.engWaits {m : Mach} {n c : Nat} {p : Prop} [Decidable p] (op : CtxOp) (hpc : (m.ctx n c).pc < 255) :
    (if p then m.engAdvance n c else m.engWait n c op) = m.updCtx n c fun x => if p then x.past else { x with op := op } := by
  split
  · exact Mach.engAdvance_past hpc
  · rfl

theorem Mach.engExec_waitpin {m : Mach} {n c t : Nat} {w : Word} (hop : bitsAt w 28 4 = 4) (hpc : (m.ctx n c).pc < 255) :
    m.engExec n c w t = m.updCtx n c fun x =>
      if ((maskPins w).all fun p => m.pinRead p.1 == p.2) ≠ bitAt w 24 then x.past else { x with op := .waitPin } := by
  simp only [Mach.engExec, hop, Mach.engWaitpinOp, bne_iff_ne]
  exact Mach.engWaits _ hpc

theorem Mach.engExec_waitflag {m : Mach} {n c t : Nat} {w : Word} (hop : bitsAt w 28 4 = 5) (hpc : (m.ctx n c).pc < 255) :
    m.engExec n c w t = m.updCtx n c fun x =>
      if m.flagsSeen.getLsbD (bitsAt w 16 4) = bitAt w 20 then x.past else { x with op := .waitFlag } := by
  simp only [Mach.engExec, hop, Mach.engWaitflagOp, beq_iff_eq]
  exact Mach.engWaits _ hpc

/-- Outside the cycle of a set of its latch a WAITIRQ takes the latch, or waits. -/
theorem Mach.engExec_waitirq {m : Mach} {n c t : Nat} {w : Word} (hop : bitsAt w 28 4 = 6) (hpc : (m.ctx n c).pc < 255)
    (hn : n < m.eng.engs.length) (hset : ∀ u, (m.engine n).irqAt = some u → u.1 ≠ m.clk.now) :
    m.engExec n c w t = if (m.engine n).irq then (m.updEng n fun e => { e with irq := false }).updCtx n c Ctx.past
      else m.updCtx n c fun x => { x with op := .waitIrq } := by
  have htakes : m.engExec n c w t = if (m.engine n).irq then (m.updEng n fun e => { e with irq := false }).engAdvance n c
      else m.engWait n c .waitIrq := by
    simp only [Mach.engExec, hop, Mach.engWaitirqOp]
    split
    case h_1 t b hat => rw [if_neg (hset _ hat)]
    case h_2 => rfl
  rw [htakes]
  refine if_congr Iff.rfl (Mach.engAdvance_past ?_) rfl
  rwa [Mach.ctx, Mach.updEng_engine_self _ hn]

theorem Mach.updCtx_engine {m : Mach} {n c : Nat} {f : Ctx → Ctx} (hn : n < m.eng.engs.length) :
    (m.updCtx n c f).engine n = { m.engine n with ctxs := listUpd (m.engine n).ctxs c f } := Mach.updEng_engine_self _ hn

theorem Mach.updEng_length (m : Mach) (n : Nat) (f : Eng → Eng) : (m.updEng n f).eng.engs.length = m.eng.engs.length :=
  listUpd_length ..

theorem Mach.latchTaken_engine {m : Mach} {n c : Nat} {f : Ctx → Ctx} (hn : n < m.eng.engs.length) :
    ((m.updEng n fun e => { e with irq := false }).updCtx n c f).engine n =
      { m.engine n with irq := false, ctxs := listUpd (m.engine n).ctxs c f } := by
  rw [Mach.updCtx_engine (by rwa [Mach.updEng_length]), Mach.updEng_engine_self _ hn]

theorem exec_waitirq {s : State} {n : Fin 4} {c : Fin 8} {levels : BitVec 16} {w : Word} (h : s.m.engNext n.val c.val w)
    (hop : bitsAt w 28 4 = 6) (hset : ∀ u, (s.m.engine n.val).irqAt = some u → u.1 ≠ s.m.clk.now) :
    ∃ t, exec (.waitirq n c levels) s = .next t ∧ t.pending = s.pending ∧
      s.m.ctxBecame t.m n.val c.val
        (if (s.m.engine n.val).irq then s.m.ctxPast n.val c.val else { s.m.ctx n.val c.val with op := .waitIrq }) ∧
      (t.m.engine n.val).irq = false ∧ s.m.changesOnly t.m [.eng] := by
  obtain ⟨hn, hc⟩ := Mach.engNext_lt h
  have ⟨_, _, _, hrun, _, _, _, _, _, hpc, _⟩ := h
  obtain ⟨l, hl⟩ := s.m.atPins_sees levels
  have he := Mach.engExec_waitirq (m := s.m.seeing l) (t := (s.m.engine n.val).tick) hop hpc hn hset
  change _ = if (s.m.engine n.val).irq then _ else _ at he
  cases hirq : (s.m.engine n.val).irq with
  | true =>
    rw [if_pos hirq] at he
    have hself := Mach.latchTaken_engine (m := s.m.seeing l) (c := c.val) (f := Ctx.past) hn
    have hlen : n.val < (((s.m.seeing l).updEng n.val fun e => { e with irq := false }).updCtx n.val c.val Ctx.past).eng.engs.length := by
      rwa [Mach.updCtx, Mach.updEng_length, Mach.updEng_length]
    refine ⟨_, turnRow_executes (i := .waitirq n c levels) h hl hop rfl he, rfl, ?_, ?_, s.m.eng_changesOnly _⟩
    · exact Mach.ctxBecame_of_engine hlen hc hrun hself fun j hj =>
        (Mach.updEng_engine_ne _ hj).trans (Mach.updEng_engine_ne _ hj)
    · exact (congrArg Eng.irq (Mach.updEng_engine_self _ hlen)).trans (congrArg Eng.irq hself)
  | false =>
    rw [if_neg (by rw [hirq]; decide)] at he
    obtain ⟨hrow, hctx, hparts⟩ := turnRow (i := .waitirq n c levels) _ h hl hop rfl he rfl rfl
    exact ⟨_, hrow, rfl, hctx, (Mach.updEng_same Eng.irq (by intro; rfl) n.val).trans
      ((Mach.updEng_same Eng.irq (by intro; rfl) n.val).trans hirq), hparts⟩

/-! ### Shifts begin (R573) -/

/-- The latches of the pins as a shift sets its clock pin, where it uses one. -/
def clockLatch (l : BitVec 16) (w : Word) (v : Bool) : BitVec 16 := if bitAt w 19 then latchBit l (bitsAt w 20 4) v else l

theorem Mach.shiftClock_eng (m : Mach) (w : Word) (v : Bool) :
    m.shiftClock w v = { m with eng := { m.eng with out := clockLatch m.eng.out w v } } := by
  unfold Mach.shiftClock clockLatch
  split <;> rfl

theorem bitsAt_lt (w : Word) (lo n : Nat) : bitsAt w lo n < 2 ^ n := Nat.mod_lt _ (Nat.two_pow_pos n)

theorem clockLatch_getLsbD {w : Word} (l : BitVec 16) (v : Bool) (hw : bitAt w 19 = true) :
    (clockLatch l w v).getLsbD (bitsAt w 20 4) = v := by
  rw [clockLatch, if_pos hw, latchBit_getLsbD _ _ (bitsAt_lt ..), if_pos rfl]

/-- The start of a bit that goes out: the clock pin idle, the bit at the data pin, SH shifted on. -/
theorem Mach.shiftBit_out (m : Mach) (n c : Nat) (w : Word) : m.shiftBit n c true w = { m with eng := { m.eng with
    engs := (m.updCtx n c fun x => { x with sh := if bitAt w 16 then (m.ctx n c).sh >>> 1 else (m.ctx n c).sh <<< 1 }).eng.engs
    out := latchBit (clockLatch m.eng.out w (bitAt w 18)) (bitsAt w 24 4)
      (if bitAt w 16 then bitAt (m.ctx n c).sh 0 else bitAt (m.ctx n c).sh 31) } } := by
  simp only [Mach.shiftBit, Mach.shiftClock_eng]
  rfl

theorem Mach.engExec_shiftout {m : Mach} {n c t : Nat} {w : Word} (hop : bitsAt w 28 4 = 7) (hn : n < m.eng.engs.length)
    (hc : c < (m.engine n).ctxs.length) : m.engExec n c w t = { m with eng := { m.eng with
      engs := (m.updCtx n c fun x => { x with
        op := .shift true w t 0 x.sh, sh := if bitAt w 16 then (m.ctx n c).sh >>> 1 else (m.ctx n c).sh <<< 1 }).eng.engs
      out := latchBit (clockLatch m.eng.out w (bitAt w 18)) (bitsAt w 24 4)
        (if bitAt w 16 then bitAt (m.ctx n c).sh 0 else bitAt (m.ctx n c).sh 31) } } := by
  have hsh : ((m.updCtx n c fun x => { x with op := .shift true w t 0 x.sh }).ctx n c).sh = (m.ctx n c).sh := by
    rw [Mach.updCtx_ctx_self _ hn hc]
  simp only [Mach.engExec, hop, Mach.shiftBegin, Mach.shiftBit_out, hsh, Mach.updCtx_updCtx]
  rfl

theorem Mach.engExec_shiftin {m : Mach} {n c t : Nat} {w : Word} (hop : bitsAt w 28 4 = 8) : m.engExec n c w t = { m with eng :=
    { (m.updCtx n c fun x => { x with op := .shift false w t 0 x.sh }).eng with
      out := clockLatch m.eng.out w (bitAt w 18) } } := by
  simp only [Mach.engExec, hop, Mach.shiftBegin, Mach.shiftBit, Mach.shiftClock_eng]
  rfl

/-! ### PULL and PUSH (R576 to R578) -/

/-- A word that has no fault is no PULL with its reserved destination. -/
theorem Mach.engCause_pull {m : Mach} {n : Nat} {w : Word} (hcause : m.engCause n w = 0) (hop : bitsAt w 28 4 = 9) :
    bitsAt w 24 2 ≠ 3 := by
  intro hd
  have hbad : engUndefined w = true := by simp [engUndefined, hop, hd]
  simp [Mach.engCause, hbad] at hcause

/-- A context as a PULL takes its TXD word, in FOSC cycle `now`. -/
def Ctx.pulled (x : Ctx) (w : Word) (now : Nat) : Ctx := { x with
  txf := false, txAt := some now
  sh := if bitsAt w 24 2 = 0 then x.txd else x.sh
  ca := if bitsAt w 24 2 = 1 then x.txd else x.ca
  cb := if bitsAt w 24 2 = 2 then x.txd else x.cb }

theorem Mach.engExec_pull {m : Mach} {n c t : Nat} {w : Word} (hop : bitsAt w 28 4 = 9) (hcause : m.engCause n w = 0)
    (hn : n < m.eng.engs.length) (hc : c < (m.engine n).ctxs.length) (hpc : (m.ctx n c).pc < 255)
    (hsince : (m.ctx n c).txAt ≠ some m.clk.now) :
    m.engExec n c w t = m.updCtx n c fun x => if (m.ctx n c).txf then (x.pulled w m.clk.now).past
      else if bitAt w 23 then x.past else { x with op := .dataWait } := by
  have hd : bitsAt w 24 2 = 0 ∨ bitsAt w 24 2 = 1 ∨ bitsAt w 24 2 = 2 := by
    have := bitsAt_lt w 24 2
    have := Mach.engCause_pull hcause hop
    omega
  have htakes : m.engExec n c w t = if (m.ctx n c).txf then (m.updCtx n c fun x => x.pulled w m.clk.now).engAdvance n c
      else if bitAt w 23 then m.engAdvance n c else m.engWait n c .dataWait := by
    simp only [Mach.engExec, hop, Mach.engPullOp, atCycleStart, if_neg hsince, Bool.and_self]
    rcases hd with hd | hd | hd <;> simp only [hd, Ctx.pulled] <;> rfl
  rw [htakes]
  split
  · exact Mach.engAdvance_updCtx _ hn hc hpc
  · exact Mach.engWaits _ hpc

/-- The word that a PUSH gives (R577). -/
def Ctx.pushWord (x : Ctx) (w : Word) : Word :=
  if bitsAt w 24 2 = 0 then x.sh else if bitsAt w 24 2 = 1 then x.ca else if bitsAt w 24 2 = 2 then x.cb
    else word (bitsAt x.cb 0 16 * 65536 + bitsAt x.ca 0 16)

theorem Mach.engExec_push {m : Mach} {n c t : Nat} {w : Word} (hop : bitsAt w 28 4 = 10)
    (hn : n < m.eng.engs.length) (hc : c < (m.engine n).ctxs.length) (hpc : (m.ctx n c).pc < 255)
    (hfree : (m.ctx n c).rxf = false) (hsince : (m.ctx n c).rxAt ≠ some m.clk.now) :
    m.engExec n c w t = m.updCtx n c fun x => { x with
      rxd := (m.ctx n c).pushWord w, rxf := true, rxAt := if x.rxf then x.rxAt else some m.clk.now
      sh := if bitsAt w 24 2 = 0 then 0 else x.sh, pc := x.pc + 1, op := .ready } := by
  have hpush : m.engExec n c w t = (m.updCtx n c fun x => { x with
      rxd := (m.ctx n c).pushWord w, rxf := true, rxAt := if x.rxf then x.rxAt else some m.clk.now
      sh := if bitsAt w 24 2 = 0 then 0 else x.sh }).engAdvance n c := by
    have hd : bitsAt w 24 2 = 0 ∨ bitsAt w 24 2 = 1 ∨ bitsAt w 24 2 = 2 ∨ bitsAt w 24 2 = 3 := by
      have := bitsAt_lt w 24 2
      omega
    simp only [Mach.engExec, hop, Mach.engPushOp, atCycleStart, if_neg hsince, hfree, Bool.or_self, Bool.false_and,
      Bool.false_eq_true, if_false]
    rcases hd with hd | hd | hd | hd <;> simp only [hd, Ctx.pushWord] <;> rfl
  rw [hpush]
  exact Mach.engAdvance_updCtx _ hn hc hpc

/-- Settles O40, an equation of `Mach.engExec` for each instruction. -/
theorem engineWaitsAndData : Obligations.EngineWaitsAndData := by
  intro s n c levels w x h hx
  subst hx
  obtain ⟨hn, hc⟩ := Mach.engNext_lt h
  have ⟨_, _, _, _, _, _, _, _, hcause, hpc, _⟩ := h
  obtain ⟨l, hl⟩ := s.m.atPins_sees levels
  rw [hl]
  refine ⟨fun hop => ?_, fun hop => ?_, fun hop => ?_, fun hop hset => exec_waitirq h hop hset, fun hop => ?_, fun hop => ?_,
    fun hop hsince => ?_, fun hop hfree hsince => ?_⟩
  · obtain ⟨hrow, hctx, hparts⟩ := turnRow (i := .delay n c levels) _ h hl hop rfl (Mach.engExec_delay hop) rfl rfl
    exact ⟨_, hrow, rfl, hctx, hparts⟩
  · obtain ⟨hrow, hctx, hparts⟩ := turnRow (i := .waitpin n c levels) _ h hl hop rfl (Mach.engExec_waitpin hop hpc) rfl rfl
    exact ⟨_, hrow, rfl, hctx, hparts⟩
  · obtain ⟨hrow, hctx, hparts⟩ := turnRow (i := .waitflag n c levels) _ h hl hop rfl (Mach.engExec_waitflag hop hpc) rfl rfl
    exact ⟨_, hrow, rfl, hctx, hparts⟩
  · obtain ⟨hrow, hctx, hparts⟩ := turnRow (i := .shiftout n c levels) _ h hl hop rfl
      (Mach.engExec_shiftout (m := s.m.seeing l) hop hn hc) rfl rfl
    refine ⟨_, hrow, rfl, hctx, ?_, hparts⟩
    exact (latchBit_getLsbD _ _ (bitsAt_lt ..)).trans (if_pos rfl)
  · obtain ⟨hrow, hctx, hparts⟩ := turnRow (i := .shiftin n c levels) _ h hl hop rfl
      (Mach.engExec_shiftin (m := s.m.seeing l) hop) rfl rfl
    exact ⟨_, hrow, rfl, hctx, fun hw => clockLatch_getLsbD _ _ hw, hparts⟩
  · obtain ⟨hrow, hctx, hparts⟩ := turnRow (i := .pull n c levels) _ h hl hop rfl
      (Mach.engExec_pull (m := s.m.seeing l) hop hcause hn hc hpc hsince) rfl rfl
    exact ⟨_, hrow, rfl, hctx, hparts⟩
  · obtain ⟨hrow, hctx, hparts⟩ := turnRow (i := .push n c levels) _ h hl hop rfl
      (Mach.engExec_push (m := s.m.seeing l) hop hn hc hpc hfree hsince) rfl rfl
    simp only [hfree, Bool.false_eq_true, if_false] at hctx
    exact ⟨_, hrow, rfl, hctx, hparts⟩

end Sys2Proof.Machine
end

section
/-! SUPPORT. What ends at an engine's tick: a stop, a delay, a shift, a run over a word that is not valid (R560 to R562, R573,
R574, R583, R586). -/

namespace Sys2Proof.Machine

theorem Mach.engTurn_off {m : Mach} {n c : Nat} (t : Nat) (h : m.ctxOn n c = false) : m.engTurn n c t = m := by
  simp [Mach.engTurn, h]

/-- A tick that an engine runs, at a turn of a context that is not enabled: what runs on by itself is all. -/
theorem Mach.engineTick_off {m : Mach} {n : Nat} (levels : BitVec 16) (hdue : m.tickDue n = true)
    (hrun : (m.engine n).run = .running) (hstop : m.stopDue n = false) (hoff : m.ctxOn n (m.engine n).turn = false) {k : Mach}
    (hk : (m.atPins levels).opTicks n (m.engine n).tick (List.range 8) = k) (hon : (k.engine n).run = .running)
    (hregs : k.regs = m.regs) : m.engineTick n levels = k.ticked n := by
  have hsame : k.ctxOn n (m.engine n).turn = m.ctxOn n (m.engine n).turn := by
    simp only [Mach.ctxOn, Mach.flag, Mach.reg, hregs]
  rw [Mach.engineTick_runs levels hdue hrun hstop k hk hon, Mach.engTurn_off _ (hsame.trans hoff)]

/-- A STOP that waits takes effect (R583). -/
theorem Mach.engineTick_stops {m : Mach} {n : Nat} (levels : BitVec 16) (hdue : m.tickDue n = true)
    (hstop : m.stopDue n = true) : m.engineTick n levels =
      (m.atPins levels).updEng n fun e => { e with run := .stopped, stopping := false, resok := decide (e.run = .running) } := by
  rw [Mach.engineTick]
  rw [Mach.atPins_seeing]
  generalize (m.atPins levels).eng.levels = l
  have hdue : (m.seeing l).tickDue n = true := hdue
  have hstop : (m.seeing l).stopDue n = true := hstop
  simp only [hdue, hstop, Bool.not_true, Bool.false_eq_true, if_false, if_true]

/-! ### The ends of delays and shifts (R573, R574) -/

theorem Mach.opTick_delay {m : Mach} {n c t e : Nat} (hop : (m.ctx n c).op = .delay e) (he : e ≤ t) (hpc : (m.ctx n c).pc < 255) :
    m.opTick n c t = m.updCtx n c Ctx.past := by
  simp only [Mach.opTick, hop, if_pos he]
  exact Mach.engAdvance_past hpc

theorem Mach.opTick_shift {m : Mach} {n c t bs : Nat} {w before : Word} (hop : (m.ctx n c).op = .shift true w bs (bitsAt w 8 5) before)
    (hw : bitsAt w 0 6 ≠ 0) (ht : t = bs + 2 * bitsAt w 0 6) (hpc : (m.ctx n c).pc < 255) : m.opTick n c t =
      { m with eng := { (m.updCtx n c Ctx.past).eng with out := clockLatch m.eng.out w (bitAt w 18) } } := by
  subst ht
  have hlate : ¬ bs + 2 * bitsAt w 0 6 = bs := by omega
  have hsecond : ¬ bs + 2 * bitsAt w 0 6 = bs + bitsAt w 0 6 := by omega
  simp only [Mach.opTick, hop, if_neg hlate, if_neg hsecond, Mach.shiftBitEnd, Bool.not_true, Bool.false_and, Bool.false_eq_true,
    if_false, if_true, Mach.shiftClock_eng]
  exact Mach.engAdvance_past (m := { m with eng := { m.eng with out := clockLatch m.eng.out w (bitAt w 18) } }) hpc

/-- The row at whose tick the one operation in progress ends. -/
theorem endRow {s : State} {i : Instr} {n c : Nat} {shift : Bool} {levels l : BitVec 16} {k : Mach} (hlen : s.m.eng.engs.length = 4)
    (hctxs : (s.m.engine n).ctxs.length = 8) (hdue : s.m.tickDue n = true) (hrun : (s.m.engine n).run = .running)
    (hstop : s.m.stopDue n = false) (hoff : s.m.ctxOn n (s.m.engine n).turn = false) (hn : n < 4) (hc : c < 8)
    (hon : s.m.ctxOn n c = true) (hothers : ∀ j, j ≠ c → (s.m.ctx n j).op.long = false)
    (hl : s.m.atPins levels = s.m.seeing l) (hrow : exec i s = goOn s (s.m.opEnd n c shift levels))
    (hends : s.m.endsAt n c shift = true) (he : (s.m.seeing l).opTick n c (s.m.engine n).tick = k)
    (hk : k = { s.m with eng := k.eng }) (hpast : k.eng.engs = (s.m.updCtx n c Ctx.past).eng.engs) :
    exec i s = goOn s (k.ticked n) ∧ s.m.ctxBecame (k.ticked n) n c (s.m.ctxPast n c) ∧ s.m.changesOnly (k.ticked n) [.eng] := by
  have hn' : n < s.m.eng.engs.length := hn.trans_eq hlen.symm
  have hc' : c < (s.m.engine n).ctxs.length := hc.trans_eq hctxs.symm
  have hengine : k.engine n = { s.m.engine n with ctxs := listUpd (s.m.engine n).ctxs c Ctx.past } := by
    rw [Mach.engine, hpast, ← Mach.engine, Mach.updCtx_engine hn']
  have hkept : ∀ j, j ≠ c → (((s.m.seeing l).opTick n c (s.m.engine n).tick).ctx n j).op.long = false := fun j hj => by
    rw [he, Mach.ctx, hengine]
    exact (congrArg (fun x : Ctx => x.op.long) ((listUpd_getD ..).trans (if_neg fun h => hj h.1))).trans (hothers j hj)
  have hops : (s.m.atPins levels).opTicks n (s.m.engine n).tick (List.range 8) = k := by
    rw [hl, Mach.opTicks_one (m := s.m.seeing l) _ hc hrun hon hothers hkept, he]
  refine ⟨?_, Mach.ctxBecame_of_updCtx hn' hc' hrun hpast, ?_⟩
  · rw [hrow, Mach.opEnd, if_pos hends, Mach.engineTick_off levels hdue hrun hstop hoff hops (by rw [hengine, hrun]) (by rw [hk])]
  · rw [hk]
    exact s.m.eng_changesOnly _

/-! ### A word that is not valid (R571, R586) -/

theorem Mach.engTurn_stalls {m : Mach} {n c t : Nat} (hon : m.ctxOn n c = true) (hop : (m.ctx n c).op.long = false)
    (hcause : m.engCause n (m.engWord n (m.ctx n c).pc) ≠ 0) :
    m.engTurn n c t = m.engStall n c (m.engCause n (m.engWord n (m.ctx n c).pc)) := by
  simp only [Mach.engTurn, hon, hop, Bool.not_true, Bool.or_self, Bool.false_eq_true, if_false]

theorem Mach.engStall_eng (m : Mach) (n c cause : Nat) : (m.engStall n c cause).eng = (m.updEng n fun e => { e with
    run := .stalled, resok := false, fcause := cause, fctx := c, fpc := (e.ctxs.getD c Ctx.fresh).pc
    undo := some ⟨m.clk.now, e.fcause, e.fctx, e.fpc, m.reg 0x2724, (m.seqPending 0x2724).isSome⟩ }).eng :=
  (Mach.sqBit_within _ 0x2724 n (Mach.within_refl _ [.regs]) rfl).1 .eng (by simp)

theorem Mach.engStall_engine {m : Mach} {n : Nat} (c cause : Nat) (hn : n < m.eng.engs.length) :
    (m.engStall n c cause).engine n = { m.engine n with
      run := .stalled, resok := false, fcause := cause, fctx := c, fpc := (m.ctx n c).pc
      undo := some ⟨m.clk.now, (m.engine n).fcause, (m.engine n).fctx, (m.engine n).fpc, m.reg 0x2724,
        (m.seqPending 0x2724).isSome⟩ } := by
  rw [Mach.engine, Mach.engStall_eng, ← Mach.engine, Mach.updEng_engine_self _ hn]
  rfl

theorem Mach.engStall_engine_ne {m : Mach} {n j : Nat} (c cause : Nat) (hj : j ≠ n) :
    (m.engStall n c cause).engine j = m.engine j := by
  rw [Mach.engine, Mach.engStall_eng, ← Mach.engine, Mach.updEng_engine_ne _ hj]

theorem Mach.Edits.updEng {m k : Mach} {ps : List Part} {as : List Nat} (h : m.Edits k ps as) (n : Nat) (f : Eng → Eng)
    (hf : ∀ e, (f e).ctxs.length = e.ctxs.length) (hp : [Part.eng].all (fun x => ps.contains x && x != .regs && x != .clk) = true) :
    m.Edits (k.updEng n f) ps as :=
  h.other (qs := [.eng]) (Mach.updEng_within k n f (k.within_refl _) (fun e he => (hf e).trans he) rfl) hp

theorem Mach.engStall_edits {m : Mach} (l : BitVec 16) (n c cause : Nat) (hclear : m.noClear) :
    m.Edits (((m.seeing l).engStall n c cause).ticked n) [.regs, .eng] [0x2724] := by
  have hsees : m.Edits (m.seeing l) [.regs, .eng] [0x2724] :=
    (Mach.Edits.refl hclear).other (qs := [.eng]) ⟨m.eng_changesOnly _, id, id⟩ rfl
  unfold Mach.engStall Mach.sqBit Mach.ticked
  exact ((hsees.updEng n _ (by intro; rfl) rfl).sqEvent (a := 0x2724) _ (by simp) rfl).updEng n _ (by intro; rfl) rfl

/-- What the tick of a stall leaves (R586). -/
theorem Mach.engStall_ticked {m : Mach} {n : Nat} (l : BitVec 16) (c cause : Nat) (hcan : m.canonical = true)
    (hlen : m.eng.engs.length = 4) (hn : n < 4) (hon : m.on 6 = true) {k : Mach} (hk : ((m.seeing l).engStall n c cause).ticked n = k) :
    ((k.engine n).run = .stalled ∧ (k.engine n).fcause = cause ∧ (k.engine n).fctx = c ∧ (k.engine n).fpc = (m.ctx n c).pc) ∧
      (∀ j, k.ctx n j = m.ctx n j) ∧ (∀ j, j ≠ n → k.engine j = m.engine j) ∧ k.flag 0x2724 n = true := by
  have hn' : n < (m.seeing l).eng.engs.length := hn.trans_eq hlen.symm
  have hstall := Mach.engStall_engine (m := m.seeing l) c cause hn'
  have hself : k.engine n = { (m.seeing l).engStall n c cause |>.engine n with tick := (m.engine n).tick + 1 } := by
    rw [← hk, Mach.ticked, Mach.updEng_engine_self _ (by rwa [Mach.engStall_eng, Mach.updEng_length]), hstall]
    rfl
  rw [hstall] at hself
  refine ⟨?_, fun j => ?_, fun j hj => ?_, ?_⟩
  · rw [hself]
    exact ⟨rfl, rfl, rfl, rfl⟩
  · rw [Mach.ctx, hself]
    rfl
  · rw [← hk]
    exact (Mach.updEng_engine_ne _ hj).trans (Mach.engStall_engine_ne (m := m.seeing l) c cause hj)
  · rw [← hk]
    exact Mach.sqBit_sets (a := 0x2724) (m := (m.seeing l).updEng n _) hcan (by omega) hon

/-- Settles O41, by `Mach.engineTick_stops`, `Mach.engineTick_off`, `endRow` and `Mach.engStall_ticked`. -/
theorem engineTicks : Obligations.EngineTicks := by
  intro s n levels hcan hlen hctxs hdue hrun
  have hn : n.val < s.m.eng.engs.length := n.isLt.trans_eq hlen.symm
  obtain ⟨l, hl⟩ := s.m.atPins_sees levels
  rw [hl]
  refine ⟨fun hstop => ?_, fun hstop hoff => ⟨fun hshort => ?_, fun c e hon hop he hpc hothers => ?_,
    fun c w before bs hon hop hw ht hpc hothers => ?_⟩, fun c w hclear hstop hturn hon hshort hword hcause => ?_⟩
  · have hrow := Mach.engineTick_stops levels hdue hstop
    rw [hl] at hrow
    have hself := Mach.updEng_engine_self (m := s.m.seeing l) (fun e =>
      { e with run := .stopped, stopping := false, resok := decide (e.run = .running) }) hn
    refine ⟨_, congrArg (goOn s) hrow, rfl, hself.trans ?_, fun j hj => Mach.updEng_engine_ne _ hj, rfl, s.m.eng_changesOnly _⟩
    rw [show (s.m.seeing l).engine n.val = s.m.engine n.val from rfl, hrun]
    rfl
  · have hops : (s.m.atPins levels).opTicks n.val (s.m.engine n.val).tick (List.range 8) = s.m.seeing l := by
      rw [hl]
      exact Mach.opTicks_short (m := s.m.seeing l) _ fun k _ => hshort k
    exact ⟨_, congrArg (goOn s) (Mach.engineTick_off levels hdue hrun hstop hoff hops hrun rfl), rfl, Mach.updEng_engine_self _ hn,
      fun j hj => Mach.updEng_engine_ne _ hj, rfl, s.m.eng_changesOnly _⟩
  · obtain ⟨hrow, hctx, hparts⟩ := endRow (i := .delayEnd n c levels) hlen hctxs hdue hrun hstop hoff n.isLt c.isLt hon hothers hl rfl
      (by simp [Mach.endsAt, hdue, hrun, hstop, hon, hop, he]) (Mach.opTick_delay (m := s.m.seeing l) hop he hpc) rfl rfl
    exact ⟨_, hrow, rfl, hctx, hparts⟩
  · obtain ⟨hrow, hctx, hparts⟩ := endRow (i := .shiftEnd n c levels) hlen hctxs hdue hrun hstop hoff n.isLt c.isLt hon hothers hl
      rfl (by simp [Mach.endsAt, hdue, hrun, hstop, hon, hop, ht]) (Mach.opTick_shift (m := s.m.seeing l) hop hw ht hpc) rfl rfl
    exact ⟨_, hrow, rfl, hctx, fun h19 => clockLatch_getLsbD _ _ h19, hparts⟩
  · subst hword
    have hops : (s.m.atPins levels).opTicks n.val (s.m.engine n.val).tick (List.range 8) = s.m.seeing l := by
      rw [hl]
      exact Mach.opTicks_short (m := s.m.seeing l) _ fun k _ => hshort k
    have hrow := Mach.engineTick_runs levels hdue hrun hstop _ hops hrun
    rw [hturn, Mach.engTurn_stalls (m := s.m.seeing l) hon (hshort c) hcause] at hrow
    have hon6 : s.m.on 6 = true := by
      simp only [Mach.tickDue, Bool.and_eq_true] at hdue
      exact hdue.1.1.1.1
    have hedits := Mach.engStall_edits l n.val c (s.m.engCause n.val (s.m.engWord n.val (s.m.ctx n.val c).pc)) hclear
    obtain ⟨⟨hstalled, hfault, hfctx, hfpc⟩, hctx, hothers, hflag⟩ := Mach.engStall_ticked l c _ hcan hlen n.isLt hon6 rfl
    exact ⟨_, congrArg (goOn s) hrow, rfl, hstalled, hfault, hfctx, hfpc, hctx, hothers, hflag, hedits.within.1, hedits.keepsRegs⟩

end Sys2Proof.Machine
end

section
/-! SUPPORT. Writes of the pin registers (R565, R567, R568). -/

namespace Sys2Proof.Machine

/-- `ENG_PINp`. -/
def engPin : RegDef := RegDef.control 0x00070337 0 0 0 0x03000000 4 [⟨16, 3, [(0, 4)]⟩, ⟨8, 2, [(0, 2)]⟩, ⟨4, 2, [(0, 2)]⟩]

theorem regDef_pinAddr (p : Fin 16) : regDef (pinAddr p.val) = some engPin := by
  revert p
  decide

theorem pinAddr_place (p : Fin 16) : pinAddr p.val ≤ lastOf (pinAddr p.val) ∧ blockOf (pinAddr p.val) = 9 ∧
    windowOf (pinAddr p.val) = none ∧
    isTxd (pinAddr p.val) = false ∧ isIndex (pinAddr p.val) = false := by
  revert p
  decide

theorem rangeBad_pinAddr (m : Mach) (p : Fin 16) (x : Word) : m.rangeBad (pinAddr p.val) x = false := by
  have hp := p.isLt
  unfold Mach.rangeBad pinAddr
  rw [if_neg (by omega), if_neg (by omega), if_neg (by omega), if_neg (by omega), if_neg (by omega), if_neg (by omega)]

/-- A write of a pin register is not refused while no engine runs and the old owner serves no Flue bus (R568, R589). -/
theorem regRefuse_pinAddr {m : Mach} (ag : Agent) (p : Fin 16) {old : Word} (new go : Word) (hidle : ∀ n, m.engActive n = false)
    (hfree : bitsAt old 16 3 ≠ 0 → m.engReserved (bitsAt old 16 3 - 1) = false) : m.regRefuse ag (pinAddr p.val) old new go = 0 := by
  obtain ⟨-, hblock, -⟩ := pinAddr_place p
  have howner : ∀ w, m.ownerActive w = false := fun w => by simp [Mach.ownerActive, hidle]
  have hengine : m.refuseEngine (pinAddr p.val) old new go = 0 := by
    unfold Mach.refuseEngine pinAddr
    rw [if_neg (by omega), if_neg (by omega), if_neg (by omega), if_neg (by omega), if_pos (by omega)]
    simp [howner]
    exact hfree
  unfold Mach.regRefuse
  rw [hblock, hengine]
  unfold pinAddr
  rw [if_neg (by omega), if_neg (by omega), if_neg (by omega), if_neg (by omega), if_neg (by omega), if_pos rfl]

theorem regDone_pinAddr (m : Mach) (ag : Agent) (p : Fin 16) (old new go : Word) :
    m.regDone ag (pinAddr p.val) old new go = (0, (m.setReg (pinAddr p.val) new).pinInit p.val) := by
  have hdone : m.doneEngine (pinAddr p.val) new go = (m.setReg (pinAddr p.val) new).pinInit p.val := by
    unfold Mach.doneEngine
    rw [if_neg (by unfold pinAddr; omega), if_neg (by unfold pinAddr; omega), if_neg (by unfold pinAddr; omega),
      if_neg (by unfold pinAddr; omega), if_neg (by unfold pinAddr; omega), if_pos (by unfold pinAddr; omega)]
    congr 1
    unfold pinAddr
    omega
  unfold Mach.regDone
  rw [(pinAddr_place p).2.1]
  exact congrArg (Prod.mk 0) hdone

theorem latchBit_getLsbD_ne (l : BitVec 16) {p j : Nat} (v : Bool) (h : j ≠ p) : (latchBit l p v).getLsbD j = l.getLsbD j := by
  by_cases hj : j < 16
  · rw [latchBit_getLsbD l v hj, if_neg h.symm]
  · rw [BitVec.getLsbD_of_ge _ _ (not_lt.mp hj), BitVec.getLsbD_of_ge _ _ (not_lt.mp hj)]

/-- The block as a pin register takes a word (R567). -/
def Mach.pinWritten (m : Mach) (p : Nat) (new : Word) : Mach := ((m.touch (blockOf (pinAddr p))).setReg (pinAddr p) new).pinInit p

theorem Mach.pinWritten_changesOnly (m : Mach) (p : Nat) (new : Word) : m.changesOnly (m.pinWritten p new) [.regs, .eng] :=
  fun x hx => by cases x <;> first | rfl | exact absurd (by simp) hx

theorem busWrite_pinAddr {m : Mach} (ag : Agent) (p : Fin 16) {w : Word} (hidle : ∀ n, m.engActive n = false)
    (hin : engPin.inRange (engPin.written .direct (m.reg (pinAddr p.val)) w) = true)
    (hfree : bitsAt (m.reg (pinAddr p.val)) 16 3 ≠ 0 → m.engReserved (bitsAt (m.reg (pinAddr p.val)) 16 3 - 1) = false) :
    (m.touch (blockOf (pinAddr p.val))).busWrite ag .direct (pinAddr p.val) w =
      (0, m.pinWritten p.val (engPin.written .direct (m.reg (pinAddr p.val)) w)) := by
  obtain ⟨hlast, hblock, hwindow, htxd, hindex⟩ := pinAddr_place p
  have hgo : (m.touch (blockOf (pinAddr p.val))).reg (pinAddr p.val) &&& (w &&& engPin.go) = 0 := by simp [engPin, RegDef.control]
  rw [Mach.busWrite_taken (m := m.touch (blockOf (pinAddr p.val))) ag hwindow (regDef_pinAddr p) rfl rfl rfl htxd hindex
    (by unfold pinAddr; omega) hin (rangeBad_pinAddr _ p _) (regRefuse_pinAddr ag p _ _ hidle hfree), regDone_pinAddr, hgo]
  rfl

/-- Settles O43: the word is stored by `busWrite_pinAddr`, and the pin's latches follow its INIT and INITOE. -/
theorem pinWrites : Obligations.PinWrites := by
  intro s ag pin d w hcan htakes hd hin hidle hfree
  obtain rfl := Option.some.inj ((regDef_pinAddr pin).symm.trans hd)
  have hbus := busWrite_pinAddr ag pin hidle hin hfree
  set new := engPin.written .direct (s.m.reg (pinAddr pin.val)) w with hnew
  have hparts := s.m.pinWritten_changesOnly pin.val new
  have hself : ((s.m.touch (blockOf (pinAddr pin.val))).setReg (pinAddr pin.val) new).reg (pinAddr pin.val) = new :=
    Mach.reg_setReg_self (s.m.touch _) _ new hcan
  have hbit : ∀ i, bitAt engPin.rw i = true →
      ((s.m.touch (blockOf (pinAddr pin.val))).setReg (pinAddr pin.val) new).flag (pinAddr pin.val) i = bitAt w i :=
    fun i hi => (congrArg (bitAt · i) hself).trans (bitAt_written_rw _ _ hi)
  obtain ⟨t, ht, hp, htm, hwrote⟩ := oneWrite_effect s ag .direct (pinAddr pin.val) w (by unfold pinAddr; omega)
    (pinAddr_place pin).1 htakes [.eng] [pinAddr pin.val] _ hbus hparts (hparts .pa (by simp)) (hparts .pb (by simp))
    (congrArg Clocks.now (hparts .clk (by simp))) fun a ha => Mach.reg_setReg_ne _ new (by simpa using ha)
  have heng : t.m.eng = (s.m.pinWritten pin.val new).eng := htm ▸ settled_agrees _ ag .eng (by decide) (by decide)
  refine ⟨t, ht, hp, ?_, ?_, ?_, fun p hpin => ⟨?_, ?_⟩, ?_, hwrote⟩
  · rw [htm, settled_reg]
    exact hself
  · rw [heng]
    exact (latchBit_getLsbD _ _ pin.isLt).trans ((if_pos rfl).trans (hbit 1 (by decide)))
  · rw [heng]
    exact (latchBit_getLsbD _ _ pin.isLt).trans ((if_pos rfl).trans (hbit 2 (by decide)))
  · rw [heng]
    exact latchBit_getLsbD_ne _ _ hpin
  · rw [heng]
    exact latchBit_getLsbD_ne _ _ hpin
  · rw [heng]
    rfl

end Sys2Proof.Machine
end

section
/-! SUPPORT. Blocks that close by age and blocks that become readable (R18, R521 to R528), and the writes of the queues'
registers (R531 to R538). -/

namespace Sys2Proof.Machine

/-! ### What the close of a block leads to (R528, R533, R542, R656, R689) -/

/-- From `m` to `n` a close of a block of queue `q` has had its effects beside the block: the queue's state may have changed, the
other queues are as they were, a seal may have become due, and of the registers only the queue's status and the ports' interrupt
sources changed. -/
structure Mach.AfterClose (m n : Mach) (q : Nat) : Prop where
  self : ∃ r, n.q q = { m.q q with run := r }
  others : ∀ k, k ≠ q → n.q k = m.q k
  sec : ∃ r, n.sec = { m.sec with reasons := r }
  edits : m.Edits n [.regs, .pa, .pb, .buf, .sec, .nv] [qBase q + 0x1C, intsrc .a, intsrc .b]

namespace Mach.AfterClose

variable {m n k : Mach} {q : Nat}

theorem refl (q : Nat) (h : m.noClear) : m.AfterClose m q := ⟨⟨_, rfl⟩, fun _ _ => rfl, ⟨_, rfl⟩, .refl h⟩

theorem ite {c : Prop} [Decidable c] (hn : m.AfterClose n q) (hk : m.AfterClose k q) : m.AfterClose (if c then n else k) q := by
  split
  · exact hn
  · exact hk

/-- Outside the buffer and the security record. -/
theorem outside (h : m.AfterClose n q) (hb : k.buf = n.buf) (hs : k.sec = n.sec)
    (he : m.Edits k [.regs, .pa, .pb, .buf, .sec, .nv] [qBase q + 0x1C, intsrc .a, intsrc .b]) : m.AfterClose k q := by
  have hk : ∀ j, k.q j = n.q j := fun j => by rw [Mach.q, hb, Mach.q]
  exact ⟨(hk q).symm ▸ h.self, fun j hj => (hk j).trans (h.others j hj), hs ▸ h.sec, he⟩

theorem qStat (h : m.AfterClose n q) (i : Nat) : m.AfterClose (n.qStat q i) q :=
  have hwithin := (Mach.qStat_within n q i (n.within_refl [.regs]) rfl).1
  h.outside (hwithin .buf (by simp)) (hwithin .sec (by simp)) (h.edits.sqEvent _ (by simp) rfl)

theorem intBit (h : m.AfterClose n q) (p : Port) (i : Nat) : m.AfterClose (n.intBit p i) q :=
  have hwithin := (Mach.intBit_within n p i (n.within_refl [.regs, .pa, .pb]) rfl).1
  h.outside (hwithin .buf (by simp)) (hwithin .sec (by simp)) (h.edits.intBit i (by cases p <;> simp) rfl)

theorem intDrains (h : m.AfterClose n q) (i : Nat) : m.AfterClose (n.intDrains q i) q := by
  unfold Mach.intDrains
  have hfirst : m.AfterClose (if n.qDrain q .a then n.intBit .a i else n) q := ite (h.intBit .a i) h
  exact ite (hfirst.intBit .b i) hfirst

theorem reserve (h : m.AfterClose n q) : m.AfterClose (n.reserve q) q :=
  have hwithin := (Mach.reserve_within n q (n.within_refl [.nv]) rfl).1
  h.outside (hwithin .buf (by simp)) (hwithin .sec (by simp))
    (h.edits.other (qs := [.nv]) (Mach.reserve_within n q (n.within_refl _) rfl) rfl)

theorem watermark (h : m.AfterClose n q) (before : Nat) : m.AfterClose (n.watermark q before) q := by
  unfold Mach.watermark
  exact ite ((h.qStat 0).intDrains _) h

theorem enterFull (h : m.AfterClose n q) : m.AfterClose (n.enterFull q) q := by
  obtain ⟨r, hr⟩ := h.self
  refine qStat (n := n.updQ q fun s => { s with run := .full }) ⟨?_, fun k hk => ?_, h.sec, ?_⟩ 1
  · rw [Mach.q, Mach.updQ, listUpd_getD]
    split
    · exact ⟨.full, congrArg (fun s : Queue => { s with run := .full }) hr⟩
    · exact ⟨r, hr⟩
  · exact (n.updQ_q_ne _ hk).trans (h.others k hk)
  · exact h.edits.other (qs := [.buf]) (Mach.updQ_within n q _ (n.within_refl _) rfl) rfl

theorem sealDue (h : m.AfterClose n q) (r : BitVec 16) : m.AfterClose { n with sec := { n.sec with reasons := r } } q :=
  have hwithin : n.within { n with sec := { n.sec with reasons := r } } [.sec] :=
    ⟨fun x hx => by cases x <;> first | rfl | simp at hx, id, id⟩
  have hreasons : ∃ r', { n.sec with reasons := r } = { m.sec with reasons := r' } := by
    obtain ⟨_, hr⟩ := h.sec
    exact ⟨r, by rw [hr]⟩
  ⟨h.self, h.others, hreasons, h.edits.other hwithin rfl⟩

end Mach.AfterClose

theorem Mach.captureClose_run {m : Mach} {q : Nat} (trig capt isSeal : Bool) (h : (m.q q).run = .run) :
    m.captureClose q trig capt isSeal = m := by
  simp [Mach.captureClose, h]

/-- The block that closes, of the payload `ws`, with its flags and its channel map. -/
def Mach.newBlock (m : Mach) (q : Nat) (isSeal : Bool) (firstTs flags : Nat) (map : Word) (ws : List Word) : Block :=
  ⟨(m.q q).openNo, (m.q q).nextSeq, (m.q q).absNext, sealWords m.sec.inForce.key
    (blockHead m.ownLevel isSeal q (m.q q).nextSeq firstTs flags ((m.q q).head.getD 0) map ws), false, m.clk.now, 0⟩

/-- A queue with one more closed block (R521 to R527). -/
def Queue.closing (s : Queue) (isSeal : Bool) (b : Block) : Queue :=
  { s with unread := s.unread ++ [b], ringPos := s.advance, absNext := s.absNext + 1,
           nextSeq := s.nextSeq + 1, head := some (firstHalf (sha256 (wordsBytes b.data))), lastHash := sha256 (wordsBytes b.data)
           lastSeq := some b.seq, startFlag := false, sealClosed := s.sealClosed + (if isSeal then 0 else 1)
           countClosed := s.countClosed + 1 }

/-- A block of a queue in RUN that closes with no block discarded: it closes short, or the queue is under STOP. -/
theorem Mach.closeWith_run {m : Mach} {q : Nat} (isSeal : Bool) (firstTs : Nat) (trig capt : Bool) {filled : Bool} (ws : List Word)
    (hq : q < m.buf.queues.length) (hrun : (m.q q).run = .run) (hn : m.noClear) (hkeep : filled = false ∨ m.qPolicy q = 0) :
    ∃ flags map, (m.updQ q (Queue.closing · isSeal (m.newBlock q isSeal firstTs flags map ws))).AfterClose
      (m.closeWith q isSeal firstTs trig capt filled ws) q := by
  unfold Mach.closeWith
  extract_lets s before flags head data hash b closed reserved captured trimmed marked settled
  refine ⟨flags, if q < 3 then channelMap ws else 0, ?_⟩
  have hreserved : closed.AfterClose reserved q := (AfterClose.refl (m := closed) q hn).reserve
  have hstill : (reserved.q q).run = .run := by
    rw [Mach.q, (Mach.reserve_within closed q (closed.within_refl [.nv]) rfl).1 .buf (by simp), ← Mach.q, Mach.updQ_q_self _ hq]
    exact hrun
  have hcaptured : captured = reserved := Mach.captureClose_run _ _ _ hstill
  have htrimmed : trimmed = reserved := (if_neg (by rw [hcaptured, hstill]; decide)).trans hcaptured
  have hmarked : closed.AfterClose marked q := by
    change closed.AfterClose (trimmed.watermark q before) q
    rw [htrimmed]
    exact hreserved.watermark before
  have hsettled : closed.AfterClose settled q := by
    have hpolicy : marked.qPolicy q = m.qPolicy q := congrArg (bitsAt · 8 2) (hmarked.edits.keepsRegs (qBase q) (by
      simp [qBase, intsrc, portBase]
      omega))
    have hdiscard : (if filled && (marked.q q).blocked then marked.discardOldest q false else marked) = marked ∨
        marked.qPolicy q = 0 := by
      obtain rfl | hstop := hkeep
      · exact .inl rfl
      · exact .inr (hpolicy.trans hstop)
    refine .ite ?_ hmarked
    obtain hnone | hstop := hdiscard
    · exact .ite (.ite hmarked.enterFull hmarked) (hnone.symm ▸ hmarked)
    · exact (if_pos hstop).symm ▸ AfterClose.ite hmarked.enterFull hmarked
  exact AfterClose.ite (hsettled.sealDue _) hsettled

/-- The open block of a queue in RUN closes short: its words stand in a new block, which is not readable. -/
theorem Mach.closeOpen_run {m : Mach} {q : Nat} {o : OpenBlock} (hq : q < m.buf.queues.length) (hrun : (m.q q).run = .run)
    (hn : m.noClear) (ho : (m.q q).openBlk = some o) : ∃ flags map,
    ((m.updQ q fun s => { s with openBlk := none }).updQ q
      (Queue.closing · false (m.newBlock q false o.firstTs flags map o.words.reverse))).AfterClose (m.closeOpen q false) q := by
  rw [Mach.closeOpen, ho]
  have hself : (m.updQ q fun s => { s with openBlk := none }).q q = { m.q q with openBlk := none } := Mach.updQ_q_self _ hq
  obtain ⟨flags, map, h⟩ := Mach.closeWith_run (m := m.updQ q fun s => { s with openBlk := none }) false o.firstTs o.trig o.capt
    o.words.reverse (by rwa [Mach.updQ, listUpd_length]) (by rw [hself]; exact hrun) hn (.inl rfl)
  refine ⟨flags, map, ?_⟩
  have hblock : (m.updQ q fun s => { s with openBlk := none }).newBlock q false o.firstTs flags map o.words.reverse =
      m.newBlock q false o.firstTs flags map o.words.reverse := by
    rw [Mach.newBlock, hself]
    rfl
  rwa [hblock] at h

/-- What stands past it. -/
theorem Mach.closeOpen_effect {m : Mach} {q : Nat} {o : OpenBlock} (hq : q < m.buf.queues.length) (hrun : (m.q q).run = .run)
    (hn : m.noClear) (ho : (m.q q).openBlk = some o) {n : Mach} (hm : m.closeOpen q false = n) : (∃ flags map,
    (n.q q).unread = (m.q q).unread ++ [m.newBlock q false o.firstTs flags map o.words.reverse]) ∧
      (n.q q).openBlk = none ∧ (n.q q).nextSeq = (m.q q).nextSeq + 1 ∧ (∀ k, k ≠ q → n.q k = m.q k) ∧
      m.Edits n [.regs, .pa, .pb, .buf, .sec, .nv] [qBase q + 0x1C, intsrc .a, intsrc .b] := by
  subst hm
  obtain ⟨flags, map, ⟨r, hself⟩, hothers, -, hedits⟩ := Mach.closeOpen_run hq hrun hn ho
  rw [Mach.updQ_q_self _ (by rwa [Mach.updQ, listUpd_length]), Mach.updQ_q_self _ hq] at hself
  refine ⟨⟨flags, map, ?_⟩, ?_, ?_, fun k hk => ?_, ?_⟩
  · rw [hself]
    rfl
  · rw [hself]
    rfl
  · rw [hself]
    rfl
  · rw [hothers k hk, Mach.updQ_q_ne _ _ hk, Mach.updQ_q_ne _ _ hk]
  · have hopened : m.Edits (m.updQ q fun s => { s with openBlk := none }) [.regs, .pa, .pb, .buf, .sec, .nv]
        [qBase q + 0x1C, intsrc .a, intsrc .b] :=
      (Mach.Edits.refl hn).other (qs := [.buf]) (Mach.updQ_within m q _ (m.within_refl _) rfl) rfl
    exact (hopened.other (qs := [.buf]) (Mach.updQ_within _ q _ (Mach.within_refl _ _) rfl) rfl).trans hedits rfl (by simp)

theorem Mach.blockTimeout_due {m : Mach} {q : Nat} {o : OpenBlock} (ho : (m.q q).openBlk = some o) (ht : m.taking = true)
    (htmo : m.fld (qBase q) 24 8 ≠ 0) (hage : o.firstTs + m.fld (qBase q) 24 8 * second ≤ m.ts) :
    m.blockTimeout q = m.closeOpen q false := by
  simp [Mach.blockTimeout, ho, ht, htmo, hage]

/-! ### Blocks become readable (R18) -/

theorem firstReadable_append {pre post : List Block} {b : Block} (hpre : ∀ x ∈ pre, x.readable = true) (hb : b.readable = false) :
    firstReadable (pre ++ b :: post) = pre ++ { b with readable := true } :: post := by
  induction pre with
  | nil => simp [firstReadable, hb]
  | cons x pre ih =>
    obtain ⟨hx, hpre⟩ := List.forall_mem_cons.mp hpre
    simp [firstReadable, hx, ih hpre]

theorem Mach.updQ_changesOnly (m : Mach) (q : Nat) (f : Queue → Queue) : m.changesOnly (m.updQ q f) [.buf] :=
  (Mach.updQ_within m q f (m.within_refl _) rfl).1

/-! ### Writes of the queues' registers (R531, R535, R537, R538) -/

/-- A control register of the buffer block beside `BUF_CTRL`: no fields of it persist or are locked. -/
def queueReg (a : Nat) (d : RegDef) : Prop :=
  (a < 0x4000 ∧ a ≤ lastOf a ∧ blockOf a = 7 ∧ windowOf a = none ∧ isTxd a = false ∧ isIndex a = false ∧ a ≠ 0x1C00) ∧
    regDef a = some d ∧ d.cls = .control ∧ d.pp = 0 ∧ d.lk = 0

theorem regRefuse_buffer (m : Mach) (ag : Agent) {a : Nat} (old new go : Word) (hblock : blockOf a = 7) (hctrl : a ≠ 0x1C00) :
    m.regRefuse ag a old new go = 0 := by
  have hne : ∀ b, blockOf b ≠ 7 → a ≠ b := fun b hb hab => hb (hab ▸ hblock)
  simp [Mach.regRefuse, hblock, hctrl, hne 0x440 (by decide), hne 0x800 (by decide), hne 0x80C (by decide), hne 0x2818 (by decide),
    hne 0x3400 (by decide), hne 0x34A0 (by decide)]

theorem companion_touch (m : Mach) (b n : Nat) : (m.touch b).companion n = m.companion n := by
  induction n with
  | zero => rfl
  | succ n ih =>
    simp only [Mach.companion, ih]
    rfl

theorem rangeBad_touch (m : Mach) (b a : Nat) (x : Word) : (m.touch b).rangeBad a x = m.rangeBad a x := by
  have hreg : ∀ a, (m.touch b).reg a = m.reg a := fun _ => rfl
  have haux : ∀ n, (m.touch b).auxRegs n = m.auxRegs n := fun n => by
    unfold Mach.auxRegs
    rw [companion_touch]
    rfl
  have hq : ∀ q, (m.touch b).q q = m.q q := fun _ => rfl
  have hpolicy : ∀ q, (m.touch b).qPolicy q = m.qPolicy q := fun _ => rfl
  simp only [Mach.rangeBad, hreg, haux, hq, hpolicy]

/-- A write of such a register stores its word and takes effect (R100). -/
theorem oneWrite_queueReg {s : State} {ag : Agent} {a : Nat} {d : RegDef} {w : Word} (h : queueReg a d)
    (ht : s.m.takesWrite ag .direct a) (hin : d.inRange (d.written .direct (s.m.reg a) w) = true)
    (hrange : s.m.rangeBad a (d.written .direct (s.m.reg a) w) = false) :
    goOn s (s.m.oneWrite ag .direct a w) = .next { s with
      m := ((s.m.fltStored ag a (w &&& d.go) (d.written .direct (s.m.reg a) w)).doneBuffer a (s.m.reg a) (w &&& d.go)).settled ag } := by
  obtain ⟨⟨hlt, hle, hblk, hwin, htxd, hix, hctrl⟩, hd, hcls, hpp, hlk⟩ := h
  have hlock : a ≠ 0x2C0C := fun ha => absurd (ha ▸ hblk) (by decide)
  have hb := Mach.busWrite_taken (m := s.m.touch (blockOf a)) ag hwin hd hcls hpp hlk htxd hix hlock hin
    ((rangeBad_touch s.m _ a _).trans hrange) (regRefuse_buffer _ ag _ _ _ hblk hctrl)
  have hdone (m : Mach) (old new go : Word) : m.regDone ag a old new go = (0, (m.setReg a new).doneBuffer a old go) := by
    unfold Mach.regDone
    rw [hblk]
    rfl
  rw [hdone] at hb
  exact oneWrite_next s hlt hle ht hb

theorem queueReg_cfg (q : Fin 5) {d : RegDef} (hd : regDef (qBase q.val) = some d) : queueReg (qBase q.val) d := by
  have hall : ∀ q : Fin 5, (qBase q.val < 0x4000 ∧ qBase q.val ≤ lastOf (qBase q.val) ∧ blockOf (qBase q.val) = 7 ∧
      windowOf (qBase q.val) = none ∧ isTxd (qBase q.val) = false ∧ isIndex (qBase q.val) = false ∧ qBase q.val ≠ 0x1C00) ∧
      ((regDef (qBase q.val)).all fun d => decide (d.cls = .control ∧ d.pp = 0 ∧ d.lk = 0)) = true := by decide
  obtain ⟨hplace, hdef⟩ := hall q
  rw [hd, Option.all_some, decide_eq_true_eq] at hdef
  exact ⟨hplace, hd, hdef⟩

/-- A write of `Qn_CFG` that keeps the policy closes an open block of its queue that the new `TMO` finds too old (R528). -/
theorem Mach.doneBuffer_timeout {m : Mach} {q : Nat} (old go : Word) (hq : q < 4) (hsame : bitsAt old 8 2 = m.qPolicy q) :
    m.doneBuffer (qBase q) old go = m.blockTimeout q := by
  have hkept : m.policyChange q (bitsAt old 8 2) = m := by simp [Mach.policyChange, hsame]
  have hindex : (qBase q - 0x1C40) / 32 = q := by
    unfold qBase
    omega
  unfold Mach.doneBuffer
  rw [if_neg (by unfold qBase; omega), if_pos (by unfold qBase; omega)]
  simp only [hindex, hkept, hq, if_true]
  exact if_pos (by unfold qBase; omega)

theorem taking_congr {m k : Mach} (hclk : k.clk = m.clk) (hbist : k.bist = m.bist) : k.taking = m.taking := by
  have htest : k.testNow = m.testNow := by rw [Mach.testNow, hbist, Mach.testNow]
  have hdom : ∀ j, k.dom j = m.dom j := fun j => by simp only [Mach.dom, hclk]
  simp only [Mach.taking, Mach.canWrite, Mach.on, Mach.testing, hdom, htest]

/-- A served write changes nothing beside its register's effect but its port. -/
theorem settled_changesOnly {m n : Mach} (ag : Agent) {ps : List Part} (h : m.changesOnly n ps) (ha : .pa ∈ ps) (hb : .pb ∈ ps) :
    m.changesOnly (n.settled ag) ps := fun x hx =>
  Mach.agrees_trans (h x hx) (settled_agrees n ag x (by rintro rfl; exact hx ha) (by rintro rfl; exact hx hb))

theorem exec_blockTimeout_due {s : State} {q : Fin 4} {o : OpenBlock} (hn : s.m.noClear) (hlen : s.m.buf.queues.length = 5)
    (ht : s.m.taking = true) (ho : (s.m.q q.val).openBlk = some o) (hrun : (s.m.q q.val).run = .run)
    (htmo : s.m.fld (qBase q.val) 24 8 ≠ 0) (hage : o.firstTs + s.m.fld (qBase q.val) 24 8 * second ≤ s.m.ts) :
    ∃ t b flags map, exec (.blockTimeout q) s = .next t ∧ t.pending = s.pending ∧
      (t.m.q q.val).unread = (s.m.q q.val).unread ++ [b] ∧ b.seq = (s.m.q q.val).nextSeq ∧ b.blockNo = (s.m.q q.val).openNo ∧
      b.readable = false ∧
      b.data = sealWords s.m.sec.inForce.key
        (blockHead s.m.ownLevel false q.val (s.m.q q.val).nextSeq o.firstTs flags ((s.m.q q.val).head.getD 0) map o.words.reverse) ∧
      (t.m.q q.val).openBlk = none ∧ (t.m.q q.val).nextSeq = (s.m.q q.val).nextSeq + 1 ∧
      (∀ k, k ≠ q.val → t.m.q k = s.m.q k) ∧ s.m.changesOnly t.m [.regs, .pa, .pb, .buf, .sec, .nv] ∧
      s.m.keepsRegs t.m [qBase q.val + 0x1C, intsrc .a, intsrc .b] := by
  obtain ⟨⟨flags, map, hunread⟩, hopen, hseq, hothers, hedits⟩ := Mach.closeOpen_effect (by omega) hrun hn ho rfl
  exact ⟨_, _, flags, map, congrArg (goOn s) (Mach.blockTimeout_due ho ht htmo hage), rfl, hunread, rfl, rfl, rfl, rfl, hopen, hseq,
    hothers, hedits.within.1, hedits.keepsRegs⟩

theorem exec_queuePolicyWrite_closes {s : State} {ag : Agent} {q : Fin 4} {o : OpenBlock} {d : RegDef} {w new : Word}
    (hcan : s.m.canonical = true) (hn : s.m.noClear) (hlen : s.m.buf.queues.length = 5) (ht : s.m.taking = true)
    (ho : (s.m.q q.val).openBlk = some o) (hrun : (s.m.q q.val).run = .run) (htakes : s.m.takesWrite ag .direct (qBase q.val))
    (hd : regDef (qBase q.val) = some d) (hnew : new = d.written .direct (s.m.reg (qBase q.val)) w) (hin : d.inRange new = true)
    (hrange : s.m.rangeBad (qBase q.val) new = false) (hsame : bitsAt new 8 2 = s.m.qPolicy q.val) (htmo : bitsAt new 24 8 ≠ 0)
    (hage : o.firstTs + bitsAt new 24 8 * second ≤ s.m.ts) :
    ∃ t b, exec (.queuePolicyWrite ag .direct ⟨q.val, by omega⟩ w) s = .next t ∧ t.pending = s.pending ∧
      (t.m.q q.val).unread = (s.m.q q.val).unread ++ [b] ∧ b.seq = (s.m.q q.val).nextSeq ∧ (t.m.q q.val).openBlk = none ∧
      t.m.reg (qBase q.val) = new ∧ (∀ k, k ≠ q.val → t.m.q k = s.m.q k) ∧
      s.m.changesOnly t.m [.regs, .pa, .pb, .buf, .sec, .nv] ∧
      s.m.keepsRegs t.m [qBase q.val, qBase q.val + 0x1C, intsrc .a, intsrc .b] := by
  subst hnew
  have hrow := oneWrite_queueReg (w := w) (queueReg_cfg ⟨q.val, by omega⟩ hd) htakes hin hrange
  set k := s.m.fltStored ag (qBase q.val) (w &&& d.go) (d.written .direct (s.m.reg (qBase q.val)) w) with hk
  have hself : k.reg (qBase q.val) = d.written .direct (s.m.reg (qBase q.val)) w := Mach.fltStored_reg_self ag _ _ _ hcan
  have hstored : s.m.Edits k [.regs] [qBase q.val] := Mach.fltStored_edits ag _ _ _ hn
  have hbuf : k.buf = s.m.buf := hstored.agrees (x := .buf) rfl
  have hclk : k.clk = s.m.clk := hstored.agrees (x := .clk) rfl
  have hq : ∀ j, k.q j = s.m.q j := fun j => by rw [Mach.q, hbuf, Mach.q]
  have htmo' : k.fld (qBase q.val) 24 8 = bitsAt (d.written .direct (s.m.reg (qBase q.val)) w) 24 8 := congrArg (bitsAt · 24 8) hself
  have hpolicy : bitsAt (s.m.reg (qBase q.val)) 8 2 = k.qPolicy q.val := hsame.symm.trans (congrArg (bitsAt · 8 2) hself).symm
  have htaking : k.taking = true := (taking_congr hclk (hstored.agrees (x := .bist) rfl)).trans ht
  rw [Mach.doneBuffer_timeout _ _ q.isLt hpolicy, Mach.blockTimeout_due (o := o) ((hq _).symm ▸ ho) htaking (htmo'.symm ▸ htmo)
    (by rw [htmo', Mach.ts, hclk]; exact hage)] at hrow
  obtain ⟨⟨flags, map, hunread⟩, hopen, -, hothers, hedits⟩ := Mach.closeOpen_effect (m := k) (by rw [hbuf]; omega)
    ((hq _).symm ▸ hrun) hstored.noClear ((hq _).symm ▸ ho) rfl
  have hall : s.m.Edits _ [.regs, .pa, .pb, .buf, .sec, .nv] [qBase q.val, qBase q.val + 0x1C, intsrc .a, intsrc .b] :=
    ((Mach.Edits.refl hn).trans hstored rfl (by simp)).trans hedits rfl (by simp)
  have hkeep := hedits.keepsRegs (qBase q.val) (by simp [qBase, intsrc, portBase]; omega)
  generalize k.closeOpen q.val false = n at *
  have hq' : ∀ j, (n.settled ag).q j = n.q j := fun j => by
    rw [Mach.q, settled_agrees n ag .buf (by decide) (by decide), Mach.q]
  refine ⟨_, _, hrow, rfl, (congrArg Queue.unread (hq' _)).trans (hunread.trans (by rw [hq])), congrArg Queue.nextSeq (hq _),
    (congrArg Queue.openBlk (hq' _)).trans hopen, ((settled_reg n ag _).trans hkeep).trans hself,
    fun j hj => (hq' j).trans ((hothers j hj).trans (hq j)), settled_changesOnly ag hall.within.1 (by simp) (by simp),
    fun a ha => (settled_reg n ag a).trans (hall.keepsRegs a ha)⟩

/-- Settles O24: what closes by age closes as `Mach.closeOpen_effect` says, and `firstReadable_append` finds the oldest block that is not
readable. -/
theorem blocksCloseAndBecomeReadable : Obligations.BlocksCloseAndBecomeReadable := by
  refine ⟨fun s q o _ hn hlen ht ho hrun htmo hage => exec_blockTimeout_due hn hlen ht ho hrun htmo hage,
    fun s ag q o d w new hcan hn hlen ht ho hrun htakes hd hnew hin hrange hsame htmo hage =>
      exec_queuePolicyWrite_closes hcan hn hlen ht ho hrun htakes hd hnew hin hrange hsame htmo hage,
    fun s q pre post b hlen ht hunread hpre hb => ?_⟩
  refine ⟨_, congrArg (goOn s) (if_pos ht), rfl, ?_, fun k hk => s.m.updQ_q_ne _ hk, s.m.updQ_changesOnly _ _⟩
  rw [← firstReadable_append hpre hb, ← hunread]
  exact Mach.updQ_q_self _ (by omega)

end Sys2Proof.Machine
end

section
/-! SUPPORT. Captures that begin and are armed again (R535, R537): a trigger and its PRETRIM record, REARM with nothing to discard. -/

namespace Sys2Proof.Machine

/-! ### Records of Q3 beside the other queues (R516, R543, R545) -/

/-- A queue but for what its gap records are counted and made from. -/
def Queue.unsealed (s : Queue) : Queue := { s with sealGaps := 0, pretrim := .none }

/-- From `m` to `n` every queue but Q3 keeps all that records in Q3 do not count, and its status register. -/
structure Mach.BesideQ3 (m n : Mach) : Prop where
  queue : ∀ j, j ≠ 3 → (n.q j).unsealed = (m.q j).unsealed
  status : ∀ j < 5, j ≠ 3 → n.reg (qBase j + 0x1C) = m.reg (qBase j + 0x1C)

namespace Mach.BesideQ3

variable {m n k : Mach}

theorem refl (m : Mach) : m.BesideQ3 m := ⟨fun _ _ => rfl, fun _ _ _ => rfl⟩

theorem ite {c : Prop} [Decidable c] (hn : m.BesideQ3 n) (hk : m.BesideQ3 k) : m.BesideQ3 (if c then n else k) := by
  split
  · exact hn
  · exact hk

theorem foldl {α : Type} {f : Mach → α → Mach} (hf : ∀ k x, m.BesideQ3 k → m.BesideQ3 (f k x)) (l : List α)
    (h : m.BesideQ3 n) : m.BesideQ3 (l.foldl f n) := by
  induction l generalizing n with
  | nil => exact h
  | cons x l ih => exact ih (hf n x h)

/-- The queues and the registers stay. -/
theorem same (h : m.BesideQ3 n) (hq : k.buf.queues = n.buf.queues) (hr : k.regs = n.regs) : m.BesideQ3 k := by
  refine ⟨fun j hj => ?_, fun j hlt hj => ?_⟩
  · rw [← h.queue j hj, Mach.q, hq]
    rfl
  · rw [← h.status j hlt hj, Mach.reg, hr]
    rfl

/-- An operation outside the buffer and the registers. -/
theorem other {ps : List Part} (h : m.BesideQ3 n) (hw : n.within k ps) (hp : (ps.contains .buf || ps.contains .regs) = false) :
    m.BesideQ3 k := by
  simp only [Bool.or_eq_false_iff] at hp
  exact h.same (congrArg Buffer.queues (hw.1 .buf (by simpa using hp.1))) (hw.1 .regs (by simpa using hp.2))

/-- A change of Q3, or of what is not kept. -/
theorem updQ (h : m.BesideQ3 n) {q : Nat} {f : Queue → Queue} (hf : q ≠ 3 → ∀ s, (f s).unsealed = s.unsealed) :
    m.BesideQ3 (n.updQ q f) := ⟨fun j hj => by
  rw [← h.queue j hj, Mach.q, Mach.updQ, listUpd_getD]
  split
  · next hjq => exact hf (hjq.1 ▸ hj) _
  · rfl, fun j hlt hj => h.status j hlt hj⟩

theorem updQ3 (h : m.BesideQ3 n) (f : Queue → Queue) : m.BesideQ3 (n.updQ 3 f) := h.updQ fun hne => absurd rfl hne

/-- Registers change that are no other queue's status. -/
theorem regs (h : m.BesideQ3 n) (hq : k.buf.queues = n.buf.queues)
    (hr : ∀ j < 5, j ≠ 3 → k.reg (qBase j + 0x1C) = n.reg (qBase j + 0x1C)) : m.BesideQ3 k := by
  refine ⟨fun j hj => ?_, fun j hlt hj => (hr j hlt hj).trans (h.status j hlt hj)⟩
  rw [← h.queue j hj, Mach.q, hq]
  rfl

theorem status_ne_accLast {j : Nat} (p : Port) : qBase j + 0x1C ≠ accLast p := by
  cases p <;> simp only [accLast, qBase] <;> omega

theorem sqEvent (h : m.BesideQ3 n) {a : Nat} (mask : Word) (ha : ∀ j < 5, j ≠ 3 → qBase j + 0x1C ≠ a) :
    m.BesideQ3 (n.sqEvent a mask) :=
  h.regs (congrArg Buffer.queues ((Mach.sqEvent_within n a mask (n.within_refl [.regs]) rfl).1 .buf (by simp))) fun j hlt hj =>
    n.sqEvent_reg_ne mask (ha j hlt hj) status_ne_accLast

theorem countN (h : m.BesideQ3 n) {a : Nat} (c : Nat) (ha : ∀ j < 5, j ≠ 3 → qBase j + 0x1C ≠ a) : m.BesideQ3 (n.countN a c) :=
  h.regs (congrArg Buffer.queues ((Mach.countN_within n a c (n.within_refl [.regs]) rfl).1 .buf (by simp))) fun j hlt hj =>
    n.countN_reg_ne c (ha j hlt hj) status_ne_accLast

theorem intBit (h : m.BesideQ3 n) (p : Port) (i : Nat) : m.BesideQ3 (n.intBit p i) :=
  h.regs (congrArg Buffer.queues ((Mach.intBit_within n p i (n.within_refl [.regs, .pa, .pb]) rfl).1 .buf (by simp)))
    fun j _ _ => n.intEvent_reg_ne p (bitMask i) (by cases p <;> simp only [intsrc, portBase, qBase] <;> omega) status_ne_accLast

theorem qStat (h : m.BesideQ3 n) (i : Nat) : m.BesideQ3 (n.qStat 3 i) := h.sqEvent _ (by decide)

/-! ### Blocks of Q3 (R521 to R533) -/

theorem discardOldest (h : m.BesideQ3 n) (armed : Bool) : m.BesideQ3 (n.discardOldest 3 armed) := by
  have hmarked : ∀ (k : Mach) f, m.BesideQ3 k → m.BesideQ3 (((k.updPort .a f).updPort .b f).passStores 3) := fun _ _ hk =>
    hk.same rfl rfl
  unfold Mach.discardOldest
  split
  · exact h
  · exact ((hmarked _ _ (h.updQ3 _)).qStat 6).qStat 2

theorem discardDown (h : m.BesideQ3 n) (c k : Nat) : m.BesideQ3 (n.discardDown 3 c k) := by
  induction k generalizing n with
  | zero => exact h
  | succ k ih => exact ite (ih (h.discardOldest true)) h

theorem enterFull (h : m.BesideQ3 n) : m.BesideQ3 (n.enterFull 3) := (h.updQ3 _).qStat 1

theorem captureClose (h : m.BesideQ3 n) (trig capt isSeal : Bool) : m.BesideQ3 (n.captureClose 3 trig capt isSeal) := by
  unfold Mach.captureClose
  exact ite (ite (ite ((h.updQ3 _).qStat 4) (h.updQ3 _)) (ite ((h.updQ3 _).qStat 4) (h.updQ3 _))) h

theorem watermark (h : m.BesideQ3 n) (before : Nat) : m.BesideQ3 (n.watermark 3 before) := by
  have hdrains : ∀ k : Mach, m.BesideQ3 k → m.BesideQ3 (k.intDrains 3 11) := fun k hk =>
    ite ((ite (hk.intBit .a 11) hk).intBit .b 11) (ite (hk.intBit .a 11) hk)
  exact ite (hdrains _ (h.qStat 0)) h

/-- A seal becomes due. -/
theorem sealDue (h : m.BesideQ3 n) (r : BitVec 16) : m.BesideQ3 { n with sec := { n.sec with reasons := r } } := h.same rfl rfl

theorem closeWith (h : m.BesideQ3 n) (isSeal : Bool) (firstTs : Nat) (trig capt filled : Bool) (ws : List Word) :
    m.BesideQ3 (n.closeWith 3 isSeal firstTs trig capt filled ws) := by
  unfold Mach.closeWith
  extract_lets s before flags head data hash b closed reserved captured trimmed marked settled
  have hreserved : m.BesideQ3 reserved := (h.updQ3 _).other (Mach.reserve_within closed 3 (closed.within_refl [.nv]) rfl) rfl
  have hcaptured : m.BesideQ3 captured := hreserved.captureClose trig capt isSeal
  have hmarked : m.BesideQ3 marked := (ite (hcaptured.discardDown _ _) hcaptured).watermark before
  have hsettled : m.BesideQ3 settled :=
    ite (ite (ite hmarked.enterFull hmarked) (ite (hmarked.discardOldest false) hmarked)) hmarked
  exact ite (hsettled.sealDue _) hsettled

theorem closeOpen (h : m.BesideQ3 n) (filled : Bool) : m.BesideQ3 (n.closeOpen 3 filled) := by
  unfold Mach.closeOpen
  split
  · exact h
  · exact (h.updQ3 _).closeWith ..

theorem openBlock (h : m.BesideQ3 n) : m.BesideQ3 (n.openBlock 3) := by
  unfold Mach.openBlock
  split
  · exact h
  · exact h.updQ3 _

theorem writeWord (h : m.BesideQ3 n) (w : Word) : m.BesideQ3 (n.writeWord 3 w).1 := by
  have hwritten := h.openBlock.updQ3
  unfold Mach.writeWord
  dsimp only
  split
  · split
    · exact (hwritten _).closeOpen true
    · exact hwritten _
  · exact hwritten _

theorem writeList (h : m.BesideQ3 n) (ws : List Word) : m.BesideQ3 (n.writeList ws).1 := by
  induction ws generalizing n with
  | nil => exact h
  | cons w ws ih => exact ih (h.writeWord w)

theorem discCount (h : m.BesideQ3 n) (c : Nat) : m.BesideQ3 (n.discCount 3 c) :=
  ite ((h.countN c (by decide)).updQ3 _) h

theorem makeRoom (h : m.BesideQ3 n) : m.BesideQ3 (n.makeRoom 3) := ite (ite h.enterFull (h.discardOldest false)) h

/-! ### Gap records into Q3 (R28, R545) -/

/-- A buffer record enters Q3 or is discarded. -/
theorem recordQ3 (h : m.BesideQ3 n) (ws : List Word) : m.BesideQ3 (n.recordQ3 false ws).1 := by
  unfold Mach.recordQ3
  extract_lets fitted roomy place full held
  have hfitted : m.BesideQ3 fitted := by
    change m.BesideQ3 (n.fitRecord ws.length)
    unfold Mach.fitRecord
    split
    · exact ite (h.closeOpen false) h
    · exact h
  have hroomy : m.BesideQ3 roomy := ite hfitted hfitted.makeRoom
  split
  · have htaken : m.BesideQ3 (roomy.takeAfter ws).1 := by
      unfold Mach.takeAfter
      split
      · exact hroomy.updQ3 _
      · exact hroomy
    generalize roomy.takeAfter ws = taken at htaken ⊢
    obtain ⟨taken, after⟩ := taken
    have hwritten := htaken.writeList (ws ++ after)
    dsimp only at hwritten ⊢
    generalize taken.writeList (ws ++ after) = written at hwritten ⊢
    exact hwritten.same rfl rfl
  · have hheld : m.BesideQ3 held := ite hroomy (hroomy.sqEvent _ (by decide))
    exact (hheld.discCount _).qStat 2

theorem writeGap (h : m.BesideQ3 n) (g : GapRec) : m.BesideQ3 (n.writeGap g) := by
  have hrecord := h.recordQ3 g.toWords
  have hcounted : m.BesideQ3 ((n.recordQ3 false g.toWords).1.gapWritten g) := ite hrecord (hrecord.updQ fun _ _ => rfl)
  exact foldl (fun _ c hk => hk.recordQ3 c.toWords) _ (ite hcounted hrecord)

theorem putGap (h : m.BesideQ3 n) (g : GapRec) : m.BesideQ3 (n.putGap g) := by
  have hflushed : m.BesideQ3 n.flushGaps := by
    have hall := foldl (fun _ g hk => writeGap hk g) n.buf.pendingGaps
      (h.same (k := { n with buf := { n.buf with pendingGaps := [] } }) rfl rfl)
    exact ite (ite hall (hall.same rfl rfl)) h
  exact ite (hflushed.writeGap g) (h.same rfl rfl)

end Mach.BesideQ3

/-- The record of a pre-trigger trim leaves its queue as it stands: the record is not in that queue, or waits in D0 (R28, R534). -/
theorem Mach.gapPretrim_keeps {m : Mach} {q : Nat} (hq : q < 5) (h : q ≠ 3 ∨ m.taking = false) :
    ((m.gapPretrim q).q q).unsealed = (m.q q).unsealed ∧ (m.gapPretrim q).reg (qBase q + 0x1C) = m.reg (qBase q + 0x1C) := by
  have hput : ∀ (k : Mach) (g : GapRec), k.taking = m.taking →
      ((k.putGap g).q q).unsealed = (k.q q).unsealed ∧ (k.putGap g).reg (qBase q + 0x1C) = k.reg (qBase q + 0x1C) := fun k g hk => by
    obtain h3 | hwait := h
    · obtain ⟨hqueue, hstatus⟩ := (BesideQ3.refl k).putGap g
      exact ⟨hqueue q h3, hstatus q hq h3⟩
    · rw [Mach.putGap, if_neg (by simp [hk, hwait])]
      exact ⟨rfl, rfl⟩
  unfold Mach.gapPretrim
  split
  · next d _ =>
    obtain ⟨hqueue, hstatus⟩ := hput (m.updQ q fun s => { s with pretrim := none }) ⟨2, q, d.ts, d.count, d.first, 0⟩ rfl
    refine ⟨hqueue.trans ?_, hstatus⟩
    rw [Mach.q, Mach.updQ, listUpd_getD]
    split
    · rfl
    · rfl
  · exact hput _ _ rfl

/-! ### Triggers and rearming (R535, R537) -/

/-- A queue that a trigger reaches. -/
def Queue.capturing (s : Queue) (ts post : Nat) : Queue :=
  { s with run := .capturing, trigAt := some ts, postLeft := post, captBlocks := false }

/-- A queue that waits for a trigger. -/
def Queue.rearmed (s : Queue) : Queue := { s with run := .armed, trigAt := .none, postLeft := 0, captBlocks := false }

/-- A trigger reaches an ARMED queue: its capture begins, its blocks stay, TRIG of its status is set (R535). -/
theorem Mach.trigger_begins {m : Mach} {q : Nat} (hc : m.canonical = true) (hon : m.on 4 = true) (hq : q < 5)
    (hlen : m.buf.queues.length = 5) (h : q ≠ 3 ∨ m.taking = false) (ha : (m.q q).run = .armed) :
    ((m.trigger q).q q).unsealed = ((m.q q).capturing m.ts (m.qPost q)).unsealed ∧
      (m.trigger q).flag (qBase q + 0x1C) 3 = true := by
  unfold Mach.trigger
  rw [ha]
  set started := m.updQ q fun s =>
    { s with run := .capturing, trigAt := some m.ts, postLeft := m.qPost q, captBlocks := false }
  have hwithin := Mach.qStat_within started q 3 (started.within_refl [.regs]) rfl
  have hbuf : (started.qStat q 3).buf = started.buf := hwithin.1 .buf (by simp)
  have htaking : (started.qStat q 3).taking = m.taking :=
    taking_congr (hwithin.1 .clk (by simp)) (hwithin.1 .bist (by simp))
  obtain ⟨hqueue, hstatus⟩ := Mach.gapPretrim_keeps (m := started.qStat q 3) hq (htaking.symm ▸ h)
  have hdomain : blockDomain (blockOf (qBase q + 0x1C)) = 4 := by interval_cases q <;> rfl
  refine ⟨hqueue.trans ?_, ?_⟩
  · rw [Mach.q, hbuf, ← Mach.q, Mach.updQ_q_self _ (by omega)]
    rfl
  · refine (congrArg (bitAt · 3) hstatus).trans ?_
    exact Mach.sqBit_sets (m := started) hc (by decide) (by rw [hdomain]; exact hon)

/-- REARM of a CAPTURE queue that is not FROZEN and holds no unread block (R537). -/
theorem Mach.rearms_of_empty {m : Mach} {q : Nat} (hp : m.qPolicy q = 2) (hbanks : (m.q q).run ≠ .noBanks)
    (hfrozen : (m.q q).run ≠ .frozen)
    (hu : (m.q q).unread = []) : m.rearm q = m.updQ q Queue.rearmed := by
  simp only [Mach.rearm, hp, hu, hbanks, hfrozen, List.length_nil, decide_true, ne_eq, not_false_eq_true, Bool.and_true, if_true,
    if_false]
  rfl

/-! ### Writes of `Qn_CTRL` -/

/-- The fields of `Qn_CTRL` (R551). -/
def queueCtrl : RegDef := RegDef.control 0 3 0 0 0 0 []

theorem queueReg_ctrl (q : Fin 5) : queueReg (qBase q.val + 0xC) queueCtrl := by
  refine ⟨?_, ?_, rfl, rfl, rfl⟩
  · revert q
    decide
  · revert q
    decide

theorem written_ctrl (old w : Word) : queueCtrl.written .direct old w = old := written_go _ _ _ _ rfl rfl rfl

theorem Mach.doneBuffer_ctrl (m : Mach) {q : Nat} (old go : Word) (hq : q < 5) (hp : m.qPolicy q = 2) :
    m.doneBuffer (qBase q + 0xC) old go =
      (if bitAt go 0 then (if bitAt go 1 then m.trigger q else m).rearm q else if bitAt go 1 then m.trigger q else m) := by
  have hindex : (qBase q + 0xC - 0x1C40) / 32 = q := by
    unfold qBase
    omega
  unfold Mach.doneBuffer
  rw [if_neg (by unfold qBase; omega), if_pos (by unfold qBase; omega), if_neg (by unfold qBase; omega),
    if_pos (by unfold qBase; omega)]
  simp only [hindex, hp, decide_true, Bool.and_true]

theorem Mach.rangeBad_ctrl (m : Mach) {q : Nat} (new : Word) (hq : q < 5) : m.rangeBad (qBase q + 0xC) new = false := by
  unfold Mach.rangeBad
  rw [if_neg (by unfold qBase; omega), if_neg (by unfold qBase; omega), if_pos (by unfold qBase; omega)]
  dsimp only
  rw [if_neg (by unfold qBase; omega), if_neg (by unfold qBase; omega)]

/-- The machine as a write of `Qn_CTRL` leaves its register. -/
def Mach.ctrlStored (m : Mach) (ag : Agent) (q : Nat) (w : Word) : Mach :=
  m.fltStored ag (qBase q + 0xC) (w &&& 3) (m.reg (qBase q + 0xC))

/-- A write of `Qn_CTRL` of a queue in CAPTURE. -/
theorem oneWrite_ctrl {s : State} {ag : Agent} {q : Fin 5} {w : Word} (ht : s.m.takesWrite ag .direct (qBase q.val + 0xC)) :
    goOn s (s.m.oneWrite ag .direct (qBase q.val + 0xC) w) = .next { s with
      m := ((s.m.ctrlStored ag q.val w).doneBuffer (qBase q.val + 0xC) (s.m.reg (qBase q.val + 0xC)) (w &&& 3)).settled ag } := by
  have hrow := oneWrite_queueReg (w := w) (queueReg_ctrl q) ht rfl (s.m.rangeBad_ctrl _ q.isLt)
  rwa [written_ctrl] at hrow

/-- Beside its register, as it was, the write leaves the machine as it is. -/
theorem Mach.ctrlStored_keeps {m : Mach} (ag : Agent) (q : Nat) (w : Word) (hc : m.canonical = true) :
    m.changesOnly (m.ctrlStored ag q w) [.regs] ∧ (m.ctrlStored ag q w).canonical = true ∧ m.keepsRegs (m.ctrlStored ag q w) [] := by
  have hwithin := m.fltStored_within ag (qBase q + 0xC) (w &&& 3) (m.reg (qBase q + 0xC))
  refine ⟨hwithin.1, hwithin.2.1 hc, fun a _ => ?_⟩
  by_cases ha : a = qBase q + 0xC
  · rw [ha]
    exact Mach.fltStored_reg_self ag _ _ _ hc
  · exact m.fltStored_keepsRegs ag _ _ _ a (by simpa using ha)

theorem exec_trig_captures {s : State} {ag : Agent} {q : Fin 5} (hc : s.m.canonical = true) (hlen : s.m.buf.queues.length = 5)
    (ht : s.m.takesWrite ag .direct (qBase q.val + 0xC)) (hp : s.m.qPolicy q.val = 2) (h : q.val ≠ 3 ∨ s.m.taking = false)
    (ha : (s.m.q q.val).run = .armed) (hon : s.m.on 4 = true) :
    ∃ t, exec (.trig ag .direct q 2) s = .next t ∧ t.pending = s.pending ∧ (t.m.q q.val).run = .capturing ∧
      (t.m.q q.val).trigAt = some s.m.ts ∧ (t.m.q q.val).postLeft = s.m.qPost q.val ∧
      (t.m.q q.val).unread = (s.m.q q.val).unread ∧ (t.m.q q.val).openBlk = (s.m.q q.val).openBlk ∧
      t.m.flag (qBase q.val + 0x1C) 3 = true ∧ s.m.changesOnly t.m [.regs, .pa, .pb, .flt, .buf, .sec, .nv, .free] := by
  have hrow := oneWrite_ctrl (w := 2) ht
  obtain ⟨hparts, hcanonical, hkeep⟩ := Mach.ctrlStored_keeps ag q.val 2 hc
  set k := s.m.ctrlStored ag q.val 2
  have hbuf : k.buf = s.m.buf := hparts .buf (by simp)
  have hclk : k.clk = s.m.clk := hparts .clk (by simp)
  have hq : ∀ j, k.q j = s.m.q j := fun j => by rw [Mach.q, hbuf, Mach.q]
  have hpost : k.qPost q.val = s.m.qPost q.val := congrArg (bitsAt · 16 12) (hkeep _ (by simp))
  have hts : k.ts = s.m.ts := by rw [Mach.ts, hclk, Mach.ts]
  have htaking : k.taking = s.m.taking := taking_congr hclk (hparts .bist (by simp))
  have hpolicy : k.qPolicy q.val = 2 := (congrArg (bitsAt · 8 2) (hkeep _ (by simp))).trans hp
  have hdone : k.doneBuffer (qBase q.val + 0xC) (s.m.reg (qBase q.val + 0xC)) (2 &&& 3) = k.trigger q.val :=
    k.doneBuffer_ctrl _ _ q.isLt hpolicy
  rw [hdone] at hrow
  obtain ⟨hqueue, hflag⟩ := Mach.trigger_begins (m := k) hcanonical (by simpa only [Mach.on, Mach.dom, hclk] using hon) q.isLt
    (by rw [hbuf, hlen]) (htaking.symm ▸ h) (by rw [hq, ha])
  rw [hq, hts, hpost] at hqueue
  have hwithin := (Mach.trigger_within k q.val (k.within_refl [.regs, .pa, .pb, .flt, .buf, .sec, .nv, .free]) rfl).1
  have hall : s.m.changesOnly (k.trigger q.val) [.regs, .pa, .pb, .flt, .buf, .sec, .nv, .free] := fun x hx =>
    Mach.agrees_trans (hparts x fun hr => hx (by simp_all)) (hwithin x hx)
  generalize k.trigger q.val = n at *
  have hq' : n.q q.val = (n.settled ag).q q.val := by
    rw [Mach.q, ← settled_agrees n ag .buf (by decide) (by decide), Mach.q]
  rw [hq'] at hqueue
  simp only [Queue.unsealed, Queue.capturing, Queue.mk.injEq] at hqueue
  exact ⟨_, hrow, rfl, by simp [hqueue], by simp [hqueue], by simp [hqueue], by simp [hqueue], by simp [hqueue],
    (congrArg (bitAt · 3) (settled_reg n ag _)).trans hflag,
    settled_changesOnly ag hall (by simp) (by simp)⟩

theorem exec_rearms {s : State} {ag : Agent} {q : Fin 5} (hc : s.m.canonical = true) (hlen : s.m.buf.queues.length = 5)
    (ht : s.m.takesWrite ag .direct (qBase q.val + 0xC)) (hp : s.m.qPolicy q.val = 2) (hbanks : (s.m.q q.val).run ≠ .noBanks)
    (hfrozen : (s.m.q q.val).run ≠ .frozen) (hu : (s.m.q q.val).unread = []) :
    ∃ t, exec (.rearm ag .direct q 1) s = .next t ∧ t.pending = s.pending ∧ t.m.q q.val = (s.m.q q.val).rearmed ∧
      (∀ k, k ≠ q.val → t.m.q k = s.m.q k) ∧ s.m.wroteOnly t.m ag [.buf] [] := by
  have hrow := oneWrite_ctrl (w := 1) ht
  obtain ⟨hparts, -, hkeep⟩ := Mach.ctrlStored_keeps ag q.val 1 hc
  set k := s.m.ctrlStored ag q.val 1
  have hbuf : k.buf = s.m.buf := hparts .buf (by simp)
  have hclk : k.clk = s.m.clk := hparts .clk (by simp)
  have hq : ∀ j, k.q j = s.m.q j := fun j => by rw [Mach.q, hbuf, Mach.q]
  have hpolicy : k.qPolicy q.val = 2 := (congrArg (bitsAt · 8 2) (hkeep _ (by simp))).trans hp
  have hdone : k.doneBuffer (qBase q.val + 0xC) (s.m.reg (qBase q.val + 0xC)) (1 &&& 3) = k.updQ q.val Queue.rearmed :=
    (k.doneBuffer_ctrl _ _ q.isLt hpolicy).trans
      (Mach.rearms_of_empty (m := k) hpolicy (by rwa [hq]) (by rwa [hq]) (by rwa [hq]))
  rw [hdone] at hrow
  have hall : s.m.changesOnly (k.updQ q.val Queue.rearmed) [.regs, .buf] := fun x hx =>
    Mach.agrees_trans (hparts x fun hr => hx (by simp_all)) (k.updQ_changesOnly _ _ x fun hr => hx (by simp_all))
  have hq' : ∀ j, ((k.updQ q.val Queue.rearmed).settled ag).q j = (k.updQ q.val Queue.rearmed).q j := fun j => by
    rw [Mach.q, settled_agrees _ ag .buf (by decide) (by decide), Mach.q]
  refine ⟨_, hrow, rfl, ?_, fun j hj => ?_,
    settled_wroteOnly s.m _ ag [.buf] [] hall (hparts .pa (by simp)) (hparts .pb (by simp)) (congrArg Clocks.now hclk) hkeep⟩
  · rw [hq', Mach.updQ_q_self _ (by rw [hbuf]; omega), hq]
  · rw [hq', Mach.updQ_q_ne _ _ hj, hq]

/-- Settles O26: a trigger begins the capture by `Mach.trigger_begins`, since its PRETRIM record leaves the queue as it is; REARM of a queue
that has nothing to discard is `Mach.rearms_of_empty`. -/
theorem capturesStartAndRearm : Obligations.CapturesStartAndRearm :=
  fun _ _ _ hc hlen ht hp h => ⟨exec_trig_captures hc hlen ht hp h, exec_rearms hc hlen ht hp⟩

end Sys2Proof.Machine
end

section
/-! SUPPORT. Runs of discards and retention dips (R545, R547, R550): a gap record at the end of Q3, or one that waits. -/

namespace Sys2Proof.Machine

/-! ### A record that Q3 has room for (R516, R545) -/

/-- The machine with a gap record at the end of Q3. -/
def Mach.gapRecorded (m : Mach) (g : GapRec) : Mach := (m.recorded g.toWords).gapWritten g

theorem Mach.gapRecorded_changesOnly (m : Mach) (g : GapRec) : m.changesOnly (m.gapRecorded g) [.buf] := by
  have hrecorded : m.changesOnly (m.recorded g.toWords) [.buf] := fun x hx => by cases x <;> first | rfl | simp at hx
  unfold Mach.gapRecorded Mach.gapWritten
  split
  · exact hrecorded
  · exact fun x hx => Mach.agrees_trans (hrecorded x hx) (Mach.updQ_changesOnly _ _ _ x hx)

/-- A buffer record goes to the end of Q3 where none waits and none of its FOSC cycle stands there. -/
theorem Mach.putGap_recordsFit {m : Mach} {g : GapRec} (ht : m.taking = true) (hg : m.buf.pendingGaps = [])
    (h : m.recordsFit g.toWords.length) (hn : m.q3Now = 0) : m.putGap g = m.gapRecorded g := by
  rw [Mach.putGap, if_pos ht, Mach.flushGaps_none hg]
  simp [Mach.writeGap, Mach.recordQ3_recordsFit false h hn, Mach.gapRecorded]

/-- The machine with the run of discards of `q` ended, its record still to come. -/
def Mach.runEnded (m : Mach) (q : Nat) : Mach := m.updQ q fun s => { s with discRun := .none }

/-- The record of a run of discards (R547). -/
def DiscRun.record (d : DiscRun) (q : Nat) : GapRec := ⟨1, q, d.ts, d.count, d.first, 0⟩

theorem Mach.overwriteEnd_due {m : Mach} {q : Nat} {d : DiscRun} (hd : (m.q q).discRun = some d)
    (hage : d.since + second ≤ m.clk.now) : m.overwriteEnd q = (m.runEnded q).putGap (d.record q) := by
  rw [Mach.overwriteEnd, hd]
  exact (if_pos hage).trans (by rw [Mach.endRun, hd]; rfl)

theorem Mach.runEnded_q {m : Mach} {q : Nat} (hq : q < m.buf.queues.length) :
    (m.runEnded q).q q = { m.q q with discRun := .none } := Mach.updQ_q_self _ hq

theorem exec_overwriteRunEnd_records {s : State} {q : Fin 5} {d : DiscRun} (hlen : s.m.buf.queues.length = 5)
    (hd : (s.m.q q.val).discRun = some d) (hage : d.since + second ≤ s.m.clk.now) (h3 : q.val ≠ 3) (hroom : s.m.roomFor 3 8)
    (hp : s.m.qPolicy 3 = 1) (hg : s.m.buf.pendingGaps = []) :
    ∃ t, exec (.overwriteRunEnd q) s = .next t ∧ t.pending = s.pending ∧ s.m.gained t.m 3 (d.record q.val).toWords ∧
      t.m.q q.val = { s.m.q q.val with discRun := .none, sealGaps := (s.m.q q.val).sealGaps + 1 } ∧
      (∀ k, k ≠ q.val → k ≠ 3 → t.m.q k = s.m.q k) ∧ s.m.changesOnly t.m [.buf] := by
  obtain ⟨ht, hbanks, hrun, htrig, hq3, htail, o, ho, hl⟩ := hroom
  have hq : (s.m.runEnded q.val).q 3 = s.m.q 3 := Mach.updQ_q_ne _ _ (Ne.symm h3)
  have hlen' : (s.m.runEnded q.val).buf.queues.length = 5 := (listUpd_length _ _ _).trans hlen
  have hfit : (s.m.runEnded q.val).recordsFit (d.record q.val).toWords.length :=
    ⟨⟨by omega, by rwa [hq], o, by rwa [hq], hl⟩, by rwa [hq], hp⟩
  have hnow : (s.m.runEnded q.val).q3Now = 0 :=
    if_neg fun h => htail rfl (of_decide_eq_true ((Bool.and_eq_true _ _).mp h).1)
  have hrow := (Mach.overwriteEnd_due hd hage).trans (Mach.putGap_recordsFit (m := s.m.runEnded q.val) ht hg hfit hnow)
  refine ⟨_, congrArg (goOn s) hrow, rfl, ⟨o, ho, ?_⟩, ?_, fun k hk hk3 => ?_, fun x hx => ?_⟩
  · refine (Mach.updQ_q_ne _ _ (Ne.symm h3)).trans ((Mach.updQ_q_self _ (by omega)).trans ?_)
    rw [hq, Queue.plus, ho]
    rfl
  · refine (Mach.updQ_q_self (q := q.val) _ (by rw [Mach.recorded, Mach.plus, Mach.updQ, listUpd_length, hlen']; omega)).trans ?_
    have hself : ((s.m.runEnded q.val).recorded (d.record q.val).toWords).q q.val = { s.m.q q.val with discRun := .none } :=
      (Mach.updQ_q_ne _ _ h3).trans (Mach.runEnded_q (by omega))
    rw [hself]
  · exact (Mach.updQ_q_ne _ _ hk).trans ((Mach.updQ_q_ne _ _ hk3).trans (Mach.updQ_q_ne _ _ hk))
  · exact Mach.agrees_trans (s.m.updQ_changesOnly _ _ x hx) (Mach.gapRecorded_changesOnly _ _ x hx)

theorem exec_overwriteRunEnd_waits {s : State} {q : Fin 5} {d : DiscRun} (hlen : s.m.buf.queues.length = 5)
    (hd : (s.m.q q.val).discRun = some d) (hage : d.since + second ≤ s.m.clk.now) (ht : s.m.taking = false) :
    ∃ t, exec (.overwriteRunEnd q) s = .next t ∧ t.pending = s.pending ∧
      t.m.buf.pendingGaps = addPending s.m.buf.pendingGaps (d.record q.val) ∧
      t.m.q q.val = { s.m.q q.val with discRun := .none } ∧ (∀ k, k ≠ q.val → t.m.q k = s.m.q k) ∧
      s.m.changesOnly t.m [.buf] := by
  have hrow := (Mach.overwriteEnd_due hd hage).trans
    (if_neg (show ¬ (s.m.runEnded q.val).taking = true by rw [show (s.m.runEnded q.val).taking = false from ht]; decide))
  refine ⟨_, congrArg (goOn s) hrow, rfl, rfl, Mach.runEnded_q (by omega), fun k hk => Mach.updQ_q_ne _ _ hk, fun x hx => ?_⟩
  cases x
  case buf => simp at hx
  all_goals rfl

/-! ### Retention monitors (R550) -/

theorem listUpd_eq_modify {α : Type} (l : List α) (i : Nat) (f : α → α) : listUpd l i f = l.modify i f := by
  induction l generalizing i with
  | nil => simp [listUpd]
  | cons x l ih => cases i with
    | zero => rfl
    | succ i => simp [listUpd, ih]

theorem exec_retentionDip_latches {s : State} {bank : Fin 128} {u : BufUnit} (hret : s.m.dom 4 = .retain)
    (hu : s.m.buf.units[bank.val]? = some u) :
    ∃ t, exec (.retentionDip bank) s = .next t ∧ t.pending = s.pending ∧
      t.m.buf.units[bank.val]? = some { u with dipped := true } ∧ t.m.buf.queues = s.m.buf.queues ∧
      (∀ k, k ≠ bank.val → t.m.buf.units[k]? = s.m.buf.units[k]?) ∧ s.m.changesOnly t.m [.buf] := by
  refine ⟨_, congrArg (goOn s) (if_pos hret), rfl, ?_, rfl, fun k hk => ?_, fun x hx => ?_⟩
  · simp [Mach.updUnit, listUpd_eq_modify, hu]
  · simp [Mach.updUnit, listUpd_eq_modify, Ne.symm hk]
  · cases x
    case buf => simp at hx
    all_goals rfl

/-- Settles O27: a run that is due ends with its record, which goes to the end of Q3 by `Mach.putGap_recordsFit` or waits. -/
theorem discardRunsAndDips : Obligations.DiscardRunsAndDips :=
  ⟨fun _ _ _ hlen hd hage => ⟨exec_overwriteRunEnd_records hlen hd hage, exec_overwriteRunEnd_waits hlen hd hage⟩,
    fun _ _ _ => exec_retentionDip_latches⟩

end Sys2Proof.Machine
end

section
/-! SUPPORT. Seals and the timers of security (R529, R641, R649, R650, R653 to R658): composition, a seal's close or loss, the key pair. -/

namespace Sys2Proof.Machine

/-! ### Edits outside the registers -/

/-- The security record changes in itself. -/
theorem Mach.Edits.sec {m n : Mach} {ps : List Part} {as : List Nat} (h : m.Edits n ps as) (x : Security) (hp : ps.contains .sec = true) :
    m.Edits { n with sec := x } ps as :=
  h.other (qs := [.sec]) ⟨fun x hx => by cases x <;> first | rfl | simp at hx, id, id⟩ (by simpa using hp)

theorem Mach.Edits.updPort {m n : Mach} {ps : List Part} {as : List Nat} (h : m.Edits n ps as) (p : Port) (f : PortState → PortState)
    (hp : [Part.pa, .pb].all ps.contains = true) : m.Edits (n.updPort p f) ps as := by
  simp only [List.all_cons, List.all_nil, Bool.and_true, Bool.and_eq_true] at hp
  exact h.other (qs := [.pa, .pb]) (Mach.updPort_within p f (n.within_refl _) rfl) (by simp_all)

/-! ### Timers of seals, challenges and lockouts (R529, R649, R650) -/

theorem exec_sealTimer_due {s : State} (hlife : s.m.sec.life = 1 ∨ s.m.sec.life = 2)
    (hdue : s.m.sec.lastCompose + 10 * second ≤ s.m.clk.now) :
    ∃ t, exec .sealTimer s = .next t ∧ t.pending = s.pending ∧ t.m.sec = { s.m.sec with reasons := s.m.sec.reasons ||| 2 } ∧
      s.m.changesOnly t.m [.sec] := by
  have hrow : s.m.sealTimer = s.m.sealReason 1 := if_pos (by simp [hlife, hdue])
  exact ⟨_, congrArg (goOn s) hrow, rfl, rfl, fun x hx => by cases x <;> first | rfl | simp at hx⟩

theorem exec_challengeExpiry_due {s : State} {p : Port} {c : Challenge} (hc : (s.m.port p).challenge = some c)
    (hdue : c.since + 60 * second ≤ s.m.clk.now) :
    ∃ t, exec (.challengeExpiry p) s = .next t ∧ t.pending = s.pending ∧ t.m.port p = { s.m.port p with challenge := none } ∧
      s.m.changesOnly t.m [portPart p] := by
  have hrow : s.m.challengeExpiry p = s.m.updPort p fun s => { s with challenge := none } := by
    rw [Mach.challengeExpiry, hc]
    exact if_pos hdue
  exact ⟨_, congrArg (goOn s) hrow, rfl, Mach.updPort_port .., Mach.updPort_changesOnly _ _ _⟩

theorem exec_authLockoutEnd_due {s : State} {p : Port} {u : Nat} (hu : (s.m.port p).lockUntil = some u) (hdue : u ≤ s.m.clk.now) :
    ∃ t, exec (.authLockoutEnd p) s = .next t ∧ t.pending = s.pending ∧
      t.m.port p = { s.m.port p with lockUntil := none, authFails := 0 } ∧ s.m.changesOnly t.m [portPart p] := by
  have hrow : s.m.authLockoutEnd p = s.m.updPort p fun s => { s with lockUntil := none, authFails := 0 } := by
    rw [Mach.authLockoutEnd, hu]
    exact if_pos hdue
  exact ⟨_, congrArg (goOn s) hrow, rfl, Mach.updPort_port .., Mach.updPort_changesOnly _ _ _⟩

/-! ### Composition (R653, R656, R657) -/

/-- The seal that the reasons that wait ask for. -/
def Mach.sealJob (m : Mach) : SealJob :=
  ⟨m.sealPayload m.sec.reasons m.sec.made false, m.sec.inForce.key, decide (m.sec.made.num ≠ m.sec.inForce.num), false, m.sec.verbs⟩

/-- The machine with that seal being signed, and what it counts counted anew. -/
def Mach.sealComposed (m : Mach) : Mach :=
  { m with
    sec := { m.sec with
      reasons := 0, verbs := [], inForce := m.sec.made, lastCompose := m.clk.now, sealing := some m.sealJob }
    buf := { m.buf with
      q4Seal := 0
      queues := m.buf.queues.map (fun q => { q with sealClosed := 0, countClosed := 0, sealGaps := 0, sealDisc := 0 }) } }

/-- A seal is composed for every reason that waits; none of them closes the open blocks. -/
theorem Mach.sealCompose_all {m : Mach} (ht : m.taking = true) (h3 : m.testing 3 = false) (hnone : m.sec.sealing = none)
    (hr : m.sec.reasons ≠ 0) (hlife : m.sec.life = 1 ∨ m.sec.life = 2) (hverb : m.sec.reasons.getLsbD 2 = false)
    (hretire : m.sec.reasons.getLsbD 6 = false) : m.sealCompose = m.sealComposed := by
  have hguard : (!m.taking || m.testing 3 || m.sec.sealing.isSome || m.sec.reasons = 0 || (m.sec.life ≠ 1 && m.sec.life ≠ 2)) =
      false := by
    have hsome : decide (m.sec.reasons = 0) = false := decide_eq_false hr
    obtain hl | hl := hlife <;> rw [ht, h3, hnone, hsome, hl] <;> rfl
  refine (if_neg (by rw [hguard]; decide)).trans ?_
  dsimp only
  rw [hverb, hretire]
  rfl

/-! ### A seal that is signed (R653, R655, R658) -/

/-- The machine with no seal being signed. -/
def Mach.sealDone (m : Mach) : Mach := { m with sec := { m.sec with sealing := none } }

/-- The end of a signature that no verb waits for, under STOP. -/
theorem Mach.sealSignedRow_stop {m : Mach} {j : SealJob} (hj : m.sec.sealing = some j) (hr : j.retire = false) (hv : j.verbs = [])
    (ht : m.taking = true) (hp : m.qPolicy 3 = 0) :
    m.sealSignedRow = if m.sealRoom then m.sealDone.sealClose j else m.sealDone.sealLost := by
  have hsigned : m.sealSigned =
      if m.sealRoom then (m.sealDone.sealClose j, some (m.q 3).nextSeq, []) else (m.sealDone.sealLost, none, []) := by
    have hpolicy : m.sealDone.qPolicy 3 = 0 := hp
    unfold Mach.sealDone at hpolicy
    simp only [Mach.sealSigned, hj, ht, hv, Bool.not_true, Bool.false_eq_true, if_false]
    rw [if_pos hpolicy]
    rfl
  rw [Mach.sealSignedRow, hj, hsigned]
  cases m.sealRoom
  · exact if_pos (by simp [hr])
  · exact if_pos (by simp [hr])

theorem on_of_taking {m : Mach} (h : m.taking = true) : m.on 4 = true ∧ m.on 7 = true := by
  simp only [Mach.taking, Mach.canWrite, Bool.and_eq_true] at h
  exact h.1.1

theorem Mach.sealLost_effect {m : Mach} (hc : m.canonical = true) (hn : m.noClear) (ht : m.taking = true) :
    m.sealLost.flag 0x1C04 2 = true ∧ m.sealLost.flag 0x3010 1 = true ∧
      bitsAt (m.sealLost.reg 0x301C) 0 24 = min 0xFFFFFF (bitsAt (m.reg 0x301C) 0 24 + 1) ∧
      m.Edits m.sealLost [.regs] [0x1C04, 0x3010, 0x301C] := by
  obtain ⟨h4, h7⟩ := on_of_taking ht
  have hlost : m.Edits (m.sqBit 0x1C04 2) [.regs] [0x1C04] := (Mach.Edits.refl hn).sqEvent _ (by simp) rfl
  have hcounted : (m.sqBit 0x1C04 2).Edits ((m.sqBit 0x1C04 2).count 0x301C) [.regs] [0x301C] :=
    (Mach.Edits.refl hlost.noClear).count (by simp) rfl
  have hmarked : ((m.sqBit 0x1C04 2).count 0x301C).Edits m.sealLost [.regs] [0x3010] :=
    (Mach.Edits.refl hcounted.noClear).sqEvent _ (by simp) rfl
  have hon : ∀ k : Mach, k.clk = m.clk → k.on 7 = true := fun k hk => by
    simpa only [Mach.on, Mach.dom, hk] using h7
  have hclk : (m.sqBit 0x1C04 2).clk = m.clk := hlost.agrees (x := .clk) rfl
  have hcount := (count_effect (m.sqBit 0x1C04 2) 0x301C (hlost.canonical hc) hlost.noClear (hon _ hclk)).1
  refine ⟨?_, ?_, ?_, ?_⟩
  · refine (congrArg (bitAt · 2) ((hmarked.keepsRegs _ (by simp)).trans (hcounted.keepsRegs _ (by simp)))).trans ?_
    exact Mach.sqBit_sets hc (by decide) h4
  · exact Mach.sqBit_sets (hcounted.canonical (hlost.canonical hc)) (by decide)
      (hon _ ((hcounted.agrees (x := .clk) rfl).trans hclk))
  · rw [hmarked.keepsRegs 0x301C (by simp), hcount, hlost.keepsRegs 0x301C (by simp)]
  · exact (((Mach.Edits.refl hn).trans hlost rfl (by simp)).trans hcounted rfl (by simp)).trans hmarked rfl (by simp)


/-- The machine with the key of the seal's epoch in force, its signature made. -/
def Mach.sealKeyed (m : Mach) (j : SealJob) : Mach :=
  { m with free := m.free + 9, sec := { m.sec with inForce := { m.sec.inForce with key := j.key } } }

/-- The machine `n`, in which the seal of `m` has closed, with the epoch of `m` in force and the seal as its last. -/
def Mach.sealLinked (m n : Mach) : Mach :=
  { n with sec := { n.sec with inForce := m.sec.inForce, prevSeal := some (m.q 3).nextSeq, lastSeal := (m.q 3).nextSeq } }

/-- The machine with a seal's close counted and shown in `SEC_STATUS` (R658). -/
def Mach.sealCounted (m : Mach) (j : SealJob) : Mach := (m.count 0x3014).sqEvent 0x3010 (1 ||| bitIf j.declares 2)

theorem Mach.sealClose_eq (m : Mach) (j : SealJob) : ∃ ws,
    m.sealClose j = (m.sealLinked ((m.sealKeyed j).closeWith 3 true (m.sealKeyed j).ts false false true ws)).sealCounted j := by
  have hsigned : m.sealSign j.payload = ((m.sealSign j.payload).1, { m with free := m.free + 9 }) := rfl
  unfold Mach.sealClose
  rw [hsigned]
  refine ⟨(m.sealSign j.payload).1, ?_⟩
  dsimp only [Mach.sealKeyed, Mach.sealLinked, Mach.sealCounted]

theorem Mach.sealCounted_effect {m : Mach} (j : SealJob) (hc : m.canonical = true) (hn : m.noClear) (h7 : m.on 7 = true) :
    (m.sealCounted j).flag 0x3010 0 = true ∧ (j.declares = true → (m.sealCounted j).flag 0x3010 2 = true) ∧
      bitsAt ((m.sealCounted j).reg 0x3014) 0 24 = min 0xFFFFFF (bitsAt (m.reg 0x3014) 0 24 + 1) ∧
      m.Edits (m.sealCounted j) [.regs] [0x3010, 0x3014] := by
  have hcounted : m.Edits (m.count 0x3014) [.regs] [0x3010, 0x3014] := (Mach.Edits.refl hn).count (by simp) rfl
  have hmarked : (m.count 0x3014).Edits (m.sealCounted j) [.regs] [0x3010] :=
    (Mach.Edits.refl hcounted.noClear).sqEvent _ (by simp) rfl
  have hclk : (m.count 0x3014).clk = m.clk := hcounted.agrees (x := .clk) rfl
  have hon : (m.count 0x3014).on 7 = true := by simpa only [Mach.on, Mach.dom, hclk] using h7
  have hset : ∀ i < 24, bitAt (1 ||| bitIf j.declares 2) i = true → (m.sealCounted j).flag 0x3010 i = true := fun i hi hb =>
    Mach.sqEvent_sets (hcounted.canonical hc) hi hb hon
  refine ⟨hset 0 (by decide) ?_, fun hd => hset 2 (by decide) ?_, ?_, hcounted.trans hmarked rfl (by simp)⟩
  · cases j.declares <;> rfl
  · rw [hd]
    rfl
  · rw [hmarked.keepsRegs 0x3014 (by simp), (count_effect m 0x3014 hc hn h7).1]

/-- A seal that finds room closes as the next block of Q3, which stays in RUN or becomes FULL (R533, R655). -/
theorem Mach.sealClose_effect {m : Mach} (j : SealJob) (hc : m.canonical = true) (hn : m.noClear) (h7 : m.on 7 = true)
    (hp : m.qPolicy 3 = 0) (hlen : m.buf.queues.length = 5) (hrun : (m.q 3).run = .run) {n : Mach} (hm : m.sealClose j = n) :
    (∃ r, n.sec = { m.sec with reasons := r, prevSeal := some (m.q 3).nextSeq, lastSeal := (m.q 3).nextSeq }) ∧
      (∃ b r, n.q 3 = { (m.q 3).closing true b with run := r } ∧ b.seq = (m.q 3).nextSeq ∧ b.readable = false) ∧
      (∀ k, k ≠ 3 → n.q k = m.q k) ∧ n.flag 0x3010 0 = true ∧ (j.declares = true → n.flag 0x3010 2 = true) ∧
      bitsAt (n.reg 0x3014) 0 24 = min 0xFFFFFF (bitsAt (m.reg 0x3014) 0 24 + 1) ∧
      m.changesOnly n [.regs, .pa, .pb, .buf, .sec, .nv, .free] := by
  obtain ⟨ws, hws⟩ := m.sealClose_eq j
  rw [hws] at hm
  have hkeyed : m.Edits (m.sealKeyed j) [.regs, .pa, .pb, .buf, .sec, .nv, .free] [qBase 3 + 0x1C, intsrc .a, intsrc .b] :=
    (Mach.Edits.refl hn).other (qs := [.sec, .free]) ⟨fun x hx => by cases x <;> first | rfl | simp at hx, id, id⟩ rfl
  have hlt : 3 < (m.sealKeyed j).buf.queues.length := hlen.symm ▸ (by decide : 3 < 5)
  obtain ⟨flags, map, ⟨r, hself⟩, hothers, ⟨reasons, hsec⟩, hedits⟩ := Mach.closeWith_run (m := m.sealKeyed j) (q := 3)
    (filled := true) true (m.sealKeyed j).ts false false ws hlt hrun hkeyed.noClear (.inr hp)
  rw [Mach.updQ_q_self _ hlt] at hself
  generalize (m.sealKeyed j).closeWith 3 true (m.sealKeyed j).ts false false true ws = k at *
  have hclosed : m.Edits (m.sealLinked k) [.regs, .pa, .pb, .buf, .sec, .nv, .free] [qBase 3 + 0x1C, intsrc .a, intsrc .b] :=
    ((hkeyed.other (qs := [.buf]) (Mach.updQ_within _ 3 _ (Mach.within_refl _ _) rfl) rfl).trans hedits rfl (by simp)).sec _ rfl
  have hclk : (m.sealLinked k).clk = m.clk := hclosed.agrees (x := .clk) rfl
  obtain ⟨h0, h2, hcount, hcounted⟩ := Mach.sealCounted_effect (m := m.sealLinked k) j (hclosed.canonical hc) hclosed.noClear
    (by simpa only [Mach.on, Mach.dom, hclk] using h7)
  rw [hm] at h0 h2 hcount hcounted
  have hq : ∀ i, n.q i = k.q i := fun i => congrArg (fun b : Buffer => b.queues.getD i Queue.none) (hcounted.agrees (x := .buf) rfl)
  refine ⟨⟨reasons, ?_⟩, ⟨_, r, (hq 3).trans hself, rfl, rfl⟩, fun i hi => ?_, h0, h2, ?_, ?_⟩
  · rw [show n.sec = (m.sealLinked k).sec from hcounted.agrees (x := .sec) rfl, Mach.sealLinked, hsec]
    rfl
  · rw [hq, hothers i hi, Mach.updQ_q_ne _ _ hi]
    rfl
  · rw [hcount, hclosed.keepsRegs 0x3014 (by decide)]
  · exact fun x hx => Mach.agrees_trans (hclosed.within.1 x hx) (hcounted.within.1 x fun hr => hx (by simp_all))

theorem exec_sealSigned_closes {s : State} {j : SealJob} (hc : s.m.canonical = true) (hn : s.m.noClear)
    (hj : s.m.sec.sealing = some j) (hr : j.retire = false) (hv : j.verbs = []) (ht : s.m.taking = true) (hp : s.m.qPolicy 3 = 0)
    (hlen : s.m.buf.queues.length = 5) (hrun : (s.m.q 3).run = .run) (hroom : s.m.sealRoom = true) :
    ∃ t b, exec .sealSigned s = .next t ∧ t.pending = s.pending ∧ t.m.sec.sealing = none ∧
      t.m.sec.prevSeal = some (s.m.q 3).nextSeq ∧ t.m.sec.lastSeal = (s.m.q 3).nextSeq ∧
      t.m.sec.inForce = s.m.sec.inForce ∧ (t.m.q 3).nextSeq = (s.m.q 3).nextSeq + 1 ∧
      (t.m.q 3).unread = (s.m.q 3).unread ++ [b] ∧ b.seq = (s.m.q 3).nextSeq ∧ b.readable = false ∧
      (∀ k, k ≠ 3 → t.m.q k = s.m.q k) ∧ t.m.flag 0x3010 0 = true ∧ (j.declares = true → t.m.flag 0x3010 2 = true) ∧
      bitsAt (t.m.reg 0x3014) 0 24 = min 0xFFFFFF (bitsAt (s.m.reg 0x3014) 0 24 + 1) ∧
      s.m.changesOnly t.m [.regs, .pa, .pb, .buf, .sec, .nv, .free] := by
  have hrow := (Mach.sealSignedRow_stop hj hr hv ht hp).trans (if_pos hroom)
  have hdone : s.m.changesOnly s.m.sealDone [.sec] := fun x hx => by cases x <;> first | rfl | simp at hx
  obtain ⟨⟨reasons, hsec⟩, ⟨b, r, hself, hseq, hread⟩, hothers, h0, h2, hcount, hparts⟩ :=
    Mach.sealClose_effect (m := s.m.sealDone) j hc hn (on_of_taking ht).2 hp hlen hrun rfl
  refine ⟨_, b, congrArg (goOn s) hrow, rfl, ?_, ?_, ?_, ?_, ?_, ?_, hseq, hread, hothers, h0, h2, hcount, fun x hx =>
    Mach.agrees_trans (hdone x fun hr => hx (by simp_all)) (hparts x hx)⟩
  any_goals
    dsimp only
    rw [hsec]
    rfl
  all_goals
    dsimp only
    rw [hself]
    rfl

theorem exec_sealSigned_lost {s : State} {j : SealJob} (hc : s.m.canonical = true) (hn : s.m.noClear)
    (hj : s.m.sec.sealing = some j) (hr : j.retire = false) (hv : j.verbs = []) (ht : s.m.taking = true) (hp : s.m.qPolicy 3 = 0)
    (hroom : s.m.sealRoom = false) :
    ∃ t, exec .sealSigned s = .next t ∧ t.pending = s.pending ∧ t.m.sec = { s.m.sec with sealing := none } ∧
      t.m.flag 0x1C04 2 = true ∧ t.m.flag 0x3010 1 = true ∧
      bitsAt (t.m.reg 0x301C) 0 24 = min 0xFFFFFF (bitsAt (s.m.reg 0x301C) 0 24 + 1) ∧
      s.m.changesOnly t.m [.regs, .sec] ∧ s.m.keepsRegs t.m [0x1C04, 0x3010, 0x301C] := by
  have hrow := (Mach.sealSignedRow_stop hj hr hv ht hp).trans (if_neg (by simp [hroom]))
  have hdone : s.m.Edits s.m.sealDone [.regs, .sec] [0x1C04, 0x3010, 0x301C] := (Mach.Edits.refl hn).sec _ rfl
  obtain ⟨hdisc, hlost, hcount, hedits⟩ := Mach.sealLost_effect (m := s.m.sealDone) hc hn ht
  have hall := hdone.trans hedits rfl (by simp)
  exact ⟨_, congrArg (goOn s) hrow, rfl, hedits.agrees (x := .sec) rfl, hdisc, hlost, hcount, hall.within.1, hall.keepsRegs⟩

/-! ### The key pair (R641) -/

/-- The security record with a key pair and its certificates. -/
def Security.keyed (s : Security) (d : Nat) (head tail ca : List Byte) : Security :=
  { s with life := 1, priv := some d, pub := ecPublic d, cert := certificate (ecPublic d) head tail, caCert := ca
           stored := { s.stored with life := 1 } }

theorem exec_keyGeneration_open {s : State} {head tail ca : List Byte} (hc : s.m.canonical = true) (hn : s.m.noClear)
    (hlife : s.m.sec.life = 0) (hon : s.m.on 7 = true) :
    ∃ t d, exec (.keyGeneration ⟨head, tail⟩ ca) s = .next t ∧ t.pending = s.pending ∧ d = scalarOf (Config.random s.m.free) ∧
      t.m.sec = s.m.sec.keyed d head tail ca ∧
      (∀ p, t.m.port p = { s.m.port p with auth := false }) ∧ t.m.flag 0x3010 4 = true ∧
      s.m.changesOnly t.m [.regs, .pa, .pb, .sec, .free] ∧ s.m.keepsRegs t.m [0x3010] := by
  let k : Mach := { s.m with free := s.m.free + 1, sec := s.m.sec.keyed (scalarOf (Config.random s.m.free)) head tail ca }
  have hrow : s.m.keyGeneration head tail ca = k.lifeChange := if_neg (by simp [hlife])
  have hkeyed : s.m.Edits k [.regs, .pa, .pb, .sec, .free] [0x3010] :=
    (Mach.Edits.refl hn).other (qs := [.sec, .free]) ⟨fun x hx => by cases x <;> first | rfl | simp at hx, id, id⟩ rfl
  have hended : s.m.Edits ((k.authOff .a).authOff .b) [.regs, .pa, .pb, .sec, .free] [0x3010] :=
    (hkeyed.updPort .a _ rfl).updPort .b _ rfl
  have hshown : ((k.authOff .a).authOff .b).Edits k.lifeChange [.regs] [0x3010] := (Mach.Edits.refl hended.noClear).sqEvent _ (by simp) rfl
  have hall := hended.trans hshown rfl (by simp)
  refine ⟨_, _, congrArg (goOn s) hrow, rfl, rfl, hshown.agrees (x := .sec) rfl, fun p => ?_, ?_, hall.within.1, hall.keepsRegs⟩
  · cases p
    · exact hshown.agrees (x := .pa) rfl
    · exact hshown.agrees (x := .pb) rfl
  · exact Mach.sqBit_sets (hended.canonical hc) (by decide) hon

/-- Settles O50: a composition is `Mach.sealCompose_all`, a seal closes by `Mach.sealClose_effect` or is lost by `Mach.sealLost_effect`. -/
theorem sealsKeysAndTheirTimers : Obligations.SealsKeysAndTheirTimers := by
  intro s hc hn
  exact ⟨exec_sealTimer_due, fun ht h3 hnone hr hlife hverb hretire =>
      ⟨_, congrArg (goOn s) (Mach.sealCompose_all ht h3 hnone hr hlife hverb hretire), rfl, rfl, rfl,
        fun x hx => by cases x <;> first | rfl | simp at hx⟩,
    fun j hj hr hv ht hp hlen hrun => ⟨exec_sealSigned_closes hc hn hj hr hv ht hp hlen hrun,
      exec_sealSigned_lost hc hn hj hr hv ht hp⟩,
    fun _ _ => exec_challengeExpiry_due, fun _ _ => exec_authLockoutEnd_due, fun _ _ _ => exec_keyGeneration_open hc hn⟩

end Sys2Proof.Machine
end

section
/-! SUPPORT. SYNC of the fleet (R605 to R607, R613): pulses sent, pulses accepted and what they do to the SYNC state, timestamp loads. -/

namespace Sys2Proof.Machine

/-! ### Pulses of a manager, and pulses that stay out (R605, R607) -/

theorem Mach.flueStat_flue (m : Mach) (i : Nat) : (m.flueStat i).flue = m.flue :=
  (Mach.flueStat_within m i (m.within_refl [.regs]) rfl).1 .flue (by simp)

/-- The Flue service changes in itself. -/
theorem Mach.Edits.flue {m n : Mach} {ps : List Part} {as : List Nat} (h : m.Edits n ps as) (x : Flue)
    (hl : x.workers.length = n.flue.workers.length) (hp : ps.contains .flue = true) : m.Edits { n with flue := x } ps as := by
  refine h.other (qs := [.flue]) ⟨fun x hx => by cases x <;> first | rfl | simp at hx, id, fun hs => ?_⟩ (by simpa using hp)
  obtain ⟨h1, h2, h3, h4, h5, h6, h7, h8⟩ := hs
  exact ⟨h1, h2, h3, h4, h5, h6, h7, hl.trans h8⟩

theorem exec_syncPulseOut_due {s : State} (hf : s.m.fleet = true) (hv : s.m.clk.vio = true)
    (hts : frameStart (frameOf s.m.ts) = s.m.ts) :
    ∃ t, exec .syncPulseOut s = .next t ∧ t.pending = s.pending ∧
      t.m.flue = { s.m.flue with
        pulseHighUntil := some (s.m.clk.now + if frameOf s.m.ts % 1000 = 0 then 192 else 64)
        mark := if frameOf s.m.ts % 1000 = 0 then some (s.m.clk.now, s.m.ts) else s.m.flue.mark } ∧
      s.m.changesOnly t.m [.flue] := by
  refine ⟨_, congrArg (goOn s) (if_pos (by simp [hf, hv, hts])), rfl, ?_, fun x hx => by cases x <;> first | rfl | simp at hx⟩
  simp

theorem exec_syncHoldover_due {s : State} (hc : s.m.canonical = true) (hn : s.m.noClear) (hon : s.m.on 6 = true)
    (hl : s.m.flue.sync = .locked) (hp : ∀ p, s.m.flue.lastPulse = some p → p.1 + millis 3 < s.m.clk.now)
    (hsome : s.m.flue.lastPulse ≠ none) :
    ∃ t, exec .syncHoldover s = .next t ∧ t.pending = s.pending ∧ t.m.flue = { s.m.flue with sync := .holdover } ∧
      t.m.flag 0x281C 1 = true ∧ s.m.changesOnly t.m [.regs, .flue] ∧ s.m.keepsRegs t.m [0x281C] := by
  obtain ⟨p, hsome⟩ := Option.ne_none_iff_exists'.mp hsome
  let k : Mach := { s.m with flue := { s.m.flue with sync := .holdover } }
  have hrow : s.m.syncHoldover = k.flueStat 1 := by
    unfold Mach.syncHoldover
    split
    · next hlast => exact if_pos (decide_eq_true (hp _ hlast))
    · next hne => exact absurd hsome (hne _ _ hl)
  have hheld : s.m.Edits k [.regs, .flue] [0x281C] := (Mach.Edits.refl hn).flue _ rfl rfl
  have hall : s.m.Edits (k.flueStat 1) [.regs, .flue] [0x281C] := hheld.sqEvent _ (by simp) rfl
  exact ⟨_, congrArg (goOn s) hrow, rfl, k.flueStat_flue 1, Mach.sqBit_sets (m := k) hc (by decide) hon, hall.within.1, hall.keepsRegs⟩

/-! ### Arming a timestamp load (R613) -/

/-- The fields of `FLUE_TLOAD` (R632). -/
def flueTload : RegDef := RegDef.control 0 1 0 0 0 0 []

/-- The machine with a timestamp load that waits for its frame mark. -/
def Mach.loadArmed (m : Mach) : Mach := { m.setFld 0x2818 0 1 1 with flue := { m.flue with loadAt := some m.clk.now } }

theorem exec_flueTload_arms {s : State} {ag : Agent} {w : Word} (hc : s.m.canonical = true) (ht : s.m.takesWrite ag .direct 0x2818)
    (hw : bitAt w 0 = true) (hl : s.m.flue.sync = .locked) (harm : s.m.flag 0x2818 0 = false) :
    ∃ t, exec (.flueTload ag .direct w) s = .next t ∧ t.pending = s.pending ∧
      t.m.flue = { s.m.flue with loadAt := some s.m.clk.now } ∧ t.m.flag 0x2818 0 = true ∧ s.m.wroteOnly t.m ag [.flue] [0x2818] := by
  have hgo : bitAt (w &&& flueTload.go) 0 = true := by rw [bitAt_and, hw]; rfl
  have hwritten : flueTload.written .direct (s.m.reg 0x2818) w = s.m.reg 0x2818 := written_go _ _ _ _ rfl rfl rfl
  have hlocked : ∀ k : Mach, k.flue = s.m.flue → k.reg 0x2818 = s.m.reg 0x2818 → k.tload = (0, k.loadArmed) := fun k hf hr => by
    have hflag : k.flag 0x2818 0 = false := (congrArg (bitAt · 0) hr).trans harm
    rw [Mach.tload, if_neg (by simp [hf, hl]), if_neg (by simp [hflag])]
    rfl
  have hb := Mach.busWrite_taken (m := s.m.touch (blockOf 0x2818)) (a := 0x2818) (d := flueTload) (w := w) ag rfl (by decide) rfl rfl rfl
    rfl rfl (by decide) rfl rfl
    (by
      change (if bitAt (w &&& flueTload.go) 0 then (s.m.touch (blockOf 0x2818)).tload.1 else 0) = 0
      rw [if_pos hgo, hlocked (s.m.touch (blockOf 0x2818)) rfl rfl])
  obtain ⟨k, hk⟩ : ∃ k, s.m.fltStored ag 0x2818 (w &&& flueTload.go) (s.m.reg 0x2818) = k := ⟨_, rfl⟩
  obtain ⟨hparts, hcanon, -⟩ := s.m.fltStored_within ag 0x2818 (w &&& flueTload.go) (s.m.reg 0x2818)
  have hself := Mach.fltStored_reg_self ag 0x2818 (w &&& flueTload.go) (s.m.reg 0x2818) hc
  have hkeeps := s.m.fltStored_keepsRegs ag 0x2818 (w &&& flueTload.go) (s.m.reg 0x2818)
  have hdone : (s.m.touch (blockOf 0x2818)).busWrite ag .direct 0x2818 w =
      (0, (s.m.fltStored ag 0x2818 (w &&& flueTload.go) (s.m.reg 0x2818)).doneFlue 0x2818 (s.m.reg 0x2818) (s.m.reg 0x2818)
        (w &&& flueTload.go)) := by
    rw [hb, show (s.m.touch (blockOf 0x2818)).reg 0x2818 = s.m.reg 0x2818 from rfl, hwritten]
    rfl
  rw [hk] at hparts hcanon hself hkeeps hdone
  have hflue : k.flue = s.m.flue := hparts .flue (by simp)
  have hclk : k.clk = s.m.clk := hparts .clk (by simp)
  rw [Mach.doneFlue, if_neg (by decide), if_pos (by simp [hgo]), hlocked k hflue hself] at hdone
  obtain ⟨t, he, hp, htm, hwrote⟩ := oneWrite_effect s ag .direct 0x2818 w (by decide) (by decide) ht [.flue] [0x2818] k.loadArmed hdone
    (fun x hx => Mach.agrees_trans (hparts x fun hr => hx (by simp_all))
      (Mach.agrees_trans (k.setReg_agrees _ _ fun hr => hx (by simp_all)) (by cases x <;> first | rfl | simp at hx)))
    (hparts .pa (by simp)) (hparts .pb (by simp)) (congrArg Clocks.now hclk)
    (fun x hx => (k.setFld_reg_ne 0 1 1 (by simpa using hx)).trans (hkeeps x hx))
  refine ⟨t, he, hp, ?_, ?_, hwrote⟩
  · have hkept : (k.loadArmed.settled ag).flue = { k.flue with loadAt := some k.clk.now } :=
      settled_agrees _ ag .flue (by decide) (by decide)
    rw [htm, hkept, hflue, hclk]
  · rw [htm, Mach.flag, settled_reg]
    exact Mach.flag_setFld_self (m := k) (hcanon hc) (by decide)

/-! ### An accepted pulse (R606, R607) -/

/-- The SYNC service in a state, with its count of good intervals and its attachment. -/
def Flue.at (f : Flue) (st : SyncSt) (n : Nat) (att : Bool) : Flue := { f with sync := st, goodIntervals := n, att := att }

/-- The machine with its SYNC service there. -/
def Mach.syncAt (m : Mach) (st : SyncSt) (n : Nat) (att : Bool) : Mach := { m with flue := m.flue.at st n att }

/-- The intervals counted past a pulse `d` after the one before. -/
def Flue.counted (f : Flue) (d : Option Int) : Nat := if d.any goodInterval then f.goodIntervals + 1 else 0

theorem Mach.syncPulse_free {m : Mach} (e : Int) (d : Option Int) (h : m.flue.sync = .free) :
    m.syncPulse e d = m.syncAt .acquire 0 m.flue.att := by
  simp only [Mach.syncPulse, h]
  rfl

theorem Mach.syncPulse_acquire {m : Mach} (e : Int) (d : Option Int) (h : m.flue.sync = .acquire) :
    m.syncPulse e d = if 64 ≤ m.flue.counted d then (m.syncAt .locked (m.flue.counted d) m.flue.att).flueStat 0
      else m.syncAt .acquire (m.flue.counted d) m.flue.att := by
  simp only [Mach.syncPulse, Mach.syncAt, Flue.at, h]
  cases d <;> rfl

theorem Mach.syncPulse_locked {m : Mach} (e : Int) (d : Option Int) (h : m.flue.sync = .locked) : m.syncPulse e d = m := by
  simp only [Mach.syncPulse, h]

theorem Mach.syncPulse_holdover {m : Mach} (e : Int) (d : Option Int) (h : m.flue.sync = .holdover) :
    m.syncPulse e d = if m.flue.att && decide (|e| ≤ 134) then (m.syncAt .locked m.flue.goodIntervals m.flue.att).flueStat 0
      else (m.syncAt .acquire 0 false).flueStat 3 := by
  simp only [Mach.syncPulse, h]
  rfl

/-- A pulse's step changes the SYNC state, the count and the attachment, and tells them in `FLUE_STATUS`. -/
theorem Mach.syncPulse_frame {m : Mach} (e : Int) (d : Option Int) (hn : m.noClear) :
    (∃ st n att, (m.syncPulse e d).flue = m.flue.at st n att) ∧ m.Edits (m.syncPulse e d) [.regs, .flue] [0x281C] := by
  have hplain : ∀ st n att, m.Edits (m.syncAt st n att) [.regs, .flue] [0x281C] := fun st n att =>
    (Mach.Edits.refl hn).flue (m.flue.at st n att) rfl rfl
  have htold : ∀ st n att i, m.Edits ((m.syncAt st n att).flueStat i) [.regs, .flue] [0x281C] := fun st n att i =>
    (hplain st n att).sqEvent _ (by simp) rfl
  have hflue : ∀ st n att i, ((m.syncAt st n att).flueStat i).flue = m.flue.at st n att := fun st n att i =>
    Mach.flueStat_flue _ i
  cases h : m.flue.sync
  case free =>
    rw [Mach.syncPulse_free e d h]
    exact ⟨⟨_, _, _, rfl⟩, hplain _ _ _⟩
  case acquire =>
    rw [Mach.syncPulse_acquire e d h]
    split
    · exact ⟨⟨_, _, _, hflue _ _ _ _⟩, htold _ _ _ _⟩
    · exact ⟨⟨_, _, _, rfl⟩, hplain _ _ _⟩
  case locked =>
    rw [Mach.syncPulse_locked e d h]
    exact ⟨⟨_, _, _, rfl⟩, .refl hn⟩
  case holdover =>
    rw [Mach.syncPulse_holdover e d h]
    split
    · exact ⟨⟨_, _, _, hflue _ _ _ _⟩, htold _ _ _ _⟩
    · exact ⟨⟨_, _, _, hflue _ _ _ _⟩, htold _ _ _ _⟩

/-- The SYNC service with a pulse measured at `x`, as a frame mark or not. -/
def Flue.measured (f : Flue) (now : Nat) (x : Int) (mark : Bool) : Flue :=
  { f with lastPulse := some (now, x), errs := ((x - gridNear x) :: f.errs).take 16
           mark := if mark then some (now, x.toNat) else f.mark }

/-- The machine with that pulse measured. -/
def Mach.pulseMeasured (m : Mach) (x : Int) (mark : Bool) : Mach := { m with flue := m.flue.measured m.clk.now x mark }

/-- The instant that a worker measures a pulse to come at now (R606). -/
def Mach.pulseAt (m : Mach) : Int := (m.ts : Int) - 4 + (m.fld 0x2808 0 8 : Int)

/-- The machine past a pulse, with no load of its timestamp yet. -/
def Mach.pulseTaken (m : Mach) (high : Nat) : Mach :=
  (m.syncPulse (m.pulseAt - gridNear m.pulseAt) (m.flue.lastPulse.map fun p => m.pulseAt - p.2)).pulseMeasured m.pulseAt
    (decide (128 ≤ high))

/-- The machine with the pulse that comes now measured as it stands. -/
def Mach.markedNow (m : Mach) : Mach := { m with flue := { m.flue with lastPulse := some (m.clk.now, m.pulseAt) } }

/-- The machine with its timestamp loaded at a frame mark, which is measured anew under it (R613). -/
def Mach.markLoaded (m : Mach) : Mach := m.loadTs.markedNow

theorem Mach.syncAccepted_eq (m : Mach) (high : Nat) :
    ((m.pulseTaken high).flue.loadAt = none → m.syncAccepted high = m.pulseTaken high) ∧
      ∀ w, (m.pulseTaken high).flue.loadAt = some w → 128 ≤ high → w + millis 1 < (m.pulseTaken high).clk.now →
        m.syncAccepted high = (m.pulseTaken high).markLoaded := by
  unfold Mach.syncAccepted
  extract_lets x d e mark pulsed _ taken _ marked loaded load
  have htaken : marked = m.pulseTaken high := by
    change (if mark then _ else _) = ({ pulsed with flue := pulsed.flue.measured _ _ mark } : Mach)
    cases mark <;> rfl
  clear_value marked
  subst htaken
  refine ⟨fun h => by rw [h], fun w h hhigh hdue => ?_⟩
  rw [h]
  dsimp only [load, loaded, Mach.markLoaded, Mach.markedNow, Mach.pulseAt]
  rw [if_pos (by simp [mark, hhigh, hdue])]

/-- A pulse that a worker accepts while it is awake (R606, R680). -/
theorem Mach.syncInput_accepted {m : Mach} {low high : Nat} (hlife : m.clk.life = .up) (hvio : m.clk.vio = true)
    (hon : m.on 6 = true) (hrole : m.flue.role = 1) (hfosc : m.fosc = true) (hlow : 4 ≤ low) (hhigh : 14 ≤ high) :
    m.syncInput low high =
      if (m.syncAccepted high).flue.role = 1 then (m.syncAccepted high).wakeEdge 7 high else m.syncAccepted high := by
  have hpulse : m.syncPulseIn low high = (true, m.syncAccepted high) := by
    have hfilter : ∀ k, 4 ≤ k → m.syncFilter k = (true, m) := fun k hk => if_pos hk
    simp only [Mach.syncPulseIn, hfilter low hlow, hfilter high (by omega), hvio, hrole, hon, hfosc, Bool.and_self, Bool.not_true,
      Bool.or_self, Bool.false_eq_true, if_false, decide_true, if_true]
  rw [Mach.syncInput, if_neg (by simp [hlife]), hpulse]

/-- What stands past a pulse, beside the SYNC state, its count and the attachment. -/
theorem Mach.pulseTaken_frame {m : Mach} (high : Nat) (hn : m.noClear) :
    (∃ st n att, (m.pulseTaken high).flue = (m.flue.at st n att).measured m.clk.now m.pulseAt (decide (128 ≤ high))) ∧
      m.Edits (m.pulseTaken high) [.regs, .flue] [0x281C] := by
  obtain ⟨⟨st, n, att, hflue⟩, hedits⟩ :=
    Mach.syncPulse_frame (m.pulseAt - gridNear m.pulseAt) (m.flue.lastPulse.map fun p => m.pulseAt - p.2) hn
  refine ⟨⟨st, n, att, ?_⟩, hedits.flue _ rfl rfl⟩
  have hclk := hedits.agrees (x := .clk) rfl
  exact congrArg₂ (fun (f : Flue) (c : Clocks) => f.measured c.now m.pulseAt (decide (128 ≤ high))) hflue hclk

section

variable {s : State} {low high : Nat}

/-- A worker that is awake, with D6 ON, and the lengths of a pulse that its filter accepts. -/
def Mach.hearsPulse (m : Mach) (low high : Nat) : Prop :=
  m.on 6 = true ∧ m.clk.life = .up ∧ m.clk.vio = true ∧ m.flue.role = 1 ∧ m.fosc = true ∧ 4 ≤ low ∧ 14 ≤ high ∧
    m.clk.mode = .run ∧ m.clk.entry = none ∧ m.clk.wokeAt ≠ some m.clk.now

/-- Such a pulse does no more than the worker's SYNC service does with it. -/
theorem Mach.syncInput_awake {m : Mach} {low high : Nat} (h : m.hearsPulse low high) {ts : BitVec 64}
    (hclk : (m.syncAccepted high).clk = { m.clk with ts := ts }) : m.syncInput low high = m.syncAccepted high := by
  obtain ⟨hon, hlife, hvio, hrole, hfosc, hlow, hhigh, hmode, hentry, hwoke⟩ := h
  rw [Mach.syncInput_accepted hlife hvio hon hrole hfosc hlow hhigh]
  split
  · exact Mach.wakeEdge_awake 7 (by rw [hclk]; exact hvio) hhigh (by rw [hclk]; exact hmode) (by rw [hclk]; exact hentry)
      (by rw [hclk]; exact hwoke)
  · rfl

theorem exec_syncPulseIn_measures (hn : s.m.noClear) (h : s.m.hearsPulse low high)
    (hload : s.m.flue.loadAt = none) :
    ∃ t, exec (.syncPulseIn low high) s = .next t ∧ t.pending = s.pending ∧ t.m = s.m.pulseTaken high := by
  obtain ⟨⟨st, n, att, hflue⟩, hedits⟩ := Mach.pulseTaken_frame high hn
  have hplain : s.m.syncAccepted high = s.m.pulseTaken high :=
    (s.m.syncAccepted_eq high).1 (by rw [hflue]; exact hload)
  have hclk : (s.m.syncAccepted high).clk = { s.m.clk with ts := s.m.clk.ts } := by
    rw [hplain]
    exact hedits.agrees (x := .clk) rfl
  exact ⟨_, congrArg (goOn s) ((Mach.syncInput_awake h hclk).trans hplain), rfl, rfl⟩

end

/-! ### What a pulse does to the SYNC state (R607) -/

section

variable {m : Mach} (high : Nat)

theorem Mach.pulseTaken_acquires (h : m.flue.sync = .free) :
    (m.pulseTaken high).flue.sync = .acquire ∧ (m.pulseTaken high).flue.goodIntervals = 0 := by
  unfold Mach.pulseTaken
  rw [Mach.syncPulse_free _ _ h]
  exact ⟨rfl, rfl⟩

theorem Mach.pulseTaken_counts {p : Nat × Int} (hc : m.canonical = true) (hon : m.on 6 = true) (h : m.flue.sync = .acquire)
    (hp : m.flue.lastPulse = some p) :
    (m.pulseTaken high).flue.goodIntervals =
        (if |(m.pulseAt - p.2) * 1000 - 67108864| ≤ 1342 then m.flue.goodIntervals + 1 else 0) ∧
      (m.pulseTaken high).flue.sync = (if 64 ≤ (m.pulseTaken high).flue.goodIntervals then .locked else .acquire) ∧
      (64 ≤ (m.pulseTaken high).flue.goodIntervals → (m.pulseTaken high).flag 0x281C 0 = true) := by
  have hcount : m.flue.counted (some (m.pulseAt - p.2)) =
      if |(m.pulseAt - p.2) * 1000 - 67108864| ≤ 1342 then m.flue.goodIntervals + 1 else 0 := by
    simp [Flue.counted, goodInterval]
  unfold Mach.pulseTaken
  rw [hp, Option.map_some, Mach.syncPulse_acquire _ _ h, ← hcount]
  by_cases hmany : 64 ≤ m.flue.counted (some (m.pulseAt - p.2))
  · rw [if_pos hmany]
    have hflue := Mach.flueStat_flue (m.syncAt .locked (m.flue.counted (some (m.pulseAt - p.2))) m.flue.att) 0
    have hgood := congrArg Flue.goodIntervals hflue
    refine ⟨hgood, (congrArg Flue.sync hflue).trans (if_pos (hgood.symm ▸ hmany)).symm, fun _ => ?_⟩
    exact Mach.sqBit_sets (m := m.syncAt .locked (m.flue.counted (some (m.pulseAt - p.2))) m.flue.att) hc (by decide) hon
  · rw [if_neg hmany]
    exact ⟨rfl, (if_neg hmany).symm, fun hge => absurd hge hmany⟩

theorem Mach.pulseTaken_locked (h : m.flue.sync = .locked) :
    m.pulseTaken high = m.pulseMeasured m.pulseAt (decide (128 ≤ high)) := by
  unfold Mach.pulseTaken
  rw [Mach.syncPulse_locked _ _ h]

theorem Mach.pulseTaken_relocks (hc : m.canonical = true) (hon : m.on 6 = true) (h : m.flue.sync = .holdover)
    (hatt : m.flue.att = true) (hnear : |m.pulseAt - gridNear m.pulseAt| ≤ 134) :
    (m.pulseTaken high).flue.sync = .locked ∧ (m.pulseTaken high).flue.att = true ∧ (m.pulseTaken high).flag 0x281C 0 = true := by
  unfold Mach.pulseTaken
  rw [Mach.syncPulse_holdover _ _ h, if_pos (by simp [hatt, hnear])]
  have hflue := Mach.flueStat_flue (m.syncAt .locked m.flue.goodIntervals m.flue.att) 0
  exact ⟨congrArg Flue.sync hflue, (congrArg Flue.att hflue).trans hatt,
    Mach.sqBit_sets (m := m.syncAt .locked m.flue.goodIntervals m.flue.att) hc (by decide) hon⟩

theorem Mach.pulseTaken_detaches (hc : m.canonical = true) (hon : m.on 6 = true) (h : m.flue.sync = .holdover)
    (hfar : m.flue.att = false ∨ 134 < |m.pulseAt - gridNear m.pulseAt|) :
    (m.pulseTaken high).flue.sync = .acquire ∧ (m.pulseTaken high).flue.att = false ∧ (m.pulseTaken high).flag 0x281C 3 = true := by
  unfold Mach.pulseTaken
  rw [Mach.syncPulse_holdover _ _ h, if_neg (by
    obtain hatt | hfar := hfar
    · simp [hatt]
    · simp [not_le.mpr hfar])]
  have hflue := Mach.flueStat_flue (m.syncAt .acquire 0 false) 3
  exact ⟨congrArg Flue.sync hflue, congrArg Flue.att hflue, Mach.sqBit_sets (m := m.syncAt .acquire 0 false) hc (by decide) hon⟩

end

/-! ### A timestamp that is loaded (R38, R613, R614) -/

theorem Mach.replaceTs_effect (m : Mach) (t : Nat) : (m.replaceTs t).clk = { m.clk with ts := BitVec.ofNat 64 t } ∧
    m.changesOnly (m.replaceTs t) [.clk, .regs, .mot, .flt, .ang, .aux, .grd] ∧
    (m.canonical = true → (m.replaceTs t).canonical = true) := by
  unfold Mach.replaceTs
  extract_lets shift move _ _ _ _ _ _ moved timed
  have hmoved : moved.clk = { m.clk with ts := BitVec.ofNat 64 t } ∧ m.changesOnly moved [.clk, .regs, .mot, .flt, .ang, .aux, .grd] ∧
      (m.canonical = true → moved.canonical = true) :=
    ⟨rfl, fun x hx => by cases x <;> first | rfl | simp at hx, id⟩
  have htimed : moved.within timed [.flt] :=
    Mach.within_fold _ _ (moved.within_refl _) fun k g hk => Mach.updGrp_within k g _ hk rfl
  have hreset : moved.within ((timed.syncReset t).enterSearch) [.regs, .flt, .ang] :=
    Mach.enterSearch_within _ (Mach.syncReset_within _ t (Mach.within_step (moved.within_refl _) htimed rfl) rfl) rfl
  exact ⟨(hreset.1 .clk (by simp)).trans hmoved.1,
    fun x hx => Mach.agrees_trans (hmoved.2.1 x hx) (hreset.1 x fun hr => hx (by simp_all)), fun hc => hreset.2.1 (hmoved.2.2 hc)⟩

/-- The timestamp that `FLUE_TSET` gives a load (R613). -/
def Mach.loadedTs (m : Mach) : Nat :=
  (((((m.reg 0x2814).toNat * 2 ^ 32 + (m.reg 0x2810).toNat : Nat) : Int) + 4 - (m.fld 0x2808 0 8 : Int)) %
    ((2 ^ 64 : Nat) : Int)).toNat

theorem Mach.loadedTs_lt (m : Mach) : m.loadedTs < 2 ^ 64 := by
  unfold Mach.loadedTs
  omega

/-- The machine with no load waiting and its SYNC service attached. -/
def Mach.tsSet (m : Mach) : Mach :=
  { m.setFld 0x2818 0 1 0 with flue := { (m.setFld 0x2818 0 1 0).flue with loadAt := none, att := true, errs := [] } }

theorem Mach.loadTs_eq (m : Mach) : m.loadTs = (m.replaceTs m.loadedTs).tsSet.flueStat 2 := by
  dsimp only [Mach.loadTs, Mach.tsSet, Mach.loadedTs]

theorem Mach.tsSet_effect {m : Mach} (hc : m.canonical = true) (hon : m.on 6 = true) :
    (m.tsSet.flueStat 2).clk = m.clk ∧ (m.tsSet.flueStat 2).flue = { m.flue with loadAt := none, att := true, errs := [] } ∧
      (m.tsSet.flueStat 2).flag 0x2818 0 = false ∧ (m.tsSet.flueStat 2).flag 0x281C 2 = true ∧
      m.changesOnly (m.tsSet.flueStat 2) [.regs, .flue] := by
  have htold := (Mach.flueStat_within m.tsSet 2 (m.tsSet.within_refl [.regs]) rfl).1
  have hset : m.changesOnly m.tsSet [.regs, .flue] := fun x hx => by cases x <;> first | rfl | simp at hx
  have hkeep : (m.tsSet.flueStat 2).reg 0x2818 = m.tsSet.reg 0x2818 :=
    m.tsSet.sqEvent_reg_ne _ (by decide) (by intro p; cases p <;> decide)
  have hself : m.tsSet.reg 0x2818 = setBits (m.reg 0x2818) 0 1 0 := Mach.reg_setReg_self m 0x2818 _ hc
  refine ⟨htold .clk (by simp), Mach.flueStat_flue _ _, ?_,
    Mach.sqBit_sets (m := m.tsSet) (Mach.setReg_canonical (m := m) 0x2818 _ hc) (by decide) hon,
    fun x hx => Mach.agrees_trans (hset x hx) (htold x fun hr => hx (by simp_all))⟩
  rw [Mach.flag, hkeep, hself, bitAt_setBits_zero]
  simp

theorem Mach.loadTs_effect {m : Mach} (hc : m.canonical = true) (hon : m.on 6 = true) :
    m.loadTs.clk = { m.clk with ts := BitVec.ofNat 64 m.loadedTs } ∧
      m.loadTs.flue = { m.flue with loadAt := none, att := true, errs := [] } ∧
      m.loadTs.flag 0x2818 0 = false ∧ m.loadTs.flag 0x281C 2 = true ∧
      m.changesOnly m.loadTs [.clk, .regs, .mot, .flt, .ang, .aux, .grd, .flue] := by
  obtain ⟨hclk, hparts, hcanon⟩ := m.replaceTs_effect m.loadedTs
  rw [m.loadTs_eq]
  generalize m.replaceTs m.loadedTs = k at *
  have hflue : k.flue = m.flue := hparts .flue (by simp)
  obtain ⟨hclk', hflue', harm, htold, hset⟩ := Mach.tsSet_effect (m := k) (hcanon hc) (by
    change decide (k.dom 6 = .on) = true
    rw [Mach.dom, hclk]
    exact hon)
  exact ⟨hclk'.trans hclk, hflue ▸ hflue', harm, htold,
    fun x hx => Mach.agrees_trans (hparts x fun hr => hx (by simp_all)) (hset x fun hr => hx (by simp_all))⟩

theorem exec_syncPulseIn_loads {s : State} {low high u : Nat} (hc : s.m.canonical = true) (h : s.m.hearsPulse low high)
    (hload : s.m.flue.loadAt = some u) (hdue : u + millis 1 < s.m.clk.now) (hhigh : 128 ≤ high) (hlocked : s.m.flue.sync = .locked) :
    ∃ t, exec (.syncPulseIn low high) s = .next t ∧ t.pending = s.pending ∧
      t.m.ts = (((s.m.reg 0x2814).toNat * 2 ^ 32 + (s.m.reg 0x2810).toNat + 4 - s.m.fld 0x2808 0 8) % (2 ^ 64 : Int)).toNat ∧
      t.m.clk.now = s.m.clk.now ∧ t.m.flue.sync = .locked ∧ t.m.flue.att = true ∧ t.m.flue.loadAt = none ∧
      t.m.flue.errs = [] ∧ t.m.flag 0x2818 0 = false ∧ t.m.flag 0x281C 2 = true ∧
      s.m.changesOnly t.m [.clk, .regs, .mot, .flt, .ang, .aux, .grd, .flue] := by
  have htaken := Mach.pulseTaken_locked (m := s.m) high hlocked
  let k : Mach := s.m.pulseMeasured s.m.pulseAt (decide (128 ≤ high))
  have hrow : s.m.syncAccepted high = k.markLoaded :=
    ((s.m.syncAccepted_eq high).2 u (by rw [htaken]; exact hload) hhigh (by rw [htaken]; exact hdue)).trans
      (congrArg Mach.markLoaded htaken)
  obtain ⟨hclk, hflue, harm, htold, hparts⟩ := Mach.loadTs_effect (m := k) hc h.1
  have hts : k.loadTs.ts = k.loadedTs :=
    (congrArg (fun c : Clocks => c.ts.toNat) hclk).trans ((BitVec.toNat_ofNat _ _).trans (Nat.mod_eq_of_lt k.loadedTs_lt))
  have hk : s.m.changesOnly k [.flue] := fun x hx => by cases x <;> first | rfl | simp at hx
  unfold Mach.markLoaded at hrow
  generalize k.loadTs = n at *
  have hrest : s.m.changesOnly n.markedNow [.clk, .regs, .mot, .flt, .ang, .aux, .grd, .flue] := fun x hx =>
    Mach.agrees_trans (hk x fun hr => hx (by simp_all)) (Mach.agrees_trans (hparts x hx) (by cases x <;> first | rfl | simp at hx))
  refine ⟨_, congrArg (goOn s) ((Mach.syncInput_awake h ((congrArg Mach.clk hrow).trans hclk)).trans hrow), rfl, ?_,
    by rw [show n.markedNow.clk = n.clk from rfl, hclk]; rfl, (congrArg Flue.sync hflue).trans hlocked, congrArg Flue.att hflue,
    congrArg Flue.loadAt hflue, congrArg Flue.errs hflue, harm, htold, hrest⟩
  refine hts.trans ?_
  change s.m.loadedTs = _
  unfold Mach.loadedTs
  push_cast
  rfl

/-- Settles O44: a pulse without a load is `Mach.pulseTaken`, one with a load `Mach.markLoaded`; the other rows are one change of the SYNC
service each. -/
theorem fleetTime : Obligations.FleetTime := by
  intro s low high x hc hn hon
  refine ⟨exec_syncPulseOut_due, exec_syncHoldover_due hc hn hon, fun ag w => exec_flueTload_arms hc,
    fun hlife hvio hrole hfosc hlow hhigh hmode hentry hwoke hx => ?_⟩
  have h : s.m.hearsPulse low high := ⟨hon, hlife, hvio, hrole, hfosc, hlow, hhigh, hmode, hentry, hwoke⟩
  refine ⟨fun hload => ?_, fun u hload hdue h128 hlocked => exec_syncPulseIn_loads hc h hload hdue h128 hlocked⟩
  have hx : x = s.m.pulseAt := hx
  subst hx
  obtain ⟨t, hrow, hpending, ht⟩ := exec_syncPulseIn_measures hn h hload
  obtain ⟨⟨st, n, att, hflue⟩, hedits⟩ := Mach.pulseTaken_frame (m := s.m) high hn
  rw [← ht] at hflue hedits
  refine ⟨t, hrow, hpending, congrArg Flue.lastPulse hflue, congrArg Flue.errs hflue, ?_, by rw [hflue]; rfl,
    hedits.within.1, hedits.keepsRegs, fun hs => ?_, fun hs p hp => ?_, fun hs => ?_, fun hs hatt hnear => ?_, fun hs hfar => ?_⟩
  · refine (congrArg Flue.mark hflue).trans ?_
    simp [Flue.measured, Flue.at]
  · rw [ht]
    exact Mach.pulseTaken_acquires high hs
  · rw [ht]
    exact Mach.pulseTaken_counts high hc hon hs hp
  · rw [ht, Mach.pulseTaken_locked high hs]
    exact ⟨hs, rfl⟩
  · rw [ht]
    exact Mach.pulseTaken_relocks high hc hon hs hatt hnear
  · rw [ht]
    exact Mach.pulseTaken_detaches high hc hon hs hfar

end Sys2Proof.Machine
end

section
/-! SUPPORT. A manager's fleet (R610 to R628): workers that change, attachment, turns and blocks taken, forwardings and long absences. -/

namespace Sys2Proof.Machine

/-! ### Workers that change (R610 to R625) -/

theorem Mach.updWorker_worker (m : Mach) (w v : Nat) (f : Worker → Worker) :
    (m.updWorker w f).worker v = if v = w ∧ v < m.flue.workers.length then f (m.worker v) else m.worker v := listUpd_getD ..

/-- From `m` to `n` worker `w` has become `x`, and no other worker has changed; beside them only the parts and registers listed. -/
structure Mach.Serves (m n : Mach) (w : Nat) (x : Worker) (ps : List Part) (as : List Nat) : Prop where
  self : n.worker w = x
  others : ∀ v, v ≠ w → n.worker v = m.worker v
  size : n.flue.workers.length = m.flue.workers.length
  edits : m.Edits n ps as

namespace Mach.Serves

variable {m n k : Mach} {w : Nat} {x : Worker} {ps : List Part} {as : List Nat}

theorem refl (w : Nat) (h : m.noClear) : m.Serves m w (m.worker w) ps as := ⟨rfl, fun _ _ => rfl, rfl, .refl h⟩

/-- The workers stay. -/
theorem same (h : m.Serves n w x ps as) (hf : k.flue.workers = n.flue.workers) (he : m.Edits k ps as) : m.Serves k w x ps as := by
  have hk : ∀ v, k.worker v = n.worker v := fun v => by rw [Mach.worker, hf, Mach.worker]
  exact ⟨(hk w).trans h.self, fun v hv => (hk v).trans (h.others v hv), hf ▸ h.size, he⟩

theorem updWorker (h : m.Serves n w x ps as) (f : Worker → Worker) (hw : w < m.flue.workers.length) (hp : ps.contains .flue = true) :
    m.Serves (n.updWorker w f) w (f x) ps as := by
  refine ⟨?_, fun v hv => ?_, (listUpd_length _ _ _).trans h.size, h.edits.flue _ (listUpd_length _ _ _) hp⟩
  · rw [n.updWorker_worker, if_pos ⟨rfl, h.size ▸ hw⟩, h.self]
  · rw [n.updWorker_worker, if_neg (by simp [hv]), h.others v hv]

theorem flueStat (h : m.Serves n w x ps as) (i : Nat) (ha : 0x281C ∈ as) (hp : [Part.regs].all ps.contains = true) :
    m.Serves (n.flueStat i) w x ps as :=
  h.same (congrArg Flue.workers (n.flueStat_flue i)) (h.edits.sqEvent _ ha hp)

theorem workerState (h : m.Serves n w x ps as) (st reason : Nat) (hw : w < m.flue.workers.length) (ha : 0x281C ∈ as)
    (hp : [Part.regs, .flue].all ps.contains = true) :
    m.Serves (n.workerState w st reason) w { x with st := st, reason := reason, turnBlocks := 0, missed := 0 } ps as := by
  have hset := h.updWorker (fun x => { x with st := st, reason := reason, turnBlocks := 0, missed := 0 }) hw (by simp_all)
  unfold Mach.workerState
  extract_lets old set
  split
  · exact hset
  · exact hset.flueStat 4 ha (by simp_all)

theorem endTurn (h : m.Serves n w x ps as) (next : Nat) (hw : w < m.flue.workers.length) (hp : ps.contains .flue = true) :
    m.Serves (n.endTurn w next) w { x with turnBlocks := 0, nextQueue := next % 4 } ps as := by
  have hset := h.updWorker (fun x => { x with turnBlocks := 0, nextQueue := next % 4 }) hw hp
  unfold Mach.endTurn
  split
  · exact hset.same rfl (hset.edits.flue _ rfl hp)
  · exact hset.same rfl (hset.edits.flue _ rfl hp)

theorem away (h : m.Serves n w x ps as) (reason : Nat) (hw : w < m.flue.workers.length) (ha : 0x281C ∈ as)
    (hp : [Part.regs, .flue].all ps.contains = true) : m.Serves (n.away w reason) w { x with
      st := 2, reason := reason, turnBlocks := 0, missed := 0, absent := true, awaySince := n.clk.now, awayTs := n.ts
      commanded := reason == 1 } ps as :=
  (h.workerState 2 reason hw ha hp).updWorker _ hw (by simp_all)

end Mach.Serves

theorem on_of_fleet {m : Mach} (h : m.fleet = true) : m.on 6 = true := by
  simp only [Mach.fleet, Bool.and_eq_true] at h
  exact h.1.1.2

/-- A worker that changes its state shows so in `FLUE_STATUS.WCHG`. -/
theorem Mach.workerState_shows {m : Mach} {w st : Nat} (reason : Nat) (hc : m.canonical = true) (hon : m.on 6 = true)
    (hst : (m.worker w).st ≠ st) : (m.workerState w st reason).flag 0x281C 4 = true := by
  unfold Mach.workerState
  extract_lets old changed
  rw [if_neg hst]
  exact Mach.sqBit_sets (m := changed) hc (by decide) hon

/-- The Flue service but for its workers. -/
def Flue.besideWorkers (f : Flue) : Flue := { f with workers := [] }

theorem Flue.eq_of_besideWorkers {f g : Flue} (h : f.besideWorkers = g.besideWorkers) : f = { g with workers := f.workers } := by
  cases f
  cases g
  simp_all [Flue.besideWorkers]

theorem Mach.workerState_besideWorkers (m : Mach) (w st reason : Nat) :
    (m.workerState w st reason).flue.besideWorkers = m.flue.besideWorkers := by
  unfold Mach.workerState
  extract_lets old set
  split
  · rfl
  · rw [set.flueStat_flue]
    rfl

/-! ### Attachment (R610, R611) -/

/-- A worker that is attached at a level, under its serial. -/
def Worker.attached (x : Worker) (pl : Nat) (serial : BitVec 64) : Worker :=
  { x with st := 1, reason := 0, turnBlocks := 0, missed := 0, pl := pl, serial := serial, nextQueue := 0
           lastSeq := if x.serial = serial then x.lastSeq else [none, none, none, none] }

/-- An address that answers every attach step. -/
def scanAttaches (a : ScanAnswer) (id : List Word) (level : Nat) : Prop :=
  a.crcFails = false ∧ a.ident = some id ∧ id.getD 0 0 = 0x4E4C4716 ∧ bitsAt (id.getD 4 0) 24 8 ≤ level ∧
    a.wstate.map (fun v => bitsAt v 0 2) = some 2 ∧ a.loadStatus = 0 ∧ a.wstateAfter.map (fun v => bitAt v 2) = some true

theorem Mach.attach_succeeds {m : Mach} {a : ScanAnswer} {id : List Word} (h : scanAttaches a id m.ownLevel)
    (hbus : m.busOn (a.w.val / 16) = true) (hst : (m.worker a.w.val).st ≠ 1) (hcom : (m.worker a.w.val).commanded = false) :
    m.attach a = m.attached a.w.val (bitsAt (id.getD 4 0) 24 8) (id.getD 3 0 ++ id.getD 2 0) := by
  obtain ⟨hcrc, hident, hmagic, hlevel, hstate, hload, hafter⟩ := h
  unfold Mach.attach
  simp only [hbus, hst, hcom, hcrc, hident]
  rw [if_neg (by simp), if_neg (by simp), if_neg (by simpa using hmagic), if_neg (by omega), if_neg (by rw [hstate]; simp),
    if_neg (by simp [hload]), if_neg (by rw [hafter]; simp)]

theorem Mach.attached_effect {m : Mach} {w : Nat} (pl : Nat) (serial : BitVec 64) (hc : m.canonical = true) (hn : m.noClear)
    (hon : m.on 6 = true) (hw : w < m.flue.workers.length) (habs : (m.worker w).absent = false)
    (hcom : (m.worker w).commanded = false) (hst : (m.worker w).st ≠ 1) :
    m.Serves (m.attached w pl serial) w ((m.worker w).attached pl serial) [.regs, .flue] [0x281C] ∧
      (m.attached w pl serial).flag 0x281C 4 = true ∧
      (m.attached w pl serial).flue.besideWorkers = m.flue.besideWorkers := by
  have hpresent : (if (m.worker w).absent then m.awayRecord w else m) = m := if_neg (by simp [habs])
  have hserves := ((Mach.Serves.refl (ps := [.regs, .flue]) (as := [0x281C]) w hn).workerState 1 0 hw (by simp) rfl).updWorker
    (fun x => { x with
      pl := pl, serial := serial, absent := false, commanded := false, nextQueue := 0
      lastSeq := if decide ((m.worker w).serial = serial) then x.lastSeq else [none, none, none, none] }) hw rfl
  unfold Mach.attached
  rw [hpresent]
  refine ⟨⟨hserves.self.trans ?_, hserves.others, hserves.size, hserves.edits⟩, Mach.workerState_shows 0 hc hon hst,
    m.workerState_besideWorkers w 1 0⟩
  simp [Worker.attached, habs, hcom]

theorem exec_scanTimer_attaches {s : State} {w : Fin 32} {a : ScanAnswer} {id : List Word} (hc : s.m.canonical = true)
    (hn : s.m.noClear) (hf : s.m.fleet = true) (hlen : s.m.flue.workers.length = 32)
    (hdue : ∀ u, s.m.flue.lastScan = some u → u + second ≤ s.m.clk.now) (hw : a.w = w) (hbus : s.m.busOn (w.val / 16) = true)
    (hst : (s.m.worker w.val).st ≠ 1) (habs : (s.m.worker w.val).absent = false) (hcom : (s.m.worker w.val).commanded = false)
    (h : scanAttaches a id s.m.ownLevel) :
    ∃ t, exec (.scanTimer [a]) s = .next t ∧ t.pending = s.pending ∧
      t.m.worker w.val = (s.m.worker w.val).attached (bitsAt (id.getD 4 0) 24 8) (id.getD 3 0 ++ id.getD 2 0) ∧
      t.m.flue = { s.m.flue with lastScan := some s.m.clk.now, workers := t.m.flue.workers } ∧
      (∀ v, v ≠ w.val → t.m.worker v = s.m.worker v) ∧ t.m.flag 0x281C 4 = true ∧ s.m.changesOnly t.m [.regs, .flue] ∧
      s.m.keepsRegs t.m [0x281C] := by
  subst hw
  let k : Mach := { s.m with flue := { s.m.flue with lastScan := some s.m.clk.now } }
  have hscan : s.m.scanTimer [a] = k.attach a := by
    unfold Mach.scanTimer
    refine if_pos ?_
    rw [hf, Bool.true_and]
    split
    · next u hu => exact decide_eq_true (hdue u hu)
    · rfl
  have hrow := hscan.trans (Mach.attach_succeeds (m := k) h hbus hst hcom)
  have hk : s.m.Edits k [.regs, .flue] [0x281C] := (Mach.Edits.refl hn).flue _ rfl rfl
  obtain ⟨hserves, hshown, hflue⟩ := Mach.attached_effect (m := k) (bitsAt (id.getD 4 0) 24 8) (id.getD 3 0 ++ id.getD 2 0) hc hn
    (on_of_fleet hf) (by change a.w.val < s.m.flue.workers.length; omega) habs hcom hst
  have hall := hk.trans hserves.edits rfl rfl
  exact ⟨_, congrArg (goOn s) hrow, rfl, hserves.self, Flue.eq_of_besideWorkers hflue, hserves.others, hshown,
    hall.within.1, hall.keepsRegs⟩

/-! ### Turns (R617 to R624) -/

/-- The turn that a bus goes to after the turn of worker `w`. -/
def Mach.busTurn (m : Mach) (w : Nat) : Nat := if w < 16 then m.flue.busTurn0 else m.flue.busTurn1

theorem Mach.endTurn_busTurn (m : Mach) (w next : Nat) : (m.endTurn w next).busTurn w = (w + 1) % 16 := by
  have hnext : (w % 16 + 1) % 16 = (w + 1) % 16 := by omega
  unfold Mach.busTurn Mach.endTurn
  by_cases hw : w < 16 <;> simp [hw, hnext]

theorem Mach.countN_zero {m : Mach} (a : Nat) : m.countN a 0 = m := by simp [Mach.countN]

/-- It is the turn of worker `w`, and of its queue `q` (R618). -/
def Mach.fleetTurn (m : Mach) (w q : Nat) : Prop := m.turnWorker (w / 16) = some w ∧ m.turnQueue w = some q

theorem Mach.fleetTurn_mayPull {m : Mach} {w q : Nat} (h : m.fleetTurn w q) : m.mayPull w = true :=
  List.find?_some (p := fun w => m.mayPull w) h.1

theorem Mach.fluePull_misses {m : Mach} {w : Nat} {a : PullAnswer} (h : m.fleetTurn w a.queue.val) (ha : a.answered = false) :
    m.fluePull w a = m.missTurn w a.queue.val := by
  obtain ⟨hw, hq⟩ := h
  simp [Mach.fluePull, hw, hq, ha]

theorem Mach.fluePull_notReady {m : Mach} {w : Nat} {a : PullAnswer} (h : m.fleetTurn w a.queue.val) (ha : a.answered = true)
    (hcrc : a.crcErrors = []) (hass : a.unassigned = false) (hfill : bitsAt a.fill 0 13 ≠ 0) (hready : a.notReady = true) :
    m.fluePull w a = m.passTurn w a.queue.val := by
  obtain ⟨hw, hq⟩ := h
  simp [Mach.fluePull, hw, hq, ha, hcrc, hass, hfill, hready, Mach.countN_zero]

theorem Mach.fluePull_takes {m : Mach} {w : Nat} {a : PullAnswer} {b : List Word} (h : m.fleetTurn w a.queue.val)
    (ha : a.answered = true) (hcrc : a.crcErrors = []) (hass : a.unassigned = false) (hfill : bitsAt a.fill 0 13 ≠ 0)
    (hready : a.notReady = false) (hb : a.blocks.head? = some b) (hgood : blockGood (m.worker w).serial a.queue.val b = true) :
    m.fluePull w a = m.takeBlock w a.queue.val b := by
  obtain ⟨hw, hq⟩ := h
  obtain ⟨bs, hbs⟩ : ∃ bs, a.blocks = b :: bs := List.head?_eq_some_iff.mp hb
  simp [Mach.fluePull, hw, hq, ha, hcrc, hass, hfill, hready, Mach.countN_zero, hbs, hgood]

theorem Mach.missTurn_effect {m : Mach} {w : Nat} (q : Nat) (hn : m.noClear) (hw : w < m.flue.workers.length)
    (hfew : (m.worker w).missed + 1 < m.fld 0x2800 16 8) :
    m.Serves (m.missTurn w q) w
        { m.worker w with missed := (m.worker w).missed + 1, turnBlocks := 0, nextQueue := (q + 1) % 4 } [.flue] [] ∧
      (m.missTurn w q).busTurn w = (w + 1) % 16 := by
  have hserves := ((Mach.Serves.refl (ps := [.flue]) (as := []) w hn).updWorker
    (fun x => { x with missed := (m.worker w).missed + 1 }) hw rfl).endTurn (q + 1) hw rfl
  have hstay : m.missTurn w q = (m.updWorker w fun x => { x with missed := (m.worker w).missed + 1 }).endTurn w (q + 1) := by
    have hreg : ((m.updWorker w fun x => { x with missed := (m.worker w).missed + 1 }).endTurn w (q + 1)).fld 0x2800 16 8 =
        m.fld 0x2800 16 8 := congrArg (bitsAt · 16 8) (hserves.edits.keepsRegs _ (by simp))
    exact if_neg (by rw [hreg]; omega)
  rw [hstay]
  exact ⟨hserves, Mach.endTurn_busTurn _ w _⟩

theorem Mach.missTurn_away {m : Mach} {w : Nat} (q : Nat) (hc : m.canonical = true) (hn : m.noClear) (hon : m.on 6 = true)
    (hw : w < m.flue.workers.length) (hst : (m.worker w).st = 1) (hmany : m.fld 0x2800 16 8 ≤ (m.worker w).missed + 1) :
    m.Serves (m.missTurn w q) w { m.worker w with
        st := 2, reason := 2, missed := 0, turnBlocks := 0, nextQueue := (q + 1) % 4, absent := true
        awaySince := m.clk.now, awayTs := m.ts, commanded := false } [.regs, .flue] [0x281C] ∧
      (m.missTurn w q).flag 0x281C 4 = true := by
  have hturn := ((Mach.Serves.refl (ps := [.regs, .flue]) (as := [0x281C]) w hn).updWorker
    (fun x => { x with missed := (m.worker w).missed + 1 }) hw rfl).endTurn (q + 1) hw rfl
  have hgone : m.missTurn w q =
      ((m.updWorker w fun x => { x with missed := (m.worker w).missed + 1 }).endTurn w (q + 1)).away w 2 := by
    have hreg : ((m.updWorker w fun x => { x with missed := (m.worker w).missed + 1 }).endTurn w (q + 1)).fld 0x2800 16 8 =
        m.fld 0x2800 16 8 := congrArg (bitsAt · 16 8) (hturn.edits.keepsRegs _ (by simp))
    exact if_pos (by rw [hreg]; exact hmany)
  rw [hgone]
  have hclk := hturn.edits.agrees (x := .clk) rfl
  generalize (m.updWorker w fun x => { x with missed := (m.worker w).missed + 1 }).endTurn w (q + 1) = k at *
  have hclk : k.clk = m.clk := hclk
  have haway := hturn.away 2 hw (by simp) rfl
  rw [Mach.ts, hclk] at haway
  exact ⟨haway, Mach.workerState_shows 2 (hturn.edits.canonical hc) (by simpa only [Mach.on, Mach.dom, hclk] using hon)
    (by rw [hturn.self]; simp [hst])⟩

theorem Mach.passTurn_effect {m : Mach} {w : Nat} (next : Nat) (hn : m.noClear) (hw : w < m.flue.workers.length) :
    m.Serves (m.passTurn w next) w { m.worker w with missed := 0, turnBlocks := 0, nextQueue := next % 4 } [.flue] [] ∧
      (m.passTurn w next).busTurn w = (w + 1) % 16 :=
  ⟨((Mach.Serves.refl w hn).updWorker (fun x => { x with missed := 0 }) hw rfl).endTurn next hw rfl, Mach.endTurn_busTurn _ w _⟩

/-! ### A block that is taken (R530, R619, R621) -/

/-- The block of Q4 that a worker's block becomes. -/
def Mach.block4 (m : Mach) (w : Nat) (ws : List Word) : Block :=
  ⟨(m.q 4).openNo, (ws.getD 3 0).toNat * 2 ^ 32 + (ws.getD 4 0).toNat, (m.q 4).absNext, ws, true, m.clk.now, w⟩

/-- The machine with that block in Q4, counted for the next seal. -/
def Mach.stored4 (m : Mach) (w : Nat) (ws : List Word) : Mach :=
  let n := m.updQ 4 fun s => { s with unread := s.unread ++ [m.block4 w ws], ringPos := s.advance, absNext := s.absNext + 1 }
  { n with buf := { n.buf with q4Seal := n.buf.q4Seal + 1 } }

theorem Mach.store4_eq (m : Mach) (w : Nat) (ws : List Word) :
    m.store4 w ws =
      let n := ((m.stored4 w ws).watermark 4 (m.q 4).unread.length).count 0x28C0
      if (n.q 4).ring ≤ (n.q 4).unread.length then n.enterFull 4 else n := rfl

theorem Mach.Edits.updQ {m n : Mach} {ps : List Part} {as : List Nat} (h : m.Edits n ps as) (q : Nat) (f : Queue → Queue)
    (hp : ps.contains .buf = true) : m.Edits (n.updQ q f) ps as :=
  h.other (qs := [.buf]) (Mach.updQ_within n q f (n.within_refl _) rfl) (by simpa using hp)

theorem Mach.Edits.watermark {m n : Mach} {ps : List Part} {as : List Nat} (h : m.Edits n ps as) (q before : Nat)
    (hq : qBase q + 0x1C ∈ as) (hi : ∀ p, intsrc p ∈ as) (hp : [Part.regs, .pa, .pb].all ps.contains = true) :
    m.Edits (n.watermark q before) ps as := by
  have hstat : m.Edits (n.qStat q 0) ps as := h.sqEvent _ hq (by simp_all)
  have hdrains : ∀ k, m.Edits k ps as → m.Edits (k.intDrains q (8 + q)) ps as := fun k hk =>
    .ite ((Mach.Edits.ite (hk.intBit _ (hi .a) hp) hk).intBit _ (hi .b) hp) (.ite (hk.intBit _ (hi .a) hp) hk)
  exact .ite (hdrains _ hstat) h

theorem Mach.store4_effect {m : Mach} {w : Nat} {ws : List Word} (hc : m.canonical = true) (hn : m.noClear) (hon : m.on 6 = true)
    (hlen : m.buf.queues.length = 5) {n : Mach} (hm : m.store4 w ws = n) :
    (n.q 4).unread = (m.q 4).unread ++ [m.block4 w ws] ∧ (∀ k < 4, n.q k = m.q k) ∧ n.buf.q4Seal = m.buf.q4Seal + 1 ∧
      bitsAt (n.reg 0x28C0) 0 24 = min 0xFFFFFF (bitsAt (m.reg 0x28C0) 0 24 + 1) ∧
      m.Edits n [.regs, .pa, .pb, .buf] [0x28C0, 0x1CDC, 0x410, 0x430] := by
  have hstored : m.Edits (m.stored4 w ws) [.regs, .pa, .pb, .buf] [0x28C0, 0x1CDC, 0x410, 0x430] :=
    (Mach.Edits.refl hn).other (qs := [.buf])
      ⟨fun x hx => by cases x <;> first | rfl | simp at hx, id, fun hs => by
        obtain ⟨h1, h2, h3, h4, h5⟩ := hs
        exact ⟨h1, h2, h3, (listUpd_length _ _ _).trans h4, h5⟩⟩ rfl
  have hself : (m.stored4 w ws).q 4 =
      { m.q 4 with unread := (m.q 4).unread ++ [m.block4 w ws], ringPos := (m.q 4).advance, absNext := (m.q 4).absNext + 1 } :=
    Mach.updQ_q_self _ (by omega)
  have hothers : ∀ k < 4, (m.stored4 w ws).q k = m.q k := fun k hk => Mach.updQ_q_ne _ _ (by omega)
  have hmarked := hstored.watermark 4 (m.q 4).unread.length (by decide) (by intro p; cases p <;> decide) rfl
  have hmbuf : ((m.stored4 w ws).watermark 4 (m.q 4).unread.length).buf = (m.stored4 w ws).buf :=
    (Mach.watermark_within _ 4 _ (Mach.within_refl _ [.regs, .pa, .pb]) rfl).1 .buf (by simp)
  have hmreg : ((m.stored4 w ws).watermark 4 (m.q 4).unread.length).reg 0x28C0 = m.reg 0x28C0 := 
    (((Mach.Edits.refl (as := [0x1CDC, 0x410, 0x430]) (ps := [.regs, .pa, .pb]) hstored.noClear).watermark 4 _ (by decide)
      (by intro p; cases p <;> decide) rfl).keepsRegs 0x28C0 (by decide))
  have hcount : ∀ k : Mach, m.Edits k [.regs, .pa, .pb, .buf] [0x28C0, 0x1CDC, 0x410, 0x430] → k.reg 0x28C0 = m.reg 0x28C0 →
      bitsAt ((k.count 0x28C0).reg 0x28C0) 0 24 = min 0xFFFFFF (bitsAt (m.reg 0x28C0) 0 24 + 1) := fun k hk hr => by
    have hclk : k.clk = m.clk := hk.agrees (x := .clk) rfl
    have hkon : k.on 6 = true := by simpa only [Mach.on, Mach.dom, hclk] using hon
    rw [(count_effect k 0x28C0 (hk.canonical hc) hk.noClear hkon).1, hr]
  rw [m.store4_eq] at hm
  generalize (m.stored4 w ws).watermark 4 (m.q 4).unread.length = k at *
  have hcounted : m.Edits (k.count 0x28C0) [.regs, .pa, .pb, .buf] [0x28C0, 0x1CDC, 0x410, 0x430] := hmarked.count (by simp) rfl
  have hcbuf : (k.count 0x28C0).buf = (m.stored4 w ws).buf :=
    ((Mach.count_within k _ (k.within_refl [.regs]) rfl).1 .buf (by simp)).trans hmbuf
  have hreg := hcount k hmarked hmreg
  generalize k.count 0x28C0 = l at *
  have hq : ∀ j, l.q j = (m.stored4 w ws).q j := fun j => by rw [Mach.q, hcbuf, Mach.q]
  have hseal : l.buf.q4Seal = m.buf.q4Seal + 1 := congrArg Buffer.q4Seal hcbuf
  subst hm
  dsimp only
  split
  · have hfull : l.AfterClose (l.enterFull 4) 4 := (Mach.AfterClose.refl 4 hcounted.noClear).enterFull
    obtain ⟨r, hr⟩ := hfull.self
    have hset : (l.updQ 4 fun s => { s with run := .full }).Edits (l.enterFull 4) [.regs] [0x1CDC] :=
      (Mach.Edits.refl (hcounted.updQ 4 _ rfl).noClear).sqEvent _ (by decide) rfl
    refine ⟨?_, fun k hk => (hfull.others k (by omega)).trans ((hq k).trans (hothers k hk)),
      (congrArg Buffer.q4Seal (hset.agrees (x := .buf) rfl)).trans hseal, ?_, ?_⟩
    · rw [hr, hq, hself]
    · rw [hset.keepsRegs 0x28C0 (by decide)]
      exact hreg
    · exact (hcounted.updQ 4 _ rfl).trans hset rfl (by simp)
  · exact ⟨by rw [hq, hself], fun k hk => (hq k).trans (hothers k hk), hseal, hreg, hcounted⟩

/-- A worker whose queue `q` has come to a sequence. -/
def Worker.reached (q seq : Nat) (x : Worker) : Worker := { x with lastSeq := listSet x.lastSeq q (some seq) }

/-- A worker with one more block taken in its turn. -/
def Worker.taken (x : Worker) : Worker := { x with missed := 0, turnBlocks := x.turnBlocks + 1 }

/-- The sequence of a worker's block (R621). -/
def blockSeq (ws : List Word) : Nat := (ws.getD 3 0).toNat * 2 ^ 32 + (ws.getD 4 0).toNat

/-- The machine with a worker's new block taken. -/
def Mach.blockTaken (m : Mach) (w q : Nat) (ws : List Word) : Mach :=
  ((m.store4 w ws).updWorker w (Worker.reached q (blockSeq ws))).updWorker w Worker.taken

/-- A block with a new sequence, which is not the last of its turn. -/
theorem Mach.takeBlock_fresh {m : Mach} {w q : Nat} {ws : List Word}
    (hfresh : ∀ o, (m.worker w).lastSeq.getD q none = some o → o < blockSeq ws)
    (hturn : ((m.blockTaken w q ws).worker w).turnBlocks < 4) : m.takeBlock w q ws = m.blockTaken w q ws := by
  have hmore := not_le.mpr hturn
  unfold Mach.takeBlock
  cases hold : (m.worker w).lastSeq.getD q none with
  | none => exact if_neg hmore
  | some o =>
    have hnew : decide (o < (ws.getD 3 0).toNat * 2 ^ 32 + (ws.getD 4 0).toNat) = true := decide_eq_true (hfresh o hold)
    simp only [hnew, if_true]
    exact if_neg hmore

theorem Mach.takeBlock_effect {m : Mach} {w q : Nat} {ws : List Word} (hc : m.canonical = true) (hn : m.noClear)
    (hon : m.on 6 = true) (hw : w < m.flue.workers.length) (hlen : m.buf.queues.length = 5)
    (hfresh : ∀ o, (m.worker w).lastSeq.getD q none = some o → o < blockSeq ws) (hturn : (m.worker w).turnBlocks < 3) :
    m.Serves (m.takeBlock w q ws) w ((m.worker w).reached q (blockSeq ws)).taken [.regs, .pa, .pb, .buf, .flue]
        [0x28C0, 0x1CDC, 0x410, 0x430] ∧
      (m.takeBlock w q ws).buf = (m.store4 w ws).buf ∧ (m.takeBlock w q ws).regs = (m.store4 w ws).regs := by
  obtain ⟨-, -, -, -, hstored⟩ := Mach.store4_effect (w := w) (ws := ws) hc hn hon hlen rfl
  have hsame : m.Serves (m.store4 w ws) w (m.worker w) [.regs, .pa, .pb, .buf, .flue] [0x28C0, 0x1CDC, 0x410, 0x430] :=
    (Mach.Serves.refl w hn).same (congrArg Flue.workers (hstored.agrees (x := .flue) rfl))
      ((Mach.Edits.refl hn).trans hstored rfl (by simp))
  have hserves : m.Serves (m.blockTaken w q ws) w ((m.worker w).reached q (blockSeq ws)).taken [.regs, .pa, .pb, .buf, .flue]
      [0x28C0, 0x1CDC, 0x410, 0x430] := (hsame.updWorker (Worker.reached q (blockSeq ws)) hw rfl).updWorker
    Worker.taken hw rfl
  rw [Mach.takeBlock_fresh hfresh (by rw [hserves.self]; exact Nat.succ_lt_succ hturn)]
  refine ⟨hserves, ?_, ?_⟩
  · unfold Mach.blockTaken
    generalize m.store4 w ws = k
    rfl
  · unfold Mach.blockTaken
    generalize m.store4 w ws = k
    rfl

theorem exec_fluePull_misses {s : State} {w : Fin 32} {a : PullAnswer} (hn : s.m.noClear) (hlen : s.m.flue.workers.length = 32)
    (h : s.m.fleetTurn w.val a.queue.val) (ha : a.answered = false) (hfew : (s.m.worker w.val).missed + 1 < s.m.fld 0x2800 16 8) :
    ∃ t, exec (.fluePull w a) s = .next t ∧ t.pending = s.pending ∧
      t.m.worker w.val = { s.m.worker w.val with
        missed := (s.m.worker w.val).missed + 1, turnBlocks := 0, nextQueue := (a.queue.val + 1) % 4 } ∧
      (∀ v, v ≠ w.val → t.m.worker v = s.m.worker v) ∧ t.m.busTurn w.val = (w.val + 1) % 16 ∧ s.m.changesOnly t.m [.flue] := by
  obtain ⟨hserves, hturn⟩ := Mach.missTurn_effect (m := s.m) a.queue.val hn (by omega) hfew
  exact ⟨_, congrArg (goOn s) (Mach.fluePull_misses h ha), rfl, hserves.self, hserves.others, hturn, hserves.edits.within.1⟩

theorem exec_fluePull_away {s : State} {w : Fin 32} {a : PullAnswer} (hc : s.m.canonical = true) (hn : s.m.noClear)
    (hf : s.m.fleet = true) (hlen : s.m.flue.workers.length = 32) (h : s.m.fleetTurn w.val a.queue.val) (ha : a.answered = false)
    (hmany : s.m.fld 0x2800 16 8 ≤ (s.m.worker w.val).missed + 1) :
    ∃ t, exec (.fluePull w a) s = .next t ∧ t.pending = s.pending ∧
      t.m.worker w.val = { s.m.worker w.val with
        st := 2, reason := 2, missed := 0, turnBlocks := 0, nextQueue := (a.queue.val + 1) % 4, absent := true
        awaySince := s.m.clk.now, awayTs := s.m.ts, commanded := false } ∧
      (∀ v, v ≠ w.val → t.m.worker v = s.m.worker v) ∧ t.m.flag 0x281C 4 = true ∧ s.m.changesOnly t.m [.regs, .flue] ∧
      s.m.keepsRegs t.m [0x281C] := by
  have hactive : (s.m.worker w.val).st = 1 := by
    have hmay := Mach.fleetTurn_mayPull h
    simp only [Mach.mayPull, Bool.and_eq_true, beq_iff_eq] at hmay
    tauto
  obtain ⟨hserves, hshown⟩ := Mach.missTurn_away (m := s.m) a.queue.val hc hn (on_of_fleet hf) (by omega) hactive hmany
  exact ⟨_, congrArg (goOn s) (Mach.fluePull_misses h ha), rfl, hserves.self, hserves.others, hshown, hserves.edits.within.1,
    hserves.edits.keepsRegs⟩

theorem exec_fluePull_notReady {s : State} {w : Fin 32} {a : PullAnswer} (hn : s.m.noClear) (hlen : s.m.flue.workers.length = 32)
    (h : s.m.fleetTurn w.val a.queue.val) (ha : a.answered = true) (hcrc : a.crcErrors = []) (hass : a.unassigned = false)
    (hfill : bitsAt a.fill 0 13 ≠ 0) (hready : a.notReady = true) :
    ∃ t, exec (.fluePull w a) s = .next t ∧ t.pending = s.pending ∧
      t.m.worker w.val = { s.m.worker w.val with missed := 0, turnBlocks := 0, nextQueue := a.queue.val } ∧
      (∀ v, v ≠ w.val → t.m.worker v = s.m.worker v) ∧ t.m.busTurn w.val = (w.val + 1) % 16 ∧ s.m.changesOnly t.m [.flue] := by
  obtain ⟨hserves, hturn⟩ := Mach.passTurn_effect (m := s.m) (w := w.val) a.queue.val hn (by omega)
  rw [Nat.mod_eq_of_lt a.queue.isLt] at hserves
  exact ⟨_, congrArg (goOn s) (Mach.fluePull_notReady h ha hcrc hass hfill hready), rfl, hserves.self, hserves.others, hturn,
    hserves.edits.within.1⟩

theorem exec_fluePull_stores {s : State} {w : Fin 32} {a : PullAnswer} {b : List Word} (hc : s.m.canonical = true) (hn : s.m.noClear)
    (hf : s.m.fleet = true) (hlen : s.m.flue.workers.length = 32) (hqueues : s.m.buf.queues.length = 5)
    (h : s.m.fleetTurn w.val a.queue.val) (ha : a.answered = true) (hcrc : a.crcErrors = []) (hass : a.unassigned = false)
    (hready : a.notReady = false) (hfill : bitsAt a.fill 0 13 ≠ 0) (hb : a.blocks.head? = some b)
    (hgood : blockGood (s.m.worker w.val).serial a.queue.val b = true)
    (hfresh : ∀ o, (s.m.worker w.val).lastSeq.getD a.queue.val none = some o → o < blockSeq b)
    (hturn : (s.m.worker w.val).turnBlocks < 3) :
    ∃ t, exec (.fluePull w a) s = .next t ∧ t.pending = s.pending ∧
      t.m.worker w.val = ((s.m.worker w.val).reached a.queue.val (blockSeq b)).taken ∧
      (∀ v, v ≠ w.val → t.m.worker v = s.m.worker v) ∧ (t.m.q 4).unread = (s.m.q 4).unread ++ [s.m.block4 w.val b] ∧
      (∀ k < 4, t.m.q k = s.m.q k) ∧ t.m.buf.q4Seal = s.m.buf.q4Seal + 1 ∧
      bitsAt (t.m.reg 0x28C0) 0 24 = min 0xFFFFFF (bitsAt (s.m.reg 0x28C0) 0 24 + 1) ∧
      s.m.changesOnly t.m [.regs, .pa, .pb, .buf, .flue] ∧ s.m.keepsRegs t.m [0x28C0, 0x1CDC, 0x410, 0x430] := by
  have hon := on_of_fleet hf
  obtain ⟨hserves, hbuf, hregs⟩ := Mach.takeBlock_effect (m := s.m) (w := w.val) (q := a.queue.val) (ws := b) hc hn hon (by omega)
    hqueues hfresh hturn
  obtain ⟨hunread, hothers, hseal, hcount, -⟩ := Mach.store4_effect (m := s.m) (w := w.val) (ws := b) hc hn hon hqueues rfl
  have hrow := Mach.fluePull_takes h ha hcrc hass hfill hready hb hgood
  generalize s.m.takeBlock w.val a.queue.val b = n at *
  generalize s.m.store4 w.val b = k at *
  have hq : ∀ j, n.q j = k.q j := fun j => by rw [Mach.q, hbuf, Mach.q]
  have hreg : n.reg 0x28C0 = k.reg 0x28C0 := by rw [Mach.reg, hregs, Mach.reg]
  exact ⟨_, congrArg (goOn s) hrow, rfl, hserves.self, hserves.others, (congrArg Queue.unread (hq 4)).trans hunread,
    fun j hj => (hq j).trans (hothers j hj), (congrArg Buffer.q4Seal hbuf).trans hseal, (congrArg (bitsAt · 0 24) hreg).trans hcount,
    hserves.edits.within.1, hserves.edits.keepsRegs⟩

/-! ### Forwarding (R626 to R628) -/

/-- The machine with the forwarding of a manager as it goes on, or ended. -/
def Mach.forwarding (m : Mach) (f : Option Forward) : Mach := { m with flue := { m.flue with forward := f } }

theorem Mach.forwarding_edits {m : Mach} (f : Option Forward) (ps : List Part) (as : List Nat) (hn : m.noClear)
    (hp : ps.contains .flue = true) : m.Edits (m.forwarding f) ps as := (Mach.Edits.refl hn).flue _ rfl hp

section

variable {s : State} {f : Forward}

theorem exec_forwardLine_fails (hc : s.m.canonical = true) (hn : s.m.noClear) (hf : s.m.fleet = true) (hfw : s.m.flue.forward = some f) :
    ∃ t, exec (.forwardLine .err) s = .next t ∧ t.pending = s.pending ∧ t.m.flue = { s.m.flue with forward := none } ∧
      t.m.flag 0x281C 6 = true ∧ s.m.changesOnly t.m [.regs, .flue] ∧ s.m.keepsRegs t.m [0x281C] := by
  have hrow : s.m.forwardLine .err = (s.m.forwarding none).flueStat 6 := by
    simp only [Mach.forwardLine, hfw, hf]
    rfl
  have hall : s.m.Edits ((s.m.forwarding none).flueStat 6) [.regs, .flue] [0x281C] :=
    (Mach.forwarding_edits none _ _ hn rfl).sqEvent _ (by simp) rfl
  exact ⟨_, congrArg (goOn s) hrow, rfl, Mach.flueStat_flue _ 6, Mach.sqBit_sets (m := s.m.forwarding none) hc (by decide)
    (on_of_fleet hf), hall.within.1, hall.keepsRegs⟩

theorem exec_forwardLine_continues (hn : s.m.noClear) (hf : s.m.fleet = true) (hfw : s.m.flue.forward = some f)
    (hmore : f.acked + 1 < f.lines + 2) :
    ∃ t, exec (.forwardLine .ok) s = .next t ∧ t.pending = s.pending ∧
      t.m.flue = { s.m.flue with forward := some { f with acked := f.acked + 1 } } ∧ s.m.changesOnly t.m [.flue] := by
  have hrow : s.m.forwardLine .ok = s.m.forwarding (some { f with acked := f.acked + 1 }) := by
    unfold Mach.forwardLine
    rw [hfw]
    dsimp only
    rw [if_neg (by simp [hf]), if_neg (by omega)]
    rfl
  exact ⟨_, congrArg (goOn s) hrow, rfl, rfl, (Mach.forwarding_edits _ [.flue] [] hn rfl).within.1⟩

theorem exec_forwardLine_ends {w : Fin 32} (hc : s.m.canonical = true) (hn : s.m.noClear) (hf : s.m.fleet = true)
    (hlen : s.m.flue.workers.length = 32) (hfw : s.m.flue.forward = some f) (hw : f.w = w.val) (hlast : f.acked + 1 = f.lines + 2) :
    ∃ t, exec (.forwardLine .ok) s = .next t ∧ t.pending = s.pending ∧ t.m.flue.forward = none ∧
      t.m.worker w.val = { s.m.worker w.val with
        st := 2, reason := 3, turnBlocks := 0, missed := 0, absent := true, awaySince := s.m.clk.now, awayTs := s.m.ts
        commanded := false } ∧
      (∀ v, v ≠ w.val → t.m.worker v = s.m.worker v) ∧ t.m.flag 0x281C 5 = true ∧ s.m.changesOnly t.m [.regs, .flue] ∧
      s.m.keepsRegs t.m [0x281C] := by
  have hrow : s.m.forwardLine .ok = ((s.m.forwarding none).away w.val 3).flueStat 5 := by
    unfold Mach.forwardLine
    rw [hfw]
    dsimp only
    rw [if_neg (by simp [hf]), if_pos hlast, hw]
    rfl
  have hended := Mach.forwarding_edits none [.regs, .flue] [0x281C] hn rfl
  have haway : (s.m.forwarding none).Serves ((s.m.forwarding none).away w.val 3) w.val _ [.regs, .flue] [0x281C] :=
    (Mach.Serves.refl w.val hended.noClear).away 3 (by change w.val < s.m.flue.workers.length; omega) (by simp) rfl
  have hnone : ((s.m.forwarding none).away w.val 3).flue.forward = none :=
    congrArg Flue.forward (Flue.eq_of_besideWorkers ((s.m.forwarding none).workerState_besideWorkers w.val 2 3))
  have hclk : ((s.m.forwarding none).away w.val 3).clk = s.m.clk := haway.edits.agrees (x := .clk) rfl
  have htold := haway.flueStat 5 (by simp) rfl
  have hall := hended.trans htold.edits rfl rfl
  exact ⟨_, congrArg (goOn s) hrow, rfl, (congrArg Flue.forward (Mach.flueStat_flue _ 5)).trans hnone, htold.self, htold.others,
    Mach.sqBit_sets (haway.edits.canonical hc) (by decide)
      (show ((s.m.forwarding none).away w.val 3).on 6 = true by simpa only [Mach.on, Mach.dom, hclk] using on_of_fleet hf),
    hall.within.1, hall.keepsRegs⟩

end

/-! ### Long absences (R625) -/

theorem exec_awaySaturation_continues {s : State} {w : Fin 32} (hn : s.m.noClear) (hf : s.m.fleet = true)
    (hlen : s.m.flue.workers.length = 32) (habs : (s.m.worker w.val).absent = true)
    (hlong : (s.m.worker w.val).awaySince + 0xFFFFFF * 65536 ≤ s.m.clk.now) (ht : s.m.taking = false) :
    ∃ t, exec (.awaySaturation w) s = .next t ∧ t.pending = s.pending ∧
      t.m.buf = { s.m.buf with
        pendingGaps := addPending s.m.buf.pendingGaps ⟨8, 4, (s.m.worker w.val).awayTs, 0, 0, 0xFFFFFF * 256 + w.val⟩ } ∧
      t.m.worker w.val = { s.m.worker w.val with awaySince := s.m.clk.now, awayTs := s.m.ts } ∧
      (∀ v, v ≠ w.val → t.m.worker v = s.m.worker v) ∧ s.m.changesOnly t.m [.buf, .flue] := by
  have hfull : min 0xFFFFFF ((s.m.clk.now - (s.m.worker w.val).awaySince) / 65536) = 0xFFFFFF := by omega
  let k : Mach := { s.m with buf := { s.m.buf with
    pendingGaps := addPending s.m.buf.pendingGaps ⟨8, 4, (s.m.worker w.val).awayTs, 0, 0, 0xFFFFFF * 256 + w.val⟩ } }
  have hrecord : s.m.awayRecord w.val = k := by
    unfold Mach.awayRecord
    dsimp only
    rw [hfull]
    exact if_neg (by simp [ht])
  have hrow : s.m.awaySaturation w.val = k.updWorker w.val fun x => { x with awaySince := s.m.clk.now, awayTs := s.m.ts } := by
    rw [← hrecord]
    exact if_pos (by simp [hf, habs, hlong])
  have hk : s.m.Edits k [.buf, .flue] [] :=
    (Mach.Edits.refl hn).other (qs := [.buf]) ⟨fun x hx => by cases x <;> first | rfl | simp at hx, id, id⟩ rfl
  have hserves := (Mach.Serves.refl (m := k) (ps := [.buf, .flue]) (as := []) w.val hk.noClear).updWorker
    (fun x => { x with awaySince := s.m.clk.now, awayTs := s.m.ts }) (by change w.val < s.m.flue.workers.length; omega) rfl
  exact ⟨_, congrArg (goOn s) hrow, rfl, rfl, hserves.self, hserves.others, (hk.trans hserves.edits rfl rfl).within.1⟩

/-- Settles O45: an address attaches by `Mach.attach_succeeds`; a pull misses, waits or stores by the ends of a turn; a forwarding's reply
and a saturated absence are one step each. -/
theorem fleetService : Obligations.FleetService := by
  intro s w hc hn hf hlen
  refine ⟨fun a id hdue hw hbus hst habs hcom hcrc hident hmagic hlevel hstate hload hafter =>
    exec_scanTimer_attaches hc hn hf hlen hdue hw hbus hst habs hcom ⟨hcrc, hident, hmagic, hlevel, hstate, hload, hafter⟩,
    fun a q hq hturn hqueue => ?_, fun f hfw hw => ?_, fun habs hlong ht => exec_awaySaturation_continues hn hf hlen habs hlong ht⟩
  · subst hq
    have h : s.m.fleetTurn w.val a.queue.val := ⟨hturn, hqueue⟩
    refine ⟨fun ha hfew => exec_fluePull_misses hn hlen h ha hfew, fun ha hmany => exec_fluePull_away hc hn hf hlen h ha hmany,
      fun ha hcrc hass hfill hready => exec_fluePull_notReady hn hlen h ha hcrc hass hfill hready,
      fun seq b ha hcrc hass hready hfill hb hgood hseq hfresh hblocks hqueues => ?_⟩
    subst hseq
    exact exec_fluePull_stores hc hn hf hlen hqueues h ha hcrc hass hready hfill hb hgood hfresh hblocks
  · exact ⟨exec_forwardLine_fails hc hn hf hfw, exec_forwardLine_continues hn hf hfw, exec_forwardLine_ends hc hn hf hlen hfw hw⟩

end Sys2Proof.Machine
end

section
/-! SUPPORT. Sessions, keys and seals at their verbs (R640 to R658): the session of a port stands aside from its answer, and
what each verb's line leaves. -/

namespace Sys2Proof.Machine

/-! ### Answers after a change of the session (R232, R647) -/

/-- A port with the whole reply of its command in the buffer. -/
def PortState.replied (s : PortState) (ck : Bool) (data : List (List Byte)) (final : List Byte) : PortState :=
  { s with
    executing := none, semsCmd := 0, dropReply := false
    reply := s.reply ++ replyBytes ck data final
    finalLeft := (s.reply ++ replyBytes ck data final).length }

/-- A port as its command's answer, which finds room, leaves it: the prompt after the reply. -/
def PortState.ended (s : PortState) (ck : Bool) (data : List (List Byte)) (final : List Byte) : PortState :=
  (s.replied ck data final).typed s.prompt (ascii "> ")

/-- A change of a port that its answer neither sees nor touches. -/
structure PortState.Aside (f : PortState → PortState) : Prop where
  reply : ∀ s, (f s).reply = s.reply
  dropReply : ∀ s, (f s).dropReply = s.dropReply
  ended : ∀ (s : PortState) ck data final, (f s).ended ck data final = f (s.ended ck data final)

/-- A port's session (R647 to R650). -/
structure Session where
  auth : Bool
  challenge : Option Challenge
  fails : Nat
  lockUntil : Option Nat

/-- The port with its session changed, as the session alone decides. -/
def PortState.withSession (g : Session → Session) (s : PortState) : PortState :=
  let x := g ⟨s.auth, s.challenge, s.authFails, s.lockUntil⟩
  { s with auth := x.auth, challenge := x.challenge, authFails := x.fails, lockUntil := x.lockUntil }

theorem PortState.typed_withSession (g : Session → Session) (s : PortState) (on : Bool) (bs : List Byte) :
    (s.withSession g).typed on bs = (s.typed on bs).withSession g := by
  by_cases h : (s.async && on && decide (s.reply.length + bs.length ≤ dataRoom)) = true
  · have hs : s.typed on bs = { s with reply := s.reply ++ bs } := if_pos h
    rw [hs]
    exact if_pos h
  · have hs : s.typed on bs = s := if_neg h
    rw [hs]
    exact if_neg h

/-- A session stands aside from every answer. -/
theorem PortState.aside_withSession (g : Session → Session) : PortState.Aside (PortState.withSession g) where
  reply _ := rfl
  dropReply _ := rfl
  ended s ck data final := PortState.typed_withSession g (s.replied ck data final) s.prompt _

/-- From the block as a command `c` executes, which has changed its port by `f` and what is listed elsewhere, to its answer: the command
has ended. -/
theorem Mach.answer_concludes {m n : Mach} {p : Port} {ck : Bool} {c : Cmd} {data : List (List Byte)} {code : Nat}
    {f : PortState → PortState} {ps : List Part} {as : List Nat} (hr : m.runsNow p ck c) (hc : m.canonical = true)
    (hfit : m.fits p ck data (finalText code)) (hf : PortState.Aside f)
    (he : (m.begun p c).Edits n (.regs :: portPart p :: ps) as) (hclk : Part.clk ∉ ps)
    (hport : n.port p = f ((m.begun p c).port p)) :
    n.changesOnly (n.answer p ck data (finalText code)) [.regs, portPart p] ∧
      n.keepsRegs (n.answer p ck data (finalText code)) [intsrc p] ∧
      m.concluded (n.answer p ck data (finalText code)) p ck data code f ps as := by
  obtain ⟨bport, bparts, bclk, bnv⟩ := m.begun_effect p c
  have hnclk : n.clk = (m.begun p c).clk := he.within.1 .clk (by cases p <;> simp [portPart, hclk])
  have hon : n.on 5 = true := by rw [Mach.on_congr hnclk, Mach.begun_on]; exact Mach.on_of_runsNow hr
  have hfits : n.fits p ck data (finalText code) := by
    unfold Mach.fits
    rw [hport, hf.dropReply, hf.reply, bport]
    exact hfit
  have hnport : (n.port p).ended ck data (finalText code) = f (m.answered p ck data (finalText code)) := by
    rw [hport, hf.ended, bport]
    rfl
  rw [answer_fits n p ck data (finalText code) hfits]
  generalize hF : (fun s : PortState => PortState.typed _ s.prompt (ascii "> ")) = F
  have hF' : F (n.port p) = f (m.answered p ck data (finalText code)) := by rw [← hnport, ← hF]; rfl
  obtain ⟨iparts, iregs, iport⟩ := intEvent_frame (n.updPort p F) p (bitMask 0) (Mach.updPort_noClear p F he.noClear)
  have hparts : n.changesOnly ((n.updPort p F).intBit p 0) [.regs, portPart p] := fun x hx =>
    Mach.agrees_trans (n.updPort_changesOnly p F x fun h => hx (by simp [List.mem_singleton.mp h])) (iparts x hx)
  have hregs : n.keepsRegs ((n.updPort p F).intBit p 0) [intsrc p] := fun a ha => (iregs a ha).trans (n.updPort_reg p F a)
  have hall : ∀ x, x ∉ .regs :: portPart p :: ps → (m.begun p c).agrees ((n.updPort p F).intBit p 0) x := fun x hx =>
    Mach.agrees_trans (he.within.1 x hx) (hparts x fun h => hx (by
      obtain h | h := List.mem_pair.mp h
      · exact h ▸ List.mem_cons_self
      · exact h ▸ List.mem_cons_of_mem _ List.mem_cons_self))
  refine ⟨hparts, hregs, ?_, fun x hx => ?_, fun a ha => ?_, ?_, fun hnv => ?_, ?_⟩
  · rw [Mach.updPort_port, hF'] at iport
    exact iport
  · simp only [List.mem_cons, not_or] at hx
    obtain ⟨h1, h2, h3, h4, h5⟩ := hx
    exact Mach.agrees_trans (bparts x (by simp [h1, h3, h4])) (hall x (by simp [h2, h4, h5]))
  · simp only [List.mem_cons, not_or] at ha
    rw [hregs a (by simp [ha.1]), he.keepsRegs a ha.2, Mach.begun_reg]
  · exact ((show _ = n.clk from hparts .clk (by cases p <;> decide)).trans hnclk).trans bclk
  · exact (show _ = (m.begun p c).nv from hall .nv (by cases p <;> simp [portPart, hnv])).trans bnv
  · exact intBit_sets _ p 0 (Mach.updPort_canonical p F (he.canonical ((m.begun_canonical p c).trans hc)))
      (Mach.updPort_noClear p F he.noClear) ((Mach.updPort_on p F 5).trans hon) (by decide)

/-- One port changes. -/
theorem Mach.Edits.portOnly {m n : Mach} {ps : List Part} {as : List Nat} (h : m.Edits n ps as) (p : Port)
    (f : PortState → PortState) (hp : ps.contains (portPart p) = true) : m.Edits (n.updPort p f) ps as :=
  h.other (qs := [portPart p])
    ⟨n.updPort_changesOnly p f, Mach.updPort_canonical p f, (Mach.updPort_within p f (n.within_refl [.pa, .pb]) rfl).2.2⟩
    (by cases p <;> simpa [portPart] using hp)

/-! ### The block as a session's command executes -/

section
variable (m : Mach) (p : Port) (c : Cmd)

theorem Mach.begun_port : (m.begun p c).port p = { m.port p with waiting := none, semsCmd := m.cmdSems c } := (m.begun_effect p c).1

theorem Mach.begun_other : (m.begun p c).port p.other = m.port p.other := by
  cases p
  · exact (m.begun_effect .a c).2.1 .pb (by decide)
  · exact (m.begun_effect .b c).2.1 .pa (by decide)

theorem Mach.begun_free : (m.begun p c).free = m.free :=
  m.begun_agrees p c (x := .free) (by decide) (by decide) (by decide) (by decide)

theorem Mach.begun_buf : (m.begun p c).buf = m.buf :=
  m.begun_agrees p c (x := .buf) (by decide) (by decide) (by decide) (by decide)

theorem Mach.begun_now : (m.begun p c).clk.now = m.clk.now := by rw [Mach.begun_clk]

theorem Mach.begun_lockedOut : (m.begun p c).lockedOut p = m.lockedOut p := by
  rw [Mach.lockedOut, Mach.begun_port, Mach.begun_now]
  rfl

theorem Mach.begun_held (q : Port) : ((m.begun p c).port q).held = (m.port q).held := by
  by_cases h : q = p
  · rw [h, Mach.begun_port]
  · have hq : q = p.other := by cases p <;> cases q <;> first | rfl | exact absurd rfl h
    rw [hq, Mach.begun_other]

theorem Mach.begun_busy : (m.begun p c).busy = m.busy := by
  have hpersist : ∀ q, (m.begun p c).heldPersist q = m.heldPersist q := fun q => by
    simp only [Mach.heldPersist, Mach.begun_held, Mach.begun_reg]
  rw [Mach.busy, hpersist, hpersist, Mach.begun_nv]
  rfl

theorem Mach.begun_canWrite : (m.begun p c).canWrite = m.canWrite := by
  rw [Mach.canWrite, Mach.begun_on, Mach.begun_on, Mach.canWrite]

theorem Mach.begun_sealRoom : (m.begun p c).sealRoom = m.sealRoom := by
  simp only [Mach.sealRoom, Mach.q, Mach.qPolicy, Mach.fld, Mach.begun_buf, Mach.begun_reg]

end

/-! ### Sessions (R647 to R650) -/

/-- A challenge opens (R647). -/
def Session.opened (c : Challenge) (x : Session) : Session := { x with auth := false, challenge := some c }

/-- An authentication that succeeds. -/
def Session.won (x : Session) : Session := { x with auth := true, challenge := none, fails := 0 }

/-- An authentication that fails; the eighth in a row locks the port out until `u` (R649). -/
def Session.lost (u : Nat) (x : Session) : Session :=
  { x with challenge := none, fails := x.fails + 1, lockUntil := if x.fails + 1 = 8 then some u else x.lockUntil }

/-- A session's command that has changed only its port's session ends with its reply. -/
theorem Mach.session_concludes {m n : Mach} {p : Port} {ck : Bool} {c : Cmd} {data : List (List Byte)} {code : Nat}
    {g : Session → Session} (hr : m.runsNow p ck c) (hc : m.canonical = true) (hfit : m.fits p ck data (finalText code))
    (hn : n = (m.begun p c).updPort p (PortState.withSession g)) :
    m.concluded (n.answer p ck data (finalText code)) p ck data code (PortState.withSession g) [] [] := by
  subst hn
  exact (Mach.answer_concludes hr hc hfit (PortState.aside_withSession g)
    ((Mach.Edits.refl ((m.begun_noClear p c).mpr hr.1)).portOnly p _ (by cases p <;> rfl)) (by simp) (Mach.updPort_port ..)).2.2

section
variable {s : State} {p : Port} {ck : Bool}

theorem exec_authEnd_runs (hc : s.m.canonical = true)
    (hr : s.m.runsNow p ck .authEnd) (hf : s.m.fits p ck [] (finalText 0)) :
    ∃ t, exec (.authEnd p) s = .next t ∧ t.pending = s.pending ∧
      s.m.concluded t.m p ck [] 0 (fun x => { x with auth := false, challenge := none }) [] [] := by
  refine ⟨_, congrArg (goOn s) (verbRow_runs s.m p 8 _ _ hr rfl rfl), rfl, ?_⟩
  exact Mach.session_concludes (g := fun x => { x with auth := false, challenge := none }) hr hc hf rfl

theorem exec_authPub_runs {h : List Byte} {col : Nat} {c : Challenge} {q : Nat × Nat} (hc : s.m.canonical = true)
    (hr : s.m.runsNow p ck (.authPub h col))
    (hb : s.m.blockCode 12 = 0) (hch : (s.m.port p).challenge = some c) (hq : c.qO = none) (hk : publicKey h = some q)
    (ho : s.m.sec.owner = some (sha256 h)) (hf : s.m.fits p ck [] (finalText 0)) :
    ∃ t, exec (.authPub p) s = .next t ∧ t.pending = s.pending ∧
      s.m.concluded t.m p ck [] 0 (fun x => { x with challenge := some { c with qO := some q } }) [] [] := by
  have hbch : ((s.m.begun p (.authPub h col)).port p).challenge = some c := by rw [Mach.begun_port]; exact hch
  have hop : (s.m.begun p (.authPub h col)).authPub p h =
      (0, (s.m.begun p (.authPub h col)).updPort p (fun x => { x with challenge := some { c with qO := some q } })) := by
    simp only [Mach.authPub, hbch, hq, hk, Mach.begun_sec, ho, Option.isSome_none, Bool.false_eq_true, if_false, if_true]
  have hrun : (s.m.begun p (.authPub h col)).runAuthPub p ck h col =
      ((s.m.begun p (.authPub h col)).updPort p (fun x => { x with challenge := some { c with qO := some q } })).code p ck 0 := by
    simp only [Mach.runAuthPub, hbch, Mach.begun_blockCode, hb, hop]
    rfl
  refine ⟨_, congrArg (goOn s) ((verbRow_runs s.m p 8 _ _ hr rfl rfl).trans hrun), rfl, ?_⟩
  exact Mach.session_concludes (g := fun x => { x with challenge := some { c with qO := some q } }) hr hc hf rfl

theorem exec_authBegin_runs {n : BitVec 256} {d : Nat} {line : List Byte} (hc : s.m.canonical = true)
    (hr : s.m.runsNow p ck .authBegin) (hl : s.m.sec.life = 2)
    (ho : s.m.lockedOut p = false) (hb : s.m.blockCode 12 = 0) (hn : n = Config.random s.m.free)
    (hd : d = scalarOf (Config.random (s.m.free + 1)))
    (hline : line = ascii "challenge " ++ hexBlock (digestBytes n ++ keyBytes (ecPublic d))) (hf : s.m.fits p ck [line] (finalText 0)) :
    ∃ t, exec (.authBegin p) s = .next t ∧ t.pending = s.pending ∧ t.m.free = s.m.free + 2 ∧
      s.m.concluded t.m p ck [line] 0
        (fun x => { x with auth := false, challenge := some ⟨n, d, ecPublic d, none, s.m.clk.now⟩ }) [.free] [] := by
  generalize hc0 : (⟨n, d, ecPublic d, none, s.m.clk.now⟩ : Challenge) = c
  generalize hk : ({ s.m.begun p .authBegin with free := s.m.free + 2 } : Mach).updPort p (PortState.withSession (Session.opened c)) = k
  have hop : (s.m.begun p .authBegin).authBegin p = (0, k) := by
    have hgate : (decide ((s.m.begun p .authBegin).sec.life ≠ 2) || (s.m.begun p .authBegin).lockedOut p) = false := by
      rw [Mach.begun_sec, hl, Mach.begun_lockedOut, ho]
      rfl
    rw [Mach.authBegin, if_neg (by rw [hgate]; decide), ← hk, ← hc0, hn, hd, ← s.m.begun_free p .authBegin,
      ← s.m.begun_now p .authBegin]
    rfl
  have hch : (k.port p).challenge = some c := by rw [← hk, Mach.updPort_port]; rfl
  have hrun : (s.m.begun p .authBegin).runAuthBegin p ck = k.answer p ck [line] (finalText 0) := by
    rw [Mach.runAuthBegin, if_neg (by rw [Mach.begun_sec, hl]; decide), if_neg (by rw [Mach.begun_blockCode, hb]; decide), hop]
    dsimp only
    rw [hch, hline, ← hc0]
    rfl
  have he : (s.m.begun p .authBegin).Edits k [.regs, portPart p, .free] [] := by
    rw [← hk]
    have hdrawn : (s.m.begun p .authBegin).Edits { s.m.begun p .authBegin with free := s.m.free + 2 } [.regs, portPart p, .free] [] :=
      (Mach.Edits.refl ((s.m.begun_noClear p .authBegin).mpr hr.1)).other (qs := [.free])
        ⟨fun x hx => by cases x <;> first | rfl | simp at hx, id, id⟩ (by cases p <;> rfl)
    exact hdrawn.portOnly p _ (by cases p <;> rfl)
  obtain ⟨hparts, -, hconc⟩ := Mach.answer_concludes hr hc hf (PortState.aside_withSession (Session.opened c)) he (by simp)
    (by rw [← hk, Mach.updPort_port]; rfl)
  refine ⟨_, congrArg (goOn s) ((verbRow_runs s.m p 8 _ _ hr rfl rfl).trans hrun), rfl, ?_, hconc⟩
  rw [show (k.answer p ck [line] (finalText 0)).free = k.free from hparts .free (by cases p <;> decide), ← hk, Mach.updPort_free]

/-! ### Writes of the security record (R642, R649, R651, R652) -/

/-- A line of one write that waits for nothing ends with the write's code. -/
theorem Mach.runWrites_one {m n : Mach} {x : WriteItem} {c : Nat} (hb : m.busy = false) (hx : m.writeItem p x = (c, n))
    (h17 : c ≠ 17) (hat : atLine x = []) : m.runWrites p ck [x] = n.code p ck c := by
  rw [Mach.runWrites, if_neg (by rw [hb]; simp)]
  dsimp only
  rw [hx]
  dsimp only
  rw [Mach.runWrites, rangeLine, if_neg h17, hat]
  split
  · next h => rw [h]
  · rfl

/-- The row of `auth respond` while nothing stands against its write. -/
theorem exec_authRespond_ends {h : List Byte} {c : Challenge} {code : Nat} {n : Mach} (hr : s.m.runsNow p ck (.authRespond h))
    (hb : s.m.blockCode 12 = 0) (hch : (s.m.port p).challenge = some c) (hbusy : s.m.busy = false)
    (hop : (s.m.begun p (.authRespond h)).authRespond p h = (code, n)) (h17 : code ≠ 17) :
    exec (.authRespond p) s = goOn s (n.code p ck code) := by
  have hbch : ((s.m.begun p (.authRespond h)).port p).challenge = some c := by rw [Mach.begun_port]; exact hch
  have hrun : (s.m.begun p (.authRespond h)).runAuthRespond p ck h = n.code p ck code := by
    rw [Mach.runAuthRespond, hbch, Mach.begun_blockCode, hb]
    exact Mach.runWrites_one ((s.m.begun_busy p _).trans hbusy) hop h17 rfl
  exact congrArg (goOn s) ((verbRow_runs s.m p 8 _ _ hr rfl rfl).trans hrun)

/-- The security record's write reaches no register. -/
theorem Mach.Edits.secWrite {m n : Mach} {ps : List Part} {as : List Nat} (h : m.Edits n ps as) (p : Port) (life : Nat)
    (owner : Option (BitVec 256)) (made : Epoch) (hp : [Part.sec, .nv].all ps.contains = true) :
    m.Edits (n.secWrite p life owner made) ps as :=
  h.other (qs := [.sec, .nv]) ⟨fun x hx => by cases x <;> first | rfl | simp at hx, id, id⟩ (by simpa using hp)

theorem exec_authRespond_wins {h : List Byte} {c : Challenge} {q : Nat × Nat} (hc : s.m.canonical = true)
    (hr : s.m.runsNow p ck (.authRespond h))
    (hb : s.m.blockCode 12 = 0) (hch : (s.m.port p).challenge = some c) (hq : c.qO = some q) (hbusy : s.m.busy = false)
    (hf : s.m.fits p ck [] (finalText 0))
    (hv : ecdsaVerify q (sha256 (authMessage p c)) (bytesNat (h.take 32)) (bytesNat (h.drop 32)) = true) :
    ∃ t, exec (.authRespond p) s = .next t ∧ t.pending = s.pending ∧
      t.m.sec = { s.m.sec with
        made := ⟨s.m.sec.made.num + 1, true, c.nonce, c.qA, ownerKey c.dA q c.nonce (s.m.sec.made.num + 1)⟩
        reasons := s.m.sec.reasons ||| 8 } ∧
      t.m.nv = { (s.m.beginLine p).nv with write := some ⟨0x3000, 0, 0, some p⟩ } ∧
      s.m.concluded t.m p ck [] 0 (fun x => { x with auth := true, authFails := 0, challenge := none }) [.sec, .nv] [] := by
  have hsec := s.m.begun_sec p (.authRespond h)
  have hbch : ((s.m.begun p (.authRespond h)).port p).challenge = some c := by rw [Mach.begun_port]; exact hch
  generalize hek : (⟨s.m.sec.made.num + 1, true, c.nonce, c.qA, ownerKey c.dA q c.nonce (s.m.sec.made.num + 1)⟩ : Epoch) = e
  generalize hk : ((((s.m.begun p (.authRespond h)).secWrite p s.m.sec.life s.m.sec.owner e).updPort p
    (PortState.withSession Session.won)).sealReason 3) = k
  have hop : (s.m.begun p (.authRespond h)).authRespond p h = (0, k) := by
    simp only [Mach.authRespond, hbch, hq, hv, if_true, hsec, hek]
    rw [← hk]
    rfl
  have hwritten : (s.m.begun p (.authRespond h)).Edits
      ((s.m.begun p (.authRespond h)).secWrite p s.m.sec.life s.m.sec.owner e) [.regs, portPart p, .sec, .nv] [] :=
    (Mach.Edits.refl ((s.m.begun_noClear p _).mpr hr.1)).secWrite p _ _ _ (by cases p <;> rfl)
  have he : (s.m.begun p (.authRespond h)).Edits k [.regs, portPart p, .sec, .nv] [] := by
    rw [← hk]
    exact (hwritten.portOnly p _ (by cases p <;> rfl)).sec _ (by cases p <;> rfl)
  have hport : k.port p = ((s.m.begun p (.authRespond h)).port p).withSession Session.won := by
    rw [← hk]
    exact Mach.updPort_port ..
  obtain ⟨hparts, -, hconc⟩ := Mach.answer_concludes hr hc hf (PortState.aside_withSession Session.won) he (by simp) hport
  refine ⟨_, exec_authRespond_ends hr hb hch hbusy hop (by decide), rfl, ?_, ?_, hconc⟩
  · refine (show _ = k.sec from hparts .sec (by cases p <;> decide)).trans ?_
    rw [← hk, Mach.sealReason, Mach.updPort_sec, Mach.secWrite, hsec]
    rfl
  · refine (show _ = k.nv from hparts .nv (by cases p <;> decide)).trans ?_
    rw [← hk, Mach.sealReason, Mach.updPort_nv, Mach.secWrite, Mach.begun_nv_eq]

theorem on_of_blockCode {m : Mach} {b : Nat} (h : m.blockCode b = 0) : m.on (blockDomain b) = true := by
  unfold Mach.blockCode at h
  split at h
  · exact absurd h (by decide)
  · next hon => simpa using hon

/-- A respond that fails is counted and shown, and its port's session is that of a failure (R649). -/
theorem Mach.authFailed_effect {m : Mach} (p : Port) (hc : m.canonical = true) (hn : m.noClear) (h7 : m.on 7 = true) :
    (m.authFailed p).flag 0x3010 3 = true ∧
      bitsAt ((m.authFailed p).reg 0x3018) 0 24 = min 0xFFFFFF (bitsAt (m.reg 0x3018) 0 24 + 1) ∧
      (m.authFailed p).port p = (m.port p).withSession (Session.lost (m.clk.now + 10 * second)) ∧
      m.Edits (m.authFailed p) [.regs, portPart p] [0x3010, 0x3018] := by
  generalize hk : m.updPort p (PortState.withSession (Session.lost (m.clk.now + 10 * second))) = k
  have hfailed : m.authFailed p = (k.count 0x3018).sqBit 0x3010 3 := by rw [← hk]; rfl
  have hlost : m.Edits k [.regs, portPart p] [] := hk ▸ (Mach.Edits.refl hn).portOnly p _ (by cases p <;> rfl)
  have hcounted : k.Edits (k.count 0x3018) [.regs] [0x3018] := (Mach.Edits.refl hlost.noClear).count (by simp) rfl
  have hshown : (k.count 0x3018).Edits ((k.count 0x3018).sqBit 0x3010 3) [.regs] [0x3010] :=
    (Mach.Edits.refl hcounted.noClear).sqEvent _ (by simp) rfl
  have honk : k.on 7 = true := by rw [← hk, Mach.updPort_on]; exact h7
  have honc : (k.count 0x3018).on 7 = true := (Mach.on_congr (hcounted.agrees (x := .clk) rfl) 7).trans honk
  rw [hfailed]
  refine ⟨Mach.sqBit_sets (hcounted.canonical (hlost.canonical hc)) (by decide) honc, ?_, ?_, ?_⟩
  · rw [hshown.keepsRegs 0x3018 (by simp), (count_effect k 0x3018 (hlost.canonical hc) hlost.noClear honk).1,
      hlost.keepsRegs 0x3018 (by simp)]
  · have hkept : ((k.count 0x3018).sqBit 0x3010 3).port p = k.port p :=
      (Mach.port_of_agrees (hshown.agrees (by cases p <;> rfl))).trans (Mach.port_of_agrees (hcounted.agrees (by cases p <;> rfl)))
    rw [hkept, ← hk, Mach.updPort_port]
  · exact (Mach.Edits.trans ⟨hlost.within, hlost.noClear, fun a _ => hlost.keepsRegs a (by simp)⟩ hcounted rfl (by simp)).trans
      hshown rfl (by simp)

theorem exec_authRespond_loses {h : List Byte} {c : Challenge} {q : Nat × Nat} (hc : s.m.canonical = true)
    (hr : s.m.runsNow p ck (.authRespond h))
    (hb : s.m.blockCode 12 = 0) (hch : (s.m.port p).challenge = some c) (hq : c.qO = some q) (hbusy : s.m.busy = false)
    (hf : s.m.fits p ck [] (finalText 18))
    (hv : ecdsaVerify q (sha256 (authMessage p c)) (bytesNat (h.take 32)) (bytesNat (h.drop 32)) = false) :
    ∃ t, exec (.authRespond p) s = .next t ∧ t.pending = s.pending ∧ t.m.flag 0x3010 3 = true ∧
      bitsAt (t.m.reg 0x3018) 0 24 = min 0xFFFFFF (bitsAt (s.m.reg 0x3018) 0 24 + 1) ∧
      s.m.concluded t.m p ck [] 18 (fun x => { x with
        challenge := none, authFails := x.authFails + 1
        lockUntil := if x.authFails + 1 = 8 then some (s.m.clk.now + 10 * second) else x.lockUntil }) [] [0x3010, 0x3018] := by
  have hbch : ((s.m.begun p (.authRespond h)).port p).challenge = some c := by rw [Mach.begun_port]; exact hch
  have h7 : s.m.on 7 = true := on_of_blockCode hb
  have hop : (s.m.begun p (.authRespond h)).authRespond p h = (18, (s.m.begun p (.authRespond h)).authFailed p) := by
    simp only [Mach.authRespond, hbch, hq, hv, Bool.false_eq_true, if_false]
  obtain ⟨hflag, hcount, hport, he⟩ := Mach.authFailed_effect p ((s.m.begun_canonical p (.authRespond h)).trans hc)
    ((s.m.begun_noClear p _).mpr hr.1) ((s.m.begun_on p _ 7).trans h7)
  rw [Mach.begun_now] at hport
  obtain ⟨-, hregs, hconc⟩ := Mach.answer_concludes hr hc hf
    (PortState.aside_withSession (Session.lost (s.m.clk.now + 10 * second))) he (by simp) hport
  refine ⟨_, exec_authRespond_ends hr hb hch hbusy hop (by decide), rfl, ?_, ?_, hconc⟩
  · exact (congrArg (bitAt · 3) (hregs 0x3010 (by cases p <;> decide))).trans hflag
  · rw [← s.m.begun_reg p (.authRespond h), ← hcount]
    exact congrArg (bitsAt · 0 24) (hregs 0x3018 (by cases p <;> decide))

/-- A change of the lifecycle is shown and ends both ports' authentication (R650). -/
theorem Mach.lifeChange_effect {m : Mach} (hc : m.canonical = true) (hn : m.noClear) (h7 : m.on 7 = true) :
    m.lifeChange.flag 0x3010 4 = true ∧ (∀ p, m.lifeChange.port p = { m.port p with auth := false }) ∧
      m.Edits m.lifeChange [.regs, .pa, .pb] [0x3010] := by
  have hended : m.Edits ((m.authOff .a).authOff .b) [.regs, .pa, .pb] [0x3010] := ((Mach.Edits.refl hn).updPort .a _ rfl).updPort .b _ rfl
  have hshown : ((m.authOff .a).authOff .b).Edits m.lifeChange [.regs] [0x3010] :=
    (Mach.Edits.refl hended.noClear).sqEvent _ (by simp) rfl
  refine ⟨Mach.sqBit_sets (hended.canonical hc) (by decide) h7, fun p => ?_, hended.trans hshown rfl (by simp)⟩
  cases p
  · exact hshown.agrees (x := .pa) rfl
  · exact hshown.agrees (x := .pb) rfl

theorem exec_keyEnrol_runs {h : List Byte} {col : Nat} {q : Nat × Nat} (hc : s.m.canonical = true)
    (hr : s.m.runsNow p ck (.keyEnrol h col))
    (hb : s.m.blockCode 12 = 0) (hl : s.m.sec.life = 1 ∨ s.m.sec.life = 2) (hk : publicKey h = some q) (hbusy : s.m.busy = false)
    (hf : s.m.fits p ck [] (finalText 0)) :
    ∃ t, exec (.keyEnrol p) s = .next t ∧ t.pending = s.pending ∧
      t.m.sec = { s.m.sec with
        life := 2, owner := some (sha256 h), made := openEpoch (s.m.sec.made.num + 1)
        reasons := s.m.sec.reasons ||| 16 } ∧
      t.m.nv = { (s.m.beginLine p).nv with write := some ⟨0x3000, 0, 0, some p⟩ } ∧
      t.m.port p.other = { s.m.port p.other with auth := false } ∧ t.m.flag 0x3010 4 = true ∧
      s.m.concluded t.m p ck [] 0 (fun x => { x with auth := false }) [.pa, .pb, .sec, .nv] [0x3010] := by
  have hsec := s.m.begun_sec p (.keyEnrol h col)
  have hbc := (s.m.begun_canonical p (.keyEnrol h col)).trans hc
  have hbn := (s.m.begun_noClear p (.keyEnrol h col)).mpr hr.1
  have hlife : (decide (s.m.sec.life ≠ 1) && decide (s.m.sec.life ≠ 2)) = false := by
    obtain hl | hl := hl <;> rw [hl] <;> rfl
  generalize hwk : (s.m.begun p (.keyEnrol h col)).secWrite p 2 (some (sha256 h)) (openEpoch (s.m.sec.made.num + 1)) = w
  have hop : (s.m.begun p (.keyEnrol h col)).keyEnrol p h = (0, w.lifeChange.sealReason 4) := by
    rw [Mach.keyEnrol, hsec, if_neg (by rw [hlife]; decide), hk, ← hwk]
  have hrun : (s.m.begun p (.keyEnrol h col)).runKeyEnrol p ck h col = (w.lifeChange.sealReason 4).code p ck 0 := by
    rw [Mach.runKeyEnrol, hsec, if_neg (by rw [hlife]; decide), Mach.begun_blockCode, hb]
    exact Mach.runWrites_one ((s.m.begun_busy p _).trans hbusy) hop (by decide) rfl
  have hwritten : (s.m.begun p (.keyEnrol h col)).Edits w [.regs, portPart p, .pa, .pb, .sec, .nv] [0x3010] :=
    hwk ▸ (Mach.Edits.refl hbn).secWrite p _ _ _ (by cases p <;> rfl)
  have hw : (s.m.begun p (.keyEnrol h col)).agrees w .clk := hwritten.agrees (by cases p <;> rfl)
  obtain ⟨hflag, hports, hchanged⟩ := Mach.lifeChange_effect (hwritten.canonical hbc) hwritten.noClear
    ((Mach.on_congr hw 7).trans ((s.m.begun_on p _ 7).trans (on_of_blockCode hb)))
  have he : (s.m.begun p (.keyEnrol h col)).Edits (w.lifeChange.sealReason 4) [.regs, portPart p, .pa, .pb, .sec, .nv] [0x3010] :=
    (hwritten.trans hchanged (by cases p <;> rfl) (by simp)).sec _ (by cases p <;> rfl)
  have hwport : ∀ x, w.port x = (s.m.begun p (.keyEnrol h col)).port x := fun x => by rw [← hwk]; cases x <;> rfl
  have hport : (w.lifeChange.sealReason 4).port p =
      ((s.m.begun p (.keyEnrol h col)).port p).withSession fun x => { x with auth := false } := by
    rw [← hwport]
    exact hports p
  obtain ⟨hparts, hregs, hconc⟩ := Mach.answer_concludes hr hc hf (PortState.aside_withSession fun x => { x with auth := false }) he
    (by simp) hport
  refine ⟨_, congrArg (goOn s) ((verbRow_runs s.m p 9 _ _ hr rfl rfl).trans hrun), rfl, ?_, ?_, ?_, ?_, hconc⟩
  · refine (show _ = (w.lifeChange.sealReason 4).sec from hparts .sec (by cases p <;> decide)).trans ?_
    rw [Mach.sealReason, show w.lifeChange.sec = w.sec from hchanged.agrees (x := .sec) rfl, ← hwk, Mach.secWrite, hsec]
    rfl
  · refine (show _ = w.lifeChange.nv from hparts .nv (by cases p <;> decide)).trans ?_
    rw [show w.lifeChange.nv = w.nv from hchanged.agrees (x := .nv) rfl, ← hwk, Mach.secWrite, Mach.begun_nv_eq]
  · refine (Mach.port_of_agrees (hparts _ (by cases p <;> decide))).trans ((hports p.other).trans ?_)
    rw [hwport, Mach.begun_other]
  · exact (congrArg (bitAt · 4) (hregs 0x3010 (by cases p <;> decide))).trans hflag

/-! ### Lines that wait for their seal (R643, R658) -/

/-- The block with a command of port `p` begun that waits for a seal. -/
def Mach.waitsSeal (m : Mach) (p : Port) (c : Cmd) (ck : Bool) (x : Security) : Mach :=
  { m.begun p c with sec := x }.suspend p ck .sealing

theorem Mach.waitsSeal_effect (m : Mach) (p : Port) (c : Cmd) (ck : Bool) (x : Security) :
    (m.waitsSeal p c ck x).sec = x ∧ m.waitsFor (m.waitsSeal p c ck x) p c ⟨.sealing, [], [], [], ck⟩ ∧
      m.changesOnly (m.waitsSeal p c ck x) [.clk, portPart p, .sec, .nv] := by
  obtain ⟨bport, bparts, -, -⟩ := m.begun_effect p c
  refine ⟨Mach.updPort_sec .., ?_, fun y hy => ?_⟩
  · rw [Mach.waitsFor, Mach.waitsSeal, Mach.suspend, Mach.updPort_port]
    rw [show ({ m.begun p c with sec := x } : Mach).port p = (m.begun p c).port p by cases p <;> rfl, bport]
  · simp only [List.mem_cons, List.not_mem_nil, or_false, not_or] at hy
    obtain ⟨h1, h2, h3, h4⟩ := hy
    have hsec : (m.begun p c).agrees { m.begun p c with sec := x } y := by
      cases y <;> first | rfl | exact absurd rfl h3
    have hsuspended : Mach.agrees { m.begun p c with sec := x } (m.waitsSeal p c ck x) y :=
      Mach.updPort_changesOnly _ p _ y (by simp [h2])
    exact Mach.agrees_trans (bparts y (by simp [h1, h2, h4])) (Mach.agrees_trans hsec hsuspended)

theorem exec_keyRetire_runs (hr : s.m.runsNow p ck .keyRetire) (hl : s.m.sec.life = 1 ∨ s.m.sec.life = 2) (hw : s.m.canWrite = true)
    (h3 : s.m.testing 3 = false) (h6 : s.m.testing 6 = false) (hroom : s.m.sealRoom = true) :
    ∃ t, exec (.keyRetire p) s = .next t ∧ t.pending = s.pending ∧
      t.m.sec = { s.m.sec with
        made := openEpoch (s.m.sec.made.num + 1), retiring := some p, reasons := s.m.sec.reasons ||| 64 } ∧
      s.m.waitsFor t.m p .keyRetire ⟨.sealing, [], [], [], ck⟩ ∧ s.m.changesOnly t.m [.clk, portPart p, .sec, .nv] := by
  have hlife : (decide (s.m.sec.life ≠ 1) && decide (s.m.sec.life ≠ 2)) = false := by
    obtain hl | hl := hl <;> rw [hl] <;> rfl
  have hop : (s.m.begun p .keyRetire).keyRetire p = (0, { s.m.begun p .keyRetire with
      sec := { s.m.sec with
        made := openEpoch (s.m.sec.made.num + 1), retiring := some p, reasons := s.m.sec.reasons ||| 64 } }) := by
    rw [Mach.keyRetire, Mach.begun_sec, if_neg (by rw [hlife]; decide), Mach.begun_canWrite, hw, Mach.begun_sealRoom, hroom]
    rfl
  have hrun : (s.m.begun p .keyRetire).runKeyRetire p ck = s.m.waitsSeal p .keyRetire ck { s.m.sec with
      made := openEpoch (s.m.sec.made.num + 1), retiring := some p, reasons := s.m.sec.reasons ||| 64 } := by
    rw [Mach.runKeyRetire, Mach.begun_testing, h3, Mach.begun_testing, h6, hop]
    rfl
  exact ⟨_, congrArg (goOn s) ((verbRow_runs s.m p 9 _ _ hr rfl rfl).trans hrun), rfl, s.m.waitsSeal_effect p .keyRetire ck _⟩

theorem exec_sealVerb_runs (hr : s.m.runsNow p ck .sealNow) (hl : s.m.sec.life = 1 ∨ s.m.sec.life = 2) (hw : s.m.canWrite = true)
    (h3 : s.m.testing 3 = false) (h6 : s.m.testing 6 = false) :
    ∃ t, exec (.sealVerb p) s = .next t ∧ t.pending = s.pending ∧
      t.m.sec = { s.m.sec with verbs := s.m.sec.verbs ++ [p], reasons := s.m.sec.reasons ||| 4 } ∧
      s.m.waitsFor t.m p .sealNow ⟨.sealing, [], [], [], ck⟩ ∧ s.m.changesOnly t.m [.clk, portPart p, .sec, .nv] := by
  have hlife : (decide (s.m.sec.life ≠ 1) && decide (s.m.sec.life ≠ 2)) = false := by
    obtain hl | hl := hl <;> rw [hl] <;> rfl
  have hrun : (s.m.begun p .sealNow).runSeal p ck = s.m.waitsSeal p .sealNow ck
      { s.m.sec with verbs := s.m.sec.verbs ++ [p], reasons := s.m.sec.reasons ||| 4 } := by
    rw [Mach.runSeal, Mach.begun_sec, if_neg (by rw [hlife]; decide), Mach.begun_canWrite, hw, Mach.begun_testing, h3,
      Mach.begun_testing, h6]
    rfl
  exact ⟨_, congrArg (goOn s) ((verbRow_runs s.m p 7 _ _ hr rfl rfl).trans hrun), rfl, s.m.waitsSeal_effect p .sealNow ck _⟩

end

/-- Settles O53: each verb's row runs its command on the block as the line begins; what it changes stands aside from its answer, which
ends the line, but for the two lines that wait for their seal. -/
theorem sessionAndKeyVerbs : Obligations.SessionAndKeyVerbs := by
  intro s p ck hc
  refine ⟨fun n d line hr hl ho hb hn hd hline hf => exec_authBegin_runs hc hr hl ho hb hn hd hline hf,
    fun h col c q hr hb hch hq hk ho hf => exec_authPub_runs hc hr hb hch hq hk ho hf,
    fun h c q hr hb hch hq hbusy hf hf18 => ?_, exec_authEnd_runs hc,
    fun h col q hr hb hl hk hbusy hf => exec_keyEnrol_runs hc hr hb hl hk hbusy hf, exec_keyRetire_runs, exec_sealVerb_runs⟩
  cases hv : ecdsaVerify q (sha256 (authMessage p c)) (bytesNat (h.take 32)) (bytesNat (h.drop 32)) with
  | true =>
    obtain ⟨t, ht, hpend, hwon⟩ := exec_authRespond_wins hc hr hb hch hq hbusy hf hv
    exact ⟨t, ht, hpend, fun _ => hwon, fun h => absurd h (by decide)⟩
  | false =>
    obtain ⟨t, ht, hpend, hlost⟩ := exec_authRespond_loses hc hr hb hch hq hbusy hf18 hv
    exact ⟨t, ht, hpend, fun h => absurd h (by decide), fun _ => hlost⟩

end Sys2Proof.Machine
end

section
/-! SUPPORT. Runs of tests, their results and spares (R697 to R715): a run that begins, a test that passes, spares brought in and
copies that end. -/

namespace Sys2Proof.Machine

/-! ### Registers of the self-test block (R715) -/

/-- `SPARE_USE`. -/
def spareUseReg : RegDef := RegDef.control 0x7FFFF 0x80000000 0 0 0 0 [⟨16, 3, [(0, 6)]⟩]

/-! ### A run begins (R697, R715) -/

/-- The run that a write of `BIST_RUN` begins. -/
def commandRun (tests : List Nat) (p : Option Port) : TestRun := ⟨.command, tests, [], p, false, false, [], true, 0⟩

/-- The test that stands first begins: of the self-test only the units of a buffer test change. -/
theorem Mach.testBegin_bist {m : Mach} {r : TestRun} (h : m.bist.run = some r) :
    ∃ us, m.testBegin.bist = { m.bist with run := some { r with units := us } } := by
  have hself : m.bist = { m.bist with run := some { r with units := r.units } } := by
    rw [show ({ r with units := r.units } : TestRun) = r from rfl, ← h]
  unfold Mach.testBegin
  rw [h]
  dsimp only
  split
  · exact ⟨r.units, hself⟩
  · next b rest _ =>
    have hkept : (m.isolate b).bist = m.bist := (Mach.isolate_within m b (m.within_refl
      [.regs, .pa, .pb, .mot, .flt, .ang, .aux, .evt, .grd, .buf, .eng, .sec, .nv, .free]) rfl).1 .bist (by simp)
    split
    · exact ⟨_, by rw [← hkept]⟩
    · exact ⟨r.units, hkept.trans hself⟩

/-- A run of tests that begins touches neither the Flue ports nor the memories, and of the self-test the run and its kind. -/
theorem Mach.runStart_effect (m : Mach) (tests : List Nat) (p : Option Port) :
    (∃ us, (m.runStart .command tests p false false).bist =
      { m.bist with run := some { commandRun tests p with units := us }, lastRun := 3 }) ∧
      m.changesOnly (m.runStart .command tests p false false)
        [.regs, .pa, .pb, .mot, .flt, .ang, .aux, .evt, .grd, .buf, .eng, .sec, .nv, .bist, .free] := by
  refine ⟨?_, (Mach.runStart_within m .command tests p false false (m.within_refl _) rfl).1⟩
  exact Mach.testBegin_bist (m := { m with bist := { m.bist with run := some (commandRun tests p), lastRun := 3 } }) rfl

/-- A write of `BIST_RUN` that names tests starts their run. -/
theorem exec_bistRun_starts {s : State} {ag : Agent} {w : Word} (ht : s.m.takesWrite ag .direct 0x3400) (hw : w &&& 0x7F ≠ 0)
    (hcheck : s.m.testCheck (setBitsOf 7 (w &&& 0x7F)) = 0) :
    ∃ t r, exec (.bistRun ag .direct w) s = .next t ∧ t.pending = s.pending ∧ t.m.bist.run = some r ∧ r.kind = .command ∧
      r.todo = setBitsOf 7 (w &&& 0x7F) ∧ r.ran = [] ∧ r.byPort = portOf ag ∧ r.byVerb = false ∧ r.allPass = true ∧
      t.m.bist = { s.m.bist with run := some r, lastRun := 3 } ∧ s.m.agrees t.m .flue ∧ s.m.agrees t.m .mem := by
  have hrefuse : (s.m.touch 13).regRefuse ag 0x3400 (s.m.reg 0x3400) (s.m.reg 0x3400) (w &&& 0x7F) = 0 :=
    (if_neg hw).trans hcheck
  have hbus := busWrite_go (s.m.touch 13) ag .direct 0x3400 w 0x7F rfl rfl rfl rfl (by decide) (fun _ => rfl) hrefuse
  generalize hk : (s.m.fltStored ag 0x3400 (w &&& 0x7F) (s.m.reg 0x3400)).setReg 0x3400 (w &&& 0x7F) = k at *
  have hdone : (s.m.fltStored ag 0x3400 (w &&& 0x7F) (s.m.reg 0x3400)).doneBist ag 0x3400 (s.m.reg 0x3400) (s.m.reg 0x3400) (w &&& 0x7F) =
      k.runStart .command (setBitsOf 7 (w &&& 0x7F)) (portOf ag) false false := by
    rw [← hk]
    exact (if_pos rfl).trans (if_neg hw)
  have hstored : s.m.changesOnly k [.regs] := by
    rw [← hk]
    exact (Mach.setReg_within _ _ (s.m.fltStored_within ag 0x3400 _ _) rfl).1
  have hrow := oneWrite_next s (by decide) (by decide) ht (hbus.trans (congrArg (Prod.mk 0) hdone))
  obtain ⟨⟨us, hbist⟩, hparts⟩ := k.runStart_effect (setBitsOf 7 (w &&& 0x7F)) (portOf ag)
  generalize k.runStart .command (setBitsOf 7 (w &&& 0x7F)) (portOf ag) false false = n at *
  have hsettled : (n.settled ag).bist = { s.m.bist with
      run := some { commandRun (setBitsOf 7 (w &&& 0x7F)) (portOf ag) with units := us }, lastRun := 3 } :=
    (settled_agrees n ag .bist (by decide) (by decide)).trans (hbist.trans (by rw [show k.bist = s.m.bist from hstored .bist (by simp)]))
  refine ⟨_, _, hrow, rfl, congrArg SelfTest.run hsettled, rfl, rfl, rfl, rfl, rfl, rfl, hsettled, ?_, ?_⟩
  · exact Mach.agrees_trans (hstored .flue (by simp)) (Mach.agrees_trans (hparts .flue (by simp))
      (settled_agrees n ag .flue (by decide) (by decide)))
  · exact Mach.agrees_trans (hstored .mem (by simp)) (Mach.agrees_trans (hparts .mem (by simp))
      (settled_agrees n ag .mem (by decide) (by decide)))

/-! ### Spares (R706 to R709) -/

/-- The self-test's own state changes. -/
theorem Mach.Edits.bist {m n : Mach} {ps : List Part} {as : List Nat} (h : m.Edits n ps as) (x : SelfTest)
    (hp : ps.contains .bist = true) : m.Edits { n with bist := x } ps as :=
  h.other (qs := [.bist]) ⟨fun x hx => by cases x <;> first | rfl | simp at hx, id, id⟩ (by simpa using hp)

/-- An event of `BIST_STATUS` touches that register and, in a run, what the run has seen. -/
theorem Mach.Edits.bistEvent {m n : Mach} {ps : List Part} {as : List Nat} (h : m.Edits n ps as) (mask : Word) (ha : 0x3404 ∈ as)
    (hp : [Part.regs, .bist].all ps.contains = true) : m.Edits (n.bistEvent mask) ps as := by
  simp only [List.all_cons, List.all_nil, Bool.and_true, Bool.and_eq_true] at hp
  obtain ⟨hregs, hbist⟩ := hp
  unfold Mach.bistEvent
  split
  · exact h.sqEvent _ ha (by simpa using hregs)
  · exact (h.bist _ hbist).sqEvent _ ha (by simpa using hregs)

theorem Mach.bistEvent_idle {m : Mach} (mask : Word) (h : m.bist.run = none) : m.bistEvent mask = m.sqEvent 0x3404 mask := by
  unfold Mach.bistEvent
  rw [h]

theorem Mach.sqEvent_bist (m : Mach) (a : Nat) (mask : Word) : (m.sqEvent a mask).bist = m.bist :=
  (Mach.sqEvent_within m a mask (m.within_refl [.regs]) rfl).1 .bist (by simp)

theorem Mach.bistEvent_copies (m : Mach) (mask : Word) : (m.bistEvent mask).bist.copies = m.bist.copies := by
  unfold Mach.bistEvent
  split
  · rw [Mach.sqEvent_bist]
  · rw [Mach.sqEvent_bist]

/-- A spare brought in while no tests run sets SPARED. -/
theorem Mach.spareEvents_idle {m : Mach} (before : Mach) (hc : m.canonical = true) (hn : m.noClear) (h0 : m.on 0 = true)
    (hr : m.bist.run = none) :
    (m.spareEvents before true).flag 0x3404 2 = true ∧ m.Edits (m.spareEvents before true) [.regs] [0x3404] := by
  rw [Mach.spareEvents, Mach.bistEvent_idle _ hr]
  exact ⟨Mach.sqEvent_sets hc (by decide) (by rw [bitAt_or]; rfl) h0, (Mach.Edits.refl hn).sqEvent _ (by simp) rfl⟩

/-! ### The end of a copy (R708) -/

theorem map_listUpd {α β : Type} (g : α → β) {f : α → α} {f' : β → β} (h : ∀ x, g (f x) = f' (g x)) (l : List α)
    (i : Nat) : (listUpd l i f).map g = listUpd (l.map g) i f' := by
  induction l generalizing i with
  | nil => rfl
  | cons x xs ih =>
    cases i with
    | zero => exact congrArg (· :: xs.map g) (h x)
    | succ i => exact congrArg (g x :: ·) (ih i)

theorem flag_setFld_zero {m : Mach} {a i : Nat} (hc : m.canonical = true) (h : i < 32) : (m.setFld a i 1 0).flag a i = false := by
  rw [Mach.setFld, Mach.flag, Mach.reg_setReg_self m a _ hc, bitAt_setBits _ _ h]
  simp

/-- The block with the oldest copy gone and, where it stood for a copy by the register, GO cleared. -/
def Mach.copyGone (m : Mach) (go : Bool) (rest : List SpareCopy) : Mach :=
  let n := { m with bist := { m.bist with copies := rest } }
  if go then n.setFld 0x34A0 31 1 0 else n

theorem Mach.copyGone_effect {m : Mach} (go : Bool) (rest : List SpareCopy) (hc : m.canonical = true) (hn : m.noClear) :
    (m.copyGone go rest).bist = { m.bist with copies := rest } ∧
      (go = true → (m.copyGone go rest).flag 0x34A0 31 = false) ∧
      m.Edits (m.copyGone go rest) [.regs, .bist] (if go then [0x34A0] else []) := by
  have hgone : ∀ as, m.Edits { m with bist := { m.bist with copies := rest } } [.regs, .bist] as := fun as =>
    (Mach.Edits.refl hn).bist _ rfl
  cases go
  · exact ⟨rfl, fun h => absurd h (by decide), hgone _⟩
  · exact ⟨rfl, fun _ => flag_setFld_zero hc (by decide), (hgone _).setReg _ (by simp) rfl⟩

/-- A spare row takes the place of a row. -/
def Mach.serveRow (m : Mach) (row : Nat) : Mach :=
  let n := m.updUnit (row / 512) (fun u => { u with rows := u.rows - 1 })
  { n with buf := { n.buf with rowMap := n.buf.rowMap ++ [row] } }

theorem Mach.serveRow_within (m : Mach) (row : Nat) : m.within (m.serveRow row) [.buf] :=
  Mach.within_step (qs := [.buf]) (Mach.updUnit_within m _ _ (m.within_refl [.buf]) rfl)
    ⟨fun x hx => by cases x <;> first | rfl | simp at hx, id, id⟩ rfl

theorem Mach.serveRow_effect {m : Mach} {row : Nat} (h : row / 512 < m.buf.units.length) :
    (m.serveRow row).buf.rowMap = m.buf.rowMap ++ [row] ∧ (m.serveRow row).buf.queues = m.buf.queues ∧
      ((m.serveRow row).buf.units.map BufUnit.rows).getD (row / 512) 0 = (m.buf.units.map BufUnit.rows).getD (row / 512) 0 - 1 := by
  refine ⟨rfl, rfl, ?_⟩
  change ((listUpd m.buf.units (row / 512) fun u => { u with rows := u.rows - 1 }).map BufUnit.rows).getD (row / 512) 0 = _
  rw [map_listUpd BufUnit.rows (f' := fun n => n - 1) (fun _ => rfl), listUpd_getD, if_pos ⟨rfl, by rwa [List.length_map]⟩]

theorem Mach.serveBank_effect {m : Mach} {bank : Nat} (h : bank < m.buf.units.length) :
    ((m.serveBank bank).buf.units.map BufUnit.served).getD bank false = true ∧ (m.serveBank bank).buf.queues = m.buf.queues := by
  refine ⟨?_, rfl⟩
  change ((listUpd (listUpd m.buf.units bank fun u => { u with served := true, retLoss := 0, rows := _, corr := 0 }) (128 + bank / 16)
    fun u => { u with served := true, rows := _ }).map BufUnit.served).getD bank false = true
  rw [map_listUpd BufUnit.served (f' := fun _ => true) (fun _ => rfl), map_listUpd BufUnit.served (f' := fun _ => true) (fun _ => rfl),
    listUpd_getD]
  split
  · rfl
  · rw [listUpd_getD, if_pos ⟨rfl, by rwa [List.length_map]⟩]

theorem Mach.copyDone_row {m : Mach} {c : SpareCopy} {rest : List SpareCopy} (h : m.bist.copies = c :: rest) (hb : c.bank = false) :
    m.copyDone = ((m.copyGone c.go rest).serveRow c.unit).spareEvents (m.copyGone c.go rest) true := by
  rw [Mach.copyDone, h]
  exact if_neg (by rw [hb]; decide)

/-- Before a bank is replaced, stores that hold its words may be discarded. -/
theorem Mach.copyDone_bank {m : Mach} {c : SpareCopy} {rest : List SpareCopy} (h : m.bist.copies = c :: rest) (hb : c.bank = true) :
    ∃ k, (m.copyGone c.go rest).within k [.pa, .pb] ∧ m.copyDone = (k.serveBank c.unit).spareEvents k true := by
  rw [Mach.copyDone, h]
  refine ⟨_, ?_, if_pos hb⟩
  split
  · exact Mach.dropStores_within _ _ (Mach.within_refl _ _) rfl
  · exact Mach.within_refl _ _

/-- A copy's end: the copy is gone, GO is clear where it stood for it, and SPARED is set. -/
theorem Mach.copyDone_events {m k n : Mach} {go : Bool} {rest : List SpareCopy} {ps : List Part} (hc : m.canonical = true)
    (hn : m.noClear) (h0 : m.on 0 = true) (hr : m.bist.run = none) (hw : (m.copyGone go rest).within n ps)
    (hp : [Part.clk, .regs, .bist].all (fun x => !ps.contains x) = true) :
    (n.spareEvents k true).bist = { m.bist with copies := rest } ∧ (n.spareEvents k true).flag 0x3404 2 = true ∧
      (go = true → (n.spareEvents k true).flag 0x34A0 31 = false) ∧
      m.keepsRegs (n.spareEvents k true) ([0x3404] ++ if go then [0x34A0] else []) ∧
      m.changesOnly (n.spareEvents k true) (.regs :: .bist :: ps) ∧ n.changesOnly (n.spareEvents k true) [.regs] := by
  obtain ⟨hbist, hgo, hgone⟩ := Mach.copyGone_effect (m := m) go rest hc hn
  have hregs : Part.regs ∉ ps := fun h => by simp [h] at hp
  have hclk : Part.clk ∉ ps := fun h => by simp [h] at hp
  have hself : Part.bist ∉ ps := fun h => by simp [h] at hp
  have he : m.Edits n (.regs :: .bist :: ps) ([0x3404] ++ if go then [0x34A0] else []) := by
    have hlisted : m.Edits (m.copyGone go rest) (.regs :: .bist :: ps) ([0x3404] ++ if go then [0x34A0] else []) :=
      (Mach.Edits.refl hn).trans hgone (by simp) (by cases go <;> rfl)
    refine hlisted.other hw (List.all_eq_true.mpr fun x hx => ?_)
    have h1 : x ≠ .regs := fun h => hregs (h ▸ hx)
    have h2 : x ≠ .clk := fun h => hclk (h ▸ hx)
    simp [hx, h1, h2]
  have hnclk : m.agrees n .clk := he.within.1 .clk (by simp [hclk])
  have hnbist : n.bist = { m.bist with copies := rest } := (show n.bist = _ from hw.1 .bist hself).trans hbist
  obtain ⟨hspared, hevents⟩ := Mach.spareEvents_idle k (he.canonical hc) he.noClear ((Mach.on_congr hnclk 0).trans h0)
    (by rw [hnbist]; exact hr)
  have hall := he.trans hevents rfl (by simp)
  refine ⟨(show _ = n.bist from hevents.agrees (x := .bist) rfl).trans hnbist, hspared, fun h => ?_, hall.keepsRegs, hall.within.1,
    hevents.within.1⟩
  refine (congrArg (bitAt · 31) ((hevents.keepsRegs 0x34A0 (by simp)).trans ?_)).trans (hgo h)
  exact Mach.reg_of_within hw (by simpa using hregs) 0x34A0

/-- The end of the oldest copy while no tests run. -/
theorem exec_spareCopyDone_ends {s : State} {c : SpareCopy} {rest : List SpareCopy} (hc : s.m.canonical = true) (hn : s.m.noClear)
    (h0 : s.m.on 0 = true) (hcopies : s.m.bist.copies = c :: rest) (hr : s.m.bist.run = none)
    (hlen : s.m.buf.units.length = 136) :
    ∃ t, exec .spareCopyDone s = .next t ∧ t.pending = s.pending ∧ t.m.bist = { s.m.bist with copies := rest } ∧
      t.m.flag 0x3404 2 = true ∧ (c.go = true → t.m.flag 0x34A0 31 = false) ∧
      s.m.keepsRegs t.m ([0x3404] ++ if c.go then [0x34A0] else []) ∧
      (c.bank = false → c.unit < 65536 → t.m.buf.rowMap = s.m.buf.rowMap ++ [c.unit] ∧
        (t.m.buf.units.map BufUnit.rows).getD (c.unit / 512) 0 = (s.m.buf.units.map BufUnit.rows).getD (c.unit / 512) 0 - 1 ∧
        t.m.buf.queues = s.m.buf.queues ∧ s.m.changesOnly t.m [.regs, .buf, .bist]) ∧
      (c.bank = true → c.unit < 128 → (t.m.buf.units.map BufUnit.served).getD c.unit false = true ∧
        t.m.buf.queues = s.m.buf.queues ∧ s.m.changesOnly t.m [.regs, .pa, .pb, .buf, .bist]) := by
  obtain ⟨-, -, hgone⟩ := Mach.copyGone_effect (m := s.m) c.go rest hc hn
  have hbuf : (s.m.copyGone c.go rest).buf = s.m.buf := hgone.agrees (x := .buf) rfl
  refine ⟨_, rfl, rfl, ?_⟩
  dsimp only
  cases hb : c.bank with
  | false =>
    have hserved : (s.m.copyGone c.go rest).within ((s.m.copyGone c.go rest).serveRow c.unit) [.buf] := Mach.serveRow_within _ _
    obtain ⟨hbist, hspared, hgo, hregs, hall, hevents⟩ :=
      Mach.copyDone_events (k := s.m.copyGone c.go rest) hc hn h0 hr hserved rfl
    have hkept : (((s.m.copyGone c.go rest).serveRow c.unit).spareEvents (s.m.copyGone c.go rest) true).buf =
        ((s.m.copyGone c.go rest).serveRow c.unit).buf := hevents .buf (by simp)
    rw [Mach.copyDone_row hcopies hb]
    refine ⟨hbist, hspared, hgo, hregs, fun _ hu => ?_, fun h => absurd h (by decide)⟩
    obtain ⟨hmap, hqueues, hrows⟩ := Mach.serveRow_effect (m := s.m.copyGone c.go rest) (row := c.unit) (by rw [hbuf, hlen]; omega)
    rw [hkept, hmap, hqueues, hrows, hbuf]
    exact ⟨rfl, rfl, rfl, fun x hx => hall x (by simp_all)⟩
  | true =>
    obtain ⟨k, hk, hrow⟩ := Mach.copyDone_bank hcopies hb
    have hserved : (s.m.copyGone c.go rest).within (k.serveBank c.unit) [.pa, .pb, .buf] :=
      Mach.serveBank_within k _ (Mach.within_step (Mach.within_refl _ _) hk rfl) rfl
    obtain ⟨hbist, hspared, hgo, hregs, hall, hevents⟩ := Mach.copyDone_events (k := k) hc hn h0 hr hserved rfl
    have hkept : ((k.serveBank c.unit).spareEvents k true).buf = (k.serveBank c.unit).buf := hevents .buf (by simp)
    have hkbuf : k.buf = s.m.buf := (show k.buf = _ from hk.1 .buf (by simp)).trans hbuf
    rw [hrow]
    refine ⟨hbist, hspared, hgo, hregs, fun h => absurd h (by decide), fun _ hu => ?_⟩
    obtain ⟨hunit, hqueues⟩ := Mach.serveBank_effect (m := k) (bank := c.unit) (by rw [hkbuf, hlen]; omega)
    rw [hkept, hqueues, hkbuf]
    exact ⟨hunit, rfl, fun x hx => hall x (by simp_all)⟩

/-! ### Spares brought in by command (R709) -/

theorem spareCheck_passed {m : Mach} {k u : Nat} (h : m.spareCheck k u = 0) : k ≠ 2 ∧ k ≠ 7 ∧ u < spareUnits k := by
  unfold Mach.spareCheck at h
  split at h
  · exact absurd h (by decide)
  next h7 =>
    split at h
    · exact absurd h (by decide)
    next h2 =>
      split at h
      · exact absurd h (by decide)
      next hu => exact ⟨h2, h7, by omega⟩

/-- A write of `SPARE_USE` with GO that nothing refuses is stored and brings the spare in. -/
theorem oneWrite_spareUse {s : State} {ag : Agent} {w : Word} {k u : Nat} (ht : s.m.takesWrite ag .direct 0x34A0)
    (hgo : bitAt w 31 = true) (hidle : s.m.flag 0x34A0 31 = false) (hk : k = bitsAt w 16 3) (hu : u = bitsAt w 0 16)
    (hr : s.m.refuseSpare ag k u = 0) : ∃ new,
    exec (.spareUseGo ag .direct w) s = .next { s with m :=
      (((if k ≤ 1 then (s.m.fltStored ag 0x34A0 (w &&& 0x80000000) new).setFld 0x34A0 31 1 1
        else s.m.fltStored ag 0x34A0 (w &&& 0x80000000) new).spareUse k u true).settled ag) } := by
  obtain ⟨h2, h7, hunit⟩ : k ≠ 2 ∧ k ≠ 7 ∧ u < spareUnits k := by
    have hheld : ∀ b : Bool, (if b then 5 else s.m.spareCheck k u) = 0 → s.m.spareCheck k u = 0 := fun b h => by
      cases b
      · exact h
      · exact absurd (show 5 = 0 from h) (by decide)
    exact spareCheck_passed (hheld _ hr)
  have hlt : k < 8 := by rw [hk]; exact Nat.mod_lt _ (by decide)
  have hkw : bitsAt (spareUseReg.written .direct (s.m.reg 0x34A0) w) 16 3 = k :=
    (bitsAt_written_rw _ w (by decide)).trans hk.symm
  have huw : bitsAt (spareUseReg.written .direct (s.m.reg 0x34A0) w) 0 16 = u :=
    (bitsAt_written_rw _ w (by decide)).trans hu.symm
  have hgow : bitAt (w &&& spareUseReg.go) 31 = true := by rw [bitAt_and, hgo]; rfl
  generalize hnew : spareUseReg.written .direct (s.m.reg 0x34A0) w = new at *
  have hin : spareUseReg.inRange new = true := by
    have haccepts : FieldRange.accepts ⟨16, 3, [(0, 6)]⟩ new = true := by
      simp only [FieldRange.accepts, hkw, List.any_cons, List.any_nil, Bool.or_false, Bool.and_eq_true, decide_eq_true_eq]
      omega
    exact congrArg (· && true) haccepts
  have hrange : (s.m.touch 13).rangeBad 0x34A0 new = false := by
    change (bitsAt new 16 3 ≠ 2 && decide (spareUnits (bitsAt new 16 3) ≤ bitsAt new 0 16)) = false
    rw [hkw, huw, decide_eq_false (p := spareUnits k ≤ u) (by omega), Bool.and_false]
  have hrefuse : (s.m.touch 13).regRefuse ag 0x34A0 (s.m.reg 0x34A0) new (w &&& spareUseReg.go) = 0 := by
    change (if bitAt (w &&& spareUseReg.go) 31 && !s.m.flag 0x34A0 31 then
      s.m.refuseSpare ag (bitsAt new 16 3) (bitsAt new 0 16) else 0) = 0
    rw [hkw, huw, hr, ite_self]
  have hbus := Mach.busWrite_taken (m := s.m.touch 13) ag (d := spareUseReg) (w := w) rfl rfl rfl rfl rfl rfl rfl (by decide)
    (hnew.symm ▸ hin) (hnew.symm ▸ hrange) (hnew.symm ▸ hrefuse)
  have hdone : (s.m.fltStored ag 0x34A0 (w &&& 0x80000000) new).doneBist ag 0x34A0 (s.m.reg 0x34A0) new (w &&& spareUseReg.go) =
      (if k ≤ 1 then (s.m.fltStored ag 0x34A0 (w &&& 0x80000000) new).setFld 0x34A0 31 1 1
        else s.m.fltStored ag 0x34A0 (w &&& 0x80000000) new).spareUse k u true := by
    have hstarts : (bitAt (w &&& spareUseReg.go) 31 && !bitAt (s.m.reg 0x34A0) 31) = true := by
      rw [hgow, show bitAt (s.m.reg 0x34A0) 31 = false from hidle]
      rfl
    rw [Mach.doneBist, if_neg (by decide), if_pos (by simpa using hstarts)]
    dsimp only
    rw [hkw, huw]
  refine ⟨new, oneWrite_next s (by decide) (by decide) ht (hbus.trans ?_)⟩
  rw [show spareUseReg.written .direct ((s.m.touch 13).reg 0x34A0) w = new from hnew]
  exact congrArg (Prod.mk 0) hdone

/-- What a spare of kind `k` for the unit `u` makes of the non-volatile store. -/
def sparedNv (k u : Nat) (old new : Nv) : Prop :=
  (k = 3 → new = { old with engSpare := u + 1 }) ∧ (k = 4 → new = { old with acfSpare := u + 1 }) ∧
    (k = 5 → new = { old with gyrzSpare := true }) ∧
    (k = 6 → new.burn0 = some u ∧ new.burn1 = old.burn1 ∨ new.burn1 = some u ∧ new.burn0 = old.burn0)

/-- A spare of kinds 3 to 6 changes the store and, for an engine, the engines; then its events follow. -/
theorem Mach.spareIn_form (m : Mach) (k u : Nat) :
    ∃ n v, m.within n [.eng] ∧ m.spareIn k u = ({ n with nv := v } : Mach).spareEvents m true ∧ sparedNv k u m.nv v := by
  unfold Mach.spareIn
  extract_lets nv nv' n
  have hv : sparedNv k u m.nv nv' := by
    refine ⟨fun h => ?_, fun h => ?_, fun h => ?_, fun h => ?_⟩
    · subst h; rfl
    · subst h; rfl
    · subst h; rfl
    · subst h
      by_cases hb : (m.nv.burn0.isNone && !m.nv.failed.getLsbD 6) = true
      · exact .inl (by rw [show nv' = { m.nv with burn0 := some u } from if_pos hb]; exact ⟨rfl, rfl⟩)
      · exact .inr (by rw [show nv' = { m.nv with burn1 := some u } from if_neg hb]; exact ⟨rfl, rfl⟩)
  by_cases h3 : k = 3
  · exact ⟨n, nv', by rw [show n = m.engSpoil u from if_pos h3]; exact Mach.engSpoil_within m u (m.within_refl _) rfl, rfl, hv⟩
  · exact ⟨n, nv', by rw [show n = m from if_neg h3]; exact m.within_refl _, rfl, hv⟩

/-- What a spare of kinds 3 to 6 that is brought in leaves. -/
structure Mach.Spared (m n : Mach) (k u : Nat) : Prop where
  edits : m.Edits n [.regs, .flt, .eng, .nv, .bist] [0x3404]
  copies : n.bist.copies = m.bist.copies
  shown : m.bist.run = none → n.flag 0x3404 2 = true
  nv : sparedNv k u m.nv n.nv

theorem Mach.spareIn_spared {m : Mach} (k u : Nat) (hc : m.canonical = true) (hn : m.noClear) (h0 : m.on 0 = true) :
    m.Spared (m.spareIn k u) k u := by
  obtain ⟨e, v, heng, hform, hv⟩ := m.spareIn_form k u
  have hchanged : m.Edits { e with nv := v } [.regs, .flt, .eng, .nv, .bist] [0x3404] := ((Mach.Edits.refl hn).other heng rfl).nv v rfl
  have hnbist : ({ e with nv := v } : Mach).bist = m.bist := heng.1 .bist (by simp)
  have hclk : ({ e with nv := v } : Mach).clk = m.clk := heng.1 .clk (by simp)
  have hstore : ({ e with nv := v } : Mach).nv = v := rfl
  generalize ({ e with nv := v } : Mach) = n at *
  rw [hform]
  refine ⟨hchanged.bistEvent _ (by simp) rfl, ?_, fun hr => ?_, ?_⟩
  · rw [Mach.spareEvents, Mach.bistEvent_copies, hnbist]
  · exact (Mach.spareEvents_idle m (hchanged.canonical hc) hchanged.noClear ((Mach.on_congr hclk 0).trans h0)
      (by rw [hnbist]; exact hr)).1
  · rw [show (n.spareEvents m true).nv = v from
      ((Mach.spareEvents_within n m true (n.within_refl [.regs, .bist]) rfl).1 .nv (by simp)).trans hstore]
    exact hv

/-- A source that stops changes nothing that a spare shows. -/
theorem Mach.Spared.stopSource {m n : Mach} {k u : Nat} (h : m.Spared n k u) (g : Nat) : m.Spared (n.stopSource g) k u := by
  have hw := Mach.stopSource_within n g (n.within_refl [.flt]) rfl
  exact ⟨h.edits.other hw rfl, h.copies, h.shown, h.nv⟩

theorem Mach.spareUse_spared {m : Mach} {k : Nat} (u : Nat) (go : Bool) (hk : 2 ≤ k) (hc : m.canonical = true) (hn : m.noClear)
    (h0 : m.on 0 = true) : m.Spared (m.spareUse k u go) k u := by
  have hin := Mach.spareIn_spared k u hc hn h0
  unfold Mach.spareUse
  split
  · omega
  · omega
  · exact hin.stopSource 0
  · exact hin.stopSource 2
  · exact hin

/-- The frame of an accepted write whose effect is a chain of edits. -/
theorem settled_edits {m n : Mach} {ag : Agent} {ps : List Part} {as : List Nat} (h : m.Edits n (.regs :: ps) as)
    (hp : [Part.clk, .pa, .pb].all (fun x => !(Part.regs :: ps).contains x) = true) : m.wroteOnly (n.settled ag) ag ps as := by
  have hkept : ∀ x ∈ [Part.clk, .pa, .pb], m.agrees n x := fun x hx =>
    h.within.1 x (by simpa using List.all_eq_true.mp hp x hx)
  exact settled_wroteOnly m n ag ps as h.within.1 (hkept .pa (by simp)) (hkept .pb (by simp))
    (congrArg Clocks.now (hkept .clk (by simp))) h.keepsRegs

/-- A copy begins (R708): beside the write of GO nothing but the copies changes. -/
theorem Mach.spareUse_copies {m : Mach} {k : Nat} (u : Nat) (go : Bool) (hk : k ≤ 1) :
    m.spareUse k u go = { m with bist := { m.bist with copies := m.bist.copies ++ [⟨k == 1, u, go⟩] } } := by
  obtain rfl | rfl : k = 0 ∨ k = 1 := by omega
  · rfl
  · rfl

/-- `SPARE_USE` with GO, refused by nothing. -/
theorem exec_spareUseGo_brings {s : State} {ag : Agent} {w : Word} {k u : Nat} (hc : s.m.canonical = true) (hn : s.m.noClear)
    (h0 : s.m.on 0 = true) (ht : s.m.takesWrite ag .direct 0x34A0) (hgo : bitAt w 31 = true) (hidle : s.m.flag 0x34A0 31 = false)
    (hk : k = bitsAt w 16 3) (hu : u = bitsAt w 0 16) (hr : s.m.refuseSpare ag k u = 0) :
    ∃ t, exec (.spareUseGo ag .direct w) s = .next t ∧ t.pending = s.pending ∧
      (k ≤ 1 → t.m.bist = { s.m.bist with copies := s.m.bist.copies ++ [⟨k == 1, u, true⟩] } ∧ t.m.flag 0x34A0 31 = true ∧
        s.m.wroteOnly t.m ag [.bist] [0x34A0]) ∧
      (2 ≤ k → t.m.bist.copies = s.m.bist.copies ∧ (s.m.bist.run = none → t.m.flag 0x3404 2 = true) ∧
        s.m.wroteOnly t.m ag [.flt, .eng, .nv, .bist] [0x34A0, 0x3404] ∧ sparedNv k u s.m.nv t.m.nv) := by
  obtain ⟨new, hrow⟩ := oneWrite_spareUse ht hgo hidle hk hu hr
  have hstored := s.m.fltStored_within ag 0x34A0 (w &&& 0x80000000) new
  have hfile := Mach.fltStored_edits (m := s.m) ag 0x34A0 (w &&& 0x80000000) new hn
  generalize s.m.fltStored ag 0x34A0 (w &&& 0x80000000) new = n at *
  refine ⟨_, hrow, rfl, fun h1 => ?_, fun h2 => ?_⟩
  · rw [if_pos h1, Mach.spareUse_copies u true h1]
    have hgoes := hfile.setFld 31 1 1 List.mem_cons_self rfl
    have hset := Mach.flag_setFld_self (a := 0x34A0) (i := 31) (hfile.canonical hc) (by decide)
    have hbist : (n.setFld 0x34A0 31 1 1).bist = s.m.bist := hgoes.agrees (x := .bist) rfl
    generalize n.setFld 0x34A0 31 1 1 = x at *
    refine ⟨(settled_agrees _ ag .bist (by decide) (by decide)).trans (by dsimp only; rw [hbist]),
      (congrArg (bitAt · 31) (settled_reg ..)).trans hset, ?_⟩
    exact settled_edits ((Mach.Edits.refl hn).trans hgoes rfl (by simp) |>.bist _ rfl) rfl
  · rw [if_neg (by omega)]
    have hspared := Mach.spareUse_spared u true h2 (hfile.canonical hc) hfile.noClear
      ((Mach.on_congr (hfile.agrees (x := .clk) rfl) 0).trans h0)
    have hbist : n.bist = s.m.bist := hfile.agrees (x := .bist) rfl
    have hnv : n.nv = s.m.nv := hfile.agrees (x := .nv) rfl
    generalize n.spareUse k u true = x at *
    refine ⟨?_, fun hrun => ?_, ?_, ?_⟩
    · exact (congrArg SelfTest.copies (settled_agrees x ag .bist (by decide) (by decide))).trans (hspared.copies.trans (by rw [hbist]))
    · exact (congrArg (bitAt · 2) (settled_reg ..)).trans (hspared.shown (by rw [hbist]; exact hrun))
    · exact settled_edits (((Mach.Edits.refl hn).trans hfile rfl (by simp)).trans hspared.edits rfl (by simp)) rfl
    · rw [show (x.settled ag).nv = x.nv from settled_agrees x ag .nv (by decide) (by decide), ← hnv]
      exact hspared.nv

/-! ### A block re-initialised after its test (R700) -/

theorem Mach.dom_of_within {m n : Mach} {ps : List Part} (h : m.within n ps) (hp : ps.contains .clk = false) (k : Nat) :
    n.dom k = m.dom k := by
  have hclk : n.clk = m.clk := h.1 .clk (by simpa using hp)
  unfold Mach.dom
  rw [hclk]

/-- No domain switches as a block is re-initialised. -/
theorem Mach.reinit_dom (m : Mach) (b k : Nat) : (m.reinit b).dom k = m.dom k := by
  have hblocks : ∀ (x : Mach) f, (x.blocksOff f).dom k = x.dom k := fun x f =>
    Mach.dom_of_within (Mach.blocksOff_within x f (x.within_refl [.regs]) rfl) rfl k
  have howe : ∀ (x : Mach) q, (x.oweStart q).dom k = x.dom k := fun x q =>
    Mach.dom_of_within (Mach.oweStart_within x q (x.within_refl [.flt]) rfl) rfl k
  unfold Mach.reinit
  split
  · rfl
  · split
    · rw [Mach.dom_of_within (Mach.grdTryArm_within _ (Mach.within_refl _ [.grd, .free]) rfl) rfl,
        (Mach.Continues.refl _).motionOn.dom, hblocks]
      exact Mach.dom_of_within (Mach.motionOff_within m (m.within_refl [.regs, .mot, .flt, .ang, .grd, .free]) rfl) rfl k
    · rw [(Mach.Continues.refl _).auxOn.dom, hblocks]
      exact Mach.dom_of_within (Mach.auxOff_within m (m.within_refl [.regs, .pa, .pb, .flt, .aux, .buf, .sec, .nv]) rfl) rfl k
    · rw [(Mach.Continues.refl _).signalOn.dom, hblocks]
      exact Mach.dom_of_within (Mach.signalOff_within m (m.within_refl [.flt, .ang, .evt, .nv]) rfl) rfl k
    · rw [(Mach.Continues.refl _).engOn.dom, hblocks]
      exact Mach.dom_of_within (Mach.engOff_within m (m.within_refl [.eng]) rfl) rfl k
    · rw [howe, howe, hblocks]
    · rw [howe, howe, hblocks]
    · rfl

/-- A register that every step of a fold keeps. -/
theorem Mach.foldl_reg {α : Type} {x : Nat} {f : Mach → α → Mach} (l : List α) (m : Mach)
    (h : ∀ k, ∀ c ∈ l, (f k c).reg x = k.reg x) :
    (l.foldl f m).reg x = m.reg x := by
  induction l generalizing m with
  | nil => rfl
  | cons c l ih =>
    rw [List.foldl_cons, ih _ fun k d hd => h k d (List.mem_cons_of_mem _ hd)]
    exact h m c List.mem_cons_self

/-- The registers of other blocks stay as blocks return to reset (R128). -/
theorem Mach.blocksOff_reg (m : Mach) {f : Nat → Bool} {x : Nat} (h : f (blockOf x) = false) : (m.blocksOff f).reg x = m.reg x := by
  refine Mach.foldl_reg _ _ fun k c _ => ?_
  split
  next hf =>
    split
    · exact Mach.reg_setReg_ne k _ fun hx => by rw [hx, hf] at h; exact absurd h (by decide)
    · rfl
  · rfl

/-- The registers of the self-test block stay as another block is re-initialised, but for the aux block's. -/
theorem Mach.reinit_reg (m : Mach) {b x : Nat} (hb : b ≠ 1) (hx : blockOf x = 13) : (m.reinit b).reg x = m.reg x := by
  have hplace : 0x3400 ≤ x := by unfold blockOf at hx; omega
  have hlast : ∀ p, x ≠ accLast p := fun p => by cases p <;> simp only [accLast] <;> omega
  have hang : x ≠ 0x1428 := by omega
  have hblocks : ∀ (k : Mach) (f : Nat → Bool), f 13 = false → (k.blocksOff f).reg x = k.reg x := fun k f hf =>
    k.blocksOff_reg (by rw [hx]; exact hf)
  have howe : ∀ (k : Mach) q, (k.oweStart q).reg x = k.reg x := fun k q =>
    Mach.reg_of_within (Mach.oweStart_within k q (k.within_refl [.flt]) rfl) rfl x
  have hmotion : ∀ k : Mach, k.motionOn.reg x = k.reg x := fun k =>
    Mach.setLock_reg_ne _ _ _ hang hlast
  have heng : ∀ k : Mach, k.engOn.reg x = k.reg x := fun k =>
    Mach.foldl_reg (f := Mach.pinInit) (List.range 16) k.engOff fun _ _ _ => rfl
  unfold Mach.reinit
  split
  · rfl
  · split
    · rw [Mach.reg_of_within (Mach.grdTryArm_within _ (Mach.within_refl _ [.grd, .free]) rfl) rfl, hmotion, hblocks _ _ rfl]
      exact m.motionOff_reg_ne hang hlast
    · exact absurd rfl hb
    · rw [Mach.reg_of_within (Mach.signalOn_within _ (Mach.within_refl _ [.clk, .flt, .ang, .evt, .nv, .mem]) rfl) rfl, hblocks _ _ rfl]
      exact Mach.reg_of_within (Mach.signalOff_within m (m.within_refl [.flt, .ang, .evt, .nv]) rfl) rfl x
    · rw [heng, hblocks _ _ rfl]
      rfl
    · rw [howe, howe, hblocks _ _ rfl]
    · rw [howe, howe, hblocks _ _ rfl]
    · rfl

/-- A port's registers after its test lie in its own block. -/
theorem Mach.reinitPort_reg (m : Mach) (p : Port) {x : Nat} (hx : blockOf x = 13) : (m.reinitPort p).reg x = m.reg x := by
  have hplace : 0x3400 ≤ x := by unfold blockOf at hx; omega
  have hoff : (m.portOff p).reg x = m.reg x :=
    Mach.reg_of_within (Mach.portOff_within m p (m.within_refl [.pa, .pb, .nv]) rfl) rfl x
  refine Eq.trans (Mach.foldl_reg _ _ fun k o ho => ?_) hoff
  split
  · refine Mach.reg_setReg_ne k _ fun h => ?_
    have hbase : portBase p ≤ 0x420 := by cases p <;> decide
    have ho' : o ≤ 0x1C := by fin_cases ho <;> decide
    omega
  · rfl

/-! ### The end of a test that passes (R701) -/

/-- The run with its test done. -/
def TestRun.advanced (r : TestRun) (b : Nat) (rest : List Nat) : TestRun := { r with todo := rest, ran := r.ran ++ [b], units := [] }

/-- The run noted and the block of test `b` re-initialised. -/
def Mach.testServed (m : Mach) (b : Nat) (r : TestRun) : Mach :=
  let n := { m with bist := { m.bist with run := some r } }
  if b = 2 then (portsTested r).foldl Mach.reinitPort n else n.reinit b

theorem Mach.testServed_parts (m : Mach) (b : Nat) (r : TestRun) :
    (m.testServed b r).bist = { m.bist with run := some r } ∧ m.agrees (m.testServed b r) .flue ∧
      (m.canonical = true → (m.testServed b r).canonical = true) := by
  have hw : Mach.within { m with bist := { m.bist with run := some r } } (m.testServed b r)
      [.clk, .regs, .pa, .pb, .mot, .flt, .ang, .aux, .evt, .grd, .buf, .eng, .sec, .nv, .mem, .free] := by
    unfold Mach.testServed
    split
    · exact Mach.within_fold _ _ (Mach.within_refl _ _) fun k p hk => Mach.reinitPort_within k p hk rfl
    · exact Mach.reinit_within _ b (Mach.within_refl _ _) rfl
  exact ⟨hw.1 .bist (by simp), hw.1 .flue (by simp), hw.2.1⟩

theorem Mach.testServed_on (m : Mach) (b : Nat) (r : TestRun) (k : Nat) : (m.testServed b r).on k = m.on k := by
  have hdom : (m.testServed b r).dom k = m.dom k := by
    unfold Mach.testServed
    split
    · exact Mach.dom_of_within (Mach.within_fold _ _ (Mach.within_refl _ [.regs, .pa, .pb, .nv]) fun n p hn =>
        Mach.reinitPort_within n p hn rfl) rfl k
    · exact Mach.reinit_dom _ b k
  rw [Mach.on, hdom, Mach.on]

theorem Mach.testServed_reg (m : Mach) {b x : Nat} (r : TestRun) (hb : b ≠ 1) (hx : blockOf x = 13) :
    (m.testServed b r).reg x = m.reg x := by
  unfold Mach.testServed
  split
  · exact Mach.foldl_reg _ _ fun k p _ => k.reinitPort_reg p hx
  · exact Mach.reinit_reg _ hb hx

theorem Mach.putResult_bist (m : Mach) (r : TestRun) (b result sub steps expected : Nat) (sig : Word) :
    (m.putResult r b result sub steps expected sig).bist = m.bist :=
  (Mach.putResult_within m r b result sub steps expected sig (m.within_refl [.regs, .pa, .pb]) rfl).1 .bist (by simp)

/-- What the outcome of a passing test does: its result, its block, and the next test or the end of the run. -/
theorem Mach.selfTestEnd_passed {m : Mach} {r : TestRun} {b : Nat} {rest : List Nat} {o : TestOutcome} (hrun : m.bist.run = some r)
    (htodo : r.todo = b :: rest) (hsig : o.sigOk = true) (hsteps : o.steps = testSteps r b) (hunits : b = 6 → r.units ≠ []) :
    m.selfTestEnd o =
      if rest.isEmpty then
        (((m.putResult r b 1 0 o.steps (testSteps r b) o.sig).testServed b (r.advanced b rest)).runEnd (r.advanced b rest) false)
      else (((m.putResult r b 1 0 o.steps (testSteps r b) o.sig).testServed b (r.advanced b rest)).testBegin, none) := by
  have hempty : (decide (b = 6) && r.units.isEmpty) = false := by
    by_cases h : b = 6
    · simpa [h] using hunits h
    · simp [h]
  unfold Mach.selfTestEnd
  split
  next h => exact absurd (hrun.symm.trans h) (by simp)
  next r' h =>
    obtain rfl : r = r' := Option.some.inj (hrun.symm.trans h)
    split
    next h => exact absurd (htodo.symm.trans h) (by simp)
    next c cs h =>
      obtain ⟨rfl, rfl⟩ : b = c ∧ rest = cs := List.cons.inj (htodo.symm.trans h)
      extract_lets expected empty steps result k1 k2 k3 seen x ports k4 k5
      have hshown : steps = o.steps := if_neg (by rw [show empty = false from hempty]; decide)
      have hpasses : result = 1 :=
        (if_neg (by rw [show empty = false from hempty]; decide)).trans ((if_neg (by rw [hsig]; decide)).trans
          (if_neg (by rw [hshown]; exact not_not_intro hsteps)))
      have hresult : k3 = m.putResult r b 1 0 o.steps (testSteps r b) o.sig := by
        have h1 : k1 = m.putResult r b 1 0 o.steps (testSteps r b) o.sig := by
          change m.putResult r b result (if result = 2 then o.sub else 0) steps (testSteps r b) o.sig = _
          rw [hpasses, hshown, if_neg (by decide)]
        have h2 : k2 = k1 := if_pos hpasses
        have h3 : k3 = k2 := if_neg (by rw [hpasses]; decide)
        rw [h3, h2, h1]
      have hrunning : k3.bist.run = some r := by
        rw [hresult, Mach.putResult_bist]
        exact hrun
      have hseen : seen = r.seen := by
        change (match k3.bist.run with
          | some x => x.seen
          | none => r.seen) = _
        rw [hrunning]
      have hadvanced : x = r.advanced b rest := by
        change { r with todo := rest, ran := r.ran ++ [b], units := [], allPass := r.allPass && decide (result = 1), seen := seen } = _
        rw [hseen, hpasses, decide_eq_true rfl, Bool.and_true]
        rfl
      rw [← hresult, ← hadvanced]
      rfl

theorem blockOf_bistRes {b i : Nat} (hb : b < 7) (hi : i ≤ 8) : blockOf (bistRes b + i) = 13 := by
  unfold blockOf bistRes
  omega

/-- The result registers of a test that passed. -/
theorem Mach.putResult_regs {m : Mach} (r : TestRun) (b : Nat) {steps : Nat} (sig : Word) (hc : m.canonical = true)
    (hs : steps < 2 ^ 24) :
    (m.putResult r b 1 0 steps steps sig).reg (bistRes b) = word (2 ^ 29 + r.kind.code * 2 ^ 27 + steps) ∧
      (m.putResult r b 1 0 steps steps sig).reg (bistRes b + 4) = word steps ∧
      (m.putResult r b 1 0 steps steps sig).reg (bistRes b + 8) = sig := by
  have hset : ∀ (k : Mach) a w, k.canonical = true → (k.setReg a w).canonical = true := fun k a w =>
    (Mach.setReg_within a w (k.within_refl [.regs]) rfl).2.1
  have hword : 1 * 2 ^ 29 + r.kind.code * 2 ^ 27 + 0 % 8 * 2 ^ 24 + steps % 2 ^ 24 = 2 ^ 29 + r.kind.code * 2 ^ 27 + steps := by omega
  unfold Mach.putResult
  rw [hword, Nat.mod_eq_of_lt hs]
  refine ⟨?_, ?_, ?_⟩
  · rw [Mach.reg_setReg_ne _ _ (by omega), Mach.reg_setReg_ne _ _ (by omega), Mach.reg_setReg_self _ _ _ hc]
  · rw [Mach.reg_setReg_ne _ _ (by omega), Mach.reg_setReg_self _ _ _ (hset _ _ _ hc)]
  · rw [Mach.reg_setReg_self _ _ _ (hset _ _ _ (hset _ _ _ hc))]

/-- The block as a run that no line waits for ends: DONE is shown, and `BIST_RUN` reads 0 after a run by command. -/
def Mach.runOver (m : Mach) (r : TestRun) : Mach :=
  let n := m.bistEvent 1
  let k := { n with bist := { n.bist with run := none } }
  if r.kind = .command then k.setReg 0x3400 0 else k

theorem Mach.runEnd_over (m : Mach) {r : TestRun} (hk : r.kind ≠ .shutdown) (hv : r.byVerb = false) :
    m.runEnd r false = (m.runOver r, none) := by
  unfold Mach.runEnd Mach.runOver
  cases h : r.kind with
  | shutdown => exact absurd h hk
  | start => rfl
  | command => simp [hv]

theorem Mach.runOver_effect {m : Mach} {r : TestRun} (hc : m.canonical = true) (h0 : m.on 0 = true) (hrun : m.bist.run = some r)
    (hseen : bitAt r.seen 0 = false) :
    (m.runOver r).bist = { m.bist with run := none } ∧ (m.runOver r).flag 0x3404 0 = true ∧
      (r.kind = .command → (m.runOver r).reg 0x3400 = 0) ∧ m.agrees (m.runOver r) .flue ∧
      ∀ x, 0x3410 ≤ x → (m.runOver r).reg x = m.reg x := by
  generalize hk : ({ m with bist := { m.bist with run := some { r with seen := r.seen ||| 1 } } } : Mach) = k
  have hform : m.bistEvent 1 = k.sqEvent 0x3404 (1 &&& ~~~r.seen) := by
    rw [Mach.bistEvent, hrun, ← hk]
  have hkc : k.canonical = true := by rw [← hk]; exact hc
  have hkclk : k.clk = m.clk := by rw [← hk]
  have hkreg : ∀ x, k.reg x = m.reg x := fun x => by rw [← hk]; rfl
  have hmask : bitAt (1 &&& ~~~r.seen) 0 = true := by
    rw [bitAt_and, show bitAt (~~~r.seen) 0 = !bitAt r.seen 0 by simp [bitAt], hseen]
    rfl
  have hset : (k.sqEvent 0x3404 (1 &&& ~~~r.seen)).flag 0x3404 0 = true :=
    Mach.sqEvent_sets hkc (by decide) hmask ((Mach.on_congr hkclk 0).trans h0)
  have hw := Mach.sqEvent_within k 0x3404 (1 &&& ~~~r.seen) (k.within_refl [.regs]) rfl
  have hbist : (k.sqEvent 0x3404 (1 &&& ~~~r.seen)).bist = { m.bist with run := some { r with seen := r.seen ||| 1 } } := by
    rw [Mach.sqEvent_bist, ← hk]
  have hflue : (k.sqEvent 0x3404 (1 &&& ~~~r.seen)).flue = m.flue := (hw.1 .flue (by simp)).trans (by rw [← hk])
  have hregs : ∀ x, 0x3410 ≤ x → (k.sqEvent 0x3404 (1 &&& ~~~r.seen)).reg x = m.reg x := fun x hx =>
    (Mach.sqEvent_reg_ne k _ (by omega) fun p => by cases p <;> simp only [accLast] <;> omega).trans (hkreg x)
  have hcanonical := hw.2.1 hkc
  unfold Mach.runOver
  rw [hform]
  generalize k.sqEvent 0x3404 (1 &&& ~~~r.seen) = n at *
  have hnone : ({ n.bist with run := none } : SelfTest) = { m.bist with run := none } := by rw [hbist]
  dsimp only
  split
  next hcommand =>
    refine ⟨hnone, ?_, fun _ => Mach.reg_setReg_self _ _ _ hcanonical, hflue, fun x hx => ?_⟩
    · exact (congrArg (bitAt · 0) (Mach.reg_setReg_ne _ _ (by decide))).trans hset
    · exact (Mach.reg_setReg_ne _ _ (by omega)).trans (hregs x hx)
  next hother => exact ⟨hnone, hset, fun h => absurd h hother, hflue, hregs⟩

/-- A test that passes, with others behind it. -/
theorem exec_selfTestEnd_goesOn {s : State} {r : TestRun} {b : Nat} {rest : List Nat} {o : TestOutcome} (hrun : s.m.bist.run = some r)
    (htodo : r.todo = b :: rest) (hsig : o.sigOk = true) (hsteps : o.steps = testSteps r b) (hunits : b = 6 → r.units ≠ [])
    (hrest : rest ≠ []) :
    ∃ t x, exec (.selfTestEnd o) s = .next t ∧ t.pending = s.pending ∧ t.m.bist.run = some x ∧ x.todo = rest ∧
      x.ran = r.ran ++ [b] ∧ x.kind = r.kind ∧ x.byPort = r.byPort ∧ x.allPass = r.allPass ∧
      t.m.bist = { s.m.bist with run := some x } ∧ s.m.agrees t.m .flue := by
  have hend := Mach.selfTestEnd_passed hrun htodo hsig hsteps hunits
  rw [if_neg (by simpa using hrest)] at hend
  have hresult := s.m.putResult_bist r b 1 0 o.steps (testSteps r b) o.sig
  have hput : s.m.agrees (s.m.putResult r b 1 0 o.steps (testSteps r b) o.sig) .flue :=
    (Mach.putResult_within s.m r b 1 0 o.steps (testSteps r b) o.sig (s.m.within_refl [.regs, .pa, .pb]) rfl).1 .flue (by simp)
  generalize s.m.putResult r b 1 0 o.steps (testSteps r b) o.sig = k at *
  obtain ⟨hserved, hflue, -⟩ := k.testServed_parts b (r.advanced b rest)
  generalize k.testServed b (r.advanced b rest) = n at *
  obtain ⟨us, hbegun⟩ := Mach.testBegin_bist (m := n) (congrArg SelfTest.run hserved)
  have hbflue : n.agrees n.testBegin .flue := (Mach.testBegin_within n (n.within_refl
    [.regs, .pa, .pb, .mot, .flt, .ang, .aux, .evt, .grd, .buf, .eng, .sec, .nv, .bist, .free]) rfl).1 .flue (by simp)
  rw [hserved, hresult] at hbegun
  exact ⟨⟨n.testBegin, s.pending⟩, { r.advanced b rest with units := us }, congrArg (fun x => goOn s (Mach.testReply x)) hend, rfl,
    congrArg SelfTest.run hbegun, rfl, rfl, rfl, rfl, rfl, hbegun, Mach.agrees_trans hput (Mach.agrees_trans hflue hbflue)⟩

/-- A test that passes and is the last of its run. -/
theorem exec_selfTestEnd_ends {s : State} {r : TestRun} {b : Nat} {o : TestOutcome} (hc : s.m.canonical = true) (h0 : s.m.on 0 = true)
    (hrun : s.m.bist.run = some r) (htodo : r.todo = [b]) (hb : b < 7) (hsig : o.sigOk = true) (hsteps : o.steps = testSteps r b)
    (hunits : b = 6 → r.units ≠ []) (hverb : r.byVerb = false) (hlt : o.steps < 2 ^ 24) (hseen : bitAt r.seen 0 = false)
    (hkind : r.kind ≠ .shutdown) :
    ∃ t, exec (.selfTestEnd o) s = .next t ∧ t.pending = s.pending ∧ t.m.bist = { s.m.bist with run := none } ∧
      t.m.flag 0x3404 0 = true ∧ (r.kind = .command → t.m.reg 0x3400 = 0) ∧
      (b ≠ 1 → t.m.reg (bistRes b) = word (2 ^ 29 + r.kind.code * 2 ^ 27 + o.steps) ∧
        t.m.reg (bistRes b + 4) = word o.steps ∧ t.m.reg (bistRes b + 8) = o.sig) ∧ s.m.agrees t.m .flue := by
  have hend := Mach.selfTestEnd_passed hrun htodo hsig hsteps hunits
  rw [if_pos List.isEmpty_nil, Mach.runEnd_over _ (r := r.advanced b []) hkind hverb, ← hsteps] at hend
  have hresult := s.m.putResult_bist r b 1 0 o.steps o.steps o.sig
  have hregs := Mach.putResult_regs r b o.sig hc hlt
  have hw := Mach.putResult_within s.m r b 1 0 o.steps o.steps o.sig (s.m.within_refl [.regs, .pa, .pb]) rfl
  have hput : s.m.agrees (s.m.putResult r b 1 0 o.steps o.steps o.sig) .flue := hw.1 .flue (by simp)
  have hclk : (s.m.putResult r b 1 0 o.steps o.steps o.sig).clk = s.m.clk := hw.1 .clk (by simp)
  have hcanonical := hw.2.1 hc
  generalize s.m.putResult r b 1 0 o.steps o.steps o.sig = k at *
  obtain ⟨hserved, hflue, hkeeps⟩ := k.testServed_parts b (r.advanced b [])
  have hon := (k.testServed_on b (r.advanced b []) 0).trans ((Mach.on_congr hclk 0).trans h0)
  have hread : b ≠ 1 → ∀ i ≤ 8, (k.testServed b (r.advanced b [])).reg (bistRes b + i) = k.reg (bistRes b + i) := fun h1 i hi =>
    k.testServed_reg _ h1 (blockOf_bistRes hb hi)
  generalize k.testServed b (r.advanced b []) = n at *
  obtain ⟨hbist, hdone, hcommand, hnflue, hkept⟩ := Mach.runOver_effect (m := n) (hkeeps hcanonical) hon
    (congrArg SelfTest.run hserved) hseen
  refine ⟨⟨n.runOver (r.advanced b []), s.pending⟩, congrArg (fun x => goOn s (Mach.testReply x)) hend, rfl, ?_, hdone, hcommand,
    fun h1 => ?_, Mach.agrees_trans hput (Mach.agrees_trans hflue hnflue)⟩
  · rw [hbist, hserved, hresult]
  · have hall : ∀ i ≤ 8, (n.runOver (r.advanced b [])).reg (bistRes b + i) = k.reg (bistRes b + i) := fun i hi =>
      (hkept _ (by unfold bistRes; omega)).trans (hread h1 i hi)
    obtain ⟨hres, hexpected, hsignature⟩ := hregs
    exact ⟨(hall 0 (by omega)).trans hres, (hall 4 (by omega)).trans hexpected, (hall 8 (by omega)).trans hsignature⟩

/-- Settles O49: a run of tests begins by `exec_bistRun_starts`; a test that passes gives its result and hands on to the next or ends
the run; a spare is brought in or its copy begun by `exec_spareUseGo_brings`, and a copy ends by `exec_spareCopyDone_ends`. -/
theorem testsAndSpares : Obligations.TestsAndSpares := by
  intro s hc hn h0
  refine ⟨fun ag w ht hw hcheck => exec_bistRun_starts ht hw hcheck,
    fun r b rest o hrun htodo hb hsig hsteps hunits hverb hlt hseen => ⟨fun hrest => ?_, fun hrest hkind => ?_⟩,
    fun ag w k u ht hgo hidle hk hu hr => ?_,
    fun c rest hcopies hr hlen => exec_spareCopyDone_ends hc hn h0 hcopies hr hlen⟩
  · exact exec_selfTestEnd_goesOn hrun htodo hsig hsteps hunits hrest
  · subst hrest
    exact exec_selfTestEnd_ends hc h0 hrun htodo hb hsig hsteps hunits hverb hlt hseen hkind
  · obtain ⟨t, ht, hpend, hcopies, hspared⟩ := exec_spareUseGo_brings hc hn h0 ht hgo hidle hk hu hr
    refine ⟨t, ht, hpend, hcopies, fun h2 => ?_, fun h => ?_, fun h => ?_, fun h => ?_, fun h => ?_⟩
    · obtain ⟨hkept, hshown, hwrote, -⟩ := hspared h2
      exact ⟨hkept, hshown, hwrote⟩
    all_goals obtain ⟨-, -, -, h3, h4, h5, h6⟩ := hspared (by omega)
    · exact h3 h
    · exact h4 h
    · exact h5 h
    · exact h6 h

end Sys2Proof.Machine
end
